-- ==== Sys2Proof/Word.lean ====
section
/-! DEFINITION. The word types of the machine (spec 00 R3, 07 R138): bytes, 32-bit registers, 64-bit words. -/

namespace Sys2Proof

/-- A byte of memory. -/
abbrev Byte := BitVec 8

/-- A 32-bit register or memory word. -/
abbrev Word := BitVec 32

/-- A 64-bit value: a register pair, an address, a control register, an instruction word. -/
abbrev DWord := BitVec 64

/-- A general register number as an operand field holds it (R147, Table 7-4). -/
abbrev VReg := BitVec 8

/-- A register pair as one 64-bit value: the even register holds bits [31:0] (R47). -/
def pairWord (lo hi : Word) : DWord := hi ++ lo

/-- The low half of a 64-bit value. -/
def loWord (x : DWord) : Word := x.setWidth 32

/-- The high half of a 64-bit value. -/
def hiWord (x : DWord) : Word := (x >>> 32).setWidth 32

end Sys2Proof
end

