-- ==== Sys2Proof/Syntax.lean ====
section
/-! DEFINITION. The syntax of the machine: one constructor of `Instr` for each row of spec/opcode_table.json,
instructions with a word first, then the steps of the device's own agents and of the outside.
Operand shapes follow the formats and encoding tables of spec 07-10 and 19. -/

namespace Sys2Proof

/-- A guard (R16, R146): predicate `p`, complemented when `neg`. -/
structure Guard where
  neg : Bool
  p : BitVec 3
deriving DecidableEq, Repr, Inhabited

/-- The TYPE codes 0-7 of Table 7-5a; code 3 is also written `.b64`. -/
inductive Ty where
  | s32 | n32 | s64 | n64 | f32 | f64 | bf16x2 | b32
deriving DecidableEq, Repr, Inhabited

/-- The TIER field (Table 7-5a): governed, or a forced tier. -/
inductive TierF where
  | gov | t0 | t1 | t2
deriving DecidableEq, Repr, Inhabited

/-- The RND field (R60). -/
inductive Rnd where
  | rne | rtz | rdn | rup
deriving DecidableEq, Repr, Inhabited

/-- Conditions of ISET (R165). -/
inductive ICond where
  | eq | ne | lt | le | gt | ge
deriving DecidableEq, Repr, Inhabited

/-- Conditions of FSET (R177). -/
inductive FCond where
  | eq | ne | lt | le | gt | ge | num | nan
deriving DecidableEq, Repr, Inhabited

/-- Special-register codes 0-12 (Table 8-3). -/
inductive SReg where
  | lane | warp | tid | quad | core | cg | cgcount | die | frag | parm | clock | bud | flags
deriving DecidableEq, Repr, Inhabited

/-- Format codes of CVT and CVTI (R181). -/
inductive FFmt where
  | bf16 | e4m3 | e5m2 | mk8 | fp4 | f32 | f64
deriving DecidableEq, Repr, Inhabited

/-- FMT codes of tile transfers (Table 10-5). -/
inductive TFmt where
  | f32 | bf16 | e4m3 | e5m2 | mk8 | fp4 | i8
deriving DecidableEq, Repr, Inhabited

/-- Memory scopes (Table 0-2). -/
inductive Scope where
  | quad | core | clu | die | pkg | fab | sys
deriving DecidableEq, Repr, Inhabited

/-- Ordering codes (R150). -/
inductive Ord where
  | rlx | acq | rel | ar
deriving DecidableEq, Repr, Inhabited

/-- Address spaces (Table 5-1). -/
inductive Space where
  | gl | sh | sc | pe
deriving DecidableEq, Repr, Inhabited

/-- Access widths (R150). -/
inductive Width where
  | b8 | b16 | b32 | b64 | b128 | s8 | s16
deriving DecidableEq, Repr, Inhabited

/-- Operations of ATOM (minors 0-6), RED and WRED (minors 0-5). -/
inductive AOp where
  | add | min | max | and | or | xor | exch
deriving DecidableEq, Repr, Inhabited

/-- Minors of VOTE (R221). -/
inductive VoteKind where
  | all | any | bal
deriving DecidableEq, Repr, Inhabited

/-- Minors of SHFL (R222). -/
inductive ShflKind where
  | idx | up | dn | bfly
deriving DecidableEq, Repr, Inhabited

/-- Reasons of an illegal-instruction trap (Table 7-8). -/
inductive IllReason where
  | header | klass | unassigned | memCode | reserved | register
deriving DecidableEq, Repr, Inhabited

/-- Control registers reached by MOVC (Tables 16-1, 17-1, 18-5). -/
inductive CReg where
  | partId | partClumaskLo | partClumaskHi | partRegulator | trapbaseSys | fragtabBase
  | lqSel | lqBase | lqCfg | lqHead | lqTail
  | serialNext | preemptWin | aging | classhold
  | ptRoot | migSrc | migDst | migCtl | shadowReq | shadowStat
  | evqBase | evqCfg | evqTail | evqHead | evqCobj | agentRetry | saveBase | saveSlots
deriving DecidableEq, Repr, Inhabited

/-! ## Operand shapes -/

/-- Format A or I with a destination only. -/
structure OpD where
  g : Guard
  d : VReg
deriving DecidableEq, Repr, Inhabited

/-- One source register only. -/
structure OpS where
  g : Guard
  a : VReg
deriving DecidableEq, Repr, Inhabited

/-- Destination and one source, no type. -/
structure OpDA where
  g : Guard
  d : VReg
  a : VReg
deriving DecidableEq, Repr, Inhabited

/-- Integer d, a (R162). -/
structure IntR where
  g : Guard
  ty : Ty
  sat : Bool
  d : VReg
  a : VReg
deriving DecidableEq, Repr, Inhabited

/-- Integer d, a, b (R162). -/
structure IntRR where
  g : Guard
  ty : Ty
  sat : Bool
  d : VReg
  a : VReg
  b : VReg
deriving DecidableEq, Repr, Inhabited

/-- Integer d, a, #imm: format I, the minor encoding the type (R149, R162). -/
structure IntRI where
  g : Guard
  ty : Ty
  d : VReg
  a : VReg
  imm : Word
deriving DecidableEq, Repr, Inhabited

/-- Integer d, a, b, c (R162). -/
structure IntRRR where
  g : Guard
  ty : Ty
  sat : Bool
  d : VReg
  a : VReg
  b : VReg
  c : VReg
deriving DecidableEq, Repr, Inhabited

/-- ISET p, a, b (R165). -/
structure IsetRR where
  g : Guard
  ty : Ty
  cond : ICond
  p : BitVec 3
  a : VReg
  b : VReg
deriving DecidableEq, Repr, Inhabited

/-- ISET p, a, #imm (R165). -/
structure IsetRI where
  g : Guard
  ty : Ty
  cond : ICond
  p : BitVec 3
  a : VReg
  imm : Word
deriving DecidableEq, Repr, Inhabited

/-- SEL d, a, b, pN (R166). -/
structure SelOps where
  g : Guard
  ty : Ty
  d : VReg
  a : VReg
  b : VReg
  p : BitVec 3
deriving DecidableEq, Repr, Inhabited

/-- LEA (R168): `signed` is TYPE 0. -/
structure LeaOps where
  g : Guard
  signed : Bool
  d : VReg
  a : VReg
  b : VReg
  sh : BitVec 4
deriving DecidableEq, Repr, Inhabited

/-- PLOG (R169). -/
structure PlogOps where
  g : Guard
  p : BitVec 3
  pa : BitVec 3
  pb : BitVec 3
  pc : BitVec 3
  tt : BitVec 8
deriving DecidableEq, Repr, Inhabited

/-- MOVS (R170). -/
structure MovsOps where
  g : Guard
  d : VReg
  src : SReg
deriving DecidableEq, Repr, Inhabited

/-- MOVI (R172). -/
structure MoviOps where
  g : Guard
  d : VReg
  imm : Word
deriving DecidableEq, Repr, Inhabited

/-- Operand modifiers of format A (R148): negate and absolute value of a and b. -/
structure Mods where
  na : Bool
  nb : Bool
  aa : Bool
  ab : Bool
deriving DecidableEq, Repr, Inhabited

/-- FADD, FSUB, FMUL (Table 8-5). -/
structure FltRR where
  g : Guard
  ty : Ty
  tier : TierF
  rnd : Rnd
  sat : Bool
  m : Mods
  d : VReg
  a : VReg
  b : VReg
deriving DecidableEq, Repr, Inhabited

/-- FFMA (Table 8-5). -/
structure FltRRR where
  g : Guard
  ty : Ty
  tier : TierF
  rnd : Rnd
  sat : Bool
  m : Mods
  d : VReg
  a : VReg
  b : VReg
  c : VReg
deriving DecidableEq, Repr, Inhabited

/-- FMIN, FMAX (Table 8-5). -/
structure FltMM where
  g : Guard
  ty : Ty
  m : Mods
  d : VReg
  a : VReg
  b : VReg
deriving DecidableEq, Repr, Inhabited

/-- FSET (R177): `sx` adds the straddle destination `q`. -/
structure FsetOps where
  g : Guard
  ty : Ty
  cond : FCond
  sx : Bool
  m : Mods
  p : BitVec 3
  q : BitVec 3
  a : VReg
  b : VReg
deriving DecidableEq, Repr, Inhabited

/-- FRND, FRCP, FRSQ, FSQRT, FEXP2, FLOG2 (Table 8-5): unused fields are fixed by WellFormed. -/
structure FltU where
  g : Guard
  ty : Ty
  tier : TierF
  rnd : Rnd
  na : Bool
  aa : Bool
  d : VReg
  a : VReg
deriving DecidableEq, Repr, Inhabited

/-- FSCL (R179). -/
structure FsclOps where
  g : Guard
  ty : Ty
  rnd : Rnd
  sat : Bool
  na : Bool
  aa : Bool
  d : VReg
  a : VReg
  b : VReg
deriving DecidableEq, Repr, Inhabited

/-- FCLS (R180). -/
structure FclsOps where
  g : Guard
  ty : Ty
  d : VReg
  a : VReg
deriving DecidableEq, Repr, Inhabited

/-- CVT (R181). -/
structure CvtOps where
  g : Guard
  src : FFmt
  dst : FFmt
  elem : BitVec 4
  rnd : Rnd
  sat : Bool
  na : Bool
  aa : Bool
  d : VReg
  a : VReg
deriving DecidableEq, Repr, Inhabited

/-- CVTI (R183). -/
structure CvtiOps where
  g : Guard
  ity : Ty
  fmt : FFmt
  rnd : Rnd
  na : Bool
  aa : Bool
  d : VReg
  a : VReg
deriving DecidableEq, Repr, Inhabited

/-- PK4 (R184). -/
structure Pk4Ops where
  g : Guard
  d : VReg
  a : VReg
  b : VReg
deriving DecidableEq, Repr, Inhabited

/-- UPK4 (R184): `signed` is `.i4`, `hi` is `.hi`. -/
structure Upk4Ops where
  g : Guard
  signed : Bool
  hi : Bool
  d : VReg
  a : VReg
deriving DecidableEq, Repr, Inhabited

/-- QNT and QNT.ol (R185). -/
structure QntOps where
  g : Guard
  rnd : Rnd
  d : VReg
  a : VReg
  fw : VReg
  c : VReg
deriving DecidableEq, Repr, Inhabited

/-- DQNT (R191). -/
structure DqntOps where
  g : Guard
  ol : Bool
  d : VReg
  a : VReg
  fw : VReg
deriving DecidableEq, Repr, Inhabited

/-- BRD (R193): `f` is `.f`. -/
structure BrdOps where
  g : Guard
  f : Bool
  d : VReg
  a : VReg
deriving DecidableEq, Repr, Inhabited

/-- BRAISE (R194): `f32` is TYPE 4, otherwise TYPE 7. -/
structure BraiseOps where
  g : Guard
  f32 : Bool
  set : Bool
  pair : Bool
  d : VReg
  a : VReg
  b : VReg
deriving DecidableEq, Repr, Inhabited

/-- BUDGET #imm (R195). -/
structure ImmOps where
  g : Guard
  imm : Word
deriving DecidableEq, Repr, Inhabited

/-- BCHK (R196). -/
structure BchkOps where
  g : Guard
  reg : Bool
  trap : Bool
  p : BitVec 3
  a : VReg
  b : VReg
deriving DecidableEq, Repr, Inhabited

/-- LD, ST, PREF: format M (R150, Table 9-1). -/
structure MemOps where
  g : Guard
  w : Width
  ord : Ord
  scope : Scope
  evc : BitVec 3
  space : Space
  rp : Bool
  d : VReg
  a : VReg
  ofs : BitVec 18
deriving DecidableEq, Repr, Inhabited

/-- PREF (Table 9-1): `sh` is space 1. -/
structure PrefOps where
  g : Guard
  evc : BitVec 3
  sh : Bool
  a : VReg
  ofs : BitVec 18
deriving DecidableEq, Repr, Inhabited

/-- FENCE (R205). -/
structure FenceOps where
  g : Guard
  ord : Ord
  scope : Scope
deriving DecidableEq, Repr, Inhabited

/-- FENCE.j (R205). -/
structure FenceJOps where
  g : Guard
  scope : Scope
deriving DecidableEq, Repr, Inhabited

/-- SMAP and SMAP.un (Table 9-3): OR is a field of both, and SMAP.un does not read it. -/
structure SmapOps where
  g : Guard
  lr : VReg
  a : VReg
  orr : VReg
deriving DecidableEq, Repr, Inhabited

/-- A virtual range: length register and start pair (SMAP.un, SWB, SINV, CWB, TLBI, ICINV). -/
structure RangeOps where
  g : Guard
  lr : VReg
  a : VReg
deriving DecidableEq, Repr, Inhabited

/-- ATOM, RED: format MA (R210). -/
structure AtomOps where
  g : Guard
  op : AOp
  ty : Ty
  ord : Ord
  scope : Scope
  evc : BitVec 3
  space : Space
  rp : Bool
  d : VReg
  a : VReg
  b : VReg
deriving DecidableEq, Repr, Inhabited

/-- ACAS (R210). -/
structure AcasOps where
  g : Guard
  ty : Ty
  ord : Ord
  scope : Scope
  evc : BitVec 3
  space : Space
  rp : Bool
  d : VReg
  a : VReg
  b : VReg
  c : VReg
deriving DecidableEq, Repr, Inhabited

/-- CSIG, CPEND, CWAIT (R213): `wide` is TYPE 3. -/
structure CobjOps where
  g : Guard
  wide : Bool
  ord : Ord
  scope : Scope
  evc : BitVec 3
  space : Space
  rp : Bool
  a : VReg
  b : VReg
deriving DecidableEq, Repr, Inhabited

/-- CRD (R213). -/
structure CrdOps where
  g : Guard
  ord : Ord
  scope : Scope
  evc : BitVec 3
  space : Space
  rp : Bool
  d : VReg
  a : VReg
deriving DecidableEq, Repr, Inhabited

/-- Group-barrier instructions (R218). -/
structure BarOps where
  g : Guard
  b : BitVec 4
deriving DecidableEq, Repr, Inhabited

/-- MJOIN, MLEAVE, MWAIT (R219). -/
structure MaskOps where
  g : Guard
  m : BitVec 4
deriving DecidableEq, Repr, Inhabited

/-- MRD, MWR (R219): `r` is D or A. -/
structure MaskRegOps where
  g : Guard
  m : BitVec 4
  r : VReg
deriving DecidableEq, Repr, Inhabited

/-- VOTE (R221): `d` names a predicate for `.all` and `.any`. -/
structure VoteOps where
  g : Guard
  kind : VoteKind
  d : VReg
  ps : BitVec 3
deriving DecidableEq, Repr, Inhabited

/-- SHFL (R222): `wide` is TYPE 3. -/
structure ShflOps where
  g : Guard
  kind : ShflKind
  wide : Bool
  d : VReg
  a : VReg
  b : VReg
deriving DecidableEq, Repr, Inhabited

/-- WRED (R223). -/
structure WredOps where
  g : Guard
  op : AOp
  ty : Ty
  d : VReg
  a : VReg
deriving DecidableEq, Repr, Inhabited

/-- GEN (Table 9-6): offsets in 8-byte units from the clause header. -/
structure GenOps where
  g : Guard
  split : VReg
  thr : BitVec 6
  prod : BitVec 16
  cons : BitVec 16
deriving DecidableEq, Repr, Inhabited

/-- YLD (Table 9-6). -/
structure YldOps where
  g : Guard
  two : Bool
  a : VReg
  b : VReg
deriving DecidableEq, Repr, Inhabited

/-- TAKE (Table 9-6). -/
structure TakeOps where
  g : Guard
  two : Bool
  src : Bool
  d : VReg
  d2 : VReg
  ds : VReg
deriving DecidableEq, Repr, Inhabited

/-- BRA, CALL label (R230). -/
structure RelOps where
  g : Guard
  ofs : Word
deriving DecidableEq, Repr, Inhabited

/-- MMA, MMAO: format X (Table 10-2). -/
structure MmaOps where
  g : Guard
  wd : BitVec 3
  ws : BitVec 3
  qa : BitVec 3
  qb : BitVec 3
  fw : VReg
  aux : VReg
  kb : BitVec 4
  dr : Bool
  z : Bool
  tb : Bool
  ta : Bool
deriving DecidableEq, Repr, Inhabited

/-- WZERO (Table 10-2). -/
structure TileOps where
  g : Guard
  wd : BitVec 3
deriving DecidableEq, Repr, Inhabited

/-- WMOV (Table 10-2). -/
structure WmovOps where
  g : Guard
  wd : BitVec 3
  ws : BitVec 3
  dr : Bool
deriving DecidableEq, Repr, Inhabited

/-- WLD, WST (Table 10-5). -/
structure TileMemOps where
  g : Guard
  w : BitVec 3
  a : VReg
  ofs : BitVec 18
  ord : Ord
  scope : Scope
  evc : BitVec 3
  space : Space
  rp : Bool
  fmt : TFmt
deriving DecidableEq, Repr, Inhabited

/-- WDRN (Table 10-5). -/
structure WdrnOps where
  g : Guard
  d : VReg
  w : BitVec 3
  z : Bool
  fmt : TFmt
deriving DecidableEq, Repr, Inhabited

/-- WBND (Table 10-5). -/
structure WbndOps where
  g : Guard
  d : VReg
  w : BitVec 3
  f : Bool
deriving DecidableEq, Repr, Inhabited

/-- QPOP, QCNT (Table 10-6). -/
structure QueueOps where
  g : Guard
  d : VReg
  q : BitVec 3
deriving DecidableEq, Repr, Inhabited

/-- QPEEK (Table 10-6). -/
structure QpeekOps where
  g : Guard
  d : VReg
  q : BitVec 3
  p : BitVec 3
deriving DecidableEq, Repr, Inhabited

/-- QDROP (Table 10-6). -/
structure QdropOps where
  g : Guard
  q : BitVec 3
deriving DecidableEq, Repr, Inhabited

/-- SLOOP (Table 10-7): with `rf` the count is register `c`, and `n` is zero. -/
structure SloopOps where
  a : BitVec 5
  c : BitVec 5
  rf : Bool
  n : BitVec 16
deriving DecidableEq, Repr, Inhabited

/-- SFETCH (Table 10-7). -/
structure SfetchOps where
  q : BitVec 3
  a : BitVec 5
  s : BitVec 5
  rows : BitVec 8
  bytes : BitVec 9
  ofs : BitVec 18
deriving DecidableEq, Repr, Inhabited

/-- SMARK (Table 10-7). -/
structure SmarkOps where
  q : BitVec 3
  t : BitVec 5
deriving DecidableEq, Repr, Inhabited

/-- SWAITC (Table 10-7). -/
structure SwaitcOps where
  a : BitVec 5
  t : BitVec 5
  wide : Bool
deriving DecidableEq, Repr, Inhabited

/-- LNCH (R258). -/
structure LnchOps where
  g : Guard
  d : VReg
  a : VReg
  b : VReg
deriving DecidableEq, Repr, Inhabited

/-- TRAP, BKPT, SLEEP (R233). -/
structure CodeOps where
  g : Guard
  code : BitVec 16
deriving DecidableEq, Repr, Inhabited

/-- PHINT (R233): ROFS. -/
structure PhintOps where
  g : Guard
  rofs : Word
deriving DecidableEq, Repr, Inhabited

/-- MOVC read or write (R326): `r` is D or A. -/
structure MovcOps where
  g : Guard
  cr : CReg
  r : VReg
deriving DecidableEq, Repr, Inhabited

/-! ## Arguments of events -/

/-- Who enters a clause: threads of one quad at a header, or an access-slice instance. -/
inductive EntryAt where
  | threads (core quad : Nat) (hdr : DWord)
  | slice (qg : Nat)
deriving DecidableEq, Repr, Inhabited

/-- What the management controller does to a key slot (R302). -/
inductive KeyOp where
  | load
  | assign (part : Nat)
  | empty
deriving DecidableEq, Repr, Inhabited

/-- A host access through the HDM window (R354). -/
inductive HdmOp where
  | read (bytes : Nat)
  | write (data : List Byte)
deriving DecidableEq, Repr, Inhabited

/-- Where an uncorrectable error stands (R321, R322): a memory line, a thread's register by its storage (`Thread.bad`), a warp's tile
row by 32·tile + lane, a queue's entry from the oldest, a scratch word or a stash line of a core group. -/
inductive ErrAt where
  | line (n : Nat)
  | register (thread n : Nat)
  | row (warp n : Nat)
  | entry (qg q n : Nat)
  | scratch (cg word : Nat)
  | stash (cg n : Nat)
deriving DecidableEq, Repr, Inhabited

/-- Through which window a power request arrives (R352): the physical function, or partition p's page. -/
inductive PowerView where
  | physical
  | virtual (p : Nat)
deriving DecidableEq, Repr, Inhabited

/-- How the running firmware's start ends (R361). -/
inductive StartEnd where
  | ready
  | fatal
  | trainingFailed
deriving DecidableEq, Repr, Inhabited

/-- What a cluster draws in a tick of its slope controller (R350): the current of its real work, in mA, and the energy of the
filler operations that the controller issues. -/
structure SlopeDraw where
  current : Nat
  filler : Nat
deriving DecidableEq, Repr, Inhabited

/-- A snoop of a host-memory line (R354): whether it invalidates, and what the host has since written to the line. -/
structure HostSnoop where
  inval : Bool
  data : Option (List Byte)
deriving DecidableEq, Repr, Inhabited

/-- Where a remote copy comes from and the inbound window it names (R359, R360): the source device, the slot of its ring, and
the window's number. -/
structure CopyOrigin where
  src : BitVec 19
  slot : Nat
  window : Nat
deriving DecidableEq, Repr, Inhabited

/-- The instructions and events of the device, one constructor for each row of the opcode table. -/
inductive Instr where
  -- integer, logic, move and predicate instructions (R162-R172)
  | iadd (x : IntRR)
  | iaddImm (x : IntRI)
  | isub (x : IntRR)
  | isubImm (x : IntRI)
  | imul (x : IntRR)
  | imulImm (x : IntRI)
  | imulh (x : IntRR)
  | imad (x : IntRRR)
  | imin (x : IntRR)
  | iminImm (x : IntRI)
  | imax (x : IntRR)
  | imaxImm (x : IntRI)
  | iabs (x : IntR)
  | and (x : IntRR)
  | andImm (x : IntRI)
  | or (x : IntRR)
  | orImm (x : IntRI)
  | xor (x : IntRR)
  | xorImm (x : IntRI)
  | shl (x : IntRR)
  | shlImm (x : IntRI)
  | shr (x : IntRR)
  | shrImm (x : IntRI)
  | sar (x : IntRR)
  | sarImm (x : IntRI)
  | bfx (x : IntRR)
  | bfi (x : IntRRR)
  | popc (x : IntR)
  | clz (x : IntR)
  | brev (x : IntR)
  | iset (x : IsetRR)
  | isetImm (x : IsetRI)
  | sel (x : SelOps)
  | mov (x : IntR)
  | movFromLk (x : OpD)
  | movToLk (x : OpS)
  | lea (x : LeaOps)
  | plog (x : PlogOps)
  | pmovGet (x : OpD)
  | pmovPut (x : OpS)
  | movs (x : MovsOps)
  | movi (x : MoviOps)
  | movi64 (x : MoviOps)
  | nop (g : Guard)
  -- floating-point instructions (R173-R180)
  | fadd (x : FltRR)
  | fsub (x : FltRR)
  | fmul (x : FltRR)
  | ffma (x : FltRRR)
  | fmin (x : FltMM)
  | fmax (x : FltMM)
  | fset (x : FsetOps)
  | frnd (x : FltU)
  | frcp (x : FltU)
  | frsq (x : FltU)
  | fsqrt (x : FltU)
  | fexp2 (x : FltU)
  | flog2 (x : FltU)
  | fscl (x : FsclOps)
  | fcls (x : FclsOps)
  -- conversion, packing and quantisation (R181-R191)
  | cvt (x : CvtOps)
  | cvtiF2i (x : CvtiOps)
  | cvtiI2f (x : CvtiOps)
  | qnt (x : QntOps)
  | qntOl (x : QntOps)
  | dqnt (x : DqntOps)
  | pk4 (x : Pk4Ops)
  | upk4 (x : Upk4Ops)
  -- bounds, budget and flags (R192-R197)
  | brd (x : BrdOps)
  | braise (x : BraiseOps)
  | budget (x : OpS)
  | budgetImm (x : ImmOps)
  | bchk (x : BchkOps)
  | flgrd (x : OpD)
  | flgrdClr (x : OpDA)
  -- memory, stash, atomics (R198-R212)
  | ld (x : MemOps)
  | st (x : MemOps)
  | pref (x : PrefOps)
  | smap (x : SmapOps)
  | smapUn (x : SmapOps)
  | swb (x : RangeOps)
  | swbAll (g : Guard)
  | sinv (x : RangeOps)
  | sinvAll (g : Guard)
  | cwb (x : RangeOps)
  | atom (x : AtomOps)
  | acas (x : AcasOps)
  | red (x : AtomOps)
  | fence (x : FenceOps)
  | fenceJ (x : FenceJOps)
  -- count objects and barriers (R213-R218)
  | csig (x : CobjOps)
  | csigFl (x : CobjOps)
  | cpendAdd (x : CobjOps)
  | cpendSub (x : CobjOps)
  | cwait (x : CobjOps)
  | cwaitReevaluate (gid : Nat)
  | crd (x : CrdOps)
  | gbar (x : BarOps)
  | garr (x : BarOps)
  | gdrop (x : BarOps)
  | gjoin (x : BarOps)
  -- masks, vote, shuffle, warp reduce (R219-R223)
  | mjoin (x : MaskOps)
  | mleave (x : MaskOps)
  | mwait (x : MaskOps)
  | mrd (x : MaskRegOps)
  | mwr (x : MaskRegOps)
  | vote (x : VoteOps)
  | shfl (x : ShflOps)
  | wred (x : WredOps)
  -- generators (R224-R229)
  | gen (x : GenOps)
  | yld (x : YldOps)
  | gend (g : Guard)
  | take (x : TakeOps)
  | gstat (x : OpD)
  -- control flow (R230-R232)
  | bra (x : RelOps)
  | brx (x : OpS)
  | call (x : RelOps)
  | callReg (x : OpS)
  | ret (g : Guard)
  | exit (g : Guard)
  -- matrix and queues (R237-R252)
  | mma (x : MmaOps)
  | mmao (x : MmaOps)
  | wzero (x : TileOps)
  | wld (x : TileMemOps)
  | wst (x : TileMemOps)
  | wdrn (x : WdrnOps)
  | wmov (x : WmovOps)
  | wbnd (x : WbndOps)
  | qpop (x : QueueOps)
  | qpeek (x : QpeekOps)
  | qcnt (x : QueueOps)
  | qdrop (x : QdropOps)
  | queueEntryReady (qg q entry : Nat)
  -- the access slice (R253-R257)
  | sloop (x : SloopOps)
  | snext (a : BitVec 5)
  | sfetch (x : SfetchOps)
  | smark (x : SmarkOps)
  | swaitc (x : SwaitcOps)
  | sdone
  -- jobs and launches (R258-R262)
  | job (x : OpS)
  | jobAccept (gid : Nat)
  | jobStart (part job : Nat)
  | jobCompletion (part job : Nat)
  | grow (x : OpDA)
  | lnch (x : LnchOps)
  -- traps and hints (R233-R236)
  | trap (x : CodeOps)
  | bkpt (x : CodeOps)
  | phint (x : PhintOps)
  | sleep (x : CodeOps)
  | sleepEnd (gid : Nat)
  -- the privileged set (R324-R336)
  | rte (g : Guard)
  | movcRead (x : MovcOps)
  | movcWrite (x : MovcOps)
  | tlbi (x : RangeOps)
  | tlbiAll (g : Guard)
  | icinv (x : RangeOps)
  | icinvAll (g : Guard)
  | fres (x : OpDA)
  | fdisc (x : OpDA)
  | save (x : OpDA)
  | rest (x : OpDA)
  | sbrd (x : OpDA)
  | halt (x : OpDA)
  -- clause entry, launch queues, dispatch and completion
  | clauseEntry (e : EntryAt)
  | lqTailWrite (part q : Nat) (tail : Word)
  | lqActivate (part q : Nat)
  | lqPause (part q : Nat)
  | lqOff (part q : Nat)
  | launchRecordTake (part : Nat)
  | indexReady (part serial idx : Nat)
  | dispatch (part serial idx cluster : Nat)
  | agingExpiry (part serial idx : Nat)
  | tileFillComplete (cg : Nat)
  | clusterGroupCompletion (cg : Nat)
  | agentRetryRetry (part : Nat)
  | agentRetryAbandon (part : Nat)
  | eventPost (part : Nat)
  | evqOvfClear (part : Nat) (v : Word)
  | controlRegisterWrite (part : Nat) (cr : CReg) (v : DWord)
  -- pre-emption
  | preemptWindowExpiry (warp : Nat)
  | warpSave (warp : Nat)
  | warpRestore (part slot : Nat)
  -- migration, shadow, errors, partitions, keys
  | migGo (part : Nat)
  | migCopyDone (part : Nat)
  | migSwitch (part : Nat)
  | migAbort (part : Nat)
  | shadowAttach (part : Nat)
  | shadowDetach (part : Nat)
  | uncorrectableLineError (at_ : ErrAt)
  | functionFence (unit : Nat)
  | partitionChange (part : Nat) (mask : BitVec 128)
  | keySlotChange (slot : Nat) (op : KeyOp)
  -- host, pools and links
  | hostPostedWrite (addr : DWord) (data : List Byte) (relaxed : Bool)
  | hostHdmAccess (ofs : Nat) (op : HdmOp)
  | recCmdRead
  | recCmdWrite
  | poolWindowAttach (w : Nat) (base size : Nat) (shared : Bool)
  | combiningClose (slice line : Nat)
  | snoopWritebackCrossing (line : Nat) (inval : Bool)
  | linkSleep (die : Nat)
  | linkWakeDone (die : Nat)
  | snoopSlow (die : Nat)
  | dieUnresponsive (die : Nat)
  | sectorThrottle (sector : Nat) (cur : BitVec 8)
  -- power
  | cluReqWrite (cluster : Nat) (v : Word) (view : PowerView)
  | rampEnd (cluster : Nat)
  | canaryWarning (cluster : Nat)
  | canofsDecay (cluster : Nat)
  | slopeTick (cluster energy : Nat) (draw : SlopeDraw)
  -- remote copies
  | ewTailWrite (part : Nat) (tail : Word)
  | remoteCopyCompletion (part slot : Nat)
  -- start-up
  | deviceStart
  | firmwareTimeout
  | bootCmdCommit (v : Word)
  | recoveryVerifyDone
  -- SPDM over DOE
  | getVersion
  | getCapabilities
  | negotiateAlgorithms
  | getDigests
  | getCertificate (slot : Nat)
  | challenge (slot : Nat) (nonce : List Byte)
  | getMeasurements (index : Nat) (nonce : List Byte)
  -- the rest of the table, in its order
  | illegalInstruction (reason : IllReason) (word : DWord)
  | firmwareStartEnd (e : StartEnd)
  | migrationSourceLineError (part : Nat) (line : Nat)
  | hostCxlSnoop (line : Nat) (snoop : HostSnoop)
  | poolBackInvalidation (line : Nat) (data : Option (List Byte))
  | inboundRemoteCopy (origin : CopyOrigin) (dofs : Nat) (data : List (Word × BitVec 16)) (rcobj : Nat)
  | swaitcReevaluate (qg : Nat)
deriving DecidableEq, Repr, Inhabited

end Sys2Proof
end

