-- ==== Sys2Proof/WellFormed.lean ====
section
/-! DEFINITION. Which operands each instruction admits, split by the reason of Table 7-8 that a departure takes:
`wfCode` (reason 3: ordering, scope and width codes, RP), `wfField` (reason 4: other admitted values),
`wfReg` (reason 5: aligned registers, R147). The checks that need the register allocation are in Decode. -/

namespace Sys2Proof

/-- 64-bit types name pairs (R148). -/
def Ty.wide : Ty → Bool
  | .s64 | .n64 | .f64 => true
  | _ => false

def Ty.isInt : Ty → Bool
  | .s32 | .n32 | .s64 | .n64 => true
  | _ => false

/-- Types 0-3 and 7 (Table 8-1). -/
def Ty.isIntOrBits (t : Ty) : Bool := t.isInt || t == .b32

def Ty.isFlt : Ty → Bool
  | .f32 | .f64 => true
  | _ => false

def Ty.isFlt3 (t : Ty) : Bool := t.isFlt || t == .bf16x2

/-- Operand size in bytes of an atomic (R210). -/
def Ty.bytes (t : Ty) : Nat := if t.wide then 8 else 4

def FFmt.wide (f : FFmt) : Bool := f == .f64

/-- Elements of a format in a 32-bit word (R181). -/
def FFmt.elems : FFmt → Nat
  | .bf16 => 2
  | .e4m3 | .e5m2 | .mk8 => 4
  | .fp4 => 8
  | .f32 | .f64 => 1

def even (r : VReg) : Bool := r.toNat % 2 == 0
def mult4 (r : VReg) : Bool := r.toNat % 4 == 0
def mult8 (r : VReg) : Bool := r.toNat % 8 == 0
def evenIf (b : Bool) (r : VReg) : Bool := !b || even r
def even5 (r : BitVec 5) : Bool := r.toNat % 2 == 0

/-- Types an atomic or reduction admits (Table 9-4). -/
def AOp.admits (op : AOp) (t : Ty) : Bool :=
  match op with
  | .add | .min | .max => t.isInt || t.isFlt
  | .and | .or | .xor => t == .n32 || t == .n64 || t == .b32
  | .exch => t != .bf16x2

/-- The address operand of a space: an even pair for global and stash (R150). -/
def addrOk (sp : Space) (a : VReg) : Bool :=
  match sp with
  | .gl | .sh => even a
  | .sc | .pe => true

/-- The data register of an access width (R150). -/
def dataOk (w : Width) (d : VReg) : Bool :=
  match w with
  | .b64 => even d
  | .b128 => mult4 d
  | _ => true

/-- 64-bit special registers (Table 8-3). -/
def SReg.wide : SReg → Bool
  | .parm | .clock => true
  | _ => false

/-- 64-bit control registers (Tables 16-1, 17-1, 18-5). -/
def CReg.wide : CReg → Bool
  | .partClumaskLo | .partClumaskHi | .trapbaseSys | .fragtabBase | .lqBase | .serialNext
  | .ptRoot | .migSrc | .migDst | .shadowReq | .evqBase | .evqCobj | .saveBase => true
  | _ => false

/-- Registers a MOVC may not write: those marked RO, and those the tables mark MC (R273, R326). -/
def CReg.readOnly : CReg → Bool
  | .partId | .partClumaskLo | .partClumaskHi | .partRegulator | .lqHead | .serialNext
  | .shadowStat | .evqTail => true
  | _ => false

namespace Instr

/-- Ordering, width and RP codes (reason 3). -/
def wfCode : Instr → Bool
  | .ld x => (x.ord == .rlx || x.ord == .acq) && (!x.rp || x.ord == .acq)
  | .st x => (x.ord == .rlx || x.ord == .rel) && !x.rp && x.w != .s8 && x.w != .s16
  | .fence x => x.ord != .rlx
  | .atom x => !x.rp || x.ord == .acq || x.ord == .ar
  | .acas x => !x.rp || x.ord == .acq || x.ord == .ar
  | .red x => (x.ord == .rlx || x.ord == .rel) && !x.rp
  | .csig x => (x.ord == .rlx || x.ord == .rel) && !x.rp
  | .csigFl x => (x.ord == .rlx || x.ord == .rel) && !x.rp
  | .cpendAdd x => (x.ord == .rlx || x.ord == .rel) && !x.rp
  | .cpendSub x => (x.ord == .rlx || x.ord == .rel) && !x.rp
  | .cwait x => x.ord == .acq
  | .crd x => (x.ord == .rlx || x.ord == .acq) && (!x.rp || x.ord == .acq)
  | .wld x => (x.ord == .rlx || x.ord == .acq) && (!x.rp || x.ord == .acq)
  | .wst x => x.ord == .rlx || x.ord == .rel
  | _ => true

/-- Types and other field values (reason 4). -/
def wfField : Instr → Bool
  | .iadd x | .isub x | .imul x => x.ty.isIntOrBits && !(x.sat && x.ty == .b32)
  | .iaddImm x | .isubImm x | .imulImm x => x.ty.isIntOrBits
  | .imulh x | .imin x | .imax x | .bfx x => x.ty.isInt && !x.sat
  | .iminImm x | .imaxImm x => x.ty.isInt
  | .imad x => x.ty.isIntOrBits && !(x.sat && x.ty == .b32)
  | .iabs x => x.ty == .s32 || x.ty == .s64
  | .and x | .or x | .xor x | .shl x | .shr x | .sar x => x.ty.isIntOrBits && !x.sat
  | .andImm x | .orImm x | .xorImm x | .shlImm x | .shrImm x | .sarImm x => x.ty.isIntOrBits
  | .bfi x => x.ty.isIntOrBits && !x.sat
  | .popc x | .clz x | .brev x | .mov x => x.ty.isIntOrBits && !x.sat
  | .iset x => x.ty.isInt
  | .isetImm x => x.ty.isInt
  | .sel x => x.ty.isIntOrBits
  | .fadd x | .fsub x | .fmul x => x.ty.isFlt3
  | .ffma x => x.ty.isFlt3
  | .fmin x | .fmax x => x.ty.isFlt3
  | .fset x => x.ty.isFlt && (x.sx || x.q == 0)
  | .frnd x => x.ty.isFlt && x.tier == .gov
  | .frcp x | .frsq x | .fexp2 x | .flog2 x => x.ty.isFlt && x.rnd == .rne
  | .fsqrt x => x.ty.isFlt
  | .fscl x => x.ty.isFlt
  | .fcls x => x.ty.isFlt
  | .cvt x => decide (x.elem.toNat < x.src.elems)
  | .cvtiF2i x => x.ity.isInt && (x.fmt == .bf16 || x.fmt == .f32 || x.fmt == .f64)
  | .cvtiI2f x => x.ity.isInt && (x.fmt == .bf16 || x.fmt == .f32 || x.fmt == .f64) && !x.na && !x.aa
  | .budgetImm x => x.imm.extractLsb' 0 2 != 3#2 && x.imm.extractLsb' 2 6 == 0#6 && x.imm.extractLsb' 11 5 == 0#5
  | .bchk x => x.reg || x.b == 0
  | .atom x => x.op.admits x.ty
  | .acas x => x.ty.isIntOrBits
  | .red x => x.op.admits x.ty && x.op != .exch && x.d == 0
  | .wred x => x.op.admits x.ty && x.op != .exch
  | .cpendAdd x | .cpendSub x => !x.wide
  | .vote x => x.kind == .bal || decide (x.d.toNat < 8)
  | .yld x => x.two || x.b == 0
  | .take x => (x.two || x.d2 == 0) && (x.src || x.ds == 0)
  | .bra x | .call x => decide (x.ofs.toNat % 8 = 0)
  | .mma x | .mmao x => !(x.dr && (x.ws == x.wd || x.z))
  | .wmov x => !(x.dr && x.ws == x.wd)
  | .wld x => x.fmt == .f32
  | .wst x => !x.rp
  | .sloop x => if x.rf then x.n == 0 else true
  | .phint x => decide (x.rofs.toNat % 64 = 0)
  | .movcWrite x => !x.cr.readOnly
  | .illegalInstruction r _ => r == .unassigned
  | _ => true

/-- Register fields (reason 5): even pairs, aligned groups, masks below 12 (R147). -/
def wfReg : Instr → Bool
  | .iadd x | .isub x | .imul x | .imulh x | .imin x | .imax x | .and x | .or x | .xor x
  | .shl x | .shr x | .sar x | .bfx x => evenIf x.ty.wide x.d && evenIf x.ty.wide x.a && evenIf x.ty.wide x.b
  | .iaddImm x | .isubImm x | .imulImm x | .iminImm x | .imaxImm x | .andImm x | .orImm x | .xorImm x
  | .shlImm x | .shrImm x | .sarImm x => evenIf x.ty.wide x.d && evenIf x.ty.wide x.a
  | .imad x | .bfi x => evenIf x.ty.wide x.d && evenIf x.ty.wide x.a && evenIf x.ty.wide x.b && evenIf x.ty.wide x.c
  | .iabs x | .popc x | .clz x | .brev x | .mov x => evenIf x.ty.wide x.d && evenIf x.ty.wide x.a
  | .iset x => evenIf x.ty.wide x.a && evenIf x.ty.wide x.b
  | .isetImm x => evenIf x.ty.wide x.a
  | .sel x => evenIf x.ty.wide x.d && evenIf x.ty.wide x.a && evenIf x.ty.wide x.b
  | .movFromLk x => even x.d
  | .movToLk x => even x.a
  | .lea x => even x.d && even x.a
  | .movs x => evenIf x.src.wide x.d
  | .movi64 x => even x.d
  | .fadd x | .fsub x | .fmul x => evenIf x.ty.wide x.d && evenIf x.ty.wide x.a && evenIf x.ty.wide x.b
  | .ffma x => evenIf x.ty.wide x.d && evenIf x.ty.wide x.a && evenIf x.ty.wide x.b && evenIf x.ty.wide x.c
  | .fmin x | .fmax x => evenIf x.ty.wide x.d && evenIf x.ty.wide x.a && evenIf x.ty.wide x.b
  | .fset x => evenIf x.ty.wide x.a && evenIf x.ty.wide x.b
  | .frnd x | .frcp x | .frsq x | .fsqrt x | .fexp2 x | .flog2 x => evenIf x.ty.wide x.d && evenIf x.ty.wide x.a
  | .fscl x => evenIf x.ty.wide x.d && evenIf x.ty.wide x.a
  | .fcls x => evenIf x.ty.wide x.d && evenIf x.ty.wide x.a
  | .cvt x => evenIf x.dst.wide x.d && evenIf x.src.wide x.a
  | .cvtiF2i x => evenIf x.ity.wide x.d && evenIf x.fmt.wide x.a
  | .cvtiI2f x => evenIf x.fmt.wide x.d && evenIf x.ity.wide x.a
  | .qntOl x => even x.d && even x.c
  | .dqnt x => evenIf x.ol x.a
  | .braise x => evenIf x.pair x.d && evenIf x.pair x.a
  | .ld x | .st x => addrOk x.space x.a && dataOk x.w x.d
  | .pref x => even x.a
  | .smap x | .smapUn x => even x.a
  | .swb x | .sinv x | .cwb x | .tlbi x | .icinv x => even x.a
  | .atom x => addrOk x.space x.a && evenIf x.ty.wide x.d && evenIf x.ty.wide x.b
  | .red x => addrOk x.space x.a && evenIf x.ty.wide x.b
  | .acas x => addrOk x.space x.a && evenIf x.ty.wide x.d && evenIf x.ty.wide x.b && evenIf x.ty.wide x.c
  | .csig x | .csigFl x | .cpendAdd x | .cpendSub x | .cwait x => addrOk x.space x.a && evenIf x.wide x.b
  | .crd x => addrOk x.space x.a && mult4 x.d
  | .mjoin x | .mleave x | .mwait x => decide (x.m.toNat < 12)
  | .mrd x | .mwr x => decide (x.m.toNat < 12)
  | .shfl x => evenIf x.wide x.d && evenIf x.wide x.a
  | .wred x => evenIf x.ty.wide x.d && evenIf x.ty.wide x.a
  | .brx x | .callReg x => even x.a
  | .wld x | .wst x => addrOk x.space x.a
  | .wdrn x => mult4 x.d
  | .sfetch x => even5 x.a
  | .swaitc x => even5 x.a && (!x.wide || even5 x.t)
  | .movcRead x | .movcWrite x => evenIf x.cr.wide x.r
  | .sbrd x => mult8 x.d
  | _ => true

/-- Steps of agents and of the outside have no word. -/
def hasWord : Instr → Bool
  | .cwaitReevaluate _ | .queueEntryReady _ _ _ | .jobAccept _ | .jobStart _ _ | .jobCompletion _ _
  | .sleepEnd _ | .clauseEntry _ | .lqTailWrite _ _ _ | .lqActivate _ _ | .lqPause _ _ | .lqOff _ _
  | .launchRecordTake _ | .indexReady _ _ _ | .dispatch _ _ _ _ | .agingExpiry _ _ _ | .tileFillComplete _
  | .clusterGroupCompletion _ | .agentRetryRetry _ | .agentRetryAbandon _ | .eventPost _ | .evqOvfClear _ _
  | .controlRegisterWrite _ _ _ | .preemptWindowExpiry _ | .warpSave _ | .warpRestore _ _ | .migGo _
  | .migCopyDone _ | .migSwitch _ | .migAbort _ | .shadowAttach _ | .shadowDetach _
  | .uncorrectableLineError _ | .functionFence _ | .partitionChange _ _ | .keySlotChange _ _
  | .hostPostedWrite _ _ _ | .hostHdmAccess _ _ | .recCmdRead | .recCmdWrite | .poolWindowAttach _ _ _ _
  | .combiningClose _ _ | .snoopWritebackCrossing _ _ | .linkSleep _ | .linkWakeDone _ | .snoopSlow _
  | .dieUnresponsive _ | .sectorThrottle _ _ | .cluReqWrite _ _ _ | .rampEnd _ | .canaryWarning _
  | .canofsDecay _ | .slopeTick _ _ _ | .ewTailWrite _ _ | .remoteCopyCompletion _ _ | .deviceStart
  | .firmwareTimeout | .bootCmdCommit _ | .recoveryVerifyDone | .getVersion | .getCapabilities
  | .negotiateAlgorithms | .getDigests | .getCertificate _ | .challenge _ _ | .getMeasurements _ _
  | .firmwareStartEnd _ | .migrationSourceLineError _ _ | .hostCxlSnoop _ _ | .poolBackInvalidation _ _
  | .inboundRemoteCopy _ _ _ _ | .swaitcReevaluate _ => false
  | _ => true

end Instr

/-- A well-formed instruction: every operand is one its encoding admits. -/
def WellFormed (i : Instr) : Bool := i.wfCode && i.wfField && i.wfReg

end Sys2Proof
end

