-- ==== Sys2Proof/Decode.lean ====
section
/-! DEFINITION. Instruction words and clause headers: the formats of spec 07, the opcode map as a table of rows,
the decoder, the checks that depend on the clause and the register allocation (R157-R158), and the encoder.
Words are read as numbers; a field is named by its lowest bit and its width, as the manual's rulers give them. -/

namespace Sys2Proof

/-! ## Fields -/

/-- The field of width `n` whose lowest bit is `lo`. -/
def fld (w lo n : Nat) : BitVec n := BitVec.ofNat n (w / 2 ^ lo)

/-- A one-bit field. -/
def bit (w i : Nat) : Bool := w / 2 ^ i % 2 == 1

/-- A bit as a number. -/
def bnum (b : Bool) : Nat := if b then 1 else 0

/-! ## Codes of the small fields -/

def Ty.code : Ty → Nat
  | .s32 => 0 | .n32 => 1 | .s64 => 2 | .n64 => 3 | .f32 => 4 | .f64 => 5 | .bf16x2 => 6 | .b32 => 7

def Ty.ofCode (c : Nat) : Ty :=
  match c with
  | 0 => .s32 | 1 => .n32 | 2 => .s64 | 3 => .n64 | 4 => .f32 | 5 => .f64 | 6 => .bf16x2 | _ => .b32

def TierF.code : TierF → Nat
  | .gov => 0 | .t0 => 1 | .t1 => 2 | .t2 => 3

def TierF.ofCode (c : Nat) : TierF :=
  match c with
  | 0 => .gov | 1 => .t0 | 2 => .t1 | _ => .t2

def Rnd.code : Rnd → Nat
  | .rne => 0 | .rtz => 1 | .rdn => 2 | .rup => 3

def Rnd.ofCode (c : Nat) : Rnd :=
  match c with
  | 0 => .rne | 1 => .rtz | 2 => .rdn | _ => .rup

def ICond.code : ICond → Nat
  | .eq => 0 | .ne => 1 | .lt => 2 | .le => 3 | .gt => 4 | .ge => 5

/-- Conditions 6-15 are reserved (R165); the check stands in the decoder. -/
def ICond.ofCode (c : Nat) : ICond :=
  match c with
  | 0 => .eq | 1 => .ne | 2 => .lt | 3 => .le | 4 => .gt | _ => .ge

def FCond.code : FCond → Nat
  | .eq => 0 | .ne => 1 | .lt => 2 | .le => 3 | .gt => 4 | .ge => 5 | .num => 6 | .nan => 7

def FCond.ofCode (c : Nat) : FCond :=
  match c with
  | 0 => .eq | 1 => .ne | 2 => .lt | 3 => .le | 4 => .gt | 5 => .ge | 6 => .num | _ => .nan

def SReg.code : SReg → Nat
  | .lane => 0 | .warp => 1 | .tid => 2 | .quad => 3 | .core => 4 | .cg => 5 | .cgcount => 6 | .die => 7
  | .frag => 8 | .parm => 9 | .clock => 10 | .bud => 11 | .flags => 12

def SReg.ofCode (c : Nat) : SReg :=
  match c with
  | 0 => .lane | 1 => .warp | 2 => .tid | 3 => .quad | 4 => .core | 5 => .cg | 6 => .cgcount | 7 => .die
  | 8 => .frag | 9 => .parm | 10 => .clock | 11 => .bud | _ => .flags

def FFmt.code : FFmt → Nat
  | .bf16 => 0 | .e4m3 => 1 | .e5m2 => 2 | .mk8 => 3 | .fp4 => 4 | .f32 => 8 | .f64 => 9

def FFmt.ofCode (c : Nat) : FFmt :=
  match c with
  | 0 => .bf16 | 1 => .e4m3 | 2 => .e5m2 | 3 => .mk8 | 4 => .fp4 | 8 => .f32 | _ => .f64

/-- Codes 5-7 and 10-15 are reserved (R181). -/
def FFmt.codeOk (c : Nat) : Bool := c ≤ 4 || c == 8 || c == 9

def TFmt.code : TFmt → Nat
  | .f32 => 0 | .bf16 => 1 | .e4m3 => 2 | .e5m2 => 3 | .mk8 => 4 | .fp4 => 5 | .i8 => 6

def TFmt.ofCode (c : Nat) : TFmt :=
  match c with
  | 0 => .f32 | 1 => .bf16 | 2 => .e4m3 | 3 => .e5m2 | 4 => .mk8 | 5 => .fp4 | _ => .i8

def Scope.code : Scope → Nat
  | .quad => 0 | .core => 1 | .clu => 2 | .die => 3 | .pkg => 4 | .fab => 5 | .sys => 7

/-- Code 6 is reserved (Table 0-2). -/
def Scope.ofCode (c : Nat) : Scope :=
  match c with
  | 0 => .quad | 1 => .core | 2 => .clu | 3 => .die | 4 => .pkg | 5 => .fab | _ => .sys

def Ord.code : Ord → Nat
  | .rlx => 0 | .acq => 1 | .rel => 2 | .ar => 3

def Ord.ofCode (c : Nat) : Ord :=
  match c with
  | 0 => .rlx | 1 => .acq | 2 => .rel | _ => .ar

def Space.code : Space → Nat
  | .gl => 0 | .sh => 1 | .sc => 2 | .pe => 3

def Space.ofCode (c : Nat) : Space :=
  match c with
  | 0 => .gl | 1 => .sh | 2 => .sc | _ => .pe

def Width.code : Width → Nat
  | .b8 => 0 | .b16 => 1 | .b32 => 2 | .b64 => 3 | .b128 => 4 | .s8 => 5 | .s16 => 6

def Width.ofCode (c : Nat) : Width :=
  match c with
  | 0 => .b8 | 1 => .b16 | 2 => .b32 | 3 => .b64 | 4 => .b128 | 5 => .s8 | _ => .s16

def AOp.code : AOp → Nat
  | .add => 0 | .min => 1 | .max => 2 | .and => 3 | .or => 4 | .xor => 5 | .exch => 6

def VoteKind.code : VoteKind → Nat
  | .all => 0 | .any => 1 | .bal => 2

def ShflKind.code : ShflKind → Nat
  | .idx => 0 | .up => 1 | .dn => 2 | .bfly => 3

/-- Control-register numbers (Tables 16-1, 17-1, 18-5). -/
def CReg.code : CReg → Nat
  | .partId => 0x00 | .partClumaskLo => 0x01 | .partClumaskHi => 0x02 | .partRegulator => 0x03
  | .trapbaseSys => 0x04 | .fragtabBase => 0x05 | .lqSel => 0x08 | .lqBase => 0x09 | .lqCfg => 0x0A
  | .lqHead => 0x0B | .lqTail => 0x0C | .serialNext => 0x10 | .preemptWin => 0x11 | .aging => 0x12
  | .classhold => 0x13 | .ptRoot => 0x20 | .migSrc => 0x21 | .migDst => 0x22 | .migCtl => 0x23
  | .shadowReq => 0x24 | .shadowStat => 0x25 | .evqBase => 0x30 | .evqCfg => 0x31 | .evqTail => 0x32
  | .evqHead => 0x33 | .evqCobj => 0x34 | .agentRetry => 0x35 | .saveBase => 0x38 | .saveSlots => 0x39

def CReg.all : List CReg :=
  [.partId, .partClumaskLo, .partClumaskHi, .partRegulator, .trapbaseSys, .fragtabBase, .lqSel, .lqBase,
   .lqCfg, .lqHead, .lqTail, .serialNext, .preemptWin, .aging, .classhold, .ptRoot, .migSrc, .migDst,
   .migCtl, .shadowReq, .shadowStat, .evqBase, .evqCfg, .evqTail, .evqHead, .evqCobj, .agentRetry,
   .saveBase, .saveSlots]

def CReg.ofCode (c : Nat) : Option CReg := CReg.all.find? (fun r => r.code == c)

/-- Reasons' codes (Table 7-8). -/
def IllReason.code : IllReason → Nat
  | .header => 0 | .klass => 1 | .unassigned => 2 | .memCode => 3 | .reserved => 4 | .register => 5

/-! ## The formats (R146-R154): [47:0] -/

def Guard.code (g : Guard) : Nat := bnum g.neg * 8 + g.p.toNat

def Guard.ofCode (c : Nat) : Guard := ⟨bit c 3, fld c 0 3⟩

/-- The guard written when there is none: 0b0111 (R16). -/
def Guard.always : Guard := ⟨false, 7⟩

/-- An instruction word (Table 7-3). -/
def iword (maj min guard p : Nat) : Nat := maj * 2 ^ 56 + min * 2 ^ 52 + guard * 2 ^ 48 + p

/-- Format A (Table 7-5a). -/
structure FA where
  d : BitVec 8
  a : BitVec 8
  b : BitVec 8
  c : BitVec 8
  ty : BitVec 3
  tier : BitVec 2
  rnd : BitVec 2
  sat : BitVec 1
  na : BitVec 1
  nb : BitVec 1
  aa : BitVec 1
  ab : BitVec 1
  sub : BitVec 4
deriving DecidableEq, Repr

def FA.zero : FA := ⟨0, 0, 0, 0, 0, 0, 0, 0, 0, 0, 0, 0, 0⟩

def FA.bits (f : FA) : Nat :=
  f.d.toNat * 2 ^ 40 + f.a.toNat * 2 ^ 32 + f.b.toNat * 2 ^ 24 + f.c.toNat * 2 ^ 16 + f.ty.toNat * 2 ^ 13
    + f.tier.toNat * 2 ^ 11 + f.rnd.toNat * 2 ^ 9 + f.sat.toNat * 2 ^ 8 + f.na.toNat * 2 ^ 7
    + f.nb.toNat * 2 ^ 6 + f.aa.toNat * 2 ^ 5 + f.ab.toNat * 2 ^ 4 + f.sub.toNat

def FA.ofBits (w : Nat) : FA :=
  ⟨fld w 40 8, fld w 32 8, fld w 24 8, fld w 16 8, fld w 13 3, fld w 11 2, fld w 9 2, fld w 8 1, fld w 7 1,
   fld w 6 1, fld w 5 1, fld w 4 1, fld w 0 4⟩

/-- Format I (R149). -/
structure FI where
  d : BitVec 8
  a : BitVec 8
  imm : BitVec 32
deriving DecidableEq, Repr

def FI.bits (f : FI) : Nat := f.d.toNat * 2 ^ 40 + f.a.toNat * 2 ^ 32 + f.imm.toNat

def FI.ofBits (w : Nat) : FI := ⟨fld w 40 8, fld w 32 8, fld w 0 32⟩

/-- Format M (Table 7-5b); WLD, WST and WDRN share its fields (Table 10-5). -/
structure FM where
  d : BitVec 8
  a : BitVec 8
  ofs : BitVec 18
  ord : BitVec 2
  scope : BitVec 3
  evc : BitVec 3
  space : BitVec 2
  rp : BitVec 1
  w : BitVec 3
deriving DecidableEq, Repr

def FM.bits (f : FM) : Nat :=
  f.d.toNat * 2 ^ 40 + f.a.toNat * 2 ^ 32 + f.ofs.toNat * 2 ^ 14 + f.ord.toNat * 2 ^ 12 + f.scope.toNat * 2 ^ 9
    + f.evc.toNat * 2 ^ 6 + f.space.toNat * 2 ^ 4 + f.rp.toNat * 2 ^ 3 + f.w.toNat

def FM.ofBits (w : Nat) : FM :=
  ⟨fld w 40 8, fld w 32 8, fld w 14 18, fld w 12 2, fld w 9 3, fld w 6 3, fld w 4 2, fld w 3 1, fld w 0 3⟩

/-- Format MA (R151): B and C in place of OFS, [15:14] zero, TYPE in [2:0]. -/
structure FMA where
  d : BitVec 8
  a : BitVec 8
  b : BitVec 8
  c : BitVec 8
  z : BitVec 2
  ord : BitVec 2
  scope : BitVec 3
  evc : BitVec 3
  space : BitVec 2
  rp : BitVec 1
  ty : BitVec 3
deriving DecidableEq, Repr

def FMA.bits (f : FMA) : Nat :=
  f.d.toNat * 2 ^ 40 + f.a.toNat * 2 ^ 32 + f.b.toNat * 2 ^ 24 + f.c.toNat * 2 ^ 16 + f.z.toNat * 2 ^ 14
    + f.ord.toNat * 2 ^ 12 + f.scope.toNat * 2 ^ 9 + f.evc.toNat * 2 ^ 6 + f.space.toNat * 2 ^ 4
    + f.rp.toNat * 2 ^ 3 + f.ty.toNat

def FMA.ofBits (w : Nat) : FMA :=
  ⟨fld w 40 8, fld w 32 8, fld w 24 8, fld w 16 8, fld w 14 2, fld w 12 2, fld w 9 3, fld w 6 3, fld w 4 2,
   fld w 3 1, fld w 0 3⟩

/-- Format X (Table 7-5c). -/
structure FX where
  wd : BitVec 3
  ws : BitVec 3
  qa : BitVec 3
  qb : BitVec 3
  fw : BitVec 8
  aux : BitVec 8
  kb : BitVec 4
  z1 : BitVec 12
  dr : BitVec 1
  z : BitVec 1
  tb : BitVec 1
  ta : BitVec 1
deriving DecidableEq, Repr

def FX.bits (f : FX) : Nat :=
  f.wd.toNat * 2 ^ 45 + f.ws.toNat * 2 ^ 42 + f.qa.toNat * 2 ^ 39 + f.qb.toNat * 2 ^ 36 + f.fw.toNat * 2 ^ 28
    + f.aux.toNat * 2 ^ 20 + f.kb.toNat * 2 ^ 16 + f.z1.toNat * 2 ^ 4 + f.dr.toNat * 2 ^ 3 + f.z.toNat * 2 ^ 2
    + f.tb.toNat * 2 ^ 1 + f.ta.toNat

def FX.ofBits (w : Nat) : FX :=
  ⟨fld w 45 3, fld w 42 3, fld w 39 3, fld w 36 3, fld w 28 8, fld w 20 8, fld w 16 4, fld w 4 12, fld w 3 1,
   fld w 2 1, fld w 1 1, fld w 0 1⟩

/-- Format B (Table 7-5d). -/
structure FB where
  tgt : BitVec 8
  z : BitVec 8
  ofs : BitVec 32
deriving DecidableEq, Repr

def FB.bits (f : FB) : Nat := f.tgt.toNat * 2 ^ 40 + f.z.toNat * 2 ^ 32 + f.ofs.toNat

def FB.ofBits (w : Nat) : FB := ⟨fld w 40 8, fld w 32 8, fld w 0 32⟩

/-- Format S by bytes: [47:40], [39:32], [31:24] and [23:0] (Tables 9-3, 9-6, 10-6, 19-1, R218, R219, R233, R258). -/
structure FS where
  b5 : BitVec 8
  b4 : BitVec 8
  b3 : BitVec 8
  lo : BitVec 24
deriving DecidableEq, Repr

def FS.bits (f : FS) : Nat := f.b5.toNat * 2 ^ 40 + f.b4.toNat * 2 ^ 32 + f.b3.toNat * 2 ^ 24 + f.lo.toNat

def FS.ofBits (w : Nat) : FS := ⟨fld w 40 8, fld w 32 8, fld w 24 8, fld w 0 24⟩

/-- Format S of the access slice (Table 10-7). -/
structure FT where
  q : BitVec 3
  a : BitVec 5
  s : BitVec 5
  rows : BitVec 8
  bytes : BitVec 9
  ofs : BitVec 18
deriving DecidableEq, Repr

def FT.bits (f : FT) : Nat :=
  f.q.toNat * 2 ^ 45 + f.a.toNat * 2 ^ 40 + f.s.toNat * 2 ^ 35 + f.rows.toNat * 2 ^ 27 + f.bytes.toNat * 2 ^ 18
    + f.ofs.toNat

def FT.ofBits (w : Nat) : FT := ⟨fld w 45 3, fld w 40 5, fld w 35 5, fld w 27 8, fld w 18 9, fld w 0 18⟩

/-- SLOOP and SNEXT (Table 10-7). -/
structure FL where
  a : BitVec 5
  c : BitVec 5
  z : BitVec 21
  rf : BitVec 1
  n : BitVec 16
deriving DecidableEq, Repr

def FL.bits (f : FL) : Nat :=
  f.a.toNat * 2 ^ 43 + f.c.toNat * 2 ^ 38 + f.z.toNat * 2 ^ 17 + f.rf.toNat * 2 ^ 16 + f.n.toNat

def FL.ofBits (w : Nat) : FL := ⟨fld w 43 5, fld w 38 5, fld w 17 21, fld w 16 1, fld w 0 16⟩

/-- A bit field as a Bool. -/
def tb (x : BitVec 1) : Bool := x == 1

/-- A Bool as a bit field. -/
def ob (b : Bool) : BitVec 1 := if b then 1 else 0

/-- A code as a field. -/
def oc (n c : Nat) : BitVec n := BitVec.ofNat n c

/-! ## Rows of the opcode map -/

/-- What a word's fields give: the instruction they spell, whether the codes of reason 3 are assigned, whether
fields that must be zero are zero and codes of reason 4 are assigned. -/
structure Cand where
  c3 : Bool
  c4 : Bool
  i : Instr
deriving Repr

/-- A row of the opcode map (Tables 7-6 and 7-7). -/
structure Row where
  maj : Nat
  min : Nat
  rd : Guard → Nat → Cand

/-- Format A: the row's fields beyond the ones named must equal those of `keep` applied to zero. -/
def rowA (maj min : Nat) (rd : Guard → FA → Instr) (keep : FA → FA)
    (c4 : FA → Bool := fun _ => true) : Row :=
  ⟨maj, min, fun g w => let f := FA.ofBits w; ⟨true, decide (f = keep f) && c4 f, rd g f⟩⟩

def rowI (maj min : Nat) (rd : Guard → FI → Instr) (c4 : FI → Bool := fun _ => true) : Row :=
  ⟨maj, min, fun g w => let f := FI.ofBits w; ⟨true, c4 f, rd g f⟩⟩

def rowM (maj min : Nat) (rd : Guard → FM → Instr) (c3 c4 : FM → Bool := fun _ => true) : Row :=
  ⟨maj, min, fun g w => let f := FM.ofBits w; ⟨f.scope != 6 && c3 f, c4 f, rd g f⟩⟩

/-- A row laid out as format M whose bits [11:9] hold no scope. -/
def rowMz (maj min : Nat) (rd : Guard → FM → Instr) (c4 : FM → Bool) : Row :=
  ⟨maj, min, fun g w => let f := FM.ofBits w; ⟨true, c4 f, rd g f⟩⟩

def rowMA (maj min : Nat) (rd : Guard → FMA → Instr) (c4 : FMA → Bool) : Row :=
  ⟨maj, min, fun g w => let f := FMA.ofBits w; ⟨f.scope != 6, f.z == 0 && c4 f, rd g f⟩⟩

def rowX (maj min : Nat) (rd : Guard → FX → Instr) (c4 : FX → Bool) : Row :=
  ⟨maj, min, fun g w => let f := FX.ofBits w; ⟨true, f.z1 == 0 && c4 f, rd g f⟩⟩

def rowB (maj min : Nat) (rd : Guard → FB → Instr) (c4 : FB → Bool) : Row :=
  ⟨maj, min, fun g w => let f := FB.ofBits w; ⟨true, f.z == 0 && c4 f, rd g f⟩⟩

def rowS (maj min : Nat) (rd : Guard → FS → Instr) (c4 : FS → Bool) : Row :=
  ⟨maj, min, fun g w => let f := FS.ofBits w; ⟨true, c4 f, rd g f⟩⟩

/-- Access-slice rows: the guard is 0b0111 (R144). -/
def rowT (maj : Nat) (rd : FT → Instr) (c4 : FT → Bool) : Row :=
  ⟨maj, 0, fun g w => let f := FT.ofBits w; ⟨true, g == Guard.always && c4 f, rd f⟩⟩

def rowL (maj : Nat) (rd : FL → Instr) (c4 : FL → Bool) : Row :=
  ⟨maj, 0, fun g w => let f := FL.ofBits w; ⟨true, g == Guard.always && f.z == 0 && c4 f, rd f⟩⟩

def FA.tyOf (f : FA) : Ty := Ty.ofCode f.ty.toNat
def FA.rndOf (f : FA) : Rnd := Rnd.ofCode f.rnd.toNat
def FA.tierOf (f : FA) : TierF := TierF.ofCode f.tier.toNat
def FA.mods (f : FA) : Mods := ⟨tb f.na, tb f.nb, tb f.aa, tb f.ab⟩

/-- Predicate operands use the low 3 bits of their field (Table 7-4); the others must be zero (R147). -/
def pr (x : BitVec 8) : BitVec 3 := x.setWidth 3
def prOk (x : BitVec 8) : Bool := decide (x.toNat < 8)

/-! The fields each shape keeps (Tables 8-1, 8-5, 8-8). -/

def kRR (f : FA) : FA := { FA.zero with d := f.d, a := f.a, b := f.b, ty := f.ty }
def kRRsat (f : FA) : FA := { FA.zero with d := f.d, a := f.a, b := f.b, ty := f.ty, sat := f.sat }
def kRRR (f : FA) : FA := { FA.zero with d := f.d, a := f.a, b := f.b, c := f.c, ty := f.ty }
def kRRRsat (f : FA) : FA := { FA.zero with d := f.d, a := f.a, b := f.b, c := f.c, ty := f.ty, sat := f.sat }
def kR (f : FA) : FA := { FA.zero with d := f.d, a := f.a, ty := f.ty }
def kRsat (f : FA) : FA := { FA.zero with d := f.d, a := f.a, ty := f.ty, sat := f.sat }
def kD (f : FA) : FA := { FA.zero with d := f.d }
def kS (f : FA) : FA := { FA.zero with a := f.a }
def kDA (f : FA) : FA := { FA.zero with d := f.d, a := f.a }
def kFlt (f : FA) : FA := { f with c := 0, sub := 0 }
def kFlt3 (f : FA) : FA := { f with sub := 0 }
def kMM (f : FA) : FA := { f with c := 0, tier := 0, rnd := 0, sat := 0, sub := 0 }
def kU (f : FA) : FA :=
  { FA.zero with d := f.d, a := f.a, ty := f.ty, tier := f.tier, rnd := f.rnd, na := f.na, aa := f.aa }
def kScl (f : FA) : FA :=
  { FA.zero with d := f.d, a := f.a, b := f.b, ty := f.ty, rnd := f.rnd, sat := f.sat, na := f.na, aa := f.aa }

def rRR (mk : IntRR → Instr) (g : Guard) (f : FA) : Instr := mk ⟨g, f.tyOf, tb f.sat, f.d, f.a, f.b⟩
def rRRR (mk : IntRRR → Instr) (g : Guard) (f : FA) : Instr := mk ⟨g, f.tyOf, tb f.sat, f.d, f.a, f.b, f.c⟩
def rR (mk : IntR → Instr) (g : Guard) (f : FA) : Instr := mk ⟨g, f.tyOf, tb f.sat, f.d, f.a⟩
def rRI (mk : IntRI → Instr) (t : Ty) (g : Guard) (f : FI) : Instr := mk ⟨g, t, f.d, f.a, f.imm⟩
def rFlt (mk : FltRR → Instr) (g : Guard) (f : FA) : Instr :=
  mk ⟨g, f.tyOf, f.tierOf, f.rndOf, tb f.sat, f.mods, f.d, f.a, f.b⟩
def rMM (mk : FltMM → Instr) (g : Guard) (f : FA) : Instr := mk ⟨g, f.tyOf, f.mods, f.d, f.a, f.b⟩
def rU (mk : FltU → Instr) (g : Guard) (f : FA) : Instr :=
  mk ⟨g, f.tyOf, f.tierOf, f.rndOf, tb f.na, tb f.aa, f.d, f.a⟩

/-- The I forms of an integer instruction: minors 0x8-0xB, and 0xF where `.b32` is admitted (Table 8-1). -/
def rowsImm (maj : Nat) (mk : IntRI → Instr) (b32 : Bool) : List Row :=
  [rowI maj 0x8 (rRI mk .s32), rowI maj 0x9 (rRI mk .n32), rowI maj 0xA (rRI mk .s64), rowI maj 0xB (rRI mk .n64),
   rowI maj 0xF (rRI mk .b32) (fun _ => b32)]

def isetImmRd (t : Ty) (g : Guard) (f : FI) : Instr :=
  .isetImm ⟨g, t, ICond.ofCode (f.d.toNat / 16), f.d.setWidth 3, f.a, f.imm⟩

/-- [47:44] the condition, [43] zero, [42:40] the predicate (R165). -/
def isetImmOk (f : FI) : Bool := decide (f.d.toNat / 16 < 6) && decide (f.d.toNat / 8 % 2 = 0)

def mem (mk : MemOps → Instr) (g : Guard) (f : FM) : Instr :=
  mk ⟨g, Width.ofCode f.w.toNat, Ord.ofCode f.ord.toNat, Scope.ofCode f.scope.toNat, f.evc,
    Space.ofCode f.space.toNat, tb f.rp, f.d, f.a, f.ofs⟩

def atomRd (mk : AtomOps → Instr) (op : AOp) (g : Guard) (f : FMA) : Instr :=
  mk ⟨g, op, Ty.ofCode f.ty.toNat, Ord.ofCode f.ord.toNat, Scope.ofCode f.scope.toNat, f.evc,
    Space.ofCode f.space.toNat, tb f.rp, f.d, f.a, f.b⟩

def cobjRd (mk : CobjOps → Instr) (g : Guard) (f : FMA) : Instr :=
  mk ⟨g, f.ty == 3, Ord.ofCode f.ord.toNat, Scope.ofCode f.scope.toNat, f.evc, Space.ofCode f.space.toNat,
    tb f.rp, f.a, f.b⟩

def cobjOk (f : FMA) : Bool := f.d == 0 && f.c == 0 && (f.ty == 1 || f.ty == 3)

def tileMem (mk : TileMemOps → Instr) (g : Guard) (f : FM) : Instr :=
  mk ⟨g, fld f.d.toNat 5 3, f.a, f.ofs, Ord.ofCode f.ord.toNat, Scope.ofCode f.scope.toNat, f.evc,
    Space.ofCode f.space.toNat, tb f.rp, TFmt.ofCode f.w.toNat⟩

def tileMemOk (f : FM) : Bool := decide (f.d.toNat % 32 = 0) && f.w != 7

def mmaRd (mk : MmaOps → Instr) (g : Guard) (f : FX) : Instr :=
  mk ⟨g, f.wd, f.ws, f.qa, f.qb, f.fw, f.aux, f.kb, tb f.dr, tb f.z, tb f.tb, tb f.ta⟩

def rangeRd (mk : RangeOps → Instr) (g : Guard) (f : FS) : Instr := mk ⟨g, f.b5, f.b4⟩

/-- SWB, SINV, TLBI and ICINV take their `.all` form from bit 0 of a word whose other fields are zero. -/
def allRd (mk : RangeOps → Instr) (all : Guard → Instr) (g : Guard) (f : FS) : Instr :=
  if f.lo = 1 then all g else mk ⟨g, f.b5, f.b4⟩

def allOk (f : FS) : Bool := f.b3 == 0 && (f.lo == 0 || (f.lo == 1 && f.b5 == 0 && f.b4 == 0))

def daRd (mk : OpDA → Instr) (g : Guard) (f : FS) : Instr := mk ⟨g, f.b5, f.b4⟩

def daOk (f : FS) : Bool := f.b3 == 0 && f.lo == 0

def maskRd (mk : MaskOps → Instr) (g : Guard) (f : FS) : Instr := mk ⟨g, f.b3.setWidth 4⟩

def maskOk (f : FS) : Bool := decide (f.b3.toNat < 16) && f.lo == 0

def barRd (mk : BarOps → Instr) (g : Guard) (f : FS) : Instr := mk ⟨g, f.b5.setWidth 4⟩

def barOk (f : FS) : Bool := decide (f.b5.toNat < 16) && f.b4 == 0 && f.b3 == 0 && f.lo == 0

def codeRd (mk : CodeOps → Instr) (g : Guard) (f : FS) : Instr := mk ⟨g, f.lo.setWidth 16⟩

def codeOk (f : FS) : Bool := f.b5 == 0 && f.b4 == 0 && f.b3 == 0 && decide (f.lo.toNat < 65536)

/-- The queue field of Table 10-6: [39:37], with [36:35] zero and the predicate of QPEEK in [34:32]. -/
def qOf (f : FS) : BitVec 3 := fld f.b4.toNat 5 3

def movcRd (g : Guard) (f : FS) : Instr :=
  let cr := (CReg.ofCode (f.lo.toNat % 4096)).getD .partId
  if f.lo.toNat / 4096 % 2 = 1 then .movcWrite ⟨g, cr, f.b4⟩ else .movcRead ⟨g, cr, f.b5⟩

def movcOk (f : FS) : Bool :=
  f.b3 == 0 && decide (f.lo.toNat < 8192) && (CReg.ofCode (f.lo.toNat % 4096)).isSome
    && (if f.lo.toNat / 4096 % 2 = 1 then f.b5 == 0 else f.b4 == 0)

/-- Integer, logic, move and predicate rows (Table 8-1). -/
def rowsInt : List Row :=
  [rowA 0x00 0 (rRR .iadd) kRRsat, rowA 0x01 0 (rRR .isub) kRRsat, rowA 0x02 0 (rRR .imul) kRRsat,
   rowA 0x03 0 (rRR .imulh) kRR, rowA 0x04 0 (rRRR .imad) kRRRsat, rowA 0x05 0 (rRR .imin) kRR,
   rowA 0x06 0 (rRR .imax) kRR, rowA 0x07 0 (rR .iabs) kRsat, rowA 0x08 0 (rRR .and) kRR,
   rowA 0x09 0 (rRR .or) kRR, rowA 0x0A 0 (rRR .xor) kRR, rowA 0x0B 0 (rRR .shl) kRR,
   rowA 0x0C 0 (rRR .shr) kRR, rowA 0x0D 0 (rRR .sar) kRR, rowA 0x0E 0 (rRR .bfx) kRR,
   rowA 0x0F 0 (rRRR .bfi) kRRR, rowA 0x10 0 (rR .popc) kR, rowA 0x11 0 (rR .clz) kR,
   rowA 0x12 0 (rR .brev) kR,
   rowA 0x13 0 (fun g f => .iset ⟨g, f.tyOf, ICond.ofCode f.sub.toNat, pr f.d, f.a, f.b⟩)
     (fun f => { kRR f with sub := f.sub }) (fun f => prOk f.d && decide (f.sub.toNat < 6)),
   rowA 0x14 0 (fun g f => .sel ⟨g, f.tyOf, f.d, f.a, f.b, pr f.c⟩) kRRR (fun f => prOk f.c),
   rowA 0x15 0 (rR .mov) kR, rowA 0x15 1 (fun g f => .movFromLk ⟨g, f.d⟩) kD,
   rowA 0x15 2 (fun g f => .movToLk ⟨g, f.a⟩) kS,
   rowA 0x16 0 (fun g f => .lea ⟨g, f.ty == 0, f.d, f.a, f.b, f.sub⟩) (fun f => { kRR f with sub := f.sub })
     (c4 := fun f => decide (f.ty.toNat < 2)),
   rowA 0x17 0 (fun g f => .plog ⟨g, pr f.d, pr f.a, pr f.b, pr f.c,
       oc 8 (f.ty.toNat * 32 + f.tier.toNat * 8 + f.rnd.toNat * 2 + f.sat.toNat)⟩)
     (fun f => { f with na := 0, nb := 0, aa := 0, ab := 0, sub := 0 })
     (fun f => prOk f.d && prOk f.a && prOk f.b && prOk f.c),
   rowA 0x18 0 (fun g f => if f.sub = 1 then .pmovPut ⟨g, f.a⟩ else .pmovGet ⟨g, f.d⟩)
     (fun f => { FA.zero with d := f.d, a := f.a, sub := f.sub })
     (c4 := fun f => if f.sub = 1 then f.d == 0 else f.a == 0 && f.sub == 0),
   rowA 0x19 0 (fun g f => .movs ⟨g, f.d, SReg.ofCode f.a.toNat⟩) kDA (c4 := fun f => decide (f.a.toNat < 13)),
   rowI 0x1A 0 (fun g f => .movi ⟨g, f.d, f.imm⟩) (fun f => f.a == 0),
   rowI 0x1A 1 (fun g f => .movi64 ⟨g, f.d, f.imm⟩) (fun f => f.a == 0),
   rowA 0x1B 0 (fun g _ => .nop g) (fun _ => FA.zero)]
  ++ rowsImm 0x00 .iaddImm true ++ rowsImm 0x01 .isubImm true ++ rowsImm 0x02 .imulImm true
  ++ rowsImm 0x05 .iminImm false ++ rowsImm 0x06 .imaxImm false ++ rowsImm 0x08 .andImm true
  ++ rowsImm 0x09 .orImm true ++ rowsImm 0x0A .xorImm true ++ rowsImm 0x0B .shlImm true
  ++ rowsImm 0x0C .shrImm true ++ rowsImm 0x0D .sarImm true
  ++ [rowI 0x13 0x8 (isetImmRd .s32) isetImmOk, rowI 0x13 0x9 (isetImmRd .n32) isetImmOk,
      rowI 0x13 0xA (isetImmRd .s64) isetImmOk, rowI 0x13 0xB (isetImmRd .n64) isetImmOk,
      rowI 0x13 0xF (isetImmRd .b32) (fun _ => false)]

/-- Floating rows (Table 8-5). -/
def rowsFlt : List Row :=
  [rowA 0x30 0 (rFlt .fadd) kFlt, rowA 0x31 0 (rFlt .fsub) kFlt, rowA 0x32 0 (rFlt .fmul) kFlt,
   rowA 0x33 0 (fun g f => .ffma ⟨g, f.tyOf, f.tierOf, f.rndOf, tb f.sat, f.mods, f.d, f.a, f.b, f.c⟩) kFlt3,
   rowA 0x34 0 (rMM .fmin) kMM, rowA 0x35 0 (rMM .fmax) kMM,
   rowA 0x36 0 (fun g f => .fset ⟨g, f.tyOf, FCond.ofCode (f.sub.toNat % 8), bit f.sub.toNat 3, f.mods, pr f.d,
       pr f.c, f.a, f.b⟩) (fun f => { f with tier := 0, rnd := 0, sat := 0 })
     (fun f => prOk f.d && prOk f.c && (bit f.sub.toNat 3 || f.c == 0)),
   rowA 0x37 0 (rU .frnd) kU, rowA 0x38 0 (rU .frcp) kU, rowA 0x39 0 (rU .frsq) kU, rowA 0x3A 0 (rU .fsqrt) kU,
   rowA 0x3B 0 (rU .fexp2) kU, rowA 0x3C 0 (rU .flog2) kU,
   rowA 0x3D 0 (fun g f => .fscl ⟨g, f.tyOf, f.rndOf, tb f.sat, tb f.na, tb f.aa, f.d, f.a, f.b⟩) kScl,
   rowA 0x3E 0 (fun g f => .fcls ⟨g, f.tyOf, f.d, f.a⟩) kR]

/-- Conversion and quantisation rows (R181-R191). -/
def rowsCvt : List Row :=
  [rowA 0x40 0 (fun g f => .cvt ⟨g, FFmt.ofCode (f.b.toNat / 16), FFmt.ofCode (f.b.toNat % 16), f.sub, f.rndOf,
       tb f.sat, tb f.na, tb f.aa, f.d, f.a⟩)
     (fun f => { f with c := 0, ty := 0, tier := 0, nb := 0, ab := 0 })
     (c4 := fun f => FFmt.codeOk (f.b.toNat / 16) && FFmt.codeOk (f.b.toNat % 16)),
   rowA 0x41 0 (fun g f => .cvtiF2i ⟨g, f.tyOf, FFmt.ofCode f.sub.toNat, f.rndOf, tb f.na, tb f.aa, f.d, f.a⟩)
     (fun f => { kU f with tier := 0, sub := f.sub }) (c4 := fun f => FFmt.codeOk f.sub.toNat),
   rowA 0x41 1 (fun g f => .cvtiI2f ⟨g, f.tyOf, FFmt.ofCode f.sub.toNat, f.rndOf, tb f.na, tb f.aa, f.d, f.a⟩)
     (fun f => { kU f with tier := 0, sub := f.sub }) (c4 := fun f => FFmt.codeOk f.sub.toNat),
   rowA 0x42 0 (fun g f => .qnt ⟨g, f.rndOf, f.d, f.a, f.b, f.c⟩) (fun f => { kRRR f with rnd := f.rnd })
     (c4 := fun f => f.ty == 4),
   rowA 0x42 1 (fun g f => .qntOl ⟨g, f.rndOf, f.d, f.a, f.b, f.c⟩) (fun f => { kRRR f with rnd := f.rnd })
     (c4 := fun f => f.ty == 4),
   rowA 0x43 0 (fun g f => .dqnt ⟨g, bit f.sub.toNat 0, f.d, f.a, f.b⟩) (fun f => { kRR f with sub := f.sub })
     (c4 := fun f => f.ty == 4 && decide (f.sub.toNat < 2)),
   rowA 0x44 0 (fun g f => .pk4 ⟨g, f.d, f.a, f.b⟩) kRR (c4 := fun f => f.ty == 7),
   rowA 0x45 0 (fun g f => .upk4 ⟨g, f.ty == 0, bit f.sub.toNat 0, f.d, f.a⟩) (fun f => { kR f with sub := f.sub })
     (c4 := fun f => decide (f.ty.toNat < 2) && decide (f.sub.toNat < 2))]

/-- Bound, budget and flag rows (Table 8-8). -/
def rowsBnd : List Row :=
  [rowA 0x60 0 (fun g f => .brd ⟨g, bit f.sub.toNat 0, f.d, f.a⟩) (fun f => { kDA f with sub := f.sub })
     (c4 := fun f => decide (f.sub.toNat < 2)),
   rowA 0x61 0 (fun g f => .braise ⟨g, f.ty == 4, bit f.sub.toNat 0, bit f.sub.toNat 1, f.d, f.a, f.b⟩)
     (fun f => { kRR f with sub := f.sub }) (c4 := fun f => (f.ty == 4 || f.ty == 7) && decide (f.sub.toNat < 4)),
   rowA 0x62 0 (fun g f => .budget ⟨g, f.a⟩) kS,
   rowI 0x62 1 (fun g f => .budgetImm ⟨g, f.imm⟩) (fun f => f.d == 0 && f.a == 0),
   rowA 0x63 0 (fun g f => .bchk ⟨g, bit f.sub.toNat 0, bit f.sub.toNat 2, pr f.d, f.a, f.b⟩)
     (fun f => { FA.zero with d := f.d, a := f.a, b := f.b, sub := f.sub })
     (fun f => prOk f.d && !bit f.sub.toNat 1 && !bit f.sub.toNat 3),
   rowA 0x64 0 (fun g f => .flgrd ⟨g, f.d⟩) kD, rowA 0x64 1 (fun g f => .flgrdClr ⟨g, f.d, f.a⟩) kDA]

/-- Memory, stash, atomic, count-object and barrier rows (Tables 9-1, 9-3, R210, R213, R218). -/
def rowsMem : List Row :=
  [rowM 0x70 0 (mem .ld) (fun f => f.w != 7), rowM 0x71 0 (mem .st) (fun f => f.w != 7),
   rowM 0x72 0 (fun g f => .pref ⟨g, f.evc, f.space == 1, f.a, f.ofs⟩)
     (fun f => f.ord == 0 && f.scope == 0 && f.rp == 0 && f.w == 0)
     (fun f => f.d == 0 && decide (f.space.toNat < 2)),
   rowS 0x73 0 (fun g f => if f.lo = 1 then .smapUn ⟨g, f.b5, f.b4, f.b3⟩ else .smap ⟨g, f.b5, f.b4, f.b3⟩)
     (fun f => f.lo == 0 || f.lo == 1),
   rowS 0x74 0 (allRd .swb .swbAll) allOk, rowS 0x75 0 (allRd .sinv .sinvAll) allOk,
   rowS 0x76 0 (rangeRd .cwb) daOk,
   rowMA 0x80 0 (atomRd .atom .add) (fun f => f.c == 0), rowMA 0x80 1 (atomRd .atom .min) (fun f => f.c == 0),
   rowMA 0x80 2 (atomRd .atom .max) (fun f => f.c == 0), rowMA 0x80 3 (atomRd .atom .and) (fun f => f.c == 0),
   rowMA 0x80 4 (atomRd .atom .or) (fun f => f.c == 0), rowMA 0x80 5 (atomRd .atom .xor) (fun f => f.c == 0),
   rowMA 0x80 6 (atomRd .atom .exch) (fun f => f.c == 0),
   rowMA 0x81 0 (fun g f => .acas ⟨g, Ty.ofCode f.ty.toNat, Ord.ofCode f.ord.toNat, Scope.ofCode f.scope.toNat,
     f.evc, Space.ofCode f.space.toNat, tb f.rp, f.d, f.a, f.b, f.c⟩) (fun _ => true),
   rowMA 0x82 0 (atomRd .red .add) (fun f => f.c == 0), rowMA 0x82 1 (atomRd .red .min) (fun f => f.c == 0),
   rowMA 0x82 2 (atomRd .red .max) (fun f => f.c == 0), rowMA 0x82 3 (atomRd .red .and) (fun f => f.c == 0),
   rowMA 0x82 4 (atomRd .red .or) (fun f => f.c == 0), rowMA 0x82 5 (atomRd .red .xor) (fun f => f.c == 0),
   rowM 0x90 0 (fun g f => .fence ⟨g, Ord.ofCode f.ord.toNat, Scope.ofCode f.scope.toNat⟩)
     (fun f => f.w == 0 && f.rp == 0)
     (fun f => f.d == 0 && f.a == 0 && f.ofs == 0 && f.evc == 0 && f.space == 0),
   rowM 0x90 1 (fun g f => .fenceJ ⟨g, Scope.ofCode f.scope.toNat⟩)
     (fun f => f.w == 0 && f.rp == 0 && f.ord == 2)
     (fun f => f.d == 0 && f.a == 0 && f.ofs == 0 && f.evc == 0 && f.space == 0),
   rowMA 0x91 0 (cobjRd .csig) cobjOk, rowMA 0x91 1 (cobjRd .csigFl) cobjOk,
   rowMA 0x92 0 (cobjRd .cpendAdd) cobjOk, rowMA 0x92 1 (cobjRd .cpendSub) cobjOk,
   rowMA 0x93 0 (cobjRd .cwait) cobjOk,
   rowMA 0x94 0 (fun g f => .crd ⟨g, Ord.ofCode f.ord.toNat, Scope.ofCode f.scope.toNat, f.evc,
     Space.ofCode f.space.toNat, tb f.rp, f.d, f.a⟩) (fun f => f.b == 0 && f.c == 0 && f.ty == 0),
   rowS 0x98 0 (barRd .gbar) barOk, rowS 0x99 0 (barRd .garr) barOk, rowS 0x9A 0 (barRd .gdrop) barOk,
   rowS 0x9B 0 (barRd .gjoin) barOk]

/-- Masks, vote, shuffle, warp reduce, generators (R219-R229). -/
def rowsWarp : List Row :=
  [rowS 0xA0 0 (maskRd .mjoin) (fun f => maskOk f && f.b5 == 0 && f.b4 == 0),
   rowS 0xA1 0 (maskRd .mleave) (fun f => maskOk f && f.b5 == 0 && f.b4 == 0),
   rowS 0xA2 0 (maskRd .mwait) (fun f => maskOk f && f.b5 == 0 && f.b4 == 0),
   rowS 0xA3 0 (fun g f => .mrd ⟨g, f.b3.setWidth 4, f.b5⟩) (fun f => maskOk f && f.b4 == 0),
   rowS 0xA4 0 (fun g f => .mwr ⟨g, f.b3.setWidth 4, f.b4⟩) (fun f => maskOk f && f.b5 == 0),
   rowA 0xA5 0 (fun g f => .vote ⟨g, .all, f.d, pr f.a⟩) kDA (fun f => prOk f.a),
   rowA 0xA5 1 (fun g f => .vote ⟨g, .any, f.d, pr f.a⟩) kDA (fun f => prOk f.a),
   rowA 0xA5 2 (fun g f => .vote ⟨g, .bal, f.d, pr f.a⟩) kDA (fun f => prOk f.a),
   rowA 0xA6 0 (fun g f => .shfl ⟨g, .idx, f.ty == 3, f.d, f.a, f.b⟩) kRR (c4 := fun f => f.ty == 7 || f.ty == 3),
   rowA 0xA6 1 (fun g f => .shfl ⟨g, .up, f.ty == 3, f.d, f.a, f.b⟩) kRR (c4 := fun f => f.ty == 7 || f.ty == 3),
   rowA 0xA6 2 (fun g f => .shfl ⟨g, .dn, f.ty == 3, f.d, f.a, f.b⟩) kRR (c4 := fun f => f.ty == 7 || f.ty == 3),
   rowA 0xA6 3 (fun g f => .shfl ⟨g, .bfly, f.ty == 3, f.d, f.a, f.b⟩) kRR (c4 := fun f => f.ty == 7 || f.ty == 3),
   rowA 0xA7 0 (fun g f => .wred ⟨g, .add, f.tyOf, f.d, f.a⟩) kR,
   rowA 0xA7 1 (fun g f => .wred ⟨g, .min, f.tyOf, f.d, f.a⟩) kR,
   rowA 0xA7 2 (fun g f => .wred ⟨g, .max, f.tyOf, f.d, f.a⟩) kR,
   rowA 0xA7 3 (fun g f => .wred ⟨g, .and, f.tyOf, f.d, f.a⟩) kR,
   rowA 0xA7 4 (fun g f => .wred ⟨g, .or, f.tyOf, f.d, f.a⟩) kR,
   rowA 0xA7 5 (fun g f => .wred ⟨g, .xor, f.tyOf, f.d, f.a⟩) kR,
   rowS 0xA8 0 (fun g f => .gen ⟨g, f.b5, fld f.b4.toNat 2 6, oc 16 (f.b3.toNat * 256 + f.lo.toNat / 65536),
     f.lo.setWidth 16⟩) (fun f => decide (f.b4.toNat % 4 = 0)),
   rowS 0xA9 0 (fun g f => .yld ⟨g, bit f.lo.toNat 0, f.b4, f.b3⟩) (fun f => f.b5 == 0 && decide (f.lo.toNat < 2)),
   rowS 0xAA 0 (fun g _ => .gend g) (fun f => f.b5 == 0 && f.b4 == 0 && f.b3 == 0 && f.lo == 0),
   rowS 0xAB 0 (fun g f => .take ⟨g, bit f.lo.toNat 0, bit f.lo.toNat 1, f.b5, f.b4, f.b3⟩)
     (fun f => decide (f.lo.toNat < 4)),
   rowS 0xAC 0 (fun g f => .gstat ⟨g, f.b5⟩) (fun f => f.b4 == 0 && f.b3 == 0 && f.lo == 0)]

/-- Control transfers (R230). -/
def rowsCtl : List Row :=
  [rowB 0xB0 0 (fun g f => .bra ⟨g, f.ofs⟩) (fun f => f.tgt == 0),
   rowB 0xB1 0 (fun g f => .brx ⟨g, f.tgt⟩) (fun f => f.ofs == 0),
   rowB 0xB2 0 (fun g f => .call ⟨g, f.ofs⟩) (fun f => f.tgt == 0),
   rowB 0xB2 1 (fun g f => .callReg ⟨g, f.tgt⟩) (fun f => f.ofs == 0),
   rowB 0xB3 0 (fun g _ => .ret g) (fun f => f.tgt == 0 && f.ofs == 0),
   rowB 0xB4 0 (fun g _ => .exit g) (fun f => f.tgt == 0 && f.ofs == 0)]

/-- Matrix, tile and queue rows (Tables 10-2, 10-5, 10-6). -/
def rowsMat : List Row :=
  [rowX 0xC0 0 (mmaRd .mma) (fun _ => true), rowX 0xC1 0 (mmaRd .mmao) (fun _ => true),
   rowX 0xC2 0 (fun g f => .wzero ⟨g, f.wd⟩)
     (fun f => decide (f = ⟨f.wd, 0, 0, 0, 0, 0, 0, 0, 0, 0, 0, 0⟩)),
   rowM 0xC3 0 (tileMem .wld) (c4 := tileMemOk), rowM 0xC4 0 (tileMem .wst) (c4 := tileMemOk),
   rowMz 0xC5 0 (fun g f => .wdrn ⟨g, f.d, fld f.a.toNat 5 3, tb f.rp, TFmt.ofCode f.w.toNat⟩)
     (fun f => decide (f.a.toNat % 32 = 0) && f.ofs == 0 && f.ord == 0 && f.scope == 0 && f.evc == 0
       && f.space == 0 && f.w != 7),
   rowX 0xC6 0 (fun g f => .wmov ⟨g, f.wd, f.ws, tb f.dr⟩)
     (fun f => decide (f = ⟨f.wd, f.ws, 0, 0, 0, 0, 0, 0, f.dr, 0, 0, 0⟩)),
   rowS 0xC7 0 (fun g f => .wbnd ⟨g, f.b5, qOf f, bit f.lo.toNat 0⟩)
     (fun f => decide (f.b4.toNat % 32 = 0) && f.b3 == 0 && decide (f.lo.toNat < 2)),
   rowS 0xD0 0 (fun g f => .qpop ⟨g, f.b5, qOf f⟩) (fun f => decide (f.b4.toNat % 32 = 0) && f.b3 == 0 && f.lo == 0),
   rowS 0xD1 0 (fun g f => .qpeek ⟨g, f.b5, qOf f, f.b4.setWidth 3⟩)
     (fun f => decide (f.b4.toNat / 8 % 4 = 0) && f.b3 == 0 && f.lo == 0),
   rowS 0xD2 0 (fun g f => .qcnt ⟨g, f.b5, qOf f⟩) (fun f => decide (f.b4.toNat % 32 = 0) && f.b3 == 0 && f.lo == 0),
   rowS 0xD3 0 (fun g f => .qdrop ⟨g, qOf f⟩)
     (fun f => f.b5 == 0 && decide (f.b4.toNat % 32 = 0) && f.b3 == 0 && f.lo == 0)]

/-- Access-slice rows (Table 10-7). -/
def rowsStr : List Row :=
  [rowL 0xD8 (fun f => .sloop ⟨f.a, f.c, tb f.rf, f.n⟩) (fun _ => true),
   rowL 0xD9 (fun f => .snext f.a) (fun f => f.c == 0 && f.rf == 0 && f.n == 0),
   rowT 0xDA (fun f => .sfetch ⟨f.q, f.a, f.s, f.rows, f.bytes, f.ofs⟩) (fun _ => true),
   rowT 0xDB (fun f => .smark ⟨f.q, f.a⟩) (fun f => f.s == 0 && f.rows == 0 && f.bytes == 0 && f.ofs == 0),
   rowT 0xDC (fun f => .swaitc ⟨f.a, f.s, bit f.rows.toNat 7⟩)
     (fun f => f.q == 0 && decide (f.rows.toNat % 128 = 0) && f.bytes == 0 && f.ofs == 0),
   rowT 0xDD (fun _ => .sdone) (fun f => decide (f = ⟨0, 0, 0, 0, 0, 0⟩))]

/-- Jobs, launches, traps, hints and the privileged set (R233, R258, Table 19-1). -/
def rowsSys : List Row :=
  [rowS 0xE0 0 (fun g f => .job ⟨g, f.b4⟩) (fun f => f.b5 == 0 && f.b3 == 0 && f.lo == 0),
   rowS 0xE1 0 (daRd .grow) daOk,
   rowS 0xE2 0 (fun g f => .lnch ⟨g, f.b5, f.b4, f.b3⟩) (fun f => f.lo == 0),
   rowS 0xE8 0 (codeRd .trap) codeOk, rowS 0xE9 0 (codeRd .bkpt) codeOk,
   rowS 0xEA 0 (fun g f => .phint ⟨g, oc 32 (f.b3.toNat * 2 ^ 24 + f.lo.toNat)⟩) (fun f => f.b5 == 0 && f.b4 == 0),
   rowS 0xEB 0 (codeRd .sleep) codeOk,
   rowS 0xF0 0 (fun g _ => .rte g) (fun f => f.b5 == 0 && f.b4 == 0 && f.b3 == 0 && f.lo == 0),
   rowS 0xF1 0 movcRd movcOk,
   rowS 0xF2 0 (allRd .tlbi .tlbiAll) allOk, rowS 0xF3 0 (allRd .icinv .icinvAll) allOk,
   rowS 0xF4 0 (daRd .fres) daOk, rowS 0xF5 0 (daRd .fdisc) daOk, rowS 0xF6 0 (daRd .save) daOk,
   rowS 0xF7 0 (daRd .rest) daOk, rowS 0xF8 0 (daRd .sbrd) daOk, rowS 0xF9 0 (daRd .halt) daOk]

/-- The opcode map (Tables 7-6 and 7-7). -/
def opcodeMap : List Row :=
  rowsInt ++ rowsFlt ++ rowsCvt ++ rowsBnd ++ rowsMem ++ rowsWarp ++ rowsCtl ++ rowsMat ++ rowsStr ++ rowsSys

/-- The row of a major and minor. -/
def findRow (maj min : Nat) : Option Row := opcodeMap.find? (fun r => r.maj == maj && r.min == min)

/-- Whether a major is assigned (Table 7-6). -/
def majorAssigned (maj : Nat) : Bool := opcodeMap.any (fun r => r.maj == maj)

/-- The reading of a row's fields: the lowest reason a departure takes (R158), or the instruction. -/
def Cand.judge (c : Cand) : Except IllReason Instr :=
  if !(c.c3 && c.i.wfCode) then .error .memCode
  else if !(c.c4 && c.i.wfField) then .error .reserved
  else if !c.i.wfReg then .error .register
  else .ok c.i

/-- The decoder, total on any word. A word with an unassigned major or minor decodes to the row of the
opcode table that traps on it; every other departure is rejected with its reason. -/
def decode (w : DWord) : Except IllReason Instr :=
  let n := w.toNat
  match findRow (n / 2 ^ 56) (n / 2 ^ 52 % 16) with
  | none => .ok (.illegalInstruction .unassigned w)
  | some r => (r.rd (Guard.ofCode (n / 2 ^ 48 % 16)) (n % 2 ^ 48)).judge

/-! ## Clause headers (Table 7-1) -/

structure Header where
  mark : BitVec 8
  cls : BitVec 3
  cnt : BitVec 4
  wait : BitVec 8
  loop : Bool
  zero : BitVec 40
deriving DecidableEq, Repr

def Header.ofWord (w : DWord) : Header :=
  let n := w.toNat
  ⟨fld n 56 8, fld n 53 3, fld n 49 4, fld n 41 8, bit n 40, fld n 0 40⟩

def clsAlu : BitVec 3 := 0
def clsMem : BitVec 3 := 1
def clsMat : BitVec 3 := 2
def clsCtl : BitVec 3 := 3
def clsStr : BitVec 3 := 4
def clsSys : BitVec 3 := 5

/-- The checks of R139 that the header alone and the mode decide; `str` when an access slice enters. -/
def Header.ok (h : Header) (priv str : Bool) : Bool :=
  h.mark == 0xFF && decide (h.cls.toNat < 6) && h.zero == 0 && (h.cls != clsSys || priv)
    && ((h.cls == clsStr) == str) && (!str || h.wait == 0)

/-! ## Legality in a clause (R143-R145, R157, R158) -/

/-- Majors the access slice admits from the ALU block (R144). -/
def strAlu : List Nat :=
  [0x00, 0x01, 0x02, 0x04, 0x05, 0x06, 0x08, 0x09, 0x0A, 0x0B, 0x0C, 0x0D, 0x0E, 0x0F, 0x15, 0x16, 0x19, 0x1A, 0x1B]

/-- Table 7-2. -/
def admits (cls : BitVec 3) (maj min : Nat) : Bool :=
  let alu := decide (maj ≤ 0x67)
  let memB := decide (0x70 ≤ maj ∧ maj ≤ 0x9F)
  let wrp := decide (0xA0 ≤ maj ∧ maj ≤ 0xAF)
  let ctl := decide (0xB0 ≤ maj ∧ maj ≤ 0xBF)
  let mat := decide (0xC0 ≤ maj ∧ maj ≤ 0xD7)
  let str := decide (0xD8 ≤ maj ∧ maj ≤ 0xDF)
  let job := decide (0xE0 ≤ maj ∧ maj ≤ 0xEF)
  let prv := decide (0xF0 ≤ maj ∧ maj ≤ 0xFB)
  if cls = clsAlu then alu || ctl
  else if cls = clsMem then alu || memB || ctl
  else if cls = clsMat then alu || mat || ctl
  else if cls = clsCtl then alu || wrp || job || ctl
  else if cls = clsStr then (strAlu.contains maj && !(maj == 0x15 && (min == 1 || min == 2))) || str || maj == 0xB0
  else alu || memB || wrp || ctl || mat || job || prv

/-- Words that stand only in a clause's last slot: control transfers, GEN, GEND, SLOOP, SNEXT. -/
def lastOnly (maj : Nat) : Bool :=
  decide (0xB0 ≤ maj ∧ maj ≤ 0xBF) || maj == 0xA8 || maj == 0xAA || maj == 0xD8 || maj == 0xD9

/-- A register operand and how many registers it names. -/
abbrev RegSpan := VReg × Nat

def span (wide : Bool) (r : VReg) : RegSpan := (r, if wide then 2 else 1)

def spanW (w : Width) (r : VReg) : RegSpan :=
  (r, match w with | .b64 => 2 | .b128 => 4 | _ => 1)

def spanA (sp : Space) (r : VReg) : RegSpan :=
  (r, match sp with | .gl | .sh => 2 | _ => 1)

/-- Registers a row of each tile format occupies (R249). -/
def TFmt.regs : TFmt → Nat
  | .f32 => 32 | .bf16 => 16 | .e4m3 | .e5m2 | .mk8 | .i8 => 8 | .fp4 => 4

/-- The v registers an instruction names. -/
def Instr.regs : Instr → List RegSpan
  | .iadd x | .isub x | .imul x | .imulh x | .imin x | .imax x | .and x | .or x | .xor x
  | .shl x | .shr x | .sar x | .bfx x => [span x.ty.wide x.d, span x.ty.wide x.a, span x.ty.wide x.b]
  | .iaddImm x | .isubImm x | .imulImm x | .iminImm x | .imaxImm x | .andImm x | .orImm x | .xorImm x
  | .shlImm x | .shrImm x | .sarImm x => [span x.ty.wide x.d, span x.ty.wide x.a]
  | .imad x | .bfi x => [span x.ty.wide x.d, span x.ty.wide x.a, span x.ty.wide x.b, span x.ty.wide x.c]
  | .iabs x | .popc x | .clz x | .brev x | .mov x => [span x.ty.wide x.d, span x.ty.wide x.a]
  | .iset x => [span x.ty.wide x.a, span x.ty.wide x.b]
  | .isetImm x => [span x.ty.wide x.a]
  | .sel x => [span x.ty.wide x.d, span x.ty.wide x.a, span x.ty.wide x.b]
  | .movFromLk x => [(x.d, 2)]
  | .movToLk x => [(x.a, 2)]
  | .lea x => [(x.d, 2), (x.a, 2), (x.b, 1)]
  | .pmovGet x => [(x.d, 1)]
  | .pmovPut x => [(x.a, 1)]
  | .movs x => [span x.src.wide x.d]
  | .movi x => [(x.d, 1)]
  | .movi64 x => [(x.d, 2)]
  | .fadd x | .fsub x | .fmul x => [span x.ty.wide x.d, span x.ty.wide x.a, span x.ty.wide x.b]
  | .ffma x => [span x.ty.wide x.d, span x.ty.wide x.a, span x.ty.wide x.b, span x.ty.wide x.c]
  | .fmin x | .fmax x => [span x.ty.wide x.d, span x.ty.wide x.a, span x.ty.wide x.b]
  | .fset x => [span x.ty.wide x.a, span x.ty.wide x.b]
  | .frnd x | .frcp x | .frsq x | .fsqrt x | .fexp2 x | .flog2 x => [span x.ty.wide x.d, span x.ty.wide x.a]
  | .fscl x => [span x.ty.wide x.d, span x.ty.wide x.a, (x.b, 1)]
  | .fcls x => [span x.ty.wide x.d, span x.ty.wide x.a]
  | .cvt x => [span x.dst.wide x.d, span x.src.wide x.a]
  | .cvtiF2i x => [span x.ity.wide x.d, span x.fmt.wide x.a]
  | .cvtiI2f x => [span x.fmt.wide x.d, span x.ity.wide x.a]
  | .qnt x => [(x.d, 1), (x.a, 1), (x.fw, 1), (x.c, 1)]
  | .qntOl x => [(x.d, 2), (x.a, 1), (x.fw, 1), (x.c, 2)]
  | .dqnt x => [(x.d, 1), span x.ol x.a, (x.fw, 1)]
  | .pk4 x => [(x.d, 1), (x.a, 1), (x.b, 1)]
  | .upk4 x => [(x.d, 1), (x.a, 1)]
  | .brd x => [(x.d, 1), (x.a, 1)]
  | .braise x => [span x.pair x.d, span x.pair x.a, (x.b, 1)]
  | .budget x => [(x.a, 1)]
  | .bchk x => [(x.a, 1), (x.b, 1)]
  | .flgrd x => [(x.d, 1)]
  | .flgrdClr x => [(x.d, 1), (x.a, 1)]
  | .ld x | .st x => [spanW x.w x.d, spanA x.space x.a]
  | .pref x => [(x.a, 2)]
  | .smap x | .smapUn x => [(x.lr, 1), (x.a, 2), (x.orr, 1)]
  | .swb x | .sinv x | .cwb x | .tlbi x | .icinv x => [(x.lr, 1), (x.a, 2)]
  | .atom x => [span x.ty.wide x.d, spanA x.space x.a, span x.ty.wide x.b]
  | .red x => [spanA x.space x.a, span x.ty.wide x.b]
  | .acas x => [span x.ty.wide x.d, spanA x.space x.a, span x.ty.wide x.b, span x.ty.wide x.c]
  | .csig x | .csigFl x | .cpendAdd x | .cpendSub x | .cwait x => [spanA x.space x.a, span x.wide x.b]
  | .crd x => [(x.d, 4), spanA x.space x.a]
  | .mrd x | .mwr x => [(x.r, 1)]
  | .vote x => if x.kind == .bal then [(x.d, 1)] else []
  | .shfl x => [span x.wide x.d, span x.wide x.a, (x.b, 1)]
  | .wred x => [span x.ty.wide x.d, span x.ty.wide x.a]
  | .yld x => [(x.a, 1), (x.b, 1)]
  | .take x => [(x.d, 1), (x.d2, 1), (x.ds, 1)]
  | .gstat x => [(x.d, 1)]
  | .brx x | .callReg x => [(x.a, 2)]
  | .mma x | .mmao x => [(x.fw, 1), (x.aux, 1)]
  | .wld x | .wst x => [spanA x.space x.a]
  | .wdrn x => [(x.d, x.fmt.regs)]
  | .wbnd x => [(x.d, 1)]
  | .qpop x | .qcnt x => [(x.d, 1)]
  | .qpeek x => [(x.d, 1)]
  | .job x => [(x.a, 1)]
  | .grow x => [(x.d, 1), (x.a, 1)]
  | .lnch x => [(x.d, 1), (x.a, 1), (x.b, 1)]
  | .movcRead x | .movcWrite x => [span x.cr.wide x.r]
  | .fres x | .fdisc x | .save x | .rest x | .halt x => [(x.d, 1), (x.a, 1)]
  | .sbrd x => [(x.d, 8), (x.a, 1)]
  | _ => []

/-- The register allocation a word is judged under: N and the frame-C base b (R39, R147, R225). -/
structure Alloc where
  n : Nat
  base : Nat
deriving DecidableEq, Repr

def Instr.fitsAlloc (i : Instr) (al : Alloc) : Bool :=
  i.regs.all (fun r => decide (r.1.toNat + r.2 ≤ al.n))
    && match i with
      | .gen x => decide (x.split.toNat < al.n) && decide (al.base ≤ x.split.toNat)
      | _ => true

/-- Format A fields that a word in a STR clause keeps zero: tier, rounding, saturate and modifiers (R144). -/
def strBitsZero (maj n : Nat) : Bool :=
  let min := n / 2 ^ 52 % 16
  if maj ≤ 0x1B && min == 0 && maj != 0x1A then decide (n / 2 ^ 4 % 2 ^ 9 = 0) else true

/-- Special registers a STR clause may read (R144). -/
def strSReg : SReg → Bool
  | .parm | .clock | .quad | .core | .cg | .cgcount | .die => true
  | _ => false

/-- Reason 4 of a STR clause (R144). -/
def strField (w : DWord) (i : Instr) : Bool :=
  let n := w.toNat
  decide (n / 2 ^ 48 % 16 = 7) && strBitsZero (n / 2 ^ 56) n
    && match i with
      | .movs x => strSReg x.src
      | _ => true

/-- An instruction word in a slot of a clause: `last` for the last slot, `al` for the threads' allocation (none
in an access slice). The lowest reason is reported (R158). -/
def legal (cls : BitVec 3) (last : Bool) (al : Option Alloc) (w : DWord) : Except IllReason Instr :=
  let n := w.toNat
  let maj := n / 2 ^ 56
  let min := n / 2 ^ 52 % 16
  if !majorAssigned maj then .error .unassigned
  else if !admits cls maj min || (lastOnly maj && !last) then .error .klass
  else
    match findRow maj min with
    | none => .error .unassigned
    | some r =>
      let c := r.rd (Guard.ofCode (n / 2 ^ 48 % 16)) (n % 2 ^ 48)
      let str := cls == clsStr
      if !(c.c3 && c.i.wfCode) then .error .memCode
      else if !(c.c4 && c.i.wfField && (!str || strField w c.i)) then .error .reserved
      else if !c.i.wfReg then .error .register
      else
        match al with
        | some a => if c.i.fitsAlloc a then .ok c.i else .error .register
        | none => if c.i.regs.all (fun r => decide (r.1.toNat + r.2 ≤ 32)) then .ok c.i else .error .register

/-! ## The encoder -/

def enA (maj min : Nat) (g : Guard) (f : FA) : Option DWord := some (BitVec.ofNat 64 (iword maj min g.code f.bits))
def enI (maj min : Nat) (g : Guard) (f : FI) : Option DWord := some (BitVec.ofNat 64 (iword maj min g.code f.bits))
def enM (maj min : Nat) (g : Guard) (f : FM) : Option DWord := some (BitVec.ofNat 64 (iword maj min g.code f.bits))
def enMA (maj min : Nat) (g : Guard) (f : FMA) : Option DWord := some (BitVec.ofNat 64 (iword maj min g.code f.bits))
def enX (maj min : Nat) (g : Guard) (f : FX) : Option DWord := some (BitVec.ofNat 64 (iword maj min g.code f.bits))
def enB (maj min : Nat) (g : Guard) (f : FB) : Option DWord := some (BitVec.ofNat 64 (iword maj min g.code f.bits))
def enS (maj min : Nat) (g : Guard) (f : FS) : Option DWord := some (BitVec.ofNat 64 (iword maj min g.code f.bits))
def enT (maj : Nat) (f : FT) : Option DWord := some (BitVec.ofNat 64 (iword maj 0 7 f.bits))
def enL (maj : Nat) (f : FL) : Option DWord := some (BitVec.ofNat 64 (iword maj 0 7 f.bits))

/-- The minor of an I form (Table 8-1). -/
def immMinor : Ty → Nat
  | .s32 => 0x8 | .n32 => 0x9 | .s64 => 0xA | .n64 => 0xB | _ => 0xF

def eRR (maj : Nat) (x : IntRR) : Option DWord :=
  enA maj 0 x.g { FA.zero with d := x.d, a := x.a, b := x.b, ty := oc 3 x.ty.code, sat := ob x.sat }
def eRRR (maj : Nat) (x : IntRRR) : Option DWord :=
  enA maj 0 x.g { FA.zero with d := x.d, a := x.a, b := x.b, c := x.c, ty := oc 3 x.ty.code, sat := ob x.sat }
def eR (maj : Nat) (x : IntR) : Option DWord :=
  enA maj 0 x.g { FA.zero with d := x.d, a := x.a, ty := oc 3 x.ty.code, sat := ob x.sat }
def eRI (maj : Nat) (x : IntRI) : Option DWord := enI maj (immMinor x.ty) x.g ⟨x.d, x.a, x.imm⟩
def eFlt (maj : Nat) (x : FltRR) : Option DWord :=
  enA maj 0 x.g ⟨x.d, x.a, x.b, 0, oc 3 x.ty.code, oc 2 x.tier.code, oc 2 x.rnd.code, ob x.sat, ob x.m.na,
    ob x.m.nb, ob x.m.aa, ob x.m.ab, 0⟩
def eMM (maj : Nat) (x : FltMM) : Option DWord :=
  enA maj 0 x.g ⟨x.d, x.a, x.b, 0, oc 3 x.ty.code, 0, 0, 0, ob x.m.na, ob x.m.nb, ob x.m.aa, ob x.m.ab, 0⟩
def eU (maj : Nat) (x : FltU) : Option DWord :=
  enA maj 0 x.g { FA.zero with
    d := x.d, a := x.a, ty := oc 3 x.ty.code, tier := oc 2 x.tier.code, rnd := oc 2 x.rnd.code,
    na := ob x.na, aa := ob x.aa }
def eMem (maj : Nat) (x : MemOps) : Option DWord :=
  enM maj 0 x.g ⟨x.d, x.a, x.ofs, oc 2 x.ord.code, oc 3 x.scope.code, x.evc, oc 2 x.space.code, ob x.rp,
    oc 3 x.w.code⟩
def eAtom (maj : Nat) (x : AtomOps) : Option DWord :=
  enMA maj x.op.code x.g ⟨x.d, x.a, x.b, 0, 0, oc 2 x.ord.code, oc 3 x.scope.code, x.evc, oc 2 x.space.code,
    ob x.rp, oc 3 x.ty.code⟩
def eCobj (maj min : Nat) (x : CobjOps) : Option DWord :=
  enMA maj min x.g ⟨0, x.a, x.b, 0, 0, oc 2 x.ord.code, oc 3 x.scope.code, x.evc, oc 2 x.space.code, ob x.rp,
    if x.wide then 3 else 1⟩
def eTileMem (maj : Nat) (x : TileMemOps) : Option DWord :=
  enM maj 0 x.g ⟨oc 8 (x.w.toNat * 32), x.a, x.ofs, oc 2 x.ord.code, oc 3 x.scope.code, x.evc,
    oc 2 x.space.code, ob x.rp, oc 3 x.fmt.code⟩
def eMma (maj : Nat) (x : MmaOps) : Option DWord :=
  enX maj 0 x.g ⟨x.wd, x.ws, x.qa, x.qb, x.fw, x.aux, x.kb, 0, ob x.dr, ob x.z, ob x.tb, ob x.ta⟩
def eRange (maj : Nat) (x : RangeOps) : Option DWord := enS maj 0 x.g ⟨x.lr, x.a, 0, 0⟩
def eAll (maj : Nat) (g : Guard) : Option DWord := enS maj 0 g ⟨0, 0, 0, 1⟩
def eDA (maj : Nat) (x : OpDA) : Option DWord := enS maj 0 x.g ⟨x.d, x.a, 0, 0⟩
def eMask (maj : Nat) (x : MaskOps) : Option DWord := enS maj 0 x.g ⟨0, 0, x.m.setWidth 8, 0⟩
def eBar (maj : Nat) (x : BarOps) : Option DWord := enS maj 0 x.g ⟨x.b.setWidth 8, 0, 0, 0⟩
def eCode (maj : Nat) (x : CodeOps) : Option DWord := enS maj 0 x.g ⟨0, 0, 0, x.code.setWidth 24⟩

/-- The word of a well-formed instruction, from the encoding tables; none for a step that has no word. -/
def encode : Instr → Option DWord
  | .iadd x => eRR 0x00 x
  | .iaddImm x => eRI 0x00 x
  | .isub x => eRR 0x01 x
  | .isubImm x => eRI 0x01 x
  | .imul x => eRR 0x02 x
  | .imulImm x => eRI 0x02 x
  | .imulh x => eRR 0x03 x
  | .imad x => eRRR 0x04 x
  | .imin x => eRR 0x05 x
  | .iminImm x => eRI 0x05 x
  | .imax x => eRR 0x06 x
  | .imaxImm x => eRI 0x06 x
  | .iabs x => eR 0x07 x
  | .and x => eRR 0x08 x
  | .andImm x => eRI 0x08 x
  | .or x => eRR 0x09 x
  | .orImm x => eRI 0x09 x
  | .xor x => eRR 0x0A x
  | .xorImm x => eRI 0x0A x
  | .shl x => eRR 0x0B x
  | .shlImm x => eRI 0x0B x
  | .shr x => eRR 0x0C x
  | .shrImm x => eRI 0x0C x
  | .sar x => eRR 0x0D x
  | .sarImm x => eRI 0x0D x
  | .bfx x => eRR 0x0E x
  | .bfi x => eRRR 0x0F x
  | .popc x => eR 0x10 x
  | .clz x => eR 0x11 x
  | .brev x => eR 0x12 x
  | .iset x => enA 0x13 0 x.g { FA.zero with
      d := x.p.setWidth 8, a := x.a, b := x.b, ty := oc 3 x.ty.code, sub := oc 4 x.cond.code }
  | .isetImm x => enI 0x13 (immMinor x.ty) x.g ⟨oc 8 (x.cond.code * 16 + x.p.toNat), x.a, x.imm⟩
  | .sel x => enA 0x14 0 x.g { FA.zero with
      d := x.d, a := x.a, b := x.b, c := x.p.setWidth 8, ty := oc 3 x.ty.code }
  | .mov x => eR 0x15 x
  | .movFromLk x => enA 0x15 1 x.g { FA.zero with d := x.d }
  | .movToLk x => enA 0x15 2 x.g { FA.zero with a := x.a }
  | .lea x => enA 0x16 0 x.g { FA.zero with
      d := x.d, a := x.a, b := x.b, ty := if x.signed then 0 else 1, sub := x.sh }
  | .plog x => enA 0x17 0 x.g { FA.zero with
      d := x.p.setWidth 8, a := x.pa.setWidth 8, b := x.pb.setWidth 8, c := x.pc.setWidth 8,
      ty := fld x.tt.toNat 5 3, tier := fld x.tt.toNat 3 2, rnd := fld x.tt.toNat 1 2, sat := fld x.tt.toNat 0 1 }
  | .pmovGet x => enA 0x18 0 x.g { FA.zero with d := x.d }
  | .pmovPut x => enA 0x18 0 x.g { FA.zero with a := x.a, sub := 1 }
  | .movs x => enA 0x19 0 x.g { FA.zero with d := x.d, a := oc 8 x.src.code }
  | .movi x => enI 0x1A 0 x.g ⟨x.d, 0, x.imm⟩
  | .movi64 x => enI 0x1A 1 x.g ⟨x.d, 0, x.imm⟩
  | .nop g => enA 0x1B 0 g FA.zero
  | .fadd x => eFlt 0x30 x
  | .fsub x => eFlt 0x31 x
  | .fmul x => eFlt 0x32 x
  | .ffma x => enA 0x33 0 x.g ⟨x.d, x.a, x.b, x.c, oc 3 x.ty.code, oc 2 x.tier.code, oc 2 x.rnd.code, ob x.sat,
      ob x.m.na, ob x.m.nb, ob x.m.aa, ob x.m.ab, 0⟩
  | .fmin x => eMM 0x34 x
  | .fmax x => eMM 0x35 x
  | .fset x => enA 0x36 0 x.g ⟨x.p.setWidth 8, x.a, x.b, x.q.setWidth 8, oc 3 x.ty.code, 0, 0, 0, ob x.m.na,
      ob x.m.nb, ob x.m.aa, ob x.m.ab, oc 4 (bnum x.sx * 8 + x.cond.code)⟩
  | .frnd x => eU 0x37 x
  | .frcp x => eU 0x38 x
  | .frsq x => eU 0x39 x
  | .fsqrt x => eU 0x3A x
  | .fexp2 x => eU 0x3B x
  | .flog2 x => eU 0x3C x
  | .fscl x => enA 0x3D 0 x.g { FA.zero with
      d := x.d, a := x.a, b := x.b, ty := oc 3 x.ty.code, rnd := oc 2 x.rnd.code, sat := ob x.sat,
      na := ob x.na, aa := ob x.aa }
  | .fcls x => enA 0x3E 0 x.g { FA.zero with d := x.d, a := x.a, ty := oc 3 x.ty.code }
  | .cvt x => enA 0x40 0 x.g { FA.zero with
      d := x.d, a := x.a, b := oc 8 (x.src.code * 16 + x.dst.code), rnd := oc 2 x.rnd.code, sat := ob x.sat,
      na := ob x.na, aa := ob x.aa, sub := x.elem }
  | .cvtiF2i x => enA 0x41 0 x.g { FA.zero with
      d := x.d, a := x.a, ty := oc 3 x.ity.code, rnd := oc 2 x.rnd.code, na := ob x.na, aa := ob x.aa,
      sub := oc 4 x.fmt.code }
  | .cvtiI2f x => enA 0x41 1 x.g { FA.zero with
      d := x.d, a := x.a, ty := oc 3 x.ity.code, rnd := oc 2 x.rnd.code, na := ob x.na, aa := ob x.aa,
      sub := oc 4 x.fmt.code }
  | .qnt x => enA 0x42 0 x.g { FA.zero with
      d := x.d, a := x.a, b := x.fw, c := x.c, ty := 4, rnd := oc 2 x.rnd.code }
  | .qntOl x => enA 0x42 1 x.g { FA.zero with
      d := x.d, a := x.a, b := x.fw, c := x.c, ty := 4, rnd := oc 2 x.rnd.code }
  | .dqnt x => enA 0x43 0 x.g { FA.zero with
      d := x.d, a := x.a, b := x.fw, ty := 4, sub := if x.ol then 1 else 0 }
  | .pk4 x => enA 0x44 0 x.g { FA.zero with d := x.d, a := x.a, b := x.b, ty := 7 }
  | .upk4 x => enA 0x45 0 x.g { FA.zero with
      d := x.d, a := x.a, ty := if x.signed then 0 else 1, sub := if x.hi then 1 else 0 }
  | .brd x => enA 0x60 0 x.g { FA.zero with d := x.d, a := x.a, sub := if x.f then 1 else 0 }
  | .braise x => enA 0x61 0 x.g { FA.zero with
      d := x.d, a := x.a, b := x.b, ty := if x.f32 then 4 else 7, sub := oc 4 (bnum x.set + 2 * bnum x.pair) }
  | .budget x => enA 0x62 0 x.g { FA.zero with a := x.a }
  | .budgetImm x => enI 0x62 1 x.g ⟨0, 0, x.imm⟩
  | .bchk x => enA 0x63 0 x.g { FA.zero with
      d := x.p.setWidth 8, a := x.a, b := x.b, sub := oc 4 (bnum x.reg + 4 * bnum x.trap) }
  | .flgrd x => enA 0x64 0 x.g { FA.zero with d := x.d }
  | .flgrdClr x => enA 0x64 1 x.g { FA.zero with d := x.d, a := x.a }
  | .ld x => eMem 0x70 x
  | .st x => eMem 0x71 x
  | .pref x => enM 0x72 0 x.g ⟨0, x.a, x.ofs, 0, 0, x.evc, if x.sh then 1 else 0, 0, 0⟩
  | .smap x => enS 0x73 0 x.g ⟨x.lr, x.a, x.orr, 0⟩
  | .smapUn x => enS 0x73 0 x.g ⟨x.lr, x.a, x.orr, 1⟩
  | .swb x => eRange 0x74 x
  | .swbAll g => eAll 0x74 g
  | .sinv x => eRange 0x75 x
  | .sinvAll g => eAll 0x75 g
  | .cwb x => eRange 0x76 x
  | .atom x => eAtom 0x80 x
  | .acas x => enMA 0x81 0 x.g ⟨x.d, x.a, x.b, x.c, 0, oc 2 x.ord.code, oc 3 x.scope.code, x.evc,
      oc 2 x.space.code, ob x.rp, oc 3 x.ty.code⟩
  | .red x => eAtom 0x82 x
  | .fence x => enM 0x90 0 x.g ⟨0, 0, 0, oc 2 x.ord.code, oc 3 x.scope.code, 0, 0, 0, 0⟩
  | .fenceJ x => enM 0x90 1 x.g ⟨0, 0, 0, 2, oc 3 x.scope.code, 0, 0, 0, 0⟩
  | .csig x => eCobj 0x91 0 x
  | .csigFl x => eCobj 0x91 1 x
  | .cpendAdd x => eCobj 0x92 0 x
  | .cpendSub x => eCobj 0x92 1 x
  | .cwait x => eCobj 0x93 0 x
  | .crd x => enMA 0x94 0 x.g ⟨x.d, x.a, 0, 0, 0, oc 2 x.ord.code, oc 3 x.scope.code, x.evc,
      oc 2 x.space.code, ob x.rp, 0⟩
  | .gbar x => eBar 0x98 x
  | .garr x => eBar 0x99 x
  | .gdrop x => eBar 0x9A x
  | .gjoin x => eBar 0x9B x
  | .mjoin x => eMask 0xA0 x
  | .mleave x => eMask 0xA1 x
  | .mwait x => eMask 0xA2 x
  | .mrd x => enS 0xA3 0 x.g ⟨x.r, 0, x.m.setWidth 8, 0⟩
  | .mwr x => enS 0xA4 0 x.g ⟨0, x.r, x.m.setWidth 8, 0⟩
  | .vote x => enA 0xA5 x.kind.code x.g { FA.zero with d := x.d, a := x.ps.setWidth 8 }
  | .shfl x => enA 0xA6 x.kind.code x.g { FA.zero with
      d := x.d, a := x.a, b := x.b, ty := if x.wide then 3 else 7 }
  | .wred x => enA 0xA7 x.op.code x.g { FA.zero with d := x.d, a := x.a, ty := oc 3 x.ty.code }
  | .gen x => enS 0xA8 0 x.g ⟨x.split, oc 8 (x.thr.toNat * 4), fld x.prod.toNat 8 8,
      oc 24 (x.prod.toNat % 256 * 65536 + x.cons.toNat)⟩
  | .yld x => enS 0xA9 0 x.g ⟨0, x.a, x.b, if x.two then 1 else 0⟩
  | .gend g => enS 0xAA 0 g ⟨0, 0, 0, 0⟩
  | .take x => enS 0xAB 0 x.g ⟨x.d, x.d2, x.ds, oc 24 (bnum x.two + 2 * bnum x.src)⟩
  | .gstat x => enS 0xAC 0 x.g ⟨x.d, 0, 0, 0⟩
  | .bra x => enB 0xB0 0 x.g ⟨0, 0, x.ofs⟩
  | .brx x => enB 0xB1 0 x.g ⟨x.a, 0, 0⟩
  | .call x => enB 0xB2 0 x.g ⟨0, 0, x.ofs⟩
  | .callReg x => enB 0xB2 1 x.g ⟨x.a, 0, 0⟩
  | .ret g => enB 0xB3 0 g ⟨0, 0, 0⟩
  | .exit g => enB 0xB4 0 g ⟨0, 0, 0⟩
  | .mma x => eMma 0xC0 x
  | .mmao x => eMma 0xC1 x
  | .wzero x => enX 0xC2 0 x.g ⟨x.wd, 0, 0, 0, 0, 0, 0, 0, 0, 0, 0, 0⟩
  | .wld x => eTileMem 0xC3 x
  | .wst x => eTileMem 0xC4 x
  | .wdrn x => enM 0xC5 0 x.g ⟨x.d, oc 8 (x.w.toNat * 32), 0, 0, 0, 0, 0, ob x.z, oc 3 x.fmt.code⟩
  | .wmov x => enX 0xC6 0 x.g ⟨x.wd, x.ws, 0, 0, 0, 0, 0, 0, ob x.dr, 0, 0, 0⟩
  | .wbnd x => enS 0xC7 0 x.g ⟨x.d, oc 8 (x.w.toNat * 32), 0, if x.f then 1 else 0⟩
  | .qpop x => enS 0xD0 0 x.g ⟨x.d, oc 8 (x.q.toNat * 32), 0, 0⟩
  | .qpeek x => enS 0xD1 0 x.g ⟨x.d, oc 8 (x.q.toNat * 32 + x.p.toNat), 0, 0⟩
  | .qcnt x => enS 0xD2 0 x.g ⟨x.d, oc 8 (x.q.toNat * 32), 0, 0⟩
  | .qdrop x => enS 0xD3 0 x.g ⟨0, oc 8 (x.q.toNat * 32), 0, 0⟩
  | .sloop x => enL 0xD8 ⟨x.a, x.c, 0, ob x.rf, x.n⟩
  | .snext a => enL 0xD9 ⟨a, 0, 0, 0, 0⟩
  | .sfetch x => enT 0xDA ⟨x.q, x.a, x.s, x.rows, x.bytes, x.ofs⟩
  | .smark x => enT 0xDB ⟨x.q, x.t, 0, 0, 0, 0⟩
  | .swaitc x => enT 0xDC ⟨0, x.a, x.t, if x.wide then 128 else 0, 0, 0⟩
  | .sdone => enT 0xDD ⟨0, 0, 0, 0, 0, 0⟩
  | .job x => enS 0xE0 0 x.g ⟨0, x.a, 0, 0⟩
  | .grow x => eDA 0xE1 x
  | .lnch x => enS 0xE2 0 x.g ⟨x.d, x.a, x.b, 0⟩
  | .trap x => eCode 0xE8 x
  | .bkpt x => eCode 0xE9 x
  | .phint x => enS 0xEA 0 x.g ⟨0, 0, fld x.rofs.toNat 24 8, fld x.rofs.toNat 0 24⟩
  | .sleep x => eCode 0xEB x
  | .rte g => enS 0xF0 0 g ⟨0, 0, 0, 0⟩
  | .movcRead x => enS 0xF1 0 x.g ⟨x.r, 0, 0, oc 24 x.cr.code⟩
  | .movcWrite x => enS 0xF1 0 x.g ⟨0, x.r, 0, oc 24 (4096 + x.cr.code)⟩
  | .tlbi x => eRange 0xF2 x
  | .tlbiAll g => eAll 0xF2 g
  | .icinv x => eRange 0xF3 x
  | .icinvAll g => eAll 0xF3 g
  | .fres x => eDA 0xF4 x
  | .fdisc x => eDA 0xF5 x
  | .save x => eDA 0xF6 x
  | .rest x => eDA 0xF7 x
  | .sbrd x => eDA 0xF8 x
  | .halt x => eDA 0xF9 x
  | .illegalInstruction _ w => some w
  | .cwaitReevaluate _ | .queueEntryReady _ _ _ | .jobAccept _ | .jobStart _ _ | .jobCompletion _ _
  | .sleepEnd _ | .clauseEntry _ | .lqTailWrite _ _ _ | .lqActivate _ _ | .lqPause _ _ | .lqOff _ _
  | .launchRecordTake _ | .indexReady _ _ _ | .dispatch _ _ _ _ | .agingExpiry _ _ _ | .tileFillComplete _
  | .clusterGroupCompletion _ | .agentRetryRetry _ | .agentRetryAbandon _ | .eventPost _ | .evqOvfClear _ _
  | .controlRegisterWrite _ _ _ | .preemptWindowExpiry _ | .warpSave _ | .warpRestore _ _ | .migGo _
  | .migCopyDone _ | .migSwitch _ | .migAbort _ | .shadowAttach _ | .shadowDetach _
  | .uncorrectableLineError _ | .functionFence _ | .partitionChange _ _ | .keySlotChange _ _
  | .hostPostedWrite _ _ _ | .hostHdmAccess _ _ | .recCmdRead | .recCmdWrite | .poolWindowAttach _ _ _ _
  | .combiningClose _ _ | .snoopWritebackCrossing _ _ | .linkSleep _ | .linkWakeDone _ | .snoopSlow _
  | .dieUnresponsive _ | .sectorThrottle _ _ | .cluReqWrite _ _ _ | .rampEnd _ | .canaryWarning _
  | .canofsDecay _ | .slopeTick _ _ _ | .ewTailWrite _ _ | .remoteCopyCompletion _ _ | .deviceStart
  | .firmwareTimeout | .bootCmdCommit _ | .recoveryVerifyDone | .getVersion | .getCapabilities
  | .negotiateAlgorithms | .getDigests | .getCertificate _ | .challenge _ _ | .getMeasurements _ _
  | .firmwareStartEnd _ | .migrationSourceLineError _ _ | .hostCxlSnoop _ _ | .poolBackInvalidation _ _
  | .inboundRemoteCopy _ _ _ _ | .swaitcReevaluate _ => none

/-- The instruction the decoder reads from a word whose bits are `w`. Every instruction is one 64-bit word. -/
def decodeTableWord (nbits w : Nat) : Option Instr :=
  if nbits ≤ 64 then (decode (BitVec.ofNat 64 (w % 2 ^ nbits))).toOption else none

end Sys2Proof
end

