-- ==== Sys2Proof/Config.lean ====
section
/-! DEFINITION. What the specification leaves open: free values (opaque constants, applied to a counter of
the state or to the operands they depend on) and what an implementation or a device's provisioning fixes.
None of them has a body, so nothing can be proved of a value they take. Each is named in the assumption log. -/

namespace Sys2Proof.Config

/-- A fresh unspecified word: registers and scratch a liveness record omits (R95, R320). -/
opaque freeWord : Nat → Word

/-- A fresh unspecified choice of the hardware: stale translations and code copies (R133, R296),
update-only execution of a RED (R128). -/
opaque freeBool : Nat → Bool

/-- Whether a stale cached translation serves an act's access to a page or table entry (R296): the act's number and the
page's base or the entry's address. -/
opaque stale : Nat → Nat → Bool

/-- Whether a slice's reply queue holds 16 or more replies when a read reaches it (R342): the use's number, the slice. -/
opaque repliesQueued : Nat → Nat → Bool

/-- Whether a die that has been slow to answer snoops answers in an act (R344, R345): the act's number, the die. -/
opaque answers : Nat → Nat → Bool

/-- Clocks of the package time base that pass during a step (R171): timing is left open. -/
opaque freeClocks : Nat → Nat

/-- The function unit's choice between the two neighbours of an inexact result (R178: "The others are
faithful"), as a function of the operation, the type and the operand's bits. -/
opaque roundsUp : Nat → Bool → DWord → Bool

/-- What a 16-byte block written under one key reads as under another (R303): key written under, key read
under, physical address of the block, plaintext. -/
opaque rekeyBlock : Nat → Nat → Nat → BitVec 128 → BitVec 128

/-- What a bound record written under one key reads as under another (R303). -/
opaque rekeyRecord : Nat → Nat → Nat → BitVec 128 → BitVec 128

/-- Whether an image's ECDSA P-384 signature over its SHA-384 digest verifies under the fused key (R361). -/
opaque signatureValid : List Byte → Bool

/-- Whether the package flash can be read at a start (R361, REASON 7). -/
opaque flashReadable : Nat → Bool

/-- The image length and security version that an image header states, or none for a malformed header
(R361, R362); the header's layout is not in the manual. -/
opaque imageHeader : List Byte → Option (Nat × BitVec 16)

/-- SHA-384 of a byte string, as a measurement or certificate digest (R363). -/
opaque sha384 : List Byte → BitVec 384

/-- The certificate chain of slot 0 (R363), derived from the device key. -/
opaque certChain : List Byte

/-- The signature of an SPDM challenge or measurement transcript under the device key (R363). -/
opaque deviceSign : List Byte → List Byte

/-- The capability flags the device reports in SPDM (R363 names no value). -/
opaque spdmCapabilities : Word

/-- The boot ROM's and the fuses' contents as measured (R363, Table 22-9). -/
opaque bootRom : List Byte

opaque fuses : List Byte

/-- The fused minimum security version (R361, Table 22-3). -/
opaque minSvn : BitVec 16

/-- The device's 19-bit identifier (R359), provisioned by the management controller. -/
opaque deviceId : BitVec 19

/-- How many 128 KiB save slots beyond the first a save image takes (R319 leaves the layout open); SAVE_SLOTS is at most
65,536. -/
opaque extraSlots : Nat → BitVec 16

/-! Figures of Table 0-1 that the machine uses. -/

def clusters : Nat := 128
def coresPerPackage : Nat := 512
def warpSlots : Nat := 32
def regRows : Nat := 2048
def queueBytes : Nat := 131072
def scratchRows : Nat := 2048
def rowBytes : Nat := 384
def fragEntries : Nat := 64
def maxJobs : Nat := 4096
def hbmBytes : Nat := 2 ^ 40
def hbmShadowBytes : Nat := 2 ^ 36
def hostBase : Nat := 2 ^ 51
def physTop : Nat := 2 ^ 52
def coreTlbSize : Nat := 96
def dieTlbSize : Nat := 8192
def domeTlbSize : Nat := 2048
def tableCacheSize : Nat := 1024

end Sys2Proof.Config
end

