-- ==== Sys2Proof/Machine/Num.lean ====
section
/-! DEFINITION. Exact arithmetic on dyadic reals, floating values and their encodings (R47-R51), rounding (R60, R61),
MK8 (R54, R55), integers (R52) and BND16 (R56, R57). Every operation is exact until one explicit rounding. -/

namespace Sys2Proof.Machine

/-! ## Flags (Table 3-10) -/

def flSA : Byte := 0x80
def flOO : Byte := 0x40
def flBD : Byte := 0x20
def flNX : Byte := 0x10
def flUF : Byte := 0x08
def flOF : Byte := 0x04
def flDZ : Byte := 0x02
def flNV : Byte := 0x01

/-- A flag that is set when a condition holds. -/
def flIf (b : Bool) (f : Byte) : Byte := if b then f else 0

/-! ## Dyadic reals -/

/-- The real m·2^e. -/
structure Dy where
  m : Int
  e : Int
deriving DecidableEq, Repr, Inhabited

def dyZero : Dy := ⟨0, 0⟩
def dyInt (n : Int) : Dy := ⟨n, 0⟩
def dyPow (k : Int) : Dy := ⟨1, k⟩

/-- m·2^k of a natural number, rounded down. -/
def scaleNat (m : Nat) (k : Int) : Nat := if 0 ≤ k then m * 2 ^ k.toNat else m / 2 ^ (-k).toNat

/-- The numerator over a lower exponent. -/
def dyAt (a : Dy) (e : Int) : Int := a.m * 2 ^ (a.e - e).toNat

def dyAdd (a b : Dy) : Dy := let e := min a.e b.e; ⟨dyAt a e + dyAt b e, e⟩
def dyNeg (a : Dy) : Dy := ⟨-a.m, a.e⟩
def dySub (a b : Dy) : Dy := dyAdd a (dyNeg b)
def dyMul (a b : Dy) : Dy := ⟨a.m * b.m, a.e + b.e⟩
def dyAbs (a : Dy) : Dy := ⟨a.m.natAbs, a.e⟩
def dyScale (a : Dy) (k : Int) : Dy := ⟨a.m, a.e + k⟩
def dyLe (a b : Dy) : Bool := let e := min a.e b.e; decide (dyAt a e ≤ dyAt b e)
def dyLt (a b : Dy) : Bool := let e := min a.e b.e; decide (dyAt a e < dyAt b e)
def dyEq (a b : Dy) : Bool := let e := min a.e b.e; decide (dyAt a e = dyAt b e)
def dyMax (a b : Dy) : Dy := if dyLe a b then b else a
def dyIsZero (a : Dy) : Bool := a.m == 0

/-- floor(log2 |a|) of a nonzero real. -/
def dyLog (a : Dy) : Int := Nat.log2 a.m.natAbs + a.e

def dySum (l : List Dy) : Dy := l.foldl dyAdd dyZero

/-- The least integer not below a. -/
def dyCeil (a : Dy) : Int := if 0 ≤ a.e then a.m * 2 ^ a.e.toNat else -((-a.m) / 2 ^ (-a.e).toNat)

/-- The greatest integer not above a. -/
def dyFloor (a : Dy) : Int := if 0 ≤ a.e then a.m * 2 ^ a.e.toNat else a.m / 2 ^ (-a.e).toNat

/-- Bits of an integer square root, from bit k - 1 down. -/
def isqrtFrom : Nat → Nat → Nat → Nat
  | 0, r, _ => r
  | k + 1, r, n => if (r + 2 ^ k) * (r + 2 ^ k) ≤ n then isqrtFrom k (r + 2 ^ k) n else isqrtFrom k r n

/-- The integer square root. -/
def isqrt (n : Nat) : Nat := isqrtFrom (Nat.log2 n / 2 + 1) 0 n

/-! ## Bounds as reals: none is unbounded (R69) -/

abbrev Bd := Option Dy

def bdZero : Bd := some dyZero
def bdAdd (a b : Bd) : Bd := a.bind (fun x => b.map (fun y => dyAdd x y))
def bdMul (a b : Bd) : Bd := a.bind (fun x => b.map (fun y => dyMul x y))
def bdScale (a : Bd) (k : Int) : Bd := a.map (fun x => dyScale x k)
def bdMax (a b : Bd) : Bd := a.bind (fun x => b.map (fun y => dyMax x y))
def bdSum (l : List Bd) : Bd := l.foldl bdAdd bdZero

def bdLe : Bd → Bd → Bool
  | _, none => true
  | none, some _ => false
  | some a, some b => dyLe a b

/-- The real a BND16 code holds (R56). -/
def bdOf (c : BitVec 16) : Bd :=
  let ex := c.toNat / 256
  let fr := c.toNat % 256
  if ex = 255 then none
  else if ex = 0 then some ⟨fr, -134⟩
  else some ⟨256 + fr, ex - 135⟩

/-- The code of unbounded (R56). -/
def bndInf : BitVec 16 := 0xFF00

/-- up() of a nonnegative real (R57). -/
def upDy (a : Dy) : BitVec 16 :=
  if a.m ≤ 0 then 0
  else
    let q : Int := max (dyLog a - 8) (-134)
    let n : Int := dyCeil ⟨a.m, a.e - q⟩
    let c : Int := (q + 134) * 256 + n
    if 0xFF00 ≤ c then bndInf else BitVec.ofNat 16 c.toNat

/-- up() (R57). -/
def upBd : Bd → BitVec 16
  | none => bndInf
  | some a => upDy a

/-- The larger of two codes; every code from 0xFF00 reads as unbounded. -/
def bndMax (a b : BitVec 16) : BitVec 16 := if a.toNat ≤ b.toNat then b else a

/-! ## Floating values -/

/-- A decoded floating value: a NaN (signalling or quiet), an infinity, or ±m·2^e. -/
inductive FV where
  | nan (sig : Bool)
  | inf (neg : Bool)
  | fin (neg : Bool) (m : Nat) (e : Int)
deriving DecidableEq, Repr, Inhabited

def fvNeg : FV → FV
  | .nan s => .nan s
  | .inf n => .inf (!n)
  | .fin n m e => .fin (!n) m e

def fvAbs : FV → FV
  | .nan s => .nan s
  | .inf _ => .inf false
  | .fin _ m e => .fin false m e

/-- The modifiers of an operand (R148): absolute value, then negate. -/
def fvMod (na aa : Bool) (v : FV) : FV :=
  let v := if aa then fvAbs v else v
  if na then fvNeg v else v

def fvIsNan : FV → Bool
  | .nan _ => true
  | _ => false

def fvIsSig : FV → Bool
  | .nan true => true
  | _ => false

def fvIsInf : FV → Bool
  | .inf _ => true
  | _ => false

def fvIsFin : FV → Bool
  | .fin _ _ _ => true
  | _ => false

def fvIsZero : FV → Bool
  | .fin _ m _ => m == 0
  | _ => false

def fvSign : FV → Bool
  | .nan _ => false
  | .inf n => n
  | .fin n _ _ => n

/-- The real of a finite value (0 for the others, whose uses check first). -/
def fvDy : FV → Dy
  | .fin n m e => ⟨if n then -(m : Int) else m, e⟩
  | _ => dyZero

/-- |v| as a bound: +∞ for an infinity or NaN. -/
def fvMag : FV → Bd
  | .fin _ m e => some ⟨m, e⟩
  | _ => none

/-- A value from a real. -/
def fvOfDy (zeroNeg : Bool) (d : Dy) : FV := .fin (if d.m = 0 then zeroNeg else decide (d.m < 0)) d.m.natAbs d.e

/-! ## Formats with an exponent field -/

/-- Precision, least and greatest normal exponent, exponent width (R47, R49, R50). -/
structure IFmt where
  p : Nat
  emin : Int
  emax : Int
  ew : Nat
deriving DecidableEq, Repr

def fF32 : IFmt := ⟨24, -126, 127, 8⟩
def fF64 : IFmt := ⟨53, -1022, 1023, 11⟩
def fBF16 : IFmt := ⟨8, -126, 127, 8⟩
def fE5M2 : IFmt := ⟨3, -14, 15, 5⟩
def fE4M3 : IFmt := ⟨4, -6, 8, 4⟩
def fFP4 : IFmt := ⟨2, 0, 2, 2⟩

/-- The format of a floating TYPE; `.bf16x2` is read element by element. -/
def tyFmt : Ty → IFmt
  | .f64 => fF64
  | .bf16x2 => fBF16
  | _ => fF32

/-- The exponent of the last place of a value of magnitude 2^E upward. -/
def fmtQ (f : IFmt) (E : Int) : Int := max E f.emin - (f.p - 1 : Int)

/-- The largest finite magnitude of an IEEE format. -/
def fmtMax (f : IFmt) : Dy := ⟨2 ^ f.p - 1, f.emax - (f.p - 1 : Int)⟩

/-- A finite code: sign, exponent and fraction fields. -/
def decFin (f : IFmt) (neg : Bool) (ex fr : Nat) : FV :=
  if ex = 0 then .fin neg fr (fmtQ f f.emin)
  else .fin neg (2 ^ (f.p - 1) + fr) (f.emin + (ex - 1 : Int) - (f.p - 1 : Int))

/-- IEEE decoding (R47). -/
def decI (f : IFmt) (n : Nat) : FV :=
  let neg := n / 2 ^ (f.ew + f.p - 1) % 2 == 1
  let ex := n / 2 ^ (f.p - 1) % 2 ^ f.ew
  let fr := n % 2 ^ (f.p - 1)
  if ex = 2 ^ f.ew - 1 then
    if fr = 0 then .inf neg else .nan (decide (fr < 2 ^ (f.p - 2)) && f.p != 3)
  else decFin f neg ex fr

/-- The magnitude bits of a representable finite value. -/
def encFin (f : IFmt) (m : Nat) (e : Int) : Nat :=
  if m = 0 then 0
  else
    let E : Int := Nat.log2 m + e
    let k := scaleNat m (e - fmtQ f E)
    if E < f.emin then k else ((E - f.emin).toNat) * 2 ^ (f.p - 1) + k

/-- IEEE encoding; a NaN is canonical (R48). -/
def encI (f : IFmt) (v : FV) : Nat :=
  let s := 2 ^ (f.ew + f.p - 1)
  match v with
  | .nan _ => if f.p = 3 then 0x7F else (2 ^ f.ew - 1) * 2 ^ (f.p - 1) + 2 ^ (f.p - 2)
  | .inf n => (if n then s else 0) + (2 ^ f.ew - 1) * 2 ^ (f.p - 1)
  | .fin n m e => (if n then s else 0) + encFin f m e

/-- E4M3 (R49): no infinity, one NaN magnitude. -/
def decE4M3 (n : Nat) : FV :=
  if n % 128 = 0x7F then .nan false else decFin fE4M3 (n / 128 % 2 == 1) (n / 8 % 16) (n % 8)

/-- FP4 (R50). -/
def decFP4 (n : Nat) : FV := decFin fFP4 (n / 8 % 2 == 1) (n / 2 % 4) (n % 2)

/-! ## MK8 (R54, R55) -/

/-- ne, nf and base of band z (Table 3-2). -/
def mk8Band (z : Nat) : Nat × Nat × Int :=
  match z with
  | 0 => (3, 3, -4) | 1 => (3, 2, 4) | 2 => (2, 2, -8) | 3 => (2, 1, 12) | 4 => (1, 1, -10) | 5 => (1, 0, 16)
  | _ => (0, 0, -11)

def decMK8 (n : Nat) : FV :=
  let m := n % 128
  let neg := n / 128 % 2 == 1
  if m = 0 then (if neg then .nan false else .fin false 0 0)
  else
    let z := 6 - Nat.log2 m
    let (ne, nf, base) := mk8Band z
    .fin neg (2 ^ nf + m % 2 ^ nf) (base + (m / 2 ^ nf % 2 ^ ne : Nat) - nf)

/-- The band of a binary exponent; the top band continues (R61). -/
def mk8Z (E : Int) : Nat :=
  if E ≤ -11 then 6 else if E ≤ -9 then 4 else if E ≤ -5 then 2 else if E ≤ 3 then 0
  else if E ≤ 11 then 1 else if E ≤ 15 then 3 else 5

def mk8Q (E : Int) : Int := if E < -11 then -11 else E - (mk8Band (mk8Z E)).2.1

/-- The magnitude bits of a representable MK8 value. -/
def encMK8 (m : Nat) (e : Int) : Nat :=
  if m = 0 then 0
  else
    let E : Int := Nat.log2 m + e
    let z := mk8Z E
    let (_, nf, base) := mk8Band z
    2 ^ (6 - z) + (E - base).toNat * 2 ^ nf + scaleNat m (e - E + nf) % 2 ^ nf

/-! ## Rounding -/

/-- |x| = m·2^e in units of 2^q, rounded (R60); the second component says that the result is inexact. `evenUp` is
the choice at a tie when the lower neighbour counts as odd. -/
def roundUnits (rnd : Rnd) (neg : Bool) (m : Nat) (e q : Int) (flip : Bool := false) : Nat × Bool :=
  if q ≤ e then (m * 2 ^ (e - q).toNat, false)
  else
    let d := 2 ^ (q - e).toNat
    let n := m / d
    let r := m % d
    let up := match rnd with
      | .rtz => false
      | .rdn => neg
      | .rup => !neg
      | .rne => if 2 * r = d then (n % 2 == 1) != flip else decide (d < 2 * r)
    if r = 0 then (n, false) else (if up then n + 1 else n, true)

/-- What a rounding delivers: the value, its flags, whether it overflowed (R61). -/
structure Rounded where
  v : FV
  fl : Byte
  ovf : Bool
deriving DecidableEq, Repr, Inhabited

/-- An overflow under IEEE 754-2019. -/
def overflowI (f : IFmt) (rnd : Rnd) (neg : Bool) : FV :=
  let top := FV.fin neg (2 ^ f.p - 1) (f.emax - (f.p - 1 : Int))
  match rnd with
  | .rne => .inf neg
  | .rtz => top
  | .rdn => if neg then .inf neg else top
  | .rup => if neg then top else .inf neg

/-- ±m·2^e into an IEEE format. -/
def roundI (f : IFmt) (rnd : Rnd) (neg : Bool) (m : Nat) (e : Int) : Rounded :=
  if m = 0 then ⟨.fin neg 0 0, 0, false⟩
  else
    let q := fmtQ f (Nat.log2 m + e)
    let (n, inex) := roundUnits rnd neg m e q
    if dyLt (fmtMax f) ⟨n, q⟩ then ⟨overflowI f rnd neg, flOF ||| flNX, true⟩
    else ⟨.fin neg n q, flIf inex flNX ||| flIf (inex && dyLt ⟨n, q⟩ (dyPow f.emin)) flUF, false⟩

/-- A real into an IEEE format; `zn` is the sign of an exact zero. -/
def roundDy (f : IFmt) (rnd : Rnd) (zn : Bool) (d : Dy) : Rounded :=
  roundI f rnd (if d.m = 0 then zn else decide (d.m < 0)) d.m.natAbs d.e

/-- Nearest-even binary32 (R93, R190). -/
def rn32 (zn : Bool) (d : Dy) : Rounded := roundDy fF32 .rne zn d

/-- Truncation of ±m·2^e to `k` significant bits on the grid of a format (R70, R71). -/
def truncSig (f : IFmt) (k : Nat) (m : Nat) (e : Int) : Nat × Int :=
  if m = 0 then (0, 0)
  else
    let E : Int := Nat.log2 m + e
    let q := max (E - (k - 1 : Int)) (fmtQ f f.emin)
    if q ≤ e then (m, e) else (m / 2 ^ (q - e).toNat, q)

/-- Truncation of a significand alone, with no grid. -/
def truncBits (k : Nat) (m : Nat) (e : Int) : Nat × Int :=
  let l := Nat.log2 m
  if l < k then (m, e) else (m / 2 ^ (l + 1 - k), e + (l + 1 - k : Int))

/-! ## Bits of register values -/

def f32Of (w : Word) : FV := decI fF32 w.toNat
def f64Of (w : DWord) : FV := decI fF64 w.toNat
def f32Bits (v : FV) : Word := BitVec.ofNat 32 (encI fF32 v)

/-- An element of `.bf16x2`. -/
def bf16Of (w : Word) (i : Nat) : FV := decI fBF16 (w.toNat / 2 ^ (16 * i) % 65536)

/-- ex() of a value (R69): none is +∞. -/
def exOf (f : IFmt) : FV → Option Int
  | .fin _ m e => some (if m = 0 then f.emin else max f.emin (Nat.log2 m + e))
  | _ => none

end Sys2Proof.Machine
end

