-- ==== Sys2Proof/Machine/Formats.lean ====
section
/-! DEFINITION. Conversions between formats with their flags (R60-R62, Table 3-7), the element formats of the matrix and
quantisation instructions (Table 3-1), block scales (R51) and the format word (R58, R59). -/

namespace Sys2Proof.Machine

/-! ## Formats of CVT -/

/-- The IEEE formats among them. -/
def ffI : FFmt → Option IFmt
  | .bf16 => some fBF16 | .e5m2 => some fE5M2 | .f32 => some fF32 | .f64 => some fF64
  | .e4m3 | .mk8 | .fp4 => none

def decF (f : FFmt) (n : Nat) : FV :=
  match f with
  | .bf16 => decI fBF16 n | .e5m2 => decI fE5M2 n | .f32 => decI fF32 n | .f64 => decI fF64 n
  | .e4m3 => decE4M3 n | .mk8 => decMK8 n | .fp4 => decFP4 n

/-- Width of an element in bits. -/
def ffBits : FFmt → Nat
  | .bf16 => 16 | .e4m3 | .e5m2 | .mk8 => 8 | .fp4 => 4 | .f32 => 32 | .f64 => 64

/-- What a conversion delivers: the code, the value it stands for, its flags. -/
structure Conv where
  code : Nat
  v : FV
  fl : Byte
deriving DecidableEq, Repr, Inhabited

/-- A finite value on a grid without infinities: clamped beyond `top` with OF, NX and SA. -/
def convGrid (enc : Nat → Int → Nat) (sgn : Nat) (top : Dy) (least : Dy) (q : Int → Int) (tieFlip : Int → Bool)
    (rnd : Rnd) (neg : Bool) (m : Nat) (e : Int) : Conv :=
  if m = 0 then ⟨if neg then sgn else 0, .fin (neg && sgn != 0) 0 0, 0⟩
  else
    let E : Int := Nat.log2 m + e
    let (n, inex) := roundUnits rnd neg m e (q E) (tieFlip E)
    if dyLt top ⟨n, q E⟩ then
      ⟨(if neg then 128 else 0) + enc top.m.natAbs top.e, .fin neg top.m.natAbs top.e, flOF ||| flNX ||| flSA⟩
    else
      let v := FV.fin (neg && (n != 0 || sgn != 0)) n (q E)
      ⟨(if n = 0 then (if neg then sgn else 0) else (if neg then 128 else 0) + enc n (q E)), v,
        flIf inex flNX ||| flIf (inex && dyLt ⟨n, q E⟩ least) flUF⟩

/-- Conversion of a value into a format under the vector regime (R60, R61, Table 3-7). -/
def convTo (dst : FFmt) (rnd : Rnd) (sat : Bool) (v : FV) : Conv :=
  let nv := flIf (fvIsSig v) flNV
  match ffI dst with
  | some f =>
    match v with
    | .nan _ => ⟨encI f v, .nan false, nv⟩
    | .inf n =>
      if sat then
        let t := FV.fin n (2 ^ f.p - 1) (f.emax - (f.p - 1 : Int))
        ⟨encI f t, t, flSA⟩
      else ⟨encI f v, v, 0⟩
    | .fin n m e =>
      let r := roundI f rnd n m e
      if sat && fvIsInf r.v then
        let t := FV.fin n (2 ^ f.p - 1) (f.emax - (f.p - 1 : Int))
        ⟨encI f t, t, r.fl ||| flSA⟩
      else ⟨encI f r.v, r.v, r.fl⟩
  | none =>
    match dst, v with
    | .e4m3, .nan _ => ⟨0x7F, .nan false, nv⟩
    | .e4m3, .inf _ => ⟨0x7F, .nan false, flNV⟩
    | .e4m3, .fin n m e =>
      convGrid (encFin fE4M3) 0x80 ⟨448, 0⟩ (dyPow (-6)) (fmtQ fE4M3) (fun _ => false) rnd n m e
    | .mk8, .nan _ => ⟨0x80, .nan false, nv⟩
    | .mk8, .inf _ => ⟨0x80, .nan false, flNV⟩
    | .mk8, .fin n m e =>
      convGrid encMK8 0 ⟨131072, 0⟩ (dyPow (-11)) mk8Q (fun E => E == 16) rnd n m e
    | _, .nan _ => ⟨0, .fin false 0 0, flNV⟩
    | _, .inf n => ⟨(if n then 8 else 0) + 7, .fin n 6 0, flNV ||| flSA⟩
    | _, .fin n m e =>
      let c := convGrid (encFin fFP4) 8 ⟨6, 0⟩ (dyPow 0) (fmtQ fFP4) (fun _ => false) rnd n m e
      ⟨c.code % 128 + (if c.code / 128 = 1 then 8 else 0), c.v, c.fl⟩

/-- CVT (R182): formats equal pass the value, but for a signalling NaN. -/
def cvtElem (src dst : FFmt) (rnd : Rnd) (sat na aa : Bool) (code : Nat) : FV × Conv :=
  let v := fvMod na aa (decF src code)
  (v, convTo dst rnd sat v)

/-! ## Integers -/

/-- The limits of an integer type (R52). -/
def intMin (w : Nat) (signed : Bool) : Int := if signed then -(2 ^ (w - 1) : Int) else 0
def intMax (w : Nat) (signed : Bool) : Int := if signed then 2 ^ (w - 1) - 1 else 2 ^ w - 1

/-- A value into an integer format (Table 3-7). Whether it lies beyond the limits is asked of the rounded value (DESIGN CHOICE,
log 97). -/
def convInt (w : Nat) (signed : Bool) (rnd : Rnd) (v : FV) : Int × Byte :=
  let lim (n : Bool) : Int := if n then intMin w signed else intMax w signed
  match v with
  | .nan _ => (0, flNV)
  | .inf n => (lim n, flNV ||| flSA)
  | .fin n m e =>
    if m = 0 then (0, 0)
    else
      let (k, inex) := roundUnits rnd n m e 0
      let x : Int := if n then -(k : Int) else k
      if x < intMin w signed || intMax w signed < x then (lim n, flNX ||| flSA)
      else (x, flIf inex flNX ||| flIf (inex && k == 0) flUF)

/-! ## Element formats by format-word code (Table 3-1) -/

/-- Width in bits of codes 0-7. -/
def efBits : Nat → Nat
  | 0 => 16 | 4 => 4 | 5 => 4 | 6 => 2 | _ => 8

/-- Two's complement. -/
def sint (w n : Nat) : Int := if n % 2 ^ w < 2 ^ (w - 1) then n % 2 ^ w else (n % 2 ^ w : Int) - 2 ^ w

/-- An element of codes 0-7. -/
def efDec (f n : Nat) : FV :=
  match f with
  | 0 => decI fBF16 n
  | 1 => decE4M3 n
  | 2 => decI fE5M2 n
  | 3 => decMK8 n
  | 4 => decFP4 n
  | _ => let k := sint (efBits f) n; .fin (decide (k < 0)) k.natAbs 0

/-- The CVT format of a float code. -/
def efF : Nat → FFmt
  | 0 => .bf16 | 1 => .e4m3 | 2 => .e5m2 | 3 => .mk8 | _ => .fp4

/-- maxval of a target (R187). -/
def efMax : Nat → Dy
  | 1 => ⟨448, 0⟩ | 2 => ⟨57344, 0⟩ | 4 => ⟨6, 0⟩ | 5 => ⟨7, 0⟩ | 6 => ⟨1, 0⟩ | _ => ⟨127, 0⟩

/-- A value into codes 0-7 (Table 3-7). -/
def efConv (f : Nat) (rnd : Rnd) (v : FV) : Conv :=
  if f ≤ 4 then convTo (efF f) rnd false v
  else
    let (k, fl) := convInt (efBits f) true rnd v
    ⟨(k % 2 ^ efBits f).toNat, .fin (decide (k < 0)) k.natAbs 0, fl⟩

/-- An element under an E8M0 scale (R51): exact; a NaN scale gives NaN. -/
def efScaled (v : FV) (s : Nat) : FV :=
  if s = 255 then .nan false
  else match v with
    | .fin n m e => .fin n m (e + s - 127)
    | x => x

/-! ## The format word (Tables 3-5, 3-6) -/

def fwA (w : Word) : Nat := w.toNat % 16
def fwB (w : Word) : Nat := w.toNat / 2 ^ 4 % 16
def fwAcc (w : Word) : Nat := w.toNat / 2 ^ 8 % 4
def fwScl (w : Word) : Nat := w.toNat / 2 ^ 10 % 4
def fwOslot (w : Word) : Nat := w.toNat / 2 ^ 12 % 16
def fwFb (w : Word) : Bool := w.toNat / 2 ^ 16 % 2 == 1

/-- Who reads a format word. -/
inductive FwReader where
  | mma | mmao | qnt | qntOl | dqnt
deriving DecidableEq, Repr

/-- The bits of the fields that hold reserved values or combinations (R59). -/
def fwBad (r : FwReader) (w : Word) : Word :=
  let noScl (f : Nat) : Bool := f == 0 || f == 3
  let four (f : Nat) : Bool := f == 4 || f == 5
  let useB := r == .mma || r == .mmao
  let fld (b : Bool) (m : Word) : Word := if b then m else 0
  let sclA := (fwScl w == 1 || fwScl w == 2) && noScl (fwA w)
  let sclB := (fwScl w == 1 || fwScl w == 2) && useB && noScl (fwB w)
  let os := decide (1 ≤ fwOslot w ∧ fwOslot w ≤ 8)
  let osA := os && (r == .mmao || r == .qntOl) && !four (fwA w)
  let osB := os && r == .mmao && !four (fwB w)
  fld (w &&& 0xFFFE0000 != 0) 0xFFFE0000
    ||| fld (decide (8 ≤ fwA w) || sclA || osA) 0x0000000F
    ||| fld (decide (8 ≤ fwB w) || sclB || osB) 0x000000F0
    ||| fld (fwAcc w == 3) 0x00000300
    ||| fld (fwScl w == 3 || sclA || sclB) 0x00000C00
    ||| fld (decide (9 ≤ fwOslot w) || osA || osB) 0x0000F000

end Sys2Proof.Machine
end

