-- ==== Sys2Proof/Machine/Flags.lean ====
section
/-! DEFINITION. What the arithmetic units deliver: value, flags and bound. Governed arithmetic with tier selection
(R70-R78, R174), the other floating instructions (R175-R180), the function unit (R178, R79), conversions (R182, R183)
and the integer unit (R163-R165). -/

namespace Sys2Proof.Machine

/-- A unit's result in one lane: bits of the value, flags, BND16 of the bound. -/
structure Deliv where
  bits : DWord
  fl : Byte
  bnd : BitVec 16
deriving DecidableEq, Repr, Inhabited

/-! ## Budget state (Table 4-3) -/

def budB (w : Word) : BitVec 16 := (w >>> 16).setWidth 16
def budMode (w : Word) : Nat := w.toNat % 4
def budHr (w : Word) : Nat := w.toNat / 2 ^ 8 % 8

/-- breach() but for its flag and trap (R77). -/
def breaches (bud : Word) (b : BitVec 16) : Bool :=
  budMode bud != 0 && !(bdLe (bdOf b) (bdOf (budB bud)))

/-! ## Tiers -/

inductive FKind where
  | add | mul | fma
deriving DecidableEq, Repr

/-- eps[t] (Table 4-2). -/
def epsOf (ty : Ty) (t : Nat) (rnd : Rnd) : Dy :=
  let full (p : Int) : Dy := dyPow (if rnd == .rne then -p else 1 - p)
  match ty with
  | .bf16x2 => full 8
  | .f64 => if t = 0 then dyPow (-9) else if t = 1 then dyPow (-15) else full 53
  | _ => if t = 0 then dyPow (-9) else if t = 1 then dyPow (-15) else full 24

/-- The subnormal floor of a type (Table 4-2). -/
def floorOf : Ty → Dy
  | .f64 => dyPow (-134)
  | .bf16x2 => dyPow (-133)
  | _ => dyPow (-149)

/-- floor_s(z) (R69). -/
def floorS (ty : Ty) (z : FV) (exactZero : Bool) : Dy :=
  match z with
  | .fin _ m e => if !exactZero && dyLt ⟨m, e⟩ (dyPow (tyFmt ty).emin) then floorOf ty else dyZero
  | _ => dyZero

/-- beta_in (Table 4-5). -/
def betaIn (k : FKind) (a b : FV) (ba bb bc : Bd) : Bd :=
  match k with
  | .add => bdAdd ba bb
  | .mul => bdSum [bdMul (fvMag a) bb, bdMul (fvMag b) ba, bdMul ba bb]
  | .fma => bdSum [bdMul (fvMag a) bb, bdMul (fvMag b) ba, bdMul ba bb, bc]

/-- The magnitude estimate (R75). -/
def magEst (ty : Ty) (k : FKind) (a b c : FV) : Bd :=
  let f := tyFmt ty
  (exOf f a).bind fun x => (exOf f b).bind fun y =>
    match k with
    | .add => some (dyPow (max x y + 1))
    | .mul => some (dyPow (x + y + 2))
    | .fma => (exOf f c).map fun z => dyPow (max (x + y + 2) (z + 1) + 1)

/-- tier_select (R76) over an ascending list of allowed tiers. -/
def tierFrom (lim : Bd) (eps : Nat → Dy) (beta m : Bd) : List Nat → Nat
  | [] => 2
  | t :: r =>
    let ok := match beta, m with
      | some b, some x => bdLe (some (dyAdd b (dyMul (eps t) x))) lim
      | _, _ => false
    if ok then t else tierFrom lim eps beta m r

/-- The tier of a governed instruction. `allowed` is (0,1,2) or (1,2), not empty. -/
def tierSelect (forced : Option Nat) (bud : Word) (allowed : List Nat) (eps : Nat → Dy) (beta m : Bd) : Nat :=
  match forced with
  | some t => t
  | none =>
    if budMode bud = 0 then 2
    else match bdOf (budB bud) with
      | none => allowed.headD 2
      | some b => tierFrom (some (dyScale b (-(budHr bud : Int)))) eps beta m allowed

/-! ## Exact results -/

/-- An exact result: a special value with NV or not, or a real with the sign of an exact zero. -/
inductive Exact where
  | sp (v : FV) (nv : Bool)
  | num (zn : Bool) (d : Dy)
deriving Repr

/-- x + y; an exact zero sum of unlike operands is negative under rounding down only. -/
def exactAdd (rnd : Rnd) (x y : FV) : Exact :=
  match x, y with
  | .nan s, .nan t => .sp (.nan false) (s || t)
  | .nan s, _ => .sp (.nan false) s
  | _, .nan t => .sp (.nan false) t
  | .inf m, .inf n => if m = n then .sp (.inf m) false else .sp (.nan false) true
  | .inf m, _ => .sp (.inf m) false
  | _, .inf n => .sp (.inf n) false
  | .fin m _ _, .fin n _ _ =>
    let zn := if fvIsZero x && fvIsZero y && m == n then m else rnd == .rdn
    .num zn (dyAdd (fvDy x) (fvDy y))

def exactMul (x y : FV) : Exact :=
  match x, y with
  | .nan s, .nan t => .sp (.nan false) (s || t)
  | .nan s, _ => .sp (.nan false) s
  | _, .nan t => .sp (.nan false) t
  | .fin m _ _, .fin n _ _ => .num (m != n) (dyMul (fvDy x) (fvDy y))
  | _, _ => if fvIsZero x || fvIsZero y then .sp (.nan false) true else .sp (.inf (fvSign x != fvSign y)) false

/-- x·y + c. A quiet NaN c beside an invalid product sets no flag (R48). -/
def exactFma (rnd : Rnd) (x y c : FV) : Exact :=
  match c with
  | .nan s => .sp (.nan false) (s || fvIsSig x || fvIsSig y)
  | _ =>
    match exactMul x y with
    | .sp v nv => if fvIsInf v then exactAdd rnd v c else .sp v nv
    | .num zn d => exactAdd rnd (fvOfDy zn d) c

/-- A truncated result (R70, R71): 16-bit significand, the grid of the type, largest magnitude on overflow. -/
def truncTo (f : IFmt) (zn : Bool) (d exact : Dy) : Rounded :=
  let neg := if d.m = 0 then zn else decide (d.m < 0)
  let (m, e) := truncSig f 16 d.m.natAbs d.e
  if dyLt (fmtMax f) ⟨m, e⟩ then ⟨.fin neg (2 ^ f.p - 1) (f.emax - (f.p - 1 : Int)), flOF ||| flNX, true⟩
  else
    let v := FV.fin neg m e
    let inex := !dyEq (fvDy v) exact
    ⟨v, flIf inex flNX ||| flIf (inex && !dyIsZero exact && dyLt ⟨m, e⟩ (dyPow f.emin)) flUF, false⟩

/-- The 12-bit multiplicand of tier 0. -/
def trunc12 (v : FV) : FV :=
  match v with
  | .fin n m e => let (m', e') := truncBits 12 m e; .fin n m' e'
  | x => x

/-- A truncated product of tier-0 FFMA: 16-bit significand. -/
def truncProd (a b : FV) : FV :=
  let d := dyMul (fvDy (trunc12 a)) (fvDy (trunc12 b))
  let (m, e) := truncBits 16 d.m.natAbs d.e
  .fin (fvSign a != fvSign b) m e

/-- One element of FADD, FMUL or FFMA on tier t with the bound of R78 and R80. A tier-0 product follows the steps of R70 where its
result is subnormal or zero, too (DEDUCED, log 108). -/
def arithElem (k : FKind) (ty : Ty) (t : Nat) (rnd : Rnd) (sat : Bool) (a b c : FV) (ba bb bc : Bd) : FV × Byte × Bd :=
  let f := tyFmt ty
  let r' : Rnd := if t = 2 then rnd else .rtz
  let ex := match k with
    | .add => exactAdd r' a b
    | .mul => exactMul a b
    | .fma => exactFma r' a b c
  match ex with
  | .sp v nv => (v, flIf nv flNV, none)
  | .num zn d =>
    let p := truncProd a b
    let r :=
      if t = 2 then roundDy f rnd zn d
      else if t = 0 && k == .mul then truncTo f zn (dyMul (fvDy (trunc12 a)) (fvDy (trunc12 b))) d
      else if t = 0 && k == .fma then
        match exactAdd .rtz p c with
        | .num zn' d' => truncTo f zn' d' d
        | .sp _ _ => truncTo f zn d d
      else truncTo f zn d d
    let beta := betaIn k a b ba bb bc
    if sat && fvIsInf r.v then
      let z := FV.fin (fvSign r.v) (2 ^ f.p - 1) (f.emax - (f.p - 1 : Int))
      (z, r.fl ||| flSA, bdAdd beta (some (dyAbs (dySub (fvDy z) d))))
    else if r.ovf || !fvIsFin r.v then (r.v, r.fl, none)
    else
      let z := dyAbs (fvDy r.v)
      let e :=
        if t = 0 && k == .fma then dyAdd (dyMul (epsOf ty 0 rnd) (dyAbs (fvDy p))) (dyMul (epsOf ty 1 rnd) z)
        else dyMul (epsOf ty t rnd) z
      (r.v, r.fl, bdSum [beta, some e, some (floorS ty r.v (dyIsZero d))])

/-- A forced tier of the TIER field; FADD and FSUB run `.t0` on tier 1 (R72). -/
def forcedTier (k : FKind) : TierF → Option Nat
  | .gov => none
  | .t0 => some (if k == .add then 1 else 0)
  | .t1 => some 1
  | .t2 => some 2

/-- An element's value from a register value of a type. -/
def elemOf (ty : Ty) (x : DWord) (i : Nat) : FV :=
  match ty with
  | .f64 => f64Of x
  | .bf16x2 => bf16Of (loWord x) i
  | _ => f32Of (loWord x)

/-- Elements per value. -/
def elemCount (ty : Ty) : Nat := if ty == .bf16x2 then 2 else 1

/-- Bits of one element of a type in its place. -/
def elemBits (ty : Ty) (i : Nat) (v : FV) : DWord :=
  BitVec.ofNat 64 (encI (tyFmt ty) v * 2 ^ (16 * i))

/-- Merge elements: bits and flags or, the larger bound (R68). -/
def mergeElems (l : List (DWord × Byte × BitVec 16)) : Deliv :=
  l.foldl (fun d x => ⟨d.bits ||| x.1, d.fl ||| x.2.1, bndMax d.bnd x.2.2⟩) ⟨0, 0, 0⟩

/-- A governed instruction on register values (R174), before the breach check. -/
def governed (k : FKind) (ty : Ty) (tier : TierF) (rnd : Rnd) (sat : Bool) (bud : Word) (m : Mods) (negB : Bool)
    (a b c : DWord) (ba bb bc : BitVec 16) : Deliv :=
  let ba := bdOf ba
  let bb := bdOf bb
  let bc := bdOf bc
  mergeElems ((List.range (elemCount ty)).map fun i =>
    let x := fvMod m.na m.aa (elemOf ty a i)
    let y := fvMod (m.nb != negB) m.ab (elemOf ty b i)
    let z := elemOf ty c i
    let t :=
      if ty == .bf16x2 then 2
      else tierSelect (forcedTier k tier) bud (if k == .add then [1, 2] else [0, 1, 2]) (fun t => epsOf ty t rnd)
        (bdOf (upBd (betaIn k x y ba bb bc))) (magEst ty k x y z)
    let r := arithElem k ty t rnd sat x y z ba bb bc
    (elemBits ty i r.1, r.2.1, upBd r.2.2))

/-! ## Comparisons, FMIN, FMAX, FSET -/

/-- Order of two values that are not NaNs; −0 below +0 when `zs`. -/
def fvCmp (zs : Bool) (x y : FV) : Ordering :=
  match x, y with
  | .inf m, .inf n => if m = n then .eq else if m then .lt else .gt
  | .inf m, _ => if m then .lt else .gt
  | _, .inf n => if n then .gt else .lt
  | _, _ =>
    if dyLt (fvDy x) (fvDy y) then .lt else if dyLt (fvDy y) (fvDy x) then .gt
    else if zs && fvIsZero x && fvSign x != fvSign y then (if fvSign x then .lt else .gt) else .eq

/-- |x − y|: none when infinite. Two infinities of one sign have no difference under R81; they are taken to be 0 apart, so that
they straddle whatever the bounds (DESIGN CHOICE, log 86). -/
def fvGap (x y : FV) : Bd :=
  match x, y with
  | .inf m, .inf n => if m = n then bdZero else none
  | .fin _ _ _, .fin _ _ _ => some (dyAbs (dySub (fvDy x) (fvDy y)))
  | _, _ => none

/-- Whether x and y lie within their bounds of one another (R81); unbounded bounds always do. -/
def straddles (x y : FV) (bx by_ : Bd) : Bool := bdLe (fvGap x y) (bdAdd bx by_)

/-- One element of FMIN (`lo`) or FMAX (R175). -/
def minMaxElem (lo : Bool) (x y : FV) (bx by_ : BitVec 16) : FV × Byte × BitVec 16 :=
  let nv := flIf (fvIsSig x || fvIsSig y) flNV
  let fix (v : FV) (b : BitVec 16) : BitVec 16 := if fvIsFin v then b else bndInf
  if fvIsNan x && fvIsNan y then (.nan false, nv, bndInf)
  else if fvIsNan x then (y, nv, fix y by_)
  else if fvIsNan y then (x, nv, fix x bx)
  else
    let pickX := if lo then fvCmp true x y != .gt else fvCmp true x y != .lt
    let v := if pickX then x else y
    let b := if straddles x y (bdOf bx) (bdOf by_) then bndMax bx by_ else if pickX then bx else by_
    (v, nv, fix v b)

def minMax (lo : Bool) (ty : Ty) (m : Mods) (a b : DWord) (ba bb : BitVec 16) : Deliv :=
  mergeElems ((List.range (elemCount ty)).map fun i =>
    let r := minMaxElem lo (fvMod m.na m.aa (elemOf ty a i)) (fvMod m.nb m.ab (elemOf ty b i)) ba bb
    (elemBits ty i r.1, r.2.1, r.2.2))

/-- The condition of FSET (R177). -/
def fsetHolds (c : FCond) (x y : FV) : Bool :=
  let nan := fvIsNan x || fvIsNan y
  match c with
  | .num => !nan
  | .nan => nan
  | .ne => nan || fvCmp false x y != .eq
  | .eq => !nan && fvCmp false x y == .eq
  | .lt => !nan && fvCmp false x y == .lt
  | .le => !nan && fvCmp false x y != .gt
  | .gt => !nan && fvCmp false x y == .gt
  | .ge => !nan && fvCmp false x y != .lt

/-- The straddle report (R177). -/
def fsetReport (c : FCond) (x y : FV) (bx by_ : Bd) : Bool :=
  match c with
  | .num | .nan => false
  | _ => fvIsNan x || fvIsNan y || bx.isNone || by_.isNone || straddles x y bx by_

/-! ## FRND, FSCL, FCLS -/

/-- Whether a rounding boundary lies in [lo, hi] (Table 4-5). -/
def hasBoundary (rnd : Rnd) (lo hi : Dy) : Bool :=
  let half : Dy := ⟨1, -1⟩
  match rnd with
  | .rne => decide (dyCeil (dySub lo half) ≤ dyFloor (dySub hi half))
  | .rdn | .rup => decide (dyCeil lo ≤ dyFloor hi)
  | .rtz => decide (dyCeil lo ≤ dyFloor hi) && !(dyCeil lo == 0 && dyFloor hi == 0)

def frndRes (ty : Ty) (rnd : Rnd) (na aa : Bool) (a : DWord) (ba : BitVec 16) : Deliv :=
  let x := fvMod na aa (elemOf ty a 0)
  match x with
  | .nan s => ⟨elemBits ty 0 x, flIf s flNV, bndInf⟩
  | .inf _ => ⟨elemBits ty 0 x, 0, bndInf⟩
  | .fin n m e =>
    let z := FV.fin n (roundUnits rnd n m e 0).1 0
    let bd : Bd := match bdOf ba with
      | none => none
      | some b =>
        if b.m = 0 then bdZero
        else if hasBoundary rnd (dySub (fvDy x) b) (dyAdd (fvDy x) b) then some (dyAdd b (dyInt 1)) else bdZero
    ⟨elemBits ty 0 z, 0, upBd bd⟩

/-- a·2^n (R179); exponents past ±8192 behave as ±8192. -/
def fsclRes (ty : Ty) (rnd : Rnd) (sat na aa : Bool) (a : DWord) (ba : BitVec 16) (n : Int) : Deliv :=
  let f := tyFmt ty
  let n := max (-8192) (min 8192 n)
  let x := fvMod na aa (elemOf ty a 0)
  match x with
  | .nan s => ⟨elemBits ty 0 x, flIf s flNV, bndInf⟩
  | .inf _ => ⟨elemBits ty 0 x, 0, bndInf⟩
  | .fin s m e =>
    let r := roundI f rnd s m (e + n)
    let beta := bdScale (bdOf ba) n
    if sat && fvIsInf r.v then
      let z := FV.fin s (2 ^ f.p - 1) (f.emax - (f.p - 1 : Int))
      ⟨elemBits ty 0 z, r.fl ||| flSA, upBd (bdAdd beta (some (dyAbs (dySub (fvDy z) (dyScale (fvDy x) n)))))⟩
    else if r.ovf then ⟨elemBits ty 0 r.v, r.fl, bndInf⟩
    else ⟨elemBits ty 0 r.v, r.fl, upBd (bdAdd beta (some (floorS ty r.v (m == 0))))⟩

/-- The class mask (R180). -/
def fclsRes (ty : Ty) (a : DWord) : Word :=
  let f := tyFmt ty
  match elemOf ty a 0 with
  | .nan true => 1
  | .nan false => 2
  | .inf n => if n then 4 else 0x200
  | .fin n m e =>
    if m = 0 then (if n then 0x20 else 0x40)
    else if dyLt ⟨m, e⟩ (dyPow f.emin) then (if n then 0x10 else 0x80)
    else (if n then 8 else 0x100)

/-! ## The function unit (R178, R79) -/

inductive FUnit where
  | rcp | rsq | sqrt | exp2 | log2
deriving DecidableEq, Repr

def FUnit.code : FUnit → Nat
  | .rcp => 0 | .rsq => 1 | .sqrt => 2 | .exp2 => 3 | .log2 => 4

/-- A value known to lie at n units of 2^q or strictly between n and n + 1 (`inex`): the unit delivers one of the two
neighbours. The result that leaves the range is an infinity with OF (Table 8-6). -/
def faithful (f : IFmt) (up : Bool) (neg : Bool) (n : Nat) (q : Int) (inex : Bool) : Rounded :=
  let k := if inex && up then n + 1 else n
  if dyLt (fmtMax f) ⟨k, q⟩ then ⟨.inf neg, flOF ||| flNX, true⟩
  else ⟨.fin neg k q, flIf inex flNX ||| flIf (inex && dyLt ⟨k, q⟩ (dyPow f.emin)) flUF, false⟩

/-- 1/(m·2^e), m > 0. -/
def rcpUnits (f : IFmt) (m : Nat) (e : Int) : Nat × Int × Bool :=
  let L := Nat.log2 m
  if m = 2 ^ L then
    let q := fmtQ f (-(L : Int) - e)
    if q ≤ -(L : Int) - e then (1, -(L : Int) - e, false) else (0, q, true)
  else
    let q := fmtQ f (-(L + 1 : Int) - e)
    let k := -e - q
    if k < 0 then (0, q, true) else (2 ^ k.toNat / m, q, decide (2 ^ k.toNat % m ≠ 0))

/-- 1/√(m·2^e), m > 0: never out of range. -/
def rsqUnits (f : IFmt) (m : Nat) (e : Int) : Nat × Int × Bool :=
  let T : Int := Nat.log2 m + e
  let E := if m = 2 ^ Nat.log2 m && T % 2 == 0 then -(T / 2) else if T % 2 = 0 then -(T / 2) - 1 else -((T + 1) / 2)
  let q := fmtQ f E
  let N := scaleNat 1 (-2 * q - e)
  let n := isqrt (N / m)
  (n, q, decide (n * n * m ≠ N))

/-- √(m·2^e), m > 0: the unit count, the quantum, whether inexact, and the count rounded to nearest. -/
def sqrtUnits (f : IFmt) (m : Nat) (e : Int) : Nat × Int × Bool × Nat :=
  let T : Int := Nat.log2 m + e
  let q := fmtQ f (T / 2)
  let X := scaleNat m (e - 2 * q)
  let n := isqrt X
  (n, q, decide (n * n ≠ X), if (2 * n + 1) * (2 * n + 1) < 4 * X then n + 1 else n)

/-- Fraction bits of the enclosures of FEXP2 and FLOG2. -/
def fuBits : Nat := 192

/-- 2^(x/2^fuBits) for 0 ≤ x < 2^fuBits in units of 2^-fuBits, from bit i down; `s` is 2^(2^-(fuBits-i)). -/
def exp2Frac : Nat → Nat → Nat → Nat → Nat
  | 0, _, _, r => r
  | i + 1, x, s, r =>
    let s' := isqrt (s * 2 ^ fuBits)
    exp2Frac i x s' (if x / 2 ^ i % 2 = 1 then r * s' / 2 ^ fuBits else r)

/-- Bits of log2 of y in [1, 2), y in units of 2^-fuBits, by repeated squaring. -/
def log2Frac : Nat → Nat → Nat → Nat
  | 0, _, acc => acc
  | i + 1, y, acc =>
    let y2 := y * y / 2 ^ fuBits
    if 2 * 2 ^ fuBits ≤ y2 then log2Frac i (y2 / 2) (2 * acc + 1) else log2Frac i y2 (2 * acc)

/-- The grid neighbours of a value enclosed in [lo, hi]·2^e: the floor and whether inexact; where a grid point lies
inside the enclosure, that point. -/
def gridIn (f : IFmt) (lo hi : Nat) (e : Int) : Nat × Int × Bool × Bool :=
  let q := fmtQ f (Nat.log2 hi + e)
  let a := scaleNat lo (e - q)
  let b := scaleNat hi (e - q)
  if a = b then (a, q, true, false) else (b, q, true, true)

/-- Result of the function unit, from the modified operand. `up` is the unit's choice of neighbour. -/
def fuValue (u : FUnit) (ty : Ty) (rnd : Rnd) (up : Bool) (x : FV) : Rounded :=
  let f := tyFmt ty
  match u, x with
  | _, .nan s => ⟨.nan false, flIf s flNV, false⟩
  | .rcp, .inf n => ⟨.fin n 0 0, 0, false⟩
  | .rcp, .fin n m e =>
    if m = 0 then ⟨.inf n, flDZ, false⟩
    else let (k, q, i) := rcpUnits f m e; faithful f up n k q i
  | .rsq, .inf n => if n then ⟨.nan false, flNV, false⟩ else ⟨.fin false 0 0, 0, false⟩
  | .rsq, .fin n m e =>
    if m = 0 then ⟨.inf n, flDZ, false⟩
    else if n then ⟨.nan false, flNV, false⟩
    else let (k, q, i) := rsqUnits f m e; faithful f up false k q i
  | .sqrt, .inf n => if n then ⟨.nan false, flNV, false⟩ else ⟨.inf false, 0, false⟩
  | .sqrt, .fin n m e =>
    if m = 0 then ⟨.fin n 0 0, 0, false⟩
    else if n then ⟨.nan false, flNV, false⟩
    else
      let (k, q, i, near) := sqrtUnits f m e
      let r := match rnd with
        | .rne => near
        | .rup => if i then k + 1 else k
        | _ => k
      ⟨.fin false r q, flIf i flNX, false⟩
  | .exp2, .inf n => if n then ⟨.fin false 0 0, 0, false⟩ else ⟨.inf false, 0, false⟩
  | .exp2, .fin n m e =>
    if m = 0 then ⟨.fin false 1 0, 0, false⟩
    else if !n && dyLe (dyInt (f.emax + 1)) ⟨m, e⟩ then ⟨.inf false, flOF ||| flNX, true⟩
    else
      let least := fmtQ f f.emin
      if n && dyLe (dyInt (1 - least)) ⟨m, e⟩ then faithful f up false 0 least true
      else
        let fl := dyFloor (fvDy x)
        let fr := dySub (fvDy x) (dyInt fl)
        if fr.m = 0 then faithful f up false 1 fl false
        else
          let lo := exp2Frac fuBits (scaleNat fr.m.natAbs (fr.e + fuBits)) (2 * 2 ^ fuBits) (2 ^ fuBits)
          let (k, q, _, hit) := gridIn f lo (lo + 4096) (fl - fuBits)
          if hit then ⟨.fin false k q, flNX ||| flIf (dyLt ⟨k, q⟩ (dyPow f.emin)) flUF, false⟩
          else faithful f up false k q true
  | .log2, .inf n => if n then ⟨.nan false, flNV, false⟩ else ⟨.inf false, 0, false⟩
  | .log2, .fin n m e =>
    if m = 0 then ⟨.inf true, flDZ, false⟩
    else if n then ⟨.nan false, flNV, false⟩
    else
      let L := Nat.log2 m
      let T : Int := L + e
      if m = 2 ^ L then
        let r := roundI f .rne (decide (T < 0)) T.natAbs 0
        ⟨r.v, r.fl, false⟩
      else
        let y := scaleNat m (fuBits - L : Int)
        let w := log2Frac fuBits y 0
        let lo : Int := T * 2 ^ fuBits + w
        let hi : Int := lo + 8
        let (k, q, _, hit) :=
          if lo < 0 then gridIn f (-hi).toNat (-lo).toNat (-(fuBits : Int)) else gridIn f lo.toNat hi.toNat (-(fuBits : Int))
        if hit then ⟨.fin (decide (lo < 0)) k q, flNX, false⟩
        else faithful f up (decide (lo < 0)) k q true

/-- The exponent of the largest power of two not above a positive real. -/
def pow2Below (d : Dy) : Int := dyLog d

/-- The largest even exponent not above. -/
def evenBelow (k : Int) : Int := 2 * (k / 2)

/-- The least even exponent s with 2^(2s) ≥ b, b > 0. -/
def sqrtRoof (b : Dy) : Int :=
  let L := dyLog b
  let c := if dyEq b (dyPow L) then L else L + 1
  2 * ((c + 3) / 4)

/-- ulp_err (Table 4-7). -/
def ulpErr (u : FUnit) (ty : Ty) (rnd : Rnd) (z : Dy) : Dy :=
  let d := ty == .f64
  match u with
  | .sqrt => dyMul (dyPow (if rnd == .rne then (if d then -53 else -24) else (if d then -52 else -23))) z
  | .log2 => dyAdd (dyMul (dyPow (if d then -52 else -23)) z) (dyPow (if d then -106 else -48))
  | _ => dyMul (dyPow (if d then -52 else -23)) z

/-- D·β(x), or what replaces it (Table 4-6); none is unbounded. -/
def fuSlope (u : FUnit) (ty : Ty) (x : FV) (b : Bd) : Bd :=
  match b with
  | none => none
  | some bx =>
    match u, x with
    | _, .nan _ => none
    | .exp2, .inf n => if n then bdZero else none
    | _, .inf n => if n && u != .rcp then none else bdZero
    | .rcp, .fin _ m e =>
      let r := dySub ⟨m, e⟩ bx
      if r.m ≤ 0 then none else some (dyScale bx (-2 * pow2Below r))
    | .rsq, .fin _ _ _ =>
      let r := dySub (fvDy x) bx
      if r.m ≤ 0 then none else some (dyScale bx (-1 - 3 * (evenBelow (pow2Below r) / 2)))
    | .sqrt, .fin n m _ =>
      let r := dySub (fvDy x) bx
      if 0 < r.m then some (dyScale bx (-1 - evenBelow (pow2Below r) / 2))
      else if n && m != 0 then none
      else if bx.m = 0 then bdZero
      else some (dyPow (sqrtRoof bx))
    | .exp2, .fin _ _ _ =>
      let h := dyAdd (fvDy x) bx
      if dyLt h (dyInt ((tyFmt ty).emax + 1)) then some (dyScale bx (max (-4096) (dyCeil h))) else none
    | .log2, .fin _ _ _ =>
      let r := dySub (fvDy x) bx
      if r.m ≤ 0 then none else some (dyScale bx (1 - pow2Below r))

/-- An instruction of the function unit on a register value. Zero is exact from an infinity, as a root and as log2 1. -/
def fuRes (u : FUnit) (ty : Ty) (rnd : Rnd) (na aa : Bool) (a : DWord) (ba : BitVec 16) : Deliv :=
  let x := fvMod na aa (elemOf ty a 0)
  let r := fuValue u ty rnd (Config.roundsUp u.code (ty == .f64) (elemBits ty 0 x)) x
  let bd : Bd :=
    if r.ovf || !fvIsFin r.v then none
    else bdSum [fuSlope u ty x (bdOf ba), some (ulpErr u ty rnd (dyAbs (fvDy r.v))),
      some (floorS ty r.v (fvIsInf x || (fvIsZero r.v && (u == .sqrt || u == .log2))))]
  ⟨elemBits ty 0 r.v, r.fl, upBd bd⟩

/-! ## Conversions -/

/-- |z − x|: none when either is not finite. -/
def fvErr (z x : FV) : Bd :=
  match z, x with
  | .fin _ _ _, .fin _ _ _ => some (dyAbs (dySub (fvDy z) (fvDy x)))
  | _, _ => none

/-- CVT (R182): the code of the element, flags and bound. -/
def cvtRes (src dst : FFmt) (elem : Nat) (rnd : Rnd) (sat na aa : Bool) (a : DWord) (ba : BitVec 16) : Deliv :=
  let code := a.toNat / 2 ^ (ffBits src * elem) % 2 ^ ffBits src
  let r := cvtElem src dst rnd sat na aa code
  ⟨BitVec.ofNat 64 r.2.code, r.2.fl, upBd (bdAdd (bdOf ba) (fvErr r.2.v r.1))⟩

def tyBits (ty : Ty) : Nat := if ty.wide then 64 else 32
def tySigned (ty : Ty) : Bool := ty == .s32 || ty == .s64

/-- A value of an integer type (R163: `.b32` and `.b64` are unsigned). -/
def intOf (ty : Ty) (x : DWord) : Int :=
  if tySigned ty then sint (tyBits ty) x.toNat else (x.toNat % 2 ^ tyBits ty : Nat)

/-- The bits of an integer, wrapped to the type's width. -/
def intBits (ty : Ty) (k : Int) : DWord := BitVec.ofNat 64 (k % 2 ^ tyBits ty).toNat

/-- CVTI float to integer (R183). -/
def f2iRes (ity : Ty) (fmt : FFmt) (rnd : Rnd) (na aa : Bool) (a : DWord) (ba : BitVec 16) : Deliv :=
  let x := fvMod na aa (decF fmt (a.toNat % 2 ^ ffBits fmt))
  let (k, fl) := convInt (tyBits ity) (tySigned ity) rnd x
  let bd := (bdAdd (bdOf ba) (fvErr (.fin (decide (k < 0)) k.natAbs 0) x)).map (fun d => dyInt (dyCeil d))
  ⟨intBits ity k, fl, upBd bd⟩

/-- CVTI integer to float (R183). -/
def i2fRes (ity : Ty) (fmt : FFmt) (rnd : Rnd) (a : DWord) (ba : BitVec 16) : Deliv :=
  let k := intOf ity a
  let x := FV.fin (decide (k < 0)) k.natAbs 0
  let c := convTo fmt rnd false x
  ⟨BitVec.ofNat 64 c.code, c.fl, upBd (bdAdd (bdOf ba) (fvErr c.v x))⟩

/-! ## The integer unit (R163-R165) -/

/-- wrap(), or the clamp of SAT with its flag. -/
def intRes (ty : Ty) (sat : Bool) (k : Int) : DWord × Byte :=
  if sat then
    let lo := intMin (tyBits ty) (tySigned ty)
    let hi := intMax (tyBits ty) (tySigned ty)
    let c := max lo (min hi k)
    (intBits ty c, flIf (c != k) flSA)
  else (intBits ty k, 0)

/-- The low w bits of a value. -/
def lowBits (ty : Ty) (x : DWord) : Nat := x.toNat % 2 ^ tyBits ty

/-- Shift count: bits [31:0] of b (R163). -/
def shCount (b : DWord) : Nat := b.toNat % 2 ^ 32

def shlRes (ty : Ty) (a : DWord) (n : Nat) : DWord :=
  if tyBits ty ≤ n then 0 else BitVec.ofNat 64 (lowBits ty a * 2 ^ n % 2 ^ tyBits ty)

def shrRes (ty : Ty) (a : DWord) (n : Nat) : DWord :=
  if tyBits ty ≤ n then 0 else BitVec.ofNat 64 (lowBits ty a / 2 ^ n)

def sarRes (ty : Ty) (a : DWord) (n : Nat) : DWord :=
  let w := tyBits ty
  BitVec.ofNat 64 ((sint w a.toNat / 2 ^ (min n w)) % 2 ^ w).toNat

/-- Bits [w−1:0] of a mask of `len` ones at `pos`. -/
def fieldMask (w pos len : Nat) : Nat := (2 ^ len - 1) * 2 ^ pos % 2 ^ w

def bfxRes (ty : Ty) (a k : DWord) : DWord :=
  let w := tyBits ty
  let pos := k.toNat % 256
  let L := min (k.toNat / 256 % 256) w
  let v := lowBits ty a / 2 ^ pos % 2 ^ L
  if tySigned ty && L != 0 then BitVec.ofNat 64 (sint L v % 2 ^ w).toNat else BitVec.ofNat 64 v

def bfiRes (ty : Ty) (a b k : DWord) : DWord :=
  let w := tyBits ty
  let pos := k.toNat % 256
  let L := min (k.toNat / 256 % 256) w
  let m := BitVec.ofNat 64 (fieldMask w pos L)
  (BitVec.ofNat 64 (lowBits ty a) &&& ~~~m) ||| (BitVec.ofNat 64 (lowBits ty b * 2 ^ pos % 2 ^ w) &&& m)

/-- Bits of a number from bit k - 1 down: how many are set. -/
def popFrom : Nat → Nat → Nat
  | 0, _ => 0
  | k + 1, n => n / 2 ^ k % 2 + popFrom k n

/-- Leading zeros of a w-bit number. -/
def clzOf (w n : Nat) : Nat := if n = 0 then w else w - 1 - Nat.log2 n

/-- Bit i placed at w − 1 − i. -/
def brevFrom (w : Nat) : Nat → Nat → Nat
  | 0, _ => 0
  | k + 1, n => n / 2 ^ k % 2 * 2 ^ (w - 1 - k) + brevFrom w k n

def isetHolds (c : ICond) (a b : Int) : Bool :=
  match c with
  | .eq => a == b | .ne => a != b | .lt => decide (a < b) | .le => decide (a ≤ b)
  | .gt => decide (b < a) | .ge => decide (b ≤ a)

/-! ## Atomic steps (Tables 9-4, 9-5, R212, R223) -/

/-- A value of an atomic's type as a register value. -/
def asDeliv (ty : Ty) (r : FV × Byte × BitVec 16) : Deliv := ⟨elemBits ty 0 r.1, r.2.1, r.2.2⟩

/-- One operation of Table 9-5 on an old value and an operand with their bounds. -/
def atomRes (op : AOp) (ty : Ty) (old : DWord) (bo : BitVec 16) (b : DWord) (bb : BitVec 16) : Deliv :=
  match op with
  | .exch => ⟨BitVec.ofNat 64 (lowBits ty b), 0, bb⟩
  | .and => ⟨BitVec.ofNat 64 (lowBits ty (old &&& b)), 0, 0⟩
  | .or => ⟨BitVec.ofNat 64 (lowBits ty (old ||| b)), 0, 0⟩
  | .xor => ⟨BitVec.ofNat 64 (lowBits ty (old ^^^ b)), 0, 0⟩
  | .add =>
    if ty.isFlt then
      let r := arithElem .add ty 2 .rne false (elemOf ty old 0) (elemOf ty b 0) (.fin false 0 0) (bdOf bo) (bdOf bb) bdZero
      asDeliv ty (r.1, r.2.1, upBd r.2.2)
    else ⟨intBits ty (intOf ty old + intOf ty b), 0, 0⟩
  | .min =>
    if ty.isFlt then asDeliv ty (minMaxElem true (elemOf ty old 0) (elemOf ty b 0) bo bb)
    else ⟨intBits ty (min (intOf ty old) (intOf ty b)), 0, 0⟩
  | .max =>
    if ty.isFlt then asDeliv ty (minMaxElem false (elemOf ty old 0) (elemOf ty b 0) bo bb)
    else ⟨intBits ty (max (intOf ty old) (intOf ty b)), 0, 0⟩

/-- The identity of an operation (R212). -/
def atomIdentity (op : AOp) (ty : Ty) : DWord :=
  match op with
  | .and => BitVec.ofNat 64 (2 ^ tyBits ty - 1)
  | .min => if ty.isFlt then elemBits ty 0 (.inf false) else intBits ty (intMax (tyBits ty) (tySigned ty))
  | .max => if ty.isFlt then elemBits ty 0 (.inf true) else intBits ty (intMin (tyBits ty) (tySigned ty))
  | _ => 0

end Sys2Proof.Machine
end

