-- ==== Sys2Proof/Machine/Map.lean ====
section
/-! DEFINITION. Finite maps as lists of (key, value) pairs in one canonical form: keys strictly rising. Memory,
register files and every table of the state are such maps. A map that has a default value lists no entry equal
to it, so that equal maps are equal lists. -/

namespace Sys2Proof.Machine

/-- A finite map from natural numbers. -/
abbrev Map (α : Type) := List (Nat × α)

namespace Map

variable {α : Type}

/-- The entry of a key. -/
def get? : Map α → Nat → Option α
  | [], _ => none
  | (k, v) :: r, a => if k = a then some v else get? r a

/-- The entry of a key, or the default. -/
def get (d : α) (m : Map α) (a : Nat) : α := (get? m a).getD d

/-- The map without a key. -/
def erase (m : Map α) (a : Nat) : Map α := m.filter (fun e => e.1 != a)

/-- Insert before the first larger key. -/
def ins : Map α → Nat → α → Map α
  | [], a, v => [(a, v)]
  | (k, w) :: r, a, v => if a < k then (a, v) :: (k, w) :: r else (k, w) :: ins r a v

/-- The map with a key set. -/
def put (m : Map α) (a : Nat) (v : α) : Map α := ins (erase m a) a v

/-- The map with a key set, an entry equal to the default being removed. -/
def putD [DecidableEq α] (d : α) (m : Map α) (a : Nat) (v : α) : Map α :=
  if v = d then erase m a else put m a v

/-- The map with one entry changed, if it is there. -/
def adjust (m : Map α) (a : Nat) (f : α → α) : Map α :=
  match get? m a with
  | some v => put m a (f v)
  | none => m

/-- The keys, rising in the canonical form. -/
def keys (m : Map α) : List Nat := m.map (·.1)

/-- The values, by rising key. -/
def vals (m : Map α) : List α := m.map (·.2)

/-- Keys strictly rising. -/
def sorted : Map α → Bool
  | [] => true
  | [_] => true
  | (a, _) :: (b, w) :: r => decide (a < b) && sorted ((b, w) :: r)

/-- The canonical form of a map with a default: keys strictly rising, no entry equal to the default. -/
def wf [DecidableEq α] (d : α) (m : Map α) : Bool :=
  sorted m && m.all (fun e => decide (e.2 ≠ d))

end Map

end Sys2Proof.Machine
end

