-- ==== Sys2Proof/Machine/State.lean ====
section
/-! DEFINITION. The state of the device as plain data: everything the manual gives it. Each field's comment names
its width, the rule of the manual that names it, and its reset value. -/

namespace Sys2Proof.Machine

/-! ## Registers and bounds -/

/-- A v register: 32-bit value and 16-bit shadow (R56, R66). -/
structure Reg where
  val : Word
  shadow : BitVec 16
deriving DecidableEq, Repr, Inhabited

/-- A register that reads zero with bound zero, as every register does at creation (R25). -/
def Reg.zero : Reg := ⟨0, 0⟩

/-- The bound record of a 128-byte line (Table 4-8): shared exponent and 32 codes of 3 bits. -/
structure BRec where
  e : Byte
  codes : BitVec 96
deriving DecidableEq, Repr, Inhabited

def BRec.zero : BRec := ⟨0, 0⟩

/-! ## Threads, groups and warps -/

/-- A clause pass in progress: the words read at clause entry (R133, R140) and the slot it stands at. -/
structure Pass where
  hdr : DWord
  cls : BitVec 3
  words : List DWord
  slot : Nat
deriving DecidableEq, Repr, Inhabited

/-- Where a thread stands. A thread that has exited is in no table. -/
inductive TStat where
  /-- at a clause entry: its pc is a header address (R26) -/
  | entry
  /-- in issue group `g`, in the middle of a clause pass -/
  | grouped (g : Nat)
  /-- parked in a fragment (R34) -/
  | parked
  /-- has executed RTE and waits for the other members (R308) -/
  | rteWait
  /-- arrived at an MWAIT on mask `m`; its pass stands at the MWAIT's slot (R30) -/
  | mwait (m : Nat)
  /-- held beside threads of its group that wait at an MWAIT on `m`, its own guard being false (R28) -/
  | mheld (m : Nat)
  /-- waits as in TAKE: a finished producer, or a lane outside or done with a pass (R40, R42) -/
  | genWait
  /-- a double fault of a handler without an entry left it stopped (R312) -/
  | stopped
  /-- discarded while a lock holds a write of it: it exits once that has landed (R122, R134, R332) -/
  | leaving
deriving DecidableEq, Repr, Inhabited

/-- Handler state (R305, R310, R312). -/
inductive Handler where
  | none
  | user
  | system
  /-- entered under R312, with no fragment entry -/
  | noEntry
deriving DecidableEq, Repr, Inhabited

/-- How a thread was stopped for a save (R317). -/
inductive Stop where
  | running
  | whole
  | byRecord (rofs : Word)
deriving DecidableEq, Repr, Inhabited

/-- A thread (R20-R25). -/
structure Thread where
  /-- its cluster group's number in the model -/
  cgu : Nat
  /-- launch serial, 48 bits (R23) -/
  serial : Nat
  /-- %cg, 32 bits (Table 2-2) -/
  cg : Nat
  /-- %tid (R22) -/
  tid : Nat
  /-- core group, quad group and warp within it, and lane: tid = (k·Q + j)·T + t (R22) -/
  k : Nat
  j : Nat
  w : Nat
  lane : Nat
  /-- `.regs` value N (R17) -/
  n : Nat
  /-- v registers of frame P; reset at creation 0 with shadow 0 (R25) -/
  regs : Map Reg
  /-- v registers of frame C, by slot (R39); 0 with shadow 0 (R25) -/
  cregs : Map Reg
  /-- split and base while frame C is mapped (R39); none at creation -/
  frame : Option (Nat × Nat)
  /-- p0-p6; 0 at creation (R25); p7 reads 1 -/
  preds : BitVec 7
  /-- link register; 0 at creation (R25) -/
  lk : DWord
  /-- numeric flags (Table 3-10); 0 at creation (R64) -/
  flags : Byte
  /-- budget state in the %bud layout (Table 4-3); the launch's at creation (R73) -/
  bud : Word
  /-- slot, or header at a clause entry (R138) -/
  pc : DWord
  /-- privileged mode (R272) -/
  priv : Bool
  st : TStat
  /-- the clause pass it stands in while it is not in a group (MWAIT, a stop for a save) -/
  pass : Option Pass
  /-- the pass of its fragment's recorded slot (R34); no words: the clause is entered afresh -/
  rpass : Option Pass
  /-- a producer's stopping point while its lane serves a consumer pass (R42): status, pc and pass -/
  prod : Option (TStat × DWord × Option Pass)
  /-- %frag (Table 2-3), 0 outside a fragment -/
  frag : Word
  hand : Handler
  stop : Stop
  /-- core groups of its cluster group whose leaving of the peer window it is ordered after, by bit (R122, R264) -/
  away : Byte
  /-- MODEL'S OWN: the issue group it stood in when it stopped in the middle of a pass, which it rejoins (R28) -/
  team : Nat
  /-- v registers whose storage has an uncorrectable error (R321): frame P's by number, frame C's slot i as 256 + i -/
  bad : List Nat
  /-- the mask at whose MWAIT it was parked, which it has then arrived at (R31); none otherwise -/
  mw : Option Nat
deriving DecidableEq, Repr, Inhabited

/-- Where an access lands: physical memory under a key, bound-tracked or not, or a core group's scratchpad. -/
inductive Loc where
  | phys (pa key : Nat) (bt : Bool)
  | scr (cg ofs : Nat)
deriving DecidableEq, Repr, Inhabited

/-- A fault of one lane or agent: cause class, REASON, ARG0, ARG1 (Table 18-1). -/
structure FInfo where
  cause : Nat
  reason : Nat
  arg0 : DWord
  arg1 : DWord
deriving DecidableEq, Repr, Inhabited

/-- What a lane of a blocked group waits for (R28, R46). -/
inductive Wait where
  /-- barrier `b` of cluster group `cgu` reaching a phase (R36, R218) -/
  | bar (cgu b phase : Nat)
  /-- the count object at an address reaching a target with PEND 0 (R216) -/
  | cobj (sp : Space) (va target : DWord)
  /-- EVQ_TAIL of a partition differing from a value, then written to register d (R336) -/
  | halt (part : Nat) (old : Word) (d : VReg)
  /-- the save of a warp, then the outcome written to register d (R333) -/
  | save (warp : Nat) (d : VReg)
  /-- a write held by a migration lock (R134) -/
  | locked
deriving DecidableEq, Repr, Inhabited

/-- A job card (Table 10-8). -/
structure Card where
  devc : Nat
  inc : Bool
  cnt : Bool
  scope : Nat
  kind : Nat
  src : DWord
  dst : DWord
  cobj : DWord
  rows : Nat
  len : Nat
  sstr : Int
  dstr : Int
  val : Word
  rwop : Nat
  bval : BitVec 16
deriving DecidableEq, Repr, Inhabited

/-- Why a group stands at its slot without being waited on lane by lane. -/
inductive Hold where
  | none
  /-- the clause's queue-wait mask; the threads are runnable (R141) -/
  | clauseWait (mask : Byte)
  /-- a queue wait of QPOP, QPEEK, QDROP, MMA or MMAO (R252, R241) -/
  | queue
  /-- YLD at a full buffer (R40) -/
  | yld
  /-- JOB with the footprint scheduler full; runnable, its card read at issue (R116, R259) -/
  | jobFull (card : Card)
  /-- SLEEP, until a clock value; runnable (R236) -/
  | sleep (until_ : DWord)
  /-- MOVC of SHADOW_REQ while BUSY: the threads whose writes are still to be made; runnable (R327) -/
  | shadow (ks : List Nat)
  /-- a GROW whose GCUR writes wait on a fault or a migration lock: the threads whose steps are still to be made; runnable (R283,
  R134) -/
  | gcur (ks : List Nat)
  /-- an LNCH whose slot is under a migration lock: the record as read; runnable (R134, R262) -/
  | lnch (data : List Byte)
deriving DecidableEq, Repr, Inhabited

/-- An issue group (R26-R28): members by ascending lane. -/
structure Group where
  core : Nat
  quad : Nat
  members : List Nat
  pass : Pass
  waits : List (Nat × Wait)
  hold : Hold
deriving DecidableEq, Repr, Inhabited

/-- A tile row: 32 binary32 elements and the row bound (R237); zero at warp creation. -/
structure TRow where
  el : List Word
  beta : BitVec 16
deriving DecidableEq, Repr, Inhabited

def TRow.zero : TRow := ⟨List.replicate 32 0, 0⟩

/-- A side-buffer record (Table 18-2): PC, word at 0x08, ARG0, ARG1. -/
structure SideRec where
  pc : DWord
  w1 : DWord
  arg0 : DWord
  arg1 : DWord
deriving DecidableEq, Repr, Inhabited

def SideRec.zero : SideRec := ⟨0, 0, 0, 0⟩

/-- An entry of the compaction buffer (R40, R226). -/
structure GEntry where
  lane : Nat
  two : Bool
  v1 : Reg
  v2 : Reg
deriving DecidableEq, Repr, Inhabited

/-- A consumer pass (R42): its lanes in rank order, and which have taken and finished. -/
structure GPass where
  lanes : List Nat
  took : Word
  fin : Word
deriving DecidableEq, Repr, Inhabited

/-- A generator region of a warp (R39). -/
structure Region where
  split : Nat
  base : Nat
  thr : Nat
  prod : DWord
  cons : DWord
  next : DWord
  buf : List GEntry
  /-- lanes whose producer has finished -/
  fin : Word
  /-- lanes that the GEN's guard kept out of the region -/
  out : Word
  pass : Option GPass
deriving DecidableEq, Repr, Inhabited

/-- A warp (R24): slot, masks m0-m11 (32 bits, 0 at creation, R29), tiles w0-w7 (R237), side buffer (R306). -/
structure Warp where
  cgu : Nat
  k : Nat
  j : Nat
  w : Nat
  slot : Nat
  masks : Map Word
  tiles : Map TRow
  gen : Option Region
  side : Map SideRec
  /-- a pre-emption request is pending (R317); `true` once its window has ended -/
  preq : Option Bool
  /-- the clock at that request, from which PREEMPT_WIN counts (R317) -/
  preqAt : DWord
  saved : Bool
  /-- scratch ranges that the records of its last save named; none: it was saved whole (R319) -/
  ranges : Option (List (Nat × Nat))
  /-- the clock when it last became resident (R286) -/
  since : DWord
  /-- tile rows whose storage has an uncorrectable error (R321), by 32·tile + lane -/
  badRows : List Nat
deriving DecidableEq, Repr, Inhabited

/-! ## Queues, slices, core groups and cluster groups -/

/-- An entry of an operand queue: a marker with its tag, or data with its side record (Table 10-1). -/
structure QEntry where
  marker : Option Word
  rows : Nat
  bytes : Nat
  words : List Word
  recs : List BRec
  popped : Nat
  ready : Bool
  scb : Nat
  scales : List Byte
  ol : Bool
  oreg : List (Byte × BitVec 16)
  drop : Bool
  /-- its storage has an uncorrectable error (R321) -/
  bad : Bool
deriving DecidableEq, Repr, Inhabited

/-- A declared queue (R111): entry size in bytes, depth, entries oldest first. -/
structure Queue where
  size : Nat
  depth : Nat
  entries : List QEntry
deriving DecidableEq, Repr, Inhabited

/-- Where an access-slice instance stands (R113). -/
inductive SliceSt where
  | run
  /-- an SFETCH or SMARK found no free entry -/
  | full
  /-- SWAITC on a count object -/
  | cobj (va target : DWord)
  /-- a translation fault being resolved; `true` when its SFETCH entry is already allocated -/
  | fault (allocated : Bool)
  /-- SDONE -/
  | done
  /-- stopped by a fault -/
  | stopped
deriving DecidableEq, Repr, Inhabited

/-- An access-slice instance (R113): a0-a31 (32 bits, 0 at start), pc, loop stack of four (R254). -/
structure Slice where
  a : Map Word
  pc : DWord
  pass : Option Pass
  loops : List (Nat × DWord)
  st : SliceSt
deriving DecidableEq, Repr, Inhabited

/-- A quad group (R20): its hardware quad, queues and instance. -/
structure QuadGroup where
  cgu : Nat
  k : Nat
  j : Nat
  quad : Nat
  queues : Map Queue
  slice : Option Slice
deriving DecidableEq, Repr, Inhabited

/-- A stash-map entry (R103). -/
structure SMapE where
  vbase : Nat
  len : Nat
  soff : Nat
deriving DecidableEq, Repr, Inhabited

/-- A stash line that is not invalid (R105); its data is the coherent value of its physical line. -/
structure SLine where
  dirty : Bool
  line : Nat
  /-- its storage has an uncorrectable error (R321) -/
  bad : Bool
deriving DecidableEq, Repr, Inhabited

/-- A core group (R20, R100-R105): its core, scratch bytes and records (0 at start, R102), stash. -/
structure CoreGroup where
  cgu : Nat
  k : Nat
  core : Nat
  scratch : Map Byte
  srec : Map BRec
  smap : Map SMapE
  slines : Map SLine
  saved : Bool
  /-- its last thread has exited: it has left the peer window (R264); what its scratch held is kept for a peer access that
  is not ordered after that (R266, log 7) -/
  gone : Bool
  /-- scratch words whose storage has an uncorrectable error (R321), by offset ÷ 4 -/
  badWords : List Nat
deriving DecidableEq, Repr, Inhabited

/-- How a thread arrives at a barrier (R36, R218). -/
inductive Arr where
  | garr | gdrop | gbar
deriving DecidableEq, Repr, Inhabited

/-- A group barrier (R36): expected and arrival counts, phase, who has arrived, pending adjustments, and the
arrivals that wait for the flip (R218). -/
structure Bar where
  expected : Nat
  arrived : Nat
  phase : Nat
  who : List Nat
  drop : Nat
  join : Nat
  later : List (Nat × Arr)
  /-- core groups that have left the peer window so far, and those that had at the last flip (R37, R264) -/
  going : Byte
  away : Byte
deriving DecidableEq, Repr, Inhabited

/-- Progress of a cluster group (R106, R281). -/
inductive CgSt where
  /-- its input tiles are being filled -/
  | filling
  | running
  /-- write-backs done; the COMPL update is next -/
  | compl
  /-- the CBMP bit is next -/
  | cbmp
deriving DecidableEq, Repr, Inhabited

/-- A cluster group in the device (R20, R21, R99): where it is placed and its barriers. -/
structure ClusterGroup where
  part : Nat
  serial : Nat
  idx : Nat
  cluster : Nat
  /-- first core it occupies within the cluster -/
  base : Nat
  bars : Map Bar
  /-- OR of the flags of its exited threads (R65, R281) -/
  flags : Byte
  st : CgSt
  /-- core groups whose leaving of the peer window some thread of it has been ordered after (R122, R264) -/
  away : Byte
  /-- instructions of MEM clauses (true) and of ALU and MAT clauses issued in the last 4,096 clocks, with their clocks,
  newest first (R341) -/
  issued : List (DWord × Bool)
deriving DecidableEq, Repr, Inhabited

/-! ## Launches -/

/-- A dependence entry (Table 16-4, R280). -/
structure Dep where
  kind : Nat
  pcbmp : Nat
  dsh : Nat
  mul : Nat
  wm1 : Nat
  ofs : Int
deriving DecidableEq, Repr, Inhabited

/-- An input tile (Table 16-4, R106). -/
structure Tile where
  vbase : Nat
  len : Nat
  mask : Nat
  soff : Nat
deriving DecidableEq, Repr, Inhabited

/-- A launch record's fields (Table 16-4). -/
structure LRec where
  priv : Bool
  l : Nat
  c : Nat
  q : Nat
  t : Nat
  g : Nat
  gceil : Nat
  reclen : Nat
  kcode : DWord
  acode : DWord
  parm : DWord
  place : DWord
  ubase : DWord
  compl : DWord
  cbmp : DWord
  alloc : Nat
  n : Nat
  stash : Nat
  scratch : Nat
  queues : Map (Nat × Nat)
  bud : Word
  recbase : DWord
  deps : List Dep
  tiles : List Tile
deriving DecidableEq, Repr, Inhabited

/-- State of a cluster-group index (R280-R284). -/
inductive IdxSt where
  | pending
  | ready
  /-- ready, and has waited AGING without room (R284) -/
  | aged
  /-- a dependence read was abandoned at this fault: it waits until the mapping changes (R283) -/
  | stalled (f : FInfo)
  | placed
  | done
deriving DecidableEq, Repr, Inhabited

/-- An accepted launch (R277): its record, group count G, placement table and indices. -/
structure Launch where
  part : Nat
  serial : Nat
  cls : Nat
  priv : Bool
  r : LRec
  g : Nat
  place : List Nat
  idx : Map IdxSt
  /-- ready indices that were found without room, and the clock then (R284) -/
  waits : Map DWord
  /-- growth is closed (R282) -/
  closed : Bool
  /-- DONE has been written, or its write abandoned -/
  published : Bool
deriving DecidableEq, Repr, Inhabited

/-- A launch queue (Tables 16-1 to 16-3). -/
structure LQueue where
  base : DWord
  cfg : Word
  head : Word
  tail : Word
  /-- slots whose record a user-mode group enqueued by LNCH (R262) -/
  userSlots : List Nat
deriving DecidableEq, Repr, Inhabited

def LQueue.reset : LQueue := ⟨0, 0, 0, 0, []⟩

/-! ## Faults, fragments, events -/

/-- STATE of a fragment-table entry (Table 18-3). -/
inductive FSt where
  | free | handler | parked
deriving DecidableEq, Repr, Inhabited

/-- A recorded operation on a saved entry (R313). -/
inductive FOp where
  | none | fres | fdisc
deriving DecidableEq, Repr, Inhabited

/-- A fragment-table entry (R307, R308): the fields of Table 18-3 but RPC and SLK, which live in the image. -/
structure FEntry where
  gen : BitVec 16
  st : FSt
  mark : Bool
  saved : Bool
  cause : Nat
  id : Word
  lanes : Word
  pmode : Word
  fpc : DWord
  warp : Nat
  quad : Nat
  slot : Nat
  part : Nat
  op : FOp
deriving DecidableEq, Repr, Inhabited

/-- An entry never allocated: generation 0 (R33). -/
def FEntry.zero : FEntry := ⟨0, .free, false, false, 0, 0, 0, 0, 0, 0, 0, 0, 0, .none⟩

/-- An event record (Table 18-6) waiting for the ring; `quiet` for the KIND 12 of an EVQ_COBJ update (R365). -/
structure EvRec where
  w0 : DWord
  arg0 : DWord
  arg1 : DWord
  arg2 : DWord
  quiet : Bool
deriving DecidableEq, Repr, Inhabited

/-! ## Jobs and agents -/

/-- Progress of a job (R116, R260). -/
inductive JobSt where
  | waiting
  | running
  /-- stands in a translation fault (R316) -/
  | fault
  /-- every byte has landed, or it has stopped: completed for R116, its count-object step to come -/
  | landed
deriving DecidableEq, Repr, Inhabited

/-- An accepted job: footprints as physical lines (none: a line did not translate, R115), edges, words landed. -/
structure Job where
  card : Card
  priv : Bool
  reads : Option (List Nat)
  writes : Option (List Nat)
  edges : List Nat
  st : JobSt
  landed : Nat
  bd : Bool
deriving DecidableEq, Repr, Inhabited

/-- An agent without a thread that waits on a fault (R316). -/
inductive Agent where
  | slice (qg : Nat)
  | job (id : Nat)
  /-- the start logic of a core group's core, filling its input tiles (R106), by the core group's key -/
  | fill (ck : Nat)
  | compl (cg : Nat)
  | cbmp (cg : Nat)
  | gcur (serial : Nat) (gid : Nat)
  | done (serial : Nat)
  | dep (serial idx : Nat)
  /-- the distributor's header write at acceptance (R279) -/
  | header (serial : Nat)
  /-- the distributor's SERIAL and STATUS write of queue n (R277) -/
  | take (n : Nat)
  /-- the event poster: a record, then EVQ_COBJ (R314) -/
  | record
  | evCobj
  /-- a remote copy's STATUS, then its LCOBJ, by ring slot (R360) -/
  | copy (slot : Nat)
  | copyCobj (slot : Nat)
  /-- an inbound copy's words, then its RCOBJ, by number (R360) -/
  | land (n : Nat)
  | landCobj (n : Nat)
  /-- a posted write of the host, its access to the HDM window, its record-port command (R135, R354, R356) -/
  | posted
  | hdm
  | recPort
  /-- a group's JOB or LNCH that a lock holds whole (R134) -/
  | group (gid : Nat)
deriving DecidableEq, Repr, Inhabited

/-- What an access needs (Table 17-4); the codes of ARG1. -/
inductive AKind where
  | read | write | atomic | fetch
deriving DecidableEq, Repr, Inhabited

def AKind.code : AKind → Nat
  | .read => 1 | .write => 2 | .atomic => 3 | .fetch => 4

def AKind.writes : AKind → Bool
  | .write | .atomic => true
  | _ => false

/-- Who translates: partition, core (none for the Dome die's agents) and mode. -/
structure Who where
  part : Nat
  core : Option Nat
  priv : Bool
deriving DecidableEq, Repr, Inhabited

def Who.home (w : Who) : Nat := w.core.getD (520 + w.part)
def Who.die (w : Who) : Nat := match w.core with
  | some c => c / 64
  | none => 8

/-- Through which mapping a held write came: who translated, the virtual address, the access kind (R297). -/
structure Via where
  who : Who
  va : DWord
  kind : AKind
deriving DecidableEq, Repr, Inhabited

/-- A write that a migration lock holds at the home (R134): what is applied at the switch. -/
inductive WOp where
  /-- bytes, the bound of each 32-bit word they meet, in rising order from the first byte's word, and the flags that the
  storing lane sets with them (R65, R248) -/
  | store (data : List Byte) (bnds : List (BitVec 16)) (narrow : Bool) (fl : Byte)
  | atom (op : AOp) (ty : Ty) (b : DWord) (bb : BitVec 16) (dest : Option VReg) (ord : Ord)
  | acas (ty : Ty) (b c : DWord) (cb : BitVec 16) (dest : VReg) (ord : Ord)
  | csig (v : DWord) (fl : Bool)
  | cpend (v : Nat) (sub : Bool)
  /-- an agent's update of a count object (R365) -/
  | cobj (count : Nat) (pend : Int) (flags : Byte)
  /-- a byte's OR: a completion bit, or DONE (R281, R282) -/
  | orByte (b : Byte)
  /-- a job's rewrite of one word's bound (R259) -/
  | rebound (op : Nat) (b : BitVec 16)
  /-- the host's replacement of a record (R356) -/
  | record (r : BRec)
  /-- the continuing agent's own step (GROW, R279) -/
  | own
deriving DecidableEq, Repr, Inhabited

/-- What a held write does at its turn. -/
inductive Due where
  /-- it lands -/
  | land
  /-- it translates anew: its mapping has been dropped, and a lock held the page-table entry whose AC or DT the new translation
  must set (R293, R297) -/
  | anew
  /-- its access ends in a fault, which could not be taken yet (R134, R307, R311) -/
  | late (f : FInfo)
deriving DecidableEq, Repr, Inhabited

/-- A held write: the thread that waits in it (0: none), where it lands, the mapping it came by, what it does, the agent that
goes on when it has landed, and what becomes of it at its turn. -/
structure Held where
  thread : Nat
  loc : Loc
  via : Option Via
  op : WOp
  next : Option (Nat × Agent)
  due : Due
deriving DecidableEq, Repr, Inhabited

/-- A saved image (R319): the slots it occupies and the warp it holds. -/
structure Image where
  first : Nat
  count : Nat
  warp : Nat
deriving DecidableEq, Repr, Inhabited

/-! ## Partitions -/

/-- State of a migration (Table 17-5). `landing` is the model's own, within one act: the locks have ended and the held writes
take effect in their order of arrival, so that a write that comes meanwhile lines up behind them (R299). -/
inductive MigSt where
  | idle | copying | ready | done | error | landing
deriving DecidableEq, Repr, Inhabited

/-- A partition: the control registers of Tables 16-1, 17-1 and 18-5 and what it owns (R274). -/
structure Part where
  clumask : BitVec 128
  regulator : BitVec 2
  trapbase : DWord
  fragtab : DWord
  lqSel : Word
  lqs : Map LQueue
  /-- for each class the queue served last, for the round-robin of R277 -/
  lqLast : Map Nat
  serialNext : Nat
  preemptWin : Word
  aging : Word
  classhold : Word
  ptRoot : DWord
  migSrc : DWord
  migDst : DWord
  migSize : BitVec 3
  migSt : MigSt
  migErr : BitVec 4
  /-- source, destination and size of the running migration, as GO took them (R298) -/
  runSrc : DWord
  runDst : DWord
  runSize : BitVec 3
  held : List Held
  shadowReq : DWord
  shadowBusy : Bool
  shadowRes : BitVec 4
  evqBase : DWord
  evqCfg : Word
  evqTail : Word
  evqHead : Word
  evqCobj : DWord
  saveBase : DWord
  saveSlots : Word
  events : List EvRec
  jobs : Map Job
  nextJob : Nat
  agents : List (Agent × FInfo)
  images : List Image
deriving DecidableEq, Repr, Inhabited

/-- Reset values of Tables 16-1, 17-1 and 18-5; no cluster before the management controller gives it some. -/
def Part.reset : Part where
  clumask := 0
  regulator := 0
  trapbase := 0
  fragtab := 0
  lqSel := 0
  lqs := []
  lqLast := []
  serialNext := 0
  preemptWin := 20000
  aging := 200
  classhold := 1000
  ptRoot := 0
  migSrc := 0
  migDst := 0
  migSize := 0
  migSt := .idle
  migErr := 0
  runSrc := 0
  runDst := 0
  runSize := 0
  held := []
  shadowReq := 0
  shadowBusy := false
  shadowRes := 0
  evqBase := 0
  evqCfg := 0
  evqTail := 0
  evqHead := 0
  evqCobj := 0
  saveBase := 0
  saveSlots := 0
  events := []
  jobs := []
  nextJob := 0
  agents := []
  images := []

/-! ## Memory -/

/-- Physical memory: byte cells by rising address, none equal to what an unlisted address reads as. -/
abbrev Memory := List Host.Cell

/-- A cached translation (R295): whose cache, the leaf's page base and size, the entry, and DT known set. -/
structure TlbE where
  home : Nat
  part : Nat
  base : Nat
  size : Nat
  pte : DWord
  pteAddr : Nat
  dt : Bool
deriving DecidableEq, Repr, Inhabited

/-- A cached table entry of a die (R295): which part of the virtual space it covers, and the entry. -/
structure TabE where
  die : Nat
  part : Nat
  addr : Nat
  base : Nat
  size : Nat
  pte : DWord
deriving DecidableEq, Repr, Inhabited

/-- How a walk of an act has failed (R295): the act, the die and partition of the walk, the range that the entry at which it failed
maps, and the fault. -/
structure WalkE where
  act : Nat
  die : Nat
  part : Nat
  base : Nat
  size : Nat
  kind : AKind
  priv : Bool
  fault : FInfo
deriving DecidableEq, Repr, Inhabited

/-- A partial of an update-only line in a core's L1 (R128, R212). -/
structure Partial where
  core : Nat
  pa : Nat
  key : Nat
  bt : Bool
  op : AOp
  ty : Ty
  val : DWord
  bnd : BitVec 16
deriving DecidableEq, Repr, Inhabited

/-- State of a line in a core's L1 (R345). -/
inductive LSt where
  | shared | excl | dirty
deriving DecidableEq, Repr, Inhabited

/-- A cached line (R107): its eviction class, when it was last used, its state. -/
structure CLine where
  cls : Nat
  use : Nat
  st : LSt
deriving DecidableEq, Repr, Inhabited

/-- A key slot (R302): loaded, and the partition it is assigned to. -/
structure KeySlot where
  loaded : Bool
  owner : Option Nat
deriving DecidableEq, Repr, Inhabited

def KeySlot.empty : KeySlot := ⟨false, none⟩

/-- An attached pool window (R357): the last sixteenth of it is shadow space (R300). -/
structure Window where
  base : Nat
  size : Nat
  shared : Bool
deriving DecidableEq, Repr, Inhabited

/-- A window opened for inbound remote copies (R360). -/
structure InWindow where
  base : Nat
  size : Nat
  key : Nat
  /-- the device it was opened for -/
  src : BitVec 19
deriving DecidableEq, Repr, Inhabited

/-- A clause as an instruction cache or a clause buffer holds it (R1, R133): by whom, core c being holder c and the quads following
them; where its header and words were read, and what was read; whether its header has LOOP (R142). -/
structure Code where
  holder : Nat
  locs : List Loc
  words : List DWord
  loop : Bool
deriving DecidableEq, Repr, Inhabited

/-- A word of memory as it stood before the first store to it in an epoch of code (R133), and how many bytes have been stored to it
in that epoch. -/
structure Ver where
  epoch : Nat
  word : DWord
  stored : Nat
deriving DecidableEq, Repr, Inhabited

/-- The memory system. -/
structure MemSys where
  /-- bytes by physical address (R294); unlisted bytes read 0 (DESIGN CHOICE, log 4) -/
  bytes : Memory
  /-- bound records by line number (R82); 0 at attach (R301) -/
  recs : Map BRec
  /-- 2 MiB frames with a shadow chunk, and the partition that attached it (R300, R301); none -/
  chunks : Map Nat
  /-- key each line was last reached under (R303); none before the first access -/
  keyOf : Map Nat
  /-- 16-byte blocks that memory holds as another key wrote them: that key (`nameOf`) and what it wrote (R303); none -/
  cipher : Map (Nat × BitVec 128)
  /-- the same for bound records, by line -/
  recCipher : Map (Nat × BRec)
  /-- lines with a copy dirtier than their backing memory (R105, R107, R209) -/
  dirty : Map Unit
  /-- update-only partials (R128, R212) -/
  partials : List Partial
  /-- withdrawn pages' frames, as base and size (R322) -/
  withdrawn : List (Nat × Nat)
  /-- fenced stack ports, whose lines are withdrawn (Table 18-8, R340) -/
  portsOut : List Nat
  /-- the 2,048 key slots (R302) -/
  keys : Map KeySlot
  /-- MODEL'S OWN: which of the keys it has held a slot holds, by number: its own number at first (R302, R303) -/
  keyNames : Map Nat
  windows : Map Window
  inWindows : Map InWindow
  /-- cached translations, newest first: core c is home c, die d is 512 + d, the Dome die's agents
  of partition p are 520 + p (R295) -/
  tlb : List TlbE
  tabs : List TabE
  /-- MODEL'S OWN: failing walks of the running act, which its accesses to the same page share (R295) -/
  walks : List WalkE
  /-- clauses in the cores' instruction caches and the quads' clause buffers, newest first (R1, R133, R142); none at reset -/
  code : List Code
  /-- MODEL'S OWN: the epoch of code, which an ICINV followed by its release ends for its lines (R133) -/
  epoch : Nat
  /-- MODEL'S OWN: by line, the epoch that the last such sequence over it began; 0 where there was none -/
  settled : Map Nat
  /-- MODEL'S OWN: words that stores have changed since the sequence over their lines, by physical address ÷ 8, as they stood in
  each epoch, the oldest first (R133) -/
  before : Map (List Ver)
  /-- MODEL'S OWN: by thread, the physical ranges of its ICINVs that no release of it has followed yet (R133) -/
  inval : Map (List (Nat × Nat))
  /-- lines of the cores' L1s, by core·2^45 + line, and of the central cache, by line (R107); none at reset -/
  l1 : Map CLine
  l2 : Map CLine
  /-- MODEL'S OWN: uses of the caches so far, for least recently used -/
  uses : Nat
deriving DecidableEq, Repr, Inhabited

def MemSys.reset : MemSys where
  bytes := []
  recs := []
  chunks := []
  keyOf := []
  cipher := []
  recCipher := []
  dirty := []
  partials := []
  withdrawn := []
  portsOut := []
  keys := []
  keyNames := []
  windows := []
  inWindows := []
  tlb := []
  tabs := []
  walks := []
  code := []
  epoch := 0
  settled := []
  before := []
  inval := []
  l1 := []
  l2 := []
  uses := 0

/-! ## The package -/

/-- A Spire die's status (Table 21-7, R344); `asleep` is the link's sleep. -/
structure Die where
  fenced : Bool
  waking : Bool
  slow : Bool
  asleep : Bool
  lwake : BitVec 24
deriving DecidableEq, Repr, Inhabited

def Die.reset : Die := ⟨false, false, false, false, 0⟩

/-- A cluster's island (R346-R349, Table 21-7). -/
structure Island where
  /-- requested point; 5 -/
  req : BitVec 3
  /-- current point; 5 -/
  cur : BitVec 3
  /-- running ramp: its end point and whether it goes up -/
  ramp : Option (BitVec 3 × Bool)
  pend : Option (BitVec 3)
  /-- the cluster's voltage in mV; 0 while it belongs to no partition and is unpowered (R347) -/
  volt : Nat
  canofs : Nat
  cancnt : BitVec 12
  /-- fenced (Table 18-8) -/
  fenced : Bool
  /-- partition whose threads last ran on it (R351) -/
  last : Option Nat
  /-- supply current that the slope controller holds, in tenths of a mA, and the partition that the filler of a running decline
  is charged to; none while no filler runs (R350, R351) -/
  level : Nat
  decline : Option Nat
deriving DecidableEq, Repr, Inhabited

def Island.reset : Island := ⟨5, 5, none, none, 0, 0, 0, false, none, 0, none⟩

/-- A sector's local crossbar (R341): CUR, and whether throttling holds. -/
structure Sector where
  cur : BitVec 8
  throttled : Bool
deriving DecidableEq, Repr, Inhabited

def Sector.reset : Sector := ⟨0, false⟩

/-- A combining entry of a slice (R342): line and key, the clusters whose reads have joined, the clock at which it opened,
and whether it still takes reads. -/
structure Comb where
  slice : Nat
  line : Nat
  key : Nat
  joined : List Nat
  since : DWord
  open_ : Bool
deriving DecidableEq, Repr, Inhabited

/-- The package block (Table 21-7). -/
structure Package where
  sectors : Map Sector
  congCfg : Word
  dies : Map Die
  combCnt : DWord
  combs : List Comb
  crossCnt : DWord
  islands : Map Island
  energy : Map DWord
  filler : Map DWord
  slope : Word
deriving DecidableEq, Repr, Inhabited

def Package.reset : Package where
  sectors := []
  congCfg := 0x002080C0
  dies := []
  combCnt := 0
  combs := []
  crossCnt := 0
  islands := []
  energy := []
  filler := []
  slope := 200

/-! ## Host, links and start-up -/

/-- A posted write of the host that waits for an earlier one (R135): address and bytes. -/
structure Posted where
  addr : DWord
  data : List Byte
deriving DecidableEq, Repr, Inhabited

/-- A snoop from the host or from a pool that waits for a die's answer (R344, R354, R358): whose it is, its line, whether it
invalidates, and what the other owner writes after it. -/
structure HeldSnoop where
  pool : Bool
  line : Nat
  inval : Bool
  data : Option (List Byte)
deriving DecidableEq, Repr, Inhabited

/-- An inbound remote copy whose words have not all landed (R360): window, offset of its count object, BD so far. -/
structure Landing where
  win : Nat
  rcobj : Nat
  slot : Nat
  bd : Bool
deriving DecidableEq, Repr, Inhabited

/-- A remote copy as it leaves the device (R360): destination and window, offsets in it, lines with their records. -/
structure Sent where
  dst : Nat
  win : Nat
  dofs : Nat
  rcobj : Nat
  data : List (Word × BitVec 16)
deriving DecidableEq, Repr, Inhabited

/-- A descriptor that has become visible (Table 22-7, R359): its source and length, and where it goes with the source as it stood then
(R360). -/
structure CopyDesc where
  src : Nat
  len : Nat
  goes : Sent
deriving DecidableEq, Repr, Inhabited

/-- A partition's remote-copy ring (Table 22-6), the visible descriptors not started, by slot, and the slots started and not
completed. -/
structure EwRing where
  base : DWord
  cfg : Word
  tail : Word
  head : Word
  seen : Map CopyDesc
  flight : List (Nat × CopyDesc)
deriving DecidableEq, Repr, Inhabited

def EwRing.reset : EwRing := ⟨0, 0, 0, 0, [], []⟩

/-- The host port's registers (Tables 22-3, 22-4, 22-6) and what its last read returned. -/
structure HostPort where
  hostKey : Nat
  recAddr : DWord
  recData0 : DWord
  recData1 : DWord
  recStat : BitVec 2
  /-- REC_STAT.BUSY: a write command waits for a migration lock (R134, R356) -/
  recBusy : Bool
  hdmData : List Byte
  /-- posted writes not yet made, oldest first -/
  posted : List Posted
  /-- snoops held for a die's answer (R344), oldest first -/
  snoops : List HeldSnoop
  /-- inbound copies under way, and the next one's number (MODEL'S OWN) -/
  landing : Map Landing
  nextLand : Nat
  rings : Map EwRing
  /-- the last remote copy that left the device -/
  sent : Option Sent
  /-- EW_STAT of link l: up, fenced, peer (Table 22-6) -/
  links : Map (Bool × Bool × BitVec 19)
deriving DecidableEq, Repr, Inhabited

def HostPort.reset : HostPort := ⟨0, 0, 0, 0, 0, false, [], [], [], [], 0, [], none, []⟩

/-- A reply in the DOE mailbox (R363). -/
inductive Reply where
  | none
  | version (major minor : Nat)
  | capabilities (flags : Word)
  | algorithms (asym hash : String)
  | digests (slot : Nat) (digest : BitVec 384)
  | certificate (slot : Nat) (chain : List Byte)
  | challengeAuth (slot : Nat) (digest : BitVec 384) (sig : List Byte)
  | measurements (blocks : List (Nat × BitVec 384)) (sig : List Byte)
  | error
deriving DecidableEq, Repr, Inhabited

/-- The boot block (Table 22-3), the flash, the recovery window and the mailbox. -/
structure Boot where
  /-- 0 ROM, 1 firmware, 2 ready, 3 minimal -/
  mode : BitVec 2
  fails : BitVec 2
  busy : Bool
  reason : Byte
  /-- the cause of the last failed start, which minimal mode shows in REASON (R362) -/
  cause : Byte
  recLen : Word
  flash : List Byte
  recovery : Map Byte
  /-- the image's security version, once the ROM has read it -/
  svn : BitVec 16
  doe : Reply
deriving DecidableEq, Repr, Inhabited

/-- FAILS and the flash survive resets (R361), and with FAILS the last failure's cause; a device as delivered has FAILS 0 (log 5). -/
def Boot.reset : Boot := ⟨0, 0, false, 0, 0, 0, [], [], 0, .none⟩

/-! ## The whole device -/

/-- What one step does: an event of the table, a slot of an issue group, an instruction of an access-slice
instance, or time passing (log 1). -/
inductive Act where
  | event (i : Instr)
  | issue (gid : Nat)
  | slice (qg : Nat)
  | elapse (clocks : Nat)
deriving DecidableEq, Repr, Inhabited

/-- Whose instruction `exec` runs. -/
inductive Cur where
  | none
  | group (gid : Nat)
  | slice (qg : Nat)
deriving DecidableEq, Repr, Inhabited

/-- The device. -/
structure State where
  /-- MODEL'S OWN: the steps chosen for the future, first first; empty, the default order acts (log 1) -/
  agenda : List Act
  /-- MODEL'S OWN: whose instruction runs -/
  cur : Cur
  /-- MODEL'S OWN: within one act, the lanes of the running group whose instruction reads lost data, with their faults (R32,
  R321); none between acts -/
  lost : List (Nat × FInfo)
  /-- package time base, 64 bits (R171); 0 at device start -/
  clock : DWord
  /-- MODEL'S OWN: how many free values have been drawn (log 3) -/
  fresh : Nat
  /-- MODEL'S OWN: acts so far; a choice among stale translations is one for an act (R295) -/
  acts : Nat
  /-- MODEL'S OWN: next number of a cluster group or issue group -/
  nextId : Nat
  threads : Map Thread
  groups : Map Group
  warps : Map Warp
  /-- side-buffer records left behind by warps no longer resident (R306): ((4·core + quad)·32 + slot)·32 + lane -/
  sideLeft : Map SideRec
  quadGroups : Map QuadGroup
  /-- for each core the quad group whose instance its turret served last (R113) -/
  turns : Map Nat
  /-- the cores' PC tables, oldest entry first (R26, R287): core, quad, header of a clause at which threads of the quad stand -/
  pcTable : List (Nat × Nat × DWord)
  /-- MODEL'S OWN: by quad, 4·core + quad, its issues since one was its lowest ready thread's (R287) -/
  lows : Map Nat
  coreGroups : Map CoreGroup
  clusterGroups : Map ClusterGroup
  launches : Map Launch
  /-- fragment tables, entry e of core c at 64·c + e (R307) -/
  frags : Map FEntry
  /-- the four partitions -/
  parts : Map Part
  mem : MemSys
  pkg : Package
  host : HostPort
  boot : Boot
deriving DecidableEq, Repr, Inhabited

/-- Reasons the machine stops. The manual gives every fault of the device an effect (a trap, an event, a status),
so only states that no run reaches stop it. -/
inductive Fault where
  /-- a group's table and its threads disagree; raised by no instruction; safe -/
  | brokenState
deriving DecidableEq, Repr, Inhabited

/-- Reasons an instruction has no meaning. -/
inductive Refusal where
  /-- rejected by name in the dispatch; safe -/
  | notModelled (mnemonic : String)
deriving DecidableEq, Repr, Inhabited

/-- The device right after reset: nothing is resident, the boot ROM has the Dome die (R361). -/
def State.reset : State where
  agenda := []
  cur := .none
  lost := []
  clock := 0
  fresh := 0
  acts := 0
  nextId := 1
  threads := []
  groups := []
  warps := []
  sideLeft := []
  quadGroups := []
  turns := []
  pcTable := []
  lows := []
  coreGroups := []
  clusterGroups := []
  launches := []
  frags := []
  parts := []
  mem := MemSys.reset
  pkg := Package.reset
  host := HostPort.reset
  boot := Boot.reset

end Sys2Proof.Machine
end

