-- ==== Sys2Proof/Machine/Mem.lean ====
section
/-! DEFINITION. Memory: bytes and bound records (R82-R87, R102), update-only partials (R128, R212), keys (R302, R303),
migration locks (R134, R299), the accesses of a location, and the cached lines (R107, R108). Every write of physical memory goes
through `memSet`, every record through `setRec`. -/

namespace Sys2Proof.Machine

abbrev Out := Host.Outcome State Fault Refusal

/-! ## Free values (log 3) -/

def drawWord (s : State) : Word × State := (Config.freeWord s.fresh, { s with fresh := s.fresh + 1 })
def drawBool (s : State) : Bool × State := (Config.freeBool s.fresh, { s with fresh := s.fresh + 1 })

/-! ## Partitions -/

def partOf (s : State) (p : Nat) : Part := Map.get Part.reset s.parts p
def setPart (s : State) (p : Nat) (f : Part → Part) : State := { s with parts := Map.put s.parts p (f (partOf s p)) }

/-! ## Bytes -/

/-- The byte at a physical address; an unlisted one reads 0 (log 4). -/
def memGet (m : Memory) (a : Nat) : Byte := Map.get 0 m a

/-- Write one byte, keeping the canonical form. -/
def memSet (m : Memory) (a : Nat) (b : Byte) : Memory := Map.putD 0 m a b

/-- The canonical form of memory: addresses strictly rising, no listed byte equal to 0. -/
def memWf (m : Memory) : Bool := Map.wf 0 m

def memBytes (m : Memory) (a n : Nat) : List Byte := (List.range n).map (fun i => memGet m (a + i))

def memWrite (m : Memory) (a : Nat) : List Byte → Memory
  | [] => m
  | b :: r => memWrite (memSet m a b) (a + 1) r

/-- Little-endian value of bytes (R3). -/
def leNat : List Byte → Nat
  | [] => 0
  | b :: r => b.toNat + 256 * leNat r

/-- The `n` little-endian bytes of a value. -/
def leBytes : Nat → Nat → List Byte
  | 0, _ => []
  | n + 1, v => BitVec.ofNat 8 v :: leBytes n (v / 256)

/-! ## Bound records (R82-R84) -/

def recCode (r : BRec) (i : Nat) : BitVec 3 := (r.codes >>> (3 * i)).setWidth 3

def recSetCode (r : BRec) (i : Nat) (c : BitVec 3) : BRec :=
  { r with codes := (r.codes &&& ~~~((7#96) <<< (3 * i))) ||| (c.setWidth 96 <<< (3 * i)) }

/-- The bound a code decodes to (Table 4-8). -/
def codeBound (e : Byte) (c : BitVec 3) : BitVec 16 :=
  if c = 0 then 0
  else if c = 7 ∧ e = 255 then bndInf
  else upDy (dyPow ((e.toNat : Int) - 134 + c.toNat))

def recBound (r : BRec) (i : Nat) : BitVec 16 := codeBound r.e (recCode r i)

/-- The least c with 2^c ≥ b, for a nonzero code; 128 for unbounded (R84). -/
def ceilLog (b : BitVec 16) : Int :=
  match bdOf b with
  | none => 128
  | some d => if dyEq d (dyPow (dyLog d)) then dyLog d else dyLog d + 1

/-- store_bound (R84). -/
def storeBound (r : BRec) (i : Nat) (b : BitVec 16) : BRec :=
  if b = 0 then recSetCode r i 0
  else
    let c := ceilLog b
    let others := (List.range 32).filter (fun j => j != i && recCode r j != 0)
    let e0 : Int := if others.isEmpty then min (max (c + 127) 0) 255 else r.e.toNat
    let need := c - e0 + 134
    if 7 < need then
      let d := need - 7
      let r1 := others.foldl (fun q j => recSetCode q j (BitVec.ofNat 3 (max ((recCode r j).toNat - d) 1).toNat))
        { r with e := BitVec.ofNat 8 (min (e0 + d) 255).toNat }
      recSetCode r1 i 7
    else recSetCode { r with e := BitVec.ofNat 8 e0.toNat } i (BitVec.ofNat 3 (max need 1).toNat)

/-- The record in which nothing is bounded: code 7 under E = 255 (R320). -/
def BRec.unbounded : BRec := ⟨255, BitVec.allOnes 96⟩

/-! ## Physical lines -/

def lineOf (a : Nat) : Nat := a / 128
def frameOf (a : Nat) : Nat := a / 2 ^ 21

def hasChunk (m : MemSys) (a : Nat) : Bool := (Map.get? m.chunks (frameOf a)).isSome

def recAt (m : MemSys) (line : Nat) : BRec := Map.get BRec.zero m.recs line
def setRec (m : MemSys) (line : Nat) (r : BRec) : MemSys := { m with recs := Map.putD BRec.zero m.recs line r }

/-- Bound of the word holding an address, on a page with BT as given (R83, R301). -/
def physBound (m : MemSys) (bt : Bool) (a : Nat) : BitVec 16 :=
  if !bt then 0
  else if hasChunk m a then recBound (recAt m (lineOf a)) (a / 4 % 32)
  else bndInf

/-- Store the bounds of consecutive words from the word holding `a` (R84, R85). -/
def putBounds (m : MemSys) (bt : Bool) (a : Nat) : List (BitVec 16) → MemSys
  | [] => m
  | b :: r =>
    let m := if bt && hasChunk m a then setRec m (lineOf a) (storeBound (recAt m (lineOf a)) (a / 4 % 32) b) else m
    putBounds m bt (a + 4) r

/-- Whether a store drops a nonzero bound (R85, R301). -/
def dropsBound (m : MemSys) (bt : Bool) (a : Nat) (bs : List (BitVec 16)) : Bool :=
  !(bt && hasChunk m a) && bs.any (fun b => b != 0)

def markDirty (m : MemSys) (line : Nat) : MemSys := { m with dirty := Map.put m.dirty line () }

/-- The word of code at a physical address. -/
def codeWord (m : Memory) (a : Nat) : DWord := BitVec.ofNat 64 (leNat (memBytes m a 8))

/-- What is known of a word as it stood in earlier epochs. -/
def versions (m : MemSys) (a : Nat) : List Ver := Map.get [] m.before (a / 8)

/-- A word as it stood when an epoch of code began: what memory still holds, where no store has changed it since (R133). -/
def wordAt (m : MemSys) (e a : Nat) : DWord := match (versions m a).find? (fun v => decide (e ≤ v.epoch)) with
  | some v => v.word
  | none => codeWord m.bytes a

/-- How many bytes have been stored to a word since an epoch began. -/
def storedSince (m : MemSys) (e a : Nat) : Nat :=
  ((versions m a).map (fun v => if e ≤ v.epoch then v.stored else 0)).foldl (· + ·) 0

/-- The versions of a word after `n` bytes of a store to it in an epoch, before which it held `w`. -/
def addVer (e n : Nat) (w : DWord) : List Ver → List Ver
  | [] => [⟨e, w, n⟩]
  | [v] => if v.epoch = e then [{ v with stored := v.stored + n }] else [v, ⟨e, w, n⟩]
  | v :: r => v :: addVer e n w r

/-- Bytes of [a, a + n) in the word at 8·i. -/
def bytesIn (a n i : Nat) : Nat := min (a + n) (8 * i + 8) - max a (8 * i)

/-- Before a store of `n` bytes changes words, what they were stays known until an ICINV of their lines and its release (R133). -/
def keepOld (m : MemSys) (a n : Nat) : MemSys :=
  { m with before := (List.range ((a % 8 + n + 7) / 8)).foldl (fun x i =>
      let j := a / 8 + i
      Map.put x j (addVer m.epoch (bytesIn a n j) (codeWord m.bytes (8 * j)) (Map.get [] x j))) m.before }

/-- No instruction cache and no clause buffer holds a clause in the lines that `hit` names. -/
def dropCopies (m : MemSys) (hit : Nat → Bool) : MemSys :=
  { m with code := m.code.filter (fun c => !c.locs.any (fun l => match l with
      | .phys a _ _ => hit (lineOf a)
      | .scr _ _ => false)) }

/-- No word of the lines that `hit` names is known as it was, and no copy is left. -/
def dropOld (m : MemSys) (hit : Nat → Bool) : MemSys :=
  dropCopies { m with before := m.before.filter (fun e => !hit (e.1 / 16)) } hit

/-- The lines that `hit` names begin a new epoch of code together: an entry from now on reads their words as they stand (R133). -/
def settleLines (m : MemSys) (hit : Nat → Bool) : MemSys :=
  let ls := ((m.before.map (fun e => e.1 / 16)).filter hit).eraseDups
  dropOld { m with epoch := m.epoch + 1, settled := ls.foldl (fun x l => Map.put x l (m.epoch + 1)) m.settled } hit

/-- Write bytes, dirtying their line. No access crosses a line. -/
def putBytes (m : MemSys) (a : Nat) (l : List Byte) : MemSys :=
  markDirty { keepOld m a l.length with bytes := memWrite m.bytes a l } (lineOf a)

/-- The least bound of a sub-word store: not below the word's old one (R84). -/
def widenBounds (m : MemSys) (bt narrow : Bool) (a : Nat) (bs : List (BitVec 16)) : List (BitVec 16) :=
  if narrow then bs.map (bndMax (physBound m bt a)) else bs

/-- A store to physical memory, record and data in one step (R84). -/
def putStore (m : MemSys) (bt narrow : Bool) (a : Nat) (l : List Byte) (bs : List (BitVec 16)) : MemSys :=
  putBounds (putBytes m a l) bt (a / 4 * 4) (widenBounds m bt narrow a bs)

/-! ## Update-only partials (R128, R212) -/

/-- The bound of a value of `n` bytes at an aligned address: the larger of its words' bounds (R83). -/
def valueBound (m : MemSys) (bt : Bool) (a n : Nat) : BitVec 16 :=
  (List.range (n / 4)).foldl (fun b i => bndMax b (physBound m bt (a + 4 * i))) 0

/-- Apply one partial at the home. -/
def applyPartial (m : MemSys) (p : Partial) : MemSys :=
  let n := p.ty.bytes
  let r := atomRes p.op p.ty (BitVec.ofNat 64 (leNat (memBytes m.bytes p.pa n))) (valueBound m p.bt p.pa n) p.val p.bnd
  putStore m p.bt false p.pa (leBytes n r.bits.toNat) (List.replicate (n / 4) r.bnd)

/-- Combine every partial of a line: home value first, then the cores in ascending order. -/
def combineLine (m : MemSys) (line : Nat) : MemSys :=
  let ps := m.partials.filter (fun p => lineOf p.pa == line)
  ps.foldl applyPartial { m with partials := m.partials.filter (fun p => lineOf p.pa != line) }

/-- Partials in the order of R212: by address, then by core. -/
def insPartial (p : Partial) : List Partial → List Partial
  | [] => [p]
  | q :: r =>
    if p.pa < q.pa || (p.pa == q.pa && p.core < q.core) then p :: q :: r
    else if p.pa == q.pa && p.core == q.core then p :: r
    else q :: insPartial p r

/-! ## Keys (R302, R303) -/

/-- The key that a slot holds, apart from every other that it or another slot holds or has held; a line that is held under a key
no longer in its slot is tagged with this itself. -/
def nameOf (m : MemSys) (k : Nat) : Nat := if k < 2048 then 4096 + Map.get k m.keyNames k else k

/-- What a block reads as under key k' that was written under k as x: itself under its own key. -/
def viewBlock (a k k' : Nat) (x : BitVec 128) : BitVec 128 := if k = k' then x else Config.rekeyBlock k k' a x

def viewRec (line k k' : Nat) (r : BRec) : BRec :=
  if k = k' then r
  else
    let x := Config.rekeyRecord k k' line (BitVec.ofNat 128 (r.e.toNat * 2 ^ 96 + r.codes.toNat))
    ⟨BitVec.ofNat 8 (x.toNat / 2 ^ 96), BitVec.ofNat 96 x.toNat⟩

def blockAt (m : Memory) (a : Nat) : BitVec 128 := BitVec.ofNat 128 (leNat (memBytes m a 16))

/-- Under which key memory holds a block of a line tagged k, and what was written: what it was written as before, while
nothing has been written since. -/
def blockBase (m : MemSys) (k a : Nat) : Nat × BitVec 128 :=
  match Map.get? m.cipher (a / 16) with
  | some (k0, x) => if viewBlock a k0 (nameOf m k) x = blockAt m.bytes a then (k0, x) else (nameOf m k, blockAt m.bytes a)
  | none => (nameOf m k, blockAt m.bytes a)

/-- One block of a line tagged k, as key k' reads it. -/
def rekeyBlockAt (k k' : Nat) (m : MemSys) (a : Nat) : MemSys :=
  let (k0, x) := blockBase m k a
  let k1 := nameOf m k'
  { m with
    bytes := memWrite m.bytes a (leBytes 16 (viewBlock a k0 k1 x).toNat),
    cipher := if k0 = k1 then Map.erase m.cipher (a / 16) else Map.put m.cipher (a / 16) (k0, x) }

/-- The record of a line tagged k, as key k' reads it. -/
def rekeyRecAt (k k' line : Nat) (m : MemSys) : MemSys :=
  let cur := recAt m line
  let (k0, r) := match Map.get? m.recCipher line with
    | some (k0, r) => if viewRec line k0 (nameOf m k) r = cur then (k0, r) else (nameOf m k, cur)
    | none => (nameOf m k, cur)
  let k1 := nameOf m k'
  { setRec m line (viewRec line k0 k1 r) with
    recCipher := if k0 = k1 then Map.erase m.recCipher line else Map.put m.recCipher line (k0, r) }

/-- The key by which the device's own agents reach a line: the one it is held under, whichever that is. Neither a slot nor a
key has this number. -/
def ownKey : Nat := 2048

/-- Reach a line under a key. A line held under another key is written back under it, and filled anew under this one; host memory
is not encrypted, but the directory holds its line under the key as well (R322, R345). -/
def rekeyLine (m : MemSys) (line key : Nat) : MemSys :=
  if key == ownKey then m
  else match Map.get? m.keyOf line with
    | none => { m with keyOf := Map.put m.keyOf line key }
    | some k =>
      if k = key then m
      else if Config.hostBase ≤ line * 128 then { m with keyOf := Map.put m.keyOf line key }
      else
        let m1 := { ((List.range 8).map (fun i => line * 128 + 16 * i)).foldl (rekeyBlockAt k key) m with
          keyOf := Map.put m.keyOf line key, dirty := Map.erase m.dirty line }
        let m1 := dropOld m1 (· == line)
        if hasChunk m (line * 128) then rekeyRecAt k key line m1 else m1

/-- A touch of a line: partials are combined, and the line is held under the accessing key. -/
def openLine (m : MemSys) (line key : Nat) : MemSys := rekeyLine (combineLine m line) line key

/-- The byte an access under a key reads. -/
def viewByte (m : MemSys) (a key : Nat) : Byte := memGet (openLine m (lineOf a) key).bytes a

/-- Bytes as they stand once the line's partials are combined: the reads of the device's own agents. -/
def rawBytes (m : MemSys) (a n : Nat) : List Byte := memBytes (combineLine m (lineOf a)).bytes a n

def rawWord64 (m : MemSys) (a : Nat) : DWord := BitVec.ofNat 64 (leNat (rawBytes m a 8))

/-! ## Migration locks (R134, R298) -/

/-- Bytes of a migration SIZE code (Table 17-5). -/
def migBytes (c : Nat) : Nat :=
  match c with
  | 0 => 2 ^ 12 | 1 => 2 ^ 14 | 2 => 2 ^ 16 | 3 => 2 ^ 21 | 4 => 2 ^ 25 | 5 => 2 ^ 29 | _ => 2 ^ 30

def migPa (r : DWord) : Nat := r.toNat / 2 ^ 12 % 2 ^ 40 * 2 ^ 12
def migKey (r : DWord) : Nat := r.toNat / 2 ^ 53

/-- Whether a running migration's locks are set. -/
def Part.locks (q : Part) : Bool := q.migSt == .copying || q.migSt == .ready

/-- Whether an address lies in the ranges of a partition's running migration. -/
def inRun (q : Part) (a : Nat) : Bool :=
  let n := migBytes q.runSize.toNat
  decide (migPa q.runSrc ≤ a ∧ a < migPa q.runSrc + n) || decide (migPa q.runDst ≤ a ∧ a < migPa q.runDst + n)

/-- The partition whose migration locks an address. -/
def lockOf (s : State) (a : Nat) : Option Nat := (s.parts.find? (fun e => e.2.locks && inRun e.2 a)).map (·.1)

/-- The partition with whose held writes a write to an address lines up: that of its lock, or one whose held writes are
landing (R299). -/
def holdOf (s : State) (a : Nat) : Option Nat :=
  (s.parts.find? (fun e => (e.2.locks || e.2.migSt == .landing) && inRun e.2 a)).map (·.1)

/-- The key of an access to one copy of a migrating page, by which it reaches the other: the other copy's for one that has the
copy's own key, and else its own (R298, R303). -/
def movedKey (key own other : Nat) : Nat := if key = own then other else key

/-- The copy a page's reads are served from, or its writes applied to. -/
def moveTo (s : State) (p : Nat) (toDst : Bool) (loc : Loc) : Loc :=
  match loc with
  | .scr _ _ => loc
  | .phys a k bt =>
    let q := partOf s p
    let src := migPa q.runSrc
    let dst := migPa q.runDst
    let (o, own) := if src ≤ a ∧ a < src + migBytes q.runSize.toNat then (a - src, migKey q.runSrc) else (a - dst, migKey q.runDst)
    if toDst then .phys (dst + o) (movedKey k own (migKey q.runDst)) bt else .phys (src + o) (movedKey k own (migKey q.runSrc)) bt

/-- Reads of a locked page are served from the source copy (R299). -/
def readLocOf (s : State) (loc : Loc) : Loc :=
  match loc with
  | .phys a _ _ => match lockOf s a with
    | some p => moveTo s p false loc
    | none => loc
  | .scr _ _ => loc

/-! ## Locations -/

/-- A stash line of a core group (R105). -/
abbrev StashRef := Option (Nat × Nat)

/-- A write to a line reaches its slice: reads that come later do not join its combining entries (R342). -/
def combineWrite (s : State) (line : Nat) : State :=
  { s with pkg := { s.pkg with combs := s.pkg.combs.map (fun e => if e.line == line then { e with open_ := false } else e) } }

/-- Drop the other core groups' stash copies of a line (R105). -/
def dropStash (s : State) (line : Nat) (keep : StashRef) : State :=
  { s with coreGroups := s.coreGroups.map (fun e =>
      if keep.map (·.1) = some e.1 then e else (e.1, { e.2 with slines := e.2.slines.filter (fun l => l.2.line != line) })) }

/-- Touch a mapped stash line: first touch fills it, a store dirties it. -/
def touchStash (s : State) (r : StashRef) (line : Nat) (store : Bool) : State :=
  match r with
  | none => s
  | some (cg, i) =>
    { s with coreGroups := Map.adjust s.coreGroups cg (fun c =>
        let l := (Map.get? c.slines i).getD ⟨false, line, false⟩
        { c with slines := Map.put c.slines i { l with dirty := l.dirty || store, line := line } }) }

def scrBytes (c : CoreGroup) (o n : Nat) : List Byte := (List.range n).map (fun i => Map.get 0 c.scratch (o + i))

def scrWrite (m : Map Byte) (o : Nat) : List Byte → Map Byte
  | [] => m
  | b :: r => scrWrite (Map.putD 0 m o b) (o + 1) r

def scrBound (c : CoreGroup) (o : Nat) : BitVec 16 := recBound (Map.get BRec.zero c.srec (o / 128)) (o / 4 % 32)

def scrBounds (m : Map BRec) (o : Nat) : List (BitVec 16) → Map BRec
  | [] => m
  | b :: r => scrBounds (Map.putD BRec.zero m (o / 128) (storeBound (Map.get BRec.zero m (o / 128)) (o / 4 % 32) b)) (o + 4) r

/-- What a read of a location returns: its bytes and the bound of each 32-bit word they meet. -/
structure Got where
  bytes : List Byte
  bnds : List (BitVec 16)
deriving DecidableEq, Repr, Inhabited

def Got.val (g : Got) : DWord := BitVec.ofNat 64 (leNat g.bytes)

/-- The larger of the words' bounds (R83). -/
def Got.bnd (g : Got) : BitVec 16 := g.bnds.foldl bndMax 0

/-- Number of words that `n` bytes at an aligned address meet. -/
def wordsOf (n : Nat) : Nat := (n + 3) / 4

/-- Open the line of a location. -/
def openLoc (s : State) (loc : Loc) : State :=
  match loc with
  | .phys a k _ => { s with mem := openLine s.mem (lineOf a) k }
  | .scr _ _ => s

/-- Read `n` bytes at a location whose line is open. -/
def peekLoc (s : State) (loc : Loc) (n : Nat) : Got :=
  match loc with
  | .phys a _ bt =>
    ⟨memBytes s.mem.bytes a n, (List.range (wordsOf n)).map (fun i => physBound s.mem bt (a / 4 * 4 + 4 * i))⟩
  | .scr g o =>
    match Map.get? s.coreGroups g with
    | some c => ⟨scrBytes c o n, (List.range (wordsOf n)).map (fun i => scrBound c (o / 4 * 4 + 4 * i))⟩
    | none => ⟨List.replicate n 0, List.replicate (wordsOf n) 0⟩

/-- A read: the line is touched, and a locked page's source copy serves it. -/
def readLoc (s : State) (loc : Loc) (n : Nat) : Got × State :=
  let l := readLocOf s loc
  let s := openLoc s l
  (peekLoc s l n, s)

/-- A store that no lock holds; the second component says that a bound was dropped (R85). -/
def pokeLoc (s : State) (loc : Loc) (keep : StashRef) (l : List Byte) (bs : List (BitVec 16)) (narrow : Bool) :
    State × Bool :=
  match loc with
  | .phys a k bt =>
    let m := openLine s.mem (lineOf a) k
    (dropStash { combineWrite s (lineOf a) with mem := putStore m bt narrow a l bs } (lineOf a) keep, dropsBound m bt a bs)
  | .scr g o =>
    ({ s with coreGroups := Map.adjust s.coreGroups g (fun c =>
        let bs := if narrow then bs.map (bndMax (scrBound c o)) else bs
        { c with scratch := scrWrite c.scratch o l, srec := scrBounds c.srec (o / 4 * 4) bs,
                 badWords := if narrow then c.badWords else c.badWords.filter (fun w => !decide (o / 4 ≤ w ∧ w < o / 4 + bs.length)) }) },
      false)

/-- The partition whose lock holds writes of a location. -/
def locLock (s : State) (loc : Loc) : Option Nat :=
  match loc with
  | .phys a _ _ => holdOf s a
  | .scr _ _ => none

/-- A write arrives at a locked page of partition p's migration. -/
def holdWrite (s : State) (p : Nat) (h : Held) : State := setPart s p (fun q => { q with held := q.held ++ [h] })

/-- Whether a write that an agent goes on from is held. -/
def heldFor (s : State) (p : Nat) (a : Agent) : Bool := s.parts.any (fun e => e.2.held.any (fun h => h.next == some (p, a)))

/-- A write by an agent that does not wait: held under a lock, else applied. -/
def storeLoc (s : State) (loc : Loc) (l : List Byte) (bs : List (BitVec 16)) (via : Option Via := none) : State :=
  match locLock s loc with
  | some p => holdWrite s p ⟨0, loc, via, .store l bs false 0, none, .land⟩
  | none => (pokeLoc s loc none l bs false).1

/-- The location by which the device's own agents reach a physical address. -/
def physLoc (a : Nat) : Loc := .phys a ownKey true

/-- The address a read of a physical address is served from (R299). -/
def readPa (s : State) (a : Nat) : Nat :=
  match readLocOf s (physLoc a) with
  | .phys b _ _ => b
  | .scr _ _ => a

def physRead64 (s : State) (a : Nat) : DWord := rawWord64 s.mem (readPa s a)

/-! ## Physical address space (R294, R300) -/

/-- [base, base + size) without its shadow space: a pool window's is its last sixteenth, of which R300 and R358 say only that
it lies in the window (DESIGN CHOICE, log 105). -/
def memRegions (m : MemSys) : List (Nat × Nat) :=
  [(0, Config.hbmBytes - Config.hbmShadowBytes), (Config.hostBase, Config.physTop - Config.hostBase)]
    ++ m.windows.map (fun w => (w.2.base, w.2.size - w.2.size / 16))

/-- Whether a range lies wholly in one memory. -/
def inOneMemory (m : MemSys) (a n : Nat) : Bool :=
  (memRegions m).any (fun r => decide (r.1 ≤ a ∧ a + n ≤ r.1 + r.2))

/-- Whether every 2 MiB frame of a range has a shadow chunk. -/
def chunksCover (m : MemSys) (a n : Nat) : Bool :=
  let f0 := frameOf a
  let f1 := frameOf (a + n - 1)
  (m.chunks.filter (fun c => decide (f0 ≤ c.1 ∧ c.1 ≤ f1))).length == f1 + 1 - f0

/-! ## Homes (R340) -/

def stackOf (a : Nat) : Nat := a / 2 ^ 9 % 16
def portOf (a : Nat) : Nat := a / 2 ^ 10 % 8
def sliceOf (a : Nat) : Nat := 32 * portOf a + 4 * (a / 2 ^ 13 % 8) + a / 2 ^ 7 % 4

/-- Whether an address lies in a withdrawn frame or behind a fenced stack port (R322, R340). -/
def withdrawn (m : MemSys) (a : Nat) : Bool :=
  m.withdrawn.any (fun w => decide (w.1 ≤ a ∧ a < w.1 + w.2)) || m.portsOut.contains (portOf a)

/-- Whether a page's frame meets a withdrawn one: the page that maps a lost line is withdrawn whole (R322). -/
def frameLost (m : MemSys) (base size : Nat) : Bool :=
  m.withdrawn.any (fun w => decide (w.1 < base + size ∧ base < w.1 + w.2))

/-! ## Caches (R107, R108)

They change no value that a program reads; they tell which lines are dirty (R322), which die holds a line (R345), which
snoop a sleeping link holds (R344), and which reads combine (R342). Which sets a line falls into is the model's choice
(log 74). -/

def l1Key (core line : Nat) : Nat := core * 2 ^ 45 + line
def l1Core (key : Nat) : Nat := key / 2 ^ 45
def l1Line (key : Nat) : Nat := key % 2 ^ 45

def sameL1Set (a b : Nat) : Bool := l1Core a == l1Core b && l1Line a % 128 == l1Line b % 128
def l2Set (line : Nat) : Nat × Nat := (sliceOf (line * 128), (line / 4 % 2 + line / 2 ^ 9 * 2) % 1024)
def sameL2Set (a b : Nat) : Bool := l2Set a == l2Set b

/-- The class an access gives a line that it finds: `.na` and `.by` drop it to 0. -/
def hitClass (evc : Nat) : Nat := if evc ≤ 5 then evc else 0

/-- The victim of a set: the lowest class present, and least recently used within it. -/
def victimOf (set : Map CLine) : Option (Nat × CLine) :=
  set.foldl (fun v e => match v with
    | none => some e
    | some w => if e.2.cls < w.2.cls || (e.2.cls == w.2.cls && decide (e.2.use < w.2.use)) then some e else some w) none

/-- Allocate a line in a 16-way set; the line that gave way. -/
def allocLine (same : Nat → Nat → Bool) (m : Map CLine) (key : Nat) (c : CLine) : Map CLine × Option (Nat × CLine) :=
  let set := m.filter (fun e => same e.1 key)
  if set.length < 16 then (Map.put m key c, none)
  else match victimOf set with
    | none => (Map.put m key c, none)
    | some v => (Map.put (Map.erase m v.1) key c, some v)

/-- Put a line into the central cache; a line that gives way is written back, unless an L1 holds it dirtier. -/
def fillL2 (m : MemSys) (cls line : Nat) : MemSys :=
  match allocLine sameL2Set m.l2 line ⟨cls, m.uses, .shared⟩ with
  | (l2, none) => { m with l2 := l2 }
  | (l2, some v) =>
    let above := m.l1.any (fun e => l1Line e.1 == v.1 && e.2.st == .dirty)
    { m with l2 := l2, dirty := if above then m.dirty else Map.erase m.dirty v.1 }

/-- An access that reaches the central cache. -/
def useL2 (m : MemSys) (evc line : Nat) : MemSys :=
  match Map.get? m.l2 line with
  | some c => { m with l2 := Map.put m.l2 line { c with cls := hitClass evc, use := m.uses } }
  | none => if evc = 7 then m else fillL2 m (hitClass evc) line

/-- Put a line into a core's L1; a dirty line that gives way goes to the central cache. -/
def fillL1 (m : MemSys) (core line : Nat) (c : CLine) : MemSys :=
  match allocLine sameL1Set m.l1 (l1Key core line) c with
  | (l1, none) => { m with l1 := l1 }
  | (l1, some v) =>
    let m := { m with l1 := l1 }
    if v.2.st == .dirty && (Map.get? m.l2 (l1Line v.1)).isNone then fillL2 m v.2.cls (l1Line v.1) else m

/-- A core's access through its L1. -/
def useL1 (m : MemSys) (core evc line : Nat) (w : Bool) : MemSys :=
  match Map.get? m.l1 (l1Key core line) with
  | some c => { m with l1 := Map.put m.l1 (l1Key core line) { c with cls := hitClass evc, use := m.uses, st := if w then .dirty else c.st } }
  | none =>
    let m := useL2 m evc line
    if evc ≤ 5 then fillL1 m core line ⟨evc, m.uses, if w then .dirty else .shared⟩ else m

/-- What an access of one agent leaves in the others' L1s: a write takes their copies, a read leaves them shared. -/
def yieldL1 (l1 : Map CLine) (core : Option Nat) (line : Nat) (w : Bool) : Map CLine :=
  let other (e : Nat × CLine) : Bool := l1Line e.1 == line && core != some (l1Core e.1)
  if w then l1.filter (fun e => !other e) else l1.map (fun e => if other e then (e.1, { e.2 with st := .shared }) else e)

/-- An access to a line by a core through its L1, or by an agent at the home; a write that no cache took is in memory. -/
def cacheUse (m : MemSys) (core : Option Nat) (evc line : Nat) (w : Bool) : MemSys :=
  let m := { m with uses := m.uses + 1, l1 := yieldL1 m.l1 core line w }
  let m := match core with
    | some c => useL1 m c evc line w
    | none => useL2 m evc line
  if w && (Map.get? m.l2 line).isNone && !m.l1.any (fun e => l1Line e.1 == line) then { m with dirty := Map.erase m.dirty line } else m

/-- The dies that hold a line so that a snoop for an access goes to them: for a write those with a copy of it in an L1 or a
stash, for a read those with one that is exclusive or dirty; and those with partials of it (R128, R344). -/
def holders (s : State) (line : Nat) (w : Bool) : List Nat :=
  (s.mem.l1.filter (fun e => l1Line e.1 == line && (w || e.2.st != .shared))).map (fun e => l1Core e.1 / 64)
    ++ (s.coreGroups.filter (fun e => e.2.slines.any (fun l => l.2.line == line && (w || l.2.dirty)))).map (fun e => e.2.core / 64)
    ++ (s.mem.partials.filter (fun p => lineOf p.pa == line)).map (fun p => p.core / 64)

/-- The dies that a snoop for an access goes to: those but the accessing core's own. -/
def snooped (s : State) (core : Option Nat) (line : Nat) (w : Bool) : List Nat :=
  ((holders s line w).filter (fun d => core.map (· / 64) != some d)).eraseDups

end Sys2Proof.Machine
end

