-- ==== Sys2Proof/Machine/Cache.lean ====
section
/-! DEFINITION. What an access does in the package beside memory: snoops and the dies that answer them (R344, R345), read
combining (R342), cached lines, and the accesses of the device's own agents at a physical address (R364). -/

namespace Sys2Proof.Machine

def dieOf (s : State) (d : Nat) : Die := Map.get Die.reset s.pkg.dies d
def setDie (s : State) (d : Nat) (f : Die → Die) : State :=
  { s with pkg := { s.pkg with dies := Map.putD Die.reset s.pkg.dies d (f (dieOf s d)) } }

/-! ## Snoops (R344) -/

/-- No fault: the access cannot be made yet and is made again later; nothing of its instruction takes effect. It waits for
the answer of a die to a snoop (R344): arg0 is the die's number plus 1. -/
def waitInfo (d : Nat) : FInfo := ⟨16, 0, BitVec.ofNat 64 (d + 1), 0⟩

/-- The same, where it waits for partition p's migration lock on a page-table entry whose AC or DT it must set (R293). -/
def waitLock (p : Nat) : FInfo := ⟨16, 0, 0, BitVec.ofNat 64 p⟩

def FInfo.waits (f : FInfo) : Bool := f.cause == 16

/-- Whether a die does not answer a snoop yet: its link sleeps, or it has been slow to answer, and may then answer or not
(R345, Table 21-3). -/
def silent (s : State) (d : Nat) : Bool :=
  (dieOf s d).asleep || ((dieOf s d).slow && !(dieOf s d).fenced && !Config.answers s.acts d)

/-- A die whose answer to a snoop an access must wait for. -/
def silentDie (s : State) (core : Option Nat) (line : Nat) (w : Bool) : Option Nat := (snooped s core line w).find? (silent s)

/-- The lines of a physical range that some L1, stash or partial holds. -/
def heldLines (s : State) (a n : Nat) : List Nat :=
  ((s.mem.l1.map (fun e => l1Line e.1) ++ s.coreGroups.flatMap (fun e => e.2.slines.map (fun l => l.2.line))
    ++ s.mem.partials.map (fun p => lineOf p.pa)).filter (fun l => decide (l * 128 < a + n) && decide (a < l * 128 + 128))).eraseDups

/-- A die whose answer an access to a physical range must wait for. -/
def rangeSilent (s : State) (core : Option Nat) (a n : Nat) (w : Bool) : Option Nat :=
  (heldLines s a n).findSome? (fun l => silentDie s core l w)

/-- A snoop is sent to a die whose link sleeps: the link is waking, and the snoop is held. -/
def wakeDie (s : State) (d : Nat) : State := setDie s d (fun x => if x.asleep then { x with waking := true } else x)

/-- The dies that lanes wait for are woken. -/
def wakeFor (s : State) (fs : List FInfo) : State :=
  fs.foldl (fun s f => if f.waits && f.arg0 != 0 then wakeDie s (f.arg0.toNat - 1) else s) s

/-- Dies that answer a snoop: SLOW is cleared at an answer (Table 21-7). -/
def answered (s : State) (core : Option Nat) (line : Nat) (w : Bool) : State :=
  (snooped s core line w).foldl (fun s d => setDie s d (fun x => { x with slow := false })) s

/-! ## Read combining (R342) -/

/-- An entry that a plain read of a line under a key may join. -/
def joins (line key : Nat) (e : Comb) : Bool := e.line == line && e.key == key && e.open_

/-- A plain read reaches the slice of its line: it joins the open entry, or opens one while the line is being filled or the
reply queue is long. -/
def combineRead (s : State) (cluster line key : Nat) : State :=
  let slice := sliceOf (line * 128)
  if s.pkg.combs.any (joins line key) then
    { s with pkg := { s.pkg with combs := s.pkg.combs.map (fun e =>
        if joins line key e && !e.joined.contains cluster then { e with joined := e.joined ++ [cluster] } else e) } }
  else if (Map.get? s.mem.l2 line).isNone || Config.repliesQueued s.mem.uses slice then
    { s with pkg := { s.pkg with combs := s.pkg.combs ++ [⟨slice, line, key, [cluster], s.clock, true⟩] } }
  else s

/-- What a read or write of a location does beside memory. `plain` says that a read may combine; it does so when it misses
its core's L1. -/
def cacheAcc (s : State) (core : Option Nat) (evc : Nat) (plain : Bool) (l : Loc) (w : Bool) : State :=
  match l with
  | .scr _ _ => s
  | .phys a k _ =>
    let line := lineOf a
    let s := answered s core line w
    let s := if w then combineWrite s line
      else match core with
        | some c => if plain && (Map.get? s.mem.l1 (l1Key c line)).isNone then combineRead s (c / 4) line k else s
        | none => s
    { s with mem := cacheUse s.mem core evc line w }

/-- An access made at the home. -/
def homeAcc (s : State) (l : Loc) (w : Bool) : State := cacheAcc s none 2 false l w

/-! ## The device's own agents (R364) -/

/-- A write at once by one of the device's own agents (R364), made at the home: the line keeps the key it is held under, its record
takes bound 0 for each word where the frame has a chunk, and no L1 or stash keeps a copy. -/
def physPoke (s : State) (a : Nat) (l : List Byte) : State :=
  let s := homeAcc s (physLoc a) true
  dropStash { s with mem := putStore (combineLine s.mem (lineOf a)) true false a l (List.replicate (l.length / 4) 0) } (lineOf a) none

/-- Such a write, held under a lock. -/
def physStore (s : State) (a : Nat) (l : List Byte) : State :=
  match holdOf s a with
  | some p => holdWrite s p ⟨0, physLoc a, none, .store l (List.replicate (l.length / 4) 0) false 0, none, .land⟩
  | none => physPoke s a l

def physWrite64 (s : State) (a : Nat) (v : DWord) : State := physStore s a (leBytes 8 v.toNat)
def physWrite32 (s : State) (a : Nat) (v : Word) : State := physStore s a (leBytes 4 v.toNat)

end Sys2Proof.Machine
end

