-- ==== Sys2Proof/Machine/Walk.lean ====
section
/-! DEFINITION. Translation with its caches (R290-R297), and the accesses of an agent through it. -/

namespace Sys2Proof.Machine

def faultOf (cause reason : Nat) (arg0 arg1 : DWord) : FInfo := ⟨cause, reason, arg0, arg1⟩

def xFault (cause reason : Nat) (va : DWord) (k : AKind) (level : Nat) : FInfo :=
  faultOf cause reason va (BitVec.ofNat 64 (k.code + 16 * level))

/-- Page size of a SIZE code and the level it stands at (Table 17-2). -/
def pageSize (c : Nat) : Option (Nat × Nat) :=
  match c with
  | 0 => none
  | 1 => some (4, 2 ^ 14) | 2 => some (4, 2 ^ 16) | 3 => some (3, 2 ^ 25) | 4 => some (3, 2 ^ 29)
  | 5 => some (2, 2 ^ 34) | _ => none

/-- Page size of a leaf at a level: code 0 is the level's own size. -/
def leafSize (level c : Nat) : Option Nat :=
  if c = 0 then (match level with | 2 => some (2 ^ 30) | 3 => some (2 ^ 21) | 4 => some (2 ^ 12) | _ => none)
  else (pageSize c).bind (fun p => if p.1 = level then some p.2 else none)

def pteBit (w : DWord) (i : Nat) : Bool := w.getLsbD i
def ptePa (w : DWord) : Nat := w.toNat / 2 ^ 12 % 2 ^ 40 * 2 ^ 12
def pteKey (w : DWord) : Nat := w.toNat / 2 ^ 53
def pteSize (w : DWord) : Nat := w.toNat / 2 ^ 9 % 8

/-- A leaf that a walk or a cache delivers. -/
structure Leaf where
  base : Nat
  size : Nat
  pte : DWord
  pteAddr : Nat
deriving DecidableEq, Repr

/-- Levels below a table, as (level, shift) pairs (Table 17-2). -/
def walkLevels : List (Nat × Nat) := [(0, 48), (1, 39), (2, 30), (3, 21), (4, 12)]

/-- The checks of classes 1 and 2 on a leaf, in the order of Table 17-4 from reason 3 of class 1 on. -/
def leafMemory (m : MemSys) (va : DWord) (k : AKind) (l : Leaf) : Except FInfo Unit :=
  let pa := ptePa l.pte
  if pteBit l.pte 8 && !chunksCover m pa l.size then .error (xFault 1 3 va k 0)
  else if !inOneMemory m pa l.size then .error (xFault 1 4 va k 0)
  else .ok ()

def leafPermission (m : MemSys) (w : Who) (va : DWord) (k : AKind) (l : Leaf) : Except FInfo Unit :=
  let need (r : Bool) (bit reason : Nat) (next : Except FInfo Unit) : Except FInfo Unit :=
    if r && !pteBit l.pte bit then .error (xFault 2 reason va k 0) else next
  need (k == .read || k == .atomic) 2 0 <|
  need k.writes 3 1 <|
  need (k == .fetch) 4 2 <|
    if !w.priv && !pteBit l.pte 5 then .error (xFault 2 3 va k 0)
    else
      let ks := Map.get KeySlot.empty m.keys (pteKey l.pte)
      if ks.loaded && ks.owner == some w.part then .ok () else .error (xFault 2 4 va k 0)

/-- The entry a walk reads: a cached copy of a table entry may serve instead of memory (R296), one choice for all the walks
of an act (R295). -/
def walkEntry (s : State) (w : Who) (va : Nat) (a : Nat) : DWord :=
  let cur := physRead64 s a
  match s.mem.tabs.find? (fun t => t.die == w.die && t.part == w.part && t.addr == a
      && decide (t.base ≤ va ∧ va < t.base + t.size)) with
  | none => cur
  | some t => if t.pte != cur && Config.stale s.acts a then t.pte else cur

/-- Remember a table entry, the newest first, within the size of its die's cache. -/
def cacheTable (s : State) (w : Who) (a base size : Nat) (e : DWord) : State :=
  let t : TabE := ⟨w.die, w.part, a, base, size, e⟩
  let own := s.mem.tabs.filter (fun x => x.die == w.die && !(x.part == w.part && x.addr == a))
  { s with mem := { s.mem with tabs := (t :: own).take Config.tableCacheSize ++ s.mem.tabs.filter (fun x => x.die != w.die) } }

/-- The address of the entry that a level reads for an address. -/
def entryAddr (tbl v lv sh : Nat) : Nat := tbl + 8 * (if lv = 0 then v / 2 ^ 48 % 16 else v / 2 ^ sh % 512)

/-- Whether an entry names a table, and has no bit that a table entry may not have. -/
def isTable (lv : Nat) (e : DWord) : Bool := lv != 4 && decide (e.toNat / 2 ^ 52 = 0 ∧ e.toNat % 2 ^ 12 = 3)

/-- The walk (R292): one entry a level, root first, to the first leaf or failure. An entry's line that a die must give up first is
waited for (R344). -/
def walkFrom (s : State) (w : Who) (va : DWord) (k : AKind) (tbl : Nat) : List (Nat × Nat) → Except FInfo Leaf × State
  | [] => (.error (xFault 1 2 va k 0), s)
  | (lv, sh) :: rest =>
    let v := va.toNat
    let a := entryAddr tbl v lv sh
    let e := walkEntry s w v a
    if withdrawn s.mem a then (.error (faultOf 14 3 (BitVec.ofNat 64 a) 0), s)
    else match silentDie s w.core (lineOf a) false with
    | some d => (.error (waitInfo d), wakeDie s d)
    | none =>
    if !pteBit e 0 then (.error (xFault 1 1 va k lv), s)
    else if pteBit e 1 then
      if !isTable lv e then (.error (xFault 1 2 va k 0), s)
      else walkFrom (cacheTable s w a (v / 2 ^ sh * 2 ^ sh) (2 ^ sh) e) w va k (ptePa e) rest
    else
      match leafSize lv (pteSize e) with
      | none => (.error (xFault 1 2 va k 0), s)
      | some n =>
        if pteBit e 52 || ptePa e % n ≠ 0 || (pteBit e 3 && !pteBit e 2) then (.error (xFault 1 2 va k 0), s)
        else (.ok ⟨v / n * n, n, e, a⟩, s)

/-- A fresh walk with every check of Table 17-4. -/
def walk (s : State) (w : Who) (va : DWord) (k : AKind) : Except FInfo Leaf × State :=
  let root := (partOf s w.part).ptRoot
  if !pteBit root 0 || va.toNat / 2 ^ 52 ≠ 0 then (.error (xFault 1 0 va k 0), s)
  else
    match walkFrom s w va k (root.toNat / 2 ^ 7 % 2 ^ 45 * 2 ^ 7) walkLevels with
    | (.error f, s) => (.error f, s)
    | (.ok l, s) =>
      match leafMemory s.mem va k l with
      | .error f => (.error f, s)
      | .ok _ =>
        match leafPermission s.mem w va k l with
        | .error f => (.error f, s)
        | .ok _ => (.ok l, s)

/-- The partition one of whose held writes, now landing, changes a page-table entry's line: the entry's update follows it. -/
def landingOn (s : State) (a : Nat) : Option Nat :=
  (s.parts.find? (fun e => e.2.migSt == .landing && e.2.held.any (fun h =>
    [h.loc, moveTo s e.1 true h.loc, moveTo s e.1 false h.loc].any (fun l => match l with
      | .phys b _ _ => inRun e.2 b && lineOf b == lineOf a
      | .scr _ _ => false)))).map (·.1)

/-- The partition whose migration holds up the update of an entry: by its lock, or by a held write that lands before it. -/
def entryLock (s : State) (a : Nat) : Option Nat := (lockOf s a).or (landingOn s a)

/-- Set AC, and DT for a write, in the leaf by compare-and-swap at the home (R293). While a migration or a die's answer (R344) holds
that up, the access waits. -/
def markLeaf (s : State) (w : Who) (k : AKind) (l : Leaf) : Except FInfo Leaf × State :=
  let e := l.pte ||| 0x40 ||| (if k.writes then 0x80 else 0)
  if e = l.pte then (.ok l, s)
  else match entryLock s l.pteAddr with
    | some p => (.error (waitLock p), s)
    | none => match silentDie s w.core (lineOf l.pteAddr) true with
      | some d => (.error (waitInfo d), wakeDie s d)
      | none => (.ok { l with pte := e }, physPoke s l.pteAddr (leBytes 8 e.toNat))

/-- The set of a die's TLB in which a page of a base and size stands: its page number modulo 1,024 (log 74). -/
def tlbSet (base size : Nat) : Nat := base / size % (Config.dieTlbSize / 8)

/-- Fill the caches of the walker's core and die, or of the Dome die's agents (R295): newest first, a die's in sets of 8. -/
def cacheLeaf (s : State) (w : Who) (k : AKind) (l : Leaf) : State :=
  let put (home cap : Nat) (same : TlbE → Bool) (t : List TlbE) : List TlbE :=
    let e : TlbE := ⟨home, w.part, l.base, l.size, l.pte, l.pteAddr, k.writes || pteBit l.pte 7⟩
    let mine (x : TlbE) : Bool := x.home == home && same x
    let set := t.filter (fun x => mine x && !(x.part == w.part && x.base == l.base))
    (e :: set).take cap ++ t.filter (fun x => !mine x)
  let t := match w.core with
    | some c => put c Config.coreTlbSize (fun _ => true)
        (put (512 + c / 64) 8 (fun x => tlbSet x.base x.size == tlbSet l.base l.size) s.mem.tlb)
    | none => put w.home Config.domeTlbSize (fun _ => true) s.mem.tlb
  { s with mem := { s.mem with tlb := t } }

/-- The cached translation of one TLB. -/
def tlbAt (s : State) (home part va : Nat) : Option TlbE :=
  s.mem.tlb.find? (fun t => t.home == home && t.part == part && decide (t.base ≤ va ∧ va < t.base + t.size))

/-- A cached translation that may serve an access: the core's own, or its die's. -/
def tlbHit (s : State) (w : Who) (va : Nat) : Option TlbE :=
  match tlbAt s w.home w.part va with
  | some t => some t
  | none => if w.core.isSome then tlbAt s (512 + w.die) w.part va else none

/-- The range that the entry at which a walk of an address ends maps, as base and size: a leaf's page, or all that an entry that
leads no further covers. -/
def spanFrom (s : State) (w : Who) (v tbl : Nat) : List (Nat × Nat) → Nat × Nat
  | [] => (v / 4096 * 4096, 4096)
  | (lv, sh) :: rest =>
    let e := walkEntry s w v (entryAddr tbl v lv sh)
    if pteBit e 0 && pteBit e 1 && isTable lv e then spanFrom s w v (ptePa e) rest
    else
      let n := if pteBit e 0 && !pteBit e 1 then (leafSize lv (pteSize e)).getD (2 ^ sh) else 2 ^ sh
      (v / n * n, n)

/-- The page of an address for which no walk gives a leaf that serves it (R295): all addresses in it share the entry. -/
def walkSpan (s : State) (w : Who) (va : DWord) : Nat × Nat :=
  let root := (partOf s w.part).ptRoot
  if !pteBit root 0 || va.toNat / 2 ^ 52 ≠ 0 then (va.toNat / 4096 * 4096, 4096)
  else spanFrom s w va.toNat (root.toNat / 2 ^ 7 % 2 ^ 45 * 2 ^ 7) walkLevels

/-- The failed walk of the running act that an access shares: to the same page, of the same kind and mode (R295). -/
def sharedWalk (s : State) (w : Who) (va : DWord) (k : AKind) : Option WalkE :=
  s.mem.walks.find? (fun e => e.act == s.acts && e.die == w.die && e.part == w.part
    && decide (e.base ≤ va.toNat ∧ va.toNat < e.base + e.size) && e.kind == k && e.priv == w.priv)

/-- Remember a failed walk while its act runs; one that waits has not failed. -/
def noteWalk (s : State) (w : Who) (va : DWord) (k : AKind) (f : FInfo) : State :=
  if f.waits then s
  else
    let sp := walkSpan s w va
    { s with mem := { s.mem with walks :=
        ⟨s.acts, w.die, w.part, sp.1, sp.2, k, w.priv, f⟩ :: s.mem.walks.filter (fun e => e.act == s.acts) } }

/-- A translation through a fresh walk: AC and DT are set, the caches filled. Accesses of one act to one page share a walk that
fails, and so its cause and reason (R295). -/
def walkAndMark (s : State) (w : Who) (va : DWord) (k : AKind) : Except FInfo Leaf × State :=
  match sharedWalk s w va k with
  | some e => (.error { e.fault with arg0 := if e.fault.cause = 14 then e.fault.arg0 else va }, s)
  | none => match walk s w va k with
    | (.error f, s) => (.error f, noteWalk s w va k f)
    | (.ok l, s) =>
      match markLeaf s w k l with
      | (.error f, s) => (.error f, s)
      | (.ok l, s) => (.ok l, cacheLeaf s w k l)

/-- Whether a cached leaf serves an access: it does where a fresh walk gives the same leaf; where it gives another, or none,
either may be used (R296), one choice for a page in an act; and where a fresh walk must wait. -/
def useCached (s : State) (w : Who) (va : DWord) (k : AKind) (l : Leaf) : Bool :=
  match (walk s w va k).1 with
  | .ok x => x == l || Config.stale s.acts l.base
  | .error f => f.waits || Config.stale s.acts l.base

/-- Translate an address (R292-R297): a cached leaf that differs from memory's may be used or not; a write through a
leaf whose DT is not known set sets it at the home, and walks anew when the entry has changed. -/
def translateLeaf (s : State) (w : Who) (va : DWord) (k : AKind) : Except FInfo Leaf × State :=
  match tlbHit s w va.toNat with
  | none => walkAndMark s w va k
  | some t =>
    let l : Leaf := ⟨t.base, t.size, t.pte, t.pteAddr⟩
    if !useCached s w va k l then walkAndMark s w va k
    else
      match leafPermission s.mem w va k l with
      | .error f => (.error f, s)
      | .ok _ =>
        if k.writes && !t.dt then
          if physRead64 s t.pteAddr = t.pte then
            match markLeaf s w k l with
            | (.error f, s) => (.error f, s)
            | (.ok l, s) => (.ok l, cacheLeaf s w k l)
          else walkAndMark s w va k
        else (.ok l, s)

/-- The location of a virtual address; a page whose frame has been withdrawn is lost data (R322). -/
def translate (s : State) (w : Who) (va : DWord) (k : AKind) : Except FInfo Loc × State :=
  match translateLeaf s w va k with
  | (.error f, s) => (.error f, s)
  | (.ok l, s) =>
    let pa := ptePa l.pte + (va.toNat - l.base)
    if withdrawn s.mem pa || frameLost s.mem (ptePa l.pte) l.size then (.error (faultOf 14 3 (BitVec.ofNat 64 pa) 0), s)
    else (.ok (.phys pa (pteKey l.pte) (pteBit l.pte 8)), s)

/-- A state in which every die answers at once: for a look at memory that is no access (log 107). -/
def allAnswer (s : State) : State := { s with pkg := { s.pkg with dies := [] } }

/-- What a walk would give now, whichever die would have to answer first. -/
def walkNow (s : State) (w : Who) (va : DWord) (k : AKind) : Except FInfo Leaf := (walk (allAnswer s) w va k).1

/-- A translation that waits for no die (log 107). -/
def translateNow (s : State) (w : Who) (va : DWord) (k : AKind) : Except FInfo Loc × State :=
  let (r, t) := translate (allAnswer s) w va k
  (r, { t with pkg := { t.pkg with dies := s.pkg.dies } })

/-- The location of an address for a footprint walk: no cache is filled, neither AC nor DT set (R115). A
walk that fails on permission or key gives none as well (DESIGN CHOICE, log 99). -/
def peekTranslate (s : State) (w : Who) (va : DWord) (k : AKind) : Option Loc :=
  match walkNow { s with mem := { s.mem with tabs := [] } } w va k with
  | .error _ => none
  | .ok l => some (.phys (ptePa l.pte + (va.toNat - l.base)) (pteKey l.pte) (pteBit l.pte 8))

/-- An access of an agent without a thread: translated, held while a die that must answer its snoop does not (R344), and seen
by the caches under an eviction class. `plain` says that a read may combine: a core's own do, an agent's do not. -/
def reach (s : State) (w : Who) (va : DWord) (k : AKind) (plain : Bool := w.core.isSome) (evc : Nat := 2) :
    Except FInfo Loc × State :=
  match translate s w va k with
  | (.error f, s) => (.error f, s)
  | (.ok l, s) =>
    let line := match l with
      | .phys a _ _ => lineOf a
      | .scr _ _ => 0
    match silentDie s w.core line k.writes with
    | some d => (.error (waitInfo d), wakeDie s d)
    | none => (.ok l, cacheAcc s w.core evc plain l k.writes)

end Sys2Proof.Machine
end

