-- ==== Sys2Proof/Machine/Thread.lean ====
section
/-! DEFINITION. Accessors of threads and of the tables they stand in: registers and frames (R39, R56, R68),
predicates and guards (R16, R28), keys, places (Table 2-2), launches, modes. -/

namespace Sys2Proof.Machine

/-! ## Registers -/

/-- Register r of a thread: frame C from the split upward while it is mapped (R39). -/
def getReg (t : Thread) (r : Nat) : Reg :=
  match t.frame with
  | some (sp, b) => if sp ≤ r then Map.get Reg.zero t.cregs (r - b) else Map.get Reg.zero t.regs r
  | none => Map.get Reg.zero t.regs r

/-- Where a register's storage stands in `Thread.bad`: slot i of frame C at 256 + i. -/
def storageOf (t : Thread) (r : Nat) : Nat :=
  match t.frame with
  | some (sp, b) => if sp ≤ r then 256 + (r - b) else r
  | none => r

/-- Write register r: what is written is good again (R321). -/
def setReg (t : Thread) (r : Nat) (v : Reg) : Thread :=
  let t := if t.bad.isEmpty then t else { t with bad := t.bad.filter (fun i => i != storageOf t r) }
  match t.frame with
  | some (sp, b) =>
    if sp ≤ r then { t with cregs := Map.putD Reg.zero t.cregs (r - b) v }
    else { t with regs := Map.putD Reg.zero t.regs r v }
  | none => { t with regs := Map.putD Reg.zero t.regs r v }

/-- Write registers one after another. -/
def setRegs (t : Thread) (l : List (Nat × Reg)) : Thread := l.foldl (fun t w => setReg t w.1 w.2) t

/-- A way to read registers: a thread's, or an access slice's. -/
abbrev RegFile := Nat → Reg

def rdVal (f : RegFile) (r : VReg) : Word := (f r.toNat).val
def rdBnd (f : RegFile) (r : VReg) : BitVec 16 := (f r.toNat).shadow

/-- The 64-bit value of a pair, or the 32-bit value zero-extended (R47, R148). -/
def rdTy (f : RegFile) (wide : Bool) (r : VReg) : DWord :=
  if wide then pairWord (f r.toNat).val (f (r.toNat + 1)).val else (f r.toNat).val.setWidth 64

/-- The writes of a value with its bound: a pair's odd shadow is zero (R68). -/
def wrTy (wide : Bool) (r : VReg) (v : DWord) (b : BitVec 16) : List (Nat × Reg) :=
  if wide then [(r.toNat, ⟨loWord v, b⟩), (r.toNat + 1, ⟨hiWord v, 0⟩)] else [(r.toNat, ⟨loWord v, b⟩)]

def tWord (t : Thread) (r : VReg) : Word := rdVal (getReg t) r
def tBnd (t : Thread) (r : VReg) : BitVec 16 := rdBnd (getReg t) r
def tPair (t : Thread) (r : VReg) : DWord := rdTy (getReg t) true r
def tVal (t : Thread) (wide : Bool) (r : VReg) : DWord := rdTy (getReg t) wide r

/-- A thread with a register written, its shadow zero. -/
def tSet (t : Thread) (r : VReg) (v : Word) : Thread := setReg t r.toNat ⟨v, 0⟩

def orFlags (t : Thread) (f : Byte) : Thread := { t with flags := t.flags ||| f }

/-! ## Predicates and guards -/

/-- p7 reads 1. -/
def getPred (t : Thread) (p : BitVec 3) : Bool := p == 7 || t.preds.getLsbD p.toNat

/-- p7 discards. -/
def setPred (t : Thread) (p : BitVec 3) (b : Bool) : Thread :=
  if p = 7 then t
  else
    let m : BitVec 7 := 1#7 <<< p.toNat
    { t with preds := if b then t.preds ||| m else t.preds &&& ~~~m }

def guardHolds (t : Thread) (g : Guard) : Bool := getPred t g.p != g.neg

/-! ## Keys and places -/

def warpKeyOf (t : Thread) : Nat := t.cgu * 1024 + (t.k * 4 + t.j) * 32 + t.w
def quadKeyOf (t : Thread) : Nat := t.cgu * 32 + t.k * 4 + t.j
def coreKeyOf (t : Thread) : Nat := t.cgu * 8 + t.k
def threadKey (cgu tid : Nat) : Nat := cgu * 32768 + tid
def launchKey (part serial : Nat) : Nat := part * 2 ^ 48 + serial

/-- Order of global thread identifiers (R23). -/
def gtidLe (a b : Thread) : Bool :=
  decide (a.serial < b.serial) || (a.serial == b.serial && (decide (a.cg < b.cg) || (a.cg == b.cg && decide (a.tid ≤ b.tid))))

def getThread (s : State) (k : Nat) : Option Thread := Map.get? s.threads k
def setThread (s : State) (k : Nat) (t : Thread) : State := { s with threads := Map.put s.threads k t }
def modThread (s : State) (k : Nat) (f : Thread → Thread) : State := { s with threads := Map.adjust s.threads k f }

def warpOf (s : State) (t : Thread) : Option Warp := Map.get? s.warps (warpKeyOf t)
def modWarp (s : State) (k : Nat) (f : Warp → Warp) : State := { s with warps := Map.adjust s.warps k f }

/-- The core of a core group, %core. -/
def coreOf (s : State) (t : Thread) : Nat := match Map.get? s.coreGroups (coreKeyOf t) with
  | some c => c.core
  | none => 0

def quadOf (s : State) (t : Thread) : Nat := match Map.get? s.quadGroups (quadKeyOf t) with
  | some q => q.quad
  | none => 0

def slotOf (s : State) (t : Thread) : Nat := match warpOf s t with
  | some w => w.slot
  | none => 0

def cgPart (s : State) (cgu : Nat) : Nat := match Map.get? s.clusterGroups cgu with
  | some g => g.part
  | none => 0

def threadPart (s : State) (t : Thread) : Nat := cgPart s t.cgu

/-- The launch of a cluster group. -/
def cgLaunch (s : State) (cgu : Nat) : Option Launch :=
  (Map.get? s.clusterGroups cgu).bind (fun g => Map.get? s.launches (launchKey g.part g.serial))

def threadLaunch (s : State) (t : Thread) : Option Launch := cgLaunch s t.cgu

def whoOf (s : State) (t : Thread) : Who := ⟨threadPart s t, some (coreOf s t), t.priv⟩

/-- The threads of a warp, by lane. -/
def warpThreads (s : State) (w : Nat) : List (Nat × Thread) := s.threads.filter (fun e => warpKeyOf e.2 == w)

def laneBit (l : Nat) : Word := 1#32 <<< l

/-- Frame-C base b = N − (ALLOC − N) (R39). -/
def frameBase (s : State) (t : Thread) : Nat := match threadLaunch s t with
  | some l => t.n - (l.r.alloc - t.n)
  | none => t.n

def allocOf (s : State) (t : Thread) : Alloc := ⟨t.n, frameBase s t⟩

/-! ## Clause passes -/

def slotPc (p : Pass) : DWord := p.hdr + 8 + 8 * BitVec.ofNat 64 p.slot
def nextHdr (p : Pass) : DWord := p.hdr + 8 + 8 * BitVec.ofNat 64 p.words.length

/-- A thread inside a fragment, or in a handler without one: it counts as parked (R305). -/
def inFragment (t : Thread) : Bool := t.st == .parked || t.hand != .none || t.st == .stopped

/-- Whether a thread can be drawn into a group at clause entry. -/
def canEnter (s : State) (t : Thread) : Bool :=
  t.st == .entry && t.pass.isNone && t.stop == .running
    && (match warpOf s t with | some w => !w.saved | none => true)

end Sys2Proof.Machine
end

