-- ==== Sys2Proof/Machine/Ops.lean ====
section
/-! DEFINITION. The shared operations: events (R314), issue groups (R26-R28), generator switching (R39-R42), masks
(R29-R31, R220), group barriers (R36, R218), exit (R38, R232), TAKING AN EXCEPTION (`raise`, R32-R35, R304-R312) and the
returns from one (`resumeMembers`, R309, R325), and the lane loops every meaning runs in. -/

namespace Sys2Proof.Machine

/-! ## Events (Table 18-6) -/

def eventWord (src : Word) (reason cause kind : Nat) : DWord :=
  BitVec.ofNat 64 (src.toNat * 2 ^ 32 + reason * 2 ^ 12 + cause * 2 ^ 8 + kind)

/-- SRC of the Dome die's agents. -/
def domeSrc (p : Nat) : Word := BitVec.ofNat 32 (0xFFFF0000 + p)

/-- Append an event to a partition's queue of events to post. -/
def postEvent (s : State) (p : Nat) (src : Word) (kind cause reason : Nat) (arg0 arg1 arg2 : DWord)
    (quiet : Bool := false) : State :=
  setPart s p (fun q => { q with events := q.events ++ [⟨eventWord src reason cause kind, arg0, arg1, arg2, quiet⟩] })

def d64 (n : Nat) : DWord := BitVec.ofNat 64 n
def w32 (n : Nat) : Word := BitVec.ofNat 32 n

/-! ## Issue groups -/

def getGroup (s : State) (g : Nat) : Option Group := Map.get? s.groups g
def modGroup (s : State) (g : Nat) (f : Group → Group) : State := { s with groups := Map.adjust s.groups g f }

/-- The group whose instruction runs. -/
def curGroup (s : State) : Option (Nat × Group) :=
  match s.cur with
  | .group g => (getGroup s g).map (fun x => (g, x))
  | _ => none

/-- Insert by a lane number. -/
def insByLane (lane : Nat → Nat) (k : Nat) : List Nat → List Nat
  | [] => [k]
  | a :: r => if lane k < lane a then k :: a :: r else a :: insByLane lane k r

def laneOf (s : State) (k : Nat) : Nat := match getThread s k with
  | some t => t.lane
  | none => 0

/-- A thread at a clause entry. -/
def toEntry (pc : DWord) (t : Thread) : Thread := { t with st := .entry, pc := pc, pass := none }

/-- Form a group of threads that stand at one slot of one pass. -/
def formGroup (s : State) (ks : List Nat) (p : Pass) (hold : Hold) : State :=
  match ks.head?.bind (getThread s) with
  | none => s
  | some t0 =>
    let gid := s.nextId
    let ms := ks.foldl (fun l k => insByLane (laneOf s) k l) []
    let g : Group := ⟨coreOf s t0, quadOf s t0, ms, p, [], hold⟩
    let s := { s with nextId := gid + 1, groups := Map.put s.groups gid g }
    ks.foldl (fun s k => modThread s k (fun t => { t with st := .grouped gid, pass := none })) s

/-- Collect threads by equal team and pass, in order. -/
def addPass (k : Nat) (p : Nat × Pass) : List ((Nat × Pass) × List Nat) → List ((Nat × Pass) × List Nat)
  | [] => [(p, [k])]
  | (q, ks) :: r => if q = p then (q, ks ++ [k]) :: r else (q, ks) :: addPass k p r

/-- Let threads continue their passes: those of one team at one point form one group; past the last slot they stand at the
next header, and a pass without words is entered afresh (R28). A group resumed at slot 0 is not held by the header's WAIT
again: WAIT is a condition of clause entry (R141; DESIGN CHOICE, log 75). -/
def regroupTeams (s : State) (l : List (Nat × Nat × Pass)) (hold : Hold := .none) : State :=
  (l.foldl (fun a e => addPass e.1 e.2 a) []).foldl (fun s e =>
    let p := e.1.2
    if p.words.isEmpty then e.2.foldl (fun s k => modThread s k (toEntry p.hdr)) s
    else if p.slot < p.words.length then formGroup s e.2 p hold
    else e.2.foldl (fun s k => modThread s k (toEntry (nextHdr p))) s) s

/-- Threads that no team keeps apart: one group for each distinct point (R30, R34). -/
def regroup (s : State) (l : List (Nat × Pass)) (hold : Hold := .none) : State :=
  regroupTeams s (l.map (fun e => (e.1, 0, e.2))) hold

/-- Take threads out of a group; an empty group goes. -/
def dropMembers (s : State) (gid : Nat) (ks : List Nat) : State :=
  match getGroup s gid with
  | none => s
  | some g =>
    let ms := g.members.filter (fun k => !ks.contains k)
    if ms.isEmpty then { s with groups := Map.erase s.groups gid }
    else { s with groups := Map.put s.groups gid { g with members := ms, waits := g.waits.filter (fun w => !ks.contains w.1) } }

/-- Take a thread out of the group it stands in. -/
def leaveGroup (s : State) (k : Nat) : State :=
  match getThread s k with
  | some t => match t.st with
    | .grouped g => dropMembers s g [k]
    | _ => s
  | none => s

/-! ## Generator switching (R39-R42) -/

/-- Whether a producer is blocked in YLD. -/
def atYld (s : State) (t : Thread) : Bool :=
  match t.st with
  | .grouped g => match getGroup s g with
    | some x => x.hold == .yld
    | none => false
  | _ => false

def bitOf (w : Word) (i : Nat) : Bool := w.getLsbD i

/-- The threads of a warp that are in its region. -/
def genThreads (s : State) (wk : Nat) (r : Region) : List (Nat × Thread) :=
  (warpThreads s wk).filter (fun e => !bitOf r.out e.2.lane)

/-- Begin a consumer pass (R42): every thread's stopping point is kept. -/
def genStart (s : State) (wk : Nat) (r : Region) : State :=
  let ts := genThreads s wk r
  let lanes := (ts.map (fun e => e.2.lane)).take (min r.buf.length ts.length)
  let s := ts.foldl (fun s e =>
    let pass := match e.2.st with
      | .grouped g => (getGroup s g).map (fun x => x.pass)
      | _ => e.2.pass
    let s := leaveGroup s e.1
    modThread s e.1 (fun t =>
      let t := { t with prod := some (t.st, t.pc, pass) }
      if lanes.contains t.lane then { toEntry r.cons t with frame := some (r.split, r.base) }
      else { t with st := .genWait, pass := none })) s
  modWarp s wk (fun w => { w with gen := some { r with pass := some ⟨lanes, 0, 0⟩ } })

/-- Return every thread to its producer's stopping point, in frame P; those blocked in YLD in the groups they had (R28). -/
def genRestore (s : State) (wk : Nat) : State :=
  let ts := warpThreads s wk
  let s := ts.foldl (fun s e => modThread s e.1 (fun t =>
    match t.prod with
    | some (st, pc, pass) => { t with st := st, pc := pc, pass := pass, prod := none, frame := none }
    | none => { t with frame := none })) s
  let back := ts.filterMap (fun e => match e.2.prod with
    | some (.grouped g, _, some p) => some (e.1, g, p)
    | _ => none)
  regroupTeams s back .yld

/-- End the region: every thread continues at the clause after the GEN's (R42). -/
def genEnd (s : State) (wk : Nat) (r : Region) : State :=
  let s := (genThreads s wk r).foldl (fun s e => modThread s e.1 (fun t => { toEntry r.next t with frame := none, prod := none })) s
  modWarp s wk (fun w => { w with gen := none })

/-- The choice of R41 while no pass runs. -/
def genChoose (s : State) (wk : Nat) : State :=
  match (Map.get? s.warps wk).bind (fun w => w.gen) with
  | none => s
  | some r =>
    let ts := (genThreads s wk r).map (·.2)
    let done (t : Thread) : Bool := bitOf r.fin t.lane
    if r.pass.isSome || (warpThreads s wk).any (fun e => inFragment e.2) then s
    else if ts.isEmpty then modWarp s wk (fun w => { w with gen := none })
    else if !ts.all (fun t => done t || atYld s t || (t.st == .entry && t.pass.isNone)) then s
    else if decide (r.thr ≤ r.buf.length) || (!r.buf.isEmpty && ts.all (fun t => done t || atYld s t)) then genStart s wk r
    else if r.buf.isEmpty && ts.all done then genEnd s wk r
    else s

/-- Consider a switch: a finished pass frees its entries first (R42). -/
def genCheck (s : State) (wk : Nat) : State :=
  match (Map.get? s.warps wk).bind (fun w => w.gen) with
  | none => s
  | some r =>
    match r.pass with
    | none => genChoose s wk
    | some p =>
      let ts := (warpThreads s wk).map (·.2)
      let ended := p.lanes.all (fun l => bitOf p.fin l || !ts.any (fun t => t.lane == l))
      if ended then
        let s := modWarp s wk (fun w => { w with gen := some { r with pass := none, buf := r.buf.drop p.lanes.length } })
        genChoose (genRestore s wk) wk
      else s

def genChecks (s : State) (ks : List Nat) : State :=
  (((ks.filterMap (getThread s)).map warpKeyOf).eraseDups).foldl genCheck s

/-! ## Moving a group on -/

/-- Whether what a lane waits for has come (R28, R46). A CWAIT is judged at its own evaluations (R216). -/
def waitOver (s : State) (k : Nat) (w : Wait) : Bool :=
  match w with
  | .bar cgu b ph => match Map.get? s.clusterGroups cgu with
    | some g => match Map.get? g.bars b with
      | some x => decide (ph ≤ x.phase)
      | none => false
    | none => true
  | .locked => s.parts.all (fun e => e.2.held.all (fun h => h.thread != k))
  | .cobj _ _ _ => false
  | .halt p old _ => (partOf s p).evqTail != old || !(partOf s p).evqCfg.getLsbD 31
  | .save wk _ => !s.threads.any (fun e => warpKeyOf e.2 == wk)

/-- Whether a lane of the running group reads lost data with its instruction, so that it faults at the slot (R32, R321). -/
def isLost (s : State) (k : Nat) : Bool := s.lost.any (fun e => e.1 == k)

/-- The last slot has completed without a transfer: every member stands at the next header (R140); one that is to fault at the
slot counts as parked meanwhile. -/
def closeGroup (s : State) (gid : Nat) : State :=
  match getGroup s gid with
  | none => s
  | some g =>
    let s := { s with groups := Map.erase s.groups gid }
    let s := g.members.foldl (fun s k => modThread s k (fun t =>
      if isLost s k then { t with st := .parked } else toEntry (nextHdr g.pass) t)) s
    genChecks s g.members

/-- The group goes on to the next slot; it closes after the last one when no lane waits. -/
def advance (s : State) (gid : Nat) : State :=
  match getGroup s gid with
  | none => s
  | some g =>
    let g := { g with pass := { g.pass with slot := g.pass.slot + 1 }, hold := .none }
    let s := { s with groups := Map.put s.groups gid g }
    if g.pass.slot < g.pass.words.length || !g.waits.isEmpty then s else closeGroup s gid

def addWait (s : State) (gid k : Nat) (w : Wait) : State :=
  modGroup s gid (fun g => { g with waits := g.waits ++ [(k, w)] })

def setHold (s : State) (gid : Nat) (h : Hold) : State := modGroup s gid (fun g => { g with hold := h })

/-! ## Masks (R29-R31, R219, R220) -/

def getMask (w : Warp) (m : Nat) : Word := Map.get 0 w.masks m
def setMask (m : Nat) (v : Word) (w : Warp) : Warp := { w with masks := Map.putD 0 w.masks m v }

/-- Whether a thread has arrived at an MWAIT on a mask: it waits there, or has been parked in it (R31). -/
def arrivedAt (m : Nat) (t : Thread) : Bool := t.st == .mwait m || (t.st == .parked && t.mw == some m)

/-- Let the threads that wait on a mask leave when every thread whose bit is set has arrived (R30, R220); one parked in its
MWAIT has then left it where it stands. -/
def mwaitCheck (s : State) (wk m : Nat) : State :=
  match Map.get? s.warps wk with
  | none => s
  | some w =>
    let ts := warpThreads s wk
    let arr := ts.filter (fun e => e.2.st == .mwait m)
    let need := ts.filter (fun e => bitOf (getMask w m) e.2.lane)
    if !ts.any (fun e => arrivedAt m e.2) || !need.all (fun e => arrivedAt m e.2) then s
    else
      let s := (ts.filter (fun e => arrivedAt m e.2)).foldl (fun s e => modThread s e.1 (fun t => { t with mw := none })) s
      let out := arr.filterMap (fun e => e.2.pass.map (fun p => (e.1, { p with slot := p.slot + 1 })))
      let beside := (ts.filter (fun e => e.2.st == .mheld m)).filterMap (fun e => e.2.pass.map (fun p =>
        (e.1, { p with slot := p.slot + 1 })))
      let s := regroup s (out ++ beside.filter (fun e => out.any (fun o => o.2 == e.2)))
      genCheck s wk

/-- Re-evaluate the waits of a warp. -/
def mwaitChecks (s : State) (wk : Nat) : State := (List.range 12).foldl (fun s m => mwaitCheck s wk m) s

/-! ## Group barriers (R36, R218) -/

/-- A barrier that nothing has used: the expected count is the group's thread count. -/
def barNew (n : Nat) : Bar := ⟨n, 0, 0, [], 0, 0, [], 0, 0⟩

def barFull (b : Bar) : Bool := b.expected != 0 && decide (b.expected ≤ b.arrived)

/-- The phase flips: pending adjustments apply, and the second arrivals of R218 come due. -/
def barFlip (b : Bar) : Bar :=
  { b with phase := b.phase + 1, arrived := 0, who := [], drop := 0, join := 0, later := [], away := b.going,
           expected := min (b.expected + b.join - b.drop) (2 ^ 32 - 1) }

/-- Arrivals one at a time; those of a thread that has arrived wait for the flip. `fuel` bounds the flips. A paired group's
barrier keeps one count over both dies: how its phases on the dies divide it is not said (DESIGN CHOICE, log 95). -/
def barRun : Nat → Bar → List (Nat × Arr) → Bar
  | 0, b, _ => b
  | n + 1, b, todo =>
    match todo with
    | [] => b
    | (k, a) :: r =>
      if b.who.contains k then barRun n { b with later := b.later ++ [(k, a)] } r
      else
        let b := { b with arrived := b.arrived + 1, who := b.who ++ [k], drop := if a == .gdrop then b.drop + 1 else b.drop }
        if barFull b then barRun n (barFlip b) (b.later ++ r) else barRun n b r

def barFuel (b : Bar) (n : Nat) : Nat := (b.later.length + n + 1) * (b.later.length + n + 1)

def barArrive (b : Bar) (todo : List (Nat × Arr)) : Bar := barRun (barFuel b todo.length) b todo

/-- GJOIN for n threads: from the next phase, or at once while the expected count is 0. -/
def barJoin (b : Bar) (n : Nat) : Bar :=
  if b.expected = 0 then
    let b := { b with expected := min n (2 ^ 32 - 1) }
    if barFull b then barRun (barFuel b 0) (barFlip b) b.later else b
  else { b with join := b.join + n }

def cgThreads (s : State) (cgu : Nat) : Nat := match cgLaunch s cgu with
  | some l => l.r.c * l.r.q * l.r.t
  | none => 0

def getBar (s : State) (cgu b : Nat) : Bar := match Map.get? s.clusterGroups cgu with
  | some g => (Map.get? g.bars b).getD (barNew (cgThreads s cgu))
  | none => barNew 0

def setBar (s : State) (cgu b : Nat) (x : Bar) : State :=
  { s with clusterGroups := Map.adjust s.clusterGroups cgu (fun g => { g with bars := Map.put g.bars b x }) }

/-- The phase whose coming releases a GBAR, or a second GARR or GDROP, of a thread; none where it does not wait. -/
def barTarget (b : Bar) (k : Nat) (a : Arr) : Option Nat :=
  match a, b.who.contains k with
  | .gbar, false => some (b.phase + 1)
  | .gbar, true => some (b.phase + 2)
  | _, true => some (b.phase + 1)
  | _, false => none

/-- An exit's arrival and drop at one barrier (R38); `left` has the core group's bit when its last thread goes. An arrival of
the thread that waits for the flip (R218) stays, and counts in the next phase (DESIGN CHOICE, log 96). -/
def barExit (b0 : Bar) (k : Nat) (left : Byte) : Bar :=
  let b := { b0 with going := b0.going ||| left }
  if b.who.contains k then { b with drop := b.drop + 1 } else barArrive b [(k, .gdrop)]

/-- A release of a barrier is ordered after the core groups that had left before its last flip (R37, R122, R264). -/
def learnFlip (s : State) (cgu b k : Nat) : State :=
  let m := (getBar s cgu b).away
  modThread { s with clusterGroups := Map.adjust s.clusterGroups cgu (fun g => { g with away := g.away ||| m }) } k
    (fun t => { t with away := t.away ||| m })

/-- An acquire by a thread: it is ordered after what threads of its cluster group have been ordered after (R122). -/
def learnAway (s : State) (k : Nat) : State :=
  match getThread s k with
  | none => s
  | some t => match Map.get? s.clusterGroups t.cgu with
    | none => s
    | some g => if g.away = 0 then s else modThread s k (fun t => { t with away := t.away ||| g.away })

def learnBy (o : Ord) (s : State) (k : Nat) : State := match o with
  | .acq | .ar => learnAway s k
  | _ => s

/-! ## Fragment-table entries (R307) -/

def fragKey (core e : Nat) : Nat := 64 * core + e
def fragEntry (s : State) (fk : Nat) : FEntry := Map.get FEntry.zero s.frags fk
def setFrag (s : State) (fk : Nat) (x : FEntry) : State := { s with frags := Map.put s.frags fk x }

/-- %frag (Table 2-3). -/
def fragIdOf (core e : Nat) (gen : BitVec 16) : Word :=
  BitVec.ofNat 32 (2 ^ 31 + core * 2 ^ 22 + e * 2 ^ 16 + gen.toNat)

/-- The entry an identity names. -/
def fragKeyOfId (id : Word) : Nat := fragKey (id.toNat / 2 ^ 22 % 512) (id.toNat / 2 ^ 16 % 64)

def imageAddr (s : State) (p fk : Nat) : Nat := (partOf s p).fragtab.toNat + 1024 * fk

def fstCode : FSt → Nat
  | .free => 0 | .handler => 1 | .parked => 2

/-- The word at offset 0 of the image (Table 18-3). -/
def imageWord0 (x : FEntry) : DWord :=
  d64 (x.quad * 2 ^ 54 + x.slot * 2 ^ 49 + bnum x.saved * 2 ^ 48 + bnum x.mark * 2 ^ 47 + fstCode x.st * 2 ^ 44
    + x.cause * 2 ^ 36 + x.id.toNat)

/-- Bring the image's words at 0x000 and 0x008 up to date. -/
def syncImage (s : State) (fk : Nat) : State :=
  let x := fragEntry s fk
  let a := imageAddr s x.part fk
  physWrite64 (physWrite64 s a (imageWord0 x)) (a + 8) (x.pmode ++ x.lanes)

def modFrag (s : State) (fk : Nat) (f : FEntry → FEntry) : State := syncImage (setFrag s fk (f (fragEntry s fk))) fk

/-- The lowest free entry of a core's table, if its partition has one (R307, R312). -/
def freeEntry (s : State) (p core : Nat) : Option Nat :=
  if (partOf s p).fragtab = 0 then none
  else (List.range Config.fragEntries).find? (fun e => (fragEntry s (fragKey core e)).st == .free)

/-- The member threads of an entry. -/
def fragMembers (s : State) (id : Word) : List (Nat × Thread) := s.threads.filter (fun e => e.2.frag == id)

/-- A member is no longer bound to its entry; the entry is freed with its last one (Table 18-4). -/
def leaveFrag (s : State) (id : Word) (lane : Nat) : State :=
  if id = 0 then s
  else modFrag s (fragKeyOfId id) (fun x =>
    let l := x.lanes &&& ~~~(laneBit lane)
    { x with lanes := l, st := if l = 0 then .free else x.st })

/-! ## Exit (R29, R34, R38, R65, R232) -/

/-- The last thread of a core group, and of a cluster group, has gone (R105, R264, R281). -/
def lastThread (s : State) (cgu k : Nat) : State :=
  let ck := cgu * 8 + k
  let s :=
    if s.threads.any (fun e => coreKeyOf e.2 == ck) then s
    else { s with coreGroups := Map.adjust s.coreGroups ck (fun c =>
        { c with gone := true, slines := [], smap := [] }) }
  if s.threads.any (fun e => e.2.cgu == cgu) then s
  else { s with clusterGroups := Map.adjust s.clusterGroups cgu (fun g => { g with st := .compl }) }

/-- A thread exits. -/
def exitThread (s : State) (k : Nat) : State :=
  match getThread s k with
  | none => s
  | some t =>
    let s := leaveGroup s k
    let s := leaveFrag s t.frag t.lane
    let s := { s with threads := Map.erase s.threads k }
    let left : Byte := if s.threads.any (fun e => coreKeyOf e.2 == coreKeyOf t) then 0 else 1#8 <<< t.k
    let s := (List.range 16).foldl (fun s b => setBar s t.cgu b (barExit (getBar s t.cgu b) k left)) s
    let s := modWarp s (warpKeyOf t) (fun w => (List.range 12).foldl (fun w m =>
      setMask m (getMask w m &&& ~~~(laneBit t.lane)) w) w)
    let s := { s with clusterGroups := Map.adjust s.clusterGroups t.cgu (fun g => { g with flags := g.flags ||| t.flags }) }
    let s := mwaitChecks s (warpKeyOf t)
    genCheck (lastThread s t.cgu t.k) (warpKeyOf t)

/-- Whether a held write is still to take effect: its access has not ended in a fault. -/
def Held.isLive (h : Held) : Bool := match h.due with
  | .late _ => false
  | _ => true

/-- Whether a lock holds a write of a thread that is still to take effect. -/
def threadHeld (s : State) (k : Nat) : Bool := s.parts.any (fun e => e.2.held.any (fun h => h.thread == k && h.isLive))

/-- A thread is discarded: it exits, or, while a lock holds a write of it, leaves what it stands in and exits once that has landed,
since its exit is a release of it (R36, R122, R332; DESIGN CHOICE, log 120). -/
def discardThread (s : State) (k : Nat) : State :=
  match getThread s k with
  | none => s
  | some t =>
    if threadHeld s k then
      modThread (leaveFrag (leaveGroup s k) t.frag t.lane) k (fun t =>
        { t with st := .leaving, pass := none, rpass := none, frag := 0, hand := .none })
    else exitThread s k

/-- Discarded threads whose writes have landed. -/
def leavers (s : State) : List Nat := (s.threads.filter (fun e => e.2.st == .leaving && !threadHeld s e.1)).map (·.1)

/-! ## Taking an exception -/

/-- The vector base of a cause, and whether the handler is a user handler (R304). -/
def trapBase (s : State) (t : Thread) (cause : Nat) : DWord × Bool :=
  let ub := match threadLaunch s t with
    | some l => l.r.ubase
    | none => 0
  if [4, 5, 10, 11].contains cause && ub != 0 then (ub, true)
  else ((partOf s (threadPart s t)).trapbase, false)

def vectorOf (base : DWord) (cause : Nat) : DWord := base + d64 (256 * cause)

/-- A side-buffer record (Table 18-2). -/
def sideOf (pc : DWord) (id : Word) (dbl nest prv : Bool) (f : FInfo) : SideRec :=
  ⟨pc, d64 (id.toNat * 2 ^ 32 + bnum dbl * 2 ^ 11 + bnum nest * 2 ^ 10 + bnum prv * 2 ^ 9 + 2 ^ 8 + f.reason * 2 ^ 4 + f.cause),
    f.arg0, f.arg1⟩

def putSide (s : State) (t : Thread) (r : SideRec) : State :=
  modWarp s (warpKeyOf t) (fun w => { w with side := Map.put w.side t.lane r })

/-- The return token of an identity (R305). -/
def tokenOf (id : Word) : DWord := 0xFFF0000000000000 + d64 (8 * id.toNat)

/-- The REASON that goes with the least cause: the first lane's that has it. -/
def leadReason (cause : Nat) (fs : List FInfo) : Nat := match fs.find? (fun f => f.cause == cause) with
  | some f => f.reason
  | none => 0

/-- Write a new entry's image (Table 18-3): header words, the resume point and saved lk of each member. -/
def writeImage (s : State) (fk : Nat) (rpc : DWord) (ms : List Thread) : State :=
  let x := fragEntry s fk
  let a := imageAddr s x.part fk
  let s := syncImage s fk
  let s := physWrite64 s (a + 0x10) x.fpc
  let s := (List.range 5).foldl (fun s i => physWrite64 s (a + 0x18 + 8 * i) 0) s
  let s := ms.foldl (fun s t => physWrite64 (physWrite64 s (a + 0x40 + 8 * t.lane) rpc) (a + 0x140 + 8 * t.lane) t.lk) s
  (List.range 56).foldl (fun s i => physWrite64 s (a + 0x240 + 8 * i) 0) s

/-- A fragment: an entry is allocated, the side records written, and each thread enters the vector of its own launch's base,
or parks where that base is zero; without a base for any of them the entry is parked (R32, R304-R308). `rpass` is the pass
of the resume point when that is a slot. -/
def makeFragment (s : State) (core e : Nat) (fs : List (Nat × FInfo)) (fpc rpc : DWord) (rpass : Option Pass) : State :=
  let ts := fs.filterMap (fun f => (getThread s f.1).map (fun t => (f.1, t, f.2)))
  match ts.head? with
  | none => s
  | some (_, t0, f0) =>
    let p := threadPart s t0
    let cause := ts.foldl (fun c x => min c x.2.2.cause) f0.cause
    let fk := fragKey core e
    let gen := (fragEntry s fk).gen + 1
    let id := fragIdOf core e gen
    let baseOf (t : Thread) : DWord × Bool := trapBase s t cause
    let idle := ts.all (fun y => (baseOf y.2.1).1 == 0)
    let lanes := ts.foldl (fun l x => l ||| laneBit x.2.1.lane) 0
    let pmode := ts.foldl (fun l x => if x.2.1.priv then l ||| laneBit x.2.1.lane else l) 0
    let x : FEntry := ⟨gen, if idle then .parked else .handler, false, false, cause, id, lanes, pmode, fpc,
      warpKeyOf t0, quadOf s t0, slotOf s t0, p, .none⟩
    let s := ts.foldl (fun s y => putSide s y.2.1 (sideOf fpc id false false y.2.1.priv y.2.2)) s
    let s := writeImage (setFrag s fk x) fk rpc (ts.map (fun y => y.2.1))
    let s := ts.foldl (fun s y =>
      let s := leaveGroup s y.1
      let (base, user) := baseOf y.2.1
      modThread s y.1 (fun t =>
        let t := { t with frag := id, rpass := rpass, pass := none }
        if base = 0 then { t with st := .parked, pc := rpc }
        else { t with st := .entry, pc := vectorOf base cause, lk := tokenOf id, priv := !user,
                      hand := if user then .user else .system })) s
    if idle then postEvent s p (w32 core) 9 cause (leadReason cause (ts.map (fun y => y.2.2))) (d64 id.toNat) 0 0 else s

/-- Exhaustion (R35, R312): the thread enters the system handler at base + 0x700 with no entry. -/
def enterNoEntry (s : State) (k : Nat) (fpc : DWord) (rpass : Option Pass) : State :=
  match getThread s k with
  | none => s
  | some t =>
    let s := putSide s t (sideOf fpc 0 false false t.priv (faultOf 7 0 0 0))
    let s := leaveGroup s k
    modThread s k (fun t => { t with
      st := .entry, pass := none, rpass := rpass, hand := .noEntry, priv := true,
      pc := vectorOf (partOf s (threadPart s t)).trapbase 7 })

/-- A member of a handler's entry parks where it stands; in an MWAIT it has arrived (R31). -/
def parkIn (t : Thread) : Thread :=
  { t with st := .parked, pass := none, mw := match t.st with
    | .mwait m => some m
    | _ => none }

/-- Faults of threads that are in handler state (R311, R312). `vec` says that they were entering a vector. -/
def nestedFaults (s : State) (fs : List (Nat × FInfo)) (fpc : DWord) (vec : Bool) : State :=
  let ts := fs.filterMap (fun f => (getThread s f.1).map (fun t => (f.1, t, f.2)))
  let double (t : Thread) : Bool := vec || t.hand != .user
  let s := ts.foldl (fun s y => putSide s y.2.1 (sideOf fpc y.2.1.frag (double y.2.1) (!double y.2.1) y.2.1.priv y.2.2)) s
  let ids := (ts.map (fun y => y.2.1.frag)).eraseDups
  ids.foldl (fun s id =>
    let own := ts.filter (fun y => y.2.1.frag == id)
    match own.head? with
    | none => s
    | some (_, t0, f0) =>
      let cause := own.foldl (fun c y => min c y.2.2.cause) f0.cause
      let reason := leadReason cause (own.map (fun y => y.2.2))
      let p := threadPart s t0
      let src := w32 (coreOf s t0)
      if id = 0 then
        let s := own.foldl (fun s y => modThread (leaveGroup s y.1) y.1 (fun t => { t with st := .stopped, pass := none })) s
        postEvent s p src 8 cause reason 0 0 0
      else
        let ms := (fragMembers s id).filter (fun e => e.2.hand != .none)
        if double t0 then
          let s := ms.foldl (fun s e => modThread (leaveGroup s e.1) e.1 parkIn) s
          let s := modFrag s (fragKeyOfId id) (fun x => { x with st := .parked })
          postEvent s p src 8 cause reason (d64 id.toNat) 0 0
        else
          let v := vectorOf (partOf s p).trapbase cause
          let s := ms.foldl (fun s e => modThread (leaveGroup s e.1) e.1 (fun t =>
            { toEntry v t with hand := .system, priv := true })) s
          modFrag s (fragKeyOfId id) (fun x => { x with cause := cause })) s

/-- TAKING AN EXCEPTION. `fs` are the faulting lanes; `whole` is their issue group; `s0` is the state before the
instruction, which exhaustion restores (R35: no lane executes it). `slot` is the pass at the faulting slot, `rpc` and
`rpass` the resume point. The second component tells exhaustion. -/
def raise (s0 s : State) (whole : List Nat) (fs : List (Nat × FInfo)) (fpc : DWord) (slot : Option Pass) (rpc : DWord)
    (rpass : Option Pass) (vec : Bool := false) : State × Bool :=
  let inHandler (k : Nat) : Bool := match getThread s k with
    | some t => t.hand != .none
    | none => true
  let fresh := fs.filter (fun f => !inHandler f.1)
  let nested := fs.filter (fun f => inHandler f.1)
  match fresh.head?.bind (fun f => getThread s f.1) with
  | none => (genChecks (nestedFaults s nested fpc vec) (fs.map (·.1)), false)
  | some t0 =>
    match freeEntry s (threadPart s t0) (coreOf s t0) with
    | some e =>
      let s := makeFragment s (coreOf s t0) e fresh fpc rpc rpass
      (genChecks (nestedFaults s nested fpc vec) (fs.map (·.1)), false)
    | none =>
      let out := whole.filter (fun k => !inHandler k)
      let s := out.foldl (fun s k => enterNoEntry s k fpc slot) { s0 with fresh := s.fresh }
      let s := nestedFaults s ((whole.filter inHandler).map (fun k => (k, faultOf 7 0 0 0))) fpc vec
      (genChecks s whole, true)

/-- Where a trap resumes: at the slot itself, or after it (R234). -/
def afterPass (p : Pass) : DWord × Option Pass :=
  let q := { p with slot := p.slot + 1 }
  if q.slot < q.words.length then (slotPc q, some q) else (nextHdr q, none)

/-- Where the images of a thread's core stand, 64 KiB; none without a fragment table. -/
def imageBase (s : State) (k : Nat) : Option Nat := (getThread s k).bind (fun t =>
  let base := (partOf s (threadPart s t)).fragtab
  if base = 0 then none else some (base.toNat + 65536 * coreOf s t))

/-- The partition whose migration lock keeps a core from writing the images of its entries, which it does before a thread
enters a handler (R307, R134). -/
def imageLock (s : State) (k : Nat) : Option Nat :=
  (imageBase s k).bind (fun a => (List.range 16).findSome? (fun i => lockOf s (a + 4096 * i)))

/-- The die whose answer the writing of those images waits for (R344). -/
def imageSilent (s : State) (k : Nat) : Option Nat := (imageBase s k).bind (fun a => rangeSilent s none a 65536 true)

/-- A die whose answer the image of an entry waits for (R344). -/
def entrySilent (s : State) (fk : Nat) : Option Nat := rangeSilent s none (imageAddr s (fragEntry s fk).part fk) 1024 true

/-- Whether a fault of a thread would move a member of its handler out of a store that a lock holds: the fault is taken once the
store has taken effect (R119, R134, R311). -/
def handlerHeld (s : State) (k : Nat) : Bool := match getThread s k with
  | some t => t.hand != .none && t.frag != 0 && (fragMembers s t.frag).any (fun e => threadHeld s e.1)
  | none => false

/-- Whether the faults of lanes cannot be taken yet: an access waits (`waitInfo`), the images are locked, or a lock holds a
store of a thread that the fault would move. -/
def faultsWait (s : State) (fs : List (Nat × FInfo)) : Bool :=
  fs.any (fun f => f.2.waits || handlerHeld s f.1) || (match fs with
    | f :: _ => (imageLock s f.1).isSome
    | [] => false)

/-- The die whose answer the images that faults would write wait for. -/
def faultsAsk (s : State) (fs : List (Nat × FInfo)) : Option Nat := fs.head?.bind (fun f => imageSilent s f.1)

/-- Insert a lane's fault by lane. -/
def insLost (s : State) (f : Nat × FInfo) : List (Nat × FInfo) → List (Nat × FInfo)
  | [] => [f]
  | g :: r => if laneOf s f.1 < laneOf s g.1 then f :: g :: r else g :: insLost s f r

/-- The faults of an instruction with those of its lanes that read lost data, by ascending lane: one fragment (R32). -/
def withLost (s : State) (fs : List (Nat × FInfo)) : List (Nat × FInfo) := s.lost.foldl (fun l f => insLost s f l) fs

/-- The lanes `fs` of a group fault at its slot; the remaining threads continue from the next slot (R32). While a fault
cannot be taken the group stands at its slot, and nothing of the instruction has taken effect. -/
def splitFaults (s0 s : State) (gid : Nat) (g : Group) (fs : List (Nat × FInfo)) (after : Bool) : State :=
  if fs.isEmpty then advance s gid
  else if faultsWait s0 fs then wakeFor { s0 with fresh := s.fresh } (fs.map (·.2))
  else match faultsAsk s0 fs with
  | some d => wakeDie { s0 with fresh := s.fresh } d
  | none =>
    let (rpc, rp) := if after then afterPass g.pass else (slotPc g.pass, some g.pass)
    let (s, out) := raise s0 s g.members fs (slotPc g.pass) (some g.pass) rpc rp
    if out then s else advance s gid

/-- The same with the lanes that read lost data, which fault at the slot as well. -/
def splitGroup (s0 s : State) (gid : Nat) (g : Group) (fs : List (Nat × FInfo)) (after : Bool) : State :=
  if s0.lost.isEmpty then splitFaults s0 s gid g fs after
  else splitFaults { s0 with lost := [] } { s with lost := [] } gid g (withLost s0 fs) after

/-! ## Returning from an exception -/

/-- Members of an entry resume from its image (R309): the recorded slot, or a clause entry at the address in RPC. -/
def resumeMembers (s : State) (fk : Nat) (ks : List Nat) : State :=
  let x := fragEntry s fk
  let a := imageAddr s x.part fk
  let (s, back) := ks.foldl (fun (acc : State × List (Nat × Pass)) k =>
    let s := acc.1
    match getThread s k with
    | none => acc
    | some t =>
      let rpc := physRead64 s (a + 0x40 + 8 * t.lane)
      let lk := physRead64 s (a + 0x140 + 8 * t.lane)
      let s := leaveGroup s k
      let t' := { t with lk := lk, priv := bitOf x.pmode t.lane, hand := .none, frag := 0, rpass := none, mw := none }
      match t.rpass with
      | some p =>
        if rpc = slotPc p then (setThread s k { t' with st := .entry, pc := rpc, pass := none }, acc.2 ++ [(k, p)])
        else (setThread s k (toEntry rpc t'), acc.2)
      | none => (setThread s k (toEntry rpc t'), acc.2)) (s, [])
  let s := regroup s back
  let lanes := ks.foldl (fun l k => match getThread s k with | some t => l ||| laneBit t.lane | none => l) 0
  let s := modFrag s fk (fun x =>
    let l := x.lanes &&& ~~~lanes
    { x with lanes := l, st := if l = 0 then .free else x.st, mark := if l = 0 then false else x.mark })
  genChecks s ks

/-- A thread's die keeps no table entry of its partition: its next walk reads each in memory (R337). -/
def dropTables (s : State) (k : Nat) : State := match getThread s k with
  | some t => { s with mem := { s.mem with tabs := s.mem.tabs.filter (fun e =>
      !(e.die == coreOf s t / 64 && e.part == threadPart s t)) } }
  | none => s

/-- Members that a FRES resumes: its release at `.pkg` and their first instruction's acquire order them (R122, R331), and their
walks are new ones, which read every page-table store before it (R337). -/
def fresMembers (s : State) (fk : Nat) (ks : List Nat) : State := ks.foldl dropTables (ks.foldl learnAway (resumeMembers s fk ks))

/-- The last member of an entry in handler state has executed RTE, or the others have gone: the entry is parked, or
with MARK its members resume (Table 18-4). A member without a vector base has been parked since the fault. -/
def rteCheck (s : State) (id : Word) : State :=
  if id = 0 then s
  else
    let fk := fragKeyOfId id
    let ms := fragMembers s id
    if (fragEntry s fk).st == .handler && !ms.isEmpty && ms.all (fun e => e.2.st == .rteWait || e.2.st == .parked) then
      if (fragEntry s fk).mark then fresMembers s fk (ms.map (·.1))
      else
        let s := ms.foldl (fun s e => modThread s e.1 (fun t => { t with st := .parked, hand := .none })) s
        modFrag s fk (fun x => { x with st := .parked })
    else s

/-- A thread of R312 resumes at its side record's PC, where the slot executes afresh, in an issue group of its own: R34's grouping by
equal PC speaks of fragments (DESIGN CHOICE, log 119). -/
def resumeNoEntry (s : State) (k : Nat) : State :=
  match getThread s k with
  | none => s
  | some t =>
    let r := match warpOf s t with
      | some w => Map.get SideRec.zero w.side t.lane
      | none => SideRec.zero
    let s := leaveGroup s k
    let s := setThread s k { toEntry r.pc t with hand := .none, priv := pteBit r.w1 9, rpass := none }
    let s := match t.rpass with
      | some p => if r.pc = slotPc p then regroup s [(k, p)] else s
      | none => s
    genChecks s [k]

/-! ## Lanes -/

/-- The members of a group whose guard is true, by ascending lane (R28). -/
def guardedOf (s : State) (g : Group) (gd : Guard) : List Nat :=
  g.members.filter (fun k => match getThread s k with
    | some t => guardHolds t gd
    | none => false)

/-- The active members of a group that make its instruction: all but those that fault at once, since they read lost data. -/
def activeOf (s : State) (g : Group) (gd : Guard) : List Nat := (guardedOf s g gd).filter (fun k => !isLost s k)

/-- What one lane does: the state it leaves, and its fault. A faulting lane leaves no effect but draws of free values
and what its translation cached (R198, R293). -/
abbrev LaneFn := Nat → Thread → State → State × Option FInfo

/-- Run a lane function over threads in order; each sees the state its predecessors left. -/
def foldLanes (f : LaneFn) : List Nat → State → State × List (Nat × FInfo)
  | [], s => (s, [])
  | k :: r, s =>
    match getThread s k with
    | none => foldLanes f r s
    | some t =>
      match f k t s with
      | (s', none) => foldLanes f r s'
      | (s', some e) => let (s'', fs) := foldLanes f r s'; (s'', (k, e) :: fs)

/-- The instruction at a group's slot. -/
def groupInstr (g : Group) : Option Instr := match (g.pass.words[g.pass.slot]?).map decode with
  | some (.ok i) => some i
  | _ => none

/-- An instruction of an issue group that acts lane by lane. -/
def laneOp (gd : Guard) (f : Nat → LaneFn) (s : State) : State :=
  match curGroup s with
  | none => s
  | some (gid, g) =>
    let (s', fs) := foldLanes (f gid) (activeOf s g gd) s
    splitGroup s s' gid g fs false

/-- A lane function that changes its own thread alone. -/
def ownLane (f : Thread → Except FInfo Thread) : LaneFn := fun k t s =>
  match f t with
  | .ok t' => (setThread s k t', none)
  | .error e => (s, some e)

/-- An instruction whose lanes change their own thread alone. -/
def threadOp (gd : Guard) (f : Thread → Except FInfo Thread) (s : State) : State := laneOp gd (fun _ => ownLane f) s

/-- An instruction without an effect on its threads: the group goes on. -/
def passOp (gd : Guard) (s : State) : State := laneOp gd (fun _ _ _ s => (s, none)) s

/-- An instruction of a whole group: `f` gets the group and its active lanes and does all that it does. -/
def groupOp (gd : Guard) (f : Nat → Group → List Nat → State → State) (s : State) : State :=
  match curGroup s with
  | none => s
  | some (gid, g) => f gid g (activeOf s g gd) s

/-- Every listed lane takes a fault at the group's slot. -/
def faultAll (s : State) (gid : Nat) (g : Group) (ks : List Nat) (f : Nat → FInfo) (after : Bool := false) : State :=
  splitGroup s s gid g (ks.map (fun k => (k, f k))) after

/-- A result that a breach stops in mode 1 and marks in mode 2 (R77). -/
def breachRule (t : Thread) (b : BitVec 16) (fl : Byte) : Except FInfo Byte :=
  if breaches t.bud b then
    if budMode t.bud = 1 then .error (faultOf 4 0 (d64 (b.toNat + (budB t.bud).toNat * 65536)) 0)
    else .ok (fl ||| flBD)
  else .ok fl

/-! ## The access slice -/

def getSlice (s : State) (qk : Nat) : Option Slice := (Map.get? s.quadGroups qk).bind (fun q => q.slice)
def modSlice (s : State) (qk : Nat) (f : Slice → Slice) : State :=
  { s with quadGroups := Map.adjust s.quadGroups qk (fun q => { q with slice := q.slice.map f }) }

def sliceRegs (x : Slice) : RegFile := fun r => ⟨Map.get 0 x.a r, 0⟩

/-- The next slot of an instance; past the last one it stands at the next header. -/
def sliceAdvance (x : Slice) : Slice :=
  match x.pass with
  | none => x
  | some p =>
    let q := { p with slot := p.slot + 1 }
    if q.slot < q.words.length then { x with pass := some q } else { x with pass := none, pc := nextHdr q }

/-- An instruction of the STR subset: on an issue group it writes v registers and flags, on an instance a registers,
which have no bound (R67, R144). -/
def aluOp (gd : Guard) (f : RegFile → List (Nat × Reg) × Byte) (s : State) : State :=
  match s.cur with
  | .slice qk => modSlice s qk (fun x =>
      sliceAdvance { x with a := (f (sliceRegs x)).1.foldl (fun m w => Map.putD 0 m w.1 w.2.val) x.a })
  | _ => threadOp gd (fun t => let r := f (getReg t); .ok (orFlags (setRegs t r.1) r.2)) s

end Sys2Proof.Machine
end

