-- ==== Sys2Proof/Machine/Operands.lean ====
section
/-! DEFINITION. Memory operands: the addresses of the four spaces (R96-R99, Table 5-1), the checks of R198 in their
order, the stash map (R103-R105), and the read, store and update of one lane. -/

namespace Sys2Proof.Machine

/-- Where a lane's access lands, and the stash line it goes through. -/
structure Acc where
  loc : Loc
  stash : StashRef
deriving DecidableEq, Repr, Inhabited

/-- The address operand (Table 5-1): a 64-bit virtual address, or a 32-bit offset zero-extended. -/
def operandAddr (t : Thread) (sp : Space) (a : VReg) (ofs : BitVec 18) : DWord :=
  match sp with
  | .gl | .sh => tPair t a + ofs.signExtend 64
  | .sc | .pe => (tWord t a + ofs.signExtend 32).setWidth 64

/-- The stash line a mapped `.sh` address uses (R104). -/
def stashOf (s : State) (t : Thread) (va : DWord) : StashRef :=
  (Map.get? s.coreGroups (coreKeyOf t)).bind (fun c =>
    (c.smap.find? (fun e => decide (e.2.vbase ≤ va.toNat ∧ va.toNat < e.2.vbase + e.2.len))).map (fun e =>
      (coreKeyOf t, (e.2.soff + (va.toNat - e.2.vbase)) / 128)))

/-- Plain scratch bytes of a core group. -/
def scratchSize (s : State) (cgu : Nat) : Nat := match cgLaunch s cgu with
  | some l => l.r.scratch
  | none => 0

/-- The core group a peer-window address names (R98, R99): one that has left the window is absent for a thread ordered after
that (R264); for another its scratch reads as it left it, as the one end state of R266 needs (log 7). -/
def peerOf (s : State) (t : Thread) (a : DWord) : Option Nat :=
  let half := a.getLsbD 22
  let cic := a.toNat / 2 ^ 20 % 4
  (s.coreGroups.find? (fun e => e.2.cgu == t.cgu && !(e.2.gone && t.away.getLsbD e.2.k) && e.2.core % 4 == cic && decide (4 ≤ e.2.k) == half)).map (·.1)

def physLine : Loc → Nat
  | .phys a _ _ => lineOf a
  | .scr _ _ => 0

/-- Whether a read of `n` scratch bytes meets a word whose storage has an uncorrectable error (R321). -/
def badScratch (s : State) (g a n : Nat) (k : AKind) : Bool := k != .write && (match Map.get? s.coreGroups g with
  | some c => c.badWords.any (fun w => decide (a < 4 * w + 4 ∧ 4 * w < a + n))
  | none => false)

/-- The stash line as it stands. -/
def stashLine (s : State) (r : StashRef) : Option SLine :=
  r.bind (fun x => (Map.get? s.coreGroups x.1).bind (fun c => Map.get? c.slines x.2))

/-- A translated access lands: it waits for a die that must answer its snoop (R344), and a read of a stash line whose storage
has an uncorrectable error is lost data (R321). A read that hits in the stash asks no die; a store asks those with a copy. -/
def landAt (s : State) (core : Nat) (st : StashRef) (l : Loc) (k : AKind) : Except FInfo Acc :=
  match stashLine s st with
  | some x =>
    if x.bad && k != .write then .error (faultOf 14 2 (d64 (128 * (st.getD (0, 0)).2)) 0)
    else match if k.writes then silentDie s (some core) (physLine l) true else none with
      | some d => .error (waitInfo d)
      | none => .ok ⟨l, st⟩
  | none => match silentDie s (some core) (physLine l) k.writes with
    | some d => .error (waitInfo d)
    | none => .ok ⟨l, st⟩

/-- The checks of R198 on an access of `n` bytes, and where it lands. -/
def resolve (s : State) (t : Thread) (sp : Space) (a : DWord) (align n : Nat) (k : AKind) : Except FInfo Acc × State :=
  if a.toNat % align ≠ 0 then (.error (faultOf 3 0 a (d64 align)), s)
  else match sp with
    | .gl =>
      match translate s (whoOf s t) a k with
      | (.error f, s) => (.error f, s)
      | (.ok l, s) => (landAt s (coreOf s t) none l k, s)
    | .sh =>
      match translate s (whoOf s t) a k with
      | (.error f, s) => (.error f, s)
      | (.ok l, s) => (landAt s (coreOf s t) (stashOf s t a) l k, s)
    | .sc =>
      if scratchSize s t.cgu < a.toNat + n then (.error (faultOf 2 5 a (d64 k.code)), s)
      else if badScratch s (coreKeyOf t) a.toNat n k then (.error (faultOf 14 2 a 0), s)
      else (.ok ⟨.scr (coreKeyOf t) a.toNat, none⟩, s)
    | .pe =>
      if a.toNat / 2 ^ 23 ≠ 0 then (.error (faultOf 2 5 a (d64 k.code)), s)
      else match peerOf s t a with
        | none => (.error (faultOf 6 0 a 0), s)
        | some g =>
          if scratchSize s t.cgu < a.toNat % 2 ^ 20 + n then (.error (faultOf 2 5 a (d64 k.code)), s)
          else if badScratch s g (a.toNat % 2 ^ 20) n k then (.error (faultOf 14 2 a 0), s)
          else (.ok ⟨.scr g (a.toNat % 2 ^ 20), none⟩, s)

/-- A write that no L1 keeps takes the copies that L1s hold of its line: a store to a stash line (R105), a RED in update-only
state (R128). -/
def takeCopies (s : State) (core line : Nat) : State :=
  let s := answered s (some core) line true
  { s with mem := { s.mem with uses := s.mem.uses + 1, l1 := yieldL1 s.mem.l1 none line true } }

/-- What an access of a lane does in the caches (R107): a mapped stash line is served by the stash, and only its fill goes
further (R105). R105 gives the fill no eviction class: it goes as `.by`, so that it allocates no line of L1 or the central cache
and drops the class of one that it finds there to 0 (DESIGN CHOICE, log 98). -/
def cacheLane (s : State) (t : Thread) (evc : Nat) (plain : Bool) (a : Acc) (w : Bool) : State :=
  match a.stash with
  | none => cacheAcc s (some (coreOf s t)) evc plain a.loc w
  | some r =>
    let s := if (stashLine s (some r)).isSome then s else cacheAcc s (some (coreOf s t)) 7 plain a.loc false
    if w then takeCopies s (coreOf s t) (physLine a.loc) else s

/-- The mapping an access of a lane came by. -/
def laneVia (s : State) (t : Thread) (sp : Space) (va : DWord) (k : AKind) : Option Via :=
  match sp with
  | .gl | .sh => some ⟨whoOf s t, va, k⟩
  | _ => none

/-- A lane's read. -/
def accRead (s : State) (a : Acc) (n : Nat) : Got × State :=
  let (g, s) := readLoc s a.loc n
  (g, touchStash s a.stash (physLine a.loc) false)

/-- A lane's write arrives at a locked page: the lane waits in it (R134). -/
def laneHeld (s : State) (p gid k : Nat) (loc : Loc) (via : Option Via) (op : WOp) : State :=
  addWait (holdWrite s p ⟨k, loc, via, op, none, .land⟩) gid k .locked

/-- A lane's store: held by a migration lock, or done at once, with its flags `fl` and BD where a bound is dropped (R85,
R134). -/
def accStore (s : State) (gid k : Nat) (a : Acc) (via : Option Via) (l : List Byte) (bs : List (BitVec 16)) (narrow : Bool)
    (fl : Byte := 0) : State :=
  match locLock s a.loc with
  | some p => laneHeld s p gid k a.loc via (.store l bs narrow fl)
  | none =>
    let (s, bd) := pokeLoc s a.loc a.stash l bs narrow
    let s := touchStash s a.stash (physLine a.loc) true
    let f := fl ||| flIf bd flBD
    if f = 0 then s else modThread s k (fun t => orFlags t f)

/-- Bytes of an access width, its alignment (R96). -/
def widthBytes : Width → Nat
  | .b8 | .s8 => 1 | .b16 | .s16 => 2 | .b32 => 4 | .b64 => 8 | .b128 => 16

/-- What a load writes (Table 9-2). -/
def loadRegs (w : Width) (d : VReg) (g : Got) : List (Nat × Reg) :=
  let v := g.val
  let b0 := g.bnds.headD 0
  match w with
  | .b8 | .b16 | .b32 => [(d.toNat, ⟨loWord v, b0⟩)]
  | .s8 => [(d.toNat, ⟨(v.setWidth 8).signExtend 32, b0⟩)]
  | .s16 => [(d.toNat, ⟨(v.setWidth 16).signExtend 32, b0⟩)]
  | .b64 => wrTy true d v g.bnd
  | .b128 => (List.range 4).map (fun i =>
      (d.toNat + i, ⟨w32 (leNat ((g.bytes.drop (4 * i)).take 4)), g.bnds.getD i 0⟩))

/-- What a store writes: its bytes and the bounds of the words it meets (R84, R202). -/
def storeData (t : Thread) (w : Width) (d : VReg) : List Byte × List (BitVec 16) :=
  match w with
  | .b8 | .s8 => (leBytes 1 (tWord t d).toNat, [tBnd t d])
  | .b16 | .s16 => (leBytes 2 (tWord t d).toNat, [tBnd t d])
  | .b32 => (leBytes 4 (tWord t d).toNat, [tBnd t d])
  | .b64 => (leBytes 8 (tPair t d).toNat, [tBnd t d, tBnd t d])
  | .b128 =>
    let r (i : Nat) : Reg := getReg t (d.toNat + i)
    ((List.range 4).flatMap (fun i => leBytes 4 (r i).val.toNat), (List.range 4).map (fun i => (r i).shadow))

def isNarrow : Width → Bool
  | .b8 | .s8 | .b16 | .s16 => true
  | _ => false

/-! ## Full warps and format words -/

/-- The lanes of threads. -/
def laneMask (s : State) (ks : List Nat) : Word := ks.foldl (fun m k => m ||| laneBit (laneOf s k)) 0

/-- Whether a group holds every thread of its warp (R24). -/
def fullWarp (s : State) (g : Group) : Bool :=
  match g.members.head?.bind (getThread s) with
  | none => false
  | some t => (warpThreads s (warpKeyOf t)).all (fun e => g.members.contains e.1)

/-- The partial-mask trap (R24): the mask of the threads present in the group. -/
def partialMask (s : State) (g : Group) : FInfo := faultOf 12 0 ((laneMask s g.members).setWidth 64) 0

/-- The format-word vote of R59: the common word, or each lane's fault of class 5. -/
def formatVote (s : State) (r : FwReader) (fw : VReg) (ks : List Nat) : Except (Nat → FInfo) Word :=
  let word (k : Nat) : Word := match getThread s k with
    | some t => tWord t fw
    | none => 0
  match ks.head? with
  | none => .ok 0
  | some k0 =>
    let w0 := word k0
    let out := ks.filter (fun k => word k != w0)
    if !out.isEmpty then
      .error (fun k => faultOf 5 0 ((laneMask s out).setWidth 64) (pairWord (word k) (word k ^^^ w0)))
    else if fwBad r w0 ≠ 0 then .error (fun _ => faultOf 5 1 0 (pairWord w0 (fwBad r w0)))
    else .ok w0

end Sys2Proof.Machine
end

