-- ==== Sys2Proof/Machine/Access.lean ====
section
/-! DEFINITION. Loads, stores, prefetch and fences (R200-R205), and the stash and cache maintenance of R206-R209. -/

namespace Sys2Proof.Machine

/-! ## LD, ST, PREF, FENCE -/

/-- One lane of LD (R201). -/
def ldLane (x : MemOps) : LaneFn := fun k t s =>
  let n := widthBytes x.w
  match resolve s t x.space (operandAddr t x.space x.a x.ofs) n n .read with
  | (.error f, s) => (s, some f)
  | (.ok a, s) =>
    let (g, s) := accRead (cacheLane s t x.evc.toNat (!x.rp) a false) a n
    (learnBy x.ord (modThread s k (fun t => setRegs t (loadRegs x.w x.d g))) k, none)

/-- LD: every access takes effect at once, so SCOPE and RP order nothing further (log 2); an `.rp` read does not combine. -/
def execLd (x : MemOps) (s : State) : Out := .next (laneOp x.g (fun _ => ldLane x) s)

/-- One lane of ST (R202). -/
def stLane (x : MemOps) (gid : Nat) : LaneFn := fun k t s =>
  let n := widthBytes x.w
  let va := operandAddr t x.space x.a x.ofs
  match resolve s t x.space va n n .write with
  | (.error f, s) => (s, some f)
  | (.ok a, s) =>
    (accStore (cacheLane s t x.evc.toNat false a true) gid k a (laneVia s t x.space va .write) (storeData t x.w x.d).1
      (storeData t x.w x.d).2 (isNarrow x.w), none)

def execSt (x : MemOps) (s : State) : Out := .next (laneOp x.g (stLane x) s)

/-- One lane of PREF (R204): a mapped stash line is filled as by first touch; a failing translation is dropped, and so
is a fill whose snoop is not answered, beside the waking of a sleeping link (R344). -/
def prefLane (x : PrefOps) : LaneFn := fun _ t s =>
  let va := operandAddr t (if x.sh then .sh else .gl) x.a x.ofs
  let st := if x.sh then stashOf s t va else none
  if st.isNone && x.evc == 7 then (s, none)
  else match translate s (whoOf s t) va .read with
    | (.error _, s) => (s, none)
    | (.ok l, s) => match landAt s (coreOf s t) st l .read with
      | .error f => (wakeFor s [f], none)
      | .ok a => (touchStash (cacheLane s t x.evc.toNat true a false) st (physLine l) false, none)

def execPref (x : PrefOps) (s : State) : Out := .next (laneOp x.g (fun _ => prefLane x) s)

/-- FENCE and FENCE.j touch no memory (R205); every access has already taken effect (log 2). -/
def execFence (x : FenceOps) (s : State) : Out := .next (laneOp x.g (fun _ k _ s => (learnBy x.ord s k, none)) s)
def execFenceJ (x : FenceJOps) (s : State) : Out := .next (passOp x.g s)

/-! ## The stash map (R103, R207) -/

/-- Whether [a, a + n) and [b, b + m) meet. -/
def meets (a n b m : Nat) : Bool := n != 0 && m != 0 && decide (a < b + m) && decide (b < a + n)

/-- Write back and drop the stash lines of a range of the stash storage. -/
def dropLines (c : CoreGroup) (soff len : Nat) : CoreGroup :=
  { c with slines := c.slines.filter (fun l => !meets (l.1 * 128) 128 soff len) }

/-- Remove map entries with their lines, written back first. -/
def dropEntries (c : CoreGroup) (p : SMapE → Bool) : CoreGroup :=
  let c' := (c.smap.filter (fun e => p e.2)).foldl (fun c e => dropLines c e.2.soff e.2.len) c
  { c' with smap := c.smap.filter (fun e => !p e.2) }

/-- The lowest free entry of the map. -/
def freeSmap (m : Map SMapE) : Option Nat := (List.range 16).find? (fun i => (Map.get? m i).isNone)

def modCore (s : State) (ck : Nat) (f : CoreGroup → CoreGroup) : State :=
  { s with coreGroups := Map.adjust s.coreGroups ck f }

/-- Stash bytes of a cluster group's core groups. -/
def stashSize (s : State) (cgu : Nat) : Nat := match cgLaunch s cgu with
  | some l => l.r.stash
  | none => 0

/-- One lane of SMAP (R207). -/
def smapLane (x : SmapOps) : LaneFn := fun _ t s =>
  let vb := (tPair t x.a).toNat
  let len := (tWord t x.lr).toNat
  let so := (tWord t x.orr).toNat
  if vb % 128 ≠ 0 || len % 128 ≠ 0 || so % 128 ≠ 0 || len = 0 then (s, some (faultOf 3 0 (d64 vb) 128))
  else
    let ck := coreKeyOf t
    let over' (e : SMapE) : Bool := meets e.vbase e.len vb len || meets e.soff e.len so len
    let free := (Map.get? s.coreGroups ck).bind (fun c => freeSmap (c.smap.filter (fun e => !over' e.2)))
    if stashSize s t.cgu < so + len then (s, some (faultOf 2 6 (d64 vb) 0))
    else match free with
      | none => (s, some (faultOf 2 6 (d64 vb) 0))
      | some i =>
        (modCore s ck (fun c =>
          let c := dropLines (dropEntries c over') so len
          { c with smap := Map.put c.smap i ⟨vb, len, so⟩ }), none)

def execSmap (x : SmapOps) (s : State) : Out := .next (laneOp x.g (fun _ => smapLane x) s)

/-- One lane of SMAP.un: it reads no SOFF. -/
def smapUnLane (x : SmapOps) : LaneFn := fun _ t s =>
  let vb := (tPair t x.a).toNat
  let len := (tWord t x.lr).toNat
  (modCore s (coreKeyOf t) (fun c => dropEntries c (fun e => meets e.vbase e.len vb len)), none)

def execSmapUn (x : SmapOps) (s : State) : Out := .next (laneOp x.g (fun _ => smapUnLane x) s)

/-! ## SWB, SINV, CWB (R208, R209) -/

/-- The virtual address a stash line stands for. -/
def lineVa (c : CoreGroup) (i : Nat) : Option Nat :=
  (c.smap.find? (fun e => decide (e.2.soff ≤ 128 * i ∧ 128 * i < e.2.soff + e.2.len))).map (fun e =>
    e.2.vbase + (128 * i - e.2.soff))

/-- The stash lines whose virtual lines meet a range. -/
def lineIn (c : CoreGroup) (start len i : Nat) : Bool := match lineVa c i with
  | some va => meets va 128 start len
  | none => false

def cleanLines (p : Nat → Bool) (c : CoreGroup) : CoreGroup :=
  { c with slines := c.slines.map (fun l => if p l.1 then (l.1, { l.2 with dirty := false }) else l) }

def invalidLines (p : Nat → Bool) (c : CoreGroup) : CoreGroup :=
  { c with slines := c.slines.filter (fun l => !p l.1) }

/-- A lane of a stash maintenance instruction over its range. -/
def stashRange (f : (Nat → Bool) → CoreGroup → CoreGroup) (x : RangeOps) : LaneFn := fun _ t s =>
  (modCore s (coreKeyOf t) (fun c => f (lineIn c (tPair t x.a).toNat (tWord t x.lr).toNat) c), none)

def stashAll (f : (Nat → Bool) → CoreGroup → CoreGroup) : LaneFn := fun _ t s =>
  (modCore s (coreKeyOf t) (f (fun _ => true)), none)

def execSwb (x : RangeOps) (s : State) : Out := .next (laneOp x.g (fun _ => stashRange cleanLines x) s)
def execSwbAll (g : Guard) (s : State) : Out := .next (laneOp g (fun _ => stashAll cleanLines) s)
def execSinv (x : RangeOps) (s : State) : Out := .next (laneOp x.g (fun _ => stashRange invalidLines x) s)
def execSinvAll (g : Guard) (s : State) : Out := .next (laneOp g (fun _ => stashAll invalidLines) s)

/-- A cached line written back: its copy stays, clean (R209). -/
def cleanLine (c : CLine) : CLine := if c.st == .dirty then { c with st := .excl } else c

/-- Write every dirty copy of the lines of a physical range back (R209), for a core or an agent: the dies that hold them answer,
partials are combined, copies stay clean. -/
def cleanPhys (s : State) (core : Option Nat) (a n : Nat) : State :=
  let hit (line : Nat) : Bool := meets (line * 128) 128 a n
  let s := (heldLines s a n).foldl (fun s line => answered s core line false) s
  let ps := ((s.mem.partials.map (fun p => lineOf p.pa)).filter hit).eraseDups
  let m := ps.foldl combineLine s.mem
  { s with mem := { m with dirty := m.dirty.filter (fun e => !hit e.1),
                           l1 := m.l1.map (fun e => if hit (l1Line e.1) then (e.1, cleanLine e.2) else e) },
           coreGroups := s.coreGroups.map (fun e =>
             (e.1, { e.2 with slines := e.2.slines.map (fun l => if hit l.2.line then (l.1, { l.2 with dirty := false }) else l) })) }

/-- Whether a piece of a page has lost data: its page's frame is withdrawn, or a line of it lies behind a fenced stack port
(R322, R340). -/
def pieceLost (m : MemSys) (l : Leaf) (pa n : Nat) : Bool :=
  frameLost m (ptePa l.pte) l.size
    || (!m.portsOut.isEmpty && (List.range ((n + 127) / 128)).any (fun i => m.portsOut.contains (portOf (pa + 128 * i))))

/-- The physical pieces of a virtual range, every page checked (R209). -/
def rangePieces : Nat → State → Who → Nat → Nat → Except FInfo (List (Nat × Nat)) × State
  | 0, s, _, _, _ => (.ok [], s)
  | n + 1, s, w, a, e =>
    if e ≤ a then (.ok [], s)
    else match translateLeaf s w (d64 a) .read with
      | (.error f, s) => (.error f, s)
      | (.ok l, s) =>
        let stop := min e (l.base + l.size)
        let pa := ptePa l.pte + (a - l.base)
        if pieceLost s.mem l pa (stop - a) then (.error (faultOf 14 3 (d64 pa) 0), s)
        else match rangePieces n s w stop e with
        | (.error f, s) => (.error f, s)
        | (.ok r, s) => (.ok ((pa, stop - a) :: r), s)

def cwbLane (x : RangeOps) : LaneFn := fun _ t s =>
  let start := (tPair t x.a).toNat
  let len := (tWord t x.lr).toNat
  if len = 0 then (s, none)
  else
    let a := start / 128 * 128
    let e := (start + len + 127) / 128 * 128
    match rangePieces (len / 4096 + 3) s (whoOf s t) a e with
    | (.error f, s) => (s, some f)
    | (.ok ps, s) => match ps.findSome? (fun p => rangeSilent s (some (coreOf s t)) p.1 p.2 false) with
      | some d => (s, some (waitInfo d))
      | none => (ps.foldl (fun s p => cleanPhys s (some (coreOf s t)) p.1 p.2) s, none)

def execCwb (x : RangeOps) (s : State) : Out := .next (laneOp x.g (fun _ => cwbLane x) s)

end Sys2Proof.Machine
end

