-- ==== Sys2Proof/Machine/Atomic.lean ====
section
/-! DEFINITION. Atomics and reductions (R210-R212). -/

namespace Sys2Proof.Machine

/-- A lane's update of a location that no lock holds, its stash line touched (R84, R105). -/
def accPoke (s : State) (a : Acc) (n : Nat) (bits : DWord) (bnd : BitVec 16) : State × Bool :=
  let (s, bd) := pokeLoc s a.loc a.stash (leBytes n bits.toNat) (List.replicate (n / 4) bnd) false
  (touchStash s a.stash (physLine a.loc) true, bd)

/-- One atomic step of Table 9-5 on a location; with a destination the old value and bound go to d with the step's flags
(R211). -/
def atomStep (s : State) (k : Nat) (a : Acc) (op : AOp) (ty : Ty) (b : DWord) (bb : BitVec 16) (dest : Option VReg) :
    State :=
  let n := ty.bytes
  let (g, s) := accRead s a n
  let r := atomRes op ty g.val g.bnd b bb
  let (s, bd) := accPoke s a n r.bits r.bnd
  match dest with
  | some d => modThread s k (fun t => orFlags (setRegs t (wrTy ty.wide d g.val g.bnd)) (r.fl ||| flIf bd flBD))
  | none => s

/-- A RED applied at the home: an ATOM whose old value is discarded; of its lane's flags only BD changes, where the operand's
bound is dropped (R85, R212). -/
def redStep (s : State) (k : Nat) (a : Acc) (op : AOp) (ty : Ty) (b : DWord) (bb : BitVec 16) : State :=
  let drop := match a.loc with
    | .phys pa _ bt => dropsBound s.mem bt pa [bb]
    | .scr _ _ => false
  let s := atomStep s k a op ty b bb none
  if drop then modThread s k (fun t => orFlags t flBD) else s

/-- What a lane's atomic does in the caches: it is made at the home under its eviction class (R107, R203, R212), or in a stash
line, where the class has no effect. -/
def atomAcc (s : State) (t : Thread) (evc : BitVec 3) (a : Acc) : State :=
  if a.stash.isSome then cacheLane s t evc.toNat false a true else cacheAcc s none evc.toNat false a.loc true

/-- One lane of ATOM. -/
def atomLane (x : AtomOps) (gid : Nat) : LaneFn := fun k t s =>
  let n := x.ty.bytes
  let va := operandAddr t x.space x.a 0
  match resolve s t x.space va n n .atomic with
  | (.error f, s) => (s, some f)
  | (.ok a, s) =>
    let b := tVal t x.ty.wide x.b
    let s := atomAcc s t x.evc a
    match locLock s a.loc with
    | some p => (laneHeld s p gid k a.loc (laneVia s t x.space va .atomic) (.atom x.op x.ty b (tBnd t x.b) (some x.d) x.ord), none)
    | none => (learnBy x.ord (atomStep s k a x.op x.ty b (tBnd t x.b) (some x.d)) k, none)

def execAtom (x : AtomOps) (s : State) : Out := .next (laneOp x.g (atomLane x) s)

/-- The compare-and-swap step: a failed compare writes nothing (R211). -/
def acasStep (s : State) (k : Nat) (a : Acc) (ty : Ty) (b c : DWord) (cb : BitVec 16) (d : VReg) : State :=
  let n := ty.bytes
  let (g, s) := accRead s a n
  let (s, bd) := if lowBits ty g.val = lowBits ty b then accPoke s a n c cb else (s, false)
  modThread s k (fun t => orFlags (setRegs t (wrTy ty.wide d g.val g.bnd)) (flIf bd flBD))

def acasLane (x : AcasOps) (gid : Nat) : LaneFn := fun k t s =>
  let n := x.ty.bytes
  let va := operandAddr t x.space x.a 0
  match resolve s t x.space va n n .atomic with
  | (.error f, s) => (s, some f)
  | (.ok a, s) =>
    let b := tVal t x.ty.wide x.b
    let c := tVal t x.ty.wide x.c
    let s := atomAcc s t x.evc a
    match locLock s a.loc with
    | some p => (laneHeld s p gid k a.loc (laneVia s t x.space va .atomic) (.acas x.ty b c (tBnd t x.c) x.d x.ord), none)
    | none => (learnBy x.ord (acasStep s k a x.ty b c (tBnd t x.c) x.d) k, none)

def execAcas (x : AcasOps) (s : State) : Out := .next (laneOp x.g (acasLane x) s)

/-! ## RED (R212) -/

/-- A contribution to an update-only partial of a core: it starts at the operation's identity with bound 0. Partials of
another operation, type or key are combined first. -/
def contribute (m : MemSys) (core pa key : Nat) (bt : Bool) (op : AOp) (ty : Ty) (b : DWord) (bb : BitVec 16) : MemSys :=
  let line := lineOf pa
  let same (p : Partial) : Bool := p.op == op && p.ty == ty && p.key == key
  let m := if m.partials.all (fun p => lineOf p.pa != line || same p) then m else combineLine m line
  let m := rekeyLine m line key
  let old := m.partials.find? (fun p => p.pa == pa && p.core == core)
  let r := match old with
    | some p => atomRes op ty p.val p.bnd b bb
    | none => atomRes op ty (atomIdentity op ty) 0 b bb
  { m with partials := insPartial ⟨core, pa, key, bt, op, ty, r.bits, r.bnd⟩ m.partials }

/-- One lane of RED: in update-only state or at once, the choice being open (R128); of the lane's flags only BD changes. -/
def redLane (x : AtomOps) (gid : Nat) : LaneFn := fun k t s =>
  let n := x.ty.bytes
  let va := operandAddr t x.space x.a 0
  match resolve s t x.space va n n .write with
  | (.error f, s) => (s, some f)
  | (.ok a, s) =>
    let b := tVal t x.ty.wide x.b
    let bb := tBnd t x.b
    match locLock s a.loc with
    | some p => (laneHeld s p gid k a.loc (laneVia s t x.space va .write) (.atom x.op x.ty b bb none x.ord), none)
    | none =>
      match a.loc, a.stash with
      | .phys pa key bt, none =>
        let (upd, s) := drawBool s
        if upd then
          let drop := dropsBound s.mem bt pa [bb]
          let s := combineWrite (takeCopies s (coreOf s t) (lineOf pa)) (lineOf pa)
          let s := dropStash { s with mem := contribute s.mem (coreOf s t) pa key bt x.op x.ty b bb } (lineOf pa) none
          (if drop then modThread s k (fun t => orFlags t flBD) else s, none)
        else (redStep (atomAcc s t x.evc a) k a x.op x.ty b bb, none)
      | _, _ => (redStep (atomAcc s t x.evc a) k a x.op x.ty b bb, none)

def execRed (x : AtomOps) (s : State) : Out := .next (laneOp x.g (redLane x) s)

end Sys2Proof.Machine
end

