-- ==== Sys2Proof/Machine/Gen.lean ====
section
/-! DEFINITION. Generator regions (R39-R43, R224-R229): GEN, YLD, GEND, TAKE, GSTAT. -/

namespace Sys2Proof.Machine

/-- The region that is open in a thread's warp. -/
def warpRegion (s : State) (t : Thread) : Option Region := (warpOf s t).bind (fun w => w.gen)

/-- The region that a thread is in: its warp's, unless the GEN's guard kept it out. -/
def regionOf (s : State) (t : Thread) : Option Region := match warpRegion s t with
  | some r => if bitOf r.out t.lane then none else some r
  | none => none

/-- GEN misuse and its kin (class 15). -/
def genFault (reason : Nat) : FInfo := faultOf 15 reason 0 0

/-- Whether a lane belongs to the running consumer pass. -/
def inPass (r : Region) (lane : Nat) : Bool := match r.pass with
  | some p => p.lanes.contains lane
  | none => false

/-- Whether a lane is an unfinished producer and the producer body runs (R40). -/
def isProducer (r : Region) (lane : Nat) : Bool := r.pass.isNone && !bitOf r.fin lane && !bitOf r.out lane

/-- GEN (R225): the threads become unfinished producers (R39). One whose guard is false is left out of the region, in which
it has no part, and goes on after the clause (R146; log 33). -/
def execGen (x : GenOps) (s : State) : Out :=
  .next (groupOp x.g (fun gid g act s =>
    match act.head?.bind (getThread s) with
    | none => advance s gid
    | some t =>
      if !fullWarp s g then faultAll s gid g act (fun _ => partialMask s g)
      else if (warpRegion s t).isSome then faultAll s gid g act (fun _ => genFault 0)
      else
        let off (u : BitVec 16) : DWord := g.pass.hdr + 8 * u.signExtend 64
        let r : Region := ⟨x.split.toNat, frameBase s t, x.thr.toNat + 1, off x.prod, off x.cons, nextHdr g.pass, [], 0,
          laneMask s (g.members.filter (fun k => !act.contains k)), none⟩
        let s := { s with groups := Map.erase s.groups gid }
        let s := g.members.foldl (fun s k => modThread s k (toEntry (if act.contains k then r.prod else r.next))) s
        modWarp s (warpKeyOf t) (fun w => { w with gen := some r })) s)

/-- The entry a lane appends. -/
def yldEntry (x : YldOps) (t : Thread) : GEntry :=
  ⟨t.lane, x.two, getReg t x.a.toNat, if x.two then getReg t x.b.toNat else Reg.zero⟩

/-- The producers among some lanes of a group. -/
def yldProds (s : State) (r : Region) (act : List Nat) : List Thread := (act.filterMap (getThread s)).filter (fun t => isProducer r t.lane)

/-- Whether a group's YLD finds too little room for its entries. -/
def yldWaits (s : State) (g : Group) (x : YldOps) : Bool :=
  let act := activeOf s g x.g
  match (act.head?.bind (getThread s)).bind (warpRegion s) with
  | some r => decide (64 < r.buf.length + (yldProds s r act).length)
  | none => false

/-- YLD (R226): all of the group's entries are appended, or none and the group waits (R40). -/
def execYld (x : YldOps) (s : State) : Out :=
  .next (groupOp x.g (fun gid g act s =>
    let ts := act.filterMap (getThread s)
    match ts.head? with
    | none => advance s gid
    | some t =>
      match warpRegion s t with
      | none => faultAll s gid g act (fun _ => genFault 3)
      | some r =>
        let wk := warpKeyOf t
        let prods := yldProds s r act
        let bad := act.filter (fun k => match getThread s k with
          | some t => !isProducer r t.lane
          | none => false)
        if 64 < r.buf.length + prods.length then
          (if s.lost.isEmpty then genCheck (setHold s gid .yld) wk else setHold s gid .yld)
        else
          let s' := modWarp s wk (fun w => { w with gen := some { r with buf := r.buf ++ prods.map (yldEntry x) } })
          splitGroup s s' gid g (bad.map (fun k => (k, genFault 3))) false) s)

/-- A lane's producer finishes, or its part of a pass ends (R227). -/
def gendMark (r : Region) (lane : Nat) : Region :=
  match r.pass with
  | none => { r with fin := r.fin ||| laneBit lane }
  | some p => { r with pass := some { p with fin := p.fin ||| laneBit lane } }

/-- GEND: the lanes wait as in TAKE until the switching of R41 and R42 moves them; one outside the region faults. -/
def execGend (gd : Guard) (s : State) : Out :=
  .next (groupOp gd (fun gid g act s =>
    match act.head?.bind (getThread s) with
    | none => advance s gid
    | some t =>
      match warpRegion s t with
      | none => faultAll s gid g act (fun _ => genFault 5)
      | some r =>
        let wk := warpKeyOf t
        let bad := act.filter (fun k => bitOf r.out (laneOf s k))
        let ends := act.filter (fun k => !bitOf r.out (laneOf s k))
        let r' := ends.foldl (fun r k => gendMark r (laneOf s k)) r
        let s' := dropMembers (modWarp s wk (fun w => { w with gen := some r' })) gid ends
        let s' := ends.foldl (fun s k => modThread s k (fun t => { t with st := .genWait, pass := none })) s'
        genCheck (splitGroup s s' gid g (bad.map (fun k => (k, genFault 5))) false) wk) s)

/-- The source word of TAKE (R228). -/
def takeWord (e : GEntry) (lane : Nat) : Word := w32 (bnum e.two * 65536 + (e.lane + 32 - lane) % 32 * 256 + e.lane)

/-- One lane of TAKE (R228): the lane of rank j receives the j-th oldest entry. d, d2 and ds are written in this order, so that the
last of several that name one register stands (DESIGN CHOICE, log 116). -/
def takeLane (x : TakeOps) : LaneFn := fun k t s =>
  match (regionOf s t).bind (fun r => r.pass.map (fun p => (r, p))) with
  | none => (s, some (genFault 1))
  | some (r, p) =>
    if !p.lanes.contains t.lane then (s, some (genFault 1))
    else if bitOf p.took t.lane then (s, some (genFault 2))
    else
      let e := r.buf.getD (p.lanes.idxOf t.lane) ⟨0, false, Reg.zero, Reg.zero⟩
      let ws := [(x.d.toNat, e.v1)] ++ (if x.two then [(x.d2.toNat, e.v2)] else [])
        ++ (if x.src then [(x.ds.toNat, ⟨takeWord e t.lane, 0⟩)] else [])
      let s := modWarp s (warpKeyOf t) (fun w =>
        { w with gen := some { r with pass := some { p with took := p.took ||| laneBit t.lane } } })
      (modThread s k (fun t => setRegs t ws), none)

def execTake (x : TakeOps) (s : State) : Out := .next (laneOp x.g (fun _ => takeLane x) s)

/-- The state word of GSTAT (R229). -/
def gstatWord (s : State) (t : Thread) : Word :=
  match regionOf s t with
  | none => 0
  | some r =>
    let ts := (genThreads s (warpKeyOf t) r).map (·.2)
    w32 (bnum (inPass r t.lane) * 2 ^ 25 + 2 ^ 24 + ts.length * 2 ^ 16
      + (ts.filter (fun u => !bitOf r.fin u.lane)).length * 2 ^ 8 + r.buf.length)

def execGstat (x : OpD) (s : State) : Out :=
  .next (groupOp x.g (fun gid _ act s =>
    let s' := act.foldl (fun s' k => modThread s' k (fun t => tSet t x.d (gstatWord s t))) s
    advance s' gid) s)

end Sys2Proof.Machine
end

