-- ==== Sys2Proof/Machine/Control.lean ====
section
/-! DEFINITION. Control transfers and EXIT (R230-R232), RET to a token (R310), and the traps and hints TRAP, BKPT, PHINT,
SLEEP (R233-R236). -/

namespace Sys2Proof.Machine

/-- The lane functions of a transfer: a misaligned destination faults the lane with class 3 (R231). -/
def transferLane (dest : Group → Thread → DWord) (call : Bool) (g : Group) : LaneFn := fun k t s =>
  let d := dest g t
  if d.toNat % 8 ≠ 0 then (s, some (faultOf 3 0 d 8))
  else
    let s := leaveGroup s k
    (modThread s k (fun t => toEntry d (if call then { t with lk := nextHdr g.pass } else t)), none)

/-- A transfer of an issue group: threads whose guard is false fall through to the next header (R231). -/
def transferOp (gd : Guard) (dest : Group → Thread → DWord) (call : Bool) (s : State) : State :=
  groupOp gd (fun gid g act s =>
    let (s', fs) := foldLanes (transferLane dest call g) act s
    genChecks (splitGroup s s' gid g fs false) act) s

/-- header + OFS (R230). -/
def relDest (ofs : Word) (g : Group) (_ : Thread) : DWord := g.pass.hdr + ofs.signExtend 64

/-- BRA, also in a STR clause (R143). -/
def execBra (x : RelOps) (s : State) : Out :=
  match s.cur with
  | .slice qk => .next (modSlice s qk (fun c => match c.pass with
      | some p => { c with pc := p.hdr + x.ofs.signExtend 64, pass := none }
      | none => c))
  | _ => .next (transferOp x.g (relDest x.ofs) false s)

def execBrx (x : OpS) (s : State) : Out := .next (transferOp x.g (fun _ t => tPair t x.a) false s)
def execCall (x : RelOps) (s : State) : Out := .next (transferOp x.g (relDest x.ofs) true s)
def execCallReg (x : OpS) (s : State) : Out := .next (transferOp x.g (fun _ t => tPair t x.a) true s)

/-- Whether a thread in its handler returns to its own token (R310). -/
def toToken (t : Thread) : Bool := t.hand != .none && t.frag != 0 && t.lk == tokenOf t.frag

/-- RET: a thread that names its own token resumes alone (Table 18-4); the others go to lk. -/
def execRet (gd : Guard) (s : State) : Out :=
  .next (groupOp gd (fun gid g act s =>
    let lane : LaneFn := fun k t s =>
      if toToken t then (match entrySilent s (fragKeyOfId t.frag) with
        | some d => (s, some (waitInfo d))
        | none => (rteCheck (resumeMembers s (fragKeyOfId t.frag) [k]) t.frag, none))
      else transferLane (fun _ t => t.lk) false g k t s
    let (s', fs) := foldLanes lane act s
    genChecks (splitGroup s s' gid g fs false) act) s)

/-- One lane of EXIT (R232): inside a generator region it is a misuse (R43). -/
def exitLane : LaneFn := fun k t s =>
  if (regionOf s t).isSome then (s, some (genFault 4))
  else (rteCheck (exitThread s k) t.frag, none)

def execExit (gd : Guard) (s : State) : Out := .next (laneOp gd (fun _ => exitLane) s)

/-! ## Traps and hints -/

/-- TRAP and BKPT (R234): every active lane takes the trap and resumes after the slot. -/
def trapOp (cause : Nat) (x : CodeOps) (s : State) : State :=
  groupOp x.g (fun gid g act s => faultAll s gid g act (fun _ => faultOf cause 0 (x.code.setWidth 64) 0) true) s

def execTrap (x : CodeOps) (s : State) : Out := .next (trapOp 10 x s)
def execBkpt (x : CodeOps) (s : State) : Out := .next (trapOp 11 x s)

/-- A thread stops at a slot of its pass (R317): it leaves its group, which it rejoins with those that stop with it (R28); a
thread in handler state is saved whole. -/
def stopAt (s : State) (k : Nat) (p : Pass) (why : Stop) : State :=
  modThread (leaveGroup s k) k (fun t =>
    let why := if t.hand == .none then why else .whole
    let t := { t with team := match t.st with
      | .grouped g => g
      | _ => 0 }
    if p.slot < p.words.length then { t with st := .entry, pc := slotPc p, pass := some p, stop := why }
    else { toEntry (nextHdr p) t with stop := why })

/-- PHINT (R235): with a request pending for its warp, each active thread stops after it with the named record. -/
def execPhint (x : PhintOps) (s : State) : Out :=
  .next (groupOp x.g (fun gid g act s =>
    let due := act.filter (fun k => match (getThread s k).bind (warpOf s) with
      | some w => w.preq.isSome
      | none => false)
    let s := due.foldl (fun s k => stopAt s k { g.pass with slot := g.pass.slot + 1 } (.byRecord x.rofs)) s
    advance s gid) s)

/-- SLEEP (R236): issue is suspended; SLEEP_END lets the group go on. -/
def execSleep (x : CodeOps) (s : State) : Out :=
  .next (groupOp x.g (fun gid _ act s =>
    if act.isEmpty then advance s gid else setHold s gid (.sleep (s.clock + x.code.setWidth 64))) s)

/-- SLEEP_END: the group goes on; it may do so before the clocks have passed (R236). -/
def execSleepEnd (gid : Nat) (s : State) : Out :=
  .next (match getGroup s gid with
    | some g => (match g.hold with
      | .sleep _ => advance s gid
      | _ => s)
    | none => s)

end Sys2Proof.Machine
end

