-- ==== Sys2Proof/Machine/Float.lean ====
section
/-! DEFINITION. Floating-point, conversion and packing instructions (R173-R184) and the bound, budget and flag
instructions (R192-R197). -/

namespace Sys2Proof.Machine

/-- Write a unit's result with its bound and flags, after the breach check (R77, R174). -/
def deliver (t : Thread) (wide : Bool) (d : VReg) (r : Deliv) : Except FInfo Thread :=
  (breachRule t r.bnd r.fl).map (fun fl => orFlags (setRegs t (wrTy wide d r.bits r.bnd)) fl)

/-- The same without a breach check. -/
def deliverFree (t : Thread) (wide : Bool) (d : VReg) (r : Deliv) : Except FInfo Thread :=
  .ok (orFlags (setRegs t (wrTy wide d r.bits r.bnd)) r.fl)

/-- FADD, FSUB, FMUL (R174). -/
def fltBin (k : FKind) (negB : Bool) (x : FltRR) (s : State) : State :=
  threadOp x.g (fun t =>
    let w := x.ty.wide
    deliver t w x.d (governed k x.ty x.tier x.rnd x.sat t.bud x.m negB (tVal t w x.a) (tVal t w x.b) 0
      (tBnd t x.a) (tBnd t x.b) 0)) s

def execFadd (x : FltRR) (s : State) : Out := .next (fltBin .add false x s)
def execFsub (x : FltRR) (s : State) : Out := .next (fltBin .add true x s)
def execFmul (x : FltRR) (s : State) : Out := .next (fltBin .mul false x s)

def execFfma (x : FltRRR) (s : State) : Out :=
  .next (threadOp x.g (fun t =>
    let w := x.ty.wide
    deliver t w x.d (governed .fma x.ty x.tier x.rnd x.sat t.bud x.m false (tVal t w x.a) (tVal t w x.b) (tVal t w x.c)
      (tBnd t x.a) (tBnd t x.b) (tBnd t x.c))) s)

/-- FMIN, FMAX (R175): no breach is checked. -/
def fltMinMax (lo : Bool) (x : FltMM) (s : State) : State :=
  threadOp x.g (fun t =>
    let w := x.ty.wide
    deliverFree t w x.d (minMax lo x.ty x.m (tVal t w x.a) (tVal t w x.b) (tBnd t x.a) (tBnd t x.b))) s

def execFmin (x : FltMM) (s : State) : Out := .next (fltMinMax true x s)
def execFmax (x : FltMM) (s : State) : Out := .next (fltMinMax false x s)

/-- FSET (R177); with `.sx` a second predicate receives the straddle report. Where both fields name one predicate the report is
written last: R177 gives no order (DESIGN CHOICE, log 87). -/
def execFset (x : FsetOps) (s : State) : Out :=
  .next (threadOp x.g (fun t =>
    let w := x.ty.wide
    let a := fvMod x.m.na x.m.aa (elemOf x.ty (tVal t w x.a) 0)
    let b := fvMod x.m.nb x.m.ab (elemOf x.ty (tVal t w x.b) 0)
    let rep := fsetReport x.cond a b (bdOf (tBnd t x.a)) (bdOf (tBnd t x.b))
    let u := setPred t x.p (fsetHolds x.cond a b)
    let u := if x.sx then setPred u x.q rep else u
    .ok (orFlags u (flIf (fvIsSig a || fvIsSig b) flNV))) s)

def execFrnd (x : FltU) (s : State) : Out :=
  .next (threadOp x.g (fun t =>
    deliver t x.ty.wide x.d (frndRes x.ty x.rnd x.na x.aa (tVal t x.ty.wide x.a) (tBnd t x.a))) s)

/-- An instruction of the function unit (R178). -/
def funcUnit (u : FUnit) (x : FltU) (s : State) : State :=
  threadOp x.g (fun t =>
    deliver t x.ty.wide x.d (fuRes u x.ty x.rnd x.na x.aa (tVal t x.ty.wide x.a) (tBnd t x.a))) s

def execFrcp (x : FltU) (s : State) : Out := .next (funcUnit .rcp x s)
def execFrsq (x : FltU) (s : State) : Out := .next (funcUnit .rsq x s)
def execFsqrt (x : FltU) (s : State) : Out := .next (funcUnit .sqrt x s)
def execFexp2 (x : FltU) (s : State) : Out := .next (funcUnit .exp2 x s)
def execFlog2 (x : FltU) (s : State) : Out := .next (funcUnit .log2 x s)

def execFscl (x : FsclOps) (s : State) : Out :=
  .next (threadOp x.g (fun t =>
    deliver t x.ty.wide x.d
      (fsclRes x.ty x.rnd x.sat x.na x.aa (tVal t x.ty.wide x.a) (tBnd t x.a) (tWord t x.b).toInt)) s)

/-- FCLS (R180): for `.f64` the mask occupies the even register of the pair. -/
def execFcls (x : FclsOps) (s : State) : Out :=
  .next (threadOp x.g (fun t =>
    .ok (setRegs t (wrTy x.ty.wide x.d ((fclsRes x.ty (tVal t x.ty.wide x.a)).setWidth 64) 0))) s)

def execCvt (x : CvtOps) (s : State) : Out :=
  .next (threadOp x.g (fun t =>
    deliverFree t x.dst.wide x.d
      (cvtRes x.src x.dst x.elem.toNat x.rnd x.sat x.na x.aa (tVal t x.src.wide x.a) (tBnd t x.a))) s)

def execCvtiF2i (x : CvtiOps) (s : State) : Out :=
  .next (threadOp x.g (fun t =>
    deliverFree t x.ity.wide x.d (f2iRes x.ity x.fmt x.rnd x.na x.aa (tVal t x.fmt.wide x.a) (tBnd t x.a))) s)

def execCvtiI2f (x : CvtiOps) (s : State) : Out :=
  .next (threadOp x.g (fun t =>
    deliverFree t x.fmt.wide x.d (i2fRes x.ity x.fmt x.rnd (tVal t x.ity.wide x.a) (tBnd t x.a))) s)

/-- [3:0] of byte i. -/
def lowNib (w : Word) (i : Nat) : Nat := w.toNat / 2 ^ (8 * i) % 16

/-- PK4 (R184). -/
def pk4Word (a b : Word) : Word :=
  w32 ((List.range 4).foldl (fun n i => n + lowNib a i * 2 ^ (4 * i) + lowNib b i * 2 ^ (16 + 4 * i)) 0)

def execPk4 (x : Pk4Ops) (s : State) : Out :=
  .next (threadOp x.g (fun t =>
    .ok (setReg t x.d.toNat ⟨pk4Word (tWord t x.a) (tWord t x.b), bndMax (tBnd t x.a) (tBnd t x.b)⟩)) s)

/-- UPK4 (R184). -/
def upk4Word (signed hi : Bool) (a : Word) : Word :=
  w32 ((List.range 4).foldl (fun n i =>
    let v := a.toNat / 2 ^ (4 * (i + if hi then 4 else 0)) % 16
    n + (if signed && decide (8 ≤ v) then v + 0xF0 else v) * 2 ^ (8 * i)) 0)

def execUpk4 (x : Upk4Ops) (s : State) : Out :=
  .next (threadOp x.g (fun t => .ok (setReg t x.d.toNat ⟨upk4Word x.signed x.hi (tWord t x.a), tBnd t x.a⟩)) s)

/-! ## Bounds, budget and flags (R192-R197) -/

/-- The exact binary32 value of a bound; unbounded is +∞ (R193). -/
def bndF32 (b : BitVec 16) : Word := match bdOf b with
  | none => 0x7F800000
  | some d => f32Bits (.fin false d.m.natAbs d.e)

def execBrd (x : BrdOps) (s : State) : Out :=
  .next (threadOp x.g (fun t => .ok (tSet t x.d (if x.f then bndF32 (tBnd t x.a) else (tBnd t x.a).setWidth 32))) s)

/-- βb of BRAISE (R194). -/
def raiseBd (f32 : Bool) (b : Word) : Bd := if f32 then fvMag (f32Of b) else bdOf (b.setWidth 16)

def execBraise (x : BraiseOps) (s : State) : Out :=
  .next (threadOp x.g (fun t =>
    let bb := raiseBd x.f32 (tWord t x.b)
    let bd := if x.set then bb else bdAdd (bdOf (tBnd t x.a)) bb
    .ok (setRegs t (wrTy x.pair x.d (tVal t x.pair x.a) (upBd bd)))) s)

/-- Whether a word is a budget state (R195). -/
def budOk (w : Word) : Bool := w.toNat % 4 != 3 && w.toNat / 4 % 64 == 0 && w.toNat / 2 ^ 11 % 32 == 0

def execBudget (x : OpS) (s : State) : Out :=
  .next (threadOp x.g (fun t =>
    let w := tWord t x.a
    .ok (if budOk w then { t with bud := w } else orFlags t flNV)) s)

def execBudgetImm (x : ImmOps) (s : State) : Out :=
  .next (threadOp x.g (fun t => .ok { t with bud := x.imm }) s)

/-- BCHK (R196). -/
def execBchk (x : BchkOps) (s : State) : Out :=
  .next (threadOp x.g (fun t =>
    let lim := if x.reg then (tWord t x.b).setWidth 16 else budB t.bud
    let b := tBnd t x.a
    if bdLe (bdOf b) (bdOf lim) then .ok (setPred t x.p true)
    else if x.trap && budMode t.bud == 1 then .error (faultOf 4 0 (d64 (b.toNat + lim.toNat * 65536)) 0)
    else
      let u := setPred t x.p false
      .ok (if x.trap && budMode t.bud == 2 then orFlags u flBD else u)) s)

def execFlgrd (x : OpD) (s : State) : Out :=
  .next (threadOp x.g (fun t => .ok (tSet t x.d (t.flags.setWidth 32))) s)

/-- FLGRD.clr clears each flag whose bit is set in a (R197). -/
def execFlgrdClr (x : OpDA) (s : State) : Out :=
  .next (threadOp x.g (fun t =>
    let a := tWord t x.a
    .ok { tSet t x.d (t.flags.setWidth 32) with flags := t.flags &&& ~~~(a.setWidth 8) }) s)

end Sys2Proof.Machine
end

