-- ==== Sys2Proof/Machine/Count.lean ====
section
/-! DEFINITION. Count objects (R109, R110, R213-R217): their layout, the one atomic update every agent makes, and CSIG,
CPEND, CWAIT, CRD. -/

namespace Sys2Proof.Machine

/-- COUNT, PEND and FLAGS of Table 5-6. -/
structure CObj where
  count : Nat
  pend : Nat
  flags : Byte
deriving DecidableEq, Repr, Inhabited

/-- The object 32 bytes hold; none when a reserved bit is set. -/
def cobjOf (l : List Byte) : Option CObj :=
  let n := leNat l
  if n / 2 ^ 92 % 16 ≠ 0 || n / 2 ^ 104 ≠ 0 then none
  else some ⟨n % 2 ^ 64, n / 2 ^ 64 % 2 ^ 28, BitVec.ofNat 8 (n / 2 ^ 96)⟩

def cobjBytes (c : CObj) : List Byte := leBytes 32 (c.count + c.pend * 2 ^ 64 + c.flags.toNat * 2 ^ 96)

/-- What an update does: added to COUNT, added to PEND, OR-ed into FLAGS. -/
structure CUpd where
  count : Nat
  pend : Int
  flags : Byte
deriving DecidableEq, Repr, Inhabited

/-- The update of an object; a refused one gives the REASON of class 8 (R214, R365). -/
def cobjUpd (c : Option CObj) (u : CUpd) : Except Nat CObj :=
  match c with
  | none => .error 2
  | some c =>
    let p : Int := c.pend + u.pend
    if 2 ^ 64 ≤ c.count + u.count then .error 0
    else if p < 0 ∨ 2 ^ 28 ≤ p then .error 1
    else .ok ⟨c.count + u.count, p.toNat, c.flags ||| u.flags⟩

/-- Update the object at a location that no lock holds; its words' codes become 0 (R110). -/
def cobjStep (s : State) (a : Acc) (u : CUpd) : Except Nat Unit × State :=
  let (g, s) := accRead s a 32
  match cobjUpd (cobjOf g.bytes) u with
  | .error r => (.error r, s)
  | .ok c =>
    let s := (pokeLoc s a.loc a.stash (cobjBytes c) (List.replicate 8 0) false).1
    (.ok (), touchStash s a.stash (physLine a.loc) true)

/-- A lane's object: R198's checks, then a mapped stash range (R215). -/
def cobjAcc (s : State) (t : Thread) (sp : Space) (va : DWord) (k : AKind) (operand : DWord) : Except FInfo Acc × State :=
  match resolve s t sp va 32 32 k with
  | (.error f, s) => (.error f, s)
  | (.ok a, s) => if a.stash.isSome then (.error (faultOf 8 3 va operand), s) else (.ok a, s)

/-- One lane of CSIG or CPEND (R214). `held` is the update as a migration lock holds it. -/
def cobjLane (x : CobjOps) (u : Thread → CUpd) (held : Thread → WOp) (gid : Nat) : LaneFn := fun k t s =>
  let va := operandAddr t x.space x.a 0
  let v := tVal t x.wide x.b
  match cobjAcc s t x.space va .atomic v with
  | (.error f, s) => (s, some f)
  | (.ok a, s) =>
    let s := homeAcc s a.loc true
    match locLock s a.loc with
    | some p => (laneHeld s p gid k a.loc (laneVia s t x.space va .atomic) (held t), none)
    | none =>
      match cobjStep s a (u t) with
      | (.error r, s) => (s, some (faultOf 8 r va v))
      | (.ok _, s) => (s, none)

def csigLane (fl : Bool) (x : CobjOps) (gid : Nat) : LaneFn :=
  let f (t : Thread) : Byte := if fl then t.flags else 0
  cobjLane x (fun t => ⟨(tVal t x.wide x.b).toNat, 0, f t⟩) (fun t => .csig (tVal t x.wide x.b) fl) gid

def cpendLane (sub : Bool) (x : CobjOps) (gid : Nat) : LaneFn :=
  let v (t : Thread) : Nat := (tVal t x.wide x.b).toNat
  cobjLane x (fun t => ⟨0, if sub then -(v t : Int) else v t, 0⟩) (fun t => .cpend (v t) sub) gid

def execCsig (x : CobjOps) (s : State) : Out := .next (laneOp x.g (csigLane false x) s)
def execCsigFl (x : CobjOps) (s : State) : Out := .next (laneOp x.g (csigLane true x) s)
def execCpendAdd (x : CobjOps) (s : State) : Out := .next (laneOp x.g (cpendLane false x) s)
def execCpendSub (x : CobjOps) (s : State) : Out := .next (laneOp x.g (cpendLane true x) s)

/-! ## CWAIT (R216) -/

/-- One evaluation for a lane: whether COUNT has reached the target with PEND 0. -/
def cwaitEval (s : State) (t : Thread) (sp : Space) (va target : DWord) : Except FInfo Bool × State :=
  match cobjAcc s t sp va .read target with
  | (.error f, s) => (.error f, s)
  | (.ok a, s) =>
    let (g, s) := accRead (homeAcc s a.loc false) a 32
    match cobjOf g.bytes with
    | none => (.error (faultOf 8 2 va target), s)
    | some c => (.ok (decide (target.toNat ≤ c.count) && c.pend == 0), s)

def cwaitLane (x : CobjOps) (gid : Nat) : LaneFn := fun k t s =>
  let va := operandAddr t x.space x.a 0
  let target := tVal t x.wide x.b
  match cwaitEval s t x.space va target with
  | (.error f, s) => (s, some f)
  | (.ok true, s) => (learnAway s k, none)
  | (.ok false, s) => (addWait s gid k (.cobj x.space va target), none)

/-- CWAIT: a lane whose condition does not hold waits; the group has left the slot and stands until no lane waits. -/
def execCwait (x : CobjOps) (s : State) : Out := .next (laneOp x.g (cwaitLane x) s)

/-- Evaluate the waiting lanes of a group again, in order: those that still wait, and those that fault. -/
def reWaits (gid : Nat) : List (Nat × Wait) → State → State × List (Nat × Wait) × List (Nat × FInfo)
  | [], s => (s, [], [])
  | (k, .cobj sp va target) :: r, s =>
    match getThread s k with
    | none => reWaits gid r s
    | some t =>
      match cwaitEval s t sp va target with
      | (.error f, s') =>
        if f.waits then let (s, ws, fs) := reWaits gid r (wakeFor s' [f]); (s, (k, .cobj sp va target) :: ws, fs)
        else let (s, ws, fs) := reWaits gid r s'; (s, ws, (k, f) :: fs)
      | (.ok true, s) => reWaits gid r (learnAway s k)
      | (.ok false, s) => let (s, ws, fs) := reWaits gid r s; (s, (k, .cobj sp va target) :: ws, fs)
  | w :: r, s => let (s, ws, fs) := reWaits gid r s; (s, w :: ws, fs)

/-- A group whose waits are over goes on, or closes after its last slot. -/
def settleGroup (s : State) (gid : Nat) : State :=
  match getGroup s gid with
  | some g => if g.waits.isEmpty && decide (g.pass.words.length ≤ g.pass.slot) then closeGroup s gid else s
  | none => s

/-- Held writes of threads that enter a handler without an entry are given up: their slot executes afresh (R35, R312). -/
def dropHeld (s : State) (ks : List Nat) : State :=
  { s with parts := s.parts.map (fun e => (e.1, { e.2 with held := e.2.held.filter (fun h => !ks.contains h.thread) })) }

/-- Lanes of a waiting group fault at the slot they wait in, which the group has already left. With no entry free, the lanes that
still wait there enter the handler with them; a lane that has completed the slot stays out (DESIGN CHOICE, log 109). -/
def lateFaults (s0 s : State) (gid : Nat) (fs : List (Nat × FInfo)) : State :=
  match getGroup s gid with
  | none => s
  | some g =>
    if fs.isEmpty then settleGroup s gid
    else
      let p := { g.pass with slot := g.pass.slot - 1 }
      let whole := g.members.filter (fun k => fs.any (fun f => f.1 == k) || g.waits.any (fun w => w.1 == k))
      let (s', out) := raise s0 s whole fs (slotPc p) (some p) (slotPc p) (some p)
      settleGroup (if out then dropHeld s' whole else s') gid

/-- CWAIT_REEVALUATE (R216): lanes whose condition holds leave the wait, a lane that finds reserved bits parks. -/
def execCwaitReevaluate (gid : Nat) (s : State) : Out :=
  .next (match getGroup s gid with
    | none => s
    | some g =>
      let (s1, ws, fs) := reWaits gid g.waits s
      if faultsWait s fs then { s with fresh := s1.fresh }
      else match faultsAsk s fs with
      | some d => wakeDie { s with fresh := s1.fresh } d
      | none => lateFaults s (modGroup s1 gid (fun g => { g with waits := ws })) gid fs)

/-! ## CRD (R217) -/

def crdLane (x : CrdOps) : LaneFn := fun k t s =>
  let va := operandAddr t x.space x.a 0
  match cobjAcc s t x.space va .read 0 with
  | (.error f, s) => (s, some f)
  | (.ok a, s) =>
    let (g, s) := accRead (homeAcc s a.loc false) a 32
    match cobjOf g.bytes with
    | none => (s, some (faultOf 8 2 va 0))
    | some c =>
      let d := x.d.toNat
      (learnBy x.ord (modThread s k (fun t => setRegs t [(d, ⟨w32 c.count, 0⟩), (d + 1, ⟨w32 (c.count / 2 ^ 32), 0⟩),
        (d + 2, ⟨w32 c.pend, 0⟩), (d + 3, ⟨c.flags.setWidth 32, 0⟩)])) k, none)

def execCrd (x : CrdOps) (s : State) : Out := .next (laneOp x.g (fun _ => crdLane x) s)

end Sys2Proof.Machine
end

