-- ==== Sys2Proof/Machine/Agents.lean ====
section
/-! DEFINITION. Agents without threads: their waits on faults (R315, R316), their writes under a migration lock (R134), and
their count-object updates (R365). -/

namespace Sys2Proof.Machine

/-- Whether a member of a group is stopped for a save, or its warp saved: the group does not issue (R317). -/
def groupStopped (s : State) (g : Group) : Bool :=
  g.members.any (fun k => match getThread s k with
    | some t => t.stop != .running || (match warpOf s t with
      | some w => w.saved
      | none => false)
    | none => false)

/-- The core of a core group. -/
def coreAt (s : State) (ck : Nat) : Nat := match Map.get? s.coreGroups ck with
  | some c => c.core
  | none => 0

/-- The quad group's core, quad and partition. -/
def quadCore (s : State) (qk : Nat) : Nat := coreAt s (qk / 4)

def quadNo (s : State) (qk : Nat) : Nat := match Map.get? s.quadGroups qk with
  | some q => q.quad
  | none => 0

def quadPart (s : State) (qk : Nat) : Nat := cgPart s (qk / 32)

def launchOf (s : State) (p serial : Nat) : Option Launch := Map.get? s.launches (launchKey p serial)

/-- Agent kind and identity as ARG0 of KIND 10 (Table 18-6). -/
def agentName (s : State) (p : Nat) (a : Agent) : DWord :=
  let mk (k n : Nat) : DWord := d64 (k * 2 ^ 56 + n % 2 ^ 56)
  match a with
  | .slice qk => mk 1 (quadCore s qk * 4 + quadNo s qk)
  | .job id => mk 2 (match Map.get? (partOf s p).jobs id with
    | some j => j.card.cobj.toNat
    | none => 0)
  | .fill ck => mk 3 (match Map.get? s.clusterGroups (ck / 8) with
    | some g => g.serial
    | none => 0)
  | .compl cg | .cbmp cg => mk 4 (match Map.get? s.clusterGroups cg with
    | some g => g.serial
    | none => 0)
  | .gcur serial _ | .done serial | .dep serial _ | .header serial => mk 4 serial
  | .record | .evCobj => mk 5 p
  | .copy slot | .copyCobj slot => mk 6 slot
  | .land n | .landCobj n => mk 6 (match Map.get? s.host.landing n with
    | some x => x.slot
    | none => 0)
  | .take _ | .group _ | .posted | .hdm | .recPort => 0

/-- SRC of an agent's events: a turret's and an input-tile fill's core, whose units they are (R113, R295). -/
def agentSrc (s : State) (p : Nat) : Agent → Word
  | .slice qk => w32 (quadCore s qk)
  | .fill ck => w32 (coreAt s ck)
  | _ => domeSrc p

/-- Access kind of a fault of class 1 or 2. -/
def faultKind (f : FInfo) : Nat := f.arg1.toNat % 8

/-- The agent posts KIND 10 and waits (R316). -/
def agentWait (s : State) (p : Nat) (a : Agent) (f : FInfo) : State :=
  let s := postEvent s p (agentSrc s p a) 10 f.cause f.reason (agentName s p a) f.arg0
    (d64 (faultKind f + if f.cause = 2 then 8 else 0))
  setPart s p (fun q => { q with agents := q.agents ++ [(a, f)] })

/-- An agent waits without an event: its access cannot be made yet (`waitInfo`), and is made again when what it waits for has
ended. -/
def silentWait (s : State) (p : Nat) (a : Agent) (f : FInfo) : State :=
  setPart s p (fun q => { q with agents := q.agents ++ [(a, f)] })

def agentWaits (s : State) (p : Nat) (a : Agent) : Bool := (partOf s p).agents.any (fun e => e.1 == a)

def agentDone (s : State) (p : Nat) (a : Agent) : State :=
  setPart s p (fun q => { q with agents := q.agents.filter (fun e => e.1 != a) })

/-- What an abandoned access ends as: a permission fault (R316). -/
def abandoned (f : FInfo) : FInfo :=
  faultOf 2 (match faultKind f with
    | 2 => 1
    | 4 => 2
    | _ => 0) f.arg0 (d64 (faultKind f))

/-! ## Writes, and what holds them (R134) -/

/-- The bound a job's rewrite gives a word (R259). -/
def reboundOf (op : Nat) (b old : BitVec 16) : BitVec 16 := if op = 0 then b else upBd (bdAdd (bdOf old) (bdOf b))

/-- Rewrite the bound of the word at a location; its value stays. BD where the bound is dropped; a page that is not tracked
drops it. -/
def reboundStep (s : State) (loc : Loc) (op : Nat) (b : BitVec 16) : Bool × State :=
  match loc with
  | .scr _ _ => (false, s)
  | .phys a k bt =>
    let s := openLoc (combineWrite s (lineOf a)) (.phys a k bt)
    if bt then
      let b := [reboundOf op b (physBound s.mem true a)]
      (dropsBound s.mem true a b, { s with mem := markDirty (putBounds s.mem true a b) (lineOf a) })
    else (true, s)

/-- Replace the record of a location's line (R356). -/
def recordStep (s : State) (loc : Loc) (r : BRec) : State :=
  match loc with
  | .scr _ _ => s
  | .phys a k _ => dropStash { combineWrite s (lineOf a) with mem := markDirty (setRec (openLine s.mem (lineOf a) k) (lineOf a) r) (lineOf a) } (lineOf a) none

/-- A write takes effect at a location that no lock holds: whether a bound was dropped, or the REASON of class 8 of a
count-object update that the object refuses. `k` is the thread that waits in it, 0 where none does; its flags, destination and what it acquires
change with the write (R65, R211). -/
def applyOp (s : State) (k : Nat) (loc : Loc) (op : WOp) : Except Nat Bool × State :=
  let a : Acc := ⟨loc, none⟩
  let upd (u : CUpd) : Except Nat Bool × State := match cobjStep s a u with
    | (.ok _, s) => (.ok false, s)
    | (.error r, s) => (.error r, s)
  match op with
  | .store data bnds narrow fl =>
    let (s, bd) := pokeLoc s loc none data bnds narrow
    (.ok bd, if k = 0 then s else modThread s k (fun t => orFlags t (fl ||| flIf bd flBD)))
  | .atom op ty b bb (some d) ord => (.ok false, learnBy ord (atomStep s k a op ty b bb (some d)) k)
  | .atom op ty b bb none _ => (.ok false, redStep s k a op ty b bb)
  | .acas ty b c cb d ord => (.ok false, learnBy ord (acasStep s k a ty b c cb d) k)
  | .csig v fl => upd ⟨v.toNat, 0, match getThread s k with
    | some t => if fl then t.flags else 0
    | none => 0⟩
  | .cpend v sub => upd ⟨0, if sub then -(v : Int) else v, 0⟩
  | .cobj count pend flags => upd ⟨count, pend, flags⟩
  | .orByte b =>
    let (g, s) := readLoc s loc 1
    (.ok false, (pokeLoc s loc none (leBytes 1 (leNat g.bytes ||| b.toNat)) [0] true).1)
  | .rebound op b => let (bd, s) := reboundStep s loc op b; (.ok bd, s)
  | .record r => (.ok false, recordStep s loc r)
  | .own => (.ok false, s)

/-- An agent's write at a location: while a lock holds it the agent does not go on; else it is made at once and `go` goes on
with what it did. -/
def agentWrite (s : State) (p : Nat) (a : Agent) (loc : Loc) (via : Option Via) (op : WOp)
    (go : Except Nat Bool → State → State) : State :=
  match locLock s loc with
  | some q => holdWrite s q ⟨0, loc, via, op, some (p, a), .land⟩
  | none => let (e, s) := applyOp s 0 loc op; go e s

/-- A write of the device's own agents at a physical address (R364), in the same way. -/
def physWrite (s : State) (p : Nat) (a : Agent) (pa : Nat) (l : List Byte) (go : State → State) : State :=
  match holdOf s pa with
  | some q => holdWrite s q ⟨0, physLoc pa, none, .store l (List.replicate (l.length / 4) 0) false 0, some (p, a), .land⟩
  | none => go (physPoke s pa l)

/-! ## Count objects (R365) -/

/-- CAUSE and REASON of a refused update; none where it was made. -/
abbrev Refused := Option (Nat × Nat)

def refusedBy (e : Except Nat Bool) : Refused := match e with
  | .error r => some (8, r)
  | .ok _ => none

/-- An agent updates the object at a virtual address: `fault` is what it does at a fault of its access, and `go` how it goes
on. -/
def agentCobj (s : State) (p : Nat) (a : Agent) (w : Who) (va : DWord) (u : CUpd) (fault : FInfo → State → State)
    (go : Refused → State → State) : State :=
  if va.toNat % 32 ≠ 0 then go (some (3, 0)) s
  else match reach s w va .atomic with
    | (.error f, s) => if f.waits then s else fault f s
    | (.ok l, s) => agentWrite s p a l (some ⟨w, va, .atomic⟩) (.cobj u.count u.pend u.flags) (fun e => go (refusedBy e))

/-- One of the device's own agents updates the object at a physical address, as R364 writes it. -/
def physCobj (s : State) (p : Nat) (a : Agent) (pa : Nat) (u : CUpd) (go : Refused → State → State) : State :=
  if pa % 32 ≠ 0 then go (some (3, 0)) s
  else match holdOf s pa with
    | some q => holdWrite s q ⟨0, physLoc pa, none, .cobj u.count u.pend u.flags, some (p, a), .land⟩
    | none => match cobjUpd (cobjOf (rawBytes s.mem pa 32)) u with
      | .error r => go (some (8, r)) s
      | .ok c => go none (physPoke s pa (cobjBytes c))

/-- KIND 12: the object, the refusing agent, the refused operand (R365). -/
def refusedEvent (s : State) (p : Nat) (src : Word) (cause reason : Nat) (obj name : DWord) (u : CUpd) (quiet : Bool := false) :
    State :=
  postEvent s p src 12 cause reason obj name
    (if reason = 0 && cause == 8 then d64 u.count else if u.pend = 0 then d64 u.count else d64 u.pend.natAbs) quiet

end Sys2Proof.Machine
end

