-- ==== Sys2Proof/Machine/Jobs.lean ====
section
/-! DEFINITION. Work created by a kernel: JOB with the footprint scheduler (R115-R117, R258-R260), GROW (R261, R44,
R283) and LNCH (R262, R275, R276). -/

namespace Sys2Proof.Machine

/-! ## Job cards (R259) -/

def bits (l : List Byte) (o n : Nat) : Nat := leNat ((l.drop o).take n)

/-- The card of 64 bytes, unless step 3 of R260 refuses it. A copy's or fill's SRC and DST that are not multiples of 4 are
accepted, since R259 asks for multiples of the strides and LEN alone: each of its words then moves as 4 bytes, with the bound
of the word that holds the first (DESIGN CHOICE, log 76). -/
def cardOf (l : List Byte) : Option Card :=
  let w0 := bits l 0 4
  let w34 := bits l 0x34 4
  let c : Card := {
    devc := w0 / 2 ^ 9 % 8, inc := w0 / 2 ^ 8 % 2 == 1, cnt := w0 / 2 ^ 7 % 2 == 1, scope := w0 / 16 % 8, kind := w0 % 16,
    src := d64 (bits l 8 8), dst := d64 (bits l 0x10 8), cobj := d64 (bits l 0x18 8),
    rows := bits l 0x20 4 % 2 ^ 16 + 1, len := bits l 0x24 4, sstr := sint 32 (bits l 0x28 4), dstr := sint 32 (bits l 0x2C 4),
    val := w32 (bits l 0x30 4), rwop := w34 / 2 ^ 16 % 4, bval := BitVec.ofNat 16 w34 }
  let zeros := w0 / 2 ^ 12 == 0 && bits l 4 4 == 0 && bits l 0x20 4 / 2 ^ 16 == 0 && w34 / 2 ^ 18 == 0 && bits l 0x38 8 == 0
    && (c.kind == 0 || c.src == 0) && (c.cnt || c.cobj == 0) && (c.kind == 1 || c.val == 0) && (c.kind == 2 || c.rwop == 0)
    && (c.kind != 0 || c.bval == 0)
  let codes := decide (c.devc ≤ 5) && c.scope != 6 && decide (c.kind ≤ 2) && decide (c.rwop ≤ 1)
  let mults := decide (4 ≤ c.len) && c.len % 4 == 0 && c.sstr % 4 == 0 && c.dstr % 4 == 0
    && (c.kind != 2 || (c.dst.toNat % 128 == 0 && c.dstr % 128 == 0 && c.len % 128 == 0))
  if zeros && codes && mults && decide (c.rows * c.len < 2 ^ 28) && (c.cnt || !c.inc) then some c else none

def cardBytes (c : Card) : Nat := c.rows * c.len

/-- Address of byte `o` of row r of a pattern. -/
def patternVa (base : DWord) (stride : Int) (r o : Nat) : DWord := base + BitVec.ofInt 64 (stride * r) + d64 o

/-! ## Footprints and edges (R115, R116) -/

/-- The physical lines of a pattern; none when a line does not translate. -/
def patternLines (s : State) (w : Who) (base : DWord) (stride : Int) (c : Card) (k : AKind) : Option (List Nat) :=
  let vas := (List.range c.rows).flatMap (fun r =>
    let a := patternVa base stride r 0
    let n := (a.toNat % 128 + c.len + 127) / 128
    (List.range n).map (fun i => a - d64 (a.toNat % 128) + d64 (128 * i)))
  vas.foldl (fun acc va => acc.bind (fun l => match peekTranslate s w va k with
    | some (.phys a _ _) => some (if l.contains (lineOf a) then l else l ++ [lineOf a])
    | _ => none)) (some [])

def footprints (s : State) (w : Who) (c : Card) : Option (List Nat) × Option (List Nat) :=
  let wr := patternLines s w c.dst c.dstr c .write
  (match c.kind with
    | 0 => patternLines s w c.src c.sstr c .read
    | 1 => some []
    | _ => wr, wr)

/-- Overlap of two footprints; one that did not translate overlaps every nonempty one (R115). -/
def overlaps : Option (List Nat) → Option (List Nat) → Bool
  | none, none => true
  | none, some l => !l.isEmpty
  | some l, none => !l.isEmpty
  | some l, some m => l.any (fun x => m.contains x)

/-- The uncompleted earlier jobs a new job has an edge to (R116). -/
def edgesOf (q : Part) (reads writes : Option (List Nat)) : List Nat :=
  (q.jobs.filter (fun e => e.2.st != .landed &&
    (overlaps e.2.writes reads || overlaps e.2.reads writes || overlaps e.2.writes writes))).map (·.1)

def jobsFull (q : Part) : Bool := decide (Config.maxJobs ≤ (q.jobs.filter (fun e => e.2.st != .landed)).length)

/-- Jobs reach memory as agents of the Dome die, in their submitters' mode. -/
def jobWho (p : Nat) (priv : Bool) : Who := ⟨p, none, priv⟩

/-- The scheduler takes a job with its edges. -/
def acceptJob (s : State) (p : Nat) (priv : Bool) (c : Card) : State :=
  let (r, w) := footprints s (jobWho p priv) c
  setPart s p (fun q => { q with
    jobs := Map.put q.jobs q.nextJob ⟨c, priv, r, w, edgesOf q r w, .waiting, 0, false⟩, nextJob := q.nextJob + 1 })

/-- PEND is raised in the job's count object and the job accepted, as one step; a refused update is a fault of every active lane. -/
def jobTake (c : Card) (gid : Nat) (g : Group) (act : List Nat) (t : Thread) (a : Acc) (s : State) : State :=
  match cobjStep s a ⟨0, cardBytes c, 0⟩ with
  | (.error r, s) => faultAll s gid g act (fun _ => faultOf 8 r c.cobj (d64 (cardBytes c)))
  | (.ok _, s) => advance (acceptJob s (threadPart s t) t.priv c) gid

/-- Steps 4 and 5 of R260 for a group at its JOB, the card read: PEND is raised and the job accepted as one step. A migration
lock on the count object holds the whole step, in the object's arrival order, and the group keeps its card (DESIGN CHOICE,
log 77). A group that a full scheduler holds keeps no place: whichever submits first once there is room is accepted (DESIGN
CHOICE, log 100). -/
def jobSubmit (c : Card) (gid : Nat) (g : Group) (act : List Nat) (t : Thread) (s : State) : State :=
  let p := threadPart s t
  if heldFor s p (.group gid) then s
  else if jobsFull (partOf s p) then setHold s gid (.jobFull c)
  else if !c.cnt then advance (acceptJob s p t.priv c) gid
  else
    let v := d64 (cardBytes c)
    match cobjAcc s t .gl c.cobj .atomic v with
    | (.error f, s) => faultAll s gid g act (fun _ => f)
    | (.ok a, s) =>
      let s := homeAcc s a.loc true
      match locLock s a.loc with
      | some q => holdWrite (setHold s gid (.jobFull c)) q ⟨0, a.loc, laneVia s t .gl c.cobj .atomic, .own, some (p, .group gid), .land⟩
      | none => jobTake c gid g act t a s

/-- A group's JOB from its first step; a group held at it keeps the card it read. A fault of the one read that the lowest lane's
offset names is every active lane's (DESIGN CHOICE, log 101). -/
def jobOp (x : OpS) (s : State) : State :=
  groupOp x.g (fun gid g act s =>
    match act.head?.bind (getThread s) with
    | none => advance s gid
    | some t =>
      match g.hold with
      | .jobFull c => jobSubmit c gid g act t s
      | _ =>
        if !fullWarp s g then faultAll s gid g act (fun _ => partialMask s g)
        else
          let ofs := (tWord t x.a).setWidth 64
          match resolve s t .sc ofs 64 64 .read with
          | (.error f, s) => faultAll s gid g act (fun _ => f)
          | (.ok a, s) =>
            let (got, s) := accRead s a 64
            match cardOf got.bytes with
            | none => faultAll s gid g act (fun _ => faultOf 9 5 0 0)
            | some c => jobSubmit c gid g act t s) s

def execJob (x : OpS) (s : State) : Out := .next (jobOp x s)

/-- The active lanes of a group at its JOB. -/
def jobLanes (s : State) (g : Group) : List Nat := match groupInstr g with
  | some (.job x) => activeOf s g x.g
  | _ => g.members

/-- A group held at its JOB submits the card it read. -/
def jobAgain (s : State) (gid : Nat) (g : Group) (c : Card) : State :=
  let act := jobLanes s g
  match act.head?.bind (getThread s) with
  | some t => if jobsFull (partOf s (threadPart s t)) then s else jobSubmit c gid g act t s
  | none => advance s gid

/-- JOB_ACCEPT (R116, R260): the scheduler has room, and the waiting group's job is accepted. -/
def execJobAccept (gid : Nat) (s : State) : Out :=
  .next (match getGroup s gid with
    | none => s
    | some g => match g.hold with
      | .jobFull c => jobAgain s gid g c
      | _ => s)

/-! ## Running a job (R260, R315) -/

def getJob (s : State) (p id : Nat) : Option Job := Map.get? (partOf s p).jobs id
def modJob (s : State) (p id : Nat) (f : Job → Job) : State := setPart s p (fun q => { q with jobs := Map.adjust q.jobs id f })

/-- How one word of a job ends. -/
inductive WordEnd where
  | landed (bd : Bool)
  /-- its access waits, or a migration lock holds its write (R134) -/
  | waits
  | fault (f : FInfo)
deriving DecidableEq, Repr

/-- A job's write of one word, under the card's eviction class: a lock holds it, or it lands; BD where a nonzero bound is dropped (R87). R84 applies to each
destination word by itself, so that a copy between equal word offsets gives the record that the words' bounds give one after
another, even where R87 says that it reproduces the source record (DESIGN CHOICE, log 78). -/
def jobPut (s : State) (w : Who) (id evc : Nat) (va : DWord) (op : WOp) : WordEnd × State :=
  match reach s w va .write false evc with
  | (.error f, s) => (if f.waits then .waits else .fault f, s)
  | (.ok l, s) =>
    match locLock s l with
    | some q => (.waits, holdWrite s q ⟨0, l, some ⟨w, va, .write⟩, op, some (w.part, .job id), .land⟩)
    | none => match applyOp s 0 l op with
      | (.ok bd, s) => (.landed bd, s)
      | (.error _, s) => (.landed false, s)

/-- A word and its bound as a job stores them. -/
def jobStore (v : Word) (b : BitVec 16) : WOp := .store (leBytes 4 v.toNat) [b] false 0

/-- The n-th word of a job. -/
def jobWord (s : State) (w : Who) (id : Nat) (c : Card) (n : Nat) : WordEnd × State :=
  let r := n / (c.len / 4)
  let o := 4 * (n % (c.len / 4))
  let dst := patternVa c.dst c.dstr r o
  match c.kind with
  | 0 =>
    match reach s w (patternVa c.src c.sstr r o) .read with
    | (.error f, s) => (if f.waits then .waits else .fault f, s)
    | (.ok l, s) =>
      let (g, s) := readLoc s l 4
      jobPut s w id c.devc dst (jobStore (w32 (leNat g.bytes)) g.bnd)
  | 1 => jobPut s w id c.devc dst (jobStore c.val c.bval)
  | _ => jobPut s w id c.devc dst (.rebound c.rwop c.bval)

/-- Words from the n-th on, until one does not land: how many have landed, BD, and what stopped it. -/
def jobWords (w : Who) (id : Nat) (c : Card) : Nat → Nat → Bool → State → Nat × Bool × Option WordEnd × State
  | 0, n, bd, s => (n, bd, none, s)
  | fuel + 1, n, bd, s =>
    match jobWord s w id c n with
    | (.landed b, s) => jobWords w id c fuel (n + 1) (bd || b) s
    | (e, s) => (n, bd, some e, s)

/-- A stop (R315): KIND 2; the landed bytes are the job's final result, with no addition to COUNT. -/
def jobStop (s : State) (p id : Nat) (f : FInfo) : State :=
  match getJob s p id with
  | none => s
  | some j =>
    let s := postEvent s p (domeSrc p) 2 f.cause f.reason j.card.cobj (d64 (cardBytes j.card - 4 * j.landed)) f.arg0
    modJob s p id (fun j => { j with st := .landed, card := { j.card with inc := false } })

/-- Whether every job this one has an edge to has completed. -/
def jobReady (q : Part) (j : Job) : Bool :=
  j.edges.all (fun e => match Map.get? q.jobs e with
    | some k => k.st == .landed
    | none => true)

/-- A fault of a running job: a translation fault is waited on, any other stops it. -/
def jobFault (s : State) (p id : Nat) (f : FInfo) : State :=
  if f.cause = 1 then agentWait (modJob s p id (fun j => { j with st := .fault })) p (.job id) f else jobStop s p id f

/-- JOB_START (R116): a job whose predecessors have completed reads and writes; one whose write a lock held goes on when it has
landed. -/
def execJobStart (p id : Nat) (s : State) : Out :=
  .next (match getJob s p id with
    | none => s
    | some j =>
      if !(j.st == .running || (j.st == .waiting && jobReady (partOf s p) j)) || heldFor s p (.job id) then s
      else
        let w := jobWho p j.priv
        let (n, bd, e, s) := jobWords w id j.card (cardBytes j.card / 4 - j.landed) j.landed j.bd s
        let s := modJob s p id (fun j => { j with st := .running, landed := n, bd := bd })
        match e with
        | none => modJob s p id (fun j => { j with st := .landed })
        | some (.fault f) => jobFault s p id f
        | some _ => s)

def jobRemove (s : State) (p id : Nat) : State := setPart s p (fun q => { q with jobs := Map.erase q.jobs id })

/-- A job's update of its count object (R260, R365). -/
def jobUpd (j : Job) : CUpd := ⟨bnum j.card.inc, -(4 * j.landed : Int), flIf j.bd flBD⟩

/-- The update has been made or refused, and the job is gone. -/
def jobGone (p id : Nat) (e : Refused) (s : State) : State :=
  match getJob s p id, e with
  | some j, some (c, r) => jobRemove (refusedEvent s p (domeSrc p) c r j.card.cobj (agentName s p (.job id)) (jobUpd j)) p id
  | _, _ => jobRemove s p id

/-- A write of a job that a lock held has landed: its next word, or its count-object update. -/
def jobLanded (p id : Nat) (e : Except Nat Bool) (s : State) : State :=
  match getJob s p id with
  | none => s
  | some j =>
    if j.st == .landed then jobGone p id (refusedBy e) s
    else modJob s p id (fun j => { j with landed := j.landed + 1, bd := j.bd || e == .ok true })

/-- A fault of the update. -/
def jobObjFault (p id : Nat) (f : FInfo) (s : State) : State :=
  if f.cause = 1 then agentWait s p (.job id) f else jobRemove (jobStop s p id f) p id

/-- JOB_COMPLETION (R260, R315, R365): the one step on the count object, and the job is gone. -/
def execJobCompletion (p id : Nat) (s : State) : Out :=
  .next (match getJob s p id with
    | none => s
    | some j =>
      if j.st != .landed || agentWaits s p (.job id) || heldFor s p (.job id) then s
      else if !j.card.cnt then jobRemove s p id
      else agentCobj s p (.job id) (jobWho p j.priv) j.card.cobj (jobUpd j) (jobObjFault p id) (jobGone p id))

/-! ## GROW (R261) -/

def growthCeil (r : LRec) : Nat := if r.gceil = 0 then 2 ^ 32 - 1 else r.gceil

/-- One lane's step on the group count: the new count and d. -/
def growStep (l : Launch) (n : Nat) : Nat × Nat :=
  if l.closed || growthCeil l.r < l.g + n then (l.g, if n = 0 && !l.closed then l.g else 2 ^ 32 - 1)
  else (l.g + n, l.g)

/-- The indices from the old count up to `b` become pending: no entry of the map names them. -/
def addIndices (l : Launch) (b : Nat) : Launch :=
  { l with g := b }

def modLaunch (s : State) (p serial : Nat) (f : Launch → Launch) : State :=
  { s with launches := Map.adjust s.launches (launchKey p serial) f }

/-- The distributor reaches a launch's objects in the launch's own mode. -/
def distWho (p : Nat) (l : Launch) : Who := ⟨p, none, l.priv⟩

/-- The lanes of GROW in order; `gcur` writes the header word, which no lock holds, as part of each change. -/
def growLanes (x : OpDA) (p serial : Nat) (gcur : Option Loc) (act : List Nat) (s : State) : State :=
  act.foldl (fun s k =>
    match getThread s k, launchOf s p serial with
    | some t, some l =>
      let (g, d) := growStep l (tWord t x.a).toNat
      let s := if g = l.g then s else modLaunch s p serial (fun l => addIndices l g)
      let s := match gcur with
        | some loc => if g = l.g then s else (pokeLoc s loc none (leBytes 4 g) [0] false).1
        | none => s
      modThread s k (fun t => tSet t x.d (w32 d))
    | _, _ => s) s

/-- The launches of threads, in the order of the threads. -/
def launchesOf (s : State) (ks : List Nat) : List (Nat × Nat) :=
  (ks.filterMap (fun k => ((getThread s k).bind (threadLaunch s)).map (fun l => (l.part, l.serial)))).eraseDups

/-- Those of some threads that belong to a launch. -/
def ofLaunch (s : State) (ks : List Nat) (p serial : Nat) : List Nat :=
  ks.filter (fun k => ((getThread s k).bind (threadLaunch s)).any (fun l => l.part == p && l.serial == serial))

/-- Whether a lane's step changes the group count of its launch. -/
def growsAny (s : State) (x : OpDA) (l : Launch) (ks : List Nat) : Bool := ks.any (fun k => match getThread s k with
  | some t => (growStep l (tWord t x.a).toNat).1 != l.g
  | none => false)

/-- GROW of the lanes `ks` of one launch: whether their steps are made. A lock on the header holds them all, since GCUR changes in
the same atomic step as the count (R134, R279); a fault of it is waited on (R283). -/
def growLaunch (x : OpDA) (gid : Nat) (ks : List Nat) (p serial : Nat) (s : State) : Bool × State :=
  match launchOf s p serial with
  | none => (true, s)
  | some l =>
    let a : Agent := .gcur serial gid
    if l.r.cbmp = 0 || !growsAny s x l ks then (true, growLanes x p serial none ks s)
    else if agentWaits s p a || heldFor s p a then (false, s)
    else match reach s (distWho p l) l.r.cbmp .write with
      | (.ok loc, s) =>
        match locLock s loc with
        | some q => (false, holdWrite s q ⟨0, loc, some ⟨distWho p l, l.r.cbmp, .write⟩, .own, some (p, a), .land⟩)
        | none => (true, growLanes x p serial (some loc) ks s)
      | (.error f, s) => (false, if f.waits then s else agentWait s p a f)

/-- The steps of a group's GROW, launch by launch: the lanes whose steps are still to be made. -/
def growEach (x : OpDA) (gid : Nat) (ks : List Nat) : List (Nat × Nat) → State → List Nat × State
  | [], s => ([], s)
  | (p, serial) :: r, s =>
    let mine := ofLaunch s ks p serial
    let (done, s) := growLaunch x gid mine p serial s
    let (rest, s) := growEach x gid ks r s
    (if done then rest else mine ++ rest, s)

/-- The lanes whose GROW is still to be made. -/
def growRest (g : Group) (act : List Nat) : List Nat := match g.hold with
  | .gcur ks => act.filter ks.contains
  | _ => act

/-- A group whose steps are all made goes on; else it stands. -/
def growGo (gid : Nat) (rest : List Nat) (s : State) : State := if rest.isEmpty then advance s gid else setHold s gid (.gcur rest)

/-- GROW of a group (R261): each lane on the group count of its own launch. While a header's fault or lock lasts the group
stands. -/
def growOp (x : OpDA) (gid : Nat) (g : Group) (act : List Nat) (s : State) : State :=
  let ks := growRest g act
  let (rest, s) := growEach x gid ks (launchesOf s ks) s
  growGo gid rest s

/-- The steps of one launch's lanes in a group that stands at its GROW are made, the header at a location, or left behind (R283). -/
def growNow (p serial gid : Nat) (gcur : Option Loc) (s : State) : State :=
  match getGroup s gid with
  | none => s
  | some g => match groupInstr g, g.hold with
    | some (.grow x), .gcur ks =>
      let mine := ofLaunch s (g.members.filter ks.contains) p serial
      growGo gid (ks.filter (fun k => g.members.contains k && !mine.contains k)) (growLanes x p serial gcur mine s)
    | _, _ => s

/-- A GROW that a lock held is made, with its header at a location; a group stopped for a save issues it again later. -/
def growLanded (serial gid p : Nat) (loc : Loc) (s : State) : State :=
  if (getGroup s gid).any (fun g => !groupStopped s g) then growNow p serial gid (some loc) s else s

def execGrow (x : OpDA) (s : State) : Out := .next (groupOp x.g (growOp x) s)

/-! ## LNCH (R262) -/

def lqOf (s : State) (p n : Nat) : LQueue := Map.get LQueue.reset (partOf s p).lqs n
def modLq (s : State) (p n : Nat) (f : LQueue → LQueue) : State :=
  setPart s p (fun q => { q with lqs := Map.putD LQueue.reset q.lqs n (f (Map.get LQueue.reset q.lqs n)) })

/-- Fields of LQ_CFG (Table 16-2). -/
def lqState (q : LQueue) : Nat := q.cfg.toNat % 4
def lqClass (q : LQueue) : Nat := q.cfg.toNat / 2 ^ 6 % 4
def lqDevok (q : LQueue) : Bool := q.cfg.getLsbD 8
def lqPrivok (q : LQueue) : Bool := q.cfg.getLsbD 9
def lqSlots (q : LQueue) : Nat := 2 ^ (q.cfg.toNat / 2 ^ 16 % 16)
def lqFull (q : LQueue) : Bool := (q.tail.toNat + 1) % lqSlots q == q.head.toNat
def lqEmpty (q : LQueue) : Bool := q.head == q.tail
def lqSlotVa (q : LQueue) (n : Nat) : DWord := q.base + d64 (256 * n)

/-- Move a queue's tail past a slot that a group of a mode filled. -/
def lqPush (user : Bool) (q : LQueue) : LQueue :=
  let slot := q.tail.toNat
  let rest := q.userSlots.filter (fun x => x != slot)
  { q with tail := w32 ((slot + 1) % lqSlots q), userSlots := if user then slot :: rest else rest }

/-- The value LNCH answers without enqueuing, if any. -/
def lnchRefuses (q : LQueue) (n : Nat) : Option Nat :=
  if 16 ≤ n || lqState q == 0 || !lqDevok q then some 2 else if lqFull q then some 1 else none

/-- A location `o` bytes further on in its page. -/
def locPlus (l : Loc) (o : Nat) : Loc := match l with
  | .phys a k bt => .phys (a + o) k bt
  | .scr c a => .scr c (a + o)

/-- LNCH answers a group's active lanes. -/
def lnchAnswer (x : LnchOps) (gid : Nat) (act : List Nat) (s : State) (d : Nat) : State :=
  advance (act.foldl (fun s k => modThread s k (fun t => tSet t x.d (w32 d))) s) gid

/-- The record is copied to a location that no lock holds, and the tail advanced, as one step. -/
def lnchTake (x : LnchOps) (data : List Byte) (gid : Nat) (act : List Nat) (t : Thread) (l : Loc) (s : State) : State :=
  let s := (pokeLoc s l none (data.take 128) (List.replicate 32 0) false).1
  let s := (pokeLoc s (locPlus l 128) none (data.drop 128) (List.replicate 32 0) false).1
  lnchAnswer x gid act (modLq s (threadPart s t) (tWord t x.b).toNat (lqPush (!t.priv))) 0

/-- The queue's part of LNCH with the record read: the record is copied and the tail advanced in one step. A migration lock
on the slot holds the whole step, and the group keeps the record it read (R134). -/
def lnchSubmit (x : LnchOps) (data : List Byte) (gid : Nat) (g : Group) (act : List Nat) (t : Thread) (s : State) : State :=
  let p := threadPart s t
  let n := (tWord t x.b).toNat
  if heldFor s p (.group gid) then s
  else match lnchRefuses (lqOf s p n) n with
    | some d => lnchAnswer x gid act s d
    | none =>
      let w : Who := ⟨p, none, true⟩
      let va := lqSlotVa (lqOf s p n) (lqOf s p n).tail.toNat
      match reach s w va .write with
      | (.error f, s) => faultAll s gid g act (fun _ => f)
      | (.ok l, s) =>
        match locLock s l with
        | some q => holdWrite (setHold s gid (.lnch data)) q ⟨0, l, some ⟨w, va, .write⟩, .own, some (p, .group gid), .land⟩
        | none => lnchTake x data gid act t l s

/-- LNCH (R262) of a group: the record is the lowest active lane's; a fault of reading it is every active lane's (DESIGN CHOICE,
log 101). -/
def lnchOp (x : LnchOps) (gid : Nat) (g : Group) (act : List Nat) (s : State) : State :=
  match act.head?.bind (getThread s) with
  | none => advance s gid
  | some t =>
    match g.hold with
    | .lnch data => lnchSubmit x data gid g act t s
    | _ =>
      if !fullWarp s g then faultAll s gid g act (fun _ => partialMask s g)
      else match resolve s t .sc ((tWord t x.a).setWidth 64) 64 256 .read with
        | (.error f, s) => faultAll s gid g act (fun _ => f)
        | (.ok a, s) =>
          let (got, s) := accRead s a 256
          lnchSubmit x got.bytes gid g act t s

def execLnch (x : LnchOps) (s : State) : Out := .next (groupOp x.g (lnchOp x) s)

/-- A JOB that a lock held is made at its object's location, at its turn among the held writes (R299); a scheduler that is full holds
it again, as R116 says. -/
def jobMade (gid : Nat) (g : Group) (c : Card) (l : Loc) (s : State) : State :=
  let act := jobLanes s g
  match act.head?.bind (getThread s) with
  | some t => if jobsFull (partOf s (threadPart s t)) then s else jobTake c gid g act t ⟨l, none⟩ s
  | none => advance s gid

/-- Whether a queue's free slot is still the one that a held LNCH came to. -/
def sameSlot (s : State) (h : Held) (p n : Nat) : Bool := h.via.any (fun v => v.va == lqSlotVa (lqOf s p n) (lqOf s p n).tail.toNat)

/-- An LNCH that a lock held is made in its slot, at its turn among the held writes (R299), unless the queue has changed meanwhile. -/
def lnchLanded (x : LnchOps) (data : List Byte) (gid : Nat) (g : Group) (h : Held) (s : State) : State :=
  let act := activeOf s g x.g
  match act.head?.bind (getThread s) with
  | none => advance s gid
  | some t =>
    let p := threadPart s t
    let n := (tWord t x.b).toNat
    if (lnchRefuses (lqOf s p n) n).isNone && sameSlot s h p n then lnchTake x data gid act t h.loc s
    else lnchSubmit x data gid g act t s

/-- A group's JOB or LNCH that a lock held whole is made; a group stopped for a save issues it again later. -/
def groupLanded (gid : Nat) (h : Held) (s : State) : State :=
  match getGroup s gid with
  | none => s
  | some g =>
    if groupStopped s g then s
    else match g.hold, groupInstr g with
      | .jobFull c, some (.job _) => jobMade gid g c h.loc s
      | .lnch data, some (.lnch x) => lnchLanded x data gid g h s
      | _, _ => s

end Sys2Proof.Machine
end

