-- ==== Sys2Proof/Machine/Queue.lean ====
section
/-! DEFINITION. Operand queues (R111-R113, R239, R251, R252): QPOP, QPEEK, QDROP, QCNT, and the landing of an entry. -/

namespace Sys2Proof.Machine

def getQueue (s : State) (qk q : Nat) : Option Queue := (Map.get? s.quadGroups qk).bind (fun g => Map.get? g.queues q)

def modQueue (s : State) (qk q : Nat) (f : Queue → Queue) : State :=
  { s with quadGroups := Map.adjust s.quadGroups qk (fun g => { g with queues := Map.adjust g.queues q f }) }

/-- Whether the quad group's instance has ended: SDONE, a stop, or none was started (R113). -/
def sliceEnded (s : State) (qk : Nat) : Bool :=
  match getSlice s qk with
  | none => true
  | some x => x.st == .done || x.st == .stopped

/-- The quad group of an issue group. -/
def groupQuad (s : State) (g : Group) : Nat := match g.members.head?.bind (getThread s) with
  | some t => quadKeyOf t
  | none => 0

/-- Queue misuse (class 9): the queue and the entry from the oldest. -/
def queueFault (reason q entry : Nat) : FInfo := faultOf 9 reason (d64 (entry * 256 + q)) 0

/-- 128-byte chunks of a data entry. -/
def chunksOf (e : QEntry) : Nat := (e.rows * e.bytes + 127) / 128

def qWordAt (e : QEntry) (i : Nat) : Word := e.words.getD i 0
def qBoundAt (e : QEntry) (i : Nat) : BitVec 16 := recBound (e.recs.getD (i / 32) BRec.zero) (i % 32)

/-- Word L of the next chunk, with its bound. -/
def chunkReg (e : QEntry) (lane : Nat) : Reg := ⟨qWordAt e (32 * e.popped + lane), qBoundAt e (32 * e.popped + lane)⟩

/-- What an instruction of Table 10-6 finds at the head of its queue. -/
inductive Head where
  | entry (e : QEntry)
  | wait
  | fault (reason : Nat)
deriving Repr

/-- The oldest entry: ready, still to come, or never coming (R252). -/
def queueHead (s : State) (qk q : Nat) : Head :=
  match getQueue s qk q with
  | none => .fault 1
  | some x => match x.entries with
    | [] => if sliceEnded s qk then .fault 2 else .wait
    | e :: _ => if e.ready then .entry e else .wait

/-- Whether the head of a group's queue is still to come. -/
def headWaits (s : State) (g : Group) (q : Nat) : Bool := match queueHead s (groupQuad s g) q with
  | .wait => true
  | _ => false

/-- An instruction that acts once on the oldest entry (R252); `reads` says that it reads the entry's data, which may be lost
(R321). -/
def headOp (gd : Guard) (q : Nat) (reads : Bool) (f : QEntry → Nat → Group → List Nat → State → State) (s : State) : State :=
  groupOp gd (fun gid g act s =>
    if act.isEmpty then advance s gid
    else match queueHead s (groupQuad s g) q with
      | .fault r => faultAll s gid g act (fun _ => queueFault r q 0)
      | .wait => setHold s gid .queue
      | .entry e => if e.bad && reads then faultAll s gid g act (fun _ => faultOf 14 1 (d64 q) 0) else f e gid g act s) s

def dropHead (s : State) (qk q n : Nat) : State := modQueue s qk q (fun x => { x with entries := x.entries.drop n })

/-- Consume the next chunk; the entry leaves with its last one. -/
def popChunk (s : State) (qk q : Nat) : State :=
  modQueue s qk q (fun x => match x.entries with
    | [] => x
    | e :: r => if chunksOf e ≤ e.popped + 1 then { x with entries := r } else { x with entries := { e with popped := e.popped + 1 } :: r })

/-- Write a register of each lane. -/
def writeLanes (s : State) (act : List Nat) (d : VReg) (f : Nat → Reg) : State :=
  act.foldl (fun s k => modThread s k (fun t => setReg t d.toNat (f t.lane))) s

def execQpop (x : QueueOps) (s : State) : Out :=
  .next (headOp x.g x.q.toNat true (fun e gid g act s =>
    if e.marker.isSome then faultAll s gid g act (fun _ => queueFault 0 x.q.toNat 0)
    else advance (writeLanes (popChunk s (groupQuad s g) x.q.toNat) act x.d (chunkReg e)) gid) s)

def execQpeek (x : QpeekOps) (s : State) : Out :=
  .next (headOp x.g x.q.toNat true (fun e gid _ act s =>
    let s := match e.marker with
      | some tag => writeLanes s act x.d (fun _ => ⟨tag, 0⟩)
      | none => writeLanes s act x.d (chunkReg e)
    advance (act.foldl (fun s k => modThread s k (fun t => setPred t x.p e.marker.isSome)) s) gid) s)

def execQdrop (x : QdropOps) (s : State) : Out :=
  .next (headOp x.g x.q.toNat false (fun _ gid g _ s => advance (dropHead s (groupQuad s g) x.q.toNat 1) gid) s)

/-- The word of QCNT (R252). -/
def qcntWord (ended : Bool) (x : Queue) : Word :=
  w32 (bnum ended * 2 ^ 31 + x.entries.length * 2 ^ 16 + (x.entries.takeWhile (fun e => e.ready)).length)

def execQcnt (x : QueueOps) (s : State) : Out :=
  .next (groupOp x.g (fun gid g act s =>
    if act.isEmpty then advance s gid
    else match getQueue s (groupQuad s g) x.q.toNat with
      | none => faultAll s gid g act (fun _ => queueFault 1 x.q.toNat 0)
      | some q => advance (writeLanes s act x.d (fun _ => ⟨qcntWord (sliceEnded s (groupQuad s g)) q, 0⟩)) gid) s)

/-! ## Forming an entry (R112, R256) -/

/-- Read `n` bytes from a location in pieces of eight: the bytes, and the bound of each piece's words. -/
def readPieces (s : State) (locs : List Loc) : List Byte × List (BitVec 16) × State :=
  locs.foldl (fun acc l =>
    let (g, s) := readLoc acc.2.2 l 8
    (acc.1 ++ g.bytes, acc.2.1 ++ g.bnds, s)) ([], [], s)

/-- Little-endian words of bytes. -/
def wordsOfBytes : List Byte → List Word
  | a :: b :: c :: d :: r => w32 (leNat [a, b, c, d]) :: wordsOfBytes r
  | _ => []

/-- Records formed by applying R84 to the words in order. -/
def recsOf (n : Nat) (bs : List (BitVec 16)) : List BRec :=
  (List.range n).map (fun i => ((List.range 32).foldl (fun r j =>
    match bs[32 * i + j]? with
    | some b => storeBound r j b
    | none => r) BRec.zero))

/-- A data entry from its bytes and word bounds, and its side bytes with theirs (R239, R255, R256). -/
def mkEntry (rows bytes scb : Nat) (ol : Bool) (data : List Byte) (bnds : List (BitVec 16)) (side : List Byte)
    (sbnds : List (BitVec 16)) : QEntry :=
  let n := (rows * bytes + 127) / 128
  let pad := 128 * n - rows * bytes
  let ob (i : Nat) : BitVec 16 := sbnds.getD ((scb + i) / 4) 0
  let exact := (List.range (side.length / 4)).filter (fun i => decide (4 * i < scb + 8 ∨ scb + 264 ≤ 4 * i))
  { marker := none, rows := rows, bytes := bytes, words := wordsOfBytes (data ++ List.replicate pad 0),
    recs := recsOf n bnds, popped := 0, ready := true, scb := scb, scales := side.take scb, ol := ol,
    oreg := if ol then (List.range 520).map (fun i =>
        (side.getD (scb + i) 0, if 8 ≤ i ∧ i < 264 then ob i else 0)) else [],
    drop := exact.any (fun i => sbnds.getD i 0 != 0), bad := false }

end Sys2Proof.Machine
end

