-- ==== Sys2Proof/Machine/Matrix.lean ====
section
/-! DEFINITION. The matrix unit: MMA and MMAO with their checks, sums, bounds and side path (R237-R244, R88-R91, R63),
WZERO and WMOV (R245), and the tile transfers WLD, WST, WDRN, WBND (R246-R250, R92). -/

namespace Sys2Proof.Machine

/-! ## Tile rows -/

def getRow (s : State) (t : Thread) (w : BitVec 3) : TRow := match warpOf s t with
  | some x => Map.get TRow.zero x.tiles (w.toNat * 32 + t.lane)
  | none => TRow.zero

/-- Write a row: what is written is good again (R321). -/
def setRow (s : State) (t : Thread) (w : BitVec 3) (r : TRow) : State :=
  let i := w.toNat * 32 + t.lane
  modWarp s (warpKeyOf t) (fun x => { x with
    tiles := Map.putD TRow.zero x.tiles i r, badRows := x.badRows.filter (fun j => j != i) })

/-! ## Operands of a K-block -/

/-- A decoded, scaled element with its scaled bound (R88). -/
structure MEl where
  v : FV
  b : Bd
deriving Repr, Inhabited

def mScale (v : FV) (b : BitVec 16) (s : Nat) : MEl := ⟨efScaled v s, bdScale (bdOf b) ((s : Int) - 127)⟩

/-- The elements of an entry's words with their words' bounds, in order (R53). -/
def entryElems (f : Nat) (e : QEntry) : List (FV × BitVec 16) :=
  let w := efBits f
  let n := e.rows * e.bytes / 4
  (List.range n).zip (e.words.take n) |>.flatMap (fun x =>
    (List.range (32 / w)).map (fun j => (efDec f (x.2.toNat / 2 ^ (w * j) % 2 ^ w), qBoundAt e x.1)))

/-- Cut a list into `n` pieces of `len`. -/
def pieces {α : Type} (len : Nat) : Nat → List α → List (List α)
  | 0, _ => []
  | n + 1, l => l.take len :: pieces len n (l.drop len)

/-- The `n` columns of a list of rows. -/
def columnsOf {α : Type} [Inhabited α] (n : Nat) (l : List (List α)) : List (List α) :=
  (List.range n).map (fun j => l.map (fun r => r.getD j default))

/-- 32 lines of k values of one entry: rows of A, columns of B. `across` says that the entry stores them line by line. -/
def entryLines (f : Nat) (across : Bool) (e : QEntry) : List (List (FV × BitVec 16)) :=
  let ks := e.rows * e.bytes * 8 / efBits f / 32
  if across then pieces ks 32 (entryElems f e) else columnsOf 32 (pieces 32 ks (entryElems f e))

/-- 32 lines of a K-block, from its one entry or its two half-blocks. -/
def blockLines (f : Nat) (across : Bool) (es : List QEntry) : List (List (FV × BitVec 16)) :=
  (es.map (entryLines f across)).foldl (fun a l => (a.zip l).map (fun p => p.1 ++ p.2)) (List.replicate 32 [])

/-- Apply the scales of a block (Table 10-4): line i's scale for group g stands at `at i g`. -/
def scaleLines (scl : Nat) (scales : List Byte) (pos : Nat → Nat → Nat) (l : List (List (FV × BitVec 16))) : List (List MEl) :=
  let n := if scl = 2 then 16 else 32
  (List.range l.length).zip l |>.map (fun x =>
    (List.range x.2.length).zip x.2 |>.map (fun y =>
      mScale y.2.1 y.2.2 (if scl = 0 then 127 else (scales.getD (pos x.1 (y.1 / n)) 0).toNat)))

def aLines (w : Word) (ta : Bool) (es : List QEntry) : List (List MEl) :=
  let spr := if fwScl w = 2 then 8 else 4
  scaleLines (fwScl w) (es.headD default).scales (fun i g => spr * i + g) (blockLines (fwA w) (!ta) es)

def bLines (w : Word) (tb : Bool) (es : List QEntry) : List (List MEl) :=
  scaleLines (fwScl w) (es.headD default).scales (fun j g => 32 * g + j) (blockLines (fwB w) tb es)

/-! ## The outlier side path (R243) -/

def olByte (e : QEntry) (i : Nat) : Nat := (e.oreg.getD i (0, 0)).1.toNat
def olOccupied (e : QEntry) (sl : Nat) : Bool := olByte e sl != 255

/-- Value of slot `sl` for row or column t, under format `f` (INT8 or INT2), with its scaled bound. -/
def olEl (f : Nat) (e : QEntry) (sl t : Nat) : MEl :=
  mScale (efDec f (olByte e (8 + 32 * sl + t) % 2 ^ efBits f)) (e.oreg.getD (8 + 32 * sl + t) (0, 0)).2 (olByte e (264 + 32 * sl + t))

/-- A slot pair: a value for each row, a value for each column. -/
structure OSlot where
  a : List MEl
  b : List MEl
deriving Repr, Inhabited

def oSlotOf (ea eb : QEntry) (sl : Nat) : OSlot :=
  ⟨(List.range 32).map (olEl 7 ea sl), (List.range 32).map (olEl 6 eb sl)⟩

/-- Everything a K-block brings. -/
structure MBlock where
  a : List (List MEl)
  b : List (List MEl)
  bMax : Dy
  bBeta : Bd
  bSpecial : Bool
  proc : List OSlot
  rest : List OSlot
deriving Repr, Inhabited

def magDy (x : MEl) : Dy := dyAbs (fvDy x.v)
def maxMag (l : List MEl) : Dy := l.foldl (fun m x => dyMax m (magDy x)) dyZero
def maxBeta (l : List MEl) : Bd := l.foldl (fun m x => bdMax m x.b) bdZero
def anySpecial (l : List MEl) : Bool := l.any (fun x => !fvIsFin x.v)

def mkBlock (w : Word) (ol ta tb : Bool) (ea eb : List QEntry) : MBlock :=
  let b := bLines w tb eb
  let slots := if ol && fwOslot w != 0 then (List.range 8).filter (olOccupied (ea.headD default)) else []
  let os := slots.map (oSlotOf (ea.headD default) (eb.headD default))
  { a := aLines w ta ea, b := b, bMax := maxMag b.flatten, bBeta := maxBeta b.flatten, bSpecial := anySpecial b.flatten,
    proc := os.take (fwOslot w), rest := os.drop (fwOslot w) }

/-! ## Accumulation (R63, R242) -/

/-- An element being accumulated: value, flags, whether a rounding overflowed. -/
structure Acc1 where
  v : FV
  fl : Byte
  ovf : Bool
deriving Repr, Inhabited

/-- round_acc of the accumulator plus an exact sum; none stands for a special sum. -/
def accAdd (short : Bool) (x : Acc1) (d : Option Dy) : Acc1 :=
  match d with
  | none => { x with v := .nan false }
  | some d =>
    match exactAdd .rne x.v (fvOfDy false d) with
    | .sp v nv => { x with v := v, fl := x.fl ||| flIf nv flNV }
    | .num zn r =>
      let q := if short then truncTo fF32 zn r r else roundDy fF32 .rne zn r
      ⟨q.v, x.fl ||| q.fl, x.ovf || q.ovf⟩

/-- The exact sum of products; none when an operand is special. -/
def prodSum : List MEl → List MEl → Option Dy
  | a :: ra, b :: rb =>
    if fvIsFin a.v && fvIsFin b.v then (prodSum ra rb).map (dyAdd (dyMul (fvDy a.v) (fvDy b.v))) else none
  | _, _ => some dyZero

/-- Groups of four k values in ascending order. -/
def accGroups (short : Bool) : List MEl → List MEl → Acc1 → Acc1
  | a0 :: a1 :: a2 :: a3 :: ra, b0 :: b1 :: b2 :: b3 :: rb, x =>
    accGroups short ra rb (accAdd short x (prodSum [a0, a1, a2, a3] [b0, b1, b2, b3]))
  | _, _, x => x

/-- One element through one block: 32 groups, then the side path's sum. -/
def accElem (short side : Bool) (a b oa ob : List MEl) (x : Acc1) : Acc1 :=
  let x := accGroups short a b x
  if side then accAdd short x (prodSum oa ob) else x

/-! ## Row bounds (R88-R90, R243) -/

/-- The terms of one row in one block. -/
structure RowTerms where
  /-- K·(Amax·Bβ + Bmax·Aβ + Aβ·Bβ) -/
  main : Bd
  /-- O·(Aomax·Boβ + Bomax·Aoβ + Aoβ·Boβ) -/
  side : Bd
  /-- D_i before its up() -/
  lost : Bd
  cmax : Bd
  /-- a side path is added -/
  e : Nat
  special : Bool
deriving Repr, Inhabited

def cross (am : Dy) (ab : Bd) (bm : Dy) (bb : Bd) : Bd :=
  bdSum [bdMul (some am) bb, bdMul (some bm) ab, bdMul ab bb]

def bdTimes (n : Nat) (b : Bd) : Bd := bdMul (some (dyInt n)) b

/-- Cmax_i: from the row's elements before the block and K·Amax·Bmax (R88). -/
def cmaxOf (row : List FV) (am bm : Dy) : Bd :=
  let p := (roundDy fF32 .rup false (dyMul (dyInt 128) (dyMul am bm))).v
  let cur := row.foldl (fun m v => m.bind (fun x => (exOf fF32 v).map (max x))) (some (-126))
  cur.bind (fun x => (exOf fF32 p).map (fun y => dyPow (max x y + 1)))

def rowTerms (blk : MBlock) (lane : Nat) (row : List FV) : RowTerms :=
  let a := blk.a.getD lane []
  let oa := blk.proc.map (fun o => o.a.getD lane default)
  let ob := blk.proc.flatMap (fun o => o.b)
  let special := anySpecial a || blk.bSpecial || anySpecial oa || anySpecial ob
  let lost := bdSum (blk.rest.map (fun o =>
    let x := o.a.getD lane default
    bdMul (bdAdd (fvMag x.v) x.b) (bdAdd (if anySpecial o.b then none else some (maxMag o.b)) (maxBeta o.b))))
  { main := bdTimes 128 (cross (maxMag a) (maxBeta a) blk.bMax blk.bBeta),
    side := bdTimes blk.proc.length (cross (maxMag oa) (maxBeta oa) (maxMag ob) (maxBeta ob)),
    lost := lost, cmax := if special then none else cmaxOf row (maxMag a) blk.bMax,
    e := if blk.proc.isEmpty then 0 else 1, special := special }

def epsAcc (short : Bool) : Dy := dyPow (if short then -15 else -24)

/-- The accumulator of a row (R90): true is shortened. -/
def accShort (acc : Nat) (bud : Word) (beta : BitVec 16) (r : RowTerms) : Bool :=
  if acc = 0 then false
  else if acc = 1 then true
  else
    let bin := if r.special then none else bdSum [bdOf beta, r.main, r.side, bdOf (upBd r.lost)]
    tierSelect none bud [1, 2] (fun t => epsAcc (t == 1)) bin (bdTimes (128 + r.e) r.cmax) == 1

/-- β_i after a block (R88, R89, R243). -/
def betaStep (short : Bool) (beta : BitVec 16) (r : RowTerms) (ovf : Bool) : BitVec 16 :=
  if r.special || ovf then bndInf
  else
    let eps := some (epsAcc short)
    let o := if r.e = 0 then 0 else upBd (bdAdd r.side (bdMul eps r.cmax))
    upBd (bdSum [bdOf beta, r.main, bdOf o, bdOf (upBd r.lost), bdMul eps (bdTimes 128 r.cmax)])

/-- A row being accumulated. -/
structure MRow where
  el : List FV
  beta : BitVec 16
  fl : Byte
deriving Repr, Inhabited

/-- One block on one row (R242). -/
def rowBlock (acc : Nat) (bud aux : Word) (lane : Nat) (x : MRow) (blk : MBlock) : MRow :=
  let r := rowTerms blk lane x.el
  let short := accShort acc bud x.beta r
  let a := blk.a.getD lane []
  let oa := blk.proc.map (fun o => o.a.getD lane default)
  let es := (List.range 32).zip x.el |>.map (fun y =>
    if aux.getLsbD y.1 then (⟨y.2, 0, false⟩ : Acc1)
    else accElem short (r.e == 1) a (blk.b.getD y.1 []) oa (blk.proc.map (fun o => o.b.getD y.1 default)) ⟨y.2, 0, false⟩)
  { el := es.map (·.v), beta := betaStep short x.beta r (es.any (·.ovf)),
    fl := es.foldl (fun f e => f ||| e.fl) (x.fl ||| flIf r.special flNV ||| flIf (!blk.rest.isEmpty) flOO) }

/-! ## The checks of R241 -/

/-- Table 10-3: ROWS and BYTES of an entry. `across` as in `entryLines`. -/
def entryShape (f : Nat) (across : Bool) : Nat × Nat :=
  let w := efBits f
  let ks := if f = 0 then 64 else 128
  if across then (32, ks * w / 8) else (ks, 4 * w)

def halves (f : Nat) : Nat := if f = 0 then 2 else 1

/-- Queue positions of a block's A and B entries. -/
def blockPos (x : MmaOps) (w : Word) (b : Nat) : List Nat × List Nat :=
  let na := halves (fwA w)
  let nb := halves (fwB w)
  if x.qa = x.qb then
    ((List.range na).map (fun i => b * (na + nb) + i), (List.range nb).map (fun i => b * (na + nb) + na + i))
  else ((List.range na).map (fun i => b * na + i), (List.range nb).map (fun i => b * nb + i))

/-- Entries a queue must deliver. -/
def mmaNeed (x : MmaOps) (w : Word) : Nat × Nat :=
  let k := x.kb.toNat + 1
  let na := k * halves (fwA w)
  let nb := k * halves (fwB w)
  if x.qa = x.qb then (na + nb, na + nb) else (na, nb)

/-- The entry check of step 5 on one entry. -/
def entryOk (ol : Bool) (w : Word) (f : Nat) (across : Bool) (e : QEntry) : Bool :=
  e.marker.isNone && e.popped == 0 && (e.rows, e.bytes) == entryShape f across && e.scb == 128 * fwScl w
    && (ol || !e.ol || !(List.range 8).any (olOccupied e))
    && (!(ol && fwOslot w != 0) || (e.ol && !(List.range 8).any (fun i => decide (128 ≤ olByte e i ∧ olByte e i ≤ 254))))

/-- Lost data in an entry that an instruction reads (R321): the queue, and the entry from the oldest. -/
def entryLost (q i : Nat) : FInfo := faultOf 14 1 (d64 (i * 256 + q)) 0

/-- What the checks answer. -/
inductive MmaCheck where
  | go (blocks : List (List QEntry × List QEntry))
  | wait
  | fault (f : FInfo)
deriving Repr

/-- Steps 3 to 5 of R241. -/
def mmaCheck (s : State) (qk : Nat) (ol : Bool) (x : MmaOps) (w : Word) : MmaCheck :=
  let qa := x.qa.toNat
  let qb := x.qb.toNat
  match getQueue s qk qa, getQueue s qk qb with
  | none, _ => .fault (queueFault 1 qa 0)
  | _, none => .fault (queueFault 1 qb 0)
  | some a, some b =>
    let (na, nb) := mmaNeed x w
    let short (q : Queue) (n : Nat) : Bool := decide (q.entries.length < n)
    let landed (q : Queue) (n : Nat) : Bool := !short q n && (q.entries.take n).all (fun e => e.ready)
    if a.depth < na then .fault (queueFault 4 qa 0)
    else if b.depth < nb then .fault (queueFault 4 qb 0)
    else if sliceEnded s qk && short a na then .fault (queueFault 2 qa a.entries.length)
    else if sliceEnded s qk && short b nb then .fault (queueFault 2 qb b.entries.length)
    else if !(landed a na && landed b nb) then .wait
    else
      let pos := (List.range (x.kb.toNat + 1)).map (blockPos x w)
      let lost (q : Queue) (n : Nat) : Option Nat := (List.range n).find? (fun i => (q.entries.getD i default).bad)
      let badA := (pos.flatMap (·.1)).find? (fun i => !entryOk ol w (fwA w) (!x.ta) (a.entries.getD i default))
      let badB := (pos.flatMap (·.2)).find? (fun i => !entryOk ol w (fwB w) x.tb (b.entries.getD i default))
      let blocks := pos.map (fun p => (p.1.map (fun i => a.entries.getD i default), p.2.map (fun i => b.entries.getD i default)))
      let differ := if ol && fwOslot w != 0 then
          ((List.range blocks.length).zip blocks).find? (fun y => (List.range 8).any (fun sl =>
            olByte (y.2.1.headD default) sl != olByte (y.2.2.headD default) sl))
        else none
      match lost a na, lost b nb with
      | some i, _ => .fault (entryLost qa i)
      | none, some i => .fault (entryLost qb i)
      | none, none => match badA, badB, differ with
      | some i, _, _ => .fault (queueFault 3 qa i)
      | none, some i, _ => .fault (queueFault 3 qb i)
      | none, none, some y => .fault (queueFault 3 qb ((blockPos x w y.1).2.headD 0))
      | none, none, none => .go blocks

/-- A breach of a row in mode 1 (R91): bound, budget and row number. -/
def rowBreach (t : Thread) (b : BitVec 16) : FInfo :=
  faultOf 4 0 (d64 (b.toNat + (budB t.bud).toNat * 65536)) (d64 (t.lane + 32))

/-- One lane of MMA or MMAO: its row is computed, checked and written (R242, R244). -/
def mmaLane (x : MmaOps) (w : Word) (dropped : Bool) (blocks : List MBlock) : LaneFn := fun k t s =>
  let r0 := if x.z then TRow.zero else getRow s t x.ws
  let r := blocks.foldl (rowBlock (fwAcc w) t.bud (tWord t x.aux) t.lane)
    ⟨r0.el.map f32Of, r0.beta, flIf dropped flBD⟩
  let br := breaches t.bud r.beta
  if br && budMode t.bud == 1 then (s, some (rowBreach t r.beta))
  else
    let bits := (List.range 32).zip r0.el |>.map (fun y =>
      if (tWord t x.aux).getLsbD y.1 then y.2 else f32Bits (r.el.getD y.1 (.fin false 0 0)))
    let s := setRow s t x.wd ⟨bits, r.beta⟩
    let s := if x.dr then setRow s t x.ws TRow.zero else s
    (modThread s k (fun t => orFlags t (r.fl ||| flIf br flBD)), none)

/-- Whether a group's MMA or MMAO finds its entries still to come. -/
def mmaWaits (s : State) (g : Group) (ol : Bool) (x : MmaOps) : Bool :=
  match formatVote s (if ol then .mmao else .mma) x.fw (activeOf s g x.g) with
  | .error _ => false
  | .ok w => match mmaCheck s (groupQuad s g) ol x w with
    | .wait => true
    | _ => false

/-- MMA (`ol` false) and MMAO. -/
def mmaOp (ol : Bool) (x : MmaOps) (s : State) : State :=
  groupOp x.g (fun gid g act s =>
    if act.isEmpty then advance s gid
    else match formatVote s (if ol then .mmao else .mma) x.fw act with
      | .error f => faultAll s gid g act f
      | .ok w =>
        let qk := groupQuad s g
        match mmaCheck s qk ol x w with
        | .fault f => faultAll s gid g act (fun _ => f)
        | .wait => setHold s gid .queue
        | .go blocks =>
          let (na, nb) := mmaNeed x w
          let s1 := dropHead s qk x.qa.toNat na
          let s1 := if x.qa = x.qb then s1 else dropHead s1 qk x.qb.toNat nb
          let dropped := blocks.any (fun p => (p.1 ++ p.2).any (fun e => e.drop))
          let (s', fs) := foldLanes (mmaLane x w dropped (blocks.map (fun p => mkBlock w ol x.ta x.tb p.1 p.2))) act s1
          splitGroup s s' gid g fs false) s

def execMma (x : MmaOps) (s : State) : Out := .next (mmaOp false x s)
def execMmao (x : MmaOps) (s : State) : Out := .next (mmaOp true x s)

/-! ## WZERO, WMOV, WBND -/

def execWzero (x : TileOps) (s : State) : Out :=
  .next (laneOp x.g (fun _ _ t s => (setRow s t x.wd TRow.zero, none)) s)

def execWmov (x : WmovOps) (s : State) : Out :=
  .next (laneOp x.g (fun _ _ t s =>
    let s' := setRow s t x.wd (getRow s t x.ws)
    (if x.dr then setRow s' t x.ws TRow.zero else s', none)) s)

def execWbnd (x : WbndOps) (s : State) : Out :=
  .next (laneOp x.g (fun _ k t s =>
    let b := (getRow s t x.w).beta
    (modThread s k (fun u => tSet u x.d (if x.f then bndF32 b else b.setWidth 32)), none)) s)

/-! ## WLD, WST, WDRN -/

/-- One lane of WLD (R247). -/
def wldLane (x : TileMemOps) : LaneFn := fun k t s =>
  let va := operandAddr t x.space x.a x.ofs
  match resolve s t x.space va 128 128 .read with
  | (.error f, s) => (s, some f)
  | (.ok a, s) =>
    let (g, s) := accRead (cacheLane s t x.evc.toNat (!x.rp) a false) a 128
    (learnBy x.ord (setRow s t x.w ⟨wordsOfBytes g.bytes, g.bnd⟩) k, none)

def execWld (x : TileMemOps) (s : State) : Out := .next (laneOp x.g (fun _ => wldLane x) s)

/-- The element format of an FMT code of Table 10-5. -/
def tfCode : TFmt → Nat
  | .f32 => 8 | .bf16 => 0 | .e4m3 => 1 | .e5m2 => 2 | .mk8 => 3 | .fp4 => 4 | .i8 => 7

def tfBits (f : TFmt) : Nat := if f == .f32 then 32 else efBits (tfCode f)

/-- Whether a finite element lies beyond the largest magnitude of its sign in the format a drain narrows to; the integers of INT8
reach from −128 to 127. -/
def drainBeyond (f : TFmt) (d : Dy) : Bool := match f with
  | .bf16 => dyLt ⟨255, 120⟩ (dyAbs d)
  | .e4m3 => dyLt (efMax 1) (dyAbs d)
  | .e5m2 => dyLt (efMax 2) (dyAbs d)
  | .mk8 => dyLt ⟨1, 17⟩ (dyAbs d)
  | .fp4 => dyLt (efMax 4) (dyAbs d)
  | .i8 => dyLt ⟨127, 0⟩ d || dyLt d ⟨-128, 0⟩
  | .f32 => false

/-- An element narrowed toward zero; a finite one beyond the largest magnitude becomes that with OF, NX and SA (R62), an integer
without OF (R61). -/
def drainElem (f : TFmt) (v : FV) : Conv :=
  let c := efConv (tfCode f) .rtz v
  if fvIsFin v && drainBeyond f (fvDy v) then { c with fl := (if f == .i8 then 0 else flOF) ||| flNX ||| flSA } else c

/-- An element drained into binary32: as it stands, a NaN canonical, with NV if it signals (Table 3-7). -/
def drainF32 (w : Word) : Nat × Byte := match f32Of w with
  | .nan sig => ((f32Bits (.nan false)).toNat, flIf sig flNV)
  | _ => (w.toNat, 0)

/-- A drained row: codes, flags, δ_i (R92); none is an infinite difference. WST into FP32 (`raw`) stores the elements as they
stand (R62). -/
def drainRow (raw : Bool) (f : TFmt) (r : TRow) : List Nat × Byte × Bd :=
  if f == .f32 then
    if raw then (r.el.map (·.toNat), 0, bdZero)
    else (r.el.map (fun w => (drainF32 w).1), r.el.foldl (fun a w => a ||| (drainF32 w).2) 0, bdZero)
  else
    let cs := r.el.map (fun w => (f32Of w, drainElem f (f32Of w)))
    (cs.map (fun c => c.2.code), cs.foldl (fun a c => a ||| c.2.fl) 0,
      cs.foldl (fun m c => bdMax m (fvErr c.2.v c.1)) bdZero)

/-- Elements packed into words (R53). -/
def packWords (w : Nat) (cs : List Nat) : List Word :=
  (pieces (32 / w) w cs).map (fun p => w32 (p.foldr (fun c n => c + 2 ^ w * n) 0))

/-- What a drain of a row delivers: words, flags with BD of a breach in mode 2, bound; or its trap. -/
def drain (raw : Bool) (f : TFmt) (t : Thread) (r : TRow) : Except FInfo (List Word × Byte × BitVec 16) :=
  let (cs, fl, delta) := drainRow raw f r
  let b := if f == .f32 then r.beta else upBd (bdAdd (bdOf r.beta) delta)
  if breaches t.bud b then
    if budMode t.bud = 1 then .error (rowBreach t b) else .ok (packWords (tfBits f) cs, fl ||| flBD, b)
  else .ok (packWords (tfBits f) cs, fl, b)

/-- One lane of WST (R248): R198's checks, then the row is formed and checked, then written. -/
def wstLane (x : TileMemOps) (gid : Nat) : LaneFn := fun k t s =>
  let va := operandAddr t x.space x.a x.ofs
  let n := 4 * tfBits x.fmt
  match resolve s t x.space va n n .write with
  | (.error f, s) => (s, some f)
  | (.ok a, s) =>
    match drain true x.fmt t (getRow s t x.w) with
    | .error f => (s, some f)
    | .ok (ws, fl, b) =>
      (accStore (cacheLane s t x.evc.toNat false a true) gid k a (laneVia s t x.space va .write)
        (ws.flatMap (fun w => leBytes 4 w.toNat)) (ws.map (fun _ => b)) false fl, none)

def execWst (x : TileMemOps) (s : State) : Out := .next (laneOp x.g (wstLane x) s)

/-- One lane of WDRN (R249). -/
def wdrnLane (x : WdrnOps) : LaneFn := fun k t s =>
  match drain false x.fmt t (getRow s t x.w) with
  | .error f => (s, some f)
  | .ok (ws, fl, b) =>
    let regs := (List.range ws.length).zip ws |>.map (fun y => (x.d.toNat + y.1, (⟨y.2, b⟩ : Reg)))
    let s := modThread s k (fun t => orFlags (setRegs t regs) fl)
    (if x.z then setRow s t x.w TRow.zero else s, none)

def execWdrn (x : WdrnOps) (s : State) : Out := .next (laneOp x.g (fun _ => wdrnLane x) s)

end Sys2Proof.Machine
end

