-- ==== Sys2Proof/Machine/Room.lean ====
section
/-! DEFINITION. Which threads are runnable (R46), room on the cores (R20, R21, R99), and the room that is kept for the lowest runnable
thread of a partition while it is switched out (R45). -/

namespace Sys2Proof.Machine

/-! ## Runnable threads (R46) -/

def isHardWait : Wait → Bool
  | .bar _ _ _ | .cobj _ _ _ | .halt _ _ _ => true
  | _ => false

/-- Whether a group held at its slot for queue entries or for room in a compaction buffer would be held there now (R46, R226, R241,
R252). -/
def slotWaits (s : State) (g : Group) : Bool := match g.hold with
  | .queue => (match groupInstr g with
    | some (.qpop x) => headWaits s g x.q.toNat
    | some (.qpeek x) => headWaits s g x.q.toNat
    | some (.qdrop x) => headWaits s g x.q.toNat
    | some (.mma x) => mmaWaits s g false x
    | some (.mmao x) => mmaWaits s g true x
    | _ => true)
  | .yld => (match groupInstr g with
    | some (.yld x) => yldWaits s g x
    | _ => true)
  | _ => false

/-- Whether a thread is not runnable (R46). -/
def notRunnable (s : State) (t : Thread) : Bool :=
  match t.st with
  | .entry => false
  | .grouped g => match getGroup s g with
    | some x => slotWaits s x || x.waits.any (fun w => isHardWait w.2 && !waitOver s w.1 w.2)
    | none => false
  | _ => true

/-- The lowest of some threads, by global identifier. -/
def lowestOf (ts : List (Nat × Thread)) : Option Thread :=
  ts.foldl (fun (m : Option Thread) e => match m with
    | some t => if gtidLe t e.2 then some t else some e.2
    | none => some e.2) none

/-- The lowest runnable thread of a partition (R45): one that a save has switched out counts as well. -/
def lowestRunnable (s : State) (p : Nat) : Option Thread :=
  lowestOf (s.threads.filter (fun e => threadPart s e.2 == p && !notRunnable s e.2))

/-- Whether R45 requires a warp of a partition to be resident: the lowest runnable thread is in it. -/
def mustReturn (s : State) (p wk : Nat) : Bool := (lowestRunnable s p).any (fun t => warpKeyOf t == wk)

/-! ## What a record takes -/

/-- Warps of a quad group. -/
def warpsOf (r : LRec) : Nat := (r.t + 31) / 32

def queueBytesOf (r : LRec) : Nat := (r.queues.map (fun q => q.2.1 * q.2.2)).foldl (· + ·) 0

def clusterIn (mask : BitVec 128) (c : Nat) : Bool := mask.getLsbD c
def islandOf (s : State) (c : Nat) : Island := Map.get Island.reset s.pkg.islands c
def setIsland (s : State) (c : Nat) (f : Island → Island) : State :=
  { s with pkg := { s.pkg with islands := Map.putD Island.reset s.pkg.islands c (f (islandOf s c)) } }

/-! ## Room (R20, R21, R99) -/

def coreSets (c : Nat) : List (List Nat) :=
  match c with
  | 1 => [[0], [1], [2], [3]]
  | 2 => [[0, 1], [2, 3]]
  | 3 => [[0, 1, 2], [1, 2, 3]]
  | _ => [[0, 1, 2, 3]]

/-- The launch record of a cluster group. -/
def recOf (s : State) (cgu : Nat) : Option LRec := (cgLaunch s cgu).map (fun l => l.r)

/-- Scratchpad rows in use on a core. -/
def rowsUsed (s : State) (core : Nat) : Nat :=
  ((s.coreGroups.filter (fun e => e.2.core == core && !e.2.saved)).map (fun e => match recOf s e.2.cgu with
    | some r => r.scratch / 384 + r.stash / 384
    | none => 0)).foldl (· + ·) 0

/-- The quad groups on a quad of a core. -/
def quadGroupsOn (s : State) (core quad : Nat) : List (Nat × QuadGroup) :=
  s.quadGroups.filter (fun e => e.2.quad == quad && (match Map.get? s.coreGroups (e.2.cgu * 8 + e.2.k) with
    | some c => c.core == core && !c.saved
    | none => false))

/-- The resident warps on a quad of a core. -/
def warpsOn (s : State) (core quad : Nat) : List (Nat × Warp) :=
  let qs := (quadGroupsOn s core quad).map (·.1)
  s.warps.filter (fun e => !e.2.saved && qs.contains (e.2.cgu * 32 + e.2.k * 4 + e.2.j))

def sumOf (l : List Nat) : Nat := l.foldl (· + ·) 0

/-- Whether a quad has room for a quad group of a record: warps, register rows, queue storage. -/
def quadRoom (s : State) (core quad : Nat) (r : LRec) : Bool :=
  let ws := warpsOn s core quad
  let qs := quadGroupsOn s core quad
  decide (ws.length + warpsOf r ≤ Config.warpSlots)
    && decide (sumOf (ws.map (fun e => match recOf s e.2.cgu with | some x => x.alloc | none => 0)) + warpsOf r * r.alloc ≤ Config.regRows)
    && decide (sumOf (qs.map (fun e => match recOf s e.2.cgu with | some x => queueBytesOf x | none => 0)) + queueBytesOf r ≤ Config.queueBytes)

def clusterLoad (s : State) (cl : Nat) : Nat :=
  (s.clusterGroups.filter (fun e => (s.coreGroups.any (fun c => c.2.cgu == e.1 && c.2.core / 4 == cl && !c.2.saved)))).length

/-- Whether the partition may place on a cluster. -/
def clusterUsable (s : State) (p cl : Nat) : Bool := clusterIn (partOf s p).clumask cl && !(islandOf s cl).fenced

/-! ## Room for the lowest runnable thread (R45) -/

/-- Whether a saved core group's cluster takes it back: usable, and with its cluster group at most four there (R21). -/
def ownCluster (s : State) (p : Nat) (c : CoreGroup) : Bool :=
  clusterUsable s p (c.core / 4)
    && (s.coreGroups.any (fun x => x.2.cgu == c.cgu && x.2.core / 4 == c.core / 4 && !x.2.saved) || decide (clusterLoad s (c.core / 4) < 4))

def cgCores (s : State) (cgu : Nat) : List (Nat × CoreGroup) := s.coreGroups.filter (fun e => e.2.cgu == cgu)

/-- Whether a cluster group must return to its own cores: a core group is resident, or holds a fragment entry. -/
def bound' (s : State) (cgu : Nat) : Bool :=
  (cgCores s cgu).any (fun e => !e.2.saved && !e.2.gone) || s.threads.any (fun e => e.2.cgu == cgu && e.2.frag != 0)

/-- Where a warp must go to make room for a saved one, by its core and quad (R286, R320): the warp's own quad, while its core group
is resident; its own core, or all of a cluster that has four other groups, where its core group must return there; and
else the dies of its cluster group. -/
def makesRoom (s : State) (p : Nat) (w : Warp) (c : CoreGroup) (core quad : Nat) : Bool :=
  if !c.saved then core == c.core && quad == quadNo s ((w.cgu * 8 + w.k) * 4 + w.j)
  else if bound' s w.cgu then (if ownCluster s p c then core == c.core else core / 4 == c.core / 4)
  else (cgCores s w.cgu).any (fun e => e.2.core / 64 == core / 64)

/-- The warp of a partition that R45 requires to be resident and that is not. -/
def absentWarp (s : State) (p : Nat) : Option (Nat × Warp) :=
  (lowestRunnable s p).bind (fun t => match warpOf s t with
    | some w => if w.saved then some (warpKeyOf t, w) else none
    | none => none)

/-- Whether a save slot of a partition is free: without one no warp can make room (R319; DESIGN CHOICE, log 121). -/
def slotLeft (q : Part) : Bool := decide (sumOf (q.images.map (fun m => m.count)) < q.saveSlots.toNat)

/-- The quads, by core and number, on which room is kept for a warp of a partition that must return, from any but itself: what victims
leave there nothing else takes (R45; DESIGN CHOICE, log 121). -/
def keptRoom (s : State) (p : Nat) (wk : Option Nat) : Nat → Nat → Bool := match absentWarp s p with
  | none => fun _ _ => false
  | some (k, w) => match Map.get? s.coreGroups (w.cgu * 8 + w.k) with
    | none => fun _ _ => false
    | some c => if wk == some k || !slotLeft (partOf s p) then fun _ _ => false else makesRoom s p w c

/-- The same as an index of a launch finds it: index 0 of a class-0 launch takes room that it finds (R285; DESIGN CHOICE,
log 121). -/
def keptFor (s : State) (l : Launch) (i : Nat) : Nat → Nat → Bool :=
  if l.cls = 0 ∧ i = 0 then fun _ _ => false else keptRoom s l.part none

/-! ## Places -/

/-- The quads that take a core group of a record on a core, of those where room is not kept; none without room. -/
def coreRoom (s : State) (kept : Nat → Nat → Bool) (core : Nat) (r : LRec) : Option (List Nat) :=
  if Config.scratchRows < rowsUsed s core + r.scratch / 384 + r.stash / 384 then none
  else
    let qs := (List.range 4).filter (fun q => !kept core q && quadRoom s core q r)
    if r.q ≤ qs.length then some (qs.take r.q) else none

/-- A place on one cluster: the cores with their quads. -/
def clusterRoom (s : State) (kept : Nat → Nat → Bool) (p cl : Nat) (r : LRec) : Option (List (Nat × List Nat)) :=
  if !clusterUsable s p cl || decide (4 ≤ clusterLoad s cl) then none
  else (coreSets r.c).findSome? (fun cs => cs.foldr (fun c acc => acc.bind (fun l =>
    (coreRoom s kept (cl * 4 + c) r).map (fun qs => (cl * 4 + c, qs) :: l))) (some []))

/-- Clusters of a die, lowest first. -/
def dieClusters (d : Nat) : List Nat := (List.range 16).map (fun c => d * 16 + c)

/-- A place for an index with its first half on cluster `cl`: both halves of a paired group. -/
def placeOn (s : State) (kept : Nat → Nat → Bool) (p cl : Nat) (r : LRec) : Option (List (Nat × List Nat)) :=
  match clusterRoom s kept p cl r with
  | none => none
  | some a =>
    if r.c = 8 then ((dieClusters (cl / 16 + 1)).findSome? (fun c => clusterRoom s kept p c r)).map (fun b => a ++ b)
    else some a

end Sys2Proof.Machine
end

