-- ==== Sys2Proof/Machine/Stream.lean ====
section
/-! DEFINITION. The access slice (R113, R114, R253-R257): SLOOP, SNEXT, SFETCH, SMARK, SWAITC, SDONE, the landing of a
queue entry, and the re-evaluation of SWAITC. -/

namespace Sys2Proof.Machine

/-- The turret translates for its core, in the launch's mode (R114, R292). -/
def sliceWho (s : State) (qk : Nat) : Who :=
  ⟨quadPart s qk, some (quadCore s qk), match cgLaunch s (qk / 32) with
    | some l => l.priv
    | none => false⟩

/-- An entry allocated whose fetch has not been made (it has no shape yet). -/
def emptyEntry : QEntry := ⟨none, 0, 0, [], [], 0, false, 0, [], false, [], false, false⟩

def isEmptyEntry (e : QEntry) : Bool := e.marker.isNone && e.rows == 0

/-- Entries that a stopped instance had allocated and not fetched go, since they never become ready: the execute slice finds the queue
empty, as R114 has it, also where the entry's own SFETCH stopped the instance and R256 leaves the entry waiting (DESIGN CHOICE,
log 114). -/
def dropUnfetched (s : State) (qk : Nat) : State :=
  { s with quadGroups := Map.adjust s.quadGroups qk (fun g => { g with
      queues := g.queues.map (fun q => (q.1, { q.2 with entries := q.2.entries.filter (fun e => !isEmptyEntry e) })) }) }

/-- The instance stops and posts KIND 1 (R315). -/
def sliceStop (s : State) (qk : Nat) (f : FInfo) (addr : DWord) : State :=
  postEvent (modSlice (dropUnfetched s qk) qk (fun x => { x with st := .stopped })) (quadPart s qk) (w32 (quadCore s qk)) 1 f.cause f.reason
    (d64 (quadNo s qk)) addr 0

/-- A fault of the instance's access: a translation fault is waited on, any other stops it (R114, R316); an access that
cannot be made yet is made again. -/
def sliceFault (s : State) (qk : Nat) (allocated : Bool) (f : FInfo) : State :=
  if f.waits then s
  else if f.cause = 1 then agentWait (modSlice s qk (fun x => { x with st := .fault allocated })) (quadPart s qk) (.slice qk) f
  else sliceStop s qk f f.arg0

/-- An instruction of an instance that stands in a clause. -/
def sliceOp (f : Nat → Slice → Pass → State → State) (s : State) : State :=
  match s.cur with
  | .slice qk => match getSlice s qk with
    | some x => match x.pass with
      | some p => f qk x p s
      | none => s
    | none => s
  | _ => s

def sliceNext (s : State) (qk : Nat) : State := modSlice s qk (fun x => sliceAdvance { x with st := .run })

def aReg (x : Slice) (r : Nat) : Word := Map.get 0 x.a r
def aPair (x : Slice) (r : Nat) : DWord := pairWord (aReg x r) (aReg x (r + 1))

/-- A misuse of the loop stack (class 9 reason 7), reported at the slot. -/
def loopStop (s : State) (qk : Nat) (p : Pass) : State := sliceStop s qk (queueFault 7 0 0) (slotPc p)

/-- SLOOP (R254). -/
def execSloop (x : SloopOps) (s : State) : Out :=
  .next (sliceOp (fun qk c p s =>
    let n := if x.rf then (aReg c x.c.toNat).toNat else x.n.toNat
    if n = 0 ∨ 65535 < n ∨ 4 ≤ c.loops.length then loopStop s qk p
    else modSlice s qk (fun c => { c with
      a := Map.putD 0 c.a x.a.toNat (w32 n), loops := (x.a.toNat, nextHdr p) :: c.loops, pc := nextHdr p, pass := none })) s)

/-- SNEXT (R254). -/
def execSnext (a : BitVec 5) (s : State) : Out :=
  .next (sliceOp (fun qk c p s =>
    match c.loops with
    | [] => loopStop s qk p
    | (r, start) :: rest =>
      if r ≠ a.toNat then loopStop s qk p
      else
        let v := aReg c r - 1
        modSlice s qk (fun c =>
          let c := { c with a := Map.putD 0 c.a r v, pass := none }
          if v = 0 then { c with loops := rest, pc := nextHdr p } else { c with pc := start })) s)

/-- Read pieces of eight bytes at virtual addresses (R114): bytes and word bounds, or the first fault. -/
def readVas (w : Who) : List DWord → State → Except FInfo (List Byte × List (BitVec 16)) × State
  | [], s => (.ok ([], []), s)
  | va :: r, s =>
    match reach s w va .read with
    | (.error f, s) => (.error f, s)
    | (.ok l, s) =>
      let (g, s) := readLoc s l 8
      match readVas w r s with
      | (.error f, s) => (.error f, s)
      | (.ok (b, n), s) => (.ok (g.bytes ++ b, g.bnds ++ n), s)

def pieceVas (base : DWord) (n : Nat) : List DWord := (List.range (n / 8)).map (fun i => base + d64 (8 * i))

/-- The fields of a stride register (R255). -/
def strideScb (w : Word) : Nat := w.toNat / 2 ^ 30
def strideOl (w : Word) : Bool := w.getLsbD 29
def strideOf (w : Word) : DWord := d64 (w.toNat % 2 ^ 28)

/-- The stop conditions of SFETCH, in the order of R256's table, with the address they report. -/
def sfetchBad (x : SfetchOps) (c : Slice) (q : Option Queue) (base side : DWord) : Option (FInfo × DWord) :=
  let sv := aReg c x.s.toNat
  let need := strideScb sv != 0 || strideOl sv
  if base.toNat % 8 ≠ 0 then some (faultOf 3 0 base 8, base)
  else if (strideOf sv).toNat % 8 ≠ 0 then some (faultOf 3 0 (strideOf sv) 8, strideOf sv)
  else if need ∧ x.a.toNat < 30 ∧ side.toNat % 8 ≠ 0 then some (faultOf 3 0 side 8, side)
  else
    let shape := match q with
      | some q => decide (q.size < (x.rows.toNat + 1) * (8 * (x.bytes.toNat + 1)))
      | none => false
    if shape || strideScb sv == 3 || sv.getLsbD 28 || (need && decide (30 ≤ x.a.toNat)) then
      some (queueFault 6 x.q.toNat 0, base)
    else if q.isNone then some (queueFault 1 x.q.toNat 0, base)
    else none

/-- Replace the youngest entry of a queue. -/
def setYoungest (e : QEntry) : List QEntry → List QEntry
  | [] => []
  | [_] => [e]
  | a :: b :: r => a :: setYoungest e (b :: r)

/-- SFETCH (R256): the entry is allocated and its rows, records and side data read in order; it becomes ready when
QUEUE_ENTRY_READY lands it. After a retried fault the entry allocated before is filled. -/
def execSfetch (x : SfetchOps) (s : State) : Out :=
  .next (sliceOp (fun qk c _ s =>
    let q := x.q.toNat
    let sv := aReg c x.s.toNat
    let base := aPair c x.a.toNat + x.ofs.signExtend 64
    let side := aPair c (x.a.toNat + 2)
    match sfetchBad x c (getQueue s qk q) base side, getQueue s qk q with
    | some (f, addr), _ => sliceStop s qk f addr
    | none, none => s
    | none, some qu =>
      let held := match qu.entries.getLast? with
        | some e => isEmptyEntry e
        | none => false
      if !held && decide (qu.depth ≤ qu.entries.length) then modSlice s qk (fun c => { c with st := .full })
      else
        let s := if held then s else modQueue s qk q (fun u => { u with entries := u.entries ++ [emptyEntry] })
        let rows := x.rows.toNat + 1
        let bytes := 8 * (x.bytes.toNat + 1)
        let scb := 128 * strideScb sv
        let w := sliceWho s qk
        let vas := (List.range rows).flatMap (fun r => pieceVas (base + d64 r * strideOf sv) bytes)
        match readVas w vas s with
        | (.error f, s) => sliceFault s qk true f
        | (.ok (data, bnds), s) =>
          match readVas w (pieceVas side (scb + if strideOl sv then 520 else 0)) s with
          | (.error f, s) => sliceFault s qk true f
          | (.ok (sd, sb), s) =>
            let e := { mkEntry rows bytes scb (strideOl sv) data bnds sd sb with ready := false }
            sliceNext (modQueue s qk q (fun u => { u with entries := setYoungest e u.entries })) qk) s)

/-- SMARK (R257): a marker is ready at once. A queue without storage stops the instance with class 9 reason 1, as R256 has it
for SFETCH: R257 does not say (DESIGN CHOICE, log 79). -/
def execSmark (x : SmarkOps) (s : State) : Out :=
  .next (sliceOp (fun qk c p s =>
    match getQueue s qk x.q.toNat with
    | none => sliceStop s qk (queueFault 1 x.q.toNat 0) (slotPc p)
    | some qu =>
      if qu.depth ≤ qu.entries.length then modSlice s qk (fun c => { c with st := .full })
      else
        let e := { emptyEntry with marker := some (aReg c x.t.toNat), ready := true }
        sliceNext (modQueue s qk x.q.toNat (fun u => { u with entries := u.entries ++ [e] })) qk) s)

/-- One evaluation of SWAITC: whether the object has reached the target with PEND 0 (R215, R216). -/
def swaitEval (s : State) (qk : Nat) (va target : DWord) : Except FInfo Bool × State :=
  if va.toNat % 32 ≠ 0 then (.error (faultOf 3 0 va 32), s)
  else match reach s (sliceWho s qk) va .read false with
    | (.error f, s) => (.error f, s)
    | (.ok l, s) =>
      let (g, s) := readLoc s l 32
      match cobjOf g.bytes with
      | none => (.error (faultOf 8 2 va target), s)
      | some c => (.ok (decide (target.toNat ≤ c.count) && c.pend == 0), s)

/-- The instance goes on, waits, or stops, by one evaluation. -/
def swaitStep (s : State) (qk : Nat) (va target : DWord) : State :=
  match swaitEval s qk va target with
  | (.error f, s) => sliceFault s qk false f
  | (.ok true, s) => sliceNext s qk
  | (.ok false, s) => modSlice s qk (fun c => { c with st := .cobj va target })

/-- SWAITC (R257). It is an acquire (R122); an instance reaches no peer window, so that it changes nothing that the model
keeps (log 7). -/
def execSwaitc (x : SwaitcOps) (s : State) : Out :=
  .next (sliceOp (fun qk c _ s =>
    swaitStep s qk (aPair c x.a.toNat) (if x.wide then aPair c x.t.toNat else (aReg c x.t.toNat).setWidth 64)) s)

/-- SWAITC_REEVALUATE (R257): the object is evaluated again. -/
def execSwaitcReevaluate (qk : Nat) (s : State) : Out :=
  .next (match getSlice s qk with
    | some x => (match x.st with
      | .cobj va target => swaitStep s qk va target
      | _ => s)
    | none => s)

/-- SDONE (R257). -/
def execSdone (s : State) : Out :=
  .next (sliceOp (fun qk _ _ s => modSlice s qk (fun c => { c with st := .done })) s)

/-- Set the i-th entry ready, when its fetch has been made. -/
def landEntry (i : Nat) (es : List QEntry) : List QEntry :=
  match es[i]? with
  | some e => if isEmptyEntry e then es else es.set i { e with ready := true }
  | none => es

/-- QUEUE_ENTRY_READY (R111): the last bytes and records of an entry have landed. -/
def execQueueEntryReady (qk q i : Nat) (s : State) : Out :=
  .next (modQueue s qk q (fun u => { u with entries := landEntry i u.entries }))

end Sys2Proof.Machine
end

