-- ==== Sys2Proof/Machine/Launch.lean ====
section
/-! DEFINITION. Launches (R20-R25, R99, R106, R275-R286): records and their checks, the queues' states, dependences,
dispatch, input tiles, completion, and the requests for pre-emption that make room. -/

namespace Sys2Proof.Machine

/-! ## Launch records (Table 16-4) -/

def depOf (l : List Byte) (o : Nat) : Dep :=
  let a := bits l o 8
  let b := bits l (o + 8) 8
  ⟨a % 4, a / 128 * 128, a / 4 % 16, b / 2 ^ 48, b / 2 ^ 32 % 256, sint 32 b⟩

def tileOf (l : List Byte) (o : Nat) : Tile := ⟨bits l o 8, bits l (o + 8) 4, bits l (o + 12) 4 / 2 ^ 24, bits l (o + 12) 4 % 2 ^ 20⟩

def recordOf (l : List Byte) : LRec :=
  let w := bits l 0 4
  let r48 := bits l 0x48 4
  let r4c := bits l 0x4C 4
  { priv := w / 2 ^ 31 == 1, l := w / 2 ^ 16 % 1024 + 1, c := w / 2 ^ 12 % 16, q := w / 2 ^ 10 % 4 + 1, t := w % 1024 + 1,
    g := bits l 4 4, gceil := bits l 8 4, reclen := bits l 0xC 4, kcode := d64 (bits l 0x10 8), acode := d64 (bits l 0x18 8),
    parm := d64 (bits l 0x20 8), place := d64 (bits l 0x28 8), ubase := d64 (bits l 0x30 8), compl := d64 (bits l 0x38 8),
    cbmp := d64 (bits l 0x40 8), alloc := 8 * (r48 / 256 % 64), n := 8 * (r48 % 64), stash := 384 * (r4c / 2 ^ 16 % 4096),
    scratch := 384 * (r4c % 4096),
    queues := (List.range 8).filterMap (fun n =>
      let e := bits l (0x50 + 2 * n) 2
      if e / 2 ^ 15 = 1 then some (n, (128 * (e / 256 % 32 + 1), e % 256 + 1)) else none),
    bud := w32 (bits l 0x60 4), recbase := d64 (bits l 0x68 8), deps := (List.range 4).map (fun d => depOf l (0x70 + 16 * d)),
    tiles := (List.range 4).map (fun t => tileOf l (0xB0 + 16 * t)) }

/-- Two tiles that a core group would both receive, in one stash range or one virtual range. -/
def tilesMeet (a b : Tile) : Bool :=
  decide (a.len ≠ 0 ∧ b.len ≠ 0) && (BitVec.ofNat 8 a.mask &&& BitVec.ofNat 8 b.mask) != 0
    && (meets a.soff a.len b.soff b.len || meets a.vbase a.len b.vbase b.len)

def tilesApart : List Tile → Bool
  | [] => true
  | a :: r => r.all (fun b => !tilesMeet a b) && tilesApart r

/-- Status 2: every field in its range, reserved bits zero. An entry of LEN 0 is no tile, and its VBASE and SOFF may hold anything
(DESIGN CHOICE, log 104). -/
def recordFieldsOk (l : List Byte) (r : LRec) : Bool :=
  let w := bits l 0 4
  let r48 := bits l 0x48 4
  let r4c := bits l 0x4C 4
  w / 2 ^ 26 % 32 == 0 && [1, 2, 3, 4, 8].contains r.c && decide (1 ≤ r.g) && (r.gceil == 0 || decide (r.g ≤ r.gceil))
    && r.reclen % 64 == 0 && (r.reclen != 0 || r.recbase == 0) && r.recbase.toNat % 64 == 0
    && r.kcode.toNat % 8 == 0 && r.acode.toNat % 8 == 0 && r.place.toNat % 8 == 0 && r.ubase.toNat % 4096 == 0
    && r.compl.toNat % 32 == 0 && r.cbmp.toNat % 128 == 0
    && r48 / 2 ^ 14 == 0 && r48 / 64 % 4 == 0 && decide (8 ≤ r.n ∧ r.n ≤ 256)
    && r4c / 2 ^ 28 == 0 && r4c / 2 ^ 12 % 16 == 0 && decide (r.stash ≤ 384 * 2048 ∧ r.scratch ≤ 384 * 2048)
    && (List.range 8).all (fun n => bits l (0x50 + 2 * n) 2 / 2 ^ 13 % 4 == 0) && (r.acode != 0 || r.queues.isEmpty)
    && budOk r.bud && bits l 0x64 4 == 0
    && (List.range 4).all (fun d => bits l (0x70 + 16 * d) 8 / 64 % 2 == 0 && bits l (0x78 + 16 * d) 8 / 2 ^ 40 % 256 == 0)
    && r.deps.all (fun d => d.kind != 3 && (d.kind == 0 || d.pcbmp != r.cbmp.toNat))
    && (List.range 4).all (fun t => bits l (0xBC + 16 * t) 4 / 2 ^ 20 % 16 == 0)
    && r.tiles.all (fun t => t.len == 0 || (t.vbase % 128 == 0 && t.len % 128 == 0 && t.soff % 128 == 0
      && decide (t.soff + t.len ≤ r.stash)))
    && tilesApart r.tiles && bits l 0xF6 2 == 0 && bits l 0xFC 4 == 0

/-- Status 3: the record fits one core (R278). -/
def recordFits (r : LRec) : Bool :=
  decide (warpsOf r * r.alloc ≤ Config.regRows ∧ r.n ≤ r.alloc ∧ r.alloc ≤ 256
    ∧ r.scratch / 384 + r.stash / 384 ≤ Config.scratchRows ∧ queueBytesOf r ≤ Config.queueBytes)

/-- A die that a placement may name: present, not fenced, with a cluster of the partition. -/
def dieUsable (s : State) (p d : Nat) : Bool :=
  decide (d < 8) && !(dieOf s d).fenced && (List.range 16).any (fun c => clusterIn (partOf s p).clumask (d * 16 + c))

/-- Status 5 (R21). -/
def placementOk (s : State) (p c : Nat) (place : List Nat) : Bool :=
  place.all (fun d => dieUsable s p d && (c != 8 || (d != 3 && d != 7 && dieUsable s p (d + 1))))

/-- Whether a walk in the launch's mode allows an access. -/
def reachable (s : State) (w : Who) (va : DWord) (k : AKind) : Bool :=
  match (walk s w va k).1 with
  | .ok _ => true
  | .error _ => false

/-- The accesses of a launch that its record's status 6 is about. Of what a bitmap or the record area spans, the page of its first
byte is checked (DESIGN CHOICE, log 103). -/
def recordReach (r : LRec) : List (DWord × AKind) :=
  let opt (b : Bool) (va : DWord) (k : AKind) : List (DWord × AKind) := if b then [(va, k)] else []
  [(r.kcode, .read)] ++ opt (r.acode != 0) r.acode .read ++ opt (r.reclen != 0) r.recbase .read ++ opt (r.compl != 0) r.compl .write
    ++ opt (r.cbmp != 0) r.cbmp .write ++ (r.deps.filter (fun d => d.kind != 0)).map (fun d => (d64 d.pcbmp, AKind.read))

/-- A walk for one of them that must wait for a die (R344). -/
def recordWaits (s : State) (w : Who) (r : LRec) : Option FInfo := (recordReach r).findSome? (fun x => match (walk s w x.1 x.2).1 with
  | .error f => if f.waits then some f else none
  | .ok _ => none)

/-- Read the placement table: L bytes. -/
def readPlace (s : State) (w : Who) (r : LRec) : Except FInfo (List Nat) × State :=
  match readVas w (pieceVas r.place ((r.l + 7) / 8 * 8)) s with
  | (.ok (b, _), s) => (.ok ((b.take r.l).map (·.toNat)), s)
  | (.error f, s) => (.error f, s)

/-- The checks of Table 16-5 in its order, with the placement table, where it can be read: the status. -/
def recordStatus (s : State) (p : Nat) (privok user : Bool) (l : List Byte) (r : LRec) (place : Option (List Nat)) : Nat :=
  let w : Who := ⟨p, none, r.priv⟩
  if !recordFieldsOk l r || (place.getD []).any (fun d => decide (8 ≤ d)) then 2
  else if !recordFits r then 3
  else if r.priv && (!privok || user) then 4
  else match place with
    | none => 6
    | some pl =>
      if !placementOk s p r.c pl then 5
      else if (recordReach r).all (fun x => reachable s w x.1 x.2) then 1
      else 6

/-! ## Launch-queue states (Table 16-3) -/

def lqSetState (v : Nat) (q : LQueue) : LQueue := { q with cfg := (q.cfg &&& ~~~3) ||| w32 v }

def lqLogn (q : LQueue) : Nat := q.cfg.toNat / 2 ^ 16 % 16

/-- STATE := v. -/
def lqWriteState (v : Nat) (q : LQueue) : LQueue :=
  match lqState q, v with
  | 0, 1 => if 1 ≤ lqLogn q ∧ lqLogn q ≤ 12 ∧ q.base.toNat % 256 = 0 then lqSetState 1 q else q
  | 1, 2 => lqSetState 2 q
  | 2, 1 => lqSetState 1 q
  | 3, 1 => lqSetState 1 q
  | 0, _ => q
  | _, 0 => { lqSetState 0 q with head := q.tail, userSlots := [] }
  | _, _ => q

def execLqActivate (p q : Nat) (s : State) : Out := .next (modLq s p q (lqWriteState 1))
def execLqPause (p q : Nat) (s : State) : Out := .next (modLq s p q (lqWriteState 2))
def execLqOff (p q : Nat) (s : State) : Out := .next (modLq s p q (lqWriteState 0))

/-- A tail write (R275): refused past the ring's end or when it adds more records than there are free slots. A HEAD or TAIL kept from a
larger ring, at or beyond the new end, counts modulo the new size (DESIGN CHOICE, log 117). -/
def lqWriteTail (v : Word) (q : LQueue) : LQueue :=
  let n := lqSlots q
  let t := q.tail.toNat
  let add := (v.toNat + n - t) % n
  let used := (t + n - q.head.toNat) % n
  if n ≤ v.toNat ∨ n - 1 - used < add then q
  else { q with tail := v, userSlots := q.userSlots.filter (fun x => decide (add ≤ (x + n - t) % n)) }

/-! ## Taking a record (R277) -/

/-- Queues in the order of service: by class, within one round-robin from the one served last. -/
def queueOrder (q : Part) : List Nat :=
  (List.range 4).flatMap (fun c =>
    ((List.range 16).map (fun i => (Map.get 15 q.lqLast c + 1 + i) % 16)).filter (fun n => lqClass (Map.get LQueue.reset q.lqs n) == c))

/-- The queue whose record the distributor takes next; not one whose STATUS write a migration lock holds. -/
def nextQueue (s : State) (p : Nat) : Option Nat :=
  (queueOrder (partOf s p)).find? (fun n => lqState (lqOf s p n) == 1 && !lqEmpty (lqOf s p n) && !heldFor s p (.take n))

/-- An index's state; one that the map does not list is pending. -/
def idxSt (l : Launch) (i : Nat) : IdxSt := Map.get .pending l.idx i
def setIdx (i : Nat) (x : IdxSt) (l : Launch) : Launch := { l with idx := Map.putD .pending l.idx i x }

/-- GCUR := G with DONE clear, at the header's location (R279). -/
def headerAt (l : Launch) (w : Who) (loc : Loc) (s : State) : State :=
  let (g, s) := readLoc s (locPlus loc 8) 4
  let s := storeLoc s loc (leBytes 4 l.g) [0] (some ⟨w, l.r.cbmp, .write⟩)
  storeLoc s (locPlus loc 8) (leBytes 4 (leNat g.bytes / 2 * 2)) [0] (some ⟨w, l.r.cbmp + 8, .write⟩)

/-- The header's write at acceptance; a fault of it is waited on (R283). -/
def initBitmap (s : State) (p : Nat) (l : Launch) (at_ : Except FInfo Loc) : State :=
  if l.r.cbmp = 0 then s
  else match at_ with
    | .error f => agentWait s p (.header l.serial) f
    | .ok loc => headerAt l (distWho p l) loc s

/-- The header's write made again after a retry. -/
def headerAgain (s : State) (p serial : Nat) : State :=
  match launchOf s p serial with
  | none => s
  | some l => match reach s (distWho p l) l.r.cbmp .write with
    | (.ok loc, s) => headerAt l (distWho p l) loc s
    | (.error f, s) => if f.waits then silentWait s p (.header serial) f else agentWait s p (.header serial) f

def mkLaunch (p serial cls : Nat) (r : LRec) (place : List Nat) : Launch :=
  { part := p, serial := serial, cls := cls, priv := r.priv, r := r, g := r.g, place := place, idx := [], waits := [],
    closed := false, published := false }

/-- The queue enters error (Table 16-3). -/
def lqError (s : State) (p n : Nat) (f : FInfo) : State :=
  postEvent (modLq s p n (lqSetState 3)) p (domeSrc p) 7 f.cause f.reason (d64 n) 0 0

/-- The head advances past a slot whose STATUS is written; a queue turned off since stays empty. -/
def takeDone (p n : Nat) (s : State) : State :=
  modLq s p n (fun q => if lqEmpty q then q else { q with
    head := w32 ((q.head.toNat + 1) % lqSlots q), userSlots := q.userSlots.filter (fun x => x != q.head.toNat) })

/-- Steps 2 to 4 of R277 for a record with its status: number it, write SERIAL and STATUS, advance the head. The head waits
for a STATUS that a migration lock holds. -/
def takeRecord (p n : Nat) (w : Who) (wl : Loc) (va : DWord) (r : LRec) (st : Nat) (place : List Nat) (hdr : Except FInfo Loc)
    (s : State) : State :=
  let serial := (partOf s p).serialNext
  let cls := lqClass (lqOf s p n)
  let s := if st = 1 then
      let x := mkLaunch p serial cls r place
      let s := setPart { s with launches := Map.put s.launches (launchKey p serial) x } p
        (fun q => { q with serialNext := (serial + 1) % 2 ^ 48 })
      initBitmap s p x hdr
    else s
  let s := setPart s p (fun q => { q with lqLast := Map.put q.lqLast cls n })
  agentWrite s p (.take n) (locPlus wl 0xF0) (some ⟨w, va + 0xF0, .write⟩)
    (.store (leBytes 8 (if st = 1 then serial else 0) ++ leBytes 8 st) [0, 0, 0, 0] false 0) (fun _ => takeDone p n)

/-- A fault of the distributor at a head slot: the queue enters error. Table 16-3 names a slot that cannot be read; one that can
be read and not written, so that the record cannot get its STATUS, is taken for the same (DESIGN CHOICE, log 80). -/
def takeFault (p n : Nat) (f : FInfo) (s : State) : State := if f.waits then s else lqError s p n f

/-- Why a record cannot be taken yet: an access waits (`waitInfo`), or a lock holds the bitmap header's write, which the STATUS may
not overtake (R122, R134). -/
def takeWaits (s : State) (lw : Who) (l : List Byte) (r : LRec) (st : Nat) (place : Except FInfo (List Nat)) (hdr : Except FInfo Loc) :
    Option FInfo :=
  let held : Option FInfo := match hdr with
    | .ok loc => if st = 1 && r.cbmp != 0 then (locLock s loc).map waitLock else none
    | .error f => if f.waits then some f else none
  match place with
  | .error f => if f.waits then some f else held
  | .ok _ => if recordFieldsOk l r then (recordWaits s lw r).or held else held

/-- LAUNCH_RECORD_TAKE (R277, R278): the head slot of the next queue is read and checked, and the record taken. While an
access of it waits nothing is taken. -/
def execLaunchRecordTake (p : Nat) (s : State) : Out :=
  .next (match nextQueue s p with
    | none => s
    | some n =>
      let q := lqOf s p n
      let va := lqSlotVa q q.head.toNat
      let w : Who := ⟨p, none, true⟩
      match reach s w va .read with
      | (.error f, s) => takeFault p n f s
      | (.ok rl, s) =>
        match reach s w va .write with
        | (.error f, s) => takeFault p n f s
        | (.ok wl, s) =>
          let (g1, s) := readLoc s rl 128
          let (g2, s) := readLoc s (locPlus rl 128) 128
          let l := g1.bytes ++ g2.bytes
          let r := recordOf l
          let lw : Who := ⟨p, none, r.priv⟩
          let (place, s) := if recordFieldsOk l r then readPlace s lw r else (.ok [], s)
          let st := recordStatus s p (lqPrivok q) (q.userSlots.contains q.head.toNat) l r (match place with
            | .ok x => some x
            | .error _ => none)
          let (hdr, s) := if st = 1 && r.cbmp != 0 then reach s lw r.cbmp .write else (.ok wl, s)
          match takeWaits s lw l r st place hdr with
          | some f => wakeFor s [f]
          | none => takeRecord p n w wl va r st (match place with
            | .ok x => x
            | .error _ => []) hdr s)

/-! ## Dependences (R279, R280) -/

def readVa (w : Who) (va : DWord) (n : Nat) (s : State) : Except FInfo Nat × State :=
  match reach s w va .read with
  | (.error f, s) => (.error f, s)
  | (.ok l, s) => let (g, s) := readLoc s l n; (.ok (leNat g.bytes), s)

/-- The window of one entry: indices from j on, `n` of them. -/
def windowReady (w : Who) (b gcur : Nat) (done : Bool) : Nat → Int → State → Except FInfo Bool × State
  | 0, _, s => (.ok true, s)
  | n + 1, j, s =>
    if j < 0 then windowReady w b gcur done n (j + 1) s
    else if (gcur : Int) ≤ j then (if done then windowReady w b gcur done n (j + 1) s else (.ok false, s))
    else
      match readVa w (d64 (b + 64 + j.toNat / 8)) 1 s with
      | (.error f, s) => (.error f, s)
      | (.ok v, s) => if v / 2 ^ (j.toNat % 8) % 2 = 1 then windowReady w b gcur done n (j + 1) s else (.ok false, s)

/-- ready(i) (R280). -/
def depsReady (w : Who) (i : Nat) : List Dep → State → Except FInfo Bool × State
  | [], s => (.ok true, s)
  | e :: r, s =>
    if e.kind = 0 then depsReady w i r s
    else match readVa w (d64 e.pcbmp) 4 s with
      | (.error f, s) => (.error f, s)
      | (.ok gcur, s) =>
        match readVa w (d64 (e.pcbmp + 8)) 1 s with
        | (.error f, s) => (.error f, s)
        | (.ok d, s) =>
          let done := d % 2 == 1
          if e.kind = 1 then (if done then depsReady w i r s else (.ok false, s))
          else match windowReady w e.pcbmp gcur done (e.wm1 + 1) (((e.mul : Int) * i + e.ofs) / 2 ^ e.dsh) s with
            | (.ok true, s) => depsReady w i r s
            | x => x

/-- Whether an index waits for its dependences. -/
def idxWaits (l : Launch) (i : Nat) : Bool := match idxSt l i with
  | .pending | .stalled _ => true
  | _ => false

/-- INDEX_READY (R280): the dependence unit evaluates a waiting index. One whose dependence read was abandoned stays so until
the read ends in another way than that fault (R283). -/
def execIndexReady (p serial i : Nat) (s : State) : Out :=
  .next (match launchOf s p serial with
    | none => s
    | some l =>
      if l.g ≤ i || !idxWaits l i || agentWaits s p (.dep serial i) then s
      else match depsReady (distWho p l) i l.r.deps s with
        | (.error f, s) => if f.waits || idxSt l i == .stalled f then s else agentWait (modLaunch s p serial (setIdx i .pending)) p (.dep serial i) f
        | (.ok true, s) => modLaunch s p serial (setIdx i .ready)
        | (.ok false, s) => modLaunch s p serial (setIdx i .pending))

def noDeps (l : Launch) : Bool := l.r.deps.all (fun d => d.kind == 0)

/-- Whether an index may be placed: ready, or pending without dependences (R280). -/
def idxReady (l : Launch) (i : Nat) : Bool :=
  decide (i < l.g) && (idxSt l i == .ready || idxSt l i == .aged || (idxSt l i == .pending && noDeps l))

/-! ## Starting a cluster group (R22, R25, R113) -/

/-- The lowest free warp slots of a quad. -/
def freeSlots (s : State) (core quad n : Nat) : List Nat :=
  let used := (warpsOn s core quad).map (fun e => e.2.slot)
  ((List.range Config.warpSlots).filter (fun i => !used.contains i)).take n

def newWarp (cgu k j w slot : Nat) (now : DWord) : Warp := ⟨cgu, k, j, w, slot, [], [], none, [], none, 0, false, none, now, []⟩

/-- A core group as its cluster group starts: scratch and records 0 (R102), nothing mapped. -/
def newCoreGroup (cgu k core : Nat) : CoreGroup := ⟨cgu, k, core, [], [], [], [], false, false, []⟩

/-- A cluster group of an index on a cluster, from a core of it on. -/
def newClusterGroup (part serial idx cluster base : Nat) (st : CgSt) : ClusterGroup :=
  ⟨part, serial, idx, cluster, base, [], 0, st, 0, []⟩

/-- A quad group with its queues and warps; its slice starts with the group. -/
def addQuadGroup (s : State) (cgu k j core quad : Nat) (r : LRec) : State :=
  let slots := freeSlots s core quad (warpsOf r)
  let q : QuadGroup := ⟨cgu, k, j, quad, r.queues.map (fun e => (e.1, ⟨e.2.1, e.2.2, []⟩)), none⟩
  let s := { s with quadGroups := Map.put s.quadGroups (cgu * 32 + k * 4 + j) q }
  (List.range slots.length).foldl (fun s w =>
    { s with warps := Map.put s.warps (cgu * 1024 + (k * 4 + j) * 32 + w) (newWarp cgu k j w (slots.getD w 0) s.clock) }) s

def addCoreGroup (s : State) (cgu k core : Nat) (quads : List Nat) (r : LRec) : State :=
  let s := { s with coreGroups := Map.put s.coreGroups (cgu * 8 + k) (newCoreGroup cgu k core) }
  (List.range quads.length).foldl (fun s j => addQuadGroup s cgu k j core (quads.getD j 0) r) s

def newThread (cgu serial cg k j t : Nat) (l : LRec) (priv : Bool) : Thread :=
  { cgu := cgu, serial := serial, cg := cg, tid := (k * l.q + j) * l.t + t, k := k, j := j, w := t / 32, lane := t % 32,
    n := l.n, regs := [], cregs := [], frame := none, preds := 0, lk := 0, flags := 0, bud := l.bud, pc := l.kcode, priv := priv,
    st := .entry, pass := none, rpass := none, prod := none, frag := 0, hand := .none, stop := .running, away := 0, team := 0,
    bad := [], mw := none }

/-- Every thread and access-slice instance of a cluster group starts. -/
def startGroup (s : State) (cgu : Nat) : State :=
  match Map.get? s.clusterGroups cgu, cgLaunch s cgu with
  | some g, some l =>
    let s := { s with clusterGroups := Map.put s.clusterGroups cgu { g with st := .running } }
    let s := (List.range l.r.c).foldl (fun s k => (List.range l.r.q).foldl (fun s j => (List.range l.r.t).foldl (fun s t =>
      let x := newThread cgu l.serial g.idx k j t l.r l.priv
      { s with threads := Map.put s.threads (threadKey cgu x.tid) x }) s) s) s
    if l.r.acode = 0 then s
    else { s with quadGroups := s.quadGroups.map (fun e =>
        if e.2.cgu == cgu then (e.1, { e.2 with slice := some ⟨[], l.r.acode, none, [], .run⟩ }) else e) }
  | _, _ => s

/-- An index is placed: it no longer waits for room. -/
def placeIdx (i : Nat) (l : Launch) : Launch := setIdx i .placed { l with waits := Map.erase l.waits i }

/-- An index that completes without threads (R281, R315): only its publication is left. -/
def skipIndex (s : State) (l : Launch) (i cl : Nat) : State :=
  let cgu := s.nextId
  let s := { s with nextId := cgu + 1,
                    clusterGroups := Map.put s.clusterGroups cgu (newClusterGroup l.part l.serial i cl 0 .compl) }
  modLaunch s l.part l.serial (placeIdx i)

/-! ## Dispatch (R284) -/

/-- The lowest index from i on, within n, that may be placed on a die. -/
def firstReady (l : Launch) (die : Nat) : Nat → Nat → Option Nat
  | 0, _ => none
  | n + 1, i =>
    if idxReady l i && l.place.getD (i % l.r.l) 8 == die then some i else firstReady l die n (i + 1)

/-- The order of two launches: class, then serial. -/
def before (a b : Launch) : Bool := decide (a.cls < b.cls) || (a.cls == b.cls && decide (a.serial < b.serial))

/-- Whether an index of a launch has room somewhere on a die. -/
def hasRoom (s : State) (l : Launch) (i die : Nat) : Bool :=
  let kept := keptFor s l i
  (dieClusters die).any (fun c => (placeOn s kept l.part c l.r).isSome)

/-- What keeps an index of a launch from being placed now: an older ready index of the die that has room, or an aged one
of equal or higher class and lower serial. -/
def heldBack (s : State) (l : Launch) (die : Nat) : Bool :=
  s.launches.any (fun e =>
    let m := e.2
    m.part == l.part && m.serial != l.serial
      && ((before m l && (firstReady m die m.g 0).any (fun i => hasRoom s m i die))
        || (decide (m.cls ≤ l.cls) && decide (m.serial < l.serial)
          && m.idx.any (fun x => x.2 == .aged && m.place.getD (x.1 % m.r.l) 8 == die))))

/-- The fenced die of an index: its own, or its partner. -/
def fencedDie (s : State) (l : Launch) (die : Nat) : Option Nat :=
  if (dieOf s die).fenced then some die else if l.r.c = 8 ∧ (dieOf s (die + 1)).fenced then some (die + 1) else none

/-- A victim to make room for an index of class 0 (R285): the resident warp of classes 1-3 on its die with the highest serial, or, for a
paired group, on one of its two dies. -/
def roomVictim (s : State) (p die : Nat) (paired : Bool) : Option Nat :=
  let ws := s.warps.filterMap (fun e => match cgLaunch s e.2.cgu, Map.get? s.coreGroups (e.2.cgu * 8 + e.2.k) with
    | some l, some c => if l.part == p && l.cls != 0 && (c.core / 64 == die || (paired && c.core / 64 == die + 1)) && !e.2.saved && e.2.preq.isNone then some (l.serial, e.1) else none
    | _, _ => none)
  (ws.foldl (fun (m : Option (Nat × Nat)) x => match m with
    | some y => if y.1 < x.1 then some x else some y
    | none => some x) none).map (·.2)

/-! ## Stopping for a save (R46, R317) -/

/-- Threads leave the groups they share with others, standing in groups of their own at the same slot. -/
def splitOff (s : State) (ks : List Nat) : State :=
  s.groups.foldl (fun s e =>
    let ins := e.2.members.filter (fun k => ks.contains k)
    if ins.isEmpty || ins.length == e.2.members.length then s
    else
      let gid := s.nextId
      let g := { e.2 with members := ins, waits := e.2.waits.filter (fun w => ins.contains w.1) }
      let s := { s with nextId := gid + 1, groups := Map.put s.groups gid g }
      let s := ins.foldl (fun s k => modThread s k (fun t => { t with st := .grouped gid })) s
      settleGroup (dropMembers s e.1 ins) e.1) s

/-- Running threads stop where they stand, to be saved whole. -/
def stopWhole (s : State) (ks : List Nat) : State :=
  ks.foldl (fun s k => modThread s k (fun t => if t.stop == .running then { t with stop := .whole } else t)) (splitOff s ks)

/-- Threads of a warp that is to be saved stop where they stand when they are not runnable or in handler state. -/
def stopStanding (s : State) (wk : Nat) : State :=
  let ks := ((warpThreads s wk).filter (fun e => e.2.stop == .running && (notRunnable s e.2 || e.2.hand != .none))).map (·.1)
  if ks.isEmpty then s else stopWhole s ks

/-- A pre-emption request (R317). -/
def requestSave (s : State) (wk : Nat) : State :=
  match Map.get? s.warps wk with
  | none => s
  | some w => if w.preq.isSome || w.saved then s else stopStanding (modWarp s wk (fun w => { w with preq := some false, preqAt := s.clock })) wk

/-- An index is found without room: it waits from now on (R284), and class 0 asks for room (R285): any of its indices, not index 0
alone (DESIGN CHOICE, log 102). -/
def noRoom (s : State) (l : Launch) (i die : Nat) : State :=
  let s := modLaunch s l.part l.serial (fun l => if (Map.get? l.waits i).isSome then l else { l with waits := Map.put l.waits i s.clock })
  if l.cls = 0 then (match roomVictim s l.part die (l.r.c == 8) with
    | some wk => requestSave s wk
    | none => s) else s

/-- DISPATCH (R44, R284, R285): the lowest ready index of its launch on its die goes to a cluster with room; a fenced die
makes it complete without threads; without room, class 0 asks for it. -/
def execDispatch (p serial i cl : Nat) (s : State) : Out :=
  .next (match launchOf s p serial with
    | none => s
    | some l =>
      let die := l.place.getD (i % l.r.l) 8
      if firstReady l die l.g 0 ≠ some i then s
      else match fencedDie s l die with
        | some d =>
          skipIndex (postEvent s p (domeSrc p) 3 13 0 (d64 serial) (d64 i) (d64 d)) l i cl
        | none =>
          if cl / 16 ≠ die || heldBack s l die then s
          else match placeOn s (keptFor s l i) p cl l.r with
            | none => if hasRoom s l i die then s else noRoom s l i die
            | some cores =>
              let cgu := s.nextId
              let tiles := l.r.tiles.any (fun t => t.len != 0)
              let g := newClusterGroup p serial i cl ((cores.headD (0, [])).1 % 4) .filling
              let s := { s with nextId := cgu + 1, clusterGroups := Map.put s.clusterGroups cgu g }
              let s := modLaunch s p serial (placeIdx i)
              let s := ((List.range cores.length).zip cores).foldl (fun s x => addCoreGroup s cgu x.1 x.2.1 x.2.2 l.r) s
              let s := (cores.map (fun c => c.1 / 4)).foldl (fun s c => setIsland s c (fun x => { x with last := some p })) s
              if tiles then s else startGroup s cgu)

/-- Whether an index has waited AGING µs without room; the time base counts 1,250 clocks a µs (R171). -/
def hasAged (s : State) (l : Launch) (i : Nat) : Bool := match Map.get? l.waits i with
  | some since => decide ((partOf s l.part).aging.toNat * 1250 ≤ (s.clock - since).toNat)
  | none => false

/-- AGING_EXPIRY (R284): a ready index without room has waited AGING. -/
def execAgingExpiry (p serial i : Nat) (s : State) : Out :=
  .next (match launchOf s p serial with
    | none => s
    | some l => if idxReady l i && hasAged s l i then modLaunch s p serial (setIdx i .aged) else s)

/-! ## Input tiles (R106) -/

/-- The lines of a tile: stash line and virtual address. -/
def tileLines (t : Tile) : List (Nat × DWord) :=
  (List.range (t.len / 128)).map (fun i => (t.soff / 128 + i, d64 (t.vbase + 128 * i)))

/-- Fill lines by first touch; the first fault ends it. R106 gives the fill no eviction class: it goes as class 2, and allocates in the
core's L1 and the central cache (DESIGN CHOICE, log 111). -/
def fillLines (ck : Nat) (w : Who) : List (Nat × DWord) → State → Option FInfo × State
  | [], s => (none, s)
  | (i, va) :: r, s =>
    match reach s w va .read with
    | (.error f, s) => (some f, s)
    | (.ok l, s) =>
      let s := openLoc s (readLocOf s l)
      fillLines ck w r (touchStash s (some (ck, i)) (physLine l) false)

/-- Install and fill the tiles of one core group. -/
def fillCore (ck : Nat) (w : Who) (k : Nat) : List (Nat × Tile) → State → Option FInfo × State
  | [], s => (none, s)
  | (n, t) :: r, s =>
    if t.len = 0 || !(BitVec.ofNat 8 t.mask).getLsbD k then fillCore ck w k r s
    else
      let s := modCore s ck (fun c => { c with smap := Map.put c.smap n ⟨t.vbase, t.len, t.soff⟩ })
      match fillLines ck w (tileLines t) s with
      | (none, s) => fillCore ck w k r s
      | x => x

/-- The tiles of every core group: the core group whose start logic meets a fault, and that. -/
def fillCores (w : Nat → Who) (ts : List (Nat × Tile)) : List (Nat × CoreGroup) → State → Option (Nat × FInfo) × State
  | [], s => (none, s)
  | (ck, c) :: r, s =>
    match fillCore ck (w c.core) c.k ts s with
    | (none, s) => fillCores w ts r s
    | (some f, s) => (some (ck, f), s)

/-- Where a side-buffer record stands (R306). -/
def sideKey (core quad slot lane : Nat) : Nat := ((4 * core + quad) * 32 + slot) * 32 + lane

/-- The side records of a warp that gives up its slot stay in the buffer. -/
def leaveSide (s : State) (w : Warp) : State :=
  match Map.get? s.coreGroups (w.cgu * 8 + w.k), Map.get? s.quadGroups (w.cgu * 32 + w.k * 4 + w.j) with
  | some c, some q => { s with sideLeft := (List.range 32).foldl (fun m l =>
      Map.putD SideRec.zero m (sideKey c.core q.quad w.slot l) (Map.get SideRec.zero w.side l)) s.sideLeft }
  | _, _ => s

/-- A cluster group leaves its cores. -/
def freeGroup (s : State) (cgu : Nat) : State :=
  let s := ((s.warps.filter (fun e => e.2.cgu == cgu && !e.2.saved)).map (·.2)).foldl leaveSide s
  { s with coreGroups := s.coreGroups.filter (fun e => e.2.cgu != cgu), quadGroups := s.quadGroups.filter (fun e => e.2.cgu != cgu),
           warps := s.warps.filter (fun e => e.2.cgu != cgu), threads := s.threads.filter (fun e => e.2.cgu != cgu) }

/-- An index whose tile fill fails at a core group (R315): KIND 3 of its start logic, and it completes without threads. -/
def fillFailed (s : State) (ck : Nat) (f : FInfo) : State :=
  let cgu := ck / 8
  match Map.get? s.clusterGroups cgu with
  | none => s
  | some g =>
    let s := postEvent s g.part (w32 (coreAt s ck)) 3 f.cause f.reason (d64 g.serial) (d64 g.idx) f.arg0
    let s := freeGroup s cgu
    { s with clusterGroups := Map.put s.clusterGroups cgu { g with st := .compl } }

/-- Whether a tile fill of a cluster group waits on a fault. -/
def fillWaits (s : State) (p cgu : Nat) : Bool := (partOf s p).agents.any (fun e => match e.1 with
  | .fill ck => ck / 8 == cgu
  | _ => false)

/-- TILE_FILL_COMPLETE (R106): the tiles are installed and filled, and the group starts. The fill has the launch's own mode: that of
the launching threads, of which R292 speaks, is another where a privileged thread launches without PRIV, and there is none for a
record that the host enqueued (DESIGN CHOICE, log 118). -/
def execTileFillComplete (cgu : Nat) (s : State) : Out :=
  .next (match Map.get? s.clusterGroups cgu, cgLaunch s cgu with
    | some g, some l =>
      if g.st != .filling || fillWaits s g.part cgu then s
      else match fillCores (fun core => ⟨g.part, some core, l.priv⟩) ((List.range 4).zip l.r.tiles)
          (s.coreGroups.filter (fun e => e.2.cgu == cgu)) s with
        | (none, s) => startGroup s cgu
        | (some (ck, f), s) =>
          if f.waits then s else if f.cause = 1 then agentWait s g.part (.fill ck) f else fillFailed s ck f
    | _, _ => s)

/-! ## Completion (R281-R283) -/

def allDone (l : Launch) : Bool := (l.idx.filter (fun e => e.2 == .done)).length == l.g

/-- DONE is written, or its write abandoned. -/
def donePublished (p serial : Nat) (s : State) : State := modLaunch s p serial (fun l => { l with published := true })

/-- Write DONE of a launch whose growth is closed (R282), unless that waits for a fault or a lock. -/
def writeDone (s : State) (p serial : Nat) : State :=
  match launchOf s p serial with
  | none => s
  | some l =>
    if !l.closed || l.published || agentWaits s p (.done serial) || heldFor s p (.done serial) then s
    else if l.r.cbmp = 0 then donePublished p serial s
    else match reach s (distWho p l) (l.r.cbmp + 8) .write with
      | (.error f, s) => if f.waits then silentWait s p (.done serial) f else agentWait s p (.done serial) f
      | (.ok loc, s) =>
        agentWrite s p (.done serial) loc (some ⟨distWho p l, l.r.cbmp + 8, .write⟩) (.orByte 1) (fun _ => donePublished p serial)

/-- The index is done and its cores are free; the launch completes with its last index. -/
def finishIndex (s : State) (cgu : Nat) : State :=
  match Map.get? s.clusterGroups cgu with
  | none => s
  | some g =>
    let s := freeGroup { s with clusterGroups := Map.erase s.clusterGroups cgu } cgu
    let s := modLaunch s g.part g.serial (setIdx g.idx .done)
    match launchOf s g.part g.serial with
    | some l =>
      if allDone l && !l.closed then writeDone (modLaunch s g.part g.serial (fun l => { l with closed := true })) g.part g.serial else s
    | none => s

def setCgSt (s : State) (cgu : Nat) (st : CgSt) : State :=
  { s with clusterGroups := Map.adjust s.clusterGroups cgu (fun g => { g with st := st }) }

/-- Step 3 of R281: the index's bit by an atomic OR. -/
def cbmpStep (s : State) (cgu : Nat) : State :=
  match Map.get? s.clusterGroups cgu, cgLaunch s cgu with
  | some g, some l =>
    if l.r.cbmp = 0 then finishIndex s cgu
    else
      let w := distWho g.part l
      let va := l.r.cbmp + d64 (64 + g.idx / 8)
      match reach s w va .atomic with
      | (.error f, s) => if f.waits then s else agentWait s g.part (.cbmp cgu) f
      | (.ok loc, s) =>
        agentWrite s g.part (.cbmp cgu) loc (some ⟨w, va, .atomic⟩) (.orByte (BitVec.ofNat 8 (2 ^ (g.idx % 8))))
          (fun _ s => finishIndex s cgu)
  | _, _ => s

/-- The COMPL update has been made or refused: the bitmap is next. -/
def complDone (cgu : Nat) (e : Refused) (s : State) : State :=
  match Map.get? s.clusterGroups cgu, cgLaunch s cgu, e with
  | some g, some l, some (c, r) =>
    cbmpStep (setCgSt (refusedEvent s g.part (domeSrc g.part) c r l.r.compl (agentName s g.part (.compl cgu)) ⟨1, 0, g.flags⟩) cgu .cbmp) cgu
  | _, _, _ => cbmpStep (setCgSt s cgu .cbmp) cgu

/-- Step 2 of R281: the COMPL update. -/
def complStep (s : State) (cgu : Nat) : State :=
  match Map.get? s.clusterGroups cgu, cgLaunch s cgu with
  | some g, some l =>
    if l.r.compl = 0 then cbmpStep (setCgSt s cgu .cbmp) cgu
    else agentCobj s g.part (.compl cgu) (distWho g.part l) l.r.compl ⟨1, 0, g.flags⟩
      (fun f s => agentWait s g.part (.compl cgu) f) (complDone cgu)
  | _, _ => s

/-- Whether a lock holds a write of a thread that a cluster group had: its publication waits for it (R122, R136). -/
def groupHeld (s : State) (cgu : Nat) : Bool := s.parts.any (fun e => e.2.held.any (fun h => h.thread / 32768 == cgu))

/-- CLUSTER_GROUP_COMPLETION (R281): the steps still to be made, in order, until one is held. -/
def execClusterGroupCompletion (cgu : Nat) (s : State) : Out :=
  .next (match Map.get? s.clusterGroups cgu with
    | none => s
    | some g =>
      if agentWaits s g.part (.compl cgu) || agentWaits s g.part (.cbmp cgu) || heldFor s g.part (.compl cgu)
        || heldFor s g.part (.cbmp cgu) || groupHeld s cgu then s
      else match g.st with
        | .compl => complStep s cgu
        | .cbmp => cbmpStep s cgu
        | _ => s)

end Sys2Proof.Machine
end

