-- ==== Sys2Proof/Machine/Retry.lean ====
section
/-! DEFINITION. The ends of the waits of agents without threads: AGENT_RETRY (R283, R316), and the end of a lock or of a link's
sleep that an access waited for (R293, R344). -/

namespace Sys2Proof.Machine

/-- After a retry an agent stands where its next step makes the access again. -/
def retryAgent (s : State) (p : Nat) (a : Agent) : State :=
  match a with
  | .slice qk => modSlice s qk (fun x => match x.st with
      | .fault _ => { x with st := .run }
      | _ => x)
  | .job id => modJob s p id (fun j => if j.st == .fault then { j with st := .running } else j)
  | .done serial => writeDone s p serial
  | .header serial => headerAgain s p serial
  | .fill _ | .compl _ | .cbmp _ | .gcur _ _ | .dep _ _ | .take _ | .record | .evCobj | .copy _ | .copyCobj _ | .land _
  | .landCobj _ | .posted | .hdm | .recPort | .group _ => s

/-- KIND 11 (R283). -/
def abandonEvent (s : State) (p serial idx : Nat) (obj : DWord) : State :=
  postEvent s p (domeSrc p) 11 0 0 (d64 serial) (d64 idx) obj

/-- An abandoned access ends as a permission fault (R316), or as R283 gives. -/
def abandonAgent (s : State) (p : Nat) (a : Agent) (f : FInfo) : State :=
  match a with
  | .slice qk => sliceStop s qk (abandoned f) f.arg0
  | .job id => match getJob s p id with
    | none => s
    | some j =>
      let s := jobStop s p id (abandoned f)
      if j.st == .landed then jobRemove s p id else s
  | .fill ck => fillFailed s ck (abandoned f)
  | .compl cg => match Map.get? s.clusterGroups cg, cgLaunch s cg with
    | some g, some l => cbmpStep (setCgSt (abandonEvent s p g.serial g.idx l.r.compl) cg .cbmp) cg
    | _, _ => s
  | .cbmp cg => match Map.get? s.clusterGroups cg, cgLaunch s cg with
    | some g, some l => finishIndex (abandonEvent s p g.serial g.idx l.r.cbmp) cg
    | _, _ => s
  | .gcur serial gid => match launchOf s p serial with
    | some l => growNow p serial gid none (abandonEvent s p serial (2 ^ 32 - 1) l.r.cbmp)
    | none => s
  | .done serial => match launchOf s p serial with
    | some l => donePublished p serial (abandonEvent s p serial (2 ^ 32 - 1) l.r.cbmp)
    | none => s
  | .header serial => match launchOf s p serial with
    | some l => abandonEvent s p serial (2 ^ 32 - 1) l.r.cbmp
    | none => s
  | .dep serial i => modLaunch s p serial (setIdx i (.stalled f))
  | .take _ | .record | .evCobj | .copy _ | .copyCobj _ | .land _ | .landCobj _ | .posted | .hdm | .recPort | .group _ => s

/-- Agents of a partition whose wait is of the kind `over'` stop waiting; `f` says how. -/
def endWaits (over' : FInfo → Bool) (f : State → Agent → FInfo → State) (s : State) (p : Nat) : State :=
  let as := (partOf s p).agents.filter (fun e => over' e.2)
  if as.isEmpty then s
  else as.foldl (fun s e => f s e.1 e.2) (setPart s p (fun q => { q with agents := q.agents.filter (fun e => !over' e.2) }))

/-- A wait on a fault, as R316 ends it: not one for a lock or an answer, which no KIND 10 has reported. -/
def onFault (f : FInfo) : Bool := !f.waits

/-- The core whose caches of translations an agent's walks use; none for an agent of the Dome die. -/
def agentCore (s : State) : Agent → Option Nat
  | .slice qk => some (quadCore s qk)
  | .fill ck => some (coreAt s ck)
  | _ => none

/-- The cached translations and table entries of a partition that walks for cores would use are gone: the next walks read each entry
in memory, and so observe every page-table store before (R296, R316). -/
def newWalks (s : State) (p : Nat) (cs : List (Option Nat)) : State :=
  let used (e : TlbE) : Bool := cs.any (fun c => match c with
    | some c => e.home == c || e.home == 512 + c / 64
    | none => e.home == 520 + p)
  let die (c : Option Nat) : Nat := match c with
    | some c => c / 64
    | none => 8
  { s with mem := { s.mem with
      tlb := s.mem.tlb.filter (fun e => !(e.part == p && used e)),
      tabs := s.mem.tabs.filter (fun e => !(e.part == p && cs.any (fun c => e.die == die c))),
      walks := s.mem.walks.filter (fun e => !(e.part == p && cs.any (fun c => e.die == die c))) } }

/-- Every agent of a partition that waits on a fault walks anew (R316). -/
def agentRetryAll (s : State) (p : Nat) : State :=
  let cs := (((partOf s p).agents.filter (fun e => onFault e.2)).map (fun e => agentCore s e.1)).eraseDups
  endWaits onFault (fun s a _ => retryAgent s p a) (newWalks s p cs) p
def agentAbandonAll (s : State) (p : Nat) : State := endWaits onFault (fun s a f => abandonAgent s p a f) s p

/-- Agents whose wait is of a kind make their access again, in every partition. -/
def wakeThose (over' : FInfo → Bool) (s : State) : State :=
  s.parts.keys.foldl (fun s p => endWaits over' (fun s a _ => retryAgent s p a) s p) s

/-- Agents whose access could not be made yet make it again: a lock or a link's sleep has ended. -/
def wakeWaiters (s : State) : State := wakeThose FInfo.waits s

/-- AGENT_RETRY := 1. -/
def execAgentRetryRetry (p : Nat) (s : State) : Out := .next (agentRetryAll s p)

/-- AGENT_RETRY := 2. -/
def execAgentRetryAbandon (p : Nat) (s : State) : Out := .next (agentAbandonAll s p)

end Sys2Proof.Machine
end

