-- ==== Sys2Proof/Machine/Held.lean ====
section
/-! DEFINITION. Writes that a migration lock holds (R134, R299): how each lands and who then goes on, and the agents that go
on from one: the event ring (R314), remote copies (R360), the host (R135, R356). Every held write leaves the list through
`landHeld`, or through `heldFault` where its access ends in a fault. -/

namespace Sys2Proof.Machine

/-! ## The event ring (R314, R365) -/

/-- Slots of the event ring. -/
def evqSlots (q : Part) : Nat := 2 ^ (q.evqCfg.toNat % 16 + 4)

/-- The 32 bytes of an event record (Table 18-6). -/
def evBytes (e : EvRec) : List Byte := leBytes 8 e.w0.toNat ++ leBytes 8 e.arg0.toNat ++ leBytes 8 e.arg1.toNat ++ leBytes 8 e.arg2.toNat

/-- The EVQ_COBJ update has been made or refused: the KIND 12 of a refused one makes no update of its own. -/
def evCobjDone (p : Nat) (e : Refused) (s : State) : State :=
  match e with
  | some (c, r) => refusedEvent s p (domeSrc p) c r (partOf s p).evqCobj (agentName s p .evCobj) ⟨1, 0, 0⟩ true
  | none => s

/-- The record of the oldest event stands in the ring: the tail advances, and then EVQ_COBJ counts it. -/
def recordPosted (p : Nat) (s : State) : State :=
  match (partOf s p).events with
  | [] => s
  | e :: _ =>
    let s := setPart s p (fun q => { q with events := q.events.drop 1, evqTail := w32 ((q.evqTail.toNat + 1) % evqSlots q) })
    let c := (partOf s p).evqCobj
    if c = 0 || e.quiet then s else physCobj s p .evCobj c.toNat ⟨1, 0, 0⟩ (evCobjDone p)

/-- The oldest event is written at EVQ_TAIL. -/
def recordPost (p : Nat) (e : EvRec) (s : State) : State :=
  physWrite s p .record ((partOf s p).evqBase.toNat + 32 * (partOf s p).evqTail.toNat) (evBytes e) (recordPosted p)

/-! ## Remote copies (R359, R360, R365) -/

def setHost (s : State) (f : HostPort → HostPort) : State := { s with host := f s.host }

def ringOf (s : State) (p : Nat) : EwRing := Map.get EwRing.reset s.host.rings p

/-- The address of a ring slot's descriptor. -/
def ewSlotPa (s : State) (p slot : Nat) : Nat := (ringOf s p).base.toNat + 64 * slot

/-- A copy's LCOBJ. -/
def copyObj (s : State) (p slot : Nat) : DWord := physRead64 s (ewSlotPa s p slot + 0x18)

/-- The LCOBJ update has been made or refused. -/
def copyObjDone (p slot : Nat) (e : Refused) (s : State) : State :=
  match e with
  | some (c, r) => refusedEvent s p (domeSrc p) c r (copyObj s p slot) (agentName s p (.copyCobj slot)) ⟨1, 0, 0⟩
  | none => s

/-- A copy's STATUS stands in its descriptor: LCOBJ counts an acknowledged one. -/
def copyDone (p slot st : Nat) (s : State) : State :=
  let lc := copyObj s p slot
  if st ≠ 0 || lc = 0 then s else physCobj s p (.copyCobj slot) lc.toNat ⟨1, 0, 0⟩ (copyObjDone p slot)

/-- A copy ends: its STATUS is written. -/
def copyEnd (p slot st : Nat) (s : State) : State :=
  physWrite s p (.copy slot) (ewSlotPa s p slot + 0x28) (leBytes 4 st) (copyDone p slot st)

/-- The RCOBJ update of an inbound copy has been made or refused: the copy is over. -/
def landDone (n : Nat) (e : Refused) (s : State) : State :=
  let s' := setHost s (fun h => { h with landing := Map.erase h.landing n })
  match Map.get? s.host.landing n, e with
  | some x, some (c, r) =>
    match Map.get? s.mem.inWindows x.win with
    | some w => match (Map.get KeySlot.empty s.mem.keys w.key).owner with
      | some p => refusedEvent s' p (domeSrc p) c r (d64 (w.base + x.rcobj)) (agentName s p (.landCobj n)) ⟨1, 0, flIf x.bd flBD⟩
      | none => s'
    | none => s'
  | _, _ => s'

/-- Once every word of an inbound copy has landed RCOBJ, an offset in the window, is updated. -/
def landStep (n : Nat) (s : State) : State :=
  if heldFor s 0 (.land n) then s
  else match Map.get? s.host.landing n with
    | none => s
    | some x => match Map.get? s.mem.inWindows x.win with
      | none => landDone n none s
      | some w =>
        if x.rcobj = 0 || w.size < x.rcobj + 32 then landDone n none s
        else if x.rcobj % 32 ≠ 0 then landDone n (some (3, 0)) s
        else agentWrite s 0 (.landCobj n) (.phys (w.base + x.rcobj) w.key true) none (.cobj 1 0 (flIf x.bd flBD))
          (fun e => landDone n (refusedBy e))

/-- A word of an inbound copy has landed; BD where its bound was dropped (R87). -/
def wordLanded (n : Nat) (e : Except Nat Bool) (s : State) : State :=
  landStep n (setHost s (fun h => { h with landing := Map.adjust h.landing n (fun x => { x with bd := x.bd || e == .ok true }) }))

/-! ## Landing -/

/-- The agent whose held write has landed goes on. -/
def goOn (s : State) (p : Nat) (a : Agent) (h : Held) (e : Except Nat Bool) : State :=
  match a with
  | .job id => jobLanded p id e s
  | .compl cg => complDone cg (refusedBy e) s
  | .cbmp cg => finishIndex s cg
  | .done serial => donePublished p serial s
  | .take n => takeDone p n s
  | .gcur serial gid => growLanded serial gid p h.loc s
  | .group gid => groupLanded gid h s
  | .record => recordPosted p s
  | .evCobj => evCobjDone p (refusedBy e) s
  | .copy slot => copyDone p slot (match h.op with
    | .store data _ _ _ => leNat data
    | _ => 0) s
  | .copyCobj slot => copyObjDone p slot (refusedBy e) s
  | .land n => wordLanded n e s
  | .landCobj n => landDone n (refusedBy e) s
  | .recPort => setHost s (fun h => { h with recStat := 0, recBusy := false })
  | .posted | .hdm | .slice _ | .fill _ | .dep _ _ | .header _ => s

/-- The access of an agent's held write ends in a fault. -/
def agentFault (s : State) (p : Nat) (a : Agent) (h : Held) (f : FInfo) : State :=
  match a with
  | .job id => match getJob s p id with
    | some j => if j.st == .landed then jobObjFault p id f s else jobFault s p id f
    | none => s
  | .compl _ | .cbmp _ | .done _ | .gcur _ _ => agentWait s p a f
  | .take n => lqError s p n f
  | .recPort => setHost s (fun h => { h with recStat := if f.cause = 2 then 2 else 0, recBusy := false })
  | a => goOn s p a h (.ok false)

/-- The partition whose lock must end before a fault of a thread can be taken: it keeps the images of its core from being written,
or holds a store of a member of its handler, which the fault would move out of it (R119, R134, R307, R311). -/
def faultLock (s : State) (k : Nat) : Option Nat :=
  (imageLock s k).or (if handlerHeld s k then (getThread s k).bind (fun t => (s.parts.find? (fun e => e.2.held.any (fun h =>
    h.isLive && (fragMembers s t.frag).any (fun m => m.1 == h.thread)))).map (·.1)) else none)

/-- The lane that waits in a held write faults at its slot, at once or, behind the writes of the lock that keeps it from that, when
that ends. Until then it waits there. -/
def lateFault (s : State) (h : Held) (f : FInfo) : State :=
  match getThread s h.thread with
  | none => s
  | some t => match t.st with
    | .grouped gid =>
      if (getGroup s gid).any (fun g => g.waits.contains (h.thread, .locked)) then
        match faultLock s h.thread with
        | some q => holdWrite s q { h with due := .late f }
        | none => lateFaults s s gid [(h.thread, f)]
      else s
    | _ => s

/-- A held write's access ends in a fault: nothing is written. -/
def heldFault (s : State) (h : Held) (f : FInfo) : State :=
  match h.next with
  | some (p, a) => agentFault s p a h f
  | none => lateFault s h f

/-- The physical address of a location. -/
def locPa : Loc → Nat
  | .phys a _ _ => a
  | .scr _ o => o

/-- Lost data, if a location's frame has been withdrawn (R322). -/
def lostAt (s : State) (loc : Loc) : Option FInfo := match loc with
  | .phys a _ _ => if withdrawn s.mem a then some (faultOf 14 3 (d64 a) 0) else none
  | .scr _ _ => none

/-- The fault of a lane whose count-object update is refused: the operand's address and the operand (Table 18-1). -/
def refusedLane (h : Held) (reason : Nat) : FInfo :=
  faultOf 8 reason (match h.via with
    | some v => v.va
    | none => d64 (locPa h.loc)) (match h.op with
    | .csig v _ => v
    | .cpend v _ => d64 v
    | _ => 0)

/-- The partition with whose held writes a write to a location lines up, beside `own`, whose held writes are landing. -/
def lockBut (s : State) (own : Option Nat) (loc : Loc) : Option Nat := match loc with
  | .phys a _ _ => (s.parts.find? (fun e => own != some e.1 && (e.2.locks || e.2.migSt == .landing) && inRun e.2 a)).map (·.1)
  | .scr _ _ => none

/-- A held write enters its line's order: another lock holds it, its frame is withdrawn, or it takes effect and who waits for
it goes on. -/
def landAtLoc (own : Option Nat) (s : State) (h : Held) : State :=
  match lockBut s own h.loc with
  | some q => holdWrite s q h
  | none => match lostAt s h.loc with
    | some f => heldFault s h f
    | none =>
      let (e, s) := applyOp s h.thread h.loc h.op
      match h.next, e with
      | some (p, a), e => goOn s p a h e
      | none, .error r => lateFault s h (refusedLane h r)
      | none, .ok _ => s

/-- A held write whose mapping has been dropped is abandoned and translates anew (R297). Where the new translation must set AC or
DT in an entry under a lock, the write waits for that lock as well (R293). -/
def retranslate (own : Option Nat) (s : State) (h : Held) : State :=
  match h.via with
  | none => landAtLoc own s h
  | some v => match translateNow s v.who v.va v.kind with
    | (.ok l, s) => landAtLoc own s { h with loc := l, due := .land }
    | (.error f, s) => if f.waits then holdWrite s f.arg1.toNat { h with due := .anew } else heldFault s h f

/-- A held write that a list gives up: what is due is done. -/
def landHeld (own : Option Nat) (s : State) (h : Held) : State := match h.due with
  | .land => landAtLoc own s h
  | .anew => retranslate own s h
  | .late f => heldFault s h f

/-- The copy of its page that a held write applies to. -/
def movedLoc (s : State) (p : Nat) (toDst : Bool) (loc : Loc) : Loc := match loc with
  | .phys a _ _ => if inRun (partOf s p) a then moveTo s p toDst loc else loc
  | .scr _ _ => loc

/-- Take the first held write of a partition that `hit` names out of its list. -/
def pullFirst (s : State) (p : Nat) (hit : Held → Bool) : Option (Held × State) :=
  match (partOf s p).held.find? hit with
  | none => none
  | some h => some (h, setPart s p (fun q => { q with held := q.held.erase h }))

/-- The first `n` held writes of a partition that `hit` names are taken out, each at its turn, and `f` does what becomes of
each. -/
def eachHeld (f : State → Held → State) (p : Nat) (hit : Held → Bool) : Nat → State → State
  | 0, s => s
  | n + 1, s => match pullFirst s p hit with
    | none => s
    | some (h, s) => eachHeld f p hit n (f s h)

/-- The same for every partition. -/
def everyHeld (f : State → Held → State) (hit : Held → Bool) (s : State) : State :=
  s.parts.foldl (fun t e => eachHeld f e.1 hit (e.2.held.filter hit).length t) s

/-- The held writes of a partition whose locks have ended take effect in their order of arrival, and those that arrive meanwhile
behind them. -/
def landAll (p : Nat) (toDst : Bool) (n : Nat) (s : State) : State :=
  eachHeld (fun s h => landHeld (some p) s { h with loc := movedLoc s p toDst h.loc }) p (fun _ => true) n s

/-- Clear the locks, leaving a state: the held writes apply in arrival order (R299); agents whose access waited for the lock make
it again. -/
def releaseHeld (s : State) (p : Nat) (st : MigSt) (err : BitVec 4) (toDst : Bool) : State :=
  let n := (partOf s p).held.length
  let s := landAll p toDst ((n + 1) * 1024) (setPart s p (fun q => { q with migSt := .landing }))
  let s := setPart s p (fun q => { q with migSt := st, migErr := err })
  wakeWaiters (eachHeld (landHeld none) p (fun _ => true) (partOf s p).held.length s)

/-- Whether a held write came by a mapping of a partition that an invalidation drops: its address lies in the range, or in a page
of it that a cached leaf or a walk gives (R297). -/
def usesDropped (s : State) (p : Nat) (hit : Nat → Nat → Bool) (h : Held) : Bool := match h.via with
  | none => false
  | some v => h.isLive && v.who.part == p && (hit v.va.toNat 1
      || s.mem.tlb.any (fun e => e.part == p && decide (e.base ≤ v.va.toNat ∧ v.va.toNat < e.base + e.size) && hit e.base e.size)
      || (match walkNow s v.who v.va v.kind with
        | .ok l => hit l.base l.size
        | .error _ => false))

/-- Held writes that `hit` names translate anew. -/
def retranslateHeld (s : State) (hit : Held → Bool) : State := everyHeld (retranslate none) hit s

end Sys2Proof.Machine
end

