-- ==== Sys2Proof/Machine/Migrate.lean ====
section
/-! DEFINITION. Page migration under the directory lock (R134, R298, R299), the shadow region (R300, R301), and the loss
of a line (R322). -/

namespace Sys2Proof.Machine

/-! ## Lost lines (R322) -/

/-- Whether the device's own structures of a partition hold an address: fragment images, the event ring, save slots (R364). -/
def agentArea (q : Part) (a : Nat) : Bool :=
  let within' (base n : Nat) : Bool := base != 0 && decide (base ≤ a ∧ a < base + n)
  within' q.fragtab.toNat (1024 * Config.fragEntries * Config.coresPerPackage) || within' q.evqBase.toNat (32 * evqSlots q)
    || within' q.saveBase.toNat (131072 * q.saveSlots.toNat)

/-- The partition that owns the key slot a line is held under, or whose own structures it holds. -/
def lineOwner (s : State) (line : Nat) : Option Nat :=
  match (Map.get? s.mem.keyOf line).bind (fun k => (Map.get KeySlot.empty s.mem.keys k).owner) with
  | some p => some p
  | none => (s.parts.find? (fun e => agentArea e.2 (line * 128))).map (·.1)

/-- The frame of the page that holds a line, as base and size: that of the largest cached leaf that maps it; where none does, the
smallest page, of 4 KiB. A page that maps a withdrawn frame is withdrawn whole, whatever its size (log 50). -/
def lostFrame (s : State) (line : Nat) : Nat × Nat :=
  let a := line * 128
  (s.mem.tlb.filter (fun e => decide (ptePa e.pte ≤ a ∧ a < ptePa e.pte + e.size))).foldl
    (fun m e => if m.2 < e.size then (ptePa e.pte, e.size) else m) (a / 4096 * 4096, 4096)

/-- The page's frame is withdrawn and its owner told (KIND 5). -/
def loseLine (s : State) (line : Nat) (owner : Option Nat) : State :=
  let fr := lostFrame s line
  let s := { s with mem := { s.mem with withdrawn := if s.mem.withdrawn.contains fr then s.mem.withdrawn else fr :: s.mem.withdrawn } }
  match owner with
  | some p => postEvent s p (domeSrc p) 5 14 3 (d64 (line * 128)) 3 0
  | none => s

/-! ## The state machine (Table 17-7) -/

/-- Frames of a range, as offsets of 2 MiB pieces. -/
def framePieces (n : Nat) : List Nat := (List.range ((n + 2 ^ 21 - 1) / 2 ^ 21)).map (fun i => i * 2 ^ 21)

/-- The checks of GO: the ERR code, 0 for none. Table 17-5 gives each its code and no order; the model's order is SIZE 7, then
the codes rising (DESIGN CHOICE, log 81). -/
def migCheck (s : State) (q : Part) : Nat :=
  let n := migBytes q.migSize.toNat
  let a := migPa q.migSrc
  let b := migPa q.migDst
  if q.migSize = 7 then 6
  else if a % n ≠ 0 ∨ b % n ≠ 0 then 1
  else if a < b + n ∧ b < a + n then 2
  else if !inOneMemory s.mem a n || !inOneMemory s.mem b n then 3
  else if (framePieces n).any (fun o => hasChunk s.mem (a + o) && !hasChunk s.mem (b + o)) then 5
  else 0

/-- Reads of the lines of a running migration's ranges are served from another copy than before: they join no combining entry that
is open (R342). -/
def closeCombs (s : State) (q : Part) : State :=
  { s with pkg := { s.pkg with combs := s.pkg.combs.map (fun e => if inRun q (e.line * 128) then { e with open_ := false } else e) } }

/-- A die that must give up a line of a running migration first (R344): a copy that is dirty or update-only, and once the engine has
written them any of the destination's. -/
def migSilent (s : State) (q : Part) (w : Bool) : Option Nat :=
  let n := migBytes q.runSize.toNat
  (rangeSilent s none (migPa q.runSrc) n false).or (rangeSilent s none (migPa q.runDst) n w)

/-- The dirty and update-only copies of both ranges are written back, unless a die must answer first. -/
def migClean (s : State) (q : Part) : State := match migSilent s q false with
  | some d => wakeDie s d
  | none =>
    let n := migBytes q.runSize.toNat
    cleanPhys (cleanPhys s none (migPa q.runSrc) n) none (migPa q.runDst) n

/-- GO: lock both ranges, or fail. -/
def migGo (s : State) (p : Nat) : State :=
  let q := partOf s p
  if q.migSt == .copying || q.migSt == .ready then s
  else
    match migCheck s q with
    | 0 =>
      let q := { q with migSt := .copying, migErr := 0, runSrc := q.migSrc, runDst := q.migDst, runSize := q.migSize }
      closeCombs (migClean (setPart s p (fun _ => q)) q) q
    | e => setPart s p (fun q => { q with migSt := .error, migErr := BitVec.ofNat 4 e })

def execMigGo (p : Nat) (s : State) : Out := .next (migGo s p)

/-- What is known of code words before stores moves with their page. -/
def movedOld (m : Map (List Ver)) (a b n : Nat) : Map (List Ver) :=
  (m.filter (fun e => decide (a ≤ 8 * e.1 ∧ 8 * e.1 < a + n))).foldl (fun x e => Map.put x (b / 8 + (e.1 - a / 8)) e.2)
    (m.filter (fun e => !decide (b ≤ 8 * e.1 ∧ 8 * e.1 < b + n)))

/-- Copy data and records of a range, from one key to another: the destination holds them as its own key wrote them. -/
def migCopy (m : MemSys) (a b n ka kb : Nat) : MemSys :=
  let lines := List.range (n / 128)
  let m := lines.foldl (fun m i => openLine m (a / 128 + i) ka) m
  let cells := m.bytes.filter (fun c => decide (a ≤ c.1 ∧ c.1 < a + n))
  let bytes := cells.foldl (fun x c => memSet x (b + (c.1 - a)) c.2) (m.bytes.filter (fun c => !decide (b ≤ c.1 ∧ c.1 < b + n)))
  let m := { m with
    cipher := m.cipher.filter (fun e => !decide (b ≤ 16 * e.1 ∧ 16 * e.1 < b + n)),
    recCipher := m.recCipher.filter (fun e => !decide (b ≤ 128 * e.1 ∧ 128 * e.1 < b + n)),
    before := movedOld m.before a b n, bytes := bytes, keyOf := lines.foldl (fun k i => Map.put k (b / 128 + i) kb) m.keyOf,
    l1 := m.l1.filter (fun e => !decide (b ≤ 128 * l1Line e.1 ∧ 128 * l1Line e.1 < b + n)) }
  let m := dropCopies m (fun line => decide (b ≤ 128 * line ∧ 128 * line < b + n))
  lines.foldl (fun m i =>
    if hasChunk m (a + 128 * i) && hasChunk m (b + 128 * i) then setRec m (b / 128 + i) (recAt m (a / 128 + i)) else m) m

/-- No stash keeps a copy of the lines of a physical range. -/
def noStashes (s : State) (a n : Nat) : State :=
  { s with coreGroups := s.coreGroups.map (fun e =>
      (e.1, { e.2 with slines := e.2.slines.filter (fun l => !meets (l.2.line * 128) 128 a n) })) }

/-- The engine copies the page, and no cache of a core keeps a line of the destination. -/
def migRun (s : State) (q : Part) : State :=
  let n := migBytes q.runSize.toNat
  let s := (heldLines s (migPa q.runDst) n).foldl (fun s line => answered s none line true) (migClean s q)
  closeCombs { noStashes s (migPa q.runDst) n with
    mem := migCopy s.mem (migPa q.runSrc) (migPa q.runDst) n (migKey q.runSrc) (migKey q.runDst) } q

/-- The last line is copied: ready. A line that a die must give up first has not been (R344). -/
def execMigCopyDone (p : Nat) (s : State) : Out :=
  .next (
    let q := partOf s p
    if q.migSt == .copying then (match migSilent s q true with
      | some d => wakeDie s d
      | none => setPart (migRun s q) p (fun q => { q with migSt := .ready }))
    else s)

/-- The locks end, and with them what the reads of both ranges are served from. -/
def migEnd (s : State) (p : Nat) (st : MigSt) (err : BitVec 4) (toDst : Bool) : State :=
  releaseHeld (closeCombs s (partOf s p)) p st err toDst

def migSwitch (s : State) (p : Nat) : State :=
  if (partOf s p).migSt == .ready then migEnd s p .done 0 true else s

def execMigSwitch (p : Nat) (s : State) : Out := .next (migSwitch s p)

def migAbort (s : State) (p : Nat) : State :=
  if (partOf s p).locks then migEnd s p .idle 0 false else s

def execMigAbort (p : Nat) (s : State) : Out := .next (migAbort s p)

/-- MIGRATION_SOURCE_LINE_ERROR (R298, R322): error 4, held writes to the source, and the line is lost. -/
def execMigrationSourceLineError (p line : Nat) (s : State) : Out :=
  .next (
    let q := partOf s p
    let a := migPa q.runSrc
    if q.migSt == .copying ∧ a ≤ line * 128 ∧ line * 128 < a + migBytes q.runSize.toNat then
      loseLine (migEnd s p .error 4 false) line (Map.get KeySlot.empty s.mem.keys (migKey q.runSrc)).owner
    else s)

/-! ## Shadow chunks (R300, R301) -/

def shadowFrame (r : DWord) : Nat := r.toNat / 2 ^ 21 % 2 ^ 31
def shadowOp (r : DWord) : Nat := r.toNat % 4

/-- Chunks the shadow space of a frame's memory holds; none for a memory that is not tracked. -/
def shadowSpace (s : State) (f : Nat) : Option (Nat × Nat × Nat) :=
  let a := f * 2 ^ 21
  ((0, Config.hbmBytes, Config.hbmShadowBytes) :: s.mem.windows.map (fun w => (w.2.base, w.2.size, w.2.size / 16))).find?
    (fun r => decide (r.1 ≤ a ∧ a + 2 ^ 21 ≤ r.1 + (r.2.1 - r.2.2)))

def frameRecs {α : Type} (f : Nat) (m : Map α) : Map α := m.filter (fun e => e.1 * 128 / 2 ^ 21 != f)

/-- The records of a frame are as at attach (R301). -/
def freshRecs (m : MemSys) (f : Nat) : MemSys := { m with recs := frameRecs f m.recs, recCipher := frameRecs f m.recCipher }

/-- The result of an attach and the memory it leaves. -/
def attachChunk (s : State) (p f : Nat) : Nat × MemSys :=
  match shadowSpace s f with
  | none => (2, s.mem)
  | some (base, size, shadow) =>
    match Map.get? s.mem.chunks f with
    | some o => (if o = p then 0 else 3, s.mem)
    | none =>
      let used := (s.mem.chunks.filter (fun e => decide (base ≤ e.1 * 2 ^ 21 ∧ e.1 * 2 ^ 21 < base + size))).length
      if shadow / 2 ^ 18 ≤ used then (1, s.mem)
      else (0, { freshRecs s.mem f with chunks := Map.put s.mem.chunks f p })

/-- The result of a detach and the memory it leaves. A frame that could have a chunk and has none gives 0 (DESIGN CHOICE,
log 106). -/
def detachChunk (s : State) (p f : Nat) : Nat × MemSys :=
  match Map.get? s.mem.chunks f with
  | none => (if (shadowSpace s f).isSome then 0 else 2, s.mem)
  | some o =>
    if o = p then (0, { freshRecs s.mem f with chunks := Map.erase s.mem.chunks f }) else (3, s.mem)

/-- A request completes: BUSY clears and the result is set. -/
def shadowDone (op : Nat) (f : State → Nat → Nat → Nat × MemSys) (p : Nat) (s : State) : State :=
  let q := partOf s p
  if q.shadowBusy && shadowOp q.shadowReq == op then
    let (r, m) := f s p (shadowFrame q.shadowReq)
    setPart { s with mem := m } p (fun q => { q with shadowBusy := false, shadowRes := BitVec.ofNat 4 r })
  else s

def execShadowAttach (p : Nat) (s : State) : Out := .next (shadowDone 1 attachChunk p s)
def execShadowDetach (p : Nat) (s : State) : Out := .next (shadowDone 2 detachChunk p s)

end Sys2Proof.Machine
end

