-- ==== Sys2Proof/Machine/CtlRegs.lean ====
section
/-! DEFINITION. The control registers of Tables 16-1, 17-1 and 18-5 (R273, R289, R314, R326, R327): what a read returns and
what a write does, and MOVC. -/

namespace Sys2Proof.Machine

/-- ST (Table 17-5); held writes that land do so within the act that ends the locks, and no register is read meanwhile. -/
def migStCode : MigSt → Nat
  | .idle => 0 | .copying => 1 | .ready => 2 | .done => 3 | .error => 4 | .landing => 2

def selQueue (q : Part) : LQueue := Map.get LQueue.reset q.lqs q.lqSel.toNat

/-- A control register as it reads. -/
def crRead (s : State) (p : Nat) (c : CReg) : DWord :=
  let q := partOf s p
  match c with
  | .partId => d64 p
  | .partClumaskLo => q.clumask.setWidth 64
  | .partClumaskHi => (q.clumask >>> 64).setWidth 64
  | .partRegulator => q.regulator.setWidth 64
  | .trapbaseSys => q.trapbase
  | .fragtabBase => q.fragtab
  | .lqSel => q.lqSel.setWidth 64
  | .lqBase => (selQueue q).base
  | .lqCfg => (selQueue q).cfg.setWidth 64
  | .lqHead => (selQueue q).head.setWidth 64
  | .lqTail => (selQueue q).tail.setWidth 64
  | .serialNext => d64 q.serialNext
  | .preemptWin => q.preemptWin.setWidth 64
  | .aging => q.aging.setWidth 64
  | .classhold => q.classhold.setWidth 64
  | .ptRoot => q.ptRoot
  | .migSrc => q.migSrc
  | .migDst => q.migDst
  | .migCtl => d64 (q.migErr.toNat * 2 ^ 28 + migStCode q.migSt * 2 ^ 24 + q.migSize.toNat * 2 ^ 9)
  | .shadowReq => q.shadowReq
  | .shadowStat => d64 (bnum q.shadowBusy * 2 ^ 31 + q.shadowRes.toNat)
  | .evqBase => q.evqBase
  | .evqCfg => q.evqCfg.setWidth 64
  | .evqTail => q.evqTail.setWidth 64
  | .evqHead => q.evqHead.setWidth 64
  | .evqCobj => q.evqCobj
  | .agentRetry => 0
  | .saveBase => q.saveBase
  | .saveSlots => q.saveSlots.setWidth 64

/-- Whether a value keeps within a mask of writable bits. -/
def within (mask v : DWord) : Bool := v &&& ~~~mask == 0

/-- Whether a number lies in a range. -/
def between (lo hi : Nat) (v : DWord) : Bool := decide (lo ≤ v.toNat ∧ v.toNat ≤ hi)

/-- A write of LQ_CFG (Table 16-2): LOGN only in state off, PRIVOK kept, STATE by Table 16-3; refused whole otherwise. -/
def lqWriteCfg (v : Word) (q : LQueue) : LQueue :=
  let logn := v.toNat / 2 ^ 16 % 16
  if v &&& 0xFFF0FC3C ≠ 0 then q
  else if lqState q = 0 then
    if logn = 0 ∨ 12 < logn then q
    else lqWriteState (v.toNat % 4) { q with cfg := (v &&& 0x000F01C0) ||| (q.cfg &&& 0x203) }
  else if logn ≠ lqLogn q then q
  else lqWriteState (v.toNat % 4) { q with cfg := (v &&& 0x000001C0) ||| (q.cfg &&& 0x000F0203) }

/-- A write of EVQ_CFG: OVF stays set but for a write with bit 30 set (R314). -/
def evqWriteCfg (v : Word) (q : Part) : Part :=
  if v &&& 0x3FFFFFF0 ≠ 0 then q
  else { q with evqCfg := (v &&& 0x8000000F) ||| (if v.getLsbD 30 then 0 else q.evqCfg &&& 0x40000000) }

/-- A register without behaviour of its own: the partition after the write, refused whole out of range (R273). -/
def crPlain (c : CReg) (v : DWord) (q : Part) : Part :=
  let w := loWord v
  match c with
  | .trapbaseSys => if v.toNat % 4096 = 0 then { q with trapbase := v } else q
  | .fragtabBase => if within 0x000FFFFFFE000000 v then { q with fragtab := v } else q
  | .lqSel => if between 0 15 v then { q with lqSel := w } else q
  | .lqBase =>
    if v.toNat % 256 = 0 ∧ lqState (selQueue q) = 0 then
      { q with lqs := Map.putD LQueue.reset q.lqs q.lqSel.toNat { selQueue q with base := v } } else q
  | .preemptWin => if between 1000 20000 v then { q with preemptWin := w } else q
  | .aging => if between 10 10000 v then { q with aging := w } else q
  | .classhold => if between 100 10000 v then { q with classhold := w } else q
  | .ptRoot => if within 0x000FFFFFFFFFFF81 v then { q with ptRoot := v } else q
  | .migSrc => if within 0xFFEFFFFFFFFFF000 v then { q with migSrc := v } else q
  | .migDst => if within 0xFFEFFFFFFFFFF000 v then { q with migDst := v } else q
  | .evqBase => if within 0x000FFFFFFFFFF000 v then { q with evqBase := v } else q
  | .evqHead => if between 0 (evqSlots q - 1) v then { q with evqHead := w } else q
  | .evqCobj => if within 0x000FFFFFFFFFFFE0 v then { q with evqCobj := v } else q
  | .saveBase => if within 0x000FFFFFFFFE0000 v then { q with saveBase := v } else q
  | .saveSlots => if between 0 65536 v then { q with saveSlots := w } else q
  | .evqCfg => evqWriteCfg w q
  | .lqCfg => { q with lqs := Map.putD LQueue.reset q.lqs q.lqSel.toNat (lqWriteCfg w (selQueue q)) }
  | .lqTail => { q with lqs := Map.putD LQueue.reset q.lqs q.lqSel.toNat (lqWriteTail w (selQueue q)) }
  | _ => q

/-- A write of MIG_CTL (Table 17-5): SIZE, then the events GO, SWITCH and ABORT. -/
def migWrite (s : State) (p : Nat) (v : DWord) : State :=
  if v &&& 0x00FFF1F8 ≠ 0 then s
  else
    let s := setPart s p (fun q => { q with migSize := BitVec.ofNat 3 (v.toNat / 2 ^ 9) })
    let s := if v.getLsbD 0 then migGo s p else s
    let s := if v.getLsbD 1 then migSwitch s p else s
    if v.getLsbD 2 then migAbort s p else s

/-- A write of SHADOW_REQ while BUSY is 0 (R301): an attach or detach is under way. -/
def shadowWrite (s : State) (p : Nat) (v : DWord) : State :=
  if !within 0x000FFFFFFFE00003 v || shadowOp v == 3 then s
  else setPart s p (fun q => { q with shadowReq := v, shadowBusy := shadowOp v != 0 })

/-- A write of a control register. -/
def crWrite (s : State) (p : Nat) (c : CReg) (v : DWord) : State :=
  match c with
  | .migCtl => migWrite s p v
  | .shadowReq => if (partOf s p).shadowBusy then s else shadowWrite s p v
  | .agentRetry => if v = 1 then agentRetryAll s p else if v = 2 then agentAbandonAll s p else s
  | c => setPart s p (crPlain c v)

/-- CONTROL_REGISTER_WRITE (R273). -/
def execControlRegisterWrite (p : Nat) (c : CReg) (v : DWord) (s : State) : Out := .next (crWrite s p c v)

/-- EVQ_OVF_CLEAR (R314): a write of EVQ_CFG with bit 30 set. -/
def execEvqOvfClear (p : Nat) (v : Word) (s : State) : Out :=
  .next (if v.getLsbD 30 then setPart s p (evqWriteCfg v) else s)

/-- One lane of a MOVC read. -/
def movcReadLane (x : MovcOps) : LaneFn := fun k t s =>
  let v := crRead s (threadPart s t) x.cr
  (modThread s k (fun t => setRegs t (wrTy x.cr.wide x.r v 0)), none)

def execMovcRead (x : MovcOps) (s : State) : Out := .next (laneOp x.g (fun _ => movcReadLane x) s)

def movcWriteLane (x : MovcOps) : LaneFn := fun _ t s =>
  (crWrite s (threadPart s t) x.cr (tVal t x.cr.wide x.r), none)

/-- The writes of SHADOW_REQ of the threads whose turn is still to come, in order: each waits, and those after it, while BUSY
is 1. -/
def shadowLanes (x : MovcOps) (gid : Nat) : List Nat → State → State
  | [], s => advance s gid
  | k :: r, s =>
    match getThread s k with
    | none => shadowLanes x gid r s
    | some t =>
      if (partOf s (threadPart s t)).shadowBusy then setHold s gid (.shadow (k :: r))
      else shadowLanes x gid r (crWrite s (threadPart s t) .shadowReq (tPair t x.r))

/-- The active lanes whose write of SHADOW_REQ is still to be made. -/
def shadowRest (g : Group) (act : List Nat) : List Nat := match g.hold with
  | .shadow ks => act.filter ks.contains
  | _ => act

/-- A MOVC write (R326, R327): the lanes write in order; each write of SHADOW_REQ holds the group while BUSY is 1. -/
def execMovcWrite (x : MovcOps) (s : State) : Out :=
  .next (match x.cr with
    | .shadowReq => groupOp x.g (fun gid g act s => shadowLanes x gid (shadowRest g act) s) s
    | _ => laneOp x.g (fun _ => movcWriteLane x) s)

end Sys2Proof.Machine
end

