-- ==== Sys2Proof/Machine/Events.lean ====
section
/-! DEFINITION. EVENT_POST (R314, R365). -/

namespace Sys2Proof.Machine

def evqEnabled (q : Part) : Bool := q.evqCfg.getLsbD 31

/-- The ring is full while one slot is left: with that one written EVQ_TAIL would be EVQ_HEAD, as in an empty ring (DESIGN CHOICE,
log 110). -/
def evqFull (q : Part) : Bool := (q.evqTail.toNat + 1) % evqSlots q == q.evqHead.toNat

/-- Whether a migration lock holds the posting of an earlier event. -/
def posting (s : State) (p : Nat) : Bool := heldFor s p .record || heldFor s p .evCobj

/-- A die whose answer the record's or EVQ_COBJ's line waits for (R344). -/
def postAsks (s : State) (q : Part) (e : EvRec) : Option Nat :=
  (rangeSilent s none (q.evqBase.toNat + 32 * q.evqTail.toNat) 32 true).or
    (if q.evqCobj = 0 || e.quiet then none else rangeSilent s none q.evqCobj.toNat 32 true)

/-- EVENT_POST: with EN = 0 the event is lost; a full ring or an earlier event's posting holds it; else it is posted and
EVQ_COBJ counts it. -/
def execEventPost (p : Nat) (s : State) : Out :=
  let q := partOf s p
  .next (match q.events with
    | [] => s
    | e :: _ =>
      if posting s p then s
      else if !evqEnabled q then setPart s p (fun q => { q with events := q.events.drop 1, evqCfg := q.evqCfg ||| 0x40000000 })
      else if evqFull q then s
      else match postAsks s q e with
        | some d => wakeDie s d
        | none => recordPost p e s)

end Sys2Proof.Machine
end

