-- ==== Sys2Proof/Machine/Priv.lean ====
section
/-! DEFINITION. The privileged set but SAVE and REST (R324-R336): RTE, TLBI, ICINV, FRES, FDISC, SBRD, HALT. -/

namespace Sys2Proof.Machine

/-! ## RTE (R325) -/

def rteLane : LaneFn := fun k t s =>
  if t.hand == .none then (s, none)
  else if t.hand == .noEntry || t.frag == 0 then (resumeNoEntry s k, none)
  else match entrySilent s (fragKeyOfId t.frag) with
  | some d => (s, some (waitInfo d))
  | none =>
    let s := modThread (leaveGroup s k) k (fun t => { t with st := .rteWait, pass := none })
    (rteCheck s t.frag, none)

/-- RTE: each active thread acts by its state; it is no release. -/
def execRte (gd : Guard) (s : State) : Out := .next (laneOp gd (fun _ => rteLane) s)

/-! ## TLBI and ICINV (R297, R328, R329) -/

/-- Drop the cached translations and table entries of a partition whose range `hit` names. -/
def dropTlb (s : State) (p : Nat) (hit : Nat → Nat → Bool) : State :=
  { s with mem := { s.mem with
      tlb := s.mem.tlb.filter (fun e => !(e.part == p && hit e.base e.size)),
      tabs := s.mem.tabs.filter (fun e => !(e.part == p && hit e.base e.size)) } }

/-- TLBI of a range: its entries go, and the held writes that came by them translate anew (R297). -/
def invalidate (s : State) (p : Nat) (hit : Nat → Nat → Bool) : State := retranslateHeld (dropTlb s p hit) (usesDropped s p hit)

/-- The physical pieces of a virtual range of code; none where a page does not translate, or a migration lock covers it. -/
def codePieces : Nat → State → Who → Nat → Nat → Option (List (Nat × Nat))
  | 0, _, _, _, _ => some []
  | n + 1, s, w, a, e =>
    if e ≤ a then some []
    else match walkNow s w (d64 a) .fetch with
      | .error _ => none
      | .ok l =>
        let stop := min e (l.base + l.size)
        let pa := ptePa l.pte + (a - l.base)
        if (lockOf s pa).isSome then none else (codePieces n s w stop e).map (fun r => (pa, stop - a) :: r)

/-- Whether a line is held under a key of another partition than p. -/
def foreignLine (s : State) (p line : Nat) : Bool :=
  ((Map.get? s.mem.keyOf line).bind (fun k => (Map.get KeySlot.empty s.mem.keys k).owner)).any (fun q => q != p)

/-- Whether one of some physical ranges meets a line. -/
def lineMeets (l : List (Nat × Nat)) (line : Nat) : Bool := l.any (fun e => meets (line * 128) 128 e.1 e.2)

/-- The physical ranges that an ICINV of a partition's thread reaches: the pieces of its virtual range or, where these are not known,
all lines of code that the partition's cores may hold or that stores have changed. -/
def codeReach (s : State) (p : Nat) (ps : Option (List (Nat × Nat))) : List (Nat × Nat) := match ps with
  | some l => l
  | none =>
    let lines : List Nat := s.mem.before.map (fun e => e.1 / 16) ++ s.mem.code.flatMap (fun c => c.locs.map physLine)
    (lines.eraseDups.filter (fun line => !foreignLine s p line)).map (fun line => (line * 128, 128))

/-- ICINV by a thread (R329): no cache holds a copy of the lines any more. That memory's words alone are fetched from now on takes
the release that follows (R133). -/
def dropCode (s : State) (k p : Nat) (ps : Option (List (Nat × Nat))) : State :=
  let l := codeReach s p ps
  { s with mem := { dropCopies s.mem (lineMeets l) with inval := Map.put s.mem.inval k (Map.get [] s.mem.inval k ++ l) } }

/-- A release by a thread at `.pkg` or wider, or its exit: entries from now on fetch the lines of its ICINVs as they stand (R133). -/
def settleFor (s : State) (k : Nat) : State := match Map.get? s.mem.inval k with
  | none => s
  | some l => { s with mem := { settleLines s.mem (lineMeets l) with inval := Map.erase s.mem.inval k } }

/-- A lane of TLBI: the range of its registers. -/
def tlbiLane (x : RangeOps) : LaneFn := fun _ t s =>
  let a := (tPair t x.a).toNat
  let n := (tWord t x.lr).toNat
  (invalidate s (threadPart s t) (fun b m => meets b m a n), none)

/-- A lane of ICINV: the code lines that meet the range of its registers. -/
def icinvLane (x : RangeOps) : LaneFn := fun k t s =>
  let a := (tPair t x.a).toNat
  let n := (tWord t x.lr).toNat
  if n = 0 then (s, none)
  else (dropCode s k (threadPart s t) (codePieces (n / 4096 + 3) s (whoOf s t) (a / 128 * 128) ((a + n + 127) / 128 * 128)), none)

/-- TLBI: a length of 0 names no page. Every access has taken effect but those that a lock holds, so it completes at once
(log 2). -/
def execTlbi (x : RangeOps) (s : State) : Out := .next (laneOp x.g (fun _ => tlbiLane x) s)
def execTlbiAll (g : Guard) (s : State) : Out :=
  .next (laneOp g (fun _ _ t s => (invalidate s (threadPart s t) (fun _ _ => true), none)) s)
def execIcinv (x : RangeOps) (s : State) : Out := .next (laneOp x.g (fun _ => icinvLane x) s)
def execIcinvAll (g : Guard) (s : State) : Out := .next (laneOp g (fun _ k t s => (dropCode s k (threadPart s t) none, none)) s)

/-! ## FRES and FDISC (R330-R332) -/

/-- What an identity names for a thread's partition. -/
inductive Named where
  | status (d : Nat)
  | entry (fk : Nat) (x : FEntry)
deriving DecidableEq, Repr

/-- Statuses 1 and 3, or the live entry an identity names (R308, R330). -/
def nameEntry (s : State) (p : Nat) (id : Word) : Named :=
  let core := id.toNat / 2 ^ 22 % 512
  let x := fragEntry s (fragKeyOfId id)
  if !id.getLsbD 31 then .status 1
  else if !clusterIn (partOf s p).clumask (core / 4) then .status 3
  else if x.st == .free || x.id != id then .status 1
  else .entry (fragKeyOfId id) x

/-- Record an operation on a saved entry; the first one stands (R313). -/
def recordOp (s : State) (fk : Nat) (op : FOp) : State :=
  let x := fragEntry s fk
  setFrag s fk { x with op := if x.op == .none then op else x.op }

/-- FRES of an entry that is not saved (Table 18-4). -/
def fresEntry (s : State) (fk : Nat) : State :=
  let x := fragEntry s fk
  match x.st with
  | .free => s
  | .handler => modFrag s fk (fun x => { x with mark := true })
  | .parked => fresMembers s fk ((fragMembers s x.id).map (·.1))

def fresLane (x : OpDA) : LaneFn := fun k t s =>
  let put (s : State) (d : Nat) : State × Option FInfo := (modThread s k (fun t => tSet t x.d (w32 d)), none)
  match nameEntry s (threadPart s t) (tWord t x.a) with
  | .status d => put s d
  | .entry fk e =>
    if e.saved then put (recordOp s fk .fres) 2
    else match entrySilent s fk with
      | some d => (s, some (waitInfo d))
      | none => put (fresEntry s fk) 0

def execFres (x : OpDA) (s : State) : Out := .next (laneOp x.g (fun _ => fresLane x) s)

/-- An entry is discarded: its state is free and KIND 4 is posted (R332). -/
def fdiscEntry (s : State) (fk : Nat) : State :=
  let x := fragEntry s fk
  let cg := match fragMembers s x.id with
    | (_, t) :: _ => t.cg
    | [] => 0
  postEvent (setFrag s fk { x with st := .free, mark := false }) x.part (w32 (fk / 64)) 4 x.cause 0 (d64 x.id.toNat)
    (x.lanes.setWidth 64) (d64 cg)

/-- The members of a discarded identity exit. -/
def exitMembers (s : State) (id : Word) : State := ((fragMembers s id).map (·.1)).foldl discardThread s

/-- The core groups of a cluster group that have left the peer window, by bit (R264). -/
def goneBits (s : State) (cgu : Nat) : Byte :=
  s.coreGroups.foldl (fun m e => if e.2.cgu == cgu && e.2.gone then m ||| (1#8 <<< e.2.k) else m) 0

/-- The core groups of a cluster group that have left its peer window since an earlier state. -/
def newlyGone (s0 s : State) (cgu : Nat) : Byte := goneBits s cgu &&& ~~~(goneBits s0 cgu)

/-- Exits by FDISC since an earlier state, whoever issued it: what acquires from now on in their cluster groups is ordered after
them (R264, R331). -/
def noteGone (s0 s : State) : State :=
  { s with clusterGroups := s.clusterGroups.map (fun e => (e.1, { e.2 with away := e.2.away ||| newlyGone s0 s e.1 })) }

/-- A thread is ordered after the exits that have ended core groups of its cluster group since an earlier state: its own
FDISC's (R264, R332). -/
def learnGone (s0 s : State) (k : Nat) : State :=
  match getThread s k with
  | none => s
  | some t =>
    let m := newlyGone s0 s t.cgu
    if m = 0 then s else modThread s k (fun t => { t with away := t.away ||| m })

/-- A die whose answer the images of the entries that lanes discard wait for (R344). -/
def fdiscAsks (s : State) (x : OpDA) (act : List Nat) : Option Nat := act.findSome? (fun k => (getThread s k).bind (fun t =>
  match nameEntry s (threadPart s t) (tWord t x.a) with
  | .status _ => none
  | .entry fk e => if e.saved then none else entrySilent s fk))

/-- FDISC: the lanes act in order and write their statuses; the members exit after the last of them. -/
def execFdisc (x : OpDA) (s : State) : Out :=
  .next (groupOp x.g (fun gid _ act s =>
    match fdiscAsks s x act with
    | some d => wakeDie s d
    | none =>
    let (s, ids) := act.foldl (fun (acc : State × List (Nat × Word)) k =>
      match getThread acc.1 k with
      | none => acc
      | some t =>
        let put (s : State) (d : Nat) : State := modThread s k (fun t => tSet t x.d (w32 d))
        match nameEntry acc.1 (threadPart acc.1 t) (tWord t x.a) with
        | .status d => (put acc.1 d, acc.2)
        | .entry fk e =>
          if e.saved then (put (recordOp acc.1 fk .fdisc) 2, acc.2)
          else (put (fdiscEntry acc.1 fk) 0, acc.2 ++ [(k, e.id)])) (s, [])
    let s' := noteGone s (ids.foldl (fun s i => exitMembers s i.2) (advance s gid))
    ids.foldl (fun s' i => learnGone s s' i.1) s') s)

/-! ## SBRD (R335) -/

/-- The record at a place of a core's side buffer: the resident warp's, or what the last one left (R306). -/
def sideAt (s : State) (core quad slot lane : Nat) : SideRec :=
  match (warpsOn s core quad).find? (fun e => e.2.slot == slot) with
  | some e => Map.get SideRec.zero e.2.side lane
  | none => Map.get SideRec.zero s.sideLeft (sideKey core quad slot lane)

/-- The eight registers of a record. -/
def sideWords (r : SideRec) : List Word :=
  [loWord r.pc, hiWord r.pc, loWord r.w1, hiWord r.w1, loWord r.arg0, hiWord r.arg0, loWord r.arg1, hiWord r.arg1]

def sbrdLane (x : OpDA) : LaneFn := fun k t s =>
  let a := (tWord t x.a).toNat
  let ws := sideWords (sideAt s (coreOf s t) (a / 2 ^ 10 % 4) (a / 2 ^ 5 % 32) (a % 32))
  (modThread s k (fun t => setRegs t ((List.range 8).map (fun i => (x.d.toNat + i, ⟨ws.getD i 0, 0⟩)))), none)

def execSbrd (x : OpDA) (s : State) : Out := .next (laneOp x.g (fun _ => sbrdLane x) s)

/-! ## HALT (R336) -/

def haltLane (x : OpDA) (gid : Nat) : LaneFn := fun k t s =>
  let p := threadPart s t
  let q := partOf s p
  if !evqEnabled q || q.evqTail != tWord t x.a then (modThread s k (fun t => tSet t x.d q.evqTail), none)
  else (addWait s gid k (.halt p q.evqTail x.d), none)

def execHalt (x : OpDA) (s : State) : Out := .next (laneOp x.g (haltLane x) s)

/-- What a wait that is over delivers: HALT the tail, SAVE of a warp that has gone the answer that no live warp is there. -/
def deliverWait (s : State) (k : Nat) (w : Wait) : State :=
  match w with
  | .halt p _ d => modThread s k (fun t => tSet t d (partOf s p).evqTail)
  | .save _ d => modThread s k (fun t => tSet t d 0xFFFF0001)
  | .bar cgu b _ => learnFlip s cgu b k
  | _ => s

/-- The waits of a group that are over end (R28). -/
def settleWaits (s : State) (gid : Nat) : State :=
  match getGroup s gid with
  | none => s
  | some g =>
    let over' := g.waits.filter (fun w => waitOver s w.1 w.2)
    let s := over'.foldl (fun s w => deliverWait s w.1 w.2) s
    settleGroup (modGroup s gid (fun g => { g with waits := g.waits.filter (fun w => !over'.contains w) })) gid

end Sys2Proof.Machine
end

