-- ==== Sys2Proof/Machine/Save.lean ====
section
/-! DEFINITION. Pre-emption, save and restore (R286, R313, R317-R320, R333, R334). -/

namespace Sys2Proof.Machine

/-! ## Stopping (R317) -/

/-- Whether the window of a warp's request has lasted PREEMPT_WIN ns; the time base counts 5 clocks in 4 ns (R171). -/
def windowOver (s : State) (w : Warp) : Bool :=
  decide ((partOf s (cgPart s w.cgu)).preemptWin.toNat * 5 ≤ (s.clock - w.preqAt).toNat * 4)

/-- Every thread of a warp still running stops at its next slot once the window of its request is over. -/
def expireWindow (s : State) (wk : Nat) : State :=
  match Map.get? s.warps wk with
  | none => s
  | some w =>
    if w.preq.isNone || w.saved || !windowOver s w then s
    else
      let ks := ((warpThreads s wk).filter (fun e => e.2.stop == .running)).map (·.1)
      let s := if w.preq == some true then s else modWarp s wk (fun w => { w with preq := some true })
      if ks.isEmpty then s else stopWhole s ks

/-- PREEMPT_WINDOW_EXPIRY. -/
def execPreemptWindowExpiry (wk : Nat) (s : State) : Out := .next (expireWindow s wk)

/-! ## Liveness records (R235, R318) -/

/-- REGMAP and the ranges of a record; none when it is malformed. -/
def liveOf (l : List Byte) (n scratch : Nat) : Option (Nat × List (Nat × Nat)) :=
  let map := bits l 0 32
  let rs := (List.range 4).map (fun i => (bits l (0x20 + 8 * i) 4, bits l (0x24 + 8 * i) 4))
  if map / 2 ^ n ≠ 0 || rs.any (fun r => r.1 % 4 ≠ 0 || r.2 % 4 ≠ 0 || (r.2 ≠ 0 && decide (scratch < r.1 + r.2))) then none
  else some (map, rs)

/-- What a read of records answers. -/
inductive Recs (α : Type) where
  | ok (x : α)
  /-- one is malformed, outside the record area or unreadable: the warp is saved whole -/
  | whole
  /-- an access waits -/
  | waits

/-- REGMAP and ranges of a thread's record. -/
def liveRecord (s : State) (t : Thread) (rofs : Word) : Recs (Nat × List (Nat × Nat)) × State :=
  match threadLaunch s t with
  | none => (.whole, s)
  | some l =>
    if rofs.toNat % 64 ≠ 0 || decide (l.r.reclen < rofs.toNat + 64) then (.whole, s)
    else match readVas ⟨threadPart s t, some (coreOf s t), l.priv⟩ (pieceVas (l.r.recbase + rofs.setWidth 64) 64) s with
      | (.error f, s) => (if f.waits then .waits else .whole, s)
      | (.ok (b, _), s) => (match liveOf b t.n l.r.scratch with
        | some x => .ok x
        | none => .whole, s)

/-- Registers a record does not name become free values with unbounded shadows, in frame C as well from the split up
(R318, R320). -/
def forget (map : Nat) (reg : Option Region) (t : Thread) (f : Nat) : Thread :=
  (List.range t.n).foldl (fun t r =>
    if map / 2 ^ r % 2 = 1 then t
    else
      let t := { t with regs := Map.putD Reg.zero t.regs r ⟨Config.freeWord (f + r), bndInf⟩ }
      match reg with
      | some g => if g.split ≤ r then
          { t with cregs := Map.putD Reg.zero t.cregs (r - g.base) ⟨Config.freeWord (f + 256 + r), bndInf⟩ } else t
      | none => t) t

/-- The records of a warp's threads that stopped by one: thread, REGMAP, ranges. -/
def warpRecords : List (Nat × Thread) → State → Recs (List (Nat × Nat × List (Nat × Nat))) × State
  | [], s => (.ok [], s)
  | (k, t) :: r, s =>
    match t.stop with
    | .byRecord rofs =>
      match liveRecord s t rofs with
      | (.ok x, s) => match warpRecords r s with
        | (.ok y, s) => (.ok ((k, x) :: y), s)
        | o => o
      | (.whole, s) => (.whole, s)
      | (.waits, s) => (.waits, s)
    | _ => warpRecords r s

/-- A thread saved by a record loses what that leaves out. -/
def forgetBy (s : State) (k map : Nat) : State :=
  match getThread s k with
  | none => s
  | some t =>
    let reg := (warpOf s t).bind (fun w => w.gen)
    { modThread s k (fun t => forget map reg t s.fresh) with fresh := s.fresh + 512 }

/-- Save a warp's threads: the scratch ranges that their records name, or none where all of scratch is saved (R319). -/
def saveThreads (ts : List (Nat × Thread)) (s : State) : Recs (Option (List (Nat × Nat))) × State :=
  match warpRecords ts s with
  | (.waits, s) => (.waits, s)
  | (.whole, s) => (.ok none, s)
  | (.ok l, s) =>
    let s := l.foldl (fun s x => forgetBy s x.1 x.2.1) s
    (.ok (if l.length = ts.length then some (l.flatMap (fun x => x.2.2)) else none), s)

/-! ## The core group (R319) -/

def inRanges (rs : List (Nat × Nat)) (o : Nat) : Bool := rs.any (fun r => decide (r.1 ≤ o ∧ o < r.1 + r.2))

/-- Scratch outside the ranges is lost: free bytes, code 7 under E = 255 (R320). -/
def forgetScratch (size : Nat) (rs : List (Nat × Nat)) (f : Nat) (c : CoreGroup) : CoreGroup :=
  let bytes := (List.range size).filterMap (fun o =>
    let b : Byte := if inRanges rs o then Map.get 0 c.scratch o else (Config.freeWord (f + o / 4) >>> (8 * (o % 4))).setWidth 8
    if b = 0 then none else some (o, b))
  let recs := ((List.range (size / 4)).filter (fun i => !inRanges rs (4 * i))).foldl (fun m i =>
    Map.putD BRec.zero m (i / 32) (storeBound (Map.get BRec.zero m (i / 32)) (i % 32) bndInf)) c.srec
  { c with scratch := bytes, srec := recs }

/-- The warps of a core group that hold threads. -/
def coreWarps (s : State) (ck : Nat) : List (Nat × Warp) :=
  s.warps.filter (fun e => e.2.cgu * 8 + e.2.k == ck && s.threads.any (fun t => warpKeyOf t.2 == e.1))

/-- The core group is saved with its last warp: scratch by the records of its warps, the stash written back. -/
def saveCore (s : State) (ck : Nat) : State :=
  let ws := (coreWarps s ck).map (·.2)
  if ws.any (fun w => !w.saved) then s
  else
    let size := scratchSize s (ck / 8)
    let s := modCore s ck (fun c => { c with saved := true, slines := [] })
    if ws.any (fun w => w.ranges.isNone) then s
    else
      let rs := ws.flatMap (fun w => w.ranges.getD [])
      { modCore s ck (forgetScratch size rs s.fresh) with fresh := s.fresh + size / 4 }

/-! ## The image (R319) -/

def saveSlotBytes : Nat := 131072

def slotsFree (q : Part) (i n : Nat) : Bool :=
  decide (i + n ≤ q.saveSlots.toNat) && q.images.all (fun m => !meets m.first m.count i n)

/-- An image's bytes are known to the save engine alone: memory there holds free values. -/
def fillImage (s : State) (a n : Nat) : State :=
  let m := s.mem
  let inn (x : Nat) : Bool := decide (a ≤ x ∧ x < a + n)
  let new := (List.range n).filterMap (fun o =>
    let b : Byte := (Config.freeWord (s.fresh + o / 4) >>> (8 * (o % 4))).setWidth 8
    if b = 0 then none else some (a + o, b))
  let bytes := m.bytes.filter (fun c => decide (c.1 < a)) ++ new ++ m.bytes.filter (fun c => decide (a + n ≤ c.1))
  let recs := (m.recs.map (fun e => if inn (e.1 * 128) then (e.1, { e.2 with codes := 0 }) else e)).filter (fun e => e.2 != BRec.zero)
  let s := { s with
    fresh := s.fresh + n / 4,
    mem := dropOld { m with bytes := bytes, recs := recs, partials := m.partials.filter (fun p => !inn p.pa) } (fun l => inn (l * 128)),
    pkg := { s.pkg with combs := s.pkg.combs.map (fun (e : Comb) => if inn (e.line * 128) then { e with open_ := false } else e) } }
  { s with coreGroups := s.coreGroups.map (fun e => (e.1, { e.2 with slines := e.2.slines.filter (fun l => !inn (l.2.line * 128)) })) }

/-- The first slot of an image of `n` slots, of those that fit; which one is left open. -/
def pickSlot (s : State) (q : Part) (n : Nat) : Option (Nat × State) :=
  let free := (List.range q.saveSlots.toNat).filter (fun i => slotsFree q i n)
  if free.isEmpty then none
  else let (w, s) := drawWord s; some (free.getD (w.toNat % free.length) 0, s)

/-- The waits of SAVE on a warp end with a value (R333). -/
def endSaves (s : State) (wk : Nat) (v : Word) : State :=
  let mine (w : Nat × Wait) : Bool := match w.2 with
    | .save x _ => x == wk
    | _ => false
  s.groups.foldl (fun s e =>
    let ws := e.2.waits.filter mine
    if ws.isEmpty then s
    else
      let s := ws.foldl (fun s w => match w.2 with
        | .save _ d => modThread s w.1 (fun t => tSet t d v)
        | _ => s) s
      settleGroup (modGroup s e.1 (fun g => { g with waits := g.waits.filter (fun w => !mine w) })) e.1) s

/-- The fragment entries that hold threads of a warp (R313): a fragment may hold those of several (R26). -/
def warpEntries (s : State) (wk : Nat) : List Nat :=
  let ids := ((warpThreads s wk).map (fun e => e.2.frag)).filter (fun i => i != 0)
  (s.frags.filter (fun e => e.2.st != .free && ids.contains e.2.id)).map (·.1)

/-- Whether a migration lock covers a part of the image's slots, to which the save engine then cannot write (R134). -/
def slotsLocked (s : State) (a n : Nat) : Bool := (List.range (n / 4096)).any (fun i => (lockOf s (a + 4096 * i)).isSome)

/-- Whether a lock holds a write of a thread of a warp: the save waits for it (R137). -/
def warpHeld (s : State) (wk : Nat) : Bool :=
  let ks := (warpThreads s wk).map (·.1)
  s.parts.any (fun e => e.2.held.any (fun h => ks.contains h.thread))

/-- A warp's threads are saved: its entries, side records, core group, and the image in `n` slots from the i-th on. -/
def sealWarp (s : State) (wk : Nat) (w : Warp) (p i n : Nat) (ranges : Option (List (Nat × Nat))) : State :=
  let s := (warpEntries s wk).foldl (fun s fk => modFrag s fk (fun x => { x with saved := true })) s
  let s := leaveSide s w
  let s := modWarp s wk (fun w => { w with saved := true, preq := none, ranges := ranges })
  let s := saveCore s (w.cgu * 8 + w.k)
  let s := fillImage s ((partOf s p).saveBase.toNat + saveSlotBytes * i) (saveSlotBytes * n)
  let s := setPart s p (fun q => { q with images := q.images ++ [⟨i, n, wk⟩] })
  endSaves s wk (w32 i)

/-- Save a warp whose threads have stopped; while an access waits the save does. -/
def saveWarp (s0 : State) (wk : Nat) (w : Warp) : State :=
  let p := cgPart s0 w.cgu
  let n := 1 + (Config.extraSlots s0.fresh).toNat
  match pickSlot s0 (partOf s0 p) n with
  | none => s0
  | some (i, s) =>
    let a := (partOf s0 p).saveBase.toNat + saveSlotBytes * i
    if slotsLocked s0 a (saveSlotBytes * n) || warpHeld s0 wk then s0
    else match rangeSilent s0 none a (saveSlotBytes * n) true with
    | some d => wakeDie s0 d
    | none => match saveThreads (warpThreads s wk) s with
      | (.ok rs, s) => sealWarp s wk w p i n rs
      | (_, s) => s

/-- WARP_SAVE (R317, R319): threads that are not runnable or in handler state stop where they stand, and when every thread has
stopped the warp is saved; with too few free slots the request waits. -/
def execWarpSave (wk : Nat) (s : State) : Out :=
  .next (match Map.get? s.warps wk with
    | none => s
    | some w =>
      if w.preq.isNone || w.saved || (warpThreads s wk).isEmpty then s
      else
        let s := stopStanding s wk
        if (warpThreads s wk).any (fun e => e.2.stop == .running) then s else saveWarp s wk w)

/-! ## Room for a restore (R320) -/

def allocRows (s : State) (cgu : Nat) : Nat := match recOf s cgu with
  | some r => r.alloc
  | none => 0

/-- A slot of a quad with register rows for a warp: the one it had where that is free, else the lowest free one. -/
def slotFor (s : State) (core quad slot rows : Nat) : Option Nat :=
  let ws := warpsOn s core quad
  if Config.regRows < sumOf (ws.map (fun e => allocRows s e.2.cgu)) + rows then none
  else (slot :: List.range Config.warpSlots).find? (fun i => !ws.any (fun e => e.2.slot == i))

def queueRoom (s : State) (core quad : Nat) (r : LRec) : Bool :=
  decide (sumOf ((quadGroupsOn s core quad).map (fun e => match recOf s e.2.cgu with
    | some x => queueBytesOf x
    | none => 0)) + queueBytesOf r ≤ Config.queueBytes)

/-- Whether a saved core group has room on the core and quads it had. -/
def ownRoom (s : State) (ck : Nat) (c : CoreGroup) (r : LRec) : Bool :=
  decide (rowsUsed s c.core + r.scratch / 384 + r.stash / 384 ≤ Config.scratchRows)
    && (s.quadGroups.filter (fun e => e.2.cgu * 8 + e.2.k == ck)).all (fun e => queueRoom s c.core e.2.quad r)

/-- A place on another cluster for the core groups of one half, at their positions. -/
def halfRoom (s : State) (kept : Nat → Nat → Bool) (p cl : Nat) (cs : List (Nat × CoreGroup)) (r : LRec) : Option (List (Nat × Nat × List Nat)) :=
  if !clusterUsable s p cl || decide (4 ≤ clusterLoad s cl) then none
  else cs.foldr (fun e acc => acc.bind (fun l =>
    let core := cl * 4 + e.2.core % 4
    (coreRoom s kept core r).map (fun qs => (e.1, core, qs) :: l))) (some [])

/-- Every place a cluster group saved whole may return to. -/
def wholePlaces (s : State) (kept : Nat → Nat → Bool) (p cgu : Nat) (r : LRec) : List (List (Nat × Nat × List Nat)) :=
  let cs := cgCores s cgu
  let lo := cs.filter (fun e => e.2.k < 4)
  let hi := cs.filter (fun e => !decide (e.2.k < 4))
  let die (l : List (Nat × CoreGroup)) : Nat := match l with
    | e :: _ => e.2.core / 64
    | [] => 0
  let a := (dieClusters (die lo)).filterMap (fun cl => halfRoom s kept p cl lo r)
  if hi.isEmpty then a
  else
    let b := (dieClusters (die hi)).filterMap (fun cl => halfRoom s kept p cl hi r)
    a.flatMap (fun x => b.map (fun y => x ++ y))

/-- Give a core group's quad groups their quads, and its warps their slots. -/
def placeQuads (s : State) (ck core : Nat) (qs : List Nat) : State :=
  (List.range qs.length).foldl (fun s j =>
    let quad := qs.getD j 0
    let qk := ck * 4 + j
    let ws := (s.warps.filter (fun e => e.2.cgu * 32 + e.2.k * 4 + e.2.j == qk)).map (·.1)
    let slots := freeSlots s core quad ws.length
    let s := { s with quadGroups := Map.adjust s.quadGroups qk (fun q => { q with quad := quad }) }
    (List.range ws.length).foldl (fun s i => modWarp s (ws.getD i 0) (fun w => { w with slot := slots.getD i 0 })) s) s

/-- Move a cluster group to a place: core groups with their quads, and the cluster it counts on. -/
def moveGroup (s : State) (p cgu : Nat) (pl : List (Nat × Nat × List Nat)) : State :=
  let s := pl.foldl (fun s e => placeQuads (modCore s e.1 (fun c => { c with core := e.2.1 })) e.1 e.2.1 e.2.2) s
  let s := { s with clusterGroups := Map.adjust s.clusterGroups cgu (fun g => { g with cluster := (pl.headD (0, g.cluster * 4, [])).2.1 / 4 }) }
  (pl.map (fun e => e.2.1 / 4)).foldl (fun s c => setIsland s c (fun x => { x with last := some p })) s

/-- Make room for a saved warp: the state with it placed, or none; not where room is kept for another (R45). Which place of several is
left open: a core group that returns to its own core takes the quads it had where they have room. -/
def placeWarp (s : State) (p wk : Nat) (w : Warp) : Option State :=
  let ck := w.cgu * 8 + w.k
  let kept := keptRoom s p (some wk)
  match Map.get? s.coreGroups ck, recOf s w.cgu with
  | some c, some r =>
    let quad := match Map.get? s.quadGroups (ck * 4 + w.j) with
      | some q => q.quad
      | none => 0
    let back (s : State) : State := modCore s ck (fun c => { c with saved := false })
    let slot := (if kept c.core quad then none else slotFor s c.core quad w.slot r.alloc).map (fun i => modWarp s wk (fun w => { w with slot := i }))
    if !c.saved then slot
    else if bound' s w.cgu then
      if !ownCluster s p c then none
      else match ownRoom s ck c r, slot, coreRoom s kept c.core r with
        | true, some s', _ => some (back s')
        | _, _, some qs => some (back (placeQuads s ck c.core qs))
        | _, _, none => none
    else
      let ps := wholePlaces s kept p w.cgu r
      if ps.isEmpty then none
      else
        let (x, s) := drawWord s
        some (back (moveGroup s p w.cgu (ps.getD (x.toNat % ps.length) [])))
  | _, _ => none

/-! ## Restoring (R313, R320, R334) -/

/-- An operation recorded on an entry takes effect (R313). -/
def takeOp (s : State) (fk : Nat) (op : FOp) : State :=
  match op with
  | .none => s
  | .fres => fresEntry s fk
  | .fdisc => noteGone s (exitMembers (fdiscEntry s fk) (fragEntry s fk).id)

/-- A placed warp runs again: its threads go on where they stand, those of one group in one group (R28), each with the acquire of
R137; its entries are no longer saved, but those that hold threads of another saved warp. -/
def resumeWarp (s : State) (p wk : Nat) : State :=
  let s := setPart s p (fun q => { q with images := q.images.filter (fun i => i.warp != wk) })
  let s := modWarp s wk (fun w => { w with saved := false, preq := none, since := s.clock })
  let ts := warpThreads s wk
  let s := ts.foldl (fun s e => learnAway (modThread s e.1 (fun t => { t with stop := .running })) e.1) s
  let s := regroupTeams s (ts.filterMap (fun e => if e.2.st == .entry then e.2.pass.map (fun q => (e.1, e.2.team, q)) else none))
  let core := match ts with
    | (_, t) :: _ => coreOf s t
    | [] => 0
  let quad := match ts with
    | (_, t) :: _ => quadOf s t
    | [] => 0
  let s := { s with groups := s.groups.map (fun e =>
    if e.2.members.any (fun k => ts.any (fun t => t.1 == k)) then (e.1, { e.2 with core := core, quad := quad }) else e) }
  let slot := match Map.get? s.warps wk with
    | some w => w.slot
    | none => 0
  let free (fk : Nat) : Bool := (fragMembers s (fragEntry s fk).id).all (fun e => match warpOf s e.2 with
    | some w => !w.saved
    | none => true)
  let s := (warpEntries s wk).foldl (fun s fk =>
    if (fragEntry s fk).warp == wk then modFrag s fk (fun x => { x with quad := quad, slot := slot }) else s) s
  let es := ((warpEntries s wk).filter free).map (fun fk => (fk, (fragEntry s fk).op))
  let s := es.foldl (fun s e => modFrag s e.1 (fun x => { x with saved := false, op := .none })) s
  let s := es.foldl (fun s e => takeOp s e.1 e.2) s
  genCheck (mwaitChecks s wk) wk

/-- The warp of the image that begins at a slot. -/
def imageAt (s : State) (p i : Nat) : Option Nat := ((partOf s p).images.find? (fun m => m.first == i)).map (fun m => m.warp)

/-- Restore an image: 0 restored, 1 no image, 2 no room. -/
def restoreImage (s : State) (p i : Nat) : Nat × State :=
  match (imageAt s p i).bind (fun wk => (Map.get? s.warps wk).map (fun w => (wk, w))) with
  | none => (1, s)
  | some (wk, w) => match placeWarp s p wk w with
    | none => (2, s)
    | some s => (0, resumeWarp s p wk)

/-- Whether a class-0 warp has run for CLASSHOLD µs (R286). -/
def heldLong (s : State) (p : Nat) (w : Warp) : Bool :=
  decide ((partOf s p).classhold.toNat * 1250 ≤ (s.clock - w.since).toNat)

/-- Whether the resident warp `wk` may be evicted for a thread, and its rank: class, then its lowest thread. -/
def victimRank (s : State) (p : Nat) (t0 : Thread) (where' : Nat → Nat → Bool) (wk : Nat) (w : Warp) : Option (Nat × Thread) :=
  match cgLaunch s w.cgu, Map.get? s.coreGroups (w.cgu * 8 + w.k), lowestOf (warpThreads s wk) with
  | some l, some c, some t =>
    let quad := match Map.get? s.quadGroups (w.cgu * 32 + w.k * 4 + w.j) with
      | some q => q.quad
      | none => 0
    if l.part == p && !w.saved && w.preq.isNone && where' c.core quad && !gtidLe t t0 && (l.cls != 0 || heldLong s p w)
    then some (l.cls, t) else none
  | _, _, _ => none

/-- The victim of R286: the lowest class first, within it the highest identifier. -/
def victimFor (s : State) (p : Nat) (t0 : Thread) (where' : Nat → Nat → Bool) : Option Nat :=
  (s.warps.foldl (fun (m : Option (Nat × Nat × Thread)) e => match victimRank s p t0 where' e.1 e.2, m with
    | none, m => m
    | some (c, t), none => some (e.1, c, t)
    | some (c, t), some (k, c', t') => if c' < c || (c == c' && gtidLe t' t) then some (e.1, c, t) else some (k, c', t')) none).map (·.1)

/-- Whether a warp that has been asked to go still stands where it would make room. -/
def makingRoom (s : State) (p : Nat) (where' : Nat → Nat → Bool) : Bool := s.warps.any (fun e =>
  e.2.preq.isSome && !e.2.saved && cgPart s e.2.cgu == p && (match Map.get? s.coreGroups (e.2.cgu * 8 + e.2.k) with
    | some c => where' c.core (quadNo s ((e.2.cgu * 8 + e.2.k) * 4 + e.2.j))
    | none => false))

/-- WARP_RESTORE (R45, R286): the distributor restores an image; without room for one that R45 requires it asks for a victim's
place. -/
def execWarpRestore (p i : Nat) (s : State) : Out :=
  .next (match restoreImage s p i with
    | (2, s) =>
      (match (imageAt s p i).bind (fun wk => (Map.get? s.warps wk).map (fun w => (wk, w))) with
      | none => s
      | some (wk, w) => match Map.get? s.coreGroups (w.cgu * 8 + w.k), lowestOf (warpThreads s wk) with
        | some c, some t0 =>
          if !mustReturn s p wk || makingRoom s p (makesRoom s p w c) then s
          else match victimFor s p t0 (makesRoom s p w c) with
          | some v => requestSave s v
          | none => s
        | _, _ => s)
    | (_, s) => s)

/-! ## SAVE and REST (R333, R334) -/

/-- The warp that a names: a resident one with threads, or one saved from that place. -/
def warpAt (s : State) (core quad slot : Nat) : Option (Nat × Warp) :=
  let live (wk : Nat) : Bool := s.threads.any (fun t => warpKeyOf t.2 == wk)
  match (warpsOn s core quad).find? (fun e => e.2.slot == slot && live e.1) with
  | some e => some e
  | none => s.warps.find? (fun e => e.2.saved && e.2.slot == slot
      && (match Map.get? s.coreGroups (e.2.cgu * 8 + e.2.k), Map.get? s.quadGroups (e.2.cgu * 32 + e.2.k * 4 + e.2.j) with
        | some c, some q => c.core == core && q.quad == quad
        | _, _ => false))

def saveLane (x : OpDA) (gid : Nat) : LaneFn := fun k t s =>
  let a := (tWord t x.a).toNat
  let put (v : Word) : State × Option FInfo := (modThread s k (fun t => tSet t x.d v), none)
  match warpAt s (a / 2 ^ 7 % 512) (a / 2 ^ 5 % 4) (a % 32) with
  | none => put 0xFFFF0001
  | some (wk, w) =>
    if cgPart s w.cgu ≠ threadPart s t then put 0xFFFF0001
    else if wk = warpKeyOf t then put 0xFFFF0003
    else if w.saved || w.preq.isSome then put 0xFFFF0002
    else (addWait (requestSave s wk) gid k (.save wk x.d), none)

/-- SAVE: a lane whose request is taken waits for the end of the save. -/
def execSave (x : OpDA) (s : State) : Out := .next (laneOp x.g (saveLane x) s)

/-- One lane of REST; it is ordered after the exits of a discard that the restore carries out (R264, R313). -/
def restLane (x : OpDA) : LaneFn := fun k t s =>
  let (d, s') := restoreImage s (threadPart s t) (tWord t x.a).toNat
  (learnGone s (modThread s' k (fun t => tSet t x.d (w32 d))) k, none)

def execRest (x : OpDA) (s : State) : Out := .next (laneOp x.g (fun _ => restLane x) s)

end Sys2Proof.Machine
end

