-- ==== Sys2Proof/Machine/Clause.lean ====
section
/-! DEFINITION. Clause entry (R26, R27, R133, R138-R141): fetching a clause, its header check and the forming of the
issue group; the wait of R141; and the illegal-instruction trap (R157). -/

namespace Sys2Proof.Machine

/-! ## Fetching a clause (R133, R140) -/

/-- What the fetch of a clause gives. -/
inductive Fetched where
  | ok (h : Header) (words : List DWord)
  /-- the header fails R139 -/
  | bad (head : DWord)
  /-- a fault on one of its words: WAIT of the header and the words that were read before it -/
  | fault (f : FInfo) (wait : Byte) (words : List DWord)
deriving DecidableEq, Repr

/-- Whether a word is the header of a clause, whoever enters it. -/
def isHeader (x : DWord) : Bool := (Header.ofWord x).ok true false || (Header.ofWord x).ok true true

/-- Where a word of code is read; a migrating page's is read in its source copy (R299). -/
def codeLoc (s : State) (w : Who) (va : DWord) : Except FInfo Loc × State :=
  match translate s w va .fetch with
  | (.error f, s) => (.error f, s)
  | (.ok l, s) => (.ok (readLocOf s l), s)

/-- Where words of code are read, one after another: those before the first fault, and that. -/
def codeLocs (w : Who) : Nat → DWord → State → (List Loc × Option FInfo) × State
  | 0, _, s => (([], none), s)
  | n + 1, va, s =>
    match codeLoc s w va with
    | (.error f, s) => (([], some f), s)
    | (.ok l, s) => let ((r, e), s) := codeLocs w n (va + 8) s; ((l :: r, e), s)

/-- Read words of code at their homes: those before the first whose line a die must give up first, and that wait. -/
def codeRead (w : Who) : List Loc → State → (List DWord × Option FInfo) × State
  | [], s => (([], none), s)
  | l :: r, s =>
    match silentDie s w.core (physLine l) false with
    | some d => (([], some (waitInfo d)), wakeDie s d)
    | none =>
      let (g, s) := readLoc (homeAcc s l false) l 8
      let ((ws, e), s) := codeRead w r s
      ((g.val :: ws, e), s)

/-! ### Instruction caches and clause buffers (R1, R133, R142) -/

/-- Who holds the code that a thread of a quad enters: its clause buffer, and its core's instruction cache. -/
def quadHolders (core quad : Nat) : List Nat := [512 + 4 * core + quad, core]

/-- Copies, newest first, that fit an instruction cache of 128 KiB. -/
def fitWords : Nat → List Code → List Code
  | _, [] => []
  | n, c :: r => if c.words.length ≤ n then c :: fitWords (n - c.words.length) r else []

/-- Copies, newest first, that fit a buffer of 16 clauses: the oldest without LOOP gives way, or the oldest of all (R142). -/
def fitClauses (l : List Code) : List Code :=
  if l.length ≤ 16 then l
  else match (l.reverse.find? (fun c => !c.loop)).or l.getLast? with
    | some c => l.erase c
    | none => l

/-- A holder keeps a clause that it has served, the newest first (DESIGN CHOICE, log 20). -/
def keepIn (l : List Code) (c : Code) : List Code :=
  let mine := c :: l.filter (fun x => x.holder == c.holder && x.locs.head? != c.locs.head?)
  (if c.holder < 512 then fitWords 16384 mine else fitClauses mine) ++ l.filter (fun x => x.holder != c.holder)

/-- The holders keep a clause: where its header and words stand, and what was read there. -/
def keepCode (s : State) (hs : List Nat) (ls : List Loc) (ws : List DWord) : State :=
  let loop := ws.any (fun x => (Header.ofWord x).loop) && (ws.take 1).all (fun x => (Header.ofWord x).loop)
  { s with mem := { s.mem with code := hs.foldl (fun l h => keepIn l ⟨h, ls, ws, loop⟩) s.mem.code } }

/-- The copy of the clause whose header stands at a location that serves an entry: the clause buffer's, or the instruction cache's. -/
def copyAt (s : State) (hs : List Nat) (l : Loc) : Option Code :=
  hs.findSome? (fun h => s.mem.code.find? (fun c => c.holder == h && c.locs.head? == some l))

/-- The last epoch of code that one of some words' lines began. -/
def lastSettled (m : MemSys) (ls : List Loc) : Nat :=
  (ls.map (fun l => Map.get 0 m.settled (physLine l))).foldl max 0

/-- Whether memory holds some words as one text: since the last ICINV and release over their lines each has been stored as often
(DESIGN CHOICE, log 88). -/
def oneText (m : MemSys) (ls : List Loc) : Bool :=
  let n (l : Loc) : Nat := storedSince m (lastSettled m ls) (locPa l)
  match ls with
  | [] => true
  | l :: r => r.all (fun x => n x == n l)

/-- The clause at a header as it stood when the last epoch of its lines began; `e` is that of the lines so far. -/
def oldClause (w : Who) (hs : List Nat) (hdr : DWord) (str : Bool) (l0 : Loc) : Nat → Nat → State → Fetched × State
  | 0, e, s => (.bad (wordAt s.mem e (locPa l0)), s)
  | n + 1, e, s =>
    let head := wordAt s.mem e (locPa l0)
    let h := Header.ofWord head
    if !h.ok w.priv str then (.bad head, s)
    else
      let ((ls, f), s) := codeLocs w (h.cnt.toNat + 1) (hdr + 8) s
      let e' := lastSettled s.mem (l0 :: ls)
      if e < e' then oldClause w hs hdr str l0 n e' s
      else
        let ws := ls.map (fun l => wordAt s.mem e (locPa l))
        match f with
        | some f => (.fault f h.wait ws, s)
        | none => (.ok h ws, keepCode s hs (l0 :: ls) (head :: ws))

/-- A clause that no cache holds is read in memory, where that holds it as one text; where stores have changed some of its words alone,
and no ICINV and release have followed, it is fetched as it stood before them, whole (R133; DESIGN CHOICE, log 88). -/
def fetchMiss (s : State) (w : Who) (hs : List Nat) (hdr : DWord) (str : Bool) (l0 : Loc) : Fetched × State :=
  match codeRead w [l0] s with
  | ((_, some f), s) => (.fault f 0 [], s)
  | ((xs, none), s) =>
    let head := xs.headD 0
    let h := Header.ofWord head
    let e := lastSettled s.mem [l0]
    if !h.ok w.priv str then
      if isHeader (wordAt s.mem e (locPa l0)) && !isHeader head then oldClause w hs hdr str l0 64 e s else (.bad head, s)
    else
      let ((ls, f), s) := codeLocs w (h.cnt.toNat + 1) (hdr + 8) s
      if !oneText s.mem (l0 :: ls) then oldClause w hs hdr str l0 64 e s
      else match codeRead w ls s with
        | ((ws, some f), s) => (.fault f h.wait ws, s)
        | ((ws, none), s) => match f with
          | some f => (.fault f h.wait ws, s)
          | none => (.ok h ws, keepCode s hs (l0 :: ls) (head :: ws))

/-- Fetch and check the clause at a header (R133, R140): a holder's copy serves while its words translate to where it was read, else it
is fetched anew. -/
def fetchClause (s : State) (w : Who) (hs : List Nat) (hdr : DWord) (str : Bool) : Fetched × State :=
  match codeLoc s w hdr with
  | (.error f, s) => (.fault f 0 [], s)
  | (.ok l0, s) =>
    match copyAt s hs l0 with
    | none => fetchMiss s w hs hdr str l0
    | some c =>
      let head := c.words.headD 0
      let h := Header.ofWord head
      if !h.ok w.priv str then (.bad head, s)
      else match codeLocs w (h.cnt.toNat + 1) (hdr + 8) s with
        | ((ls, some f), s) => (.fault f h.wait ((c.words.drop 1).take ls.length), s)
        | ((ls, none), s) =>
          if l0 :: ls = c.locs then (.ok h (c.words.drop 1), keepCode s hs c.locs c.words) else fetchMiss s w hs hdr str l0

/-! ## Forming a group (R26, R27) -/

/-- Majors that make a clause collective (R27): matrix, warp operations, generators, QNT, DQNT, JOB, LNCH. -/
def collectiveMajor (maj : Nat) : Bool :=
  decide (0xA0 ≤ maj ∧ maj ≤ 0xAF) || decide (0xC0 ≤ maj ∧ maj ≤ 0xCF) || maj == 0x42 || maj == 0x43 || maj == 0xE0 || maj == 0xE2

def majorOf (w : DWord) : Nat := w.toNat / 2 ^ 56

def isCollective (ws : List DWord) : Bool := ws.any (fun w => collectiveMajor (majorOf w))

/-- Whether a clause names queues of one quad group, in WAIT or in its words (R26). -/
def namesQueues (wait : Byte) (ws : List DWord) : Bool :=
  wait != 0 || ws.any (fun w => decide (0xD0 ≤ majorOf w ∧ majorOf w ≤ 0xD3))

/-- Threads that group with each other: those of one fragment in handler state group only among themselves (R305). -/
def sameKind (a b : Thread) : Bool := a.hand == b.hand && (a.hand == .none || a.frag == b.frag)

/-- The threads that stand at a header on a quad. -/
def candidates (s : State) (core quad : Nat) (hdr : DWord) : List (Nat × Thread) :=
  s.threads.filter (fun e => canEnter s e.2 && e.2.pc == hdr && coreOf s e.2 == core && quadOf s e.2 == quad)

/-- At most one thread a lane, the lowest identifier. -/
def onePerLane (pool : List (Nat × Thread)) : List Nat :=
  (pool.filter (fun e => pool.all (fun x => x.2.lane != e.2.lane || gtidLe e.2 x.2))).map (·.1)

/-- The address of the vector a handler thread entered, if it has one. -/
def vectorAt (s : State) (t : Thread) : Option DWord :=
  let base := (partOf s (threadPart s t)).trapbase
  match t.hand with
  | .none => none
  | .noEntry => some (vectorOf base 7)
  | .system => some (vectorOf base (fragEntry s (fragKeyOfId t.frag)).cause)
  | .user => (threadLaunch s t).map (fun l => vectorOf l.r.ubase (fragEntry s (fragKeyOfId t.frag)).cause)

/-- The whole entering group faults: no slot executes. A fetch that must wait, or a fault that cannot be taken yet, leaves the
threads where they stand. -/
def entryFault (s : State) (ks : List Nat) (f : FInfo) (fpc : DWord) (slot : Option Pass) (vec : Bool) : State :=
  if faultsWait s (ks.map (fun k => (k, f))) then s
  else match faultsAsk s (ks.map (fun k => (k, f))) with
  | some d => wakeDie s d
  | none => (raise s s ks (ks.map (fun k => (k, f))) fpc slot fpc slot vec).1

/-- The threads of a pool that a group takes (R26, R27): of one quad group where the clause names queues, of one warp where it is
collective, one a lane. -/
def drawn (pool : List (Nat × Thread)) (low : Thread) (wait : Byte) (ws : List DWord) : List Nat :=
  let pool := if namesQueues wait ws then pool.filter (fun e => quadKeyOf e.2 == quadKeyOf low) else pool
  let pool := if isCollective ws then pool.filter (fun e => warpKeyOf e.2 == warpKeyOf low) else pool
  onePerLane pool

/-- Threads that stand at a header enter its clause: those of the lowest one's kind and mode. -/
def enterPool (s : State) (hdr : DWord) (cs : List (Nat × Thread)) : State :=
  match lowestOf cs with
  | none => s
  | some low =>
    let pool := cs.filter (fun e => sameKind e.2 low && e.2.priv == low.priv)
    let vec := vectorAt s low == some hdr
    if hdr.toNat % 8 ≠ 0 then entryFault s (onePerLane pool) (faultOf 0 0 0 0) hdr none vec
    else match fetchClause s (whoOf s low) (quadHolders (coreOf s low) (quadOf s low)) hdr false with
      | (.bad head, s) => entryFault s (onePerLane pool) (faultOf 0 0 head 0) hdr none vec
      | (.fault f wait ws, s) => entryFault s (drawn pool low wait ws) f (hdr + 8) (some ⟨hdr, 0, [], 0⟩) vec
      | (.ok h ws, s) =>
        formGroup s (drawn pool low h.wait ws) ⟨hdr, h.cls, ws, 0⟩ (if h.wait = 0 then .none else .clauseWait h.wait)

/-! ## Throttling (R288, R341) -/

/-- The sector of a cluster, two a die. -/
def sectorOf (cl : Nat) : Nat := cl / 8

/-- Whether a cluster group is memory-bound: over the last 4,096 clocks more than MBR/16 as many instructions of MEM clauses as
of ALU and MAT clauses. -/
def memBound (s : State) (g : ClusterGroup) : Bool :=
  let l := g.issued.filter (fun e => decide ((s.clock - e.1).toNat < 4096))
  decide (s.pkg.congCfg.toNat / 2 ^ 16 % 256 * (l.filter (fun e => !e.2)).length < 16 * (l.filter (fun e => e.2)).length)

/-- The lowest runnable thread of a partition on a cluster; one that a save has switched out is on none. -/
def lowestOnCluster (s : State) (p cl : Nat) : Option Thread :=
  lowestOf (s.threads.filter (fun e => threadPart s e.2 == p && coreOf s e.2 / 4 == cl && !notRunnable s e.2
    && !(warpOf s e.2).any (fun w => w.saved)))

/-- Whether the scheduler holds a thread's MEM clauses at their entry: its sector is throttled, its group memory-bound, and not
the one that holds the partition's lowest runnable thread of the cluster. -/
def memHeld (s : State) (t : Thread) : Bool :=
  let cl := coreOf s t / 4
  (Map.get Sector.reset s.pkg.sectors (sectorOf cl)).throttled
    && (match Map.get? s.clusterGroups t.cgu with
      | some g => memBound s g
      | none => false)
    && !(lowestOnCluster s (threadPart s t) cl).any (fun u => u.cgu == t.cgu)

/-- Threads of a quad enter the clause at a header; those held from a MEM clause stay runnable where they stand. -/
def enterThreads (s : State) (core quad : Nat) (hdr : DWord) : State :=
  let cs := candidates s core quad hdr
  let go := cs.filter (fun e => !memHeld s e.2)
  match lowestOf cs with
  | none => s
  | some low =>
    if go.length = cs.length then enterPool s hdr cs
    else match (fetchClause s (whoOf s low) (quadHolders core quad) hdr false).1 with
      | .ok h _ => enterPool s hdr (if h.cls = clsMem then go else cs)
      | _ => enterPool s hdr cs

/-- An access-slice instance enters the clause it stands at (R113, R139, R144). -/
def enterSlice (s : State) (qk : Nat) : State :=
  match getSlice s qk with
  | none => s
  | some x =>
    let saved := match Map.get? s.coreGroups (qk / 4) with
      | some c => c.saved
      | none => true
    if x.st != .run || x.pass.isSome || saved then s
    else if x.pc.toNat % 8 ≠ 0 then sliceStop s qk (faultOf 0 0 0 0) x.pc
    else match fetchClause s (sliceWho s qk) [quadCore s qk] x.pc true with
      | (.bad head, s) => sliceStop s qk (faultOf 0 0 head 0) x.pc
      | (.fault f _ _, s) => sliceFault s qk false f
      | (.ok h ws, s) => modSlice s qk (fun x => { x with pass := some ⟨x.pc, h.cls, ws, 0⟩ })

/-- CLAUSE_ENTRY. -/
def execClauseEntry (e : EntryAt) (s : State) : Out :=
  .next (match e with
    | .threads core quad hdr => enterThreads s core quad hdr
    | .slice qk => enterSlice s qk)

/-! ## The wait of R141 -/

/-- The queues a mask names. -/
def maskQueues (m : Byte) : List Nat := (List.range 8).filter (fun i => m.getLsbD i)

/-- A group held at slot 0 by WAIT: a queue that cannot become ready faults every thread; else it goes on when each
oldest entry is ready. -/
def clauseWaitStep (s : State) (gid : Nat) (g : Group) (m : Byte) : State :=
  let heads := (maskQueues m).map (fun q => (q, queueHead s (groupQuad s g) q))
  match heads.findSome? (fun h => match h.2 with
    | .fault r => some (queueFault r h.1 0)
    | _ => none) with
  | some f => faultAll s gid g g.members (fun _ => f)
  | none =>
    if heads.all (fun h => match h.2 with
      | .entry _ => true
      | _ => false) then setHold s gid .none else s

/-! ## ILLEGAL_INSTRUCTION (R157) -/

def IllReason.code : IllReason → Nat
  | .header => 0 | .klass => 1 | .unassigned => 2 | .memCode => 3 | .reserved => 4 | .register => 5

/-- The trap of a word that is no legal instruction: every member takes it whatever its guard; an instance stops. -/
def execIllegalInstruction (r : IllReason) (w : DWord) (s : State) : Out :=
  let f := faultOf 0 (IllReason.code r) w 0
  .next (match s.cur with
    | .slice _ => sliceOp (fun qk _ p s => sliceStop s qk f (slotPc p)) s
    | _ => match curGroup s with
      | none => s
      | some (gid, g) => faultAll s gid g g.members (fun _ => f))

end Sys2Proof.Machine
end

