-- ==== Sys2Proof/Machine/Errors.lean ====
section
/-! DEFINITION. Errors, fencing, voltages, partitions and keys (R274, R302, R321-R323, R344-R347). -/

namespace Sys2Proof.Machine

/-! ## Lost lines (R322) -/

/-- Whether a line has a copy dirtier than its memory: in a cache, as partials, or in a stash. -/
def lineDirty (s : State) (line : Nat) : Bool :=
  (Map.get? s.mem.dirty line).isSome || s.mem.partials.any (fun p => lineOf p.pa == line)
    || s.coreGroups.any (fun e => e.2.slines.any (fun l => l.2.line == line && l.2.dirty))

def inPool (m : MemSys) (a : Nat) : Bool := m.windows.any (fun w => decide (w.2.base ≤ a ∧ a < w.2.base + w.2.size))

/-! ## Storage with an uncorrectable error (R321) -/

def addOnce (n : Nat) (l : List Nat) : List Nat := if l.contains n then l else n :: l

/-- A storage cell has an uncorrectable error: what reads it takes class 14 until it is written. -/
def storageError (at_ : ErrAt) (s : State) : State :=
  match at_ with
  | .line _ => s
  | .register k n => modThread s k (fun t => if n < 512 then { t with bad := addOnce n t.bad } else t)
  | .row wk n => modWarp s wk (fun w => if n < 256 then { w with badRows := addOnce n w.badRows } else w)
  | .entry qk q n => modQueue s qk q (fun u => match u.entries[n]? with
    | some e => { u with entries := u.entries.set n { e with bad := true } }
    | none => u)
  | .scratch ck w => if 4 * w < scratchSize s (ck / 8) then modCore s ck (fun c => { c with badWords := addOnce w c.badWords }) else s
  | .stash ck i => modCore s ck (fun c => { c with slines := Map.adjust c.slines i (fun l => { l with bad := true }) })

/-- UNCORRECTABLE_LINE_ERROR: a dirty line is lost, or a pool line whose device indicates poison (R357). An error in a
clean line is corrected by refetch (R321). An error in another storage cell is found by what reads it. -/
def execUncorrectableLineError (at_ : ErrAt) (s : State) : Out :=
  .next (match at_ with
    | .line n => if lineDirty s n || inPool s.mem (n * 128) then loseLine s n (lineOwner s n) else s
    | _ => storageError at_ s)

/-! ## Voltages (R346, R347) -/

/-- The partition that a cluster belongs to. -/
def clusterOwner (s : State) (c : Nat) : Option Nat := (List.range 4).find? (fun p => clusterIn (partOf s p).clumask c)

/-- Voltage of a point in mV (Table 21-4). -/
def pointVolt (p : BitVec 3) : Nat := [650, 680, 710, 740, 770, 800, 840, 880].getD p.toNat 0

/-- A cluster's target: the voltage of its point, or of the running ramp's, with the canary steps. -/
def targetVolt (x : Island) : Nat := pointVolt (match x.ramp with
  | some (r, _) => r
  | none => x.cur) + 5 * x.canofs

/-- The set voltage of regulator r: the highest target of the clusters of its partition (R347). -/
def regVolt (s : State) (r : Nat) : Nat :=
  ((List.range 4).filter (fun p => (partOf s p).regulator.toNat == r)).foldl (fun m p =>
    (List.range 128).foldl (fun m c => if clusterIn (partOf s p).clumask c then max m (targetVolt (islandOf s c)) else m) m) 0

/-- The voltage a cluster settles at: its target, but no more than 60 mV below its regulator; 0 while it is unpowered. -/
def steadyVolt (s : State) (c : Nat) : Nat :=
  match clusterOwner s c with
  | none => 0
  | some p => max (targetVolt (islandOf s c)) (regVolt s (partOf s p).regulator.toNat - 60)

/-- Clusters without a running ramp stand at the voltage they settle at. -/
def settleVolts (s : State) : State :=
  (List.range 128).foldl (fun t c =>
    if (islandOf s c).ramp.isSome && (clusterOwner s c).isSome then t else setIsland t c (fun x => { x with volt := steadyVolt s c })) s

/-! ## Fencing (R323, Table 18-8) -/

/-- KIND 6. -/
def postFence (s : State) (p unit cause1 : Nat) : State := postEvent s p (domeSrc p) 6 0 0 (d64 unit) (d64 cause1) 0

/-- The members of an entry that belong to a cluster group exit as by FDISC, with KIND 4: the entry goes with its last one; others
stay in it (R26). -/
def discardMembers (s : State) (cgu fk : Nat) : State :=
  let x := fragEntry s fk
  let ms := fragMembers s x.id
  let mine := ms.filter (fun e => e.2.cgu == cgu)
  if mine.length == ms.length then exitMembers (fdiscEntry s fk) x.id
  else match mine with
    | [] => s
    | (k, t) :: r =>
      let ks := k :: r.map (·.1)
      rteCheck (ks.foldl discardThread (postEvent s x.part (w32 (fk / 64)) 4 x.cause 0 (d64 x.id.toNat) ((laneMask s ks).setWidth 64)
        (d64 t.cg))) x.id

/-- The threads of a cluster group exit as by FDISC: KIND 4 for each fragment, and for the other threads of each warp. -/
def discardGroup (s : State) (cgu : Nat) : State :=
  match Map.get? s.clusterGroups cgu with
  | none => s
  | some g =>
    if g.st == .filling then setCgSt (freeGroup s cgu) cgu .compl
    else
      let s := (s.frags.filter (fun e => e.2.st != .free
        && (e.2.warp / 1024 == cgu || (fragMembers s e.2.id).any (fun m => m.2.cgu == cgu)))).foldl (fun s e => discardMembers s cgu e.1) s
      let s := (s.warps.filter (fun e => e.2.cgu == cgu)).foldl (fun s e =>
        match (warpThreads s e.1).filter (fun m => m.2.st != .leaving) with
        | [] => s
        | (k, t) :: r =>
          let ks := k :: r.map (·.1)
          let s := postEvent s g.part (w32 (coreOf s t)) 4 0 0 0 ((laneMask s ks).setWidth 64) (d64 t.cg)
          ks.foldl discardThread s) s
      setPart s g.part (fun q => { q with images := q.images.filter (fun i => i.warp / 1024 != cgu) })

/-- The cluster groups with a thread on a cluster, or whose tiles are being filled there. -/
def groupsOn (s : State) (c : Nat) : List Nat :=
  (s.clusterGroups.filter (fun e => s.coreGroups.any (fun x => x.2.cgu == e.1 && x.2.core / 4 == c && !x.2.saved
    && (e.2.st == .filling || s.threads.any (fun t => coreKeyOf t.2 == x.1))))).map (·.1)

/-- A cluster is fenced: its groups are discarded. -/
def fenceCluster (s : State) (c : Nat) : State :=
  (groupsOn s c).foldl discardGroup (setIsland s c (fun x => { x with fenced := true }))

/-- The lines that the directory shows a die holding exclusive, dirty or update-only. -/
def dieLost (s : State) (d : Nat) : List Nat :=
  ((s.mem.l1.filter (fun e => l1Core e.1 / 64 == d && e.2.st != .shared)).map (fun e => l1Line e.1)
    ++ (s.mem.partials.filter (fun p => p.core / 64 == d)).map (fun p => lineOf p.pa)
    ++ (s.coreGroups.filter (fun e => e.2.core / 64 == d)).flatMap (fun e => (e.2.slines.filter (fun l => l.2.dirty)).map (fun l => l.2.line))).eraseDups

/-- A line whose only good copy is gone: its partials with it, the frame withdrawn. -/
def dropLost (s : State) (l : Nat) : State :=
  loseLine { s with mem := { s.mem with partials := s.mem.partials.filter (fun p => lineOf p.pa != l), dirty := Map.erase s.mem.dirty l } }
    l (lineOwner s l)

/-- Settle the lines of a fenced die (R345): clean copies are dropped, exclusive, dirty and update-only lines withdrawn. -/
def settleDie (s : State) (d : Nat) : State :=
  let s := (dieLost s d).foldl dropLost s
  { s with
    mem := { s.mem with l1 := s.mem.l1.filter (fun e => l1Core e.1 / 64 != d) },
    coreGroups := s.coreGroups.map (fun e => if e.2.core / 64 == d then (e.1, { e.2 with slines := [] }) else e) }

/-- A Spire die is fenced, with each of its clusters; its lines are settled, its held snoops end; KIND 6 goes to every partition
with a cluster on it. -/
def fenceDie (s : State) (d arg1 : Nat) : State :=
  let ps := (List.range 4).filter (fun p => (dieClusters d).any (clusterIn (partOf s p).clumask))
  let s := setDie (settleDie s d) d (fun x => { x with fenced := true, waking := false, asleep := false })
  let s := ps.foldl (fun s p => postFence s p (0x100 + d) arg1) s
  wakeWaiters ((dieClusters d).foldl fenceCluster s)

/-- A stack port is fenced: its lines are withdrawn, with KIND 5 for each dirty one. -/
def fencePort (s : State) (x : Nat) : State :=
  let lost := ((s.mem.dirty.map (·.1) ++ s.mem.partials.map (fun p => lineOf p.pa)).eraseDups).filter (fun l => portOf (l * 128) == x)
  let s := { s with mem := { s.mem with portsOut := if s.mem.portsOut.contains x then s.mem.portsOut else x :: s.mem.portsOut } }
  let s := (List.range 4).foldl (fun s p => postFence s p (0x200 + x) 0) s
  lost.foldl (fun s l => match lineOwner s l with
    | some p => postEvent s p (domeSrc p) 5 14 3 (d64 (l * 128)) 3 0
    | none => s) s

/-- EW_STAT of a link: up, fenced, peer. -/
def linkOf (s : State) (l : Nat) : Bool × Bool × BitVec 19 := Map.get (false, false, 0) s.host.links l

/-- An Eweven link is fenced (R360). -/
def fenceLink (s : State) (l : Nat) : State :=
  let (up, _, peer) := linkOf s l
  let s := { s with host := { s.host with links := Map.put s.host.links l (up, true, peer) } }
  (List.range 4).foldl (fun s p => postFence s p (0x300 + l) 0) s

/-- FUNCTION_FENCE, by unit code; a unit that does not exist is none. -/
def execFunctionFence (unit : Nat) (s : State) : Out :=
  .next (
    if unit < 128 then
      let s := match clusterOwner s unit with
        | some p => postFence s p unit 0
        | none => s
      fenceCluster s unit
    else if 0x100 ≤ unit ∧ unit < 0x108 then fenceDie s (unit - 0x100) 0
    else if 0x200 ≤ unit ∧ unit < 0x208 then fencePort s (unit - 0x200)
    else if 0x300 ≤ unit ∧ unit < 0x30C then fenceLink s (unit - 0x300)
    else s)

/-! ## A dead die (R345) -/

/-- DIE_UNRESPONSIVE: fenced with ARG1 1. -/
def execDieUnresponsive (d : Nat) (s : State) : Out :=
  .next (if 8 ≤ d || (dieOf s d).fenced then s else fenceDie s d 1)

/-! ## Links of the package (R344) -/

/-- LINK_SLEEP: a link idle for 20 µs. -/
def execLinkSleep (d : Nat) (s : State) : Out :=
  .next (if 8 ≤ d || (dieOf s d).fenced then s else setDie s d (fun x => { x with asleep := true }))

/-- LINK_WAKE_DONE: the link works again. Where a snoop was held for it the hold ends, which LWAKE counts, and the snoop is
answered. -/
def execLinkWakeDone (d : Nat) (s : State) : Out :=
  .next (if 8 ≤ d || !(dieOf s d).asleep then s
    else wakeWaiters (setDie s d (fun x => { x with
      asleep := false, waking := false, slow := if x.waking then false else x.slow,
      lwake := if x.waking && x.lwake != BitVec.allOnes 24 then x.lwake + 1 else x.lwake })))

/-- SNOOP_SLOW: 4 µs without an answer; a sleeping link is then waking, since a snoop was sent to it. -/
def execSnoopSlow (d : Nat) (s : State) : Out :=
  .next (if 8 ≤ d || (dieOf s d).fenced then s else setDie s d (fun x => { x with slow := true, waking := x.asleep }))

/-! ## Key slots (R302) -/

/-- Write back and drop every cached line held under a key slot, also in the instruction caches. -/
def flushKey (s : State) (k : Nat) : State :=
  let lines := (s.mem.keyOf.filter (fun e => e.2 == k)).map (·.1)
  let s := lines.foldl (fun s l => answered s none l true) s
  let m := dropOld (lines.foldl combineLine s.mem) lines.contains
  { s with
    mem := { m with dirty := m.dirty.filter (fun e => !lines.contains e.1), l1 := m.l1.filter (fun e => !lines.contains (l1Line e.1)),
                    l2 := m.l2.filter (fun e => !lines.contains e.1) },
    coreGroups := s.coreGroups.map (fun e => (e.1, { e.2 with slines := e.2.slines.filter (fun l => !lines.contains l.2.line) })) }

def setKey (s : State) (k : Nat) (f : KeySlot → KeySlot) : State :=
  { s with mem := { s.mem with keys := Map.putD KeySlot.empty s.mem.keys k (f (Map.get KeySlot.empty s.mem.keys k)) } }

/-- A slot is loaded with a new key: lines under the old one are readable under no slot. -/
def loadKey (s : State) (k : Nat) : State :=
  let s := flushKey s k
  let old := nameOf s.mem k
  setKey { s with fresh := s.fresh + 1,
                  mem := { s.mem with keyOf := s.mem.keyOf.map (fun e => if e.2 == k then (e.1, old) else e),
                                      keyNames := Map.put s.mem.keyNames k (2048 * (s.fresh + 1) + k) } }
    k (fun x => { x with loaded := true })

/-- Whether a held write is an access under a key slot, still to take effect. -/
def underKey (k : Nat) (h : Held) : Bool := h.isLive && (match h.loc with
  | .phys _ key _ => key == k
  | .scr _ _ => false)

/-- The fault of an access whose key slot has been emptied: class 2, reason 4. -/
def keyFault (h : Held) : FInfo := match h.via with
  | some v => xFault 2 4 v.va v.kind 0
  | none => xFault 2 4 (d64 (locPa h.loc)) .write 0

/-- A slot is emptied: its lines are written back and dropped, and the accesses in flight under it fault. -/
def emptyKey (s : State) (k : Nat) : State :=
  everyHeld (fun s h => heldFault s h (keyFault h)) (underKey k) (setKey (flushKey s k) k (fun _ => KeySlot.empty))

/-- A die that must give up a line held under a key slot before the slot changes (R302, R344). -/
def keySilent (s : State) (k : Nat) : Option Nat :=
  (s.mem.keyOf.filter (fun e => e.2 == k)).findSome? (fun e => silentDie s none e.1 true)

/-- A change of a slot's key, once every die has given up the lines held under it. -/
def keyChange (s : State) (k : Nat) (f : State → State) : State := match keySilent s k with
  | some d => wakeDie s d
  | none => f s

/-- KEY_SLOT_CHANGE: load a new key, assign the slot, or empty it. -/
def execKeySlotChange (k : Nat) (op : KeyOp) (s : State) : Out :=
  .next (if 2048 ≤ k then s
    else match op with
      | .load => keyChange s k (fun s => loadKey s k)
      | .assign p => if p < 4 then setKey s k (fun x => { x with owner := some p }) else s
      | .empty => keyChange s k (fun s => emptyKey s k))

/-! ## Partitions (R274) -/

/-- Whether a cluster holds a thread of a partition, resident or saved, or a group of it that is about to start. -/
def clusterBusy (s : State) (p c : Nat) : Bool :=
  s.threads.any (fun e => threadPart s e.2 == p && coreOf s e.2 / 4 == c)
    || s.coreGroups.any (fun e => e.2.core / 4 == c && cgPart s e.2.cgu == p
      && (match Map.get? s.clusterGroups e.2.cgu with
        | some g => g.st == .filling
        | none => false))

/-- The regulators that no other partition with clusters owns. -/
def freeRegulators (s : State) (p : Nat) : List Nat :=
  (List.range 4).filter (fun r => !(List.range 4).any (fun q => q != p && (partOf s q).clumask != 0 && (partOf s q).regulator.toNat == r))

/-- Slot 0 of a partition's assignment: the lowest slot assigned to it (log 90). -/
def firstKey (s : State) (p : Nat) : Option Nat := (s.mem.keys.find? (fun e => e.2.owner == some p)).map (·.1)

/-- What the management controller sets as a partition is created, which the manual leaves open: the one regulator it owns, which
no other partition has, and which queues may take privileged records; slot 0 of its key assignment is loaded (R302). -/
def createPart (s : State) (p : Nat) : State :=
  let (w, s) := drawWord s
  let rs := freeRegulators s p
  let s := setPart s p (fun q => { q with
    regulator := BitVec.ofNat 2 (rs.getD (w.toNat / 2 ^ 16 % rs.length) 0),
    lqs := (List.range 16).foldl (fun m n =>
      let x := Map.get LQueue.reset m n
      Map.putD LQueue.reset m n { x with cfg := (x.cfg &&& ~~~0x200) ||| (if w.getLsbD n then 0x200 else 0) }) q.lqs })
  match firstKey s p with
  | some k => loadKey s k
  | none => s

/-- Clusters that leave a partition are unpowered: no current, no filler. -/
def powerOff (s : State) (lost : BitVec 128) : State :=
  (List.range 128).foldl (fun s c => if clusterIn lost c then setIsland s c (fun x => { x with level := 0 }) else s) s

/-- A die that the creation of a partition waits for: it loads the partition's first key slot. -/
def createAsks (s : State) (p : Nat) : Option Nat := (firstKey s p).bind (keySilent s)

/-- PARTITION_CHANGE: refused in minimal mode, where no cluster has power (R362; DEDUCED, log 122), while a cluster that leaves
holds threads, saved warps or uncompleted jobs of the partition, while filler runs on a cluster that changes (R351), or when a cluster
would belong to two. -/
def execPartitionChange (p : Nat) (mask : BitVec 128) (s : State) : Out :=
  .next (
    let old := (partOf s p).clumask
    let lost := old &&& ~~~mask
    let taken := (List.range 4).any (fun q => q != p && (partOf s q).clumask &&& mask != 0)
    let busy := lost != 0 && ((partOf s p).jobs.any (fun e => e.2.st != .landed)
      || (List.range 128).any (fun c => clusterIn lost c && clusterBusy s p c))
    let filling := (List.range 128).any (fun c => clusterIn (old ^^^ mask) c && (islandOf s c).decline.isSome)
    let made := old = 0 && mask != 0
    if 4 ≤ p || s.boot.mode == 3 || taken || busy || filling then s
    else match (if made then createAsks s p else none) with
    | some d => wakeDie s d
    | none =>
      let s := powerOff (setPart s p (fun q => { q with clumask := mask })) lost
      settleVolts (if made then createPart s p else s))

end Sys2Proof.Machine
end

