-- ==== Sys2Proof/Machine/Power.lean ====
section
/-! DEFINITION. The package block (R339-R352): combining and crossing counts, congestion, operating points, canaries,
current slope and energy. -/

namespace Sys2Proof.Machine

def setPkg (s : State) (f : Package → Package) : State := { s with pkg := f s.pkg }

/-! ## Counters (R342, R343) -/

/-- A combining entry of a slice and line that may close: 64 clocks after it opened, its data being present. -/
def closes (s : State) (slice line : Nat) (e : Comb) : Bool :=
  e.slice == slice && e.line == line && decide (64 ≤ (s.clock - e.since).toNat)

/-- COMBINING_CLOSE: the oldest such entry closes, and one multicast reply answers the reads joined; each reply saved is
counted. -/
def execCombiningClose (slice line : Nat) (s : State) : Out :=
  .next (match s.pkg.combs.find? (closes s slice line) with
    | none => s
    | some e => setPkg s (fun k => { k with combs := k.combs.erase e, combCnt := k.combCnt + d64 (e.joined.length - 1) }))

/-- No core keeps a copy of a line, in an L1 or a stash. -/
def noCopies (s : State) (line : Nat) : State :=
  dropStash { s with mem := { s.mem with l1 := s.mem.l1.filter (fun e => l1Line e.1 != line) } } line none

/-- SNOOP_WRITEBACK_CROSSING: the home takes the write-back as the snoop's answer, so that the line is no longer dirty in a core,
and the core keeps no copy; a flush of partials is applied once. The home writes what it takes through to memory, so that the line
is dirty nowhere (DESIGN CHOICE, log 113). -/
def execSnoopWritebackCrossing (line : Nat) (_inval : Bool) (s : State) : Out :=
  .next (if !lineDirty s line then s
    else
      let s := answered s none line true
      let m := combineLine s.mem line
      setPkg (noCopies { s with mem := { m with dirty := Map.erase m.dirty line } } line) (fun k => { k with crossCnt := k.crossCnt + 1 }))

/-! ## Congestion (R341) -/

def congHi (k : Package) : Nat := k.congCfg.toNat % 256
def congLo (k : Package) : Nat := k.congCfg.toNat / 256 % 256

/-- SECTOR_THROTTLE: CUR reaches HI, or falls to LO or below. -/
def execSectorThrottle (x : Nat) (cur : BitVec 8) (s : State) : Out :=
  .next (if 16 ≤ x then s
    else setPkg s (fun k =>
      let old := Map.get Sector.reset k.sectors x
      let t := if congHi k ≤ cur.toNat then true else if cur.toNat ≤ congLo k then false else old.throttled
      { k with sectors := Map.putD Sector.reset k.sectors x ⟨cur, t⟩ }))

/-! ## Operating points (R346-R349, Tables 21-4 and 21-5) -/

/-- A request in the steady state. -/
def steadyRequest (q : BitVec 3) (x : Island) : Island :=
  if q = x.cur then x
  else if pointVolt x.cur < pointVolt q then { x with ramp := some (q, true) }
  else { x with cur := q, ramp := some (q, false) }

/-- A request arrives (Table 21-5). -/
def pointRequest (q : BitVec 3) (x : Island) : Island :=
  match x.ramp with
  | none => steadyRequest q x
  | some (r, true) => if pointVolt r < pointVolt q then { x with ramp := some (q, true), pend := none } else { x with pend := some q }
  | some (_, false) => { x with pend := some q }

/-- A ramp ends at its point, and a pending request is served. -/
def rampDone (x : Island) : Island :=
  match x.ramp with
  | none => x
  | some (r, _) =>
    let x := { x with cur := r, ramp := none }
    match x.pend with
    | none => x
    | some q => steadyRequest q { x with pend := none }

/-- Whether a view shows a cluster (R352). -/
def inView (s : State) (c : Nat) : PowerView → Bool
  | .physical => decide (c < 128)
  | .virtual p => decide (c < 128 ∧ p < 4) && clusterIn (partOf s p).clumask c

def cluReq (s : State) (c : Nat) (v : Word) (view : PowerView) : State :=
  if inView s c view && v.toNat < 8 then
    setIsland s c (fun x => { pointRequest (BitVec.ofNat 3 v.toNat) x with req := BitVec.ofNat 3 v.toNat })
  else s

/-- RAMP_END: the cluster's voltage, and what follows its regulator, stand at their targets. -/
def execRampEnd (c : Nat) (s : State) : Out := .next (if c < 128 then settleVolts (setIsland s c rampDone) else s)

/-- A canary warning (R349): CANOFS rises by 1 up to 6; at 6 it is a request for the point below the current one, which leaves the
point that CLU_REQ shows as it was; at point 0, below which there is none, it is no request (DESIGN CHOICE, log 112). -/
def canaryUp (x : Island) : Island :=
  let x := { x with cancnt := if x.cancnt = BitVec.allOnes 12 then x.cancnt else x.cancnt + 1 }
  if x.canofs < 6 then { x with canofs := x.canofs + 1 }
  else if x.cur = 0 then x
  else pointRequest (x.cur - 1) x

def execCanaryWarning (c : Nat) (s : State) : Out := .next (if c < 128 then settleVolts (setIsland s c canaryUp) else s)

/-- 10 ms without a warning. -/
def execCanofsDecay (c : Nat) (s : State) : Out :=
  .next (if c < 128 then settleVolts (setIsland s c (fun x => { x with canofs := x.canofs - 1 })) else s)

/-! ## Energy (R350, R351) -/

def addTo (m : Map DWord) (p n : Nat) : Map DWord := Map.putD 0 m p (Map.get 0 m p + d64 n)

/-- The slope controller after 0.1 µs in which real work drew `cur` tenths of a mA: the current it holds, which declines by no
more than SLOPE allows, and whom the filler of a decline is charged to: the partition whose threads last ran on the cluster
before it began. -/
def slopeStep (slope cur p : Nat) (x : Island) : Island :=
  if x.level ≤ cur + slope then { x with level := cur, decline := none }
  else { x with level := x.level - slope, decline := some (x.decline.getD (x.last.getD p)) }

/-- SLOPE_TICK: `energy` and the draw's current (mA) are those of the cluster's real work, charged to its own partition; the draw's
`filler` is the energy of the filler operations, if the controller issues some. Filler has no other effect. An unpowered cluster has none. -/
def execSlopeTick (c energy : Nat) (draw : SlopeDraw) (s : State) : Out :=
  .next (match clusterOwner s c with
    | none => s
    | some p =>
      let x := slopeStep s.pkg.slope.toNat (10 * draw.current) p (islandOf s c)
      let s := setPkg (setIsland s c (fun _ => x)) (fun k => { k with energy := addTo k.energy p energy })
      match x.decline with
      | none => s
      | some q => setPkg s (fun k => { k with energy := addTo k.energy q draw.filler, filler := addTo k.filler q draw.filler }))

/-! ## What the block's registers read (Tables 21-7 and 21-8) -/

/-- Trim steps of a cluster: 5 mV each, at most 12. -/
def trimSteps (s : State) (c : Nat) : Nat :=
  match clusterOwner s c with
  | none => 0
  | some p => min 12 ((regVolt s (partOf s p).regulator.toNat - targetVolt (islandOf s c)) / 5)

def cluStat (s : State) (c : Nat) : Word :=
  let x := islandOf s c
  w32 (x.cancnt.toNat * 2 ^ 20 + x.canofs * 2 ^ 16 + trimSteps s c * 2 ^ 12 + bnum x.pend.isSome * 2 ^ 9 + bnum x.ramp.isSome * 2 ^ 8
    + (x.pend.getD 0).toNat * 16 + x.cur.toNat)

def dieStat (s : State) (d : Nat) : Word :=
  let x := dieOf s d
  w32 (bnum x.fenced * 2 ^ 31 + bnum x.waking * 2 ^ 30 + bnum x.slow * 2 ^ 29 + x.lwake.toNat)

/-- A write of CONG_CFG: MBR 1-255, HI above LO. -/
def congWrite (v : Word) (k : Package) : Package :=
  let n := v.toNat
  if n / 2 ^ 24 = 0 ∧ n / 2 ^ 16 % 256 ≠ 0 ∧ n / 256 % 256 < n % 256 then { k with congCfg := v } else k

/-- A write of SLOPE: 10-1,000. -/
def slopeWrite (v : Word) (k : Package) : Package := if 10 ≤ v.toNat ∧ v.toNat ≤ 1000 then { k with slope := v } else k

/-- A register of the package block by its offset, 64-bit ones whole; every register stands at a multiple of 8. -/
def packageReg (s : State) (o : Nat) : DWord :=
  let k := s.pkg
  if o % 8 ≠ 0 then 0
  else if 0x100 ≤ o ∧ o < 0x180 then (Map.get Sector.reset k.sectors ((o - 0x100) / 8)).cur.setWidth 64
  else if o = 0x180 then k.congCfg.setWidth 64
  else if 0x200 ≤ o ∧ o < 0x240 then (dieStat s ((o - 0x200) / 8)).setWidth 64
  else if o = 0x300 then k.combCnt
  else if o = 0x308 then k.crossCnt
  else if 0x400 ≤ o ∧ o < 0x420 then d64 (regVolt s ((o - 0x400) / 8))
  else if 0x800 ≤ o ∧ o < 0xC00 then (islandOf s ((o - 0x800) / 8)).req.setWidth 64
  else if 0xC00 ≤ o ∧ o < 0x1000 then (cluStat s ((o - 0xC00) / 8)).setWidth 64
  else if 0x1000 ≤ o ∧ o < 0x1020 then Map.get 0 k.energy ((o - 0x1000) / 8)
  else if 0x1020 ≤ o ∧ o < 0x1040 then Map.get 0 k.filler ((o - 0x1020) / 8)
  else if o = 0x1040 then k.slope.setWidth 64
  else 0

/-- Number of clusters of a partition. -/
def clusterCount (s : State) (p : Nat) : Nat := ((List.range 128).filter (clusterIn (partOf s p).clumask)).length

/-- A register of partition p's power page (Table 21-8). -/
def powerPageReg (s : State) (p o : Nat) : DWord :=
  if o = 0 then Map.get 0 s.pkg.energy p
  else if o = 8 then Map.get 0 s.pkg.filler p
  else if o = 0x10 then d64 (clusterCount s p)
  else if 0x800 ≤ o ∧ o < 0x1000 ∧ o % 8 = 0 then
    if clusterIn (partOf s p).clumask (o % 0x400 / 8) then packageReg s o else 0
  else 0

end Sys2Proof.Machine
end

