-- ==== Sys2Proof/Machine/Boot.lean ====
section
/-! DEFINITION. Start-up and recovery (R361, R362), and SPDM over the DOE mailbox (R363). -/

namespace Sys2Proof.Machine

def setBoot (s : State) (f : Boot → Boot) : State := { s with boot := f s.boot }

/-! ## Verifying an image -/

/-- The REASON for which the ROM rejects an image, or its security version. A header that states more bytes than there
are, or states none, is malformed. -/
def checkImage (img : List Byte) : Except Nat (BitVec 16) :=
  match Config.imageHeader img with
  | none => .error 3
  | some (n, v) =>
    if img.length < n then .error 3
    else if !Config.signatureValid img then .error 1
    else if v < Config.minSvn then .error 2
    else .ok v

/-- A failed start: FAILS counts it, and the ROM has the Dome die again. -/
def startFailed (reason : Nat) (b : Boot) : Boot :=
  { b with mode := 0, reason := BitVec.ofNat 8 reason, cause := BitVec.ofNat 8 reason, fails := if b.fails = 3 then 3 else b.fails + 1 }

/-- SVN[31:16] once the ROM has read an image: the version its header states. -/
def imageSvn (img : List Byte) (old : BitVec 16) : BitVec 16 := match Config.imageHeader img with
  | some (_, v) => v
  | none => old

/-- The ROM's part of a start (R361, R362): minimal mode with FAILS at 3, where REASON holds the cause of the last failure; else the
image is read, verified and run. -/
def romStart (readable : Bool) (b : Boot) : Boot :=
  if b.fails = 3 then { b with mode := 3, reason := b.cause }
  else if !readable || b.flash.isEmpty then startFailed 7 b
  else
    let b := { b with svn := imageSvn b.flash b.svn }
    match checkImage b.flash with
    | .error r => startFailed r b
    | .ok _ => { b with mode := 1 }

/-- What the memories hold after a start, of which no rule speaks: what they held, with every line written back; since no slot holds
its key any more, under none of them (DESIGN CHOICE, log 115). -/
def startMem (fresh : Nat) (m0 : MemSys) : MemSys :=
  let m := ((m0.partials.map (fun p => lineOf p.pa)).eraseDups).foldl combineLine m0
  let ks := ((m.keyOf.map (·.2)).filter (fun k => decide (k < 2048))).eraseDups
  { MemSys.reset with
    bytes := m.bytes, cipher := m.cipher, keyOf := m.keyOf.map (fun e => (e.1, nameOf m e.2)),
    keyNames := ks.foldl (fun n k => Map.put n k (2048 * (fresh + 1) + k)) m.keyNames }

/-- What outlives a start in the boot block: FAILS with the last failure's cause, REASON, the flash, and the version last read. -/
def startBoot (b : Boot) : Boot :=
  { Boot.reset with fails := b.fails, flash := b.flash, reason := b.reason, cause := b.cause, svn := b.svn }

/-- DEVICE_START (R361): a start, cold or by host reset. All but what the boot block keeps and the memories hold is at its
reset value. Whether the flash can be read is open. -/
def execDeviceStart (s : State) : Out :=
  .next { State.reset with
    agenda := s.agenda, fresh := s.fresh + 1, mem := startMem s.fresh s.mem,
    boot := romStart (Config.flashReadable s.fresh) (startBoot s.boot) }

/-- FIRMWARE_TIMEOUT (R361): MODE is not 2 within 5 s. -/
def execFirmwareTimeout (s : State) : Out := .next (if s.boot.mode = 1 then setBoot s (startFailed 4) else s)

/-- What the management controller sets while the firmware starts, its values left open: HOST_KEY, the links that came up
with their peers, and the windows opened for remote copies (R354, R359, R360). -/
def trainedPort (f : Nat) (h : HostPort) : HostPort :=
  let link (l : Nat) : Bool × Bool × BitVec 19 := (Config.freeBool (f + 1 + l), false, (Config.freeWord (f + 1 + l)).setWidth 19)
  { h with
    hostKey := (Config.freeWord f).toNat % 2048,
    links := (List.range 12).map (fun l => (l, link l)) }

def trainedWindows (f : Nat) : Map InWindow :=
  (List.range 16).filterMap (fun w =>
    let g := f + 16 + 4 * w
    if Config.freeBool g then
      some (w, ⟨(Config.freeWord g).toNat * 4096, (Config.freeWord (g + 1)).toNat * 4096, (Config.freeWord (g + 2)).toNat % 2048,
        (Config.freeWord (g + 3)).setWidth 19⟩)
    else none)

/-- FIRMWARE_START_END (R361): MODE 2 and FAILS 0, or a failed start. -/
def execFirmwareStartEnd (e : StartEnd) (s : State) : Out :=
  .next (if s.boot.mode ≠ 1 then s
    else match e with
      | .ready =>
        let s := setBoot s (fun b => { b with mode := 2, fails := 0, reason := 0 })
        { s with host := trainedPort s.fresh s.host, mem := { s.mem with inWindows := trainedWindows s.fresh }, fresh := s.fresh + 80 }
      | .fatal => setBoot s (startFailed 5)
      | .trainingFailed => setBoot s (startFailed 6))

/-! ## Recovery (R362) -/

def bootCommit (v : Word) (b : Boot) : Boot := if v = 1 ∧ b.mode = 3 ∧ b.busy = false then { b with busy := true } else b

/-- BOOT_CMD_COMMIT. -/
def execBootCmdCommit (v : Word) (s : State) : Out := .next (setBoot s (bootCommit v))

/-- The image in the recovery window. -/
def recoveryImage (b : Boot) : List Byte := (List.range b.recLen.toNat).map (fun i => Map.get 0 b.recovery i)

/-- REC_LEN, then the image: the REASON of a refusal, or the image. -/
def checkRecovery (b : Boot) : Except Nat (List Byte) :=
  if b.recLen = 0 ∨ 2 ^ 24 < b.recLen.toNat then .error 3
  else match checkImage (recoveryImage b) with
    | .error r => .error r
    | .ok _ => .ok (recoveryImage b)

/-- RECOVERY_VERIFY_DONE: a valid image is written to flash, FAILS is 0 and the device restarts; else REASON is set and it
stays in minimal mode. -/
def execRecoveryVerifyDone (s : State) : Out :=
  .next (if s.boot.mode = 3 ∧ s.boot.busy = true then
      setBoot s (fun b => match checkRecovery b with
        | .error r => { b with busy := false, reason := BitVec.ofNat 8 r }
        | .ok img => { b with busy := false, flash := img, fails := 0, mode := 0 })
    else s)

/-! ## SPDM (R363) -/

def reply (s : State) (r : Reply) : Out := .next (setBoot s (fun b => { b with doe := r }))

/-- SPDM 1.3. -/
def execGetVersion (s : State) : Out := reply s (.version 1 3)

def execGetCapabilities (s : State) : Out := reply s (.capabilities Config.spdmCapabilities)

def execNegotiateAlgorithms (s : State) : Out := reply s (.algorithms "ECDSA P-384" "SHA-384")

/-- The digest of slot 0's chain, the only slot. -/
def execGetDigests (s : State) : Out := reply s (.digests 0 (Config.sha384 Config.certChain))

def execGetCertificate (slot : Nat) (s : State) : Out :=
  reply s (if slot = 0 then .certificate 0 Config.certChain else .error)

def execChallenge (slot : Nat) (nonce : List Byte) (s : State) : Out :=
  reply s (if slot = 0 then .challengeAuth 0 (Config.sha384 Config.certChain) (Config.deviceSign nonce) else .error)

/-- The partition map and the key-slot assignment, as measured. -/
def mapBytes (s : State) : List Byte :=
  (List.range 4).flatMap (fun p => leBytes 16 (partOf s p).clumask.toNat)
    ++ s.mem.keys.flatMap (fun e => leBytes 2 e.1 ++ [BitVec.ofNat 8 (bnum e.2.loaded), BitVec.ofNat 8 (e.2.owner.getD 255)])

def svnBytes (b : Boot) : List Byte := leBytes 2 b.svn.toNat

/-- A measurement block (Table 22-9). -/
def measurement (s : State) (i : Nat) : BitVec 384 :=
  match i with
  | 1 => Config.sha384 Config.bootRom
  | 2 => if s.boot.mode = 3 then 0 else Config.sha384 s.boot.flash
  | 3 => Config.sha384 (svnBytes s.boot)
  | 4 => Config.sha384 (mapBytes s)
  | _ => Config.sha384 Config.fuses

/-- The blocks an index asks for: one, or with 255 all. -/
def measured (i : Nat) : List Nat := if i = 255 then [1, 2, 3, 4, 5] else if 1 ≤ i ∧ i ≤ 5 then [i] else []

def execGetMeasurements (i : Nat) (nonce : List Byte) (s : State) : Out :=
  reply s (if (measured i).isEmpty then .error
    else .measurements ((measured i).map (fun n => (n, measurement s n))) (Config.deviceSign nonce))

end Sys2Proof.Machine
end

