-- ==== Sys2Proof/Machine/Host.lean ====
section
/-! DEFINITION. The host port, the pools and the Eweven links (R135, R353-R360). -/

namespace Sys2Proof.Machine

/-! ## The HDM window (R354) -/

/-- Where the host's access to a device address lands: under HOST_KEY; a tracked frame keeps its records. -/
def hostLoc (s : State) (a : Nat) : Loc := .phys a s.host.hostKey (decide (a < Config.hostBase))

/-- Addresses in HBM4's shadow space. -/
def inShadow (a : Nat) : Bool := decide (Config.hbmBytes - Config.hbmShadowBytes ≤ a ∧ a < Config.hbmBytes)

/-- One byte as the host reads it: shadow space reads as ones; a withdrawn line's data is lost, a free value. -/
def hostByte (s : State) (a : Nat) : Byte × State :=
  if inShadow a then (0xFF, s)
  else if withdrawn s.mem a then let (w, s) := drawWord s; (w.setWidth 8, s)
  else let (g, s) := readLoc s (hostLoc s a) 1; (g.bytes.headD 0, s)

def hostRead : Nat → Nat → State → List Byte × State
  | 0, _, s => ([], s)
  | n + 1, a, s =>
    let (b, s) := hostByte s a
    let (r, s) := hostRead n (a + 1) s
    (b :: r, s)

/-- A host store of one word or byte: its bound is 0, since the host's values are exact (R66); a byte keeps its word's
bound as a narrow store does. Writes to shadow space and to withdrawn lines are dropped; a lock holds the write of agent `ag`. -/
def hostPut (ag : Agent) (s : State) (a : Nat) (l : List Byte) (narrow : Bool) : State :=
  if inShadow a || withdrawn s.mem a then s
  else match locLock s (hostLoc s a) with
    | some p => holdWrite s p ⟨0, hostLoc s a, none, .store l [0] narrow 0, some (0, ag), .land⟩
    | none => (pokeLoc (homeAcc s (hostLoc s a) true) (hostLoc s a) none l [0] narrow).1

/-- A host write, word by word where it is aligned. -/
def hostWords (ag : Agent) : Nat → Nat → List Byte → State → State
  | 0, _, _, s => s
  | n + 1, a, l, s =>
    match l with
    | [] => s
    | b :: r =>
      if a % 4 = 0 ∧ 4 ≤ l.length then hostWords ag n (a + 4) (l.drop 4) (hostPut ag s a (l.take 4) false)
      else hostWords ag n (a + 1) r (hostPut ag s a [b] true)

/-- A host write through the HDM window: its bytes below 1 TiB. -/
def hostWrite (ag : Agent) (a : Nat) (l : List Byte) (s : State) : State := hostWords ag l.length a (l.take (Config.hbmBytes - a)) s

/-- Whether an earlier write of the host is not yet made: it waits in the port, or a migration lock holds it. -/
def hostPending (s : State) : Bool :=
  !s.host.posted.isEmpty || heldFor s 0 .posted || heldFor s 0 .hdm || s.host.recBusy

/-- A read by the host or a link gives up what caches hold of a physical range: the dies answer, and copies stay shared. -/
def shareLines (s : State) (a n : Nat) : State := (heldLines s a n).foldl (fun s l => homeAcc s (physLoc (l * 128)) false) s

/-! ## The record port (R356) -/

def recLine (h : HostPort) : Nat := h.recAddr.toNat / 128

/-- The line that a port command names, under HOST_KEY; a read of a migrating page is served from its source copy (R299). -/
def recLoc (s : State) (write : Bool) : Loc :=
  let l : Loc := .phys (recLine s.host * 128) s.host.hostKey true
  if write then l else readLocOf s l

/-- Why a command is refused: reserved bits of a write, a line without a record, another key. -/
def recRefusal (s : State) (write : Bool) : Nat :=
  match recLoc s write with
  | .scr _ _ => 1
  | .phys a key _ =>
    if write && s.host.recData1.toNat / 2 ^ 40 != 0 then 3
    else if !hasChunk s.mem a then 1
    else match Map.get? s.mem.keyOf (lineOf a) with
      | some k => if k = key then 0 else 2
      | none => 0

def recBits (r : BRec) : Nat := r.e.toNat * 2 ^ 96 + r.codes.toNat

/-- REC_CMD read: the line's record as it stands. -/
def recRead (s : State) : State :=
  match recRefusal s false with
    | 0 =>
      let l := recLoc s false
      let s := openLoc s l
      let r := recBits (recAt s.mem (lineOf (locPa l)))
      setHost s (fun h => { h with recData0 := d64 r, recData1 := d64 (r / 2 ^ 64), recStat := 0 })
    | c => setHost s (fun h => { h with recStat := BitVec.ofNat 2 c })

/-- The record has been replaced. -/
def recDone (s : State) : State := setHost s (fun h => { h with recStat := 0, recBusy := false })

/-- REC_CMD write: the record replaced whole, as a store to the line; BUSY is set while a lock holds it. -/
def recWrite (s : State) : State :=
  match recRefusal s true with
    | 0 =>
      let v := s.host.recData0.toNat + s.host.recData1.toNat * 2 ^ 64
      let l := recLoc s true
      agentWrite (homeAcc (setHost s (fun h => { h with recBusy := true })) l true) 0 .recPort l none
        (.record ⟨BitVec.ofNat 8 (v / 2 ^ 96), BitVec.ofNat 96 v⟩) (fun _ => recDone)
    | c => setHost s (fun h => { h with recStat := BitVec.ofNat 2 c })

/-! ## Snoops from the host and the pools (R354, R358) -/

/-- A cached line is answered: its data is given up, and with an invalidation its copies go. -/
def snoopLine (s : State) (line : Nat) (inval : Bool) : State :=
  let s := answered s none line inval
  let s := { s with mem := { cacheUse (combineLine s.mem line) none 7 line inval with dirty := Map.erase s.mem.dirty line } }
  if inval then dropStash { s with mem := { s.mem with l2 := Map.erase s.mem.l2 line } } line none
  else { s with coreGroups := s.coreGroups.map (fun e =>
    (e.1, { e.2 with slines := e.2.slines.map (fun l => if l.2.line == line then (l.1, { l.2 with dirty := false }) else l) })) }

/-- What another owner of a line has written to it. -/
def otherWrite (s : State) (line : Nat) (data : Option (List Byte)) : State := match data with
  | some l => combineWrite { s with mem := { keepOld s.mem (line * 128) 128 with
      bytes := memWrite s.mem.bytes (line * 128) (l.take 128) } } line
  | none => s

/-- A snoop of the host: with data, the host has since written the line, which an invalidation let it do. -/
def hostSnoop (s : State) (line : Nat) (inval : Bool) (data : Option (List Byte)) : State :=
  if inval then otherWrite (snoopLine s line true) line data else snoopLine s line false

/-- Whether a line lies in a window attached as shared. -/
def inSharedWindow (m : MemSys) (a : Nat) : Bool :=
  m.windows.any (fun w => w.2.shared && decide (w.2.base ≤ a ∧ a < w.2.base + (w.2.size - w.2.size / 16)))

/-- A snoop of a pool: with data, another device has since written the line; the record it wrote with it is not part of the event,
and is free. -/
def poolSnoop (s : State) (line : Nat) (data : Option (List Byte)) : State :=
  match data with
  | none => snoopLine s line false
  | some _ =>
    let s := otherWrite (snoopLine s line true) line data
    if hasChunk s.mem (line * 128) then
      let w (i : Nat) : Nat := (Config.freeWord (s.fresh + i)).toNat
      { s with fresh := s.fresh + 4,
               mem := setRec s.mem line ⟨BitVec.ofNat 8 (w 3), BitVec.ofNat 96 (w 0 + w 1 * 2 ^ 32 + w 2 * 2 ^ 64)⟩ }
    else s

/-- A snoop from outside is answered as the home answers one from a die (R354). -/
def outerSnoop (s : State) (h : HeldSnoop) : State :=
  if h.pool then poolSnoop s h.line h.data else hostSnoop s h.line h.inval h.data

/-- A die whose answer it must wait for (R344). -/
def snoopSilent (s : State) (h : HeldSnoop) : Option Nat := silentDie s none h.line (h.inval || (h.pool && h.data.isSome))

/-- A snoop arrives: it is held behind an earlier one of its line, and while a die must answer. -/
def takeSnoop (s : State) (h : HeldSnoop) : State :=
  let hold (s : State) : State := setHost s (fun x => { x with snoops := x.snoops ++ [h] })
  if s.host.snoops.any (fun x => x.line == h.line) then hold s
  else match snoopSilent s h with
    | some d => hold (wakeDie s d)
    | none => outerSnoop s h

/-- The held snoops are tried again, oldest first. -/
def retrySnoops (s : State) : State :=
  if s.host.snoops.isEmpty then s else s.host.snoops.foldl takeSnoop (setHost s (fun x => { x with snoops := [] }))

/-- HOST_CXL_SNOOP: of a host-memory line. -/
def execHostCxlSnoop (line : Nat) (snoop : HostSnoop) (s : State) : Out :=
  .next (if Config.hostBase ≤ line * 128 ∧ line * 128 < Config.physTop then
      takeSnoop s ⟨false, line, snoop.inval, if snoop.inval then snoop.data else none⟩
    else s)

/-- POOL_BACK_INVALIDATION: the device's copies are given up. -/
def execPoolBackInvalidation (line : Nat) (data : Option (List Byte)) (s : State) : Out :=
  .next (if !inSharedWindow s.mem (line * 128) then s else takeSnoop s ⟨true, line, data.isSome, data⟩)

/-- POOL_WINDOW_ATTACH (R300, R357): a multiple of 1 GiB in the pool range, apart from the other windows; size 0 takes the
window away. Chunks of frames that no longer lie in a window go. -/
def execPoolWindowAttach (w base size : Nat) (shared : Bool) (s : State) : Out :=
  .next (
    let rest := Map.erase s.mem.windows w
    if 16 ≤ w || base % 2 ^ 30 != 0 || size % 2 ^ 30 != 0 || base < Config.hbmBytes || Config.hostBase < base + size
      || rest.any (fun x => meets base size x.2.base x.2.size) then s
    else
      let ws := if size = 0 then rest else Map.put rest w ⟨base, size, shared⟩
      let live (f : Nat) : Bool := decide (f * 2 ^ 21 < Config.hbmBytes)
        || ws.any (fun x => decide (x.2.base ≤ f * 2 ^ 21 ∧ f * 2 ^ 21 < x.2.base + (x.2.size - x.2.size / 16)))
      { s with mem := { s.mem with
          windows := ws, chunks := s.mem.chunks.filter (fun e => live e.1), recs := s.mem.recs.filter (fun e => live (frameOf (e.1 * 128))) } })

/-! ## Remote copies (R359, R360) -/

def setRing (s : State) (p : Nat) (f : EwRing → EwRing) : State :=
  setHost s (fun h => { h with rings := Map.putD EwRing.reset h.rings p (f (Map.get EwRing.reset h.rings p)) })

def ewSlots (r : EwRing) : Nat := 2 ^ (r.cfg.toNat % 16)
def ewEnabled (r : EwRing) : Bool := r.cfg.getLsbD 31

/-- The slots of the visible descriptors that have not been started, in ring order. -/
def ewNew (r : EwRing) : List Nat :=
  let n := ewSlots r
  (List.range ((r.tail.toNat + n - r.head.toNat) % n)).map (fun i => (r.head.toNat + i) % n)

/-- A tail write; one that names no slot of the ring is ignored. -/
def ewTail (v : Word) (r : EwRing) : EwRing := if v.toNat < ewSlots r then { r with tail := v } else r

def ewBase (v : DWord) (r : EwRing) : EwRing :=
  if !ewEnabled r && v.toNat % 4096 == 0 && v.toNat / 2 ^ 52 == 0 then { r with base := v } else r

def ewCfg (v : Word) (r : EwRing) : EwRing :=
  let logn := v.toNat % 16
  if v.toNat / 16 % 2 ^ 27 = 0 ∧ 1 ≤ logn ∧ logn ≤ 12 then { r with cfg := v } else r

/-- Whether a link that is up and not fenced leads to a device. -/
def hasRoute (s : State) (dst : Nat) : Bool :=
  (List.range 12).any (fun l => let (up, fenced, peer) := linkOf s l; up && !fenced && peer.toNat == dst)

/-- How a copy with a route ends is the destination's affair: 0 done, 1 window refused, 3 range outside the window. -/
def copyStatus (s : State) (dst : Nat) : Nat × State :=
  if hasRoute s dst then let (w, s) := drawWord s; ([0, 1, 3].getD (w.toNat % 3) 0, s) else (2, s)

/-- The words of a source with their bounds, as a `.sys` agent sees them now: partials are combined, a locked page's source copy
serves. Words without a record have bound 0 (R67). -/
def sourceData (s : State) (src len : Nat) : List (Word × BitVec 16) := (List.range (len / 4)).map (fun i =>
  let a := readPa s (src + 4 * i)
  let m := combineLine s.mem (lineOf a)
  (w32 (leNat (memBytes m.bytes a 4)), if hasChunk m a then physBound m true a else 0))

/-- A descriptor (Table 22-7) with its source, as both stand when it becomes visible: what is written to the source later the copy
does not carry (R360; DEDUCED, log 65). -/
def copyDesc (s : State) (p slot : Nat) : CopyDesc :=
  let a := ewSlotPa s p slot
  let w (o : Nat) : Nat := (physRead64 s (a + o)).toNat
  let len := w 8 % 2 ^ 32
  ⟨w 0, len, ⟨w 8 / 2 ^ 32 % 2 ^ 19, w 8 / 2 ^ 56 % 16, w 0x10, w 0x20, sourceData s (w 0) len⟩⟩

/-- Start the visible descriptors in ring order. -/
def ewStart (r : EwRing) : EwRing :=
  if !ewEnabled r then r
  else { r with head := r.tail, seen := [],
                flight := r.flight ++ (ewNew r).filterMap (fun i => (Map.get? r.seen i).map (fun c => (i, c))) }

/-- Visible descriptors are read, all of them when the ring has moved, and else those that have become visible. -/
def ewSee (s : State) (p : Nat) (moved : Bool) : State :=
  let look (r : EwRing) (i : Nat) : CopyDesc := match Map.get? r.seen i with
    | some c => if moved then copyDesc s p i else c
    | none => copyDesc s p i
  setRing s p (fun r => { r with seen := (ewNew r).foldl (fun m i => Map.put m i (look r i)) [] })

/-- A write of a ring's registers: the descriptors that it makes visible are read, and in an enabled ring started. -/
def ringWrite (s : State) (p : Nat) (f : EwRing → EwRing) : State :=
  let r := ringOf s p
  let moved := (f r).base != r.base || ewSlots (f r) != ewSlots r
  setRing (ewSee (setRing s p f) p moved) p ewStart

/-- A copy's source is read at the home: its partials are combined, and what L1s hold is given up. -/
def giveSource (s : State) (src len : Nat) : State :=
  let ps := ((s.mem.partials.map (fun p => lineOf p.pa)).filter (fun l => meets (l * 128) 128 src len)).eraseDups
  shareLines { s with mem := ps.foldl combineLine s.mem } src len

/-- A die whose answer a copy waits for (R344): a line of its source, its descriptor, or its LCOBJ. -/
def copyAsks (s : State) (p slot : Nat) (c : CopyDesc) : Option Nat :=
  ((rangeSilent s none c.src c.len false).or (rangeSilent s none (ewSlotPa s p slot) 64 true)).or
    (if copyObj s p slot = 0 then none else rangeSilent s none (copyObj s p slot).toNat 32 true)

/-- REMOTE_COPY_COMPLETION (R360, R365): the source's data leaves by a route to its destination; then STATUS, and the LCOBJ
update of an acknowledged copy. A copy for which a die must give up a line first waits for its answer. -/
def execRemoteCopyCompletion (p slot : Nat) (s : State) : Out :=
  .next (match (ringOf s p).flight.find? (fun e => e.1 == slot) with
    | none => s
    | some e =>
      if heldFor s p (.copy slot) then s
      else match copyAsks s p slot e.2 with
      | some d => wakeDie s d
      | none =>
        let (st, s) := copyStatus s e.2.goes.dst
        let s := giveSource s e.2.src e.2.len
        let s := if st = 2 then s else setHost s (fun h => { h with sent := some e.2.goes })
        copyEnd p slot st (setRing s p (fun r => { r with flight := r.flight.erase e })))

/-- Land the words of copy n with their bounds, each held by a lock of its own page. -/
def landWords (n key : Nat) : Nat → List (Word × BitVec 16) → State → State
  | _, [], s => s
  | a, (v, b) :: r, s =>
    landWords n key (a + 4) r (agentWrite (homeAcc s (.phys a key true) true) 0 (.land n) (.phys a key true) none
      (.store (leBytes 4 v.toNat) [b] false 0) (fun e s =>
        setHost s (fun h => { h with landing := Map.adjust h.landing n (fun x => { x with bd := x.bd || e == .ok true }) })))

/-- Whether a window takes a copy: it was opened for its source, its key slot is loaded and has an owner, and the copy lies in
it (R360); a copy that it does not take is refused at its source. -/
def takesCopy (s : State) (x : InWindow) (src : BitVec 19) (dofs words : Nat) : Bool :=
  let k := Map.get KeySlot.empty s.mem.keys x.key
  x.src == src && k.loaded && k.owner.isSome && dofs % 128 == 0 && words % 32 == 0 && decide (dofs + 4 * words ≤ x.size)

/-- INBOUND_REMOTE_COPY (R360): a copy of a device's ring lands in a window under its key; when every word has landed
RCOBJ, an offset in the window, is updated. While a die must answer a snoop for it (R344) the link still has it. -/
def execInboundRemoteCopy (o : CopyOrigin) (dofs : Nat) (data : List (Word × BitVec 16)) (rcobj : Nat) (s : State) : Out :=
  .next (match Map.get? s.mem.inWindows o.window with
    | none => s
    | some x =>
      if !takesCopy s x o.src dofs data.length then s
      else match (rangeSilent s none (x.base + dofs) (4 * data.length) true).or
          (if rcobj = 0 || x.size < rcobj + 32 then none else rangeSilent s none (x.base + rcobj) 32 true) with
      | some d => wakeDie s d
      | none =>
        let n := s.host.nextLand
        let s := setHost s (fun h => { h with nextLand := n + 1, landing := Map.put h.landing n ⟨o.window, rcobj, o.slot, false⟩ })
        landStep n (landWords n x.key (x.base + dofs) data s))

/-! ## The register windows (Tables 22-2, 22-10) -/

/-- Where the model places the windows among the addresses of HOST_POSTED_WRITE: BAR 0 of the physical function, and of
virtual function p. -/
def pfWindow : Nat := 2 ^ 60
def vfWindow (p : Nat) : Nat := 2 ^ 60 + 2 ^ 32 * (p + 1)

/-- A register write of n bytes to the Eweven registers of a partition, at their offsets from EW_BASE. -/
def ewWrite (s : State) (p o n : Nat) (v : DWord) : State :=
  if o = 0 ∧ n = 8 then ringWrite s p (ewBase v)
  else if o = 8 ∧ n = 4 then ringWrite s p (ewCfg (loWord v))
  else if o = 0x10 ∧ n = 4 then ringWrite s p (ewTail (loWord v))
  else s

/-- A write to the recovery window; dropped outside minimal mode (R362). -/
def recoveryWrite (o : Nat) (l : List Byte) (b : Boot) : Boot :=
  if b.mode = 3 then
    { b with recovery := ((List.range l.length).zip l).foldl (fun m e =>
        if o + e.1 < 2 ^ 24 then Map.putD 0 m (o + e.1) e.2 else m) b.recovery }
  else b

/-- A write in the window of the physical function; in minimal mode only the boot block and the recovery window are there. -/
def pfWrite (s : State) (o : Nat) (l : List Byte) : State :=
  let n := l.length
  let v := d64 (leNat l)
  let w := loWord v
  if 0x1000000 ≤ o then setBoot s (recoveryWrite (o - 0x1000000) l)
  else if o = 8 ∧ n = 4 then setBoot s (bootCommit w)
  else if o = 0xC ∧ n = 4 then setBoot s (fun b => { b with recLen := w })
  else if s.boot.mode = 3 then s
  else if o = 0x10180 ∧ n = 4 then setPkg s (congWrite w)
  else if 0x10800 ≤ o ∧ o < 0x10C00 ∧ o % 8 = 0 ∧ n = 4 then cluReq s ((o - 0x10800) / 8) w .physical
  else if o = 0x11040 ∧ n = 4 then setPkg s (slopeWrite w)
  else if 0x20000 ≤ o ∧ o < 0x24000 ∧ o % 0x1000 < 128 ∧ o % 8 = 0 ∧ n = 4 then
    modLq s ((o - 0x20000) / 0x1000) (o % 0x1000 / 8) (lqWriteTail w)
  else if o = 0x40000 ∧ n = 8 then
    if v.toNat % 128 = 0 ∧ v.toNat / 2 ^ 52 = 0 then setHost s (fun h => { h with recAddr := v }) else s
  else if o = 0x40008 ∧ n = 8 then setHost s (fun h => { h with recData0 := v })
  else if o = 0x40010 ∧ n = 8 then setHost s (fun h => { h with recData1 := v })
  else if o = 0x40018 ∧ n = 4 then
    if w = 1 then recRead s else if w = 2 then recWrite s else s
  else if 0x50400 ≤ o ∧ o < 0x50800 then ewWrite s ((o - 0x50400) / 0x100) ((o - 0x50400) % 0x100) n v
  else s

/-- A write in the window of virtual function p: its power page, launch queues and remote-copy ring. -/
def vfWrite (s : State) (p o : Nat) (l : List Byte) : State :=
  let n := l.length
  let v := d64 (leNat l)
  if s.boot.mode = 3 then s
  else if 0x800 ≤ o ∧ o < 0xC00 ∧ o % 8 = 0 ∧ n = 4 then cluReq s ((o - 0x800) / 8) (loWord v) (.virtual p)
  else if 0x1000 ≤ o ∧ o < 0x1080 ∧ o % 8 = 0 ∧ n = 4 then modLq s p ((o - 0x1000) / 8) (lqWriteTail (loWord v))
  else if o = 0x2000 ∨ o = 0x2008 then ewWrite s p (o - 0x2000) n v
  else if o = 0x2010 then ewWrite s p 0x10 n v
  else s

/-- A posted write is made: at a device address below 1 TiB, or in one of the windows. -/
def postNow (addr : DWord) (l : List Byte) (s : State) : State :=
  let a := addr.toNat
  if a < Config.hbmBytes then (if s.boot.mode = 3 then s else hostWrite .posted a l s)
  else if pfWindow ≤ a ∧ a < pfWindow + 2 ^ 25 then pfWrite s (a - pfWindow) l
  else match (List.range 4).find? (fun p => decide (vfWindow p ≤ a ∧ a < vfWindow p + 2 ^ 16)) with
    | some p => vfWrite s p (a - vfWindow p) l
    | none => s

/-- A die whose answer to a snoop a posted write must wait for (R344): its line's, or that of the record it replaces. -/
def postSilent (s : State) (addr : DWord) (l : List Byte) : Option Nat :=
  if addr.toNat < Config.hbmBytes then rangeSilent s none addr.toNat l.length true
  else if addr.toNat = pfWindow + 0x40018 then silentDie s none (recLine s.host) (leNat l == 2)
  else none

/-- Make the waiting posted writes, oldest first, as long as none before is held. -/
def drainPosted : Nat → State → State
  | 0, s => s
  | n + 1, s =>
    match s.host.posted with
    | [] => s
    | w :: r =>
      if hostPending { s with host := { s.host with posted := [] } } then s
      else match postSilent s w.addr w.data with
        | some d => wakeDie s d
        | none => drainPosted n (postNow w.addr w.data (setHost s (fun h => { h with posted := r })))

/-- A posted write joins those that wait for earlier ones, which go first (R135). -/
def hostPost (addr : DWord) (l : List Byte) (s : State) : State :=
  let s := setHost s (fun h => { h with posted := h.posted ++ (if l.isEmpty then [] else [⟨addr, l⟩]) })
  drainPosted s.host.posted.length s

/-- HOST_POSTED_WRITE (R135): a write is made when every earlier one is visible; one with Relaxed Ordering at once, unless a die
must answer a snoop for it. One without bytes makes what waits. -/
def execHostPostedWrite (addr : DWord) (l : List Byte) (relaxed : Bool) (s : State) : Out :=
  .next (if relaxed && (postSilent s addr l).isNone then postNow addr l s else hostPost addr l s)

/-- A write of the host that stands for a posted one: it is made now, or joins those that wait (R135, R344). -/
def hostNow (addr : DWord) (l : List Byte) (now : State → State) (s : State) : State :=
  if hostPending s || (postSilent s addr l).isSome then hostPost addr l s else now s

/-- HOST_HDM_ACCESS (R354): device addresses below 1 TiB, which minimal mode does not power (R362). A write is ordered as a posted
one; a read waits for the host's earlier writes, and for a die that must answer its snoop. -/
def execHostHdmAccess (o : Nat) (op : HdmOp) (s : State) : Out :=
  .next (if Config.hbmBytes ≤ o || s.boot.mode = 3 then s
    else match op with
      | .read n =>
        if hostPending s then s
        else match rangeSilent s none o n false with
          | some d => wakeDie s d
          | none =>
            let (l, s) := hostRead (min n (Config.hbmBytes - o)) o (shareLines s o n)
            setHost s (fun h => { h with hdmData := l })
      | .write l => hostNow (d64 o) l (hostWrite .hdm o l) s)

/-- REC_CMD, written by the host behind its earlier posted writes (R356); minimal mode does not show the port (R362). -/
def recCmd (v : Word) (now : State → State) (s : State) : State :=
  if s.boot.mode = 3 then s else hostNow (d64 (pfWindow + 0x40018)) (leBytes 4 v.toNat) now s

def execRecCmdRead (s : State) : Out := .next (recCmd 1 recRead s)
def execRecCmdWrite (s : State) : Out := .next (recCmd 2 recWrite s)

/-- A register write through a virtual function's window or the physical one, behind the host's earlier posted writes (R135). -/
def windowWrite (addr : Nat) (v : Word) (now : State → State) (s : State) : State := hostNow (d64 addr) (leBytes 4 v.toNat) now s

/-- LQ_TAIL_WRITE (R275); minimal mode does not show the register (R362). -/
def execLqTailWrite (p q : Nat) (v : Word) (s : State) : Out :=
  .next (if p < 4 ∧ q < 16 ∧ s.boot.mode ≠ 3 then
      windowWrite (vfWindow p + 0x1000 + 8 * q) v (fun s => modLq s p q (lqWriteTail v)) s
    else s)

/-- EW_TAIL_WRITE; minimal mode does not show the register (R362). -/
def execEwTailWrite (p : Nat) (v : Word) (s : State) : Out :=
  .next (if p < 4 ∧ s.boot.mode ≠ 3 then windowWrite (vfWindow p + 0x2010) v (fun s => ringWrite s p (ewTail v)) s else s)

/-- CLU_REQ_WRITE: a value outside 0-7 leaves the register unchanged; a cluster outside the view ignores it; minimal mode does
not show the register (R362). -/
def execCluReqWrite (c : Nat) (v : Word) (view : PowerView) (s : State) : Out :=
  let write (addr : Nat) : State := windowWrite addr v (fun s => cluReq s c v view) s
  .next (if s.boot.mode = 3 ∨ 128 ≤ c then s
    else match view with
      | .physical => write (pfWindow + 0x10800 + 8 * c)
      | .virtual p => if p < 4 then write (vfWindow p + 0x800 + 8 * c) else s)

/-! ## What the windows' registers read -/

def bootStat (b : Boot) : Word :=
  w32 (b.mode.toNat * 2 ^ 28 + b.fails.toNat * 2 ^ 26 + bnum b.busy * 2 ^ 25 + b.reason.toNat)

def ewStat (s : State) (l : Nat) : Word :=
  let (up, fenced, peer) := linkOf s l
  w32 (bnum up * 2 ^ 31 + bnum fenced * 2 ^ 30 + peer.toNat)

def ewReg (s : State) (p o : Nat) : DWord :=
  let r := ringOf s p
  match o with
  | 0 => r.base
  | 8 => r.cfg.setWidth 64
  | 0x10 => r.tail.setWidth 64
  | 0x14 => r.head.setWidth 64
  | _ => 0

/-- A register of the physical function's window. -/
def pfReg (s : State) (o : Nat) : DWord :=
  if 0x1000000 ≤ o then (if s.boot.mode = 3 then (Map.get 0 s.boot.recovery (o - 0x1000000)).setWidth 64 else 0)
  else if o = 0 then (bootStat s.boot).setWidth 64
  else if o = 0xC then s.boot.recLen.setWidth 64
  else if o = 0x10 then d64 (s.boot.svn.toNat * 2 ^ 16 + Config.minSvn.toNat)
  else if o = 0x18 then d64 s.host.hostKey
  else if s.boot.mode = 3 then 0
  else if 0x10000 ≤ o ∧ o < 0x12000 then packageReg s (o - 0x10000)
  else if 0x20000 ≤ o ∧ o < 0x24000 ∧ o % 0x1000 < 128 ∧ o % 8 = 0 then (lqOf s ((o - 0x20000) / 0x1000) (o % 0x1000 / 8)).head.setWidth 64
  else if o = 0x40000 then s.host.recAddr
  else if o = 0x40008 then s.host.recData0
  else if o = 0x40010 then s.host.recData1
  else if o = 0x4001C then s.host.recStat.setWidth 64 ||| (if s.host.recBusy then 0x80000000 else 0)
  else if o = 0x50000 then Config.deviceId.setWidth 64
  else if 0x50008 ≤ o ∧ o < 0x50068 ∧ o % 8 = 0 then (ewStat s ((o - 0x50008) / 8)).setWidth 64
  else if 0x50400 ≤ o ∧ o < 0x50800 then ewReg s ((o - 0x50400) / 0x100) ((o - 0x50400) % 0x100)
  else 0

/-- A register of virtual function p's window; minimal mode does not show it (R362). -/
def vfReg (s : State) (p o : Nat) : DWord :=
  if s.boot.mode = 3 then 0
  else if o < 0x1000 then powerPageReg s p o
  else if o < 0x1080 ∧ o % 8 = 0 then (lqOf s p ((o - 0x1000) / 8)).head.setWidth 64
  else if 0x2000 ≤ o ∧ o < 0x2018 then ewReg s p (o - 0x2000)
  else if 0x2100 ≤ o ∧ o < 0x2160 ∧ o % 8 = 0 then (ewStat s ((o - 0x2100) / 8)).setWidth 64
  else if o = 0x2180 then Config.deviceId.setWidth 64
  else 0

end Sys2Proof.Machine
end

