-- ==== Sys2Proof/Machine/IntAlu.lean ====
section
/-! DEFINITION. Integer, logic, move and predicate instructions (R162-R172), on v registers and, for the STR subset, on
a registers (R144). -/

namespace Sys2Proof.Machine

/-- d := f(a, b) with SAT (R163). -/
def intBin (x : IntRR) (f : Int → Int → Int) (s : State) : State :=
  aluOp x.g (fun rf =>
    let w := x.ty.wide
    let r := intRes x.ty x.sat (f (intOf x.ty (rdTy rf w x.a)) (intOf x.ty (rdTy rf w x.b)))
    (wrTy w x.d r.1 0, r.2)) s

/-- The operand an I form makes of IMM (R162): sign-extended for minor 0xA, zero-extended otherwise. -/
def immOf (x : IntRI) : DWord := if x.ty == .s64 then x.imm.signExtend 64 else x.imm.setWidth 64

/-- d := f(a, IMM). -/
def intImm (x : IntRI) (f : Int → Int → Int) (s : State) : State :=
  aluOp x.g (fun rf =>
    let w := x.ty.wide
    (wrTy w x.d (intBits x.ty (f (intOf x.ty (rdTy rf w x.a)) (intOf x.ty (immOf x)))) 0, 0)) s

/-- d := f(a, b) on bits. -/
def bitBin (x : IntRR) (f : DWord → DWord → DWord) (s : State) : State :=
  aluOp x.g (fun rf =>
    let w := x.ty.wide
    (wrTy w x.d (f (rdTy rf w x.a) (rdTy rf w x.b)) 0, 0)) s

def bitImm (x : IntRI) (f : DWord → DWord → DWord) (s : State) : State :=
  aluOp x.g (fun rf =>
    let w := x.ty.wide
    (wrTy w x.d (f (rdTy rf w x.a) (immOf x)) 0, 0)) s

/-- d := f(a). -/
def bitUn (x : IntR) (f : DWord → DWord) (s : State) : State :=
  aluOp x.g (fun rf =>
    let w := x.ty.wide
    (wrTy w x.d (f (rdTy rf w x.a)) 0, 0)) s

/-- Bits [2w−1:w] of the exact product (R163). -/
def mulHigh (ty : Ty) (a b : Int) : Int := a * b / 2 ^ tyBits ty

/-- |a| before wrap or clamp. -/
def absInt (a : Int) : Int := a.natAbs

def execIadd (x : IntRR) (s : State) : Out := .next (intBin x (fun a b => a + b) s)
def execIaddImm (x : IntRI) (s : State) : Out := .next (intImm x (fun a b => a + b) s)
def execIsub (x : IntRR) (s : State) : Out := .next (intBin x (fun a b => a - b) s)
def execIsubImm (x : IntRI) (s : State) : Out := .next (intImm x (fun a b => a - b) s)
def execImul (x : IntRR) (s : State) : Out := .next (intBin x (fun a b => a * b) s)
def execImulImm (x : IntRI) (s : State) : Out := .next (intImm x (fun a b => a * b) s)
def execImulh (x : IntRR) (s : State) : Out := .next (intBin x (mulHigh x.ty) s)

/-- IMAD: a·b + c formed exactly before wrap or clamp. -/
def execImad (x : IntRRR) (s : State) : Out :=
  .next (aluOp x.g (fun rf =>
    let w := x.ty.wide
    let r := intRes x.ty x.sat
      (intOf x.ty (rdTy rf w x.a) * intOf x.ty (rdTy rf w x.b) + intOf x.ty (rdTy rf w x.c))
    (wrTy w x.d r.1 0, r.2)) s)

def execImin (x : IntRR) (s : State) : Out := .next (intBin x (fun a b => min a b) s)
def execIminImm (x : IntRI) (s : State) : Out := .next (intImm x (fun a b => min a b) s)
def execImax (x : IntRR) (s : State) : Out := .next (intBin x (fun a b => max a b) s)
def execImaxImm (x : IntRI) (s : State) : Out := .next (intImm x (fun a b => max a b) s)

def execIabs (x : IntR) (s : State) : Out :=
  .next (aluOp x.g (fun rf =>
    let w := x.ty.wide
    let r := intRes x.ty x.sat (absInt (intOf x.ty (rdTy rf w x.a)))
    (wrTy w x.d r.1 0, r.2)) s)

def execAnd (x : IntRR) (s : State) : Out := .next (bitBin x (fun a b => a &&& b) s)
def execAndImm (x : IntRI) (s : State) : Out := .next (bitImm x (fun a b => a &&& b) s)
def execOr (x : IntRR) (s : State) : Out := .next (bitBin x (fun a b => a ||| b) s)
def execOrImm (x : IntRI) (s : State) : Out := .next (bitImm x (fun a b => a ||| b) s)
def execXor (x : IntRR) (s : State) : Out := .next (bitBin x (fun a b => a ^^^ b) s)
def execXorImm (x : IntRI) (s : State) : Out := .next (bitImm x (fun a b => a ^^^ b) s)
def execShl (x : IntRR) (s : State) : Out := .next (bitBin x (fun a b => shlRes x.ty a (shCount b)) s)
def execShlImm (x : IntRI) (s : State) : Out := .next (bitImm x (fun a _ => shlRes x.ty a x.imm.toNat) s)
def execShr (x : IntRR) (s : State) : Out := .next (bitBin x (fun a b => shrRes x.ty a (shCount b)) s)
def execShrImm (x : IntRI) (s : State) : Out := .next (bitImm x (fun a _ => shrRes x.ty a x.imm.toNat) s)
def execSar (x : IntRR) (s : State) : Out := .next (bitBin x (fun a b => sarRes x.ty a (shCount b)) s)
def execSarImm (x : IntRI) (s : State) : Out := .next (bitImm x (fun a _ => sarRes x.ty a x.imm.toNat) s)
def execBfx (x : IntRR) (s : State) : Out := .next (bitBin x (fun a b => bfxRes x.ty a b) s)

def execBfi (x : IntRRR) (s : State) : Out :=
  .next (aluOp x.g (fun rf =>
    let w := x.ty.wide
    (wrTy w x.d (bfiRes x.ty (rdTy rf w x.a) (rdTy rf w x.b) (rdTy rf w x.c)) 0, 0)) s)

def execPopc (x : IntR) (s : State) : Out :=
  .next (bitUn x (fun a => d64 (popFrom (tyBits x.ty) (lowBits x.ty a))) s)

def execClz (x : IntR) (s : State) : Out := .next (bitUn x (fun a => d64 (clzOf (tyBits x.ty) (lowBits x.ty a))) s)

def execBrev (x : IntR) (s : State) : Out :=
  .next (bitUn x (fun a => d64 (brevFrom (tyBits x.ty) (tyBits x.ty) (lowBits x.ty a))) s)

def execIset (x : IsetRR) (s : State) : Out :=
  .next (threadOp x.g (fun t =>
    .ok (setPred t x.p (isetHolds x.cond (intOf x.ty (tVal t x.ty.wide x.a)) (intOf x.ty (tVal t x.ty.wide x.b))))) s)

def execIsetImm (x : IsetRI) (s : State) : Out :=
  .next (threadOp x.g (fun t =>
    let b := if x.ty == .s64 then x.imm.signExtend 64 else x.imm.setWidth 64
    .ok (setPred t x.p (isetHolds x.cond (intOf x.ty (tVal t x.ty.wide x.a)) (intOf x.ty b)))) s)

/-- SEL copies the selected source with its shadow (R166). -/
def execSel (x : SelOps) (s : State) : Out :=
  .next (threadOp x.g (fun t =>
    let r := if getPred t x.p then x.a else x.b
    .ok (setRegs t (wrTy x.ty.wide x.d (tVal t x.ty.wide r) (tBnd t r)))) s)

/-- MOV copies a value and its shadow (R167). -/
def execMov (x : IntR) (s : State) : Out :=
  .next (aluOp x.g (fun rf => (wrTy x.ty.wide x.d (rdTy rf x.ty.wide x.a) (rdBnd rf x.a), 0)) s)

def execMovFromLk (x : OpD) (s : State) : Out :=
  .next (threadOp x.g (fun t => .ok (setRegs t (wrTy true x.d t.lk 0))) s)

def execMovToLk (x : OpS) (s : State) : Out :=
  .next (threadOp x.g (fun t => .ok { t with lk := tPair t x.a }) s)

/-- LEA (R168): 64-bit address arithmetic with b sign- or zero-extended. -/
def execLea (x : LeaOps) (s : State) : Out :=
  .next (aluOp x.g (fun rf =>
    let b := rdVal rf x.b
    let i : DWord := if x.signed then b.signExtend 64 else b.setWidth 64
    (wrTy true x.d (rdTy rf true x.a + (i <<< x.sh.toNat)) 0, 0)) s)

def execPlog (x : PlogOps) (s : State) : Out :=
  .next (threadOp x.g (fun t =>
    let i := bnum (getPred t x.pa) * 4 + bnum (getPred t x.pb) * 2 + bnum (getPred t x.pc)
    .ok (setPred t x.p (x.tt.getLsbD i))) s)

def execPmovGet (x : OpD) (s : State) : Out :=
  .next (threadOp x.g (fun t => .ok (tSet t x.d (0x80 ||| t.preds.setWidth 32))) s)

def execPmovPut (x : OpS) (s : State) : Out :=
  .next (threadOp x.g (fun t => .ok { t with preds := (tWord t x.a).setWidth 7 }) s)

/-- The launch's group count as it stands (R171). -/
def cgCount (s : State) (cgu : Nat) : Nat := match cgLaunch s cgu with
  | some l => l.g
  | none => 0

def cgParm (s : State) (cgu : Nat) : DWord := match cgLaunch s cgu with
  | some l => l.r.parm
  | none => 0

/-- A special register of a thread (Table 8-3). -/
def sregThread (s : State) (t : Thread) : SReg → DWord
  | .lane => d64 t.lane
  | .warp => d64 (slotOf s t)
  | .tid => d64 t.tid
  | .quad => d64 (quadOf s t)
  | .core => d64 (coreOf s t)
  | .cg => d64 t.cg
  | .cgcount => d64 (cgCount s t.cgu)
  | .die => d64 (coreOf s t / 64)
  | .frag => t.frag.setWidth 64
  | .parm => cgParm s t.cgu
  | .clock => s.clock
  | .bud => t.bud.setWidth 64
  | .flags => t.flags.setWidth 64

/-- A special register of an access-slice instance (R144). -/
def sregSlice (s : State) (q : QuadGroup) : SReg → DWord
  | .quad => d64 q.quad
  | .core => d64 ((Map.get? s.coreGroups (q.cgu * 8 + q.k)).elim 0 (fun c => c.core))
  | .cg => d64 ((Map.get? s.clusterGroups q.cgu).elim 0 (fun c => c.idx))
  | .cgcount => d64 (cgCount s q.cgu)
  | .die => d64 ((Map.get? s.coreGroups (q.cgu * 8 + q.k)).elim 0 (fun c => c.core / 64))
  | .parm => cgParm s q.cgu
  | .clock => s.clock
  | _ => 0

def execMovs (x : MovsOps) (s : State) : Out :=
  match s.cur with
  | .slice qk =>
    .next (match Map.get? s.quadGroups qk with
      | some q => aluOp x.g (fun _ => (wrTy x.src.wide x.d (sregSlice s q x.src) 0, 0)) s
      | none => s)
  | _ => .next (threadOp x.g (fun t => .ok (setRegs t (wrTy x.src.wide x.d (sregThread s t x.src) 0))) s)

def execMovi (x : MoviOps) (s : State) : Out := .next (aluOp x.g (fun _ => (wrTy false x.d (x.imm.setWidth 64) 0, 0)) s)

def execMovi64 (x : MoviOps) (s : State) : Out :=
  .next (aluOp x.g (fun _ => (wrTy true x.d (x.imm.signExtend 64) 0, 0)) s)

def execNop (g : Guard) (s : State) : Out := .next (aluOp g (fun _ => ([], 0)) s)

end Sys2Proof.Machine
end

