-- ==== Sys2Proof/Machine/Quant.lean ====
section
/-! DEFINITION. Quantisation: QNT, QNT.ol and DQNT (R185-R191) with the bounds of R93 and the outlier rule of R94. -/

namespace Sys2Proof.Machine

/-- What a contributing lane brings to a block. -/
structure QLane where
  k : Nat
  lane : Nat
  /-- x' of R190, and NV of the addition that gave it -/
  x : FV
  nv : Bool
  /-- β(x), and β(ρ) when feedback is on -/
  bx : Bd
  br : Bd
  theta : FV
deriving Repr

/-- x' (R190): with feedback, x + ρ rounded to binary32; and whether that addition is invalid (R48). -/
def qInput (fb : Bool) (x rho : FV) : FV × Bool :=
  if fb then
    match exactAdd .rne x rho with
    | .sp v nv => (v, nv)
    | .num zn d => ((rn32 zn d).v, false)
  else (x, false)

def qLane (fb ol : Bool) (x : QntOps) (k : Nat) (t : Thread) : QLane :=
  let y := qInput fb (f32Of (tWord t x.a)) (f32Of (tWord t x.c))
  ⟨k, t.lane, y.1, y.2, bdOf (tBnd t x.a),
    if fb then bdOf (tBnd t x.c) else bdZero,
    if ol then f32Of (rdVal (getReg t) (x.c + 1)) else .fin false 0 0⟩

/-- The block of a lane: the whole warp, or a half of it under SCL 2. -/
def qBlock (scl lane : Nat) : Nat := if scl = 2 then lane / 16 else 0

/-- A block that holds a NaN or an infinity. Under SCL 0 no block is formed; the whole warp is then taken for one, so that a NaN
or an infinity of any lane keeps every lane from being an outlier (DESIGN CHOICE, log 82). -/
def qNanBlock (scl : Nat) (ls : List QLane) (l : QLane) : Bool :=
  ls.any (fun y => qBlock scl y.lane == qBlock scl l.lane && !fvIsFin y.x)

def fvMagDy (v : FV) : Dy := dyAbs (fvDy v)

/-- The least code whose scaled limit is not below a magnitude (R187); 254 where there is none. -/
def leastScale (limit amax : Dy) : Nat :=
  ((List.range 255).find? (fun c : Nat => dyLe amax (dyScale limit (Int.ofNat c - 127)))).getD 254

/-- pick_scale over a set of lanes (R187). -/
def pickScale (limit : Dy) (ls : List QLane) : Nat := leastScale limit (ls.foldl (fun m l => dyMax m (fvMagDy l.x)) dyZero)

/-- The scale of a lane's block among the lanes of `ls`; 127 under SCL 0 (R187, R188). -/
def blockScale (scl : Nat) (limit : Dy) (ls : List QLane) (l : QLane) : Nat :=
  if scl = 0 then 127 else pickScale limit (ls.filter (fun y => qBlock scl y.lane == qBlock scl l.lane))

/-- Outlier candidates (R188). -/
def qCands (scl : Nat) (limit : Dy) (ls : List QLane) : List QLane :=
  ls.filter (fun l => !qNanBlock scl ls l && (match fvMag l.theta with
    | none => false
    | some th => dyLt (dyScale th ((blockScale scl limit ls l : Int) - 127)) (fvMagDy l.x)))

/-- The `n` candidates of largest magnitude, ties to the lower lane (R94). -/
def qOutliers (n : Nat) (cs : List QLane) : List QLane :=
  cs.filter (fun l => decide ((cs.filter (fun y =>
    dyLt (fvMagDy l.x) (fvMagDy y.x) || (dyEq (fvMagDy l.x) (fvMagDy y.x) && decide (y.lane < l.lane)))).length < n))

/-- What QNT delivers in one lane. -/
structure QRes where
  d : Word
  d1 : Word
  bnd : BitVec 16
  rho : FV
  brho : BitVec 16
  fl : Byte
deriving Repr

/-- x' − q where it is no finite number: rn32 of an infinite difference, NaN where there is none. -/
def specialRho (x q : FV) : FV := match x, q with
  | .inf n, .fin _ _ _ => .inf n
  | .fin _ _ _, .inf n => .inf (!n)
  | .inf n, .inf m => if n = m then .nan false else .inf n
  | _, _ => .nan false

/-- Bounds of R93 and the new residual; an undefined difference is unbounded, and in a NaN block the residual is 0. A residual of
zero is +0, whatever the signs of x' and q (DESIGN CHOICE, log 84). -/
def qBounds (fb nanBlk : Bool) (l : QLane) (q : FV) : BitVec 16 × FV × BitVec 16 :=
  if fvIsFin q && fvIsFin l.x then
    let diff := dySub (fvDy l.x) (fvDy q)
    if fb then
      let r := (rn32 false diff).v
      let e := dyScale (fvMagDy l.x) (-24)
      (upBd (bdSum [l.bx, l.br, some (fvMagDy r), some e]), r,
        upBd (bdSum [l.bx, l.br, some e, some (dyScale (fvMagDy r) (-24))]))
    else (upBd (bdAdd l.bx (some (dyAbs diff))), .fin false 0 0, 0)
  else (bndInf, if nanBlk then .fin false 0 0 else specialRho l.x q, bndInf)

/-- NX of a NaN or an infinity that a block without scales turns into another value (R190). -/
def specialNx (x q : FV) : Bool := match x, q with
  | .fin _ _ _, _ => false
  | .nan _, .nan _ => false
  | .inf n, .inf m => n != m
  | _, _ => true

/-- A code with its scale field (Table 8-7). -/
def qWord (fmt code scale : Nat) : Word := if fmt = 0 then w32 code else w32 (scale * 256 + code)

/-- One lane of QNT (R190). `s` is the block scale, `oo` the overflow of R188. -/
def qntLane (fmt scl : Nat) (rnd : Rnd) (fb nanBlk out oo : Bool) (s : Nat) (l : QLane) : QRes :=
  let ofl := flIf oo flOO
  let more (q : FV) (sa : Bool) : Byte :=
    flIf (!fvIsFin q || !dyEq (fvDy q) (fvDy l.x)) flNX ||| flIf (!fvIsZero l.x && fvIsZero q) flUF ||| flIf sa flSA ||| ofl
  if nanBlk && scl != 0 then
    let q := FV.nan false
    let (b, r, br) := qBounds fb true l q
    ⟨qWord fmt 0 255, 0, b, r, br, flNV ||| more q false⟩
  else if out then
    let so := leastScale ⟨127, 0⟩ (fvMagDy l.x)
    let c := efConv 7 rnd (match l.x with
      | .fin n m e => .fin n m (e - so + 127)
      | v => v)
    let q := efScaled c.v so
    let (b, r, br) := qBounds fb false l q
    ⟨qWord fmt 0 s, w32 (65536 + so * 256 + c.code), b, r, br, more q false⟩
  else
    let c := efConv fmt rnd (match l.x with
      | .fin n m e => .fin n m (e - s + 127)
      | v => v)
    let q := efScaled c.v s
    let (b, r, br) := qBounds fb false l q
    let fl := if scl = 0 then (c.fl &&& ~~~flUF) ||| flIf (!fvIsZero l.x && fvIsFin l.x && fvIsZero q) flUF
        ||| flIf (specialNx l.x q) flNX ||| flIf l.nv flNV ||| ofl
      else more q (c.fl &&& flSA != 0)
    ⟨qWord fmt c.code s, 0, b, r, br, fl⟩

/-- What one lane of QNT writes: d, under `.ol` d + 1, with feedback ρ; they are written in this order, so that where c names the
same register as d or d + 1 it is ρ that stands (DESIGN CHOICE, log 83). -/
def qntWrites (ol fb : Bool) (x : QntOps) (r : QRes) : List (Nat × Reg) :=
  [(x.d.toNat, ⟨r.d, r.bnd⟩)] ++ (if ol then [(x.d.toNat + 1, ⟨r.d1, 0⟩)] else [])
    ++ (if fb then [(x.c.toNat, ⟨f32Bits r.rho, r.brho⟩)] else [])

/-- QNT after its checks. -/
def qntRun (ol : Bool) (x : QntOps) (w : Word) (gid : Nat) (g : Group) (act : List Nat) (s : State) : State :=
  let fb := fwFb w
  let scl := fwScl w
  let fmt := fwA w
  let ls := act.filterMap (fun k => (getThread s k).map (qLane fb ol x k))
  let cs := if ol then qCands scl (efMax fmt) ls else []
  let outs := qOutliers (fwOslot w) cs
  let isOut (l : QLane) : Bool := outs.any (fun y => y.lane == l.lane)
  let oo := decide (fwOslot w < cs.length)
  let rest := ls.filter (fun l => !isOut l)
  let (s', fs) := foldLanes (ownLane (fun t =>
    match ls.find? (fun l => l.lane == t.lane) with
    | none => .ok t
    | some l =>
      let r := qntLane fmt scl x.rnd fb (qNanBlock scl ls l) (isOut l) oo (blockScale scl (efMax fmt) rest l) l
      (breachRule t r.bnd r.fl).map (fun fl => orFlags (setRegs t (qntWrites ol fb x r)) fl))) act s
  splitGroup s s' gid g fs false

/-- The checks of R186 before a quantisation instruction. -/
def quantOp (gd : Guard) (r : FwReader) (fw : VReg) (run : Word → Nat → Group → List Nat → State → State) (s : State) : State :=
  groupOp gd (fun gid g act s =>
    if act.isEmpty then advance s gid
    else if !fullWarp s g then faultAll s gid g act (fun _ => partialMask s g)
    else match formatVote s r fw act with
      | .error f => faultAll s gid g act f
      | .ok w => run w gid g act s) s

def execQnt (x : QntOps) (s : State) : Out := .next (quantOp x.g .qnt x.fw (qntRun false x) s)
def execQntOl (x : QntOps) (s : State) : Out := .next (quantOp x.g .qntOl x.fw (qntRun true x) s)

/-- One lane of DQNT (R191): the value with its flags and bound. Without an outlier term the code's own value stands: a zero of
it keeps its sign, which adding the formula's 0 would not (DESIGN CHOICE, log 85). -/
def dqntRes (fmt scl : Nat) (ol : Bool) (a a1 : Word) (ba : BitVec 16) : Deliv :=
  let code := a.toNat % 2 ^ efBits fmt
  let v := efDec fmt code
  let v := if scl = 0 || fmt = 0 then v else efScaled v (a.toNat / 256 % 256)
  let o := if ol && a1.toNat / 2 ^ 16 % 2 == 1 then efScaled (efDec 7 (a1.toNat % 256)) (a1.toNat / 256 % 256)
    else .fin false 0 0
  let keep := !(ol && a1.toNat / 2 ^ 16 % 2 == 1)
  let e := if keep then (match v with
    | .fin n _ _ => Exact.num n (fvDy v)
    | _ => .sp v false) else exactAdd .rne v o
  match e with
  | .sp v _ => ⟨elemBits .f32 0 (match v with | .nan _ => .nan false | y => y), 0, bndInf⟩
  | .num zn d =>
    let r := rn32 zn d
    if r.ovf then ⟨elemBits .f32 0 r.v, r.fl, bndInf⟩
    else ⟨elemBits .f32 0 r.v, r.fl, upBd (bdAdd (bdOf ba) (some (dyAbs (dySub (fvDy r.v) d))))⟩

def dqntRun (x : DqntOps) (w : Word) (gid : Nat) (g : Group) (act : List Nat) (s : State) : State :=
  let (s', fs) := foldLanes (ownLane (fun t =>
    deliverFree32 t x.d (dqntRes (fwA w) (fwScl w) x.ol (tWord t x.a) (rdVal (getReg t) (x.a + 1)) (tBnd t x.a)))) act s
  splitGroup s s' gid g fs false
where
  /-- A 32-bit result without a breach check. -/
  deliverFree32 (t : Thread) (d : VReg) (r : Deliv) : Except FInfo Thread :=
    .ok (orFlags (setRegs t (wrTy false d r.bits r.bnd)) r.fl)

def execDqnt (x : DqntOps) (s : State) : Out := .next (quantOp x.g .dqnt x.fw (dqntRun x) s)

end Sys2Proof.Machine
end

