-- ==== Sys2Proof/Machine/Sync.lean ====
section
/-! DEFINITION. Group barriers (R218), masks and MWAIT (R219, R220), vote, shuffle and warp reduce (R221-R223). -/

namespace Sys2Proof.Machine

/-! ## Group barriers -/

/-- One lane's arrival: it waits for the phase its arrival is due to complete. -/
def arriveLane (a : Arr) (x : BarOps) (gid : Nat) : LaneFn := fun k t s =>
  let b := x.b.toNat
  let bar := getBar s t.cgu b
  let s' := setBar s t.cgu b (barArrive bar [(k, a)])
  match barTarget bar k a with
  | some ph => (addWait s' gid k (.bar t.cgu b ph), none)
  | none => (s', none)

def execGbar (x : BarOps) (s : State) : Out := .next (laneOp x.g (arriveLane .gbar x) s)
def execGarr (x : BarOps) (s : State) : Out := .next (laneOp x.g (arriveLane .garr x) s)
def execGdrop (x : BarOps) (s : State) : Out := .next (laneOp x.g (arriveLane .gdrop x) s)

/-- GJOIN: the expected count of a cluster group's barrier is raised once, by one for each of its active threads (R36). -/
def joinGroup (b : Nat) (cs : List Nat) (s : State) (cgu : Nat) : State :=
  setBar s cgu b (barJoin (getBar s cgu b) (cs.filter (fun c => c == cgu)).length)

def execGjoin (x : BarOps) (s : State) : Out :=
  .next (groupOp x.g (fun gid _ act s =>
    let cs := act.filterMap (fun k => (getThread s k).map (·.cgu))
    advance (cs.eraseDups.foldl (joinGroup x.b.toNat cs) s) gid) s)

/-! ## Masks -/

/-- The warp of a group drawn from one warp. -/
def warpKeyOfThread (s : State) (k : Nat) : Nat := match getThread s k with
  | some t => warpKeyOf t
  | none => 0

/-- A mask instruction that is one change of a mask by the active lanes; waits on it are evaluated again (R220). -/
def maskOp (gd : Guard) (m : BitVec 4) (f : State → List Nat → Word → Word) (s : State) : State :=
  groupOp gd (fun gid _ act s =>
    match act.head? with
    | none => advance s gid
    | some k =>
      let wk := warpKeyOfThread s k
      let s := modWarp s wk (fun w => setMask m.toNat (f s act (getMask w m.toNat)) w)
      mwaitCheck (advance s gid) wk m.toNat) s

def execMjoin (x : MaskOps) (s : State) : Out := .next (maskOp x.g x.m (fun s act m => m ||| laneMask s act) s)
def execMleave (x : MaskOps) (s : State) : Out := .next (maskOp x.g x.m (fun s act m => m &&& ~~~(laneMask s act)) s)

/-- MWR: bits of lanes that hold no thread are written 0. A lowest lane whose register is lost faults, and nothing is written (R32,
R321). -/
def execMwr (x : MaskRegOps) (s : State) : Out :=
  .next (maskOp x.g x.m (fun s act m => if !s.lost.isEmpty then m else match act.head?.bind (getThread s) with
    | some t => tWord t x.r &&& laneMask s ((warpThreads s (warpKeyOf t)).map (·.1))
    | none => m) s)

def execMrd (x : MaskRegOps) (s : State) : Out :=
  .next (laneOp x.g (fun _ k t s =>
    let v := match warpOf s t with
      | some w => getMask w x.m.toNat
      | none => 0
    (modThread s k (fun t => tSet t x.r v), none)) s)

/-- MWAIT (R30, R220): the active threads arrive, the others are held beside them (R28), and the wait is evaluated. -/
def execMwait (x : MaskOps) (s : State) : Out :=
  .next (groupOp x.g (fun gid g act s =>
    match act.head? with
    | none => advance s gid
    | some k =>
      let m := x.m.toNat
      let s := { s with groups := Map.erase s.groups gid }
      let s := g.members.foldl (fun s j => modThread s j (fun t =>
        { t with st := if act.contains j then .mwait m else .mheld m, pc := slotPc g.pass, pass := some g.pass })) s
      mwaitCheck s (warpKeyOfThread s k) m) s)

/-! ## Vote, shuffle -/

/-- VOTE (R221). -/
def execVote (x : VoteOps) (s : State) : Out :=
  .next (groupOp x.g (fun gid _ act s =>
    let ps (k : Nat) : Bool := match getThread s k with
      | some t => getPred t x.ps
      | none => false
    let yes := act.filter ps
    let bal := laneMask s yes
    let s := act.foldl (fun s k => modThread s k (fun t => match x.kind with
      | .all => setPred t (x.d.setWidth 3) (yes.length == act.length)
      | .any => setPred t (x.d.setWidth 3) (!yes.isEmpty)
      | .bal => tSet t x.d bal)) s
    advance s gid) s)

/-- The source lane of SHFL for lane l and its value n of b. -/
def shflSrc (kind : ShflKind) (l n : Nat) : Int :=
  match kind with
  | .idx => n % 32
  | .up => (l : Int) - n
  | .dn => l + n
  | .bfly => Nat.xor l (n % 32)

/-- SHFL (R222): every source is read before any lane writes. A lane that faults at the slot itself, its own data lost, is active
and a source. -/
def execShfl (x : ShflOps) (s : State) : Out :=
  .next (groupOp x.g (fun gid g act s =>
    let src := (guardedOf s g x.g).filterMap (getThread s)
    let s' := act.foldl (fun s k => modThread s k (fun t =>
      let n := shflSrc x.kind t.lane (tWord t x.b).toNat
      let from_ := (src.find? (fun y => decide ((y.lane : Int) = n))).getD t
      setRegs t (wrTy x.wide x.d (tVal from_ x.wide x.a) (tBnd from_ x.a)))) s
    advance s' gid) s)

/-! ## WRED (R223) -/

/-- The left fold over the active lanes: value, bound, flags. -/
def wredFold (op : AOp) (ty : Ty) : Deliv → List (DWord × BitVec 16) → Deliv
  | d, [] => d
  | d, (a, b) :: r =>
    let z := atomRes op ty d.bits d.bnd a b
    wredFold op ty ⟨z.bits, d.fl ||| z.fl, z.bnd⟩ r

def execWred (x : WredOps) (s : State) : Out :=
  .next (groupOp x.g (fun gid g act s =>
    let ls := (act.filterMap (getThread s)).map (fun t => (tVal t x.ty.wide x.a, tBnd t x.a))
    match ls with
    | [] => advance s gid
    | (a, b) :: r =>
      let z := wredFold x.op x.ty ⟨a, 0, b⟩ r
      let (s', fs) := foldLanes (ownLane (fun t =>
        (breachRule t z.bnd z.fl).map (fun fl => orFlags (setRegs t (wrTy x.ty.wide x.d z.bits z.bnd)) fl))) act s
      splitGroup s s' gid g fs false) s)

end Sys2Proof.Machine
end

