-- ==== Sys2Proof/Machine/Dispatch.lean ====
section
/-! DEFINITION. The dispatch: each constructor of Instr to its meaning. -/

namespace Sys2Proof.Machine

def exec (i : Instr) (s : State) : Host.Outcome State Fault Refusal :=
  match i with
  | .iadd x => Sys2Proof.Machine.execIadd x s
  | .iaddImm x => Sys2Proof.Machine.execIaddImm x s
  | .isub x => Sys2Proof.Machine.execIsub x s
  | .isubImm x => Sys2Proof.Machine.execIsubImm x s
  | .imul x => Sys2Proof.Machine.execImul x s
  | .imulImm x => Sys2Proof.Machine.execImulImm x s
  | .imulh x => Sys2Proof.Machine.execImulh x s
  | .imad x => Sys2Proof.Machine.execImad x s
  | .imin x => Sys2Proof.Machine.execImin x s
  | .iminImm x => Sys2Proof.Machine.execIminImm x s
  | .imax x => Sys2Proof.Machine.execImax x s
  | .imaxImm x => Sys2Proof.Machine.execImaxImm x s
  | .iabs x => Sys2Proof.Machine.execIabs x s
  | .and x => Sys2Proof.Machine.execAnd x s
  | .andImm x => Sys2Proof.Machine.execAndImm x s
  | .or x => Sys2Proof.Machine.execOr x s
  | .orImm x => Sys2Proof.Machine.execOrImm x s
  | .xor x => Sys2Proof.Machine.execXor x s
  | .xorImm x => Sys2Proof.Machine.execXorImm x s
  | .shl x => Sys2Proof.Machine.execShl x s
  | .shlImm x => Sys2Proof.Machine.execShlImm x s
  | .shr x => Sys2Proof.Machine.execShr x s
  | .shrImm x => Sys2Proof.Machine.execShrImm x s
  | .sar x => Sys2Proof.Machine.execSar x s
  | .sarImm x => Sys2Proof.Machine.execSarImm x s
  | .bfx x => Sys2Proof.Machine.execBfx x s
  | .bfi x => Sys2Proof.Machine.execBfi x s
  | .popc x => Sys2Proof.Machine.execPopc x s
  | .clz x => Sys2Proof.Machine.execClz x s
  | .brev x => Sys2Proof.Machine.execBrev x s
  | .iset x => Sys2Proof.Machine.execIset x s
  | .isetImm x => Sys2Proof.Machine.execIsetImm x s
  | .sel x => Sys2Proof.Machine.execSel x s
  | .mov x => Sys2Proof.Machine.execMov x s
  | .movFromLk x => Sys2Proof.Machine.execMovFromLk x s
  | .movToLk x => Sys2Proof.Machine.execMovToLk x s
  | .lea x => Sys2Proof.Machine.execLea x s
  | .plog x => Sys2Proof.Machine.execPlog x s
  | .pmovGet x => Sys2Proof.Machine.execPmovGet x s
  | .pmovPut x => Sys2Proof.Machine.execPmovPut x s
  | .movs x => Sys2Proof.Machine.execMovs x s
  | .movi x => Sys2Proof.Machine.execMovi x s
  | .movi64 x => Sys2Proof.Machine.execMovi64 x s
  | .nop g => Sys2Proof.Machine.execNop g s
  | .fadd x => Sys2Proof.Machine.execFadd x s
  | .fsub x => Sys2Proof.Machine.execFsub x s
  | .fmul x => Sys2Proof.Machine.execFmul x s
  | .ffma x => Sys2Proof.Machine.execFfma x s
  | .fmin x => Sys2Proof.Machine.execFmin x s
  | .fmax x => Sys2Proof.Machine.execFmax x s
  | .fset x => Sys2Proof.Machine.execFset x s
  | .frnd x => Sys2Proof.Machine.execFrnd x s
  | .frcp x => Sys2Proof.Machine.execFrcp x s
  | .frsq x => Sys2Proof.Machine.execFrsq x s
  | .fsqrt x => Sys2Proof.Machine.execFsqrt x s
  | .fexp2 x => Sys2Proof.Machine.execFexp2 x s
  | .flog2 x => Sys2Proof.Machine.execFlog2 x s
  | .fscl x => Sys2Proof.Machine.execFscl x s
  | .fcls x => Sys2Proof.Machine.execFcls x s
  | .cvt x => Sys2Proof.Machine.execCvt x s
  | .cvtiF2i x => Sys2Proof.Machine.execCvtiF2i x s
  | .cvtiI2f x => Sys2Proof.Machine.execCvtiI2f x s
  | .qnt x => Sys2Proof.Machine.execQnt x s
  | .qntOl x => Sys2Proof.Machine.execQntOl x s
  | .dqnt x => Sys2Proof.Machine.execDqnt x s
  | .pk4 x => Sys2Proof.Machine.execPk4 x s
  | .upk4 x => Sys2Proof.Machine.execUpk4 x s
  | .brd x => Sys2Proof.Machine.execBrd x s
  | .braise x => Sys2Proof.Machine.execBraise x s
  | .budget x => Sys2Proof.Machine.execBudget x s
  | .budgetImm x => Sys2Proof.Machine.execBudgetImm x s
  | .bchk x => Sys2Proof.Machine.execBchk x s
  | .flgrd x => Sys2Proof.Machine.execFlgrd x s
  | .flgrdClr x => Sys2Proof.Machine.execFlgrdClr x s
  | .ld x => Sys2Proof.Machine.execLd x s
  | .st x => Sys2Proof.Machine.execSt x s
  | .pref x => Sys2Proof.Machine.execPref x s
  | .smap x => Sys2Proof.Machine.execSmap x s
  | .smapUn x => Sys2Proof.Machine.execSmapUn x s
  | .swb x => Sys2Proof.Machine.execSwb x s
  | .swbAll g => Sys2Proof.Machine.execSwbAll g s
  | .sinv x => Sys2Proof.Machine.execSinv x s
  | .sinvAll g => Sys2Proof.Machine.execSinvAll g s
  | .cwb x => Sys2Proof.Machine.execCwb x s
  | .atom x => Sys2Proof.Machine.execAtom x s
  | .acas x => Sys2Proof.Machine.execAcas x s
  | .red x => Sys2Proof.Machine.execRed x s
  | .fence x => Sys2Proof.Machine.execFence x s
  | .fenceJ x => Sys2Proof.Machine.execFenceJ x s
  | .csig x => Sys2Proof.Machine.execCsig x s
  | .csigFl x => Sys2Proof.Machine.execCsigFl x s
  | .cpendAdd x => Sys2Proof.Machine.execCpendAdd x s
  | .cpendSub x => Sys2Proof.Machine.execCpendSub x s
  | .cwait x => Sys2Proof.Machine.execCwait x s
  | .cwaitReevaluate gid => Sys2Proof.Machine.execCwaitReevaluate gid s
  | .crd x => Sys2Proof.Machine.execCrd x s
  | .gbar x => Sys2Proof.Machine.execGbar x s
  | .garr x => Sys2Proof.Machine.execGarr x s
  | .gdrop x => Sys2Proof.Machine.execGdrop x s
  | .gjoin x => Sys2Proof.Machine.execGjoin x s
  | .mjoin x => Sys2Proof.Machine.execMjoin x s
  | .mleave x => Sys2Proof.Machine.execMleave x s
  | .mwait x => Sys2Proof.Machine.execMwait x s
  | .mrd x => Sys2Proof.Machine.execMrd x s
  | .mwr x => Sys2Proof.Machine.execMwr x s
  | .vote x => Sys2Proof.Machine.execVote x s
  | .shfl x => Sys2Proof.Machine.execShfl x s
  | .wred x => Sys2Proof.Machine.execWred x s
  | .gen x => Sys2Proof.Machine.execGen x s
  | .yld x => Sys2Proof.Machine.execYld x s
  | .gend g => Sys2Proof.Machine.execGend g s
  | .take x => Sys2Proof.Machine.execTake x s
  | .gstat x => Sys2Proof.Machine.execGstat x s
  | .bra x => Sys2Proof.Machine.execBra x s
  | .brx x => Sys2Proof.Machine.execBrx x s
  | .call x => Sys2Proof.Machine.execCall x s
  | .callReg x => Sys2Proof.Machine.execCallReg x s
  | .ret g => Sys2Proof.Machine.execRet g s
  | .exit g => Sys2Proof.Machine.execExit g s
  | .mma x => Sys2Proof.Machine.execMma x s
  | .mmao x => Sys2Proof.Machine.execMmao x s
  | .wzero x => Sys2Proof.Machine.execWzero x s
  | .wld x => Sys2Proof.Machine.execWld x s
  | .wst x => Sys2Proof.Machine.execWst x s
  | .wdrn x => Sys2Proof.Machine.execWdrn x s
  | .wmov x => Sys2Proof.Machine.execWmov x s
  | .wbnd x => Sys2Proof.Machine.execWbnd x s
  | .qpop x => Sys2Proof.Machine.execQpop x s
  | .qpeek x => Sys2Proof.Machine.execQpeek x s
  | .qcnt x => Sys2Proof.Machine.execQcnt x s
  | .qdrop x => Sys2Proof.Machine.execQdrop x s
  | .queueEntryReady qg q entry => Sys2Proof.Machine.execQueueEntryReady qg q entry s
  | .sloop x => Sys2Proof.Machine.execSloop x s
  | .snext a => Sys2Proof.Machine.execSnext a s
  | .sfetch x => Sys2Proof.Machine.execSfetch x s
  | .smark x => Sys2Proof.Machine.execSmark x s
  | .swaitc x => Sys2Proof.Machine.execSwaitc x s
  | .sdone => Sys2Proof.Machine.execSdone s
  | .job x => Sys2Proof.Machine.execJob x s
  | .jobAccept gid => Sys2Proof.Machine.execJobAccept gid s
  | .jobStart part job => Sys2Proof.Machine.execJobStart part job s
  | .jobCompletion part job => Sys2Proof.Machine.execJobCompletion part job s
  | .grow x => Sys2Proof.Machine.execGrow x s
  | .lnch x => Sys2Proof.Machine.execLnch x s
  | .trap x => Sys2Proof.Machine.execTrap x s
  | .bkpt x => Sys2Proof.Machine.execBkpt x s
  | .phint x => Sys2Proof.Machine.execPhint x s
  | .sleep x => Sys2Proof.Machine.execSleep x s
  | .sleepEnd gid => Sys2Proof.Machine.execSleepEnd gid s
  | .rte g => Sys2Proof.Machine.execRte g s
  | .movcRead x => Sys2Proof.Machine.execMovcRead x s
  | .movcWrite x => Sys2Proof.Machine.execMovcWrite x s
  | .tlbi x => Sys2Proof.Machine.execTlbi x s
  | .tlbiAll g => Sys2Proof.Machine.execTlbiAll g s
  | .icinv x => Sys2Proof.Machine.execIcinv x s
  | .icinvAll g => Sys2Proof.Machine.execIcinvAll g s
  | .fres x => Sys2Proof.Machine.execFres x s
  | .fdisc x => Sys2Proof.Machine.execFdisc x s
  | .save x => Sys2Proof.Machine.execSave x s
  | .rest x => Sys2Proof.Machine.execRest x s
  | .sbrd x => Sys2Proof.Machine.execSbrd x s
  | .halt x => Sys2Proof.Machine.execHalt x s
  | .clauseEntry e => Sys2Proof.Machine.execClauseEntry e s
  | .lqTailWrite part q tail => Sys2Proof.Machine.execLqTailWrite part q tail s
  | .lqActivate part q => Sys2Proof.Machine.execLqActivate part q s
  | .lqPause part q => Sys2Proof.Machine.execLqPause part q s
  | .lqOff part q => Sys2Proof.Machine.execLqOff part q s
  | .launchRecordTake part => Sys2Proof.Machine.execLaunchRecordTake part s
  | .indexReady part serial idx => Sys2Proof.Machine.execIndexReady part serial idx s
  | .dispatch part serial idx cluster => Sys2Proof.Machine.execDispatch part serial idx cluster s
  | .agingExpiry part serial idx => Sys2Proof.Machine.execAgingExpiry part serial idx s
  | .tileFillComplete cg => Sys2Proof.Machine.execTileFillComplete cg s
  | .clusterGroupCompletion cg => Sys2Proof.Machine.execClusterGroupCompletion cg s
  | .agentRetryRetry part => Sys2Proof.Machine.execAgentRetryRetry part s
  | .agentRetryAbandon part => Sys2Proof.Machine.execAgentRetryAbandon part s
  | .eventPost part => Sys2Proof.Machine.execEventPost part s
  | .evqOvfClear part v => Sys2Proof.Machine.execEvqOvfClear part v s
  | .controlRegisterWrite part cr v => Sys2Proof.Machine.execControlRegisterWrite part cr v s
  | .preemptWindowExpiry warp => Sys2Proof.Machine.execPreemptWindowExpiry warp s
  | .warpSave warp => Sys2Proof.Machine.execWarpSave warp s
  | .warpRestore part slot => Sys2Proof.Machine.execWarpRestore part slot s
  | .migGo part => Sys2Proof.Machine.execMigGo part s
  | .migCopyDone part => Sys2Proof.Machine.execMigCopyDone part s
  | .migSwitch part => Sys2Proof.Machine.execMigSwitch part s
  | .migAbort part => Sys2Proof.Machine.execMigAbort part s
  | .shadowAttach part => Sys2Proof.Machine.execShadowAttach part s
  | .shadowDetach part => Sys2Proof.Machine.execShadowDetach part s
  | .uncorrectableLineError at_ => Sys2Proof.Machine.execUncorrectableLineError at_ s
  | .functionFence unit => Sys2Proof.Machine.execFunctionFence unit s
  | .partitionChange part mask => Sys2Proof.Machine.execPartitionChange part mask s
  | .keySlotChange slot op => Sys2Proof.Machine.execKeySlotChange slot op s
  | .hostPostedWrite addr data relaxed => Sys2Proof.Machine.execHostPostedWrite addr data relaxed s
  | .hostHdmAccess ofs op => Sys2Proof.Machine.execHostHdmAccess ofs op s
  | .recCmdRead => Sys2Proof.Machine.execRecCmdRead s
  | .recCmdWrite => Sys2Proof.Machine.execRecCmdWrite s
  | .poolWindowAttach w base size shared => Sys2Proof.Machine.execPoolWindowAttach w base size shared s
  | .combiningClose slice line => Sys2Proof.Machine.execCombiningClose slice line s
  | .snoopWritebackCrossing line inval => Sys2Proof.Machine.execSnoopWritebackCrossing line inval s
  | .linkSleep die => Sys2Proof.Machine.execLinkSleep die s
  | .linkWakeDone die => Sys2Proof.Machine.execLinkWakeDone die s
  | .snoopSlow die => Sys2Proof.Machine.execSnoopSlow die s
  | .dieUnresponsive die => Sys2Proof.Machine.execDieUnresponsive die s
  | .sectorThrottle sector cur => Sys2Proof.Machine.execSectorThrottle sector cur s
  | .cluReqWrite cluster v view => Sys2Proof.Machine.execCluReqWrite cluster v view s
  | .rampEnd cluster => Sys2Proof.Machine.execRampEnd cluster s
  | .canaryWarning cluster => Sys2Proof.Machine.execCanaryWarning cluster s
  | .canofsDecay cluster => Sys2Proof.Machine.execCanofsDecay cluster s
  | .slopeTick cluster energy draw => Sys2Proof.Machine.execSlopeTick cluster energy draw s
  | .ewTailWrite part tail => Sys2Proof.Machine.execEwTailWrite part tail s
  | .remoteCopyCompletion part slot => Sys2Proof.Machine.execRemoteCopyCompletion part slot s
  | .deviceStart => Sys2Proof.Machine.execDeviceStart s
  | .firmwareTimeout => Sys2Proof.Machine.execFirmwareTimeout s
  | .bootCmdCommit v => Sys2Proof.Machine.execBootCmdCommit v s
  | .recoveryVerifyDone => Sys2Proof.Machine.execRecoveryVerifyDone s
  | .getVersion => Sys2Proof.Machine.execGetVersion s
  | .getCapabilities => Sys2Proof.Machine.execGetCapabilities s
  | .negotiateAlgorithms => Sys2Proof.Machine.execNegotiateAlgorithms s
  | .getDigests => Sys2Proof.Machine.execGetDigests s
  | .getCertificate slot => Sys2Proof.Machine.execGetCertificate slot s
  | .challenge slot nonce => Sys2Proof.Machine.execChallenge slot nonce s
  | .getMeasurements index nonce => Sys2Proof.Machine.execGetMeasurements index nonce s
  | .illegalInstruction reason word => Sys2Proof.Machine.execIllegalInstruction reason word s
  | .firmwareStartEnd e => Sys2Proof.Machine.execFirmwareStartEnd e s
  | .migrationSourceLineError part line => Sys2Proof.Machine.execMigrationSourceLineError part line s
  | .hostCxlSnoop line snoop => Sys2Proof.Machine.execHostCxlSnoop line snoop s
  | .poolBackInvalidation line data => Sys2Proof.Machine.execPoolBackInvalidation line data s
  | .inboundRemoteCopy origin dofs data rcobj => Sys2Proof.Machine.execInboundRemoteCopy origin dofs data rcobj s
  | .swaitcReevaluate qg => Sys2Proof.Machine.execSwaitcReevaluate qg s

end Sys2Proof.Machine
end

