-- ==== Sys2Proof/Machine/Storage.lean ====
section
/-! DEFINITION. Reading storage that has an uncorrectable error (R321): which v registers and tile rows an instruction reads
in each lane, and the data-lost fault of class 14 (Table 18-1). Scratch words, stash lines and queue entries are judged where
they are read. -/

namespace Sys2Proof.Machine

/-! ## What an instruction reads -/

/-- A register, or a pair. -/
def regsOf (wide : Bool) (r : VReg) : List Nat := if wide then [r.toNat, r.toNat + 1] else [r.toNat]

/-- The registers of an address operand (Table 5-1). -/
def addrRegs (sp : Space) (a : VReg) : List Nat := regsOf (sp == .gl || sp == .sh) a

/-- The registers of a range operand: its start pair and its length. -/
def rangeRegs (x : RangeOps) : List Nat := regsOf true x.a ++ [x.lr.toNat]

/-- The registers that a store of a width reads. -/
def dataRegs (w : Width) (d : VReg) : List Nat := match w with
  | .b64 => regsOf true d
  | .b128 => (List.range 4).map (fun i => d.toNat + i)
  | _ => [d.toNat]

/-- The registers that QNT reads in a lane: the value, the format word, with feedback ρ, under `.ol` θ. -/
def qntRegs (ol : Bool) (x : QntOps) (t : Thread) : List Nat :=
  [x.a.toNat, x.fw.toNat] ++ (if fwFb (tWord t x.fw) then [x.c.toNat] else []) ++ (if ol then [x.c.toNat + 1] else [])

/-- The guard of an instruction that reads v registers, and the registers that a lane reads of its own. SHFL's source lane is
not among them. -/
def regReads : Instr → Option (Guard × (Thread → List Nat))
  | .iadd x | .isub x | .imul x | .imulh x | .imin x | .imax x | .and x | .or x | .xor x | .shl x | .shr x | .sar x | .bfx x =>
    some (x.g, fun _ => regsOf x.ty.wide x.a ++ regsOf x.ty.wide x.b)
  | .iaddImm x | .isubImm x | .imulImm x | .iminImm x | .imaxImm x | .andImm x | .orImm x | .xorImm x | .shlImm x | .shrImm x
  | .sarImm x => some (x.g, fun _ => regsOf x.ty.wide x.a)
  | .imad x | .bfi x => some (x.g, fun _ => regsOf x.ty.wide x.a ++ regsOf x.ty.wide x.b ++ regsOf x.ty.wide x.c)
  | .iabs x | .popc x | .clz x | .brev x | .mov x => some (x.g, fun _ => regsOf x.ty.wide x.a)
  | .iset x => some (x.g, fun _ => regsOf x.ty.wide x.a ++ regsOf x.ty.wide x.b)
  | .isetImm x => some (x.g, fun _ => regsOf x.ty.wide x.a)
  | .sel x => some (x.g, fun t => regsOf x.ty.wide (if getPred t x.p then x.a else x.b))
  | .lea x => some (x.g, fun _ => regsOf true x.a ++ [x.b.toNat])
  | .movToLk x | .brx x | .callReg x => some (x.g, fun _ => regsOf true x.a)
  | .pmovPut x | .budget x => some (x.g, fun _ => [x.a.toNat])
  | .fadd x | .fsub x | .fmul x => some (x.g, fun _ => regsOf x.ty.wide x.a ++ regsOf x.ty.wide x.b)
  | .ffma x => some (x.g, fun _ => regsOf x.ty.wide x.a ++ regsOf x.ty.wide x.b ++ regsOf x.ty.wide x.c)
  | .fmin x | .fmax x => some (x.g, fun _ => regsOf x.ty.wide x.a ++ regsOf x.ty.wide x.b)
  | .fset x => some (x.g, fun _ => regsOf x.ty.wide x.a ++ regsOf x.ty.wide x.b)
  | .frnd x | .frcp x | .frsq x | .fsqrt x | .fexp2 x | .flog2 x => some (x.g, fun _ => regsOf x.ty.wide x.a)
  | .fscl x => some (x.g, fun _ => regsOf x.ty.wide x.a ++ [x.b.toNat])
  | .fcls x => some (x.g, fun _ => regsOf x.ty.wide x.a)
  | .cvt x => some (x.g, fun _ => regsOf x.src.wide x.a)
  | .cvtiF2i x => some (x.g, fun _ => regsOf x.fmt.wide x.a)
  | .cvtiI2f x => some (x.g, fun _ => regsOf x.ity.wide x.a)
  | .qnt x => some (x.g, qntRegs false x)
  | .qntOl x => some (x.g, qntRegs true x)
  | .dqnt x => some (x.g, fun _ => regsOf x.ol x.a ++ [x.fw.toNat])
  | .pk4 x => some (x.g, fun _ => [x.a.toNat, x.b.toNat])
  | .upk4 x => some (x.g, fun _ => [x.a.toNat])
  | .brd x => some (x.g, fun _ => [x.a.toNat])
  | .braise x => some (x.g, fun _ => regsOf x.pair x.a ++ [x.b.toNat])
  | .bchk x => some (x.g, fun _ => [x.a.toNat] ++ (if x.reg then [x.b.toNat] else []))
  | .flgrdClr x | .grow x | .fres x | .fdisc x | .save x | .rest x | .sbrd x | .halt x => some (x.g, fun _ => [x.a.toNat])
  | .ld x => some (x.g, fun _ => addrRegs x.space x.a)
  | .st x => some (x.g, fun _ => addrRegs x.space x.a ++ dataRegs x.w x.d)
  | .pref x => some (x.g, fun _ => regsOf true x.a)
  | .smap x => some (x.g, fun _ => regsOf true x.a ++ [x.lr.toNat, x.orr.toNat])
  | .smapUn x => some (x.g, fun _ => regsOf true x.a ++ [x.lr.toNat])
  | .swb x | .sinv x | .cwb x | .tlbi x | .icinv x => some (x.g, fun _ => rangeRegs x)
  | .atom x | .red x => some (x.g, fun _ => addrRegs x.space x.a ++ regsOf x.ty.wide x.b)
  | .acas x => some (x.g, fun _ => addrRegs x.space x.a ++ regsOf x.ty.wide x.b ++ regsOf x.ty.wide x.c)
  | .csig x | .csigFl x | .cpendAdd x | .cpendSub x | .cwait x => some (x.g, fun _ => addrRegs x.space x.a ++ regsOf x.wide x.b)
  | .crd x => some (x.g, fun _ => addrRegs x.space x.a)
  | .shfl x => some (x.g, fun _ => [x.b.toNat])
  | .wred x => some (x.g, fun _ => regsOf x.ty.wide x.a)
  | .yld x => some (x.g, fun _ => [x.a.toNat] ++ (if x.two then [x.b.toNat] else []))
  | .mma x | .mmao x => some (x.g, fun _ => [x.fw.toNat, x.aux.toNat])
  | .wld x => some (x.g, fun _ => addrRegs x.space x.a)
  | .wst x => some (x.g, fun _ => addrRegs x.space x.a)
  | .movcWrite x => some (x.g, fun _ => regsOf x.cr.wide x.r)
  | _ => none

/-- The registers that an instruction reads in its lowest active lane alone, with its guard, and whether that lane reads for the whole
group: JOB and LNCH do (R258, R262), MWR's lane acts by itself (R219). -/
def leadReads : Instr → Option (Guard × List Nat × Bool)
  | .job x => some (x.g, [x.a.toNat], true)
  | .lnch x => some (x.g, [x.a.toNat, x.b.toNat], true)
  | .mwr x => some (x.g, [x.r.toNat], false)
  | _ => none

/-- The tile whose row an instruction reads, with its guard. -/
def rowReads : Instr → Option (Guard × BitVec 3)
  | .mma x | .mmao x => if x.z then none else some (x.g, x.ws)
  | .wmov x => some (x.g, x.ws)
  | .wst x => some (x.g, x.w)
  | .wdrn x => some (x.g, x.w)
  | .wbnd x => some (x.g, x.w)
  | _ => none

/-! ## Data lost (Table 18-1, class 14) -/

/-- Data lost in a v register: ARG0 is the place of its storage in the thread's registers (DESIGN CHOICE, log 89). -/
def regLost (t : Thread) (r : Nat) : FInfo := faultOf 14 0 (d64 (storageOf t r)) 0

/-- Data lost in a tile row: ARG0 is 32·tile + lane. -/
def rowLost (w : BitVec 3) (lane : Nat) : FInfo := faultOf 14 1 (d64 (w.toNat * 32 + lane)) 0

/-- The first of the registers a thread reads whose storage has an error. -/
def badReg (t : Thread) (rs : List Nat) : Option FInfo := (rs.find? (fun r => t.bad.contains (storageOf t r))).map (regLost t)

/-- The register of its source lane that a lane of SHFL reads. -/
def shflReads (s : State) (act : List Nat) (x : ShflOps) (t : Thread) : Option FInfo :=
  let n := shflSrc x.kind t.lane (tWord t x.b).toNat
  let src := ((act.filterMap (getThread s)).find? (fun y => decide ((y.lane : Int) = n))).getD t
  badReg src (regsOf x.wide x.a)

/-- Whether a tile row of a thread has an error. -/
def badRow (s : State) (t : Thread) (w : BitVec 3) : Bool := match warpOf s t with
  | some x => x.badRows.contains (w.toNat * 32 + t.lane)
  | none => false

/-- What a lane of an instruction reads whose data is lost: its registers, its source lane's, its tile row. -/
def laneLost (s : State) (g : Group) (i : Instr) (t : Thread) : Option FInfo :=
  let own := match regReads i with
    | some (gd, rs) => if guardHolds t gd then badReg t (rs t) else none
    | none => none
  let other := match i with
    | .shfl x => if guardHolds t x.g then shflReads s (guardedOf s g x.g) x t else none
    | _ => none
  let row := match rowReads i with
    | some (gd, w) => if guardHolds t gd && badRow s t w then some (rowLost w t.lane) else none
    | none => none
  own.or (other.or row)

/-- Whether any storage that a group's instruction could read has an error. -/
def anyBad (s : State) (g : Group) : Bool := g.members.any (fun k => match getThread s k with
  | some t => !t.bad.isEmpty || (match warpOf s t with
    | some w => !w.badRows.isEmpty
    | none => false)
  | none => false)

/-- Data lost in what the lowest active lane reads alone: its fault, and where it reads for its group that of every active lane
(DESIGN CHOICE, log 101). -/
def leadLost (s : State) (g : Group) (i : Instr) : List (Nat × FInfo) := match leadReads i with
  | none => []
  | some (gd, rs, all) =>
    let ks := guardedOf s g gd
    match (ks.head?.bind (getThread s)).bind (fun t => badReg t rs) with
    | some f => (if all then ks else ks.take 1).map (fun k => (k, f))
    | none => []

/-- The lanes of a group that read lost data with an instruction. -/
def storageFaults (s : State) (g : Group) (i : Instr) : List (Nat × FInfo) :=
  if !anyBad s g then []
  else g.members.filterMap (fun k => (getThread s k).bind (fun t => (laneLost s g i t).map (fun f => (k, f)))) ++ leadLost s g i

/-- The lanes that read lost data take their fault at the slot once the others have executed it, unless the instruction took it with
its own faults: one fragment (R32, R321). A group that waits at its slot for queue entries has executed nothing. `s` is the
state before the instruction. -/
def endLost (gid : Nat) (g : Group) (fs : List (Nat × FInfo)) (s t : State) : State :=
  let u := { t with lost := [] }
  if t.lost.isEmpty || (getGroup t gid).any (fun x => x.hold == .queue) then u
  else if faultsWait s fs then { s with fresh := t.fresh }
  else match faultsAsk s fs with
  | some d => wakeDie { s with fresh := t.fresh } d
  | none => (raise s u g.members fs (slotPc g.pass) (some g.pass) (slotPc g.pass) (some g.pass)).1

end Sys2Proof.Machine
end

