-- ==== Sys2Proof/Machine/Sched.lean ====
section
/-! DEFINITION. What one step does (log 1): an act of the agenda, or, when the agenda is empty, an act in a default order
that makes the progress R45 promises. -/

namespace Sys2Proof.Machine

/-! ## Issuing a slot -/

/-- The register allocations of a group's members. -/
def groupAllocs (s : State) (g : Group) : List Alloc := ((g.members.filterMap (getThread s)).map (allocOf s)).eraseDups

/-- Whether the word at a pass's slot is legal under an allocation (R157-R159). -/
def fitsAlloc (p : Pass) (w : DWord) (al : Alloc) : Bool := match legal p.cls (p.slot + 1 == p.words.length) (some al) w with
  | .ok _ => true
  | .error _ => false

/-- The register allocation that a group executes a word under: its members', or, where these differ, the first one's that the word
fits (DEDUCED, log 36). -/
def groupAlloc (s : State) (g : Group) (w : DWord) : Alloc :=
  let als := groupAllocs s g
  ((als.find? (fitsAlloc g.pass w)).or als.head?).getD ⟨0, 0⟩

/-- The instruction of a pass's slot: what the word decodes to, or the illegal-instruction trap (R157-R159). -/
def passInstr (p : Pass) (al : Option Alloc) (w : DWord) : Instr :=
  match legal p.cls (p.slot + 1 == p.words.length) al w with
  | .ok i => i
  | .error r => .illegalInstruction r w

/-- The members of a group that a word does not fit, which fits others: each is judged under its own allocation (R158), and takes the
trap of an illegal register by itself. -/
def misfits (s : State) (g : Group) (w : DWord) : List (Nat × FInfo) :=
  let als := groupAllocs s g
  if als.length ≤ 1 || !als.any (fitsAlloc g.pass w) then []
  else (g.members.filter (fun k => (getThread s k).any (fun t => !fitsAlloc g.pass w (allocOf s t)))).map (fun k =>
    (k, faultOf 0 (IllReason.code .register) w 0))

/-- What a step does to the state it leaves; a stop stays one. -/
def afterwards (f : State → State) (o : Out) : Out := match o with
  | .next s => .next (f s)
  | .fault x => .fault x
  | .refused r => .refused r

/-- Count an instruction of a MEM clause, or of an ALU or MAT clause, that a cluster group has issued (R341). -/
def noteIssue (now : DWord) (mem : Bool) (g : ClusterGroup) : ClusterGroup :=
  { g with issued := (now, mem) :: g.issued.filter (fun e => decide ((now - e.1).toNat < 4096)) }

/-- A group that has left its slot has issued its instruction, which its cluster groups count. -/
def countIssue (gid : Nat) (g : Group) (s : State) : State :=
  if !(g.pass.cls == clsMem || g.pass.cls == clsAlu || g.pass.cls == clsMat)
    || (getGroup s gid).map (fun x => x.pass.slot) == some g.pass.slot then s
  else (g.members.map (fun k => k / 32768)).eraseDups.foldl (fun s c =>
    { s with clusterGroups := Map.adjust s.clusterGroups c (noteIssue s.clock (g.pass.cls == clsMem)) }) s

/-- Whether a held group has read its operands before it was held. -/
def operandsRead : Hold → Bool
  | .jobFull _ | .lnch _ | .gcur _ | .shadow _ => true
  | .none | .clauseWait _ | .queue | .yld | .sleep _ => false

/-- The guard of an instruction whose threads release their earlier accesses at `.pkg` or wider (R122, R131, R262, R275, R316, R331,
R334). A FENCE stands for the store that follows it (DESIGN CHOICE, log 20). -/
def releases (i : Instr) : Option Guard :=
  let at_ (g : Guard) (o : Ord) (sc : Scope) : Option Guard :=
    if (o == .rel || o == .ar) && (sc == .pkg || sc == .fab || sc == .sys) then some g else none
  match i with
  | .st x => at_ x.g x.ord x.scope
  | .wst x => at_ x.g x.ord x.scope
  | .atom x | .red x => at_ x.g x.ord x.scope
  | .acas x => at_ x.g x.ord x.scope
  | .csig x | .csigFl x | .cpendAdd x | .cpendSub x => at_ x.g x.ord x.scope
  | .fence x => at_ x.g x.ord x.scope
  | .fenceJ x => at_ x.g .rel x.scope
  | .lnch x => some x.g
  | .fres x | .fdisc x | .rest x => some x.g
  | .movcWrite x => if x.cr == .lqTail || x.cr == .agentRetry then some x.g else none
  | _ => none

/-- Threads of a group that have left its slot without a fault have made its instruction's release: what they have invalidated of code
is settled (R133). `s` is the state before the instruction. -/
def settleCode (gid : Nat) (g : Group) (i : Instr) (s t : State) : State :=
  if s.mem.inval.isEmpty || (getGroup t gid).map (fun x => x.pass.slot) == some g.pass.slot then t
  else match releases i with
    | none => t
    | some gd => (guardedOf s g gd).foldl (fun t k =>
        if (getThread s k).map (fun x => (x.frag, x.hand)) == (getThread t k).map (fun x => (x.frag, x.hand)) then settleFor t k else t) t

/-- A group executes an instruction at its slot: the lanes that `bad` names, and those that read lost data, fault there, the others
complete it (R32, R158, R321). -/
def runSlot (s : State) (gid : Nat) (g : Group) (bad : List (Nat × FInfo)) (i : Instr) : Out :=
  let lost := if operandsRead g.hold then [] else storageFaults s g i
  let fs := bad.foldl (fun l f => insLost s f l) (lost.filter (fun f => !bad.any (fun b => b.1 == f.1)))
  let s := { s with cur := .group gid, lost := fs }
  afterwards (fun t => settleCode gid g i s (countIssue gid g (endLost gid g fs { s with lost := [] } t))) (exec i s)

/-- A group executes its slot. A group held before it goes on with what it is held for. -/
def issueGroup (s : State) (gid : Nat) (g : Group) : Out :=
  match g.hold with
  | .clauseWait m => .next (clauseWaitStep s gid g m)
  | .sleep _ => exec (.sleepEnd gid) { s with cur := .none }
  | _ => match g.pass.words[g.pass.slot]? with
    | some w => runSlot s gid g (misfits s g w) (passInstr g.pass (some (groupAlloc s g w)) w)
    | none => .next s

/-- Issue group `gid`: waits that are over end; then its slot executes. -/
def issue (s : State) (gid : Nat) : Out :=
  match getGroup s gid with
  | none => .next s
  | some g =>
    if groupStopped s g then .next s
    else if !g.waits.isEmpty then .next (settleWaits s gid)
    else issueGroup s gid g

/-- Whether the turret may run an instance (R113, R319). -/
def sliceRuns (s : State) (qk : Nat) (x : Slice) : Bool :=
  (x.st == .run || x.st == .full) && (match Map.get? s.coreGroups (qk / 4) with
    | some c => !c.saved
    | none => false)

/-- The core of a quad group. -/
def sliceCore (s : State) (qk : Nat) : Nat := match Map.get? s.coreGroups (qk / 4) with
  | some c => c.core
  | none => 0

/-- The turret runs one instruction of an instance, which has then had its turn (R113), or enters its next clause. -/
def turret (s : State) (qk : Nat) : Out :=
  match getSlice s qk with
  | none => .next s
  | some x =>
    if !sliceRuns s qk x then .next s
    else match x.pass with
      | none => exec (.clauseEntry (.slice qk)) { s with cur := .none }
      | some p => match p.words[p.slot]? with
        | some w => exec (passInstr p none w) { s with cur := .slice qk, turns := Map.put s.turns (sliceCore s qk) qk }
        | none => .next s

/-- Clocks that pass at once: less than 2^32, so that the time base never steps back. -/
def clocks (n : Nat) : DWord := d64 (n % 2 ^ 32)

/-- One act. An act that is not possible leaves the state as it is. -/
def act (s : State) (a : Act) : Out :=
  let s := { s with lost := [] }
  match a with
  | .event i => exec i { s with cur := .none }
  | .issue gid => issue s gid
  | .slice qk => turret s qk
  | .elapse n => .next { s with clock := s.clock + clocks n }

/-! ## The default order -/

/-- The part of a state that an act must change to be of use: not caches, free values drawn or the model's own fields. -/
def apartFrom (s t : State) : State :=
  { t with cur := s.cur, fresh := s.fresh, clock := s.clock, turns := s.turns,
           mem := { t.mem with tlb := s.mem.tlb, tabs := s.mem.tabs, walks := s.mem.walks, code := s.mem.code, l1 := s.mem.l1,
                               l2 := s.mem.l2, uses := s.mem.uses } }

def useful (s : State) (a : Act) : Bool :=
  match act s a with
  | .next t => decide (apartFrom s t ≠ s)
  | _ => true

/-- Insert into a list in an order. -/
def insBy {α : Type} (le : α → α → Bool) (x : α) : List α → List α
  | [] => [x]
  | y :: r => if le x y then x :: y :: r else y :: insBy le x r

def sortBy {α : Type} (le : α → α → Bool) (l : List α) : List α := l.foldl (fun a x => insBy le x a) []

/-- A list from its n-th element on, the others after it. -/
def rotate {α : Type} (n : Nat) (l : List α) : List α := l.drop (n % l.length) ++ l.take (n % l.length)

/-- Dispatches of a launch: for each die of its placement, the first cluster with room, or any for an index that can only
be skipped or asks for room. -/
def dispatchActs (s : State) (l : Launch) : List Act :=
  l.place.eraseDups.filterMap (fun d => (firstReady l d l.g 0).map (fun i =>
    let kept := keptFor s l i
    let c := match (dieClusters d).find? (fun c => (placeOn s kept l.part c l.r).isSome) with
      | some c => c
      | none => d * 16
    .event (.dispatch l.part l.serial i c)))

/-- Indices whose dependences are to be evaluated: all that wait (R280). -/
def readyActs (l : Launch) : List Act :=
  if noDeps l then [] else ((List.range l.g).filter (idxWaits l)).map (fun i => .event (.indexReady l.part l.serial i))

/-- Indices of a launch that have waited for room (R284). -/
def agingActs (l : Launch) : List Act := l.waits.keys.map (fun i => .event (.agingExpiry l.part l.serial i))

/-- Launches in dispatch order. -/
def launchOrder (s : State) : List Launch := sortBy before s.launches.vals

/-- What the agents of a partition may do. -/
def partActs (s : State) (p : Nat) : List Act :=
  let q := partOf s p
  [.event (.eventPost p), .event (.launchRecordTake p), .event (.migCopyDone p), .event (.shadowAttach p), .event (.shadowDetach p)]
    ++ q.jobs.keys.flatMap (fun j => [.event (.jobCompletion p j), .event (.jobStart p j)])

/-- What ends by itself in the package: a link's waking, a combining entry, the host's posted writes. -/
def packageActs (s : State) : List Act :=
  (s.pkg.dies.filter (fun e => e.2.waking)).map (fun e => .event (.linkWakeDone e.1))
    ++ s.pkg.combs.map (fun e => .event (.combiningClose e.slice e.line))
    ++ (if s.host.posted.isEmpty then [] else [.event (.hostPostedWrite 0 [] false)])

/-- What happens in the package between threads' instructions. -/
def agentActs (s : State) : List Act :=
  s.parts.keys.flatMap (partActs s)
    ++ (launchOrder s).flatMap (fun l => readyActs l ++ agingActs l ++ dispatchActs s l)
    ++ s.clusterGroups.keys.flatMap (fun c => [.event (.tileFillComplete c), .event (.clusterGroupCompletion c)])
    ++ s.quadGroups.flatMap (fun e => e.2.queues.flatMap (fun q =>
        (List.range q.2.entries.length).map (fun i => Act.event (.queueEntryReady e.1 q.1 i))))
    ++ s.quadGroups.keys.map (fun k => .event (.swaitcReevaluate k))
    ++ s.warps.keys.map (fun w => .event (.warpSave w))
    ++ packageActs s

/-- Turns of the turrets (R113): on each core the instance after the one served last, round-robin. -/
def sliceActs (s : State) : List Act :=
  let cores := (s.coreGroups.vals.map (fun c => c.core)).eraseDups
  (rotate (s.acts / 2) cores).flatMap (fun c =>
    let ks := s.quadGroups.keys.filter (fun k => sliceCore s k == c)
    let last := Map.get 0 s.turns c
    (ks.filter (fun k => decide (last < k)) ++ ks.filter (fun k => decide (k ≤ last))).map .slice)

/-- The header of the clause that a thread stands at or in; none for one that is not at a clause. -/
def standsAt (s : State) (t : Thread) : Option DWord :=
  match t.st with
  | .entry => some (match t.pass with
    | some p => p.hdr
    | none => t.pc)
  | .grouped g => (getGroup s g).map (fun x => x.pass.hdr)
  | _ => none

/-- The PC-table entry of a thread (R26): its core, its quad and its clause. -/
def pcEntry (s : State) (t : Thread) : Option (Nat × Nat × DWord) := (standsAt s t).map (fun h => (coreOf s t, quadOf s t, h))

/-- The PC tables of the threads as they stand: entries that still have a thread keep their places, new ones are younger. -/
def notePcs (s : State) : State :=
  let now := (s.threads.vals.filterMap (pcEntry s)).eraseDups
  { s with pcTable := s.pcTable.filter now.contains ++ now.filter (fun e => !s.pcTable.contains e) }

/-- A thread's place in the choice of R287: its launch's class, its PC-table entry's age, itself. -/
structure Claim where
  cls : Nat
  age : Nat
  thread : Thread

def claimOf (s : State) (t : Thread) : Claim :=
  ⟨match threadLaunch s t with
    | some l => l.cls
    | none => 4, match pcEntry s t with
    | some e => s.pcTable.idxOf e
    | none => s.pcTable.length, t⟩

/-- Higher class first, then the older entry, then the lower identifier. -/
def Claim.le (a b : Claim) : Bool :=
  decide (a.cls < b.cls) || (a.cls == b.cls && (decide (a.age < b.age) || (a.age == b.age && gtidLe a.thread b.thread)))

/-- The quads that hold threads. -/
def quadsOf (s : State) : List (Nat × Nat) := (s.threads.vals.map (fun t => (coreOf s t, quadOf s t))).eraseDups

/-- How often a quad has issued since it issued its lowest ready thread's candidate. -/
def sinceLow (s : State) (core quad : Nat) : Nat := Map.get 0 s.lows (4 * core + quad)

/-- The threads of a quad in the order in which it chooses among them (R287): every sixteenth time its lowest identifier first. -/
def quadOrder (s : State) (q : Nat × Nat) : List Thread :=
  let ts := s.threads.vals.filter (fun t => (coreOf s t, quadOf s t) == q)
  if 15 ≤ sinceLow s q.1 q.2 then sortBy gtidLe ts else (sortBy Claim.le (ts.map (claimOf s))).map (fun c => c.thread)

/-- The quads in turn, each with its threads. -/
def threadOrder (s : State) : List Thread := (rotate (s.acts / 2) (quadsOf s)).flatMap (quadOrder s)

/-- The threads of partition p by global identifier, then the others. -/
def lowestFirst (s : State) (p : Nat) : List Thread :=
  let l := sortBy gtidLe s.threads.vals
  l.filter (fun t => threadPart s t == p) ++ l.filter (fun t => threadPart s t != p)

/-- What a thread's turn is: its group's slot, or the entry of the clause it stands at. -/
def threadActs (s : State) (t : Thread) : List Act :=
  match t.st with
  | .grouped g => [.issue g, .event (.cwaitReevaluate g), .event (.jobAccept g)]
  | .entry => if t.pass.isNone then [.event (.clauseEntry (.threads (coreOf s t) (quadOf s t) t.pc))] else []
  | _ => []

/-- The restores of a partition's images of a warp. -/
def restoreActs (s : State) (p : Nat) (want : Nat → Bool) : List Act :=
  ((partOf s p).images.filter (fun m => want m.warp)).map (fun m => .event (.warpRestore p m.first))

/-- What R45 requires for the lowest runnable thread of a partition while it is not resident: its warp is restored, or asks for the
place of others. -/
def returnActs (s : State) (p : Nat) : List Act := match absentWarp s p with
  | none => []
  | some (wk, _) => restoreActs s p (fun x => x == wk)

/-- When no thread can go on images are restored. -/
def idleActs (s : State) : List Act := s.parts.keys.flatMap (fun p => restoreActs s p (fun _ => true))

/-- Whether an act is the turn of the lowest runnable thread of a partition (R45). -/
def lowTurn (s : State) : Bool := s.acts % 16 == 0

/-- The acts of a running device in the default order. The lowest runnable thread of a partition that is not resident comes first;
every sixteenth act is that of the lowest one of one of the partitions in turn (R45, R287); else agents act, then threads and turrets,
first the ones and then the others. -/
def runActs (s : State) : List Act :=
  s.parts.keys.flatMap (returnActs s)
    ++ (if lowTurn s then (lowestFirst s (s.acts / 16 % 4)).flatMap (threadActs s) ++ agentActs s ++ sliceActs s
      else
        let ts := (threadOrder s).flatMap (threadActs s)
        agentActs s ++ (if s.acts % 2 = 0 then sliceActs s ++ ts else ts ++ sliceActs s))
    ++ idleActs s

/-- The default act: the start of the device, then the first act of the default order that is of use. -/
def chooseAct (s : State) : Act :=
  match s.boot.mode.toNat with
  | 0 => .event .deviceStart
  | 1 => .event (.firmwareStartEnd .ready)
  | 3 => if s.boot.busy then .event .recoveryVerifyDone else .elapse 1
  | _ => ((runActs s).find? (useful s)).getD (.elapse 1)

/-- The quad that an act lets issue. -/
def issuingQuad (s : State) (a : Act) : Option (Nat × Nat) := match a with
  | .issue gid => (getGroup s gid).map (fun g => (g.core, g.quad))
  | .event (.clauseEntry (.threads core quad _)) => some (core, quad)
  | _ => none

/-- A quad's issue in the default order is counted, from its lowest ready thread's on (R287). -/
def countTurn (s : State) (a : Act) (t : State) : State := match issuingQuad s a with
  | none => t
  | some (core, quad) =>
    { t with lows := Map.putD 0 t.lows (4 * core + quad) (if lowTurn s || decide (15 ≤ sinceLow s core quad) then 0 else sinceLow s core quad + 1) }

/-- Time passes by an amount the manual leaves open, one clock at least. -/
def tick (s : State) : State := { s with clock := s.clock + clocks (Config.freeClocks s.fresh % 2 ^ 31 + 1), fresh := s.fresh + 1 }

/-- Threads of warps that have been asked to go stop where they stand once they are not runnable or in a handler, and all of them when
the window is over (R317). -/
def stopAsked (s : State) : State :=
  ((s.warps.filter (fun e => e.2.preq.isSome && !e.2.saved)).map (·.1)).foldl (fun s wk => expireWindow (stopStanding s wk) wk) s

/-- Discarded threads whose writes have landed exit (R332). -/
def endLeavers (s : State) : State :=
  let ks := leavers s
  if ks.isEmpty then s else noteGone s (ks.foldl exitThread s)

/-- The exit of a thread is a release of its accesses (R136), and settles what it has invalidated of code (R133). -/
def settleGone (s : State) : State :=
  (s.mem.inval.keys.filter (fun k => (getThread s k).isNone)).foldl settleFor s

/-- What waits for the answer of a die that answers again goes on (R344): agents' accesses, snoops from outside. -/
def answerWaits (s : State) : State :=
  retrySnoops (wakeThose (fun f => f.waits && f.arg0 != 0 && !silent s (f.arg0.toNat - 1)) s)

/-- What a step leaves beside its act: the act is counted, and what follows from it by itself is done; the PC tables follow the
threads. -/
def noteAct (s : State) : State :=
  notePcs (settleGone (endLeavers (answerWaits (stopAsked { s with acts := s.acts + 1, mem := { s.mem with walks := [] } }))))

/-- One step. -/
def runStep (s : State) : Out :=
  afterwards noteAct (match s.agenda with
    | a :: r => act { s with agenda := r } a
    | [] => afterwards (countTurn s (chooseAct s)) (act (tick s) (chooseAct s)))

/-! ## An instruction to run next -/

/-- A launch of one thread, for `placeWord`. -/
def soloRecord : LRec where
  priv := true
  l := 1
  c := 1
  q := 1
  t := 1
  g := 1
  gceil := 1
  reclen := 0
  kcode := 0
  acode := 0
  parm := 0
  place := 0
  ubase := 0
  compl := 0
  cbmp := 0
  alloc := 256
  n := 192
  stash := 0
  scratch := 0
  queues := []
  bud := 0
  recbase := 0
  deps := []
  tiles := []

/-- The single-slot pass of a word: a SYS clause, or STR for an access-slice major. -/
def soloPass (str : Bool) (w : DWord) : Pass := ⟨0, if str then clsStr else clsSys, [w], 0⟩

/-- Whether a word is for the access slice: majors 0xD8-0xDF. -/
def isStrWord (w : DWord) : Bool := decide (0xD8 ≤ majorOf w ∧ majorOf w ≤ 0xDF)

/-- A thread stands before a word: one privileged thread in its own cluster group, its issue group at the word's slot; for
an access-slice word, the quad group's instance stands there. The agenda runs it next. -/
def placeWord (s : State) (w : DWord) : State :=
  let str := isStrWord w
  let u := s.nextId
  let t := newThread u 0 0 0 0 0 soloRecord true
  let l : Launch := ⟨0, 0, 0, true, soloRecord, 1, [0], [(0, .placed)], [], false, false⟩
  { s with
    nextId := u + 2,
    agenda := [if str then .slice (u * 32) else .issue (u + 1)],
    launches := Map.put s.launches (launchKey 0 0) l,
    clusterGroups := Map.put s.clusterGroups u (newClusterGroup 0 0 0 0 0 .running),
    coreGroups := Map.put s.coreGroups (u * 8) (newCoreGroup u 0 0),
    quadGroups := Map.put s.quadGroups (u * 32) ⟨u, 0, 0, 0, [], if str then some ⟨[], 0, some (soloPass true w), [], .run⟩ else none⟩,
    warps := Map.put s.warps (u * 1024) (newWarp u 0 0 0 0 s.clock),
    threads := Map.put s.threads (threadKey u 0) (if str then t else { t with st := .grouped (u + 1) }),
    groups := if str then s.groups else Map.put s.groups (u + 1) ⟨0, 0, [threadKey u 0], soloPass false w, [], .none⟩ }

end Sys2Proof.Machine
end

