-- ==== Sys2Proof/Safety.lean ====
section
/-! DEFINITION. What a sound state of the device is (the canonical form of memory, and that no step stops the machine), and
the terms statements use: where a group stands, what its lanes do one after another, and how a slot completes. -/

namespace Sys2Proof.Safety

open Sys2Proof.Machine

/-- Physical memory is in its canonical form. -/
def MemOk (s : State) : Prop := memWf s.mem.bytes = true

/-- Partials and cached translations are aligned: an update-only partial to its operand's size (R198, R212); a cached leaf's
base to its page's size, which is a multiple of 4 KiB, and a cached table entry's to what the entry covers (R291, R295). -/
def Aligned (s : State) : Prop := (∀ p ∈ s.mem.partials, p.pa % p.ty.bytes = 0)
  ∧ (∀ e ∈ s.mem.tlb, e.size % 4096 = 0 ∧ e.base % e.size = 0) ∧ ∀ e ∈ s.mem.tabs, e.base % e.size = 0

/-- A sound state. -/
def Sound (s : State) : Prop := MemOk s ∧ Aligned s

/-- A thread in a system handler is privileged and one in a user handler is not (R305, R312). -/
def HandlerModes (s : State) : Prop :=
  ∀ e ∈ s.threads, ((e.2.hand = .system ∨ e.2.hand = .noEntry) → e.2.priv = true) ∧ (e.2.hand = .user → e.2.priv = false)

/-- A step goes on: every fault of the device has an effect (R304, R315), so no step ends the machine. -/
def GoesOn (s : State) : Prop := ∃ t, step s = .next t

/-! ## How an instruction of an issue group completes -/

/-- The instruction that runs is that of issue group `gid`, and none of its lanes reads lost data with it (R321). -/
def At (s : State) (gid : Nat) (g : Group) : Prop := curGroup s = some (gid, g) ∧ s.lost = []

/-- A change of each listed thread, in order. -/
def onThreads (f : Thread → Thread) (ks : List Nat) (s : State) : State := ks.foldl (fun s k => modThread s k f) s

/-- The steps of lanes, in ascending order, each seeing what the lanes before it left (R28); none where a lane traps. -/
def runLanes (f : Nat → Thread → State → Option State) : List Nat → State → Option State
  | [], s => some s
  | k :: r, s => match getThread s k with
    | none => runLanes f r s
    | some t => (f k t s).bind (runLanes f r)

/-- In every issue group, each active lane's thread changes by `f`, nothing else changes, and the group goes on. -/
def EachLane (i : Instr) (gd : Guard) (f : State → Thread → Thread) : Prop :=
  ∀ s gid g, At s gid g → exec i s = .next (advance (onThreads (f s) (activeOf s g gd) s) gid)

/-- In every issue group, the active lanes make the step `f` in order, and the group goes on, unless a lane traps. -/
def LaneSteps (i : Instr) (gd : Guard) (f : Nat → Nat → Thread → State → Option State) : Prop :=
  ∀ s gid g u, At s gid g → runLanes (f gid) (activeOf s g gd) s = some u → exec i s = .next (advance u gid)

/-- A lane step that changes its own thread, or traps. -/
def ownStep (f : Thread → Option Thread) (k : Nat) (t : Thread) (s : State) : Option State := (f t).map (setThread s k)

/-- What an access-slice instance does with an instruction of the STR subset: a registers written, the next slot (R144). -/
def sliceWrites (w : List (Nat × Reg)) (x : Slice) : Slice :=
  sliceAdvance { x with a := w.foldl (fun m y => Map.putD 0 m y.1 y.2.val) x.a }

/-- An instruction of the STR subset: registers written and flags set from the registers read, in each active thread of an
issue group, or in an access-slice instance, which has no flags and no bounds (R67, R144). -/
def Computes (i : Instr) (gd : Guard) (e : RegFile → List (Nat × Reg) × Byte) : Prop :=
  EachLane i gd (fun _ t => orFlags (setRegs t (e (getReg t)).1) (e (getReg t)).2)
  ∧ ∀ s qk, s.cur = .slice qk → exec i s = .next (modSlice s qk (fun x => sliceWrites (e (sliceRegs x)).1 x))

end Sys2Proof.Safety
end

