-- ==== Sys2Proof/Certificates/Slice0/Obligations.lean ====
section
/-! DEFINITION. Statements for the provers, from the manual's numbered rules. `Sys2Proof.Claims` holds the terms they use. -/

namespace Sys2Proof.Claims

open Sys2Proof.Machine Sys2Proof.Safety

/-! ## Integers (R162-R172): operands, results -/

/-- The operand a register or a pair holds, in a type's signedness (R163). -/
def intVal (ty : Ty) (rf : RegFile) (r : VReg) : Int :=
  match ty with
  | .s32 => (rf r.toNat).val.toInt
  | .s64 => ((rf (r.toNat + 1)).val ++ (rf r.toNat).val).toInt
  | .n64 => ((rf (r.toNat + 1)).val ++ (rf r.toNat).val).toNat
  | _ => (rf r.toNat).val.toNat

/-- The immediate operand of an I form (R162). -/
def immVal (ty : Ty) (imm : Word) : Int := match ty with
  | .s32 | .s64 => imm.toInt
  | _ => imm.toNat

def intLow : Ty → Int
  | .s32 => -2 ^ 31
  | .s64 => -2 ^ 63
  | _ => 0

def intHigh : Ty → Int
  | .s32 => 2 ^ 31 - 1
  | .s64 => 2 ^ 63 - 1
  | .n64 => 2 ^ 64 - 1
  | _ => 2 ^ 32 - 1

/-- The registers of a result wrapped to the type's width, shadows zero (R163, R67). -/
def intRegs (ty : Ty) (d : VReg) (v : Int) : List (Nat × Reg) :=
  match ty with
  | .s64 | .n64 => [(d.toNat, ⟨BitVec.ofInt 32 v, 0⟩), (d.toNat + 1, ⟨BitVec.ofInt 32 (v / 2 ^ 32), 0⟩)]
  | _ => [(d.toNat, ⟨BitVec.ofInt 32 v, 0⟩)]

/-- An exact value as it is written: wrapped, or with SAT clamped, SA being set when the clamp changed it (R163). -/
def intOut (ty : Ty) (sat : Bool) (d : VReg) (v : Int) : List (Nat × Reg) × Byte :=
  let c := if sat then max (intLow ty) (min (intHigh ty) v) else v
  (intRegs ty d c, if c = v then 0 else 0x80)

/-- d := f(a, b) of integers. -/
def intOp2 (x : IntRR) (f : Int → Int → Int) (rf : RegFile) : List (Nat × Reg) × Byte :=
  intOut x.ty x.sat x.d (f (intVal x.ty rf x.a) (intVal x.ty rf x.b))

def intOpI (x : IntRI) (f : Int → Int → Int) (rf : RegFile) : List (Nat × Reg) × Byte :=
  intOut x.ty false x.d (f (intVal x.ty rf x.a) (immVal x.ty x.imm))

/-- d := f(a, b) on bits: narrow and wide results. -/
def bitOp2 (x : IntRR) (f : Word → Word → Word) (g : DWord → DWord → DWord) (rf : RegFile) : List (Nat × Reg) × Byte :=
  (if x.ty.wide then wrTy true x.d (g (rdTy rf true x.a) (rdTy rf true x.b)) 0
   else [(x.d.toNat, ⟨f (rdVal rf x.a) (rdVal rf x.b), 0⟩)], 0)

/-- The same with an immediate: for a pair it is sign-extended under `.s64` and zero-extended under `.n64` (R162). -/
def bitOpI (x : IntRI) (f : Word → Word → Word) (g : DWord → DWord → DWord) (rf : RegFile) : List (Nat × Reg) × Byte :=
  (if x.ty.wide then wrTy true x.d (g (rdTy rf true x.a) (if x.ty == .s64 then x.imm.signExtend 64 else x.imm.setWidth 64)) 0
   else [(x.d.toNat, ⟨f (rdVal rf x.a) x.imm, 0⟩)], 0)

/-- d := f(a) on bits. -/
def bitOp1 (x : IntR) (f : Word → Word) (g : DWord → DWord) (rf : RegFile) : List (Nat × Reg) × Byte :=
  (if x.ty.wide then wrTy true x.d (g (rdTy rf true x.a)) 0 else [(x.d.toNat, ⟨f (rdVal rf x.a), 0⟩)], 0)

/-- A field of a value: L = min(len, w) bits from pos, positions from w up reading as zero (R164). -/
def fieldOf {w : Nat} (signed : Bool) (a : BitVec w) (k : Word) : BitVec w :=
  let f := (a >>> (k.toNat % 256)).setWidth (min (k.toNat / 256 % 256) w)
  if signed then f.signExtend w else f.setWidth w

/-- A value with bits pos to min(pos + L, w) − 1 replaced by the low bits of b (R164). -/
def fieldPut {w : Nat} (a b : BitVec w) (k : Word) : BitVec w :=
  let pos := k.toNat % 256
  let m := ((BitVec.allOnes (min (k.toNat / 256 % 256) w)).setWidth w) <<< pos
  (a &&& ~~~m) ||| ((b <<< pos) &&& m)

/-- How many of a value's bits are 1. -/
def onesOf {w : Nat} (a : BitVec w) : Nat := (List.range w).countP (fun i => a.getLsbD i)

end Sys2Proof.Claims

open Sys2Proof Sys2Proof.Machine Sys2Proof.Safety Sys2Proof.Claims

/-- R163, Table 8-2: IADD, ISUB, IMUL, IMULH, IMAD, IMIN, IMAX, IABS and their immediate forms complete in every issue group
and every access-slice instance with the exact integer result, wrapped, or clamped under SAT with SA set when the clamp
changed it; every destination shadow is written zero and no other flag is set. -/
def Obligations.IntegerArithmeticResults : Prop :=
  (∀ x, WellFormed (.iadd x) → Computes (.iadd x) x.g (intOp2 x (fun a b => a + b)))
  ∧ (∀ x, WellFormed (.isub x) → Computes (.isub x) x.g (intOp2 x (fun a b => a - b)))
  ∧ (∀ x, WellFormed (.imul x) → Computes (.imul x) x.g (intOp2 x (fun a b => a * b)))
  ∧ (∀ x, WellFormed (.imulh x) → Computes (.imulh x) x.g (intOp2 x (fun a b => a * b / (if x.ty.wide then 2 ^ 64 else 2 ^ 32))))
  ∧ (∀ x, WellFormed (.imin x) → Computes (.imin x) x.g (intOp2 x min))
  ∧ (∀ x, WellFormed (.imax x) → Computes (.imax x) x.g (intOp2 x max))
  ∧ (∀ x, WellFormed (.iaddImm x) → Computes (.iaddImm x) x.g (intOpI x (fun a b => a + b)))
  ∧ (∀ x, WellFormed (.isubImm x) → Computes (.isubImm x) x.g (intOpI x (fun a b => a - b)))
  ∧ (∀ x, WellFormed (.imulImm x) → Computes (.imulImm x) x.g (intOpI x (fun a b => a * b)))
  ∧ (∀ x, WellFormed (.iminImm x) → Computes (.iminImm x) x.g (intOpI x min))
  ∧ (∀ x, WellFormed (.imaxImm x) → Computes (.imaxImm x) x.g (intOpI x max))
  ∧ (∀ x, WellFormed (.iabs x) → Computes (.iabs x) x.g (fun rf => intOut x.ty x.sat x.d (intVal x.ty rf x.a).natAbs))
  ∧ (∀ x, WellFormed (.imad x) → Computes (.imad x) x.g (fun rf =>
      intOut x.ty x.sat x.d (intVal x.ty rf x.a * intVal x.ty rf x.b + intVal x.ty rf x.c)))

/-- R163, Table 8-2: AND, OR and XOR, register and immediate forms, are bitwise; the shadow is written zero. -/
def Sys2Proof.Claims.LogicResults : Prop :=
  (∀ x, WellFormed (.and x) → Computes (.and x) x.g (bitOp2 x (· &&& ·) (· &&& ·)))
  ∧ (∀ x, WellFormed (.or x) → Computes (.or x) x.g (bitOp2 x (· ||| ·) (· ||| ·)))
  ∧ (∀ x, WellFormed (.xor x) → Computes (.xor x) x.g (bitOp2 x (· ^^^ ·) (· ^^^ ·)))
  ∧ (∀ x, WellFormed (.andImm x) → Computes (.andImm x) x.g (bitOpI x (· &&& ·) (· &&& ·)))
  ∧ (∀ x, WellFormed (.orImm x) → Computes (.orImm x) x.g (bitOpI x (· ||| ·) (· ||| ·)))
  ∧ (∀ x, WellFormed (.xorImm x) → Computes (.xorImm x) x.g (bitOpI x (· ^^^ ·) (· ^^^ ·)))

/-- R163: SHL, SHR and SAR by n, the unsigned value of bits [31:0] of b, or IMM; n at or above the width gives 0, or for SAR
copies of the sign bit. -/
def Sys2Proof.Claims.ShiftResults : Prop :=
  (∀ x, WellFormed (.shl x) → Computes (.shl x) x.g (bitOp2 x (fun a b => a <<< b.toNat) (fun a b => a <<< (loWord b).toNat)))
  ∧ (∀ x, WellFormed (.shr x) → Computes (.shr x) x.g (bitOp2 x (fun a b => a >>> b.toNat) (fun a b => a >>> (loWord b).toNat)))
  ∧ (∀ x, WellFormed (.sar x) → Computes (.sar x) x.g
      (bitOp2 x (fun a b => a.sshiftRight b.toNat) (fun a b => a.sshiftRight (loWord b).toNat)))
  ∧ (∀ x, WellFormed (.shlImm x) → Computes (.shlImm x) x.g (bitOpI x (fun a _ => a <<< x.imm.toNat) (fun a _ => a <<< x.imm.toNat)))
  ∧ (∀ x, WellFormed (.shrImm x) → Computes (.shrImm x) x.g (bitOpI x (fun a _ => a >>> x.imm.toNat) (fun a _ => a >>> x.imm.toNat)))
  ∧ (∀ x, WellFormed (.sarImm x) → Computes (.sarImm x) x.g
      (bitOpI x (fun a _ => a.sshiftRight x.imm.toNat) (fun a _ => a.sshiftRight x.imm.toNat)))

/-- R163, Table 8-2: the logic and the shift instructions, register and immediate forms, complete with their results. -/
def Obligations.LogicAndShiftResults : Prop := Sys2Proof.Claims.LogicResults ∧ Sys2Proof.Claims.ShiftResults

/-- R164 and Table 8-2: BFX, BFI, POPC, CLZ and BREV. -/
def Sys2Proof.Claims.BitFieldResults : Prop :=
  (∀ x, WellFormed (.bfx x) → Computes (.bfx x) x.g
      (bitOp2 x (fieldOf (x.ty == .s32)) (fun a k => fieldOf (x.ty == .s64) a (loWord k))))
  ∧ (∀ x, WellFormed (.bfi x) → Computes (.bfi x) x.g (fun rf =>
      (if x.ty.wide then wrTy true x.d (fieldPut (rdTy rf true x.a) (rdTy rf true x.b) (loWord (rdTy rf true x.c))) 0
       else [(x.d.toNat, ⟨fieldPut (rdVal rf x.a) (rdVal rf x.b) (rdVal rf x.c), 0⟩)], 0)))
  ∧ (∀ x, WellFormed (.popc x) → Computes (.popc x) x.g
      (bitOp1 x (fun a => BitVec.ofNat 32 (onesOf a)) (fun a => BitVec.ofNat 64 (onesOf a))))
  ∧ (∀ x, WellFormed (.clz x) → Computes (.clz x) x.g (bitOp1 x BitVec.clz BitVec.clz))
  ∧ (∀ x, WellFormed (.brev x) → Computes (.brev x) x.g (bitOp1 x BitVec.reverse BitVec.reverse))

/-- R165, R166, R169: ISET writes the truth of its condition, SEL copies the selected source with its shadow, PLOG the
truth-table bit, and PMOV moves the predicates. A destination p7 discards. -/
def Obligations.PredicateResults : Prop :=
  (∀ x, WellFormed (.iset x) → EachLane (.iset x) x.g (fun _ t =>
      setPred t x.p (isetHolds x.cond (intVal x.ty (getReg t) x.a) (intVal x.ty (getReg t) x.b))))
  ∧ (∀ x, WellFormed (.isetImm x) → EachLane (.isetImm x) x.g (fun _ t =>
      setPred t x.p (isetHolds x.cond (intVal x.ty (getReg t) x.a) (immVal x.ty x.imm))))
  ∧ (∀ x, EachLane (.sel x) x.g (fun _ t =>
      let r := if getPred t x.p then x.a else x.b
      setRegs t ((x.d.toNat, getReg t r.toNat) :: (if x.ty.wide then [(x.d.toNat + 1, ⟨(getReg t (r.toNat + 1)).val, 0⟩)] else []))))
  ∧ (∀ x, EachLane (.plog x) x.g (fun _ t => setPred t x.p
      (x.tt.getLsbD ((getPred t x.pa).toNat * 4 + (getPred t x.pb).toNat * 2 + (getPred t x.pc).toNat))))
  ∧ (∀ x, EachLane (.pmovGet x) x.g (fun _ t => setReg t x.d.toNat ⟨0x80 ||| t.preds.setWidth 32, 0⟩))
  ∧ (∀ x, EachLane (.pmovPut x) x.g (fun _ t => { t with preds := (getReg t x.a.toNat).val.setWidth 7 }))
  ∧ (∀ t b, setPred t 7 b = t ∧ getPred t 7 = true)

/-- R167, R168, R170, R172: MOV and its lk forms, LEA, MOVS, MOVI and NOP. -/
def Sys2Proof.Claims.MoveResults : Prop :=
  (∀ x, WellFormed (.mov x) → Computes (.mov x) x.g (fun rf =>
      ((x.d.toNat, rf x.a.toNat) :: (if x.ty.wide then [(x.d.toNat + 1, ⟨(rf (x.a.toNat + 1)).val, 0⟩)] else []), 0)))
  ∧ (∀ x, EachLane (.movFromLk x) x.g (fun _ t => setRegs t [(x.d.toNat, ⟨loWord t.lk, 0⟩), (x.d.toNat + 1, ⟨hiWord t.lk, 0⟩)]))
  ∧ (∀ x, EachLane (.movToLk x) x.g (fun _ t => { t with lk := (getReg t (x.a.toNat + 1)).val ++ (getReg t x.a.toNat).val }))
  ∧ (∀ x, Computes (.lea x) x.g (fun rf =>
      let b := (rf x.b.toNat).val
      (wrTy true x.d (rdTy rf true x.a + (if x.signed then b.signExtend 64 else b.setWidth 64) <<< x.sh.toNat) 0, 0)))
  ∧ (∀ x, EachLane (.movs x) x.g (fun s t => setRegs t (wrTy x.src.wide x.d (sregThread s t x.src) 0)))
  ∧ (∀ x s qk q, s.cur = .slice qk → Map.get? s.quadGroups qk = some q → exec (.movs x) s =
      .next (modSlice s qk (sliceWrites (wrTy x.src.wide x.d (sregSlice s q x.src) 0))))
  ∧ (∀ x, Computes (.movi x) x.g (fun _ => ([(x.d.toNat, ⟨x.imm, 0⟩)], 0)))
  ∧ (∀ x, Computes (.movi64 x) x.g (fun _ =>
      ([(x.d.toNat, ⟨x.imm, 0⟩), (x.d.toNat + 1, ⟨if x.imm.msb then 0xFFFFFFFF else 0, 0⟩)], 0)))
  ∧ (∀ g, Computes (.nop g) g (fun _ => ([], 0)))

/-- R164, R167, R168, R170, R172: bit fields, counts and moves complete with their results. -/
def Obligations.BitFieldAndMoveResults : Prop := Sys2Proof.Claims.BitFieldResults ∧ Sys2Proof.Claims.MoveResults

/-! ## Floating point, conversion, bounds (R173-R197) -/

namespace Sys2Proof.Claims

/-- The breach check of R77 on a result's bound: none where mode 1 traps, else the flags, with BD for a breach in mode 2. -/
def breachFlags (t : Thread) (b : BitVec 16) (fl : Byte) : Option Byte :=
  if t.bud.toNat % 4 = 0 || bdLe (bdOf b) (bdOf ((t.bud >>> 16).setWidth 16)) then some fl
  else if t.bud.toNat % 4 = 1 then none else some (fl ||| 0x20)

/-- A thread with a result, its bound and its flags written (R65, R68). -/
def withResult (t : Thread) (wide : Bool) (d : VReg) (r : Deliv) (fl : Byte) : Thread :=
  let u := setRegs t ((d.toNat, ⟨loWord r.bits, r.bnd⟩) :: (if wide then [(d.toNat + 1, ⟨hiWord r.bits, 0⟩)] else []))
  { u with flags := u.flags ||| fl }

/-- The lane writes the unit's result unless it traps for a breach. -/
def checked (wide : Bool) (d : VReg) (r : Thread → Deliv) (t : Thread) : Option Thread :=
  (breachFlags t (r t).bnd (r t).fl).map (withResult t wide d (r t))

/-- The lane writes the unit's result; no breach is checked. -/
def unchecked (wide : Bool) (d : VReg) (r : Thread → Deliv) (t : Thread) : Thread := withResult t wide d (r t) (r t).fl

/-- FADD, FSUB or FMUL of a thread's operands (R174). -/
def arith (k : FKind) (negB : Bool) (x : FltRR) (t : Thread) : Deliv :=
  governed k x.ty x.tier x.rnd x.sat t.bud x.m negB (tVal t x.ty.wide x.a) (tVal t x.ty.wide x.b) 0 (tBnd t x.a) (tBnd t x.b) 0

/-- eps[t] (Table 4-2). -/
def epsTable (ty : Ty) (t : Nat) (rnd : Rnd) : Dy :=
  dyPow (match ty, t with
    | .bf16x2, _ => if rnd = .rne then -8 else -7
    | _, 0 => -9
    | _, 1 => -15
    | .f64, _ => if rnd = .rne then -53 else -52
    | _, _ => if rnd = .rne then -24 else -23)

/-- The subnormal floor (Table 4-2). -/
def floorTable (ty : Ty) : Dy := dyPow (match ty with
  | .f64 => -134
  | .bf16x2 => -133
  | _ => -149)

/-- floor_s(z) beside the exact value d (Table 4-1). -/
def floorAt (ty : Ty) (z d : Dy) : Dy := if d.m ≠ 0 ∧ dyLt (dyAbs z) (dyPow (tyFmt ty).emin) = true then floorTable ty else dyZero

/-- beta_in (Table 4-5). -/
def betaTable (k : FKind) (x y : FV) (bx by_ bc : Bd) : Bd :=
  match k with
  | .add => bdAdd bx by_
  | .mul => bdSum [bdMul (fvMag x) by_, bdMul (fvMag y) bx, bdMul bx by_]
  | .fma => bdSum [bdMul (fvMag x) by_, bdMul (fvMag y) bx, bdMul bx by_, bc]

/-- mag (R75); none is +∞. -/
def magTable (ty : Ty) (k : FKind) (x y c : FV) : Bd :=
  match k, exOf (tyFmt ty) x, exOf (tyFmt ty) y, exOf (tyFmt ty) c with
  | .add, some i, some j, _ => some (dyPow (max i j + 1))
  | .mul, some i, some j, _ => some (dyPow (i + j + 2))
  | .fma, some i, some j, some l => some (dyPow (max (i + j + 2) (l + 1) + 1))
  | _, _, _, _ => none

/-- The exact result of finite operands. -/
def exactReal (k : FKind) (x y c : FV) : Dy :=
  match k with
  | .add => dyAdd (fvDy x) (fvDy y)
  | .mul => dyMul (fvDy x) (fvDy y)
  | .fma => dyAdd (dyMul (fvDy x) (fvDy y)) (fvDy c)

/-- Tier t is the one that R72, R74 and R76 choose: the forced one; 2 in mode 0; the lowest allowed under an unbounded budget;
else the lowest allowed whose test holds, or 2. -/
def TierIs (k : FKind) (tier : TierF) (bud : Word) (eps : Nat → Dy) (beta mag : Bd) (t : Nat) : Prop :=
  let low := if k = .add then 1 else 0
  let holds (u : Nat) : Prop := ∃ x y b, beta = some x ∧ mag = some y ∧ bdOf ((bud >>> 16).setWidth 16) = some b
    ∧ dyLe (dyAdd x (dyMul (eps u) y)) (dyScale b (-(bud.toNat / 2 ^ 8 % 8 : Nat))) = true
  (tier = .t0 → t = low) ∧ (tier = .t1 → t = 1) ∧ (tier = .t2 → t = 2)
  ∧ (tier = .gov → bud.toNat % 4 = 0 → t = 2)
  ∧ (tier = .gov → bud.toNat % 4 ≠ 0 → bdOf ((bud >>> 16).setWidth 16) = none → t = low)
  ∧ (tier = .gov → bud.toNat % 4 ≠ 0 → bdOf ((bud >>> 16).setWidth 16) ≠ none →
      t ≤ 2 ∧ (t = 2 ∨ holds t) ∧ ∀ u, low ≤ u → u < t → ¬ holds u)

/-- A value without overflow: NX where it differs from the exact one, UF where it then is zero or subnormal (R64). -/
def FlagsFit (f : IFmt) (d : Dy) (v : FV) (fl : Byte) : Prop :=
  fvIsFin v = true ∧ (fl &&& 0x10 ≠ 0 ↔ dyEq (fvDy v) d = false)
  ∧ (fl &&& 0x08 ≠ 0 ↔ dyEq (fvDy v) d = false ∧ d.m ≠ 0 ∧ dyLt (dyAbs (fvDy v)) (dyPow f.emin) = true)

/-- The exact value d rounded once to the format's grid (R70; the four directions are those of R60). -/
def RoundedOnce (f : IFmt) (rnd : Rnd) (d : Dy) (v : FV) : Prop :=
  let q := max (dyLog d) f.emin - (f.p - 1 : Int)
  d.m ≠ 0 → v = .fin (decide (d.m < 0)) (roundUnits rnd (decide (d.m < 0)) d.m.natAbs d.e q).1 q

/-- The largest finite magnitude of a format with a sign. -/
def topOf (f : IFmt) (neg : Bool) : FV := .fin neg (2 ^ f.p - 1) (f.emax - (f.p - 1 : Int))

/-- What the rules fix of a governed element on tier t: its value v, its flags and its bound b (R70-R72, R77, R78, R80). -/
def GovernedElem (k : FKind) (ty : Ty) (rnd : Rnd) (sat : Bool) (t : Nat) (x y c : FV) (bx by_ bc : Bd)
    (v : FV) (fl : Byte) (b : Bd) : Prop :=
  let f := tyFmt ty
  let ops := if k = .fma then [x, y, c] else [x, y]
  let beta := betaTable k x y bx by_ bc
  let d := exactReal k x y c
  let z := dyAbs (fvDy v)
  let err := dyAbs (dySub (fvDy v) d)
  let flr := floorAt ty (fvDy v) d
  (ops.any fvIsNan = true → fvIsNan v = true ∧ b = none ∧ fl = if ops.any fvIsSig then 1 else 0)
  ∧ (ops.any fvIsNan = false → ops.any fvIsInf = true → b = none ∧ ((fvIsInf v = true ∧ fl = 0) ∨ (fvIsNan v = true ∧ fl = 1)))
  ∧ (ops.all fvIsFin = true → fl &&& 0x04 = 0 →
      FlagsFit f d v fl
      ∧ (t = 2 → RoundedOnce f rnd d v)
      ∧ (k ≠ .fma ∨ t ≠ 0 → t ≠ 0 ∨ dyLe (dyPow f.emin) z = true → dyLe err (dyAdd (dyMul (epsTable ty t rnd) z) flr) = true)
      ∧ (k ≠ .fma ∨ t ≠ 0 → bdLe (bdSum [beta, some (dyMul (epsTable ty t rnd) z), some flr]) b = true)
      ∧ (k = .fma → t = 0 → ∃ p : Dy, dyLe (dyAbs (dySub p (dyMul (fvDy x) (fvDy y)))) (dyMul (dyPow (-9)) (dyAbs p)) = true
          ∧ dyLe (dyAbs (dySub (fvDy v) (dyAdd p (fvDy c)))) (dyAdd (dyMul (dyPow (-15)) z) (floorTable ty)) = true
          ∧ bdLe (bdSum [beta, some (dyAdd (dyMul (dyPow (-9)) (dyAbs p)) (dyMul (dyPow (-15)) z)), some flr]) b = true))
  ∧ (ops.all fvIsFin = true → fl &&& 0x04 ≠ 0 →
      fl &&& 0x10 ≠ 0 ∧ (sat = false → b = none) ∧ (sat = true → fvIsFin v = true)
      ∧ (t ≤ 1 → b = none ∧ ∃ neg, v = topOf f neg ∧ (k ≠ .fma ∨ t = 1 → neg = decide (d.m < 0)))
      ∧ (fl &&& 0x80 ≠ 0 → v = topOf f (decide (d.m < 0)) ∧ bdLe (bdAdd beta (some err)) b = true))

/-- What the rules fix of FADD, FSUB, FMUL and FFMA: the tier of each element, its value, flags and bound; on `.bf16x2` two
elements on tier 2, whose flags are merged and of whose bounds the larger is delivered (R68, R174). -/
def GovernedRules : Prop :=
  ∀ k ty tier rnd sat bud (m : Mods) (negB : Bool) (a b c : DWord) (ba bb bc : BitVec 16),
    let x (i : Nat) := fvMod m.na m.aa (elemOf ty a i)
    let y (i : Nat) := fvMod (m.nb != negB) m.ab (elemOf ty b i)
    let w (i : Nat) := elemOf ty c i
    let el (i t : Nat) := GovernedElem k ty rnd sat t (x i) (y i) (w i) (bdOf ba) (bdOf bb) (bdOf bc)
    let out := governed k ty tier rnd sat bud m negB a b c ba bb bc
    (ty ≠ .bf16x2 → ∃ t v fl bd,
      TierIs k tier bud (fun u => epsTable ty u rnd) (bdOf (upBd (betaTable k (x 0) (y 0) (bdOf ba) (bdOf bb) (bdOf bc))))
        (magTable ty k (x 0) (y 0) (w 0)) t
      ∧ el 0 t v fl bd ∧ out = ⟨BitVec.ofNat 64 (encI (tyFmt ty) v), fl, upBd bd⟩)
    ∧ (ty = .bf16x2 → ∃ v fl bd v' fl' bd', el 0 2 v fl bd ∧ el 1 2 v' fl' bd'
      ∧ out = ⟨BitVec.ofNat 64 (encI fBF16 v) ||| BitVec.ofNat 64 (encI fBF16 v' * 2 ^ 16), fl ||| fl', bndMax (upBd bd) (upBd bd')⟩)

/-- A result that breaches in mode 1 traps with cause class 4, ARG0 holding b and B, and its lane writes nothing; the other lanes
complete (R77, R32). `f` answers the thread a lane becomes, or the ARG0 of its trap. -/
def breachRun (f : Thread → Except DWord Thread) : List Nat → State → State × List (Nat × FInfo)
  | [], s => (s, [])
  | k :: l, s => match getThread s k with
    | none => breachRun f l s
    | some t => match f t with
      | .ok u => breachRun f l (setThread s k u)
      | .error a => ((breachRun f l s).1, (k, ⟨4, 0, a, 0⟩) :: (breachRun f l s).2)

def BreachTraps (i : Instr) (gd : Guard) (f : Thread → Except DWord Thread) : Prop :=
  ∀ s gid g, At s gid g → exec i s =
    .next (splitGroup s (breachRun f (activeOf s g gd) s).1 gid g (breachRun f (activeOf s g gd) s).2 false)

/-- ARG0 of a budget breach: b in [15:0], what it exceeds in [31:16]. -/
def breachArg (b lim : BitVec 16) : DWord := BitVec.ofNat 64 (b.toNat + lim.toNat * 65536)

/-- A lane of a unit whose result is checked. -/
def checkedOr (wide : Bool) (d : VReg) (r : Thread → Deliv) (t : Thread) : Except DWord Thread :=
  match checked wide d r t with
  | some u => .ok u
  | none => .error (breachArg (r t).bnd ((t.bud >>> 16).setWidth 16))

/-- A lane of BCHK (R196): the limit is B, or b. -/
def bchkLane (x : BchkOps) (t : Thread) : Except DWord Thread :=
  let lim : BitVec 16 := if x.reg then (tWord t x.b).setWidth 16 else (t.bud >>> 16).setWidth 16
  if bdLe (bdOf (tBnd t x.a)) (bdOf lim) then .ok (setPred t x.p true)
  else if x.trap && t.bud.toNat % 4 == 1 then .error (breachArg (tBnd t x.a) lim)
  else
    let u := setPred t x.p false
    .ok (if x.trap && t.bud.toNat % 4 == 2 then { u with flags := u.flags ||| 0x20 } else u)

/-- What R176 fixes of FRND: the integral value its direction names, with a's sign and no flag; the bound of Table 4-5, in which
a boundary j or j + 1/2 of the direction lies within β of x or not. -/
def FrndRules : Prop :=
  ∀ ty rnd na aa a ba,
    let x := fvMod na aa (elemOf ty a 0)
    let out := frndRes ty rnd na aa a ba
    (fvIsNan x = true → out = ⟨elemBits ty 0 (.nan false), if fvIsSig x then 1 else 0, 0xFF00⟩)
    ∧ (fvIsInf x = true → out = ⟨elemBits ty 0 x, 0, 0xFF00⟩)
    ∧ ∀ n m e, x = .fin n m e → ∃ (k : Nat) (b : Bd), out = ⟨elemBits ty 0 (.fin n k 0), 0, upBd b⟩
      ∧ (rnd = .rtz ∨ (rnd = .rdn ∧ n = false) ∨ (rnd = .rup ∧ n = true) → dyLe (dyInt k) ⟨m, e⟩ = true ∧ dyLt ⟨m, e⟩ (dyInt (k + 1)) = true)
      ∧ ((rnd = .rdn ∧ n = true) ∨ (rnd = .rup ∧ n = false) → dyLe ⟨m, e⟩ (dyInt k) = true ∧ dyLt (dyInt (k - 1)) ⟨m, e⟩ = true)
      ∧ (rnd = .rne → dyLe (dyAbs (dySub (dyInt k) ⟨m, e⟩)) (dyPow (-1)) = true
          ∧ (dyEq (dyAbs (dySub (dyInt k) ⟨m, e⟩)) (dyPow (-1)) = true → k % 2 = 0))
      ∧ (bdOf ba = none → b = none)
      ∧ ∀ β, bdOf ba = some β →
        let meets : Prop := ∃ j : Int, (rnd = .rtz → j ≠ 0)
          ∧ dyLe (dySub (fvDy x) β) (if rnd = .rne then dyAdd (dyInt j) (dyPow (-1)) else dyInt j) = true
          ∧ dyLe (if rnd = .rne then dyAdd (dyInt j) (dyPow (-1)) else dyInt j) (dyAdd (fvDy x) β) = true
        (β.m ≠ 0 → meets → bdLe (some (dyAdd β (dyInt 1))) b = true) ∧ (β.m = 0 ∨ ¬ meets → upBd b = 0)

/-- What R179 fixes of FSCL: a·2^n rounded once, its flags and its bound; an overflow is unbounded, unless SAT clamps an infinity. -/
def FsclRules : Prop :=
  ∀ ty rnd sat na aa a ba (n : Int),
    let f := tyFmt ty
    let x := fvMod na aa (elemOf ty a 0)
    let out := fsclRes ty rnd sat na aa a ba n
    (fvIsNan x = true → out = ⟨elemBits ty 0 (.nan false), if fvIsSig x then 1 else 0, 0xFF00⟩)
    ∧ (fvIsInf x = true → out = ⟨elemBits ty 0 x, 0, 0xFF00⟩)
    ∧ (8192 < n → out = fsclRes ty rnd sat na aa a ba 8192) ∧ (n < -8192 → out = fsclRes ty rnd sat na aa a ba (-8192))
    ∧ ∀ s m e, x = .fin s m e → -8192 ≤ n → n ≤ 8192 →
      let d := dyScale (fvDy x) n
      let beta := bdScale (bdOf ba) n
      ∃ v fl b, out = ⟨elemBits ty 0 v, fl, upBd b⟩ ∧ (m = 0 → v = .fin s 0 0 ∧ fl = 0)
        ∧ (fl &&& 0x04 = 0 → FlagsFit f d v fl ∧ RoundedOnce f rnd d v ∧ bdLe (bdAdd beta (some (floorAt ty (fvDy v) d))) b = true)
        ∧ (fl &&& 0x04 ≠ 0 → fl &&& 0x10 ≠ 0 ∧ (sat = false → b = none) ∧ (sat = true → fvIsFin v = true)
          ∧ (fl &&& 0x80 ≠ 0 → v = topOf f s ∧ bdLe (bdAdd beta (some (dyAbs (dySub (fvDy v) d)))) b = true))

/-- The special results of the function unit (Table 8-6), unbounded where they are infinite or a NaN (R80); and FRCP of an
operand that its bound reaches is unbounded (Table 4-6). -/
def FuSpecials : Prop :=
  ∀ ty rnd na aa a ba,
    let x := fvMod na aa (elemOf ty a 0)
    let out (u : FUnit) := fuRes u ty rnd na aa a ba
    let gives (u : FUnit) (v : FV) (fl : Byte) : Prop := ∃ b, out u = ⟨elemBits ty 0 v, fl, b⟩ ∧ (fvIsFin v = false → b = 0xFF00)
    (fvIsNan x = true → ∀ u, gives u (.nan false) (if fvIsSig x then 1 else 0))
    ∧ (∀ n, x = .inf n → gives .rcp (.fin n 0 0) 0 ∧ gives .exp2 (if n then .fin false 0 0 else .inf false) 0
        ∧ gives .rsq (if n then .nan false else .fin false 0 0) (if n then 1 else 0)
        ∧ gives .sqrt (if n then .nan false else .inf false) (if n then 1 else 0)
        ∧ gives .log2 (if n then .nan false else .inf false) (if n then 1 else 0))
    ∧ (∀ n e, x = .fin n 0 e → gives .rcp (.inf n) 2 ∧ gives .rsq (.inf n) 2 ∧ gives .sqrt (.fin n 0 0) 0
        ∧ gives .exp2 (.fin false 1 0) 0 ∧ gives .log2 (.inf true) 2)
    ∧ (∀ m e, x = .fin true m e → m ≠ 0 → gives .rsq (.nan false) 1 ∧ gives .sqrt (.nan false) 1 ∧ gives .log2 (.nan false) 1)
    ∧ (bdLe (fvMag x) (bdOf ba) = true → fvIsFin x = true → (out .rcp).bnd = 0xFF00)

/-- The element of a floating operand with its modifiers (R148). -/
def fltIn (ty : Ty) (na aa : Bool) (t : Thread) (r : VReg) : FV := fvMod na aa (elemOf ty (tVal t ty.wide r) 0)

/-- The set of active lanes agrees on a word with no reserved value (R59). -/
def agree (s : State) (ks : List Nat) (r : FwReader) (fw : VReg) (w : Word) : Prop :=
  (∀ k ∈ ks, ∀ t, getThread s k = some t → tWord t fw = w) ∧ fwBad r w = 0

/-- One lane of QNT: its block's scale is formed over the active lanes that are no outliers (R187-R190). -/
def qntOut (ol : Bool) (x : QntOps) (w : Word) (ts : List (Nat × Thread)) (t : Thread) : Option QRes :=
  let fb := fwFb w
  let scl := fwScl w
  let ls := ts.map (fun e => qLane fb ol x e.1 e.2)
  let cs := if ol then qCands scl (efMax (fwA w)) ls else []
  let outs := qOutliers (fwOslot w) cs
  let out (l : QLane) : Bool := outs.any (fun y => y.lane == l.lane)
  (ls.find? (fun l => l.lane == t.lane)).map (fun l =>
    qntLane (fwA w) scl x.rnd fb (qNanBlock scl ls l) (out l) (decide (fwOslot w < cs.length))
      (blockScale scl (efMax (fwA w)) (ls.filter (fun l => !out l)) l) l)

def qntThread (ol : Bool) (x : QntOps) (w : Word) (ts : List (Nat × Thread)) (t : Thread) : Option Thread :=
  match qntOut ol x w ts t with
  | none => some t
  | some r => (breachFlags t r.bnd r.fl).map (fun fl =>
      let u := setRegs t (qntWrites ol (fwFb w) x r)
      { u with flags := u.flags ||| fl })

/-- The same, with the ARG0 of a breach in mode 1. -/
def qntOr (ol : Bool) (x : QntOps) (w : Word) (ts : List (Nat × Thread)) (t : Thread) : Except DWord Thread :=
  match qntThread ol x w ts t with
  | some u => .ok u
  | none => .error (breachArg (((qntOut ol x w ts t).map (·.bnd)).getD 0) ((t.bud >>> 16).setWidth 16))

/-- The threads of a list of keys. -/
def threadsOf (s : State) (ks : List Nat) : List (Nat × Thread) := ks.filterMap (fun k => (getThread s k).map (fun t => (k, t)))

/-- A quantisation instruction on a full warp whose active lanes agree on a format word. -/
def QuantCompletes (i : Instr) (gd : Guard) (r : FwReader) (fw : VReg)
    (f : Word → List (Nat × Thread) → Thread → Option Thread) : Prop :=
  ∀ s gid g, At s gid g →
    (activeOf s g gd = [] → exec i s = .next (advance s gid))
    ∧ ∀ w u, activeOf s g gd ≠ [] → fullWarp s g = true → agree s (activeOf s g gd) r fw w →
      runLanes (ownStep (f w (threadsOf s (activeOf s g gd)))) (activeOf s g gd) s = some u → exec i s = .next (advance u gid)

/-- What R175 and R78 fix of FMIN (`lo`) and FMAX: a NaN operand is discarded, and the bound is then the other operand's; −0 lies
below +0; overlapping operands deliver the larger bound. Two infinities of one sign are 0 apart (the model's choice, log 86). -/
def MinMaxRules : Prop :=
  ∀ lo ty (m : Mods) a b ba bb, ty ≠ .bf16x2 →
    let x := fvMod m.na m.aa (elemOf ty a 0)
    let y := fvMod m.nb m.ab (elemOf ty b 0)
    let out := minMax lo ty m a b ba bb
    let nv : Byte := if fvIsSig x ∨ fvIsSig y then 1 else 0
    let bndOf (v : FV) (c : BitVec 16) : BitVec 16 := if fvIsFin v then c else 0xFF00
    (fvIsNan x = true → fvIsNan y = true → out = ⟨elemBits ty 0 (.nan false), nv, 0xFF00⟩)
    ∧ (fvIsNan x = true → fvIsNan y = false → out = ⟨elemBits ty 0 y, nv, bndOf y bb⟩)
    ∧ (fvIsNan x = false → fvIsNan y = true → out = ⟨elemBits ty 0 x, nv, bndOf x ba⟩)
    ∧ (∀ n i e k j f, x = .fin n i e → y = .fin k j f →
        let less := dyLt (fvDy x) (fvDy y) = true ∨ (i = 0 ∧ j = 0 ∧ n = true ∧ k = false)
        let greater := dyLt (fvDy y) (fvDy x) = true ∨ (i = 0 ∧ j = 0 ∧ n = false ∧ k = true)
        let apart := ∃ u v, bdOf ba = some u ∧ bdOf bb = some v ∧ dyLt (dyAdd u v) (dyAbs (dySub (fvDy x) (fvDy y))) = true
        ((if lo then less else greater) → out.bits = elemBits ty 0 x ∧ (apart → out.bnd = ba))
        ∧ ((if lo then greater else less) → out.bits = elemBits ty 0 y ∧ (apart → out.bnd = bb))
        ∧ out.fl = 0 ∧ (¬ apart → out.bnd = bndMax ba bb))
    ∧ (∀ n, (x = .inf n ∨ y = .inf n) → fvIsNan x = false → fvIsNan y = false →
        out.fl = 0 ∧ (lo = n → out = ⟨elemBits ty 0 (.inf n), 0, 0xFF00⟩)
        ∧ (lo ≠ n → out.bits = elemBits ty 0 (if x = .inf n then y else x)))

/-- Each element of FMIN and FMAX on `.bf16x2` is handled separately: its bits are those of the same operation on the element
alone (R175, R68). -/
def MinMaxPairs : Prop :=
  ∀ lo (m : Mods) a b ba bb, let x (i : Nat) := fvMod m.na m.aa (elemOf .bf16x2 a i)
    let y (i : Nat) := fvMod m.nb m.ab (elemOf .bf16x2 b i)
    let r (i : Nat) := minMaxElem lo (x i) (y i) ba bb
    minMax lo .bf16x2 m a b ba bb = ⟨elemBits .bf16x2 0 (r 0).1 ||| elemBits .bf16x2 1 (r 1).1, (r 0).2.1 ||| (r 1).2.1,
      bndMax (r 0).2.2 (r 1).2.2⟩

/-- The class mask of R180: one bit, by the class of the operand. -/
def ClassRules : Prop :=
  ∀ ty a, let out := fclsRes ty a
    let least := dyPow (tyFmt ty).emin
    match elemOf ty a 0 with
    | .nan s => out = if s then 1 else 2
    | .inf n => out = if n then 4 else 0x200
    | .fin n m e =>
      (m = 0 → out = if n then 0x20 else 0x40)
      ∧ (m ≠ 0 → dyLt ⟨m, e⟩ least = true → out = if n then 0x10 else 0x80)
      ∧ (dyLe least ⟨m, e⟩ = true → out = if n then 8 else 0x100)

/-! ### Conversions (R60, R61, R78, R80, R182, R183, Table 3-7) -/

/-- The spacing of a format at a magnitude of binary exponent E, as an exponent: of MK8, the bands of Table 3-3, the top one
continued (R61). -/
def spacing (f : FFmt) (E : Int) : Int :=
  match f with
  | .bf16 => max E (-126) - 7
  | .e5m2 => max E (-14) - 2
  | .f32 => max E (-126) - 23
  | .f64 => max E (-1022) - 52
  | .e4m3 => max E (-6) - 3
  | .fp4 => max E 0 - 1
  | .mk8 => if E ≤ -11 then -11 else if E ≤ -9 then E - 1 else if E ≤ -5 then E - 2 else if E ≤ 3 then E - 3
      else if E ≤ 11 then E - 2 else if E ≤ 15 then E - 1 else E

/-- The largest finite magnitude (R61). -/
def largest : FFmt → Dy
  | .bf16 => ⟨255, 120⟩ | .e5m2 => ⟨7, 13⟩ | .f32 => ⟨2 ^ 24 - 1, 104⟩ | .f64 => ⟨2 ^ 53 - 1, 971⟩
  | .e4m3 => ⟨448, 0⟩ | .mk8 => ⟨131072, 0⟩ | .fp4 => ⟨6, 0⟩

/-- The least normal magnitude; of MK8 the least magnitude, below which there is zero alone (R60). -/
def leastNormal : FFmt → Dy
  | .bf16 | .f32 => dyPow (-126) | .e5m2 => dyPow (-14) | .f64 => dyPow (-1022)
  | .e4m3 => dyPow (-6) | .fp4 => dyPow 0 | .mk8 => dyPow (-11)

/-- The formats with an infinity. -/
def hasInf : FFmt → Bool
  | .bf16 | .e5m2 | .f32 | .f64 => true
  | .e4m3 | .mk8 | .fp4 => false

/-- The code of a representable value. -/
def codeOf (f : FFmt) (v : FV) : Nat :=
  match f, v with
  | .bf16, v => encI fBF16 v
  | .e5m2, v => encI fE5M2 v
  | .f32, v => encI fF32 v
  | .f64, v => encI fF64 v
  | .e4m3, .fin n m e => (if n then 128 else 0) + encFin fE4M3 m e
  | .fp4, .fin n m e => (if n then 8 else 0) + encFin fFP4 m e
  | .mk8, .fin n m e => if m = 0 then 0 else (if n then 128 else 0) + encMK8 m e
  | .e4m3, _ => 0x7F
  | .mk8, _ => 0x80
  | .fp4, _ => 0

/-- Each finite code of the three formats without an infinity is the code of its value. -/
def CodesRight : Prop :=
  (∀ n : BitVec 8, fvIsFin (decE4M3 n.toNat) = true → codeOf .e4m3 (decE4M3 n.toNat) = n.toNat)
  ∧ (∀ n : BitVec 8, fvIsFin (decMK8 n.toNat) = true → codeOf .mk8 (decMK8 n.toNat) = n.toNat)
  ∧ (∀ n : BitVec 4, codeOf .fp4 (decFP4 n.toNat) = n.toNat)

/-- A rounded value z lies on the side of d that the direction names (R60). -/
def SideOf (rnd : Rnd) (d z : Dy) : Prop :=
  (rnd = .rtz → dyLe (dyAbs z) (dyAbs d) = true) ∧ (rnd = .rdn → dyLe z d = true) ∧ (rnd = .rup → dyLe d z = true)

/-- The flags of a rounding without overflow: none of an exact value; else NX, and UF below the least normal magnitude (R60). -/
def roundFlags (least d z : Dy) : Byte :=
  if dyEq z d then 0 else if dyLt (dyAbs z) least then 0x18 else 0x10

/-- R60, R61, Table 3-7: the value that a conversion of x delivers, and its flags. -/
def Converts (f : FFmt) (rnd : Rnd) (sat : Bool) (x v : FV) (fl : Byte) : Prop :=
  (∀ s, x = .nan s → if f = .fp4 then v = .fin false 0 0 ∧ fl = 1 else v = .nan false ∧ fl = if s then 1 else 0)
  ∧ (∀ n, x = .inf n →
      (hasInf f = true → sat = false → v = .inf n ∧ fl = 0)
      ∧ (hasInf f = true → sat = true → v = .fin n (largest f).m.natAbs (largest f).e ∧ fl = 0x80)
      ∧ (f = .e4m3 ∨ f = .mk8 → v = .nan false ∧ fl = 1)
      ∧ (f = .fp4 → v = .fin n 6 0 ∧ fl = 0x81))
  ∧ (∀ n e, x = .fin n 0 e → v = .fin (n && f != .mk8) 0 0 ∧ fl = 0)
  ∧ ∀ n m e, x = .fin n m e → m ≠ 0 →
      let q := spacing f (dyLog ⟨m, e⟩)
      let k := (roundUnits rnd n m e q (decide (f = .mk8 ∧ dyLog ⟨m, e⟩ = 16))).1
      let d := fvDy x
      let top : FV := .fin n (largest f).m.natAbs (largest f).e
      (dyLe ⟨k, q⟩ (largest f) = true →
        v = .fin (n && (k != 0 || f != .mk8)) k q ∧ SideOf rnd d (fvDy v) ∧ fl = roundFlags (leastNormal f) d (fvDy v)
        ∧ ∀ j : Int, dyEq ⟨j, q⟩ d = true → dyEq (fvDy v) d = true ∧ fl = 0)
      ∧ (dyLt (largest f) ⟨k, q⟩ = true →
        let toInf : Bool := hasInf f && (rnd == .rne || (rnd == .rdn && n) || (rnd == .rup && !n))
        v = (if toInf && !sat then .inf n else top)
        ∧ fl = if toInf && !sat || (hasInf f && !toInf) then 0x14 else 0x94)

/-- β + |z − x| rounded up; unbounded of a value that is not finite (R78, R80). -/
def convBound (ba : BitVec 16) (x z : FV) : BitVec 16 :=
  if fvIsFin x && fvIsFin z then upBd (bdAdd (bdOf ba) (some (dyAbs (dySub (fvDy z) (fvDy x))))) else 0xFF00

/-- R182: CVT converts its modified element; R183: CVTI of an integer converts its value, without `.sat`. -/
def CvtRules : Prop :=
  (∀ src dst elem rnd sat na aa (a : DWord) ba,
    let x := fvMod na aa (decF src (a.toNat / 2 ^ (ffBits src * elem) % 2 ^ ffBits src))
    ∃ v fl, Converts dst rnd sat x v fl
      ∧ cvtRes src dst elem rnd sat na aa a ba = ⟨BitVec.ofNat 64 (codeOf dst v), fl, convBound ba x v⟩)
  ∧ ∀ ity fmt rnd (a : DWord) ba,
    let k : Int := match ity with
      | .s32 => (a.setWidth 32).toInt
      | .s64 => a.toInt
      | t => if t.wide then a.toNat else (a.setWidth 32).toNat
    let x : FV := .fin (decide (k < 0)) k.natAbs 0
    ∃ v fl, Converts fmt rnd false x v fl
      ∧ i2fRes ity fmt rnd a ba = ⟨BitVec.ofNat 64 (codeOf fmt v), fl, convBound ba x v⟩

/-- The limits of the integer destinations (R52). -/
def limitOf (w : Nat) (signed neg : Bool) : Int :=
  if signed then if neg then -(2 ^ (w - 1) : Int) else 2 ^ (w - 1) - 1 else if neg then 0 else 2 ^ w - 1

/-- The integer column of Table 3-7: the integer z that x gives, and its flags. That the limits are held against the rounded
value is the model's choice (log 97). -/
def ToInteger (w : Nat) (signed : Bool) (rnd : Rnd) (x : FV) (z : Int) (fl : Byte) : Prop :=
  (fvIsNan x = true → z = 0 ∧ fl = 1)
  ∧ (∀ n, x = .inf n → z = limitOf w signed n ∧ fl = 0x81)
  ∧ ∀ n m e, x = .fin n m e →
      let k : Int := (roundUnits rnd n m e 0).1
      let r : Int := if n then -k else k
      let inside := limitOf w signed true ≤ r ∧ r ≤ limitOf w signed false
      (inside → z = r ∧ SideOf rnd (fvDy x) (dyInt z) ∧ fl = (if dyEq (dyInt z) (fvDy x) then 0 else if z = 0 then 0x18 else 0x10)
        ∧ ∀ j : Int, dyEq (dyInt j) (fvDy x) = true → z = j ∧ fl = 0)
      ∧ (¬ inside → z = limitOf w signed n ∧ fl = 0x90)

/-- R183: CVTI of a float delivers the integer, wrapped to the type's width, with the bound rounded up to an integer. -/
def FloatToIntegerRules : Prop :=
  ∀ ity fmt rnd na aa (a : DWord) ba,
    let w := if ity.wide then 64 else 32
    let x := fvMod na aa (decF fmt (a.toNat % 2 ^ ffBits fmt))
    ∃ z fl, ToInteger w (ity == .s32 || ity == .s64) rnd x z fl
      ∧ f2iRes ity fmt rnd na aa a ba = ⟨BitVec.ofNat 64 (z % 2 ^ w).toNat, fl,
          if fvIsFin x then upBd ((bdAdd (bdOf ba) (some (dyAbs (dySub (dyInt z) (fvDy x))))).map (fun d => dyInt (dyCeil d)))
          else 0xFF00⟩

/-! ### Quantisation (R187-R191) -/

/-- maxval of the scaled targets (R187). -/
def maxval : Nat → Dy
  | 1 => ⟨448, 0⟩ | 2 => ⟨57344, 0⟩ | 4 => ⟨6, 0⟩ | 5 => ⟨7, 0⟩ | 6 => ⟨1, 0⟩ | _ => ⟨127, 0⟩

/-- c is the scale of a set of magnitudes: the least in 0-254 under which none of them exceeds the scaled limit, else 254. -/
def LeastScale (limit : Dy) (mags : List Dy) (c : Nat) : Prop :=
  let fits (c : Nat) : Prop := ∀ a ∈ mags, dyLe a (dyScale limit ((c : Int) - 127)) = true
  c ≤ 254 ∧ (fits c ∨ c = 254) ∧ ∀ c', c' < c → ¬ fits c'

/-- R187, R188: the scale of a lane's block among the lanes given; 127 under SCL 0. -/
def ScaleRules : Prop :=
  ∀ scl fmt (ls : List QLane) (l : QLane), fmt ∈ [1, 2, 4, 5, 6, 7] →
    (scl = 0 → blockScale scl (efMax fmt) ls l = 127)
    ∧ (scl ≠ 0 → LeastScale (maxval fmt)
        ((ls.filter (fun y => scl ≠ 2 || y.lane / 16 == l.lane / 16)).map (fun y => dyAbs (fvDy y.x))) (blockScale scl (efMax fmt) ls l))

/-- The magnitude of a lane's x'. -/
def magOf (l : QLane) : Dy := dyAbs (fvDy l.x)

/-- R188: the outliers are the OSLOT candidates of largest magnitude, ties to the lower lane; a candidate exceeds its threshold
times the block's first scale, and lies in a block of finite values. -/
def OutlierRules : Prop :=
  ∀ scl fmt n (ls : List QLane), ∀ l ∈ qOutliers n (qCands scl (efMax fmt) ls),
    l ∈ ls
    ∧ (∃ th, fvMag l.theta = some th ∧ dyLt (dyScale th ((blockScale scl (efMax fmt) ls l : Int) - 127)) (magOf l) = true)
    ∧ (∀ y ∈ ls, (scl = 2 → y.lane / 16 = l.lane / 16) → fvIsFin y.x = true)
    ∧ (ls.Pairwise (fun y z => y.lane < z.lane) → (qOutliers n (qCands scl (efMax fmt) ls)).length ≤ n)
    ∧ ∀ y ∈ qCands scl (efMax fmt) ls, dyLt (magOf l) (magOf y) = true → y ∈ qOutliers n (qCands scl (efMax fmt) ls)

/-- The float format of a target code. -/
def targetF : Nat → FFmt
  | 0 => .bf16 | 1 => .e4m3 | 2 => .e5m2 | 3 => .mk8 | _ => .fp4

/-- Width of an integer target. -/
def targetW : Nat → Nat
  | 5 => 4 | 6 => 2 | _ => 8

/-- A finite x at scale s as a code of the target, the value of that code at the scale, and whether it was clamped. -/
def Codes (fmt : Nat) (rnd : Rnd) (s : Nat) (x : FV) (code : Nat) (q : FV) (fl : Byte) : Prop :=
  ∀ n m e, x = .fin n m e →
    let y : FV := .fin n m (e - s + 127)
    (fmt ≤ 4 → ∃ v, Converts (targetF fmt) rnd false y v fl ∧ code = codeOf (targetF fmt) v ∧ q = match v with
      | .fin k i j => .fin k i (j + s - 127)
      | w => w)
    ∧ (5 ≤ fmt → ∃ z : Int, ToInteger (targetW fmt) true rnd y z fl ∧ code = (z % 2 ^ targetW fmt).toNat
        ∧ q = .fin (decide (z < 0)) z.natAbs (s - 127))

/-- The bound of q without feedback, and with it the residual and both bounds (R93); a residual of zero is +0 (the model's
choice, log 84). -/
def QuantBounds (fb : Bool) (l : QLane) (q : FV) (r : QRes) : Prop :=
  let diff := dySub (fvDy l.x) (fvDy q)
  let res := (rn32 false diff).v
  let eps (d : Dy) : Dy := dyMul (dyPow (-24)) d
  (fb = false → r.bnd = upBd (bdAdd l.bx (some (dyAbs diff))))
  ∧ (fb = true → r.rho = res ∧ r.bnd = upBd (bdSum [l.bx, l.br, some (dyAbs (fvDy res)), some (eps (magOf l))])
      ∧ r.brho = upBd (bdSum [l.bx, l.br, some (eps (magOf l)), some (eps (dyAbs (fvDy res)))]))

/-- R189, R190: a lane of a NaN block; an outlier lane; and an ordinary lane with a finite x'. -/
def QuantRules : Prop :=
  ∀ fmt scl rnd fb out oo s (l : QLane), fmt ≤ 7 →
    let many : Byte := if oo then 0x40 else 0
    (∀ ls : List QLane, scl ≠ 0 →
      (qNanBlock scl ls l = true ↔ ∃ y ∈ ls, (scl = 2 → y.lane / 16 = l.lane / 16) ∧ fvIsFin y.x = false))
    ∧ (scl ≠ 0 → fmt ≠ 0 → let r := qntLane fmt scl rnd fb true out oo s l
      r.d = 0xFF00 ∧ r.d1 = 0 ∧ r.bnd = 0xFF00 ∧ r.rho = .fin false 0 0 ∧ (fb = true → r.brho = 0xFF00)
      ∧ r.fl = 0x11 ||| many)
    ∧ (fvIsFin l.x = true → out = true → let r := qntLane fmt scl rnd fb false true oo s l
      ∃ so oc q fl, LeastScale ⟨127, 0⟩ [magOf l] so ∧ Codes 7 rnd so l.x oc q fl
        ∧ r.d = (if fmt = 0 then 0 else BitVec.ofNat 32 (s * 256)) ∧ r.d1 = BitVec.ofNat 32 (2 ^ 16 + so * 2 ^ 8 + oc)
        ∧ (fvIsFin q = true → QuantBounds fb l q r
          ∧ r.fl = (if dyEq (fvDy q) (fvDy l.x) then 0 else 0x10) ||| (if fvIsZero q ∧ ¬ fvIsZero l.x then 8 else 0) ||| many))
    ∧ (fvIsFin l.x = true → let r := qntLane fmt scl rnd fb false false oo s l
      ∃ code q fl, Codes fmt rnd s l.x code q fl
        ∧ r.d = BitVec.ofNat 32 (if fmt = 0 then code else s * 256 + code) ∧ r.d1 = 0
        ∧ (fvIsFin q = false → r.bnd = 0xFF00)
        ∧ (fvIsFin q = true → QuantBounds fb l q r
          ∧ (scl ≠ 0 → r.fl = (if dyEq (fvDy q) (fvDy l.x) then 0 else 0x10) ||| (if fvIsZero q ∧ ¬ fvIsZero l.x then 8 else 0)
              ||| (fl &&& 0x80) ||| many)
          ∧ (scl = 0 → l.nv = false → r.fl = (fl &&& 0xF7) ||| (if fvIsZero q ∧ ¬ fvIsZero l.x then 8 else 0) ||| many)))

/-- R191: DQNT decodes the code at its scale, adds the outlier term and rounds once to binary32. Without an outlier term a zero
keeps its sign (the model's choice, log 85). -/
def DequantRules : Prop :=
  ∀ fmt scl ol (a a1 : Word) ba, fmt ≤ 7 →
    let out := dqntRes fmt scl ol a a1 ba
    let v := efDec fmt (a.toNat % 2 ^ efBits fmt)
    let scaled := scl ≠ 0 ∧ fmt ≠ 0
    let s : Nat := a.toNat / 2 ^ 8 % 2 ^ 8
    let so : Nat := a1.toNat / 2 ^ 8 % 2 ^ 8
    let outlier := ol = true ∧ a1.toNat / 2 ^ 16 % 2 = 1
    let nan := fvIsNan v = true ∨ (scaled ∧ s = 255) ∨ (outlier ∧ so = 255)
    (nan → out = ⟨elemBits .f32 0 (.nan false), 0, 0xFF00⟩)
    ∧ (∀ n, v = .inf n → ¬ nan → out = ⟨elemBits .f32 0 (.inf n), 0, 0xFF00⟩)
    ∧ (fvIsFin v = true → ¬ nan →
      let main : Dy := if scaled then dyScale (fvDy v) ((s : Int) - 127) else fvDy v
      let d := if outlier then dyAdd main (dyScale (dyInt ((a1.setWidth 8).toInt)) ((so : Int) - 127)) else main
      ∃ z fl, out.bits = elemBits .f32 0 z ∧ out.fl = fl
        ∧ (fl &&& 0x04 = 0 → FlagsFit fF32 d z fl ∧ RoundedOnce fF32 .rne d z
          ∧ out.bnd = upBd (bdAdd (bdOf ba) (some (dyAbs (dySub (fvDy z) d)))))
        ∧ (d.m = 0 → fvIsZero z = true ∧ fl = 0 ∧ (¬ outlier → z = .fin (fvSign v) 0 0))
        ∧ (fl &&& 0x04 ≠ 0 → z = .inf (decide (d.m < 0)) ∧ fl = 0x14 ∧ out.bnd = 0xFF00
          ∧ dyLe ⟨2 ^ 25 - 1, 103⟩ (dyAbs d) = true))

/-- A quantisation instruction traps in every active lane before any effect: in a group that lacks a thread of its warp with
class 12 (R24), with disagreeing words with class 5 reason 0, with a reserved word with class 5 reason 1 (R59). -/
def QuantTraps (i : Instr) (gd : Guard) (r : FwReader) (fw : VReg) : Prop :=
  ∀ s gid g, At s gid g → activeOf s g gd ≠ [] →
    let all (f : Nat → FInfo) : State := splitGroup s s gid g ((activeOf s g gd).map (fun k => (k, f k))) false
    (fullWarp s g = false → exec i s = .next (all (fun _ => ⟨12, 0, (laneMask s g.members).setWidth 64, 0⟩)))
    ∧ (fullWarp s g = true → ∀ k ∈ activeOf s g gd, ∀ j ∈ activeOf s g gd, ∀ t u, getThread s k = some t →
        getThread s j = some u → tWord t fw ≠ tWord u fw →
        ∃ f : Nat → FInfo, (∀ n, (f n).cause = 5 ∧ (f n).reason = 0) ∧ exec i s = .next (all f))
    ∧ (fullWarp s g = true → ∀ w, (∀ k ∈ activeOf s g gd, ∃ t, getThread s k = some t ∧ tWord t fw = w) → fwBad r w ≠ 0 →
        ∃ f : Nat → FInfo, (∀ n, (f n).cause = 5 ∧ (f n).reason = 1) ∧ exec i s = .next (all f))

end Sys2Proof.Claims

/-- R174, R77: FADD, FSUB, FMUL and FFMA write the governed result, its bound and its flags in each active lane, with BD for a
breach in mode 2; they complete where no lane breaches in mode 1. R70-R72, R74, R76, R78, R80: what is fixed of the tier, of the
value, of the flags and of the bound. The flags of an FFMA of 0 and an infinity with a quiet NaN addend (log 12), the sign of an
exact zero sum (log 13) and the product that tier 0 truncates, taken as the steps of R70 leave it (log 108), are the model's
readings. -/
def Obligations.GovernedArithmeticCompletes : Prop :=
  (∀ x, LaneSteps (.fadd x) x.g (fun _ => ownStep (checked x.ty.wide x.d (arith .add false x))))
  ∧ (∀ x, LaneSteps (.fsub x) x.g (fun _ => ownStep (checked x.ty.wide x.d (arith .add true x))))
  ∧ (∀ x, LaneSteps (.fmul x) x.g (fun _ => ownStep (checked x.ty.wide x.d (arith .mul false x))))
  ∧ (∀ x, LaneSteps (.ffma x) x.g (fun _ => ownStep (checked x.ty.wide x.d (fun t =>
      governed .fma x.ty x.tier x.rnd x.sat t.bud x.m false (tVal t x.ty.wide x.a) (tVal t x.ty.wide x.b)
        (tVal t x.ty.wide x.c) (tBnd t x.a) (tBnd t x.b) (tBnd t x.c)))))
  ∧ GovernedRules

/-- R77, R32: in each instruction that checks its result's bound lane by lane, a lane whose bound exceeds its budget in mode 1
traps with cause class 4, ARG0 holding b and B, and writes nothing, while the other lanes complete: the governed instructions,
FRND, FSCL, the function unit, QNT and BCHK.trap. -/
def Obligations.BreachTrapsInModeOne : Prop :=
  (∀ x, BreachTraps (.fadd x) x.g (checkedOr x.ty.wide x.d (arith .add false x)))
  ∧ (∀ x, BreachTraps (.fsub x) x.g (checkedOr x.ty.wide x.d (arith .add true x)))
  ∧ (∀ x, BreachTraps (.fmul x) x.g (checkedOr x.ty.wide x.d (arith .mul false x)))
  ∧ (∀ x, BreachTraps (.ffma x) x.g (checkedOr x.ty.wide x.d (fun t =>
      governed .fma x.ty x.tier x.rnd x.sat t.bud x.m false (tVal t x.ty.wide x.a) (tVal t x.ty.wide x.b)
        (tVal t x.ty.wide x.c) (tBnd t x.a) (tBnd t x.b) (tBnd t x.c))))
  ∧ (∀ x, BreachTraps (.frnd x) x.g (checkedOr x.ty.wide x.d (fun t =>
      frndRes x.ty x.rnd x.na x.aa (tVal t x.ty.wide x.a) (tBnd t x.a))))
  ∧ (∀ x, BreachTraps (.fscl x) x.g (checkedOr x.ty.wide x.d (fun t =>
      fsclRes x.ty x.rnd x.sat x.na x.aa (tVal t x.ty.wide x.a) (tBnd t x.a) (tWord t x.b).toInt)))
  ∧ (∀ i u (x : FltU), (i, u) ∈ [(Instr.frcp x, FUnit.rcp), (.frsq x, .rsq), (.fsqrt x, .sqrt), (.fexp2 x, .exp2), (.flog2 x, .log2)] →
      BreachTraps i x.g (checkedOr x.ty.wide x.d (fun t => fuRes u x.ty x.rnd x.na x.aa (tVal t x.ty.wide x.a) (tBnd t x.a))))
  ∧ (∀ x, BreachTraps (.bchk x) x.g (bchkLane x))
  ∧ (∀ i ol (x : QntOps), (i, ol) ∈ [(Instr.qnt x, false), (.qntOl x, true)] → ∀ s gid g w, At s gid g →
      activeOf s g x.g ≠ [] → fullWarp s g = true →
      agree s (activeOf s g x.g) (if ol then .qntOl else .qnt) x.fw w →
      let y := breachRun (qntOr ol x w (threadsOf s (activeOf s g x.g))) (activeOf s g x.g) s
      exec i s = .next (splitGroup s y.1 gid g y.2 false))
  ∧ (∀ wide d (r : Thread → Deliv) (t : Thread), t.bud.toNat % 4 ≠ 1 → ∃ u, checkedOr wide d r t = .ok u)
  ∧ (∀ wide d (r : Thread → Deliv) (t : Thread), t.bud.toNat % 4 = 1 → bdLe (bdOf (r t).bnd) (bdOf ((t.bud >>> 16).setWidth 16)) = false →
      checkedOr wide d r t = .error (breachArg (r t).bnd ((t.bud >>> 16).setWidth 16)))

/-- R176, R178, R179: FRND, FSCL and the function unit's FRCP, FRSQ, FSQRT, FEXP2 and FLOG2, with the breach check of R77; what
is fixed of the value and the bound of FRND and of FSCL, and the special results of Table 8-6. A result of the function unit
that R178 only calls faithful is a free value between its neighbours (log 10). -/
def Obligations.RoundedUnaryCompletes : Prop :=
  (∀ x, LaneSteps (.frnd x) x.g (fun _ => ownStep (checked x.ty.wide x.d (fun t =>
      frndRes x.ty x.rnd x.na x.aa (tVal t x.ty.wide x.a) (tBnd t x.a)))))
  ∧ (∀ x, LaneSteps (.fscl x) x.g (fun _ => ownStep (checked x.ty.wide x.d (fun t =>
      fsclRes x.ty x.rnd x.sat x.na x.aa (tVal t x.ty.wide x.a) (tBnd t x.a) (tWord t x.b).toInt))))
  ∧ (∀ x, LaneSteps (.frcp x) x.g (fun _ => ownStep (checked x.ty.wide x.d (fun t =>
      fuRes .rcp x.ty x.rnd x.na x.aa (tVal t x.ty.wide x.a) (tBnd t x.a)))))
  ∧ (∀ x, LaneSteps (.frsq x) x.g (fun _ => ownStep (checked x.ty.wide x.d (fun t =>
      fuRes .rsq x.ty x.rnd x.na x.aa (tVal t x.ty.wide x.a) (tBnd t x.a)))))
  ∧ (∀ x, LaneSteps (.fsqrt x) x.g (fun _ => ownStep (checked x.ty.wide x.d (fun t =>
      fuRes .sqrt x.ty x.rnd x.na x.aa (tVal t x.ty.wide x.a) (tBnd t x.a)))))
  ∧ (∀ x, LaneSteps (.fexp2 x) x.g (fun _ => ownStep (checked x.ty.wide x.d (fun t =>
      fuRes .exp2 x.ty x.rnd x.na x.aa (tVal t x.ty.wide x.a) (tBnd t x.a)))))
  ∧ (∀ x, LaneSteps (.flog2 x) x.g (fun _ => ownStep (checked x.ty.wide x.d (fun t =>
      fuRes .log2 x.ty x.rnd x.na x.aa (tVal t x.ty.wide x.a) (tBnd t x.a)))))
  ∧ FrndRules ∧ FsclRules ∧ FuSpecials

/-- R175, R177, R180: FMIN, FMAX, FSET and FCLS check no breach; FSET writes the condition's truth, and with `.sx` the straddle
report, after it; that the report stands where both name one predicate is the model's choice (log 87), and so is that two
infinities of one sign are 0 apart (log 86). R175, R78, R180: what is fixed of FMIN, FMAX and FCLS. That FCLS writes zero into
the odd register of a pair is the model's reading (log 39). -/
def Sys2Proof.Claims.FloatOrderResults : Prop :=
  (∀ x, EachLane (.fmin x) x.g (fun _ => unchecked x.ty.wide x.d (fun t =>
      minMax true x.ty x.m (tVal t x.ty.wide x.a) (tVal t x.ty.wide x.b) (tBnd t x.a) (tBnd t x.b))))
  ∧ (∀ x, EachLane (.fmax x) x.g (fun _ => unchecked x.ty.wide x.d (fun t =>
      minMax false x.ty x.m (tVal t x.ty.wide x.a) (tVal t x.ty.wide x.b) (tBnd t x.a) (tBnd t x.b))))
  ∧ (∀ x, EachLane (.fset x) x.g (fun _ t =>
      let a := fltIn x.ty x.m.na x.m.aa t x.a
      let b := fltIn x.ty x.m.nb x.m.ab t x.b
      let u := setPred t x.p (fsetHolds x.cond a b)
      let u := if x.sx then setPred u x.q (fsetReport x.cond a b (bdOf (tBnd t x.a)) (bdOf (tBnd t x.b))) else u
      { u with flags := u.flags ||| (if fvIsSig a || fvIsSig b then 1 else 0) }))
  ∧ (∀ x, EachLane (.fcls x) x.g (fun _ t => setRegs t ((x.d.toNat, ⟨fclsRes x.ty (tVal t x.ty.wide x.a), 0⟩) ::
      (if x.ty.wide then [(x.d.toNat + 1, ⟨0, 0⟩)] else []))))
  ∧ MinMaxRules ∧ MinMaxPairs ∧ ClassRules

/-- R177: conditions 0 and 2-5 are false when either operand is a NaN, `.ne` and `.nan` are true, and −0 equals +0. -/
def Sys2Proof.Claims.FsetOnNansAndZeros : Prop :=
  (∀ x y, (fvIsNan x || fvIsNan y) = true →
    fsetHolds .eq x y = false ∧ fsetHolds .lt x y = false ∧ fsetHolds .le x y = false ∧ fsetHolds .gt x y = false
    ∧ fsetHolds .ge x y = false ∧ fsetHolds .num x y = false ∧ fsetHolds .ne x y = true ∧ fsetHolds .nan x y = true)
  ∧ (∀ m n e f, fsetHolds .eq (.fin m 0 e) (.fin n 0 f) = true)
  ∧ (∀ x y, (fvIsNan x || fvIsNan y) = false →
    fsetHolds .ne x y = !fsetHolds .eq x y ∧ fsetHolds .ge x y = !fsetHolds .lt x y ∧ fsetHolds .le x y = !fsetHolds .gt x y)

/-- R175, R177, R180: FMIN, FMAX, FSET and FCLS complete with their results, and what FSET says of NaNs and zeros. -/
def Obligations.FloatCompareResults : Prop := Sys2Proof.Claims.FloatOrderResults ∧ Sys2Proof.Claims.FsetOnNansAndZeros

/-- R182, R183, R184: CVT, CVTI both ways, PK4 and UPK4; none of them checks a breach. R60, R61, R78, R80: what is fixed of the
values of the conversions, of their flags and of their bounds; the limits of an integer are held against the rounded value (the
model's choice, log 97). That CVT between equal formats still clamps an infinity under SAT is the model's reading (log 13). -/
def Sys2Proof.Claims.FormatConversionResults : Prop :=
  (∀ x, EachLane (.cvt x) x.g (fun _ => unchecked x.dst.wide x.d (fun t =>
      cvtRes x.src x.dst x.elem.toNat x.rnd x.sat x.na x.aa (tVal t x.src.wide x.a) (tBnd t x.a))))
  ∧ (∀ x, EachLane (.cvtiF2i x) x.g (fun _ => unchecked x.ity.wide x.d (fun t =>
      f2iRes x.ity x.fmt x.rnd x.na x.aa (tVal t x.fmt.wide x.a) (tBnd t x.a))))
  ∧ (∀ x, EachLane (.cvtiI2f x) x.g (fun _ => unchecked x.fmt.wide x.d (fun t =>
      i2fRes x.ity x.fmt x.rnd (tVal t x.ity.wide x.a) (tBnd t x.a))))
  ∧ (∀ x, EachLane (.pk4 x) x.g (fun _ t => setReg t x.d.toNat
      ⟨pk4Word (getReg t x.a.toNat).val (getReg t x.b.toNat).val, bndMax (getReg t x.a.toNat).shadow (getReg t x.b.toNat).shadow⟩))
  ∧ (∀ x, EachLane (.upk4 x) x.g (fun _ t => setReg t x.d.toNat
      ⟨upk4Word x.signed x.hi (getReg t x.a.toNat).val, (getReg t x.a.toNat).shadow⟩))
  ∧ CodesRight ∧ CvtRules ∧ FloatToIntegerRules

/-- R184: nibble i of PK4's word is [3:0] of byte i of a, nibble 4 + i that of b; UPK4 spreads four nibbles to bytes,
sign-extended under `.i4` and zero-extended under `.fp4`. -/
def Sys2Proof.Claims.NibblePacking : Prop :=
  (∀ (a b : Word) (i : Nat), i < 4 →
    (pk4Word a b >>> (4 * i)).setWidth 4 = (a >>> (8 * i)).setWidth 4
    ∧ (pk4Word a b >>> (16 + 4 * i)).setWidth 4 = (b >>> (8 * i)).setWidth 4)
  ∧ (∀ (a : Word) (hi : Bool) (i : Nat), i < 4 →
    let n : BitVec 4 := (a >>> (4 * i + if hi then 16 else 0)).setWidth 4
    (upk4Word true hi a >>> (8 * i)).setWidth 8 = n.signExtend 8 ∧ (upk4Word false hi a >>> (8 * i)).setWidth 8 = n.setWidth 8)

/-- R181-R184: conversions and nibble packing complete with their results. -/
def Obligations.ConversionResults : Prop := Sys2Proof.Claims.FormatConversionResults ∧ Sys2Proof.Claims.NibblePacking

/-- R185-R191: QNT, QNT.ol and DQNT on a full warp whose active lanes agree on a format word without reserved values; what is
fixed of the scale of a block, of its outliers, of the words and bounds of a lane and of DQNT's value. The model's choices among
them: what QNT does with a NaN or an infinity under SCL 0 (log 82), the order in which QNT writes d, d + 1 and c (log 83), a
residual of zero is +0 (log 84), a zero without an outlier term keeps its sign (log 85). The flags of a lane in a NaN block, and
those under SCL 0, are its reading too (log 16). -/
def Sys2Proof.Claims.QuantisationCompletes : Prop :=
  (∀ x, QuantCompletes (.qnt x) x.g .qnt x.fw (qntThread false x))
  ∧ (∀ x, QuantCompletes (.qntOl x) x.g .qntOl x.fw (qntThread true x))
  ∧ (∀ x, QuantCompletes (.dqnt x) x.g .dqnt x.fw (fun w _ t => some (unchecked false x.d (fun t =>
      dqntRes (fwA w) (fwScl w) x.ol (getReg t x.a.toNat).val (getReg t (x.a + 1).toNat).val (getReg t x.a.toNat).shadow) t)))
  ∧ ScaleRules ∧ OutlierRules ∧ QuantRules ∧ DequantRules

/-- R24, R59: the traps of QNT, QNT.ol and DQNT. -/
def Sys2Proof.Claims.QuantisationTraps : Prop :=
  (∀ x, QuantTraps (.qnt x) x.g .qnt x.fw)
  ∧ (∀ x, QuantTraps (.qntOl x) x.g .qntOl x.fw)
  ∧ (∀ x, QuantTraps (.dqnt x) x.g .dqnt x.fw)

/-- R24, R59, R185-R191: where QNT, QNT.ol and DQNT complete, and where they trap. -/
def Obligations.QuantisationResults : Prop := Sys2Proof.Claims.QuantisationCompletes ∧ Sys2Proof.Claims.QuantisationTraps

/-- R193-R197: BRD writes a's shadow as data with shadow zero; BRAISE copies a with the shadow raised by b or, with `.set`, set
to it, rounded up; BUDGET and BUDGET #imm write the budget state, BUDGET of a reserved pattern setting NV and no more; BCHK
tests a's bound against the budget or b, and with `.trap` a failing lane of mode 2 sets BD; FLGRD reads the flags, and with
`.clr` clears those that a names. -/
def Obligations.BoundAndBudgetResults : Prop :=
  (∀ x, EachLane (.brd x) x.g (fun _ t => setReg t x.d.toNat
      ⟨if x.f then bndF32 (getReg t x.a.toNat).shadow else (getReg t x.a.toNat).shadow.setWidth 32, 0⟩))
  ∧ (∀ x, EachLane (.braise x) x.g (fun _ t =>
      let b := if x.f32 then fvMag (f32Of (tWord t x.b)) else bdOf ((tWord t x.b).setWidth 16)
      let v := upBd (if x.set then b else bdAdd (bdOf (tBnd t x.a)) b)
      setRegs t ((x.d.toNat, ⟨tWord t x.a, v⟩) :: (if x.pair then [(x.d.toNat + 1, ⟨(getReg t (x.a.toNat + 1)).val, 0⟩)] else []))))
  ∧ (∀ x, EachLane (.budget x) x.g (fun _ t =>
      if budOk (tWord t x.a) then { t with bud := tWord t x.a } else { t with flags := t.flags ||| 1 }))
  ∧ (∀ x, EachLane (.budgetImm x) x.g (fun _ t => { t with bud := x.imm }))
  ∧ (∀ x, LaneSteps (.bchk x) x.g (fun _ => ownStep (fun t =>
      let lim : BitVec 16 := if x.reg then (tWord t x.b).setWidth 16 else (t.bud >>> 16).setWidth 16
      if bdLe (bdOf (tBnd t x.a)) (bdOf lim) then some (setPred t x.p true)
      else if x.trap && t.bud.toNat % 4 == 1 then none
      else
        let u := setPred t x.p false
        some (if x.trap && t.bud.toNat % 4 == 2 then { u with flags := u.flags ||| 0x20 } else u))))
  ∧ (∀ x, EachLane (.flgrd x) x.g (fun _ t => setReg t x.d.toNat ⟨t.flags.setWidth 32, 0⟩))
  ∧ (∀ x, EachLane (.flgrdClr x) x.g (fun _ t =>
      { setReg t x.d.toNat ⟨t.flags.setWidth 32, 0⟩ with flags := t.flags &&& ~~~((tWord t x.a).setWidth 8) }))

/-- R57: up(x) of a nonnegative real is the least BND16 value not below x; of a nonnegative binary32 it is bits [30:15], plus one
if any of bits [14:0] is set; of an infinity or a NaN it is unbounded. -/
def Sys2Proof.Claims.BoundRoundsUpToLeast : Prop :=
  (∀ a : Dy, 0 ≤ a.m → bdLe (some a) (bdOf (upDy a)) = true
    ∧ ∀ c : BitVec 16, c.toNat ≤ 0xFF00 → bdLe (some a) (bdOf c) = true → (upDy a).toNat ≤ c.toNat)
  ∧ (∀ w : Word, w.toNat < 0x7F800000 →
      (upBd (fvMag (f32Of w))).toNat = w.toNat / 2 ^ 15 + if w.toNat % 2 ^ 15 = 0 then 0 else 1)
  ∧ (∀ w : Word, 0x7F800000 ≤ w.toNat % 2 ^ 31 → upBd (fvMag (f32Of w)) = 0xFF00)

/-- R60: the four rounding directions on |x| = m·2^e in units of 2^q, q > e: toward zero, down, up, and to nearest with ties
to the even unit; NX exactly when the value is no whole number of units. -/
def Sys2Proof.Claims.RoundingDirections : Prop :=
  ∀ (rnd : Rnd) (neg : Bool) (m : Nat) (e q : Int), e < q →
    let d := 2 ^ (q - e).toNat
    let n := (roundUnits rnd neg m e q).1
    ((roundUnits rnd neg m e q).2 = true ↔ m % d ≠ 0)
    ∧ (rnd = .rtz → n * d ≤ m ∧ m < (n + 1) * d)
    ∧ (rnd = .rdn → if neg then m ≤ n * d ∧ n * d < m + d else n * d ≤ m ∧ m < (n + 1) * d)
    ∧ (rnd = .rup → if neg then n * d ≤ m ∧ m < (n + 1) * d else m ≤ n * d ∧ n * d < m + d)
    ∧ (rnd = .rne → 2 * m ≤ (2 * n + 1) * d ∧ 2 * n * d ≤ 2 * m + d ∧ (2 * m = (2 * n + 1) * d ∨ 2 * n * d = 2 * m + d → n % 2 = 0))

/-- R57, R60: a bound rounds up to the least code, and a value in the four directions. -/
def Obligations.BoundRounding : Prop := Sys2Proof.Claims.BoundRoundsUpToLeast ∧ Sys2Proof.Claims.RoundingDirections

/-- R83, R84: after a store of bound b to word i of a line, the word's decoded bound is not below b, and no other word's
decoded bound has fallen. -/
def Obligations.StoredBoundsNeverFall : Prop :=
  ∀ (r : BRec) (i : Nat) (b : BitVec 16), i < 32 →
    bdLe (bdOf b) (bdOf (recBound (storeBound r i b) i)) = true
    ∧ (b = 0 → recBound (storeBound r i b) i = 0)
    ∧ ∀ j, j < 32 → j ≠ i → bdLe (bdOf (recBound r j)) (bdOf (recBound (storeBound r i b) j)) = true

/-! ## Memory (R96-R105, R198-R217, R290-R297) -/

namespace Sys2Proof.Claims

/-- Word i of a read's bytes, little-endian (R3). -/
def wordAt (g : Got) (i : Nat) : Word := BitVec.ofNat 32 (leNat ((g.bytes.drop (4 * i)).take 4))

/-- Table 9-2: the registers a load writes from the bytes read and the bounds of their words. -/
def loaded (w : Width) (d : VReg) (g : Got) : List (Nat × Reg) :=
  let b (i : Nat) : BitVec 16 := g.bnds.getD i 0
  match w with
  | .b8 | .b16 | .b32 => [(d.toNat, ⟨wordAt g 0, b 0⟩)]
  | .s8 => [(d.toNat, ⟨((wordAt g 0).setWidth 8).signExtend 32, b 0⟩)]
  | .s16 => [(d.toNat, ⟨((wordAt g 0).setWidth 16).signExtend 32, b 0⟩)]
  | .b64 => [(d.toNat, ⟨wordAt g 0, bndMax (b 0) (b 1)⟩), (d.toNat + 1, ⟨wordAt g 1, 0⟩)]
  | .b128 => [(d.toNat, ⟨wordAt g 0, b 0⟩), (d.toNat + 1, ⟨wordAt g 1, b 1⟩), (d.toNat + 2, ⟨wordAt g 2, b 2⟩),
      (d.toNat + 3, ⟨wordAt g 3, b 3⟩)]

/-- The bytes a store writes: the first of the source registers' little-endian words (R202). -/
def storedBytes (t : Thread) (w : Width) (d : VReg) : List Byte :=
  ([0, 1, 2, 3].flatMap (fun i => leBytes 4 (getReg t (d.toNat + i)).val.toNat)).take (widthBytes w)

/-- The bounds it writes: each register's own, a pair's even one for both words (R202). -/
def storedBounds (t : Thread) (w : Width) (d : VReg) : List (BitVec 16) :=
  let b (i : Nat) : BitVec 16 := (getReg t (d.toNat + i)).shadow
  match w with
  | .b64 => [b 0, b 0]
  | .b128 => [b 0, b 1, b 2, b 3]
  | _ => [b 0]

/-- Where a lane's access lands once its checks have passed (R198), and the state its translation leaves. -/
def lands (s : State) (t : Thread) (sp : Space) (a : VReg) (ofs : BitVec 18) (n : Nat) (k : AKind) : Option (Acc × State) :=
  match resolve s t sp (operandAddr t sp a ofs) n n k with
  | (.ok x, u) => some (x, u)
  | (.error _, _) => none

/-- A store at an access that no lock holds: bytes and bounds, the stash line dirtied, and its flags with BD for a dropped bound
(R65, R84, R85). -/
def storeAt (k : Nat) (a : Acc) (l : List Byte) (bs : List (BitVec 16)) (narrow : Bool) (fl : Byte) (u : State) : State :=
  let p := pokeLoc u a.loc a.stash l bs narrow
  let v := touchStash p.1 a.stash (physLine a.loc) true
  let f := fl ||| if p.2 then 0x20 else 0
  if f = 0 then v else modThread v k (fun t => { t with flags := t.flags ||| f })

/-- One lane of LD (R201). -/
def loadStep (x : MemOps) (k : Nat) (t : Thread) (s : State) : Option State :=
  (lands s t x.space x.a x.ofs (widthBytes x.w) .read).map (fun p =>
    let r := accRead (cacheLane p.2 t x.evc.toNat (!x.rp) p.1 false) p.1 (widthBytes x.w)
    learnBy x.ord (modThread r.2 k (fun t => setRegs t (loaded x.w x.d r.1))) k)

/-- One lane of ST where no migration lock holds its write (R202, R134). -/
def storeStep (x : MemOps) (k : Nat) (t : Thread) (s : State) : Option State :=
  (lands s t x.space x.a x.ofs (widthBytes x.w) .write).bind (fun p =>
    if (locLock p.2 p.1.loc).isSome then none
    else some (storeAt k p.1 (storedBytes t x.w x.d) (storedBounds t x.w x.d) (decide (widthBytes x.w < 4)) 0
      (cacheLane p.2 t x.evc.toNat false p.1 true)))

/-- An atomic's read and write in one step at the home: the old value to d with its bound, the new one to memory (R211). -/
def swapAt (k : Nat) (a : Acc) (ty : Ty) (d : VReg) (f : Got → Option Deliv) (u : State) : State :=
  let r := accRead u a ty.bytes
  let old := wrTy ty.wide d r.1.val r.1.bnd
  match f r.1 with
  | none => modThread r.2 k (fun t => setRegs t old)
  | some z =>
    let p := pokeLoc r.2 a.loc a.stash (leBytes ty.bytes z.bits.toNat) (List.replicate (ty.bytes / 4) z.bnd) false
    modThread (touchStash p.1 a.stash (physLine a.loc) true) k (fun t =>
      let t := setRegs t old
      { t with flags := t.flags ||| (z.fl ||| if p.2 then 0x20 else 0) })

def atomStepOf (x : AtomOps) (k : Nat) (t : Thread) (s : State) : Option State :=
  (lands s t x.space x.a 0 x.ty.bytes .atomic).bind (fun p =>
    if (locLock p.2 p.1.loc).isSome then none
    else some (learnBy x.ord (swapAt k p.1 x.ty x.d (fun g => some (atomRes x.op x.ty g.val g.bnd (tVal t x.ty.wide x.b) (tBnd t x.b))) (atomAcc p.2 t x.evc p.1)) k))

def acasStepOf (x : AcasOps) (k : Nat) (t : Thread) (s : State) : Option State :=
  (lands s t x.space x.a 0 x.ty.bytes .atomic).bind (fun p =>
    if (locLock p.2 p.1.loc).isSome then none
    else some (learnBy x.ord (swapAt k p.1 x.ty x.d (fun g =>
      if g.val = tVal t x.ty.wide x.b then some ⟨tVal t x.ty.wide x.c, 0, tBnd t x.c⟩ else none) (atomAcc p.2 t x.evc p.1)) k))

/-- One lane of RED at the home, or into the update-only partial of its core, which one being open (R128, R212); here a
`.gl` access whose choice is drawn from the state. -/
def redStepOf (x : AtomOps) (k : Nat) (t : Thread) (s : State) : Option State :=
  (lands s t x.space x.a 0 x.ty.bytes .write).bind (fun p =>
    if (locLock p.2 p.1.loc).isSome then none
    else
      let b := tVal t x.ty.wide x.b
      let bb := tBnd t x.b
      let home (u : State) : State :=
        let r := accRead (atomAcc u t x.evc p.1) p.1 x.ty.bytes
        let z := atomRes x.op x.ty r.1.val r.1.bnd b bb
        touchStash (pokeLoc r.2 p.1.loc p.1.stash (leBytes x.ty.bytes z.bits.toNat) (List.replicate (x.ty.bytes / 4) z.bnd) false).1
          p.1.stash (physLine p.1.loc) true
      match p.1.loc with
      | .scr _ _ => some (home p.2)
      | .phys pa key bt =>
        let (upd, u) := if p.1.stash.isSome then (false, p.2) else drawBool p.2
        let w := combineWrite (takeCopies u (coreOf u t) (lineOf pa)) (lineOf pa)
        let v := if upd then dropStash { w with mem := contribute w.mem (coreOf w t) pa key bt x.op x.ty b bb } (lineOf pa) none
          else home u
        some (if bb ≠ 0 && !(bt && hasChunk p.2.mem pa) then modThread v k (fun t => { t with flags := t.flags ||| 0x20 }) else v))

/-! ### Count objects: the 32 bytes as one number -/

/-- Bits the object reserves (Table 5-6). -/
def objReserved (n : Nat) : Bool := n / 2 ^ 92 % 16 ≠ 0 || n / 2 ^ 104 ≠ 0

/-- COUNT has reached a target with PEND 0 (R216). -/
def objDone (n target : Nat) : Bool := decide (target ≤ n % 2 ^ 64) && n / 2 ^ 64 % 2 ^ 28 == 0

/-- CSIG: COUNT grows by v, FLAGS takes more bits; none past 2^64 − 1 (R214). -/
def objSignal (n v : Nat) (fl : Byte) : Option Nat :=
  if objReserved n || decide (2 ^ 64 ≤ n % 2 ^ 64 + v) then none
  else some (n % 2 ^ 96 + v + (BitVec.ofNat 8 (n / 2 ^ 96) ||| fl).toNat * 2 ^ 96)

/-- CPEND: PEND moves by v within 0 and 2^28 − 1 (R214). -/
def objPend (n v : Nat) (sub : Bool) : Option Nat :=
  let p := n / 2 ^ 64 % 2 ^ 28
  if objReserved n then none
  else if sub then (if v ≤ p then some (n - v * 2 ^ 64) else none)
  else if p + v < 2 ^ 28 then some (n + v * 2 ^ 64) else none

/-- A lane's object, which no mapped stash range holds (R215). -/
def objLands (s : State) (t : Thread) (x : Space) (a : VReg) (k : AKind) : Option (Acc × State) :=
  (lands s t x a 0 32 k).bind (fun p => if p.1.stash.isSome then none else some p)

/-- One lane of CSIG or CPEND: the object's bytes are replaced and its words' codes become 0 (R110, R214). -/
def objStep (x : CobjOps) (f : Thread → Nat → Option Nat) (_k : Nat) (t : Thread) (s : State) : Option State :=
  (objLands s t x.space x.a .atomic).bind (fun p =>
    if (locLock p.2 p.1.loc).isSome then none
    else
      let r := accRead (homeAcc p.2 p.1.loc true) p.1 32
      (f t (leNat r.1.bytes)).map (fun n => (pokeLoc r.2 p.1.loc none (leBytes 32 n) (List.replicate 8 0) false).1))

/-- One lane of CWAIT: it goes on, or waits (R216). -/
def cwaitStep (x : CobjOps) (gid k : Nat) (t : Thread) (s : State) : Option State :=
  (objLands s t x.space x.a .read).bind (fun p =>
    let r := accRead (homeAcc p.2 p.1.loc false) p.1 32
    if objReserved (leNat r.1.bytes) then none
    else if objDone (leNat r.1.bytes) (tVal t x.wide x.b).toNat then some (learnAway r.2 k)
    else some (addWait r.2 gid k (.cobj x.space (operandAddr t x.space x.a 0) (tVal t x.wide x.b))))

/-- One lane of CRD; with ORD 1 it is an acquire (R217). -/
def crdStep (x : CrdOps) (k : Nat) (t : Thread) (s : State) : Option State :=
  (objLands s t x.space x.a .read).bind (fun p =>
    let r := accRead (homeAcc p.2 p.1.loc false) p.1 32
    let n := leNat r.1.bytes
    if objReserved n then none
    else some (learnBy x.ord (modThread r.2 k (fun t => setRegs t [(x.d.toNat, ⟨BitVec.ofNat 32 n, 0⟩),
      (x.d.toNat + 1, ⟨BitVec.ofNat 32 (n / 2 ^ 32), 0⟩), (x.d.toNat + 2, ⟨BitVec.ofNat 32 (n / 2 ^ 64 % 2 ^ 28), 0⟩),
      (x.d.toNat + 3, ⟨BitVec.ofNat 32 (n / 2 ^ 96 % 2 ^ 8), 0⟩)])) k))

/-! ### The stash map -/

/-- Whether a map entry overlaps a virtual range or a storage range (R207). -/
def entryHit (vb so len : Nat) (e : SMapE) : Bool := meets e.vbase e.len vb len || meets e.soff e.len so len

/-- A core group after SMAP installs (vb, len, so): what overlapped has gone with its lines, the new lines are invalid. -/
def installed (vb so len i : Nat) (c : CoreGroup) : CoreGroup :=
  { c with
    smap := Map.put (c.smap.filter (fun e => !entryHit vb so len e.2)) i ⟨vb, len, so⟩,
    slines := c.slines.filter (fun l => !meets (l.1 * 128) 128 so len
      && !(c.smap.any (fun e => entryHit vb so len e.2 && meets (l.1 * 128) 128 e.2.soff e.2.len))) }

/-- One lane of SMAP; none where R207 faults it. -/
def smapStep (x : SmapOps) (_k : Nat) (t : Thread) (s : State) : Option State :=
  let vb := (tPair t x.a).toNat
  let len := (tWord t x.lr).toNat
  let so := (tWord t x.orr).toNat
  if vb % 128 ≠ 0 || len % 128 ≠ 0 || so % 128 ≠ 0 || len = 0 || decide (stashSize s t.cgu < so + len) then none
  else (Map.get? s.coreGroups (coreKeyOf t)).bind (fun c =>
    ((List.range 16).find? (fun i => (Map.get? (c.smap.filter (fun e => !entryHit vb so len e.2)) i).isNone)).map (fun i =>
      modCore s (coreKeyOf t) (installed vb so len i)))

/-- A core group after SMAP.un of a virtual range. -/
def unmapped (vb len : Nat) (c : CoreGroup) : CoreGroup :=
  { c with
    smap := c.smap.filter (fun e => !meets e.2.vbase e.2.len vb len),
    slines := c.slines.filter (fun l => !(c.smap.any (fun e => meets e.2.vbase e.2.len vb len && meets (l.1 * 128) 128 e.2.soff e.2.len))) }

/-- A lane that changes its core group. -/
def coreStep (f : Thread → CoreGroup → CoreGroup) (_k : Nat) (t : Thread) (s : State) : Option State :=
  some (modCore s (coreKeyOf t) (f t))

/-- Stash lines written back: clean, or with `inv` gone (R208). -/
def writtenBack (inv : Bool) (p : CoreGroup → Nat → Bool) (c : CoreGroup) : CoreGroup :=
  { c with slines := c.slines.filterMap (fun l =>
      if p c l.1 then (if inv then none else some (l.1, { l.2 with dirty := false })) else some l) }

/-- What a thread holds that a load or a store of another lane leaves alone. -/
def sameRegs (u v : Thread) : Prop :=
  v.regs = u.regs ∧ v.cregs = u.cregs ∧ v.preds = u.preds ∧ v.lk = u.lk ∧ v.flags = u.flags ∧ v.bud = u.bud ∧ v.priv = u.priv

/-- Register r of a thread in the frame that another state of it maps. -/
def regIn (u v : Thread) (r : Nat) : Reg := getReg { v with frame := u.frame } r

/-- Partials lie within a line (R212: an L1 keeps one for each operand-sized element of a line it holds). -/
def PartialsFit (m : MemSys) : Prop := ∀ p ∈ m.partials, p.pa % 128 + p.ty.bytes ≤ 128

/-- The byte at a physical address once its line's partials are combined. -/
def rawByte (m : MemSys) (a : Nat) : Byte := memGet (combineLine m (lineOf a)).bytes a

/-- No cached translation covers an address, no cached table entry exists, and no walk of the act has failed (R295). -/
def Uncached (s : State) (w : Who) (va : Nat) : Prop := tlbHit s w va = none ∧ s.mem.tabs = [] ∧ s.mem.walks = []

/-- A page-table entry that points to the next table (R291). -/
def tableEntry (e : DWord) : Bool := e.toNat % 2 ^ 12 == 3 && e.toNat / 2 ^ 52 == 0

end Sys2Proof.Claims

/-- R201, Table 9-2: LD reads the bytes at its address and writes its destinations, shadows from the words' bounds; with ORD 1
it is an acquire. It completes wherever no lane's check fails. That a load reads the one memory at its step, and no order beyond
that is left to it, is the model's choice (log 2). -/
def Obligations.LoadResults : Prop :=
  ∀ x, LaneSteps (.ld x) x.g (fun _ => loadStep x)

/-- R202, R84, R85: ST writes its source's bytes and bounds at its address, BD being set where a bound is dropped. -/
def Sys2Proof.Claims.StoreEffects : Prop :=
  ∀ x, LaneSteps (.st x) x.g (fun _ => storeStep x)

/-- R134, R299: a store that a migration lock holds takes no effect on memory yet; its lane waits. One active lane. How a held
write is kept until the lock ends is the model's reading (log 43). -/
def Sys2Proof.Claims.LockedStoresWait : Prop :=
  ∀ x s gid g k t a u p, At s gid g → activeOf s g x.g = [k] → getThread s k = some t →
    lands s t x.space x.a x.ofs (widthBytes x.w) .write = some (a, u) → locLock u a.loc = some p →
    exec (.st x) s = .next (advance (addWait (setPart (cacheLane u t x.evc.toNat false a true) p (fun q => { q with held := q.held ++
      [⟨k, a.loc, if x.space == .gl || x.space == .sh then some ⟨whoOf u t, operandAddr t x.space x.a x.ofs, .write⟩ else none,
        .store (storedBytes t x.w x.d) (storedBounds t x.w x.d) (decide (widthBytes x.w < 4)) 0, none, .land⟩] })) gid k .locked) gid)

/-- R202, R134: ST stores, or waits where a migration lock holds its write. -/
def Obligations.StoreResults : Prop := Sys2Proof.Claims.StoreEffects ∧ Sys2Proof.Claims.LockedStoresWait

/-- R96, R198: a misaligned access traps with cause class 3, ARG0 the address and ARG1 the alignment, and has no effect. ARG1
follows Table 18-1 as the model reads it (log 40). -/
def Sys2Proof.Claims.MisalignedAccessTraps : Prop :=
  ∀ s gid g k t, At s gid g → getThread s k = some t →
    let stops (i : Instr) (gd : Guard) (a : DWord) (n : Nat) : Prop :=
      activeOf s g gd = [k] → a.toNat % n ≠ 0 → exec i s = .next (splitGroup s s gid g [(k, ⟨3, 0, a, BitVec.ofNat 64 n⟩)] false)
    (∀ x, stops (.ld x) x.g (operandAddr t x.space x.a x.ofs) (widthBytes x.w))
    ∧ (∀ x, stops (.st x) x.g (operandAddr t x.space x.a x.ofs) (widthBytes x.w))
    ∧ (∀ x, stops (.atom x) x.g (operandAddr t x.space x.a 0) x.ty.bytes)
    ∧ (∀ x, stops (.acas x) x.g (operandAddr t x.space x.a 0) x.ty.bytes)
    ∧ (∀ x, stops (.red x) x.g (operandAddr t x.space x.a 0) x.ty.bytes)
    ∧ (∀ x, stops (.csig x) x.g (operandAddr t x.space x.a 0) 32)
    ∧ (∀ x, stops (.cpendAdd x) x.g (operandAddr t x.space x.a 0) 32)
    ∧ (∀ x, stops (.cwait x) x.g (operandAddr t x.space x.a 0) 32)
    ∧ (∀ x, stops (.crd x) x.g (operandAddr t x.space x.a 0) 32)

/-- R97, R98: scratch and peer accesses past the core group's scratch bytes, or to a core that is not of the cluster group. ARG1
of a scratch fault (log 40), and that a peer that has left faults only threads ordered after that (log 7), are the model's
readings. -/
def Sys2Proof.Claims.ScratchAndPeerFaults : Prop :=
  ∀ x s gid g k t, At s gid g → activeOf s g x.g = [k] → getThread s k = some t →
    let a := operandAddr t x.space x.a x.ofs
    let n := widthBytes x.w
    let traps (c : Nat) (r : Nat) (v : Nat) : Prop :=
      exec (.ld x) s = .next (splitGroup s s gid g [(k, ⟨c, r, a, BitVec.ofNat 64 v⟩)] false)
    a.toNat % n = 0 →
    (x.space = .sc → scratchSize s t.cgu < a.toNat + n → traps 2 5 1)
    ∧ (x.space = .pe → 2 ^ 23 ≤ a.toNat → traps 2 5 1)
    ∧ (x.space = .pe → a.toNat < 2 ^ 23 →
        (∀ c ∈ s.coreGroups, c.2.cgu = t.cgu → c.2.core % 4 = a.toNat / 2 ^ 20 % 4 → (4 ≤ c.2.k ↔ 2 ^ 22 ≤ a.toNat) →
          c.2.gone = true ∧ t.away.getLsbD c.2.k = true) → traps 6 0 0)
    ∧ (x.space = .pe → a.toNat < 2 ^ 23 →
        (∃ c ∈ s.coreGroups, c.2.cgu = t.cgu ∧ c.2.core % 4 = a.toNat / 2 ^ 20 % 4 ∧ (4 ≤ c.2.k ↔ 2 ^ 22 ≤ a.toNat) ∧ c.2.gone = false) →
        scratchSize s t.cgu < a.toNat % 2 ^ 20 + n → traps 2 5 1)

/-- R96-R98, R198: misaligned accesses, and scratch and peer accesses that name no byte. -/
def Obligations.AccessFaults : Prop := Sys2Proof.Claims.MisalignedAccessTraps ∧ Sys2Proof.Claims.ScratchAndPeerFaults

/-- R210, R211: ATOM and ACAS return the old value with its bound and write the new one in one step; a failed ACAS writes
nothing. -/
def Sys2Proof.Claims.AtomicEffects : Prop :=
  (∀ x, LaneSteps (.atom x) x.g (fun _ => atomStepOf x))
  ∧ (∀ x, WellFormed (.acas x) → LaneSteps (.acas x) x.g (fun _ => acasStepOf x))

/-- R212, R128: RED updates the word at its home or a partial of its core, and sets no flag but BD. Which REDs become partials
of a core is free (log 18); that a RED sets BD where a bound is dropped is the model's reading (log 42). -/
def Sys2Proof.Claims.ReductionEffects : Prop :=
  ∀ x, LaneSteps (.red x) x.g (fun _ => redStepOf x)

/-- Tables 9-4 and 9-5: for every type an operation admits, integer results of ATOM and RED wrap, with bound 0 and no flag; minimum
and maximum compare as the type is signed or not; `.exch` writes the operand with its bound. -/
def Sys2Proof.Claims.AtomicIntegerTable : Prop :=
  ∀ (old b : DWord) (bo bb : BitVec 16),
    (∀ ty, ty = .s32 ∨ ty = .n32 → atomRes .add ty old bo b bb = ⟨(loWord old + loWord b).setWidth 64, 0, 0⟩)
    ∧ (∀ ty, ty = .s32 ∨ ty = .n32 ∨ ty = .b32 →
      atomRes .and ty old bo b bb = ⟨(loWord old &&& loWord b).setWidth 64, 0, 0⟩
      ∧ atomRes .or ty old bo b bb = ⟨(loWord old ||| loWord b).setWidth 64, 0, 0⟩
      ∧ atomRes .xor ty old bo b bb = ⟨(loWord old ^^^ loWord b).setWidth 64, 0, 0⟩)
    ∧ (∀ ty, ty = .s32 ∨ ty = .n32 ∨ ty = .f32 ∨ ty = .b32 → atomRes .exch ty old bo b bb = ⟨(loWord b).setWidth 64, 0, bb⟩)
    ∧ (∀ ty, ty = .s64 ∨ ty = .n64 →
      atomRes .add ty old bo b bb = ⟨old + b, 0, 0⟩ ∧ atomRes .and ty old bo b bb = ⟨old &&& b, 0, 0⟩
      ∧ atomRes .or ty old bo b bb = ⟨old ||| b, 0, 0⟩ ∧ atomRes .xor ty old bo b bb = ⟨old ^^^ b, 0, 0⟩)
    ∧ (∀ ty, ty = .s64 ∨ ty = .n64 ∨ ty = .f64 → atomRes .exch ty old bo b bb = ⟨b, 0, bb⟩)
    ∧ atomRes .min .s64 old bo b bb = ⟨if old.sle b then old else b, 0, 0⟩
    ∧ atomRes .max .s64 old bo b bb = ⟨if old.sle b then b else old, 0, 0⟩
    ∧ atomRes .min .n64 old bo b bb = ⟨if old.ule b then old else b, 0, 0⟩
    ∧ atomRes .max .n64 old bo b bb = ⟨if old.ule b then b else old, 0, 0⟩
    ∧ atomRes .min .n32 old bo b bb = ⟨(if (loWord old).ule (loWord b) then loWord old else loWord b).setWidth 64, 0, 0⟩
    ∧ atomRes .max .n32 old bo b bb = ⟨(if (loWord old).ule (loWord b) then loWord b else loWord old).setWidth 64, 0, 0⟩
    ∧ atomRes .min .s32 old bo b bb = ⟨(if (loWord old).sle (loWord b) then loWord old else loWord b).setWidth 64, 0, 0⟩
    ∧ atomRes .max .s32 old bo b bb = ⟨(if (loWord old).sle (loWord b) then loWord b else loWord old).setWidth 64, 0, 0⟩

/-- R210-R212, Table 9-5: ATOM, ACAS and RED complete, and their integer results. -/
def Obligations.AtomicResults : Prop := Sys2Proof.Claims.AtomicEffects ∧ Sys2Proof.Claims.ReductionEffects ∧ Sys2Proof.Claims.AtomicIntegerTable

/-- R213-R217: on the 32 bytes of a count object, CSIG adds to COUNT and, with `.fl`, ORs the thread's flags into FLAGS, CPEND
adds to PEND or takes from it, CRD reads the object, with ORD 1 as an acquire, and CWAIT goes on once COUNT has reached the target and PEND is 0,
and waits until then; each where the object's checks pass. -/
def Obligations.CountObjectResults : Prop :=
  (∀ x, LaneSteps (.csig x) x.g (fun _ => objStep x (fun t n => objSignal n (tVal t x.wide x.b).toNat 0)))
  ∧ (∀ x, LaneSteps (.csigFl x) x.g (fun _ => objStep x (fun t n => objSignal n (tVal t x.wide x.b).toNat t.flags)))
  ∧ (∀ x, LaneSteps (.cpendAdd x) x.g (fun _ => objStep x (fun t n => objPend n (tVal t x.wide x.b).toNat false)))
  ∧ (∀ x, LaneSteps (.cpendSub x) x.g (fun _ => objStep x (fun t n => objPend n (tVal t x.wide x.b).toNat true)))
  ∧ (∀ x, LaneSteps (.cwait x) x.g (cwaitStep x))
  ∧ (∀ x, LaneSteps (.crd x) x.g (fun _ => crdStep x))

/-- R204, R205: FENCE and FENCE.j touch no memory and PREF never faults; each group goes on. That a fence has nothing left to
order in the model is its choice (log 2). -/
def Sys2Proof.Claims.FencesAndPrefetchesGoOn : Prop :=
  (∀ x, LaneSteps (.fence x) x.g (fun _ k _ s => some (learnBy x.ord s k)))
  ∧ (∀ x s gid g, At s gid g → exec (.fenceJ x) s = .next (advance s gid))
  ∧ (∀ x s gid g, At s gid g → ∃ u, exec (.pref x) s = .next (advance u gid) ∧ u.threads = s.threads ∧ u.groups = s.groups
      ∧ u.warps = s.warps ∧ u.launches = s.launches
      ∧ u.coreGroups.map (fun c => (c.1, c.2.scratch, c.2.srec, c.2.smap)) = s.coreGroups.map (fun c => (c.1, c.2.scratch, c.2.srec, c.2.smap))
      ∧ (x.sh = false → x.evc = 7 → u = s))

/-- R206-R209: SMAP, SMAP.un, SWB, SINV and CWB. The permission that CWB asks for is the model's reading (log 41). -/
def Sys2Proof.Claims.StashMaintenance : Prop :=
  (∀ x, LaneSteps (.smap x) x.g (fun _ => smapStep x))
  ∧ (∀ x, LaneSteps (.smapUn x) x.g (fun _ => coreStep (fun t => unmapped (tPair t x.a).toNat (tWord t x.lr).toNat)))
  ∧ (∀ x, LaneSteps (.swb x) x.g (fun _ => coreStep (fun t =>
      writtenBack false (fun c => lineIn c (tPair t x.a).toNat (tWord t x.lr).toNat))))
  ∧ (∀ x, LaneSteps (.sinv x) x.g (fun _ => coreStep (fun t =>
      writtenBack true (fun c => lineIn c (tPair t x.a).toNat (tWord t x.lr).toNat))))
  ∧ (∀ g, LaneSteps (.swbAll g) g (fun _ => coreStep (fun _ => writtenBack false (fun _ _ => true))))
  ∧ (∀ g, LaneSteps (.sinvAll g) g (fun _ => coreStep (fun _ c => { c with slines := [] })))
  ∧ (∀ x, LaneSteps (.cwb x) x.g (fun _ _ t s =>
      let a := (tPair t x.a).toNat
      let n := (tWord t x.lr).toNat
      if n = 0 then some s
      else match rangePieces (n / 4096 + 3) s (whoOf s t) (a / 128 * 128) ((a + n + 127) / 128 * 128) with
        | (.ok ps, u) => some (ps.foldl (fun v p => cleanPhys v (some (coreOf u t)) p.1 p.2) u)
        | (.error _, _) => none))
  ∧ (∀ s core a n line, meets (line * 128) 128 a n = true →
      Map.get? (cleanPhys s core a n).mem.dirty line = none
      ∧ (∀ c ∈ (cleanPhys s core a n).mem.l1, l1Line c.1 = line → c.2.st ≠ .dirty) ∧ (∀ p ∈ (cleanPhys s core a n).mem.partials, lineOf p.pa ≠ line)
      ∧ ∀ c ∈ (cleanPhys s core a n).coreGroups, ∀ l ∈ c.2.slines, l.2.line = line → l.2.dirty = false)

/-- R204-R209: fences, prefetches and stash maintenance complete with their effects. -/
def Obligations.FenceAndStashResults : Prop := Sys2Proof.Claims.FencesAndPrefetchesGoOn ∧ Sys2Proof.Claims.StashMaintenance

/-- R84, R126: a read of the bytes just stored gives them, and bounds not below those stored on a tracked page with a shadow
chunk; an untracked page reads bound 0. -/
def Obligations.StoredBytesReadBack : Prop :=
  ∀ (s : State) (pa key : Nat) (bt narrow : Bool) (l : List Byte) (b : BitVec 16), lockOf s pa = none →
    0 < l.length → l.length ≤ 4 → pa % 4 + l.length ≤ 4 → (narrow = false → pa % 4 = 0) →
    let p := pokeLoc s (.phys pa key bt) none l [b] narrow
    let r := (readLoc p.1 (.phys pa key bt) l.length).1
    r.bytes = l
    ∧ (bt = true → hasChunk s.mem pa = true → ∀ c, r.bnds = [c] → bdLe (bdOf b) (bdOf c) = true)
    ∧ (bt = false → r.bnds = [0] ∧ (p.2 = true ↔ b ≠ 0))

/-- The frame of a store: bytes beside the stored ones read as before under any key on other lines and under the access's
own key on its line; registers, warps, launches and scratchpads are unchanged. -/
def Sys2Proof.Claims.GlobalStoreFrame : Prop :=
  ∀ (s : State) (pa key : Nat) (bt narrow : Bool) (keep : StashRef) (l : List Byte) (bs : List (BitVec 16)),
    PartialsFit s.mem → pa % 128 + l.length ≤ 128 →
    let v := (pokeLoc s (.phys pa key bt) keep l bs narrow).1
    (∀ a k, a < pa ∨ pa + l.length ≤ a → lineOf a ≠ lineOf pa ∨ k = key → viewByte v.mem a k = viewByte s.mem a k)
    ∧ v.threads = s.threads ∧ v.groups = s.groups ∧ v.warps = s.warps ∧ v.launches = s.launches ∧ v.parts = s.parts
    ∧ v.coreGroups.map (fun c => (c.1, c.2.scratch, c.2.srec, c.2.smap)) = s.coreGroups.map (fun c => (c.1, c.2.scratch, c.2.srec, c.2.smap))

/-- The frame of a scratch store: other scratch bytes of the core group, every other core group and all of physical memory
are unchanged, and the stored bytes read back (R102). -/
def Sys2Proof.Claims.ScratchStoreFrame : Prop :=
  ∀ (s : State) (g o : Nat) (c : CoreGroup) (l : List Byte) (bs : List (BitVec 16)), Map.get? s.coreGroups g = some c →
    let v := (pokeLoc s (.scr g o) none l bs false).1
    v.mem = s.mem ∧ v.threads = s.threads
    ∧ (∀ h, h ≠ g → Map.get? v.coreGroups h = Map.get? s.coreGroups h)
    ∧ ∃ d, Map.get? v.coreGroups g = some d ∧ scrBytes d o l.length = l
      ∧ (∀ a, a < o ∨ o + l.length ≤ a → Map.get 0 d.scratch a = Map.get 0 c.scratch a)
      ∧ d.smap = c.smap ∧ d.slines = c.slines

/-- R84, R102, R202: the frame of a store, in physical memory and in scratch. -/
def Obligations.StoreFrame : Prop := Sys2Proof.Claims.GlobalStoreFrame ∧ Sys2Proof.Claims.ScratchStoreFrame

/-- The frame of LD on one lane: the destination registers alone change in its thread, nothing in the others, and every byte
of memory reads as it did once the access was translated. -/
def Obligations.LoadFrame : Prop :=
  ∀ x s gid g k t a u v, At s gid g → activeOf s g x.g = [k] → getThread s k = some t →
    lands s t x.space x.a x.ofs (widthBytes x.w) .read = some (a, u) → PartialsFit u.mem → exec (.ld x) s = .next v →
    (∀ sp b, t.frame = some (sp, b) → b ≤ sp) →
    (∀ j w, j ≠ k → getThread s j = some w → ∃ z, getThread v j = some z ∧ sameRegs w z)
    ∧ (∃ z, getThread v k = some z ∧ z.preds = t.preds ∧ z.lk = t.lk ∧ z.flags = t.flags ∧ z.bud = t.bud
        ∧ ∀ r, (∀ e ∈ loaded x.w x.d (accRead u a (widthBytes x.w)).1, e.1 ≠ r) → regIn t z r = getReg t r)
    ∧ v.coreGroups.map (fun c => (c.1, c.2.scratch, c.2.srec)) = u.coreGroups.map (fun c => (c.1, c.2.scratch, c.2.srec))
    ∧ (∀ g o, a.loc = .scr g o → v.mem = u.mem)
    ∧ (∀ pa key bt, a.loc = .phys pa key bt → lockOf u pa = none →
        ∀ c k', lineOf c ≠ lineOf pa ∨ k' = key → viewByte v.mem c k' = viewByte u.mem c k')

/-- R293: what a translation leaves: no byte but those of the leaf's entry changes, no register, group or warp. -/
def Obligations.TranslationFrame : Prop :=
  ∀ s w va k l u, PartialsFit s.mem → translateLeaf s w va k = (.ok l, u) → l.pteAddr % 8 = 0 →
    u.threads = s.threads ∧ u.groups = s.groups ∧ u.warps = s.warps ∧ u.launches = s.launches ∧ u.clusterGroups = s.clusterGroups
    ∧ u.coreGroups.map (fun c => (c.1, c.2.scratch, c.2.srec)) = s.coreGroups.map (fun c => (c.1, c.2.scratch, c.2.srec))
    ∧ ∀ a, a < l.pteAddr ∨ l.pteAddr + 8 ≤ a → rawByte u.mem a = rawByte s.mem a

/-- R292, R293, Table 17-2: with nothing cached, a valid tree of five levels whose leaf is a 4 KiB page that admits the access
translates to the page's frame and the offset, no entry and no byte being lost (R322) and no die having to
give up an entry's line first (R344), and the leaf then has AC set, and DT after a write. -/
def Obligations.WalkOfFourKiBPage : Prop :=
  ∀ s w va k, Uncached s w va.toNat → s.parts.all (fun e => !e.2.locks && e.2.migSt != .landing) = true → s.mem.partials = [] →
    let root := (partOf s w.part).ptRoot
    let a0 := root.toNat / 2 ^ 7 % 2 ^ 45 * 2 ^ 7 + 8 * (va.toNat / 2 ^ 48)
    let e0 := physRead64 s a0
    let e1 := physRead64 s (ptePa e0 + 8 * (va.toNat / 2 ^ 39 % 512))
    let e2 := physRead64 s (ptePa e1 + 8 * (va.toNat / 2 ^ 30 % 512))
    let e3 := physRead64 s (ptePa e2 + 8 * (va.toNat / 2 ^ 21 % 512))
    let a4 := ptePa e3 + 8 * (va.toNat / 2 ^ 12 % 512)
    let e4 := physRead64 s a4
    pteBit root 0 = true → va.toNat < 2 ^ 52 → tableEntry e0 = true → tableEntry e1 = true → tableEntry e2 = true →
    tableEntry e3 = true → pteBit e4 0 = true → pteBit e4 1 = false → pteSize e4 = 0 → pteBit e4 52 = false →
    (k ≠ .fetch ∨ pteBit e4 3 = true → pteBit e4 2 = true) → (k.writes = true → pteBit e4 3 = true) → (k = .fetch → pteBit e4 4 = true) →
    (w.priv = false → pteBit e4 5 = true) → Map.get? s.mem.keys (pteKey e4) = some ⟨true, some w.part⟩ →
    (pteBit e4 8 = true → chunksCover s.mem (ptePa e4) 4096 = true) → inOneMemory s.mem (ptePa e4) 4096 = true →
    (∀ a ∈ [a0, ptePa e0 + 8 * (va.toNat / 2 ^ 39 % 512), ptePa e1 + 8 * (va.toNat / 2 ^ 30 % 512),
      ptePa e2 + 8 * (va.toNat / 2 ^ 21 % 512), a4, ptePa e4 + va.toNat % 4096], withdrawn s.mem a = false) → frameLost s.mem (ptePa e4) 4096 = false →
    (∀ a ∈ [a0, ptePa e0 + 8 * (va.toNat / 2 ^ 39 % 512), ptePa e1 + 8 * (va.toNat / 2 ^ 30 % 512),
      ptePa e2 + 8 * (va.toNat / 2 ^ 21 % 512), a4], ∀ wr, silentDie s w.core (a / 128) wr = none) →
    ∃ u, translate s w va k = (.ok (.phys (ptePa e4 + va.toNat % 4096) (pteKey e4) (pteBit e4 8)), u)
      ∧ physRead64 u a4 = e4 ||| 0x40 ||| (if k.writes then 0x80 else 0)

/-! ## Threads of a warp and of a group (R26-R46, R218-R236) -/

namespace Sys2Proof.Claims

/-- In every issue group, each active lane's thread changes by `f`, which sees the active lanes; the group goes on. -/
def GroupEach (i : Instr) (gd : Guard) (f : State → List Nat → Thread → Thread) : Prop :=
  ∀ s gid g, At s gid g → exec i s = .next (advance (onThreads (f s (activeOf s g gd)) (activeOf s g gd) s) gid)

/-- One lane's arrival at a barrier, and its wait for the phase the arrival is due to complete (R36, R218). -/
def arriveStep (a : Arr) (x : BarOps) (gid k : Nat) (t : Thread) (s : State) : Option State :=
  let b := getBar s t.cgu x.b.toNat
  let u := setBar s t.cgu x.b.toNat (barArrive b [(k, a)])
  some (match barTarget b k a with
    | some ph => addWait u gid k (.bar t.cgu x.b.toNat ph)
    | none => u)

/-- A barrier after a flip (R36): the phase is over, pending adjustments have applied. -/
def flipped (b : Bar) (drop : Nat) : Bar :=
  { b with phase := b.phase + 1, arrived := 0, who := [], drop := 0, join := 0, away := b.going,
           expected := min (b.expected + b.join - drop) (2 ^ 32 - 1) }

/-- An instruction that changes mask m of its warp by the active lanes, in one step (R219, R220). -/
def ChangesMask (i : Instr) (gd : Guard) (m : BitVec 4) (f : State → List Nat → Thread → Word → Word) : Prop :=
  ∀ s gid g, At s gid g →
    (activeOf s g gd = [] → exec i s = .next (advance s gid))
    ∧ ∀ k r t, activeOf s g gd = k :: r → getThread s k = some t → exec i s = .next (mwaitCheck (advance (modWarp s (warpKeyOf t)
        (fun w => setMask m.toNat (f s (k :: r) t (getMask w m.toNat)) w)) gid) (warpKeyOf t) m.toNat)

/-- The group's threads after an MWAIT's arrivals (R28, R30). -/
def arrived (s : State) (gid : Nat) (g : Group) (act : List Nat) (m : Nat) : State :=
  g.members.foldl (fun s j => modThread s j (fun t =>
    { t with st := if act.contains j then .mwait m else .mheld m, pc := slotPc g.pass, pass := some g.pass }))
    { s with groups := Map.erase s.groups gid }

/-- The threads that leave MWAIT on mask m: all that have arrived, each at the slot after, and with them those held beside them at
such a slot (R28, R30). -/
def leaving (s : State) (wk m : Nat) : List (Nat × Pass) :=
  let after (st : TStat) : List (Nat × Pass) := (warpThreads s wk).filterMap (fun e =>
    if e.2.st = st then e.2.pass.map (fun p => (e.1, { p with slot := p.slot + 1 })) else none)
  after (.mwait m) ++ (after (.mheld m)).filter (fun e => (after (.mwait m)).any (fun o => o.2 == e.2))

/-- A thread has arrived at an MWAIT on a mask: it waits there, or has been parked in it (R31). -/
def AtMwait (m : Nat) (t : Thread) : Prop := t.st = .mwait m ∨ (t.st = .parked ∧ t.mw = some m)

/-- The arrived threads of a warp, none of whom is in an MWAIT any more. -/
def leftMwait (s : State) (wk m : Nat) : State :=
  onThreads (fun t => { t with mw := none })
    (((warpThreads s wk).filter (fun e => e.2.st == .mwait m || (e.2.st == .parked && e.2.mw == some m))).map (·.1)) s

/-- The active lanes whose source predicate reads 1. -/
def voters (s : State) (ks : List Nat) (p : BitVec 3) : List Nat :=
  ks.filter (fun k => match getThread s k with
    | some t => getPred t p
    | none => false)

/-- What lane L of SHFL receives: the source lane's value with its bound, or its own where that lane is not active (R222). -/
def shuffled (x : ShflOps) (s : State) (ks : List Nat) (t : Thread) : Thread :=
  let n := (tWord t x.b).toNat
  let l : Int := match x.kind with
    | .idx => n % 32
    | .up => (t.lane : Int) - n
    | .dn => t.lane + n
    | .bfly => (t.lane ^^^ (n % 32) : Nat)
  let src := match (ks.filterMap (getThread s)).find? (fun y => decide ((y.lane : Int) = l)) with
    | some y => y
    | none => t
  setRegs t (wrTy x.wide x.d (tVal src x.wide x.a) (tBnd src x.a))

/-- The left fold of WRED over further lanes (R223). -/
def reduceFrom (op : AOp) (ty : Ty) (d : Deliv) (l : List Thread) (a : VReg) : Deliv :=
  l.foldl (fun d t =>
    let z := atomRes op ty d.bits d.bnd (tVal t ty.wide a) (tBnd t a)
    ⟨z.bits, d.fl ||| z.fl, z.bnd⟩) d

/-- The region of a thread's warp while it is open (R39), for a thread that its GEN did not leave out (log 33). -/
def openRegion (s : State) (t : Thread) : Option Region :=
  ((Map.get? s.warps (warpKeyOf t)).bind (fun w => w.gen)).filter (fun r => !r.out.getLsbD t.lane)

/-- One lane of TAKE: the entry of its rank in the running pass (R228). -/
def takeStep (x : TakeOps) (k : Nat) (t : Thread) (s : State) : Option State :=
  (openRegion s t).bind (fun r => r.pass.bind (fun p =>
    if !p.lanes.contains t.lane || p.took.getLsbD t.lane then none
    else
      let e := r.buf.getD (p.lanes.idxOf t.lane) ⟨0, false, Reg.zero, Reg.zero⟩
      let word : Word := BitVec.ofNat 32 ((if e.two then 65536 else 0) + (e.lane + 32 - t.lane) % 32 * 256 + e.lane)
      let u := modWarp s (warpKeyOf t) (fun w =>
        { w with gen := some { r with pass := some { p with took := p.took ||| 1#32 <<< t.lane } } })
      some (modThread u k (fun t => setRegs t ((x.d.toNat, e.v1) :: ((if x.two then [(x.d2.toNat, e.v2)] else [])
        ++ (if x.src then [(x.ds.toNat, (⟨word, 0⟩ : Reg))] else [])))))))

/-- GSTAT's word (R229): in pass, region, threads, unfinished producers, entries. -/
def genWord (s : State) (t : Thread) : Word := match openRegion s t with
  | none => 0
  | some r =>
    let ts := ((warpThreads s (warpKeyOf t)).map (·.2)).filter (fun u => !r.out.getLsbD u.lane)
    BitVec.ofNat 32 ((match r.pass with
        | some p => if p.lanes.contains t.lane then 2 ^ 25 else 0
        | none => 0)
      + 2 ^ 24 + ts.length * 2 ^ 16 + (ts.countP (fun u => !r.fin.getLsbD u.lane)) * 2 ^ 8 + r.buf.length)

/-- Threads leave their group for a clause entry, lk changed for a call (R230, R231). -/
def goTo (dest : Thread → DWord) (lk : Thread → DWord) (ks : List Nat) (s : State) : State :=
  ks.foldl (fun s k => match getThread s k with
    | none => s
    | some t => modThread (leaveGroup s k) k (fun u => toEntry (dest t) { u with lk := lk t })) s

/-- A transfer of an issue group whose destinations are aligned. -/
def Transfers (i : Instr) (gd : Guard) (dest : Group → Thread → DWord) (lk : Group → Thread → DWord) (ok : Thread → Bool) : Prop :=
  ∀ s gid g, At s gid g → (∀ k ∈ activeOf s g gd, ∀ t, getThread s k = some t → (dest g t).toNat % 8 = 0 ∧ ok t = true) →
    (activeOf s g gd).Nodup →
    exec i s = .next (genChecks (advance (goTo (dest g) (lk g) (activeOf s g gd) s) gid) (activeOf s g gd))

/-- One lane of RET: one in a handler whose lk is its own token resumes alone (R310), any other goes to lk; none where lk is
misaligned, or a die must give up a line of the entry's image first (R344). -/
def retStep (k : Nat) (t : Thread) (s : State) : Option State :=
  if t.hand ≠ .none ∧ t.frag ≠ 0 ∧ t.lk = tokenOf t.frag then (if (entrySilent s (fragKeyOfId t.frag)).isSome then none
    else some (rteCheck (resumeMembers s (fragKeyOfId t.frag) [k]) t.frag))
  else if t.lk.toNat % 8 ≠ 0 then none
  else some (modThread (leaveGroup s k) k (toEntry t.lk))

/-! ### Tiles, queues, slices -/

/-- One K-block on one lane's row (R242), the accumulator chosen by R90. -/
def rowAfter (x : MmaOps) (w : Word) (dropped : Bool) (t : Thread) (r0 : TRow) (blocks : List MBlock) : MRow :=
  blocks.foldl (rowBlock (fwAcc w) t.bud (tWord t x.aux) t.lane) ⟨r0.el.map f32Of, r0.beta, if dropped then 0x20 else 0⟩

/-- One lane of MMA or MMAO: none where its row breaches in mode 1 (R91, R242, R244). -/
def mmaStep (x : MmaOps) (w : Word) (dropped : Bool) (blocks : List MBlock) (k : Nat) (t : Thread) (s : State) : Option State :=
  let r0 := if x.z then ⟨List.replicate 32 0, 0⟩ else getRow s t x.ws
  let r := rowAfter x w dropped t r0 blocks
  (breachFlags t r.beta r.fl).map (fun fl =>
    let el := (List.range 32).zip r0.el |>.map (fun y =>
      if (tWord t x.aux).getLsbD y.1 then y.2 else f32Bits (r.el.getD y.1 (.fin false 0 0)))
    let u := setRow s t x.wd ⟨el, r.beta⟩
    let u := if x.dr then setRow u t x.ws TRow.zero else u
    modThread u k (fun t => { t with flags := t.flags ||| fl }))

/-- An MMA or MMAO whose checks pass: every entry is popped, then the lanes compute (R241, R242). -/
def Multiplies (ol : Bool) (i : Instr) (x : MmaOps) : Prop :=
  ∀ s gid g, At s gid g →
    (activeOf s g x.g = [] → exec i s = .next (advance s gid))
    ∧ ∀ w blocks u, activeOf s g x.g ≠ [] → agree s (activeOf s g x.g) (if ol then .mmao else .mma) x.fw w →
      mmaCheck s (groupQuad s g) ol x w = .go blocks →
      (let n := mmaNeed x w
       let s1 := dropHead s (groupQuad s g) x.qa.toNat n.1
       let s1 := if x.qa = x.qb then s1 else dropHead s1 (groupQuad s g) x.qb.toNat n.2
       let bd := blocks.any (fun p => (p.1 ++ p.2).any (fun e => e.drop))
       runLanes (mmaStep x w bd (blocks.map (fun p => mkBlock w ol x.ta x.tb p.1 p.2))) (activeOf s g x.g) s1 = some u) →
      exec i s = .next (advance u gid)

/-- One lane of WLD (R247): the row's 32 words, its bound the largest of the words'; with ORD 1 it is an acquire. -/
def wldStep (x : TileMemOps) (k : Nat) (t : Thread) (s : State) : Option State :=
  (lands s t x.space x.a x.ofs 128 .read).map (fun p =>
    let r := accRead (cacheLane p.2 t x.evc.toNat (!x.rp) p.1 false) p.1 128
    learnBy x.ord (setRow r.2 t x.w ⟨(List.range 32).map (wordAt r.1), r.1.bnds.foldl bndMax 0⟩) k)

/-- One lane of WST, where no lock holds its write and the row does not breach in mode 1 (R248). -/
def wstStep (x : TileMemOps) (k : Nat) (t : Thread) (s : State) : Option State :=
  (lands s t x.space x.a x.ofs (4 * tfBits x.fmt) .write).bind (fun p =>
    match drain true x.fmt t (getRow p.2 t x.w) with
    | .error _ => none
    | .ok (ws, fl, b) =>
      if (locLock p.2 p.1.loc).isSome then none
      else some (storeAt k p.1 (ws.flatMap (fun w => leBytes 4 w.toNat)) (ws.map (fun _ => b)) false fl
        (cacheLane p.2 t x.evc.toNat false p.1 true)))

/-- One lane of WDRN (R249). -/
def wdrnStep (x : WdrnOps) (k : Nat) (t : Thread) (s : State) : Option State :=
  match drain false x.fmt t (getRow s t x.w) with
  | .error _ => none
  | .ok (ws, fl, b) =>
    let u := modThread s k (fun t =>
      let t := setRegs t ((List.range ws.length).map (fun i => (x.d.toNat + i, ⟨ws.getD i 0, b⟩)))
      { t with flags := t.flags ||| fl })
    some (if x.z then setRow u t x.w TRow.zero else u)

/-- What R88 and R242 fix of one row in one K-block of an MMA or MMAO: an element that is NaN, infinite or NaR makes the bound
unbounded and sets NV; else the new bound is not below β + 128·(|a|·β(b) + |b|·β(a') + β(a')·β(b')) for any elements of the row and
the tile; a column that AUX names is left as it stands, and no flag is lost. -/
def RowRules : Prop :=
  ∀ acc bud (aux : Word) lane (x : MRow) w ol ta tb ea eb,
    let blk := mkBlock w ol ta tb ea eb
    let row := blk.a.getD lane []
    let tile := blk.b.flatten
    let y := rowBlock acc bud aux lane x blk
    ((∃ e ∈ row ++ tile, fvIsFin e.v = false) → y.beta = 0xFF00 ∧ y.fl.getLsbD 0 = true)
    ∧ ((∀ e ∈ row ++ tile, fvIsFin e.v = true) → ∀ e ∈ row, ∀ e' ∈ row, ∀ f ∈ tile, ∀ f' ∈ tile,
        bdLe (bdSum [bdOf x.beta, bdMul (some (dyInt 128))
          (bdSum [bdMul (fvMag e.v) f'.b, bdMul (fvMag f.v) e'.b, bdMul e'.b f'.b])]) (bdOf y.beta) = true)
    ∧ (∀ j, j < 32 → aux.getLsbD j = true → y.el[j]? = x.el[j]?)
    ∧ y.fl &&& x.fl = x.fl

/-- A queue instruction finds a ready entry at its queue's head. -/
def ReadyHead (s : State) (g : Group) (q : Nat) (e : QEntry) : Prop := queueHead s (groupQuad s g) q = .entry e

/-- Word L of an entry's next chunk, its bound from the entry's records (R252). -/
def chunkWord (e : QEntry) (l : Nat) : Reg :=
  ⟨e.words.getD (32 * e.popped + l) 0, recBound (e.recs.getD ((32 * e.popped + l) / 32) BRec.zero) ((32 * e.popped + l) % 32)⟩

/-- The instruction that runs is an instance's, which stands in a clause. -/
def InSlice (s : State) (qk : Nat) (c : Slice) (p : Pass) : Prop :=
  s.cur = .slice qk ∧ getSlice s qk = some c ∧ c.pass = some p

/-- The count an SLOOP starts with (R254). -/
def loopCount (x : SloopOps) (c : Slice) : Nat := if x.rf then (Map.get 0 c.a x.c.toNat).toNat else x.n.toNat

/-- The instance stands at a header, out of its clause. -/
def atHeader (c : Slice) (pc : DWord) : Slice := { c with pc := pc, pass := none }

end Sys2Proof.Claims

/-- R36, R218: GBAR, GARR and GDROP arrive and GJOIN raises; an arrival that completes the expected count flips the phase and
applies pending adjustments; a thread that has arrived waits for the flip. That arrivals which wait for a flip count in their
order is the model's reading (log 34). -/
def Obligations.GroupBarrierResults : Prop :=
  (∀ x, LaneSteps (.gbar x) x.g (arriveStep .gbar x))
  ∧ (∀ x, LaneSteps (.garr x) x.g (arriveStep .garr x))
  ∧ (∀ x, LaneSteps (.gdrop x) x.g (arriveStep .gdrop x))
  ∧ (∀ x s gid g, At s gid g →
      let cs := (threadsOf s (activeOf s g x.g)).map (fun e => e.2.cgu)
      exec (.gjoin x) s = .next (advance (cs.eraseDups.foldl (fun s c =>
        setBar s c x.b.toNat (barJoin (getBar s c x.b.toNat) (cs.count c))) s) gid))
  ∧ (∀ b k a, b.later = [] → b.who.contains k = false →
      barArrive b [(k, a)] =
        if b.expected ≠ 0 ∧ b.expected ≤ b.arrived + 1 then flipped b (b.drop + if a = .gdrop then 1 else 0)
        else { b with arrived := b.arrived + 1, who := b.who ++ [k], drop := b.drop + if a = .gdrop then 1 else 0 })
  ∧ (∀ b k a, b.who.contains k = true → barArrive b [(k, a)] = { b with later := b.later ++ [(k, a)] })
  ∧ (∀ b n, b.expected ≠ 0 → barJoin b n = { b with join := b.join + n })
  ∧ (∀ b n, b.expected = 0 → b.later = [] →
      let c := { b with expected := min n (2 ^ 32 - 1) }
      barJoin b n = if n ≠ 0 ∧ min n (2 ^ 32 - 1) ≤ b.arrived then flipped c b.drop else c)
  ∧ (∀ b k, barTarget b k .gbar = some (b.phase + if b.who.contains k then 2 else 1))

/-- R29-R31, R219, R220: MJOIN, MLEAVE, MWR and MRD on the warp's masks, and MWAIT, which lets the arrived threads leave
together once every thread whose bit is set has arrived; one that is parked in its MWAIT has arrived. -/
def Sys2Proof.Claims.MaskResults : Prop :=
  (∀ x, ChangesMask (.mjoin x) x.g x.m (fun s ks _ m => m ||| laneMask s ks))
  ∧ (∀ x, ChangesMask (.mleave x) x.g x.m (fun s ks _ m => m &&& ~~~(laneMask s ks)))
  ∧ (∀ x, ChangesMask (.mwr x) x.g x.m (fun s _ t _ => tWord t x.r &&& laneMask s ((warpThreads s (warpKeyOf t)).map (·.1))))
  ∧ (∀ x, EachLane (.mrd x) x.g (fun s t => setReg t x.r.toNat ⟨match Map.get? s.warps (warpKeyOf t) with
      | some w => getMask w x.m.toNat
      | none => 0, 0⟩))
  ∧ (∀ x s gid g, At s gid g →
      (activeOf s g x.g = [] → exec (.mwait x) s = .next (advance s gid))
      ∧ ∀ k r t, activeOf s g x.g = k :: r → getThread s k = some t →
        exec (.mwait x) s = .next (mwaitCheck (arrived s gid g (k :: r) x.m.toNat) (warpKeyOf t) x.m.toNat))
  ∧ (∀ s wk m w, Map.get? s.warps wk = some w →
      (∃ e ∈ warpThreads s wk, (getMask w m).getLsbD e.2.lane = true ∧ ¬ AtMwait m e.2) → mwaitCheck s wk m = s)
  ∧ (∀ s wk m w, Map.get? s.warps wk = some w →
      (∀ e ∈ warpThreads s wk, (getMask w m).getLsbD e.2.lane = true → AtMwait m e.2) →
      (∃ e ∈ warpThreads s wk, AtMwait m e.2) → mwaitCheck s wk m = genCheck (regroup (leftMwait s wk m) (leaving s wk m)) wk)
  ∧ (∀ s l k p t, (k, p) ∈ l → getThread s k = some t →
      ∃ u, getThread (regroup s l) k = some u ∧ (u.st = .entry ∨ ∃ g, u.st = .grouped g))

/-- R221-R223: VOTE, SHFL and WRED among the active lanes of the issue group. That SHFL forms L − n and L + n exactly is the
model's reading (log 38). -/
def Sys2Proof.Claims.VoteShuffleReduceResults : Prop :=
  (∀ x, GroupEach (.vote x) x.g (fun s ks t => match x.kind with
      | .all => setPred t (x.d.setWidth 3) ((voters s ks x.ps).length == ks.length)
      | .any => setPred t (x.d.setWidth 3) (!(voters s ks x.ps).isEmpty)
      | .bal => setReg t x.d.toNat ⟨laneMask s (voters s ks x.ps), 0⟩))
  ∧ (∀ x, GroupEach (.shfl x) x.g (shuffled x))
  ∧ (∀ x s gid g, At s gid g →
      (activeOf s g x.g = [] → exec (.wred x) s = .next (advance s gid))
      ∧ ∀ t r u, (activeOf s g x.g).filterMap (getThread s) = t :: r →
        (let z := reduceFrom x.op x.ty ⟨tVal t x.ty.wide x.a, 0, tBnd t x.a⟩ r x.a
         runLanes (ownStep (fun t => (breachFlags t z.bnd z.fl).map (withResult t x.ty.wide x.d z))) (activeOf s g x.g) s = some u) →
        exec (.wred x) s = .next (advance u gid))

/-- R29-R31, R219-R223: masks, votes, shuffles and reductions complete with their results. -/
def Obligations.MaskVoteShuffleResults : Prop := Sys2Proof.Claims.MaskResults ∧ Sys2Proof.Claims.VoteShuffleReduceResults

/-- R39-R43, R225-R229: GEN opens a region on a full warp without one; that its guard leaves a thread out of the region, which then
goes on after the clause, is the model's reading of R146 (log 33). YLD appends or waits at a full buffer, GEND finishes a
producer or a lane's part of a pass, TAKE delivers by rank, GSTAT reports. -/
def Obligations.GeneratorResults : Prop :=
  (∀ x s gid g k r t, At s gid g → activeOf s g x.g = k :: r → getThread s k = some t → fullWarp s g = true →
      (Map.get? s.warps (warpKeyOf t)).bind (fun w => w.gen) = none →
      let hdr (u : BitVec 16) : DWord := g.pass.hdr + 8 * u.signExtend 64
      let next : DWord := g.pass.hdr + 8 + 8 * BitVec.ofNat 64 g.pass.words.length
      ∃ u, exec (.gen x) s = .next u ∧ getGroup u gid = none
        ∧ (∀ j ∈ g.members, ∀ th, getThread s j = some th → getThread u j = some { th with
            st := .entry, pc := if j ∈ activeOf s g x.g then hdr x.prod else next, pass := none })
        ∧ (∀ w, Map.get? s.warps (warpKeyOf t) = some w → Map.get? u.warps (warpKeyOf t) =
            let r : Region := ⟨x.split.toNat, frameBase s t, x.thr.toNat + 1, hdr x.prod, hdr x.cons, next, [], 0,
              laneMask s (g.members.filter (fun j => !(activeOf s g x.g).contains j)), none⟩
            some { w with gen := some r })
        ∧ u.mem = s.mem)
  ∧ (∀ x s gid g k ks t r, At s gid g → activeOf s g x.g = k :: ks → getThread s k = some t → openRegion s t = some r →
      let ts := (activeOf s g x.g).filterMap (getThread s)
      (∀ v ∈ ts, r.pass = none ∧ r.fin.getLsbD v.lane = false ∧ r.out.getLsbD v.lane = false) →
      exec (.yld x) s = .next (
        if 64 < r.buf.length + ts.length then genCheck (setHold s gid .yld) (warpKeyOf t)
        else advance (modWarp s (warpKeyOf t) (fun w => { w with gen := some { r with buf := r.buf ++ ts.map (fun v =>
          ⟨v.lane, x.two, getReg v x.a.toNat, if x.two then getReg v x.b.toNat else Reg.zero⟩) } })) gid))
  ∧ (∀ gd s gid g k ks t r, At s gid g → activeOf s g gd = k :: ks → getThread s k = some t → openRegion s t = some r →
      let m := laneMask s (k :: ks)
      (∀ j ∈ k :: ks, r.out.getLsbD (laneOf s j) = false) →
      let r' : Region := match r.pass with
        | none => { r with fin := r.fin ||| m }
        | some p => { r with pass := some { p with fin := p.fin ||| m } }
      exec (.gend gd) s = .next (genCheck (advance (onThreads (fun t => { t with st := .genWait, pass := none }) (k :: ks)
        (dropMembers (modWarp s (warpKeyOf t) (fun w => { w with gen := some r' })) gid (k :: ks))) gid) (warpKeyOf t)))
  ∧ (∀ x, LaneSteps (.take x) x.g (fun _ => takeStep x))
  ∧ (∀ x, EachLane (.gstat x) x.g (fun s t => setReg t x.d.toNat ⟨genWord s t, 0⟩))

/-- R230-R232, R38, R65: transfers put each active thread at its destination's clause entry, CALL leaving the next header in
lk; threads with a false guard fall through; RET in a handler, any kind of handler (the model's reading, log 32), with lk its own
token resumes that member alone; EXIT ends a thread and its flags are OR-ed into its cluster group's. -/
def Obligations.ControlTransferResults : Prop :=
  (∀ x, Transfers (.bra x) x.g (fun g _ => g.pass.hdr + x.ofs.signExtend 64) (fun _ t => t.lk) (fun _ => true))
  ∧ (∀ x, Transfers (.brx x) x.g (fun _ t => tPair t x.a) (fun _ t => t.lk) (fun _ => true))
  ∧ (∀ x, Transfers (.call x) x.g (fun g _ => g.pass.hdr + x.ofs.signExtend 64)
      (fun g _ => g.pass.hdr + 8 + 8 * BitVec.ofNat 64 g.pass.words.length) (fun _ => true))
  ∧ (∀ x, Transfers (.callReg x) x.g (fun _ t => tPair t x.a)
      (fun g _ => g.pass.hdr + 8 + 8 * BitVec.ofNat 64 g.pass.words.length) (fun _ => true))
  ∧ (∀ gd, Transfers (.ret gd) gd (fun _ t => t.lk) (fun _ t => t.lk) (fun t => !toToken t))
  ∧ (∀ gd s gid g u, At s gid g → runLanes retStep (activeOf s g gd) s = some u →
      exec (.ret gd) s = .next (genChecks (advance u gid) (activeOf s g gd)))
  ∧ (∀ x s qk c p, InSlice s qk c p → exec (.bra x) s = .next (modSlice s qk (fun c => atHeader c (p.hdr + x.ofs.signExtend 64))))
  ∧ (∀ gd, LaneSteps (.exit gd) gd (fun _ k t s =>
      if (openRegion s t).isSome then none else some (rteCheck (exitThread s k) t.frag)))
  ∧ (∀ s k t, getThread s k = some t → getThread (exitThread s k) k = none
      ∧ (Map.get? (exitThread s k).clusterGroups t.cgu).map (·.flags) = (Map.get? s.clusterGroups t.cgu).map (fun c => c.flags ||| t.flags))

/-- R234-R236: TRAP and BKPT take causes 10 and 11 with CODE in ARG0 and resume after the slot; PHINT stops a thread whose
warp has a request pending; SLEEP suspends issue until a clock. -/
def Obligations.TrapAndHintResults : Prop :=
  ∀ s gid g, At s gid g →
    (∀ x, exec (.trap x) s = .next (splitGroup s s gid g ((activeOf s g x.g).map (fun k => (k, ⟨10, 0, x.code.setWidth 64, 0⟩))) true))
    ∧ (∀ x, exec (.bkpt x) s = .next (splitGroup s s gid g ((activeOf s g x.g).map (fun k => (k, ⟨11, 0, x.code.setWidth 64, 0⟩))) true))
    ∧ (∀ x, (∀ k ∈ activeOf s g x.g, ∀ t w, getThread s k = some t → Map.get? s.warps (warpKeyOf t) = some w → w.preq = none) →
        exec (.phint x) s = .next (advance s gid))
    ∧ (∀ x k t w, activeOf s g x.g = [k] → getThread s k = some t → Map.get? s.warps (warpKeyOf t) = some w → w.preq ≠ none →
        exec (.phint x) s = .next (advance (stopAt s k { g.pass with slot := g.pass.slot + 1 } (.byRecord x.rofs)) gid))
    ∧ (∀ x, exec (.sleep x) s = .next (if activeOf s g x.g = [] then advance s gid
        else setHold s gid (.sleep (s.clock + x.code.setWidth 64))))

/-- R237-R250: MMA and MMAO pop every entry in one step and write the rows and bounds of R242 and R88; WZERO, WMOV, WBND, WLD,
WST and WDRN act on one row of each active lane; what is fixed of a row's bound, flags and skipped columns. Which rows are
special and when the side path is added (log 14), the order in which an MMA checks its entries and an MMA without active lanes
(log 15) are the model's readings. -/
def Obligations.MatrixResults : Prop :=
  (∀ x, Multiplies false (.mma x) x)
  ∧ (∀ x, Multiplies true (.mmao x) x)
  ∧ (∀ x, LaneSteps (.wzero x) x.g (fun _ _ t s => some (setRow s t x.wd ⟨List.replicate 32 0, 0⟩)))
  ∧ (∀ x, LaneSteps (.wmov x) x.g (fun _ _ t s =>
      let u := setRow s t x.wd (getRow s t x.ws)
      some (if x.dr then setRow u t x.ws ⟨List.replicate 32 0, 0⟩ else u)))
  ∧ (∀ x, EachLane (.wbnd x) x.g (fun s t => setReg t x.d.toNat
      ⟨if x.f then bndF32 (getRow s t x.w).beta else (getRow s t x.w).beta.setWidth 32, 0⟩))
  ∧ (∀ x, LaneSteps (.wld x) x.g (fun _ => wldStep x))
  ∧ (∀ x, LaneSteps (.wst x) x.g (fun _ => wstStep x))
  ∧ (∀ x, LaneSteps (.wdrn x) x.g (fun _ => wdrnStep x))
  ∧ RowRules

/-- R251, R252: QPOP delivers the next chunk of the oldest entry, QPEEK leaves it, QDROP drops the entry, QCNT counts; an
entry still to come holds the group at QPOP, QPEEK and QDROP, which without an active lane go on; QPOP and QPEEK of an entry whose
storage has an uncorrectable error take class 14 reason 1 (R321), its ARG0 being the model's choice (log 89). -/
def Obligations.QueueResults : Prop :=
  ∀ s gid g, At s gid g →
    (∀ x e, activeOf s g x.g ≠ [] → ReadyHead s g x.q.toNat e → e.bad = false → e.marker = none →
      exec (.qpop x) s = .next (advance (onThreads (fun t => setReg t x.d.toNat (chunkWord e t.lane)) (activeOf s g x.g)
        (popChunk s (groupQuad s g) x.q.toNat)) gid))
    ∧ (∀ x e, activeOf s g x.g ≠ [] → ReadyHead s g x.q.toNat e → e.bad = false →
      exec (.qpeek x) s = .next (advance (onThreads (fun t => setPred t x.p e.marker.isSome) (activeOf s g x.g)
        (onThreads (fun t => setReg t x.d.toNat (match e.marker with
          | some tag => ⟨tag, 0⟩
          | none => chunkWord e t.lane)) (activeOf s g x.g) s)) gid))
    ∧ (∀ x e, activeOf s g x.g ≠ [] → ReadyHead s g x.q.toNat e →
      exec (.qdrop x) s = .next (advance (modQueue s (groupQuad s g) x.q.toNat (fun q => { q with entries := q.entries.drop 1 })) gid))
    ∧ (∀ x q, activeOf s g x.g ≠ [] → getQueue s (groupQuad s g) x.q.toNat = some q →
      exec (.qcnt x) s = .next (advance (onThreads (fun t => setReg t x.d.toNat ⟨BitVec.ofNat 32
        ((if sliceEnded s (groupQuad s g) then 2 ^ 31 else 0) + q.entries.length * 2 ^ 16
          + (q.entries.takeWhile (fun e => e.ready)).length), 0⟩) (activeOf s g x.g) s) gid))
    ∧ (∀ x, activeOf s g x.g ≠ [] → queueHead s (groupQuad s g) x.q.toNat = .wait → exec (.qpop x) s = .next (setHold s gid .queue))
    ∧ (∀ x, activeOf s g x.g ≠ [] → queueHead s (groupQuad s g) x.q.toNat = .wait → exec (.qpeek x) s = .next (setHold s gid .queue))
    ∧ (∀ x, activeOf s g x.g ≠ [] → queueHead s (groupQuad s g) x.q.toNat = .wait → exec (.qdrop x) s = .next (setHold s gid .queue))
    ∧ (∀ x, activeOf s g x.g = [] → exec (.qpop x) s = .next (advance s gid))
    ∧ (∀ x, activeOf s g x.g = [] → exec (.qpeek x) s = .next (advance s gid))
    ∧ (∀ x, activeOf s g x.g = [] → exec (.qdrop x) s = .next (advance s gid))
    ∧ (∀ x e, activeOf s g x.g ≠ [] → ReadyHead s g x.q.toNat e → e.bad = true → exec (.qpop x) s = .next (splitGroup s s gid g
      ((activeOf s g x.g).map (fun k => (k, ⟨14, 1, BitVec.ofNat 64 x.q.toNat, 0⟩))) false))
    ∧ (∀ x e, activeOf s g x.g ≠ [] → ReadyHead s g x.q.toNat e → e.bad = true → exec (.qpeek x) s = .next (splitGroup s s gid g
      ((activeOf s g x.g).map (fun k => (k, ⟨14, 1, BitVec.ofNat 64 x.q.toNat, 0⟩))) false))

/-- R253-R257: SLOOP pushes its counter with the next header; SNEXT counts down and branches back or pops, and on an empty stack
stops the instance with event KIND 1; SFETCH allocates the youngest entry and fills it from its rows and side data; SMARK
allocates a marker that is ready at once, or waits at a full queue; SWAITC goes on or waits by one evaluation; SDONE ends the
instance. That an SFETCH reads its lines at issue, one after another, is the model's choice (log 21). -/
def Obligations.SliceProgramResults : Prop :=
  ∀ s qk c p, InSlice s qk c p →
    (∀ x, 1 ≤ loopCount x c → loopCount x c ≤ 65535 → c.loops.length < 4 → exec (.sloop x) s = .next (modSlice s qk (fun c =>
      { atHeader c (nextHdr p) with a := Map.putD 0 c.a x.a.toNat (BitVec.ofNat 32 (loopCount x c)), loops := (x.a.toNat, nextHdr p) :: c.loops })))
    ∧ (∀ a start rest, c.loops = (a.toNat, start) :: rest → exec (.snext a) s = .next (modSlice s qk (fun c =>
        let v := Map.get 0 c.a a.toNat - 1
        { atHeader c (if v = 0 then nextHdr p else start) with
          a := Map.putD 0 c.a a.toNat v, loops := if v = 0 then rest else c.loops })))
    ∧ (∀ a, c.loops = [] → exec (.snext a) s = .next (postEvent (modSlice s qk (fun c => { c with st := .stopped })) (quadPart s qk)
        (BitVec.ofNat 32 (quadCore s qk)) 1 9 7 (BitVec.ofNat 64 (quadNo s qk)) (slotPc p) 0))
    ∧ (∀ x q rows sides u v, getQueue s qk x.q.toNat = some q → q.entries.length < q.depth →
        (∀ e, q.entries.getLast? = some e → isEmptyEntry e = false) →
        (let sv := Map.get 0 c.a x.s.toNat
         let base := aPair c x.a.toNat + x.ofs.signExtend 64
         let n := x.rows.toNat + 1
         let bytes := 8 * (x.bytes.toNat + 1)
         let scb := 128 * (sv.toNat / 2 ^ 30)
         sfetchBad x c (some q) base (aPair c (x.a.toNat + 2)) = none →
         readVas (sliceWho s qk) ((List.range n).flatMap (fun r => pieceVas (base + BitVec.ofNat 64 r * BitVec.ofNat 64 (sv.toNat % 2 ^ 28)) bytes))
           (modQueue s qk x.q.toNat (fun q => { q with entries := q.entries ++ [emptyEntry] })) = (.ok rows, u) →
         readVas (sliceWho s qk) (pieceVas (aPair c (x.a.toNat + 2)) (scb + if sv.getLsbD 29 then 520 else 0)) u = (.ok sides, v) →
         let e := { mkEntry n bytes scb (sv.getLsbD 29) rows.1 rows.2 sides.1 sides.2 with ready := false }
         exec (.sfetch x) s = .next (sliceNext (modQueue v qk x.q.toNat (fun q => { q with entries := setYoungest e q.entries })) qk)))
    ∧ (∀ x q, getQueue s qk x.q.toNat = some q → q.entries.length < q.depth →
        exec (.smark x) s = .next (sliceNext (modQueue s qk x.q.toNat (fun q => { q with entries := q.entries ++
          [⟨some (Map.get 0 c.a x.t.toNat), 0, 0, [], [], 0, true, 0, [], false, [], false, false⟩] })) qk))
    ∧ (∀ x q, getQueue s qk x.q.toNat = some q → q.depth ≤ q.entries.length →
        exec (.smark x) s = .next (modSlice s qk (fun c => { c with st := .full })))
    ∧ (∀ x b u, swaitEval s qk (aPair c x.a.toNat) (if x.wide then aPair c x.t.toNat else (Map.get 0 c.a x.t.toNat).setWidth 64) = (.ok b, u) →
        exec (.swaitc x) s = .next (if b then sliceNext u qk else modSlice u qk (fun d =>
          { d with st := .cobj (aPair c x.a.toNat) (if x.wide then aPair c x.t.toNat else (Map.get 0 c.a x.t.toNat).setWidth 64) })))
    ∧ exec .sdone s = .next (modSlice s qk (fun c => { c with st := .done }))

/-! ## Submitted work, control registers, the privileged set (R115-R117, R258-R262, R273, R297, R324-R336) -/

namespace Sys2Proof.Claims

/-- The scheduler takes a job: its footprints, and an edge to every uncompleted earlier job it overlaps by a write (R116). -/
def jobTaken (s : State) (p : Nat) (priv : Bool) (c : Card) : State :=
  let f := footprints s ⟨p, none, priv⟩ c
  setPart s p (fun q => { q with
    nextJob := q.nextJob + 1,
    jobs := Map.put q.jobs q.nextJob ⟨c, priv, f.1, f.2, (q.jobs.filter (fun e => e.2.st != .landed &&
      (overlaps e.2.writes f.1 || overlaps e.2.reads f.2 || overlaps e.2.writes f.2))).map (·.1), .waiting, 0, false⟩ })

/-- Uncompleted jobs of a partition. -/
def openJobs (q : Part) : Nat := q.jobs.countP (fun e => e.2.st != .landed)

/-- A group at a JOB whose full warp has a card read from scratch: the state after the read, where no lock holds the group's
step (log 77). -/
def CardRead (x : OpS) (s : State) (gid : Nat) (g : Group) (k : Nat) (t : Thread) (c : Card) (v : State) : Prop :=
  heldFor v (threadPart v t) (.group gid) = false ∧
  (activeOf s g x.g).head? = some k ∧ getThread s k = some t ∧ fullWarp s g = true ∧ (∀ d, g.hold ≠ .jobFull d) ∧
    ∃ a u, resolve s t .sc ((tWord t x.a).setWidth 64) 64 64 .read = (.ok a, u) ∧ cardOf (accRead u a 64).1.bytes = some c ∧ v = (accRead u a 64).2

/-- Entries of a partition's caches that meet a virtual range are dropped (R297, R328). -/
def untranslated (p a n : Nat) (s : State) : State :=
  { s with mem := { s.mem with
      tlb := s.mem.tlb.filter (fun e => e.part != p || !meets e.base e.size a n),
      tabs := s.mem.tabs.filter (fun e => e.part != p || !meets e.base e.size a n) } }

/-- ICINV (R133, R329): no instruction cache and no clause buffer holds a clause with a word in a line that the ranges meet; the
release of its thread that follows is to settle them. -/
def uncoded (k : Nat) (rs : List (Nat × Nat)) (s : State) : State :=
  { s with mem := { s.mem with
      code := s.mem.code.filter (fun c => !c.locs.any (fun l => match l with
        | .phys a _ _ => rs.any (fun e => meets (a / 128 * 128) 128 e.1 e.2)
        | .scr _ _ => false)),
      inval := Map.put s.mem.inval k (Map.get [] s.mem.inval k ++ rs) } }

/-- What an identity names for a partition: a status, or its entry (R308, R330). -/
def idNames (s : State) (p : Nat) (id : Word) : Sum Nat Nat :=
  let core := id.toNat / 2 ^ 22 % 512
  let fk := 64 * core + id.toNat / 2 ^ 16 % 64
  let x := Map.get FEntry.zero s.frags fk
  if id.msb = false then .inl 1
  else if (partOf s p).clumask.getLsbD (core / 4) = false then .inl 3
  else if x.st = .free ∨ x.id ≠ id then .inl 1
  else .inr fk

/-- Record an operation on a saved entry; the first one stands (R313). -/
def noteOp (fk : Nat) (op : FOp) (s : State) : State :=
  let x := Map.get FEntry.zero s.frags fk
  { s with frags := Map.put s.frags fk { x with op := if x.op = .none then op else x.op } }

/-- One lane of FRES: d is the status (R330, R331); none where a die must give up a line of the entry's image first (R344). -/
def fresStep (x : OpDA) (k : Nat) (t : Thread) (s : State) : Option State :=
  let put (n : Nat) (u : State) : Option State := some (modThread u k (fun t => setReg t x.d.toNat ⟨BitVec.ofNat 32 n, 0⟩))
  match idNames s (threadPart s t) (tWord t x.a) with
  | .inl n => put n s
  | .inr fk =>
    let e := Map.get FEntry.zero s.frags fk
    if e.saved then put 2 (noteOp fk .fres s)
    else if (entrySilent s fk).isSome then none
    else if e.st = .handler then put 0 (modFrag s fk (fun e => { e with mark := true }))
    else put 0 (fresMembers s fk ((fragMembers s e.id).map (·.1)))

/-- One lane of FDISC: the entry is freed and KIND 4 posted; the lane and the identity whose members are to exit (R332). -/
def fdiscStep (x : OpDA) (acc : State × List (Nat × Word)) (k : Nat) : State × List (Nat × Word) :=
  match getThread acc.1 k with
  | none => acc
  | some t =>
    let put (n : Nat) (u : State) : State := modThread u k (fun t => setReg t x.d.toNat ⟨BitVec.ofNat 32 n, 0⟩)
    match idNames acc.1 (threadPart acc.1 t) (tWord t x.a) with
    | .inl n => (put n acc.1, acc.2)
    | .inr fk =>
      let e := Map.get FEntry.zero acc.1.frags fk
      if e.saved then (put 2 (noteOp fk .fdisc acc.1), acc.2)
      else
        let cg := match fragMembers acc.1 e.id with
          | (_, u) :: _ => u.cg
          | [] => 0
        (put 0 (postEvent { acc.1 with frags := Map.put acc.1.frags fk { e with st := .free, mark := false } } e.part
          (BitVec.ofNat 32 (fk / 64)) 4 e.cause 0 (BitVec.ofNat 64 e.id.toNat) (e.lanes.setWidth 64) (BitVec.ofNat 64 cg)), acc.2 ++ [(k, e.id)])

/-- The core groups that have left the peer window since `s0` are noted in their cluster groups, for what acquires later (R264). -/
def goneNoted (s0 s : State) : State :=
  let bits (u : State) (c : Nat) : Byte :=
    u.coreGroups.foldl (fun m e => if e.2.cgu == c && e.2.gone then m ||| (1#8 <<< e.2.k) else m) 0
  { s with clusterGroups := s.clusterGroups.map (fun e => (e.1, { e.2 with away := e.2.away ||| (bits s e.1 &&& ~~~(bits s0 e.1)) })) }

/-- One lane of SAVE: it answers at once or waits for the save (R333). -/
def saveStep (x : OpDA) (gid k : Nat) (t : Thread) (s : State) : Option State :=
  let a := (tWord t x.a).toNat
  let put (v : Word) : Option State := some (modThread s k (fun t => setReg t x.d.toNat ⟨v, 0⟩))
  match warpAt s (a / 2 ^ 7 % 512) (a / 2 ^ 5 % 4) (a % 32) with
  | none => put 0xFFFF0001
  | some (wk, w) =>
    if cgPart s w.cgu ≠ threadPart s t then put 0xFFFF0001
    else if wk = warpKeyOf t then put 0xFFFF0003
    else if w.saved ∨ w.preq ≠ none then put 0xFFFF0002
    else some (addWait (requestSave s wk) gid k (.save wk x.d))

/-- One lane of HALT: EVQ_TAIL where it differs from a or the ring is off, else a wait (R336). -/
def haltStep (x : OpDA) (gid k : Nat) (t : Thread) (s : State) : Option State :=
  let q := partOf s (threadPart s t)
  if q.evqCfg.msb = false ∨ q.evqTail ≠ tWord t x.a then some (modThread s k (fun t => setReg t x.d.toNat ⟨q.evqTail, 0⟩))
  else some (addWait s gid k (.halt (threadPart s t) q.evqTail x.d))

/-- One lane of RTE (R325): no handler, a handler without an entry, or the member of an entry. -/
def rteStep (k : Nat) (t : Thread) (s : State) : Option State :=
  if t.hand = .none then some s
  else if t.hand = .noEntry ∨ t.frag = 0 then some (resumeNoEntry s k)
  else if (entrySilent s (fragKeyOfId t.frag)).isSome then none
  else some (rteCheck (modThread (leaveGroup s k) k (fun t => { t with st := .rteWait, pass := none })) t.frag)

/-- Control registers that software writes and that have no behaviour of their own (Tables 16-1, 17-1, 18-5). -/
def plainRegs : List CReg :=
  [.trapbaseSys, .fragtabBase, .lqSel, .preemptWin, .aging, .classhold, .ptRoot, .migSrc, .migDst, .evqBase, .evqHead, .evqCobj,
    .saveBase, .saveSlots]

end Sys2Proof.Claims

/-- R115, R116, R258-R262: JOB accepts a card in one step with its PEND; GROW raises, lane by lane, the G of each lane's own
launch, and with a bitmap its GCUR, in one step; LNCH copies a record to the slot at the tail, or answers 1 or 2. A migration
lock on the count object or on the slot holds the whole step, and the group keeps its card or record (the model's choice, log
77). That a held JOB keeps the card it read (log 24) and that a GROW of several lanes adds one after another (log 47) are the
model's readings. -/
def Obligations.SubmissionResults : Prop :=
  (∀ x s gid g, At s gid g → activeOf s g x.g = [] → exec (.job x) s = .next (advance s gid))
  ∧ (∀ x s gid g k t c v, At s gid g → CardRead x s gid g k t c v → openJobs (partOf v (threadPart v t)) < Config.maxJobs → c.cnt = false →
      exec (.job x) s = .next (advance (jobTaken v (threadPart v t) t.priv c) gid))
  ∧ (∀ x s gid g k t c v a u n, At s gid g → CardRead x s gid g k t c v → openJobs (partOf v (threadPart v t)) < Config.maxJobs → c.cnt = true →
      resolve v t .gl c.cobj 32 32 .atomic = (.ok a, u) → a.stash = none → locLock (homeAcc u a.loc true) a.loc = none →
      objPend (leNat (accRead (homeAcc u a.loc true) a 32).1.bytes) (c.rows * c.len) false = some n → c.rows * c.len < 2 ^ 64 →
      exec (.job x) s = .next (advance (jobTaken (pokeLoc (accRead (homeAcc u a.loc true) a 32).2 a.loc none (leBytes 32 n)
        (List.replicate 8 0) false).1 (threadPart v t) t.priv c) gid))
  ∧ (∀ x s gid g k t c v a u q, At s gid g → CardRead x s gid g k t c v → openJobs (partOf v (threadPart v t)) < Config.maxJobs → c.cnt = true →
      resolve v t .gl c.cobj 32 32 .atomic = (.ok a, u) → a.stash = none → locLock (homeAcc u a.loc true) a.loc = some q →
      exec (.job x) s = .next (setPart (setHold (homeAcc u a.loc true) gid (.jobFull c)) q (fun y => { y with held := y.held ++
        [⟨0, a.loc, some ⟨whoOf (homeAcc u a.loc true) t, c.cobj, .atomic⟩, .own, some (threadPart v t, .group gid), .land⟩] })))
  ∧ (∀ x s gid g k t c v, At s gid g → CardRead x s gid g k t c v → Config.maxJobs ≤ openJobs (partOf v (threadPart v t)) →
      exec (.job x) s = .next (setHold v gid (.jobFull c)))
  ∧ (∀ x s gid g, At s gid g → (∀ ks, g.hold ≠ .gcur ks) →
      (∀ e ∈ launchesOf s (activeOf s g x.g), ∀ l, launchOf s e.1 e.2 = some l → l.r.cbmp = 0) →
      exec (.grow x) s = .next (advance ((launchesOf s (activeOf s g x.g)).foldl (fun u e =>
        growLanes x e.1 e.2 none (ofLaunch u (activeOf s g x.g) e.1 e.2) u) s) gid))
  ∧ (∀ x s gid g p serial l loc u, At s gid g → (∀ ks, g.hold ≠ .gcur ks) →
      launchesOf s (activeOf s g x.g) = [(p, serial)] → launchOf s p serial = some l → l.r.cbmp ≠ 0 →
      (∃ k ∈ ofLaunch s (activeOf s g x.g) p serial, ∃ t, getThread s k = some t ∧ (growStep l (tWord t x.a).toNat).1 ≠ l.g) →
      agentWaits s p (.gcur serial gid) = false → heldFor s p (.gcur serial gid) = false →
      reach s ⟨p, none, l.priv⟩ l.r.cbmp .write = (.ok loc, u) → locLock u loc = none →
      exec (.grow x) s = .next (advance (growLanes x p serial (some loc) (ofLaunch s (activeOf s g x.g) p serial) u) gid))
  ∧ (∀ x s gid g, At s gid g → activeOf s g x.g = [] → exec (.grow x) s = .next (advance s gid))
  ∧ (∀ x s p serial k t l, getThread s k = some t → launchOf s p serial = some l →
      let n := (tWord t x.a).toNat
      let fits := l.closed = false ∧ (l.r.gceil = 0 → l.g + n < 2 ^ 32) ∧ (l.r.gceil ≠ 0 → l.g + n ≤ l.r.gceil)
      (fits → growLanes x p serial none [k] s = modThread (if n = 0 then s else modLaunch s p serial (fun l => { l with g := l.g + n })) k
        (fun t => setReg t x.d.toNat ⟨BitVec.ofNat 32 l.g, 0⟩))
      ∧ (¬fits → n ≠ 0 → growLanes x p serial none [k] s = modThread s k (fun t => setReg t x.d.toNat ⟨0xFFFFFFFF, 0⟩))
      ∧ ∀ loc, fits → n ≠ 0 → growLanes x p serial (some loc) [k] s =
        modThread (storeLoc (modLaunch s p serial (fun l => { l with g := l.g + n })) loc (leBytes 4 (l.g + n)) [0]) k
          (fun t => setReg t x.d.toNat ⟨BitVec.ofNat 32 l.g, 0⟩))
  ∧ (∀ x s gid g k t a u, At s gid g → (activeOf s g x.g).head? = some k → getThread s k = some t → fullWarp s g = true → (∀ d, g.hold ≠ .lnch d) →
      resolve s t .sc ((tWord t x.a).setWidth 64) 64 256 .read = (.ok a, u) →
      let r := accRead u a 256
      let p := threadPart r.2 t
      heldFor r.2 p (.group gid) = false →
      let n := (tWord t x.b).toNat
      let q := Map.get LQueue.reset (partOf r.2 p).lqs n
      let answer (v : State) (d : Word) : State := advance (onThreads (fun t => setReg t x.d.toNat ⟨d, 0⟩) (activeOf s g x.g) v) gid
      (16 ≤ n ∨ q.cfg.toNat % 4 = 0 ∨ q.cfg.getLsbD 8 = false → exec (.lnch x) s = .next (answer r.2 2))
      ∧ (n < 16 → q.cfg.toNat % 4 ≠ 0 → q.cfg.getLsbD 8 = true → (q.tail.toNat + 1) % 2 ^ (q.cfg.toNat / 2 ^ 16 % 16) = q.head.toNat →
          exec (.lnch x) s = .next (answer r.2 1))
      ∧ (n < 16 → q.cfg.toNat % 4 ≠ 0 → q.cfg.getLsbD 8 = true → (q.tail.toNat + 1) % 2 ^ (q.cfg.toNat / 2 ^ 16 % 16) ≠ q.head.toNat →
          ∀ pa key bt w, reach r.2 ⟨p, none, true⟩ (q.base + BitVec.ofNat 64 (256 * q.tail.toNat)) .write = (.ok (.phys pa key bt), w) →
            (locLock w (.phys pa key bt) = none →
              exec (.lnch x) s = .next (answer (modLq (storeLoc (storeLoc w (.phys pa key bt) (r.1.bytes.take 128) (List.replicate 32 0))
                (.phys (pa + 128) key bt) (r.1.bytes.drop 128) (List.replicate 32 0)) p n (lqPush (!t.priv))) 0))
            ∧ ∀ o, locLock w (.phys pa key bt) = some o →
              exec (.lnch x) s = .next (setPart (setHold w gid (.lnch r.1.bytes)) o (fun y => { y with held := y.held ++
                [⟨0, .phys pa key bt, some ⟨⟨p, none, true⟩, q.base + BitVec.ofNat 64 (256 * q.tail.toNat), .write⟩, .own,
                  some (p, .group gid), .land⟩] }))))

/-- R297, R328-R336: TLBI drops the partition's cached translations, of a range or all, and the writes held that came by them
translate anew; ICINV drops the copies of its lines from instruction caches and clause buffers, and the release that follows
ends what is known of them as they stood before stores (R133); FRES marks a handled entry or resumes a parked one and answers a
status; FDISC frees entries, posts KIND 4 and lets their members exit, one whose write a lock holds once that has landed (log
120); SAVE asks for a warp's pre-emption, which stops its threads that are not runnable or in a handler where they stand, and
waits; REST answers what restoring an image gives; SBRD reads a side record into eight registers; HALT waits while EVQ_TAIL is
what a says. The answers of SAVE that R333 does not name (log 53), the operation that stands on a saved entry (log 52), and
CAUSE and REASON 0 of the KIND 4 record (log 50) are the model's choices. -/
def Obligations.PrivilegedResults : Prop :=
  (∀ x, LaneSteps (.tlbi x) x.g (fun _ _ t s =>
      let a := (tPair t x.a).toNat
      let n := (tWord t x.lr).toNat
      some (retranslateHeld (untranslated (threadPart s t) a n s) (usesDropped s (threadPart s t) (fun b m => meets b m a n)))))
  ∧ (∀ gd, LaneSteps (.tlbiAll gd) gd (fun _ _ t s => { s with mem := { s.mem with
      tlb := s.mem.tlb.filter (fun e => e.part != threadPart s t), tabs := s.mem.tabs.filter (fun e => e.part != threadPart s t) } }
      |> fun u => some (retranslateHeld u (usesDropped s (threadPart s t) (fun _ _ => true)))))
  ∧ (∀ s p a n h v, h.via = some v → v.who.part = p →
      (∃ e ∈ s.mem.tlb, e.part = p ∧ e.base ≤ v.va.toNat ∧ v.va.toNat < e.base + e.size ∧ meets e.base e.size a n = true) →
      usesDropped s p (fun b m => meets b m a n) h = true)
  ∧ (∀ x, LaneSteps (.icinv x) x.g (fun _ k t s =>
      let a := (tPair t x.a).toNat
      let n := (tWord t x.lr).toNat
      some (if n = 0 then s else uncoded k (codeReach s (threadPart s t)
        (codePieces (n / 4096 + 3) s (whoOf s t) (a / 128 * 128) ((a + n + 127) / 128 * 128))) s)))
  ∧ (∀ gd, LaneSteps (.icinvAll gd) gd (fun _ k t s => some (uncoded k (codeReach s (threadPart s t) none) s)))
  ∧ (∀ s p l, codeReach s p (some l) = l)
  ∧ (∀ s p c pa k bt, c ∈ s.mem.code → .phys pa k bt ∈ c.locs → foreignLine s p (pa / 128) = false →
      ∃ e ∈ codeReach s p none, meets (pa / 128 * 128) 128 e.1 e.2 = true)
  ∧ (∀ s k l a e, Map.get? s.mem.inval k = some l → (∃ r ∈ l, meets (a / 128 * 128) 128 r.1 r.2 = true) →
      Machine.wordAt (settleFor s k).mem e a = codeWord s.mem.bytes a)
  ∧ (∀ x, LaneSteps (.fres x) x.g (fun _ => fresStep x))
  ∧ (∀ x s gid g d, At s gid g → fdiscAsks s x (activeOf s g x.g) = some d → exec (.fdisc x) s = .next (wakeDie s d))
  ∧ (∀ s k t, getThread s k = some t → (threadHeld s k = false → discardThread s k = exitThread s k)
      ∧ (threadHeld s k = true → ∃ u, getThread (discardThread s k) k = some u ∧ u.st = .leaving ∧ u.frag = 0 ∧ u.hand = .none))
  ∧ (∀ x s gid g, At s gid g → fdiscAsks s x (activeOf s g x.g) = none → exec (.fdisc x) s = .next
      (let r := (activeOf s g x.g).foldl (fdiscStep x) (s, [])
      r.2.foldl (fun u i => learnGone r.1 u i.1)
        (goneNoted r.1 (r.2.foldl (fun u i => ((fragMembers u i.2).map (·.1)).foldl discardThread u) (advance r.1 gid)))))
  ∧ (∀ x, LaneSteps (.save x) x.g (saveStep x))
  ∧ (∀ s wk w, Map.get? s.warps wk = some w → w.preq = none → w.saved = false →
      let asked := modWarp s wk (fun w => { w with preq := some false, preqAt := s.clock })
      let standing := ((warpThreads asked wk).filter (fun e => e.2.stop == .running && (notRunnable asked e.2 || e.2.hand != .none))).map (·.1)
      requestSave s wk = if standing = [] then asked else stopWhole asked standing)
  ∧ (∀ x, LaneSteps (.rest x) x.g (fun _ k t s =>
      let r := restoreImage s (threadPart s t) (tWord t x.a).toNat
      some (modThread r.2 k (fun t => setReg t x.d.toNat ⟨BitVec.ofNat 32 r.1, 0⟩))))
  ∧ (∀ x, EachLane (.sbrd x) x.g (fun s t =>
      let a := (tWord t x.a).toNat
      let r := sideAt s (coreOf s t) (a / 2 ^ 10 % 4) (a / 2 ^ 5 % 32) (a % 32)
      let ws : List Word := [r.pc, r.w1, r.arg0, r.arg1].flatMap (fun d : DWord => [d.setWidth 32, (d >>> 32).setWidth 32])
      setRegs t ((List.range 8).map (fun i => (x.d.toNat + i, ⟨ws.getD i 0, 0⟩)))))
  ∧ (∀ x, LaneSteps (.halt x) x.g (haltStep x))

/-- R309, R325, Table 18-4: RTE by a thread in no handler goes on; in a handler it waits for the other members, and the last
one parks the entry or, with MARK, resumes its members, each of them ordered after the RTE: pc, lk and mode come back from the
image. R310, Table 18-4: a member that resumes alone takes the same from it, its bit leaves LANES, and the entry is freed when
LANES becomes 0; that this holds for RET to the token in a handler of any kind is the model's reading (log 32). -/
def Obligations.ReturnFromHandler : Prop :=
  (∀ gd, LaneSteps (.rte gd) gd (fun _ => rteStep))
  ∧ (∀ s id ms, id ≠ 0 → fragMembers s id = ms → ms ≠ [] → (fragEntry s (fragKeyOfId id)).st = .handler →
      (fragEntry s (fragKeyOfId id)).mark = false → (∀ e ∈ ms, e.2.st = .rteWait) →
      rteCheck s id = modFrag (onThreads (fun t => { t with st := .parked, hand := .none }) (ms.map (·.1)) s) (fragKeyOfId id)
        (fun x => { x with st := .parked }))
  ∧ (∀ s id ms, id ≠ 0 → fragMembers s id = ms → ms ≠ [] → (fragEntry s (fragKeyOfId id)).st = .handler →
      (fragEntry s (fragKeyOfId id)).mark = true → (∀ e ∈ ms, e.2.st = .rteWait) →
      rteCheck s id = fresMembers s (fragKeyOfId id) (ms.map (·.1)))
  ∧ (∀ s id k t, (k, t) ∈ fragMembers s id → t.st ≠ .rteWait → t.st ≠ .parked → rteCheck s id = s)
  ∧ (∀ s fk k t, getThread s k = some t → t.rpass = none → s.warps.all (fun w => w.2.gen.isNone) = true →
      let x := fragEntry s fk
      let a := (partOf s x.part).fragtab.toNat + 1024 * fk
      ∃ u, getThread (fresMembers s fk [k]) k = some u ∧ u.st = .entry
        ∧ u.away = t.away ||| (match Map.get? s.clusterGroups t.cgu with | some g => g.away | none => 0)
        ∧ u.pc = physRead64 s (a + 0x40 + 8 * t.lane) ∧ u.lk = physRead64 s (a + 0x140 + 8 * t.lane)
        ∧ u.priv = x.pmode.getLsbD t.lane ∧ u.hand = .none ∧ u.frag = 0
        ∧ u.regs = t.regs ∧ u.cregs = t.cregs ∧ u.preds = t.preds ∧ u.flags = t.flags ∧ u.bud = t.bud)
  ∧ (∀ s fk k t, getThread s k = some t → t.rpass = none → s.warps.all (fun w => w.2.gen.isNone) = true →
      let x := fragEntry s fk
      let a := (partOf s x.part).fragtab.toNat + 1024 * fk
      let left := x.lanes &&& ~~~(1#32 <<< t.lane)
      (∃ u, getThread (resumeMembers s fk [k]) k = some u ∧ u.st = .entry ∧ u.pc = physRead64 s (a + 0x40 + 8 * t.lane)
        ∧ u.lk = physRead64 s (a + 0x140 + 8 * t.lane) ∧ u.priv = x.pmode.getLsbD t.lane ∧ u.hand = .none ∧ u.frag = 0)
      ∧ fragEntry (resumeMembers s fk [k]) fk =
        { x with lanes := left, st := if left = 0 then .free else x.st, mark := if left = 0 then false else x.mark }
      ∧ ∀ j, j ≠ k → getThread (resumeMembers s fk [k]) j = getThread s j)

/-- R273, R326, R327: MOVC reads a control register whole into a register or pair and writes one, each active lane its own write
(one of SHADOW_REQ while a request is busy waits); a plain register takes a value whole or not at all, and no other register
then reads differently. Which values a register refuses is the model's reading (log 45). -/
def Obligations.ControlRegisterResults : Prop :=
  (∀ x, EachLane (.movcRead x) x.g (fun s t =>
      let v := crRead s (threadPart s t) x.cr
      setRegs t ((x.r.toNat, ⟨v.setWidth 32, 0⟩) :: (if x.cr.wide then [(x.r.toNat + 1, ⟨(v >>> 32).setWidth 32, 0⟩)] else []))))
  ∧ (∀ x, x.cr ≠ .shadowReq → LaneSteps (.movcWrite x) x.g (fun _ _ t s =>
      some (crWrite s (threadPart s t) x.cr (tVal t x.cr.wide x.r))))
  ∧ (∀ x s gid g, At s gid g → x.cr = .shadowReq →
      ((∀ ks, g.hold ≠ .shadow ks) → exec (.movcWrite x) s = .next (shadowLanes x gid (activeOf s g x.g) s))
      ∧ (∀ ks, g.hold = .shadow ks → exec (.movcWrite x) s = .next (shadowLanes x gid ((activeOf s g x.g).filter ks.contains) s)))
  ∧ (∀ x gid s, shadowLanes x gid [] s = advance s gid)
  ∧ (∀ x gid k r s t, getThread s k = some t →
      shadowLanes x gid (k :: r) s =
        if (partOf s (threadPart s t)).shadowBusy then setHold s gid (.shadow (k :: r))
        else shadowLanes x gid r (crWrite s (threadPart s t) .shadowReq (tPair t x.r)))
  ∧ (∀ s p c v, c ∈ plainRegs →
      (crRead (crWrite s p c v) p c = v ∨ crRead (crWrite s p c v) p c = crRead s p c)
      ∧ ∀ d, d ≠ c → (c = .lqSel → d ∉ [CReg.lqBase, .lqCfg, .lqHead, .lqTail]) → crRead (crWrite s p c v) p d = crRead s p d)
  ∧ (∀ s p v, (v.toNat % 4096 = 0 → crRead (crWrite s p .trapbaseSys v) p .trapbaseSys = v)
      ∧ (1000 ≤ v.toNat → v.toNat ≤ 20000 → crRead (crWrite s p .preemptWin v) p .preemptWin = v)
      ∧ (v.toNat < 1000 ∨ 20000 < v.toNat → crRead (crWrite s p .preemptWin v) p .preemptWin = crRead s p .preemptWin))

/-! ## Events of threads, slices and jobs (R26, R27, R111, R115, R116, R133, R138-R141, R157, R216, R236, R257, R260) -/

namespace Sys2Proof.Claims

/-- A major of QPOP, QPEEK, QDROP or another queue instruction, of a word. -/
def queueMajor (w : DWord) : Bool := decide (0xD0 ≤ w.toNat / 2 ^ 56 ∧ w.toNat / 2 ^ 56 ≤ 0xD3)

/-- A thread that enters a clause with the lead thread `low`: at the header, on the quad, in its mode and handler state (R26,
R305), of its warp for a collective clause (R27), of its quad group where the clause names queues (R26). -/
def entersWith (s : State) (core quad : Nat) (hdr : DWord) (low : Thread) (h : Header) (ws : List DWord) (t : Thread) : Bool :=
  canEnter s t && decide (t.pc = hdr ∧ coreOf s t = core ∧ quadOf s t = quad ∧ t.priv = low.priv ∧ t.hand = low.hand
    ∧ (t.hand ≠ .none → t.frag = low.frag) ∧ (isCollective ws = true → warpKeyOf t = warpKeyOf low)
    ∧ (h.wait ≠ 0 ∨ ws.any queueMajor = true → quadKeyOf t = quadKeyOf low))

/-- The threads an issue group is made of: of each lane the lowest identifier (R26). -/
def leads (s : State) (p : Thread → Bool) (k : Nat) : Bool :=
  s.threads.any (fun e => e.1 == k && p e.2 && s.threads.all (fun x => !(p x.2 && x.2.lane == e.2.lane) || gtidLe e.2 x.2))

/-- Evaluations of the waiting lanes of a CWAIT in order: the state, and the waits that stay; none where a lane faults. -/
def reevaluated : List (Nat × Wait) → State → Option (State × List (Nat × Wait))
  | [], s => some (s, [])
  | (k, .cobj sp va target) :: r, s =>
    match getThread s k with
    | none => reevaluated r s
    | some t =>
      match resolve s t sp va 32 32 .read with
      | (.error _, _) => none
      | (.ok a, u) =>
        let g := accRead (homeAcc u a.loc false) a 32
        if a.stash.isSome || objReserved (leNat g.1.bytes) then none
        else if objDone (leNat g.1.bytes) target.toNat then reevaluated r (learnAway g.2 k)
        else (reevaluated r g.2).map (fun x => (x.1, (k, .cobj sp va target) :: x.2))
  | w :: r, s => (reevaluated r s).map (fun x => (x.1, w :: x.2))

/-- One word of a job: read, and written with its bound; BD where a nonzero bound is dropped (R115, R87); the rewrite
of a bound leaves the value, and an untracked page sets BD (R259). -/
def jobWordLands (w : Who) (c : Card) (i : Nat) (s : State) : Option (Bool × State) :=
  let r := i / (c.len / 4)
  let o := 4 * (i % (c.len / 4))
  let dst := c.dst + BitVec.ofInt 64 (c.dstr * r + o)
  let put (v : Nat) (b : BitVec 16) (u : State) : Option (Bool × State) :=
    match reach u w dst .write false c.devc with
    | (.ok l, u) => if (locLock u l).isSome then none else let p := pokeLoc u l none (leBytes 4 v) [b] false; some (p.2, p.1)
    | _ => none
  if c.kind = 2 then
    match reach s w dst .write false c.devc with
    | (.ok (.phys a k bt), u) =>
      if (holdOf u a).isSome then none
      else
        let u := combineWrite u (a / 128)
        let m := openLine u.mem (a / 128) k
        let b := if c.rwop = 0 then c.bval else upBd (bdAdd (bdOf (physBound m true a)) (bdOf c.bval))
        if bt then some (!hasChunk m a && b != 0, { u with mem := markDirty (putBounds m true a [b]) (a / 128) })
        else some (true, { u with mem := m })
    | _ => none
  else if c.kind = 0 then
    match reach s w (c.src + BitVec.ofInt 64 (c.sstr * r + o)) .read with
    | (.ok l, u) => put (leNat (readLoc u l 4).1.bytes) (readLoc u l 4).1.bnd (readLoc u l 4).2
    | _ => none
  else put c.val.toNat c.bval s

def jobLands (w : Who) (c : Card) : List Nat → Bool → State → Option (Bool × State)
  | [], bd, s => some (bd, s)
  | i :: r, bd, s => (jobWordLands w c i s).bind (fun x => jobLands w c r (bd || x.1) x.2)

/-- A job's own step on its object: COUNT + 1 with INC, PEND less the bytes landed, BD among FLAGS (R260). -/
def objJob (n : Nat) (inc : Bool) (landed : Nat) (bd : Bool) : Option Nat :=
  let c := n % 2 ^ 64 + bnum inc
  if objReserved n || decide (2 ^ 64 ≤ c) || decide (n / 2 ^ 64 % 2 ^ 28 < landed) then none
  else some (c + (n / 2 ^ 64 % 2 ^ 28 - landed) * 2 ^ 64 + (BitVec.ofNat 8 (n / 2 ^ 96) ||| (if bd then 0x20 else 0)).toNat * 2 ^ 96)

/-- A group held at its JOB with a card, its active lanes' lowest thread, and room in the scheduler. -/
def HeldJob (s : State) (gid : Nat) (c : Card) (t : Thread) : Prop :=
  ∃ g x k h u, getGroup s gid = some g ∧ g.hold = .jobFull c ∧ (g.pass.words[g.pass.slot]?).map decode = some (.ok (.job x))
    ∧ (activeOf s g x.g).head? = some k ∧ getThread s k = some t ∧ g.members.head? = some h ∧ getThread s h = some u
    ∧ threadPart s u = threadPart s t

end Sys2Proof.Claims

/-- R26, R27, R133, R138-R141, R288: a clause entry reads the header and its words and forms one issue group of the threads that
stand there, at slot 0; where all of them are held from a MEM clause by throttling none enters; an access-slice instance enters
its clause. The clause comes from the quad's buffer of 16 clauses, its core's instruction cache of 128 KiB, or memory, old or
new, never mixed (R1, R133, R142): where stores have changed a part of its words, as it stood before them (the model's choice,
log 88). That caches and buffers hold whole clauses, from their entry on and the newest ones (log 20), and that the threads of a
handler group within their fragment (log 26), are the model's readings. -/
def Sys2Proof.Claims.ClauseEntries : Prop :=
  (∀ s core quad hdr low h ws u, lowestOf (candidates s core quad hdr) = some low → hdr.toNat % 8 = 0 →
      fetchClause s (whoOf s low) (quadHolders core quad) hdr false = (.ok h ws, u) →
      (h.cls = 1 → ∀ e ∈ candidates s core quad hdr, memHeld s e.2 = false) →
      ∃ t g, exec (.clauseEntry (.threads core quad hdr)) s = .next t ∧ getGroup t u.nextId = some g
        ∧ g.pass = ⟨hdr, h.cls, ws, 0⟩ ∧ g.waits = [] ∧ g.hold = (if h.wait = 0 then .none else .clauseWait h.wait)
        ∧ ∀ k, g.members.contains k = leads s (entersWith s core quad hdr low h ws) k)
  ∧ (∀ s core quad hdr low h ws u, lowestOf (candidates s core quad hdr) = some low →
      fetchClause s (whoOf s low) (quadHolders core quad) hdr false = (.ok h ws, u) → h.cls = 1 → (∀ e ∈ candidates s core quad hdr, memHeld s e.2 = true) →
      exec (.clauseEntry (.threads core quad hdr)) s = .next s)
  ∧ (∀ s qk x c h ws u, getSlice s qk = some x → x.st = .run → x.pass = none → Map.get? s.coreGroups (qk / 4) = some c → c.saved = false →
      x.pc.toNat % 8 = 0 → fetchClause s (sliceWho s qk) [quadCore s qk] x.pc true = (.ok h ws, u) →
      exec (.clauseEntry (.slice qk)) s = .next (modSlice u qk (fun x => { x with pass := some ⟨x.pc, h.cls, ws, 0⟩ })))
  ∧ (∀ s w hs hdr str l0 u c ls v, codeLoc s w hdr = (.ok l0, u) → copyAt u hs l0 = some c →
      let h := Header.ofWord (c.words.headD 0)
      (h.ok w.priv str = false → fetchClause s w hs hdr str = (.bad (c.words.headD 0), u))
      ∧ (h.ok w.priv str = true → codeLocs w (h.cnt.toNat + 1) (hdr + 8) u = ((ls, none), v) → l0 :: ls = c.locs →
          fetchClause s w hs hdr str = (.ok h (c.words.drop 1), keepCode v hs c.locs c.words)))
  ∧ (∀ s w hs hdr str l0 u x u1 ls u2, codeLoc s w hdr = (.ok l0, u) → copyAt u hs l0 = none → codeRead w [l0] u = (([x], none), u1) →
      let h := Header.ofWord x
      let e := lastSettled u1.mem [l0]
      let old := Machine.wordAt u1.mem e (locPa l0)
      let h' := Header.ofWord old
      (h.ok w.priv str = false → isHeader x = true ∨ isHeader old = false → fetchClause s w hs hdr str = (.bad x, u1))
      ∧ (h.ok w.priv str = true → codeLocs w (h.cnt.toNat + 1) (hdr + 8) u1 = ((ls, none), u2) →
          (oneText u2.mem (l0 :: ls) = true → ∀ ws v, codeRead w ls u2 = ((ws, none), v) →
            fetchClause s w hs hdr str = (.ok h ws, keepCode v hs (l0 :: ls) (x :: ws)))
          ∧ (oneText u2.mem (l0 :: ls) = false → h'.ok w.priv str = true → u2.mem = u1.mem →
              ∀ ls' v, codeLocs w (h'.cnt.toNat + 1) (hdr + 8) u2 = ((ls', none), v) → lastSettled v.mem (l0 :: ls') ≤ e →
              (fetchClause s w hs hdr str).1 = .ok h' (ls'.map (fun l => Machine.wordAt v.mem e (locPa l))))))
  ∧ (∀ w pa k bt r s ws u, codeRead w (.phys pa k bt :: r) s = ((ws, none), u) → lockOf s pa = none → pa % 8 = 0 →
      ws.head? = some (BitVec.ofNat 64 (leNat ((List.range 8).map (fun i => viewByte s.mem (pa + i) k)))))
  ∧ (∀ (m : MemSys) ls, (∀ l ∈ ls, versions m (locPa l) = []) → oneText m ls = true)
  ∧ (∀ (m : MemSys) e a, versions m a = [] → Machine.wordAt m e a = codeWord m.bytes a)
  ∧ (∀ (m : MemSys) a l e b, b % 8 = 0 → e ≤ m.epoch → Machine.wordAt (putBytes m a l) e b = Machine.wordAt m e b)
  ∧ (∀ l c,
      let mine := (keepIn l c).filter (fun x => x.holder == c.holder)
      (c.holder < 512 → (mine.map (fun x => x.words.length)).sum ≤ 16384)
      ∧ (512 ≤ c.holder → (l.filter (fun x => x.holder == c.holder)).length ≤ 16 → mine.length ≤ 16))

/-- R157-R159, R315: an illegal word traps every member of the group, whatever its guard, with class 0, its reason and the
word, or the group stands while a migration lock holds the image that the trap writes, or a die must give up its lines first (R344);
an access-slice instance stops and
posts KIND 1. -/
def Sys2Proof.Claims.IllegalWordTraps : Prop :=
  (∀ r w s gid g, At s gid g → g.members ≠ [] → g.members.head?.bind (imageLock s) = none → g.members.head?.bind (imageSilent s) = none →
      (∀ k ∈ g.members, handlerHeld s k = false) →
      let f : FInfo := ⟨0, match r with | .header => 0 | .klass => 1 | .unassigned => 2 | .memCode => 3 | .reserved => 4 | .register => 5, w, 0⟩
      let z := raise s s g.members (g.members.map (fun k => (k, f))) (slotPc g.pass) (some g.pass) (slotPc g.pass) (some g.pass)
      exec (.illegalInstruction r w) s = .next (if z.2 then z.1 else advance z.1 gid))
  ∧ (∀ r w s gid g, At s gid g → (g.members.head?.bind (imageLock s)).isSome = true → exec (.illegalInstruction r w) s = .next s)
  ∧ (∀ r w s gid g d, At s gid g → g.members.head?.bind (imageLock s) = none → (∀ k ∈ g.members, handlerHeld s k = false) →
      g.members.head?.bind (imageSilent s) = some d → exec (.illegalInstruction r w) s = .next (wakeDie s d))
  ∧ (∀ r w s qk x p, s.cur = .slice qk → getSlice s qk = some x → x.pass = some p →
      exec (.illegalInstruction r w) s = .next (postEvent (modSlice (dropUnfetched s qk) qk (fun x => { x with st := .stopped })) (quadPart s qk)
        (BitVec.ofNat 32 (quadCore s qk)) 1 0
        (match r with | .header => 0 | .klass => 1 | .unassigned => 2 | .memCode => 3 | .reserved => 4 | .register => 5)
        (BitVec.ofNat 64 (quadNo s qk)) (slotPc p) 0))

/-- R26, R133, R138-R141, R157-R159: clause entry, and the illegal word. -/
def Obligations.ClauseEntryResults : Prop := Sys2Proof.Claims.ClauseEntries ∧ Sys2Proof.Claims.IllegalWordTraps

/-- R111, R216, R236, R257: the re-evaluations of CWAIT and SWAITC, the end of SLEEP, and the landing of a queue entry. When a
SLEEP ends early and when a HALT or a CWAIT is evaluated again is the model's choice (log 72). -/
def Sys2Proof.Claims.WaitsEnd : Prop :=
  (∀ s gid g u ws, getGroup s gid = some g → reevaluated g.waits s = some (u, ws) →
      exec (.cwaitReevaluate gid) s = .next
        (let v := modGroup u gid (fun g => { g with waits := ws })
         if ws = [] ∧ g.pass.words.length ≤ g.pass.slot then closeGroup v gid else v))
  ∧ (∀ s qk x va target l u, getSlice s qk = some x → x.st = .cobj va target → va.toNat % 32 = 0 →
      reach s (sliceWho s qk) va .read false = (.ok l, u) → objReserved (leNat (readLoc u l 32).1.bytes) = false →
      exec (.swaitcReevaluate qk) s = .next
        (if objDone (leNat (readLoc u l 32).1.bytes) target.toNat then
          modSlice (readLoc u l 32).2 qk (fun x => sliceAdvance { x with st := .run })
         else (readLoc u l 32).2))
  ∧ (∀ s gid g c, getGroup s gid = some g → g.hold = .sleep c → exec (.sleepEnd gid) s = .next (advance s gid))
  ∧ (∀ s qk q i u e, getQueue s qk q = some u → u.entries[i]? = some e → (e.marker ≠ none ∨ e.rows ≠ 0) →
      exec (.queueEntryReady qk q i) s = .next (modQueue s qk q (fun u => { u with entries := u.entries.set i { e with ready := true } })))

/-- R116, R260, R365: a held job is accepted once the scheduler has room; a job whose predecessors have completed reads and
writes its words in order; its completion is one step on its count object. That a job runs as one step (log 22), BD with the
bound dropped where a rewrite meets a tracked page without a chunk (log 23), what a held job keeps (logs 24, 77) and that
records are written word by word (log 78) are the model's choices. -/
def Sys2Proof.Claims.JobResults : Prop :=
  (∀ s gid c t, HeldJob s gid c t → heldFor s (threadPart s t) (.group gid) = false →
      openJobs (partOf s (threadPart s t)) < Config.maxJobs → c.cnt = false →
      exec (.jobAccept gid) s = .next (advance (jobTaken s (threadPart s t) t.priv c) gid))
  ∧ (∀ s gid c t a u n, HeldJob s gid c t → heldFor s (threadPart s t) (.group gid) = false →
      openJobs (partOf s (threadPart s t)) < Config.maxJobs → c.cnt = true →
      resolve s t .gl c.cobj 32 32 .atomic = (.ok a, u) → a.stash = none → locLock (homeAcc u a.loc true) a.loc = none →
      objPend (leNat (accRead (homeAcc u a.loc true) a 32).1.bytes) (c.rows * c.len) false = some n → c.rows * c.len < 2 ^ 64 →
      exec (.jobAccept gid) s = .next (advance (jobTaken (pokeLoc (accRead (homeAcc u a.loc true) a 32).2 a.loc none (leBytes 32 n) (List.replicate 8 0) false).1
        (threadPart s t) t.priv c) gid))
  ∧ (∀ s gid c t, HeldJob s gid c t → Config.maxJobs ≤ openJobs (partOf s (threadPart s t)) → exec (.jobAccept gid) s = .next s)
  ∧ (∀ s p id j, getJob s p id = some j → heldFor s p (.job id) = true → exec (.jobStart p id) s = .next s)
  ∧ (∀ s p id j bd u, getJob s p id = some j → heldFor s p (.job id) = false →
      (j.st = .running ∨ (j.st = .waiting ∧ ∀ e ∈ j.edges, ∀ k, getJob s p e = some k → k.st = .landed)) →
      jobLands ⟨p, none, j.priv⟩ j.card (List.range' j.landed (j.card.rows * j.card.len / 4 - j.landed)) j.bd s = some (bd, u) →
      exec (.jobStart p id) s = .next (modJob u p id (fun j =>
        { j with st := .landed, landed := max j.landed (j.card.rows * j.card.len / 4), bd := bd })))
  ∧ (∀ s p id j, getJob s p id = some j → j.st = .waiting → (∃ e ∈ j.edges, ∃ k, getJob s p e = some k ∧ k.st ≠ .landed) →
      exec (.jobStart p id) s = .next s)
  ∧ (∀ s p id j, getJob s p id = some j → j.st = .landed → agentWaits s p (.job id) = false → heldFor s p (.job id) = false →
      j.card.cnt = false →
      exec (.jobCompletion p id) s = .next (setPart s p (fun q => { q with jobs := Map.erase q.jobs id })))
  ∧ (∀ s p id j l u n, getJob s p id = some j → j.st = .landed → agentWaits s p (.job id) = false → heldFor s p (.job id) = false →
      j.card.cnt = true → j.card.cobj.toNat % 32 = 0 → reach s ⟨p, none, j.priv⟩ j.card.cobj .atomic = (.ok l, u) → locLock u l = none →
      objJob (leNat (readLoc u l 32).1.bytes) j.card.inc (4 * j.landed) j.bd = some n →
      exec (.jobCompletion p id) s = .next (setPart (pokeLoc (readLoc u l 32).2 l none (leBytes 32 n) (List.replicate 8 0) false).1 p
        (fun q => { q with jobs := Map.erase q.jobs id })))

/-- R111, R116, R216, R236, R257, R260: waits end, and jobs start and complete. -/
def Obligations.WaitAndJobResults : Prop := Sys2Proof.Claims.WaitsEnd ∧ Sys2Proof.Claims.JobResults

/-! ## Launch queues, launches and the event ring (R21, R22, R25, R44, R262, R273, R275-R286, R314-R316) -/

namespace Sys2Proof.Claims

/-- LQ_CFG with STATE v. -/
def withState (v : Word) (q : LQueue) : LQueue := { q with cfg := (q.cfg &&& 0xFFFFFFFC) ||| v }

/-- A tail write adds a − t records modulo the ring, within it and into free slots; they are not a user group's (R275). -/
def tailWritten (v : Word) (q : LQueue) : LQueue :=
  let n := 2 ^ (q.cfg.toNat / 2 ^ 16 % 16)
  let add := (v.toNat + n - q.tail.toNat) % n
  let used := (q.tail.toNat + n - q.head.toNat) % n
  if v.toNat < n ∧ add + used ≤ n - 1 then
    { q with tail := v, userSlots := q.userSlots.filter (fun x => !decide ((x + n - q.tail.toNat) % n < add)) }
  else q

/-- After AGENT_RETRY := 1 an agent makes its access again (R283, R316): an instance or a job leaves its fault, a write of DONE
or of a bitmap's header is made. -/
def retried (p : Nat) (s : State) (a : Agent × FInfo) : State :=
  match a.1 with
  | .slice qk => modSlice s qk (fun x => match x.st with | .fault _ => { x with st := .run } | _ => x)
  | .job id => modJob s p id (fun j => if j.st = .fault then { j with st := .running } else j)
  | .done serial => writeDone s p serial
  | .header serial => headerAgain s p serial
  | _ => s

/-- REASON of the permission fault that an abandoned access ends as (R316, Table 18-1). -/
def permReason (f : FInfo) : Nat := if f.arg1.toNat % 8 = 2 then 1 else if f.arg1.toNat % 8 = 4 then 2 else 0

/-- Partition p without the agents that wait on a fault; one that waits for a lock or an answer waits on. -/
def noAgents (s : State) (p : Nat) : State := setPart s p (fun q => { q with agents := q.agents.filter (fun e => e.2.waits) })

/-- A write of a register through a window of the host is made at once: no earlier write of the host waits (R135). -/
def WindowOpen (s : State) (addr : Nat) (v : Word) : Prop :=
  hostPending s = false ∧ postSilent s (BitVec.ofNat 64 addr) (leBytes 4 v.toNat) = none

/-- The event record's 32 bytes at EVQ_TAIL, which advances (R314). -/
def posted (s : State) (p : Nat) (e : EvRec) (r : List EvRec) : State :=
  let q := partOf s p
  setPart (physPoke s (q.evqBase.toNat + 32 * q.evqTail.toNat)
    (leBytes 8 e.w0.toNat ++ leBytes 8 e.arg0.toNat ++ leBytes 8 e.arg1.toNat ++ leBytes 8 e.arg2.toNat)) p
    (fun q => { q with events := r, evqTail := BitVec.ofNat 32 ((q.evqTail.toNat + 1) % 2 ^ (q.evqCfg.toNat % 16 + 4)) })

/-- The address of the event ring's slot at the tail. -/
def ringSlot (q : Part) : Nat := q.evqBase.toNat + 32 * q.evqTail.toNat

/-- Whether the ring is on, and whether its next slot is EVQ_HEAD's. -/
def ringOn (q : Part) : Bool := q.evqCfg.msb
def ringFull (q : Part) : Bool := (q.evqTail.toNat + 1) % 2 ^ (q.evqCfg.toNat % 16 + 4) == q.evqHead.toNat

/-- A record of `p`'s launch queue `n` is read and its slot is writable: the bytes, and where they stand. -/
def RecordRead (s : State) (p n : Nat) (l : List Byte) (wl : Loc) (u : State) : Prop :=
  let q := lqOf s p n
  let va := q.base + BitVec.ofNat 64 (256 * q.head.toNat)
  ∃ rl v w, reach s ⟨p, none, true⟩ va .read = (.ok rl, v) ∧ reach v ⟨p, none, true⟩ va .write = (.ok wl, w)
    ∧ (let g := readLoc w rl 128
       let h := readLoc g.2 (locPlus rl 128) 128
       l = g.1.bytes ++ h.1.bytes ∧ u = h.2)

/-- What the distributor finds of a record (R278): the placement table where the fields allow it to be read, the status, and
the state after the reach for an accepted launch's bitmap, and what the record must wait for: an access, or a lock on the bitmap's
header (R122, R344). -/
def RecordChecked (s : State) (p n : Nat) (l : List Byte) (wl : Loc) (u : State) (st : Nat) (pl : List Nat) (v : State)
    (wait : Option FInfo) : Prop :=
  let q := lqOf s p n
  let r := recordOf l
  let w : Who := ⟨p, none, r.priv⟩
  ∃ place x hdr, (if recordFieldsOk l r = true then readPlace u w r else (.ok [], u)) = (place, x)
    ∧ (match place with
      | .ok y => pl = y ∧ st = recordStatus x p (q.cfg.getLsbD 9) (q.userSlots.contains q.head.toNat) l r (some y)
      | .error _ => pl = [] ∧ st = recordStatus x p (q.cfg.getLsbD 9) (q.userSlots.contains q.head.toNat) l r none)
    ∧ (if st = 1 ∧ r.cbmp ≠ 0 then reach x w r.cbmp .write else (.ok wl, x)) = (hdr, v)
    ∧ takeWaits v w l r st place hdr = wait

/-- No partition's migration is under way: no page is locked, and no held write is landing. -/
def NoMigration (s : State) : Prop := s.parts.all (fun e => e.2.migSt != .copying && e.2.migSt != .ready && e.2.migSt != .landing) = true

/-- No completion step of a cluster group waits for a fault or a lock, and no lock holds a write of one of its threads (R136). -/
def CompletionFree (s : State) (p cg : Nat) : Prop :=
  (∀ e ∈ s.parts, ∀ h ∈ e.2.held, h.thread / 32768 ≠ cg) ∧
  agentWaits s p (.compl cg) = false ∧ agentWaits s p (.cbmp cg) = false ∧ heldFor s p (.compl cg) = false ∧ heldFor s p (.cbmp cg) = false

/-- The one bit of an index in a completion bitmap (R281). -/
def bitSet (loc : Loc) (i : Nat) (s : State) : State :=
  let v := readLoc s loc 1
  (pokeLoc v.2 loc none (leBytes 1 (leNat v.1.bytes ||| 2 ^ (i % 8))) [0] true).1

end Sys2Proof.Claims

/-- R135, R262, R273, R275, Table 16-3: a queue's tail, which the host writes behind its earlier writes, and STATE, EVQ_CFG's
OVF, and the routes of a control-register write. The bits that MIG_CTL latches (log 44) and the order of the host's tail writes
behind its held writes (log 94) are the model's readings. -/
def Obligations.LaunchQueueResults : Prop :=
  (∀ s p q v, p < 4 → q < 16 → s.boot.mode ≠ 3 → WindowOpen s (vfWindow p + 0x1000 + 8 * q) v →
      exec (.lqTailWrite p q v) s = .next (modLq s p q (tailWritten v)))
  ∧ (∀ s p q v, 4 ≤ p ∨ 16 ≤ q ∨ s.boot.mode = 3 → exec (.lqTailWrite p q v) s = .next s)
  ∧ (∀ s p q v, p < 4 → q < 16 → s.boot.mode ≠ 3 → hostPending s = true →
      exec (.lqTailWrite p q v) s = .next (hostPost (BitVec.ofNat 64 (vfWindow p + 0x1000 + 8 * q)) (leBytes 4 v.toNat) s))
  ∧ (∀ s p q v, p < 4 → q < 16 → hostPending s = false → WindowOpen s (vfWindow p + 0x1000 + 8 * q) v)
  ∧ (∀ s p q, exec (.lqActivate p q) s = .next (modLq s p q (fun x =>
      let st := x.cfg.toNat % 4
      let logn := x.cfg.toNat / 2 ^ 16 % 16
      if st = 2 ∨ st = 3 ∨ (st = 0 ∧ 1 ≤ logn ∧ logn ≤ 12 ∧ x.base.toNat % 256 = 0) then withState 1 x else x)))
  ∧ (∀ s p q, exec (.lqPause p q) s = .next (modLq s p q (fun x => if x.cfg.toNat % 4 = 1 then withState 2 x else x)))
  ∧ (∀ s p q, exec (.lqOff p q) s = .next (modLq s p q (fun x =>
      if x.cfg.toNat % 4 = 0 then x else { withState 0 x with head := x.tail, userSlots := [] })))
  ∧ (∀ s p (v : Word), v.getLsbD 30 = true → v &&& 0x3FFFFFF0 = 0 →
      exec (.evqOvfClear p v) s = .next (setPart s p (fun q => { q with evqCfg := v &&& 0x8000000F })))
  ∧ (∀ s p (v : Word), v.getLsbD 30 = false → exec (.evqOvfClear p v) s = .next s)
  ∧ (∀ s p c v, c ∈ plainRegs → ∃ t, exec (.controlRegisterWrite p c v) s = .next t
      ∧ (crRead t p c = v ∨ crRead t p c = crRead s p c) ∧ t.mem = s.mem ∧ t.threads = s.threads)
  ∧ (∀ s p, exec (.controlRegisterWrite p .agentRetry 1) s = exec (.agentRetryRetry p) s
      ∧ exec (.controlRegisterWrite p .agentRetry 2) s = exec (.agentRetryAbandon p) s
      ∧ ∀ v, v ≠ 1 → v ≠ 2 → exec (.controlRegisterWrite p .agentRetry v) s = .next s)
  ∧ (∀ s p v, exec (.controlRegisterWrite p .lqTail v) s = .next (modLq s p (partOf s p).lqSel.toNat (tailWritten (v.setWidth 32))))
  ∧ (∀ s p (v : DWord), v &&& 0x00FFF1F8 = 0 →
      let u := setPart s p (fun q => { q with migSize := BitVec.ofNat 3 (v.toNat / 2 ^ 9) })
      (v.toNat % 8 = 1 → exec (.controlRegisterWrite p .migCtl v) s = exec (.migGo p) u)
      ∧ (v.toNat % 8 = 2 → exec (.controlRegisterWrite p .migCtl v) s = exec (.migSwitch p) u)
      ∧ (v.toNat % 8 = 4 → exec (.controlRegisterWrite p .migCtl v) s = exec (.migAbort p) u)
      ∧ (v.toNat % 8 = 0 → exec (.controlRegisterWrite p .migCtl v) s = .next u))

/-- R283, R314, R316, R365: an event is posted at EVQ_TAIL and counted by EVQ_COBJ, held by a full ring, by an earlier event's
posting or by a migration lock on its slot, or lost with OVF, and a die may have to give up its line first (R344); the ends of
an agent's wait on a fault, a retry walking anew (R316), and the write of DONE. When a ring is full is the model's choice (log
110). How an abandoned access ends (log 49), the fields of a record that the manual leaves open (log 50) and that events wait in
order until they are posted (log 51) are the model's readings. -/
def Obligations.EventRingResults : Prop :=
  (∀ s p, posting s p = true → exec (.eventPost p) s = .next s)
  ∧ (∀ s p e r, posting s p = false → (partOf s p).events = e :: r → ringOn (partOf s p) = false →
      exec (.eventPost p) s = .next (setPart s p (fun q => { q with events := r, evqCfg := q.evqCfg ||| 0x40000000 })))
  ∧ (∀ s p, ringOn (partOf s p) = true → ringFull (partOf s p) = true → exec (.eventPost p) s = .next s)
  ∧ (∀ s p e r o, posting s p = false → (partOf s p).events = e :: r → ringOn (partOf s p) = true → ringFull (partOf s p) = false →
      postAsks s (partOf s p) e = none → holdOf s (ringSlot (partOf s p)) = some o →
      ∃ t, exec (.eventPost p) s = .next t ∧ (partOf t p).events = e :: r ∧ (partOf t p).evqTail = (partOf s p).evqTail
        ∧ posting t p = true ∧ t.mem = s.mem)
  ∧ (∀ s p e r, posting s p = false → (partOf s p).events = e :: r → ringOn (partOf s p) = true → ringFull (partOf s p) = false →
      postAsks s (partOf s p) e = none → holdOf s (ringSlot (partOf s p)) = none → ((partOf s p).evqCobj = 0 ∨ e.quiet = true) → exec (.eventPost p) s = .next (posted s p e r))
  ∧ (∀ s p e r n, posting s p = false → (partOf s p).events = e :: r → ringOn (partOf s p) = true → ringFull (partOf s p) = false →
      postAsks s (partOf s p) e = none → holdOf s (ringSlot (partOf s p)) = none → (partOf s p).evqCobj ≠ 0 → e.quiet = false → holdOf s (partOf s p).evqCobj.toNat = none → (partOf s p).evqCobj.toNat % 32 = 0 →
      let u := posted s p e r
      objSignal (leNat (rawBytes u.mem (partOf s p).evqCobj.toNat 32)) 1 0 = some n →
      exec (.eventPost p) s = .next (physPoke u (partOf s p).evqCobj.toNat (leBytes 32 n)))
  ∧ (∀ s p e r d, posting s p = false → (partOf s p).events = e :: r → ringOn (partOf s p) = true → ringFull (partOf s p) = false →
      postAsks s (partOf s p) e = some d → exec (.eventPost p) s = .next (wakeDie s d))
  ∧ (∀ s p, ((partOf s p).agents.filter (fun e => !e.2.waits)) ≠ [] →
      let as := (partOf s p).agents.filter (fun e => !e.2.waits)
      exec (.agentRetryRetry p) s = .next (as.foldl (retried p) (noAgents (newWalks s p ((as.map (fun e => agentCore s e.1)).eraseDups)) p)))
  ∧ (∀ s p cs w, w.part = p → w.core ∈ cs → (∀ va, tlbHit (newWalks s p cs) w va = none)
      ∧ ∀ t ∈ (newWalks s p cs).mem.tabs, t.part = p → t.die ≠ w.die)
  ∧ (∀ s p, (∀ e ∈ (partOf s p).agents, e.2.waits = true) →
      exec (.agentRetryRetry p) s = .next s ∧ exec (.agentRetryAbandon p) s = .next s)
  ∧ (∀ s p qk f, (partOf s p).agents = [(.slice qk, f)] → f.waits = false →
      exec (.agentRetryAbandon p) s = .next (postEvent (modSlice (dropUnfetched (noAgents s p) qk) qk (fun x => { x with st := .stopped }))
        (quadPart s qk) (BitVec.ofNat 32 (quadCore s qk)) 1 2 (permReason f) (BitVec.ofNat 64 (quadNo s qk)) f.arg0 0))
  ∧ (∀ s p id f j, (partOf s p).agents = [(.job id, f)] → f.waits = false → getJob s p id = some j → j.st = .fault →
      exec (.agentRetryAbandon p) s = .next (modJob (postEvent (noAgents s p) p (domeSrc p) 2 2 (permReason f) j.card.cobj
        (BitVec.ofNat 64 (j.card.rows * j.card.len - 4 * j.landed)) f.arg0) p id
        (fun j => { j with st := .landed, card := { j.card with inc := false } })))
  ∧ (∀ s p serial f l, (partOf s p).agents = [(.done serial, f)] → f.waits = false → launchOf s p serial = some l →
      exec (.agentRetryAbandon p) s = .next (modLaunch (postEvent (noAgents s p) p (domeSrc p) 11 0 0 (BitVec.ofNat 64 serial)
        0xFFFFFFFF l.r.cbmp) p serial (fun l => { l with published := true })))
  ∧ (∀ s p serial f l, (partOf s p).agents = [(.header serial, f)] → f.waits = false → launchOf s p serial = some l →
      exec (.agentRetryAbandon p) s = .next (postEvent (noAgents s p) p (domeSrc p) 11 0 0 (BitVec.ofNat 64 serial) 0xFFFFFFFF l.r.cbmp))
  ∧ (∀ s p serial i f, (partOf s p).agents = [(.dep serial i, f)] → f.waits = false →
      exec (.agentRetryAbandon p) s = .next (modLaunch (noAgents s p) p serial (setIdx i (.stalled f))))
  ∧ (∀ s p serial l loc u, launchOf s p serial = some l → l.closed = true → l.published = false → l.r.cbmp ≠ 0 →
      agentWaits s p (.done serial) = false → heldFor s p (.done serial) = false →
      reach s ⟨p, none, l.priv⟩ (l.r.cbmp + 8) .write = (.ok loc, u) → locLock u loc = none →
      writeDone s p serial = modLaunch (pokeLoc (readLoc u loc 1).2 loc none (leBytes 1 (leNat (readLoc u loc 1).1.bytes ||| 1)) [0] true).1
        p serial (fun l => { l with published := true }))

/-- R277-R280, R283, R284, Table 16-5: the queue served, by class and within one round-robin; a record accepted or refused, its
head waiting for a STATUS that a migration lock holds; dependences; aging after AGING µs of 1,250 clocks without room. What a
refused record leaves is the model's reading (log 46). -/
def Obligations.LaunchTakeResults : Prop :=
  (∀ s p n, nextQueue s p = some n →
      let serves (m : Nat) : Bool := (lqOf s p m).cfg.toNat % 4 == 1 && (lqOf s p m).head != (lqOf s p m).tail && !heldFor s p (.take m)
      let cls (m : Nat) : Nat := (lqOf s p m).cfg.toNat / 64 % 4
      let last := Map.get 15 (partOf s p).lqLast (cls n)
      n < 16 ∧ serves n = true ∧ ∀ m < 16, serves m = true →
        cls n ≤ cls m ∧ (cls m = cls n → last < 16 → (n + 15 - last) % 16 ≤ (m + 15 - last) % 16))
  ∧ (∀ s p, nextQueue s p = none → exec (.launchRecordTake p) s = .next s)
  ∧ (∀ s p n l wl u st pl v f, nextQueue s p = some n → RecordRead s p n l wl u → RecordChecked s p n l wl u st pl v (some f) →
      exec (.launchRecordTake p) s = .next (wakeFor v [f]))
  ∧ (∀ s p n l wl u st pl v, nextQueue s p = some n → RecordRead s p n l wl u → RecordChecked s p n l wl u st pl v none →
      ∃ t, exec (.launchRecordTake p) s = .next t
        ∧ (NoMigration s → (lqOf t p n).head.toNat = ((lqOf s p n).head.toNat + 1) % 2 ^ ((lqOf s p n).cfg.toNat / 2 ^ 16 % 16))
        ∧ (∀ o, locLock v (locPlus wl 0xF0) = some o → lqOf t p n = lqOf s p n ∧ heldFor t p (.take n) = true)
        ∧ (lqOf t p n).tail = (lqOf s p n).tail ∧ t.threads = s.threads
        ∧ Map.get 15 (partOf t p).lqLast ((lqOf s p n).cfg.toNat / 64 % 4) = n
        ∧ (st ≠ 1 → t.launches = s.launches ∧ (partOf t p).serialNext = (partOf s p).serialNext)
        ∧ (st = 1 → (partOf t p).serialNext = ((partOf s p).serialNext + 1) % 2 ^ 48
            ∧ ∃ x, launchOf t p (partOf s p).serialNext = some x ∧ x.r = recordOf l ∧ x.g = (recordOf l).g ∧ x.place = pl
              ∧ x.cls = (lqOf s p n).cfg.toNat / 64 % 4 ∧ x.idx = [] ∧ x.closed = false)
        ∧ (NoMigration s →
            leNat (readLoc t (locPlus wl 0xF0) 16).1.bytes = (if st = 1 then (partOf s p).serialNext % 2 ^ 64 else 0) + st * 2 ^ 64))
  ∧ (∀ s p serial i l u b, launchOf s p serial = some l → i < l.g → idxWaits l i = true → agentWaits s p (.dep serial i) = false →
      depsReady ⟨p, none, l.priv⟩ i l.r.deps s = (.ok b, u) →
      exec (.indexReady p serial i) s = .next (modLaunch u p serial (setIdx i (if b then .ready else .pending))))
  ∧ (∀ s p serial i l u f, launchOf s p serial = some l → i < l.g → agentWaits s p (.dep serial i) = false →
      depsReady ⟨p, none, l.priv⟩ i l.r.deps s = (.error f, u) →
      (idxSt l i = .pending → f.waits = false →
        exec (.indexReady p serial i) s = .next (agentWait (modLaunch u p serial (setIdx i .pending)) p (.dep serial i) f))
      ∧ (idxSt l i = .stalled f → exec (.indexReady p serial i) s = .next u))
  ∧ (∀ w i s, depsReady w i [] s = (.ok true, s))
  ∧ (∀ w i e r s, e.kind = 0 → depsReady w i (e :: r) s = depsReady w i r s)
  ∧ (∀ w i e s gcur u d v, e.kind = 1 → readVa w (BitVec.ofNat 64 e.pcbmp) 4 s = (.ok gcur, u) →
      readVa w (BitVec.ofNat 64 (e.pcbmp + 8)) 1 u = (.ok d, v) → depsReady w i [e] s = (.ok (d % 2 == 1), v))
  ∧ (∀ w (i : Nat) e s gcur u d v, 2 ≤ e.kind → e.wm1 = 0 → readVa w (BitVec.ofNat 64 e.pcbmp) 4 s = (.ok gcur, u) →
      readVa w (BitVec.ofNat 64 (e.pcbmp + 8)) 1 u = (.ok d, v) →
      let j : Int := ((e.mul : Int) * i + e.ofs) / 2 ^ e.dsh
      (j < 0 → depsReady w i [e] s = (.ok true, v))
      ∧ ((gcur : Int) ≤ j → 0 ≤ j → depsReady w i [e] s = (.ok (d % 2 == 1), v))
      ∧ (0 ≤ j → j < gcur → ∀ b x, readVa w (BitVec.ofNat 64 (e.pcbmp + 64 + j.toNat / 8)) 1 v = (.ok b, x) →
          depsReady w i [e] s = (.ok (b / 2 ^ (j.toNat % 8) % 2 == 1), x)))
  ∧ (∀ s p serial i l, launchOf s p serial = some l → idxReady l i = true →
      (∀ since, Map.get? l.waits i = some since → (partOf s l.part).aging.toNat * 1250 ≤ (s.clock - since).toNat →
        exec (.agingExpiry p serial i) s = .next (modLaunch s p serial (setIdx i .aged)))
      ∧ (∀ since, Map.get? l.waits i = some since → (s.clock - since).toNat < (partOf s l.part).aging.toNat * 1250 →
        exec (.agingExpiry p serial i) s = .next s)
      ∧ (Map.get? l.waits i = none → exec (.agingExpiry p serial i) s = .next s))

/-- R21, R22, R25, R44, R106, R281, R282, R284, R315: an index is placed on a cluster of its die with its threads at the
kernel's first clause, completes with its COMPL update and its bit, once no lock holds a write of its threads (R136), and is
then done; one whose tile fill fails posts KIND 3 and completes without threads; one without room waits from then on. No quad is
taken on which room is kept for a warp that R45 requires to be resident; when it is kept is the model's choice (log 121). Which
cluster, cores and warp slots are taken are the model's choices (logs 9, 48). -/
def Obligations.DispatchResults : Prop :=
  (∀ s p serial i cl l cores, launchOf s p serial = some l →
      let die := l.place.getD (i % l.r.l) 8
      firstReady l die l.g 0 = some i → fencedDie s l die = none → cl / 16 = die → heldBack s l die = false →
      placeOn s (keptFor s l i) p cl l.r = some cores →
      ∃ t g, exec (.dispatch p serial i cl) s = .next t ∧ Map.get? t.clusterGroups s.nextId = some g
        ∧ g.part = p ∧ g.serial = serial ∧ g.idx = i ∧ g.cluster = cl
        ∧ g.st = (if l.r.tiles.any (fun x => x.len != 0) then .filling else .running)
        ∧ (∃ m, launchOf t p serial = some m ∧ idxSt m i = .placed)
        ∧ (∀ n c, cores[n]? = some c → n < 8 → cores.length ≤ 8 → ∃ x, Map.get? t.coreGroups (s.nextId * 8 + n) = some x ∧ x.core = c.1 ∧ x.saved = false)
        ∧ (l.r.tiles.all (fun x => x.len == 0) = true → l.r.q ≤ 4 → l.r.t ≤ 1024 → l.r.c ≤ 8 →
            ∀ k j n, k < l.r.c → j < l.r.q → n < l.r.t →
              ∃ x, getThread t (threadKey s.nextId ((k * l.r.q + j) * l.r.t + n)) = some x ∧ x.st = .entry ∧ x.pc = l.r.kcode
                ∧ x.lane = n % 32 ∧ x.w = n / 32 ∧ x.priv = l.priv ∧ x.bud = l.r.bud ∧ x.n = l.r.n
                ∧ x.regs = [] ∧ x.preds = 0 ∧ x.lk = 0 ∧ x.flags = 0))
  ∧ (∀ s p serial i cl l, launchOf s p serial = some l → firstReady l (l.place.getD (i % l.r.l) 8) l.g 0 ≠ some i →
      exec (.dispatch p serial i cl) s = .next s)
  ∧ (∀ s p serial i cl l d, launchOf s p serial = some l → firstReady l (l.place.getD (i % l.r.l) 8) l.g 0 = some i →
      fencedDie s l (l.place.getD (i % l.r.l) 8) = some d →
      exec (.dispatch p serial i cl) s = .next
        (let u := postEvent s p (domeSrc p) 3 13 0 (BitVec.ofNat 64 serial) (BitVec.ofNat 64 i) (BitVec.ofNat 64 d)
         modLaunch { u with nextId := s.nextId + 1,
                            clusterGroups := Map.put s.clusterGroups s.nextId ⟨l.part, l.serial, i, cl, 0, [], 0, .compl, 0, []⟩ }
           l.part l.serial (fun m => setIdx i .placed { m with waits := Map.erase m.waits i })))
  ∧ (∀ s p serial i cl l, launchOf s p serial = some l →
      let die := l.place.getD (i % l.r.l) 8
      firstReady l die l.g 0 = some i → fencedDie s l die = none → cl / 16 = die → heldBack s l die = false →
      placeOn s (keptFor s l i) p cl l.r = none → hasRoom s l i die = false → l.cls ≠ 0 →
      exec (.dispatch p serial i cl) s = .next (modLaunch s l.part l.serial (fun m =>
        if (Map.get? m.waits i).isSome then m else { m with waits := Map.put m.waits i s.clock })))
  ∧ (∀ s kept p cl r cores, placeOn s kept p cl r = some cores → ∀ c ∈ cores, ∀ q ∈ c.2, kept c.1 q = false)
  ∧ (∀ s l i, absentWarp s l.part = none → ∀ core quad, keptFor s l i core quad = false)
  ∧ (∀ s l i k w c, absentWarp s l.part = some (k, w) → Map.get? s.coreGroups (w.cgu * 8 + w.k) = some c → slotLeft (partOf s l.part) = true →
      l.cls ≠ 0 ∨ i ≠ 0 → ∀ core quad, keptFor s l i core quad = makesRoom s l.part w c core quad)
  ∧ (∀ s cg g l u, Map.get? s.clusterGroups cg = some g → cgLaunch s cg = some l → g.st = .filling →
      (∀ e ∈ (partOf s g.part).agents, ∀ ck, e.1 = .fill ck → ck / 8 ≠ cg) →
      fillCores (fun core => ⟨g.part, some core, l.priv⟩) ((List.range 4).zip l.r.tiles) (s.coreGroups.filter (fun e => e.2.cgu == cg)) s = (none, u) →
      exec (.tileFillComplete cg) s = .next (startGroup u cg))
  ∧ (∀ s cg g l u ck f c h, Map.get? s.clusterGroups cg = some g → cgLaunch s cg = some l → g.st = .filling →
      (∀ e ∈ (partOf s g.part).agents, ∀ ck, e.1 = .fill ck → ck / 8 ≠ cg) →
      fillCores (fun core => ⟨g.part, some core, l.priv⟩) ((List.range 4).zip l.r.tiles) (s.coreGroups.filter (fun e => e.2.cgu == cg)) s = (some (ck, f), u) →
      f.waits = false → f.cause ≠ 1 → ck / 8 = cg → Map.get? u.coreGroups ck = some c → Map.get? u.clusterGroups cg = some h →
      exec (.tileFillComplete cg) s = .next
        (let v := freeGroup (postEvent u h.part (BitVec.ofNat 32 c.core) 3 f.cause f.reason (BitVec.ofNat 64 h.serial) (BitVec.ofNat 64 h.idx) f.arg0) cg
         { v with clusterGroups := Map.put v.clusterGroups cg { h with st := .compl } }))
  ∧ (∀ s cg, (∃ e ∈ s.parts, ∃ h ∈ e.2.held, h.thread / 32768 = cg) → exec (.clusterGroupCompletion cg) s = .next s)
  ∧ (∀ s cg g l, Map.get? s.clusterGroups cg = some g → cgLaunch s cg = some l → g.st = .compl → l.r.compl = 0 → CompletionFree s g.part cg →
      exec (.clusterGroupCompletion cg) s = exec (.clusterGroupCompletion cg) (setCgSt s cg .cbmp))
  ∧ (∀ s cg g l x u n, Map.get? s.clusterGroups cg = some g → cgLaunch s cg = some l → g.st = .compl → l.r.compl ≠ 0 → CompletionFree s g.part cg → l.r.compl.toNat % 32 = 0 →
      reach s ⟨g.part, none, l.priv⟩ l.r.compl .atomic = (.ok x, u) → locLock u x = none →
      objSignal (leNat (readLoc u x 32).1.bytes) 1 g.flags = some n →
      exec (.clusterGroupCompletion cg) s = exec (.clusterGroupCompletion cg)
        (setCgSt (pokeLoc (readLoc u x 32).2 x none (leBytes 32 n) (List.replicate 8 0) false).1 cg .cbmp))
  ∧ (∀ s cg g l, Map.get? s.clusterGroups cg = some g → cgLaunch s cg = some l → g.st = .cbmp → l.r.cbmp = 0 → CompletionFree s g.part cg →
      exec (.clusterGroupCompletion cg) s = .next (finishIndex s cg))
  ∧ (∀ s cg g l x u, Map.get? s.clusterGroups cg = some g → cgLaunch s cg = some l → g.st = .cbmp → l.r.cbmp ≠ 0 → CompletionFree s g.part cg →
      reach s ⟨g.part, none, l.priv⟩ (l.r.cbmp + BitVec.ofNat 64 (64 + g.idx / 8)) .atomic = (.ok x, u) → locLock u x = none →
      exec (.clusterGroupCompletion cg) s = .next (finishIndex (bitSet x g.idx u) cg))
  ∧ (∀ s cg g l, Map.get? s.clusterGroups cg = some g → launchOf s g.part g.serial = some l → l.r.cbmp = 0 →
      agentWaits s g.part (.done g.serial) = false → heldFor s g.part (.done g.serial) = false →
      let t := finishIndex s cg
      Map.get? t.clusterGroups cg = none ∧ (∀ e ∈ t.coreGroups, e.2.cgu ≠ cg) ∧ (∀ e ∈ t.threads, e.2.cgu ≠ cg)
      ∧ (∀ k x, getThread s k = some x → (∀ e ∈ s.threads, e.2.cgu ≠ cg) → getThread t k = some x)
      ∧ ∃ m, launchOf t g.part g.serial = some m ∧ idxSt m g.idx = .done
        ∧ (allDone m = true → m.closed = true ∧ (l.closed = false → m.published = true)))

/-! ## Pre-emption, migration, shadow chunks, errors, keys (R274, R298-R302, R317-R323, R345) -/

namespace Sys2Proof.Claims

/-- Registers, predicates, link, flags, budget and identity of a thread are as they were. -/
def sameValues (x y : Thread) : Prop :=
  y.regs = x.regs ∧ y.cregs = x.cregs ∧ y.preds = x.preds ∧ y.lk = x.lk ∧ y.flags = x.flags ∧ y.bud = x.bud
    ∧ y.cgu = x.cgu ∧ y.tid = x.tid ∧ y.lane = x.lane ∧ y.priv = x.priv ∧ y.frag = x.frag ∧ y.hand = x.hand

/-- A thread that is stopped, waits where R46 says it is not runnable, or is in handler state (R317). -/
def maySave (s : State) (t : Thread) : Bool := t.stop != .running || notRunnable s t || t.hand != .none

/-- A frame's 2 MiB lies within HBM4 or a window, below its shadow space (R300). -/
def frameMemory (s : State) (f : Nat) : Option (Nat × Nat × Nat) :=
  ((0, 2 ^ 40, 2 ^ 36) :: s.mem.windows.map (fun w => (w.2.base, w.2.size, w.2.size / 16))).find?
    (fun r => decide (r.1 ≤ f * 2 ^ 21 ∧ f * 2 ^ 21 + 2 ^ 21 ≤ r.1 + (r.2.1 - r.2.2)))

/-- SHADOW_STAT after a request: BUSY 0 and a result. -/
def shadowResult (p r : Nat) (s : State) : State := setPart s p (fun q => { q with shadowBusy := false, shadowRes := BitVec.ofNat 4 r })

/-- A line's page frame withdrawn, and KIND 5 to an owner (R322). -/
def lineLost (s : State) (line : Nat) (owner : Option Nat) : State :=
  let fr := lostFrame s line
  let u := { s with mem := { s.mem with withdrawn := if fr ∈ s.mem.withdrawn then s.mem.withdrawn else fr :: s.mem.withdrawn } }
  match owner with
  | some p => postEvent u p (domeSrc p) 5 14 3 (BitVec.ofNat 64 (line * 128)) 3 0
  | none => u

/-- A partition's migration ends with no write held. -/
def migEnds (s : State) (p : Nat) (st : MigSt) (err : BitVec 4) : State :=
  setPart s p (fun q => { q with migSt := st, migErr := err, held := [] })

/-- Held stores land in arrival order in one copy of the page, each with its flags (R65, R134, R298). -/
def heldLand (p : Nat) (toDst : Bool) (s : State) (h : Held) : State :=
  match h.op with
  | .store l bs narrow fl =>
    let r := pokeLoc s (movedLoc s p toDst h.loc) none l bs narrow
    modThread r.1 h.thread (fun t => { t with flags := t.flags ||| (fl ||| if r.2 then 0x20 else 0) })
  | _ => s

/-- A lane's store, and not an agent's write, whose translation stands. -/
def isStore (h : Held) : Bool := h.next.isNone && h.due == .land && (match h.op with | .store _ _ _ _ => true | _ => false)

/-- A partition's held writes are stores that no other lock and no withdrawn frame concerns, and no agent waits for the lock. -/
def OnlyStores (s : State) (p : Nat) : Prop :=
  (partOf s p).held.all isStore = true ∧ (∀ e ∈ s.parts, e.1 ≠ p → e.2.migSt ≠ .copying ∧ e.2.migSt ≠ .ready ∧ e.2.migSt ≠ .landing)
    ∧ (∀ a, withdrawn s.mem a = false) ∧ ∀ e ∈ s.parts, ∀ a ∈ e.2.agents, a.2.waits = false

/-- The window of a warp's request has lasted PREEMPT_WIN ns, at 1.25 clocks a ns (R171, R317). -/
def WindowEnded (s : State) (w : Warp) : Prop :=
  (partOf s (cgPart s w.cgu)).preemptWin.toNat * 5 ≤ (s.clock - w.preqAt).toNat * 4

/-- A cached leaf maps the frame that holds a line. -/
def leafOf (line : Nat) (e : TlbE) : Prop := ptePa e.pte ≤ line * 128 ∧ line * 128 < ptePa e.pte + e.size

/-- The threads of a cluster group stand in warps of it. -/
def WarpsNamed (s : State) (cg : Nat) : Prop :=
  ∀ e ∈ s.threads, e.2.cgu = cg → ∃ w, Map.get? s.warps (warpKeyOf e.2) = some w ∧ w.cgu = cg

end Sys2Proof.Claims

/-- R286, R317-R320: a window's end, PREEMPT_WIN ns after the request, stops every thread of the warp, a save takes the warp
whose threads have stopped, with its registers and an image in free slots, once the dies have given up their lines (R344), and a
restore lets it run on, or asks one victim for its place. An image's bytes and the number of its slots (log 54), what a restore
by record finds in registers that no record names (log 55) and where a warp is restored (log 56) are the model's choices. -/
def Obligations.PreemptionResults : Prop :=
  (∀ s wk w, Map.get? s.warps wk = some w → w.preq ≠ none → w.saved = false → WindowEnded s w →
      ∃ t, exec (.preemptWindowExpiry wk) s = .next t
        ∧ (∀ e ∈ t.threads, warpKeyOf e.2 = wk → e.2.stop ≠ .running)
        ∧ (∃ v, Map.get? t.warps wk = some v ∧ v.preq = some true)
        ∧ ∀ k x, getThread s k = some x → ∃ y, getThread t k = some y ∧ (x.stop ≠ .running → y.stop = x.stop)
            ∧ (s.warps.all (fun w => w.2.gen.isNone) = true → sameValues x y))
  ∧ (∀ s wk, (∀ w, Map.get? s.warps wk = some w → w.preq = none ∨ w.saved = true) → exec (.preemptWindowExpiry wk) s = .next s)
  ∧ (∀ s wk w, Map.get? s.warps wk = some w → ¬ WindowEnded s w → exec (.preemptWindowExpiry wk) s = .next s)
  ∧ (∀ s wk w i, Map.get? s.warps wk = some w → w.preq ≠ none → w.saved = false → warpThreads s wk ≠ [] →
      (warpThreads s wk).all (fun e => maySave s e.2) = true → s.warps.all (fun w => w.2.gen.isNone) = true →
      NoMigration s → warpHeld s wk = false → (∀ a n, rangeSilent s none a n true = none) →
      (∀ i u, pickSlot (stopStanding s wk) (partOf (stopStanding s wk) (cgPart s w.cgu)) (1 + (Config.extraSlots s.fresh).toNat) = some (i, u) →
        ∃ rs v, saveThreads (warpThreads u wk) u = (.ok rs, v)) →
      slotsFree (partOf s (cgPart s w.cgu)) i (1 + (Config.extraSlots s.fresh).toNat) = true →
      ∃ t v m, exec (.warpSave wk) s = .next t ∧ Map.get? t.warps wk = some v ∧ v.saved = true ∧ v.preq = none
        ∧ (partOf t (cgPart s w.cgu)).images = (partOf s (cgPart s w.cgu)).images ++ [m] ∧ m.warp = wk
        ∧ slotsFree (partOf s (cgPart s w.cgu)) m.first m.count = true
        ∧ ((∀ e ∈ warpThreads s wk, ∀ r, e.2.stop ≠ .byRecord r) → ∀ k x, getThread s k = some x → ∃ y, getThread t k = some y ∧
            ((∀ e ∈ s.groups, ∀ z ∈ e.2.waits, ∀ d, z.2 ≠ .save wk d) → sameValues x y)))
  ∧ (∀ s wk w i u d, Map.get? s.warps wk = some w → w.preq ≠ none → w.saved = false → warpThreads s wk ≠ [] →
      (warpThreads s wk).all (fun e => e.2.stop != .running) = true → NoMigration s → warpHeld s wk = false →
      let n := 1 + (Config.extraSlots s.fresh).toNat
      pickSlot s (partOf s (cgPart s w.cgu)) n = some (i, u) →
      rangeSilent s none ((partOf s (cgPart s w.cgu)).saveBase.toNat + 2 ^ 17 * i) (2 ^ 17 * n) true = some d →
      exec (.warpSave wk) s = .next (wakeDie s d))
  ∧ (∀ s wk, warpHeld s wk = true → (∀ w, Map.get? s.warps wk = some w → w.preq ≠ none ∧ w.saved = false) → warpThreads s wk ≠ [] →
      (warpThreads s wk).all (fun e => e.2.stop != .running) = true → exec (.warpSave wk) s = .next s)
  ∧ (∀ s p wk w c r q, Map.get? s.coreGroups (w.cgu * 8 + w.k) = some c → recOf s w.cgu = some r → c.saved = false →
      Map.get? s.quadGroups ((w.cgu * 8 + w.k) * 4 + w.j) = some q →
      placeWarp s p wk w = if keptRoom s p (some wk) c.core q.quad then none
        else (slotFor s c.core q.quad w.slot r.alloc).map (fun n => modWarp s wk (fun w => { w with slot := n })))
  ∧ (∀ s p i wk w, imageAt s p i = some wk → Map.get? s.warps wk = some w → placeWarp s p wk w = none → mustReturn s p wk = false →
      exec (.warpRestore p i) s = .next s)
  ∧ (∀ s p i wk w c t0, imageAt s p i = some wk → Map.get? s.warps wk = some w → placeWarp s p wk w = none → mustReturn s p wk = true →
      Map.get? s.coreGroups (w.cgu * 8 + w.k) = some c → lowestOf (warpThreads s wk) = some t0 →
      (makingRoom s p (makesRoom s p w c) = true → exec (.warpRestore p i) s = .next s)
      ∧ ∀ v, makingRoom s p (makesRoom s p w c) = false → victimFor s p t0 (makesRoom s p w c) = some v →
          exec (.warpRestore p i) s = .next (requestSave s v))
  ∧ (∀ s p i wk w u, imageAt s p i = some wk → Map.get? s.warps wk = some w → placeWarp s p wk w = some u →
      ∃ t v, exec (.warpRestore p i) s = .next t ∧ Map.get? t.warps wk = some v ∧ v.saved = false ∧ v.preq = none ∧ v.since = s.clock
        ∧ (∀ m ∈ (partOf t p).images, m.warp ≠ wk) ∧ (∀ e ∈ t.threads, warpKeyOf e.2 = wk → e.2.stop = .running))
  ∧ (∀ s p i, imageAt s p i = none → exec (.warpRestore p i) s = .next s)

/-- R134, R298, R299, R301, Table 17-7: the migration's states, the dies that give up lines first (R344) and the combining
entries that it closes (R342), what its copy leaves at the destination, held writes, and the attaching and detaching of a
frame's chunk. What a held write meets at the switch (log 43), the latching at GO (log 44), ARG0 of KIND 5 (log 50), the order
of the ERR checks (log 81) and 0 for a trackable frame without a chunk (log 106) are the model's choices. -/
def Obligations.MigrationResults : Prop :=
  (∀ s p, (partOf s p).migSt ≠ .copying → (partOf s p).migSt ≠ .ready →
      let q := partOf s p
      let n := migBytes q.migSize.toNat
      let a := migPa q.migSrc
      let b := migPa q.migDst
      let fails (e : Nat) : Prop := exec (.migGo p) s = .next (setPart s p (fun q => { q with migSt := .error, migErr := BitVec.ofNat 4 e }))
      (q.migSize = 7 → fails 6)
      ∧ (q.migSize ≠ 7 → a % n ≠ 0 ∨ b % n ≠ 0 → fails 1)
      ∧ (q.migSize ≠ 7 → a % n = 0 → b % n = 0 → a = b → fails 2)
      ∧ (q.migSize ≠ 7 → a % n = 0 → b % n = 0 → a ≠ b → inOneMemory s.mem a n = false ∨ inOneMemory s.mem b n = false → fails 3)
      ∧ (q.migSize ≠ 7 → a % n = 0 → b % n = 0 → a ≠ b → inOneMemory s.mem a n = true → inOneMemory s.mem b n = true →
          (∃ o < n, o % 2 ^ 21 = 0 ∧ hasChunk s.mem (a + o) = true ∧ hasChunk s.mem (b + o) = false) → fails 5)
      ∧ (q.migSize ≠ 7 → a % n = 0 → b % n = 0 → a ≠ b → inOneMemory s.mem a n = true → inOneMemory s.mem b n = true →
          (∀ o < n, o % 2 ^ 21 = 0 → hasChunk s.mem (a + o) = true → hasChunk s.mem (b + o) = true) →
          let r := { q with migSt := .copying, migErr := 0, runSrc := q.migSrc, runDst := q.migDst, runSize := q.migSize }
          exec (.migGo p) s = .next (closeCombs (migClean (setPart s p (fun _ => r)) r) r)))
  ∧ (∀ s q, let n := migBytes q.runSize.toNat
      (migSilent s q false = none → migClean s q = cleanPhys (cleanPhys s none (migPa q.runSrc) n) none (migPa q.runDst) n)
      ∧ ∀ d, migSilent s q false = some d → migClean s q = wakeDie s d)
  ∧ (∀ s q, ∀ e ∈ (closeCombs s q).pkg.combs, inRun q (e.line * 128) = true → e.open_ = false)
  ∧ (∀ s p, (partOf s p).migSt = .copying ∨ (partOf s p).migSt = .ready → exec (.migGo p) s = .next s)
  ∧ (∀ s p d, (partOf s p).migSt = .copying → migSilent s (partOf s p) true = some d → exec (.migCopyDone p) s = .next (wakeDie s d))
  ∧ (∀ s p, (partOf s p).migSt = .copying → migSilent s (partOf s p) true = none →
      let q := partOf s p
      let n := migBytes q.runSize.toNat
      ∃ t, exec (.migCopyDone p) s = .next t ∧ (partOf t p).migSt = .ready ∧ t.threads = s.threads ∧ t.groups = s.groups
        ∧ (∀ c ∈ t.coreGroups, ∀ l ∈ c.2.slines, meets (l.2.line * 128) 128 (migPa q.runDst) n = false)
        ∧ (migPa q.runSrc % 4096 = 0 → migPa q.runDst % 4096 = 0 → migPa q.runDst + n ≤ migPa q.runSrc ∨ migPa q.runSrc + n ≤ migPa q.runDst →
            migPa q.runDst + n ≤ Config.hostBase → s.mem.partials = [] → MemOk s →
            ∀ o < n, viewByte t.mem (migPa q.runDst + o) (migKey q.runDst) = viewByte s.mem (migPa q.runSrc + o) (migKey q.runSrc)))
  ∧ (∀ s p, (partOf s p).migSt ≠ .copying → exec (.migCopyDone p) s = .next s)
  ∧ (∀ s p, (partOf s p).migSt = .ready → OnlyStores s p →
      exec (.migSwitch p) s = .next ((partOf s p).held.foldl (heldLand p true) (migEnds (closeCombs s (partOf s p)) p .done 0)))
  ∧ (∀ s p, (partOf s p).migSt ≠ .ready → exec (.migSwitch p) s = .next s)
  ∧ (∀ s p, (partOf s p).migSt = .ready ∨ (partOf s p).migSt = .copying → OnlyStores s p →
      exec (.migAbort p) s = .next ((partOf s p).held.foldl (heldLand p false) (migEnds (closeCombs s (partOf s p)) p .idle 0)))
  ∧ (∀ s p, (partOf s p).migSt ≠ .ready → (partOf s p).migSt ≠ .copying → exec (.migAbort p) s = .next s)
  ∧ (∀ s p line, (partOf s p).migSt = .copying → (partOf s p).held = [] → (∀ e ∈ s.parts, ∀ a ∈ e.2.agents, a.2.waits = false) →
      migPa (partOf s p).runSrc ≤ line * 128 → line * 128 < migPa (partOf s p).runSrc + migBytes (partOf s p).runSize.toNat →
      exec (.migrationSourceLineError p line) s = .next (lineLost (migEnds (closeCombs s (partOf s p)) p .error 4) line
        (Map.get KeySlot.empty s.mem.keys (migKey (partOf s p).runSrc)).owner))
  ∧ (∀ s p, (partOf s p).shadowBusy = true → (partOf s p).shadowReq.toNat % 4 = 1 →
      let f := (partOf s p).shadowReq.toNat / 2 ^ 21 % 2 ^ 31
      (frameMemory s f = none → exec (.shadowAttach p) s = .next (shadowResult p 2 s))
      ∧ (∀ m o, frameMemory s f = some m → Map.get? s.mem.chunks f = some o →
          exec (.shadowAttach p) s = .next (shadowResult p (if o = p then 0 else 3) s))
      ∧ (∀ m, frameMemory s f = some m → Map.get? s.mem.chunks f = none →
          let used := s.mem.chunks.countP (fun e => decide (m.1 ≤ e.1 * 2 ^ 21 ∧ e.1 * 2 ^ 21 < m.1 + m.2.1))
          (m.2.2 / 2 ^ 18 ≤ used → exec (.shadowAttach p) s = .next (shadowResult p 1 s))
          ∧ (used < m.2.2 / 2 ^ 18 → exec (.shadowAttach p) s = .next (shadowResult p 0 { s with mem := { s.mem with
              chunks := Map.put s.mem.chunks f p, recs := s.mem.recs.filter (fun e => e.1 / 16384 != f),
              recCipher := s.mem.recCipher.filter (fun e => e.1 / 16384 != f) } }))))
  ∧ (∀ s p, (partOf s p).shadowBusy = true → (partOf s p).shadowReq.toNat % 4 = 2 →
      let f := (partOf s p).shadowReq.toNat / 2 ^ 21 % 2 ^ 31
      (Map.get? s.mem.chunks f = none → exec (.shadowDetach p) s = .next (shadowResult p (if frameMemory s f = none then 2 else 0) s))
      ∧ (∀ o, Map.get? s.mem.chunks f = some o → o ≠ p → exec (.shadowDetach p) s = .next (shadowResult p 3 s))
      ∧ (Map.get? s.mem.chunks f = some p → exec (.shadowDetach p) s = .next (shadowResult p 0 { s with mem := { s.mem with
          chunks := Map.erase s.mem.chunks f, recs := s.mem.recs.filter (fun e => e.1 / 16384 != f),
          recCipher := s.mem.recCipher.filter (fun e => e.1 / 16384 != f) } })))

/-- R274, R302, R321-R323, R345, R347, R351: lost lines and the frame withdrawn, in which no page translates any more, storage
cells with an error, fenced units and the cluster groups that a fenced cluster discards, the clusters of a partition with a
regulator of its own, and key slots. The frame of a line that no cached leaf maps, ARG0 of KIND 5 and the partitions that KIND 6
of a port or link goes to are the model's choice (log 50), as are slot 0 of an assignment (log 90), that no partition changes in
minimal mode (R362, log 122) and what an unpowered cluster keeps (log 58). What fencing (log 57) and a key change (log 59) do at
once are the model's readings. -/
def Obligations.ErrorsAndFencing : Prop :=
  (∀ s line, lineDirty s line = true ∨ inPool s.mem (line * 128) = true →
      exec (.uncorrectableLineError (.line line)) s = .next (lineLost s line (lineOwner s line)))
  ∧ (∀ s line, lineDirty s line = false → inPool s.mem (line * 128) = false → exec (.uncorrectableLineError (.line line)) s = .next s)
  ∧ (∀ s line e, e ∈ s.mem.tlb → leafOf line e → 4096 ≤ e.size → (∀ x ∈ s.mem.tlb, leafOf line x → x ≠ e → x.size < e.size) →
      lostFrame s line = (ptePa e.pte, e.size))
  ∧ (∀ s line, (∀ e ∈ s.mem.tlb, ¬leafOf line e) → lostFrame s line = (line * 128 / 4096 * 4096, 4096))
  ∧ (∀ s w va k l u, translateLeaf s w va k = (.ok l, u) → (∃ f ∈ u.mem.withdrawn, f.1 < ptePa l.pte + l.size ∧ ptePa l.pte < f.1 + f.2) →
      translate s w va k = (.error ⟨14, 3, BitVec.ofNat 64 (ptePa l.pte + (va.toNat - l.base)), 0⟩, u))
  ∧ (∀ s k n t, getThread s k = some t → n < 512 → ∃ u v, exec (.uncorrectableLineError (.register k n)) s = .next u
      ∧ getThread u k = some v ∧ ∀ i, i ∈ v.bad ↔ i = n ∨ i ∈ t.bad)
  ∧ (∀ s k n w, Map.get? s.warps k = some w → n < 256 → ∃ u v, exec (.uncorrectableLineError (.row k n)) s = .next u
      ∧ Map.get? u.warps k = some v ∧ ∀ i, i ∈ v.badRows ↔ i = n ∨ i ∈ w.badRows)
  ∧ (∀ s qk q n x e, getQueue s qk q = some x → x.entries[n]? = some e → ∃ u y, exec (.uncorrectableLineError (.entry qk q n)) s = .next u
      ∧ getQueue u qk q = some y ∧ y.entries[n]? = some { e with bad := true })
  ∧ (∀ s ck w c, Map.get? s.coreGroups ck = some c → 4 * w < scratchSize s (ck / 8) → ∃ u d,
      exec (.uncorrectableLineError (.scratch ck w)) s = .next u ∧ Map.get? u.coreGroups ck = some d ∧ ∀ i, i ∈ d.badWords ↔ i = w ∨ i ∈ c.badWords)
  ∧ (∀ s ck i c l, Map.get? s.coreGroups ck = some c → Map.get? c.slines i = some l → ∃ u d,
      exec (.uncorrectableLineError (.stash ck i)) s = .next u ∧ Map.get? u.coreGroups ck = some d ∧ Map.get? d.slines i = some { l with bad := true })
  ∧ (∀ s c, c < 128 → ∃ t, exec (.functionFence c) s = .next t ∧ (islandOf t c).fenced = true ∧ t.mem.withdrawn = s.mem.withdrawn
      ∧ (∀ p < 4, (partOf s p).clumask.getLsbD c = true → (∀ q < p, (partOf s q).clumask.getLsbD c = false) →
          ∃ r, (partOf t p).events = (partOf s p).events ++ ⟨eventWord (domeSrc p) 0 0 6, BitVec.ofNat 64 c, 0, 0, false⟩ :: r)
      ∧ ((∀ e ∈ s.coreGroups, e.2.core / 4 ≠ c) → t.threads = s.threads)
      ∧ ∀ cg g, cg ∈ groupsOn s c → Map.get? s.clusterGroups cg = some g → WarpsNamed s cg → ∀ e ∈ t.threads, e.2.cgu ≠ cg)
  ∧ (∀ s d, d < 8 → ∃ t, exec (.functionFence (0x100 + d)) s = .next t ∧ (dieOf t d).fenced = true
      ∧ ∀ c < 128, c / 16 = d → (islandOf t c).fenced = true)
  ∧ (∀ s x, x < 8 → ∃ t, exec (.functionFence (0x200 + x)) s = .next t ∧ (∀ a, a / 1024 % 8 = x → withdrawn t.mem a = true)
      ∧ ∀ p < 4, ∃ r, (partOf t p).events = (partOf s p).events ++ ⟨eventWord (domeSrc p) 0 0 6, BitVec.ofNat 64 (0x200 + x), 0, 0, false⟩ :: r)
  ∧ (∀ s l, l < 12 → ∃ t, exec (.functionFence (0x300 + l)) s = .next t ∧ linkOf t l = ((linkOf s l).1, true, (linkOf s l).2.2) ∧ t.mem = s.mem)
  ∧ (∀ s u, (128 ≤ u ∧ u < 0x100) ∨ (0x108 ≤ u ∧ u < 0x200) ∨ (0x208 ≤ u ∧ u < 0x300) ∨ 0x30C ≤ u → exec (.functionFence u) s = .next s)
  ∧ (∀ s d, d < 8 → (dieOf s d).fenced = false → ∃ t, exec (.dieUnresponsive d) s = .next t ∧ (dieOf t d).fenced = true
      ∧ (dieOf t d).waking = false ∧ ∀ e ∈ t.coreGroups, e.2.core / 64 = d → e.2.slines = [])
  ∧ (∀ s d, 8 ≤ d ∨ (dieOf s d).fenced = true → exec (.dieUnresponsive d) s = .next s)
  ∧ (∀ s p mask, (4 ≤ p ∨ s.boot.mode = 3 ∨ ∃ q < 4, q ≠ p ∧ (partOf s q).clumask &&& mask ≠ 0) → exec (.partitionChange p mask) s = .next s)
  ∧ (∀ s p mask, p < 4 → s.boot.mode ≠ 3 → (∀ q < 4, q ≠ p → (partOf s q).clumask &&& mask = 0) → (partOf s p).clumask ≠ 0 ∨ mask = 0 → (partOf s p).clumask &&& ~~~mask = 0 →
      (∀ c < 128, ((partOf s p).clumask ^^^ mask).getLsbD c = true → (islandOf s c).decline = none) →
      exec (.partitionChange p mask) s = .next (settleVolts (setPart s p (fun q => { q with clumask := mask }))))
  ∧ (∀ s p mask c k t, c < 128 → ((partOf s p).clumask &&& ~~~mask).getLsbD c = true → getThread s k = some t → threadPart s t = p →
      coreOf s t / 4 = c → exec (.partitionChange p mask) s = .next s)
  ∧ (∀ s p mask c, c < 128 → ((partOf s p).clumask ^^^ mask).getLsbD c = true → (islandOf s c).decline ≠ none →
      exec (.partitionChange p mask) s = .next s)
  ∧ (∀ s p mask, p < 4 → s.boot.mode ≠ 3 → (∀ q < 4, q ≠ p → (partOf s q).clumask &&& mask = 0) → (partOf s p).clumask = 0 → mask ≠ 0 →
      (∀ c < 128, mask.getLsbD c = true → (islandOf s c).decline = none) → createAsks s p = none →
      ∃ t, exec (.partitionChange p mask) s = .next t ∧ (partOf t p).clumask = mask
        ∧ t.threads = s.threads ∧ ((∀ e ∈ s.mem.keys, e.2.owner ≠ some p) → t.mem = s.mem)
        ∧ (∀ k, firstKey s p = some k → (Map.get KeySlot.empty t.mem.keys k).loaded = true)
        ∧ (∀ q < 4, q ≠ p → (partOf s q).clumask ≠ 0 → (partOf t p).regulator ≠ (partOf s q).regulator)
        ∧ ∀ n < 16, (lqOf t p n).cfg &&& 0xFFFFFDFF = (lqOf s p n).cfg &&& 0xFFFFFDFF)
  ∧ (∀ s p mask d, p < 4 → s.boot.mode ≠ 3 → (∀ q < 4, q ≠ p → (partOf s q).clumask &&& mask = 0) → (partOf s p).clumask = 0 → mask ≠ 0 →
      (∀ c < 128, mask.getLsbD c = true → (islandOf s c).decline = none) → createAsks s p = some d →
      exec (.partitionChange p mask) s = .next (wakeDie s d))
  ∧ (∀ s k op, 2048 ≤ k → exec (.keySlotChange k op) s = .next s)
  ∧ (∀ s k d, k < 2048 → keySilent s k = some d → exec (.keySlotChange k .load) s = .next (wakeDie s d)
      ∧ exec (.keySlotChange k .empty) s = .next (wakeDie s d))
  ∧ (∀ s k p, k < 2048 → p < 4 → exec (.keySlotChange k (.assign p)) s = .next { s with mem := { s.mem with
      keys := Map.putD KeySlot.empty s.mem.keys k { Map.get KeySlot.empty s.mem.keys k with owner := some p } } })
  ∧ (∀ s k, k < 2048 → keySilent s k = none → ∃ t, exec (.keySlotChange k .load) s = .next t ∧ t.threads = s.threads ∧ t.parts = s.parts
      ∧ Map.get KeySlot.empty t.mem.keys k = ⟨true, (Map.get KeySlot.empty s.mem.keys k).owner⟩ ∧ ∀ e ∈ t.mem.keyOf, e.2 ≠ k)
  ∧ (∀ s k p, 4 ≤ p → exec (.keySlotChange k (.assign p)) s = .next s)
  ∧ (∀ s k, k < 2048 → keySilent s k = none → (∀ e ∈ s.parts, ∀ h ∈ e.2.held, underKey k h = false) → ∃ t, exec (.keySlotChange k .empty) s = .next t ∧ t.threads = s.threads ∧ t.parts = s.parts
      ∧ Map.get KeySlot.empty t.mem.keys k = KeySlot.empty
      ∧ ∀ line, Map.get? s.mem.keyOf line = some k → Map.get? t.mem.dirty line = none)

/-! ## The package, the host port and start-up (R135, R339-R365) -/

namespace Sys2Proof.Claims

/-- Table 21-4: a point's voltage in mV. -/
def mV (p : BitVec 3) : Nat := match p.toNat with
  | 0 => 650 | 1 => 680 | 2 => 710 | 3 => 740 | 4 => 770 | 5 => 800 | 6 => 840 | _ => 880

/-- A request in the steady state: none at the current point, a ramp up to a higher one, a lower one at once (R346). -/
def steady (q : BitVec 3) (x : Island) : Island :=
  if q = x.cur then x else if mV x.cur < mV q then { x with ramp := some (q, true) } else { x with cur := q, ramp := some (q, false) }

/-- A request by the state of the island (Table 21-5). -/
def requested (q : BitVec 3) (x : Island) : Island :=
  match x.ramp with
  | none => steady q x
  | some (r, up) => if up = true ∧ mV r < mV q then { x with ramp := some (q, true), pend := none } else { x with pend := some q }

def inPkg (s : State) (f : Package → Package) : State := { s with pkg := f s.pkg }
def inBoot (s : State) (f : Boot → Boot) : State := { s with boot := f s.boot }
/-- A reply in the DOE mailbox. -/
def replies (s : State) (r : Reply) : State := { s with boot := { s.boot with doe := r } }
def inHost (s : State) (f : HostPort → HostPort) : State := { s with host := f s.host }

/-- The partition that owns a cluster: the lowest whose mask has it. -/
def owns (s : State) (p c : Nat) : Prop := p < 4 ∧ (partOf s p).clumask.getLsbD c = true ∧ ∀ q < p, (partOf s q).clumask.getLsbD c = false

/-- The image header, its signature and its security version (R361): the REASON, or the version. -/
def imageVerdict (img : List Byte) : Except Nat (BitVec 16) :=
  match Config.imageHeader img with
  | none => .error 3
  | some (n, v) => if img.length < n then .error 3 else if Config.signatureValid img = false then .error 1
    else if v < Config.minSvn then .error 2 else .ok v

/-- A failed start (R361), whose cause minimal mode is to show (R362). -/
def failedStart (reason : Byte) (b : Boot) : Boot :=
  { b with mode := 0, reason := reason, cause := reason, fails := BitVec.ofNat 2 (min 3 (b.fails.toNat + 1)) }

/-- The address and key by which the record port reaches REC_ADDR's line: while its page migrates a read is served from the source
copy (R299). -/
def recPlace (s : State) (write : Bool) : Nat × Nat :=
  let l : Loc := .phys (s.host.recAddr.toNat / 128 * 128) s.host.hostKey true
  match (if write then l else readLocOf s l) with
  | .phys a k _ => (a, k)
  | .scr _ o => (o, 0)

/-- Why the record port refuses (R356): reserved bits of a write, no record, another key. -/
def recVerdict (s : State) (write : Bool) : BitVec 2 :=
  let (a, k) := recPlace s write
  if write = true ∧ s.host.recData1.toNat / 2 ^ 40 ≠ 0 then 3
  else if hasChunk s.mem a = false then 1
  else if Map.get? s.mem.keyOf (a / 128) = none ∨ Map.get? s.mem.keyOf (a / 128) = some k then 0
  else 2

/-- A command of the record port is made at once: no earlier write of the host waits, and no die must give up the record's line. -/
def RecOpen (s : State) (write : Bool) : Prop := hostPending s = false ∧ silentDie s none (s.host.recAddr.toNat / 128) write = none

/-- A snoop from outside is answered at once: none of its line is held, and no die must answer first (R344, R354). -/
def SnoopOpen (s : State) (h : HeldSnoop) : Prop := s.host.snoops.any (fun x => x.line == h.line) = false ∧ snoopSilent s h = none

/-- No migration lock is held, and no held write is landing. -/
def unlocked (s : State) : Bool := s.parts.all (fun e => e.2.migSt != .copying && e.2.migSt != .ready && e.2.migSt != .landing)

/-- The slots from a ring's HEAD to a tail, in ring order. -/
def slotsTo (r : EwRing) (v : Nat) : List Nat :=
  let n := 2 ^ (r.cfg.toNat % 16)
  (List.range ((v + n - r.head.toNat) % n)).map (fun i => (r.head.toNat + i) % n)

/-- The copy in flight of a ring's slot. -/
def inFlight (s : State) (p slot : Nat) (c : CopyDesc) : Prop := (ringOf s p).flight.find? (fun e => e.1 == slot) = some (slot, c)

end Sys2Proof.Claims

/-- R341-R352, Tables 21-4 to 21-7: counters, links, throttling, operating points and voltages, canaries, the slope
controller and energy. A throttle or a slope tick touches no thread, memory or partition; a snoop that crosses a write-back
leaves no copy and no partial of the line. That SNOOP_SLOW finds a sleeping link waking is the model's choice (log 57), as are
the voltage of an unowned cluster (log 58) and what the free events of the package do (log 67). -/
def Obligations.PackageResults : Prop :=
  (∀ s sl line, let closing := s.pkg.combs.find? (fun e => e.slice == sl && e.line == line && decide (64 ≤ (s.clock - e.since).toNat))
      (closing = none → exec (.combiningClose sl line) s = .next s)
      ∧ ∀ e, closing = some e → exec (.combiningClose sl line) s = .next (inPkg s (fun k =>
          { k with combs := k.combs.erase e, combCnt := k.combCnt + BitVec.ofNat 64 (e.joined.length - 1) })))
  ∧ (∀ s line inv, lineDirty s line = true → ∃ t, exec (.snoopWritebackCrossing line inv) s = .next t
      ∧ t.pkg.crossCnt = s.pkg.crossCnt + 1 ∧ (∀ p ∈ t.mem.partials, lineOf p.pa ≠ line)
      ∧ (∀ c ∈ t.coreGroups, ∀ l ∈ c.2.slines, l.2.line ≠ line) ∧ (∀ e ∈ t.mem.l1, l1Line e.1 ≠ line)
      ∧ Map.get? t.mem.dirty line = none ∧ t.threads = s.threads)
  ∧ (∀ s line inv, lineDirty s line = false → exec (.snoopWritebackCrossing line inv) s = .next s)
  ∧ (∀ s d, d < 8 → (dieOf s d).fenced = false → exec (.linkSleep d) s = .next (setDie s d (fun x => { x with asleep := true }))
      ∧ exec (.snoopSlow d) s = .next (setDie s d (fun x => { x with slow := true, waking := x.asleep })))
  ∧ (∀ s d, d < 8 → (dieOf s d).asleep = true →
      ((dieOf s d).waking = true → exec (.linkWakeDone d) s = .next (wakeWaiters (setDie s d (fun x =>
        { x with asleep := false, waking := false, slow := false, lwake := BitVec.ofNat 24 (min (2 ^ 24 - 1) (x.lwake.toNat + 1)) }))))
      ∧ ((dieOf s d).waking = false → exec (.linkWakeDone d) s = .next (wakeWaiters (setDie s d (fun x => { x with asleep := false })))))
  ∧ (∀ s d, (dieOf s d).asleep = false → exec (.linkWakeDone d) s = .next s)
  ∧ (∀ s, (∀ e ∈ s.parts, ∀ a ∈ (partOf s e.1).agents, a.2.waits = false) → wakeWaiters s = s)
  ∧ (∀ s d, 8 ≤ d → exec (.linkSleep d) s = .next s ∧ exec (.snoopSlow d) s = .next s ∧ exec (.linkWakeDone d) s = .next s)
  ∧ (∀ s x cur, x < 16 → ∃ t, exec (.sectorThrottle x cur) s = .next t ∧ (Map.get Sector.reset t.pkg.sectors x).cur = cur
      ∧ (s.pkg.congCfg.toNat % 256 ≤ cur.toNat → (Map.get Sector.reset t.pkg.sectors x).throttled = true)
      ∧ (cur.toNat < s.pkg.congCfg.toNat % 256 → cur.toNat ≤ s.pkg.congCfg.toNat / 256 % 256 → (Map.get Sector.reset t.pkg.sectors x).throttled = false)
      ∧ (cur.toNat < s.pkg.congCfg.toNat % 256 → s.pkg.congCfg.toNat / 256 % 256 < cur.toNat →
          (Map.get Sector.reset t.pkg.sectors x).throttled = (Map.get Sector.reset s.pkg.sectors x).throttled)
      ∧ t.threads = s.threads ∧ t.mem = s.mem ∧ t.parts = s.parts)
  ∧ (∀ s c (v : Word), s.boot.mode ≠ 3 → c < 128 → v.toNat < 8 → hostPending s = false →
      exec (.cluReqWrite c v .physical) s = .next (setIsland s c (fun x => { requested (v.setWidth 3) x with req := v.setWidth 3 }))
      ∧ (∀ p < 4, (partOf s p).clumask.getLsbD c = true → exec (.cluReqWrite c v (.virtual p)) s = exec (.cluReqWrite c v .physical) s)
      ∧ (∀ p, (partOf s p).clumask.getLsbD c = false → exec (.cluReqWrite c v (.virtual p)) s = .next s))
  ∧ (∀ s c (v : Word) view, 128 ≤ c ∨ s.boot.mode = 3 ∨ (8 ≤ v.toNat ∧ hostPending s = false) → exec (.cluReqWrite c v view) s = .next s)
  ∧ (∀ s c (v : Word), s.boot.mode ≠ 3 → c < 128 → hostPending s = true →
      exec (.cluReqWrite c v .physical) s = .next (hostPost (BitVec.ofNat 64 (pfWindow + 0x10800 + 8 * c)) (leBytes 4 v.toNat) s)
      ∧ ∀ p < 4, exec (.cluReqWrite c v (.virtual p)) s = .next (hostPost (BitVec.ofNat 64 (vfWindow p + 0x800 + 8 * c)) (leBytes 4 v.toNat) s))
  ∧ (∀ s c, c < 128 → exec (.rampEnd c) s = .next (settleVolts (setIsland s c (fun x => match x.ramp with
      | none => x
      | some (r, _) =>
        let y := { x with cur := r, ramp := none, pend := none }
        match x.pend with
        | none => y
        | some q => steady q y))))
  ∧ (∀ s c, c < 128 → exec (.canaryWarning c) s = .next (settleVolts (setIsland s c (fun x =>
      let y := { x with cancnt := BitVec.ofNat 12 (min 4095 (x.cancnt.toNat + 1)) }
      if x.canofs < 6 then { y with canofs := x.canofs + 1 } else if x.cur = 0 then y else requested (x.cur - 1) y))))
  ∧ (∀ s c, c < 128 → exec (.canofsDecay c) s = .next (settleVolts (setIsland s c (fun x =>
      if x.canofs = 0 then x else { x with canofs := x.canofs - 1 }))))
  ∧ (∀ s c, 128 ≤ c → exec (.rampEnd c) s = .next s ∧ exec (.canaryWarning c) s = .next s ∧ exec (.canofsDecay c) s = .next s)
  ∧ (∀ s c, c < 128 →
      ((∀ p < 4, (partOf s p).clumask.getLsbD c = false) → islandOf (settleVolts s) c = { islandOf s c with volt := 0 })
      ∧ ∀ p, owns s p c → islandOf (settleVolts s) c = (if (islandOf s c).ramp.isSome then islandOf s c
          else { islandOf s c with volt := max (mV (islandOf s c).cur + 5 * (islandOf s c).canofs) (regVolt s (partOf s p).regulator.toNat - 60) }))
  ∧ (∀ s p c, p < 4 → c < 128 → (partOf s p).clumask.getLsbD c = true →
      mV (match (islandOf s c).ramp with | some r => r.1 | none => (islandOf s c).cur) + 5 * (islandOf s c).canofs
        ≤ regVolt s (partOf s p).regulator.toNat)
  ∧ (∀ s c e i f p, owns s p c → c < 128 → ∃ t, exec (.slopeTick c e ⟨i, f⟩) s = .next t ∧ t.threads = s.threads ∧ t.mem = s.mem ∧ t.parts = s.parts
      ∧ (let x := islandOf s c
         let q := x.decline.getD (x.last.getD p)
         let slope := s.pkg.slope.toNat
         (x.level ≤ 10 * i + slope → islandOf t c = { x with level := 10 * i, decline := none } ∧ t.pkg.filler = s.pkg.filler
            ∧ Map.get 0 t.pkg.energy p = Map.get 0 s.pkg.energy p + BitVec.ofNat 64 e)
         ∧ (10 * i + slope < x.level → islandOf t c = { x with level := x.level - slope, decline := some q }
            ∧ Map.get 0 t.pkg.filler q = Map.get 0 s.pkg.filler q + BitVec.ofNat 64 f
            ∧ Map.get 0 t.pkg.energy p = Map.get 0 s.pkg.energy p + BitVec.ofNat 64 (if q = p then e + f else e)
            ∧ Map.get 0 t.pkg.energy q = Map.get 0 s.pkg.energy q + BitVec.ofNat 64 (if q = p then e + f else f))))
  ∧ (∀ s c e i f, (∀ p < 4, (partOf s p).clumask.getLsbD c = false) → exec (.slopeTick c e ⟨i, f⟩) s = .next s)

/-- R135, R354, R356-R360: the host's reads and writes of the HDM window, its record port and its register windows, pools, and
remote copies, whose descriptors and sources are read as the tail advance makes them visible (log 65). Which copies a window
takes (log 93) and that the host's reads and writes stand behind its earlier held writes (log 94) are the model's choice. What a
host write leaves of a line's bounds (log 63), the order of the record port's refusals and the addresses of the windows (log
64), and the line that a pool's back-invalidation replaces (log 66) are its readings. -/
def Obligations.HostResults : Prop :=
  (∀ ag s o b0 b1 b2 b3, o % 4 = 0 → o < 2 ^ 40 →
      let l : Loc := .phys o s.host.hostKey true
      (2 ^ 40 - 2 ^ 36 ≤ o ∨ withdrawn s.mem o = true → hostWrite ag o [b0, b1, b2, b3] s = s)
      ∧ (o < 2 ^ 40 - 2 ^ 36 → withdrawn s.mem o = false → holdOf s o = none →
          hostWrite ag o [b0, b1, b2, b3] s = (pokeLoc (homeAcc s l true) l none [b0, b1, b2, b3] [0] false).1)
      ∧ (∀ q, o < 2 ^ 40 - 2 ^ 36 → withdrawn s.mem o = false → holdOf s o = some q →
          hostWrite ag o [b0, b1, b2, b3] s = setPart s q (fun y => { y with held := y.held ++
            [⟨0, l, none, .store [b0, b1, b2, b3] [0] false 0, some (0, ag), .land⟩] })))
  ∧ (∀ s o l, o < 2 ^ 40 → s.boot.mode ≠ 3 → hostPending s = false →
      (rangeSilent s none o l.length true = none → exec (.hostHdmAccess o (.write l)) s = .next (hostWrite .hdm o l s))
      ∧ ∀ d, l ≠ [] → rangeSilent s none o l.length true = some d →
          exec (.hostHdmAccess o (.write l)) s = .next (wakeDie (inHost s (fun h => { h with posted := [⟨BitVec.ofNat 64 o, l⟩] })) d))
  ∧ (∀ s o l, o < 2 ^ 40 → s.boot.mode ≠ 3 → l ≠ [] → (heldFor s 0 .posted = true ∨ heldFor s 0 .hdm = true ∨ s.host.recBusy = true) →
      exec (.hostHdmAccess o (.write l)) s = .next (inHost s (fun h => { h with posted := h.posted ++ [⟨BitVec.ofNat 64 o, l⟩] })))
  ∧ (∀ s o op, s.boot.mode = 3 → exec (.hostHdmAccess o op) s = .next s)
  ∧ (∀ s o n, hostPending s = true → exec (.hostHdmAccess o (.read n)) s = .next s)
  ∧ (∀ s o n, o + n ≤ 2 ^ 40 - 2 ^ 36 → unlocked s = true → 0 < n → s.boot.mode ≠ 3 → hostPending s = false → rangeSilent s none o n false = none → (∀ i < n, withdrawn s.mem (o + i) = false) →
      ∃ t, exec (.hostHdmAccess o (.read n)) s = .next t ∧ t.threads = s.threads ∧ t.host.hdmData.length = n
        ∧ (o / 128 = (o + n - 1) / 128 → ∀ i < n, t.host.hdmData[i]? = some (viewByte s.mem (o + i) s.host.hostKey)))
  ∧ (∀ s o n d, o < 2 ^ 40 → s.boot.mode ≠ 3 → hostPending s = false → rangeSilent s none o n false = some d →
      exec (.hostHdmAccess o (.read n)) s = .next (wakeDie s d))
  ∧ (∀ s o op, 2 ^ 40 ≤ o → exec (.hostHdmAccess o op) s = .next s)
  ∧ (∀ s a l r, a < 2 ^ 40 → s.boot.mode ≠ 3 → l ≠ [] → (hostPending s = false ∨ r = true) → rangeSilent s none a l.length true = none →
      exec (.hostPostedWrite (BitVec.ofNat 64 a) l r) s = .next (hostWrite .posted a l s))
  ∧ (∀ s a l, l ≠ [] → (heldFor s 0 .posted = true ∨ heldFor s 0 .hdm = true ∨ s.host.recBusy = true) →
      exec (.hostPostedWrite a l false) s = .next (inHost s (fun h => { h with posted := h.posted ++ [⟨a, l⟩] })))
  ∧ (∀ s p q w r, s.boot.mode ≠ 3 → hostPending s = false → p < 4 → q < 16 →
      exec (.hostPostedWrite (BitVec.ofNat 64 (pfWindow + 0x20000 + 0x1000 * p + 8 * q)) (leBytes 4 w) r) s
        = exec (.lqTailWrite p q (BitVec.ofNat 32 w)) s
      ∧ exec (.hostPostedWrite (BitVec.ofNat 64 (vfWindow p + 0x1000 + 8 * q)) (leBytes 4 w) r) s = exec (.lqTailWrite p q (BitVec.ofNat 32 w)) s
      ∧ exec (.hostPostedWrite (BitVec.ofNat 64 (vfWindow p + 0x2010)) (leBytes 4 w) r) s = exec (.ewTailWrite p (BitVec.ofNat 32 w)) s)
  ∧ (∀ s p q w, s.boot.mode ≠ 3 → p < 4 → q < 16 →
      exec (.hostPostedWrite (BitVec.ofNat 64 (vfWindow p + 0x1000 + 8 * q)) (leBytes 4 w) true) s = .next (modLq s p q (tailWritten (BitVec.ofNat 32 w))))
  ∧ (∀ s c w r, s.boot.mode ≠ 3 → hostPending s = false → c < 128 →
      exec (.hostPostedWrite (BitVec.ofNat 64 (pfWindow + 0x10800 + 8 * c)) (leBytes 4 w) r) s = exec (.cluReqWrite c (BitVec.ofNat 32 w) .physical) s
      ∧ ∀ p < 4, exec (.hostPostedWrite (BitVec.ofNat 64 (vfWindow p + 0x800 + 8 * c)) (leBytes 4 w) r) s
          = exec (.cluReqWrite c (BitVec.ofNat 32 w) (.virtual p)) s)
  ∧ (∀ s r, s.boot.mode ≠ 3 → hostPending s = false →
      exec (.hostPostedWrite (BitVec.ofNat 64 (pfWindow + 0x40018)) [1, 0, 0, 0] r) s = exec .recCmdRead s
      ∧ exec (.hostPostedWrite (BitVec.ofNat 64 (pfWindow + 0x40018)) [2, 0, 0, 0] r) s = exec .recCmdWrite s)
  ∧ (∀ s w r, (hostPending s = false ∨ r = true) → exec (.hostPostedWrite (BitVec.ofNat 64 (pfWindow + 8)) (leBytes 4 w) r) s = exec (.bootCmdCommit (BitVec.ofNat 32 w)) s)
  ∧ (∀ s, s.boot.mode = 3 → exec .recCmdRead s = .next s ∧ exec .recCmdWrite s = .next s)
  ∧ (∀ s, s.boot.mode ≠ 3 → RecOpen s false →
      (recVerdict s false ≠ 0 → exec .recCmdRead s = .next (inHost s (fun h => { h with recStat := recVerdict s false })))
      ∧ (recVerdict s false = 0 →
          let (a, k) := recPlace s false
          let m := openLine s.mem (a / 128) k
          let x := recAt m (a / 128)
          let d1 : DWord := ((x.codes >>> 64).setWidth 64) ||| (x.e.setWidth 64 <<< 32)
          exec .recCmdRead s = .next (inHost { s with mem := m } (fun h =>
            { h with recStat := 0, recData0 := x.codes.setWidth 64, recData1 := d1 }))))
  ∧ (∀ s, lockOf s (s.host.recAddr.toNat / 128 * 128) = none → recPlace s false = (s.host.recAddr.toNat / 128 * 128, s.host.hostKey))
  ∧ (∀ s write d, s.boot.mode ≠ 3 → hostPending s = false → silentDie s none (s.host.recAddr.toNat / 128) write = some d →
      exec (if write then .recCmdWrite else .recCmdRead) s = .next (wakeDie (inHost s (fun h =>
        { h with posted := [⟨BitVec.ofNat 64 (pfWindow + 0x40018), leBytes 4 (if write then 2 else 1)⟩] })) d))
  ∧ (∀ s, s.boot.mode ≠ 3 → RecOpen s true →
      (recVerdict s true ≠ 0 → exec .recCmdWrite s = .next (inHost s (fun h => { h with recStat := recVerdict s true })))
      ∧ (∀ q, recVerdict s true = 0 → holdOf s (s.host.recAddr.toNat / 128 * 128) = some q →
          ∃ t, exec .recCmdWrite s = .next t ∧ t.host.recBusy = true ∧ heldFor t 0 .recPort = true ∧ t.mem.recs = s.mem.recs)
      ∧ (recVerdict s true = 0 → holdOf s (s.host.recAddr.toNat / 128 * 128) = none →
          ∃ t, exec .recCmdWrite s = .next t ∧ t.host.recStat = 0 ∧ t.host.recBusy = false ∧ t.threads = s.threads
            ∧ (recAt t.mem (s.host.recAddr.toNat / 128)).codes = (s.host.recData1.setWidth 32 ++ s.host.recData0)
            ∧ (recAt t.mem (s.host.recAddr.toNat / 128)).e = (s.host.recData1 >>> 32).setWidth 8))
  ∧ (∀ s w b n sh, w < 16 → b % 2 ^ 30 = 0 → n % 2 ^ 30 = 0 → 2 ^ 40 ≤ b → b + n ≤ 2 ^ 51 → n ≠ 0 →
      (∀ e ∈ s.mem.windows, e.1 ≠ w → b + n ≤ e.2.base ∨ e.2.base + e.2.size ≤ b ∨ e.2.size = 0) →
      ∃ t, exec (.poolWindowAttach w b n sh) s = .next t ∧ t.mem.windows = Map.put s.mem.windows w ⟨b, n, sh⟩
        ∧ t.mem.bytes = s.mem.bytes ∧ t.threads = s.threads ∧ t.parts = s.parts)
  ∧ (∀ s w b n sh, 16 ≤ w ∨ b % 2 ^ 30 ≠ 0 ∨ n % 2 ^ 30 ≠ 0 ∨ b < 2 ^ 40 ∨ 2 ^ 51 < b + n → exec (.poolWindowAttach w b n sh) s = .next s)
  ∧ (∀ s line data, inSharedWindow s.mem (line * 128) = true → SnoopOpen s ⟨true, line, data.isSome, data⟩ → ∃ t, exec (.poolBackInvalidation line data) s = .next t
      ∧ Map.get? t.mem.dirty line = none ∧ (∀ p ∈ t.mem.partials, lineOf p.pa ≠ line)
      ∧ (∀ l, data = some l → (∀ c ∈ t.coreGroups, ∀ x ∈ c.2.slines, x.2.line ≠ line) ∧ ∀ i < 128, i < l.length → memGet t.mem.bytes (line * 128 + i) = l.getD i 0))
  ∧ (∀ s line data, inSharedWindow s.mem (line * 128) = false → exec (.poolBackInvalidation line data) s = .next s)
  ∧ (∀ s line inv data, 2 ^ 51 ≤ line * 128 → line * 128 < 2 ^ 52 → SnoopOpen s ⟨false, line, inv, if inv then data else none⟩ → ∃ t, exec (.hostCxlSnoop line ⟨inv, data⟩) s = .next t
      ∧ (∀ l, data = some l → inv = true → ∀ i < 128, i < l.length → memGet t.mem.bytes (line * 128 + i) = l.getD i 0)
      ∧ Map.get? t.mem.dirty line = none ∧ (∀ p ∈ t.mem.partials, lineOf p.pa ≠ line)
      ∧ (∀ c ∈ t.coreGroups, ∀ x ∈ c.2.slines, x.2.line = line → inv = false ∧ x.2.dirty = false))
  ∧ (∀ s line inv data,
      let h : HeldSnoop := ⟨false, line, inv, if inv then data else none⟩
      let waits (s : State) : State := inHost s (fun x => { x with snoops := x.snoops ++ [h] })
      2 ^ 51 ≤ line * 128 → line * 128 < 2 ^ 52 →
      (s.host.snoops.any (fun x => x.line == line) = true → exec (.hostCxlSnoop line ⟨inv, data⟩) s = .next (waits s))
      ∧ (∀ d, s.host.snoops.any (fun x => x.line == line) = false → snoopSilent s h = some d →
          exec (.hostCxlSnoop line ⟨inv, data⟩) s = .next (waits (wakeDie s d))))
  ∧ (∀ s line inv data, line * 128 < 2 ^ 51 ∨ 2 ^ 52 ≤ line * 128 → exec (.hostCxlSnoop line ⟨inv, data⟩) s = .next s)
  ∧ (∀ s p v, 4 ≤ p ∨ s.boot.mode = 3 → exec (.ewTailWrite p v) s = .next s)
  ∧ (∀ s p v, p < 4 → s.boot.mode ≠ 3 → hostPending s = true →
      exec (.ewTailWrite p v) s = .next (hostPost (BitVec.ofNat 64 (vfWindow p + 0x2010)) (leBytes 4 v.toNat) s))
  ∧ (∀ s p v, p < 4 → s.boot.mode ≠ 3 → hostPending s = false → exec (.ewTailWrite p v) s = .next (ringWrite s p (ewTail v)))
  ∧ (∀ v r, ewTail v r = if v.toNat < 2 ^ (r.cfg.toNat % 16) then { r with tail := v } else r)
  ∧ (∀ s p (v : Word), let r := ringOf s p
      (r.cfg.msb = true → r.seen = [] → v.toNat < 2 ^ (r.cfg.toNat % 16) → ringOf (ringWrite s p (ewTail v)) p =
        { r with tail := v, head := v, flight := r.flight ++ (slotsTo r v.toNat).map (fun i => (i, copyDesc s p i)) })
      ∧ (r.cfg.msb = false → (ringOf (ringWrite s p (ewTail v)) p).flight = r.flight ∧ (ringOf (ringWrite s p (ewTail v)) p).head = r.head))
  ∧ (∀ s p slot, unlocked s = true → s.mem.partials = [] →
      let a := (ringOf s p).base.toNat + 64 * slot
      let src := (physRead64 s a).toNat
      let w8 := (physRead64 s (a + 8)).toNat
      copyDesc s p slot = ⟨src, w8 % 2 ^ 32, ⟨w8 / 2 ^ 32 % 2 ^ 19, w8 / 2 ^ 56 % 16, (physRead64 s (a + 0x10)).toNat, (physRead64 s (a + 0x20)).toNat,
        (List.range (w8 % 2 ^ 32 / 4)).map (fun i => (BitVec.ofNat 32 (leNat (memBytes s.mem.bytes (src + 4 * i) 4)),
          if hasChunk s.mem (src + 4 * i) then physBound s.mem true (src + 4 * i) else 0))⟩⟩)
  ∧ (∀ s p slot, (∀ e ∈ (ringOf s p).flight, e.1 ≠ slot) → exec (.remoteCopyCompletion p slot) s = .next s)
  ∧ (∀ s p slot c, inFlight s p slot c → heldFor s p (.copy slot) = false → copyAsks s p slot c = none → unlocked s = true → s.mem.partials = [] →
      let a := (ringOf s p).base.toNat + 64 * slot
      let lc := physRead64 s (a + 0x18)
      ∃ t st, exec (.remoteCopyCompletion p slot) s = .next t ∧ (ringOf t p).flight = (ringOf s p).flight.erase (slot, c) ∧ t.threads = s.threads
        ∧ ((∀ l < 12, (linkOf s l).1 = true → (linkOf s l).2.1 = false → (linkOf s l).2.2.toNat ≠ c.goes.dst) → st = 2)
        ∧ ((∃ l < 12, (linkOf s l).1 = true ∧ (linkOf s l).2.1 = false ∧ (linkOf s l).2.2.toNat = c.goes.dst) → st ∈ [0, 1, 3])
        ∧ (a % 64 = 0 → (lc = 0 ∨ st ≠ 0) → leNat (rawBytes t.mem (a + 0x28) 4) = st)
        ∧ t.host.sent = (if st = 2 then s.host.sent else some c.goes))
  ∧ (∀ s p slot c d, inFlight s p slot c → heldFor s p (.copy slot) = false → copyAsks s p slot c = some d →
      exec (.remoteCopyCompletion p slot) s = .next (wakeDie s d))
  ∧ (∀ s p slot, heldFor s p (.copy slot) = true → exec (.remoteCopyCompletion p slot) s = .next s)
  ∧ (∀ s src slot w x dofs data, Map.get? s.mem.inWindows w = some x → takesCopy s x src dofs data.length = true → unlocked s = true →
      heldFor s 0 (.land s.host.nextLand) = false → rangeSilent s none (x.base + dofs) (4 * data.length) true = none →
      ∃ t, exec (.inboundRemoteCopy ⟨src, slot, w⟩ dofs data 0) s = .next t ∧ Map.get? t.host.landing s.host.nextLand = none
        ∧ t.host.nextLand = s.host.nextLand + 1 ∧ t.threads = s.threads ∧ t.parts = s.parts
        ∧ ∀ i y, data[i]? = some y → memBytes t.mem.bytes (x.base + dofs + 4 * i) 4 = leBytes 4 y.1.toNat)
  ∧ (∀ s src slot w x dofs data rc d, Map.get? s.mem.inWindows w = some x → takesCopy s x src dofs data.length = true →
      rangeSilent s none (x.base + dofs) (4 * data.length) true = some d →
      exec (.inboundRemoteCopy ⟨src, slot, w⟩ dofs data rc) s = .next (wakeDie s d))
  ∧ (∀ s x src dofs n, takesCopy s x src dofs n = true ↔ x.src = src ∧ (Map.get KeySlot.empty s.mem.keys x.key).loaded = true
      ∧ (Map.get KeySlot.empty s.mem.keys x.key).owner ≠ none ∧ dofs % 128 = 0 ∧ n % 32 = 0 ∧ dofs + 4 * n ≤ x.size)
  ∧ (∀ s src slot w dofs data rc, (∀ x, Map.get? s.mem.inWindows w = some x → takesCopy s x src dofs data.length = false) →
      exec (.inboundRemoteCopy ⟨src, slot, w⟩ dofs data rc) s = .next s)

/-- R361-R363: a start leaves no thread, launch, partition or fragment entry, the caches and the device's own tables empty and the
package block as at reset; that the clock is then 0 (log 8), and that each byte of the memories, of which no rule speaks, is as it
was (log 115), are the model's choices. It keeps the flash, and enters minimal mode with FAILS at 3, REASON holding the last
failure's cause; a rejected image, a timeout and a fatal or training error each count a failed start with its REASON; MODE 2 clears
FAILS; a commit acts in minimal mode alone, and its verdict either replaces the flash or sets REASON; the seven SPDM messages have
their answers. Whether an image passes is free (log 60); MODE and REASON after a start that fails or is ready, and which details
SPDM's answers have, are the model's readings (logs 61, 62). -/
def Obligations.StartResults : Prop :=
  (∀ s, ∃ t, exec .deviceStart s = .next t ∧ t.threads = [] ∧ t.groups = [] ∧ t.launches = [] ∧ t.parts = [] ∧ t.frags = [] ∧ t.clock = 0
      ∧ (PartialsFit s.mem → ∀ a, memGet t.mem.bytes a = rawByte s.mem a) ∧ t.mem.partials = [] ∧ t.mem.dirty = [] ∧ t.mem.l1 = [] ∧ t.mem.l2 = []
      ∧ t.mem.code = [] ∧ t.mem.tlb = [] ∧ t.mem.tabs = [] ∧ t.mem.keys = [] ∧ t.mem.inWindows = [] ∧ t.mem.withdrawn = []
      ∧ t.pkg = Package.reset ∧ t.boot.flash = s.boot.flash ∧ t.boot.busy = false
      ∧ (s.boot.fails = 3 → t.boot.mode = 3 ∧ t.boot.fails = 3 ∧ t.boot.reason = s.boot.cause)
      ∧ (s.boot.fails ≠ 3 → s.boot.flash = [] ∨ Config.flashReadable s.fresh = false → t.boot.mode = 0 ∧ t.boot.reason = 7 ∧ t.boot.fails = s.boot.fails + 1)
      ∧ (s.boot.fails ≠ 3 → s.boot.flash ≠ [] → Config.flashReadable s.fresh = true → ∀ r, imageVerdict s.boot.flash = .error r →
          (∀ n v, Config.imageHeader s.boot.flash = some (n, v) → t.boot.svn = v) ∧ t.boot.mode = 0 ∧ t.boot.reason = BitVec.ofNat 8 r ∧ t.boot.fails = s.boot.fails + 1)
      ∧ (s.boot.fails ≠ 3 → s.boot.flash ≠ [] → Config.flashReadable s.fresh = true → ∀ v, imageVerdict s.boot.flash = .ok v → t.boot.mode = 1 ∧ t.boot.svn = v ∧ t.boot.fails = s.boot.fails))
  ∧ (∀ s, s.boot.mode = 1 → exec .firmwareTimeout s = .next (inBoot s (failedStart 4))
      ∧ exec (.firmwareStartEnd .fatal) s = .next (inBoot s (failedStart 5))
      ∧ exec (.firmwareStartEnd .trainingFailed) s = .next (inBoot s (failedStart 6)))
  ∧ (∀ s, s.boot.mode ≠ 1 → exec .firmwareTimeout s = .next s ∧ ∀ e, exec (.firmwareStartEnd e) s = .next s)
  ∧ (∀ s, s.boot.mode = 1 → ∃ t, exec (.firmwareStartEnd .ready) s = .next t ∧ t.boot.mode = 2 ∧ t.boot.fails = 0 ∧ t.boot.flash = s.boot.flash
      ∧ t.threads = s.threads ∧ t.parts = s.parts ∧ t.pkg = s.pkg ∧ t.mem.bytes = s.mem.bytes ∧ t.host.rings = s.host.rings)
  ∧ (∀ s v, exec (.bootCmdCommit v) s = .next (if v = 1 ∧ s.boot.mode = 3 ∧ s.boot.busy = false then inBoot s (fun b => { b with busy := true }) else s))
  ∧ (∀ s, (s.boot.mode ≠ 3 ∨ s.boot.busy = false) → exec .recoveryVerifyDone s = .next s)
  ∧ (∀ s, s.boot.mode = 3 → s.boot.busy = true →
      let img := (List.range s.boot.recLen.toNat).map (fun i => Map.get 0 s.boot.recovery i)
      (s.boot.recLen = 0 ∨ 2 ^ 24 < s.boot.recLen.toNat → exec .recoveryVerifyDone s = .next (inBoot s (fun b => { b with busy := false, reason := 3 })))
      ∧ (0 < s.boot.recLen.toNat → s.boot.recLen.toNat ≤ 2 ^ 24 → ∀ r, imageVerdict img = .error r →
          exec .recoveryVerifyDone s = .next (inBoot s (fun b => { b with busy := false, reason := BitVec.ofNat 8 r })))
      ∧ (0 < s.boot.recLen.toNat → s.boot.recLen.toNat ≤ 2 ^ 24 → ∀ v, imageVerdict img = .ok v →
          exec .recoveryVerifyDone s = .next (inBoot s (fun b => { b with busy := false, flash := img, fails := 0, mode := 0 }))))
  ∧ (∀ s, exec .getVersion s = .next (replies s (.version 1 3)))
  ∧ (∀ s, exec .getCapabilities s = .next (replies s (.capabilities Config.spdmCapabilities)))
  ∧ (∀ s, exec .negotiateAlgorithms s = .next (replies s (.algorithms "ECDSA P-384" "SHA-384")))
  ∧ (∀ s, exec .getDigests s = .next (replies s (.digests 0 (Config.sha384 Config.certChain))))
  ∧ (∀ s, exec (.getCertificate 0) s = .next (replies s (.certificate 0 Config.certChain)))
  ∧ (∀ s n, exec (.challenge 0 n) s = .next (replies s (.challengeAuth 0 (Config.sha384 Config.certChain) (Config.deviceSign n))))
  ∧ (∀ s slot n, slot ≠ 0 → exec (.getCertificate slot) s = .next (replies s .error)
      ∧ exec (.challenge slot n) s = .next (replies s .error))
  ∧ (∀ s n, exec (.getMeasurements 2 n) s = .next (replies s (.measurements
      [(2, if s.boot.mode = 3 then 0 else Config.sha384 s.boot.flash)] (Config.deviceSign n))))
  ∧ (∀ s n, exec (.getMeasurements 3 n) s = .next (replies s (.measurements
      [(3, Config.sha384 (leBytes 2 s.boot.svn.toNat))] (Config.deviceSign n))))
  ∧ (∀ s n i, i ∈ [1, 4, 5] → ∃ d, exec (.getMeasurements i n) s = .next (replies s (.measurements [(i, d)] (Config.deviceSign n))))

/-! ## The whole machine: decoding, the step, exceptions, frames, invariants -/

namespace Sys2Proof.Claims

/-- A register or a pair. -/
def oneOrTwo (wide : Bool) (d : VReg) : List Nat := if wide then [d.toNat, d.toNat + 1] else [d.toNat]

/-- Destination registers of the instructions of one lane that only read and write registers, predicates, lk, flags and the
budget. -/
def dests : Instr → Option (List Nat)
  | .iadd x | .isub x | .imul x | .imulh x | .imin x | .imax x | .and x | .or x | .xor x | .shl x | .shr x | .sar x | .bfx x =>
    some (oneOrTwo x.ty.wide x.d)
  | .iaddImm x | .isubImm x | .imulImm x | .iminImm x | .imaxImm x | .andImm x | .orImm x | .xorImm x | .shlImm x | .shrImm x
  | .sarImm x => some (oneOrTwo x.ty.wide x.d)
  | .imad x | .bfi x => some (oneOrTwo x.ty.wide x.d)
  | .iabs x | .popc x | .clz x | .brev x | .mov x => some (oneOrTwo x.ty.wide x.d)
  | .iset _ | .isetImm _ | .plog _ | .pmovPut _ | .movToLk _ | .nop _ | .fset _ | .budget _ | .budgetImm _ => some []
  | .sel x => some (oneOrTwo x.ty.wide x.d)
  | .movFromLk x => some [x.d.toNat, x.d.toNat + 1]
  | .lea x => some [x.d.toNat, x.d.toNat + 1]
  | .pmovGet x => some [x.d.toNat]
  | .movs x => some (oneOrTwo x.src.wide x.d)
  | .movi x => some [x.d.toNat]
  | .movi64 x => some [x.d.toNat, x.d.toNat + 1]
  | .fadd x | .fsub x | .fmul x => some (oneOrTwo x.ty.wide x.d)
  | .ffma x => some (oneOrTwo x.ty.wide x.d)
  | .fmin x | .fmax x => some (oneOrTwo x.ty.wide x.d)
  | .frnd x | .frcp x | .frsq x | .fsqrt x | .fexp2 x | .flog2 x => some (oneOrTwo x.ty.wide x.d)
  | .fscl x => some (oneOrTwo x.ty.wide x.d)
  | .fcls x => some (oneOrTwo x.ty.wide x.d)
  | .cvt x => some (oneOrTwo x.dst.wide x.d)
  | .cvtiF2i x => some (oneOrTwo x.ity.wide x.d)
  | .cvtiI2f x => some (oneOrTwo x.fmt.wide x.d)
  | .pk4 x => some [x.d.toNat]
  | .upk4 x => some [x.d.toNat]
  | .brd x => some [x.d.toNat]
  | .braise x => some (oneOrTwo x.pair x.d)
  | .flgrd x => some [x.d.toNat]
  | .flgrdClr x => some [x.d.toNat]
  | _ => none

/-- Of those, the ones that write predicates; lk; the budget state; and the one that clears flags. -/
def writesPreds : Instr → Bool
  | .iset _ | .isetImm _ | .plog _ | .pmovPut _ | .fset _ => true
  | _ => false
def writesLk : Instr → Bool
  | .movToLk _ => true
  | _ => false
def writesBud : Instr → Bool
  | .budget _ | .budgetImm _ => true
  | _ => false
def clearsFlags : Instr → Bool
  | .flgrdClr _ => true
  | _ => false

/-- Of those, the ones whose result is checked against the budget (R77). -/
def checksBudget : Instr → Bool
  | .fadd _ | .fsub _ | .fmul _ | .ffma _ | .frnd _ | .fscl _ | .frcp _ | .frsq _ | .fsqrt _ | .fexp2 _ | .flog2 _ => true
  | _ => false

/-- The values a thread keeps across such an instruction, also where it traps. -/
def keepsValues (i : Instr) (ds : List Nat) (x y : Thread) : Prop :=
  (∀ r, r ∉ ds → (∀ sp b, x.frame = some (sp, b) → b ≤ sp) → regIn x y r = getReg x r)
  ∧ (writesPreds i = false → y.preds = x.preds) ∧ (writesBud i = false → y.bud = x.bud)
  ∧ (clearsFlags i = false → y.flags &&& x.flags = x.flags)

/-- What a lane's thread keeps across such an instruction. -/
def keepsBut (i : Instr) (ds : List Nat) (x y : Thread) : Prop :=
  keepsValues i ds x y ∧ (writesLk i = false → y.lk = x.lk) ∧ y.frag = x.frag ∧ y.hand = x.hand ∧ y.priv = x.priv

/-- The fields of a warp that advancing a group leaves alone. -/
def sameWarp (w v : Warp) : Prop := v.masks = w.masks ∧ v.tiles = w.tiles ∧ v.side = w.side ∧ v.slot = w.slot ∧ v.saved = w.saved

/-- The smallest cause among faults. -/
def leastCause (fs : List (Nat × FInfo)) : Nat := match fs with
  | [] => 0
  | f :: r => r.foldl (fun c x => min c x.2.cause) f.2.cause

/-- The REASON that goes with it: that of the first fault that has it. -/
def leastReason (fs : List (Nat × FInfo)) : Nat := match fs.find? (fun f => f.2.cause == leastCause fs) with
  | some f => f.2.reason
  | none => 0

/-- A group's instruction runs at its slot: the lanes `bad` fault there, and those that read lost data; what they fault with follows,
the issue is counted, and a release settles what its threads have invalidated of code (R133, R158, R321, R341). -/
def slotRun (s : State) (gid : Nat) (g : Group) (bad : List (Nat × FInfo)) (i : Instr) : Host.Outcome State Fault Refusal :=
  let s := { s with lost := [] }
  let lost := if operandsRead g.hold then [] else storageFaults s g i
  let fs := bad.foldl (fun l f => insLost s f l) (lost.filter (fun f => !bad.any (fun b => b.1 == f.1)))
  let u := { s with cur := .group gid, lost := fs }
  afterwards noteAct (afterwards (fun t => settleCode gid g i u (countIssue gid g (endLost gid g fs { u with lost := [] } t))) (exec i u))

/-- A group stands at a slot with a word, and neither a wait nor a stop keeps it there. -/
def AtSlot (s : State) (gid : Nat) (g : Group) (w : DWord) : Prop :=
  getGroup s gid = some g ∧ groupStopped s g = false ∧ g.waits = [] ∧ (∀ m, g.hold ≠ .clauseWait m) ∧ (∀ c, g.hold ≠ .sleep c)
    ∧ g.pass.words[g.pass.slot]? = some w

/-- What a word is at a group's slot under a register allocation (R157-R159). -/
def readAs (g : Group) (w : DWord) (al : Alloc) : Except IllReason Instr :=
  legal g.pass.cls (g.pass.slot + 1 == g.pass.words.length) (some al) w

/-- Threads of one core group take faults together, none of them in handler state, each once. -/
def FaultTogether (s : State) (fs : List (Nat × FInfo)) (t0 : Thread) : Prop :=
  (∃ f r, fs = f :: r ∧ getThread s f.1 = some t0) ∧ (fs.map (·.1)).Nodup
  ∧ ∀ e ∈ fs, ∃ t, getThread s e.1 = some t ∧ t.hand = .none ∧ t.cgu = t0.cgu ∧ t.k = t0.k

/-- No other faulting thread stands at a thread's warp and lane. -/
def ownPlace (s : State) (fs : List (Nat × FInfo)) (k : Nat) (t : Thread) : Prop :=
  ∀ e ∈ fs, e.1 ≠ k → ∀ u, getThread s e.1 = some u → ¬(warpKeyOf u = warpKeyOf t ∧ u.lane = t.lane)

end Sys2Proof.Claims

/-- R26, R28, R32, R113, R140, R144, R158, R321: a step of the agenda's issue act is `exec` of the slot's instruction, the group
being the current one, and the issue is counted; a thread whose own allocation the word does not fit takes the trap of an
illegal register by itself (log 36); lanes whose registers or tile rows hold lost data take class 14 at the slot, with the
instruction's other faults, and the others complete it (shown for MOVI). So for an access-slice instance, which has then had its
turn; an event's step is its own `exec`; an empty agenda takes the default act as time passes. Beside its act a step counts
itself, keeps the PC tables and ends waits that are over. The agenda, the default act and the free clocks are the model's
choices (logs 1, 8, 71). So are the places in which lost data stand (log 89). -/
def Obligations.StepRunsDecodedInstruction : Prop :=
  (∀ s r gid g w al i, s.agenda = .issue gid :: r → AtSlot s gid g w →
      (groupAllocs s g).find? (fun x => fitsAlloc g.pass w x) = some al → readAs g w al = .ok i →
      step s = slotRun { s with agenda := r } gid g (misfits s g w) i)
  ∧ (∀ s g w, (∀ a ∈ groupAllocs s g, ∃ i, readAs g w a = .ok i) → misfits s g w = [])
  ∧ (∀ s g w k f, (∃ a ∈ groupAllocs s g, ∃ i, readAs g w a = .ok i) → ((k, f) ∈ misfits s g w ↔
      f = ⟨0, 5, w, 0⟩ ∧ k ∈ g.members ∧ ∃ t e, getThread s k = some t ∧ readAs g w (allocOf s t) = .error e))
  ∧ (∀ s r gid g w al e, s.agenda = .issue gid :: r → AtSlot s gid g w → (groupAllocs s g).head? = some al →
      (∀ a ∈ groupAllocs s g, ∃ x, readAs g w a = .error x) → readAs g w al = .error e →
      step s = slotRun { s with agenda := r } gid g [] (.illegalInstruction e w))
  ∧ (∀ s r qk x p w i, s.agenda = .slice qk :: r → getSlice s qk = some x → sliceRuns s qk x = true → x.pass = some p →
      p.words[p.slot]? = some w → legal p.cls (p.slot + 1 == p.words.length) none w = .ok i →
      step s = afterwards noteAct (exec i { s with agenda := r, lost := [], cur := .slice qk, turns := Map.put s.turns (sliceCore s qk) qk }))
  ∧ (∀ s r i, s.agenda = .event i :: r → step s = afterwards noteAct (exec i { s with agenda := r, lost := [], cur := .none }))
  ∧ (∀ s r n, s.agenda = .elapse n :: r →
      step s = .next (noteAct { s with agenda := r, lost := [], clock := s.clock + BitVec.ofNat 64 (n % 2 ^ 32) }))
  ∧ (∀ s, s.agenda = [] → step s = afterwards noteAct (afterwards (countTurn s (chooseAct s))
      (act { s with clock := s.clock + BitVec.ofNat 64 (Config.freeClocks s.fresh % 2 ^ 31 + 1), fresh := s.fresh + 1 } (chooseAct s))))
  ∧ (∀ s a t, ∃ m, countTurn s a t = { t with lows := m })
  ∧ (∀ s, ∃ l, noteAct s =
      { settleGone (endLeavers (answerWaits (stopAsked { s with acts := s.acts + 1, mem := { s.mem with walks := [] } }))) with pcTable := l })
  ∧ (∀ s, leavers s = [] → endLeavers s = s)
  ∧ (∀ s, (∀ k ∈ s.mem.inval.keys, (getThread s k).isSome = true) → settleGone s = s)
  ∧ (∀ gid g i s t, s.mem.inval = [] → settleCode gid g i s t = t)
  ∧ (∀ s, s.warps.all (fun w => w.2.preq.isNone || w.2.saved) = true → stopAsked s = s)
  ∧ (∀ s, (∀ e ∈ s.parts, ∀ a ∈ (partOf s e.1).agents, a.2.waits = false) → s.host.snoops = [] → answerWaits s = s)
  ∧ (∀ s gid g, ∃ m, countIssue gid g s = { s with clusterGroups := m })
  ∧ (∀ s t gid g fs, (t.lost = [] → endLost gid g fs s t = t)
      ∧ (t.lost ≠ [] → (getGroup t gid).any (fun x => x.hold == .queue) = false → faultsWait s fs = false → faultsAsk s fs = none →
          endLost gid g fs s t = (raise s { t with lost := [] } g.members fs (slotPc g.pass) (some g.pass) (slotPc g.pass) (some g.pass)).1))
  ∧ (∀ s g gd k, k ∈ activeOf s g gd ↔ k ∈ guardedOf s g gd ∧ ∀ f, (k, f) ∉ s.lost)
  ∧ (∀ x s gid g, curGroup s = some (gid, g) → s.lost ≠ [] → faultsWait { s with lost := [] } (withLost s []) = false →
      faultsAsk { s with lost := [] } (withLost s []) = none →
      let u := { onThreads (fun t => setReg t x.d.toNat ⟨x.imm, 0⟩) (activeOf s g x.g) s with lost := [] }
      let v := raise { s with lost := [] } u g.members (withLost s []) (slotPc g.pass) (some g.pass) (slotPc g.pass) (some g.pass)
      exec (.movi x) s = .next (if v.2 then v.1 else advance v.1 gid))
  ∧ (∀ s e, e ∈ withLost s [] ↔ e ∈ s.lost)
  ∧ (∀ s g i k t f, (k, f) ∈ storageFaults s g i → getThread s k = some t →
      k ∈ g.members ∧ (laneLost s g i t = some f ∨ (k, f) ∈ leadLost s g i))
  ∧ (∀ t r, t.frame = none → r ∈ t.bad → ∀ rs, rs.head? = some r → badReg t rs = some ⟨14, 0, BitVec.ofNat 64 r, 0⟩)
  ∧ (∀ cls last al w i, legal cls last al w = .ok i → decode w = .ok i)

/-- R146-R156: the instructions that thirteen words, written out field by field from the encoding tables, decode to; all but the
eighth, ninth and eleventh stand in the manual's own examples. -/
def Obligations.WordsDecode : Prop :=
  decode 0x00B71A1400000004 = .ok (.iaddImm ⟨⟨false, 7⟩, .n64, 26, 20, 4⟩)
  ∧ decode 0x1607040401002002 = .ok (.lea ⟨⟨false, 7⟩, false, 4, 4, 1, 2⟩)
  ∧ decode 0x33010C0A0B0A8290 = .ok (.ffma ⟨⟨false, 1⟩, .f32, .gov, .rtz, false, ⟨true, false, false, true⟩, 12, 10, 11, 10⟩)
  ∧ decode 0x42170A0418068000 = .ok (.qntOl ⟨⟨false, 7⟩, .rne, 10, 4, 24, 6⟩)
  ∧ decode 0x621700007F000002 = .ok (.budgetImm ⟨⟨false, 7⟩, 0x7F000002⟩)
  ∧ decode 0x7007140200061F4B = .ok (.ld ⟨⟨false, 7⟩, .b64, .acq, .sys, 5, .gl, true, 20, 2, 24⟩)
  ∧ decode 0x9011000000002800 = .ok (.fenceJ ⟨⟨false, 1⟩, .pkg⟩)
  ∧ decode 0x98070B0000000000 = .ok (.gbar ⟨⟨false, 7⟩, 11⟩)
  ∧ decode 0xB0070000FFFFFFC0 = .ok (.bra ⟨⟨false, 7⟩, 0xFFFFFFC0⟩)
  ∧ decode 0xC007013181930000 = .ok (.mma ⟨⟨false, 7⟩, 0, 0, 2, 3, 24, 25, 3, false, false, false, false⟩)
  ∧ decode 0xD00709C000000000 = .ok (.qpop ⟨⟨false, 7⟩, 9, 6⟩)
  ∧ decode 0xF107040000000020 = .ok (.movcRead ⟨⟨false, 7⟩, .ptRoot, 4⟩)
  ∧ decode 0xF207060400000000 = .ok (.tlbi ⟨⟨false, 7⟩, 6, 4⟩)

/-- R143, R146-R158: each well-formed instruction with a word is decoded from it. Which reason an ill-formed word takes is no
part of this statement. -/
def Obligations.EncodeThenDecode : Prop :=
  ∀ i w, WellFormed i = true → (∀ r v, i ≠ .illegalInstruction r v) → encode i = some w → decode w = .ok i

/-- A word the decoder accepts is the word of a well-formed instruction: no bit of it is dropped. -/
def Obligations.DecodeThenEncode : Prop :=
  ∀ w i, decode w = .ok i → WellFormed i = true ∧ encode i = some w

/-- R139, R143, R272, R324: a privileged word stands only in a SYS clause, and user mode enters no SYS clause. -/
def Obligations.PrivilegedWordsNeedSys : Prop :=
  (∀ cls last al w i, cls.toNat < 6 → legal cls last al w = .ok i → 0xF0 ≤ w.toNat / 2 ^ 56 → cls = 5)
  ∧ (∀ (h : Header) str, h.ok false str = true → h.cls ≠ 5)
  ∧ (∀ s w hs hdr str h ws u, fetchClause s w hs hdr str = (.ok h ws, u) → h.ok w.priv str = true)
  ∧ (∀ cls last al w, majorAssigned (w.toNat / 2 ^ 56) = false → legal cls last al w = .error .unassigned)

/-- R32-R35, R304-R308, R312, Tables 18-1 to 18-4: taking an exception. The lanes get an entry, its image and their side
records, and enter the handler at base + 256·cause in its mode; with base 0 they park with KIND 9; without an entry the group
enters at base + 0x700 and nothing it did stands. That the REASON of KIND 9 is that of the first lane with the least cause is
the model's choice (log 50). That the lowest free entry is taken (log 9), what a full fragment table leaves (log 28) and the
image's words for lanes that are no members (log 29) or stand in several warps (log 30) are the model's readings. -/
def Obligations.TrapEntry : Prop :=
  (∀ s whole fs fpc slot rpc rpass t0 e, FaultTogether s fs t0 → freeEntry s (threadPart s t0) (coreOf s t0) = some e →
      s.warps.all (fun w => w.2.gen.isNone) = true →
      let fk := 64 * coreOf s t0 + e
      let gen := (Map.get FEntry.zero s.frags fk).gen + 1
      let id := fragIdOf (coreOf s t0) e gen
      let c := leastCause fs
      let b := trapBase s t0 c
      ∃ t x, raise s s whole fs fpc slot rpc rpass = (t, false) ∧ Map.get? t.frags fk = some x
        ∧ x.gen = gen ∧ x.id = id ∧ x.cause = c ∧ x.fpc = fpc ∧ x.mark = false ∧ x.saved = false ∧ x.st = (if b.1 = 0 then .parked else .handler)
        ∧ (∀ k f u, (k, f) ∈ fs → getThread s k = some u → u.lane < 32 →
            x.lanes.getLsbD u.lane = true ∧ (u.priv = true → x.pmode.getLsbD u.lane = true)
            ∧ ∃ y, getThread t k = some y ∧ y.frag = id ∧ y.rpass = rpass ∧ y.regs = u.regs ∧ y.cregs = u.cregs ∧ y.preds = u.preds
              ∧ y.flags = u.flags ∧ y.bud = u.bud
              ∧ (b.1 ≠ 0 → y.st = .entry ∧ y.pc = b.1 + BitVec.ofNat 64 (256 * c) ∧ y.lk = tokenOf id ∧ y.priv = !b.2
                  ∧ y.hand = (if b.2 then .user else .system))
              ∧ (b.1 = 0 → y.st = .parked ∧ y.pc = rpc ∧ y.lk = u.lk ∧ y.priv = u.priv ∧ y.hand = .none)
              ∧ (ownPlace s fs k u → ∀ w, Map.get? s.warps (warpKeyOf u) = some w → ∃ v, Map.get? t.warps (warpKeyOf u) = some v
                  ∧ Map.get? v.side u.lane = some ⟨fpc, BitVec.ofNat 64 (id.toNat * 2 ^ 32 + (if u.priv then 512 else 0) + 256 + f.reason * 16 + f.cause),
                      f.arg0, f.arg1⟩)
              ∧ (unlocked s = true → (partOf s (threadPart s t0)).fragtab.toNat % 1024 = 0 →
                  (∀ k' f' u', (k', f') ∈ fs → getThread s k' = some u' → u'.lane < 32 ∧ (k' ≠ k → u'.lane ≠ u.lane)) →
                  let a := (partOf s (threadPart s t0)).fragtab.toNat + 1024 * fk
                  physRead64 t (a + 0x40 + 8 * u.lane) = rpc ∧ physRead64 t (a + 0x140 + 8 * u.lane) = u.lk ∧ physRead64 t (a + 0x10) = fpc))
        ∧ (b.1 = 0 → (partOf t (threadPart s t0)).events = (partOf s (threadPart s t0)).events
            ++ [⟨eventWord (BitVec.ofNat 32 (coreOf s t0)) (leastReason fs) c 9, BitVec.ofNat 64 id.toNat, 0, 0, false⟩])
        ∧ (b.1 ≠ 0 → (partOf t (threadPart s t0)).events = (partOf s (threadPart s t0)).events))
  ∧ (∀ s0 s whole fs fpc slot rpc rpass t0, FaultTogether s fs t0 → freeEntry s (threadPart s t0) (coreOf s t0) = none →
      s0.warps.all (fun w => w.2.gen.isNone) = true → s0.fresh = s.fresh → s0.threads = s.threads →
      (∀ k ∈ whole, ∃ u, getThread s k = some u ∧ u.hand = .none) →
      ∃ t, raise s0 s whole fs fpc slot rpc rpass = (t, true) ∧ t.mem = s0.mem ∧ t.frags = s0.frags ∧ t.parts = s0.parts ∧ t.coreGroups = s0.coreGroups
        ∧ ∀ k ∈ whole, ∀ u, getThread s k = some u → ∃ y, getThread t k = some y ∧ y.st = .entry ∧ y.priv = true ∧ y.hand = .noEntry
            ∧ y.pc = (partOf s0 (threadPart s0 u)).trapbase + 0x700 ∧ y.rpass = slot ∧ y.regs = u.regs ∧ y.cregs = u.cregs ∧ y.preds = u.preds
            ∧ y.lk = u.lk ∧ y.flags = u.flags ∧ y.bud = u.bud)

/-- R28, R56, R64, R138-R140: moving a group on changes no register, predicate, flag, memory byte or table but where its
threads stand. -/
def Obligations.AdvanceFrame : Prop :=
  (∀ s gid, let t := advance s gid
    t.mem = s.mem ∧ t.coreGroups = s.coreGroups ∧ t.quadGroups = s.quadGroups ∧ t.clusterGroups = s.clusterGroups ∧ t.launches = s.launches
    ∧ t.frags = s.frags ∧ t.parts = s.parts ∧ t.pkg = s.pkg ∧ t.host = s.host ∧ t.boot = s.boot ∧ t.clock = s.clock
    ∧ (∀ wk w, Map.get? s.warps wk = some w → ∃ v, Map.get? t.warps wk = some v ∧ sameWarp w v)
    ∧ ∀ k x, getThread s k = some x → ∃ y, getThread t k = some y ∧ sameValues x y)
  ∧ (∀ s gid g, getGroup s gid = some g → g.pass.slot + 1 < g.pass.words.length →
      advance s gid = { s with groups := Map.put s.groups gid { g with pass := { g.pass with slot := g.pass.slot + 1 }, hold := .none } })
  ∧ (∀ s gid g k x, getGroup s gid = some g → g.pass.words.length ≤ g.pass.slot + 1 → g.waits = [] → k ∈ g.members → getThread s k = some x →
      s.warps.all (fun w => w.2.gen.isNone) = true →
      ∃ y, getThread (advance s gid) k = some y ∧ y.st = .entry ∧ y.pass = none
        ∧ y.pc = g.pass.hdr + 8 + 8 * BitVec.ofNat 64 g.pass.words.length)

/-- The frame of the register-only instructions: their destinations, the predicates, lk, budget state or flags they name, and
nothing else; no memory, scratch, mask, tile, partition or fragment changes. Only a result checked against its budget in mode 1 may
trap; then too, and in every mode, the values that are not its destinations stay in every thread. -/
def Obligations.RegisterFrame : Prop :=
  (∀ i ds s gid g t, dests i = some ds → At s gid g →
    (checksBudget i = true → ∀ k ∈ g.members, ∀ x, getThread s k = some x → budMode x.bud = 1 → ∀ b, breaches x.bud b = false) →
    exec i s = .next t →
    t.mem = s.mem ∧ t.coreGroups = s.coreGroups ∧ t.quadGroups = s.quadGroups ∧ t.clusterGroups = s.clusterGroups
    ∧ t.launches = s.launches ∧ t.frags = s.frags ∧ t.parts = s.parts ∧ t.pkg = s.pkg ∧ t.host = s.host ∧ t.boot = s.boot
    ∧ (∀ wk w, Map.get? s.warps wk = some w → ∃ v, Map.get? t.warps wk = some v ∧ sameWarp w v)
    ∧ ∀ k x, getThread s k = some x → ∃ y, getThread t k = some y ∧ (k ∉ g.members → sameValues x y) ∧ keepsBut i ds x y)
  ∧ (∀ i ds s gid g t, dests i = some ds → At s gid g → exec i s = .next t →
    t.quadGroups = s.quadGroups ∧ t.launches = s.launches ∧ t.host = s.host ∧ t.boot = s.boot
    ∧ ∀ k x, getThread s k = some x → ∃ y, getThread t k = some y ∧ keepsValues i ds x y
      ∧ (k ∉ g.members → y.regs = x.regs ∧ y.cregs = x.cregs ∧ y.preds = x.preds ∧ y.flags = x.flags ∧ y.bud = x.bud))

/-- Every step goes on to a next state: the manual gives every fault of the device an effect (R304, R315). That an act which is
not enabled changes nothing is the model's choice (log 1). -/
def Obligations.EveryStepGoesOn : Prop := ∀ s, GoesOn s

/-- Physical memory keeps its canonical form, update-only partials stay aligned to their operands and cached translations to
their pages, whatever a step does (R198, R212, R291, R295). -/
def Obligations.SoundnessIsKept : Prop := ∀ s t, Sound s → step s = .next t → Sound t

/-- R305, R312: whatever a step does, a thread in a system handler is privileged and one in a user handler is not. -/
def Obligations.HandlerModesAreKept : Prop := ∀ s t, HandlerModes s → step s = .next t → HandlerModes t

/-- R361, Tables 16-1, 17-1, 18-5, 21-7: what reset leaves; the reset state meets the invariants. FAILS 0, an empty flash and
MODE 0 before the first start (log 5), PART_CLUMASK 0 and the values of the model's own fields (log 69) are its choices. -/
def Obligations.ResetState : Prop :=
  Sound State.reset ∧ HandlerModes State.reset ∧ State.reset.threads = [] ∧ State.reset.boot.mode = 0
  ∧ (∀ p < 4, crRead State.reset p .preemptWin = 20000 ∧ crRead State.reset p .aging = 200 ∧ crRead State.reset p .classhold = 1000
      ∧ crRead State.reset p .trapbaseSys = 0 ∧ crRead State.reset p .fragtabBase = 0 ∧ crRead State.reset p .ptRoot = 0
      ∧ crRead State.reset p .migCtl = 0 ∧ crRead State.reset p .evqCfg = 0 ∧ crRead State.reset p .saveSlots = 0 ∧ crRead State.reset p .serialNext = 0)
  ∧ (∀ c < 128, (islandOf State.reset c).req = 5 ∧ (islandOf State.reset c).cur = 5)
  ∧ State.reset.pkg.congCfg = 0x002080C0 ∧ State.reset.pkg.slope = 200
end

