-- ==== Sys2Proof/Laws/Lanes.lean ====
section
/-! SUPPORT. What the shared lane operations do, once: an instruction whose lanes do not trap completes. -/

namespace Sys2Proof.Laws

open Sys2Proof.Machine Sys2Proof.Safety

/-- Without lanes that read lost data the listed faults are all. -/
theorem splitGroup_of_lost {s0 : State} (h : s0.lost = []) (s : State) (gid : Nat) (g : Group) (fs : List (Nat × FInfo))
    (after : Bool) : splitGroup s0 s gid g fs after = splitFaults s0 s gid g fs after := by
  unfold splitGroup
  rw [h]
  rfl

@[simp] theorem splitFaults_nil (s0 s : State) (gid : Nat) (g : Group) (after : Bool) :
    splitFaults s0 s gid g [] after = advance s gid := rfl

theorem splitGroup_nil {s0 : State} (h : s0.lost = []) (s : State) (gid : Nat) (g : Group) (after : Bool) :
    splitGroup s0 s gid g [] after = advance s gid := splitGroup_of_lost h ..

/-- Every lane whose guard is true makes the instruction, where none reads lost data. -/
theorem activeOf_of_lost {s : State} (h : s.lost = []) (g : Group) (gd : Guard) : activeOf s g gd = guardedOf s g gd := by
  unfold activeOf isLost
  rw [h]
  simp

theorem laneOp_at {s : State} {gid : Nat} {g : Group} (gd : Guard) (f : Nat → LaneFn) (h : At s gid g) :
    laneOp gd f s = splitFaults s (foldLanes (f gid) (activeOf s g gd) s).1 gid g
      (foldLanes (f gid) (activeOf s g gd) s).2 false := by
  unfold laneOp
  rw [show curGroup s = some (gid, g) from h.1]
  exact splitGroup_of_lost h.2 ..

theorem groupOp_at {s : State} {gid : Nat} {g : Group} (gd : Guard) (f : Nat → Group → List Nat → State → State)
    (h : At s gid g) : groupOp gd f s = f gid g (activeOf s g gd) s := by
  unfold groupOp
  rw [show curGroup s = some (gid, g) from h.1]

/-- Lanes that make their steps without a trap. -/
theorem foldLanes_of_runLanes {F : LaneFn} {f : Nat → Thread → State → Option State}
    (hf : ∀ k t s u, f k t s = some u → F k t s = (u, none)) (ks : List Nat) {s u : State}
    (h : runLanes f ks s = some u) : foldLanes F ks s = (u, []) := by
  induction ks generalizing s with
  | nil => simp only [runLanes, Option.some.injEq] at h; subst h; rfl
  | cons k r ih =>
    unfold runLanes at h
    unfold foldLanes
    cases ht : getThread s k with
    | none => rw [ht] at h; exact ih h
    | some t =>
      rw [ht] at h
      obtain ⟨v, hv, hu⟩ := Option.bind_eq_some_iff.mp h
      simp only [hf k t s v hv]
      exact ih hu

/-- A lane-by-lane instruction whose lanes do not trap. -/
theorem laneOp_steps {s u : State} {gid : Nat} {g : Group} {gd : Guard} {F : Nat → LaneFn}
    {f : Nat → Nat → Thread → State → Option State} (hf : ∀ n k t s u, f n k t s = some u → F n k t s = (u, none))
    (h : At s gid g) (hr : runLanes (f gid) (activeOf s g gd) s = some u) : laneOp gd F s = advance u gid := by
  rw [laneOp_at gd F h, foldLanes_of_runLanes (hf gid) _ hr]; rfl

theorem modThread_of_get {s : State} {k : Nat} {t : Thread} (f : Thread → Thread) (h : getThread s k = some t) :
    modThread s k f = setThread s k (f t) := by
  unfold modThread setThread Map.adjust
  rw [show Map.get? s.threads k = some t from h]

theorem modThread_of_none {s : State} {k : Nat} (f : Thread → Thread) (h : getThread s k = none) : modThread s k f = s := by
  unfold modThread Map.adjust
  rw [show Map.get? s.threads k = none from h]

/-- Lanes that change their own thread and never trap. -/
theorem foldLanes_ownLane {F : Thread → Except FInfo Thread} {f : Thread → Thread} (hf : ∀ t, F t = .ok (f t)) (ks : List Nat)
    (s : State) : foldLanes (ownLane F) ks s = (onThreads f ks s, []) := by
  induction ks generalizing s with
  | nil => rfl
  | cons k r ih =>
    unfold foldLanes onThreads
    cases ht : getThread s k with
    | none => rw [List.foldl_cons, modThread_of_none _ ht]; exact ih s
    | some t =>
      simp only [ownLane, hf, List.foldl_cons, modThread_of_get _ ht]
      exact ih _

/-- An instruction whose lanes change their own thread and never trap. -/
theorem threadOp_each {s : State} {gid : Nat} {g : Group} {gd : Guard} {F : Thread → Except FInfo Thread}
    {f : Thread → Thread} (hf : ∀ t, F t = .ok (f t)) (h : At s gid g) :
    threadOp gd F s = advance (onThreads f (activeOf s g gd) s) gid := by
  unfold threadOp
  rw [laneOp_at _ _ h, foldLanes_ownLane hf]; rfl

/-- An instruction whose lanes change their own thread or trap, where none traps. -/
theorem threadOp_steps {s u : State} {gid : Nat} {g : Group} {gd : Guard} {F : Thread → Except FInfo Thread}
    {f : Thread → Option Thread} (hf : ∀ t v, f t = some v → F t = .ok v) (h : At s gid g)
    (hr : runLanes (ownStep f) (activeOf s g gd) s = some u) : threadOp gd F s = advance u gid := by
  refine laneOp_steps (F := fun _ => ownLane F) (f := fun _ => ownStep f) ?_ h hr
  intro _ k t s u hu
  obtain ⟨v, hv, rfl⟩ := Option.map_eq_some_iff.mp hu
  simp [ownLane, hf t v hv]

theorem cur_of_at {s : State} {gid : Nat} {g : Group} (h : At s gid g) : s.cur = .group gid := by
  replace h := h.1
  unfold curGroup at h
  split at h
  · next n hc =>
    cases hg : getGroup s n with
    | none => rw [hg] at h; simp at h
    | some x =>
      rw [hg] at h
      simp only [Option.map_some, Option.some.injEq, Prod.mk.injEq] at h
      rw [hc, h.1]
  · simp at h

/-- An instruction of the STR subset on an issue group. -/
theorem aluOp_each {s : State} {gid : Nat} {g : Group} {gd : Guard} (e : RegFile → List (Nat × Reg) × Byte)
    (h : At s gid g) : aluOp gd e s = advance (onThreads (fun t => orFlags (setRegs t (e (getReg t)).1) (e (getReg t)).2)
      (activeOf s g gd) s) gid := by
  unfold aluOp
  rw [cur_of_at h]
  exact threadOp_each (fun _ => rfl) h

/-- An instruction of the STR subset on an instance. -/
theorem aluOp_slice {s : State} {qk : Nat} {gd : Guard} (e : RegFile → List (Nat × Reg) × Byte) (h : s.cur = .slice qk) :
    aluOp gd e s = modSlice s qk (fun x => sliceWrites (e (sliceRegs x)).1 x) := by
  unfold aluOp
  rw [h]
  rfl

/-- Both at once. -/
theorem aluOp_computes {i : Instr} {gd : Guard} {e : RegFile → List (Nat × Reg) × Byte}
    (h : ∀ s, exec i s = .next (aluOp gd e s)) : Computes i gd e :=
  ⟨fun s _ _ hat => by rw [h s, aluOp_each e hat], fun s _ hc => by rw [h s, aluOp_slice e hc]⟩

end Sys2Proof.Laws
end

