-- ==== Sys2Proof/Laws/Map.lean ====
section
/-! SUPPORT. Laws of the finite maps: reading after writing, and the canonical form. -/

namespace Sys2Proof.Machine.Map

variable {α : Type}

/-! ## Reading after writing -/

theorem get?_erase_self (m : Map α) (a : Nat) : get? (erase m a) a = none := by
  induction m with
  | nil => rfl
  | cons e r ih =>
    obtain ⟨k, v⟩ := e
    by_cases h : k = a
    · simpa [erase, h] using ih
    · simpa [erase, h, get?] using ih

theorem get?_erase_ne (m : Map α) {a b : Nat} (h : b ≠ a) : get? (erase m a) b = get? m b := by
  induction m with
  | nil => rfl
  | cons e r ih =>
    obtain ⟨k, v⟩ := e
    by_cases hk : k = a
    · have hb : k ≠ b := fun e => h (e ▸ hk)
      have hb' : ¬ a = b := fun e => h e.symm
      simpa [erase, hk, get?, hb, hb'] using ih
    · by_cases hb : k = b
      · subst hb; simp [erase, h, get?]
      · simpa [erase, hk, get?, hb] using ih

theorem get?_ins_self (m : Map α) (a : Nat) (v : α) (h : get? m a = none) : get? (ins m a v) a = some v := by
  induction m with
  | nil => simp [ins, get?]
  | cons e r ih =>
    obtain ⟨k, w⟩ := e
    by_cases hk : k = a
    · simp [get?, hk] at h
    · simp only [get?, hk, if_false] at h
      by_cases hl : a < k
      · simp [ins, hl, get?]
      · simp [ins, hl, get?, hk, ih h]

theorem get?_ins_ne (m : Map α) {a b : Nat} (v : α) (h : b ≠ a) : get? (ins m a v) b = get? m b := by
  induction m with
  | nil => simp [ins, get?, Ne.symm h]
  | cons e r ih =>
    obtain ⟨k, w⟩ := e
    by_cases hl : a < k
    · simp [ins, hl, get?, Ne.symm h]
    · by_cases hb : k = b
      · subst hb; simp [ins, hl, get?]
      · simp [ins, hl, get?, hb, ih]

/-- A read after a write to the same key gives the value written. -/
@[simp] theorem get?_put_self (m : Map α) (a : Nat) (v : α) : get? (put m a v) a = some v :=
  get?_ins_self _ _ _ (get?_erase_self m a)

/-- A write leaves every other key alone. -/
theorem get?_put_ne (m : Map α) {a b : Nat} (v : α) (h : b ≠ a) : get? (put m a v) b = get? m b := by
  rw [put, get?_ins_ne _ _ h, get?_erase_ne _ h]

theorem get?_put (m : Map α) (a b : Nat) (v : α) : get? (put m a v) b = if b = a then some v else get? m b := by
  by_cases h : b = a
  · simp [h]
  · simp [h, get?_put_ne m v h]

@[simp] theorem get_putD_self [DecidableEq α] (d : α) (m : Map α) (a : Nat) (v : α) : get d (putD d m a v) a = v := by
  unfold putD get
  split
  · next h => rw [get?_erase_self, h]; rfl
  · rw [get?_put_self]; rfl

theorem get_putD_ne [DecidableEq α] (d : α) (m : Map α) {a b : Nat} (v : α) (h : b ≠ a) :
    get d (putD d m a v) b = get d m b := by
  unfold putD get
  split
  · rw [get?_erase_ne _ h]
  · rw [get?_put_ne _ _ h]

theorem get_putD [DecidableEq α] (d : α) (m : Map α) (a b : Nat) (v : α) :
    get d (putD d m a v) b = if b = a then v else get d m b := by
  by_cases h : b = a
  · simp [h]
  · simp [h, get_putD_ne d m v h]

theorem get?_adjust (m : Map α) (a b : Nat) (f : α → α) :
    get? (adjust m a f) b = if b = a then (get? m a).map f else get? m b := by
  unfold adjust
  split
  · next v hv =>
    rw [get?_put]
    split
    · next h => rw [hv]; rfl
    · rfl
  · next hv =>
    split
    · next h => rw [h, hv]; rfl
    · rfl

/-! ## The canonical form -/

/-- Every key lies above a bound. -/
def above (n : Nat) (m : Map α) : Bool := m.all (fun e => decide (n < e.1))

theorem sorted_cons (a : Nat) (v : α) (m : Map α) : sorted ((a, v) :: m) = (above a m && sorted m) := by
  induction m generalizing a v with
  | nil => rfl
  | cons e r ih =>
    obtain ⟨b, w⟩ := e
    simp only [sorted, ih, above, List.all_cons]
    by_cases h : a < b
    · simp only [h, decide_true, Bool.true_and]
      cases hb : r.all (fun e => decide (b < e.1))
      · simp
      · have : r.all (fun e => decide (a < e.1)) = true := by
          rw [List.all_eq_true] at hb ⊢
          intro x hx
          have := hb x hx
          simp only [decide_eq_true_eq] at this ⊢
          omega
        simp [this]
    · simp [h]

theorem above_filter {n : Nat} {m : Map α} (p : Nat × α → Bool) (h : above n m = true) : above n (m.filter p) = true := by
  simp only [above, List.all_eq_true] at h ⊢
  exact fun x hx => h x (List.mem_filter.mp hx).1

theorem sorted_filter {m : Map α} (p : Nat × α → Bool) (h : sorted m = true) : sorted (m.filter p) = true := by
  induction m with
  | nil => rfl
  | cons e r ih =>
    obtain ⟨a, v⟩ := e
    rw [sorted_cons, Bool.and_eq_true] at h
    by_cases hp : p (a, v) = true
    · rw [List.filter_cons_of_pos hp, sorted_cons, above_filter p h.1, ih h.2]; rfl
    · rw [List.filter_cons_of_neg hp]; exact ih h.2

theorem mem_ins {m : Map α} {a : Nat} {v : α} {e : Nat × α} (h : e ∈ ins m a v) : e = (a, v) ∨ e ∈ m := by
  induction m with
  | nil => simp only [ins, List.mem_singleton] at h; exact .inl h
  | cons x r ih =>
    obtain ⟨k, w⟩ := x
    by_cases hl : a < k
    · simp only [ins, hl, if_true, List.mem_cons] at h ⊢; exact h
    · simp only [ins, hl, if_false, List.mem_cons] at h ⊢
      rcases h with h | h
      · exact .inr (.inl h)
      · rcases ih h with h | h
        · exact .inl h
        · exact .inr (.inr h)

theorem sorted_ins {m : Map α} {a : Nat} (v : α) (hs : sorted m = true) (hn : ∀ e ∈ m, e.1 ≠ a) :
    sorted (ins m a v) = true := by
  induction m with
  | nil => rfl
  | cons e r ih =>
    obtain ⟨k, w⟩ := e
    rw [sorted_cons, Bool.and_eq_true] at hs
    by_cases hl : a < k
    · simp only [ins, hl, if_true, sorted_cons, above, List.all_cons, hs.2, Bool.and_eq_true, decide_eq_true_eq, and_true,
        List.all_eq_true]
      have h1 := hs.1
      simp only [above, List.all_eq_true, decide_eq_true_eq] at h1
      exact ⟨⟨trivial, fun x hx => Nat.lt_trans hl (h1 x hx)⟩, h1⟩
    · have hk : k ≠ a := hn (k, w) (by simp)
      simp only [ins, hl, if_false, sorted_cons, ih hs.2 (fun e he => hn e (by simp [he])), Bool.and_true]
      have h1 := hs.1
      simp only [above, List.all_eq_true, decide_eq_true_eq] at h1 ⊢
      intro x hx
      rcases mem_ins hx with h | h
      · subst h; show k < a; omega
      · exact h1 x h

theorem erase_ne {m : Map α} {a : Nat} : ∀ e ∈ erase m a, e.1 ≠ a := by
  intro e he
  simp only [erase, List.mem_filter, bne_iff_ne, ne_eq] at he
  exact he.2

theorem sorted_erase {m : Map α} (a : Nat) (h : sorted m = true) : sorted (erase m a) = true := sorted_filter _ h

theorem sorted_put {m : Map α} (a : Nat) (v : α) (h : sorted m = true) : sorted (put m a v) = true :=
  sorted_ins v (sorted_erase a h) erase_ne

theorem sorted_putD [DecidableEq α] {d : α} {m : Map α} (a : Nat) (v : α) (h : sorted m = true) :
    sorted (putD d m a v) = true := by
  unfold putD; split
  · exact sorted_erase a h
  · exact sorted_put a v h

theorem sorted_adjust {m : Map α} (a : Nat) (f : α → α) (h : sorted m = true) : sorted (adjust m a f) = true := by
  unfold adjust; split
  · exact sorted_put _ _ h
  · exact h

theorem wf_iff [DecidableEq α] {d : α} {m : Map α} :
    wf d m = true ↔ sorted m = true ∧ ∀ e ∈ m, e.2 ≠ d := by
  simp [wf, Bool.and_eq_true, List.all_eq_true]

theorem wf_filter [DecidableEq α] {d : α} {m : Map α} (p : Nat × α → Bool) (h : wf d m = true) : wf d (m.filter p) = true := by
  rw [wf_iff] at h ⊢
  exact ⟨sorted_filter p h.1, fun e he => h.2 e (List.mem_filter.mp he).1⟩

/-- A write keeps the canonical form. -/
theorem wf_putD [DecidableEq α] {d : α} {m : Map α} (a : Nat) (v : α) (h : wf d m = true) : wf d (putD d m a v) = true := by
  rw [wf_iff] at h ⊢
  refine ⟨sorted_putD a v h.1, ?_⟩
  unfold putD
  split
  · intro e he
    exact h.2 e (List.mem_filter.mp he).1
  · next hv =>
    intro e he
    rcases mem_ins he with h' | h'
    · subst h'; exact hv
    · exact h.2 e (List.mem_filter.mp h').1

end Sys2Proof.Machine.Map
end

