-- ==== Sys2Proof/Laws/Memory.lean ====
section
/-! SUPPORT. Laws of memory: reading after writing a byte or a run of bytes, little-endian values, and that every operation
on memory keeps its canonical form. -/

namespace Sys2Proof.Laws

open Sys2Proof.Machine

/-! ## Bytes -/

@[simp] theorem memGet_memSet_self (m : Memory) (a : Nat) (b : Byte) : memGet (memSet m a b) a = b :=
  Map.get_putD_self 0 m a b

theorem memGet_memSet_ne (m : Memory) {a c : Nat} (b : Byte) (h : c ≠ a) : memGet (memSet m a b) c = memGet m c :=
  Map.get_putD_ne 0 m b h

theorem memGet_memSet (m : Memory) (a c : Nat) (b : Byte) : memGet (memSet m a b) c = if c = a then b else memGet m c :=
  Map.get_putD 0 m a c b

/-- A run of bytes leaves every other address alone. -/
theorem memGet_memWrite_out (l : List Byte) (m : Memory) (a c : Nat) (h : c < a ∨ a + l.length ≤ c) :
    memGet (memWrite m a l) c = memGet m c := by
  induction l generalizing m a with
  | nil => rfl
  | cons b r ih =>
    simp only [List.length_cons] at h
    rw [memWrite, ih _ _ (by omega), memGet_memSet_ne _ _ (by omega)]

/-- A run of bytes reads back. -/
theorem memGet_memWrite_in (l : List Byte) (m : Memory) (a i : Nat) (h : i < l.length) :
    memGet (memWrite m a l) (a + i) = l.getD i 0 := by
  induction l generalizing m a i with
  | nil => simp at h
  | cons b r ih =>
    cases i with
    | zero => rw [memWrite, memGet_memWrite_out _ _ _ _ (by omega)]; simp
    | succ j =>
      simp only [List.length_cons] at h
      rw [memWrite, show a + (j + 1) = a + 1 + j by omega, ih _ _ _ (by omega)]
      simp

theorem memBytes_length (m : Memory) (a n : Nat) : (memBytes m a n).length = n := by simp [memBytes]

/-- What is stored is what is read. -/
theorem memBytes_memWrite (l : List Byte) (m : Memory) (a : Nat) : memBytes (memWrite m a l) a l.length = l := by
  apply List.ext_getElem
  · simp [memBytes]
  · intro i h1 h2
    simp only [memBytes, List.getElem_map, List.getElem_range]
    rw [memGet_memWrite_in l m a i h2]
    simp [List.getD_eq_getElem?_getD, h2]

theorem leBytes_length (n v : Nat) : (leBytes n v).length = n := by
  induction n generalizing v with
  | zero => rfl
  | succ n ih => simp [leBytes, ih]

/-- A little-endian value of n bytes reads back (R3). -/
theorem leNat_leBytes (n v : Nat) : leNat (leBytes n v) = v % 256 ^ n := by
  induction n generalizing v with
  | zero => simp [leBytes, leNat, Nat.mod_one]
  | succ n ih =>
    simp only [leBytes, leNat, ih, BitVec.toNat_ofNat]
    rw [show 256 ^ (n + 1) = 256 * 256 ^ n from Nat.pow_succ', Nat.mod_mul (x := v) (a := 256)]

/-! ## The canonical form -/

theorem memWf_nil : memWf [] = true := rfl

/-- A byte written keeps the canonical form. -/
theorem memWf_memSet {m : Memory} (a : Nat) (b : Byte) (h : memWf m = true) : memWf (memSet m a b) = true :=
  Map.wf_putD a b h

theorem memWf_filter {m : Memory} (p : Host.Cell → Bool) (h : memWf m = true) : memWf (m.filter p) = true :=
  Map.wf_filter p h

theorem memWf_memWrite {m : Memory} (a : Nat) (l : List Byte) (h : memWf m = true) : memWf (memWrite m a l) = true := by
  induction l generalizing m a with
  | nil => exact h
  | cons b r ih => exact ih _ (memWf_memSet a b h)

theorem memWf_foldl {α : Type} (f : Memory → α → Memory) (hf : ∀ m x, memWf m = true → memWf (f m x) = true) (l : List α)
    {m : Memory} (h : memWf m = true) : memWf (l.foldl f m) = true := by
  induction l generalizing m with
  | nil => exact h
  | cons x r ih => exact ih (hf m x h)

/-- The memory system's bytes are in canonical form. -/
abbrev sysWf (m : MemSys) : Prop := memWf m.bytes = true

theorem sysWf_foldl {α : Type} (f : MemSys → α → MemSys) (hf : ∀ m x, sysWf m → sysWf (f m x)) (l : List α)
    {m : MemSys} (h : sysWf m) : sysWf (l.foldl f m) := by
  induction l generalizing m with
  | nil => exact h
  | cons x r ih => exact ih (hf m x h)

@[simp] theorem setRec_bytes (m : MemSys) (line : Nat) (r : BRec) : (setRec m line r).bytes = m.bytes := rfl
@[simp] theorem markDirty_bytes (m : MemSys) (line : Nat) : (markDirty m line).bytes = m.bytes := rfl
@[simp] theorem keepOld_bytes (m : MemSys) (a n : Nat) : (keepOld m a n).bytes = m.bytes := rfl
@[simp] theorem dropOld_bytes (m : MemSys) (hit : Nat → Bool) : (dropOld m hit).bytes = m.bytes := rfl
@[simp] theorem dropCopies_bytes (m : MemSys) (hit : Nat → Bool) : (dropCopies m hit).bytes = m.bytes := rfl
@[simp] theorem settleLines_bytes (m : MemSys) (hit : Nat → Bool) : (settleLines m hit).bytes = m.bytes := rfl
@[simp] theorem fillL2_bytes (m : MemSys) (cls line : Nat) : (fillL2 m cls line).bytes = m.bytes := by
  unfold fillL2; split <;> rfl
@[simp] theorem useL2_bytes (m : MemSys) (evc line : Nat) : (useL2 m evc line).bytes = m.bytes := by
  unfold useL2; (repeat' split) <;> simp
@[simp] theorem fillL1_bytes (m : MemSys) (core line : Nat) (c : CLine) : (fillL1 m core line c).bytes = m.bytes := by
  unfold fillL1; split
  · rfl
  · dsimp only; split <;> simp
@[simp] theorem useL1_bytes (m : MemSys) (core evc line : Nat) (w : Bool) : (useL1 m core evc line w).bytes = m.bytes := by
  unfold useL1; (repeat' split) <;> simp

/-- The caches change no byte that a program reads (R107). -/
@[simp] theorem cacheUse_bytes (m : MemSys) (core : Option Nat) (evc line : Nat) (w : Bool) :
    (cacheUse m core evc line w).bytes = m.bytes := by
  unfold cacheUse; cases core <;> dsimp only <;> split <;> simp
@[simp] theorem putBytes_bytes (m : MemSys) (a : Nat) (l : List Byte) : (putBytes m a l).bytes = memWrite m.bytes a l := rfl

@[simp] theorem putBounds_bytes (m : MemSys) (bt : Bool) (a : Nat) (l : List (BitVec 16)) :
    (putBounds m bt a l).bytes = m.bytes := by
  induction l generalizing m a with
  | nil => rfl
  | cons b r ih =>
    rw [putBounds, ih]
    split <;> rfl

/-- A store changes exactly the bytes it writes. -/
@[simp] theorem putStore_bytes (m : MemSys) (bt narrow : Bool) (a : Nat) (l : List Byte) (bs : List (BitVec 16)) :
    (putStore m bt narrow a l bs).bytes = memWrite m.bytes a l := by
  simp [putStore]

theorem sysWf_putStore {m : MemSys} (bt narrow : Bool) (a : Nat) (l : List Byte) (bs : List (BitVec 16)) (h : sysWf m) :
    sysWf (putStore m bt narrow a l bs) := by
  rw [sysWf, putStore_bytes]; exact memWf_memWrite a l h

theorem sysWf_applyPartial {m : MemSys} (p : Partial) (h : sysWf m) : sysWf (applyPartial m p) := sysWf_putStore _ _ _ _ _ h

theorem sysWf_combineLine {m : MemSys} (line : Nat) (h : sysWf m) : sysWf (combineLine m line) :=
  sysWf_foldl _ (fun _ _ => sysWf_applyPartial _) _ h

/-- A block reads under its own key as it was written (R303). -/
@[simp] theorem viewBlock_own (a k : Nat) (x : BitVec 128) : viewBlock a k k x = x := by simp [viewBlock]

@[simp] theorem viewRec_own (line k : Nat) (r : BRec) : viewRec line k k r = r := by simp [viewRec]

/-- Only the block's own bytes change as another key reaches it. -/
theorem rekeyBlockAt_bytes (k k' : Nat) (m : MemSys) (a : Nat) :
    (rekeyBlockAt k k' m a).bytes = memWrite m.bytes a (leBytes 16 (viewBlock a (blockBase m k a).1 (nameOf m k') (blockBase m k a).2).toNat) := by
  simp only [rekeyBlockAt]

theorem sysWf_rekeyBlockAt {m : MemSys} (k k' a : Nat) (h : sysWf m) : sysWf (rekeyBlockAt k k' m a) := by
  rw [sysWf, rekeyBlockAt_bytes]; exact memWf_memWrite _ _ h

@[simp] theorem rekeyRecAt_bytes (k k' line : Nat) (m : MemSys) : (rekeyRecAt k k' line m).bytes = m.bytes := rfl

theorem sysWf_rekeyBlocks {m : MemSys} (k k' : Nat) (l : List Nat) (h : sysWf m) : sysWf (l.foldl (rekeyBlockAt k k') m) :=
  sysWf_foldl _ (fun _ a => sysWf_rekeyBlockAt k k' a) l h

theorem sysWf_rekeyLine {m : MemSys} (line key : Nat) (h : sysWf m) : sysWf (rekeyLine m line key) := by
  unfold rekeyLine
  split
  · exact h
  · split
    · exact h
    · next k _ =>
      split
      · exact h
      split
      · exact h
      · have hb := sysWf_rekeyBlocks k key ((List.range 8).map (fun i => line * 128 + 16 * i)) h
        generalize ((List.range 8).map (fun i => line * 128 + 16 * i)).foldl (rekeyBlockAt k key) m = m1 at hb ⊢
        dsimp only
        split <;> exact hb

theorem sysWf_openLine {m : MemSys} (line key : Nat) (h : sysWf m) : sysWf (openLine m line key) :=
  sysWf_rekeyLine line key (sysWf_combineLine line h)

theorem sysWf_startMem {m : MemSys} (fresh : Nat) (h : sysWf m) : sysWf (startMem fresh m) :=
  sysWf_foldl _ (fun _ _ => sysWf_combineLine _) _ h

theorem sysWf_contribute {m : MemSys} (core pa key : Nat) (bt : Bool) (op : AOp) (ty : Ty) (b : DWord) (bb : BitVec 16)
    (h : sysWf m) : sysWf (contribute m core pa key bt op ty b bb) := by
  unfold contribute
  apply sysWf_rekeyLine
  split
  · exact h
  · exact sysWf_combineLine _ h

theorem sysWf_migCopy {m : MemSys} (a b n ka kb : Nat) (h : sysWf m) : sysWf (migCopy m a b n ka kb) := by
  unfold migCopy
  refine sysWf_foldl _ (fun m i hm => ?_) _ ?_
  · split
    · exact hm
    · exact hm
  · exact memWf_foldl _ (fun _ _ => memWf_memSet _ _) _
      (memWf_filter _ (sysWf_foldl _ (fun _ _ => sysWf_openLine _ _) _ h))

/-! ## The canonical form in the whole state -/

/-- A state's memory is in canonical form. -/
abbrev stWf (s : State) : Prop := memWf s.mem.bytes = true

theorem stWf_reset : stWf State.reset := rfl

theorem stWf_openLoc {s : State} (l : Loc) (h : stWf s) : stWf (openLoc s l) := by
  unfold openLoc; split
  · exact sysWf_openLine _ _ h
  · exact h

theorem stWf_readLoc {s : State} (l : Loc) (n : Nat) (h : stWf s) : stWf (readLoc s l n).2 := stWf_openLoc _ h

theorem stWf_pokeLoc {s : State} (loc : Loc) (keep : StashRef) (l : List Byte) (bs : List (BitVec 16)) (narrow : Bool)
    (h : stWf s) : stWf (pokeLoc s loc keep l bs narrow).1 := by
  unfold pokeLoc; split
  · exact sysWf_putStore _ _ _ _ _ (sysWf_openLine _ _ h)
  · exact h

theorem stWf_storeLoc {s : State} (loc : Loc) (l : List Byte) (bs : List (BitVec 16)) (v : Option Via) (h : stWf s) :
    stWf (storeLoc s loc l bs v) := by
  unfold storeLoc; split
  · exact h
  · exact stWf_pokeLoc _ _ _ _ _ h

/-- What an access does in the package beside memory changes no byte. -/
@[simp] theorem answered_mem (s : State) (core : Option Nat) (line : Nat) (w : Bool) : (answered s core line w).mem = s.mem := by
  unfold answered
  induction snooped s core line w generalizing s with
  | nil => rfl
  | cons d r ih => rw [List.foldl_cons, ih]; rfl

@[simp] theorem combineRead_mem (s : State) (cluster line key : Nat) : (combineRead s cluster line key).mem = s.mem := by
  unfold combineRead; dsimp only; (repeat' split) <;> rfl

@[simp] theorem cacheAcc_bytes (s : State) (core : Option Nat) (evc : Nat) (plain : Bool) (l : Loc) (w : Bool) :
    (cacheAcc s core evc plain l w).mem.bytes = s.mem.bytes := by
  unfold cacheAcc
  split
  · rfl
  · simp only [cacheUse_bytes]
    (repeat' split) <;> simp [combineWrite]

theorem stWf_physPoke {s : State} (a : Nat) (l : List Byte) (h : stWf s) : stWf (physPoke s a l) :=
  sysWf_putStore _ _ _ _ _ (sysWf_combineLine _ (by simpa [homeAcc, sysWf] using h))

theorem stWf_physStore {s : State} (a : Nat) (l : List Byte) (h : stWf s) : stWf (physStore s a l) := by
  unfold physStore; split
  · exact h
  · exact stWf_physPoke _ _ h

theorem stWf_physWrite64 {s : State} (a : Nat) (v : DWord) (h : stWf s) : stWf (physWrite64 s a v) := stWf_physStore _ _ h
theorem stWf_physWrite32 {s : State} (a : Nat) (v : Word) (h : stWf s) : stWf (physWrite32 s a v) := stWf_physStore _ _ h

theorem stWf_foldl {α : Type} (f : State → α → State) (hf : ∀ s x, stWf s → stWf (f s x)) (l : List α) {s : State}
    (h : stWf s) : stWf (l.foldl f s) := by
  induction l generalizing s with
  | nil => exact h
  | cons x r ih => exact ih (hf s x h)

/-! ### The image of a saved warp -/

theorem sorted_append {α : Type} {p q : Map α} (hp : Map.sorted p = true) (hq : Map.sorted q = true)
    (h : ∀ x ∈ p, ∀ y ∈ q, x.1 < y.1) : Map.sorted (p ++ q) = true := by
  induction p with
  | nil => exact hq
  | cons e r ih =>
    obtain ⟨a, v⟩ := e
    rw [Map.sorted_cons, Bool.and_eq_true] at hp
    rw [List.cons_append, Map.sorted_cons, Bool.and_eq_true]
    refine ⟨?_, ih hp.2 (fun x hx => h x (by simp [hx]))⟩
    have h1 := hp.1
    simp only [Map.above, List.all_eq_true, decide_eq_true_eq, List.mem_append] at h1 ⊢
    rintro x (hx | hx)
    · exact h1 x hx
    · exact h (a, v) (by simp) x hx

theorem sorted_range_filterMap {α : Type} (a n : Nat) (f : Nat → Option α) :
    Map.sorted ((List.range n).filterMap (fun o => (f o).map (fun b => (a + o, b)))) = true := by
  induction n with
  | zero => rfl
  | succ n ih =>
    rw [List.range_succ, List.filterMap_append]
    apply sorted_append ih
    · cases h : f n <;> simp [h, Map.sorted]
    · intro x hx y hy
      simp only [List.mem_filterMap, List.mem_range, List.mem_singleton, Option.map_eq_some_iff] at hx hy
      obtain ⟨o, ho, b, _, rfl⟩ := hx
      obtain ⟨o', rfl, b', _, rfl⟩ := hy
      simp only; omega

theorem stWf_fillImage {s : State} (a n : Nat) (h : stWf s) : stWf (fillImage s a n) := by
  have hb := Map.wf_iff.mp h
  unfold fillImage stWf memWf
  rw [Map.wf_iff]
  simp only
  have hn : ∀ (g : Nat → Byte), (List.range n).filterMap (fun o => if g o = 0 then none else some (a + o, g o)) =
      (List.range n).filterMap (fun o => (if g o = 0 then none else some (g o)).map (fun b => (a + o, b))) := by
    intro g; congr 1; funext o; split <;> rfl
  have hnew := hn (fun o => (Config.freeWord (s.fresh + o / 4) >>> (8 * (o % 4))).setWidth 8)
  constructor
  · apply sorted_append
    · apply sorted_append
      · exact Map.sorted_filter _ hb.1
      · rw [hnew]; exact sorted_range_filterMap a n _
      · intro x hx y hy
        simp only [List.mem_filter, decide_eq_true_eq] at hx
        rw [hnew] at hy
        simp only [List.mem_filterMap, List.mem_range, Option.map_eq_some_iff] at hy
        obtain ⟨o, _, b, _, rfl⟩ := hy
        show x.1 < a + o
        omega
    · exact Map.sorted_filter _ hb.1
    · intro x hx y hy
      simp only [List.mem_filter, decide_eq_true_eq] at hy
      rcases List.mem_append.mp hx with hx | hx
      · simp only [List.mem_filter, decide_eq_true_eq] at hx
        omega
      · rw [hnew] at hx
        simp only [List.mem_filterMap, List.mem_range, Option.map_eq_some_iff] at hx
        obtain ⟨o, ho, b, _, rfl⟩ := hx
        show a + o < y.1
        omega
  · intro e he
    rcases List.mem_append.mp he with he | he
    · rcases List.mem_append.mp he with he | he
      · exact hb.2 e (List.mem_filter.mp he).1
      · simp only [List.mem_filterMap, List.mem_range] at he
        obtain ⟨o, _, ho⟩ := he
        split at ho
        · cases ho
        · next hz => cases ho; exact hz
    · exact hb.2 e (List.mem_filter.mp he).1

end Sys2Proof.Laws
end

