-- ==== Sys2Proof/Laws/State.lean ====
section
/-! SUPPORT. What each named update of the state leaves as it was: one lemma per field per update, true by `rfl`. -/

namespace Sys2Proof.Machine

/-! ### setPart writes `parts` alone -/

@[simp] theorem setPart_agenda (s : State) (p : Nat) (f : Part → Part) : (setPart s p f).agenda = s.agenda := rfl
@[simp] theorem setPart_cur (s : State) (p : Nat) (f : Part → Part) : (setPart s p f).cur = s.cur := rfl
@[simp] theorem setPart_lost (s : State) (p : Nat) (f : Part → Part) : (setPart s p f).lost = s.lost := rfl
@[simp] theorem setPart_clock (s : State) (p : Nat) (f : Part → Part) : (setPart s p f).clock = s.clock := rfl
@[simp] theorem setPart_fresh (s : State) (p : Nat) (f : Part → Part) : (setPart s p f).fresh = s.fresh := rfl
@[simp] theorem setPart_acts (s : State) (p : Nat) (f : Part → Part) : (setPart s p f).acts = s.acts := rfl
@[simp] theorem setPart_nextId (s : State) (p : Nat) (f : Part → Part) : (setPart s p f).nextId = s.nextId := rfl
@[simp] theorem setPart_threads (s : State) (p : Nat) (f : Part → Part) : (setPart s p f).threads = s.threads := rfl
@[simp] theorem setPart_groups (s : State) (p : Nat) (f : Part → Part) : (setPart s p f).groups = s.groups := rfl
@[simp] theorem setPart_warps (s : State) (p : Nat) (f : Part → Part) : (setPart s p f).warps = s.warps := rfl
@[simp] theorem setPart_sideLeft (s : State) (p : Nat) (f : Part → Part) : (setPart s p f).sideLeft = s.sideLeft := rfl
@[simp] theorem setPart_quadGroups (s : State) (p : Nat) (f : Part → Part) : (setPart s p f).quadGroups = s.quadGroups := rfl
@[simp] theorem setPart_turns (s : State) (p : Nat) (f : Part → Part) : (setPart s p f).turns = s.turns := rfl
@[simp] theorem setPart_pcTable (s : State) (p : Nat) (f : Part → Part) : (setPart s p f).pcTable = s.pcTable := rfl
@[simp] theorem setPart_lows (s : State) (p : Nat) (f : Part → Part) : (setPart s p f).lows = s.lows := rfl
@[simp] theorem setPart_coreGroups (s : State) (p : Nat) (f : Part → Part) : (setPart s p f).coreGroups = s.coreGroups := rfl
@[simp] theorem setPart_clusterGroups (s : State) (p : Nat) (f : Part → Part) : (setPart s p f).clusterGroups = s.clusterGroups := rfl
@[simp] theorem setPart_launches (s : State) (p : Nat) (f : Part → Part) : (setPart s p f).launches = s.launches := rfl
@[simp] theorem setPart_frags (s : State) (p : Nat) (f : Part → Part) : (setPart s p f).frags = s.frags := rfl
@[simp] theorem setPart_mem (s : State) (p : Nat) (f : Part → Part) : (setPart s p f).mem = s.mem := rfl
@[simp] theorem setPart_pkg (s : State) (p : Nat) (f : Part → Part) : (setPart s p f).pkg = s.pkg := rfl
@[simp] theorem setPart_host (s : State) (p : Nat) (f : Part → Part) : (setPart s p f).host = s.host := rfl
@[simp] theorem setPart_boot (s : State) (p : Nat) (f : Part → Part) : (setPart s p f).boot = s.boot := rfl

/-! ### postEvent writes `parts` alone -/

@[simp] theorem postEvent_agenda (s : State) (p : Nat) (src : Word) (kind cause reason : Nat) (x y z : DWord) (q : Bool) : (postEvent s p src kind cause reason x y z q).agenda = s.agenda := rfl
@[simp] theorem postEvent_cur (s : State) (p : Nat) (src : Word) (kind cause reason : Nat) (x y z : DWord) (q : Bool) : (postEvent s p src kind cause reason x y z q).cur = s.cur := rfl
@[simp] theorem postEvent_lost (s : State) (p : Nat) (src : Word) (kind cause reason : Nat) (x y z : DWord) (q : Bool) : (postEvent s p src kind cause reason x y z q).lost = s.lost := rfl
@[simp] theorem postEvent_clock (s : State) (p : Nat) (src : Word) (kind cause reason : Nat) (x y z : DWord) (q : Bool) : (postEvent s p src kind cause reason x y z q).clock = s.clock := rfl
@[simp] theorem postEvent_fresh (s : State) (p : Nat) (src : Word) (kind cause reason : Nat) (x y z : DWord) (q : Bool) : (postEvent s p src kind cause reason x y z q).fresh = s.fresh := rfl
@[simp] theorem postEvent_acts (s : State) (p : Nat) (src : Word) (kind cause reason : Nat) (x y z : DWord) (q : Bool) : (postEvent s p src kind cause reason x y z q).acts = s.acts := rfl
@[simp] theorem postEvent_nextId (s : State) (p : Nat) (src : Word) (kind cause reason : Nat) (x y z : DWord) (q : Bool) : (postEvent s p src kind cause reason x y z q).nextId = s.nextId := rfl
@[simp] theorem postEvent_threads (s : State) (p : Nat) (src : Word) (kind cause reason : Nat) (x y z : DWord) (q : Bool) : (postEvent s p src kind cause reason x y z q).threads = s.threads := rfl
@[simp] theorem postEvent_groups (s : State) (p : Nat) (src : Word) (kind cause reason : Nat) (x y z : DWord) (q : Bool) : (postEvent s p src kind cause reason x y z q).groups = s.groups := rfl
@[simp] theorem postEvent_warps (s : State) (p : Nat) (src : Word) (kind cause reason : Nat) (x y z : DWord) (q : Bool) : (postEvent s p src kind cause reason x y z q).warps = s.warps := rfl
@[simp] theorem postEvent_sideLeft (s : State) (p : Nat) (src : Word) (kind cause reason : Nat) (x y z : DWord) (q : Bool) : (postEvent s p src kind cause reason x y z q).sideLeft = s.sideLeft := rfl
@[simp] theorem postEvent_quadGroups (s : State) (p : Nat) (src : Word) (kind cause reason : Nat) (x y z : DWord) (q : Bool) : (postEvent s p src kind cause reason x y z q).quadGroups = s.quadGroups := rfl
@[simp] theorem postEvent_turns (s : State) (p : Nat) (src : Word) (kind cause reason : Nat) (x y z : DWord) (q : Bool) : (postEvent s p src kind cause reason x y z q).turns = s.turns := rfl
@[simp] theorem postEvent_pcTable (s : State) (p : Nat) (src : Word) (kind cause reason : Nat) (x y z : DWord) (q : Bool) : (postEvent s p src kind cause reason x y z q).pcTable = s.pcTable := rfl
@[simp] theorem postEvent_lows (s : State) (p : Nat) (src : Word) (kind cause reason : Nat) (x y z : DWord) (q : Bool) : (postEvent s p src kind cause reason x y z q).lows = s.lows := rfl
@[simp] theorem postEvent_coreGroups (s : State) (p : Nat) (src : Word) (kind cause reason : Nat) (x y z : DWord) (q : Bool) : (postEvent s p src kind cause reason x y z q).coreGroups = s.coreGroups := rfl
@[simp] theorem postEvent_clusterGroups (s : State) (p : Nat) (src : Word) (kind cause reason : Nat) (x y z : DWord) (q : Bool) : (postEvent s p src kind cause reason x y z q).clusterGroups = s.clusterGroups := rfl
@[simp] theorem postEvent_launches (s : State) (p : Nat) (src : Word) (kind cause reason : Nat) (x y z : DWord) (q : Bool) : (postEvent s p src kind cause reason x y z q).launches = s.launches := rfl
@[simp] theorem postEvent_frags (s : State) (p : Nat) (src : Word) (kind cause reason : Nat) (x y z : DWord) (q : Bool) : (postEvent s p src kind cause reason x y z q).frags = s.frags := rfl
@[simp] theorem postEvent_mem (s : State) (p : Nat) (src : Word) (kind cause reason : Nat) (x y z : DWord) (q : Bool) : (postEvent s p src kind cause reason x y z q).mem = s.mem := rfl
@[simp] theorem postEvent_pkg (s : State) (p : Nat) (src : Word) (kind cause reason : Nat) (x y z : DWord) (q : Bool) : (postEvent s p src kind cause reason x y z q).pkg = s.pkg := rfl
@[simp] theorem postEvent_host (s : State) (p : Nat) (src : Word) (kind cause reason : Nat) (x y z : DWord) (q : Bool) : (postEvent s p src kind cause reason x y z q).host = s.host := rfl
@[simp] theorem postEvent_boot (s : State) (p : Nat) (src : Word) (kind cause reason : Nat) (x y z : DWord) (q : Bool) : (postEvent s p src kind cause reason x y z q).boot = s.boot := rfl

/-! ### holdWrite writes `parts` alone -/

@[simp] theorem holdWrite_agenda (s : State) (p : Nat) (h : Held) : (holdWrite s p h).agenda = s.agenda := rfl
@[simp] theorem holdWrite_cur (s : State) (p : Nat) (h : Held) : (holdWrite s p h).cur = s.cur := rfl
@[simp] theorem holdWrite_lost (s : State) (p : Nat) (h : Held) : (holdWrite s p h).lost = s.lost := rfl
@[simp] theorem holdWrite_clock (s : State) (p : Nat) (h : Held) : (holdWrite s p h).clock = s.clock := rfl
@[simp] theorem holdWrite_fresh (s : State) (p : Nat) (h : Held) : (holdWrite s p h).fresh = s.fresh := rfl
@[simp] theorem holdWrite_acts (s : State) (p : Nat) (h : Held) : (holdWrite s p h).acts = s.acts := rfl
@[simp] theorem holdWrite_nextId (s : State) (p : Nat) (h : Held) : (holdWrite s p h).nextId = s.nextId := rfl
@[simp] theorem holdWrite_threads (s : State) (p : Nat) (h : Held) : (holdWrite s p h).threads = s.threads := rfl
@[simp] theorem holdWrite_groups (s : State) (p : Nat) (h : Held) : (holdWrite s p h).groups = s.groups := rfl
@[simp] theorem holdWrite_warps (s : State) (p : Nat) (h : Held) : (holdWrite s p h).warps = s.warps := rfl
@[simp] theorem holdWrite_sideLeft (s : State) (p : Nat) (h : Held) : (holdWrite s p h).sideLeft = s.sideLeft := rfl
@[simp] theorem holdWrite_quadGroups (s : State) (p : Nat) (h : Held) : (holdWrite s p h).quadGroups = s.quadGroups := rfl
@[simp] theorem holdWrite_turns (s : State) (p : Nat) (h : Held) : (holdWrite s p h).turns = s.turns := rfl
@[simp] theorem holdWrite_pcTable (s : State) (p : Nat) (h : Held) : (holdWrite s p h).pcTable = s.pcTable := rfl
@[simp] theorem holdWrite_lows (s : State) (p : Nat) (h : Held) : (holdWrite s p h).lows = s.lows := rfl
@[simp] theorem holdWrite_coreGroups (s : State) (p : Nat) (h : Held) : (holdWrite s p h).coreGroups = s.coreGroups := rfl
@[simp] theorem holdWrite_clusterGroups (s : State) (p : Nat) (h : Held) : (holdWrite s p h).clusterGroups = s.clusterGroups := rfl
@[simp] theorem holdWrite_launches (s : State) (p : Nat) (h : Held) : (holdWrite s p h).launches = s.launches := rfl
@[simp] theorem holdWrite_frags (s : State) (p : Nat) (h : Held) : (holdWrite s p h).frags = s.frags := rfl
@[simp] theorem holdWrite_mem (s : State) (p : Nat) (h : Held) : (holdWrite s p h).mem = s.mem := rfl
@[simp] theorem holdWrite_pkg (s : State) (p : Nat) (h : Held) : (holdWrite s p h).pkg = s.pkg := rfl
@[simp] theorem holdWrite_host (s : State) (p : Nat) (h : Held) : (holdWrite s p h).host = s.host := rfl
@[simp] theorem holdWrite_boot (s : State) (p : Nat) (h : Held) : (holdWrite s p h).boot = s.boot := rfl

/-! ### setThread writes `threads` alone -/

@[simp] theorem setThread_agenda (s : State) (k : Nat) (t : Thread) : (setThread s k t).agenda = s.agenda := rfl
@[simp] theorem setThread_cur (s : State) (k : Nat) (t : Thread) : (setThread s k t).cur = s.cur := rfl
@[simp] theorem setThread_lost (s : State) (k : Nat) (t : Thread) : (setThread s k t).lost = s.lost := rfl
@[simp] theorem setThread_clock (s : State) (k : Nat) (t : Thread) : (setThread s k t).clock = s.clock := rfl
@[simp] theorem setThread_fresh (s : State) (k : Nat) (t : Thread) : (setThread s k t).fresh = s.fresh := rfl
@[simp] theorem setThread_acts (s : State) (k : Nat) (t : Thread) : (setThread s k t).acts = s.acts := rfl
@[simp] theorem setThread_nextId (s : State) (k : Nat) (t : Thread) : (setThread s k t).nextId = s.nextId := rfl
@[simp] theorem setThread_groups (s : State) (k : Nat) (t : Thread) : (setThread s k t).groups = s.groups := rfl
@[simp] theorem setThread_warps (s : State) (k : Nat) (t : Thread) : (setThread s k t).warps = s.warps := rfl
@[simp] theorem setThread_sideLeft (s : State) (k : Nat) (t : Thread) : (setThread s k t).sideLeft = s.sideLeft := rfl
@[simp] theorem setThread_quadGroups (s : State) (k : Nat) (t : Thread) : (setThread s k t).quadGroups = s.quadGroups := rfl
@[simp] theorem setThread_turns (s : State) (k : Nat) (t : Thread) : (setThread s k t).turns = s.turns := rfl
@[simp] theorem setThread_pcTable (s : State) (k : Nat) (t : Thread) : (setThread s k t).pcTable = s.pcTable := rfl
@[simp] theorem setThread_lows (s : State) (k : Nat) (t : Thread) : (setThread s k t).lows = s.lows := rfl
@[simp] theorem setThread_coreGroups (s : State) (k : Nat) (t : Thread) : (setThread s k t).coreGroups = s.coreGroups := rfl
@[simp] theorem setThread_clusterGroups (s : State) (k : Nat) (t : Thread) : (setThread s k t).clusterGroups = s.clusterGroups := rfl
@[simp] theorem setThread_launches (s : State) (k : Nat) (t : Thread) : (setThread s k t).launches = s.launches := rfl
@[simp] theorem setThread_frags (s : State) (k : Nat) (t : Thread) : (setThread s k t).frags = s.frags := rfl
@[simp] theorem setThread_parts (s : State) (k : Nat) (t : Thread) : (setThread s k t).parts = s.parts := rfl
@[simp] theorem setThread_mem (s : State) (k : Nat) (t : Thread) : (setThread s k t).mem = s.mem := rfl
@[simp] theorem setThread_pkg (s : State) (k : Nat) (t : Thread) : (setThread s k t).pkg = s.pkg := rfl
@[simp] theorem setThread_host (s : State) (k : Nat) (t : Thread) : (setThread s k t).host = s.host := rfl
@[simp] theorem setThread_boot (s : State) (k : Nat) (t : Thread) : (setThread s k t).boot = s.boot := rfl

/-! ### modThread writes `threads` alone -/

@[simp] theorem modThread_agenda (s : State) (k : Nat) (f : Thread → Thread) : (modThread s k f).agenda = s.agenda := rfl
@[simp] theorem modThread_cur (s : State) (k : Nat) (f : Thread → Thread) : (modThread s k f).cur = s.cur := rfl
@[simp] theorem modThread_lost (s : State) (k : Nat) (f : Thread → Thread) : (modThread s k f).lost = s.lost := rfl
@[simp] theorem modThread_clock (s : State) (k : Nat) (f : Thread → Thread) : (modThread s k f).clock = s.clock := rfl
@[simp] theorem modThread_fresh (s : State) (k : Nat) (f : Thread → Thread) : (modThread s k f).fresh = s.fresh := rfl
@[simp] theorem modThread_acts (s : State) (k : Nat) (f : Thread → Thread) : (modThread s k f).acts = s.acts := rfl
@[simp] theorem modThread_nextId (s : State) (k : Nat) (f : Thread → Thread) : (modThread s k f).nextId = s.nextId := rfl
@[simp] theorem modThread_groups (s : State) (k : Nat) (f : Thread → Thread) : (modThread s k f).groups = s.groups := rfl
@[simp] theorem modThread_warps (s : State) (k : Nat) (f : Thread → Thread) : (modThread s k f).warps = s.warps := rfl
@[simp] theorem modThread_sideLeft (s : State) (k : Nat) (f : Thread → Thread) : (modThread s k f).sideLeft = s.sideLeft := rfl
@[simp] theorem modThread_quadGroups (s : State) (k : Nat) (f : Thread → Thread) : (modThread s k f).quadGroups = s.quadGroups := rfl
@[simp] theorem modThread_turns (s : State) (k : Nat) (f : Thread → Thread) : (modThread s k f).turns = s.turns := rfl
@[simp] theorem modThread_pcTable (s : State) (k : Nat) (f : Thread → Thread) : (modThread s k f).pcTable = s.pcTable := rfl
@[simp] theorem modThread_lows (s : State) (k : Nat) (f : Thread → Thread) : (modThread s k f).lows = s.lows := rfl
@[simp] theorem modThread_coreGroups (s : State) (k : Nat) (f : Thread → Thread) : (modThread s k f).coreGroups = s.coreGroups := rfl
@[simp] theorem modThread_clusterGroups (s : State) (k : Nat) (f : Thread → Thread) : (modThread s k f).clusterGroups = s.clusterGroups := rfl
@[simp] theorem modThread_launches (s : State) (k : Nat) (f : Thread → Thread) : (modThread s k f).launches = s.launches := rfl
@[simp] theorem modThread_frags (s : State) (k : Nat) (f : Thread → Thread) : (modThread s k f).frags = s.frags := rfl
@[simp] theorem modThread_parts (s : State) (k : Nat) (f : Thread → Thread) : (modThread s k f).parts = s.parts := rfl
@[simp] theorem modThread_mem (s : State) (k : Nat) (f : Thread → Thread) : (modThread s k f).mem = s.mem := rfl
@[simp] theorem modThread_pkg (s : State) (k : Nat) (f : Thread → Thread) : (modThread s k f).pkg = s.pkg := rfl
@[simp] theorem modThread_host (s : State) (k : Nat) (f : Thread → Thread) : (modThread s k f).host = s.host := rfl
@[simp] theorem modThread_boot (s : State) (k : Nat) (f : Thread → Thread) : (modThread s k f).boot = s.boot := rfl

/-! ### modGroup writes `groups` alone -/

@[simp] theorem modGroup_agenda (s : State) (g : Nat) (f : Group → Group) : (modGroup s g f).agenda = s.agenda := rfl
@[simp] theorem modGroup_cur (s : State) (g : Nat) (f : Group → Group) : (modGroup s g f).cur = s.cur := rfl
@[simp] theorem modGroup_lost (s : State) (g : Nat) (f : Group → Group) : (modGroup s g f).lost = s.lost := rfl
@[simp] theorem modGroup_clock (s : State) (g : Nat) (f : Group → Group) : (modGroup s g f).clock = s.clock := rfl
@[simp] theorem modGroup_fresh (s : State) (g : Nat) (f : Group → Group) : (modGroup s g f).fresh = s.fresh := rfl
@[simp] theorem modGroup_acts (s : State) (g : Nat) (f : Group → Group) : (modGroup s g f).acts = s.acts := rfl
@[simp] theorem modGroup_nextId (s : State) (g : Nat) (f : Group → Group) : (modGroup s g f).nextId = s.nextId := rfl
@[simp] theorem modGroup_threads (s : State) (g : Nat) (f : Group → Group) : (modGroup s g f).threads = s.threads := rfl
@[simp] theorem modGroup_warps (s : State) (g : Nat) (f : Group → Group) : (modGroup s g f).warps = s.warps := rfl
@[simp] theorem modGroup_sideLeft (s : State) (g : Nat) (f : Group → Group) : (modGroup s g f).sideLeft = s.sideLeft := rfl
@[simp] theorem modGroup_quadGroups (s : State) (g : Nat) (f : Group → Group) : (modGroup s g f).quadGroups = s.quadGroups := rfl
@[simp] theorem modGroup_turns (s : State) (g : Nat) (f : Group → Group) : (modGroup s g f).turns = s.turns := rfl
@[simp] theorem modGroup_pcTable (s : State) (g : Nat) (f : Group → Group) : (modGroup s g f).pcTable = s.pcTable := rfl
@[simp] theorem modGroup_lows (s : State) (g : Nat) (f : Group → Group) : (modGroup s g f).lows = s.lows := rfl
@[simp] theorem modGroup_coreGroups (s : State) (g : Nat) (f : Group → Group) : (modGroup s g f).coreGroups = s.coreGroups := rfl
@[simp] theorem modGroup_clusterGroups (s : State) (g : Nat) (f : Group → Group) : (modGroup s g f).clusterGroups = s.clusterGroups := rfl
@[simp] theorem modGroup_launches (s : State) (g : Nat) (f : Group → Group) : (modGroup s g f).launches = s.launches := rfl
@[simp] theorem modGroup_frags (s : State) (g : Nat) (f : Group → Group) : (modGroup s g f).frags = s.frags := rfl
@[simp] theorem modGroup_parts (s : State) (g : Nat) (f : Group → Group) : (modGroup s g f).parts = s.parts := rfl
@[simp] theorem modGroup_mem (s : State) (g : Nat) (f : Group → Group) : (modGroup s g f).mem = s.mem := rfl
@[simp] theorem modGroup_pkg (s : State) (g : Nat) (f : Group → Group) : (modGroup s g f).pkg = s.pkg := rfl
@[simp] theorem modGroup_host (s : State) (g : Nat) (f : Group → Group) : (modGroup s g f).host = s.host := rfl
@[simp] theorem modGroup_boot (s : State) (g : Nat) (f : Group → Group) : (modGroup s g f).boot = s.boot := rfl

/-! ### addWait writes `groups` alone -/

@[simp] theorem addWait_agenda (s : State) (g k : Nat) (w : Wait) : (addWait s g k w).agenda = s.agenda := rfl
@[simp] theorem addWait_cur (s : State) (g k : Nat) (w : Wait) : (addWait s g k w).cur = s.cur := rfl
@[simp] theorem addWait_lost (s : State) (g k : Nat) (w : Wait) : (addWait s g k w).lost = s.lost := rfl
@[simp] theorem addWait_clock (s : State) (g k : Nat) (w : Wait) : (addWait s g k w).clock = s.clock := rfl
@[simp] theorem addWait_fresh (s : State) (g k : Nat) (w : Wait) : (addWait s g k w).fresh = s.fresh := rfl
@[simp] theorem addWait_acts (s : State) (g k : Nat) (w : Wait) : (addWait s g k w).acts = s.acts := rfl
@[simp] theorem addWait_nextId (s : State) (g k : Nat) (w : Wait) : (addWait s g k w).nextId = s.nextId := rfl
@[simp] theorem addWait_threads (s : State) (g k : Nat) (w : Wait) : (addWait s g k w).threads = s.threads := rfl
@[simp] theorem addWait_warps (s : State) (g k : Nat) (w : Wait) : (addWait s g k w).warps = s.warps := rfl
@[simp] theorem addWait_sideLeft (s : State) (g k : Nat) (w : Wait) : (addWait s g k w).sideLeft = s.sideLeft := rfl
@[simp] theorem addWait_quadGroups (s : State) (g k : Nat) (w : Wait) : (addWait s g k w).quadGroups = s.quadGroups := rfl
@[simp] theorem addWait_turns (s : State) (g k : Nat) (w : Wait) : (addWait s g k w).turns = s.turns := rfl
@[simp] theorem addWait_pcTable (s : State) (g k : Nat) (w : Wait) : (addWait s g k w).pcTable = s.pcTable := rfl
@[simp] theorem addWait_lows (s : State) (g k : Nat) (w : Wait) : (addWait s g k w).lows = s.lows := rfl
@[simp] theorem addWait_coreGroups (s : State) (g k : Nat) (w : Wait) : (addWait s g k w).coreGroups = s.coreGroups := rfl
@[simp] theorem addWait_clusterGroups (s : State) (g k : Nat) (w : Wait) : (addWait s g k w).clusterGroups = s.clusterGroups := rfl
@[simp] theorem addWait_launches (s : State) (g k : Nat) (w : Wait) : (addWait s g k w).launches = s.launches := rfl
@[simp] theorem addWait_frags (s : State) (g k : Nat) (w : Wait) : (addWait s g k w).frags = s.frags := rfl
@[simp] theorem addWait_parts (s : State) (g k : Nat) (w : Wait) : (addWait s g k w).parts = s.parts := rfl
@[simp] theorem addWait_mem (s : State) (g k : Nat) (w : Wait) : (addWait s g k w).mem = s.mem := rfl
@[simp] theorem addWait_pkg (s : State) (g k : Nat) (w : Wait) : (addWait s g k w).pkg = s.pkg := rfl
@[simp] theorem addWait_host (s : State) (g k : Nat) (w : Wait) : (addWait s g k w).host = s.host := rfl
@[simp] theorem addWait_boot (s : State) (g k : Nat) (w : Wait) : (addWait s g k w).boot = s.boot := rfl

/-! ### setHold writes `groups` alone -/

@[simp] theorem setHold_agenda (s : State) (g : Nat) (h : Hold) : (setHold s g h).agenda = s.agenda := rfl
@[simp] theorem setHold_cur (s : State) (g : Nat) (h : Hold) : (setHold s g h).cur = s.cur := rfl
@[simp] theorem setHold_lost (s : State) (g : Nat) (h : Hold) : (setHold s g h).lost = s.lost := rfl
@[simp] theorem setHold_clock (s : State) (g : Nat) (h : Hold) : (setHold s g h).clock = s.clock := rfl
@[simp] theorem setHold_fresh (s : State) (g : Nat) (h : Hold) : (setHold s g h).fresh = s.fresh := rfl
@[simp] theorem setHold_acts (s : State) (g : Nat) (h : Hold) : (setHold s g h).acts = s.acts := rfl
@[simp] theorem setHold_nextId (s : State) (g : Nat) (h : Hold) : (setHold s g h).nextId = s.nextId := rfl
@[simp] theorem setHold_threads (s : State) (g : Nat) (h : Hold) : (setHold s g h).threads = s.threads := rfl
@[simp] theorem setHold_warps (s : State) (g : Nat) (h : Hold) : (setHold s g h).warps = s.warps := rfl
@[simp] theorem setHold_sideLeft (s : State) (g : Nat) (h : Hold) : (setHold s g h).sideLeft = s.sideLeft := rfl
@[simp] theorem setHold_quadGroups (s : State) (g : Nat) (h : Hold) : (setHold s g h).quadGroups = s.quadGroups := rfl
@[simp] theorem setHold_turns (s : State) (g : Nat) (h : Hold) : (setHold s g h).turns = s.turns := rfl
@[simp] theorem setHold_pcTable (s : State) (g : Nat) (h : Hold) : (setHold s g h).pcTable = s.pcTable := rfl
@[simp] theorem setHold_lows (s : State) (g : Nat) (h : Hold) : (setHold s g h).lows = s.lows := rfl
@[simp] theorem setHold_coreGroups (s : State) (g : Nat) (h : Hold) : (setHold s g h).coreGroups = s.coreGroups := rfl
@[simp] theorem setHold_clusterGroups (s : State) (g : Nat) (h : Hold) : (setHold s g h).clusterGroups = s.clusterGroups := rfl
@[simp] theorem setHold_launches (s : State) (g : Nat) (h : Hold) : (setHold s g h).launches = s.launches := rfl
@[simp] theorem setHold_frags (s : State) (g : Nat) (h : Hold) : (setHold s g h).frags = s.frags := rfl
@[simp] theorem setHold_parts (s : State) (g : Nat) (h : Hold) : (setHold s g h).parts = s.parts := rfl
@[simp] theorem setHold_mem (s : State) (g : Nat) (h : Hold) : (setHold s g h).mem = s.mem := rfl
@[simp] theorem setHold_pkg (s : State) (g : Nat) (h : Hold) : (setHold s g h).pkg = s.pkg := rfl
@[simp] theorem setHold_host (s : State) (g : Nat) (h : Hold) : (setHold s g h).host = s.host := rfl
@[simp] theorem setHold_boot (s : State) (g : Nat) (h : Hold) : (setHold s g h).boot = s.boot := rfl

/-! ### modWarp writes `warps` alone -/

@[simp] theorem modWarp_agenda (s : State) (k : Nat) (f : Warp → Warp) : (modWarp s k f).agenda = s.agenda := rfl
@[simp] theorem modWarp_cur (s : State) (k : Nat) (f : Warp → Warp) : (modWarp s k f).cur = s.cur := rfl
@[simp] theorem modWarp_lost (s : State) (k : Nat) (f : Warp → Warp) : (modWarp s k f).lost = s.lost := rfl
@[simp] theorem modWarp_clock (s : State) (k : Nat) (f : Warp → Warp) : (modWarp s k f).clock = s.clock := rfl
@[simp] theorem modWarp_fresh (s : State) (k : Nat) (f : Warp → Warp) : (modWarp s k f).fresh = s.fresh := rfl
@[simp] theorem modWarp_acts (s : State) (k : Nat) (f : Warp → Warp) : (modWarp s k f).acts = s.acts := rfl
@[simp] theorem modWarp_nextId (s : State) (k : Nat) (f : Warp → Warp) : (modWarp s k f).nextId = s.nextId := rfl
@[simp] theorem modWarp_threads (s : State) (k : Nat) (f : Warp → Warp) : (modWarp s k f).threads = s.threads := rfl
@[simp] theorem modWarp_groups (s : State) (k : Nat) (f : Warp → Warp) : (modWarp s k f).groups = s.groups := rfl
@[simp] theorem modWarp_sideLeft (s : State) (k : Nat) (f : Warp → Warp) : (modWarp s k f).sideLeft = s.sideLeft := rfl
@[simp] theorem modWarp_quadGroups (s : State) (k : Nat) (f : Warp → Warp) : (modWarp s k f).quadGroups = s.quadGroups := rfl
@[simp] theorem modWarp_turns (s : State) (k : Nat) (f : Warp → Warp) : (modWarp s k f).turns = s.turns := rfl
@[simp] theorem modWarp_pcTable (s : State) (k : Nat) (f : Warp → Warp) : (modWarp s k f).pcTable = s.pcTable := rfl
@[simp] theorem modWarp_lows (s : State) (k : Nat) (f : Warp → Warp) : (modWarp s k f).lows = s.lows := rfl
@[simp] theorem modWarp_coreGroups (s : State) (k : Nat) (f : Warp → Warp) : (modWarp s k f).coreGroups = s.coreGroups := rfl
@[simp] theorem modWarp_clusterGroups (s : State) (k : Nat) (f : Warp → Warp) : (modWarp s k f).clusterGroups = s.clusterGroups := rfl
@[simp] theorem modWarp_launches (s : State) (k : Nat) (f : Warp → Warp) : (modWarp s k f).launches = s.launches := rfl
@[simp] theorem modWarp_frags (s : State) (k : Nat) (f : Warp → Warp) : (modWarp s k f).frags = s.frags := rfl
@[simp] theorem modWarp_parts (s : State) (k : Nat) (f : Warp → Warp) : (modWarp s k f).parts = s.parts := rfl
@[simp] theorem modWarp_mem (s : State) (k : Nat) (f : Warp → Warp) : (modWarp s k f).mem = s.mem := rfl
@[simp] theorem modWarp_pkg (s : State) (k : Nat) (f : Warp → Warp) : (modWarp s k f).pkg = s.pkg := rfl
@[simp] theorem modWarp_host (s : State) (k : Nat) (f : Warp → Warp) : (modWarp s k f).host = s.host := rfl
@[simp] theorem modWarp_boot (s : State) (k : Nat) (f : Warp → Warp) : (modWarp s k f).boot = s.boot := rfl

/-! ### putSide writes `warps` alone -/

@[simp] theorem putSide_agenda (s : State) (t : Thread) (r : SideRec) : (putSide s t r).agenda = s.agenda := rfl
@[simp] theorem putSide_cur (s : State) (t : Thread) (r : SideRec) : (putSide s t r).cur = s.cur := rfl
@[simp] theorem putSide_lost (s : State) (t : Thread) (r : SideRec) : (putSide s t r).lost = s.lost := rfl
@[simp] theorem putSide_clock (s : State) (t : Thread) (r : SideRec) : (putSide s t r).clock = s.clock := rfl
@[simp] theorem putSide_fresh (s : State) (t : Thread) (r : SideRec) : (putSide s t r).fresh = s.fresh := rfl
@[simp] theorem putSide_acts (s : State) (t : Thread) (r : SideRec) : (putSide s t r).acts = s.acts := rfl
@[simp] theorem putSide_nextId (s : State) (t : Thread) (r : SideRec) : (putSide s t r).nextId = s.nextId := rfl
@[simp] theorem putSide_threads (s : State) (t : Thread) (r : SideRec) : (putSide s t r).threads = s.threads := rfl
@[simp] theorem putSide_groups (s : State) (t : Thread) (r : SideRec) : (putSide s t r).groups = s.groups := rfl
@[simp] theorem putSide_sideLeft (s : State) (t : Thread) (r : SideRec) : (putSide s t r).sideLeft = s.sideLeft := rfl
@[simp] theorem putSide_quadGroups (s : State) (t : Thread) (r : SideRec) : (putSide s t r).quadGroups = s.quadGroups := rfl
@[simp] theorem putSide_turns (s : State) (t : Thread) (r : SideRec) : (putSide s t r).turns = s.turns := rfl
@[simp] theorem putSide_pcTable (s : State) (t : Thread) (r : SideRec) : (putSide s t r).pcTable = s.pcTable := rfl
@[simp] theorem putSide_lows (s : State) (t : Thread) (r : SideRec) : (putSide s t r).lows = s.lows := rfl
@[simp] theorem putSide_coreGroups (s : State) (t : Thread) (r : SideRec) : (putSide s t r).coreGroups = s.coreGroups := rfl
@[simp] theorem putSide_clusterGroups (s : State) (t : Thread) (r : SideRec) : (putSide s t r).clusterGroups = s.clusterGroups := rfl
@[simp] theorem putSide_launches (s : State) (t : Thread) (r : SideRec) : (putSide s t r).launches = s.launches := rfl
@[simp] theorem putSide_frags (s : State) (t : Thread) (r : SideRec) : (putSide s t r).frags = s.frags := rfl
@[simp] theorem putSide_parts (s : State) (t : Thread) (r : SideRec) : (putSide s t r).parts = s.parts := rfl
@[simp] theorem putSide_mem (s : State) (t : Thread) (r : SideRec) : (putSide s t r).mem = s.mem := rfl
@[simp] theorem putSide_pkg (s : State) (t : Thread) (r : SideRec) : (putSide s t r).pkg = s.pkg := rfl
@[simp] theorem putSide_host (s : State) (t : Thread) (r : SideRec) : (putSide s t r).host = s.host := rfl
@[simp] theorem putSide_boot (s : State) (t : Thread) (r : SideRec) : (putSide s t r).boot = s.boot := rfl

/-! ### setBar writes `clusterGroups` alone -/

@[simp] theorem setBar_agenda (s : State) (c b : Nat) (x : Bar) : (setBar s c b x).agenda = s.agenda := rfl
@[simp] theorem setBar_cur (s : State) (c b : Nat) (x : Bar) : (setBar s c b x).cur = s.cur := rfl
@[simp] theorem setBar_lost (s : State) (c b : Nat) (x : Bar) : (setBar s c b x).lost = s.lost := rfl
@[simp] theorem setBar_clock (s : State) (c b : Nat) (x : Bar) : (setBar s c b x).clock = s.clock := rfl
@[simp] theorem setBar_fresh (s : State) (c b : Nat) (x : Bar) : (setBar s c b x).fresh = s.fresh := rfl
@[simp] theorem setBar_acts (s : State) (c b : Nat) (x : Bar) : (setBar s c b x).acts = s.acts := rfl
@[simp] theorem setBar_nextId (s : State) (c b : Nat) (x : Bar) : (setBar s c b x).nextId = s.nextId := rfl
@[simp] theorem setBar_threads (s : State) (c b : Nat) (x : Bar) : (setBar s c b x).threads = s.threads := rfl
@[simp] theorem setBar_groups (s : State) (c b : Nat) (x : Bar) : (setBar s c b x).groups = s.groups := rfl
@[simp] theorem setBar_warps (s : State) (c b : Nat) (x : Bar) : (setBar s c b x).warps = s.warps := rfl
@[simp] theorem setBar_sideLeft (s : State) (c b : Nat) (x : Bar) : (setBar s c b x).sideLeft = s.sideLeft := rfl
@[simp] theorem setBar_quadGroups (s : State) (c b : Nat) (x : Bar) : (setBar s c b x).quadGroups = s.quadGroups := rfl
@[simp] theorem setBar_turns (s : State) (c b : Nat) (x : Bar) : (setBar s c b x).turns = s.turns := rfl
@[simp] theorem setBar_pcTable (s : State) (c b : Nat) (x : Bar) : (setBar s c b x).pcTable = s.pcTable := rfl
@[simp] theorem setBar_lows (s : State) (c b : Nat) (x : Bar) : (setBar s c b x).lows = s.lows := rfl
@[simp] theorem setBar_coreGroups (s : State) (c b : Nat) (x : Bar) : (setBar s c b x).coreGroups = s.coreGroups := rfl
@[simp] theorem setBar_launches (s : State) (c b : Nat) (x : Bar) : (setBar s c b x).launches = s.launches := rfl
@[simp] theorem setBar_frags (s : State) (c b : Nat) (x : Bar) : (setBar s c b x).frags = s.frags := rfl
@[simp] theorem setBar_parts (s : State) (c b : Nat) (x : Bar) : (setBar s c b x).parts = s.parts := rfl
@[simp] theorem setBar_mem (s : State) (c b : Nat) (x : Bar) : (setBar s c b x).mem = s.mem := rfl
@[simp] theorem setBar_pkg (s : State) (c b : Nat) (x : Bar) : (setBar s c b x).pkg = s.pkg := rfl
@[simp] theorem setBar_host (s : State) (c b : Nat) (x : Bar) : (setBar s c b x).host = s.host := rfl
@[simp] theorem setBar_boot (s : State) (c b : Nat) (x : Bar) : (setBar s c b x).boot = s.boot := rfl

/-! ### setFrag writes `frags` alone -/

@[simp] theorem setFrag_agenda (s : State) (k : Nat) (x : FEntry) : (setFrag s k x).agenda = s.agenda := rfl
@[simp] theorem setFrag_cur (s : State) (k : Nat) (x : FEntry) : (setFrag s k x).cur = s.cur := rfl
@[simp] theorem setFrag_lost (s : State) (k : Nat) (x : FEntry) : (setFrag s k x).lost = s.lost := rfl
@[simp] theorem setFrag_clock (s : State) (k : Nat) (x : FEntry) : (setFrag s k x).clock = s.clock := rfl
@[simp] theorem setFrag_fresh (s : State) (k : Nat) (x : FEntry) : (setFrag s k x).fresh = s.fresh := rfl
@[simp] theorem setFrag_acts (s : State) (k : Nat) (x : FEntry) : (setFrag s k x).acts = s.acts := rfl
@[simp] theorem setFrag_nextId (s : State) (k : Nat) (x : FEntry) : (setFrag s k x).nextId = s.nextId := rfl
@[simp] theorem setFrag_threads (s : State) (k : Nat) (x : FEntry) : (setFrag s k x).threads = s.threads := rfl
@[simp] theorem setFrag_groups (s : State) (k : Nat) (x : FEntry) : (setFrag s k x).groups = s.groups := rfl
@[simp] theorem setFrag_warps (s : State) (k : Nat) (x : FEntry) : (setFrag s k x).warps = s.warps := rfl
@[simp] theorem setFrag_sideLeft (s : State) (k : Nat) (x : FEntry) : (setFrag s k x).sideLeft = s.sideLeft := rfl
@[simp] theorem setFrag_quadGroups (s : State) (k : Nat) (x : FEntry) : (setFrag s k x).quadGroups = s.quadGroups := rfl
@[simp] theorem setFrag_turns (s : State) (k : Nat) (x : FEntry) : (setFrag s k x).turns = s.turns := rfl
@[simp] theorem setFrag_pcTable (s : State) (k : Nat) (x : FEntry) : (setFrag s k x).pcTable = s.pcTable := rfl
@[simp] theorem setFrag_lows (s : State) (k : Nat) (x : FEntry) : (setFrag s k x).lows = s.lows := rfl
@[simp] theorem setFrag_coreGroups (s : State) (k : Nat) (x : FEntry) : (setFrag s k x).coreGroups = s.coreGroups := rfl
@[simp] theorem setFrag_clusterGroups (s : State) (k : Nat) (x : FEntry) : (setFrag s k x).clusterGroups = s.clusterGroups := rfl
@[simp] theorem setFrag_launches (s : State) (k : Nat) (x : FEntry) : (setFrag s k x).launches = s.launches := rfl
@[simp] theorem setFrag_parts (s : State) (k : Nat) (x : FEntry) : (setFrag s k x).parts = s.parts := rfl
@[simp] theorem setFrag_mem (s : State) (k : Nat) (x : FEntry) : (setFrag s k x).mem = s.mem := rfl
@[simp] theorem setFrag_pkg (s : State) (k : Nat) (x : FEntry) : (setFrag s k x).pkg = s.pkg := rfl
@[simp] theorem setFrag_host (s : State) (k : Nat) (x : FEntry) : (setFrag s k x).host = s.host := rfl
@[simp] theorem setFrag_boot (s : State) (k : Nat) (x : FEntry) : (setFrag s k x).boot = s.boot := rfl

/-! ### modSlice writes `quadGroups` alone -/

@[simp] theorem modSlice_agenda (s : State) (k : Nat) (f : Slice → Slice) : (modSlice s k f).agenda = s.agenda := rfl
@[simp] theorem modSlice_cur (s : State) (k : Nat) (f : Slice → Slice) : (modSlice s k f).cur = s.cur := rfl
@[simp] theorem modSlice_lost (s : State) (k : Nat) (f : Slice → Slice) : (modSlice s k f).lost = s.lost := rfl
@[simp] theorem modSlice_clock (s : State) (k : Nat) (f : Slice → Slice) : (modSlice s k f).clock = s.clock := rfl
@[simp] theorem modSlice_fresh (s : State) (k : Nat) (f : Slice → Slice) : (modSlice s k f).fresh = s.fresh := rfl
@[simp] theorem modSlice_acts (s : State) (k : Nat) (f : Slice → Slice) : (modSlice s k f).acts = s.acts := rfl
@[simp] theorem modSlice_nextId (s : State) (k : Nat) (f : Slice → Slice) : (modSlice s k f).nextId = s.nextId := rfl
@[simp] theorem modSlice_threads (s : State) (k : Nat) (f : Slice → Slice) : (modSlice s k f).threads = s.threads := rfl
@[simp] theorem modSlice_groups (s : State) (k : Nat) (f : Slice → Slice) : (modSlice s k f).groups = s.groups := rfl
@[simp] theorem modSlice_warps (s : State) (k : Nat) (f : Slice → Slice) : (modSlice s k f).warps = s.warps := rfl
@[simp] theorem modSlice_sideLeft (s : State) (k : Nat) (f : Slice → Slice) : (modSlice s k f).sideLeft = s.sideLeft := rfl
@[simp] theorem modSlice_turns (s : State) (k : Nat) (f : Slice → Slice) : (modSlice s k f).turns = s.turns := rfl
@[simp] theorem modSlice_pcTable (s : State) (k : Nat) (f : Slice → Slice) : (modSlice s k f).pcTable = s.pcTable := rfl
@[simp] theorem modSlice_lows (s : State) (k : Nat) (f : Slice → Slice) : (modSlice s k f).lows = s.lows := rfl
@[simp] theorem modSlice_coreGroups (s : State) (k : Nat) (f : Slice → Slice) : (modSlice s k f).coreGroups = s.coreGroups := rfl
@[simp] theorem modSlice_clusterGroups (s : State) (k : Nat) (f : Slice → Slice) : (modSlice s k f).clusterGroups = s.clusterGroups := rfl
@[simp] theorem modSlice_launches (s : State) (k : Nat) (f : Slice → Slice) : (modSlice s k f).launches = s.launches := rfl
@[simp] theorem modSlice_frags (s : State) (k : Nat) (f : Slice → Slice) : (modSlice s k f).frags = s.frags := rfl
@[simp] theorem modSlice_parts (s : State) (k : Nat) (f : Slice → Slice) : (modSlice s k f).parts = s.parts := rfl
@[simp] theorem modSlice_mem (s : State) (k : Nat) (f : Slice → Slice) : (modSlice s k f).mem = s.mem := rfl
@[simp] theorem modSlice_pkg (s : State) (k : Nat) (f : Slice → Slice) : (modSlice s k f).pkg = s.pkg := rfl
@[simp] theorem modSlice_host (s : State) (k : Nat) (f : Slice → Slice) : (modSlice s k f).host = s.host := rfl
@[simp] theorem modSlice_boot (s : State) (k : Nat) (f : Slice → Slice) : (modSlice s k f).boot = s.boot := rfl

/-! ### modQueue writes `quadGroups` alone -/

@[simp] theorem modQueue_agenda (s : State) (k q : Nat) (f : Queue → Queue) : (modQueue s k q f).agenda = s.agenda := rfl
@[simp] theorem modQueue_cur (s : State) (k q : Nat) (f : Queue → Queue) : (modQueue s k q f).cur = s.cur := rfl
@[simp] theorem modQueue_lost (s : State) (k q : Nat) (f : Queue → Queue) : (modQueue s k q f).lost = s.lost := rfl
@[simp] theorem modQueue_clock (s : State) (k q : Nat) (f : Queue → Queue) : (modQueue s k q f).clock = s.clock := rfl
@[simp] theorem modQueue_fresh (s : State) (k q : Nat) (f : Queue → Queue) : (modQueue s k q f).fresh = s.fresh := rfl
@[simp] theorem modQueue_acts (s : State) (k q : Nat) (f : Queue → Queue) : (modQueue s k q f).acts = s.acts := rfl
@[simp] theorem modQueue_nextId (s : State) (k q : Nat) (f : Queue → Queue) : (modQueue s k q f).nextId = s.nextId := rfl
@[simp] theorem modQueue_threads (s : State) (k q : Nat) (f : Queue → Queue) : (modQueue s k q f).threads = s.threads := rfl
@[simp] theorem modQueue_groups (s : State) (k q : Nat) (f : Queue → Queue) : (modQueue s k q f).groups = s.groups := rfl
@[simp] theorem modQueue_warps (s : State) (k q : Nat) (f : Queue → Queue) : (modQueue s k q f).warps = s.warps := rfl
@[simp] theorem modQueue_sideLeft (s : State) (k q : Nat) (f : Queue → Queue) : (modQueue s k q f).sideLeft = s.sideLeft := rfl
@[simp] theorem modQueue_turns (s : State) (k q : Nat) (f : Queue → Queue) : (modQueue s k q f).turns = s.turns := rfl
@[simp] theorem modQueue_pcTable (s : State) (k q : Nat) (f : Queue → Queue) : (modQueue s k q f).pcTable = s.pcTable := rfl
@[simp] theorem modQueue_lows (s : State) (k q : Nat) (f : Queue → Queue) : (modQueue s k q f).lows = s.lows := rfl
@[simp] theorem modQueue_coreGroups (s : State) (k q : Nat) (f : Queue → Queue) : (modQueue s k q f).coreGroups = s.coreGroups := rfl
@[simp] theorem modQueue_clusterGroups (s : State) (k q : Nat) (f : Queue → Queue) : (modQueue s k q f).clusterGroups = s.clusterGroups := rfl
@[simp] theorem modQueue_launches (s : State) (k q : Nat) (f : Queue → Queue) : (modQueue s k q f).launches = s.launches := rfl
@[simp] theorem modQueue_frags (s : State) (k q : Nat) (f : Queue → Queue) : (modQueue s k q f).frags = s.frags := rfl
@[simp] theorem modQueue_parts (s : State) (k q : Nat) (f : Queue → Queue) : (modQueue s k q f).parts = s.parts := rfl
@[simp] theorem modQueue_mem (s : State) (k q : Nat) (f : Queue → Queue) : (modQueue s k q f).mem = s.mem := rfl
@[simp] theorem modQueue_pkg (s : State) (k q : Nat) (f : Queue → Queue) : (modQueue s k q f).pkg = s.pkg := rfl
@[simp] theorem modQueue_host (s : State) (k q : Nat) (f : Queue → Queue) : (modQueue s k q f).host = s.host := rfl
@[simp] theorem modQueue_boot (s : State) (k q : Nat) (f : Queue → Queue) : (modQueue s k q f).boot = s.boot := rfl

/-! ### modCore writes `coreGroups` alone -/

@[simp] theorem modCore_agenda (s : State) (k : Nat) (f : CoreGroup → CoreGroup) : (modCore s k f).agenda = s.agenda := rfl
@[simp] theorem modCore_cur (s : State) (k : Nat) (f : CoreGroup → CoreGroup) : (modCore s k f).cur = s.cur := rfl
@[simp] theorem modCore_lost (s : State) (k : Nat) (f : CoreGroup → CoreGroup) : (modCore s k f).lost = s.lost := rfl
@[simp] theorem modCore_clock (s : State) (k : Nat) (f : CoreGroup → CoreGroup) : (modCore s k f).clock = s.clock := rfl
@[simp] theorem modCore_fresh (s : State) (k : Nat) (f : CoreGroup → CoreGroup) : (modCore s k f).fresh = s.fresh := rfl
@[simp] theorem modCore_acts (s : State) (k : Nat) (f : CoreGroup → CoreGroup) : (modCore s k f).acts = s.acts := rfl
@[simp] theorem modCore_nextId (s : State) (k : Nat) (f : CoreGroup → CoreGroup) : (modCore s k f).nextId = s.nextId := rfl
@[simp] theorem modCore_threads (s : State) (k : Nat) (f : CoreGroup → CoreGroup) : (modCore s k f).threads = s.threads := rfl
@[simp] theorem modCore_groups (s : State) (k : Nat) (f : CoreGroup → CoreGroup) : (modCore s k f).groups = s.groups := rfl
@[simp] theorem modCore_warps (s : State) (k : Nat) (f : CoreGroup → CoreGroup) : (modCore s k f).warps = s.warps := rfl
@[simp] theorem modCore_sideLeft (s : State) (k : Nat) (f : CoreGroup → CoreGroup) : (modCore s k f).sideLeft = s.sideLeft := rfl
@[simp] theorem modCore_quadGroups (s : State) (k : Nat) (f : CoreGroup → CoreGroup) : (modCore s k f).quadGroups = s.quadGroups := rfl
@[simp] theorem modCore_turns (s : State) (k : Nat) (f : CoreGroup → CoreGroup) : (modCore s k f).turns = s.turns := rfl
@[simp] theorem modCore_pcTable (s : State) (k : Nat) (f : CoreGroup → CoreGroup) : (modCore s k f).pcTable = s.pcTable := rfl
@[simp] theorem modCore_lows (s : State) (k : Nat) (f : CoreGroup → CoreGroup) : (modCore s k f).lows = s.lows := rfl
@[simp] theorem modCore_clusterGroups (s : State) (k : Nat) (f : CoreGroup → CoreGroup) : (modCore s k f).clusterGroups = s.clusterGroups := rfl
@[simp] theorem modCore_launches (s : State) (k : Nat) (f : CoreGroup → CoreGroup) : (modCore s k f).launches = s.launches := rfl
@[simp] theorem modCore_frags (s : State) (k : Nat) (f : CoreGroup → CoreGroup) : (modCore s k f).frags = s.frags := rfl
@[simp] theorem modCore_parts (s : State) (k : Nat) (f : CoreGroup → CoreGroup) : (modCore s k f).parts = s.parts := rfl
@[simp] theorem modCore_mem (s : State) (k : Nat) (f : CoreGroup → CoreGroup) : (modCore s k f).mem = s.mem := rfl
@[simp] theorem modCore_pkg (s : State) (k : Nat) (f : CoreGroup → CoreGroup) : (modCore s k f).pkg = s.pkg := rfl
@[simp] theorem modCore_host (s : State) (k : Nat) (f : CoreGroup → CoreGroup) : (modCore s k f).host = s.host := rfl
@[simp] theorem modCore_boot (s : State) (k : Nat) (f : CoreGroup → CoreGroup) : (modCore s k f).boot = s.boot := rfl

/-! ### combineWrite writes `pkg` alone -/

@[simp] theorem combineWrite_agenda (s : State) (l : Nat) : (combineWrite s l).agenda = s.agenda := rfl
@[simp] theorem combineWrite_cur (s : State) (l : Nat) : (combineWrite s l).cur = s.cur := rfl
@[simp] theorem combineWrite_lost (s : State) (l : Nat) : (combineWrite s l).lost = s.lost := rfl
@[simp] theorem combineWrite_clock (s : State) (l : Nat) : (combineWrite s l).clock = s.clock := rfl
@[simp] theorem combineWrite_fresh (s : State) (l : Nat) : (combineWrite s l).fresh = s.fresh := rfl
@[simp] theorem combineWrite_acts (s : State) (l : Nat) : (combineWrite s l).acts = s.acts := rfl
@[simp] theorem combineWrite_nextId (s : State) (l : Nat) : (combineWrite s l).nextId = s.nextId := rfl
@[simp] theorem combineWrite_threads (s : State) (l : Nat) : (combineWrite s l).threads = s.threads := rfl
@[simp] theorem combineWrite_groups (s : State) (l : Nat) : (combineWrite s l).groups = s.groups := rfl
@[simp] theorem combineWrite_warps (s : State) (l : Nat) : (combineWrite s l).warps = s.warps := rfl
@[simp] theorem combineWrite_sideLeft (s : State) (l : Nat) : (combineWrite s l).sideLeft = s.sideLeft := rfl
@[simp] theorem combineWrite_quadGroups (s : State) (l : Nat) : (combineWrite s l).quadGroups = s.quadGroups := rfl
@[simp] theorem combineWrite_turns (s : State) (l : Nat) : (combineWrite s l).turns = s.turns := rfl
@[simp] theorem combineWrite_pcTable (s : State) (l : Nat) : (combineWrite s l).pcTable = s.pcTable := rfl
@[simp] theorem combineWrite_lows (s : State) (l : Nat) : (combineWrite s l).lows = s.lows := rfl
@[simp] theorem combineWrite_coreGroups (s : State) (l : Nat) : (combineWrite s l).coreGroups = s.coreGroups := rfl
@[simp] theorem combineWrite_clusterGroups (s : State) (l : Nat) : (combineWrite s l).clusterGroups = s.clusterGroups := rfl
@[simp] theorem combineWrite_launches (s : State) (l : Nat) : (combineWrite s l).launches = s.launches := rfl
@[simp] theorem combineWrite_frags (s : State) (l : Nat) : (combineWrite s l).frags = s.frags := rfl
@[simp] theorem combineWrite_parts (s : State) (l : Nat) : (combineWrite s l).parts = s.parts := rfl
@[simp] theorem combineWrite_mem (s : State) (l : Nat) : (combineWrite s l).mem = s.mem := rfl
@[simp] theorem combineWrite_host (s : State) (l : Nat) : (combineWrite s l).host = s.host := rfl
@[simp] theorem combineWrite_boot (s : State) (l : Nat) : (combineWrite s l).boot = s.boot := rfl

/-! ### dropStash writes `coreGroups` alone -/

@[simp] theorem dropStash_agenda (s : State) (l : Nat) (k : StashRef) : (dropStash s l k).agenda = s.agenda := rfl
@[simp] theorem dropStash_cur (s : State) (l : Nat) (k : StashRef) : (dropStash s l k).cur = s.cur := rfl
@[simp] theorem dropStash_lost (s : State) (l : Nat) (k : StashRef) : (dropStash s l k).lost = s.lost := rfl
@[simp] theorem dropStash_clock (s : State) (l : Nat) (k : StashRef) : (dropStash s l k).clock = s.clock := rfl
@[simp] theorem dropStash_fresh (s : State) (l : Nat) (k : StashRef) : (dropStash s l k).fresh = s.fresh := rfl
@[simp] theorem dropStash_acts (s : State) (l : Nat) (k : StashRef) : (dropStash s l k).acts = s.acts := rfl
@[simp] theorem dropStash_nextId (s : State) (l : Nat) (k : StashRef) : (dropStash s l k).nextId = s.nextId := rfl
@[simp] theorem dropStash_threads (s : State) (l : Nat) (k : StashRef) : (dropStash s l k).threads = s.threads := rfl
@[simp] theorem dropStash_groups (s : State) (l : Nat) (k : StashRef) : (dropStash s l k).groups = s.groups := rfl
@[simp] theorem dropStash_warps (s : State) (l : Nat) (k : StashRef) : (dropStash s l k).warps = s.warps := rfl
@[simp] theorem dropStash_sideLeft (s : State) (l : Nat) (k : StashRef) : (dropStash s l k).sideLeft = s.sideLeft := rfl
@[simp] theorem dropStash_quadGroups (s : State) (l : Nat) (k : StashRef) : (dropStash s l k).quadGroups = s.quadGroups := rfl
@[simp] theorem dropStash_turns (s : State) (l : Nat) (k : StashRef) : (dropStash s l k).turns = s.turns := rfl
@[simp] theorem dropStash_pcTable (s : State) (l : Nat) (k : StashRef) : (dropStash s l k).pcTable = s.pcTable := rfl
@[simp] theorem dropStash_lows (s : State) (l : Nat) (k : StashRef) : (dropStash s l k).lows = s.lows := rfl
@[simp] theorem dropStash_clusterGroups (s : State) (l : Nat) (k : StashRef) : (dropStash s l k).clusterGroups = s.clusterGroups := rfl
@[simp] theorem dropStash_launches (s : State) (l : Nat) (k : StashRef) : (dropStash s l k).launches = s.launches := rfl
@[simp] theorem dropStash_frags (s : State) (l : Nat) (k : StashRef) : (dropStash s l k).frags = s.frags := rfl
@[simp] theorem dropStash_parts (s : State) (l : Nat) (k : StashRef) : (dropStash s l k).parts = s.parts := rfl
@[simp] theorem dropStash_mem (s : State) (l : Nat) (k : StashRef) : (dropStash s l k).mem = s.mem := rfl
@[simp] theorem dropStash_pkg (s : State) (l : Nat) (k : StashRef) : (dropStash s l k).pkg = s.pkg := rfl
@[simp] theorem dropStash_host (s : State) (l : Nat) (k : StashRef) : (dropStash s l k).host = s.host := rfl
@[simp] theorem dropStash_boot (s : State) (l : Nat) (k : StashRef) : (dropStash s l k).boot = s.boot := rfl

/-! ### modLaunch writes `launches` alone -/

@[simp] theorem modLaunch_agenda (s : State) (p n : Nat) (f : Launch → Launch) : (modLaunch s p n f).agenda = s.agenda := rfl
@[simp] theorem modLaunch_cur (s : State) (p n : Nat) (f : Launch → Launch) : (modLaunch s p n f).cur = s.cur := rfl
@[simp] theorem modLaunch_lost (s : State) (p n : Nat) (f : Launch → Launch) : (modLaunch s p n f).lost = s.lost := rfl
@[simp] theorem modLaunch_clock (s : State) (p n : Nat) (f : Launch → Launch) : (modLaunch s p n f).clock = s.clock := rfl
@[simp] theorem modLaunch_fresh (s : State) (p n : Nat) (f : Launch → Launch) : (modLaunch s p n f).fresh = s.fresh := rfl
@[simp] theorem modLaunch_acts (s : State) (p n : Nat) (f : Launch → Launch) : (modLaunch s p n f).acts = s.acts := rfl
@[simp] theorem modLaunch_nextId (s : State) (p n : Nat) (f : Launch → Launch) : (modLaunch s p n f).nextId = s.nextId := rfl
@[simp] theorem modLaunch_threads (s : State) (p n : Nat) (f : Launch → Launch) : (modLaunch s p n f).threads = s.threads := rfl
@[simp] theorem modLaunch_groups (s : State) (p n : Nat) (f : Launch → Launch) : (modLaunch s p n f).groups = s.groups := rfl
@[simp] theorem modLaunch_warps (s : State) (p n : Nat) (f : Launch → Launch) : (modLaunch s p n f).warps = s.warps := rfl
@[simp] theorem modLaunch_sideLeft (s : State) (p n : Nat) (f : Launch → Launch) : (modLaunch s p n f).sideLeft = s.sideLeft := rfl
@[simp] theorem modLaunch_quadGroups (s : State) (p n : Nat) (f : Launch → Launch) : (modLaunch s p n f).quadGroups = s.quadGroups := rfl
@[simp] theorem modLaunch_turns (s : State) (p n : Nat) (f : Launch → Launch) : (modLaunch s p n f).turns = s.turns := rfl
@[simp] theorem modLaunch_pcTable (s : State) (p n : Nat) (f : Launch → Launch) : (modLaunch s p n f).pcTable = s.pcTable := rfl
@[simp] theorem modLaunch_lows (s : State) (p n : Nat) (f : Launch → Launch) : (modLaunch s p n f).lows = s.lows := rfl
@[simp] theorem modLaunch_coreGroups (s : State) (p n : Nat) (f : Launch → Launch) : (modLaunch s p n f).coreGroups = s.coreGroups := rfl
@[simp] theorem modLaunch_clusterGroups (s : State) (p n : Nat) (f : Launch → Launch) : (modLaunch s p n f).clusterGroups = s.clusterGroups := rfl
@[simp] theorem modLaunch_frags (s : State) (p n : Nat) (f : Launch → Launch) : (modLaunch s p n f).frags = s.frags := rfl
@[simp] theorem modLaunch_parts (s : State) (p n : Nat) (f : Launch → Launch) : (modLaunch s p n f).parts = s.parts := rfl
@[simp] theorem modLaunch_mem (s : State) (p n : Nat) (f : Launch → Launch) : (modLaunch s p n f).mem = s.mem := rfl
@[simp] theorem modLaunch_pkg (s : State) (p n : Nat) (f : Launch → Launch) : (modLaunch s p n f).pkg = s.pkg := rfl
@[simp] theorem modLaunch_host (s : State) (p n : Nat) (f : Launch → Launch) : (modLaunch s p n f).host = s.host := rfl
@[simp] theorem modLaunch_boot (s : State) (p n : Nat) (f : Launch → Launch) : (modLaunch s p n f).boot = s.boot := rfl

/-! ### modLq writes `parts` alone -/

@[simp] theorem modLq_agenda (s : State) (p n : Nat) (f : LQueue → LQueue) : (modLq s p n f).agenda = s.agenda := rfl
@[simp] theorem modLq_cur (s : State) (p n : Nat) (f : LQueue → LQueue) : (modLq s p n f).cur = s.cur := rfl
@[simp] theorem modLq_lost (s : State) (p n : Nat) (f : LQueue → LQueue) : (modLq s p n f).lost = s.lost := rfl
@[simp] theorem modLq_clock (s : State) (p n : Nat) (f : LQueue → LQueue) : (modLq s p n f).clock = s.clock := rfl
@[simp] theorem modLq_fresh (s : State) (p n : Nat) (f : LQueue → LQueue) : (modLq s p n f).fresh = s.fresh := rfl
@[simp] theorem modLq_acts (s : State) (p n : Nat) (f : LQueue → LQueue) : (modLq s p n f).acts = s.acts := rfl
@[simp] theorem modLq_nextId (s : State) (p n : Nat) (f : LQueue → LQueue) : (modLq s p n f).nextId = s.nextId := rfl
@[simp] theorem modLq_threads (s : State) (p n : Nat) (f : LQueue → LQueue) : (modLq s p n f).threads = s.threads := rfl
@[simp] theorem modLq_groups (s : State) (p n : Nat) (f : LQueue → LQueue) : (modLq s p n f).groups = s.groups := rfl
@[simp] theorem modLq_warps (s : State) (p n : Nat) (f : LQueue → LQueue) : (modLq s p n f).warps = s.warps := rfl
@[simp] theorem modLq_sideLeft (s : State) (p n : Nat) (f : LQueue → LQueue) : (modLq s p n f).sideLeft = s.sideLeft := rfl
@[simp] theorem modLq_quadGroups (s : State) (p n : Nat) (f : LQueue → LQueue) : (modLq s p n f).quadGroups = s.quadGroups := rfl
@[simp] theorem modLq_turns (s : State) (p n : Nat) (f : LQueue → LQueue) : (modLq s p n f).turns = s.turns := rfl
@[simp] theorem modLq_pcTable (s : State) (p n : Nat) (f : LQueue → LQueue) : (modLq s p n f).pcTable = s.pcTable := rfl
@[simp] theorem modLq_lows (s : State) (p n : Nat) (f : LQueue → LQueue) : (modLq s p n f).lows = s.lows := rfl
@[simp] theorem modLq_coreGroups (s : State) (p n : Nat) (f : LQueue → LQueue) : (modLq s p n f).coreGroups = s.coreGroups := rfl
@[simp] theorem modLq_clusterGroups (s : State) (p n : Nat) (f : LQueue → LQueue) : (modLq s p n f).clusterGroups = s.clusterGroups := rfl
@[simp] theorem modLq_launches (s : State) (p n : Nat) (f : LQueue → LQueue) : (modLq s p n f).launches = s.launches := rfl
@[simp] theorem modLq_frags (s : State) (p n : Nat) (f : LQueue → LQueue) : (modLq s p n f).frags = s.frags := rfl
@[simp] theorem modLq_mem (s : State) (p n : Nat) (f : LQueue → LQueue) : (modLq s p n f).mem = s.mem := rfl
@[simp] theorem modLq_pkg (s : State) (p n : Nat) (f : LQueue → LQueue) : (modLq s p n f).pkg = s.pkg := rfl
@[simp] theorem modLq_host (s : State) (p n : Nat) (f : LQueue → LQueue) : (modLq s p n f).host = s.host := rfl
@[simp] theorem modLq_boot (s : State) (p n : Nat) (f : LQueue → LQueue) : (modLq s p n f).boot = s.boot := rfl

/-! ### modJob writes `parts` alone -/

@[simp] theorem modJob_agenda (s : State) (p n : Nat) (f : Job → Job) : (modJob s p n f).agenda = s.agenda := rfl
@[simp] theorem modJob_cur (s : State) (p n : Nat) (f : Job → Job) : (modJob s p n f).cur = s.cur := rfl
@[simp] theorem modJob_lost (s : State) (p n : Nat) (f : Job → Job) : (modJob s p n f).lost = s.lost := rfl
@[simp] theorem modJob_clock (s : State) (p n : Nat) (f : Job → Job) : (modJob s p n f).clock = s.clock := rfl
@[simp] theorem modJob_fresh (s : State) (p n : Nat) (f : Job → Job) : (modJob s p n f).fresh = s.fresh := rfl
@[simp] theorem modJob_acts (s : State) (p n : Nat) (f : Job → Job) : (modJob s p n f).acts = s.acts := rfl
@[simp] theorem modJob_nextId (s : State) (p n : Nat) (f : Job → Job) : (modJob s p n f).nextId = s.nextId := rfl
@[simp] theorem modJob_threads (s : State) (p n : Nat) (f : Job → Job) : (modJob s p n f).threads = s.threads := rfl
@[simp] theorem modJob_groups (s : State) (p n : Nat) (f : Job → Job) : (modJob s p n f).groups = s.groups := rfl
@[simp] theorem modJob_warps (s : State) (p n : Nat) (f : Job → Job) : (modJob s p n f).warps = s.warps := rfl
@[simp] theorem modJob_sideLeft (s : State) (p n : Nat) (f : Job → Job) : (modJob s p n f).sideLeft = s.sideLeft := rfl
@[simp] theorem modJob_quadGroups (s : State) (p n : Nat) (f : Job → Job) : (modJob s p n f).quadGroups = s.quadGroups := rfl
@[simp] theorem modJob_turns (s : State) (p n : Nat) (f : Job → Job) : (modJob s p n f).turns = s.turns := rfl
@[simp] theorem modJob_pcTable (s : State) (p n : Nat) (f : Job → Job) : (modJob s p n f).pcTable = s.pcTable := rfl
@[simp] theorem modJob_lows (s : State) (p n : Nat) (f : Job → Job) : (modJob s p n f).lows = s.lows := rfl
@[simp] theorem modJob_coreGroups (s : State) (p n : Nat) (f : Job → Job) : (modJob s p n f).coreGroups = s.coreGroups := rfl
@[simp] theorem modJob_clusterGroups (s : State) (p n : Nat) (f : Job → Job) : (modJob s p n f).clusterGroups = s.clusterGroups := rfl
@[simp] theorem modJob_launches (s : State) (p n : Nat) (f : Job → Job) : (modJob s p n f).launches = s.launches := rfl
@[simp] theorem modJob_frags (s : State) (p n : Nat) (f : Job → Job) : (modJob s p n f).frags = s.frags := rfl
@[simp] theorem modJob_mem (s : State) (p n : Nat) (f : Job → Job) : (modJob s p n f).mem = s.mem := rfl
@[simp] theorem modJob_pkg (s : State) (p n : Nat) (f : Job → Job) : (modJob s p n f).pkg = s.pkg := rfl
@[simp] theorem modJob_host (s : State) (p n : Nat) (f : Job → Job) : (modJob s p n f).host = s.host := rfl
@[simp] theorem modJob_boot (s : State) (p n : Nat) (f : Job → Job) : (modJob s p n f).boot = s.boot := rfl

/-! ### setIsland writes `pkg` alone -/

@[simp] theorem setIsland_agenda (s : State) (c : Nat) (f : Island → Island) : (setIsland s c f).agenda = s.agenda := rfl
@[simp] theorem setIsland_cur (s : State) (c : Nat) (f : Island → Island) : (setIsland s c f).cur = s.cur := rfl
@[simp] theorem setIsland_lost (s : State) (c : Nat) (f : Island → Island) : (setIsland s c f).lost = s.lost := rfl
@[simp] theorem setIsland_clock (s : State) (c : Nat) (f : Island → Island) : (setIsland s c f).clock = s.clock := rfl
@[simp] theorem setIsland_fresh (s : State) (c : Nat) (f : Island → Island) : (setIsland s c f).fresh = s.fresh := rfl
@[simp] theorem setIsland_acts (s : State) (c : Nat) (f : Island → Island) : (setIsland s c f).acts = s.acts := rfl
@[simp] theorem setIsland_nextId (s : State) (c : Nat) (f : Island → Island) : (setIsland s c f).nextId = s.nextId := rfl
@[simp] theorem setIsland_threads (s : State) (c : Nat) (f : Island → Island) : (setIsland s c f).threads = s.threads := rfl
@[simp] theorem setIsland_groups (s : State) (c : Nat) (f : Island → Island) : (setIsland s c f).groups = s.groups := rfl
@[simp] theorem setIsland_warps (s : State) (c : Nat) (f : Island → Island) : (setIsland s c f).warps = s.warps := rfl
@[simp] theorem setIsland_sideLeft (s : State) (c : Nat) (f : Island → Island) : (setIsland s c f).sideLeft = s.sideLeft := rfl
@[simp] theorem setIsland_quadGroups (s : State) (c : Nat) (f : Island → Island) : (setIsland s c f).quadGroups = s.quadGroups := rfl
@[simp] theorem setIsland_turns (s : State) (c : Nat) (f : Island → Island) : (setIsland s c f).turns = s.turns := rfl
@[simp] theorem setIsland_pcTable (s : State) (c : Nat) (f : Island → Island) : (setIsland s c f).pcTable = s.pcTable := rfl
@[simp] theorem setIsland_lows (s : State) (c : Nat) (f : Island → Island) : (setIsland s c f).lows = s.lows := rfl
@[simp] theorem setIsland_coreGroups (s : State) (c : Nat) (f : Island → Island) : (setIsland s c f).coreGroups = s.coreGroups := rfl
@[simp] theorem setIsland_clusterGroups (s : State) (c : Nat) (f : Island → Island) : (setIsland s c f).clusterGroups = s.clusterGroups := rfl
@[simp] theorem setIsland_launches (s : State) (c : Nat) (f : Island → Island) : (setIsland s c f).launches = s.launches := rfl
@[simp] theorem setIsland_frags (s : State) (c : Nat) (f : Island → Island) : (setIsland s c f).frags = s.frags := rfl
@[simp] theorem setIsland_parts (s : State) (c : Nat) (f : Island → Island) : (setIsland s c f).parts = s.parts := rfl
@[simp] theorem setIsland_mem (s : State) (c : Nat) (f : Island → Island) : (setIsland s c f).mem = s.mem := rfl
@[simp] theorem setIsland_host (s : State) (c : Nat) (f : Island → Island) : (setIsland s c f).host = s.host := rfl
@[simp] theorem setIsland_boot (s : State) (c : Nat) (f : Island → Island) : (setIsland s c f).boot = s.boot := rfl

/-! ### setDie writes `pkg` alone -/

@[simp] theorem setDie_agenda (s : State) (d : Nat) (f : Die → Die) : (setDie s d f).agenda = s.agenda := rfl
@[simp] theorem setDie_cur (s : State) (d : Nat) (f : Die → Die) : (setDie s d f).cur = s.cur := rfl
@[simp] theorem setDie_lost (s : State) (d : Nat) (f : Die → Die) : (setDie s d f).lost = s.lost := rfl
@[simp] theorem setDie_clock (s : State) (d : Nat) (f : Die → Die) : (setDie s d f).clock = s.clock := rfl
@[simp] theorem setDie_fresh (s : State) (d : Nat) (f : Die → Die) : (setDie s d f).fresh = s.fresh := rfl
@[simp] theorem setDie_acts (s : State) (d : Nat) (f : Die → Die) : (setDie s d f).acts = s.acts := rfl
@[simp] theorem setDie_nextId (s : State) (d : Nat) (f : Die → Die) : (setDie s d f).nextId = s.nextId := rfl
@[simp] theorem setDie_threads (s : State) (d : Nat) (f : Die → Die) : (setDie s d f).threads = s.threads := rfl
@[simp] theorem setDie_groups (s : State) (d : Nat) (f : Die → Die) : (setDie s d f).groups = s.groups := rfl
@[simp] theorem setDie_warps (s : State) (d : Nat) (f : Die → Die) : (setDie s d f).warps = s.warps := rfl
@[simp] theorem setDie_sideLeft (s : State) (d : Nat) (f : Die → Die) : (setDie s d f).sideLeft = s.sideLeft := rfl
@[simp] theorem setDie_quadGroups (s : State) (d : Nat) (f : Die → Die) : (setDie s d f).quadGroups = s.quadGroups := rfl
@[simp] theorem setDie_turns (s : State) (d : Nat) (f : Die → Die) : (setDie s d f).turns = s.turns := rfl
@[simp] theorem setDie_pcTable (s : State) (d : Nat) (f : Die → Die) : (setDie s d f).pcTable = s.pcTable := rfl
@[simp] theorem setDie_lows (s : State) (d : Nat) (f : Die → Die) : (setDie s d f).lows = s.lows := rfl
@[simp] theorem setDie_coreGroups (s : State) (d : Nat) (f : Die → Die) : (setDie s d f).coreGroups = s.coreGroups := rfl
@[simp] theorem setDie_clusterGroups (s : State) (d : Nat) (f : Die → Die) : (setDie s d f).clusterGroups = s.clusterGroups := rfl
@[simp] theorem setDie_launches (s : State) (d : Nat) (f : Die → Die) : (setDie s d f).launches = s.launches := rfl
@[simp] theorem setDie_frags (s : State) (d : Nat) (f : Die → Die) : (setDie s d f).frags = s.frags := rfl
@[simp] theorem setDie_parts (s : State) (d : Nat) (f : Die → Die) : (setDie s d f).parts = s.parts := rfl
@[simp] theorem setDie_mem (s : State) (d : Nat) (f : Die → Die) : (setDie s d f).mem = s.mem := rfl
@[simp] theorem setDie_host (s : State) (d : Nat) (f : Die → Die) : (setDie s d f).host = s.host := rfl
@[simp] theorem setDie_boot (s : State) (d : Nat) (f : Die → Die) : (setDie s d f).boot = s.boot := rfl

/-! ### setPkg writes `pkg` alone -/

@[simp] theorem setPkg_agenda (s : State) (f : Package → Package) : (setPkg s f).agenda = s.agenda := rfl
@[simp] theorem setPkg_cur (s : State) (f : Package → Package) : (setPkg s f).cur = s.cur := rfl
@[simp] theorem setPkg_lost (s : State) (f : Package → Package) : (setPkg s f).lost = s.lost := rfl
@[simp] theorem setPkg_clock (s : State) (f : Package → Package) : (setPkg s f).clock = s.clock := rfl
@[simp] theorem setPkg_fresh (s : State) (f : Package → Package) : (setPkg s f).fresh = s.fresh := rfl
@[simp] theorem setPkg_acts (s : State) (f : Package → Package) : (setPkg s f).acts = s.acts := rfl
@[simp] theorem setPkg_nextId (s : State) (f : Package → Package) : (setPkg s f).nextId = s.nextId := rfl
@[simp] theorem setPkg_threads (s : State) (f : Package → Package) : (setPkg s f).threads = s.threads := rfl
@[simp] theorem setPkg_groups (s : State) (f : Package → Package) : (setPkg s f).groups = s.groups := rfl
@[simp] theorem setPkg_warps (s : State) (f : Package → Package) : (setPkg s f).warps = s.warps := rfl
@[simp] theorem setPkg_sideLeft (s : State) (f : Package → Package) : (setPkg s f).sideLeft = s.sideLeft := rfl
@[simp] theorem setPkg_quadGroups (s : State) (f : Package → Package) : (setPkg s f).quadGroups = s.quadGroups := rfl
@[simp] theorem setPkg_turns (s : State) (f : Package → Package) : (setPkg s f).turns = s.turns := rfl
@[simp] theorem setPkg_pcTable (s : State) (f : Package → Package) : (setPkg s f).pcTable = s.pcTable := rfl
@[simp] theorem setPkg_lows (s : State) (f : Package → Package) : (setPkg s f).lows = s.lows := rfl
@[simp] theorem setPkg_coreGroups (s : State) (f : Package → Package) : (setPkg s f).coreGroups = s.coreGroups := rfl
@[simp] theorem setPkg_clusterGroups (s : State) (f : Package → Package) : (setPkg s f).clusterGroups = s.clusterGroups := rfl
@[simp] theorem setPkg_launches (s : State) (f : Package → Package) : (setPkg s f).launches = s.launches := rfl
@[simp] theorem setPkg_frags (s : State) (f : Package → Package) : (setPkg s f).frags = s.frags := rfl
@[simp] theorem setPkg_parts (s : State) (f : Package → Package) : (setPkg s f).parts = s.parts := rfl
@[simp] theorem setPkg_mem (s : State) (f : Package → Package) : (setPkg s f).mem = s.mem := rfl
@[simp] theorem setPkg_host (s : State) (f : Package → Package) : (setPkg s f).host = s.host := rfl
@[simp] theorem setPkg_boot (s : State) (f : Package → Package) : (setPkg s f).boot = s.boot := rfl

/-! ### setHost writes `host` alone -/

@[simp] theorem setHost_agenda (s : State) (f : HostPort → HostPort) : (setHost s f).agenda = s.agenda := rfl
@[simp] theorem setHost_cur (s : State) (f : HostPort → HostPort) : (setHost s f).cur = s.cur := rfl
@[simp] theorem setHost_lost (s : State) (f : HostPort → HostPort) : (setHost s f).lost = s.lost := rfl
@[simp] theorem setHost_clock (s : State) (f : HostPort → HostPort) : (setHost s f).clock = s.clock := rfl
@[simp] theorem setHost_fresh (s : State) (f : HostPort → HostPort) : (setHost s f).fresh = s.fresh := rfl
@[simp] theorem setHost_acts (s : State) (f : HostPort → HostPort) : (setHost s f).acts = s.acts := rfl
@[simp] theorem setHost_nextId (s : State) (f : HostPort → HostPort) : (setHost s f).nextId = s.nextId := rfl
@[simp] theorem setHost_threads (s : State) (f : HostPort → HostPort) : (setHost s f).threads = s.threads := rfl
@[simp] theorem setHost_groups (s : State) (f : HostPort → HostPort) : (setHost s f).groups = s.groups := rfl
@[simp] theorem setHost_warps (s : State) (f : HostPort → HostPort) : (setHost s f).warps = s.warps := rfl
@[simp] theorem setHost_sideLeft (s : State) (f : HostPort → HostPort) : (setHost s f).sideLeft = s.sideLeft := rfl
@[simp] theorem setHost_quadGroups (s : State) (f : HostPort → HostPort) : (setHost s f).quadGroups = s.quadGroups := rfl
@[simp] theorem setHost_turns (s : State) (f : HostPort → HostPort) : (setHost s f).turns = s.turns := rfl
@[simp] theorem setHost_pcTable (s : State) (f : HostPort → HostPort) : (setHost s f).pcTable = s.pcTable := rfl
@[simp] theorem setHost_lows (s : State) (f : HostPort → HostPort) : (setHost s f).lows = s.lows := rfl
@[simp] theorem setHost_coreGroups (s : State) (f : HostPort → HostPort) : (setHost s f).coreGroups = s.coreGroups := rfl
@[simp] theorem setHost_clusterGroups (s : State) (f : HostPort → HostPort) : (setHost s f).clusterGroups = s.clusterGroups := rfl
@[simp] theorem setHost_launches (s : State) (f : HostPort → HostPort) : (setHost s f).launches = s.launches := rfl
@[simp] theorem setHost_frags (s : State) (f : HostPort → HostPort) : (setHost s f).frags = s.frags := rfl
@[simp] theorem setHost_parts (s : State) (f : HostPort → HostPort) : (setHost s f).parts = s.parts := rfl
@[simp] theorem setHost_mem (s : State) (f : HostPort → HostPort) : (setHost s f).mem = s.mem := rfl
@[simp] theorem setHost_pkg (s : State) (f : HostPort → HostPort) : (setHost s f).pkg = s.pkg := rfl
@[simp] theorem setHost_boot (s : State) (f : HostPort → HostPort) : (setHost s f).boot = s.boot := rfl

/-! ### setBoot writes `boot` alone -/

@[simp] theorem setBoot_agenda (s : State) (f : Boot → Boot) : (setBoot s f).agenda = s.agenda := rfl
@[simp] theorem setBoot_cur (s : State) (f : Boot → Boot) : (setBoot s f).cur = s.cur := rfl
@[simp] theorem setBoot_lost (s : State) (f : Boot → Boot) : (setBoot s f).lost = s.lost := rfl
@[simp] theorem setBoot_clock (s : State) (f : Boot → Boot) : (setBoot s f).clock = s.clock := rfl
@[simp] theorem setBoot_fresh (s : State) (f : Boot → Boot) : (setBoot s f).fresh = s.fresh := rfl
@[simp] theorem setBoot_acts (s : State) (f : Boot → Boot) : (setBoot s f).acts = s.acts := rfl
@[simp] theorem setBoot_nextId (s : State) (f : Boot → Boot) : (setBoot s f).nextId = s.nextId := rfl
@[simp] theorem setBoot_threads (s : State) (f : Boot → Boot) : (setBoot s f).threads = s.threads := rfl
@[simp] theorem setBoot_groups (s : State) (f : Boot → Boot) : (setBoot s f).groups = s.groups := rfl
@[simp] theorem setBoot_warps (s : State) (f : Boot → Boot) : (setBoot s f).warps = s.warps := rfl
@[simp] theorem setBoot_sideLeft (s : State) (f : Boot → Boot) : (setBoot s f).sideLeft = s.sideLeft := rfl
@[simp] theorem setBoot_quadGroups (s : State) (f : Boot → Boot) : (setBoot s f).quadGroups = s.quadGroups := rfl
@[simp] theorem setBoot_turns (s : State) (f : Boot → Boot) : (setBoot s f).turns = s.turns := rfl
@[simp] theorem setBoot_pcTable (s : State) (f : Boot → Boot) : (setBoot s f).pcTable = s.pcTable := rfl
@[simp] theorem setBoot_lows (s : State) (f : Boot → Boot) : (setBoot s f).lows = s.lows := rfl
@[simp] theorem setBoot_coreGroups (s : State) (f : Boot → Boot) : (setBoot s f).coreGroups = s.coreGroups := rfl
@[simp] theorem setBoot_clusterGroups (s : State) (f : Boot → Boot) : (setBoot s f).clusterGroups = s.clusterGroups := rfl
@[simp] theorem setBoot_launches (s : State) (f : Boot → Boot) : (setBoot s f).launches = s.launches := rfl
@[simp] theorem setBoot_frags (s : State) (f : Boot → Boot) : (setBoot s f).frags = s.frags := rfl
@[simp] theorem setBoot_parts (s : State) (f : Boot → Boot) : (setBoot s f).parts = s.parts := rfl
@[simp] theorem setBoot_mem (s : State) (f : Boot → Boot) : (setBoot s f).mem = s.mem := rfl
@[simp] theorem setBoot_pkg (s : State) (f : Boot → Boot) : (setBoot s f).pkg = s.pkg := rfl
@[simp] theorem setBoot_host (s : State) (f : Boot → Boot) : (setBoot s f).host = s.host := rfl

/-! ### wakeDie writes `pkg` alone -/

@[simp] theorem wakeDie_agenda (s : State) (d : Nat) : (wakeDie s d).agenda = s.agenda := rfl
@[simp] theorem wakeDie_cur (s : State) (d : Nat) : (wakeDie s d).cur = s.cur := rfl
@[simp] theorem wakeDie_lost (s : State) (d : Nat) : (wakeDie s d).lost = s.lost := rfl
@[simp] theorem wakeDie_clock (s : State) (d : Nat) : (wakeDie s d).clock = s.clock := rfl
@[simp] theorem wakeDie_fresh (s : State) (d : Nat) : (wakeDie s d).fresh = s.fresh := rfl
@[simp] theorem wakeDie_acts (s : State) (d : Nat) : (wakeDie s d).acts = s.acts := rfl
@[simp] theorem wakeDie_nextId (s : State) (d : Nat) : (wakeDie s d).nextId = s.nextId := rfl
@[simp] theorem wakeDie_threads (s : State) (d : Nat) : (wakeDie s d).threads = s.threads := rfl
@[simp] theorem wakeDie_groups (s : State) (d : Nat) : (wakeDie s d).groups = s.groups := rfl
@[simp] theorem wakeDie_warps (s : State) (d : Nat) : (wakeDie s d).warps = s.warps := rfl
@[simp] theorem wakeDie_sideLeft (s : State) (d : Nat) : (wakeDie s d).sideLeft = s.sideLeft := rfl
@[simp] theorem wakeDie_quadGroups (s : State) (d : Nat) : (wakeDie s d).quadGroups = s.quadGroups := rfl
@[simp] theorem wakeDie_turns (s : State) (d : Nat) : (wakeDie s d).turns = s.turns := rfl
@[simp] theorem wakeDie_pcTable (s : State) (d : Nat) : (wakeDie s d).pcTable = s.pcTable := rfl
@[simp] theorem wakeDie_lows (s : State) (d : Nat) : (wakeDie s d).lows = s.lows := rfl
@[simp] theorem wakeDie_coreGroups (s : State) (d : Nat) : (wakeDie s d).coreGroups = s.coreGroups := rfl
@[simp] theorem wakeDie_clusterGroups (s : State) (d : Nat) : (wakeDie s d).clusterGroups = s.clusterGroups := rfl
@[simp] theorem wakeDie_launches (s : State) (d : Nat) : (wakeDie s d).launches = s.launches := rfl
@[simp] theorem wakeDie_frags (s : State) (d : Nat) : (wakeDie s d).frags = s.frags := rfl
@[simp] theorem wakeDie_parts (s : State) (d : Nat) : (wakeDie s d).parts = s.parts := rfl
@[simp] theorem wakeDie_mem (s : State) (d : Nat) : (wakeDie s d).mem = s.mem := rfl
@[simp] theorem wakeDie_host (s : State) (d : Nat) : (wakeDie s d).host = s.host := rfl
@[simp] theorem wakeDie_boot (s : State) (d : Nat) : (wakeDie s d).boot = s.boot := rfl

/-! ### closeCombs writes `pkg` alone -/

@[simp] theorem closeCombs_agenda (s : State) (q : Part) : (closeCombs s q).agenda = s.agenda := rfl
@[simp] theorem closeCombs_cur (s : State) (q : Part) : (closeCombs s q).cur = s.cur := rfl
@[simp] theorem closeCombs_lost (s : State) (q : Part) : (closeCombs s q).lost = s.lost := rfl
@[simp] theorem closeCombs_clock (s : State) (q : Part) : (closeCombs s q).clock = s.clock := rfl
@[simp] theorem closeCombs_fresh (s : State) (q : Part) : (closeCombs s q).fresh = s.fresh := rfl
@[simp] theorem closeCombs_acts (s : State) (q : Part) : (closeCombs s q).acts = s.acts := rfl
@[simp] theorem closeCombs_nextId (s : State) (q : Part) : (closeCombs s q).nextId = s.nextId := rfl
@[simp] theorem closeCombs_threads (s : State) (q : Part) : (closeCombs s q).threads = s.threads := rfl
@[simp] theorem closeCombs_groups (s : State) (q : Part) : (closeCombs s q).groups = s.groups := rfl
@[simp] theorem closeCombs_warps (s : State) (q : Part) : (closeCombs s q).warps = s.warps := rfl
@[simp] theorem closeCombs_sideLeft (s : State) (q : Part) : (closeCombs s q).sideLeft = s.sideLeft := rfl
@[simp] theorem closeCombs_quadGroups (s : State) (q : Part) : (closeCombs s q).quadGroups = s.quadGroups := rfl
@[simp] theorem closeCombs_turns (s : State) (q : Part) : (closeCombs s q).turns = s.turns := rfl
@[simp] theorem closeCombs_pcTable (s : State) (q : Part) : (closeCombs s q).pcTable = s.pcTable := rfl
@[simp] theorem closeCombs_lows (s : State) (q : Part) : (closeCombs s q).lows = s.lows := rfl
@[simp] theorem closeCombs_coreGroups (s : State) (q : Part) : (closeCombs s q).coreGroups = s.coreGroups := rfl
@[simp] theorem closeCombs_clusterGroups (s : State) (q : Part) : (closeCombs s q).clusterGroups = s.clusterGroups := rfl
@[simp] theorem closeCombs_launches (s : State) (q : Part) : (closeCombs s q).launches = s.launches := rfl
@[simp] theorem closeCombs_frags (s : State) (q : Part) : (closeCombs s q).frags = s.frags := rfl
@[simp] theorem closeCombs_parts (s : State) (q : Part) : (closeCombs s q).parts = s.parts := rfl
@[simp] theorem closeCombs_mem (s : State) (q : Part) : (closeCombs s q).mem = s.mem := rfl
@[simp] theorem closeCombs_host (s : State) (q : Part) : (closeCombs s q).host = s.host := rfl
@[simp] theorem closeCombs_boot (s : State) (q : Part) : (closeCombs s q).boot = s.boot := rfl

/-! ### noStashes writes `coreGroups` alone -/

@[simp] theorem noStashes_agenda (s : State) (a n : Nat) : (noStashes s a n).agenda = s.agenda := rfl
@[simp] theorem noStashes_cur (s : State) (a n : Nat) : (noStashes s a n).cur = s.cur := rfl
@[simp] theorem noStashes_lost (s : State) (a n : Nat) : (noStashes s a n).lost = s.lost := rfl
@[simp] theorem noStashes_clock (s : State) (a n : Nat) : (noStashes s a n).clock = s.clock := rfl
@[simp] theorem noStashes_fresh (s : State) (a n : Nat) : (noStashes s a n).fresh = s.fresh := rfl
@[simp] theorem noStashes_acts (s : State) (a n : Nat) : (noStashes s a n).acts = s.acts := rfl
@[simp] theorem noStashes_nextId (s : State) (a n : Nat) : (noStashes s a n).nextId = s.nextId := rfl
@[simp] theorem noStashes_threads (s : State) (a n : Nat) : (noStashes s a n).threads = s.threads := rfl
@[simp] theorem noStashes_groups (s : State) (a n : Nat) : (noStashes s a n).groups = s.groups := rfl
@[simp] theorem noStashes_warps (s : State) (a n : Nat) : (noStashes s a n).warps = s.warps := rfl
@[simp] theorem noStashes_sideLeft (s : State) (a n : Nat) : (noStashes s a n).sideLeft = s.sideLeft := rfl
@[simp] theorem noStashes_quadGroups (s : State) (a n : Nat) : (noStashes s a n).quadGroups = s.quadGroups := rfl
@[simp] theorem noStashes_turns (s : State) (a n : Nat) : (noStashes s a n).turns = s.turns := rfl
@[simp] theorem noStashes_pcTable (s : State) (a n : Nat) : (noStashes s a n).pcTable = s.pcTable := rfl
@[simp] theorem noStashes_lows (s : State) (a n : Nat) : (noStashes s a n).lows = s.lows := rfl
@[simp] theorem noStashes_clusterGroups (s : State) (a n : Nat) : (noStashes s a n).clusterGroups = s.clusterGroups := rfl
@[simp] theorem noStashes_launches (s : State) (a n : Nat) : (noStashes s a n).launches = s.launches := rfl
@[simp] theorem noStashes_frags (s : State) (a n : Nat) : (noStashes s a n).frags = s.frags := rfl
@[simp] theorem noStashes_parts (s : State) (a n : Nat) : (noStashes s a n).parts = s.parts := rfl
@[simp] theorem noStashes_mem (s : State) (a n : Nat) : (noStashes s a n).mem = s.mem := rfl
@[simp] theorem noStashes_pkg (s : State) (a n : Nat) : (noStashes s a n).pkg = s.pkg := rfl
@[simp] theorem noStashes_host (s : State) (a n : Nat) : (noStashes s a n).host = s.host := rfl
@[simp] theorem noStashes_boot (s : State) (a n : Nat) : (noStashes s a n).boot = s.boot := rfl

/-! ### setRing writes `host` alone -/

@[simp] theorem setRing_agenda (s : State) (p : Nat) (f : EwRing → EwRing) : (setRing s p f).agenda = s.agenda := rfl
@[simp] theorem setRing_cur (s : State) (p : Nat) (f : EwRing → EwRing) : (setRing s p f).cur = s.cur := rfl
@[simp] theorem setRing_lost (s : State) (p : Nat) (f : EwRing → EwRing) : (setRing s p f).lost = s.lost := rfl
@[simp] theorem setRing_clock (s : State) (p : Nat) (f : EwRing → EwRing) : (setRing s p f).clock = s.clock := rfl
@[simp] theorem setRing_fresh (s : State) (p : Nat) (f : EwRing → EwRing) : (setRing s p f).fresh = s.fresh := rfl
@[simp] theorem setRing_acts (s : State) (p : Nat) (f : EwRing → EwRing) : (setRing s p f).acts = s.acts := rfl
@[simp] theorem setRing_nextId (s : State) (p : Nat) (f : EwRing → EwRing) : (setRing s p f).nextId = s.nextId := rfl
@[simp] theorem setRing_threads (s : State) (p : Nat) (f : EwRing → EwRing) : (setRing s p f).threads = s.threads := rfl
@[simp] theorem setRing_groups (s : State) (p : Nat) (f : EwRing → EwRing) : (setRing s p f).groups = s.groups := rfl
@[simp] theorem setRing_warps (s : State) (p : Nat) (f : EwRing → EwRing) : (setRing s p f).warps = s.warps := rfl
@[simp] theorem setRing_sideLeft (s : State) (p : Nat) (f : EwRing → EwRing) : (setRing s p f).sideLeft = s.sideLeft := rfl
@[simp] theorem setRing_quadGroups (s : State) (p : Nat) (f : EwRing → EwRing) : (setRing s p f).quadGroups = s.quadGroups := rfl
@[simp] theorem setRing_turns (s : State) (p : Nat) (f : EwRing → EwRing) : (setRing s p f).turns = s.turns := rfl
@[simp] theorem setRing_pcTable (s : State) (p : Nat) (f : EwRing → EwRing) : (setRing s p f).pcTable = s.pcTable := rfl
@[simp] theorem setRing_lows (s : State) (p : Nat) (f : EwRing → EwRing) : (setRing s p f).lows = s.lows := rfl
@[simp] theorem setRing_coreGroups (s : State) (p : Nat) (f : EwRing → EwRing) : (setRing s p f).coreGroups = s.coreGroups := rfl
@[simp] theorem setRing_clusterGroups (s : State) (p : Nat) (f : EwRing → EwRing) : (setRing s p f).clusterGroups = s.clusterGroups := rfl
@[simp] theorem setRing_launches (s : State) (p : Nat) (f : EwRing → EwRing) : (setRing s p f).launches = s.launches := rfl
@[simp] theorem setRing_frags (s : State) (p : Nat) (f : EwRing → EwRing) : (setRing s p f).frags = s.frags := rfl
@[simp] theorem setRing_parts (s : State) (p : Nat) (f : EwRing → EwRing) : (setRing s p f).parts = s.parts := rfl
@[simp] theorem setRing_mem (s : State) (p : Nat) (f : EwRing → EwRing) : (setRing s p f).mem = s.mem := rfl
@[simp] theorem setRing_pkg (s : State) (p : Nat) (f : EwRing → EwRing) : (setRing s p f).pkg = s.pkg := rfl
@[simp] theorem setRing_boot (s : State) (p : Nat) (f : EwRing → EwRing) : (setRing s p f).boot = s.boot := rfl

/-! ### keepCode writes `mem` alone -/

@[simp] theorem keepCode_agenda (s : State) (hs : List Nat) (ls : List Loc) (ws : List DWord) : (keepCode s hs ls ws).agenda = s.agenda := rfl
@[simp] theorem keepCode_cur (s : State) (hs : List Nat) (ls : List Loc) (ws : List DWord) : (keepCode s hs ls ws).cur = s.cur := rfl
@[simp] theorem keepCode_lost (s : State) (hs : List Nat) (ls : List Loc) (ws : List DWord) : (keepCode s hs ls ws).lost = s.lost := rfl
@[simp] theorem keepCode_clock (s : State) (hs : List Nat) (ls : List Loc) (ws : List DWord) : (keepCode s hs ls ws).clock = s.clock := rfl
@[simp] theorem keepCode_fresh (s : State) (hs : List Nat) (ls : List Loc) (ws : List DWord) : (keepCode s hs ls ws).fresh = s.fresh := rfl
@[simp] theorem keepCode_acts (s : State) (hs : List Nat) (ls : List Loc) (ws : List DWord) : (keepCode s hs ls ws).acts = s.acts := rfl
@[simp] theorem keepCode_nextId (s : State) (hs : List Nat) (ls : List Loc) (ws : List DWord) : (keepCode s hs ls ws).nextId = s.nextId := rfl
@[simp] theorem keepCode_threads (s : State) (hs : List Nat) (ls : List Loc) (ws : List DWord) : (keepCode s hs ls ws).threads = s.threads := rfl
@[simp] theorem keepCode_groups (s : State) (hs : List Nat) (ls : List Loc) (ws : List DWord) : (keepCode s hs ls ws).groups = s.groups := rfl
@[simp] theorem keepCode_warps (s : State) (hs : List Nat) (ls : List Loc) (ws : List DWord) : (keepCode s hs ls ws).warps = s.warps := rfl
@[simp] theorem keepCode_sideLeft (s : State) (hs : List Nat) (ls : List Loc) (ws : List DWord) : (keepCode s hs ls ws).sideLeft = s.sideLeft := rfl
@[simp] theorem keepCode_quadGroups (s : State) (hs : List Nat) (ls : List Loc) (ws : List DWord) : (keepCode s hs ls ws).quadGroups = s.quadGroups := rfl
@[simp] theorem keepCode_turns (s : State) (hs : List Nat) (ls : List Loc) (ws : List DWord) : (keepCode s hs ls ws).turns = s.turns := rfl
@[simp] theorem keepCode_pcTable (s : State) (hs : List Nat) (ls : List Loc) (ws : List DWord) : (keepCode s hs ls ws).pcTable = s.pcTable := rfl
@[simp] theorem keepCode_lows (s : State) (hs : List Nat) (ls : List Loc) (ws : List DWord) : (keepCode s hs ls ws).lows = s.lows := rfl
@[simp] theorem keepCode_coreGroups (s : State) (hs : List Nat) (ls : List Loc) (ws : List DWord) : (keepCode s hs ls ws).coreGroups = s.coreGroups := rfl
@[simp] theorem keepCode_clusterGroups (s : State) (hs : List Nat) (ls : List Loc) (ws : List DWord) : (keepCode s hs ls ws).clusterGroups = s.clusterGroups := rfl
@[simp] theorem keepCode_launches (s : State) (hs : List Nat) (ls : List Loc) (ws : List DWord) : (keepCode s hs ls ws).launches = s.launches := rfl
@[simp] theorem keepCode_frags (s : State) (hs : List Nat) (ls : List Loc) (ws : List DWord) : (keepCode s hs ls ws).frags = s.frags := rfl
@[simp] theorem keepCode_parts (s : State) (hs : List Nat) (ls : List Loc) (ws : List DWord) : (keepCode s hs ls ws).parts = s.parts := rfl
@[simp] theorem keepCode_pkg (s : State) (hs : List Nat) (ls : List Loc) (ws : List DWord) : (keepCode s hs ls ws).pkg = s.pkg := rfl
@[simp] theorem keepCode_host (s : State) (hs : List Nat) (ls : List Loc) (ws : List DWord) : (keepCode s hs ls ws).host = s.host := rfl
@[simp] theorem keepCode_boot (s : State) (hs : List Nat) (ls : List Loc) (ws : List DWord) : (keepCode s hs ls ws).boot = s.boot := rfl

/-! ### dropCode writes `mem` alone -/

@[simp] theorem dropCode_agenda (s : State) (k p : Nat) (ps : Option (List (Nat × Nat))) : (dropCode s k p ps).agenda = s.agenda := rfl
@[simp] theorem dropCode_cur (s : State) (k p : Nat) (ps : Option (List (Nat × Nat))) : (dropCode s k p ps).cur = s.cur := rfl
@[simp] theorem dropCode_lost (s : State) (k p : Nat) (ps : Option (List (Nat × Nat))) : (dropCode s k p ps).lost = s.lost := rfl
@[simp] theorem dropCode_clock (s : State) (k p : Nat) (ps : Option (List (Nat × Nat))) : (dropCode s k p ps).clock = s.clock := rfl
@[simp] theorem dropCode_fresh (s : State) (k p : Nat) (ps : Option (List (Nat × Nat))) : (dropCode s k p ps).fresh = s.fresh := rfl
@[simp] theorem dropCode_acts (s : State) (k p : Nat) (ps : Option (List (Nat × Nat))) : (dropCode s k p ps).acts = s.acts := rfl
@[simp] theorem dropCode_nextId (s : State) (k p : Nat) (ps : Option (List (Nat × Nat))) : (dropCode s k p ps).nextId = s.nextId := rfl
@[simp] theorem dropCode_threads (s : State) (k p : Nat) (ps : Option (List (Nat × Nat))) : (dropCode s k p ps).threads = s.threads := rfl
@[simp] theorem dropCode_groups (s : State) (k p : Nat) (ps : Option (List (Nat × Nat))) : (dropCode s k p ps).groups = s.groups := rfl
@[simp] theorem dropCode_warps (s : State) (k p : Nat) (ps : Option (List (Nat × Nat))) : (dropCode s k p ps).warps = s.warps := rfl
@[simp] theorem dropCode_sideLeft (s : State) (k p : Nat) (ps : Option (List (Nat × Nat))) : (dropCode s k p ps).sideLeft = s.sideLeft := rfl
@[simp] theorem dropCode_quadGroups (s : State) (k p : Nat) (ps : Option (List (Nat × Nat))) : (dropCode s k p ps).quadGroups = s.quadGroups := rfl
@[simp] theorem dropCode_turns (s : State) (k p : Nat) (ps : Option (List (Nat × Nat))) : (dropCode s k p ps).turns = s.turns := rfl
@[simp] theorem dropCode_pcTable (s : State) (k p : Nat) (ps : Option (List (Nat × Nat))) : (dropCode s k p ps).pcTable = s.pcTable := rfl
@[simp] theorem dropCode_lows (s : State) (k p : Nat) (ps : Option (List (Nat × Nat))) : (dropCode s k p ps).lows = s.lows := rfl
@[simp] theorem dropCode_coreGroups (s : State) (k p : Nat) (ps : Option (List (Nat × Nat))) : (dropCode s k p ps).coreGroups = s.coreGroups := rfl
@[simp] theorem dropCode_clusterGroups (s : State) (k p : Nat) (ps : Option (List (Nat × Nat))) : (dropCode s k p ps).clusterGroups = s.clusterGroups := rfl
@[simp] theorem dropCode_launches (s : State) (k p : Nat) (ps : Option (List (Nat × Nat))) : (dropCode s k p ps).launches = s.launches := rfl
@[simp] theorem dropCode_frags (s : State) (k p : Nat) (ps : Option (List (Nat × Nat))) : (dropCode s k p ps).frags = s.frags := rfl
@[simp] theorem dropCode_parts (s : State) (k p : Nat) (ps : Option (List (Nat × Nat))) : (dropCode s k p ps).parts = s.parts := rfl
@[simp] theorem dropCode_pkg (s : State) (k p : Nat) (ps : Option (List (Nat × Nat))) : (dropCode s k p ps).pkg = s.pkg := rfl
@[simp] theorem dropCode_host (s : State) (k p : Nat) (ps : Option (List (Nat × Nat))) : (dropCode s k p ps).host = s.host := rfl
@[simp] theorem dropCode_boot (s : State) (k p : Nat) (ps : Option (List (Nat × Nat))) : (dropCode s k p ps).boot = s.boot := rfl

/-! ### newWalks writes `mem` alone -/

@[simp] theorem newWalks_agenda (s : State) (p : Nat) (cs : List (Option Nat)) : (newWalks s p cs).agenda = s.agenda := rfl
@[simp] theorem newWalks_cur (s : State) (p : Nat) (cs : List (Option Nat)) : (newWalks s p cs).cur = s.cur := rfl
@[simp] theorem newWalks_lost (s : State) (p : Nat) (cs : List (Option Nat)) : (newWalks s p cs).lost = s.lost := rfl
@[simp] theorem newWalks_clock (s : State) (p : Nat) (cs : List (Option Nat)) : (newWalks s p cs).clock = s.clock := rfl
@[simp] theorem newWalks_fresh (s : State) (p : Nat) (cs : List (Option Nat)) : (newWalks s p cs).fresh = s.fresh := rfl
@[simp] theorem newWalks_acts (s : State) (p : Nat) (cs : List (Option Nat)) : (newWalks s p cs).acts = s.acts := rfl
@[simp] theorem newWalks_nextId (s : State) (p : Nat) (cs : List (Option Nat)) : (newWalks s p cs).nextId = s.nextId := rfl
@[simp] theorem newWalks_threads (s : State) (p : Nat) (cs : List (Option Nat)) : (newWalks s p cs).threads = s.threads := rfl
@[simp] theorem newWalks_groups (s : State) (p : Nat) (cs : List (Option Nat)) : (newWalks s p cs).groups = s.groups := rfl
@[simp] theorem newWalks_warps (s : State) (p : Nat) (cs : List (Option Nat)) : (newWalks s p cs).warps = s.warps := rfl
@[simp] theorem newWalks_sideLeft (s : State) (p : Nat) (cs : List (Option Nat)) : (newWalks s p cs).sideLeft = s.sideLeft := rfl
@[simp] theorem newWalks_quadGroups (s : State) (p : Nat) (cs : List (Option Nat)) : (newWalks s p cs).quadGroups = s.quadGroups := rfl
@[simp] theorem newWalks_turns (s : State) (p : Nat) (cs : List (Option Nat)) : (newWalks s p cs).turns = s.turns := rfl
@[simp] theorem newWalks_pcTable (s : State) (p : Nat) (cs : List (Option Nat)) : (newWalks s p cs).pcTable = s.pcTable := rfl
@[simp] theorem newWalks_lows (s : State) (p : Nat) (cs : List (Option Nat)) : (newWalks s p cs).lows = s.lows := rfl
@[simp] theorem newWalks_coreGroups (s : State) (p : Nat) (cs : List (Option Nat)) : (newWalks s p cs).coreGroups = s.coreGroups := rfl
@[simp] theorem newWalks_clusterGroups (s : State) (p : Nat) (cs : List (Option Nat)) : (newWalks s p cs).clusterGroups = s.clusterGroups := rfl
@[simp] theorem newWalks_launches (s : State) (p : Nat) (cs : List (Option Nat)) : (newWalks s p cs).launches = s.launches := rfl
@[simp] theorem newWalks_frags (s : State) (p : Nat) (cs : List (Option Nat)) : (newWalks s p cs).frags = s.frags := rfl
@[simp] theorem newWalks_parts (s : State) (p : Nat) (cs : List (Option Nat)) : (newWalks s p cs).parts = s.parts := rfl
@[simp] theorem newWalks_pkg (s : State) (p : Nat) (cs : List (Option Nat)) : (newWalks s p cs).pkg = s.pkg := rfl
@[simp] theorem newWalks_host (s : State) (p : Nat) (cs : List (Option Nat)) : (newWalks s p cs).host = s.host := rfl
@[simp] theorem newWalks_boot (s : State) (p : Nat) (cs : List (Option Nat)) : (newWalks s p cs).boot = s.boot := rfl

end Sys2Proof.Machine
end

