-- ==== Sys2Proof/Tests/Slice0.lean ====
section
/-! SUPPORT. Tests: words written out from the encoding tables, ill-formed terms, single steps with results from the manual's
worked examples, and for each statement a state and operands that meet its hypotheses. -/

set_option maxRecDepth 100000

namespace Sys2Proof.Tests

open Sys2Proof Sys2Proof.Machine Sys2Proof.Safety Sys2Proof.Claims

def g7 : Guard := ⟨false, 7⟩
def m0 : Mods := ⟨false, false, false, false⟩

theorem at_of {s : State} {gid : Nat} {g : Group} (h : curGroup s = some (gid, g)) (l : s.lost = []) : At s gid g := ⟨h, l⟩

/-! ## Words, field by field from R146-R156 and the tables of 08, 09, 10 and 19 -/
theorem test_decode_integers :
    decode 0x00B71A1400000004 = .ok (.iaddImm ⟨⟨false, 7⟩, .n64, 26, 20, 4⟩)
    ∧ decode 0x0002080305000100 = .ok (.iadd ⟨⟨false, 2⟩, .s32, true, 8, 3, 5⟩)
    ∧ decode 0x0102080305000100 = .ok (.isub ⟨⟨false, 2⟩, .s32, true, 8, 3, 5⟩)
    ∧ decode 0x01870604FFFFFFFE = .ok (.isubImm ⟨⟨false, 7⟩, .s32, 6, 4, 0xFFFFFFFE⟩)
    ∧ decode 0x0202080305000100 = .ok (.imul ⟨⟨false, 2⟩, .s32, true, 8, 3, 5⟩)
    ∧ decode 0x02970604FFFFFFFE = .ok (.imulImm ⟨⟨false, 7⟩, .n32, 6, 4, 0xFFFFFFFE⟩)
    ∧ decode 0x0502080305000000 = .ok (.imin ⟨⟨false, 2⟩, .s32, false, 8, 3, 5⟩)
    ∧ decode 0x05A70604FFFFFFFE = .ok (.iminImm ⟨⟨false, 7⟩, .s64, 6, 4, 0xFFFFFFFE⟩)
    ∧ decode 0x0602080305000000 = .ok (.imax ⟨⟨false, 2⟩, .s32, false, 8, 3, 5⟩)
    ∧ decode 0x06B70604FFFFFFFE = .ok (.imaxImm ⟨⟨false, 7⟩, .n64, 6, 4, 0xFFFFFFFE⟩)
    ∧ decode 0x0307080406006000 = .ok (.imulh ⟨⟨false, 7⟩, .n64, false, 8, 4, 6⟩)
    ∧ decode 0x04090804060A4100 = .ok (.imad ⟨⟨true, 1⟩, .s64, true, 8, 4, 6, 10⟩)
    ∧ decode 0x0707080400004000 = .ok (.iabs ⟨⟨false, 7⟩, .s64, false, 8, 4⟩) := by
  decide

theorem test_decode_logic :
    decode 0x080701020300E000 = .ok (.and ⟨⟨false, 7⟩, .b32, false, 1, 2, 3⟩)
    ∧ decode 0x08F7010200000005 = .ok (.andImm ⟨⟨false, 7⟩, .b32, 1, 2, 5⟩)
    ∧ decode 0x090701020300E000 = .ok (.or ⟨⟨false, 7⟩, .b32, false, 1, 2, 3⟩)
    ∧ decode 0x09F7010200000005 = .ok (.orImm ⟨⟨false, 7⟩, .b32, 1, 2, 5⟩)
    ∧ decode 0x0A0701020300E000 = .ok (.xor ⟨⟨false, 7⟩, .b32, false, 1, 2, 3⟩)
    ∧ decode 0x0AF7010200000005 = .ok (.xorImm ⟨⟨false, 7⟩, .b32, 1, 2, 5⟩)
    ∧ decode 0x0B07010203002000 = .ok (.shl ⟨⟨false, 7⟩, .n32, false, 1, 2, 3⟩)
    ∧ decode 0x0B97010200000005 = .ok (.shlImm ⟨⟨false, 7⟩, .n32, 1, 2, 5⟩)
    ∧ decode 0x0C07010203002000 = .ok (.shr ⟨⟨false, 7⟩, .n32, false, 1, 2, 3⟩)
    ∧ decode 0x0C97010200000005 = .ok (.shrImm ⟨⟨false, 7⟩, .n32, 1, 2, 5⟩)
    ∧ decode 0x0D07010203000000 = .ok (.sar ⟨⟨false, 7⟩, .s32, false, 1, 2, 3⟩)
    ∧ decode 0x0D87010200000005 = .ok (.sarImm ⟨⟨false, 7⟩, .s32, 1, 2, 5⟩)
    ∧ decode 0x0E07010203000000 = .ok (.bfx ⟨⟨false, 7⟩, .s32, false, 1, 2, 3⟩)
    ∧ decode 0x0F0701020304E000 = .ok (.bfi ⟨⟨false, 7⟩, .b32, false, 1, 2, 3, 4⟩)
    ∧ decode 0x100701020000E000 = .ok (.popc ⟨⟨false, 7⟩, .b32, false, 1, 2⟩)
    ∧ decode 0x1107020400006000 = .ok (.clz ⟨⟨false, 7⟩, .n64, false, 2, 4⟩)
    ∧ decode 0x120701020000E000 = .ok (.brev ⟨⟨false, 7⟩, .b32, false, 1, 2⟩) := by
  decide

theorem test_decode_moves :
    decode 0x1307030102002004 = .ok (.iset ⟨⟨false, 7⟩, .n32, .gt, 3, 1, 2⟩)
    ∧ decode 0x1387010500000009 = .ok (.isetImm ⟨⟨false, 7⟩, .s32, .eq, 1, 5, 9⟩)
    ∧ decode 0x140701020305E000 = .ok (.sel ⟨⟨false, 7⟩, .b32, 1, 2, 3, 5⟩)
    ∧ decode 0x1507020400006000 = .ok (.mov ⟨⟨false, 7⟩, .n64, false, 2, 4⟩)
    ∧ decode 0x1517020000000000 = .ok (.movFromLk ⟨⟨false, 7⟩, 2⟩)
    ∧ decode 0x1527000600000000 = .ok (.movToLk ⟨⟨false, 7⟩, 6⟩)
    ∧ decode 0x1607040401002002 = .ok (.lea ⟨⟨false, 7⟩, false, 4, 4, 1, 2⟩)
    ∧ decode 0x1707010203078000 = .ok (.plog ⟨⟨false, 7⟩, 1, 2, 3, 7, 0x80⟩)
    ∧ decode 0x1807090000000000 = .ok (.pmovGet ⟨⟨false, 7⟩, 9⟩)
    ∧ decode 0x1807000900000001 = .ok (.pmovPut ⟨⟨false, 7⟩, 9⟩)
    ∧ decode 0x1907020900000000 = .ok (.movs ⟨⟨false, 7⟩, 2, .parm⟩)
    ∧ decode 0x1A070E003F000000 = .ok (.movi ⟨⟨false, 7⟩, 14, 0x3F000000⟩)
    ∧ decode 0x1A170400FFFFFFFF = .ok (.movi64 ⟨⟨false, 7⟩, 4, 0xFFFFFFFF⟩)
    ∧ decode 0x1B07000000000000 = .ok (.nop ⟨false, 7⟩) := by
  decide

theorem test_decode_floats :
    decode 0x3007010203008B60 = .ok (.fadd ⟨⟨false, 7⟩, .f32, .t0, .rtz, true, ⟨false, true, true, false⟩, 1, 2, 3⟩)
    ∧ decode 0x3107010203009560 = .ok (.fsub ⟨⟨false, 7⟩, .f32, .t1, .rdn, true, ⟨false, true, true, false⟩, 1, 2, 3⟩)
    ∧ decode 0x3207010203009F60 = .ok (.fmul ⟨⟨false, 7⟩, .f32, .t2, .rup, true, ⟨false, true, true, false⟩, 1, 2, 3⟩)
    ∧ decode 0x33010C0A0B0A8290 = .ok (.ffma ⟨⟨false, 1⟩, .f32, .gov, .rtz, false, ⟨true, false, false, true⟩, 12, 10, 11, 10⟩)
    ∧ decode 0x340702040600A080 = .ok (.fmin ⟨⟨false, 7⟩, .f64, ⟨true, false, false, false⟩, 2, 4, 6⟩)
    ∧ decode 0x3507010203008010 = .ok (.fmax ⟨⟨false, 7⟩, .f32, ⟨false, false, false, true⟩, 1, 2, 3⟩)
    ∧ decode 0x3607010A0F008004 = .ok (.fset ⟨⟨false, 7⟩, .f32, .gt, false, ⟨false, false, false, false⟩, 1, 0, 10, 15⟩)
    ∧ decode 0x3707010200008420 = .ok (.frnd ⟨⟨false, 7⟩, .f32, .gov, .rdn, false, true, 1, 2⟩)
    ∧ decode 0x3807010200008080 = .ok (.frcp ⟨⟨false, 7⟩, .f32, .gov, .rne, true, false, 1, 2⟩)
    ∧ decode 0x3907010200008080 = .ok (.frsq ⟨⟨false, 7⟩, .f32, .gov, .rne, true, false, 1, 2⟩)
    ∧ decode 0x3A07010200008080 = .ok (.fsqrt ⟨⟨false, 7⟩, .f32, .gov, .rne, true, false, 1, 2⟩)
    ∧ decode 0x3B07010200008080 = .ok (.fexp2 ⟨⟨false, 7⟩, .f32, .gov, .rne, true, false, 1, 2⟩)
    ∧ decode 0x3C07010200008080 = .ok (.flog2 ⟨⟨false, 7⟩, .f32, .gov, .rne, true, false, 1, 2⟩)
    ∧ decode 0x3D07010203008700 = .ok (.fscl ⟨⟨false, 7⟩, .f32, .rup, true, false, false, 1, 2, 3⟩)
    ∧ decode 0x3E07010200008000 = .ok (.fcls ⟨⟨false, 7⟩, .f32, 1, 2⟩) := by
  decide

theorem test_decode_conversions :
    decode 0x4007050448000003 = .ok (.cvt ⟨⟨false, 7⟩, .fp4, .f32, 3, .rne, false, false, false, 5, 4⟩)
    ∧ decode 0x4107010200000288 = .ok (.cvtiF2i ⟨⟨false, 7⟩, .s32, .f32, .rtz, true, false, 1, 2⟩)
    ∧ decode 0x4117010200002000 = .ok (.cvtiI2f ⟨⟨false, 7⟩, .n32, .bf16, .rne, false, false, 1, 2⟩)
    ∧ decode 0x4207010203048200 = .ok (.qnt ⟨⟨false, 7⟩, .rtz, 1, 2, 3, 4⟩)
    ∧ decode 0x42170A0418068000 = .ok (.qntOl ⟨⟨false, 7⟩, .rne, 10, 4, 24, 6⟩)
    ∧ decode 0x4307010203008001 = .ok (.dqnt ⟨⟨false, 7⟩, true, 1, 2, 3⟩)
    ∧ decode 0x440701020300E000 = .ok (.pk4 ⟨⟨false, 7⟩, 1, 2, 3⟩)
    ∧ decode 0x4507010200002001 = .ok (.upk4 ⟨⟨false, 7⟩, false, true, 1, 2⟩)
    ∧ decode 0x6007010200000001 = .ok (.brd ⟨⟨false, 7⟩, true, 1, 2⟩)
    ∧ decode 0x610708080300E003 = .ok (.braise ⟨⟨false, 7⟩, false, true, true, 8, 8, 3⟩)
    ∧ decode 0x6207000500000000 = .ok (.budget ⟨⟨false, 7⟩, 5⟩)
    ∧ decode 0x621700007F000002 = .ok (.budgetImm ⟨⟨false, 7⟩, 0x7F000002⟩)
    ∧ decode 0x6307020506000005 = .ok (.bchk ⟨⟨false, 7⟩, true, true, 2, 5, 6⟩)
    ∧ decode 0x6407070000000000 = .ok (.flgrd ⟨⟨false, 7⟩, 7⟩)
    ∧ decode 0x6417070800000000 = .ok (.flgrdClr ⟨⟨false, 7⟩, 7, 8⟩) := by
  decide

theorem test_decode_memory :
    decode 0x7007140200061F4B = .ok (.ld ⟨⟨false, 7⟩, .b64, .acq, .sys, 5, .gl, true, 20, 2, 24⟩)
    ∧ decode 0x71070406FFFE2894 = .ok (.st ⟨⟨false, 7⟩, .b128, .rel, .pkg, 2, .sh, false, 4, 6, 0x3FFF8⟩)
    ∧ decode 0x7207000600200190 = .ok (.pref ⟨⟨false, 7⟩, 6, true, 6, 128⟩)
    ∧ decode 0x7307060407000000 = .ok (.smap ⟨⟨false, 7⟩, 6, 4, 7⟩)
    ∧ decode 0x7307060400000001 = .ok (.smapUn ⟨⟨false, 7⟩, 6, 4, 0⟩)
    ∧ decode 0x7407060400000000 = .ok (.swb ⟨⟨false, 7⟩, 6, 4⟩)
    ∧ decode 0x7407000000000001 = .ok (.swbAll ⟨false, 7⟩)
    ∧ decode 0x7507060400000000 = .ok (.sinv ⟨⟨false, 7⟩, 6, 4⟩)
    ∧ decode 0x7507000000000001 = .ok (.sinvAll ⟨false, 7⟩)
    ∧ decode 0x7607060400000000 = .ok (.cwb ⟨⟨false, 7⟩, 6, 4⟩)
    ∧ decode 0x80470104020034E9 = .ok (.atom ⟨⟨false, 7⟩, .or, .n32, .ar, .clu, 3, .sc, true, 1, 4, 2⟩)
    ∧ decode 0x810708040A0C1603 = .ok (.acas ⟨⟨false, 7⟩, .n64, .acq, .die, 0, .gl, false, 8, 4, 10, 12⟩)
    ∧ decode 0x8217000402002A40 = .ok (.red ⟨⟨false, 7⟩, .min, .s32, .rel, .fab, 1, .gl, false, 0, 4, 2⟩)
    ∧ decode 0x9007000000003400 = .ok (.fence ⟨⟨false, 7⟩, .ar, .clu⟩)
    ∧ decode 0x9011000000002800 = .ok (.fenceJ ⟨⟨false, 1⟩, .pkg⟩) := by
  decide

theorem test_decode_synchronisation :
    decode 0x9107000406002FC1 = .ok (.csig ⟨⟨false, 7⟩, false, .rel, .sys, 7, .gl, false, 4, 6⟩)
    ∧ decode 0x9117000406000203 = .ok (.csigFl ⟨⟨false, 7⟩, true, .rlx, .core, 0, .gl, false, 4, 6⟩)
    ∧ decode 0x9207000406000001 = .ok (.cpendAdd ⟨⟨false, 7⟩, false, .rlx, .quad, 0, .gl, false, 4, 6⟩)
    ∧ decode 0x9217000406000001 = .ok (.cpendSub ⟨⟨false, 7⟩, false, .rlx, .quad, 0, .gl, false, 4, 6⟩)
    ∧ decode 0x930700040600140B = .ok (.cwait ⟨⟨false, 7⟩, true, .acq, .clu, 0, .gl, true, 4, 6⟩)
    ∧ decode 0x9407080400001800 = .ok (.crd ⟨⟨false, 7⟩, .acq, .pkg, 0, .gl, false, 8, 4⟩)
    ∧ decode 0x98070B0000000000 = .ok (.gbar ⟨⟨false, 7⟩, 11⟩)
    ∧ decode 0x99070B0000000000 = .ok (.garr ⟨⟨false, 7⟩, 11⟩)
    ∧ decode 0x9A070B0000000000 = .ok (.gdrop ⟨⟨false, 7⟩, 11⟩)
    ∧ decode 0x9B070B0000000000 = .ok (.gjoin ⟨⟨false, 7⟩, 11⟩)
    ∧ decode 0xA007000009000000 = .ok (.mjoin ⟨⟨false, 7⟩, 9⟩)
    ∧ decode 0xA107000009000000 = .ok (.mleave ⟨⟨false, 7⟩, 9⟩)
    ∧ decode 0xA207000009000000 = .ok (.mwait ⟨⟨false, 7⟩, 9⟩)
    ∧ decode 0xA307070009000000 = .ok (.mrd ⟨⟨false, 7⟩, 9, 7⟩)
    ∧ decode 0xA407000709000000 = .ok (.mwr ⟨⟨false, 7⟩, 9, 7⟩)
    ∧ decode 0xA527070300000000 = .ok (.vote ⟨⟨false, 7⟩, .bal, 7, 3⟩)
    ∧ decode 0xA637020406006000 = .ok (.shfl ⟨⟨false, 7⟩, .bfly, true, 2, 4, 6⟩)
    ∧ decode 0xA707090800008000 = .ok (.wred ⟨⟨false, 7⟩, .add, .f32, 9, 8⟩) := by
  decide

theorem test_decode_control :
    decode 0xA8071E7C00100020 = .ok (.gen ⟨⟨false, 7⟩, 30, 31, 16, 32⟩)
    ∧ decode 0xA907000506000001 = .ok (.yld ⟨⟨false, 7⟩, true, 5, 6⟩)
    ∧ decode 0xAA07000000000000 = .ok (.gend ⟨false, 7⟩)
    ∧ decode 0xAB07050607000003 = .ok (.take ⟨⟨false, 7⟩, true, true, 5, 6, 7⟩)
    ∧ decode 0xAC07050000000000 = .ok (.gstat ⟨⟨false, 7⟩, 5⟩)
    ∧ decode 0xB0070000FFFFFFC0 = .ok (.bra ⟨⟨false, 7⟩, 0xFFFFFFC0⟩)
    ∧ decode 0xB107040000000000 = .ok (.brx ⟨⟨false, 7⟩, 4⟩)
    ∧ decode 0xB207000000000030 = .ok (.call ⟨⟨false, 7⟩, 48⟩)
    ∧ decode 0xB217040000000000 = .ok (.callReg ⟨⟨false, 7⟩, 4⟩)
    ∧ decode 0xB307000000000000 = .ok (.ret ⟨false, 7⟩)
    ∧ decode 0xB407000000000000 = .ok (.exit ⟨false, 7⟩)
    ∧ decode 0xE807000000001234 = .ok (.trap ⟨⟨false, 7⟩, 0x1234⟩)
    ∧ decode 0xE907000000001234 = .ok (.bkpt ⟨⟨false, 7⟩, 0x1234⟩)
    ∧ decode 0xEB07000000001234 = .ok (.sleep ⟨⟨false, 7⟩, 0x1234⟩)
    ∧ decode 0xEA07000000010040 = .ok (.phint ⟨⟨false, 7⟩, 0x10040⟩) := by
  decide

theorem test_decode_matrix :
    decode 0xC007013181930000 = .ok (.mma ⟨⟨false, 7⟩, 0, 0, 2, 3, 24, 25, 3, false, false, false, false⟩)
    ∧ decode 0xC1076AC181AF0006 = .ok (.mmao ⟨⟨false, 7⟩, 3, 2, 5, 4, 24, 26, 15, false, true, true, false⟩)
    ∧ decode 0xC207A00000000000 = .ok (.wzero ⟨⟨false, 7⟩, 5⟩)
    ∧ decode 0xC607AC0000000008 = .ok (.wmov ⟨⟨false, 7⟩, 5, 3, true⟩)
    ∧ decode 0xC307A00600011448 = .ok (.wld ⟨⟨false, 7⟩, 5, 6, 4, .acq, .clu, 1, .gl, true, .f32⟩)
    ∧ decode 0xC4074007FFFF26A5 = .ok (.wst ⟨⟨false, 7⟩, 2, 7, 0x3FFFC, .rel, .die, 2, .sc, false, .fp4⟩)
    ∧ decode 0xC5070CC000000009 = .ok (.wdrn ⟨⟨false, 7⟩, 12, 6, true, .bf16⟩)
    ∧ decode 0xC7070CC000000001 = .ok (.wbnd ⟨⟨false, 7⟩, 12, 6, true⟩)
    ∧ decode 0xD00709C000000000 = .ok (.qpop ⟨⟨false, 7⟩, 9, 6⟩)
    ∧ decode 0xD10709C500000000 = .ok (.qpeek ⟨⟨false, 7⟩, 9, 6, 5⟩)
    ∧ decode 0xD20709C000000000 = .ok (.qcnt ⟨⟨false, 7⟩, 9, 6⟩)
    ∧ decode 0xD30700C000000000 = .ok (.qdrop ⟨⟨false, 7⟩, 6⟩)
    ∧ decode 0xD80748C000010000 = .ok (.sloop ⟨9, 3, true, 0⟩)
    ∧ decode 0xD907480000000000 = .ok (.snext 9)
    ∧ decode 0xDA07CA18383FFF80 = .ok (.sfetch ⟨6, 10, 3, 7, 15, 0x3FF80⟩)
    ∧ decode 0xDB07CA0000000000 = .ok (.smark ⟨6, 10⟩)
    ∧ decode 0xDC070A2400000000 = .ok (.swaitc ⟨10, 4, true⟩)
    ∧ decode 0xDD07000000000000 = .ok .sdone := by
  decide

theorem test_decode_privileged :
    decode 0xE007000500000000 = .ok (.job ⟨⟨false, 7⟩, 5⟩)
    ∧ decode 0xE107040500000000 = .ok (.grow ⟨⟨false, 7⟩, 4, 5⟩)
    ∧ decode 0xE207040506000000 = .ok (.lnch ⟨⟨false, 7⟩, 4, 5, 6⟩)
    ∧ decode 0xF007000000000000 = .ok (.rte ⟨false, 7⟩)
    ∧ decode 0xF107040000000020 = .ok (.movcRead ⟨⟨false, 7⟩, .ptRoot, 4⟩)
    ∧ decode 0xF10700060000100C = .ok (.movcWrite ⟨⟨false, 7⟩, .lqTail, 6⟩)
    ∧ decode 0xF207060400000000 = .ok (.tlbi ⟨⟨false, 7⟩, 6, 4⟩)
    ∧ decode 0xF207000000000001 = .ok (.tlbiAll ⟨false, 7⟩)
    ∧ decode 0xF307060400000000 = .ok (.icinv ⟨⟨false, 7⟩, 6, 4⟩)
    ∧ decode 0xF307000000000001 = .ok (.icinvAll ⟨false, 7⟩)
    ∧ decode 0xF407090800000000 = .ok (.fres ⟨⟨false, 7⟩, 9, 8⟩)
    ∧ decode 0xF507090800000000 = .ok (.fdisc ⟨⟨false, 7⟩, 9, 8⟩)
    ∧ decode 0xF607090800000000 = .ok (.save ⟨⟨false, 7⟩, 9, 8⟩)
    ∧ decode 0xF707090800000000 = .ok (.rest ⟨⟨false, 7⟩, 9, 8⟩)
    ∧ decode 0xF807100100000000 = .ok (.sbrd ⟨⟨false, 7⟩, 16, 1⟩)
    ∧ decode 0xF907090800000000 = .ok (.halt ⟨⟨false, 7⟩, 9, 8⟩) := by
  decide

/-- R148, R150, R200, R210, R213, R246: ordering, width and RP codes (reason 3). -/
theorem test_wf_codes :
    ([ .ld ⟨g7, .b32, .rel, .quad, 0, .gl, false, 1, 2, 0⟩, .ld ⟨g7, .b32, .rlx, .quad, 0, .gl, true, 1, 2, 0⟩,
       .st ⟨g7, .b32, .acq, .quad, 0, .gl, false, 1, 2, 0⟩, .st ⟨g7, .b32, .rel, .quad, 0, .gl, true, 1, 2, 0⟩,
       .st ⟨g7, .s8, .rlx, .quad, 0, .gl, false, 1, 2, 0⟩, .st ⟨g7, .s16, .rlx, .quad, 0, .gl, false, 1, 2, 0⟩,
       .fence ⟨g7, .rlx, .clu⟩, .atom ⟨g7, .add, .n32, .rel, .quad, 0, .gl, true, 1, 2, 3⟩,
       .acas ⟨g7, .n32, .rlx, .quad, 0, .gl, true, 1, 2, 3, 4⟩, .red ⟨g7, .add, .n32, .acq, .quad, 0, .gl, false, 0, 2, 3⟩,
       .red ⟨g7, .add, .n32, .rel, .quad, 0, .gl, true, 0, 2, 3⟩, .csig ⟨g7, false, .acq, .quad, 0, .gl, false, 2, 3⟩,
       .csigFl ⟨g7, false, .rel, .quad, 0, .gl, true, 2, 3⟩, .cpendAdd ⟨g7, false, .ar, .quad, 0, .gl, false, 2, 3⟩,
       .cpendSub ⟨g7, false, .rlx, .quad, 0, .gl, true, 2, 3⟩, .cwait ⟨g7, false, .rlx, .quad, 0, .gl, false, 2, 3⟩,
       .crd ⟨g7, .rel, .quad, 0, .gl, false, 4, 2⟩, .crd ⟨g7, .rlx, .quad, 0, .gl, true, 4, 2⟩,
       .wld ⟨g7, 0, 2, 0, .rel, .quad, 0, .gl, false, .f32⟩, .wld ⟨g7, 0, 2, 0, .rlx, .quad, 0, .gl, true, .f32⟩,
       .wst ⟨g7, 0, 2, 0, .acq, .quad, 0, .gl, false, .f32⟩ ] : List Instr).all
      (fun i => !i.wfCode && !WellFormed i) = true := by decide

/-- R162-R191: types, options and unused fields (reason 4). -/
theorem test_wf_fields :
    ([ .iadd ⟨g7, .f32, false, 1, 2, 3⟩, .imul ⟨g7, .b32, true, 1, 2, 3⟩, .isubImm ⟨g7, .f64, 2, 4, 0⟩,
       .imulh ⟨g7, .b32, false, 1, 2, 3⟩, .imin ⟨g7, .s32, true, 1, 2, 3⟩, .imaxImm ⟨g7, .b32, 1, 2, 0⟩,
       .imad ⟨g7, .b32, true, 1, 2, 3, 4⟩, .iabs ⟨g7, .n32, false, 1, 2⟩, .and ⟨g7, .n32, true, 1, 2, 3⟩,
       .shlImm ⟨g7, .bf16x2, 1, 2, 0⟩, .bfi ⟨g7, .n32, true, 1, 2, 3, 4⟩, .popc ⟨g7, .f32, false, 1, 2⟩,
       .iset ⟨g7, .b32, .eq, 1, 2, 3⟩, .isetImm ⟨g7, .b32, .eq, 1, 2, 0⟩, .sel ⟨g7, .f32, 1, 2, 3, 0⟩ ] : List Instr).all
      (fun i => !i.wfField && !WellFormed i) = true
    ∧ ([ .fadd ⟨g7, .s32, .gov, .rne, false, m0, 1, 2, 3⟩, .ffma ⟨g7, .s32, .gov, .rne, false, m0, 1, 2, 3, 4⟩,
       .fmin ⟨g7, .n32, m0, 1, 2, 3⟩, .fset ⟨g7, .bf16x2, .eq, true, m0, 1, 2, 3, 4⟩, .fset ⟨g7, .f32, .eq, false, m0, 1, 2, 3, 4⟩,
       .frnd ⟨g7, .f32, .t0, .rne, false, false, 1, 2⟩, .frcp ⟨g7, .f32, .gov, .rup, false, false, 1, 2⟩,
       .fsqrt ⟨g7, .bf16x2, .gov, .rne, false, false, 1, 2⟩, .fscl ⟨g7, .s32, .rne, false, false, false, 1, 2, 3⟩,
       .fcls ⟨g7, .bf16x2, 1, 2⟩, .cvt ⟨g7, .bf16, .f32, 2, .rne, false, false, false, 1, 2⟩,
       .cvtiF2i ⟨g7, .s32, .e4m3, .rne, false, false, 1, 2⟩, .cvtiI2f ⟨g7, .b32, .f32, .rne, false, false, 1, 2⟩,
       .cvtiI2f ⟨g7, .s32, .f32, .rne, true, false, 1, 2⟩, .budgetImm ⟨g7, 3⟩, .budgetImm ⟨g7, 4⟩, .budgetImm ⟨g7, 0x800⟩,
       .bchk ⟨g7, false, false, 1, 2, 3⟩ ] : List Instr).all (fun i => !i.wfField && !WellFormed i) = true
    ∧ ([ .atom ⟨g7, .and, .s32, .rlx, .quad, 0, .gl, false, 1, 2, 3⟩, .acas ⟨g7, .f32, .rlx, .quad, 0, .gl, false, 1, 2, 3, 4⟩,
       .red ⟨g7, .exch, .n32, .rlx, .quad, 0, .gl, false, 0, 2, 3⟩, .red ⟨g7, .add, .n32, .rlx, .quad, 0, .gl, false, 1, 2, 3⟩,
       .wred ⟨g7, .exch, .n32, 1, 2⟩, .cpendAdd ⟨g7, true, .rlx, .quad, 0, .gl, false, 2, 4⟩, .yld ⟨g7, false, 1, 2⟩,
       .take ⟨g7, false, false, 1, 2, 0⟩, .take ⟨g7, false, false, 1, 0, 3⟩, .bra ⟨g7, 4⟩, .call ⟨g7, 2⟩,
       .mma ⟨g7, 1, 2, 0, 0, 3, 4, 0, true, true, false, false⟩, .mmao ⟨g7, 1, 1, 0, 0, 3, 4, 0, true, false, false, false⟩,
       .wmov ⟨g7, 2, 2, true⟩, .wld ⟨g7, 0, 2, 0, .rlx, .quad, 0, .gl, false, .bf16⟩, .sloop ⟨1, 2, true, 3⟩, .phint ⟨g7, 32⟩,
       .wst ⟨g7, 0, 2, 0, .rel, .quad, 0, .gl, true, .f32⟩, .vote ⟨g7, .all, 8, 0⟩,
       .movcWrite ⟨g7, .evqTail, 1⟩, .illegalInstruction .klass 0 ] : List Instr).all (fun i => !i.wfField && !WellFormed i) = true := by
  decide

/-- R147: pairs, aligned groups and mask numbers (reason 5). -/
theorem test_wf_registers :
    ([ .iadd ⟨g7, .s64, false, 1, 2, 4⟩, .bfx ⟨g7, .n64, false, 2, 2, 3⟩, .iaddImm ⟨g7, .n64, 2, 3, 0⟩, .imad ⟨g7, .s64, false, 2, 2, 4, 5⟩,
       .mov ⟨g7, .n64, false, 2, 3⟩, .iset ⟨g7, .s64, .eq, 1, 2, 3⟩, .isetImm ⟨g7, .s64, .eq, 1, 3, 0⟩, .sel ⟨g7, .n64, 2, 4, 5, 0⟩,
       .movFromLk ⟨g7, 3⟩, .movToLk ⟨g7, 3⟩, .lea ⟨g7, true, 2, 3, 1, 0⟩, .movs ⟨g7, 1, .clock⟩, .movi64 ⟨g7, 1, 0⟩,
       .fadd ⟨g7, .f64, .gov, .rne, false, m0, 2, 4, 5⟩, .ffma ⟨g7, .f64, .gov, .rne, false, m0, 2, 4, 6, 7⟩, .fmin ⟨g7, .f64, m0, 1, 2, 4⟩,
       .fset ⟨g7, .f64, .eq, false, m0, 1, 0, 2, 3⟩, .frnd ⟨g7, .f64, .gov, .rne, false, false, 2, 3⟩,
       .fscl ⟨g7, .f64, .rne, false, false, false, 3, 2, 1⟩, .fcls ⟨g7, .f64, 2, 3⟩, .cvt ⟨g7, .bf16, .f64, 0, .rne, false, false, false, 1, 2⟩,
       .cvtiF2i ⟨g7, .s64, .f32, .rne, false, false, 1, 2⟩, .cvtiI2f ⟨g7, .s64, .f32, .rne, false, false, 1, 3⟩,
       .qntOl ⟨g7, .rne, 2, 4, 5, 7⟩, .dqnt ⟨g7, true, 1, 3, 5⟩, .braise ⟨g7, true, true, true, 2, 3, 5⟩ ] : List Instr).all
      (fun i => !i.wfReg && !WellFormed i) = true
    ∧ ([ .ld ⟨g7, .b64, .rlx, .quad, 0, .gl, false, 1, 2, 0⟩, .st ⟨g7, .b128, .rlx, .quad, 0, .sc, false, 2, 1, 0⟩,
       .ld ⟨g7, .b32, .rlx, .quad, 0, .sh, false, 1, 3, 0⟩, .pref ⟨g7, 0, false, 3, 0⟩, .smap ⟨g7, 1, 3, 2⟩, .swb ⟨g7, 1, 3⟩,
       .atom ⟨g7, .add, .n64, .rlx, .quad, 0, .gl, false, 2, 4, 5⟩, .red ⟨g7, .add, .n64, .rlx, .quad, 0, .gl, false, 0, 2, 3⟩,
       .acas ⟨g7, .n64, .rlx, .quad, 0, .gl, false, 2, 4, 6, 7⟩, .csig ⟨g7, true, .rlx, .quad, 0, .gl, false, 2, 3⟩,
       .crd ⟨g7, .rlx, .quad, 0, .gl, false, 6, 2⟩, .mjoin ⟨g7, 12⟩, .mrd ⟨g7, 15, 1⟩, .shfl ⟨g7, .idx, true, 2, 3, 1⟩,
       .wred ⟨g7, .add, .s64, 2, 3⟩, .brx ⟨g7, 3⟩, .wst ⟨g7, 0, 3, 0, .rlx, .quad, 0, .gl, false, .f32⟩, .wdrn ⟨g7, 2, 0, false, .f32⟩,
       .sfetch ⟨0, 3, 0, 0, 0, 0⟩, .swaitc ⟨2, 3, true⟩, .movcRead ⟨g7, .ptRoot, 3⟩, .sbrd ⟨g7, 4, 1⟩ ] : List Instr).all
      (fun i => !i.wfReg && !WellFormed i) = true := by
  decide

/-! ## States for the tests -/

def rec0 : LRec := { soloRecord with t := 32, stash := 3840, scratch := 3840 }
def grp (n : Nat) (ws : List DWord) : Group := ⟨0, 0, (List.range n).map (threadKey 1), ⟨0x1000, clsSys, ws, 0⟩, [], .none⟩

/-- Issue group 2 of n lanes in cluster group 1, at slot 0 of a clause; thread i changed by f. -/
def stN (n : Nat) (f : Nat → Thread → Thread) : State :=
  let s := placeWord State.reset 0
  { s with
    cur := .group 2, nextId := 3, agenda := [],
    threads := (List.range n).map (fun i => (threadKey 1 i, f i { newThread 1 0 0 0 0 i rec0 true with st := .grouped 2 })),
    launches := s.launches.map (fun e => (e.1, { e.2 with r := rec0 })),
    groups := [(2, grp n [0, 0])] }

def rg (r v : Nat) (t : Thread) : Thread := setReg t r ⟨BitVec.ofNat 32 v, 0⟩
def rp (r v : Nat) (t : Thread) : Thread := rg (r + 1) (v / 2 ^ 32) (rg r v t)

/-- A four-level path to pages 0, 1 and 2 of the virtual space: page 0 is bound-tracked and has a chunk. -/
def mem0 : MemSys :=
  let w8 (m : Memory) (e : Nat × Nat) : Memory := memWrite m e.1 (leBytes 8 e.2)
  { MemSys.reset with
    bytes := [(0x100000, 0x101003), (0x101000, 0x102003), (0x102000, 0x103003), (0x103000, 0x104003),
      (0x104000, 0x40012D + 2 ^ 53), (0x104008, 0x40102D + 2 ^ 53), (0x104010, 0x40203D + 2 ^ 53)].foldl w8 [],
    chunks := [(2, 0)],
    keys := [(1, ⟨true, some 0⟩)] }

def withMem (m : MemSys) (s : State) : State :=
  { s with mem := m, parts := Map.put s.parts 0 { Part.reset with ptRoot := 0x100001, fragtab := 0x700000, trapbase := 0x10000 } }

/-- Bytes written to physical memory. -/
def wr (a : Nat) (l : List Byte) (m : MemSys) : MemSys := { m with bytes := memWrite m.bytes a l }

def g2 (n : Nat) : Group := grp n [0, 0]
def k0 : Nat := threadKey 1 0

/-! ## A state and operands that meet the hypotheses of each statement -/

/-- A property of every listed thread, by evaluation. -/
theorem onAll {s : State} {ks : List Nat} {p : Thread → Bool}
    (h : ks.all (fun k => match getThread s k with | some t => p t | none => true) = true) :
    ∀ k ∈ ks, ∀ t, getThread s k = some t → p t = true := by
  intro k hk t ht
  have := List.all_eq_true.mp h k hk
  rw [ht] at this
  exact this

def sR : State := stN 4 (fun i => rg 1 i)
/-- An instance of quad group 32 in a clause of slots 0 to 1. -/
def sSlice (f : Slice → Slice) : State :=
  let s := stN 1 (fun _ t => t)
  { s with cur := .slice 32, quadGroups := Map.adjust s.quadGroups 32 (fun q =>
      { q with slice := some (f ⟨[], 0, some ⟨0x1000, clsStr, [0, 0], 0⟩, [], .run⟩) }) }

theorem witness_IntegerArithmeticResults :
    ([ .iadd ⟨g7, .s64, true, 4, 6, 8⟩, .isub ⟨g7, .n32, false, 1, 2, 3⟩, .imul ⟨g7, .n64, false, 2, 4, 6⟩, .imulh ⟨g7, .s32, false, 1, 2, 3⟩,
       .imin ⟨g7, .s32, false, 1, 2, 3⟩, .imax ⟨g7, .n64, false, 2, 4, 6⟩, .iaddImm ⟨g7, .n64, 2, 4, 5⟩, .isubImm ⟨g7, .s32, 1, 2, 5⟩,
       .imulImm ⟨g7, .n32, 1, 2, 5⟩, .iminImm ⟨g7, .s64, 2, 4, 5⟩, .imaxImm ⟨g7, .n32, 1, 2, 5⟩, .iabs ⟨g7, .s64, true, 2, 4⟩,
       .imad ⟨g7, .s64, true, 2, 4, 6, 8⟩ ] : List Instr).all WellFormed = true
    ∧ At sR 2 (g2 4) ∧ activeOf sR (g2 4) g7 ≠ [] ∧ (sSlice id).cur = .slice 32 := ⟨by decide, (at_of rfl rfl), by decide, rfl⟩

theorem witness_LogicAndShiftResults :
    ([ .and ⟨g7, .n64, false, 2, 4, 6⟩, .or ⟨g7, .b32, false, 1, 2, 3⟩, .xor ⟨g7, .b32, false, 1, 2, 3⟩, .andImm ⟨g7, .b32, 1, 2, 3⟩,
       .orImm ⟨g7, .b32, 1, 2, 3⟩, .xorImm ⟨g7, .n64, 2, 4, 3⟩, .shl ⟨g7, .n64, false, 2, 4, 6⟩, .shr ⟨g7, .b32, false, 1, 2, 3⟩,
       .sar ⟨g7, .s32, false, 1, 2, 3⟩, .shlImm ⟨g7, .b32, 1, 2, 32⟩, .shrImm ⟨g7, .n64, 2, 4, 64⟩, .sarImm ⟨g7, .s64, 2, 4, 64⟩ ] :
        List Instr).all WellFormed = true
    ∧ At sR 2 (g2 4) ∧ (sSlice id).cur = .slice 32 := ⟨by decide, (at_of rfl rfl), rfl⟩

theorem witness_PredicateResults :
    ([.iset ⟨g7, .s64, .le, 7, 2, 4⟩, .isetImm ⟨g7, .n32, .ne, 0, 2, 4⟩] : List Instr).all WellFormed = true ∧ At sR 2 (g2 4) :=
  ⟨by decide, (at_of rfl rfl)⟩

theorem witness_BitFieldAndMoveResults :
    ([ .bfx ⟨g7, .s64, false, 2, 4, 6⟩, .bfi ⟨g7, .b32, false, 1, 2, 3, 4⟩, .popc ⟨g7, .n64, false, 2, 4⟩, .clz ⟨g7, .b32, false, 1, 2⟩,
       .brev ⟨g7, .b32, false, 1, 2⟩, .mov ⟨g7, .n64, false, 2, 4⟩ ] : List Instr).all WellFormed = true
    ∧ At sR 2 (g2 4) ∧ (sSlice id).cur = .slice 32 ∧ (Map.get? (sSlice id).quadGroups 32).isSome = true := by
  exact ⟨by decide, (at_of rfl rfl), rfl, by decide⟩

/-- Registers 2 and 3 hold 1.0 and 3.0 with bounds 2^-12. -/
def flt (bud : Word) (t : Thread) : Thread :=
  { setReg (setReg t 2 ⟨0x3F800000, 0x7300⟩) 3 ⟨0x40400000, 0x7300⟩ with bud := bud }
def sF (bud : Word) : State := stN 2 (fun _ => flt bud)

theorem witness_GovernedArithmeticCompletes : At (sF 0x7F000001) 2 (g2 2)
    ∧ (runLanes (ownStep (checked false 1 (arith .add false ⟨g7, .f32, .gov, .rne, false, m0, 1, 2, 3⟩))) (activeOf (sF 0x7F000001) (g2 2) g7)
        (sF 0x7F000001)).isSome = true
    ∧ (runLanes (ownStep (checked false 1 (arith .mul false ⟨g7, .f32, .gov, .rne, true, m0, 1, 2, 3⟩))) (activeOf (sF 2) (g2 2) g7)
        (sF 2)).isSome = true := ⟨(at_of rfl rfl), by decide, by decide⟩

/-- Of a governed result: operands that are a NaN, infinite, and finite without and with overflow, and SAT; and each way a tier is chosen. -/
theorem witness_GovernedRules :
    let a (v : Nat) : FV := elemOf .f32 (BitVec.ofNat 64 v) 0
    let fl (sat : Bool) (v : Nat) : Byte := (governed .mul .f32 .gov .rne sat 0 m0 false (BitVec.ofNat 64 v) (BitVec.ofNat 64 v) 0 0 0 0).fl
    ([a 0x7FC00000, a 0].any fvIsNan = true ∧ [a 0x7F800000, a 0].any fvIsNan = false ∧ [a 0x7F800000, a 0].any fvIsInf = true)
    ∧ [a 0x40400000, a 0x40400000].all fvIsFin = true ∧ fl false 0x40400000 &&& 0x04 = 0 ∧ fl false 0x7F7FFFFF &&& 0x04 ≠ 0
    ∧ fl true 0x7F7FFFFF &&& 0x80 ≠ 0 ∧ (exactReal .mul (a 0x40400000) (a 0x40400000) (a 0)).m ≠ 0
    ∧ (Ty.f32 ≠ .bf16x2 ∧ (FKind.add ≠ .fma ∨ 0 ≠ 0)) ∧ (0 : Word).toNat % 4 = 0
    ∧ ((0xFF000001 : Word).toNat % 4 ≠ 0 ∧ bdOf (((0xFF000001 : Word) >>> 16).setWidth 16) = none)
    ∧ ((0x7F000001 : Word).toNat % 4 ≠ 0 ∧ bdOf (((0x7F000001 : Word) >>> 16).setWidth 16) ≠ none) := by decide +kernel


theorem witness_BreachTrapsInModeOne :
    let s := stN 1 (fun _ => flt 1)
    let x : FltRR := ⟨g7, .f32, .gov, .rne, false, m0, 1, 2, 3⟩
    At s 2 (g2 1) ∧ activeOf s (g2 1) x.g = [k0]
    ∧ ∃ t, getThread s k0 = some t ∧ t.bud.toNat % 4 = 1
      ∧ bdLe (bdOf (arith .mul false x t).bnd) (bdOf ((t.bud >>> 16).setWidth 16)) = false ∧ (flt 2 t).bud.toNat % 4 ≠ 1 :=
  ⟨(at_of rfl rfl), by decide, flt 1 { newThread 1 0 0 0 0 0 rec0 true with st := .grouped 2 }, by decide, by decide, by decide, by decide⟩

theorem witness_RoundedUnaryCompletes : At (sF 0x80000001) 2 (g2 2)
    ∧ (runLanes (ownStep (checked false 1 (fun t => frndRes .f32 .rup true false (tVal t false 2) (tBnd t 2)))) (activeOf (sF 0x80000001) (g2 2) g7)
        (sF 0x80000001)).isSome = true
    ∧ (runLanes (ownStep (checked false 1 (fun t => fuRes .rcp .f32 .rne false false (tVal t false 3) (tBnd t 3)))) (activeOf (sF 0) (g2 2) g7)
        (sF 0)).isSome = true := ⟨(at_of rfl rfl), by decide, by decide⟩

/-- FRND, FSCL and the function unit: a NaN, an infinity, zeros, a negative number, a boundary within the bound and one beyond it. -/
theorem witness_UnaryRules :
    let a (v : Nat) : FV := elemOf .f32 (BitVec.ofNat 64 v) 0
    (fvIsNan (a 0x7FC00000) = true ∧ fvIsInf (a 0xFF800000) = true ∧ a 0xFF800000 = .inf true)
    ∧ (∃ m e, a 0xBF800000 = .fin true m e ∧ m ≠ 0) ∧ (∃ e, a 0x80000000 = .fin true 0 e)
    ∧ (bdOf 0xFF00 = none ∧ ∃ β, bdOf 0x7300 = some β ∧ β.m ≠ 0 ∧ dyLe (dySub (fvDy (a 0x3F800000)) β) (dyInt 1) = true
        ∧ dyLe (dyInt 1) (dyAdd (fvDy (a 0x3F800000)) β) = true)
    ∧ ((8192 : Int) < 8193 ∧ (-8193 : Int) < -8192)
    ∧ (fsclRes .f32 .rne false false false 0x3F800000 0 2).fl &&& 0x04 = 0 ∧ (fsclRes .f32 .rne false false false 0x3F800000 0 200).fl &&& 0x04 ≠ 0
    ∧ (fsclRes .f32 .rne true false false 0x3F800000 0 200).fl &&& 0x80 ≠ 0
    ∧ (bdLe (fvMag (a 0x3F800000)) (bdOf 0xFF00) = true ∧ fvIsFin (a 0x3F800000) = true) :=
  ⟨by decide, ⟨_, _, rfl, by decide⟩, ⟨_, rfl⟩, ⟨by decide, _, rfl, by decide, by decide, by decide⟩, by decide, by decide, by decide, by decide, by decide⟩


theorem witness_FloatCompareResults : At (sF 0) 2 (g2 2)
    ∧ (fvIsNan (f32Of 0x7FC00000) || fvIsNan (f32Of 0)) = true ∧ (fvIsNan (f32Of 0x7F800000) || fvIsNan (f32Of 0)) = false :=
  ⟨(at_of rfl rfl), by decide, by decide⟩

theorem witness_ConversionResults : At (sF 0) 2 (g2 2) ∧ (3 : Nat) < 4 := ⟨(at_of rfl rfl), by decide⟩

def sQ : State := stN 2 (fun i => rg 4 0 ∘ rg 5 i)
theorem witness_QuantisationResults :
    At sQ 2 (g2 2) ∧ activeOf sQ (g2 2) g7 ≠ [] ∧ fullWarp sQ (g2 2) = true
    ∧ agree sQ (activeOf sQ (g2 2) g7) .qnt 4 0
    ∧ (runLanes (ownStep (qntThread false ⟨g7, .rne, 10, 2, 4, 6⟩ 0 (threadsOf sQ (activeOf sQ (g2 2) g7)))) (activeOf sQ (g2 2) g7) sQ).isSome = true
    -- a group that lacks a thread of its warp, and one whose format words differ
    ∧ (let s := { stN 2 (fun _ t => t) with groups := [(2, g2 1)] }
       At s 2 (g2 1) ∧ activeOf s (g2 1) g7 ≠ [] ∧ fullWarp s (g2 1) = false)
    ∧ (∃ t u, getThread sQ k0 = some t ∧ getThread sQ (threadKey 1 1) = some u ∧ tWord t 5 ≠ tWord u 5) := by
  refine ⟨(at_of rfl rfl), by decide, by decide, ⟨?_, by decide⟩, by decide, ⟨(at_of rfl rfl), by decide, by decide⟩, ?_⟩
  · exact fun k hk t ht => by simpa using onAll (p := fun t => decide (tWord t 4 = 0)) (by decide) k hk t ht
  · exact ⟨_, _, rfl, rfl, by decide⟩

/-- A quiet and a signalling NaN, an infinity, a zero and a finite value as operands; finite values in and beyond a destination's range. -/
theorem witness_ConversionRules :
    (fvIsNan (elemOf .f32 0x7FC00000 0) = true ∧ decF .f32 0x7FA00000 = .nan true ∧ decF .e5m2 0x7C = .inf false ∧ decF .fp4 8 = .fin true 0 (-1)
      ∧ decF .e4m3 1 = .fin false 1 (-9) ∧ hasInf .bf16 = true)
    ∧ (let q := spacing .mk8 (dyLog ⟨5, 15⟩)
       dyLt (largest .mk8) ⟨(roundUnits .rup false 5 15 q).1, q⟩ = true ∧ dyLe ⟨(roundUnits .rtz false 5 15 q).1, q⟩ (largest .mk8) = true
       ∧ dyEq ⟨1, q⟩ ⟨2, 16⟩ = true)
    ∧ fvIsFin (decMK8 0x7F) = true ∧ fvIsFin (decE4M3 0x7E) = true
    -- an integer at a limit, one beyond it, and one that is exact
    ∧ (limitOf 32 true false = 2 ^ 31 - 1 ∧ ¬ ((2 ^ 31 : Int) ≤ limitOf 32 true false) ∧ dyEq (dyInt 5) ⟨5, 0⟩ = true) := by decide

/-- One NaN operand, two; −0 and +0; operands that lie apart, and that do not; an infinity. A class of each kind. -/
theorem witness_MinMaxRules :
    (let n := elemOf .f32 0x7FC00000 0
     let o := elemOf .f32 0x3F800000 0
     fvIsNan n = true ∧ fvIsNan o = false ∧ elemOf .f32 0x80000000 0 = .fin true 0 (-149) ∧ elemOf .f32 0 0 = .fin false 0 (-149)
     ∧ elemOf .f32 0xFF800000 0 = .inf true
     ∧ bdOf 0x7E00 = some ⟨256, -9⟩ ∧ dyLt (dyAdd ⟨256, -9⟩ ⟨256, -9⟩) (dyAbs (dySub (fvDy o) (fvDy (elemOf .f32 0xC0000000 0)))) = true
     ∧ dyLt (dyAdd ⟨256, -9⟩ ⟨256, -9⟩) (dyAbs (dySub (fvDy o) (fvDy (elemOf .f32 0x3F000000 0)))) = false)
    ∧ dyLe (dyPow (-126)) (fvDy (elemOf .f32 0x00800000 0)) = true ∧ dyLt (fvDy (elemOf .f32 0x007FFFFF 0)) (dyPow (-126)) = true := by decide

/-- A block of a lane of magnitude 40 and one of 24, one lane infinite; a word of each kind for DQNT. -/
theorem witness_QuantisationRules :
    let lane (i : Nat) (x : FV) : QLane := ⟨i, i, x, false, bdZero, bdZero, .fin false 1 1⟩
    let a := lane 0 (.fin false 40 0)
    let b := lane 1 (.fin true 24 0)
    (4 ∈ [1, 2, 4, 5, 6, 7] ∧ blockScale 1 (efMax 4) [a, b] a = 130)
    ∧ ((qOutliers 1 (qCands 1 (efMax 4) [a, b])).map (·.lane) = [0] ∧ (qCands 1 (efMax 4) [a, b]).length = 2)
    ∧ (a.lane < b.lane ∧ (2 : Nat) ≠ 0 ∧ fvIsFin a.x = true ∧ a.nv = false)
    ∧ qNanBlock 1 [a, lane 2 (.inf false)] a = true
    ∧ (let q := (qntLane 4 1 .rne false false false false 130 a)
       q.d = 0x8206 ∧ q.fl = 0x10)
    -- DQNT: a NaN scale, an infinity, a finite value that overflows, and one that is zero
    ∧ (fvIsNan (efDec 0 0x7FC0) = true ∧ efDec 2 0x7C = .inf false ∧ fvIsFin (efDec 7 0x7F) = true
      ∧ (dqntRes 7 1 false 0xFE7F 0 0).fl &&& 0x04 ≠ 0 ∧ (dqntRes 4 1 false 0x8101 0 0).fl &&& 0x04 = 0 ∧ fvDy (efDec 4 0) = ⟨0, -1⟩)
    -- disagreeing words, and a reserved one
    ∧ (0x404 : Word) ≠ 0x405 ∧ fwBad .qnt 0xC04 ≠ 0 := by decide

theorem witness_BoundAndBudgetResults : At (sF 0x80000001) 2 (g2 2)
    ∧ (runLanes (ownStep (fun t =>
      let lim : BitVec 16 := if false then (tWord t 3).setWidth 16 else (t.bud >>> 16).setWidth 16
      if bdLe (bdOf (tBnd t 2)) (bdOf lim) then some (setPred t 0 true) else none)) (activeOf (sF 0x80000001) (g2 2) g7) (sF 0x80000001)).isSome = true :=
  ⟨(at_of rfl rfl), by decide⟩

theorem witness_BoundRounding :
    (0 ≤ (⟨3, 127⟩ : Dy).m ∧ (0xFF00 : BitVec 16).toNat ≤ 0xFF00 ∧ bdLe (some ⟨3, 127⟩) (bdOf 0xFF00) = true)
    ∧ (0x7F7FFFFF : Word).toNat < 0x7F800000 ∧ (0 : Word).toNat < 0x7F800000
    ∧ 0x7F800000 ≤ (0xFF800000 : Word).toNat % 2 ^ 31
    ∧ (0 : Int) < 1 ∧ 2 * 3 = (2 * 1 + 1) * 2 := by decide

theorem witness_StoredBoundsNeverFall : 31 < 32 ∧ (0 : BitVec 16) = 0 ∧ 0 < 32 ∧ 0 ≠ 31 := by decide

/-- An optional value that is there and has a property. -/
def hits {α : Type} (o : Option α) (p : α → Bool) : Bool := match o with
  | some x => p x
  | none => false

def goes (o : Host.Outcome State Fault Refusal) : Bool := match o with
  | .next _ => true
  | _ => false

/-- One lane whose pair v4:v5 holds an address; v8 holds a value. -/
def sMem (va : Nat) : State := withMem mem0 (stN 1 (fun _ t => rg 8 3 (rp 4 va t)))
def tMem (va : Nat) : Thread := rg 8 3 (rp 4 va { newThread 1 0 0 0 0 0 rec0 true with st := .grouped 2 })
def lanes (s : State) : List Nat := activeOf s (g2 1) g7
def ldx : MemOps := ⟨g7, .b32, .acq, .quad, 0, .gl, false, 8, 4, 0⟩
def stx : MemOps := ⟨g7, .b32, .rel, .quad, 0, .gl, false, 8, 4, 4⟩

theorem witness_LoadResults : At (sMem 0xFFC) 2 (g2 1) ∧ lanes (sMem 0xFFC) = [k0]
    ∧ (runLanes (loadStep ldx) (lanes (sMem 0xFFC)) (sMem 0xFFC)).isSome = true := ⟨(at_of rfl rfl), by decide, by decide⟩

/-- A held store of lane 0. -/
def held0 : Held := ⟨k0, .phys 0x400010 1 true, none, .store [1, 2, 3, 4] [0] false 0, none, .land⟩
/-- The same while partition 1 migrates physical pages 0x400000 and 0x600000. -/
def sLocked : State :=
  let s := sMem 0
  { s with parts := Map.put s.parts 1 { Part.reset with migSt := .copying, runSrc := 0x400000, runDst := 0x600000 } }

theorem witness_StoreResults : At (sMem 0x1000) 2 (g2 1) ∧ lanes (sMem 0x1000) = [k0] ∧ (getThread (sMem 0) k0).isSome = true
    ∧ (runLanes (storeStep stx) (lanes (sMem 0x1000)) (sMem 0x1000)).isSome = true
    ∧ At sLocked 2 (g2 1)
    ∧ hits (lands sLocked (tMem 0) .gl 4 4 4 .write) (fun x => locLock x.2 x.1.loc == some 1) = true :=
  ⟨(at_of rfl rfl), by decide, by decide, by decide, (at_of rfl rfl), by decide⟩

theorem witness_AccessFaults :
    At (sMem 0x101) 2 (g2 1) ∧ lanes (sMem 0x101) = [k0] ∧ getThread (sMem 0x101) k0 = some (tMem 0x101)
    ∧ (operandAddr (tMem 0x101) .gl 4 0).toNat % 4 ≠ 0 ∧ (operandAddr (tMem 0x101) .gl 4 0).toNat % 32 ≠ 0
    -- scratch: the last word and the first past it; peers: past 8 MiB, an absent core, a present one
    ∧ (let a := (operandAddr (tMem 3836) .sc 4 4).toNat; a % 4 = 0 ∧ scratchSize (sMem 0) 1 < a + 4)
    ∧ (let a := (operandAddr (tMem (2 ^ 23)) .pe 4 0).toNat; a % 4 = 0 ∧ 2 ^ 23 ≤ a)
    ∧ (let a := (operandAddr (tMem (2 ^ 20)) .pe 4 0).toNat; a % 4 = 0 ∧ a < 2 ^ 23
        ∧ ∀ c ∈ (sMem 0).coreGroups, c.2.cgu = 1 → c.2.core % 4 = a / 2 ^ 20 % 4 → (4 ≤ c.2.k ↔ 2 ^ 22 ≤ a) → c.2.gone = true)
    ∧ (let s := { sMem 0 with coreGroups := Map.adjust (sMem 0).coreGroups 8 (fun c => { c with gone := true }) }
       let t := { tMem 0 with away := 1 }
       (operandAddr t .pe 4 0).toNat % 4 = 0 ∧ ∀ c ∈ s.coreGroups, c.2.cgu = 1 → c.2.core % 4 = 0 → c.2.gone = true ∧ t.away.getLsbD c.2.k = true)
    ∧ (let a := (operandAddr (tMem 3840) .pe 4 0).toNat; a % 4 = 0 ∧ a < 2 ^ 23 ∧ scratchSize (sMem 0) 1 < a % 2 ^ 20 + 4
        ∧ ∃ c ∈ (sMem 0).coreGroups, c.2.cgu = 1 ∧ c.2.core % 4 = a / 2 ^ 20 % 4 ∧ (4 ≤ c.2.k ↔ 2 ^ 22 ≤ a) ∧ c.2.gone = false) := by
  refine ⟨(at_of rfl rfl), ?_⟩; decide

theorem witness_AtomicResults : At (sMem 8) 2 (g2 1)
    ∧ (runLanes (atomStepOf ⟨g7, .add, .n64, .ar, .quad, 0, .gl, false, 8, 4, 6⟩) (lanes (sMem 8)) (sMem 8)).isSome = true
    ∧ WellFormed (.acas ⟨g7, .n32, .rlx, .quad, 0, .gl, false, 8, 4, 6, 7⟩) = true
    ∧ (runLanes (acasStepOf ⟨g7, .n32, .rlx, .quad, 0, .gl, false, 8, 4, 6, 7⟩) (lanes (sMem 8)) (sMem 8)).isSome = true
    ∧ (runLanes (redStepOf ⟨g7, .min, .s32, .rlx, .quad, 0, .gl, false, 0, 4, 6⟩) (lanes (sMem 8)) (sMem 8)).isSome = true :=
  ⟨(at_of rfl rfl), by decide, by decide, by decide, by decide⟩

/-- A count object at 0x2080 with COUNT 2 and PEND 3. -/
def sObj : State := withMem (wr 0x402080 (leBytes 32 (2 + 3 * 2 ^ 64)) mem0) (stN 1 (fun _ t => rg 8 3 (rp 4 0x2080 t)))
def cox : CobjOps := ⟨g7, false, .rlx, .quad, 0, .gl, false, 4, 8⟩

theorem witness_CountObjectResults : At sObj 2 (g2 1)
    ∧ (runLanes (objStep cox (fun t n => objSignal n (tVal t false 8).toNat t.flags)) (lanes sObj) sObj).isSome = true
    ∧ (runLanes (objStep cox (fun t n => objPend n (tVal t false 8).toNat false)) (lanes sObj) sObj).isSome = true
    ∧ (runLanes (objStep cox (fun t n => objPend n (tVal t false 8).toNat true)) (lanes sObj) sObj).isSome = true
    ∧ (runLanes (cwaitStep cox 2) (lanes sObj) sObj).isSome = true
    ∧ (runLanes (crdStep ⟨g7, .acq, .quad, 0, .gl, false, 12, 4⟩) (lanes sObj) sObj).isSome = true :=
  ⟨(at_of rfl rfl), by decide, by decide, by decide, by decide, by decide⟩

theorem witness_FenceAndStashResults :
    let s := withMem mem0 (stN 1 (fun _ t => rg 7 0 (rg 6 128 (rp 4 0 t))))
    At s 2 (g2 1)
    ∧ (runLanes (smapStep ⟨g7, 6, 4, 7⟩) (lanes s) s).isSome = true
    ∧ (match rangePieces (128 / 4096 + 3) s ⟨0, some 0, true⟩ 0 128 with | (.ok _, _) => true | _ => false) = true
    ∧ meets (1 * 128) 128 0 129 = true := ⟨(at_of rfl rfl), by decide, by decide, by decide⟩

theorem witness_StoredBytesReadBack : lockOf (sMem 0) 0x4000FF = none ∧ 0 < [7].length ∧ [7].length ≤ 4 ∧ 0x4000FF % 4 + [7].length ≤ 4
    ∧ lockOf (sMem 0) 0x400100 = none ∧ 0x400100 % 4 + [1, 2, 3, 4].length ≤ 4 ∧ 0x400100 % 4 = 0
    ∧ hasChunk (sMem 0).mem 0x400100 = true := by decide

theorem witness_StoreFrame : PartialsFit (sMem 0).mem ∧ 0x40007C % 128 + [1, 2, 3, 4].length ≤ 128 ∧ (Map.get? (sMem 0).coreGroups 8).isSome = true :=
  ⟨fun _ h => (by cases h), by decide, by decide⟩

theorem witness_LoadFrame : At (sMem 0xFC) 2 (g2 1) ∧ lanes (sMem 0xFC) = [k0] ∧ (getThread (sMem 0xFC) k0).isSome = true
    ∧ hits (lands (sMem 0xFC) (tMem 0xFC) .gl 4 0 4 .read) (fun x => x.2.mem.partials.isEmpty) = true
    ∧ goes (exec (.ld ldx) (sMem 0xFC)) = true ∧ (tMem 0xFC).frame = none := ⟨(at_of rfl rfl), by decide, by decide, by decide, by decide, rfl⟩

theorem witness_TranslationFrame : PartialsFit (sMem 0).mem
    ∧ (match translateLeaf (sMem 0) ⟨0, some 0, true⟩ 0x1FFF .write with | (.ok l, _) => decide (l.pteAddr % 8 = 0) | _ => false) = true :=
  ⟨fun _ h => (by cases h), by decide⟩

theorem witness_WalkOfFourKiBPage :
    let s := sMem 0
    let va : DWord := 0x1234
    let root := (partOf s 0).ptRoot
    let e0 := physRead64 s (root.toNat / 2 ^ 7 % 2 ^ 45 * 2 ^ 7 + 8 * (va.toNat / 2 ^ 48))
    let e1 := physRead64 s (ptePa e0 + 8 * (va.toNat / 2 ^ 39 % 512))
    let e2 := physRead64 s (ptePa e1 + 8 * (va.toNat / 2 ^ 30 % 512))
    let e3 := physRead64 s (ptePa e2 + 8 * (va.toNat / 2 ^ 21 % 512))
    let e4 := physRead64 s (ptePa e3 + 8 * (va.toNat / 2 ^ 12 % 512))
    (tlbHit s ⟨0, some 0, false⟩ va.toNat = none ∧ s.mem.tabs = []) ∧ s.parts.all (fun e => !e.2.locks) = true ∧ s.mem.partials = []
    ∧ pteBit root 0 = true ∧ va.toNat < 2 ^ 52 ∧ tableEntry e0 = true ∧ tableEntry e1 = true ∧ tableEntry e2 = true ∧ tableEntry e3 = true
    ∧ pteBit e4 0 = true ∧ pteBit e4 1 = false ∧ pteSize e4 = 0 ∧ pteBit e4 52 = false ∧ pteBit e4 2 = true ∧ pteBit e4 3 = true
    ∧ pteBit e4 5 = true ∧ Map.get? s.mem.keys (pteKey e4) = some ⟨true, some 0⟩ ∧ inOneMemory s.mem (ptePa e4) 4096 = true
    ∧ withdrawn s.mem (ptePa e4 + va.toNat % 4096) = false ∧ frameLost s.mem (ptePa e4) 4096 = false ∧ s.mem.walks = []
    ∧ (∀ a ∈ [0x100000, 0x101000, 0x102000, 0x103000, 0x104008], ∀ wr, silentDie s (some 0) (a / 128) wr = none)
    -- an executable page and a bound-tracked one
    ∧ pteBit (physRead64 s 0x104010) 4 = true
    ∧ (pteBit (physRead64 s 0x104000) 8 = true ∧ chunksCover s.mem (ptePa (physRead64 s 0x104000)) 4096 = true) := by decide

/-- A warp's threads at a barrier, with p0 read 0. -/
def sW (n : Nat) (f : Warp → Warp) : State :=
  let s := stN n (fun i => rp 4 (0x1000 + 8 * i))
  { s with warps := Map.adjust s.warps 1024 f }
def noLane : Guard := ⟨false, 0⟩
def one : Bar := ⟨1, 0, 0, [], 0, 0, [], 0, 0⟩

theorem witness_GroupBarrierResults : At sR 2 (g2 4)
    ∧ (runLanes (arriveStep .gbar ⟨g7, 11⟩ 2) (activeOf sR (g2 4) g7) sR).isSome = true
    ∧ (runLanes (arriveStep .gdrop ⟨g7, 15⟩ 2) (activeOf sR (g2 4) g7) sR).isSome = true
    ∧ (one.later = [] ∧ one.who.contains 7 = false ∧ one.expected ≠ 0 ∧ one.expected ≤ one.arrived + 1)
    ∧ (let b := { one with expected := 2 }; b.later = [] ∧ b.who.contains 7 = false ∧ ¬b.expected ≤ b.arrived + 1)
    ∧ { one with who := [7] }.who.contains 7 = true := ⟨(at_of rfl rfl), by decide, by decide, by decide, by decide, by decide⟩

/-- Thread 0 waits at an MWAIT on mask 3, which names it and thread 1, and thread 1 is parked in one. -/
def sParked : State :=
  let s := stN 2 (fun i t => if i = 0 then { t with st := .mwait 3 } else { t with st := .parked, mw := some 3 })
  { s with warps := Map.adjust s.warps 1024 (setMask 3 3) }

theorem witness_MaskVoteShuffleResults :
    At sR 2 (g2 4) ∧ activeOf sR (g2 4) noLane = [] ∧ activeOf sR (g2 4) g7 = k0 :: [threadKey 1 1, threadKey 1 2, threadKey 1 3]
    ∧ (getThread sR k0).isSome = true
    -- a thread whose bit is set has not arrived
    ∧ (let s := sW 2 (fun w => setMask 3 2 w)
       ∃ w, Map.get? s.warps 1024 = some w ∧ ∃ e ∈ warpThreads s 1024, (getMask w 3).getLsbD e.2.lane = true ∧ ¬ AtMwait 3 e.2)
    -- every thread whose bit is set waits in an MWAIT or is parked in one
    ∧ (∃ w, Map.get? sParked.warps 1024 = some w ∧ (∀ e ∈ warpThreads sParked 1024, (getMask w 3).getLsbD e.2.lane = true → AtMwait 3 e.2)
      ∧ ∃ e ∈ warpThreads sParked 1024, AtMwait 3 e.2)
    ∧ ((activeOf sR (g2 4) g7).filterMap (getThread sR)).isEmpty = false
    ∧ (runLanes (ownStep (fun t => (breachFlags t 0 0).map (withResult t false 9 ⟨6, 0, 0⟩))) (activeOf sR (g2 4) g7) sR).isSome = true :=
  ⟨(at_of rfl rfl), by decide, by decide, by decide, ⟨_, rfl, by unfold AtMwait; decide⟩, ⟨_, rfl, by unfold AtMwait; decide, by unfold AtMwait; decide⟩,
    by decide, by decide⟩

/-- A region with n entries; a pass of lane 0 or none. -/
def reg (n : Nat) (p : Option GPass) (w : Warp) : Warp :=
  { w with gen := some ⟨128, 128, 4, 0x2000, 0x3000, 0x4000, (List.range n).map (fun i => ⟨i, true, ⟨7, 0⟩, ⟨8, 0⟩⟩), 0, 0, p⟩ }

theorem witness_GeneratorResults :
    (let s := sW 2 id
     At s 2 (g2 2) ∧ activeOf s (g2 2) g7 = [k0, threadKey 1 1] ∧ fullWarp s (g2 2) = true ∧ hits (getThread s k0) (fun t => (openRegion s t).isNone) = true)
    -- YLD into a buffer with room for two, and with room for one
    ∧ (∀ n ∈ [62, 63], let s := sW 2 (reg n none)
       activeOf s (g2 2) g7 = [k0, threadKey 1 1] ∧ hits (getThread s k0) (fun t => hits (openRegion s t) (fun r =>
         ((activeOf s (g2 2) g7).filterMap (getThread s)).all (fun v => r.pass.isNone && !r.fin.getLsbD v.lane && !r.out.getLsbD v.lane) && r.buf.length == n)) = true)
    -- TAKE in a pass
    ∧ (let s := sW 1 (reg 3 (some ⟨[0], 0, 0⟩))
       At s 2 (g2 1) ∧ (runLanes (takeStep ⟨g7, true, true, 1, 2, 3⟩) (activeOf s (g2 1) g7) s).isSome = true) :=
  ⟨⟨(at_of rfl rfl), by decide⟩, by decide, ⟨(at_of rfl rfl), by decide⟩⟩

/-- Aligned destinations, a link to a header, two distinct active threads. -/
def sT : State := stN 2 (fun i t => rp 4 (0x2000 + 8 * i) { t with lk := 0x3000 })
theorem witness_ControlTransferResults :
    At sT 2 (g2 2) ∧ (activeOf sT (g2 2) g7).Nodup
    ∧ (∀ k ∈ activeOf sT (g2 2) g7, ∀ t, getThread sT k = some t →
        decide ((0x1000 + (0xFFFFFFC0 : Word).signExtend 64 : DWord).toNat % 8 = 0 ∧ (tPair t 4).toNat % 8 = 0 ∧ t.lk.toNat % 8 = 0
          ∧ toToken t = false) = true)
    ∧ InSlice (sSlice id) 32 ⟨[], 0, some ⟨0x1000, clsStr, [0, 0], 0⟩, [], .run⟩ ⟨0x1000, clsStr, [0, 0], 0⟩
    ∧ (runLanes (fun k t s => if (openRegion s t).isSome then none else some (rteCheck (exitThread s k) t.frag)) (activeOf sT (g2 2) g7) sT).isSome = true
    ∧ (getThread sT k0).isSome = true :=
  ⟨(at_of rfl rfl), by decide, onAll (by decide), ⟨rfl, by decide, rfl⟩, by decide, by decide⟩

/-- RET: to a header, and of the only member of a handler with its own token in lk. -/
theorem witness_ReturnResults :
    (runLanes retStep (activeOf sT (g2 2) g7) sT).isSome = true
    ∧ (let s := withMem mem0 (stN 1 (fun _ t => { t with hand := .user, priv := false, frag := fragIdOf 0 0 1, lk := tokenOf (fragIdOf 0 0 1) }))
       let s := { s with frags := [(0, { FEntry.zero with gen := 1, st := .handler, id := fragIdOf 0 0 1, lanes := 1 })] }
       At s 2 (g2 1) ∧ (runLanes retStep (activeOf s (g2 1) g7) s).isSome = true) := ⟨by decide, (at_of rfl rfl), by decide⟩


theorem witness_TrapAndHintResults :
    At sR 2 (g2 4)
    ∧ (∀ k ∈ activeOf sR (g2 4) g7, ∀ t, getThread sR k = some t →
        hits (Map.get? sR.warps (warpKeyOf t)) (fun w => w.preq.isNone) = true)
    ∧ (let s := sW 1 (fun w => { w with preq := some false })
       At s 2 (g2 1) ∧ activeOf s (g2 1) g7 = [k0]
       ∧ hits (getThread s k0) (fun t => hits (Map.get? s.warps (warpKeyOf t)) (fun w => w.preq.isSome)) = true) :=
  ⟨(at_of rfl rfl), onAll (by decide), (at_of rfl rfl), by decide, by decide⟩

/-- FP8 entries of A and of B for one K-block. -/
def entA : QEntry := ⟨none, 32, 128, [], [], 0, true, 0, [], false, [], false, false⟩
def entB : QEntry := { entA with rows := 128, bytes := 32 }
/-- Queues 2 and 3 of quad group 32. -/
def sMul (a b : Queue) : State :=
  let s := withMem mem0 (stN 1 (fun _ t => rg 24 0x11 (rp 4 0 t)))
  { s with quadGroups := Map.adjust s.quadGroups 32 (fun q => { q with queues := [(2, a), (3, b)], slice := some ⟨[], 0x900, none, [], .run⟩ }) }
def mmx : MmaOps := ⟨g7, 0, 0, 2, 3, 24, 25, 0, false, false, false, false⟩
def isGo (c : MmaCheck) : Bool := match c with | .go _ => true | _ => false
def sA : State := sMul ⟨4096, 2, [entA]⟩ ⟨4096, 2, [entB]⟩

theorem witness_MatrixResults :
    At sA 2 (g2 1) ∧ lanes sA = [k0] ∧ activeOf sA (g2 1) noLane = []
    ∧ agree sA (lanes sA) .mma 24 0x11 ∧ agree sA (lanes sA) .mmao 24 0x11
    ∧ isGo (mmaCheck sA (groupQuad sA (g2 1)) false mmx 0x11) = true ∧ isGo (mmaCheck sA (groupQuad sA (g2 1)) true mmx 0x11) = true
    ∧ (runLanes (mmaStep mmx 0x11 false [mkBlock 0x11 false false false [entA] [entB]]) (lanes sA)
        (dropHead (dropHead sA 32 2 1) 32 3 1)).isSome = true
    ∧ (runLanes (mmaStep mmx 0x11 false [mkBlock 0x11 true false false [entA] [entB]]) (lanes sA)
        (dropHead (dropHead sA 32 2 1) 32 3 1)).isSome = true
    ∧ (runLanes (wldStep ⟨g7, 0, 4, 0, .rlx, .quad, 0, .gl, false, .f32⟩) (lanes sA) sA).isSome = true
    ∧ (runLanes (wstStep ⟨g7, 0, 4, 0, .rlx, .quad, 0, .gl, false, .bf16⟩) (lanes sA) sA).isSome = true
    ∧ (runLanes (wdrnStep ⟨g7, 32, 0, true, .f32⟩) (lanes sA) sA).isSome = true := by
  have h : ∀ k ∈ lanes sA, ∀ t, getThread sA k = some t → tWord t 24 = 0x11 := fun k hk t ht => by
    simpa using onAll (p := fun t => decide (tWord t 24 = 0x11)) (by decide) k hk t ht
  refine ⟨(at_of rfl rfl), by decide, by decide, ⟨h, by decide⟩, ⟨h, by decide⟩, ?_⟩
  decide

/-- A K-block whose elements are finite, one with a NaN, and a column that AUX names. -/
theorem witness_RowRules :
    (let blk := mkBlock 0x11 false false true [{ entA with words := [0] }] [{ entA with words := [0] }]
     (∀ e ∈ blk.a.getD 0 [] ++ blk.b.flatten, fvIsFin e.v = true) ∧ blk.a.getD 0 [] ≠ [] ∧ blk.b.flatten ≠ [])
    ∧ (let blk := mkBlock 0x11 false false false [{ entA with words := [0x7F] }] [entB]
       ∃ e ∈ blk.a.getD 0 [] ++ blk.b.flatten, fvIsFin e.v = false)
    ∧ (31 < 32 ∧ (0x80000000 : Word).getLsbD 31 = true) := by decide


theorem witness_QueueResults :
    At sA 2 (g2 1) ∧ activeOf sA (g2 1) g7 ≠ [] ∧ ReadyHead sA (g2 1) 2 entA ∧ entA.marker = none
    ∧ (getQueue sA (groupQuad sA (g2 1)) 3).isSome = true
    ∧ ReadyHead (sMul ⟨64, 2, [⟨some 5, 0, 0, [], [], 0, true, 0, [], false, [], false, false⟩]⟩ ⟨64, 2, []⟩) (g2 1) 2
        ⟨some 5, 0, 0, [], [], 0, true, 0, [], false, [], false, false⟩
    ∧ queueHead (sMul ⟨64, 2, []⟩ ⟨64, 2, []⟩) 32 2 = .wait ∧ activeOf sA (g2 1) noLane = [] :=
  ⟨(at_of rfl rfl), by decide, rfl, rfl, by decide, rfl, rfl, by decide⟩

/-- The instance with a1 = n, a2:a3 = an address, a loop stack and queue 2. -/
def sProg (n : Word) (va : Word) (loops : List (Nat × DWord)) (es : List QEntry) : State :=
  let s := withMem (wr 0x402080 (leBytes 32 5) mem0) (sSlice (fun c => { c with a := [(1, n), (2, va)], loops := loops }))
  { s with quadGroups := Map.adjust s.quadGroups 32 (fun q => { q with queues := [(2, ⟨64, 1, es⟩)] }) }
def cProg (n : Word) (va : Word) (loops : List (Nat × DWord)) : Slice :=
  ⟨[(1, n), (2, va)], 0, some ⟨0x1000, clsStr, [0, 0], 0⟩, loops, .run⟩
def sfx : SfetchOps := ⟨2, 2, 0, 0, 0, 0⟩

theorem witness_SliceProgramResults :
    let s := sProg 65535 0x1000 [] []
    let c := cProg 65535 0x1000 []
    InSlice s 32 c ⟨0x1000, clsStr, [0, 0], 0⟩
    ∧ (1 ≤ loopCount ⟨4, 1, true, 0⟩ c ∧ loopCount ⟨4, 1, true, 0⟩ c ≤ 65535 ∧ c.loops.length < 4)
    ∧ (1 ≤ loopCount ⟨4, 0, false, 1⟩ c) ∧ c.loops = []
    ∧ InSlice (sProg 1 0 [(1, 0x900)] []) 32 (cProg 1 0 [(1, 0x900)]) ⟨0x1000, clsStr, [0, 0], 0⟩
    ∧ getQueue s 32 2 = some ⟨64, 1, []⟩ ∧ sfetchBad sfx c (some ⟨64, 1, []⟩) (aPair c 2) (aPair c 4) = none
    ∧ (match readVas (sliceWho s 32) (pieceVas (aPair c 2 + 0 + 0) 8) (modQueue s 32 2 (fun q => { q with entries := [emptyEntry] })) with
        | (.ok _, _) => true | _ => false) = true
    ∧ pieceVas (aPair c 4) 0 = []
    ∧ getQueue (sProg 1 0 [] [entA]) 32 2 = some ⟨64, 1, [entA]⟩
    ∧ (match swaitEval (sProg 5 0x2080 [] []) 32 0x2080 5 with | (.ok b, _) => b | _ => false) = true
    ∧ (match swaitEval (sProg 6 0x2080 [] []) 32 0x2080 6 with | (.ok b, _) => !b | _ => false) = true := by
  refine ⟨⟨rfl, by decide, rfl⟩, by decide, by decide, rfl, ⟨rfl, by decide, rfl⟩, by decide, by decide, by decide, by decide, by decide, by decide, by decide⟩

/-- Bytes in the scratch of core group 8. -/
def withScr (l : List Byte) (s : State) : State :=
  { s with coreGroups := Map.adjust s.coreGroups 8 (fun c => (List.range l.length).foldl (fun c i =>
      { c with scratch := Map.putD 0 c.scratch i (l.getD i 0) }) c) }
/-- A card: fill one word at 0x1000; `w0` is its first word. -/
def cardAt (w0 : Nat) : List Byte :=
  leBytes 4 w0 ++ leBytes 4 0 ++ leBytes 8 0 ++ leBytes 8 0x1000 ++ leBytes 8 (if w0 / 128 % 2 = 1 then 0x2080 else 0) ++ leBytes 4 0 ++ leBytes 4 4
def card0 (cnt : Bool) : Card := ⟨0, false, cnt, 0, 1, 0, 0x1000, if cnt then 0x2080 else 0, 1, 4, 0, 0, 0, 0, 0⟩
def jobx : OpS := ⟨g7, 5⟩
def sCard (w0 : Nat) : State := withScr (cardAt w0) (withMem mem0 (stN 1 (fun _ t => rg 6 0 (rp 4 0 t))))
def busy (s : State) : State :=
  setPart s 0 (fun q => { q with jobs := (List.range 4096).map (fun i => (i, ⟨card0 false, true, none, none, [], .waiting, 0, false⟩)) })
/-- A launch queue that is on, from `head` to `tail` in a ring of 16, with DEVOK. -/
def onQueue (head tail : Word) : LQueue := ⟨0x1000, 0x00040101, head, tail, []⟩

/-- A card read as a JOB reads it, of which `f` holds. -/
def cardSeen (s : State) (c : Card) (f : Thread → State → Bool) : Bool := match getThread s k0 with
  | some t => match resolve s t .sc ((tWord t jobx.a).setWidth 64) 64 64 .read with
    | (.ok a, u) => cardOf (accRead u a 64).1.bytes == some c && !heldFor (accRead u a 64).2 (threadPart (accRead u a 64).2 t) (.group 2)
        && f t (accRead u a 64).2
    | _ => false
  | none => false

theorem card_read {s : State} {c : Card} {f : Thread → State → Bool} (hk : (activeOf s (g2 1) jobx.g).head? = some k0)
    (hw : fullWarp s (g2 1) = true) (h : cardSeen s c f = true) :
    ∃ t v, CardRead jobx s 2 (g2 1) k0 t c v ∧ f t v = true := by
  unfold cardSeen at h
  split at h
  · rename_i t ht
    split at h
    · rename_i a u hr
      simp only [Bool.and_eq_true, beq_iff_eq, Bool.not_eq_true'] at h
      exact ⟨t, (accRead u a 64).2, ⟨h.1.2, hk, ht, hw, fun d => by simp [g2, grp], a, u, hr, h.1.1, rfl⟩, h.2⟩
    · cases h
  · cases h

/-- The count object of a card accepts its bytes under the lock `q`. -/
def objTakes (q : Option Nat) (t : Thread) (v : State) : Bool := match resolve v t .gl (card0 true).cobj 32 32 .atomic with
  | (.ok a, u) => a.stash.isNone && locLock (homeAcc u a.loc true) a.loc == q
      && (objPend (leNat (accRead (homeAcc u a.loc true) a 32).1.bytes) ((card0 true).rows * (card0 true).len) false).isSome
  | _ => false
def room (t : Thread) (v : State) : Bool := decide (openJobs (partOf v (threadPart v t)) < Config.maxJobs)
/-- Partition 1 migrates the page at physical address `pa`. -/
def lockPage (pa : Nat) (s : State) : State :=
  setPart s 1 (fun _ => { Part.reset with migSt := .copying, runSrc := BitVec.ofNat 64 pa, runDst := 0x600000 })
/-- An L1 of die 1, whose link sleeps, has modified a line. -/
def farLine (line : Nat) (s : State) : State :=
  setDie { s with mem := { s.mem with l1 := [(l1Key 64 line, ⟨0, 0, .dirty⟩)] } } 1 (fun d => { d with asleep := true })
/-- A record read as a LNCH reads it, its queue as `f` says; the slot at the tail is reached with the lock `o`. -/
def lnchSeen (s : State) (q : LQueue) (o : Option (Option Nat)) : Bool := match getThread s k0 with
  | some t => match resolve s t .sc ((tWord t 5).setWidth 64) 64 256 .read with
    | (.ok a, u) =>
      let r := accRead u a 256
      let p := threadPart r.2 t
      !heldFor r.2 p (.group 2) && Map.get LQueue.reset (partOf r.2 p).lqs (tWord t 6).toNat == q
        && (match o with
          | none => true
          | some o => match reach r.2 ⟨p, none, true⟩ (q.base + BitVec.ofNat 64 (256 * q.tail.toNat)) .write with
            | (.ok (.phys pa key bt), w) => locLock w (.phys pa key bt) == o
            | _ => false)
    | _ => false
  | none => false
def withQueue (q : LQueue) (s : State) : State := setPart s 0 (fun x => { x with lqs := [(0, q)] })

theorem witness_SubmissionResults :
    -- JOB: no active lane; a card without a count object, with one, with one under a lock; a full scheduler
    (At sR 2 (g2 4) ∧ activeOf sR (g2 4) noLane = [])
    ∧ At (sCard 1) 2 (g2 1) ∧ (∃ t v, CardRead jobx (sCard 1) 2 (g2 1) k0 t (card0 false) v ∧ room t v = true)
    ∧ At (sCard 0x81) 2 (g2 1) ∧ (∃ t v, CardRead jobx (sCard 0x81) 2 (g2 1) k0 t (card0 true) v ∧ (room t v && objTakes none t v) = true)
    ∧ At (lockPage 0x402000 (sCard 0x81)) 2 (g2 1)
    ∧ (∃ t v, CardRead jobx (lockPage 0x402000 (sCard 0x81)) 2 (g2 1) k0 t (card0 true) v ∧ (room t v && objTakes (some 1) t v) = true)
    ∧ At (busy (sCard 1)) 2 (g2 1) ∧ (∃ t v, CardRead jobx (busy (sCard 1)) 2 (g2 1) k0 t (card0 false) v ∧ (!room t v) = true)
    -- GROW: a launch without a bitmap; additions up to the ceiling and past it
    ∧ ((activeOf sR (g2 4) g7).head? = some k0 ∧ hits (getThread sR k0) (fun t => hits (threadLaunch sR t) (fun l => l.r.cbmp == 0)) = true)
    ∧ hits (launchOf sR 0 0) (fun l => !l.closed && l.r.gceil != 0 && l.g + 0 == l.r.gceil && !decide (l.g + 1 ≤ l.r.gceil)) = true
    -- LNCH: an off queue, a full one, a free slot that is reached, one under a lock
    ∧ (fullWarp (sCard 1) (g2 1) = true ∧ (∀ d, (g2 1).hold ≠ .lnch d) ∧ lnchSeen (sCard 1) LQueue.reset none = true ∧ LQueue.reset.cfg.toNat % 4 = 0)
    ∧ (let q := onQueue 0 15
       lnchSeen (withQueue q (sCard 1)) q none = true
       ∧ q.cfg.toNat % 4 ≠ 0 ∧ q.cfg.getLsbD 8 = true ∧ (q.tail.toNat + 1) % 2 ^ (q.cfg.toNat / 2 ^ 16 % 16) = q.head.toNat)
    ∧ (let q := onQueue 0 14
       lnchSeen (withQueue q (sCard 1)) q (some none) = true ∧ lnchSeen (lockPage 0x401000 (withQueue q (sCard 1))) q (some (some 1)) = true
       ∧ q.cfg.toNat % 4 ≠ 0 ∧ q.cfg.getLsbD 8 = true ∧ (q.tail.toNat + 1) % 2 ^ (q.cfg.toNat / 2 ^ 16 % 16) ≠ q.head.toNat) := by
  refine ⟨⟨(at_of rfl rfl), by decide⟩, (at_of rfl rfl), card_read (by decide) (by decide) (by decide), (at_of rfl rfl), card_read (by decide) (by decide) (by decide),
    (at_of rfl rfl), card_read (by decide) (by decide) (by decide), (at_of rfl rfl), card_read (by decide) (by decide) (by decide), by decide, by decide,
    ⟨by decide, fun d => by simp [g2, grp], by decide⟩, by decide, by decide⟩

theorem witness_PrivilegedResults :
    let s := withMem mem0 (stN 1 (fun _ t => rg 6 128 (rp 4 0x1001 t)))
    At s 2 (g2 1)
    ∧ (runLanes (fresStep ⟨g7, 8, 6⟩) (lanes s) s).isSome = true
    ∧ (runLanes (saveStep ⟨g7, 8, 6⟩ 2) (lanes s) s).isSome = true
    ∧ hits (Map.get? s.warps 1024) (fun w => w.preq.isNone && !w.saved) = true
    ∧ (runLanes (haltStep ⟨g7, 8, 6⟩ 2) (lanes s) s).isSome = true
    -- a held write elsewhere in a page of which the range meets one byte; a code line that a piece meets at its last byte
    ∧ (let e : TlbE := ⟨0, 0, 0x1000, 4096, 0x40106D, 0x104008, false⟩
       e.base ≤ 0x1FF0 ∧ 0x1FF0 < e.base + e.size ∧ meets e.base e.size 0x1000 1 = true)
    ∧ (meets (0x402100 / 128 * 128) 128 0x40217F 1 = true ∧ 0x402178 / 128 = 0x402100 / 128) :=
  ⟨(at_of rfl rfl), by decide, by decide, by decide, by decide, by decide, by decide⟩

/-- Entry 0 of core 0 in its handler, thread 0 its one member, at RTE. -/
def sFrag (mark : Bool) : State :=
  let s := withMem mem0 (stN 1 (fun _ t => { t with st := .rteWait, hand := .system, frag := fragIdOf 0 0 1 }))
  { s with frags := [(0, { FEntry.zero with gen := 1, st := .handler, mark := mark, id := fragIdOf 0 0 1, lanes := 1, pmode := 1 })] }

theorem witness_ReturnFromHandler :
    (let s := stN 1 (fun _ t => { t with hand := .noEntry })
     At s 2 (g2 1) ∧ (runLanes rteStep (activeOf s (g2 1) g7) s).isSome = true)
    ∧ (∀ mark, let s := sFrag mark
       let id := fragIdOf 0 0 1
       id ≠ 0 ∧ fragMembers s id ≠ [] ∧ (fragEntry s (fragKeyOfId id)).st = .handler ∧ (fragEntry s (fragKeyOfId id)).mark = mark
       ∧ ∀ e ∈ fragMembers s id, e.2.st = .rteWait)
    -- a member that runs on
    ∧ (let s := { sFrag false with threads := [(k0, { tMem 0 with st := .entry, frag := fragIdOf 0 0 1 })] }
       ∃ e ∈ fragMembers s (fragIdOf 0 0 1), e.2.st ≠ .rteWait ∧ e.2.st ≠ .parked)
    ∧ hits (getThread (sFrag true) k0) (fun t => t.rpass.isNone) = true ∧ (sFrag true).warps.all (fun w => w.2.gen.isNone) = true :=
  ⟨⟨(at_of rfl rfl), by decide⟩, by decide, by decide, by decide⟩

theorem witness_ControlRegisterResults : At sR 2 (g2 4) ∧ CReg.ptRoot ≠ .shadowReq ∧ CReg.lqSel ∈ plainRegs
    ∧ (∀ ks, (g2 4).hold ≠ .shadow ks)
    ∧ (let g := { g2 1 with hold := .shadow [k0] }; At { stN 1 (fun _ t => t) with groups := [(2, g)] } 2 g ∧ g.hold = .shadow [k0])
    ∧ (getThread sR k0).isSome = true
    ∧ (CReg.evqHead ≠ .lqSel ∧ CReg.evqHead ∉ [CReg.lqBase, .lqCfg, .lqHead, .lqTail])
    ∧ (0x12345000 : DWord).toNat % 4096 = 0 ∧ (1000 ≤ (1000 : DWord).toNat ∧ (20000 : DWord).toNat ≤ 20000)
    ∧ (999 : DWord).toNat < 1000 ∧ 20000 < (20001 : DWord).toNat :=
  ⟨(at_of rfl rfl), by decide, by decide, fun ks => by simp [g2, grp], ⟨(at_of rfl rfl), rfl⟩, by decide⟩

/-- A clause of one NOP-like word at 0x2100 of page 2; `hd` is its header. -/
def sEntry (hd w : Nat) : State :=
  let s := withMem (wr 0x402100 (leBytes 8 hd ++ leBytes 8 w) mem0) (stN 1 (fun _ t => { t with st := .entry, pc := 0x2100 }))
  { s with groups := [], cur := .none }
def isOk (f : Fetched × State) : Bool := match f.1 with | .ok _ _ => true | _ => false
def who0 : Who := ⟨0, some 0, true⟩
/-- The same after stores to the clause in epoch 0, whose lines no ICINV has followed: `was` was the header, of which `n` bytes were stored. -/
def sStored (was : DWord) (n : Nat) (hd w : Nat) : State :=
  let s := sEntry hd w
  { s with mem := { s.mem with before := [(0x402100 / 8, [⟨0, was, n⟩]), (0x402108 / 8, [⟨0, 0x1B07000000000000, 8⟩])] } }
/-- What quad 0's holders and memory give a fetch of the clause at 0x2100: whether a copy serves, whether the header is good, whether
the words are one text, whether the header of before is good, and whether it fetches. -/
def fetches (s : State) : Option (Bool × Bool × Bool × Bool × Bool) := match codeLoc s who0 0x2100 with
  | (.ok l0, u) => match codeRead who0 [l0] u with
    | (([x], none), v) =>
      let h := Header.ofWord x
      match codeLocs who0 (h.cnt.toNat + 1) 0x2108 v with
      | ((ls, none), w) => some ((copyAt u (quadHolders 0 0) l0).isSome, h.ok true false, oneText w.mem (l0 :: ls),
          (Header.ofWord (wordAt v.mem (lastSettled v.mem [l0]) (locPa l0))).ok true false,
          decide (w.mem = v.mem ∧ lastSettled w.mem (l0 :: ls) = 0) && isOk (fetchClause s who0 (quadHolders 0 0) 0x2100 false))
      | _ => none
    | _ => none
  | _ => none
/-- The state after quad 0 has fetched the clause at 0x2100. -/
def sKept : State := (fetchClause (sEntry (0xFFA0 * 2 ^ 48) 0xB007000000000000) who0 (quadHolders 0 0) 0x2100 false).2

/-- A MEM clause at 0x2100, its sector throttled and its cluster group memory-bound, and a thread of a lower cluster group beside. -/
def sHeld : State :=
  let s := sEntry (0xFF20 * 2 ^ 48) 0x7407000000000001
  { s with
    threads := s.threads.map (fun e => (e.1, { e.2 with cg := 1 })) ++ [(threadKey 9 0, { tMem 0 with cgu := 9, st := .entry, pc := 0x2200 })],
    clusterGroups := Map.adjust s.clusterGroups 1 (fun g => { g with issued := [(0, true), (0, true), (0, true)] }),
    pkg := { s.pkg with sectors := [(0, ⟨0xFF, true⟩)] } }

theorem witness_ClauseEntryResults :
    (let s := sEntry (0xFFA0 * 2 ^ 48) 0xB007000000000000
     hits (lowestOf (candidates s 0 0 0x2100)) (fun low => isOk (fetchClause s (whoOf s low) (quadHolders 0 0) 0x2100 false)) = true
     ∧ (0x2100 : DWord).toNat % 8 = 0)
    -- no clause stands there; one whose copy is kept; one as memory holds it; one of which a part was stored to; one stored whole
    ∧ fetches (sEntry 0 0) = some (false, false, true, false, false)
    ∧ fetches sKept = some (true, true, true, true, true)
    ∧ fetches (sEntry (0xFFA0 * 2 ^ 48) 0xB007000000000000) = some (false, true, true, true, true)
    ∧ fetches (sStored 0xFFA0000000000000 4 (0xFF20 * 2 ^ 48) 0) = some (false, true, false, true, true)
    ∧ fetches (sStored 0xFFA0000000000000 8 (0xFF20 * 2 ^ 48) 0) = some (false, true, true, true, true)
    ∧ (match codeRead who0 [.phys 0x402100 1 false] (sEntry 0 0) with | ((_, none), _) => lockOf (sEntry 0 0) 0x402100 == none | _ => false) = true
    ∧ versions (sEntry 0 0).mem 0x402100 = []
    ∧ (keepIn [] ⟨3, [], [0], false⟩).length = 1 ∧ (keepIn [⟨512, [.scr 0 0], [0], true⟩] ⟨512, [], [0], false⟩).length = 2
    -- an instance at a header of class STR
    ∧ (let s := { sSlice (fun c => { c with pass := none, pc := 0x2100 }) with mem := (sEntry (0xFF80 * 2 ^ 48) 0xDA00000000000000).mem, parts := (sMem 0).parts }
       hits (getSlice s 32) (fun x => x.st == .run && x.pass.isNone && x.pc.toNat % 8 == 0) = true
       ∧ hits (Map.get? s.coreGroups 8) (fun c => !c.saved) = true ∧ isOk (fetchClause s (sliceWho s 32) [quadCore s 32] 0x2100 true) = true)
    -- an illegal word in a group, and in an instance
    ∧ (At sR 2 (g2 4) ∧ (g2 4).members ≠ [] ∧ (g2 4).members.head?.bind (imageLock sR) = none
      ∧ (g2 4).members.head?.bind (imageSilent sR) = none ∧ (g2 4).members.all (fun k => !handlerHeld sR k) = true)
    ∧ (At (farLine (0x700000 / 128) (sMem 0)) 2 (g2 1) ∧ (g2 1).members.head?.bind (imageLock (farLine (0x700000 / 128) (sMem 0))) = none
      ∧ (g2 1).members.all (fun k => !handlerHeld (farLine (0x700000 / 128) (sMem 0)) k) = true
      ∧ ((g2 1).members.head?.bind (imageSilent (farLine (0x700000 / 128) (sMem 0)))).isSome = true)
    ∧ (At (lockPage 0x700000 (sMem 0)) 2 (g2 1) ∧ ((g2 1).members.head?.bind (imageLock (lockPage 0x700000 (sMem 0)))).isSome = true)
    ∧ InSlice (sSlice id) 32 ⟨[], 0, some ⟨0x1000, clsStr, [0, 0], 0⟩, [], .run⟩ ⟨0x1000, clsStr, [0, 0], 0⟩ :=
  ⟨by decide, by decide, by decide, by decide, by decide, by decide, by decide, by decide, by decide, by decide, by decide,
    ⟨(at_of rfl rfl), by decide⟩, ⟨(at_of rfl rfl), by decide⟩, ⟨(at_of rfl rfl), by decide⟩, ⟨rfl, by decide, rfl⟩⟩

/-- The entry's image stands on a line of a sleeping die; a lane whose v6 names the entry. -/
def sNamed (far : Bool) : State :=
  let s := { sFrag false with threads := [(k0, rg 6 (fragIdOf 0 0 1).toNat (tMem 0)), (threadKey 1 1, { newThread 1 0 0 0 0 1 rec0 true with frag := fragIdOf 0 0 1, hand := .system, st := .rteWait })] }
  let s := setPart s 0 (fun q => { q with clumask := 1 })
  if far then farLine (0x700000 / 128) s else s

theorem witness_DiscardAndCode :
    At (sNamed false) 2 (g2 1) ∧ fdiscAsks (sNamed false) ⟨g7, 8, 6⟩ (lanes (sNamed false)) = none
    ∧ At (sNamed true) 2 (g2 1) ∧ fdiscAsks (sNamed true) ⟨g7, 8, 6⟩ (lanes (sNamed true)) = some 1
    ∧ (entrySilent (sNamed true) 0).isSome = true ∧ (entrySilent (sNamed false) 0).isSome = false
    -- a thread whose write is held, and one without
    ∧ (threadHeld (setPart (sMem 0) 1 (fun q => { q with held := [held0] })) k0 = true ∧ threadHeld (sMem 0) k0 = false)
    -- a copy of a line of the partition; ranges that a thread has invalidated
    ∧ (sKept.mem.code.any (fun c => c.locs.any (fun l => match l with
        | .phys a _ _ => !foreignLine sKept 0 (a / 128)
        | .scr _ _ => false)) = true)
    ∧ Map.get? { mem0 with inval := [(k0, [(0x402100, 8)])] }.inval k0 = some [(0x402100, 8)] ∧ meets (0x402108 / 128 * 128) 128 0x402100 8 = true :=
  ⟨(at_of rfl rfl), by decide, (at_of rfl rfl), by decide, by decide, by decide, by decide, by decide, by decide⟩

theorem witness_ClauseHeld :
    candidates sHeld 0 0 0x2100 ≠ [] ∧ (candidates sHeld 0 0 0x2100).all (fun e => memHeld sHeld e.2) = true
    ∧ (match lowestOf (candidates sHeld 0 0 0x2100) with
      | some low => match fetchClause sHeld (whoOf sHeld low) (quadHolders 0 0) 0x2100 false with
        | (.ok h _, _) => h.cls == 1
        | _ => false
      | none => false) = true := by decide

/-- Group 2 with one waiting lane, or a hold. -/
def grpWith (f : Group → Group) (s : State) : State := { s with groups := [(2, f (g2 1))] }
def cobjWait : List (Nat × Wait) := [(k0, .cobj .gl 0x2080 2)]
/-- A job of partition 0. -/
def withJob (j : Job) (s : State) : State := setPart s 0 (fun q => { q with jobs := [(4, j), (5, { j with st := .landed, edges := [] })] })
def job0 (cnt : Bool) (st : JobSt) (e : List Nat) : Job := ⟨card0 cnt, true, some [], some [], e, st, 0, false⟩
def domeWho : Who := ⟨0, none, true⟩

theorem witness_WaitAndJobResults :
    hits (reevaluated cobjWait (grpWith (fun g => { g with waits := cobjWait }) { sObj with mem := wr 0x402080 (leBytes 32 2) mem0 }))
      (fun r => r.2.isEmpty) = true
    ∧ (let s := { sProg 5 0x2080 [] [] with quadGroups := (sSlice (fun c => { c with st := .cobj 0x2080 5 })).quadGroups }
       hits (getSlice s 32) (fun x => x.st == .cobj 0x2080 5) = true ∧ (0x2080 : DWord).toNat % 32 = 0
       ∧ (match reach s (sliceWho s 32) 0x2080 .read false with
          | (.ok l, u) => !objReserved (leNat (readLoc u l 32).1.bytes)
          | _ => false) = true)
    ∧ hits (getGroup (grpWith (fun g => { g with hold := .sleep 9 }) sR) 2) (fun g => g.hold == .sleep 9) = true
    ∧ hits (getQueue sA 32 2) (fun q => hits q.entries[0]? (fun e => e.rows != 0)) = true
    -- a group held at a JOB
    ∧ (∀ cnt ∈ [false, true], let s := grpWith (fun g => { g with pass := ⟨0, clsMat, [0xE007000500000000], 0⟩, hold := .jobFull (card0 cnt) }) sObj
       HeldJob s 2 (card0 cnt) (tMem 0x2080) ∧ openJobs (partOf s 0) < Config.maxJobs ∧ heldFor s 0 (.group 2) = false)
    ∧ objTakes none (tMem 0x2080) sObj = true
    ∧ Config.maxJobs ≤ openJobs (partOf (busy sObj) 0)
    ∧ heldFor (setPart (sMem 0) 1 (fun q => { q with held := [{ held0 with next := some (0, .job 4) }] })) 0 (.job 4) = true
    -- jobs that wait on nothing, on a completed job, on one that runs
    ∧ heldFor (sMem 0) 0 (.job 4) = false
    ∧ hits (getJob (withJob (job0 false .waiting [5]) (sMem 0)) 0 4) (fun j => j.st == .waiting && j.edges == [5]) = true
    ∧ hits (getJob (withJob (job0 false .waiting [5]) (sMem 0)) 0 5) (fun j => j.st == .landed) = true
    ∧ (jobLands domeWho (card0 false) (List.range' 0 1) false (withJob (job0 false .waiting [5]) (sMem 0))).isSome = true
    ∧ hits (getJob (withJob (job0 false .waiting [4]) (sMem 0)) 0 4) (fun j => j.st != .landed) = true
    -- completion without and with a count object
    ∧ agentWaits (withJob (job0 true .landed []) sObj) 0 (.job 4) = false ∧ (card0 true).cobj.toNat % 32 = 0
    ∧ (match reach sObj domeWho (card0 true).cobj .atomic with
       | (.ok l, u) => (locLock u l).isNone && (objJob (leNat (readLoc u l 32).1.bytes) false 0 true).isSome
       | _ => false) = true := by
  refine ⟨by decide, by decide, by decide, by decide, ?_, by decide, by decide, by decide, by decide, by decide, by decide, by decide, by decide,
    by decide, by decide⟩
  intro c hc
  rcases List.mem_cons.mp hc with rfl | h
  · exact ⟨⟨_, jobx, k0, k0, tMem 0x2080, rfl, rfl, by decide, by decide, by decide, by decide, by decide, rfl⟩, by decide⟩
  · rcases List.mem_cons.mp h with rfl | h
    · exact ⟨⟨_, jobx, k0, k0, tMem 0x2080, rfl, rfl, by decide, by decide, by decide, by decide, by decide, rfl⟩, by decide⟩
    · cases h

/-- The host's window: open, and closed behind a held posted write; outside a partition or a queue. -/
theorem witness_LaunchTail :
    (2 < 4 ∧ 15 < 16 ∧ (sMem 0).boot.mode ≠ 3 ∧ WindowOpen (sMem 0) (vfWindow 2 + 0x1000 + 8 * 15) 3)
    ∧ hostPending (setPart (sMem 0) 1 (fun q => { q with held := [{ held0 with next := some (0, .posted) }] })) = true := by
  unfold WindowOpen
  decide

theorem witness_LaunchQueueResults :
    ((0x40000004 : Word).getLsbD 30 = true ∧ (0x40000004 : Word) &&& 0x3FFFFFF0 = 0) ∧ (0xBFFFFFFF : Word).getLsbD 30 = false
    ∧ CReg.evqCobj ∈ plainRegs ∧ ((3 : DWord) ≠ 1 ∧ (3 : DWord) ≠ 2)
    ∧ (0xE01 : DWord) &&& 0x00FFF1F8 = 0 ∧ (0xE01 : DWord).toNat % 8 = 1 ∧ (2 : DWord) &&& 0x00FFF1F8 = 0 ∧ (2 : DWord).toNat % 8 = 2
    ∧ (0xC04 : DWord) &&& 0x00FFF1F8 = 0 ∧ (0xC04 : DWord).toNat % 8 = 4 ∧ (0 : DWord) &&& 0x00FFF1F8 = 0 ∧ (0 : DWord).toNat % 8 = 0 := by
  decide

def ev0 : EvRec := ⟨eventWord 0 0 0 4, 1, 2, 3, false⟩
/-- Partition 0 with two events, a ring of 16 slots, and a count object for it. -/
def sRing (on : Bool) (tail head : Word) (cobj : DWord) (ev : EvRec) : State :=
  setPart (sMem 0) 0 (fun q => { q with events := [ev, ev0], evqBase := 0x500000, evqCfg := if on then 0x80000000 else 0,
                                        evqTail := tail, evqHead := head, evqCobj := cobj })
def withAgent (a : Agent) (s : State) : State := setPart s 0 (fun q => { q with agents := [(a, ⟨1, 1, 0x5000, 2⟩)] })

theorem witness_EventRingResults :
    posting (sRing true 15 1 0 ev0) 0 = false
    ∧ posting (setPart (sRing true 15 1 0 ev0) 1 (fun q => { q with held := [{ held0 with next := some (0, .record) }] })) 0 = true
    ∧ ((partOf (sRing false 0 0 0 ev0) 0).events = [ev0, ev0] ∧ ringOn (partOf (sRing false 0 0 0 ev0) 0) = false)
    ∧ (ringOn (partOf (sRing true 15 0 0 ev0) 0) = true ∧ ringFull (partOf (sRing true 15 0 0 ev0) 0) = true)
    ∧ (let q := partOf (sRing true 15 1 0 ev0) 0
       q.events = [ev0, ev0] ∧ ringOn q = true ∧ ringFull q = false ∧ q.evqCobj = 0
       ∧ postAsks (sRing true 15 1 0 ev0) q ev0 = none ∧ postAsks (farLine (0x500000 / 128 + 3) (sRing true 15 1 0 ev0)) q ev0 = some 1
       ∧ holdOf (sRing true 15 1 0 ev0) (ringSlot q) = none ∧ holdOf (lockPage 0x500000 (sRing true 15 1 0 ev0)) (ringSlot q) = some 1)
    ∧ (partOf (sRing true 14 0 0x402080 { ev0 with quiet := true }) 0).events = [{ ev0 with quiet := true }, ev0]
    ∧ (let s := sRing true 14 0 0x402080 ev0
       postAsks s (partOf s 0) ev0 = none ∧ (partOf s 0).evqCobj ≠ 0 ∧ ev0.quiet = false ∧ holdOf s 0x402080 = none ∧ 0x402080 % 32 = 0 ∧ ringFull (partOf s 0) = false
       ∧ (objSignal (leNat (rawBytes (posted s 0 ev0 [ev0]).mem 0x402080 32)) 1 0).isSome = true)
    -- no agent waits on a fault: none waits, or one waits for a lock; one waits on a fault
    ∧ (∀ e ∈ (partOf (setPart (sMem 0) 0 (fun q => { q with agents := [(.dep 0 7, waitInfo 0)] })) 0).agents, e.2.waits = true)
    ∧ ((partOf (withAgent (.slice 32) (sMem 0)) 0).agents.filter (fun e => !e.2.waits)) ≠ []
    ∧ FInfo.waits ⟨1, 1, 0x5000, 2⟩ = false
    ∧ (partOf (withAgent (.slice 32) (sMem 0)) 0).agents = [(.slice 32, ⟨1, 1, 0x5000, 2⟩)]
    ∧ (let s := withAgent (.job 4) (withJob (job0 false .fault []) (sMem 0))
       (partOf s 0).agents = [(.job 4, ⟨1, 1, 0x5000, 2⟩)] ∧ hits (getJob s 0 4) (fun j => j.st == .fault) = true)
    ∧ (let s := withAgent (.done 0) (sMem 0)
       (partOf s 0).agents = [(.done 0, ⟨1, 1, 0x5000, 2⟩)] ∧ (launchOf s 0 0).isSome = true)
    ∧ (let s := withAgent (.header 0) (sMem 0)
       (partOf s 0).agents = [(.header 0, ⟨1, 1, 0x5000, 2⟩)] ∧ (launchOf s 0 0).isSome = true)
    ∧ (partOf (withAgent (.dep 0 7) (sMem 0)) 0).agents = [(.dep 0 7, ⟨1, 1, 0x5000, 2⟩)]
    -- DONE is written
    ∧ (let s := { sMem 0 with launches := (sMem 0).launches.map (fun e => (e.1, { e.2 with closed := true, r := { e.2.r with cbmp := 0x2200 } })) }
       hits (launchOf s 0 0) (fun l => l.closed && !l.published && l.r.cbmp != 0
         && (match reach s ⟨0, none, l.priv⟩ (l.r.cbmp + 8) .write with
           | (.ok loc, u) => (locLock u loc).isNone
           | _ => false)) = true
       ∧ agentWaits s 0 (.done 0) = false ∧ heldFor s 0 (.done 0) = false) := by decide

/-- A record of one core group of one quad group of 32 threads, its first clause at 0x2100 and its placement table at 0x2000;
it stands in slot 15 of queue 2. -/
def recBytes : List Byte :=
  leBytes 4 0x101F ++ leBytes 4 1 ++ leBytes 4 0 ++ leBytes 4 0 ++ leBytes 8 0x2100 ++ leBytes 8 0 ++ leBytes 8 0 ++ leBytes 8 0x2000
    ++ leBytes 8 0 ++ leBytes 8 0 ++ leBytes 8 0 ++ leBytes 4 0x404
def sTake : State :=
  setPart (withMem (wr 0x401F00 recBytes mem0) (stN 1 (fun _ t => t))) 0 (fun q =>
    { q with lqs := [(2, onQueue 15 0), (5, { onQueue 0 1 with cfg := 0x00040141 })], clumask := 1 })
/-- The same record with a completion bitmap at 0x2200 of page 2, which is under a lock. -/
def sTakeBm : State := lockPage 0x402000 { sTake with mem := wr 0x401F40 (leBytes 8 0x2200) sTake.mem }
/-- Launch 0 of partition 0 with an index state. -/
def withLaunch (f : Launch → Launch) (s : State) : State := { s with launches := s.launches.map (fun e => (e.1, f e.2)) }
/-- GROW of one lane by 1 under a launch with a bitmap, whose G it raises. -/
theorem witness_GrowResults :
    let s := withLaunch (fun l => { l with r := { l.r with cbmp := 0x2200, gceil := 0 } }) (withMem mem0 (stN 1 (fun _ t => rg 6 1 t)))
    At s 2 (g2 1) ∧ (∀ ks, (g2 1).hold ≠ .gcur ks) ∧ launchesOf s (lanes s) = [(0, 0)] ∧ ofLaunch s (lanes s) 0 0 = [k0]
    ∧ hits (launchOf s 0 0) (fun l => l.r.cbmp != 0 && hits (getThread s k0) (fun t => (growStep l (tWord t 6).toNat).1 != l.g)
        && (match reach s ⟨0, none, l.priv⟩ l.r.cbmp .write with | (.ok loc, u) => (locLock u loc).isNone | _ => false)) = true
    ∧ agentWaits s 0 (.gcur 0 2) = false ∧ heldFor s 0 (.gcur 0 2) = false
    ∧ (∀ e ∈ launchesOf sR (activeOf sR (g2 4) g7), ∀ l, launchOf sR e.1 e.2 = some l → l.r.cbmp = 0) := by
  refine ⟨(at_of rfl rfl), fun ks => by simp [g2, grp], by decide, by decide, by decide, by decide, by decide, fun e he l hl => ?_⟩
  have h : launchesOf sR (activeOf sR (g2 4) g7) = [(0, 0)] := by decide
  rw [h] at he
  obtain rfl : e = (0, 0) := by simpa using he
  have := (by decide : hits (launchOf sR 0 0) (fun l => l.r.cbmp == 0) = true)
  rw [hl] at this
  simpa [hits] using this


def dep0 : Dep := ⟨1, 0x2200, 0, 1, 0, 0⟩
/-- A predecessor's bitmap at 0x2200 of page 2: GCUR 4, DONE clear. -/
def sDep : State := withMem (wr 0x402200 (leBytes 4 4) mem0) (stN 1 (fun _ t => t))
/-- A dependence whose bitmap no page maps, its index in a state; and the fault of its read. -/
def sBadDep (st : IdxSt) : State :=
  withLaunch (fun l => { l with idx := [(0, st)], r := { l.r with deps := [⟨1, 0x9000, 0, 1, 0, 0⟩] } }) sDep
def badDep : FInfo := ⟨1, 1, 0x9000, 0x41⟩
/-- Index 0 is ready at a clock, having been without room since the clocks of `w`. -/
def sAging (now : DWord) (w : Map DWord) : State :=
  withLaunch (fun l => { l with idx := [(0, .ready)], waits := w }) { sDep with clock := now }

/-- The head record of a queue as the distributor sees it: where its slot stands, its status, and the lock on its STATUS. -/
def checkRec (s : State) (p n : Nat) : Option (Loc × Nat × Option Nat × Option FInfo) :=
  let va := (lqOf s p n).base + BitVec.ofNat 64 (256 * (lqOf s p n).head.toNat)
  match reach s ⟨p, none, true⟩ va .read with
  | (.error _, _) => none
  | (.ok rl, v) => match reach v ⟨p, none, true⟩ va .write with
    | (.error _, _) => none
    | (.ok wl, w) =>
      let g := readLoc w rl 128
      let h := readLoc g.2 (locPlus rl 128) 128
      let l := g.1.bytes ++ h.1.bytes
      match (if recordFieldsOk l (recordOf l) = true then readPlace h.2 ⟨p, none, (recordOf l).priv⟩ (recordOf l) else (.ok [], h.2)) with
      | (.error _, _) => none
      | (.ok y, x) =>
        let w : Who := ⟨p, none, (recordOf l).priv⟩
        let st := recordStatus x p ((lqOf s p n).cfg.getLsbD 9) ((lqOf s p n).userSlots.contains (lqOf s p n).head.toNat) l (recordOf l) (some y)
        let z := if st = 1 ∧ (recordOf l).cbmp ≠ 0 then reach x w (recordOf l).cbmp .write else (.ok wl, x)
        some (wl, st, locLock z.2 (locPlus wl 0xF0), takeWaits z.2 w l (recordOf l) st (.ok y) z.1)

theorem rec_checked {s : State} {p n : Nat} {wl : Loc} {st : Nat} {o : Option Nat} {f : Option FInfo}
    (h : checkRec s p n = some (wl, st, o, f)) :
    ∃ l u pl v, RecordRead s p n l wl u ∧ RecordChecked s p n l wl u st pl v f ∧ locLock v (locPlus wl 0xF0) = o := by
  unfold checkRec at h
  simp only at h
  split at h
  · cases h
  · rename_i rl v h1
    split at h
    · cases h
    · rename_i wl' w h2
      split at h
      · cases h
      · rename_i y x h3
        simp only [Option.some.injEq, Prod.mk.injEq] at h
        obtain ⟨rfl, rfl, rfl, rfl⟩ := h
        exact ⟨_, _, y, _, ⟨rl, v, w, h1, h2, rfl, rfl⟩, ⟨.ok y, x, _, h3, ⟨rfl, rfl⟩, rfl, rfl⟩, rfl⟩

def slot15 : Loc := .phys 0x401F00 1 false

theorem witness_LaunchTakeResults :
    nextQueue sTake 0 = some 2 ∧ nextQueue sR 0 = none ∧ sTake.parts.all (fun e => e.2.migSt != .copying && e.2.migSt != .ready) = true
    -- the record is read, its slot is writable, and the checks accept it; the same while the page is under a lock
    ∧ (∃ l u pl v, RecordRead sTake 0 2 l slot15 u ∧ RecordChecked sTake 0 2 l slot15 u 1 pl v none ∧ locLock v (locPlus slot15 0xF0) = none)
    ∧ (∃ l u pl v, RecordRead (lockPage 0x401000 sTake) 0 2 l slot15 u ∧ RecordChecked (lockPage 0x401000 sTake) 0 2 l slot15 u 1 pl v none
        ∧ locLock v (locPlus slot15 0xF0) = some 1)
    -- a record whose bitmap's header stands on a locked page
    ∧ (∃ l u pl v, RecordRead sTakeBm 0 2 l slot15 u ∧ RecordChecked sTakeBm 0 2 l slot15 u 1 pl v (some (waitLock 1)) ∧ locLock v (locPlus slot15 0xF0) = none)
    -- an index without dependences, one whose access stands still; dependences of kinds 0, 1 and 2; an index ready and without room
    ∧ hits (launchOf (withLaunch (fun l => { l with idx := [] }) sDep) 0 0) (fun l => decide (0 < l.g) && idxSt l 0 == .pending && idxWaits l 0
        && (match (depsReady ⟨0, none, l.priv⟩ 0 l.r.deps sDep).1 with | .ok _ => true | _ => false)) = true
    ∧ agentWaits sDep 0 (.dep 0 0) = false
    ∧ hits (launchOf (sBadDep .pending) 0 0) (fun l => idxSt l 0 == .pending && decide (0 < l.g)
        && (match (depsReady ⟨0, none, l.priv⟩ 0 l.r.deps (sBadDep .pending)).1 with | .error f => !f.waits && f == badDep | _ => false)) = true
    ∧ hits (launchOf (sBadDep (.stalled badDep)) 0 0) (fun l => idxSt l 0 == .stalled badDep
        && (match (depsReady ⟨0, none, l.priv⟩ 0 l.r.deps (sBadDep (.stalled badDep))).1 with | .error f => f == badDep | _ => false)) = true
    ∧ ({ dep0 with kind := 0 } : Dep).kind = 0 ∧ dep0.kind = 1 ∧ 2 ≤ ({ dep0 with kind := 2 } : Dep).kind
    ∧ (match readVa domeWho (BitVec.ofNat 64 dep0.pcbmp) 4 sDep with
       | (.ok gcur, u) => match readVa domeWho (BitVec.ofNat 64 (dep0.pcbmp + 8)) 1 u with
         | (.ok _, v) => gcur == 4 && (match readVa domeWho (BitVec.ofNat 64 (dep0.pcbmp + 64)) 1 v with | (.ok _, _) => true | _ => false)
         | _ => false
       | _ => false) = true
    -- the window's index below zero, at GCUR, and below it
    ∧ ((1 * (0 : Nat) + -1 : Int) / 2 ^ 0 < 0 ∧ (4 : Int) ≤ ((1 : Nat) * (4 : Nat) + 0 : Int) / 2 ^ 0 ∧ ((1 : Nat) * (3 : Nat) + 0 : Int) / 2 ^ 0 < 4)
    -- an index that has waited AGING µs, one that has waited a clock less, one that has had room
    ∧ hits (launchOf (sAging 250000 [(0, 0)]) 0 0) (fun l => idxReady l 0 && hits (Map.get? l.waits 0) (fun since =>
        decide ((partOf (sAging 250000 [(0, 0)]) l.part).aging.toNat * 1250 ≤ ((sAging 250000 [(0, 0)]).clock - since).toNat))) = true
    ∧ hits (launchOf (sAging 249999 [(0, 0)]) 0 0) (fun l => idxReady l 0 && hits (Map.get? l.waits 0) (fun since =>
        decide (((sAging 249999 [(0, 0)]).clock - since).toNat < (partOf (sAging 249999 [(0, 0)]) l.part).aging.toNat * 1250))) = true
    ∧ hits (launchOf (sAging 0 []) 0 0) (fun l => idxReady l 0 && (Map.get? l.waits 0).isNone) = true := by
  refine ⟨by decide, by decide, by decide, rec_checked (by decide +kernel),
    rec_checked (by decide +kernel), rec_checked (by decide +kernel), ?_⟩
  decide

/-- Partition 0 owns cluster 0; launch 0 has one index, its record changed by f. -/
def sDisp (st : IdxSt) (f : LRec → LRec) : State :=
  withLaunch (fun l => { l with idx := [(0, st)], r := f { l.r with scratch := 0, stash := 0, kcode := 0x2100, n := 32, alloc := 32 } })
    (setPart { sObj with clusterGroups := [], coreGroups := [], quadGroups := [], warps := [], threads := [], groups := [], cur := .none } 0
      (fun q => { q with clumask := 1 }))
/-- Cluster group 1 in a state of its progress. -/
def sCg (st : CgSt) (f : LRec → LRec) : State :=
  let s := withLaunch (fun l => { l with r := f l.r }) sObj
  { s with clusterGroups := Map.adjust s.clusterGroups 1 (fun g => { g with st := st }) }
def fenceDie0 (s : State) : State := setDie s 0 (fun d => { d with fenced := true })

/-- A warp of a class-1 launch that has been saved, its thread standing at a clause entry, while save slots are free. -/
def sAbsent : State :=
  let s := withLaunch (fun l => { l with cls := 1 }) (withMem mem0 (stN 1 (fun _ t => { t with st := .entry })))
  setPart { s with groups := [], warps := s.warps.map (fun e => (e.1, { e.2 with saved := true })) } 0
    (fun q => { q with saveBase := 0x800000, saveSlots := 65536 })

theorem witness_DispatchResults :
    (let s := sDisp .ready id
     hits (launchOf s 0 0) (fun l => firstReady l (l.place.getD 0 8) l.g 0 == some 0 && (fencedDie s l 0).isNone && !heldBack s l 0
       && (placeOn s (keptFor s l 0) 0 0 l.r).isSome && decide (l.r.q ≤ 4 ∧ l.r.t ≤ 1024 ∧ l.r.c ≤ 8) && l.r.tiles.all (fun x => x.len == 0)) = true)
    ∧ hits (launchOf (sDisp .placed id) 0 0) (fun l => firstReady l (l.place.getD 0 8) l.g 0 == none) = true
    -- the same index where the partition has no cluster
    ∧ (let s := withLaunch (fun l => { l with cls := 1 }) (setPart (sDisp .ready id) 0 (fun q => { q with clumask := 0 }))
       hits (launchOf s 0 0) (fun l => firstReady l (l.place.getD 0 8) l.g 0 == some 0 && (fencedDie s l 0).isNone && !heldBack s l 0
         && (placeOn s (keptFor s l 0) 0 0 l.r).isNone && !hasRoom s l 0 (l.place.getD 0 8) && l.cls != 0) = true)
    -- room kept for a saved warp: none is, and one is
    ∧ absentWarp (sDisp .ready id) 0 = none
    ∧ (let s := sAbsent
       hits (launchOf s 0 0) (fun l => l.cls != 0 && slotLeft (partOf s l.part) && hits (absentWarp s l.part) (fun x =>
         (Map.get? s.coreGroups (x.2.cgu * 8 + x.2.k)).isSome)) = true)
    ∧ (let s := fenceDie0 (sDisp .ready id)
       hits (launchOf s 0 0) (fun l => firstReady l (l.place.getD 0 8) l.g 0 == some 0 && fencedDie s l 0 == some 0) = true)
    -- an input tile that is filled
    ∧ (let s := sCg .filling (fun r => { r with tiles := [⟨0, 128, 1, 0⟩] })
       hits (cgLaunch s 1) (fun l => hits (Map.get? s.clusterGroups 1) (fun g => g.st == .filling)
         && (fillCores (fun core => ⟨0, some core, l.priv⟩) ((List.range 4).zip l.r.tiles) (s.coreGroups.filter (fun e => e.2.cgu == 1)) s).1.isNone) = true
       ∧ (partOf s 0).agents = [])
    -- one whose source is under another's key; a completing cluster group with a thread whose store is held
    ∧ (let s := sCg .filling (fun r => { r with tiles := [⟨0, 128, 1, 0⟩] })
       let s := { s with mem := wr 0x104000 (leBytes 8 (0x40012D + 2 ^ 54)) s.mem }
       hits (cgLaunch s 1) (fun l =>
         match fillCores (fun core => ⟨0, some core, l.priv⟩) ((List.range 4).zip l.r.tiles) (s.coreGroups.filter (fun e => e.2.cgu == 1)) s with
         | (some (ck, f), u) => !f.waits && f.cause != 1 && ck / 8 == 1 && (Map.get? u.coreGroups ck).isSome && (Map.get? u.clusterGroups 1).isSome
         | _ => false) = true)
    ∧ (∃ e ∈ (setPart (sCg .compl id) 1 (fun q => { q with held := [held0] })).parts, ∃ h ∈ e.2.held, h.thread / 32768 = 1)
    -- COMPL without and with an object; CBMP without and with a bitmap
    ∧ (let s := sCg .compl id
       hits (cgLaunch s 1) (fun l => l.r.compl == 0) = true ∧ agentWaits s 0 (.compl 1) = false ∧ agentWaits s 0 (.cbmp 1) = false
       ∧ heldFor s 0 (.compl 1) = false ∧ heldFor s 0 (.cbmp 1) = false)
    ∧ (let s := sCg .compl (fun r => { r with compl := 0x2080 })
       hits (cgLaunch s 1) (fun l => l.r.compl != 0 && l.r.compl.toNat % 32 == 0 && (match reach s ⟨0, none, l.priv⟩ l.r.compl .atomic with
         | (.ok x, u) => (locLock u x).isNone && (objSignal (leNat (readLoc u x 32).1.bytes) 1 0x20).isSome
         | _ => false)) = true)
    ∧ (let s := sCg .cbmp id
       hits (cgLaunch s 1) (fun l => l.r.cbmp == 0) = true ∧ hits (Map.get? s.clusterGroups 1) (fun g => g.st == .cbmp) = true)
    ∧ (let s := sCg .cbmp (fun r => { r with cbmp := 0x2200 })
       hits (cgLaunch s 1) (fun l => l.r.cbmp != 0 && (match reach s ⟨0, none, l.priv⟩ (l.r.cbmp + BitVec.ofNat 64 (64 + 0 / 8)) .atomic with
         | (.ok x, u) => (locLock u x).isNone
         | _ => false)) = true)
    -- the last index of a launch, and a thread of another cluster group beside it
    ∧ (let s := { sCg .cbmp id with threads := [(threadKey 9 0, { tMem 0 with cgu := 9 })] }
       hits (launchOf s 0 0) (fun l => l.r.cbmp == 0 && !l.closed && allDone (setIdx 0 .done l)) = true
       ∧ agentWaits s 0 (.done 0) = false ∧ heldFor s 0 (.done 0) = false
       ∧ (∀ e ∈ s.threads, e.2.cgu ≠ 1) ∧ (getThread s (threadKey 9 0)).isSome = true) := by decide

/-- One warp whose thread 0 waits at an MWAIT, with save slots and a request for pre-emption. -/
def sSave (f : Warp → Warp) : State :=
  let s := withMem mem0 (stN 1 (fun _ t => { t with st := .mwait 3 }))
  setPart { s with groups := [], warps := Map.adjust s.warps 1024 f } 0 (fun q => { q with saveBase := 0x800000, saveSlots := 65536 })
def imaged (s : State) : State := setPart s 0 (fun q => { q with images := [⟨7, 2, 1024⟩] })

/-- Whether records were read, or the warp is saved whole. -/
def savedOk (r : Recs (Option (List (Nat × Nat))) × State) : Bool := match r.1 with
  | .ok _ => true
  | _ => false
theorem saved_ok {r : Recs (Option (List (Nat × Nat))) × State} (h : savedOk r = true) : ∃ x v, r = (.ok x, v) := by
  obtain ⟨x, v⟩ := r
  cases x with
  | ok y => exact ⟨y, v, rfl⟩
  | whole => cases h
  | waits => cases h

/-- The image's warp asks for more rows than its quad has. -/
def sWide : State :=
  let s := imaged (sSave (fun w => { w with saved := true }))
  { s with launches := s.launches.map (fun e => (e.1, { e.2 with r := { e.2.r with alloc := 100000 } })) }

theorem witness_PreemptionResults :
    (let s := sSave (fun w => { w with preq := some false })
     hits (Map.get? s.warps 1024) (fun w => w.preq.isSome && !w.saved) = true ∧ warpThreads s 1024 ≠ []
     ∧ (warpThreads s 1024).all (fun e => maySave s e.2) = true ∧ s.warps.all (fun w => w.2.gen.isNone) = true
     ∧ NoMigration s ∧ warpHeld s 1024 = false
     ∧ (∀ i u, pickSlot (stopStanding s 1024) (partOf (stopStanding s 1024) 0) (1 + (Config.extraSlots s.fresh).toNat) = some (i, u) →
         ∃ rs v, saveThreads (warpThreads u 1024) u = (.ok rs, v))
     ∧ cgPart s 1 = 0 ∧ slotsFree (partOf s 0) 0 (1 + (Config.extraSlots s.fresh).toNat) = true
     ∧ (∀ e ∈ warpThreads s 1024, e.2.stop = .running) ∧ (getThread s k0).isSome = true)
    -- a window that has just ended, and one that has a clock left
    ∧ (∃ w, Map.get? (sSave id).warps 1024 = some w ∧ WindowEnded { sSave id with clock := 25000 } w ∧ ¬ WindowEnded { sSave id with clock := 24999 } w)
    ∧ hits (Map.get? (sSave id).warps 1024) (fun w => w.preq.isNone) = true
    -- a stopped thread whose store is held
    ∧ (let s := sSave (fun w => { w with preq := some true })
       let s := setPart { s with threads := s.threads.map (fun e => (e.1, { e.2 with stop := .whole })) } 1 (fun q => { q with held := [held0] })
       warpHeld s 1024 = true ∧ hits (Map.get? s.warps 1024) (fun w => w.preq.isSome && !w.saved) = true ∧ warpThreads s 1024 ≠ []
       ∧ (warpThreads s 1024).all (fun e => e.2.stop != .running) = true)
    -- an image whose warp has room, and one whose warp has none
    ∧ (let s := imaged (sSave (fun w => { w with saved := true }))
       imageAt s 0 7 = some 1024 ∧ hits (Map.get? s.warps 1024) (fun w => (placeWarp s 0 1024 w).isSome
         && hits (Map.get? s.coreGroups (w.cgu * 8 + w.k)) (fun c => !c.saved && (recOf s w.cgu).isSome
         && (Map.get? s.quadGroups ((w.cgu * 8 + w.k) * 4 + w.j)).isSome)) = true)
    ∧ (imageAt sWide 0 7 = some 1024 ∧ hits (Map.get? sWide.warps 1024) (fun w => (placeWarp sWide 0 1024 w).isNone) = true
      ∧ mustReturn { sWide with threads := [] } 0 1024 = false)
    ∧ imageAt (sSave id) 0 7 = none := by
  refine ⟨⟨by decide, by decide, by decide, by decide, by unfold NoMigration; decide, by decide, ?_, by decide, ?_, by decide, by decide⟩,
    ⟨_, rfl, by unfold WindowEnded; decide, by unfold WindowEnded; decide⟩, by decide, by decide, by decide, by decide, by decide⟩
  · intro i u h
    simp only [pickSlot, drawWord] at h
    split at h
    · cases h
    · simp only [Option.some.injEq, Prod.mk.injEq] at h
      obtain ⟨-, rfl⟩ := h
      exact saved_ok (by decide)
  · have h := (Config.extraSlots (sSave (fun w => { w with preq := some false })).fresh).isLt
    have hs : (partOf (sSave (fun w => { w with preq := some false })) 0).saveSlots.toNat = 65536 := by decide
    have hi : (partOf (sSave (fun w => { w with preq := some false })) 0).images = [] := by decide
    simp only [slotsFree, hs, hi, List.all_nil, Bool.and_true, decide_eq_true_eq]
    omega

/-- The image's warp waits for another warp's place, which `f` changes; both are runnable and of class 1. -/
def sTwoWarps (f : Warp → Warp) : State :=
  let s := withLaunch (fun l => { l with cls := 1, r := { l.r with alloc := 100000 } }) (imaged (sSave (fun w => { w with saved := true })))
  { s with
    threads := [(k0, { tMem 0 with st := .entry }), (threadKey 1 32, { newThread 1 0 0 0 0 32 rec0 true with st := .entry })],
    warps := s.warps ++ s.warps.map (fun e => (1025, f { e.2 with w := 1, slot := 1, saved := false })) }

theorem witness_RoomIsMade :
    (let s := sTwoWarps id
     imageAt s 0 7 = some 1024 ∧ mustReturn s 0 1024 = true
     ∧ hits (Map.get? s.warps 1024) (fun w => (placeWarp s 0 1024 w).isNone && hits (Map.get? s.coreGroups (w.cgu * 8 + w.k)) (fun c =>
         hits (lowestOf (warpThreads s 1024)) (fun t => !makingRoom s 0 (makesRoom s 0 w c) && (victimFor s 0 t (makesRoom s 0 w c)).isSome))) = true)
    ∧ (let s := sTwoWarps (fun w => { w with preq := some true })
       hits (Map.get? s.warps 1024) (fun w => (placeWarp s 0 1024 w).isNone && hits (Map.get? s.coreGroups (w.cgu * 8 + w.k)) (fun c =>
         makingRoom s 0 (makesRoom s 0 w c))) = true) := by decide

/-- A stopped warp that fills the partition's save slots, of whose memory die 1 holds a line while its link sleeps. -/
def sSaveFar : State :=
  let s := sSave (fun w => { w with preq := some true })
  farLine (0x800000 / 128) (setPart { s with threads := s.threads.map (fun e => (e.1, { e.2 with stop := .whole })) } 0
    (fun q => { q with saveSlots := BitVec.ofNat _ (1 + (Config.extraSlots s.fresh).toNat) }))

theorem witness_SaveWaits :
    (∀ a n, rangeSilent (sSave (fun w => { w with preq := some false })) none a n true = none)
    ∧ hits (Map.get? sSaveFar.warps 1024) (fun w => w.preq.isSome && !w.saved && cgPart sSaveFar w.cgu == 0) = true ∧ warpThreads sSaveFar 1024 ≠ []
    ∧ (warpThreads sSaveFar 1024).all (fun e => e.2.stop != .running) = true ∧ NoMigration sSaveFar ∧ warpHeld sSaveFar 1024 = false
    ∧ (∃ u, pickSlot sSaveFar (partOf sSaveFar 0) (1 + (Config.extraSlots sSaveFar.fresh).toNat) = some (0, u))
    ∧ rangeSilent sSaveFar none ((partOf sSaveFar 0).saveBase.toNat + 2 ^ 17 * 0) (2 ^ 17 * (1 + (Config.extraSlots sSaveFar.fresh).toNat)) true = some 1 := by
  have hx := (Config.extraSlots State.reset.fresh).isLt
  have hn : (partOf sSaveFar 0).saveSlots.toNat = 1 + (Config.extraSlots State.reset.fresh).toNat := by
    show (BitVec.ofNat _ _).toNat = _
    rw [BitVec.toNat_ofNat]
    exact Nat.mod_eq_of_lt (by omega)
  have hi : (partOf sSaveFar 0).images = [] := rfl
  have hf : sSaveFar.fresh = State.reset.fresh := rfl
  refine ⟨fun a n => rfl, by decide, by decide, by decide, by unfold NoMigration; decide, by decide, ?_, ?_⟩
  · have hs : ∀ i, slotsFree (partOf sSaveFar 0) i (1 + (Config.extraSlots State.reset.fresh).toNat) = decide (i = 0) := by
      intro i
      simp only [slotsFree, hn, hi, List.all_nil, Bool.and_true, decide_eq_decide]
      omega
    have hl : (List.range (1 + (Config.extraSlots State.reset.fresh).toNat)).filter (fun i => decide (i = 0)) = [0] := by
      rw [Nat.add_comm, List.range_succ_eq_map]
      simp [List.filter_map, Function.comp_def]
    simp only [pickSlot, hf, hn, hs, hl]
    exact ⟨(drawWord sSaveFar).2, by simp [drawWord, Nat.mod_one]⟩
  · have hb : (partOf sSaveFar 0).saveBase.toNat = 0x800000 := by decide
    have hl : heldLines sSaveFar 0x800000 (2 ^ 17 * (1 + (Config.extraSlots State.reset.fresh).toNat)) = [0x800000 / 128] := by
      have h : sSaveFar.mem.l1.map (fun e => l1Line e.1) ++ sSaveFar.coreGroups.flatMap (fun e => e.2.slines.map (fun l => l.2.line))
          ++ sSaveFar.mem.partials.map (fun p => lineOf p.pa) = [0x800000 / 128] := by decide
      simp only [heldLines, h, List.filter_cons, List.filter_nil]
      rw [if_pos (by simp only [Bool.and_eq_true, decide_eq_true_eq]; omega)]
      rfl
    simp only [rangeSilent, hf, hb, Nat.mul_zero, Nat.add_zero, hl]
    decide

/-- Partition 0 with migration registers. -/
def sMig (src dst : DWord) (sz : BitVec 3) (st : MigSt) (held : List Held) : State :=
  setPart (sMem 0) 0 (fun q => { q with migSrc := src, migDst := dst, migSize := sz, migSt := st, runSrc := src, runDst := dst, runSize := sz, held := held })
def key1 : DWord := 1 <<< 53
/-- A request on frame f, and a window whose 256 chunks are attached. -/
def sShadow (op f : Nat) : State :=
  let s := setPart (sMem 0) 0 (fun q => { q with shadowReq := BitVec.ofNat 64 (f * 2 ^ 21 + op), shadowBusy := true })
  { s with mem := { s.mem with windows := [(0, ⟨2 ^ 41, 2 ^ 30, false⟩)], chunks := (2, 0) :: (List.range 256).map (fun i => (2 ^ 20 + i, 1)) } }

theorem only_stores {s : State} (p : Nat) (h : (partOf s p).held.all isStore = true)
    (h1 : s.parts.all (fun e => e.1 == p || (e.2.migSt != .copying && e.2.migSt != .ready && e.2.migSt != .landing)) = true)
    (h2 : s.mem.withdrawn = []) (h3 : s.mem.portsOut = []) (h4 : s.parts.all (fun e => e.2.agents.all (fun a => !a.2.waits)) = true) :
    OnlyStores s p := by
  refine ⟨h, fun e he hp => ?_, fun a => by simp [withdrawn, h2, h3], fun e he a ha => ?_⟩
  · have := List.all_eq_true.mp h1 e he
    simp only [Bool.or_eq_true, beq_iff_eq, Bool.and_eq_true, bne_iff_ne, ne_eq, hp, false_or] at this
    exact ⟨this.1.1, this.1.2, this.2⟩
  · simpa using List.all_eq_true.mp (List.all_eq_true.mp h4 e he) a ha

theorem witness_MigrationResults :
    -- GO: size 7, alignment, one page twice, outside memory, without a chunk, and a good one
    (partOf (sMig 0 0 7 .idle []) 0).migSize = 7
    ∧ (let q := partOf (sMig 0x401000 0x400000 1 .idle []) 0; migPa q.migSrc % migBytes q.migSize.toNat ≠ 0)
    ∧ (let q := partOf (sMig 0x400000 0x400000 0 .done []) 0; migPa q.migSrc % 4096 = 0 ∧ migPa q.migSrc = migPa q.migDst)
    ∧ (let s := sMig 0x400000 (BitVec.ofNat 64 (2 ^ 45)) 0 .error []
       migPa (partOf s 0).migDst % 4096 = 0 ∧ inOneMemory s.mem (migPa (partOf s 0).migDst) 4096 = false)
    ∧ (let s := sMig 0x400000 0x600000 0 .idle []
       inOneMemory s.mem 0x400000 4096 = true ∧ inOneMemory s.mem 0x600000 4096 = true
       ∧ 0 % 2 ^ 21 = 0 ∧ hasChunk s.mem (migPa (partOf s 0).migSrc + 0) = true ∧ hasChunk s.mem (migPa (partOf s 0).migDst + 0) = false)
    ∧ (let s := sMig (0x400000 + key1) (0x401000 + key1) 0 .idle []
       (partOf s 0).migSt ≠ .copying ∧ (partOf s 0).migSt ≠ .ready ∧ hasChunk s.mem (migPa (partOf s 0).migSrc) = true
       ∧ hasChunk s.mem (migPa (partOf s 0).migDst) = true)
    -- a copy that ends
    ∧ (let s := sMig (0x400000 + key1) (0x401000 + key1) 0 .copying []
       (partOf s 0).migSt = .copying ∧ migPa (partOf s 0).runSrc % 4096 = 0 ∧ migPa (partOf s 0).runSrc + 4096 ≤ migPa (partOf s 0).runDst
       ∧ migPa (partOf s 0).runDst + 4096 ≤ Config.hostBase ∧ s.mem.partials = [] ∧ memWf s.mem.bytes = true
       ∧ (partOf s 0).held = [] ∧ migPa (partOf s 0).runSrc ≤ 32799 * 128 ∧ 32799 * 128 < migPa (partOf s 0).runSrc + 4096)
    ∧ OnlyStores (sMig (0x400000 + key1) (0x401000 + key1) 0 .ready [held0]) 0
    ∧ OnlyStores (sMig (0x400000 + key1) (0x401000 + key1) 0 .copying [held0]) 0
    ∧ (∀ e ∈ (sMig (0x400000 + key1) (0x401000 + key1) 0 .copying []).parts, ∀ a ∈ e.2.agents, a.2.waits = false)
    -- shadow requests: no memory, another's chunk, no free chunk, a free one
    ∧ ((partOf (sShadow 1 (2 ^ 30)) 0).shadowBusy = true ∧ frameMemory (sShadow 1 (2 ^ 30)) (2 ^ 30) = none)
    ∧ (hits (frameMemory (sShadow 1 (2 ^ 20)) (2 ^ 20)) (fun _ => true) = true ∧ Map.get? (sShadow 1 (2 ^ 20)).mem.chunks (2 ^ 20) = some 1)
    ∧ hits (frameMemory (sShadow 1 (2 ^ 20 + 256)) (2 ^ 20 + 256)) (fun m => decide (m.2.2 / 2 ^ 18 ≤
        (sShadow 1 (2 ^ 20 + 256)).mem.chunks.countP (fun e => decide (m.1 ≤ e.1 * 2 ^ 21 ∧ e.1 * 2 ^ 21 < m.1 + m.2.1)))) = true
    ∧ hits (frameMemory (sShadow 1 3) 3) (fun m => decide ((sShadow 1 3).mem.chunks.countP (fun e => decide (m.1 ≤ e.1 * 2 ^ 21 ∧ e.1 * 2 ^ 21 < m.1 + m.2.1))
        < m.2.2 / 2 ^ 18)) = true
    ∧ (partOf (sShadow 2 2) 0).shadowReq.toNat % 4 = 2 ∧ Map.get? (sShadow 2 2).mem.chunks 2 = some 0 := by
  refine ⟨by decide, by decide, by decide, by decide, by decide, by decide, by decide,
    only_stores 0 (by decide) (by decide) rfl rfl (by decide), only_stores 0 (by decide) (by decide) rfl rfl (by decide),
    by decide, by decide, by decide, by decide, by decide, by decide⟩

def sDirty : State := let s := sMem 0; { s with mem := { s.mem with dirty := [(32768, ())], keyOf := [(32768, 1)] } }

theorem witness_ErrorsAndFencing :
    (lineDirty sDirty 32768 = true ∧ lineOwner sDirty 32768 = some 0 ∧ lineDirty sDirty 32769 = false ∧ inPool sDirty.mem (32769 * 128) = false)
    -- two cached leaves of the line's frame, of 4 KiB and of 16 KiB; none
    ∧ (let big : TlbE := ⟨0, 0, 0x4000, 16384, 0x40013D, 0x104000, false⟩
       let s := { sDirty with mem := { sDirty.mem with tlb := [⟨0, 0, 0, 4096, 0x40013D, 0x104000, false⟩, big] } }
       big ∈ s.mem.tlb ∧ leafOf 32768 big ∧ ∀ x ∈ s.mem.tlb, leafOf 32768 x → x ≠ big → x.size < big.size)
    ∧ (∀ e ∈ sDirty.mem.tlb, ¬leafOf 32768 e)
    -- a page that a withdrawn line meets
    ∧ (let s := { sMem 0 with mem := { mem0 with withdrawn := [(0x400F80, 128)] } }
       (match translateLeaf s who0 0x10 .read with
        | (.ok l, u) => u.mem.withdrawn.any (fun f => decide (f.1 < ptePa l.pte + l.size ∧ ptePa l.pte < f.1 + f.2))
        | _ => false) = true)
    -- cells of storage
    ∧ ((getThread sDirty k0).isSome = true ∧ (Map.get? sDirty.warps 1024).isSome = true
      ∧ hits (getQueue sA 32 2) (fun q => q.entries[0]?.isSome) = true
      ∧ (Map.get? sDirty.coreGroups 8).isSome = true ∧ 4 * 959 < scratchSize sDirty (8 / 8)
      ∧ hits (Map.get? { sDirty with coreGroups := Map.adjust sDirty.coreGroups 8 (fun c => { c with slines := [(0, ⟨true, 5, false⟩)] }) }.coreGroups 8)
          (fun c => (Map.get? c.slines 0).isSome) = true)
    -- a fenced cluster with a cluster group on it
    ∧ (1 ∈ groupsOn sDirty 0 ∧ (Map.get? sDirty.clusterGroups 1).isSome = true ∧ WarpsNamed sDirty 1)
    -- cluster 127 of partition 3; no core group stands there
    ∧ (let s := setPart sDirty 3 (fun q => { q with clumask := 1 <<< 127 })
       (partOf s 3).clumask.getLsbD 127 = true ∧ (∀ q < 3, (partOf s q).clumask.getLsbD 127 = false) ∧ (∀ e ∈ s.coreGroups, e.2.core / 4 ≠ 127))
    ∧ (7 < 8 ∧ 127 / 16 = 7 ∧ 8191 / 1024 % 8 = 7 ∧ 11 < 12) ∧ (128 ≤ 128 ∧ 0xFF < 0x100 ∧ 0x108 ≤ 0x1FF ∧ 0x2FF < 0x300 ∧ 0x30C ≤ 0x30C)
    ∧ (dieOf sDirty 7).fenced = false ∧ (dieOf (fenceDie0 sDirty) 0).fenced = true
    -- masks that meet another's, shrink, and are new
    ∧ (let s := setPart sDirty 3 (fun q => { q with clumask := 3 })
       (partOf s 3).clumask &&& 1 ≠ 0 ∧ (∀ q < 4, q ≠ 3 → (partOf s q).clumask &&& 1 = 0) ∧ (partOf s 3).clumask ≠ 0 ∧ (partOf s 3).clumask &&& ~~~3 = 0)
    -- a thread, and a decline, on a cluster that leaves
    ∧ (let s := setPart sDirty 0 (fun q => { q with clumask := 1 })
       ((partOf s 0).clumask &&& ~~~0).getLsbD 0 = true ∧ hits (getThread s k0) (fun t => threadPart s t == 0 && coreOf s t / 4 == 0) = true)
    ∧ (let s := setIsland sDirty 5 (fun x => { x with decline := some 0 })
       ((partOf s 0).clumask ^^^ 0x20).getLsbD 5 = true ∧ (islandOf s 5).decline ≠ none)
    -- a partition that is created, with a key, beside another
    ∧ (let s := setPart sDirty 3 (fun q => { q with clumask := 2 })
       (∀ q < 4, q ≠ 2 → (partOf s q).clumask &&& 1 = 0) ∧ (partOf s 2).clumask = 0 ∧ (∀ c < 128, (islandOf s c).decline = none)
       ∧ (∀ e ∈ s.mem.keys, e.2.owner ≠ some 2) ∧ firstKey s 0 = some 1 ∧ (partOf s 3).clumask ≠ 0)
    ∧ (2047 < 2048 ∧ Map.get? sDirty.mem.keyOf 32768 = some 1 ∧ ∀ e ∈ sDirty.parts, ∀ h ∈ e.2.held, underKey 1 h = false) := by
  refine ⟨by decide, ?_, fun _ h => (by cases h), by decide, by decide, ⟨by decide, by decide, ?_⟩, by decide, by decide, by decide, by decide, by decide,
    by decide, by decide, by decide⟩
  · simp only [leafOf]
    decide
  · intro e he _
    have ht : sDirty.threads = [(k0, tMem 0)] := rfl
    rw [ht] at he
    obtain rfl : e = (k0, tMem 0) := by simpa using he
    exact ⟨_, rfl, rfl⟩

/-- An open entry of slice 0 and line 0 that two clusters have joined, at a clock. -/
def sComb (now : DWord) : State := { sR with clock := now, pkg := { sR.pkg with combs := [⟨0, 0, 1, [0, 3], 0, true⟩] } }
/-- Partition 1 owns cluster 2, whose island is as `f` says. -/
def sOwn (f : Island → Island) : State := setIsland (setPart sR 1 (fun q => { q with clumask := 4 })) 2 f

/-- A line of the ranges, or of a key, that a sleeping die holds; an inbound line of a key that is emptied. -/
theorem witness_DiesAnswerFirst :
    (let s := farLine 32768 (sMig (0x400000 + key1) (0x401000 + key1) 0 .copying [])
     migSilent s (partOf s 0) false = some 1 ∧ migSilent s (partOf s 0) true = some 1)
    ∧ (let s := sMig (0x400000 + key1) (0x401000 + key1) 0 .copying []
       migSilent s (partOf s 0) false = none ∧ migSilent s (partOf s 0) true = none)
    ∧ (let s := { sComb 0 with parts := [] }
       ∃ e ∈ (closeCombs s { Part.reset with migSt := .copying, runSrc := 0x0 }).pkg.combs, inRun { Part.reset with migSt := .copying, runSrc := 0x0 } (e.line * 128) = true)
    ∧ (keySilent (farLine 32768 sDirty) 1 = some 1 ∧ keySilent sDirty 1 = none)
    ∧ (let s := farLine 32768 (setPart sDirty 0 (fun q => { q with clumask := 0 }))
       createAsks s 0 = some 1 ∧ createAsks sDirty 0 = none ∧ sDirty.boot.mode ≠ 3 ∧ (partOf s 0).clumask = 0
       ∧ (∀ q < 4, q ≠ 0 → (partOf s q).clumask &&& 1 = 0) ∧ (∀ c < 128, (islandOf s c).decline = none)) := by decide

theorem witness_PackageResults :
    -- an entry that is old enough to close, and one that is not
    hits ((sComb 64).pkg.combs.find? (fun e => e.slice == 0 && e.line == 0 && decide (64 ≤ ((sComb 64).clock - e.since).toNat))) (fun _ => true) = true
    ∧ (sComb 63).pkg.combs.find? (fun e => e.slice == 0 && e.line == 0 && decide (64 ≤ ((sComb 63).clock - e.since).toNat)) = none
    ∧ lineDirty sDirty 32768 = true ∧ lineDirty sDirty 0 = false
    ∧ (7 < 8 ∧ (dieOf sR 7).fenced = false ∧ (dieOf (setDie sR 7 (fun d => { d with asleep := true })) 7).asleep = true
      ∧ (dieOf (setDie sR 7 (fun d => { d with asleep := true, waking := true })) 7).waking = true ∧ (dieOf sR 7).asleep = false
      ∧ ∀ e ∈ sR.parts, ∀ a ∈ (partOf sR e.1).agents, a.2.waits = false)
    -- CUR at the upper threshold, at the lower one, between them
    ∧ (15 < 16 ∧ sR.pkg.congCfg.toNat % 256 ≤ (0xC0 : BitVec 8).toNat ∧ (0x80 : BitVec 8).toNat < sR.pkg.congCfg.toNat % 256
      ∧ (0x80 : BitVec 8).toNat ≤ sR.pkg.congCfg.toNat / 256 % 256 ∧ sR.pkg.congCfg.toNat / 256 % 256 < (0x81 : BitVec 8).toNat)
    ∧ (127 < 128 ∧ (7 : Word).toNat < 8 ∧ 8 ≤ (8 : Word).toNat ∧ sR.boot.mode ≠ 3 ∧ { sR with boot := { sR.boot with mode := 3 } }.boot.mode = 3
      ∧ hostPending sR = false ∧ hostPending { sR with host := { sR.host with recBusy := true } } = true)
    ∧ ((partOf (sOwn id) 1).clumask.getLsbD 2 = true ∧ (partOf (sOwn id) 0).clumask.getLsbD 2 = false)
    ∧ owns (sOwn id) 1 2 ∧ (islandOf (sOwn (fun x => { x with ramp := some (6, true) })) 2).ramp.isSome = true ∧ (islandOf (sOwn id) 2).ramp.isSome = false
    -- a tick that the slope allows, and one that it holds
    ∧ (islandOf (sOwn id) 2).level ≤ 10 * 0 + (sOwn id).pkg.slope.toNat
    ∧ 10 * 0 + (sOwn id).pkg.slope.toNat < (islandOf (sOwn (fun x => { x with level := 201 })) 2).level
    ∧ (∀ p < 4, (partOf sR p).clumask.getLsbD 0 = false) := by
  refine ⟨by decide, by decide, by decide, by decide, by decide, by decide, by decide, by decide, ?_, by decide, by decide, by decide, by decide, by decide⟩
  exact ⟨by decide, by decide, by decide⟩

/-- A copy to device 5. -/
def copy0 : CopyDesc := ⟨0x400000, 128, ⟨5, 0, 0, 0, []⟩⟩
/-- The host's key is 1; a pool window that is shared, an inbound window from device 9, a ring with slot 0 in flight to device 5, a
link to device 9. -/
def sHost (recAddr : Nat) (d1 : DWord) : State :=
  let s := { sMem 0 with mem := wr 0x500008 (leBytes 8 (128 + 5 * 2 ^ 32)) (wr 0x500000 (leBytes 8 0x400000) mem0) }
  { s with
    host := { s.host with hostKey := 1, recAddr := BitVec.ofNat 64 recAddr, recData1 := d1, rings := [(0, ⟨0x500000, 0x80000004, 3, 1, [], [(0, copy0)]⟩)],
                          links := [(11, (true, false, 9))] },
    mem := { s.mem with windows := [(3, ⟨2 ^ 41, 2 ^ 30, true⟩)], inWindows := [(0, ⟨0x400000, 0x1000, 1, 9⟩)], withdrawn := [(0x2000, 0x1000)],
                        keyOf := [(32769, 2)] },
    boot := { s.boot with mode := 2 } }
/-- A write of the host is held, of agent `a`. -/
def hostHeld (a : Agent) (s : State) : State := setPart s 1 (fun q => { q with held := [{ held0 with next := some (0, a) }] })

/-- The HDM window: the first shadow byte, a withdrawn frame, the last word below the shadow space, a locked page. -/
theorem witness_HostResults :
    (let s := sHost 0 0
     (2 ^ 40 - 2 ^ 36) % 4 = 0 ∧ 2 ^ 40 - 2 ^ 36 < 2 ^ 40 ∧ withdrawn s.mem 0x2000 = true
     ∧ (2 ^ 40 - 2 ^ 36 - 4) % 4 = 0 ∧ withdrawn s.mem (2 ^ 40 - 2 ^ 36 - 4) = false ∧ holdOf s (2 ^ 40 - 2 ^ 36 - 4) = none
     ∧ withdrawn s.mem 0x400004 = false ∧ holdOf (lockPage 0x400000 s) 0x400004 = some 1
     ∧ (2 ^ 40 - 2 ^ 36 - 4) + 4 ≤ 2 ^ 40 - 2 ^ 36 ∧ unlocked s = true ∧ rangeSilent s none (2 ^ 40 - 2 ^ 36 - 4) 4 true = none
     ∧ rangeSilent s none (2 ^ 40 - 2 ^ 36 - 4) 4 false = none
     ∧ (∀ i < 4, withdrawn s.mem (2 ^ 40 - 2 ^ 36 - 4 + i) = false)
     ∧ 0 < 4 ∧ (2 ^ 40 - 2 ^ 36 - 4) / 128 = (2 ^ 40 - 2 ^ 36 - 1) / 128
     ∧ s.boot.mode ≠ 3 ∧ 3 < 4 ∧ 15 < 16 ∧ 127 < 128)
    -- nothing pends; a posted write pends; the port is busy
    ∧ (hostPending (sHost 0 0) = false ∧ hostPending (hostHeld .posted (sHost 0 0)) = true ∧ heldFor (hostHeld .posted (sHost 0 0)) 0 .posted = true
      ∧ heldFor (hostHeld .hdm (sHost 0 0)) 0 .hdm = true ∧ [(1 : Byte)] ≠ [])
    -- a die whose link sleeps holds the line that is read, written or copied to
    ∧ (rangeSilent (farLine 32769 (sHost 0 0)) none 0x400080 4 true = some 1 ∧ rangeSilent (farLine 32769 (sHost 0 0)) none 0x400080 4 false = some 1
      ∧ rangeSilent (farLine 32799 (sHost 0 0)) none (0x400000 + 0xF80) (4 * 32) true = some 1)
    ∧ (silentDie (farLine 32768 (sHost 0x400000 0)) none (0x400000 / 128) false = some 1
      ∧ silentDie (farLine 32768 (sHost 0x400000 0)) none (0x400000 / 128) true = some 1 ∧ hostPending (farLine 32768 (sHost 0x400000 0)) = false)
    ∧ (RecOpen (sHost 0x400000 0) false ∧ RecOpen (sHost 0x400000 0) true)
    -- the record port: no record, reserved bits, another key, a good line, a locked one
    ∧ (recVerdict (sHost 0x600000 0) false = 1 ∧ recVerdict (sHost 0x400000 (1 <<< 40)) true = 3 ∧ recVerdict (sHost 0x400080 0) false = 2
      ∧ recVerdict (sHost 0x400000 0) true = 0 ∧ holdOf (sHost 0x400000 0) 0x400000 = none ∧ recVerdict (sHost 0x400000 0) false = 0
      ∧ lockOf (sHost 0x400000 0) 0x400000 = none)
    ∧ (recVerdict (lockPage 0x400000 (sHost 0x400000 0)) true = 0 ∧ holdOf (lockPage 0x400000 (sHost 0x400000 0)) 0x400000 = some 1
      ∧ (sHost 0x400000 0).host.recAddr.toNat / 128 * 128 = 0x400000)
    -- windows: the lowest and the highest place beside window 3, and lines of a shared window and of the host's memory
    ∧ (15 < 16 ∧ 2 ^ 40 % 2 ^ 30 = 0 ∧ 2 ^ 40 + 2 ^ 30 ≤ 2 ^ 41 ∧ 2 ^ 51 - 2 ^ 30 + 2 ^ 30 ≤ 2 ^ 51 ∧ 2 ^ 41 + 2 ^ 30 ≤ 2 ^ 51 - 2 ^ 30
      ∧ ∀ e ∈ (sHost 0 0).mem.windows, e.1 ≠ 15 → 2 ^ 40 + 2 ^ 30 ≤ e.2.base ∨ e.2.base + e.2.size ≤ 2 ^ 40 ∨ e.2.size = 0)
    ∧ (inSharedWindow (sHost 0 0).mem (2 ^ 34 * 128) = true ∧ inSharedWindow (sHost 0 0).mem 0 = false)
    ∧ (2 ^ 51 ≤ 2 ^ 44 * 128 ∧ (2 ^ 45 - 1) * 128 < 2 ^ 52 ∧ (2 ^ 44 - 1) * 128 < 2 ^ 51)
    -- snoops answered at once, behind another of the line, and by a sleeping die
    ∧ (SnoopOpen (sHost 0 0) ⟨true, 2 ^ 34, false, none⟩ ∧ SnoopOpen (sHost 0 0) ⟨false, 2 ^ 44, true, none⟩)
    ∧ (let s := sHost 0 0
       { s with host := { s.host with snoops := [⟨false, 2 ^ 44, true, none⟩] } }.host.snoops.any (fun x => x.line == 2 ^ 44) = true)
    ∧ ((farLine (2 ^ 44) (sHost 0 0)).host.snoops.any (fun x => x.line == 2 ^ 44) = false
      ∧ snoopSilent (farLine (2 ^ 44) (sHost 0 0)) ⟨false, 2 ^ 44, true, none⟩ = some 1)
    -- slots in flight to a device without a link and with one
    ∧ (let s := { sHost 0 0 with mem := { (sHost 0 0).mem with withdrawn := [] } }
       ((ringOf s 0).flight.find? (fun e => e.1 == 0) = some (0, copy0) ∧ (∀ e ∈ (ringOf s 0).flight, e.1 ≠ 1) ∧ heldFor s 0 (.copy 0) = false ∧ unlocked s = true ∧ s.mem.partials = []
        ∧ copyAsks s 0 0 copy0 = none ∧ copy0.goes.dst = 5 ∧ copyAsks (farLine 32768 s) 0 0 copy0 = some 1
        ∧ heldFor (setPart s 1 (fun q => { q with held := [{ held0 with next := some (0, .copy 0) }] })) 0 (.copy 0) = true)
       -- a ring that is enabled, a tail within it, and one that is not enabled
       ∧ ((ringOf s 0).cfg.msb = true ∧ (ringOf s 0).seen = [] ∧ (4 : Word).toNat < 2 ^ ((ringOf s 0).cfg.toNat % 16) ∧ (ringOf s 1).cfg.msb = false)
       ∧ ((11 < 12 ∧ (linkOf s 11).1 = true ∧ (linkOf s 11).2.1 = false ∧ (linkOf s 11).2.2.toNat = 9)
        ∧ ∀ l < 12, (linkOf s l).1 = true → (linkOf s l).2.1 = false → (linkOf s l).2.2.toNat ≠ 5))
    -- an inbound copy that ends with its window, and one from another device
    ∧ (Map.get? (sHost 0 0).mem.inWindows 0 = some ⟨0x400000, 0x1000, 1, 9⟩ ∧ takesCopy (sHost 0 0) ⟨0x400000, 0x1000, 1, 9⟩ 9 0xF80 32 = true
      ∧ takesCopy (sHost 0 0) ⟨0x400000, 0x1000, 1, 9⟩ 5 0xF80 32 = false
      ∧ heldFor (sHost 0 0) 0 (.land (sHost 0 0).host.nextLand) = false ∧ unlocked (sHost 0 0) = true
      ∧ rangeSilent (sHost 0 0) none (0x400000 + 0xF80) (4 * 32) true = none) := by
  refine ⟨by decide, by decide, by decide, by decide, by unfold RecOpen; decide, by decide, by decide, by decide, by decide, by decide,
    by unfold SnoopOpen; decide, by decide, by decide, by decide, by decide⟩

/-- The boot block in recovery with an image of one byte. -/
def sBoot (mode : BitVec 2) (fails : BitVec 2) (busy : Bool) (n : Word) : State :=
  let s := State.reset
  { s with boot := { s.boot with mode := mode, fails := fails, busy := busy, recLen := n, flash := [1], recovery := [(0, 1)] } }

/-- Whether the flash can be read, and an image passes, is what the device's fuses and keys fix: of the two cases one holds. -/
theorem witness_StartResults :
    ((sBoot 0 3 false 0).mem.partials = [] ∧ (sBoot 0 3 false 0).boot.fails = 3 ∧ (sBoot 0 2 false 0).boot.fails ≠ 3 ∧ State.reset.boot.flash = [] ∧ (sBoot 0 0 false 0).boot.flash ≠ [])
    ∧ (∀ img, (∃ r, imageVerdict img = .error r) ∨ ∃ v, imageVerdict img = .ok v)
    ∧ (∀ n, Config.flashReadable n = true ∨ Config.flashReadable n = false)
    ∧ (sBoot 1 0 false 0).boot.mode = 1 ∧ (sBoot 0 0 false 0).boot.mode ≠ 1
    ∧ ((sBoot 3 0 true 1).boot.mode = 3 ∧ (sBoot 3 0 true 1).boot.busy = true ∧ 0 < (sBoot 3 0 true 1).boot.recLen.toNat
      ∧ (sBoot 3 0 true 0x1000000).boot.recLen.toNat ≤ 2 ^ 24 ∧ 2 ^ 24 < (sBoot 3 0 true 0x1000001).boot.recLen.toNat)
    ∧ (1 ≠ 0 ∧ 5 ∈ [1, 4, 5]) := by
  refine ⟨by decide, fun img => ?_, fun n => by cases Config.flashReadable n <;> simp, by decide, by decide, by decide, by decide⟩
  cases h : imageVerdict img with
  | error r => exact .inl ⟨r, rfl⟩
  | ok v => exact .inr ⟨v, rfl⟩

def tPl (i : Nat) : Thread := { newThread 1 0 0 0 0 i rec0 true with st := .grouped 2 }
/-- The agenda runs the slot of group 2, which holds a word. -/
def sIssue (w : DWord) : State := { stN 1 (fun _ t => t) with agenda := [.issue 2, .elapse 5], groups := [(2, grp 1 [w])] }
/-- The same for an instance. -/
def sTurret (w : DWord) : State :=
  { sSlice (fun c => { c with pass := some ⟨0x1000, clsStr, [w], 0⟩ }) with agenda := [.slice 32] }

/-- Two lanes at a word that names v40; lane 1's launch gives its threads 8 registers. -/
def sTwo (w : DWord) : State :=
  let s := { stN 2 (fun i t => { t with n := if i = 1 then 8 else t.n }) with agenda := [.issue 2], groups := [(2, grp 2 [w])] }
  s

theorem witness_StepRunsDecodedInstruction :
    (let s := sIssue 0x98070B0000000000
     let g := grp 1 [0x98070B0000000000]
     s.agenda = .issue 2 :: [.elapse 5] ∧ AtSlot s 2 g 0x98070B0000000000 ∧ groupAllocs s g = [⟨192, 128⟩]
     ∧ readAs g 0x98070B0000000000 ⟨192, 128⟩ = .ok (.gbar ⟨g7, 11⟩))
    -- a word that fits one lane's allocation alone, and one that is illegal in any
    ∧ (readAs (grp 2 [0]) 0x1A070C0000000005 ⟨192, 128⟩ = .ok (.movi ⟨g7, 12, 5⟩)
      ∧ misfits (sTwo 0x1A070C0000000005) (grp 2 [0x1A070C0000000005]) 0x1A070C0000000005 = [(threadKey 1 1, ⟨0, 5, 0x1A070C0000000005, 0⟩)])
    ∧ (AtSlot (sIssue 0x3F00000000000000) 2 (grp 1 [0x3F00000000000000]) 0x3F00000000000000
      ∧ groupAllocs (sIssue 0x3F00000000000000) (grp 1 [0x3F00000000000000]) = [⟨192, 128⟩]
      ∧ readAs (grp 1 [0]) 0x3F00000000000000 ⟨192, 128⟩ = .error .unassigned)
    -- no lane lost data; a lane whose operand register has
    ∧ (operandsRead (grp 1 [0]).hold = false ∧ storageFaults (sIssue 0) (grp 1 [0]) (.gbar ⟨g7, 11⟩) = [])
    ∧ (let s := { sIssue 0 with threads := [(k0, { tPl 0 with bad := [2] })] }
       storageFaults s (grp 1 [0]) (.popc ⟨g7, .b32, false, 1, 2⟩) = [(k0, ⟨14, 0, 2, 0⟩)])
    ∧ (let s := sTurret 0xDD07000000000000
       s.agenda = [.slice 32] ∧ hits (getSlice s 32) (fun x => sliceRuns s 32 x && x.pass == some ⟨0x1000, clsStr, [0xDD07000000000000], 0⟩) = true)
    ∧ legal clsStr true none 0xDD07000000000000 = .ok .sdone
    ∧ (leavers sR = [] ∧ sR.mem.inval = [])
    ∧ ({ sR with agenda := [.event .getVersion] } : State).agenda = [.event .getVersion]
    ∧ ({ sR with agenda := [.elapse 5] } : State).agenda = [.elapse 5] ∧ sR.agenda = [] := by
  refine ⟨⟨rfl, ⟨rfl, by decide, rfl, by simp [grp], by simp [grp], rfl⟩, by decide, by decide⟩, by decide,
    ⟨⟨rfl, by decide, rfl, by simp [grp], by simp [grp], rfl⟩, by decide, by decide⟩, by decide, by decide, by decide, by decide, by decide, rfl, rfl, rfl⟩

/-- Lane 1 of a MOVI reads lost data and lane 0 does not; a register that holds lost data; nothing that a step ends by itself. -/
theorem witness_LostLanes :
    let f : FInfo := ⟨14, 0, 2, 0⟩
    let s := { withMem mem0 (stN 2 (fun _ t => t)) with lost := [(threadKey 1 1, f)] }
    (curGroup s = some (2, g2 2) ∧ s.lost ≠ [] ∧ withLost s [] = [(threadKey 1 1, f)] ∧ faultsWait { s with lost := [] } (withLost s []) = false
      ∧ faultsAsk { s with lost := [] } (withLost s []) = none
      ∧ (getGroup s 2).any (fun x => x.hold == .queue) = false ∧ activeOf s (g2 2) g7 = [k0])
    ∧ ((tPl 0).frame = none ∧ 2 ∈ { tPl 0 with bad := [2] }.bad ∧ [2, 3].head? = some 2)
    ∧ s.warps.all (fun w => w.2.preq.isNone || w.2.saved) = true
    ∧ (∀ e ∈ s.parts, ∀ a ∈ (partOf s e.1).agents, a.2.waits = false) ∧ s.host.snoops = [] := by decide

theorem witness_EncodeThenDecode :
    let i : Instr := .wld ⟨⟨true, 3⟩, 7, 4, 0x3FFFF, .acq, .sys, 7, .pe, true, .f32⟩
    WellFormed i = true ∧ (∀ r v, i ≠ .illegalInstruction r v) ∧ (encode i).isSome = true := ⟨by decide, by intros; exact Instr.noConfusion, by decide⟩

theorem witness_DecodeThenEncode : ∃ i, decode 0x7007140200061F4B = .ok i := ⟨_, rfl⟩

theorem witness_PrivilegedWordsNeedSys :
    ((5 : BitVec 3).toNat < 6 ∧ legal 5 true (some ⟨192, 192⟩) 0xF107040000000020 = .ok (.movcRead ⟨g7, .ptRoot, 4⟩)
      ∧ 0xF0 ≤ (0xF107040000000020 : DWord).toNat / 2 ^ 56)
    ∧ (Header.ofWord 0xFF00000000000000).ok false false = true
    ∧ isOk (fetchClause (sEntry (0xFFA0 * 2 ^ 48) 0) who0 (quadHolders 0 0) 0x2100 false) = true
    ∧ majorAssigned 0x3F = false := by decide

def fs0 : List (Nat × FInfo) := [(k0, ⟨3, 0, 0x101, 4⟩), (threadKey 1 1, ⟨2, 1, 0x5000, 0⟩)]
/-- Two threads that fault; with trap base 0; without a free entry. -/
def sTrap (base frag : DWord) : State := setPart (withMem mem0 (stN 2 (fun _ t => t))) 0 (fun q => { q with trapbase := base, fragtab := frag })

theorem witness_faults : ∀ e ∈ fs0, e = (k0, ⟨3, 0, 0x101, 4⟩) ∨ e = (threadKey 1 1, ⟨2, 1, 0x5000, 0⟩) := fun e he => by
  simpa [fs0] using he

theorem witness_TrapEntry :
    FaultTogether (sTrap 0x10000 0x700000) fs0 (tPl 0) ∧ FaultTogether (sTrap 0 0x700000) fs0 (tPl 0) ∧ FaultTogether (sTrap 0x10000 0) fs0 (tPl 0)
    ∧ (sTrap 0x10000 0x700000).warps.all (fun w => w.2.gen.isNone) = true ∧ unlocked (sTrap 0x10000 0x700000) = true
    ∧ freeEntry (sTrap 0x10000 0x700000) 0 0 = some 0 ∧ freeEntry (sTrap 0 0x700000) 0 0 = some 0 ∧ freeEntry (sTrap 0x10000 0) 0 0 = none
    ∧ (∀ k ∈ fs0.map (·.1), hits (getThread (sTrap 0x10000 0) k) (fun u => u.hand == .none && decide (u.lane < 32)) = true)
    ∧ (partOf (sTrap 0x10000 0x700000) 0).fragtab.toNat % 1024 = 0
    ∧ trapBase (sTrap 0x10000 0x700000) (tPl 0) 2 = (0x10000, false) ∧ (trapBase (sTrap 0 0x700000) (tPl 0) 2).1 = 0
    ∧ ownPlace (sTrap 0x10000 0x700000) fs0 k0 (tPl 0) := by
  have go : ∀ b f, (∀ i ∈ [0, 1], getThread (sTrap b f) (threadKey 1 i) = some (tPl i)) → FaultTogether (sTrap b f) fs0 (tPl 0) := by
    intro b f h
    refine ⟨⟨_, _, rfl, h 0 (by decide)⟩, by decide, fun e he => ?_⟩
    rcases witness_faults e he with rfl | rfl
    · exact ⟨tPl 0, h 0 (by decide), rfl, rfl, rfl⟩
    · exact ⟨tPl 1, h 1 (by decide), rfl, rfl, rfl⟩
  refine ⟨go _ _ (by decide), go _ _ (by decide), go _ _ (by decide), by decide, by decide, by decide, by decide, by decide, by decide, by decide,
    by decide, by decide, fun e he hk u hu => ?_⟩
  rcases witness_faults e he with rfl | rfl
  · exact absurd rfl hk
  · have : getThread (sTrap 0x10000 0x700000) (threadKey 1 1) = some (tPl 1) := by decide
    rw [this] at hu
    cases hu
    decide

theorem witness_AdvanceFrame :
    (getGroup sR 2 = some (g2 4) ∧ (g2 4).pass.slot + 1 < (g2 4).pass.words.length)
    ∧ (let s := { stN 2 (fun _ t => t) with groups := [(2, grp 2 [0])] }
       getGroup s 2 = some (grp 2 [0]) ∧ (grp 2 [0]).pass.words.length ≤ (grp 2 [0]).pass.slot + 1 ∧ (grp 2 [0]).waits = [] ∧ k0 ∈ (grp 2 [0]).members
       ∧ (getThread s k0).isSome = true ∧ s.warps.all (fun w => w.2.gen.isNone) = true) := by decide

theorem witness_RegisterFrame :
    dests (.ffma ⟨g7, .f64, .gov, .rne, false, m0, 10, 2, 4, 6⟩) = some [10, 11] ∧ At (sF 2) 2 (g2 2)
    ∧ (checksBudget (.ffma ⟨g7, .f64, .gov, .rne, false, m0, 10, 2, 4, 6⟩) = true
      ∧ ∀ k ∈ (g2 2).members, ∀ x, getThread (sF 0xFF000001) k = some x → budMode x.bud = 1 → ∀ b, breaches x.bud b = false)
    ∧ goes (exec (.ffma ⟨g7, .f64, .gov, .rne, false, m0, 10, 2, 4, 6⟩) (sF 2)) = true
    -- a lane that traps
    ∧ goes (exec (.fmul ⟨g7, .f32, .gov, .rne, false, m0, 1, 2, 3⟩) (sF 1)) = true := by
  refine ⟨rfl, (at_of rfl rfl), ⟨rfl, fun k hk x hx _ b => ?_⟩, by decide, by decide⟩
  have h : x.bud = 0xFF000001 := by
    simpa using onAll (s := sF 0xFF000001) (ks := (g2 2).members) (p := fun x => decide (x.bud = 0xFF000001)) (by decide) k hk x hx
  rw [h]
  simp only [breaches, show bdOf (budB 0xFF000001) = none from by decide]
  cases bdOf b <;> rfl

/-- A state with an update-only partial, cached leaves of 4 and of 16 KiB, and a cached table entry. -/
def sCached (w : DWord) : State :=
  let s := withMem mem0 (sIssue w)
  { s with mem := { s.mem with
      partials := [⟨0, 0x400078, 1, true, .add, .n64, 5, 0⟩],
      tlb := [⟨0, 0, 0x1000, 4096, 0x40106D, 0x104008, false⟩, ⟨512, 0, 0x8000, 16384, 0x40416D, 0x104040, false⟩],
      tabs := [⟨0, 0, 0x103000, 0, 2 ^ 21, 0x104003⟩] } }

theorem witness_SoundnessIsKept : Sound (sCached 0x98070B0000000000) ∧ goes (step (sCached 0x98070B0000000000)) = true :=
  ⟨⟨by unfold MemOk; decide, by decide, by decide, by decide⟩, by decide⟩

theorem witness_HandlerModesAreKept :
    let s := { sIssue 0x98070B0000000000 with threads := [(k0, { tPl 0 with hand := .system })] }
    HandlerModes s ∧ goes (step s) = true := by
  refine ⟨fun e he => ?_, by decide⟩
  obtain rfl : e = (k0, { tPl 0 with hand := .system }) := by simpa using he
  decide

/-! ## Results from the manual's worked examples and tables -/

def ran (o : Host.Outcome State Fault Refusal) (s : State) : State := match o with
  | .next t => t
  | _ => s
/-- Register r of lane i after an instruction: value and shadow. -/
def regAfter (i : Instr) (s : State) (lane r : Nat) : Option (Word × BitVec 16) :=
  (getThread (ran (exec i s) s) (threadKey 1 lane)).map (fun t => ((getReg t r).val, (getReg t r).shadow))
def flagsAfter (i : Instr) (s : State) (lane : Nat) : Option Byte := (getThread (ran (exec i s) s) (threadKey 1 lane)).map (·.flags)
/-- One lane with v2 and v3. -/
def two (a b : Nat) : State := stN 1 (fun _ t => rg 3 b (rg 2 a t))

/-- Table 8-4. -/
theorem test_int_borderline_add :
    regAfter (.iadd ⟨g7, .s32, true, 1, 2, 3⟩) (two 0x7FFFFFF0 0x20) 0 1 = some (0x7FFFFFFF, 0)
    ∧ flagsAfter (.iadd ⟨g7, .s32, true, 1, 2, 3⟩) (two 0x7FFFFFF0 0x20) 0 = some 0x80
    ∧ regAfter (.iadd ⟨g7, .s32, false, 1, 2, 3⟩) (two 0x7FFFFFF0 0x20) 0 1 = some (0x80000010, 0)
    ∧ flagsAfter (.iadd ⟨g7, .s32, false, 1, 2, 3⟩) (two 0x7FFFFFF0 0x20) 0 = some 0 := by decide

theorem test_int_borderline_rest :
    regAfter (.imulh ⟨g7, .s32, false, 1, 2, 3⟩) (two 0x80000000 2) 0 1 = some (0xFFFFFFFF, 0)
    ∧ regAfter (.iabs ⟨g7, .s32, false, 1, 2⟩) (two 0x80000000 0) 0 1 = some (0x80000000, 0)
    ∧ regAfter (.iabs ⟨g7, .s32, true, 1, 2⟩) (two 0x80000000 0) 0 1 = some (0x7FFFFFFF, 0)
    ∧ flagsAfter (.iabs ⟨g7, .s32, true, 1, 2⟩) (two 0x80000000 0) 0 = some 0x80
    ∧ regAfter (.sar ⟨g7, .s32, false, 1, 2, 3⟩) (two 0x80000000 40) 0 1 = some (0xFFFFFFFF, 0)
    ∧ regAfter (.shr ⟨g7, .b32, false, 1, 2, 3⟩) (two 0x80000000 40) 0 1 = some (0, 0)
    ∧ regAfter (.bfx ⟨g7, .s32, false, 1, 2, 3⟩) (two 0xF0F0 0x808) 0 1 = some (0xFFFFFFF0, 0)
    ∧ regAfter (.bfx ⟨g7, .n32, false, 1, 2, 3⟩) (two 0xF0F0 0x808) 0 1 = some (0xF0, 0)
    ∧ regAfter (.clz ⟨g7, .b32, false, 1, 2⟩) (two 0 0) 0 1 = some (32, 0) := by decide

/-- R169: the truth table 0x80 is the conjunction. -/
theorem test_plog_and : ∀ p : BitVec 7,
    ((getThread (ran (exec (.plog ⟨g7, 3, 0, 1, 2, 0x80⟩) (stN 1 (fun _ t => { t with preds := p }))) sR) k0).map (fun t => t.preds.getLsbD 3))
      = some (p.getLsbD 0 && p.getLsbD 1 && p.getLsbD 2) := by decide

/-- Table 3-4. -/
theorem test_bnd16_values :
    upDy ⟨1, -12⟩ = 0x7300 ∧ upBd (fvMag (f32Of 0x3DCCCCCD)) = 0x7B9A ∧ upDy ⟨1, -130⟩ = 0x0010 ∧ upDy ⟨1, -140⟩ = 0x0001
    ∧ upDy ⟨3, 127⟩ = 0xFF00 ∧ bdOf 0x0001 = some ⟨1, -134⟩ := by decide

/-- Table 4-4: an FMUL of four lanes with B = 2^-10, mode 1 and h = 1. -/
def sTier : State :=
  let r (i : Nat) : Machine.Reg × Machine.Reg := match i with
    | 0 => (⟨0x3C000000, 0⟩, ⟨0x3F400000, 0⟩)
    | 1 => (⟨0x3FC00000, 0⟩, ⟨0x3FA00000, 0⟩)
    | 2 => (⟨0x40400000, 0x7100⟩, ⟨0x40000000, 0⟩)
    | _ => (⟨0x40400000, 0x7600⟩, ⟨0x40000000, 0⟩)
  withMem mem0 (stN 4 (fun i t => { setReg (setReg t 1 (r i).1) 2 (r i).2 with bud := 0x75000101 }))
def fmulx : Instr := .fmul ⟨g7, .f32, .gov, .rne, false, m0, 3, 1, 2⟩

theorem test_tier_selection :
    regAfter fmulx sTier 0 3 = some (0x3BC00000, 0x6E80) ∧ regAfter fmulx sTier 1 3 = some (0x3FF00000, 0x70E0)
    ∧ regAfter fmulx sTier 2 3 = some (0x40C00000, 0x7201) ∧ regAfter fmulx sTier 3 3 = some (0, 0)
    ∧ flagsAfter fmulx sTier 0 = some 0 ∧ flagsAfter fmulx sTier 1 = some 0 ∧ flagsAfter fmulx sTier 2 = some 0 := by decide +kernel

/-- The same lane 3 parks as a fragment: cause 4, at vector 4 of the system base, with the token of its identity. -/
theorem test_breach_trap :
    (getThread (ran (exec fmulx sTier) sTier) (threadKey 1 3)).map (fun t => (t.pc, t.priv, t.hand, t.lk, t.frag))
      = some (0x10400, true, .system, tokenOf 0x80000001, 0x80000001)
    ∧ tokenOf 0x80000001 = 0xFFF0000400000008 := by decide +kernel

/-- Table 4-9: two stores into one record. -/
theorem test_bound_record :
    storeBound ⟨0x6A, 530⟩ 5 0x6B00 = ⟨0x6B, 229897⟩ ∧ storeBound ⟨0x6B, 229897⟩ 2 0x6580 = ⟨0x6B, 230025⟩
    ∧ bdOf (recBound ⟨0x6B, 230025⟩ 2) = bdOf 0x6600 ∧ bdOf (recBound ⟨0x6B, 230025⟩ 3) = bdOf 0x6500 := by decide

/-- The example of R223. -/
theorem test_wred_example :
    let s := stN 4 (fun i t => rg 8 ([0x3F800000, 0x33800000, 0x33800000, 0x40400000].getD i 0) t)
    regAfter (.wred ⟨g7, .add, .f32, 9, 8⟩) s 0 9 = some (0x40800000, 0x6980)
    ∧ regAfter (.wred ⟨g7, .add, .f32, 9, 8⟩) s 3 9 = some (0x40800000, 0x6980)
    ∧ flagsAfter (.wred ⟨g7, .add, .f32, 9, 8⟩) s 2 = some 0x10 := by decide +kernel

/-- Table 8-6: special and exact results of the function unit. -/
theorem test_function_unit :
    let u (op : Instr) (a : Nat) : Option (Option Word × Option Byte) :=
      some ((regAfter op (two a 0) 0 1).map (·.1), flagsAfter op (two a 0) 0)
    u (.frcp ⟨g7, .f32, .gov, .rne, false, false, 1, 2⟩) 0x80000000 = some (some 0xFF800000, some 0x02)
    ∧ u (.frcp ⟨g7, .f32, .gov, .rne, false, false, 1, 2⟩) 0x40800000 = some (some 0x3E800000, some 0)
    ∧ u (.frsq ⟨g7, .f32, .gov, .rne, false, false, 1, 2⟩) 0xBF800000 = some (some 0x7FC00000, some 0x01)
    ∧ u (.fsqrt ⟨g7, .f32, .gov, .rne, false, false, 1, 2⟩) 0x41100000 = some (some 0x40400000, some 0)
    ∧ u (.fexp2 ⟨g7, .f32, .gov, .rne, false, false, 1, 2⟩) 0x40400000 = some (some 0x41000000, some 0)
    ∧ u (.flog2 ⟨g7, .f32, .gov, .rne, false, false, 1, 2⟩) 0x41000000 = some (some 0x40400000, some 0) := by decide +kernel

/-- The example of R191: QNT.ol of a full warp, lane by lane. -/
def sQol : State :=
  let v (i : Nat) : Machine.Reg := match i with
    | 0 => ⟨0x3F800000, 0⟩
    | 1 => ⟨0xC0200000, 0x7500⟩
    | 2 => ⟨0x42200000, 0⟩
    | 3 => ⟨0x3E99999A, 0⟩
    | 4 => ⟨0xC1C00000, 0⟩
    | 5 => ⟨0x41900000, 0⟩
    | _ => ⟨0x3F000000, 0⟩
  stN 32 (fun i t => { rg 24 0x2404 (rg 7 0x40000000 (setReg t 4 (v i))) with bud := 0x7F000002 })
def qolx : Instr := .qntOl ⟨g7, .rne, 10, 4, 24, 6⟩
def lane (s : State) (i : Nat) : Option (Word × Word × BitVec 16 × Byte) :=
  (getThread s (threadKey 1 i)).map (fun t => ((getReg t 10).val, (getReg t 11).val, (getReg t 10).shadow, t.flags))

theorem test_qnt_example :
    let s := ran (exec qolx sQol) sQol
    [0, 1, 2, 3, 4, 5, 6, 31].map (lane s) =
      [some (0x8100, 0, 0x7F00, 0x58), some (0x8109, 0, 0x7E01, 0x50), some (0x8100, 0x17E50, 0, 0x40), some (0x8100, 0, 0x7D34, 0x58),
       some (0x8100, 0x17DA0, 0, 0x40), some (0x8106, 0, 0x8000, 0x70), some (0x8100, 0, 0x7E00, 0x58), some (0x8100, 0, 0x7E00, 0x58)] := by
  decide +kernel

/-- The walk of 17: a user-mode store through a 16 KiB leaf. -/
def sWalk : State :=
  let w8 (m : Memory) (e : Nat × Nat) : Memory := memWrite m e.1 (leBytes 8 e.2)
  let m : MemSys := { MemSys.reset with
    bytes := [(0x10000000, 0x10001003), (0x10001000, 0x10002003), (0x10002688, 0x10003003), (0x10003598, 0x10004003),
      (0x10004C40, 0x00A000800004032D), (0x10004C48, 0x00A000800004032D), (0x10004C50, 0x00A000800004032D), (0x10004C58, 0x00A000800004032D)].foldl w8 [],
    chunks := [(0x8000000000 / 2 ^ 21, 0)], keys := [(5, ⟨true, some 0⟩)] }
  let s := withMem m State.reset
  setPart s 0 (fun q => { q with ptRoot := 0x10000001 })

theorem test_page_walk :
    (match translate sWalk ⟨0, some 0, false⟩ 0x3456789ABC .write with
     | (.ok l, u) => l == .phys 0x8000041ABC 5 true && physRead64 u 0x10004C48 == 0x00A00080000403ED
     | _ => false) = true := by decide +kernel

def at3 : Island := { Island.reset with req := 3, cur := 3, volt := 740 }
def after37 (v : Word) (x : Island) : BitVec 3 × Option (BitVec 3 × Bool) × Option (BitVec 3) :=
  let s := setIsland State.reset 37 (fun _ => x)
  let y := islandOf (ran (exec (.cluReqWrite 37 v .physical) s) s) 37
  (y.cur, y.ramp, y.pend)

/-- Table 21-6: requests of cluster 37 while its up-ramp from point 3 runs. -/
theorem test_overlapping_requests :
    after37 6 at3 = (3, some (6, true), none)
    ∧ after37 4 { at3 with ramp := some (6, true) } = (3, some (6, true), some 4)
    ∧ after37 7 { at3 with ramp := some (6, true), pend := some 4 } = (3, some (7, true), none) := by decide

/-- R234, R304: TRAP takes cause 10, and resumes after its slot. -/
theorem test_trap :
    let s := withMem mem0 (stN 1 (fun _ t => t))
    let t := ran (exec (.trap ⟨g7, 5⟩) s) s
    (getThread t k0).map (fun x => (x.pc, x.hand)) = some (0x10A00, .system)
    ∧ physRead64 t (0x700000 + 0x40) = 0x1010 ∧ (t.frags.map (fun e => (e.2.cause, e.2.fpc))) = [(10, 0x1008)] := by decide +kernel

/-- Table 2-4, R36: the last of 32 arrivals flips the phase. -/
theorem test_barrier_flip :
    let b : Bar := ⟨32, 31, 0, (List.range 31), 0, 0, [], 0, 0⟩
    (barArrive b [(31, .gbar)]).phase = 1 ∧ (barArrive b [(31, .gbar)]).arrived = 0 ∧ (barArrive b [(31, .gdrop)]).expected = 31 := by decide

/-! ## The first step -/

/-- The state a word runs in: `MOVI v14, 0x3F000000`, and a GBAR of a warp of one thread. -/
theorem test_first_step :
    ((getThread (ran (step (State.reset.withFetchWord 64 0x1A070E003F000000)) State.reset) (threadKey 1 0)).map (fun t => (getReg t 14).val))
      = some 0x3F000000
    ∧ goes (step (State.reset.withFetchWord 64 0xDD07000000000000)) = true ∧ goes (step (State.reset.withFetchWord 64 0)) = true := by decide +kernel

theorem test_decode_table_word : decodeTableWord 64 0x1A070E003F000000 = some (.movi ⟨g7, 14, 0x3F000000⟩) := by decide

end Sys2Proof.Tests
end

/-! SUPPORT. What an access leaves as it was: it writes memory, the package and the core groups' stashes alone. -/

namespace Sys2Proof.Laws

open Sys2Proof.Machine

/-- `t` is `s` but for memory, the package beside it, and the core groups, whose stashes give up lines. -/
def AccessOnly (s t : State) : Prop := t = { s with mem := t.mem, pkg := t.pkg, coreGroups := t.coreGroups }

namespace AccessOnly

theorem refl (s : State) : AccessOnly s s := rfl

theorem trans {s t u : State} (h : AccessOnly s t) (k : AccessOnly t u) : AccessOnly s u := by
  unfold AccessOnly at *
  rw [k, h]

theorem threads {s t : State} (h : AccessOnly s t) : t.threads = s.threads := by rw [h]

/-- The state that a pair holds. -/
theorem of_eq {α : Type} {s t : State} {p : α × State} {a : α} (h : AccessOnly s p.2) (e : p = (a, t)) : AccessOnly s t := by
  rw [e] at h
  exact h

theorem foldl {α : Type} {f : State → α → State} (hf : ∀ s x, AccessOnly s (f s x)) (l : List α) (s : State) :
    AccessOnly s (l.foldl f s) := by
  induction l generalizing s with
  | nil => exact refl s
  | cons x r ih => exact (hf s x).trans (ih _)

end AccessOnly

/-! ## Accesses at a location -/

theorem wakeDie_accessOnly (s : State) (d : Nat) : AccessOnly s (wakeDie s d) := rfl

theorem answered_accessOnly (s : State) (core : Option Nat) (line : Nat) (w : Bool) : AccessOnly s (answered s core line w) :=
  AccessOnly.foldl (fun s d => show AccessOnly s (setDie s d _) from rfl) _ s

theorem combineRead_accessOnly (s : State) (cluster line key : Nat) : AccessOnly s (combineRead s cluster line key) := by
  unfold combineRead
  dsimp only
  split
  · rfl
  · split <;> rfl

theorem cacheAcc_accessOnly (s : State) (core : Option Nat) (evc : Nat) (plain : Bool) (l : Loc) (w : Bool) :
    AccessOnly s (cacheAcc s core evc plain l w) := by
  cases l with
  | scr g o => exact .refl s
  | phys a k bt =>
    have ha := answered_accessOnly s core (lineOf a) w
    unfold cacheAcc
    dsimp only
    split
    · exact ha.trans rfl
    · split
      · split
        · exact (ha.trans (combineRead_accessOnly ..)).trans rfl
        · exact ha.trans rfl
      · exact ha.trans rfl

theorem readLoc_accessOnly (s : State) (l : Loc) (n : Nat) : AccessOnly s (readLoc s l n).2 := by
  unfold readLoc openLoc
  dsimp only
  split <;> rfl

theorem physPoke_accessOnly (s : State) (a : Nat) (l : List Byte) : AccessOnly s (physPoke s a l) :=
  (cacheAcc_accessOnly s none 2 false (physLoc a) true).trans rfl

/-! ## Translation (R292-R297) -/

theorem cacheTable_accessOnly (s : State) (w : Who) (a base size : Nat) (e : DWord) :
    AccessOnly s (cacheTable s w a base size e) := rfl

theorem walkFrom_accessOnly (w : Who) (va : DWord) (k : AKind) (levels : List (Nat × Nat)) (s : State) (tbl : Nat) :
    AccessOnly s (walkFrom s w va k tbl levels).2 := by
  induction levels generalizing s tbl with
  | nil => exact .refl s
  | cons e rest ih =>
    unfold walkFrom
    dsimp only
    split
    · exact .refl s
    · split
      · exact wakeDie_accessOnly ..
      · split
        · exact .refl s
        · split
          · split
            · exact .refl s
            · exact (cacheTable_accessOnly ..).trans (ih _ _)
          · split
            · exact .refl s
            · split <;> exact .refl s

theorem walk_accessOnly (s : State) (w : Who) (va : DWord) (k : AKind) : AccessOnly s (walk s w va k).2 := by
  unfold walk
  dsimp only
  split
  · exact .refl s
  · split
    · next h => exact (walkFrom_accessOnly ..).of_eq h
    · next h =>
      have hw := (walkFrom_accessOnly ..).of_eq h
      split
      · exact hw
      · split <;> exact hw

theorem markLeaf_accessOnly (s : State) (w : Who) (k : AKind) (l : Leaf) : AccessOnly s (markLeaf s w k l).2 := by
  unfold markLeaf
  generalize l.pte ||| 0x40 ||| (if k.writes then 0x80 else 0) = e
  dsimp only
  split
  · exact .refl s
  · split
    · exact .refl s
    · split
      · exact wakeDie_accessOnly ..
      · exact physPoke_accessOnly ..

theorem cacheLeaf_accessOnly (s : State) (w : Who) (k : AKind) (l : Leaf) : AccessOnly s (cacheLeaf s w k l) := rfl

theorem noteWalk_accessOnly (s : State) (w : Who) (va : DWord) (k : AKind) (f : FInfo) : AccessOnly s (noteWalk s w va k f) := by
  unfold noteWalk
  split <;> rfl

theorem walkAndMark_accessOnly (s : State) (w : Who) (va : DWord) (k : AKind) : AccessOnly s (walkAndMark s w va k).2 := by
  unfold walkAndMark
  split
  · exact .refl s
  · split
    · next h => exact ((walk_accessOnly ..).of_eq h).trans (noteWalk_accessOnly ..)
    · next h =>
      have hw := (walk_accessOnly ..).of_eq h
      split
      · next hm => exact hw.trans ((markLeaf_accessOnly ..).of_eq hm)
      · next hm => exact (hw.trans ((markLeaf_accessOnly ..).of_eq hm)).trans (cacheLeaf_accessOnly ..)

theorem translateLeaf_accessOnly (s : State) (w : Who) (va : DWord) (k : AKind) : AccessOnly s (translateLeaf s w va k).2 := by
  unfold translateLeaf
  split
  · exact walkAndMark_accessOnly ..
  · dsimp only
    split
    · exact walkAndMark_accessOnly ..
    · split
      · exact .refl s
      · split
        · split
          · split
            · next hm => exact (markLeaf_accessOnly ..).of_eq hm
            · next hm => exact ((markLeaf_accessOnly ..).of_eq hm).trans (cacheLeaf_accessOnly ..)
          · exact walkAndMark_accessOnly ..
        · exact .refl s

theorem translate_accessOnly (s : State) (w : Who) (va : DWord) (k : AKind) : AccessOnly s (Machine.translate s w va k).2 := by
  unfold Machine.translate
  split
  · next h => exact (translateLeaf_accessOnly ..).of_eq h
  · next h =>
    have ht := (translateLeaf_accessOnly ..).of_eq h
    dsimp only
    split <;> exact ht

/-! ## Fetching a clause (R133, R140) -/

theorem codeLoc_accessOnly (s : State) (w : Who) (va : DWord) : AccessOnly s (codeLoc s w va).2 := by
  unfold codeLoc
  split
  · next h => exact (translate_accessOnly ..).of_eq h
  · next h => exact (translate_accessOnly ..).of_eq h

theorem codeLocs_accessOnly (w : Who) (n : Nat) (va : DWord) (s : State) : AccessOnly s (codeLocs w n va s).2 := by
  induction n generalizing va s with
  | zero => exact .refl s
  | succ n ih =>
    unfold codeLocs
    split
    · next h => exact (codeLoc_accessOnly ..).of_eq h
    · next h => exact ((codeLoc_accessOnly ..).of_eq h).trans (ih _ _)

theorem codeRead_accessOnly (w : Who) (ls : List Loc) (s : State) : AccessOnly s (codeRead w ls s).2 := by
  induction ls generalizing s with
  | nil => exact .refl s
  | cons l r ih =>
    unfold codeRead
    split
    · exact wakeDie_accessOnly ..
    · exact ((cacheAcc_accessOnly ..).trans (readLoc_accessOnly ..)).trans (ih _)

theorem keepCode_accessOnly (s : State) (hs : List Nat) (ls : List Loc) (ws : List DWord) : AccessOnly s (keepCode s hs ls ws) := rfl

theorem oldClause_accessOnly (w : Who) (hs : List Nat) (hdr : DWord) (str : Bool) (l0 : Loc) (n e : Nat) (s : State) :
    AccessOnly s (oldClause w hs hdr str l0 n e s).2 := by
  induction n generalizing e s with
  | zero => exact .refl s
  | succ n ih =>
    unfold oldClause
    dsimp only
    split
    · exact .refl s
    · split
      · exact (codeLocs_accessOnly ..).trans (ih _ _)
      · split
        · exact codeLocs_accessOnly ..
        · exact (codeLocs_accessOnly ..).trans (keepCode_accessOnly ..)

theorem fetchMiss_accessOnly (s : State) (w : Who) (hs : List Nat) (hdr : DWord) (str : Bool) (l0 : Loc) :
    AccessOnly s (fetchMiss s w hs hdr str l0).2 := by
  unfold fetchMiss
  split
  · next h => exact (codeRead_accessOnly ..).of_eq h
  · next h =>
    have hr := (codeRead_accessOnly ..).of_eq h
    dsimp only
    split
    · split
      · exact hr.trans (oldClause_accessOnly ..)
      · exact hr
    · refine hr.trans ?_
      split
      · exact (codeLocs_accessOnly ..).trans (oldClause_accessOnly ..)
      · split
        · next h => exact (codeLocs_accessOnly ..).trans ((codeRead_accessOnly ..).of_eq h)
        · next h =>
          have hw := (codeLocs_accessOnly ..).trans ((codeRead_accessOnly ..).of_eq h)
          split
          · exact hw
          · exact hw.trans (keepCode_accessOnly ..)

theorem fetchClause_accessOnly (s : State) (w : Who) (hs : List Nat) (hdr : DWord) (str : Bool) :
    AccessOnly s (fetchClause s w hs hdr str).2 := by
  unfold fetchClause
  split
  · next h => exact (codeLoc_accessOnly ..).of_eq h
  · next h =>
    have hl := (codeLoc_accessOnly ..).of_eq h
    split
    · exact hl.trans (fetchMiss_accessOnly ..)
    · dsimp only
      split
      · exact hl
      · split
        · next h => exact hl.trans ((codeLocs_accessOnly ..).of_eq h)
        · next h =>
          have hls := hl.trans ((codeLocs_accessOnly ..).of_eq h)
          split
          · exact hls.trans (keepCode_accessOnly ..)
          · exact hls.trans (fetchMiss_accessOnly ..)

end Sys2Proof.Laws

/-! SUPPORT. The caches and what an access reads (R107). -/

namespace Sys2Proof.Laws

open Sys2Proof.Machine

/-! ## What the caches hold changes no byte that an access reads (R107) -/

/-- A memory system with nothing cached: what an access reads does not depend on more. -/
def uncached (m : MemSys) : MemSys := { m with dirty := [], l1 := [], l2 := [], uses := 0 }

/-- What `f` makes of all but the caches does not depend on them. -/
def IgnoresCaches (f : MemSys → MemSys) : Prop := ∀ m, uncached (f (uncached m)) = uncached (f m)

namespace IgnoresCaches

theorem congr {f : MemSys → MemSys} (h : IgnoresCaches f) {m n : MemSys} (e : uncached m = uncached n) :
    uncached (f m) = uncached (f n) := by
  rw [← h m, e, h n]

theorem comp {f g : MemSys → MemSys} (hg : IgnoresCaches g) (hf : IgnoresCaches f) : IgnoresCaches (fun m => g (f m)) :=
  fun m => hg.congr (hf m)

theorem foldl {α : Type} {f : MemSys → α → MemSys} (hf : ∀ x, IgnoresCaches (f · x)) (l : List α) :
    IgnoresCaches (l.foldl f ·) := by
  induction l with
  | nil => exact fun _ => rfl
  | cons x r ih => exact ih.comp (hf x)

end IgnoresCaches

theorem putBounds_ignoresCaches (bt : Bool) (a : Nat) (l : List (BitVec 16)) : IgnoresCaches (putBounds · bt a l) := by
  induction l generalizing a with
  | nil => exact fun _ => rfl
  | cons b r ih =>
    intro m
    have hc : hasChunk (uncached m) a = hasChunk m a := rfl
    simp only [putBounds, hc]
    apply (ih (a + 4)).congr
    split <;> rfl

theorem applyPartial_ignoresCaches (p : Partial) : IgnoresCaches (applyPartial · p) :=
  fun _ => (putBounds_ignoresCaches _ _ _).congr rfl

theorem combineLine_ignoresCaches (line : Nat) : IgnoresCaches (combineLine · line) :=
  fun _ => (IgnoresCaches.foldl applyPartial_ignoresCaches _).congr rfl

theorem rekeyBlockAt_ignoresCaches (k k' a : Nat) : IgnoresCaches (rekeyBlockAt k k' · a) := fun _ => rfl

theorem rekeyRecAt_ignoresCaches (k k' line : Nat) : IgnoresCaches (rekeyRecAt k k' line) := fun _ => rfl

/-- A line held anew: its key, and no copy of its code. -/
theorem uncached_dropOld_congr {m n : MemSys} (h : uncached m = uncached n) (keys : Map Nat) (d d' : Map Unit)
    (hit : Nat → Bool) : uncached (dropOld { m with keyOf := keys, dirty := d } hit)
      = uncached (dropOld { n with keyOf := keys, dirty := d' } hit) :=
  (congrArg (fun x : MemSys => dropOld { x with keyOf := keys } hit) h :)

theorem rekeyLine_ignoresCaches (line key : Nat) : IgnoresCaches (rekeyLine · line key) := by
  intro m
  have hu : (uncached m).keyOf = m.keyOf := rfl
  have hc : hasChunk (uncached m) (line * 128) = hasChunk m (line * 128) := rfl
  simp only [rekeyLine, hu, hc]
  cases Map.get? m.keyOf line with
  | none => dsimp only; split <;> rfl
  | some k =>
    dsimp only
    have hb := IgnoresCaches.foldl (rekeyBlockAt_ignoresCaches k key) ((List.range 8).map (fun i => line * 128 + 16 * i)) m
    split
    · rfl
    · split
      · rfl
      · split
        · rfl
        · split
          · exact (rekeyRecAt_ignoresCaches k key line).congr (uncached_dropOld_congr hb ..)
          · exact uncached_dropOld_congr hb ..

theorem openLine_ignoresCaches (line key : Nat) : IgnoresCaches (openLine · line key) :=
  (rekeyLine_ignoresCaches line key).comp (combineLine_ignoresCaches line)

theorem fillL2_uncached (m : MemSys) (cls line : Nat) : uncached (fillL2 m cls line) = uncached m := by
  unfold fillL2
  split <;> rfl

theorem useL2_uncached (m : MemSys) (evc line : Nat) : uncached (useL2 m evc line) = uncached m := by
  unfold useL2
  split
  · rfl
  · split
    · rfl
    · exact fillL2_uncached ..

theorem fillL1_uncached (m : MemSys) (core line : Nat) (c : CLine) : uncached (fillL1 m core line c) = uncached m := by
  unfold fillL1
  split
  · rfl
  · dsimp only
    split
    · exact fillL2_uncached ..
    · rfl

theorem useL1_uncached (m : MemSys) (core evc line : Nat) (w : Bool) : uncached (useL1 m core evc line w) = uncached m := by
  unfold useL1
  split
  · rfl
  · dsimp only
    split
    · exact (fillL1_uncached ..).trans (useL2_uncached ..)
    · exact useL2_uncached ..

/-- An access through the caches leaves all else as it was. -/
theorem cacheUse_uncached (m : MemSys) (core : Option Nat) (evc line : Nat) (w : Bool) :
    uncached (cacheUse m core evc line w) = uncached m := by
  unfold cacheUse
  cases core with
  | none =>
    dsimp only
    split <;> exact useL2_uncached ..
  | some c =>
    dsimp only
    split <;> exact useL1_uncached ..

theorem cacheAcc_uncached (s : State) (core : Option Nat) (evc : Nat) (plain : Bool) (l : Loc) (w : Bool) :
    uncached (cacheAcc s core evc plain l w).mem = uncached s.mem := by
  cases l with
  | scr g o => rfl
  | phys a k bt =>
    unfold cacheAcc
    refine (cacheUse_uncached ..).trans (congrArg uncached ?_)
    (repeat' split) <;> simp [combineWrite]

theorem openLine_bytes_congr {m n : MemSys} (h : uncached m = uncached n) (line key : Nat) :
    (openLine m line key).bytes = (openLine n line key).bytes :=
  (congrArg MemSys.bytes ((openLine_ignoresCaches line key).congr h) :)

end Sys2Proof.Laws

/-! SUPPORT. Code as it stood, and the copies of it that caches and buffers keep (R1, R133, R142). -/

namespace Sys2Proof.Laws

open Sys2Proof.Machine

/-! ## Words of code as they stood (R133) -/

/-- What the versions of a word tell of it as it stood when an epoch began. -/
def knownAt (e : Nat) (vs : List Ver) : Option DWord := (vs.find? (fun v => decide (e ≤ v.epoch))).map (·.word)

theorem wordAt_eq_knownAt (m : MemSys) (e a : Nat) :
    wordAt m e a = (knownAt e (versions m a)).getD (codeWord m.bytes a) := by
  unfold wordAt knownAt
  cases (versions m a).find? (fun v => decide (e ≤ v.epoch)) <;> rfl

theorem wordAt_of_versions_nil {m : MemSys} {a : Nat} (h : versions m a = []) (e : Nat) :
    wordAt m e a = codeWord m.bytes a := by
  rw [wordAt_eq_knownAt, h]
  rfl

theorem storedSince_of_versions_nil {m : MemSys} {a : Nat} (h : versions m a = []) (e : Nat) : storedSince m e a = 0 := by
  rw [storedSince, h]
  rfl

/-- Words that no store has changed are one text. -/
theorem oneText_of_versions_nil {m : MemSys} {ls : List Loc} (h : ∀ l ∈ ls, versions m (locPa l) = []) : oneText m ls = true := by
  cases ls with
  | nil => rfl
  | cons l r =>
    have hl := storedSince_of_versions_nil (h l (by simp))
    simp only [oneText, List.all_eq_true, beq_iff_eq]
    intro x hx
    rw [hl, storedSince_of_versions_nil (h x (by simp [hx]))]

/-- A store in epoch `c` leaves known what a word was when an epoch not after `c` began. -/
theorem knownAt_addVer {e c : Nat} (h : e ≤ c) (n : Nat) (w : DWord) (vs : List Ver) :
    knownAt e (addVer c n w vs) = some ((knownAt e vs).getD w) := by
  fun_induction addVer c n w vs with
  | case1 => simp [knownAt, h]
  | case2 v hv => simp [knownAt, hv, h]
  | case3 v hv => by_cases hev : e ≤ v.epoch <;> simp [knownAt, hev, h]
  | case4 v r hr ih =>
    by_cases hev : e ≤ v.epoch
    · simp [knownAt, hev]
    · simpa [knownAt, List.find?_cons, hev] using ih

/-- One word's share of `keepOld`: word `i` from the one that holds `a` gets a version. -/
def keepVer (m : MemSys) (a n : Nat) (x : Map (List Ver)) (i : Nat) : Map (List Ver) :=
  Map.put x (a / 8 + i) (addVer m.epoch (bytesIn a n (a / 8 + i)) (codeWord m.bytes (8 * (a / 8 + i))) (Map.get [] x (a / 8 + i)))

theorem keepOld_before (m : MemSys) (a n : Nat) :
    (keepOld m a n).before = (List.range ((a % 8 + n + 7) / 8)).foldl (keepVer m a n) m.before := rfl

theorem get_keepVer_ne (m : MemSys) (a n : Nat) (x : Map (List Ver)) {i j : Nat} (h : a / 8 + i ≠ j) :
    Map.get [] (keepVer m a n x i) j = Map.get [] x j := by
  unfold keepVer Map.get
  rw [Map.get?_put_ne _ _ (Ne.symm h)]

theorem knownAt_keepVer_self (m : MemSys) (a n : Nat) (x : Map (List Ver)) (i : Nat) {e : Nat} (h : e ≤ m.epoch) :
    knownAt e (Map.get [] (keepVer m a n x i) (a / 8 + i))
      = some ((knownAt e (Map.get [] x (a / 8 + i))).getD (codeWord m.bytes (8 * (a / 8 + i)))) := by
  rw [keepVer, Map.get, Map.get?_put_self]
  exact knownAt_addVer h ..

theorem get_keepVers_of_untouched (m : MemSys) (a n j : Nat) (is : List Nat) (x : Map (List Ver)) (h : ∀ i ∈ is, a / 8 + i ≠ j) :
    Map.get [] (is.foldl (keepVer m a n) x) j = Map.get [] x j := by
  induction is generalizing x with
  | nil => rfl
  | cons i r ih =>
    rw [List.foldl_cons, ih _ (fun k hk => h k (by simp [hk])), get_keepVer_ne m a n x (h i (by simp))]

theorem knownAt_keepVers_of_touched (m : MemSys) (a n j : Nat) {e : Nat} (he : e ≤ m.epoch) (is : List Nat)
    (x : Map (List Ver)) (h : ∃ i ∈ is, a / 8 + i = j) :
    knownAt e (Map.get [] (is.foldl (keepVer m a n) x) j)
      = some ((knownAt e (Map.get [] x j)).getD (codeWord m.bytes (8 * j))) := by
  induction is generalizing x with
  | nil => simp at h
  | cons i r ih =>
    rw [List.foldl_cons]
    by_cases hr : ∃ k ∈ r, a / 8 + k = j
    · rw [ih _ hr]
      by_cases hi : a / 8 + i = j
      · rw [← hi, knownAt_keepVer_self m a n x i he]
        rfl
      · rw [get_keepVer_ne m a n x hi]
    · have hi : a / 8 + i = j := by
        obtain ⟨k, hk, hkj⟩ := h
        rcases List.mem_cons.mp hk with rfl | hk
        · exact hkj
        · exact absurd ⟨k, hk, hkj⟩ hr
      rw [get_keepVers_of_untouched m a n j r _ (fun k hk e => hr ⟨k, hk, e⟩), ← hi, knownAt_keepVer_self m a n x i he]

theorem codeWord_memWrite_out (m : Memory) (a b : Nat) (l : List Byte) (h : b + 8 ≤ a ∨ a + l.length ≤ b) :
    codeWord (memWrite m a l) b = codeWord m b := by
  unfold codeWord memBytes
  congr 2
  apply List.map_congr_left
  intro i hi
  rw [List.mem_range] at hi
  exact memGet_memWrite_out l m a (b + i) (by omega)

/-- A store changes no word as it stood when an epoch of code began. -/
theorem wordAt_putBytes (m : MemSys) (a : Nat) (l : List Byte) {e b : Nat} (hb : b % 8 = 0) (he : e ≤ m.epoch) :
    wordAt (putBytes m a l) e b = wordAt m e b := by
  have hv : versions (putBytes m a l) b
      = Map.get [] ((List.range ((a % 8 + l.length + 7) / 8)).foldl (keepVer m a l.length) m.before) (b / 8) := rfl
  rw [wordAt_eq_knownAt, wordAt_eq_knownAt, hv, putBytes_bytes]
  by_cases ht : ∃ i ∈ List.range ((a % 8 + l.length + 7) / 8), a / 8 + i = b / 8
  · rw [knownAt_keepVers_of_touched m a _ _ he _ _ ht, show 8 * (b / 8) = b by omega]
    rfl
  · have hout : b + 8 ≤ a ∨ a + l.length ≤ b := by
      by_contra hc
      exact ht ⟨b / 8 - a / 8, List.mem_range.mpr (by omega), by omega⟩
    rw [get_keepVers_of_untouched m a _ _ _ _ (fun i hi e => ht ⟨i, hi, e⟩), codeWord_memWrite_out _ _ _ _ hout]
    rfl

/-! ## Instruction caches and clause buffers (R1, R142) -/

theorem sum_fitWords_le (n : Nat) (l : List Code) : ((fitWords n l).map (fun c => c.words.length)).sum ≤ n := by
  induction l generalizing n with
  | nil => simp [fitWords]
  | cons c r ih =>
    unfold fitWords
    split
    · have := ih (n - c.words.length)
      simp only [List.map_cons, List.sum_cons]
      omega
    · simp

theorem length_fitClauses_le {l : List Code} (h : l.length ≤ 17) : (fitClauses l).length ≤ 16 := by
  unfold fitClauses
  split
  · assumption
  · next hl =>
    have hne : l ≠ [] := by
      rintro rfl
      exact hl (by simp)
    split
    · next c hc =>
      have hmem : c ∈ l := by
        rcases Option.or_eq_some_iff.mp hc with hc | ⟨-, hc⟩
        · exact List.mem_reverse.mp (List.mem_of_find?_eq_some hc)
        · exact List.mem_of_getLast? hc
      rw [List.length_erase_of_mem hmem]
      omega
    · next hc =>
      obtain ⟨-, hc⟩ := Option.or_eq_none_iff.mp hc
      exact absurd (List.getLast?_eq_none_iff.mp hc) hne

/-- What a holder holds once it has kept a clause is no more than what it keeps of it and of what it held. -/
theorem keepIn_own_sublist (l : List Code) (c : Code) :
    ((keepIn l c).filter (fun x => x.holder == c.holder)).Sublist
      (let mine := c :: l.filter (fun x => x.holder == c.holder && x.locs.head? != c.locs.head?)
       if c.holder < 512 then fitWords 16384 mine else fitClauses mine) := by
  have hothers : (l.filter (fun x => x.holder != c.holder)).filter (fun x => x.holder == c.holder) = [] := by
    simp [List.filter_eq_nil_iff]
  simp only [keepIn, List.filter_append, hothers, List.append_nil]
  exact List.filter_sublist

theorem keepIn_cache_words_le (l : List Code) {c : Code} (h : c.holder < 512) :
    (((keepIn l c).filter (fun x => x.holder == c.holder)).map (fun x => x.words.length)).sum ≤ 16384 := by
  have hs := keepIn_own_sublist l c
  simp only [h, if_true] at hs
  exact ((hs.map _).sum_le_sum (by simp)).trans (sum_fitWords_le _ _)

theorem keepIn_buffer_length_le {l : List Code} {c : Code} (h : 512 ≤ c.holder)
    (hl : (l.filter (fun x => x.holder == c.holder)).length ≤ 16) :
    ((keepIn l c).filter (fun x => x.holder == c.holder)).length ≤ 16 := by
  have hs := keepIn_own_sublist l c
  simp only [Nat.not_lt.mpr h, if_false] at hs
  refine hs.length_le.trans (length_fitClauses_le ?_)
  have hle := (List.monotone_filter_right l (p := fun x => x.holder == c.holder && x.locs.head? != c.locs.head?)
    (q := fun x => x.holder == c.holder) (fun x hx => by simp at hx; simp [hx.1])).length_le
  simp only [List.length_cons]
  omega

end Sys2Proof.Laws

/-! Clause entry and the illegal word (R26, R27, R133, R138-R142, R157-R159). -/

namespace Sys2Proof.Laws

open Sys2Proof.Machine

/-! ## Reading a word of code at its home -/

theorem silentDie_of_codeRead {w : Who} {l : Loc} {r : List Loc} {s u : State} {ws : List DWord}
    (h : codeRead w (l :: r) s = ((ws, none), u)) : silentDie s w.core (physLine l) false = none := by
  unfold codeRead at h
  split at h
  · simp at h
  · assumption

theorem codeRead_head {w : Who} {l : Loc} {r : List Loc} {s u : State} {ws : List DWord}
    (h : codeRead w (l :: r) s = ((ws, none), u)) : ws.head? = some (readLoc (homeAcc s l false) l 8).1.val := by
  unfold codeRead at h
  rw [silentDie_of_codeRead h] at h
  simp only [Prod.mk.injEq] at h
  obtain ⟨⟨rfl, -⟩, -⟩ := h
  rfl

theorem homeAcc_accessOnly (s : State) (l : Loc) (w : Bool) : AccessOnly s (homeAcc s l w) := cacheAcc_accessOnly ..

theorem homeAcc_uncached (s : State) (l : Loc) (w : Bool) : uncached (homeAcc s l w).mem = uncached s.mem := cacheAcc_uncached ..

theorem AccessOnly.lockOf {s t : State} (h : AccessOnly s t) (a : Nat) : lockOf t a = lockOf s a := by
  rw [h]
  rfl

/-- A location that no lock moves is read where it stands. -/
theorem readLoc_phys {s : State} {a : Nat} (h : lockOf s a = none) (k : Nat) (bt : Bool) (n : Nat) :
    readLoc s (.phys a k bt) n = (peekLoc (openLoc s (.phys a k bt)) (.phys a k bt) n, openLoc s (.phys a k bt)) := by
  simp [readLoc, readLocOf, h]

/-- A word of code is what an access under its key reads. -/
theorem codeRead_phys_head {w : Who} {pa k : Nat} {bt : Bool} {r : List Loc} {s u : State} {ws : List DWord}
    (h : codeRead w (.phys pa k bt :: r) s = ((ws, none), u)) (hlock : lockOf s pa = none) (ha : pa % 8 = 0) :
    ws.head? = some (BitVec.ofNat 64 (leNat ((List.range 8).map (fun i => viewByte s.mem (pa + i) k)))) := by
  have hacc : lockOf (homeAcc s (.phys pa k bt) false) pa = none := by
    rw [(homeAcc_accessOnly ..).lockOf, hlock]
  rw [codeRead_head h, readLoc_phys hacc]
  simp only [Got.val, peekLoc, openLoc, memBytes]
  congr 3
  apply List.map_congr_left
  intro i hi
  rw [List.mem_range] at hi
  have hline : lineOf (pa + i) = lineOf pa := by
    unfold lineOf
    omega
  rw [viewByte, hline, openLine_bytes_congr (homeAcc_uncached ..)]

/-! ## Which clause a fetch gives (R1, R133, R139) -/

section Copy

variable {s u : State} {w : Who} {hs : List Nat} {hdr : DWord} {str : Bool} {l0 : Loc} {c : Code}
  (hloc : codeLoc s w hdr = (.ok l0, u)) (hcopy : copyAt u hs l0 = some c)
include hloc hcopy

theorem fetchClause_of_bad_copy (hok : (Header.ofWord (c.words.headD 0)).ok w.priv str = false) :
    fetchClause s w hs hdr str = (.bad (c.words.headD 0), u) := by
  simp only [fetchClause, hloc, hcopy, hok, Bool.not_false, if_true]

theorem fetchClause_of_copy {ls : List Loc} {v : State} (hok : (Header.ofWord (c.words.headD 0)).ok w.priv str = true)
    (hls : codeLocs w ((Header.ofWord (c.words.headD 0)).cnt.toNat + 1) (hdr + 8) u = ((ls, none), v)) (he : l0 :: ls = c.locs) :
    fetchClause s w hs hdr str = (.ok (Header.ofWord (c.words.headD 0)) (c.words.drop 1), keepCode v hs c.locs c.words) := by
  simp only [fetchClause, hloc, hcopy, hok, hls, he, Bool.not_true, Bool.false_eq_true, if_false, if_true]

end Copy

theorem fetchClause_of_no_copy {s u : State} {w : Who} {hs : List Nat} {hdr : DWord} {l0 : Loc}
    (hloc : codeLoc s w hdr = (.ok l0, u)) (hcopy : copyAt u hs l0 = none) (str : Bool) :
    fetchClause s w hs hdr str = fetchMiss u w hs hdr str l0 := by
  simp only [fetchClause, hloc, hcopy]

section Miss

variable {s u : State} {w : Who} {hs : List Nat} {hdr x : DWord} {str : Bool} {l0 : Loc}
  (hread : codeRead w [l0] s = (([x], none), u))
include hread

theorem fetchMiss_of_bad (hok : (Header.ofWord x).ok w.priv str = false)
    (hold : isHeader x = true ∨ isHeader (wordAt u.mem (lastSettled u.mem [l0]) (locPa l0)) = false) :
    fetchMiss s w hs hdr str l0 = (.bad x, u) := by
  rcases hold with hold | hold <;> simp [fetchMiss, hread, hok, hold]

theorem fetchMiss_of_oneText {ls : List Loc} {ws : List DWord} {t v : State} (hok : (Header.ofWord x).ok w.priv str = true)
    (hls : codeLocs w ((Header.ofWord x).cnt.toNat + 1) (hdr + 8) u = ((ls, none), t))
    (htext : oneText t.mem (l0 :: ls) = true) (hws : codeRead w ls t = ((ws, none), v)) :
    fetchMiss s w hs hdr str l0 = (.ok (Header.ofWord x) ws, keepCode v hs (l0 :: ls) (x :: ws)) := by
  simp only [fetchMiss, hread, List.headD_cons, hok, hls, htext, hws, Bool.not_true, Bool.false_eq_true, if_false]

theorem fetchMiss_of_mixed {ls : List Loc} {t : State} (hok : (Header.ofWord x).ok w.priv str = true)
    (hls : codeLocs w ((Header.ofWord x).cnt.toNat + 1) (hdr + 8) u = ((ls, none), t))
    (htext : oneText t.mem (l0 :: ls) = false) :
    fetchMiss s w hs hdr str l0 = oldClause w hs hdr str l0 64 (lastSettled u.mem [l0]) t := by
  simp only [fetchMiss, hread, List.headD_cons, hok, hls, htext, Bool.not_true, Bool.not_false, Bool.false_eq_true, if_false, if_true]

end Miss

/-- The clause as it stood when an epoch began that no line of it has left. -/
theorem oldClause_of_settled {w : Who} {hs : List Nat} {hdr : DWord} {str : Bool} {l0 : Loc} {ls : List Loc} {e : Nat} {s v : State}
    (n : Nat) (hok : (Header.ofWord (wordAt s.mem e (locPa l0))).ok w.priv str = true)
    (hls : codeLocs w ((Header.ofWord (wordAt s.mem e (locPa l0))).cnt.toNat + 1) (hdr + 8) s = ((ls, none), v))
    (he : lastSettled v.mem (l0 :: ls) ≤ e) :
    (oldClause w hs hdr str l0 (n + 1) e s).1
      = .ok (Header.ofWord (wordAt s.mem e (locPa l0))) (ls.map (fun l => wordAt v.mem e (locPa l))) := by
  simp only [oldClause, hok, hls, Nat.not_lt.mpr he, Bool.not_true, Bool.false_eq_true, if_false]

/-! ## The order of threads (R23) -/

theorem gtidLe_refl (a : Thread) : gtidLe a a = true := by simp [gtidLe]

theorem gtidLe_total (a b : Thread) : gtidLe a b = true ∨ gtidLe b a = true := by
  simp only [gtidLe, Bool.or_eq_true, Bool.and_eq_true, decide_eq_true_eq, beq_iff_eq]
  omega

theorem gtidLe_trans {a b c : Thread} (h : gtidLe a b = true) (k : gtidLe b c = true) : gtidLe a c = true := by
  simp only [gtidLe, Bool.or_eq_true, Bool.and_eq_true, decide_eq_true_eq, beq_iff_eq] at *
  omega

theorem lowestOf_append_singleton (ts : List (Nat × Thread)) (e : Nat × Thread) :
    lowestOf (ts ++ [e]) = some ((lowestOf ts).elim e.2 (fun t => if gtidLe t e.2 then t else e.2)) := by
  simp only [lowestOf, List.foldl_append, List.foldl_cons, List.foldl_nil]
  split
  · next t ht =>
    rw [ht]
    dsimp only [Option.elim_some]
    split <;> rfl
  · next ht => rw [ht]; rfl

/-- The lowest of some threads is one of them, and none of them is lower. -/
theorem lowestOf_spec {ts : List (Nat × Thread)} {low : Thread} (h : lowestOf ts = some low) :
    (∃ e ∈ ts, e.2 = low) ∧ ∀ e ∈ ts, gtidLe low e.2 = true := by
  induction ts using List.reverseRecOn generalizing low with
  | nil => simp [lowestOf] at h
  | append_singleton ts e ih =>
    rw [lowestOf_append_singleton, Option.some.injEq] at h
    cases ht : lowestOf ts with
    | none =>
      have hnil : ts = [] := by
        cases ts using List.reverseRecOn with
        | nil => rfl
        | append_singleton ts x => simp [lowestOf_append_singleton] at ht
      subst hnil
      rw [ht] at h
      subst h
      simp [gtidLe_refl]
    | some t =>
      obtain ⟨⟨x, hx, hxt⟩, hle⟩ := ih ht
      rw [ht, Option.elim_some] at h
      split at h
      · next hte =>
        subst h
        refine ⟨⟨x, by simp [hx], hxt⟩, fun y hy => ?_⟩
        rcases List.mem_append.mp hy with hy | hy
        · exact hle y hy
        · rw [List.mem_singleton.mp hy]; exact hte
      · next hte =>
        subst h
        have het := (gtidLe_total t e.2).resolve_left hte
        refine ⟨⟨e, by simp, rfl⟩, fun y hy => ?_⟩
        rcases List.mem_append.mp hy with hy | hy
        · exact gtidLe_trans het (hle y hy)
        · rw [List.mem_singleton.mp hy]; exact gtidLe_refl _

/-! ## Forming a group (R26, R27) -/

theorem mem_insByLane {f : Nat → Nat} {a k : Nat} {l : List Nat} : k ∈ insByLane f a l ↔ k = a ∨ k ∈ l := by
  induction l with
  | nil => simp [insByLane]
  | cons b r ih =>
    unfold insByLane
    split
    · simp
    · simp [ih, or_left_comm]

theorem mem_foldl_insByLane {f : Nat → Nat} {k : Nat} (ks l : List Nat) :
    k ∈ ks.foldl (fun l k => insByLane f k l) l ↔ k ∈ ks ∨ k ∈ l := by
  induction ks generalizing l with
  | nil => simp
  | cons a r ih => simp [ih, mem_insByLane, or_left_comm, or_assoc]

theorem foldl_modThread_groups (f : Thread → Thread) (ks : List Nat) (s : State) :
    (ks.foldl (fun s k => modThread s k f) s).groups = s.groups := by
  induction ks generalizing s with
  | nil => rfl
  | cons k r ih => rw [List.foldl_cons, ih, modThread_groups]

/-- A group formed of threads that are there: its members are those, its pass and hold as given. -/
theorem formGroup_spec {s : State} {ks : List Nat} {t0 : Thread} (h : ks.head?.bind (getThread s) = some t0) (p : Pass) (hold : Hold) :
    ∃ g, getGroup (formGroup s ks p hold) s.nextId = some g ∧ g.pass = p ∧ g.waits = [] ∧ g.hold = hold
      ∧ ∀ k, k ∈ g.members ↔ k ∈ ks := by
  refine ⟨⟨coreOf s t0, quadOf s t0, ks.foldl (fun l k => insByLane (laneOf s) k l) [], p, [], hold⟩, ?_, rfl, rfl, rfl, fun k => ?_⟩
  · simp only [formGroup, h, getGroup]
    rw [foldl_modThread_groups, Map.get?_put_self]
  · simp [mem_foldl_insByLane]

theorem contains_onePerLane (s : State) (p : Thread → Bool) (k : Nat) :
    (onePerLane (s.threads.filter (fun e => p e.2))).contains k = Claims.leads s p k := by
  have hlead (e : Nat × Thread) :
      (s.threads.filter (fun e => p e.2)).all (fun x => x.2.lane != e.2.lane || gtidLe e.2 x.2)
        = s.threads.all (fun x => !(p x.2 && x.2.lane == e.2.lane) || gtidLe e.2 x.2) := by
    rw [List.all_filter]
    congr 1
    funext x
    cases p x.2 <;> simp [bne]
  rw [Bool.eq_iff_iff]
  simp only [List.contains_iff_mem, onePerLane, hlead, Claims.leads, List.mem_map, List.mem_filter, List.any_eq_true,
    Bool.and_eq_true, beq_iff_eq]
  constructor
  · rintro ⟨e, ⟨⟨he, hp⟩, hl⟩, rfl⟩
    exact ⟨e, he, ⟨rfl, hp⟩, hl⟩
  · rintro ⟨e, he, ⟨rfl, hp⟩, hl⟩
    exact ⟨e, ⟨⟨he, hp⟩, hl⟩, rfl⟩

theorem namesQueues_iff (wait : Byte) (ws : List DWord) :
    namesQueues wait ws = true ↔ wait ≠ 0 ∨ ws.any Claims.queueMajor = true := by
  simp only [namesQueues, Bool.or_eq_true, bne_iff_ne]
  rfl

theorem sameKind_iff (a b : Thread) : sameKind a b = true ↔ a.hand = b.hand ∧ (a.hand ≠ .none → a.frag = b.frag) := by
  simp only [sameKind, Bool.and_eq_true, Bool.or_eq_true, beq_iff_eq]
  tauto

theorem ite_filter {α : Type} (c : Bool) (p : α → Bool) (l : List α) :
    (if c then l.filter p else l) = l.filter (fun x => !c || p x) := by
  cases c <;> simp

/-- The threads that a group is drawn from are those that enter the clause with the lowest one. -/
theorem drawn_candidates (s : State) (core quad : Nat) (hdr : DWord) (low : Thread) (h : Header) (ws : List DWord) :
    drawn ((candidates s core quad hdr).filter (fun e => sameKind e.2 low && e.2.priv == low.priv)) low h.wait ws
      = onePerLane (s.threads.filter (fun e => Claims.entersWith s core quad hdr low h ws e.2)) := by
  simp only [drawn, ite_filter]
  simp only [candidates, List.filter_filter]
  congr 1
  refine List.filter_congr (fun e _ => ?_)
  rw [Bool.eq_iff_iff]
  simp only [Claims.entersWith, Bool.and_eq_true, Bool.or_eq_true, Bool.not_eq_true', decide_eq_true_eq, beq_iff_eq,
    sameKind_iff, ← namesQueues_iff, Bool.eq_false_iff]
  tauto

theorem entersWith_self {s : State} {core quad : Nat} {hdr : DWord} {low : Thread} {k : Nat}
    (hc : (k, low) ∈ candidates s core quad hdr) (h : Header) (ws : List DWord) :
    Claims.entersWith s core quad hdr low h ws low = true := by
  simp only [candidates, List.mem_filter, Bool.and_eq_true, beq_iff_eq] at hc
  obtain ⟨-, ⟨⟨henter, hpc⟩, hcore⟩, hquad⟩ := hc
  simp [Claims.entersWith, henter, hpc, hcore, hquad]

/-- The lowest thread at a header leads its own lane. -/
theorem leads_lowest {s : State} {core quad : Nat} {hdr : DWord} {low : Thread} {k : Nat}
    (hc : (k, low) ∈ candidates s core quad hdr) (hlow : ∀ e ∈ candidates s core quad hdr, gtidLe low e.2 = true)
    (h : Header) (ws : List DWord) : Claims.leads s (Claims.entersWith s core quad hdr low h ws) k = true := by
  simp only [Claims.leads, List.any_eq_true, List.all_eq_true, Bool.and_eq_true, Bool.or_eq_true, beq_iff_eq]
  refine ⟨(k, low), (List.mem_filter.mp hc).1, ⟨rfl, entersWith_self hc h ws⟩, fun x hx => ?_⟩
  by_cases hp : Claims.entersWith s core quad hdr low h ws x.2 = true
  · refine .inr (hlow x ?_)
    simp only [Claims.entersWith, Bool.and_eq_true, decide_eq_true_eq] at hp
    obtain ⟨henter, hpc, hcore, hquad, -⟩ := hp
    simp [candidates, hx, henter, hpc, hcore, hquad]
  · exact .inl (by simp [hp])

theorem exists_get?_of_mem {α : Type} {m : Map α} {e : Nat × α} (h : e ∈ m) : ∃ v, Map.get? m e.1 = some v := by
  induction m with
  | nil => simp at h
  | cons x r ih =>
    obtain ⟨k, v⟩ := x
    by_cases hk : k = e.1
    · exact ⟨v, by simp [Map.get?, hk]⟩
    · rcases List.mem_cons.mp h with rfl | hr
      · exact absurd rfl hk
      · simpa [Map.get?, hk] using ih hr

theorem exists_thread_of_leads {s : State} {p : Thread → Bool} {k : Nat} (h : Claims.leads s p k = true) :
    ∃ t, getThread s k = some t := by
  simp only [Claims.leads, List.any_eq_true, Bool.and_eq_true, beq_iff_eq] at h
  obtain ⟨e, he, ⟨rfl, -⟩, -⟩ := h
  exact exists_get?_of_mem he

/-! ## Clause entry (R26, R138-R141, R288) -/

theorem exec_clauseEntry_threads (core quad : Nat) (hdr : DWord) (s : State) :
    exec (.clauseEntry (.threads core quad hdr)) s = .next (enterThreads s core quad hdr) := rfl

theorem exec_clauseEntry_slice (qk : Nat) (s : State) : exec (.clauseEntry (.slice qk)) s = .next (enterSlice s qk) := rfl

/-- Threads enter a clause that is fetched: the lowest one's kind forms a group of it. -/
theorem enterPool_of_fetched {s u : State} {core quad : Nat} {hdr : DWord} {low : Thread} {h : Header} {ws : List DWord}
    (hlow : lowestOf (candidates s core quad hdr) = some low) (hcore : coreOf s low = core) (hquad : quadOf s low = quad)
    (ha : hdr.toNat % 8 = 0) (hf : fetchClause s (whoOf s low) (quadHolders core quad) hdr false = (.ok h ws, u)) :
    enterPool s hdr (candidates s core quad hdr)
      = formGroup u (onePerLane (s.threads.filter (fun e => Claims.entersWith s core quad hdr low h ws e.2)))
          ⟨hdr, h.cls, ws, 0⟩ (if h.wait = 0 then .none else .clauseWait h.wait) := by
  simp only [enterPool, hlow, ha, hcore, hquad, hf, drawn_candidates, ne_eq, not_true, if_false]

/-- Where throttling holds none of the threads from the clause they enter, all of them stand for entry. -/
theorem enterThreads_of_not_held {s u : State} {core quad : Nat} {hdr : DWord} {low : Thread} {h : Header} {ws : List DWord}
    (hlow : lowestOf (candidates s core quad hdr) = some low)
    (hf : fetchClause s (whoOf s low) (quadHolders core quad) hdr false = (.ok h ws, u))
    (hheld : h.cls = 1 → ∀ e ∈ candidates s core quad hdr, memHeld s e.2 = false) :
    enterThreads s core quad hdr = enterPool s hdr (candidates s core quad hdr) := by
  simp only [enterThreads, hlow, hf]
  split
  · rfl
  · split
    · next hc =>
      congr 1
      exact List.filter_eq_self.mpr (fun e he => by simp [hheld hc e he])
    · rfl

/-- Where throttling holds all of them from a MEM clause, none enters. -/
theorem enterThreads_of_held {s u : State} {core quad : Nat} {hdr : DWord} {low : Thread} {h : Header} {ws : List DWord}
    (hlow : lowestOf (candidates s core quad hdr) = some low)
    (hf : fetchClause s (whoOf s low) (quadHolders core quad) hdr false = (.ok h ws, u)) (hc : h.cls = 1)
    (hheld : ∀ e ∈ candidates s core quad hdr, memHeld s e.2 = true) : enterThreads s core quad hdr = s := by
  have hgo : (candidates s core quad hdr).filter (fun e => !memHeld s e.2) = [] :=
    List.filter_eq_nil_iff.mpr (fun e he => by simp [hheld e he])
  obtain ⟨⟨e, he, -⟩, -⟩ := lowestOf_spec hlow
  have hne : ¬ 0 = (candidates s core quad hdr).length := (List.length_pos_of_mem he).ne
  simp only [enterThreads, hlow, hf, hgo, List.length_nil, hne, hc, clsMem, if_true, if_false]
  rfl

/-- The group that threads form at a clause entry. -/
theorem enterThreads_spec {s u : State} {core quad : Nat} {hdr : DWord} {low : Thread} {h : Header} {ws : List DWord}
    (hlow : lowestOf (candidates s core quad hdr) = some low) (ha : hdr.toNat % 8 = 0)
    (hf : fetchClause s (whoOf s low) (quadHolders core quad) hdr false = (.ok h ws, u))
    (hheld : h.cls = 1 → ∀ e ∈ candidates s core quad hdr, memHeld s e.2 = false) :
    ∃ g, getGroup (enterThreads s core quad hdr) u.nextId = some g ∧ g.pass = ⟨hdr, h.cls, ws, 0⟩ ∧ g.waits = []
      ∧ g.hold = (if h.wait = 0 then .none else .clauseWait h.wait)
      ∧ ∀ k, g.members.contains k = Claims.leads s (Claims.entersWith s core quad hdr low h ws) k := by
  obtain ⟨⟨⟨k0, t⟩, hmem, rfl⟩, hle⟩ := lowestOf_spec hlow
  have hplace := hmem
  simp only [candidates, List.mem_filter, Bool.and_eq_true, beq_iff_eq] at hplace
  obtain ⟨-, ⟨-, hcore⟩, hquad⟩ := hplace
  rw [enterThreads_of_not_held hlow hf hheld, enterPool_of_fetched hlow hcore hquad ha hf]
  have hlead := contains_onePerLane s (Claims.entersWith s core quad hdr t h ws)
  generalize onePerLane (s.threads.filter (fun e => Claims.entersWith s core quad hdr t h ws e.2)) = ks at hlead ⊢
  have hin : k0 ∈ ks := List.contains_iff_mem.mp ((hlead k0).trans (leads_lowest hmem hle h ws))
  obtain ⟨k1, hk1⟩ : ∃ k1, ks.head? = some k1 := ⟨ks.head (List.ne_nil_of_mem hin), List.head?_eq_some_head _⟩
  obtain ⟨t1, ht1⟩ := exists_thread_of_leads ((hlead k1).symm.trans (List.contains_iff_mem.mpr (List.mem_of_head? hk1)))
  have hthreads : u.threads = s.threads := ((fetchClause_accessOnly ..).of_eq hf).threads
  have hfirst : ks.head?.bind (getThread u) = some t1 := by
    rw [hk1, Option.bind_some, getThread, hthreads]
    exact ht1
  obtain ⟨g, hg, hpass, hwaits, hhold, hms⟩ := formGroup_spec hfirst ⟨hdr, h.cls, ws, 0⟩
    (if h.wait = 0 then .none else .clauseWait h.wait)
  refine ⟨g, hg, hpass, hwaits, hhold, fun k => ?_⟩
  rw [← hlead k, Bool.eq_iff_iff, List.contains_iff_mem, List.contains_iff_mem, hms k]

/-- An access slice enters a clause that is fetched. -/
theorem enterSlice_of_fetched {s u : State} {qk : Nat} {x : Slice} {c : CoreGroup} {h : Header} {ws : List DWord}
    (hx : getSlice s qk = some x) (hst : x.st = .run) (hpass : x.pass = none)
    (hc : Map.get? s.coreGroups (qk / 4) = some c) (hsaved : c.saved = false) (ha : x.pc.toNat % 8 = 0)
    (hf : fetchClause s (sliceWho s qk) [quadCore s qk] x.pc true = (.ok h ws, u)) :
    enterSlice s qk = modSlice u qk (fun x => { x with pass := some ⟨x.pc, h.cls, ws, 0⟩ }) := by
  simp [enterSlice, hx, hst, hpass, hc, hsaved, ha, hf]

/-! ## The illegal word (R157-R159) -/

/-- Faults that do not wait wake no die. -/
theorem wakeFor_of_not_waits {fs : List FInfo} (h : ∀ f ∈ fs, f.waits = false) (s : State) : wakeFor s fs = s := by
  unfold wakeFor
  induction fs with
  | nil => rfl
  | cons f r ih =>
    rw [List.foldl_cons, h f (by simp)]
    exact ih (fun g hg => h g (by simp [hg]))

section FaultAll

variable {s : State} {gid : Nat} {g : Group} {f : FInfo}

theorem faultsWait_all (hf : f.waits = false) (ks : List Nat) :
    faultsWait s (ks.map (fun k => (k, f))) = (ks.any (handlerHeld s) || (ks.head?.bind (imageLock s)).isSome) := by
  cases ks <;> simp [faultsWait, hf, List.any_map, Function.comp_def]

theorem faultsAsk_all (ks : List Nat) : faultsAsk s (ks.map (fun k => (k, f))) = ks.head?.bind (imageSilent s) := by
  cases ks <;> simp [faultsAsk]

theorem faultAll_at (hat : Safety.At s gid g) (ks : List Nat) :
    faultAll s gid g ks (fun _ => f) = splitFaults s s gid g (ks.map (fun k => (k, f))) false := splitGroup_of_lost hat.2 ..

/-- Nothing of the trap takes effect while a lock holds the images of the lanes' core. -/
theorem faultAll_of_locked (hat : Safety.At s gid g) (hf : f.waits = false) {ks : List Nat}
    (hlock : (ks.head?.bind (imageLock s)).isSome = true) : faultAll s gid g ks (fun _ => f) = s := by
  have hne : ks ≠ [] := by
    rintro rfl
    simp at hlock
  rw [faultAll_at hat]
  simp only [splitFaults, faultsWait_all hf, hlock, List.isEmpty_map, List.isEmpty_iff, hne, Bool.or_true, if_true, if_false]
  exact wakeFor_of_not_waits (by simp [hf]) s

/-- A die that holds lines of the images gives them up first. -/
theorem faultAll_of_silent (hat : Safety.At s gid g) (hf : f.waits = false) {ks : List Nat} {d : Nat}
    (hlock : ks.head?.bind (imageLock s) = none) (hheld : ∀ k ∈ ks, handlerHeld s k = false)
    (hd : ks.head?.bind (imageSilent s) = some d) : faultAll s gid g ks (fun _ => f) = wakeDie s d := by
  have hne : ks ≠ [] := by
    rintro rfl
    simp at hd
  have hany : ks.any (handlerHeld s) = false := by simpa using hheld
  rw [faultAll_at hat]
  simp only [splitFaults, faultsWait_all hf, faultsAsk_all, hlock, hany, hd, List.isEmpty_map, List.isEmpty_iff, hne,
    Option.isSome_none, Bool.or_false, Bool.false_eq_true, if_false]

/-- Else every lane takes the trap at the slot, and what is left of the group goes on. -/
theorem faultAll_of_taken (hat : Safety.At s gid g) (hf : f.waits = false) {ks : List Nat} (hne : ks ≠ [])
    (hlock : ks.head?.bind (imageLock s) = none) (hheld : ∀ k ∈ ks, handlerHeld s k = false)
    (hd : ks.head?.bind (imageSilent s) = none) :
    faultAll s gid g ks (fun _ => f)
      = (let z := raise s s g.members (ks.map (fun k => (k, f))) (slotPc g.pass) (some g.pass) (slotPc g.pass) (some g.pass)
         if z.2 then z.1 else advance z.1 gid) := by
  have hany : ks.any (handlerHeld s) = false := by simpa using hheld
  rw [faultAll_at hat]
  simp only [splitFaults, faultsWait_all hf, faultsAsk_all, hlock, hany, hd, List.isEmpty_map, List.isEmpty_iff, hne,
    Option.isSome_none, Bool.or_false, Bool.false_eq_true, if_false]

end FaultAll

theorem sliceOp_at {s : State} {qk : Nat} {x : Slice} {p : Pass} (f : Nat → Slice → Pass → State → State) (hc : s.cur = .slice qk)
    (hx : getSlice s qk = some x) (hp : x.pass = some p) : sliceOp f s = f qk x p s := by
  simp only [sliceOp, hc, hx, hp]

theorem exec_illegalInstruction_at {s : State} {gid : Nat} {g : Group} (r : IllReason) (w : DWord) (hat : Safety.At s gid g) :
    exec (.illegalInstruction r w) s = .next (faultAll s gid g g.members (fun _ => faultOf 0 (Machine.IllReason.code r) w 0)) := by
  change execIllegalInstruction r w s = _
  simp only [execIllegalInstruction, cur_of_at hat, hat.1]

theorem exec_illegalInstruction_slice {s : State} {qk : Nat} {x : Slice} {p : Pass} (r : IllReason) (w : DWord)
    (hc : s.cur = .slice qk) (hx : getSlice s qk = some x) (hp : x.pass = some p) :
    exec (.illegalInstruction r w) s = .next (sliceStop s qk (faultOf 0 (Machine.IllReason.code r) w 0) (slotPc p)) := by
  change execIllegalInstruction r w s = _
  simp only [execIllegalInstruction, hc]
  rw [sliceOp_at _ hc hx hp]

/-! ## The statement -/

theorem clauseEntries : Claims.ClauseEntries := by
  refine ⟨?_, ?_, ?_, ?_, ?_, ?_, ?_, ?_, ?_, ?_⟩
  · intro s core quad hdr low h ws u hlow ha hf hheld
    obtain ⟨g, hg⟩ := enterThreads_spec hlow ha hf hheld
    exact ⟨_, g, exec_clauseEntry_threads .., hg⟩
  · intro s core quad hdr low h ws u hlow hf hc hheld
    exact (exec_clauseEntry_threads ..).trans (congrArg Host.Outcome.next (enterThreads_of_held hlow hf hc hheld))
  · intro s qk x c h ws u hx hst hpass hc hsaved ha hf
    exact (exec_clauseEntry_slice ..).trans (congrArg Host.Outcome.next (enterSlice_of_fetched hx hst hpass hc hsaved ha hf))
  · intro s w hs hdr str l0 u c ls v hloc hcopy
    exact ⟨fetchClause_of_bad_copy hloc hcopy, fetchClause_of_copy hloc hcopy⟩
  · intro s w hs hdr str l0 u x u1 ls u2 hloc hcopy hread
    rw [fetchClause_of_no_copy hloc hcopy]
    refine ⟨fetchMiss_of_bad hread, fun hok hls => ⟨fun htext ws v hws => fetchMiss_of_oneText hread hok hls htext hws,
      fun htext hok' hmem ls' v hls' he => ?_⟩⟩
    rw [fetchMiss_of_mixed hread hok hls htext]
    rw [← hmem] at hok' hls' he ⊢
    exact oldClause_of_settled 63 hok' hls' he
  · exact fun w pa k bt r s ws u h hlock ha => codeRead_phys_head h hlock ha
  · exact fun m ls h => oneText_of_versions_nil h
  · exact fun m e a h => wordAt_of_versions_nil h e
  · exact fun m a l e b hb he => wordAt_putBytes m a l hb he
  · exact fun l c => ⟨keepIn_cache_words_le l, keepIn_buffer_length_le⟩

theorem illegalWordTraps : Claims.IllegalWordTraps := by
  refine ⟨?_, ?_, ?_, ?_⟩
  · intro r w s gid g hat hne hlock hd hheld
    exact (exec_illegalInstruction_at r w hat).trans (congrArg Host.Outcome.next (faultAll_of_taken hat rfl hne hlock hheld hd))
  · intro r w s gid g hat hlock
    exact (exec_illegalInstruction_at r w hat).trans (congrArg Host.Outcome.next (faultAll_of_locked hat rfl hlock))
  · intro r w s gid g d hat hlock hheld hd
    exact (exec_illegalInstruction_at r w hat).trans (congrArg Host.Outcome.next (faultAll_of_silent hat rfl hlock hheld hd))
  · intro r w s qk x p hc hx hp
    exact exec_illegalInstruction_slice r w hc hx hp

/-- Settles O37: clause entry by cases of where the clause comes from and of what throttling holds, the illegal word by cases of
what the writing of the image waits for. -/
theorem clauseEntryResults : Obligations.ClauseEntryResults := ⟨clauseEntries, illegalWordTraps⟩

end Sys2Proof.Laws

/-! Where threads stand after a slot and after a regrouping: two states that the statements on them leave out of account (R28, R30,
R321). -/

namespace Sys2Proof.Laws

open Sys2Proof.Machine

/-- A group of one thread in the last slot of its clause, within an act in which that thread reads lost data (R321). -/
def lostAtLastSlot : State :=
  { State.reset with
    groups := [(1, ⟨0, 0, [0], ⟨0, 0, [0], 0⟩, [], .none⟩)]
    threads := [(0, newThread 0 0 0 0 0 0 soloRecord true)]
    lost := [(0, ⟨14, 0, 0, 0⟩)] }

theorem advance_parks_lost_lane : (getThread (advance lostAtLastSlot 1) 0).map (·.st) = some .parked := by decide

/-- Refutes O55: a lane that reads lost data is parked as its group closes, until it takes its fault (R32, R321), and does not stand
at the next header; the statement leaves `State.lost` free. -/
theorem not_advanceFrame : ¬ Obligations.AdvanceFrame := by
  rintro ⟨-, -, hclose⟩
  obtain ⟨y, hy, hst, -⟩ := hclose lostAtLastSlot 1 _ 0 _ rfl (by decide) rfl (by decide) rfl rfl
  have hparked := advance_parks_lost_lane
  rw [hy, Option.map_some, hst] at hparked
  simp at hparked

/-- Thread 0 is parked, and there is no other thread. -/
def oneParked : State :=
  { State.reset with threads := [(0, { newThread 0 0 0 0 0 0 soloRecord true with st := .parked })] }

/-- A pass of one word, at its slot. -/
def oneSlotPass : Pass := ⟨0, 0, [0], 0⟩

theorem regroup_behind_missing_thread :
    (getThread (regroup oneParked [(1, oneSlotPass), (0, oneSlotPass)]) 0).map (·.st) = some .parked := by decide

/-- Refutes O26: where the first key listed at a point is no thread's, no group is formed there, and a thread listed behind it stays
where it stands; the statement leaves the listed keys free. -/
theorem not_maskVoteShuffleResults : ¬ Obligations.MaskVoteShuffleResults := by
  rintro ⟨⟨-, -, -, -, -, -, -, hregroup⟩, -⟩
  obtain ⟨u, hu, hst⟩ := hregroup oneParked [(1, oneSlotPass), (0, oneSlotPass)] 0 oneSlotPass _ (by decide) rfl
  have hparked := regroup_behind_missing_thread
  rw [hu, Option.map_some, Option.some.injEq] at hparked
  simp [hparked] at hst

end Sys2Proof.Laws


/-! Group barriers (R36, R218). -/

namespace Sys2Proof.Laws

open Sys2Proof.Machine Sys2Proof.Claims Sys2Proof.Safety

/-! ## The barrier's count -/

/-- The barrier after one more arrival, before it is asked whether the phase is full. -/
def barStep (b : Bar) (k : Nat) (a : Arr) : Bar :=
  { b with arrived := b.arrived + 1, who := b.who ++ [k], drop := if a == .gdrop then b.drop + 1 else b.drop }

@[simp] theorem barRun_nil (n : Nat) (b : Bar) : barRun n b [] = b := by cases n <;> rfl

/-- An arrival of a thread that has not arrived in the phase. -/
theorem barRun_cons_of_new {b : Bar} {k : Nat} (h : b.who.contains k = false) (n : Nat) (a : Arr) (r : List (Nat × Arr)) :
    barRun (n + 1) b ((k, a) :: r)
      = if barFull (barStep b k a) then barRun n (barFlip (barStep b k a)) (b.later ++ r) else barRun n (barStep b k a) r := by
  simp only [barRun, h, Bool.false_eq_true, if_false]
  rfl

/-- An arrival of one that has waits for the flip. -/
theorem barRun_cons_of_again {b : Bar} {k : Nat} (h : b.who.contains k = true) (n : Nat) (a : Arr) (r : List (Nat × Arr)) :
    barRun (n + 1) b ((k, a) :: r) = barRun n { b with later := b.later ++ [(k, a)] } r := by
  simp only [barRun, h, if_true]

/-- The steps allowed for one arrival are enough to take it. -/
theorem exists_barFuel_succ (b : Bar) (n : Nat) : ∃ m, barFuel b n = m + 1 := ⟨_, (Nat.succ_pred (by simp [barFuel])).symm⟩

theorem barArrive_one_of_new {b : Bar} {k : Nat} (hl : b.later = []) (h : b.who.contains k = false) (a : Arr) :
    barArrive b [(k, a)] = if barFull (barStep b k a) then barFlip (barStep b k a) else barStep b k a := by
  obtain ⟨m, hm⟩ := exists_barFuel_succ b 1
  simp only [barArrive, List.length_singleton, hm, barRun_cons_of_new h, hl, List.append_nil, barRun_nil]

theorem barArrive_one_of_again {b : Bar} {k : Nat} (h : b.who.contains k = true) (a : Arr) :
    barArrive b [(k, a)] = { b with later := b.later ++ [(k, a)] } := by
  obtain ⟨m, hm⟩ := exists_barFuel_succ b 1
  simp only [barArrive, List.length_singleton, hm, barRun_cons_of_again h, barRun_nil]

theorem barFull_iff (b : Bar) : barFull b = true ↔ b.expected ≠ 0 ∧ b.expected ≤ b.arrived := by
  simp [barFull]

/-- A flip with no arrival waiting. -/
theorem barFlip_of_later {b : Bar} (h : b.later = []) : barFlip b = flipped b b.drop := by
  simp [barFlip, flipped, h]

theorem barJoin_of_expected {b : Bar} (h : b.expected ≠ 0) (n : Nat) : barJoin b n = { b with join := b.join + n } := by
  simp only [barJoin, h, if_false]

theorem barJoin_of_unexpected {b : Bar} (h : b.expected = 0) (hl : b.later = []) (n : Nat) :
    barJoin b n = (let c := { b with expected := min n (2 ^ 32 - 1) }
      if n ≠ 0 ∧ min n (2 ^ 32 - 1) ≤ b.arrived then flipped c b.drop else c) := by
  have hfull : barFull { b with expected := min n (2 ^ 32 - 1) } = true ↔ n ≠ 0 ∧ min n (2 ^ 32 - 1) ≤ b.arrived := by
    rw [barFull_iff]
    simp only
    omega
  have hrun (m : Nat) (c : Bar) : barRun m c b.later = c := by rw [hl, barRun_nil]
  simp only [barJoin, h, if_true, hrun, hfull]
  rw [barFlip_of_later (show ({ b with expected := min n (2 ^ 32 - 1) } : Bar).later = [] from hl)]

/-! ## The instructions -/

theorem arriveLane_of_arriveStep {a : Arr} {x : BarOps} {gid k : Nat} {t : Thread} {s u : State}
    (h : arriveStep a x gid k t s = some u) : arriveLane a x gid k t s = (u, none) := by
  simp only [arriveStep, Option.some.injEq] at h
  simp only [arriveLane, ← h]
  cases barTarget (getBar s t.cgu x.b.toNat) k a <;> rfl

theorem exec_gjoin_at {s : State} {gid : Nat} {g : Group} (x : BarOps) (h : At s gid g) :
    exec (.gjoin x) s = .next (let cs := (threadsOf s (activeOf s g x.g)).map (fun e => e.2.cgu)
      advance (cs.eraseDups.foldl (fun s c => setBar s c x.b.toNat (barJoin (getBar s c x.b.toNat) (cs.count c))) s) gid) := by
  change execGjoin x s = _
  have hcs : (activeOf s g x.g).filterMap (fun k => (getThread s k).map (·.cgu))
      = (threadsOf s (activeOf s g x.g)).map (fun e => e.2.cgu) := by
    simp [threadsOf, List.map_filterMap, Function.comp_def]
  have hjoin (cs : List Nat) : joinGroup x.b.toNat cs
      = fun s c => setBar s c x.b.toNat (barJoin (getBar s c x.b.toNat) (cs.count c)) := by
    funext s c
    simp [joinGroup, List.count_eq_length_filter]
  simp only [execGjoin, groupOp_at x.g _ h, hcs, hjoin]

/-- Settles O25: the count of arrivals by cases of whether the thread has arrived already, the instructions by their lanes. -/
theorem groupBarrierResults : Obligations.GroupBarrierResults := by
  refine ⟨?_, ?_, ?_, ?_, ?_, ?_, ?_, ?_, ?_⟩
  · exact fun x s gid g u h hr => congrArg Host.Outcome.next (laneOp_steps (fun _ _ _ _ _ => arriveLane_of_arriveStep) h hr)
  · exact fun x s gid g u h hr => congrArg Host.Outcome.next (laneOp_steps (fun _ _ _ _ _ => arriveLane_of_arriveStep) h hr)
  · exact fun x s gid g u h hr => congrArg Host.Outcome.next (laneOp_steps (fun _ _ _ _ _ => arriveLane_of_arriveStep) h hr)
  · exact fun x s gid g h => exec_gjoin_at x h
  · intro b k a hl h
    rw [barArrive_one_of_new hl h, barFlip_of_later (show (barStep b k a).later = [] from hl)]
    simp only [barFull_iff, barStep, flipped]
    cases a <;> simp
  · exact fun b k a h => barArrive_one_of_again h a
  · exact fun b n h => barJoin_of_expected h n
  · exact fun b n h hl => barJoin_of_unexpected h hl n
  · intro b k
    cases h : b.who.contains k <;> simp only [barTarget, h, Bool.false_eq_true, if_true, if_false]

end Sys2Proof.Laws


/-! A breach in mode 1 (R77, R32): the lane that breaches traps and writes nothing, the others complete. -/

namespace Sys2Proof.Laws

open Sys2Proof.Machine Sys2Proof.Claims Sys2Proof.Safety

/-! ## What a checked lane does -/

/-- The trap of a lane whose bound breaches, by its ARG0. -/
def breachInfo (a : DWord) : FInfo := ⟨4, 0, a, 0⟩

/-- The breach check of the unit is that of R77: flags, or the trap. -/
theorem breachRule_eq (t : Thread) (b : BitVec 16) (fl : Byte) :
    breachRule t b fl = match breachFlags t b fl with
      | some f => .ok f
      | none => .error (breachInfo (breachArg b ((t.bud >>> 16).setWidth 16))) := by
  have hbr : breaches t.bud b = !(t.bud.toNat % 4 = 0 || bdLe (bdOf b) (bdOf ((t.bud >>> 16).setWidth 16)) : Bool) := by
    rw [Bool.eq_iff_iff]
    simp [breaches, budMode, budB]
  simp only [breachRule, breachFlags, hbr]
  cases (t.bud.toNat % 4 = 0 || bdLe (bdOf b) (bdOf ((t.bud >>> 16).setWidth 16)) : Bool)
  · by_cases hm : t.bud.toNat % 4 = 1
    · simp only [budMode, hm, if_true, Bool.not_false, Bool.false_eq_true, if_false]; rfl
    · simp only [budMode, hm, if_false, Bool.not_false, if_true, Bool.false_eq_true]; rfl
  · simp

theorem withResult_eq (t : Thread) (wide : Bool) (d : VReg) (r : Deliv) (fl : Byte) :
    orFlags (setRegs t (wrTy wide d r.bits r.bnd)) fl = withResult t wide d r fl := by
  cases wide <;> rfl

/-- A checked lane delivers its result, or takes the trap of a breach. -/
theorem deliver_eq (wide : Bool) (d : VReg) (r : Thread → Deliv) (t : Thread) :
    deliver t wide d (r t) = (checkedOr wide d r t).mapError breachInfo := by
  simp only [deliver, breachRule_eq, checkedOr, checked]
  cases breachFlags t (r t).bnd (r t).fl with
  | none => rfl
  | some f => exact congrArg Except.ok (withResult_eq ..)

theorem checkedOr_ok {t : Thread} (h : t.bud.toNat % 4 ≠ 1) (wide : Bool) (d : VReg) (r : Thread → Deliv) :
    ∃ u, checkedOr wide d r t = .ok u := by
  have hfl : ∃ f, breachFlags t (r t).bnd (r t).fl = some f := by
    unfold breachFlags
    rw [if_neg h]
    split <;> exact ⟨_, rfl⟩
  obtain ⟨f, hf⟩ := hfl
  exact ⟨withResult t wide d (r t) f, by simp only [checkedOr, checked, hf, Option.map_some]⟩

theorem checkedOr_error {t : Thread} {r : Thread → Deliv} (h : t.bud.toNat % 4 = 1)
    (hb : bdLe (bdOf (r t).bnd) (bdOf ((t.bud >>> 16).setWidth 16)) = false) (wide : Bool) (d : VReg) :
    checkedOr wide d r t = .error (breachArg (r t).bnd ((t.bud >>> 16).setWidth 16)) := by
  simp [checkedOr, checked, breachFlags, h, hb]

/-! ## The lanes of a group -/

/-- Lanes that change their own thread or take the trap of a breach. -/
theorem foldLanes_breachRun {F : Thread → Except FInfo Thread} {f : Thread → Except DWord Thread}
    (hf : ∀ t, F t = (f t).mapError breachInfo) (ks : List Nat) (s : State) :
    foldLanes (ownLane F) ks s = breachRun f ks s := by
  induction ks generalizing s with
  | nil => rfl
  | cons k r ih =>
    unfold foldLanes breachRun
    cases ht : getThread s k with
    | none => exact ih s
    | some t =>
      dsimp only [ownLane]
      rw [hf t]
      cases f t with
      | ok u => exact ih _
      | error a => simp only [Except.mapError, ih]; rfl

theorem splitFoldLanes_breachRun {F : Thread → Except FInfo Thread} {f : Thread → Except DWord Thread}
    (hf : ∀ t, F t = (f t).mapError breachInfo) (ks : List Nat) (s : State) (gid : Nat) (g : Group) :
    splitGroup s (foldLanes (ownLane F) ks s).1 gid g (foldLanes (ownLane F) ks s).2 false
      = splitGroup s (breachRun f ks s).1 gid g (breachRun f ks s).2 false := by
  rw [foldLanes_breachRun hf]

/-- An instruction whose lanes check their result's bound each. -/
theorem breachTraps_of_threadOp {i : Instr} {gd : Guard} {F : Thread → Except FInfo Thread} {f : Thread → Except DWord Thread}
    (hi : ∀ s, exec i s = .next (threadOp gd F s)) (hf : ∀ t, F t = (f t).mapError breachInfo) : BreachTraps i gd f := by
  intro s gid g h
  rw [hi s, threadOp, laneOp_at gd _ h, foldLanes_breachRun hf, splitGroup_of_lost h.2]

/-- The same of a unit that delivers one result. -/
theorem breachTraps_of_deliver {i : Instr} {gd : Guard} {wide : Bool} {d : VReg} {r : Thread → Deliv}
    (hi : ∀ s, exec i s = .next (threadOp gd (fun t => deliver t wide d (r t)) s)) : BreachTraps i gd (checkedOr wide d r) :=
  breachTraps_of_threadOp hi (deliver_eq wide d r)

/-- A bound tested against a limit, with the trap of a breach. -/
theorem bchk_mapError (x : BchkOps) (t : Thread) (lim : BitVec 16) :
    (if bdLe (bdOf (tBnd t x.a)) (bdOf lim) then .ok (setPred t x.p true)
     else if x.trap && budMode t.bud == 1 then .error (faultOf 4 0 (d64 ((tBnd t x.a).toNat + lim.toNat * 65536)) 0)
     else .ok (if x.trap && budMode t.bud == 2 then orFlags (setPred t x.p false) flBD else setPred t x.p false))
      = (if bdLe (bdOf (tBnd t x.a)) (bdOf lim) then .ok (setPred t x.p true)
         else if x.trap && budMode t.bud == 1 then .error (breachArg (tBnd t x.a) lim)
         else
           let u := setPred t x.p false
           .ok (if x.trap && budMode t.bud == 2 then { u with flags := u.flags ||| 0x20 } else u) : Except DWord Thread).mapError
             breachInfo := by
  cases bdLe (bdOf (tBnd t x.a)) (bdOf lim)
  · cases x.trap && budMode t.bud == 1 <;> rfl
  · rfl

/-! ## Quantisation (R186, R190) -/

theorem threadsOf_map {α : Type} (f : Nat → Thread → α) (s : State) (ks : List Nat) :
    ks.filterMap (fun k => (getThread s k).map (f k)) = (threadsOf s ks).map (fun e => f e.1 e.2) := by
  simp [threadsOf, List.map_filterMap, Function.comp_def]

/-- The format word that a lane votes for. -/
def voteWord (s : State) (fw : VReg) (k : Nat) : Word := match getThread s k with
  | some t => tWord t fw
  | none => 0

theorem voteWord_of_get {s : State} {k : Nat} {t : Thread} (h : getThread s k = some t) (fw : VReg) :
    voteWord s fw k = tWord t fw := by
  rw [voteWord, h]

/-- The vote of R59: against the lowest lane's word, then for its reserved values. -/
theorem formatVote_cons (s : State) (r : FwReader) (fw : VReg) (k0 : Nat) (l : List Nat) :
    formatVote s r fw (k0 :: l)
      = (let out := (k0 :: l).filter (fun k => voteWord s fw k != voteWord s fw k0)
         if !out.isEmpty then .error (fun k => faultOf 5 0 ((laneMask s out).setWidth 64)
           (pairWord (voteWord s fw k) (voteWord s fw k ^^^ voteWord s fw k0)))
         else if fwBad r (voteWord s fw k0) ≠ 0 then
           .error (fun _ => faultOf 5 1 0 (pairWord (voteWord s fw k0) (fwBad r (voteWord s fw k0))))
         else .ok (voteWord s fw k0)) := rfl

/-- Lanes that agree on a word without reserved values vote for it. -/
theorem formatVote_of_agree {s : State} {ks : List Nat} {r : FwReader} {fw : VReg} {w : Word} (hne : ks ≠ [])
    (hks : ∀ k ∈ ks, ∃ t, getThread s k = some t) (h : agree s ks r fw w) : formatVote s r fw ks = .ok w := by
  obtain ⟨hw, hbad⟩ := h
  have hword : ∀ k ∈ ks, voteWord s fw k = w := fun k hk => by
    obtain ⟨t, ht⟩ := hks k hk
    rw [voteWord_of_get ht]
    exact hw k hk t ht
  cases ks with
  | nil => exact absurd rfl hne
  | cons k0 l =>
    have hl : ∀ k ∈ l, voteWord s fw k = w := fun k hk => hword k (by simp [hk])
    simpa [formatVote_cons, hword k0, hbad] using hl

theorem get_of_mem_activeOf {s : State} {g : Group} {gd : Guard} {k : Nat} (h : k ∈ activeOf s g gd) :
    ∃ t, getThread s k = some t := by
  have hg := (List.mem_filter.mp (List.mem_filter.mp h).1).2
  cases ht : getThread s k with
  | none => simp [ht] at hg
  | some t => exact ⟨t, rfl⟩

/-- A quantisation instruction whose checks pass (R186). -/
theorem quantOp_run {s : State} {gid : Nat} {g : Group} {gd : Guard} {r : FwReader} {fw : VReg} {w : Word} (hat : At s gid g)
    (run : Word → Nat → Group → List Nat → State → State) (hne : activeOf s g gd ≠ []) (hfull : fullWarp s g = true)
    (h : agree s (activeOf s g gd) r fw w) : quantOp gd r fw run s = run w gid g (activeOf s g gd) s := by
  simp only [quantOp, groupOp_at gd _ hat, List.isEmpty_iff, hne, hfull, Bool.not_true, Bool.false_eq_true, if_false,
    formatVote_of_agree hne (fun _ => get_of_mem_activeOf) h]

/-- A lane of QNT writes what its block gives it, or takes the trap of a breach. -/
theorem qntRun_eq (ol : Bool) (x : QntOps) (w : Word) (gid : Nat) (g : Group) {s : State} (act : List Nat) :
    qntRun ol x w gid g act s
      = (let y := breachRun (qntOr ol x w (threadsOf s act)) act s
         splitGroup s y.1 gid g y.2 false) := by
  unfold qntRun
  simp only [threadsOf_map (qLane (fwFb w) ol x)]
  refine splitFoldLanes_breachRun (fun t => ?_) act s gid g
  simp only [qntOr, qntThread, qntOut]
  cases ((threadsOf s act).map (fun e => qLane (fwFb w) ol x e.1 e.2)).find? (fun l => l.lane == t.lane) with
  | none => rfl
  | some l =>
    simp only [breachRule_eq, Option.map_some, Option.getD_some]
    generalize qntLane _ _ _ _ _ _ _ _ _ = r
    cases breachFlags t r.bnd r.fl <;> rfl

theorem exec_qnt_breach {i : Instr} {ol : Bool} {x : QntOps} (hi : (i, ol) ∈ [(Instr.qnt x, false), (.qntOl x, true)])
    {s : State} {gid : Nat} {g : Group} {w : Word} (hat : At s gid g) (hne : activeOf s g x.g ≠ []) (hfull : fullWarp s g = true)
    (h : agree s (activeOf s g x.g) (if ol then .qntOl else .qnt) x.fw w) :
    exec i s = .next (let y := breachRun (qntOr ol x w (threadsOf s (activeOf s g x.g))) (activeOf s g x.g) s
      splitGroup s y.1 gid g y.2 false) := by
  simp only [List.mem_cons, Prod.mk.injEq, List.not_mem_nil, or_false] at hi
  rcases hi with ⟨rfl, rfl⟩ | ⟨rfl, rfl⟩
  · change execQnt x s = _
    rw [execQnt, quantOp_run (r := .qnt) hat _ hne hfull h, qntRun_eq]
  · change execQntOl x s = _
    rw [execQntOl, quantOp_run (r := .qntOl) hat _ hne hfull h, qntRun_eq]

/-! ## The statement -/

/-- Settles O6: each lane function is the claim's with the trap's cause and ARG0, and a group's lanes run one after another. -/
theorem breachTrapsInModeOne : Obligations.BreachTrapsInModeOne := by
  refine ⟨?_, ?_, ?_, ?_, ?_, ?_, ?_, ?_, ?_, ?_, ?_⟩
  · exact fun x => breachTraps_of_deliver (r := arith .add false x) (fun _ => rfl)
  · exact fun x => breachTraps_of_deliver (r := arith .add true x) (fun _ => rfl)
  · exact fun x => breachTraps_of_deliver (r := arith .mul false x) (fun _ => rfl)
  · exact fun x => breachTraps_of_deliver (fun _ => rfl)
  · exact fun x => breachTraps_of_deliver (fun _ => rfl)
  · exact fun x => breachTraps_of_deliver (fun _ => rfl)
  · intro i u x hi
    simp only [List.mem_cons, Prod.mk.injEq, List.not_mem_nil, or_false] at hi
    rcases hi with ⟨rfl, rfl⟩ | ⟨rfl, rfl⟩ | ⟨rfl, rfl⟩ | ⟨rfl, rfl⟩ | ⟨rfl, rfl⟩ <;> exact breachTraps_of_deliver (fun _ => rfl)
  · exact fun x => breachTraps_of_threadOp (fun _ => rfl) (fun t => bchk_mapError x t _)
  · exact fun i ol x hi s gid g w hat hne hfull h => exec_qnt_breach hi hat hne hfull h
  · exact fun wide d r t h => checkedOr_ok h wide d r
  · exact fun wide d r t h hb => checkedOr_error h hb wide d

end Sys2Proof.Laws


/-! SUPPORT. What moves threads between clause entries, groups and generator bodies (R26-R30, R39-R42) leaves as it was: all but
where the threads stand. -/

namespace Sys2Proof.Laws

open Sys2Proof.Machine Sys2Proof.Claims Sys2Proof.Safety

/-! ## A thread, a warp -/

/-- A thread as it was but for where it stands. -/
def Moved (x y : Thread) : Prop :=
  y = { x with pc := y.pc, st := y.st, pass := y.pass, prod := y.prod, frame := y.frame, mw := y.mw }

namespace Moved

theorem refl (x : Thread) : Moved x x := rfl

theorem trans {x y z : Thread} (h : Moved x y) (k : Moved y z) : Moved x z := by
  unfold Moved at *
  rw [k, h]

theorem stop {x y : Thread} (h : Moved x y) : y.stop = x.stop := by rw [h]
theorem warpKeyOf {x y : Thread} (h : Moved x y) : Machine.warpKeyOf y = Machine.warpKeyOf x := by rw [h]; rfl
theorem lane {x y : Thread} (h : Moved x y) : y.lane = x.lane := by rw [h]

end Moved

theorem moved_toEntry (pc : DWord) (x : Thread) : Moved x (toEntry pc x) := rfl

/-- A warp as it was but for its generator region. -/
def SameButGen (w v : Warp) : Prop := v = { w with gen := v.gen }

namespace SameButGen

theorem refl (w : Warp) : SameButGen w w := rfl

theorem trans {u v w : Warp} (h : SameButGen u v) (k : SameButGen v w) : SameButGen u w := by
  unfold SameButGen at *
  rw [k, h]

end SameButGen

/-! ## Related places of two maps -/

theorem rel_refl {α : Type} {R : α → α → Prop} (h : ∀ a, R a a) (o : Option α) : Option.Rel R o o := by
  cases o
  · exact .none
  · exact .some (h _)

theorem rel_trans {α : Type} {R : α → α → Prop} (h : ∀ {a b c}, R a b → R b c → R a c) {o p q : Option α} (hop : Option.Rel R o p)
    (hpq : Option.Rel R p q) : Option.Rel R o q := by
  cases hop with
  | none => exact hpq
  | some hab =>
    cases hpq with
    | some hbc => exact .some (h hab hbc)

/-- A map changed at one key, where it changes as `R` says. -/
theorem rel_adjust {α : Type} {R : α → α → Prop} (hr : ∀ a, R a a) (m : Map α) (a : Nat) {f : α → α} (hf : ∀ x, R x (f x)) (b : Nat) :
    Option.Rel R (Map.get? m b) (Map.get? (Map.adjust m a f) b) := by
  rw [Map.get?_adjust]
  split
  · next e =>
    subst e
    cases Map.get? m b with
    | none => exact .none
    | some x => exact .some (hf x)
  · exact rel_refl hr _

/-- An entry that a map's key reads stands in it. -/
theorem mem_of_get? {α : Type} {m : Map α} {a : Nat} {x : α} (h : Map.get? m a = some x) : (a, x) ∈ m := by
  induction m with
  | nil => exact nomatch h
  | cons e m ih =>
    unfold Map.get? at h
    split at h
    · next hk =>
      cases h
      exact hk ▸ List.mem_cons_self
    · exact List.mem_cons_of_mem _ (ih h)

/-- What stands in a map after a change of one entry. -/
theorem mem_adjust {α : Type} {m : Map α} {a : Nat} {f : α → α} {e : Nat × α} (h : e ∈ Map.adjust m a f) :
    e ∈ m ∨ ∃ x, (a, x) ∈ m ∧ e = (a, f x) := by
  unfold Map.adjust at h
  cases hx : Map.get? m a with
  | none =>
    rw [hx] at h
    exact .inl h
  | some x =>
    rw [hx] at h
    rcases Map.mem_ins h with rfl | h
    · exact .inr ⟨x, mem_of_get? hx, rfl⟩
    · exact .inl (List.mem_of_mem_filter h)

/-! ## The state -/

/-- Threads have moved: each is as it was but for where it stands, no warp has changed but in its generator region, no group waits for
what none waited for, and nothing else has changed. -/
structure Stands (s t : State) : Prop where
  rest : t = { s with nextId := t.nextId, threads := t.threads, groups := t.groups, warps := t.warps }
  thread : ∀ k, Option.Rel Moved (getThread s k) (getThread t k)
  entry : ∀ e ∈ t.threads, ∃ x, (e.1, x) ∈ s.threads ∧ Moved x e.2
  warp : ∀ wk, Option.Rel SameButGen (Map.get? s.warps wk) (Map.get? t.warps wk)
  wait : ∀ e ∈ t.groups, ∀ z ∈ e.2.waits, ∃ e0 ∈ s.groups, z ∈ e0.2.waits

namespace Stands

theorem refl (s : State) : Stands s s where
  rest := rfl
  thread _ := rel_refl Moved.refl _
  entry e he := ⟨e.2, he, Moved.refl _⟩
  warp _ := rel_refl SameButGen.refl _
  wait e he _ hz := ⟨e, he, hz⟩

theorem trans {s t u : State} (h : Stands s t) (k : Stands t u) : Stands s u where
  rest := by rw [k.rest, h.rest]
  thread j := rel_trans (R := Moved) (fun p q => p.trans q) (h.thread j) (k.thread j)
  entry e he := by
    obtain ⟨x, hx, hxe⟩ := k.entry e he
    obtain ⟨y, hy, hyx⟩ := h.entry _ hx
    exact ⟨y, hy, hyx.trans hxe⟩
  warp j := rel_trans (R := SameButGen) (fun p q => p.trans q) (h.warp j) (k.warp j)
  wait e he z hz := by
    obtain ⟨e1, he1, hz1⟩ := k.wait e he z hz
    exact h.wait e1 he1 z hz1

theorem foldl {α : Type} {f : State → α → State} (hf : ∀ s x, Stands s (f s x)) (l : List α) (s : State) : Stands s (l.foldl f s) :=
  List.foldlRecOn l f (refl s) (fun _ ht x _ => ht.trans (hf _ x))

/-- A thread that is there still is, moved. -/
theorem get {s t : State} (h : Stands s t) {k : Nat} {x : Thread} (hx : getThread s k = some x) :
    ∃ y, getThread t k = some y ∧ Moved x y := by
  have hk := h.thread k
  rw [hx] at hk
  cases ht : getThread t k with
  | none => rw [ht] at hk; cases hk
  | some y =>
    rw [ht] at hk
    cases hk with
    | some hxy => exact ⟨y, rfl, hxy⟩

theorem get_none {s t : State} (h : Stands s t) {k : Nat} (hx : getThread s k = none) : getThread t k = none := by
  have hk := h.thread k
  rw [hx] at hk
  cases ht : getThread t k with
  | none => rfl
  | some y => rw [ht] at hk; cases hk

/-- A warp that is there still is, with all but its region. -/
theorem getWarp {s t : State} (h : Stands s t) {wk : Nat} {w : Warp} (hw : Map.get? s.warps wk = some w) :
    ∃ v, Map.get? t.warps wk = some v ∧ SameButGen w v := by
  have hk := h.warp wk
  rw [hw] at hk
  cases ht : Map.get? t.warps wk with
  | none => rw [ht] at hk; cases hk
  | some v =>
    rw [ht] at hk
    cases hk with
    | some hwv => exact ⟨v, rfl, hwv⟩

/-! ### The operations -/

/-- Groups and numbers change alone, no group waiting for more. -/
theorem of_groups {s : State} (n : Nat) {gs : Map Group} (h : ∀ e ∈ gs, ∀ z ∈ e.2.waits, ∃ e0 ∈ s.groups, z ∈ e0.2.waits) :
    Stands s { s with nextId := n, groups := gs } where
  rest := rfl
  thread _ := rel_refl Moved.refl _
  entry e he := ⟨e.2, he, Moved.refl _⟩
  warp _ := rel_refl SameButGen.refl _
  wait := h

/-- One group is replaced by one that waits for no more. -/
theorem putGroup (s : State) (n gid : Nat) (g : Group) (h : ∀ z ∈ g.waits, ∃ e0 ∈ s.groups, z ∈ e0.2.waits) :
    Stands s { s with nextId := n, groups := Map.put s.groups gid g } :=
  of_groups n (fun e he z hz => by
    rcases Map.mem_ins he with rfl | he
    · exact h z hz
    · exact ⟨e, List.mem_of_mem_filter he, hz⟩)

theorem eraseGroup (s : State) (gid : Nat) : Stands s { s with groups := Map.erase s.groups gid } :=
  of_groups s.nextId (fun e he _ hz => ⟨e, List.mem_of_mem_filter he, hz⟩)

theorem modThread (s : State) (k : Nat) {f : Thread → Thread} (hf : ∀ x, Moved x (f x)) : Stands s (modThread s k f) where
  rest := rfl
  thread j := rel_adjust Moved.refl s.threads k hf j
  entry e he := by
    rcases mem_adjust he with he | ⟨x, hx, rfl⟩
    · exact ⟨e.2, he, Moved.refl _⟩
    · exact ⟨x, hx, hf x⟩
  warp _ := rel_refl SameButGen.refl _
  wait e he _ hz := ⟨e, he, hz⟩

theorem modWarp (s : State) (k : Nat) {f : Warp → Warp} (hf : ∀ x, SameButGen x (f x)) : Stands s (modWarp s k f) where
  rest := rfl
  thread _ := rel_refl Moved.refl _
  entry e he := ⟨e.2, he, Moved.refl _⟩
  warp j := rel_adjust SameButGen.refl s.warps k hf j
  wait e he _ hz := ⟨e, he, hz⟩

theorem dropMembers (s : State) (gid : Nat) (ks : List Nat) : Stands s (dropMembers s gid ks) := by
  unfold Machine.dropMembers
  cases hg : getGroup s gid with
  | none => exact refl s
  | some g =>
    dsimp only
    split
    · exact eraseGroup s gid
    · exact putGroup s s.nextId gid _ (fun z hz => ⟨(gid, g), mem_of_get? hg, List.mem_of_mem_filter hz⟩)

theorem leaveGroup (s : State) (k : Nat) : Stands s (leaveGroup s k) := by
  unfold Machine.leaveGroup
  split
  · split
    · exact dropMembers s _ _
    · exact refl s
  · exact refl s

theorem formGroup (s : State) (ks : List Nat) (p : Pass) (hold : Hold) : Stands s (formGroup s ks p hold) := by
  unfold Machine.formGroup
  split
  · exact refl s
  · exact (putGroup s _ _ _ (fun z hz => absurd hz (List.not_mem_nil))).trans
      (foldl (fun s k => modThread s k (by intro _; rfl)) ks _)

theorem regroupTeams (s : State) (l : List (Nat × Nat × Pass)) (hold : Hold) : Stands s (regroupTeams s l hold) := by
  unfold Machine.regroupTeams
  refine foldl (fun s e => ?_) _ s
  dsimp only
  split
  · exact foldl (fun s k => modThread s k (by intro _; rfl)) _ s
  · split
    · exact formGroup s _ _ _
    · exact foldl (fun s k => modThread s k (by intro _; rfl)) _ s

theorem regroup (s : State) (l : List (Nat × Pass)) (hold : Hold := .none) : Stands s (regroup s l hold) := regroupTeams s _ hold

theorem genStart (s : State) (wk : Nat) (r : Region) : Stands s (genStart s wk r) := by
  unfold Machine.genStart
  refine (foldl (fun s e => ?_) _ s).trans (modWarp _ wk ?_)
  · refine (leaveGroup s e.1).trans (modThread _ e.1 (fun x => ?_))
    dsimp only
    split <;> rfl
  · exact fun _ => rfl

theorem genRestore (s : State) (wk : Nat) : Stands s (genRestore s wk) := by
  unfold Machine.genRestore
  refine (foldl (fun s (e : Nat × Thread) => modThread s e.1 (fun x => ?_)) _ s).trans (regroupTeams _ _ _)
  cases x.prod with
  | none => rfl
  | some p => rfl

theorem genEnd (s : State) (wk : Nat) (r : Region) : Stands s (genEnd s wk r) :=
  (foldl (fun s (e : Nat × Thread) => modThread s e.1 (by intro _; rfl)) _ s).trans (modWarp _ wk (by intro _; rfl))

theorem genChoose (s : State) (wk : Nat) : Stands s (genChoose s wk) := by
  unfold Machine.genChoose
  split
  · exact refl s
  · next r _ =>
    dsimp only
    split
    · exact refl s
    split
    · exact modWarp s wk (by intro _; rfl)
    split
    · exact refl s
    split
    · exact genStart s wk r
    split
    · exact genEnd s wk r
    · exact refl s

theorem genCheck (s : State) (wk : Nat) : Stands s (genCheck s wk) := by
  unfold Machine.genCheck
  split
  · exact refl s
  · split
    · exact genChoose s wk
    · dsimp only
      split
      · exact ((modWarp s wk (by intro _; rfl)).trans (genRestore _ wk)).trans (genChoose _ wk)
      · exact refl s

theorem genChecks (s : State) (ks : List Nat) : Stands s (genChecks s ks) := foldl genCheck _ s

theorem mwaitCheck (s : State) (wk m : Nat) : Stands s (mwaitCheck s wk m) := by
  unfold Machine.mwaitCheck
  split
  · exact refl s
  · dsimp only
    split
    · exact refl s
    · exact ((foldl (fun s (e : Nat × Thread) => modThread s e.1 (by intro _; rfl)) _ s).trans (regroup _ _)).trans (genCheck _ wk)

theorem mwaitChecks (s : State) (wk : Nat) : Stands s (mwaitChecks s wk) := foldl (fun s m => mwaitCheck s wk m) _ s

theorem setHold (s : State) (gid : Nat) (h : Hold) : Stands s (setHold s gid h) := by
  refine of_groups s.nextId (fun e he z hz => ?_)
  rcases mem_adjust he with he | ⟨g, hg, rfl⟩
  · exact ⟨e, he, hz⟩
  · exact ⟨_, hg, hz⟩

theorem closeGroup (s : State) (gid : Nat) : Stands s (closeGroup s gid) := by
  unfold Machine.closeGroup
  cases getGroup s gid with
  | none => exact refl s
  | some g =>
    refine ((eraseGroup s gid).trans (foldl (fun u k => modThread u k (fun x => ?_)) _ _)).trans (genChecks _ _)
    split <;> rfl

theorem advance (s : State) (gid : Nat) : Stands s (advance s gid) := by
  unfold Machine.advance
  cases hg : getGroup s gid with
  | none => exact refl s
  | some g =>
    dsimp only
    have hput := putGroup s s.nextId gid { g with pass := { g.pass with slot := g.pass.slot + 1 }, hold := .none }
      (fun z hz => ⟨(gid, g), mem_of_get? hg, hz⟩)
    split
    · exact hput
    · exact hput.trans (closeGroup _ gid)

theorem settleGroup (s : State) (gid : Nat) : Stands s (settleGroup s gid) := by
  unfold Machine.settleGroup
  split
  · split
    · exact closeGroup s gid
    · exact refl s
  · exact refl s

end Stands

/-! ## Without a generator region -/

theorem genCheck_of_none {s : State} {wk : Nat} (h : (Map.get? s.warps wk).bind (fun w => w.gen) = none) : genCheck s wk = s := by
  unfold genCheck
  rw [h]

theorem genCheck_of_all {s : State} (h : s.warps.all (fun e => e.2.gen.isNone) = true) (wk : Nat) : genCheck s wk = s := by
  refine genCheck_of_none ?_
  cases hw : Map.get? s.warps wk with
  | none => rfl
  | some w => exact Option.isNone_iff_eq_none.mp (List.all_eq_true.mp h _ (mem_of_get? hw))

theorem genChecks_of_all {s : State} (h : s.warps.all (fun e => e.2.gen.isNone) = true) (ks : List Nat) : genChecks s ks = s := by
  unfold genChecks
  generalize ((ks.filterMap (getThread s)).map warpKeyOf).eraseDups = l
  induction l with
  | nil => rfl
  | cons a l ih => rw [List.foldl_cons, genCheck_of_all h, ih]

end Sys2Proof.Laws


/-! SUPPORT. What a write by one of the device's own agents leaves as it was (R364): it changes memory, the stashes' lines and what the
partitions hold under a lock; so a change of a fragment-table entry and of its image (R307). -/

namespace Sys2Proof.Laws

open Sys2Proof.Machine Sys2Proof.Claims Sys2Proof.Safety

/-! ## A partition, a core group -/

/-- A partition holds what it held, and perhaps more writes under its lock. -/
def HoldsMore (p q : Part) : Prop := ∃ hs, q = { p with held := p.held ++ hs }

namespace HoldsMore

theorem refl (p : Part) : HoldsMore p p := ⟨[], by rw [List.append_nil]⟩

theorem trans {p q r : Part} (h : HoldsMore p q) (k : HoldsMore q r) : HoldsMore p r := by
  obtain ⟨hs, rfl⟩ := h
  obtain ⟨ks, rfl⟩ := k
  exact ⟨hs ++ ks, by rw [List.append_assoc]⟩

end HoldsMore

/-- A core group as it was but for the lines of its stash. -/
def SameButLines (c d : CoreGroup) : Prop := d = { c with slines := d.slines }

namespace SameButLines

theorem refl (c : CoreGroup) : SameButLines c c := rfl

theorem trans {c d e : CoreGroup} (h : SameButLines c d) (k : SameButLines d e) : SameButLines c e := by
  unfold SameButLines at *
  rw [k, h]

end SameButLines

theorem partOf_setPart (s : State) (p q : Nat) (f : Part → Part) :
    partOf (setPart s p f) q = if q = p then f (partOf s p) else partOf s q := by
  unfold partOf setPart Map.get
  rw [Map.get?_put]
  split <;> rfl

theorem holdWrite_part (s : State) (p q : Nat) (h : Held) : HoldsMore (partOf s q) (partOf (holdWrite s p h) q) := by
  rw [holdWrite, partOf_setPart]
  split
  · next e =>
    subst e
    exact ⟨[h], rfl⟩
  · exact .refl _

/-! ## The state -/

/-- Agents of the device have written: memory and the package beside it, lines of stashes and held writes may differ. -/
structure AgentWrites (s t : State) : Prop where
  rest : t = { s with mem := t.mem, pkg := t.pkg, coreGroups := t.coreGroups, parts := t.parts }
  part : ∀ p, HoldsMore (partOf s p) (partOf t p)
  core : ∀ c, Option.Rel SameButLines (Map.get? s.coreGroups c) (Map.get? t.coreGroups c)

theorem get?_map {α : Type} (m : Map α) (f : Nat × α → α) (a : Nat) :
    Map.get? (m.map (fun e => (e.1, f e))) a = (Map.get? m a).map (fun x => f (a, x)) := by
  induction m with
  | nil => rfl
  | cons e m ih =>
    simp only [List.map_cons, Map.get?]
    split
    · next h => rw [← h]; rfl
    · exact ih

namespace AgentWrites

theorem refl (s : State) : AgentWrites s s := ⟨rfl, fun _ => .refl _, fun _ => rel_refl SameButLines.refl _⟩

theorem trans {s t u : State} (h : AgentWrites s t) (k : AgentWrites t u) : AgentWrites s u where
  rest := by rw [k.rest, h.rest]
  part p := (h.part p).trans (k.part p)
  core c := rel_trans (R := SameButLines) (fun p q => p.trans q) (h.core c) (k.core c)

theorem foldl {α : Type} {f : State → α → State} (hf : ∀ s x, AgentWrites s (f s x)) (l : List α) (s : State) :
    AgentWrites s (l.foldl f s) :=
  List.foldlRecOn l f (refl s) (fun _ ht x _ => ht.trans (hf _ x))

theorem threads {s t : State} (h : AgentWrites s t) : t.threads = s.threads := by rw [h.rest]
theorem warps {s t : State} (h : AgentWrites s t) : t.warps = s.warps := by rw [h.rest]
theorem groups {s t : State} (h : AgentWrites s t) : t.groups = s.groups := by rw [h.rest]
theorem clusterGroups {s t : State} (h : AgentWrites s t) : t.clusterGroups = s.clusterGroups := by rw [h.rest]
theorem frags {s t : State} (h : AgentWrites s t) : t.frags = s.frags := by rw [h.rest]

/-- Memory and the package change alone. -/
theorem of_mem (s : State) (m : MemSys) (k : Package) : AgentWrites s { s with mem := m, pkg := k } :=
  ⟨rfl, fun _ => .refl _, fun _ => rel_refl SameButLines.refl _⟩

theorem dropStash (s : State) (line : Nat) (keep : StashRef) : AgentWrites s (dropStash s line keep) where
  rest := rfl
  part _ := .refl _
  core c := by
    have hm : (Machine.dropStash s line keep).coreGroups = s.coreGroups.map (fun e => (e.1,
        if keep.map (·.1) = some e.1 then e.2 else { e.2 with slines := e.2.slines.filter (fun l => l.2.line != line) })) := by
      refine List.map_congr_left (fun e _ => ?_)
      split <;> rfl
    rw [hm, get?_map]
    cases Map.get? s.coreGroups c with
    | none => exact .none
    | some x =>
      refine .some ?_
      dsimp only
      split <;> rfl

theorem homeAcc (s : State) (a : Nat) : AgentWrites s (homeAcc s (physLoc a) true) := by
  have ha : AgentWrites s (answered s none (lineOf a) true) := foldl (fun s _ => of_mem s _ _) _ s
  exact (ha.trans (of_mem _ _ _)).trans (of_mem _ _ _)

theorem physPoke (s : State) (a : Nat) (l : List Byte) : AgentWrites s (physPoke s a l) :=
  ((homeAcc s a).trans (of_mem _ _ _)).trans (dropStash _ _ _)

theorem holdWrite (s : State) (p : Nat) (h : Held) : AgentWrites s (holdWrite s p h) :=
  ⟨rfl, fun q => holdWrite_part s p q h, fun _ => rel_refl SameButLines.refl _⟩

theorem physStore (s : State) (a : Nat) (l : List Byte) : AgentWrites s (physStore s a l) := by
  unfold Machine.physStore
  split
  · exact holdWrite s _ _
  · exact physPoke s a l

theorem physWrite64 (s : State) (a : Nat) (v : DWord) : AgentWrites s (physWrite64 s a v) := physStore s a _

theorem syncImage (s : State) (fk : Nat) : AgentWrites s (syncImage s fk) := (physWrite64 s _ _).trans (physWrite64 _ _ _)

theorem writeImage (s : State) (fk : Nat) (rpc : DWord) (ms : List Thread) : AgentWrites s (writeImage s fk rpc ms) := by
  unfold Machine.writeImage
  dsimp only
  refine .trans (.trans (.trans (.trans (syncImage s fk) (physWrite64 _ _ _)) (foldl (fun s i => ?_) _ _)) (foldl (fun s t => ?_) _ _))
    (foldl (fun s i => ?_) _ _)
  · exact physWrite64 s _ _
  · exact (physWrite64 s _ _).trans (physWrite64 _ _ _)
  · exact physWrite64 s _ _

end AgentWrites

/-! ## Fragment-table entries -/

theorem modFrag_rest (s : State) (fk : Nat) (f : FEntry → FEntry) :
    AgentWrites (setFrag s fk (f (fragEntry s fk))) (modFrag s fk f) := .syncImage _ _

@[simp] theorem modFrag_threads (s : State) (fk : Nat) (f : FEntry → FEntry) : (modFrag s fk f).threads = s.threads :=
  (modFrag_rest s fk f).threads

@[simp] theorem modFrag_clusterGroups (s : State) (fk : Nat) (f : FEntry → FEntry) : (modFrag s fk f).clusterGroups = s.clusterGroups :=
  (modFrag_rest s fk f).clusterGroups

@[simp] theorem leaveFrag_threads (s : State) (id : Word) (lane : Nat) : (leaveFrag s id lane).threads = s.threads := by
  unfold leaveFrag
  split
  · rfl
  · exact modFrag_threads ..

@[simp] theorem leaveFrag_clusterGroups (s : State) (id : Word) (lane : Nat) :
    (leaveFrag s id lane).clusterGroups = s.clusterGroups := by
  unfold leaveFrag
  split
  · rfl
  · exact modFrag_clusterGroups ..

end Sys2Proof.Laws


/-! Control transfers and EXIT (R38, R65, R230-R232, R310). -/

namespace Sys2Proof.Laws

open Sys2Proof.Machine Sys2Proof.Claims Sys2Proof.Safety

/-! ## Threads and tables that a regrouping leaves alone -/

@[simp] theorem dropMembers_threads (s : State) (gid : Nat) (ks : List Nat) : (dropMembers s gid ks).threads = s.threads := by
  unfold dropMembers
  split
  · rfl
  · dsimp only; split <;> rfl

@[simp] theorem leaveGroup_threads (s : State) (k : Nat) : (leaveGroup s k).threads = s.threads := by
  unfold leaveGroup
  split
  · split
    · exact dropMembers_threads ..
    · rfl
  · rfl

theorem getThread_leaveGroup (s : State) (k j : Nat) : getThread (leaveGroup s k) j = getThread s j := by
  rw [getThread, leaveGroup_threads, getThread]

theorem getThread_modThread (s : State) (k j : Nat) (f : Thread → Thread) :
    getThread (modThread s k f) j = if j = k then (getThread s k).map f else getThread s j := Map.get?_adjust ..

/-! ## Transfers -/

/-- A thread leaves its group for a clause entry. -/
theorem transferLane_of_aligned {dest : Group → Thread → DWord} {g : Group} {t : Thread} {s : State} {k : Nat} (call : Bool)
    (ht : getThread s k = some t) (ha : (dest g t).toNat % 8 = 0) :
    transferLane dest call g k t s = (modThread (leaveGroup s k) k (fun u => toEntry (dest g t)
      { u with lk := if call then nextHdr g.pass else t.lk }), none) := by
  have hk : getThread (leaveGroup s k) k = some t := (getThread_leaveGroup s k k).trans ht
  cases call <;>
    simp only [transferLane, ha, ne_eq, not_true, if_false, modThread_of_get _ hk, Bool.false_eq_true, if_true]

/-- Lanes that all transfer, each from where it stood before. -/
theorem foldLanes_goTo {dest : Group → Thread → DWord} {lk : Group → Thread → DWord} {g : Group} {F : LaneFn}
    {P : Thread → Prop}
    (hF : ∀ k t s, P t → getThread s k = some t → F k t s
      = (modThread (leaveGroup s k) k (fun u => toEntry (dest g t) { u with lk := lk g t }), none))
    (ks : List Nat) (hks : ks.Nodup) {s : State} (hs : ∀ k ∈ ks, ∀ t, getThread s k = some t → P t) :
    foldLanes F ks s = (goTo (dest g) (lk g) ks s, []) := by
  induction ks generalizing s with
  | nil => rfl
  | cons k r ih =>
    obtain ⟨hk, hr⟩ := List.nodup_cons.mp hks
    unfold foldLanes goTo
    cases ht : getThread s k with
    | none =>
      simp only [List.foldl_cons, ht]
      exact ih hr (fun j hj => hs j (by simp [hj]))
    | some t =>
      simp only [List.foldl_cons, ht, hF k t s (hs k (by simp) t ht) ht]
      refine ih hr (fun j hj u hu => hs j (by simp [hj]) u ?_)
      have hjk : j ≠ k := fun e => hk (e ▸ hj)
      rwa [getThread_modThread, if_neg hjk, getThread_leaveGroup] at hu

/-- A transfer of a group whose destinations are aligned. -/
theorem transferOp_at {dest : Group → Thread → DWord} {gd : Guard} {s : State} {gid : Nat} {g : Group} (call : Bool) (h : At s gid g)
    (ha : ∀ k ∈ activeOf s g gd, ∀ t, getThread s k = some t → (dest g t).toNat % 8 = 0) (hn : (activeOf s g gd).Nodup) :
    transferOp gd dest call s = genChecks (advance (goTo (dest g) (fun t => if call then nextHdr g.pass else t.lk) (activeOf s g gd) s) gid)
      (activeOf s g gd) := by
  simp only [transferOp, groupOp_at gd _ h]
  rw [foldLanes_goTo (dest := dest) (lk := fun g t => if call then nextHdr g.pass else t.lk) (P := fun t => (dest g t).toNat % 8 = 0)
    (fun k t s hp ht => transferLane_of_aligned call ht hp) _ hn ha]
  rw [splitGroup_nil h.2]

/-- A transfer that leaves lk. -/
theorem transferOp_transfers {i : Instr} {gd : Guard} {dest : Group → Thread → DWord}
    (hi : ∀ s gid, s.cur = .group gid → exec i s = .next (transferOp gd dest false s)) :
    Transfers i gd dest (fun _ t => t.lk) (fun _ => true) := by
  intro s gid g h ha hn
  rw [hi s gid (cur_of_at h), transferOp_at false h (fun k hk t ht => (ha k hk t ht).1) hn]
  rfl

/-- A transfer that leaves the next header in lk. -/
theorem transferOp_calls {i : Instr} {gd : Guard} {dest : Group → Thread → DWord}
    (hi : ∀ s, exec i s = .next (transferOp gd dest true s)) :
    Transfers i gd dest (fun g _ => g.pass.hdr + 8 + 8 * BitVec.ofNat 64 g.pass.words.length) (fun _ => true) := by
  intro s gid g h ha hn
  rw [hi s, transferOp_at true h (fun k hk t ht => (ha k hk t ht).1) hn]
  rfl

theorem bra_transfers (x : RelOps) :
    Transfers (.bra x) x.g (fun g _ => g.pass.hdr + x.ofs.signExtend 64) (fun _ t => t.lk) (fun _ => true) :=
  transferOp_transfers (dest := relDest x.ofs) (fun s gid hc => by
    change execBra x s = _
    rw [execBra, hc])

theorem bra_slice {x : RelOps} {s : State} {qk : Nat} {c : Slice} {p : Pass} (h : InSlice s qk c p) :
    exec (.bra x) s = .next (modSlice s qk (fun c => atHeader c (p.hdr + x.ofs.signExtend 64))) := by
  obtain ⟨hcur, hslice, hpass⟩ := h
  change execBra x s = _
  rw [execBra, hcur]
  refine congrArg Host.Outcome.next ?_
  unfold getSlice at hslice
  cases hq : Map.get? s.quadGroups qk with
  | none => rw [hq] at hslice; exact nomatch hslice
  | some q =>
    have hc : q.slice = some c := by rw [hq] at hslice; exact hslice
    simp only [modSlice, Map.adjust, hq, hc, Option.map_some, hpass, atHeader]

/-! ## RET -/

theorem toToken_iff {t : Thread} : toToken t = true ↔ t.hand ≠ .none ∧ t.frag ≠ 0 ∧ t.lk = tokenOf t.frag := by
  simp [toToken, and_assoc]

/-- One lane of RET: a thread that names its own token resumes alone, any other goes to lk. -/
def retLane (g : Group) : LaneFn := fun k t s =>
  if toToken t then (match entrySilent s (fragKeyOfId t.frag) with
    | some d => (s, some (waitInfo d))
    | none => (rteCheck (resumeMembers s (fragKeyOfId t.frag) [k]) t.frag, none))
  else transferLane (fun _ t => t.lk) false g k t s

theorem execRet_at {gd : Guard} {s : State} {gid : Nat} {g : Group} (h : At s gid g) :
    exec (.ret gd) s = .next (let r := foldLanes (retLane g) (activeOf s g gd) s
      genChecks (splitGroup s r.1 gid g r.2 false) (activeOf s g gd)) :=
  congrArg Host.Outcome.next (groupOp_at gd _ h)

theorem ret_transfers (gd : Guard) : Transfers (.ret gd) gd (fun _ t => t.lk) (fun _ t => t.lk) (fun t => !toToken t) := by
  intro s gid g h ha hn
  have hF : ∀ k t s, (t.lk.toNat % 8 = 0 ∧ (!toToken t) = true) → getThread s k = some t →
      retLane g k t s = (modThread (leaveGroup s k) k (fun u => toEntry t.lk { u with lk := t.lk }), none) := by
    rintro k t s ⟨hlk, htok⟩ ht
    simp only [retLane, (Bool.not_eq_eq_eq_not.mp htok : toToken t = false)]
    exact transferLane_of_aligned (dest := fun _ t => t.lk) false ht hlk
  rw [execRet_at h, foldLanes_goTo (g := g) (dest := fun _ t => t.lk) (lk := fun _ t => t.lk) hF _ hn ha]
  simp only [splitGroup_nil h.2]

theorem retLane_step (g : Group) (k : Nat) (t : Thread) (s u : State) (h : retStep k t s = some u) :
    retLane g k t s = (u, none) := by
  unfold retStep at h
  unfold retLane
  split at h
  · next htok =>
    split at h
    · exact nomatch h
    · next hd =>
      cases h
      rw [if_pos (toToken_iff.mpr htok)]
      cases he : entrySilent s (fragKeyOfId t.frag) with
      | none => rfl
      | some d => exact absurd (by rw [he]; rfl) hd
  · next htok =>
    split at h
    · exact nomatch h
    · next ha =>
      cases h
      rw [if_neg (fun e => htok (toToken_iff.mp e))]
      unfold transferLane
      rw [if_neg ha]
      rfl

theorem ret_steps {gd : Guard} {s u : State} {gid : Nat} {g : Group} (h : At s gid g)
    (hu : runLanes retStep (activeOf s g gd) s = some u) :
    exec (.ret gd) s = .next (genChecks (advance u gid) (activeOf s g gd)) := by
  rw [execRet_at h, foldLanes_of_runLanes (retLane_step g) _ hu]
  simp only [splitGroup_nil h.2]

/-! ## EXIT (R38, R65, R232) -/

theorem openRegion_eq (s : State) (t : Thread) : openRegion s t = regionOf s t := by
  unfold openRegion regionOf warpRegion warpOf bitOf
  cases (Map.get? s.warps (warpKeyOf t)).bind (fun w => w.gen) with
  | none => rfl
  | some r => cases h : r.out.getLsbD t.lane <;> simp [h]

theorem exit_steps (gd : Guard) : LaneSteps (.exit gd) gd (fun _ k t s =>
    if (openRegion s t).isSome then none else some (rteCheck (exitThread s k) t.frag)) := by
  intro s gid g u h hu
  refine congrArg Host.Outcome.next (laneOp_steps (f := fun _ k t s =>
    if (openRegion s t).isSome then none else some (rteCheck (exitThread s k) t.frag)) (fun _ k t s u hu => ?_) h hu)
  rw [openRegion_eq] at hu
  unfold exitLane
  split at hu
  · exact nomatch hu
  · next hr =>
    cases hu
    rw [if_neg hr]

/-- The flags of every cluster group stay. -/
def SameFlags (s t : State) : Prop := ∀ c, (Map.get? t.clusterGroups c).map (·.flags) = (Map.get? s.clusterGroups c).map (·.flags)

theorem SameFlags.trans {s t u : State} (h : SameFlags s t) (k : SameFlags t u) : SameFlags s u := fun c => (k c).trans (h c)

theorem sameFlags_of_eq {s t : State} (h : t.clusterGroups = s.clusterGroups) : SameFlags s t := fun c => by rw [h]

theorem sameFlags_adjust {s t : State} {c : Nat} {f : ClusterGroup → ClusterGroup} (hf : ∀ x, (f x).flags = x.flags)
    (h : t.clusterGroups = Map.adjust s.clusterGroups c f) : SameFlags s t := fun a => by
  rw [h, Map.get?_adjust]
  split
  · next e =>
    subst e
    cases Map.get? s.clusterGroups a <;> simp [hf]
  · rfl

theorem lastThread_sameFlags (s : State) (cgu k : Nat) : SameFlags s (lastThread s cgu k) := by
  unfold lastThread
  dsimp only
  split <;> split
  · exact fun _ => rfl
  · exact sameFlags_adjust (f := fun g => { g with st := .compl }) (fun _ => rfl) rfl
  · exact fun _ => rfl
  · exact sameFlags_adjust (f := fun g => { g with st := .compl }) (fun _ => rfl) rfl

@[simp] theorem lastThread_threads (s : State) (cgu k : Nat) : (lastThread s cgu k).threads = s.threads := by
  unfold lastThread
  dsimp only
  split <;> split <;> rfl

theorem foldl_setBar_threads (c : Nat) (f : State → Nat → Bar) (l : List Nat) (s : State) :
    (l.foldl (fun s b => setBar s c b (f s b)) s).threads = s.threads :=
  List.foldlRecOn l _ (motive := fun u : State => u.threads = s.threads) rfl (fun _ h _ _ => h)

theorem foldl_setBar_sameFlags (c : Nat) (f : State → Nat → Bar) (l : List Nat) (s : State) :
    SameFlags s (l.foldl (fun s b => setBar s c b (f s b)) s) :=
  List.foldlRecOn l _ (motive := fun u : State => SameFlags s u) (fun _ => rfl) (fun u h b _ =>
    h.trans (sameFlags_adjust (f := fun g => { g with bars := Map.put g.bars b (f u b) }) (fun _ => rfl) rfl))

theorem Stands.sameFlags {s t : State} (h : Stands s t) : SameFlags s t := sameFlags_of_eq (by rw [h.rest])

/-- What an exit does last: waits of its warp are judged again, and its groups end with their last thread. -/
theorem exitTail_none {s : State} {k : Nat} (h : Map.get? s.threads k = none) (wk c j : Nat) :
    getThread (genCheck (lastThread (mwaitChecks s wk) c j) wk) k = none := by
  have hw : getThread (mwaitChecks s wk) k = none := (Stands.mwaitChecks s wk).get_none h
  have hl : getThread (lastThread (mwaitChecks s wk) c j) k = none := by rwa [getThread, lastThread_threads]
  exact (Stands.genCheck _ wk).get_none hl

theorem exitTail_sameFlags (s : State) (wk c j : Nat) : SameFlags s (genCheck (lastThread (mwaitChecks s wk) c j) wk) :=
  ((Stands.mwaitChecks s wk).sameFlags.trans (lastThread_sameFlags _ c j)).trans (Stands.genCheck _ wk).sameFlags

/-- A thread gone from its group, its entry, its barriers and its masks, its flags kept by its cluster group. -/
def exited (s : State) (k : Nat) (t : Thread) : State :=
  let s := leaveFrag (leaveGroup s k) t.frag t.lane
  let s := { s with threads := Map.erase s.threads k }
  let left : Byte := if s.threads.any (fun e => coreKeyOf e.2 == coreKeyOf t) then 0 else 1#8 <<< t.k
  let s := (List.range 16).foldl (fun s b => setBar s t.cgu b (barExit (getBar s t.cgu b) k left)) s
  let s := modWarp s (warpKeyOf t) (fun w => (List.range 12).foldl (fun w m => setMask m (getMask w m &&& ~~~(laneBit t.lane)) w) w)
  { s with clusterGroups := Map.adjust s.clusterGroups t.cgu (fun g => { g with flags := g.flags ||| t.flags }) }

theorem exitThread_eq {s : State} {k : Nat} {t : Thread} (ht : getThread s k = some t) :
    exitThread s k = genCheck (lastThread (mwaitChecks (exited s k t) (warpKeyOf t)) t.cgu t.k) (warpKeyOf t) := by
  simp only [exitThread, ht, exited]

theorem get?_exited (s : State) (k : Nat) (t : Thread) : Map.get? (exited s k t).threads k = none := by
  unfold exited
  dsimp only
  rw [modWarp_threads, foldl_setBar_threads]
  exact Map.get?_erase_self _ k

theorem leaveGroup_clusterGroups (s : State) (k : Nat) : (leaveGroup s k).clusterGroups = s.clusterGroups := by
  rw [(Stands.leaveGroup s k).rest]

theorem exited_flags (s : State) (k : Nat) (t : Thread) :
    (Map.get? (exited s k t).clusterGroups t.cgu).map (·.flags) = (Map.get? s.clusterGroups t.cgu).map (fun c => c.flags ||| t.flags) := by
  unfold exited
  dsimp only
  rw [Map.get?_adjust, if_pos rfl, modWarp_clusterGroups, Option.map_map]
  have hfl (o : Option ClusterGroup) : o.map ((·.flags) ∘ (fun g => { g with flags := g.flags ||| t.flags }))
      = (o.map (·.flags)).map (· ||| t.flags) := by cases o <;> rfl
  rw [hfl, foldl_setBar_sameFlags, leaveFrag_clusterGroups, leaveGroup_clusterGroups, Option.map_map]
  rfl

theorem getThread_exitThread {s : State} {k : Nat} {t : Thread} (ht : getThread s k = some t) : getThread (exitThread s k) k = none := by
  rw [exitThread_eq ht]
  exact exitTail_none (get?_exited s k t) _ _ _

theorem exitThread_flags {s : State} {k : Nat} {t : Thread} (ht : getThread s k = some t) :
    (Map.get? (exitThread s k).clusterGroups t.cgu).map (·.flags) = (Map.get? s.clusterGroups t.cgu).map (fun c => c.flags ||| t.flags) := by
  rw [exitThread_eq ht, exitTail_sameFlags, exited_flags]

/-- Settles O28: each transfer's lanes leave one by one (`foldLanes_goTo`), and an exit keeps its thread's flags (`exited_flags`). -/
theorem controlTransferResults : Obligations.ControlTransferResults := by
  unfold Obligations.ControlTransferResults
  refine ⟨bra_transfers, fun x => ?_, fun x => ?_, fun x => ?_, ret_transfers, fun gd s gid g u h hu => ret_steps h hu,
    fun x s qk c p h => bra_slice h, exit_steps, fun s k t ht => ⟨getThread_exitThread ht, exitThread_flags ht⟩⟩
  · exact transferOp_transfers (fun _ _ _ => rfl)
  · exact transferOp_calls (dest := relDest x.ofs) (fun _ => rfl)
  · exact transferOp_calls (fun _ => rfl)

end Sys2Proof.Laws


/-! A step: the act of the agenda or the default act, and what goes with it (R26, R28, R32, R113, R140, R158, R321). -/

namespace Sys2Proof.Laws

open Sys2Proof.Machine Sys2Proof.Claims Sys2Proof.Safety

/-! ## Words and allocations (R157-R159) -/

/-- A legal word decodes to its instruction. -/
theorem decode_of_legal {cls : BitVec 3} {last : Bool} {al : Option Alloc} {w : DWord} {i : Instr} (h : legal cls last al w = .ok i) :
    decode w = .ok i := by
  unfold legal at h
  unfold decode
  dsimp only at h ⊢
  split at h
  · exact nomatch h
  split at h
  · exact nomatch h
  cases hr : findRow (w.toNat / 2 ^ 56) (w.toNat / 2 ^ 52 % 16) with
  | none => rw [hr] at h; exact nomatch h
  | some r =>
    rw [hr] at h
    dsimp only at h ⊢
    unfold Cand.judge
    generalize r.rd (Guard.ofCode (w.toNat / 2 ^ 48 % 16)) (w.toNat % 2 ^ 48) = c at h ⊢
    by_cases h3 : (c.c3 && c.i.wfCode) = true
    · by_cases h4 : (c.c4 && c.i.wfField) = true
      · by_cases h5 : c.i.wfReg = true
        · simp only [h3, h4, h5, Bool.not_true, Bool.false_eq_true, if_false] at h ⊢
          split at h
          · exact nomatch h
          · split at h <;> split at h
            · exact h
            · exact nomatch h
            · exact h
            · exact nomatch h
        · simp only [h3, h5, Bool.not_true, Bool.not_false, Bool.false_eq_true, if_false, if_true] at h
          split at h <;> exact nomatch h
      · simp [h3, h4] at h
    · simp [h3] at h

theorem fitsAlloc_iff {g : Group} {w : DWord} {al : Alloc} : fitsAlloc g.pass w al = true ↔ ∃ i, readAs g w al = .ok i := by
  unfold fitsAlloc readAs
  cases legal g.pass.cls (g.pass.slot + 1 == g.pass.words.length) (some al) w <;> simp

theorem fitsAlloc_eq_false_iff {g : Group} {w : DWord} {al : Alloc} :
    fitsAlloc g.pass w al = false ↔ ∃ e, readAs g w al = .error e := by
  unfold fitsAlloc readAs
  cases legal g.pass.cls (g.pass.slot + 1 == g.pass.words.length) (some al) w <;> simp

theorem mem_groupAllocs {s : State} {g : Group} {k : Nat} {t : Thread} (hk : k ∈ g.members) (ht : getThread s k = some t) :
    allocOf s t ∈ groupAllocs s g :=
  List.mem_eraseDups.mpr (List.mem_map_of_mem (List.mem_filterMap.mpr ⟨k, hk, ht⟩))

/-- Members that a word does not fit, while it fits others (log 36). -/
theorem mem_misfits_iff {s : State} {g : Group} {w : DWord} {k : Nat} {f : FInfo} (h : ∃ a ∈ groupAllocs s g, ∃ i, readAs g w a = .ok i) :
    (k, f) ∈ misfits s g w ↔
      f = ⟨0, 5, w, 0⟩ ∧ k ∈ g.members ∧ ∃ t e, getThread s k = some t ∧ readAs g w (allocOf s t) = .error e := by
  obtain ⟨a, ha, i, hi⟩ := h
  have hany : (groupAllocs s g).any (fitsAlloc g.pass w) = true := List.any_eq_true.mpr ⟨a, ha, fitsAlloc_iff.mpr ⟨i, hi⟩⟩
  unfold misfits
  dsimp only
  by_cases hone : (groupAllocs s g).length ≤ 1
  · have honly : ∀ b ∈ groupAllocs s g, b = a := by
      intro b hb
      match hl : groupAllocs s g, ha, hb, hone with
      | [x], ha, hb, _ => exact (List.mem_singleton.mp hb).trans (List.mem_singleton.mp ha).symm
    rw [if_pos (by simp [hone])]
    refine iff_of_false (List.not_mem_nil) ?_
    rintro ⟨_, hk, t, e, ht, he⟩
    rw [honly _ (mem_groupAllocs hk ht), hi] at he
    exact nomatch he
  · rw [if_neg (by simp [hone, hany])]
    simp only [List.mem_map, List.mem_filter, Option.any_eq_true, Bool.not_eq_true', Prod.mk.injEq]
    constructor
    · rintro ⟨j, ⟨hj, t, ht, hfit⟩, rfl, rfl⟩
      obtain ⟨e, he⟩ := fitsAlloc_eq_false_iff.mp hfit
      exact ⟨rfl, hj, t, e, ht, he⟩
    · rintro ⟨rfl, hk, t, e, ht, he⟩
      exact ⟨k, ⟨hk, t, ht, fitsAlloc_eq_false_iff.mpr ⟨e, he⟩⟩, rfl, rfl⟩

theorem misfits_of_all {s : State} {g : Group} {w : DWord} (h : ∀ a ∈ groupAllocs s g, ∃ i, readAs g w a = .ok i) :
    misfits s g w = [] := by
  cases hg : groupAllocs s g with
  | nil =>
    unfold misfits
    rw [if_pos (by simp [hg])]
  | cons a r =>
    refine List.eq_nil_iff_forall_not_mem.mpr (fun e he => ?_)
    have ha : a ∈ groupAllocs s g := hg ▸ List.mem_cons_self
    obtain ⟨_, hk, t, x, ht, hx⟩ := (mem_misfits_iff ⟨a, ha, h a ha⟩).mp (show (e.1, e.2) ∈ _ from he)
    obtain ⟨i, hi⟩ := h _ (mem_groupAllocs hk ht)
    rw [hi] at hx
    exact nomatch hx

theorem misfits_of_none {s : State} {g : Group} {w : DWord} (h : ∀ a ∈ groupAllocs s g, ∃ x, readAs g w a = .error x) :
    misfits s g w = [] := by
  have hany : (groupAllocs s g).any (fitsAlloc g.pass w) = false := by
    rw [List.any_eq_false]
    exact fun a ha => Bool.not_eq_true _ ▸ fitsAlloc_eq_false_iff.mpr (h a ha)
  unfold misfits
  rw [if_pos (by simp [hany])]

/-! ## A group's slot (R28, R32) -/

theorem step_of_agenda {s : State} {a : Act} {r : List Act} (h : s.agenda = a :: r) :
    step s = afterwards noteAct (act { s with agenda := r } a) := by
  unfold step runStep
  rw [h]

theorem step_of_empty {s : State} (h : s.agenda = []) :
    step s = afterwards noteAct (afterwards (countTurn s (chooseAct s)) (act (tick s) (chooseAct s))) := by
  unfold step runStep
  split
  · next hr =>
    rw [h] at hr
    exact nomatch hr
  · rfl

theorem tick_eq (s : State) : tick s =
    { s with clock := s.clock + BitVec.ofNat 64 (Config.freeClocks s.fresh % 2 ^ 31 + 1), fresh := s.fresh + 1 } := by
  unfold tick clocks d64
  rw [Nat.mod_eq_of_lt (b := 2 ^ 32) (by omega)]

/-- A group that stands at a slot executes its word. -/
theorem step_atSlot {s : State} {r : List Act} {gid : Nat} {g : Group} {w : DWord} (h : s.agenda = .issue gid :: r) (hs : AtSlot s gid g w) :
    step s = slotRun { s with agenda := r } gid g (misfits s g w) (passInstr g.pass (some (groupAlloc s g w)) w) := by
  obtain ⟨hget, hrun, hwaits, hclause, hsleep, hw⟩ := hs
  have hissue : issue { s with agenda := r, lost := [] } gid = runSlot { s with agenda := r, lost := [] } gid g (misfits s g w)
      (passInstr g.pass (some (groupAlloc s g w)) w) := by
    have hget' : getGroup { s with agenda := r, lost := [] } gid = some g := hget
    have hrun' : groupStopped { s with agenda := r, lost := [] } g = false := hrun
    unfold issue
    rw [hget']
    dsimp only
    rw [hrun', hwaits]
    simp only [Bool.false_eq_true, if_false, List.isEmpty_nil, Bool.not_true]
    unfold issueGroup
    cases hh : g.hold with
    | clauseWait m => exact absurd hh (hclause m)
    | sleep c => exact absurd hh (hsleep c)
    | _ => simp only [hw]; rfl
  rw [step_of_agenda h]
  exact congrArg (afterwards noteAct) hissue

theorem passInstr_of_readAs {g : Group} {w : DWord} {al : Alloc} {i : Instr} (h : readAs g w al = .ok i) :
    passInstr g.pass (some al) w = i := by
  unfold passInstr
  rw [show legal g.pass.cls (g.pass.slot + 1 == g.pass.words.length) (some al) w = .ok i from h]

theorem passInstr_of_error {g : Group} {w : DWord} {al : Alloc} {e : IllReason} (h : readAs g w al = .error e) :
    passInstr g.pass (some al) w = .illegalInstruction e w := by
  unfold passInstr
  rw [show legal g.pass.cls (g.pass.slot + 1 == g.pass.words.length) (some al) w = .error e from h]

theorem groupAlloc_of_find {s : State} {g : Group} {w : DWord} {al : Alloc}
    (h : (groupAllocs s g).find? (fun x => fitsAlloc g.pass w x) = some al) : groupAlloc s g w = al := by
  unfold groupAlloc
  dsimp only
  rw [show (groupAllocs s g).find? (fitsAlloc g.pass w) = some al from h]
  rfl

theorem groupAlloc_of_none {s : State} {g : Group} {w : DWord} {al : Alloc} (hal : (groupAllocs s g).head? = some al)
    (h : ∀ a ∈ groupAllocs s g, ∃ x, readAs g w a = .error x) : groupAlloc s g w = al := by
  unfold groupAlloc
  dsimp only
  rw [List.find?_eq_none.mpr (fun a ha => Bool.not_eq_true _ ▸ fitsAlloc_eq_false_iff.mpr (h a ha)), hal]
  rfl

/-! ## What else an act is -/

theorem step_slice {s : State} {r : List Act} {qk : Nat} {x : Slice} {p : Pass} {w : DWord} {i : Instr} (h : s.agenda = .slice qk :: r)
    (hx : getSlice s qk = some x) (hrun : sliceRuns s qk x = true) (hp : x.pass = some p) (hw : p.words[p.slot]? = some w)
    (hi : legal p.cls (p.slot + 1 == p.words.length) none w = .ok i) :
    step s = afterwards noteAct (exec i { s with agenda := r, lost := [], cur := .slice qk, turns := Map.put s.turns (sliceCore s qk) qk }) := by
  rw [step_of_agenda h]
  refine congrArg (afterwards noteAct) ?_
  change turret { s with agenda := r, lost := [] } qk = _
  have hx' : getSlice { s with agenda := r, lost := [] } qk = some x := hx
  have hrun' : sliceRuns { s with agenda := r, lost := [] } qk x = true := hrun
  unfold turret
  rw [hx']
  dsimp only
  rw [hrun', hp]
  simp only [Bool.not_true, Bool.false_eq_true, if_false, hw]
  rw [show passInstr p none w = i by unfold passInstr; rw [hi]]
  rfl

theorem countTurn_lows (s : State) (a : Act) (t : State) : ∃ m, countTurn s a t = { t with lows := m } := by
  unfold countTurn
  split
  · exact ⟨t.lows, rfl⟩
  · exact ⟨_, rfl⟩

/-! ## What a step leaves beside its act -/

theorem endLeavers_of_nil {s : State} (h : leavers s = []) : endLeavers s = s := by
  unfold endLeavers
  rw [h]
  rfl

theorem settleGone_of_all {s : State} (h : ∀ k ∈ s.mem.inval.keys, (getThread s k).isSome = true) : settleGone s = s := by
  unfold settleGone
  rw [List.filter_eq_nil_iff.mpr]
  · rfl
  · intro k hk
    rw [← Option.not_isSome, h k hk]
    decide

theorem settleCode_of_nil {gid : Nat} {g : Group} {i : Instr} {s : State} (t : State) (h : s.mem.inval = []) : settleCode gid g i s t = t := by
  unfold settleCode
  rw [h, if_pos (by rfl)]

theorem stopAsked_of_all {s : State} (h : s.warps.all (fun w => w.2.preq.isNone || w.2.saved) = true) : stopAsked s = s := by
  unfold stopAsked
  rw [List.filter_eq_nil_iff.mpr]
  · rfl
  · intro e he
    rcases Bool.or_eq_true_iff.mp (List.all_eq_true.mp h e he) with hp | hs
    · simp [Option.isNone_iff_eq_none.mp hp]
    · simp [hs]

theorem endWaits_of_none {over' : FInfo → Bool} {f : State → Agent → FInfo → State} {s : State} {p : Nat}
    (h : ∀ a ∈ (partOf s p).agents, over' a.2 = false) : endWaits over' f s p = s := by
  unfold endWaits
  dsimp only
  rw [List.filter_eq_nil_iff.mpr (fun a ha => by rw [h a ha]; decide)]
  rfl

theorem wakeThose_of_none {over' : FInfo → Bool} {s : State} (h : ∀ e ∈ s.parts, ∀ a ∈ (partOf s e.1).agents, over' a.2 = false) :
    wakeThose over' s = s := by
  unfold wakeThose
  refine List.foldlRecOn s.parts.keys _ (motive := fun t => t = s) rfl (fun t ht p hp => ?_)
  subst ht
  obtain ⟨e, he, rfl⟩ := List.mem_map.mp hp
  exact endWaits_of_none (h e he)

theorem answerWaits_of_none {s : State} (h : ∀ e ∈ s.parts, ∀ a ∈ (partOf s e.1).agents, a.2.waits = false) (hs : s.host.snoops = []) :
    answerWaits s = s := by
  unfold answerWaits
  rw [wakeThose_of_none (fun e he a ha => by rw [h e he a ha]; rfl)]
  unfold retrySnoops
  rw [hs, if_pos (by rfl)]

theorem countIssue_clusterGroups (s : State) (gid : Nat) (g : Group) : ∃ m, countIssue gid g s = { s with clusterGroups := m } := by
  unfold countIssue
  split
  · exact ⟨s.clusterGroups, rfl⟩
  · exact List.foldlRecOn _ _ (motive := fun t : State => ∃ m, t = { s with clusterGroups := m }) ⟨s.clusterGroups, rfl⟩
      (fun t ht c _ => by
        obtain ⟨m, rfl⟩ := ht
        exact ⟨_, rfl⟩)

/-! ## Lost data (R321) -/

theorem endLost_of_nil {gid : Nat} {g : Group} {fs : List (Nat × FInfo)} {s t : State} (h : t.lost = []) : endLost gid g fs s t = t := by
  unfold endLost
  rw [h]
  simp only [List.isEmpty_nil, Bool.true_or, if_true]
  rw [← h]

theorem endLost_of_ne {gid : Nat} {g : Group} {fs : List (Nat × FInfo)} {s t : State} (h : t.lost ≠ [])
    (hq : (getGroup t gid).any (fun x => x.hold == .queue) = false) (hw : faultsWait s fs = false) (ha : faultsAsk s fs = none) :
    endLost gid g fs s t =
      (raise s { t with lost := [] } g.members fs (slotPc g.pass) (some g.pass) (slotPc g.pass) (some g.pass)).1 := by
  unfold endLost
  rw [hq, hw, ha, List.isEmpty_eq_false_iff.mpr h]
  rfl

theorem mem_activeOf_iff {s : State} {g : Group} {gd : Guard} {k : Nat} :
    k ∈ activeOf s g gd ↔ k ∈ guardedOf s g gd ∧ ∀ f, (k, f) ∉ s.lost := by
  unfold activeOf isLost
  simp only [List.mem_filter, Bool.not_eq_true', List.any_eq_false, beq_iff_eq, and_congr_right_iff]
  refine fun _ => ⟨fun h f hf => h _ hf rfl, fun h e he hk => h e.2 ?_⟩
  rwa [← hk]

theorem mem_insLost {s : State} {f e : Nat × FInfo} {l : List (Nat × FInfo)} : e ∈ insLost s f l ↔ e = f ∨ e ∈ l := by
  induction l with
  | nil => simp [insLost]
  | cons g r ih =>
    unfold insLost
    split
    · simp
    · simp only [List.mem_cons, ih]
      exact or_left_comm

theorem mem_foldl_insLost {s : State} {e : Nat × FInfo} (fs l : List (Nat × FInfo)) :
    e ∈ fs.foldl (fun l f => insLost s f l) l ↔ e ∈ fs ∨ e ∈ l := by
  induction fs generalizing l with
  | nil => simp
  | cons f r ih =>
    rw [List.foldl_cons, ih, mem_insLost, List.mem_cons]
    tauto

theorem mem_withLost {s : State} {e : Nat × FInfo} : e ∈ withLost s [] ↔ e ∈ s.lost := by
  rw [withLost, mem_foldl_insLost]
  simp

theorem mem_guardedOf {s : State} {g : Group} {gd : Guard} {k : Nat} (h : k ∈ guardedOf s g gd) : k ∈ g.members :=
  (List.mem_filter.mp h).1

/-- The lanes that the lowest active lane's reading lets fault are members. -/
theorem mem_leadLost {s : State} {g : Group} {i : Instr} {k : Nat} {f : FInfo} (h : (k, f) ∈ leadLost s g i) : k ∈ g.members := by
  unfold leadLost at h
  split at h
  · exact absurd h List.not_mem_nil
  · dsimp only at h
    split at h
    · obtain ⟨j, hj, heq⟩ := List.mem_map.mp h
      cases heq
      split at hj
      · exact mem_guardedOf hj
      · exact mem_guardedOf (List.mem_of_mem_take hj)
    · exact absurd h List.not_mem_nil

theorem mem_storageFaults {s : State} {g : Group} {i : Instr} {k : Nat} {t : Thread} {f : FInfo} (h : (k, f) ∈ storageFaults s g i)
    (ht : getThread s k = some t) : k ∈ g.members ∧ (laneLost s g i t = some f ∨ (k, f) ∈ leadLost s g i) := by
  unfold storageFaults at h
  split at h
  · exact absurd h List.not_mem_nil
  · rcases List.mem_append.mp h with h | h
    · obtain ⟨j, hj, hx⟩ := List.mem_filterMap.mp h
      obtain ⟨u, hu, hm⟩ := Option.bind_eq_some_iff.mp hx
      obtain ⟨f', hf, heq⟩ := Option.map_eq_some_iff.mp hm
      cases heq
      rw [ht] at hu
      cases hu
      exact ⟨hj, .inl hf⟩
    · exact ⟨mem_leadLost h, .inr h⟩

theorem badReg_head {t : Thread} {r : Nat} {rs : List Nat} (hf : t.frame = none) (hr : r ∈ t.bad) (hh : rs.head? = some r) :
    badReg t rs = some ⟨14, 0, BitVec.ofNat 64 r, 0⟩ := by
  have hs : storageOf t r = r := by
    unfold storageOf
    rw [hf]
  match rs, hh with
  | r' :: rs, hh =>
    cases hh
    unfold badReg
    rw [List.find?_cons_of_pos (by rw [hs]; exact List.contains_iff_mem.mpr hr), Option.map_some, regLost, hs]
    rfl

/-- MOVI, in lanes none of which traps. -/
theorem movi_lane (x : MoviOps) (t : Thread) :
    orFlags (setRegs t (wrTy false x.d (x.imm.setWidth 64) 0)) 0 = setReg t x.d.toNat ⟨x.imm, 0⟩ := by
  have hv : loWord (x.imm.setWidth 64) = x.imm := by
    unfold loWord
    bv_omega
  simp [wrTy, setRegs, orFlags, hv]

/-- Lanes that read lost data fault at the slot of a MOVI, which the others complete. -/
theorem movi_lost {x : MoviOps} {s : State} {gid : Nat} {g : Group} (hcur : curGroup s = some (gid, g)) (hl : s.lost ≠ [])
    (hw : faultsWait { s with lost := [] } (withLost s []) = false) (ha : faultsAsk { s with lost := [] } (withLost s []) = none) :
    let u := { onThreads (fun t => setReg t x.d.toNat ⟨x.imm, 0⟩) (activeOf s g x.g) s with lost := [] }
    let v := raise { s with lost := [] } u g.members (withLost s []) (slotPc g.pass) (some g.pass) (slotPc g.pass) (some g.pass)
    exec (.movi x) s = .next (if v.2 then v.1 else advance v.1 gid) := by
  intro u v
  have hne : withLost s [] ≠ [] := by
    obtain ⟨e, he⟩ := List.exists_mem_of_ne_nil _ hl
    exact List.ne_nil_of_mem (mem_withLost.mpr he)
  have hgroup : ∃ n, s.cur = .group n := by
    unfold curGroup at hcur
    split at hcur
    · exact ⟨_, ‹_›⟩
    · exact nomatch hcur
  obtain ⟨n, hn⟩ := hgroup
  change Host.Outcome.next (aluOp x.g (fun _ => (wrTy false x.d (x.imm.setWidth 64) 0, 0)) s) = _
  unfold aluOp threadOp laneOp
  rw [hn]
  dsimp only
  rw [hcur]
  dsimp only
  rw [foldLanes_ownLane (f := fun t => setReg t x.d.toNat ⟨x.imm, 0⟩) (fun t => congrArg Except.ok (movi_lane x t))]
  unfold splitGroup splitFaults
  rw [List.isEmpty_eq_false_iff.mpr hl, hw, ha, List.isEmpty_eq_false_iff.mpr hne]
  rfl

/-- Settles O49: a step is the act that its agenda or the default order names (`step_of_agenda`), and what follows it leaves a quiet state
alone. -/
theorem stepRunsDecodedInstruction : Obligations.StepRunsDecodedInstruction := by
  unfold Obligations.StepRunsDecodedInstruction
  refine ⟨?_, fun s g w h => misfits_of_all h, fun s g w k f h => mem_misfits_iff h, ?_,
    fun s r qk x p w i h hx hrun hp hw hi => step_slice h hx hrun hp hw hi, fun s r i h => ?_, fun s r n h => ?_, fun s h => ?_,
    countTurn_lows, fun s => ⟨_, rfl⟩, fun s h => endLeavers_of_nil h, fun s h => settleGone_of_all h,
    fun gid g i s t h => settleCode_of_nil t h, fun s h => stopAsked_of_all h, fun s h hs => answerWaits_of_none h hs,
    fun s gid g => countIssue_clusterGroups s gid g, fun s t gid g fs => ⟨endLost_of_nil, endLost_of_ne⟩, fun s g gd k => mem_activeOf_iff,
    fun x s gid g hcur hl hw ha => movi_lost hcur hl hw ha, fun s e => mem_withLost, fun s g i k t f h ht => mem_storageFaults h ht,
    fun t r hf hr rs hh => badReg_head hf hr hh, fun cls last al w i h => decode_of_legal h⟩
  · intro s r gid g w al i h hs hal hi
    rw [step_atSlot h hs, groupAlloc_of_find hal, passInstr_of_readAs hi]
  · intro s r gid g w al e h hs hal hnone he
    rw [step_atSlot h hs, groupAlloc_of_none hal hnone, passInstr_of_error he, misfits_of_none hnone]
  · exact step_of_agenda h
  · exact step_of_agenda h
  · rw [step_of_empty h, tick_eq]

end Sys2Proof.Laws


/-! An exception's image and update-only partials (R128, R307). -/

namespace Sys2Proof.Laws

open Sys2Proof.Machine Sys2Proof.Claims Sys2Proof.Safety

/-- Threads of lanes 8 and 0, and a partial of eight bytes that begins in the last byte of the line of lane 0's saved lk and ends in the
first word of the next line, which is lane 8's saved lk. -/
def crossing : State := { State.reset with
  threads := [(0, { (default : Thread) with lane := 8 }), (1, default)]
  parts := [(0, { Part.reset with fragtab := 1024 })]
  mem := { State.reset.mem with partials := [⟨0, 1024 + 0x17F, 0, false, .exch, .n64, 0xFFFFFFFFFFFFFFFF, 0⟩] } }

/-- Both threads trap, lane 8 first. -/
def crossingFaults : List (Nat × FInfo) := [(0, ⟨10, 0, 0, 0⟩), (1, ⟨10, 0, 0, 0⟩)]

theorem crossing_faultTogether : FaultTogether crossing crossingFaults { (default : Thread) with lane := 8 } := by
  refine ⟨⟨_, _, rfl, rfl⟩, by decide, fun e he => ?_⟩
  rcases List.mem_cons.mp he with rfl | he
  · exact ⟨_, rfl, rfl, rfl, rfl⟩
  · rcases List.mem_singleton.mp he with rfl
    exact ⟨_, rfl, rfl, rfl, rfl⟩

/-- Lane 0's lk is written after lane 8's, and combines the line of the partial, which writes over lane 8's. -/
theorem crossing_lk : physRead64 (raise crossing crossing [0, 1] crossingFaults 0 none 0 none).1 (1024 + 0x140 + 8 * 8) ≠ 0 := by
  decide +kernel

theorem crossing_lanes (k : Nat) (f : FInfo) (u : Thread) (hk : (k, f) ∈ crossingFaults) (hu : getThread crossing k = some u) :
    u.lane < 32 ∧ (k ≠ 0 → u.lane ≠ 8) := by
  rcases List.mem_cons.mp hk with h | h
  · cases h
    cases hu
    exact ⟨by decide, fun h => absurd rfl h⟩
  · cases List.mem_singleton.mp h
    cases hu
    exact ⟨by decide, fun _ => by decide⟩

/-- Refutes O54: in `crossing` the word of the image at 0x180 does not hold lane 8's lk, since a partial that crosses into its line is
combined after it has been written. -/
theorem not_trapEntry : ¬ Obligations.TrapEntry := by
  unfold Obligations.TrapEntry
  intro h
  obtain ⟨t, x, hraise, -, -, -, -, -, -, -, -, hlane, -⟩ :=
    h.1 crossing [0, 1] crossingFaults 0 none 0 none { (default : Thread) with lane := 8 } 0 crossing_faultTogether rfl rfl
  obtain ⟨-, -, y, -, -, -, -, -, -, -, -, -, -, -, himage⟩ := hlane 0 ⟨10, 0, 0, 0⟩ { (default : Thread) with lane := 8 }
    (List.mem_cons_self) rfl (by decide)
  obtain ⟨-, hlk, -⟩ := himage rfl rfl crossing_lanes
  have ht : (raise crossing crossing [0, 1] crossingFaults 0 none 0 none).1 = t := congrArg Prod.fst hraise
  exact crossing_lk (ht ▸ hlk)

end Sys2Proof.Laws


/-! Dispatch, tile fill and completion of an index (R21, R22, R25, R44, R106, R281, R282, R284, R315). -/

namespace Sys2Proof.Laws

open Sys2Proof.Machine Sys2Proof.Claims Sys2Proof.Safety

/-! ## Rooms that are kept (R45) -/

theorem coreRoom_kept {s : State} {kept : Nat → Nat → Bool} {core : Nat} {r : LRec} {qs : List Nat} (h : coreRoom s kept core r = some qs) :
    ∀ q ∈ qs, kept core q = false := by
  unfold coreRoom at h
  split at h
  · exact nomatch h
  · dsimp only at h
    split at h
    · cases h
      intro q hq
      have hf := (List.mem_filter.mp (List.mem_of_mem_take hq)).2
      simp only [Bool.and_eq_true, Bool.not_eq_true'] at hf
      exact hf.1
    · exact nomatch h

/-- No quad of the places on cores is kept. -/
def FreeQuads (kept : Nat → Nat → Bool) (cores : List (Nat × List Nat)) : Prop := ∀ c ∈ cores, ∀ q ∈ c.2, kept c.1 q = false

theorem FreeQuads.append {kept : Nat → Nat → Bool} {a b : List (Nat × List Nat)} (ha : FreeQuads kept a) (hb : FreeQuads kept b) :
    FreeQuads kept (a ++ b) := fun c hc => (List.mem_append.mp hc).elim (ha c) (hb c)

theorem coresRoom_free {s : State} {kept : Nat → Nat → Bool} {cl : Nat} {r : LRec} (cs : List Nat) {cores : List (Nat × List Nat)}
    (h : cs.foldr (fun c acc => acc.bind (fun l => (coreRoom s kept (cl * 4 + c) r).map (fun qs => (cl * 4 + c, qs) :: l))) (some [])
      = some cores) : FreeQuads kept cores := by
  induction cs generalizing cores with
  | nil =>
    cases h
    exact fun _ hc => absurd hc List.not_mem_nil
  | cons c cs ih =>
    obtain ⟨l, hl, h⟩ := Option.bind_eq_some_iff.mp h
    obtain ⟨qs, hqs, rfl⟩ := Option.map_eq_some_iff.mp h
    intro x hx
    rcases List.mem_cons.mp hx with rfl | hx
    · exact coreRoom_kept hqs
    · exact ih hl x hx

theorem clusterRoom_free {s : State} {kept : Nat → Nat → Bool} {p cl : Nat} {r : LRec} {cores : List (Nat × List Nat)}
    (h : clusterRoom s kept p cl r = some cores) : FreeQuads kept cores := by
  unfold clusterRoom at h
  split at h
  · exact nomatch h
  · obtain ⟨cs, -, hcs⟩ := List.exists_of_findSome?_eq_some h
    exact coresRoom_free cs hcs

theorem placeOn_free {s : State} {kept : Nat → Nat → Bool} {p cl : Nat} {r : LRec} {cores : List (Nat × List Nat)}
    (h : placeOn s kept p cl r = some cores) : FreeQuads kept cores := by
  unfold placeOn at h
  split at h
  · exact nomatch h
  · next a ha =>
    split at h
    · obtain ⟨b, hb, rfl⟩ := Option.map_eq_some_iff.mp h
      obtain ⟨c, -, hc⟩ := List.exists_of_findSome?_eq_some hb
      exact (clusterRoom_free ha).append (clusterRoom_free hc)
    · cases h
      exact clusterRoom_free ha

theorem keptFor_of_none {s : State} {l : Launch} (i : Nat) (h : absentWarp s l.part = none) (core quad : Nat) :
    keptFor s l i core quad = false := by
  unfold keptFor
  split
  · rfl
  · unfold keptRoom
    rw [h]

theorem keptFor_of_some {s : State} {l : Launch} {i k : Nat} {w : Warp} {c : CoreGroup} (h : absentWarp s l.part = some (k, w))
    (hc : Map.get? s.coreGroups (w.cgu * 8 + w.k) = some c) (hs : slotLeft (partOf s l.part) = true) (hi : l.cls ≠ 0 ∨ i ≠ 0)
    (core quad : Nat) : keptFor s l i core quad = makesRoom s l.part w c core quad := by
  have hno : ¬(l.cls = 0 ∧ i = 0) := fun ⟨ha, hb⟩ => hi.elim (fun h => h ha) (fun h => h hb)
  unfold keptFor keptRoom
  rw [if_neg hno, h]
  dsimp only
  rw [hc]
  dsimp only
  rw [hs]
  rfl

/-! ## Folds -/

/-- A property that one step of a fold makes, and every step keeps. -/
theorem foldl_makes {α β : Type} {f : β → α → β} {P : β → Prop} {l : List α} {x : α} (hx : x ∈ l) (hmake : ∀ b, P (f b x))
    (hkeep : ∀ b, ∀ y ∈ l, P b → P (f b y)) (b : β) : P (l.foldl f b) := by
  induction l generalizing b with
  | nil => exact absurd hx List.not_mem_nil
  | cons y l ih =>
    rw [List.foldl_cons]
    rcases List.mem_cons.mp hx with rfl | hx
    · exact List.foldlRecOn l f (hmake b) (fun c hc z hz => hkeep c z (List.mem_cons_of_mem _ hz) hc)
    · exact ih hx (fun c z hz => hkeep c z (List.mem_cons_of_mem _ hz)) _

theorem getElem?_of_mem_zip_range {α : Type} {l : List α} {e : Nat × α} (h : e ∈ (List.range l.length).zip l) : l[e.1]? = some e.2 := by
  obtain ⟨n, hn⟩ := List.mem_iff_getElem?.mp h
  obtain ⟨h1, h2⟩ := List.getElem?_zip_eq_some.mp hn
  obtain ⟨hlt, he⟩ := List.getElem?_eq_some_iff.mp h1
  rw [List.getElem_range] at he
  rw [← he]
  exact h2

theorem mem_zip_range_of_getElem? {α : Type} {l : List α} {n : Nat} {x : α} (h : l[n]? = some x) : (n, x) ∈ (List.range l.length).zip l := by
  have hn : n < l.length := (List.getElem?_eq_some_iff.mp h).1
  refine List.mem_of_getElem? (i := n) (List.getElem?_zip_eq_some.mpr ⟨?_, h⟩)
  rw [List.getElem?_range hn]

/-! ## Starting a cluster group (R22, R25) -/

/-- The threads of a launch's shape put in their places, core group by core group. -/
def withThreads (cgu : Nat) (r : LRec) (f : Nat → Nat → Nat → Thread) (s : State) : State :=
  (List.range r.c).foldl (fun s k => (List.range r.q).foldl (fun s j => (List.range r.t).foldl (fun s t =>
    { s with threads := Map.put s.threads (threadKey cgu (f k j t).tid) (f k j t) }) s) s) s

theorem withThreads_rest (cgu : Nat) (r : LRec) (f : Nat → Nat → Nat → Thread) (s : State) :
    ∃ m, withThreads cgu r f s = { s with threads := m } := by
  let P (t : State) : Prop := ∃ m, t = { s with threads := m }
  refine List.foldlRecOn (motive := P) _ _ ⟨s.threads, rfl⟩ (fun b hb k _ => ?_)
  refine List.foldlRecOn (motive := P) _ _ hb (fun b hb j _ => ?_)
  refine List.foldlRecOn (motive := P) _ _ hb (fun b hb t _ => ?_)
  obtain ⟨m, rfl⟩ := hb
  exact ⟨_, rfl⟩

/-- A thread's number within its cluster group says its place (Table 2-2). -/
theorem tid_inj {q t k j n k' j' n' : Nat} (hj : j < q) (hj' : j' < q) (hn : n < t) (hn' : n' < t)
    (h : (k * q + j) * t + n = (k' * q + j') * t + n') : k = k' ∧ j = j' ∧ n = n' := by
  have ht : 0 < t := Nat.zero_lt_of_lt hn
  have hq : 0 < q := Nat.zero_lt_of_lt hj
  have hn0 : n = n' := by
    have hm := congrArg (· % t) h
    simpa [Nat.mul_add_mod_of_lt, Nat.mod_eq_of_lt, hn, hn', Nat.add_mod, Nat.mul_mod_left] using hm
  have hd : k * q + j = k' * q + j' := by
    subst hn0
    exact Nat.eq_of_mul_eq_mul_right ht (by omega)
  have hj0 : j = j' := by
    have hm := congrArg (· % q) hd
    simpa [Nat.mod_eq_of_lt, hj, hj', Nat.add_mod, Nat.mul_mod_left] using hm
  refine ⟨Nat.eq_of_mul_eq_mul_right hq (by omega), hj0, hn0⟩

/-- Each thread of a started cluster group stands in its place. -/
theorem getThread_withThreads {cgu : Nat} {r : LRec} {f : Nat → Nat → Nat → Thread} (hf : ∀ k j t, (f k j t).tid = (k * r.q + j) * r.t + t)
    {k j n : Nat} (hk : k < r.c) (hj : j < r.q) (hn : n < r.t) (s : State) :
    getThread (withThreads cgu r f s) (threadKey cgu ((k * r.q + j) * r.t + n)) = some (f k j n) := by
  have hstep : ∀ (b : State) k' j' n', j' < r.q → n' < r.t →
      (getThread b (threadKey cgu ((k * r.q + j) * r.t + n)) = some (f k j n)) →
      getThread { b with threads := Map.put b.threads (threadKey cgu (f k' j' n').tid) (f k' j' n') }
        (threadKey cgu ((k * r.q + j) * r.t + n)) = some (f k j n) := by
    intro b k' j' n' hj' hn' hb
    unfold getThread
    rw [Map.get?_put]
    split
    · next e =>
      rw [hf] at e
      unfold threadKey at e
      obtain ⟨rfl, rfl, rfl⟩ := tid_inj (k := k) (k' := k') hj hj' hn hn' (by omega)
      rfl
    · exact hb
  refine foldl_makes (P := fun b : State => getThread b (threadKey cgu ((k * r.q + j) * r.t + n)) = some (f k j n)) (List.mem_range.mpr hk)
    (fun b => ?_) (fun b k' _ hb => ?_) s
  · refine foldl_makes (P := fun b : State => getThread b (threadKey cgu ((k * r.q + j) * r.t + n)) = some (f k j n)) (List.mem_range.mpr hj)
      (fun b => ?_) (fun b j' hj' hb => ?_) b
    · refine foldl_makes (P := fun b : State => getThread b (threadKey cgu ((k * r.q + j) * r.t + n)) = some (f k j n))
        (List.mem_range.mpr hn) (fun b => ?_) (fun b n' hn' hb => hstep b k j n' hj (List.mem_range.mp hn') hb) b
      rw [hf]
      exact Map.get?_put_self ..
    · exact List.foldlRecOn (motive := fun b : State => getThread b _ = some (f k j n)) _ _ hb
        (fun b hb n' hn' => hstep b k j' n' (List.mem_range.mp hj') (List.mem_range.mp hn') hb)
  · exact List.foldlRecOn (motive := fun b : State => getThread b _ = some (f k j n)) _ _ hb (fun b hb j' hj' =>
      List.foldlRecOn (motive := fun b : State => getThread b _ = some (f k j n)) _ _ hb
        (fun b hb n' hn' => hstep b k' j' n' (List.mem_range.mp hj') (List.mem_range.mp hn') hb))

/-- What a start leaves: the group runs and its threads stand in their places. -/
structure Started (s t : State) (cgu : Nat) (g : ClusterGroup) (l : Launch) : Prop where
  group : Map.get? t.clusterGroups cgu = some { g with st := .running }
  launches : t.launches = s.launches
  coreGroups : t.coreGroups = s.coreGroups
  thread : ∀ k j n, k < l.r.c → j < l.r.q → n < l.r.t →
    getThread t (threadKey cgu ((k * l.r.q + j) * l.r.t + n)) = some (newThread cgu l.serial g.idx k j n l.r l.priv)

theorem startGroup_started {s : State} {cgu : Nat} {g : ClusterGroup} {l : Launch} (hg : Map.get? s.clusterGroups cgu = some g)
    (hl : cgLaunch s cgu = some l) : Started s (startGroup s cgu) cgu g l := by
  have hw : Started s (withThreads cgu l.r (fun k j t => newThread cgu l.serial g.idx k j t l.r l.priv)
      { s with clusterGroups := Map.put s.clusterGroups cgu { g with st := .running } }) cgu g l := by
    obtain ⟨m, hm⟩ := withThreads_rest cgu l.r (fun k j t => newThread cgu l.serial g.idx k j t l.r l.priv)
      { s with clusterGroups := Map.put s.clusterGroups cgu { g with st := .running } }
    exact ⟨by rw [hm]; exact Map.get?_put_self .., by rw [hm], by rw [hm],
      fun k j n hk hj hn => getThread_withThreads (fun _ _ _ => rfl) hk hj hn _⟩
  unfold startGroup
  rw [hg, hl]
  dsimp only
  split
  · exact hw
  · exact ⟨hw.group, hw.launches, hw.coreGroups, hw.thread⟩

/-! ## Placing an index (R284) -/

/-- An index placed on cores: its cluster group, its core groups with their warps, the islands' last users. -/
def placed (s : State) (p serial i cl : Nat) (r : LRec) (cores : List (Nat × List Nat)) : State :=
  let cgu := s.nextId
  let g := newClusterGroup p serial i cl ((cores.headD (0, [])).1 % 4) .filling
  let s := { s with nextId := cgu + 1, clusterGroups := Map.put s.clusterGroups cgu g }
  let s := modLaunch s p serial (placeIdx i)
  let s := ((List.range cores.length).zip cores).foldl (fun s x => addCoreGroup s cgu x.1 x.2.1 x.2.2 r) s
  (cores.map (fun c => c.1 / 4)).foldl (fun s c => setIsland s c (fun x => { x with last := some p })) s

theorem dispatch_placed {s : State} {p serial i cl : Nat} {l : Launch} {cores : List (Nat × List Nat)} (hl : launchOf s p serial = some l)
    (hi : firstReady l (l.place.getD (i % l.r.l) 8) l.g 0 = some i) (hf : fencedDie s l (l.place.getD (i % l.r.l) 8) = none)
    (hd : cl / 16 = l.place.getD (i % l.r.l) 8) (hb : heldBack s l (l.place.getD (i % l.r.l) 8) = false)
    (hp : placeOn s (keptFor s l i) p cl l.r = some cores) :
    exec (.dispatch p serial i cl) s = .next (if l.r.tiles.any (fun x => x.len != 0) then placed s p serial i cl l.r cores
      else startGroup (placed s p serial i cl l.r cores) s.nextId) := by
  change execDispatch p serial i cl s = _
  unfold execDispatch placed
  simp only [hl, hi, hf, hb, hd, hp, ne_eq, not_true, if_false, decide_false, Bool.or_false, Bool.false_eq_true]

/-- A core group's quad groups and warps are put in their places. -/
theorem addCoreGroup_eq (s : State) (cgu k core : Nat) (quads : List Nat) (r : LRec) : ∃ q w, addCoreGroup s cgu k core quads r =
    { s with coreGroups := Map.put s.coreGroups (cgu * 8 + k) (newCoreGroup cgu k core), quadGroups := q, warps := w } := by
  unfold addCoreGroup
  let P (t : State) : Prop := ∃ q w, t =
    { s with coreGroups := Map.put s.coreGroups (cgu * 8 + k) (newCoreGroup cgu k core), quadGroups := q, warps := w }
  refine List.foldlRecOn (motive := P) _ _ ⟨_, _, rfl⟩ (fun b hb j _ => ?_)
  unfold addQuadGroup
  refine List.foldlRecOn (motive := P) _ _ ?_ (fun b hb w _ => ?_)
  · obtain ⟨q, w, rfl⟩ := hb
    exact ⟨_, _, rfl⟩
  · obtain ⟨q, w, rfl⟩ := hb
    exact ⟨_, _, rfl⟩

/-- An index's place beside its core groups. -/
theorem placed_rest (s : State) (p serial i cl : Nat) (r : LRec) (cores : List (Nat × List Nat)) :
    (placed s p serial i cl r cores).launches = Map.adjust s.launches (launchKey p serial) (placeIdx i)
    ∧ (placed s p serial i cl r cores).clusterGroups
      = Map.put s.clusterGroups s.nextId (newClusterGroup p serial i cl ((cores.headD (0, [])).1 % 4) .filling) := by
  let P (t : State) : Prop := t.launches = Map.adjust s.launches (launchKey p serial) (placeIdx i)
    ∧ t.clusterGroups = Map.put s.clusterGroups s.nextId (newClusterGroup p serial i cl ((cores.headD (0, [])).1 % 4) .filling)
  unfold placed
  refine List.foldlRecOn (motive := P) _ _ (List.foldlRecOn (motive := P) _ _ ⟨rfl, rfl⟩ (fun b hb x _ => ?_)) (fun b hb c _ => hb)
  obtain ⟨q, w, h⟩ := addCoreGroup_eq b s.nextId x.1 x.2.1 x.2.2 r
  rw [h]
  exact hb

/-- Core group `n` of a placed index stands on the n-th core of its place. -/
theorem placed_core (s : State) (p serial i cl : Nat) (r : LRec) {cores : List (Nat × List Nat)} {n : Nat} {c : Nat × List Nat}
    (hc : cores[n]? = some c) :
    ∃ x, Map.get? (placed s p serial i cl r cores).coreGroups (s.nextId * 8 + n) = some x ∧ x.core = c.1 ∧ x.saved = false := by
  let P (t : State) : Prop := ∃ x, Map.get? t.coreGroups (s.nextId * 8 + n) = some x ∧ x.core = c.1 ∧ x.saved = false
  unfold placed
  refine List.foldlRecOn (motive := P) _ _ (foldl_makes (P := P) (mem_zip_range_of_getElem? hc) (fun b => ?_) (fun b y hy hb => ?_) _)
    (fun b hb c _ => hb)
  · obtain ⟨q, w, h⟩ := addCoreGroup_eq b s.nextId n c.1 c.2 r
    exact ⟨newCoreGroup s.nextId n c.1, by rw [h]; exact Map.get?_put_self .., rfl, rfl⟩
  · obtain ⟨q, w, h⟩ := addCoreGroup_eq b s.nextId y.1 y.2.1 y.2.2 r
    dsimp only [P]
    rw [h]
    dsimp only
    rw [Map.get?_put]
    split
    · next e =>
      have hy1 : y.1 = n := by omega
      have hyc := getElem?_of_mem_zip_range hy
      rw [hy1, hc] at hyc
      cases hyc
      exact ⟨_, rfl, rfl, rfl⟩
    · exact hb

theorem idxSt_placeIdx (i : Nat) (l : Launch) : idxSt (placeIdx i l) i = .placed := by
  unfold idxSt placeIdx setIdx
  exact Map.get_putD_self .pending l.idx i .placed

/-- The threads and groups of an index that finds room (R22, R25, R284). -/
theorem dispatch_result {s : State} {p serial i cl : Nat} {l : Launch} {cores : List (Nat × List Nat)} (hl : launchOf s p serial = some l)
    (hi : firstReady l (l.place.getD (i % l.r.l) 8) l.g 0 = some i) (hf : fencedDie s l (l.place.getD (i % l.r.l) 8) = none)
    (hd : cl / 16 = l.place.getD (i % l.r.l) 8) (hb : heldBack s l (l.place.getD (i % l.r.l) 8) = false)
    (hp : placeOn s (keptFor s l i) p cl l.r = some cores) :
    ∃ t g, exec (.dispatch p serial i cl) s = .next t ∧ Map.get? t.clusterGroups s.nextId = some g
      ∧ g.part = p ∧ g.serial = serial ∧ g.idx = i ∧ g.cluster = cl
      ∧ g.st = (if l.r.tiles.any (fun x => x.len != 0) then .filling else .running)
      ∧ (∃ m, launchOf t p serial = some m ∧ idxSt m i = .placed)
      ∧ (∀ n c, cores[n]? = some c → n < 8 → cores.length ≤ 8 →
          ∃ x, Map.get? t.coreGroups (s.nextId * 8 + n) = some x ∧ x.core = c.1 ∧ x.saved = false)
      ∧ (l.r.tiles.all (fun x => x.len == 0) = true → l.r.q ≤ 4 → l.r.t ≤ 1024 → l.r.c ≤ 8 →
          ∀ k j n, k < l.r.c → j < l.r.q → n < l.r.t →
            ∃ x, getThread t (threadKey s.nextId ((k * l.r.q + j) * l.r.t + n)) = some x ∧ x.st = .entry ∧ x.pc = l.r.kcode
              ∧ x.lane = n % 32 ∧ x.w = n / 32 ∧ x.priv = l.priv ∧ x.bud = l.r.bud ∧ x.n = l.r.n
              ∧ x.regs = [] ∧ x.preds = 0 ∧ x.lk = 0 ∧ x.flags = 0) := by
  obtain ⟨hlaunch, hgroup⟩ := placed_rest s p serial i cl l.r cores
  have hm : launchOf (placed s p serial i cl l.r cores) p serial = some (placeIdx i l) := by
    unfold launchOf
    rw [hlaunch, Map.get?_adjust, if_pos rfl, show Map.get? s.launches (launchKey p serial) = some l from hl]
    rfl
  have hg : Map.get? (placed s p serial i cl l.r cores).clusterGroups s.nextId
      = some (newClusterGroup p serial i cl ((cores.headD (0, [])).1 % 4) .filling) := by
    rw [hgroup, Map.get?_put_self]
  rw [dispatch_placed hl hi hf hd hb hp]
  by_cases ht : l.r.tiles.any (fun x => x.len != 0) = true
  · refine ⟨_, newClusterGroup p serial i cl ((cores.headD (0, [])).1 % 4) .filling, rfl, ?_, rfl, rfl, rfl, rfl, ?_, ⟨placeIdx i l, ?_, idxSt_placeIdx i l⟩, ?_, fun h => ?_⟩
    · rw [if_pos ht]
      exact hg
    · rw [if_pos ht]
      rfl
    · rw [if_pos ht]
      exact hm
    · rw [if_pos ht]
      exact fun n c hc _ _ => placed_core s p serial i cl l.r hc
    · obtain ⟨x, hx, hne⟩ := List.any_eq_true.mp ht
      exact absurd (List.all_eq_true.mp h x hx) (by simpa using hne)
  · have hcg : cgLaunch (placed s p serial i cl l.r cores) s.nextId = some (placeIdx i l) := by
      unfold cgLaunch
      rw [hg]
      exact hm
    have hst := startGroup_started hg hcg
    rw [if_neg ht, if_neg ht]
    refine ⟨_, { newClusterGroup p serial i cl ((cores.headD (0, [])).1 % 4) .filling with st := .running }, rfl, hst.group, rfl, rfl,
      rfl, rfl, rfl, ⟨placeIdx i l, ?_, idxSt_placeIdx i l⟩, fun n c hc _ _ => ?_,
      fun _ _ _ _ k j n hk hj hn => ⟨_, hst.thread k j n hk hj hn, rfl, rfl, rfl, rfl, rfl, rfl, rfl, rfl, rfl, rfl, rfl⟩⟩
    · unfold launchOf
      rw [hst.launches]
      exact hm
    · rw [hst.coreGroups]
      exact placed_core s p serial i cl l.r hc

end Sys2Proof.Laws


/-! Completion of an index (R281, R282, R136). -/

namespace Sys2Proof.Laws

open Sys2Proof.Machine Sys2Proof.Claims Sys2Proof.Safety

/-! ## What an access leaves (R281) -/

theorem pokeLoc_accessOnly (s : State) (loc : Loc) (keep : StashRef) (l : List Byte) (bs : List (BitVec 16)) (narrow : Bool) :
    AccessOnly s (pokeLoc s loc keep l bs narrow).1 := by
  cases loc <;> rfl

theorem AccessOnly.parts {s t : State} (h : AccessOnly s t) : t.parts = s.parts := by rw [h]
theorem AccessOnly.clusterGroups {s t : State} (h : AccessOnly s t) : t.clusterGroups = s.clusterGroups := by rw [h]
theorem AccessOnly.launches {s t : State} (h : AccessOnly s t) : t.launches = s.launches := by rw [h]

theorem reach_accessOnly (s : State) (w : Who) (va : DWord) (k : AKind) (plain : Bool) (evc : Nat) :
    AccessOnly s (reach s w va k plain evc).2 := by
  unfold reach
  split
  · next h => exact (translate_accessOnly ..).of_eq h
  · next h =>
    have ht := (translate_accessOnly ..).of_eq h
    dsimp only
    split
    · exact ht.trans (wakeDie_accessOnly ..)
    · exact ht.trans (cacheAcc_accessOnly ..)

/-! ## Completion steps -/

/-- What the completion steps wait for is in the partitions alone. -/
theorem completionFree_of_parts {s t : State} {p cg : Nat} (h : t.parts = s.parts) (hf : CompletionFree s p cg) : CompletionFree t p cg := by
  unfold CompletionFree agentWaits heldFor partOf at *
  rwa [h]

theorem groupHeld_of_free {s : State} {p cg : Nat} (hf : CompletionFree s p cg) : groupHeld s cg = false := by
  unfold groupHeld
  simp only [List.any_eq_false]
  intro e he hany
  obtain ⟨h, hh, heq⟩ := List.any_eq_true.mp hany
  exact hf.1 e he h hh (beq_iff_eq.mp heq)

/-- The step that a cluster group's state names. -/
def stepOf (s : State) (cg : Nat) (st : CgSt) : State := match st with
  | .compl => complStep s cg
  | .cbmp => cbmpStep s cg
  | _ => s

theorem completion_of_free {s : State} {cg : Nat} {g : ClusterGroup} (hg : Map.get? s.clusterGroups cg = some g)
    (hf : CompletionFree s g.part cg) : exec (.clusterGroupCompletion cg) s = .next (stepOf s cg g.st) := by
  have hheld := groupHeld_of_free hf
  obtain ⟨-, hc, hb, hhc, hhb⟩ := hf
  change execClusterGroupCompletion cg s = _
  unfold execClusterGroupCompletion
  simp only [hg, hc, hb, hhc, hhb, hheld, Bool.or_false, Bool.false_eq_true, if_false]
  rfl

theorem completion_held {s : State} {cg : Nat} (h : ∃ e ∈ s.parts, ∃ h ∈ e.2.held, h.thread / 32768 = cg) :
    exec (.clusterGroupCompletion cg) s = .next s := by
  have hheld : groupHeld s cg = true := by
    obtain ⟨e, he, x, hx, hcg⟩ := h
    exact List.any_eq_true.mpr ⟨e, he, List.any_eq_true.mpr ⟨x, hx, beq_iff_eq.mpr hcg⟩⟩
  change execClusterGroupCompletion cg s = _
  unfold execClusterGroupCompletion
  cases Map.get? s.clusterGroups cg with
  | none => rfl
  | some g =>
    dsimp only
    rw [if_pos]
    rw [hheld, Bool.or_true]

theorem get?_setCgSt {s : State} {cg : Nat} {g : ClusterGroup} (st : CgSt) (hg : Map.get? s.clusterGroups cg = some g) :
    Map.get? (setCgSt s cg st).clusterGroups cg = some { g with st := st } := by
  unfold setCgSt
  rw [Map.get?_adjust, if_pos rfl, hg]
  rfl

/-- Once the COMPL update is made the bitmap is next. -/
theorem completion_setCgSt {s : State} {cg : Nat} {g : ClusterGroup} (hg : Map.get? s.clusterGroups cg = some g)
    (hf : CompletionFree s g.part cg) : exec (.clusterGroupCompletion cg) (setCgSt s cg .cbmp) = .next (cbmpStep (setCgSt s cg .cbmp) cg) :=
  completion_of_free (get?_setCgSt .cbmp hg) (completionFree_of_parts rfl hf)

theorem cgLaunch_eq {s : State} {cg : Nat} {g : ClusterGroup} (hg : Map.get? s.clusterGroups cg = some g) :
    cgLaunch s cg = launchOf s g.part g.serial := by
  unfold cgLaunch
  rw [hg]
  rfl

theorem completion_noCompl {s : State} {cg : Nat} {g : ClusterGroup} {l : Launch} (hg : Map.get? s.clusterGroups cg = some g)
    (hl : cgLaunch s cg = some l) (hst : g.st = .compl) (hc : l.r.compl = 0) (hf : CompletionFree s g.part cg) :
    exec (.clusterGroupCompletion cg) s = exec (.clusterGroupCompletion cg) (setCgSt s cg .cbmp) := by
  rw [completion_of_free hg hf, completion_setCgSt hg hf, hst]
  simp only [stepOf, complStep, hg, hl, hc, if_true]

/-! ## Count objects and the bitmap -/

/-- An update of an object that a signal of one would make (R214). -/
theorem cobjUpd_of_signal {l : List Byte} {fl : Byte} {n : Nat} (h : objSignal (leNat l) 1 fl = some n) :
    ∃ c, cobjUpd (cobjOf l) ⟨1, 0, fl⟩ = .ok c ∧ cobjBytes c = leBytes 32 n := by
  unfold objSignal at h
  split at h
  · exact nomatch h
  · next hno =>
    simp only [objReserved, Bool.or_eq_true, decide_eq_true_eq, not_or, ne_eq, Decidable.not_not, Nat.not_le] at hno
    obtain ⟨⟨h92, h104⟩, hcount⟩ := hno
    cases h
    have hof : cobjOf l = some ⟨leNat l % 2 ^ 64, leNat l / 2 ^ 64 % 2 ^ 28, BitVec.ofNat 8 (leNat l / 2 ^ 96)⟩ := by
      unfold cobjOf
      dsimp only
      rw [h92, h104]
      rfl
    refine ⟨⟨leNat l % 2 ^ 64 + 1, leNat l / 2 ^ 64 % 2 ^ 28, BitVec.ofNat 8 (leNat l / 2 ^ 96) ||| fl⟩, ?_, ?_⟩
    · rw [hof]
      unfold cobjUpd
      dsimp only
      rw [if_neg (by omega), if_neg (by omega)]
      congr 2
    · unfold cobjBytes
      dsimp only
      congr 1
      omega

theorem pokeLoc_completion {s u : State} {p cg : Nat} {g : ClusterGroup} (ha : AccessOnly s u)
    (hg : Map.get? s.clusterGroups cg = some g) (hf : CompletionFree s p cg) :
    Map.get? u.clusterGroups cg = some g ∧ CompletionFree u p cg :=
  ⟨by rw [ha.clusterGroups, hg], completionFree_of_parts ha.parts hf⟩

theorem cgLaunch_of_access {s u : State} {cg : Nat} (ha : AccessOnly s u) : cgLaunch u cg = cgLaunch s cg := by
  unfold cgLaunch
  rw [ha.clusterGroups, ha.launches]

/-- The object's update, made at once (R281, R365). -/
theorem agentCobj_of_signal {s u : State} {p cg : Nat} {w : Who} {va : DWord} {fl : Byte} {x : Loc} {n : Nat}
    (fault : FInfo → State → State) (hva : va.toNat % 32 = 0) (hr : reach s w va .atomic = (.ok x, u)) (hl : locLock u x = none)
    (hn : objSignal (leNat (readLoc u x 32).1.bytes) 1 fl = some n) :
    agentCobj s p (.compl cg) w va ⟨1, 0, fl⟩ fault (complDone cg)
      = complDone cg none (pokeLoc (readLoc u x 32).2 x none (leBytes 32 n) (List.replicate 8 0) false).1 := by
  obtain ⟨c, hc, hb⟩ := cobjUpd_of_signal hn
  unfold agentCobj agentWrite
  rw [if_neg (by simp [hva]), hr]
  dsimp only
  rw [hl]
  dsimp only [applyOp, cobjStep, accRead]
  rw [hc]
  dsimp only
  rw [hb]
  rfl

theorem complDone_none {s : State} {cg : Nat} : complDone cg none s = cbmpStep (setCgSt s cg .cbmp) cg := by
  unfold complDone
  cases Map.get? s.clusterGroups cg <;> cases cgLaunch s cg <;> rfl

theorem completion_compl {s u : State} {cg : Nat} {g : ClusterGroup} {l : Launch} {x : Loc} {n : Nat}
    (hg : Map.get? s.clusterGroups cg = some g) (hl : cgLaunch s cg = some l) (hst : g.st = .compl) (hc : l.r.compl ≠ 0)
    (hf : CompletionFree s g.part cg) (ha : l.r.compl.toNat % 32 = 0)
    (hr : reach s ⟨g.part, none, l.priv⟩ l.r.compl .atomic = (.ok x, u)) (hx : locLock u x = none)
    (hn : objSignal (leNat (readLoc u x 32).1.bytes) 1 g.flags = some n) :
    exec (.clusterGroupCompletion cg) s = exec (.clusterGroupCompletion cg)
      (setCgSt (pokeLoc (readLoc u x 32).2 x none (leBytes 32 n) (List.replicate 8 0) false).1 cg .cbmp) := by
  have hacc : AccessOnly s (pokeLoc (readLoc u x 32).2 x none (leBytes 32 n) (List.replicate 8 0) false).1 :=
    (((reach_accessOnly s ⟨g.part, none, l.priv⟩ l.r.compl .atomic false 2).of_eq hr).trans (readLoc_accessOnly u x 32)).trans
      (pokeLoc_accessOnly ..)
  obtain ⟨hg', hf'⟩ := pokeLoc_completion hacc hg hf
  rw [completion_of_free hg hf, completion_setCgSt hg' hf', hst]
  refine congrArg Host.Outcome.next ?_
  simp only [stepOf, complStep, hg, hl, hc, if_false]
  rw [agentCobj_of_signal (w := distWho g.part l) _ ha hr hx hn, complDone_none]

theorem completion_noBitmap {s : State} {cg : Nat} {g : ClusterGroup} {l : Launch} (hg : Map.get? s.clusterGroups cg = some g)
    (hl : cgLaunch s cg = some l) (hst : g.st = .cbmp) (hc : l.r.cbmp = 0) (hf : CompletionFree s g.part cg) :
    exec (.clusterGroupCompletion cg) s = .next (finishIndex s cg) := by
  rw [completion_of_free hg hf, hst]
  simp only [stepOf, cbmpStep, hg, hl, hc, if_true]

theorem completion_bitmap {s u : State} {cg : Nat} {g : ClusterGroup} {l : Launch} {x : Loc} (hg : Map.get? s.clusterGroups cg = some g)
    (hl : cgLaunch s cg = some l) (hst : g.st = .cbmp) (hc : l.r.cbmp ≠ 0) (hf : CompletionFree s g.part cg)
    (hr : reach s ⟨g.part, none, l.priv⟩ (l.r.cbmp + BitVec.ofNat 64 (64 + g.idx / 8)) .atomic = (.ok x, u)) (hx : locLock u x = none) :
    exec (.clusterGroupCompletion cg) s = .next (finishIndex (bitSet x g.idx u) cg) := by
  have hbit : (BitVec.ofNat 8 (2 ^ (g.idx % 8))).toNat = 2 ^ (g.idx % 8) := by
    have hlt : 2 ^ (g.idx % 8) < 2 ^ 8 := Nat.pow_lt_pow_right (by decide) (Nat.mod_lt _ (by decide))
    exact Nat.mod_eq_of_lt hlt
  rw [completion_of_free hg hf, hst]
  refine congrArg Host.Outcome.next ?_
  simp only [stepOf, cbmpStep, hg, hl, hc, if_false]
  rw [show reach s (distWho g.part l) (l.r.cbmp + d64 (64 + g.idx / 8)) .atomic = (.ok x, u) from hr]
  dsimp only [agentWrite]
  rw [hx]
  dsimp only [applyOp]
  rw [hbit]
  rfl

/-! ## The index is done (R281, R282) -/

theorem leaveSide_eq (s : State) (w : Warp) : ∃ m, leaveSide s w = { s with sideLeft := m } := by
  unfold leaveSide
  split
  · exact ⟨_, rfl⟩
  · exact ⟨s.sideLeft, rfl⟩

/-- A cluster group leaves its cores, quads, warps and threads, and nothing else but what stays in side buffers. -/
theorem freeGroup_eq (s : State) (cgu : Nat) : ∃ m, freeGroup s cgu =
    { s with sideLeft := m, coreGroups := s.coreGroups.filter (fun e => e.2.cgu != cgu),
             quadGroups := s.quadGroups.filter (fun e => e.2.cgu != cgu), warps := s.warps.filter (fun e => e.2.cgu != cgu),
             threads := s.threads.filter (fun e => e.2.cgu != cgu) } := by
  unfold freeGroup
  have hside : ∃ m, ((s.warps.filter (fun e => e.2.cgu == cgu && !e.2.saved)).map (·.2)).foldl leaveSide s = { s with sideLeft := m } := by
    refine List.foldlRecOn (motive := fun t : State => ∃ m, t = { s with sideLeft := m }) _ _ ⟨s.sideLeft, rfl⟩ (fun t ht w _ => ?_)
    obtain ⟨m, rfl⟩ := ht
    exact leaveSide_eq _ w
  obtain ⟨m, hm⟩ := hside
  exact ⟨m, by rw [hm]⟩

theorem writeDone_noBitmap {s : State} {p serial : Nat} {l : Launch} (hl : launchOf s p serial = some l) (hcl : l.closed = true)
    (hc : l.r.cbmp = 0) (ha : agentWaits s p (.done serial) = false) (hh : heldFor s p (.done serial) = false) :
    writeDone s p serial = if l.published then s else modLaunch s p serial (fun l => { l with published := true }) := by
  unfold writeDone
  rw [hl]
  simp only [hcl, ha, hh, hc, Bool.not_true, Bool.false_or, Bool.or_false, if_true]
  rfl

/-- A cluster group gone from its cores, its index done. -/
def freed (s : State) (cg : Nat) (g : ClusterGroup) : State :=
  modLaunch (freeGroup { s with clusterGroups := Map.erase s.clusterGroups cg } cg) g.part g.serial (setIdx g.idx .done)

theorem freed_eq (s : State) (cg : Nat) (g : ClusterGroup) : ∃ m, freed s cg g =
    { s with sideLeft := m, clusterGroups := Map.erase s.clusterGroups cg, coreGroups := s.coreGroups.filter (fun e => e.2.cgu != cg),
             quadGroups := s.quadGroups.filter (fun e => e.2.cgu != cg), warps := s.warps.filter (fun e => e.2.cgu != cg),
             threads := s.threads.filter (fun e => e.2.cgu != cg),
             launches := Map.adjust s.launches (launchKey g.part g.serial) (setIdx g.idx .done) } := by
  obtain ⟨m, hm⟩ := freeGroup_eq { s with clusterGroups := Map.erase s.clusterGroups cg } cg
  exact ⟨m, by rw [freed, hm]; rfl⟩

theorem launchOf_modLaunch {s : State} {p serial : Nat} {l : Launch} (f : Launch → Launch) (hl : launchOf s p serial = some l) :
    launchOf (modLaunch s p serial f) p serial = some (f l) := by
  unfold launchOf modLaunch
  rw [Map.get?_adjust, if_pos rfl, show Map.get? s.launches (launchKey p serial) = some l from hl]
  rfl

theorem launchOf_freed {s : State} {cg : Nat} {g : ClusterGroup} {l : Launch} (hl : launchOf s g.part g.serial = some l) :
    launchOf (freed s cg g) g.part g.serial = some (setIdx g.idx .done l) := by
  obtain ⟨m, hm⟩ := freeGroup_eq { s with clusterGroups := Map.erase s.clusterGroups cg } cg
  exact launchOf_modLaunch _ (by rw [hm]; exact hl)

/-- With its last index a launch whose growth is not closed is closed, and DONE published. -/
theorem finishIndex_launch {s : State} {cg : Nat} {g : ClusterGroup} {l : Launch} (hg : Map.get? s.clusterGroups cg = some g)
    (hl : launchOf s g.part g.serial = some l) (hc : l.r.cbmp = 0) (ha : agentWaits s g.part (.done g.serial) = false)
    (hh : heldFor s g.part (.done g.serial) = false) :
    ∃ ls m, finishIndex s cg = { freed s cg g with launches := ls } ∧ Map.get? ls (launchKey g.part g.serial) = some m
      ∧ m.idx = (setIdx g.idx .done l).idx ∧ m.g = l.g
      ∧ (allDone m = true → m.closed = true ∧ (l.closed = false → m.published = true)) := by
  have hlf := launchOf_freed (cg := cg) hl
  have hfin : finishIndex s cg = if allDone (setIdx g.idx .done l) && !l.closed
      then writeDone (modLaunch (freed s cg g) g.part g.serial (fun l => { l with closed := true })) g.part g.serial
      else freed s cg g := by
    unfold finishIndex
    rw [hg]
    dsimp only
    rw [show launchOf (modLaunch (freeGroup { s with clusterGroups := Map.erase s.clusterGroups cg } cg) g.part g.serial
      (setIdx g.idx .done)) g.part g.serial = _ from hlf]
    rfl
  by_cases hclose : (allDone (setIdx g.idx .done l) && !l.closed) = true
  · obtain ⟨m, hm⟩ := freed_eq s cg g
    have hlc := launchOf_modLaunch (fun l => { l with closed := true }) hlf
    rw [hfin, if_pos hclose, writeDone_noBitmap hlc rfl hc (by rw [hm]; exact ha) (by rw [hm]; exact hh)]
    split
    · next hp => exact ⟨_, _, rfl, hlc, rfl, rfl, fun _ => ⟨rfl, fun _ => hp⟩⟩
    · exact ⟨_, _, rfl, launchOf_modLaunch (fun l => { l with published := true }) hlc, rfl, rfl, fun _ => ⟨rfl, fun _ => rfl⟩⟩
  · rw [hfin, if_neg hclose]
    refine ⟨_, _, rfl, hlf, rfl, rfl, fun hd => ?_⟩
    rw [Bool.and_eq_true, not_and, Bool.not_eq_true', Bool.not_eq_false] at hclose
    exact ⟨hclose hd, fun h => absurd (hclose hd) (by rw [h]; decide)⟩

theorem finishIndex_results {s : State} {cg : Nat} {g : ClusterGroup} {l : Launch} (hg : Map.get? s.clusterGroups cg = some g)
    (hl : launchOf s g.part g.serial = some l) (hc : l.r.cbmp = 0) (ha : agentWaits s g.part (.done g.serial) = false)
    (hh : heldFor s g.part (.done g.serial) = false) :
    let t := finishIndex s cg
    Map.get? t.clusterGroups cg = none ∧ (∀ e ∈ t.coreGroups, e.2.cgu ≠ cg) ∧ (∀ e ∈ t.threads, e.2.cgu ≠ cg)
    ∧ (∀ k x, getThread s k = some x → (∀ e ∈ s.threads, e.2.cgu ≠ cg) → getThread t k = some x)
    ∧ ∃ m, launchOf t g.part g.serial = some m ∧ idxSt m g.idx = .done
      ∧ (allDone m = true → m.closed = true ∧ (l.closed = false → m.published = true)) := by
  obtain ⟨ls, m, hfin, hm, hidx, -, hdone⟩ := finishIndex_launch hg hl hc ha hh
  obtain ⟨sl, hfreed⟩ := freed_eq s cg g
  dsimp only
  rw [hfin, hfreed]
  refine ⟨Map.get?_erase_self .., fun e he => ?_, fun e he => ?_, fun k x hx hall => ?_, m, hm, ?_, hdone⟩
  · exact bne_iff_ne.mp (List.mem_filter.mp he).2
  · exact bne_iff_ne.mp (List.mem_filter.mp he).2
  · unfold getThread
    dsimp only
    rw [List.filter_eq_self.mpr (fun e he => bne_iff_ne.mpr (hall e he))]
    exact hx
  · unfold idxSt
    rw [hidx]
    exact Map.get_putD_self .pending l.idx g.idx .done

/-! ## Tiles and dies (R106, R315) -/

theorem fillWaits_of_none {s : State} {p cg : Nat} (h : ∀ e ∈ (partOf s p).agents, ∀ ck, e.1 = .fill ck → ck / 8 ≠ cg) :
    fillWaits s p cg = false := by
  unfold fillWaits
  rw [List.any_eq_false]
  intro e he
  split
  · next ck hck => simpa using h e he ck hck
  · exact Bool.false_ne_true

/-- Settles O42: a place takes no kept quad (`placeOn_free`), a started group's threads stand in their places (`startGroup_started`), and
completion's steps follow one another while nothing holds them (`completion_of_free`). -/
theorem dispatchResults : Obligations.DispatchResults := by
  unfold Obligations.DispatchResults
  refine ⟨fun s p serial i cl l cores hl => dispatch_result hl, ?_, ?_, ?_, fun s kept p cl r cores h => placeOn_free h,
    fun s l i h => keptFor_of_none i h, fun s l i k w c h hc hs hi => keptFor_of_some h hc hs hi, ?_, ?_, fun s cg h => completion_held h,
    fun s cg g l hg hl hst hc hf => completion_noCompl hg hl hst hc hf,
    fun s cg g l x u n hg hl hst hc hf ha hr hx hn => completion_compl hg hl hst hc hf ha hr hx hn,
    fun s cg g l hg hl hst hc hf => completion_noBitmap hg hl hst hc hf,
    fun s cg g l x u hg hl hst hc hf hr hx => completion_bitmap hg hl hst hc hf hr hx,
    fun s cg g l hg hl hc ha hh => finishIndex_results hg hl hc ha hh⟩
  · intro s p serial i cl l hl hi
    change execDispatch p serial i cl s = _
    unfold execDispatch
    simp only [hl, hi, ne_eq, not_false_eq_true, if_true]
  · intro s p serial i cl l d hl hi hf
    change execDispatch p serial i cl s = _
    unfold execDispatch
    simp only [hl, hi, hf, ne_eq, not_true, if_false]
    rfl
  · intro s p serial i cl l hl die hi hf hd hb hp hr hcls
    change execDispatch p serial i cl s = _
    unfold execDispatch
    simp only [hl, hi, hf, hd, hb, hp, hr, die, ne_eq, not_true, if_false, decide_false, Bool.or_false, Bool.false_eq_true, noRoom, hcls]
  · intro s cg g l u hg hl hst hw hfill
    change execTileFillComplete cg s = _
    unfold execTileFillComplete
    simp only [hg, hl, hst, fillWaits_of_none hw, hfill, bne_self_eq_false, Bool.or_false, Bool.false_eq_true, if_false]
  · intro s cg g l u ck f c h hg hl hst hw hfill hfw hfc hck hc hh
    change execTileFillComplete cg s = _
    unfold execTileFillComplete
    simp only [hg, hl, hst, fillWaits_of_none hw, hfill, hfw, hfc, bne_self_eq_false, Bool.or_false, Bool.false_eq_true, if_false, fillFailed,
      hck, hh, coreAt, hc]
    rfl

end Sys2Proof.Laws


/-! SUPPORT. What leaves a warp where it resides: no operation below moves a thread to another warp, lets a stopped one run, saves a
warp, or gives up an image (R317-R320). -/

namespace Sys2Proof.Laws

open Sys2Proof.Machine Sys2Proof.Claims Sys2Proof.Safety

/-- A thread of the same warp, stopped as before. -/
def SameRun (x y : Thread) : Prop := warpKeyOf y = warpKeyOf x ∧ y.stop = x.stop

theorem SameRun.refl (x : Thread) : SameRun x x := ⟨rfl, rfl⟩

theorem SameRun.trans {x y z : Thread} (h : SameRun x y) (k : SameRun y z) : SameRun x z := ⟨k.1.trans h.1, k.2.trans h.2⟩

/-- A thread at the same place (Table 2-2) is in the same warp. -/
theorem SameRun.of_place {x y : Thread} (hc : y.cgu = x.cgu) (hk : y.k = x.k) (hj : y.j = x.j) (hw : y.w = x.w)
    (hs : y.stop = x.stop) : SameRun x y := by
  refine ⟨?_, hs⟩
  simp only [warpKeyOf, hc, hk, hj, hw]

theorem Moved.sameRun {x y : Thread} (h : Moved x y) : SameRun x y := ⟨h.warpKeyOf, h.stop⟩

/-- A warp as resident, and as asked to go, as before. -/
def SameStay (w v : Warp) : Prop := v.saved = w.saved ∧ v.preq = w.preq ∧ v.since = w.since

theorem SameStay.refl (w : Warp) : SameStay w w := ⟨rfl, rfl, rfl⟩

theorem SameStay.trans {u v w : Warp} (h : SameStay u v) (k : SameStay v w) : SameStay u w :=
  ⟨k.1.trans h.1, k.2.1.trans h.2.1, k.2.2.trans h.2.2⟩

theorem SameButGen.sameStay {w v : Warp} (h : SameButGen w v) : SameStay w v := by
  unfold SameButGen at h
  rw [h]
  exact ⟨rfl, rfl, rfl⟩

theorem rel_mono {α : Type} {R S : α → α → Prop} (h : ∀ {a b}, R a b → S a b) {o p : Option α} (hr : Option.Rel R o p) :
    Option.Rel S o p := by
  cases hr with
  | none => exact .none
  | some hab => exact .some (h hab)

theorem getWarp_of_rel {R : Warp → Warp → Prop} {s t : State} {wk : Nat} {w : Warp}
    (hr : Option.Rel R (Map.get? s.warps wk) (Map.get? t.warps wk)) (hw : Map.get? s.warps wk = some w) :
    ∃ v, Map.get? t.warps wk = some v ∧ R w v := by
  rw [hw] at hr
  cases ht : Map.get? t.warps wk with
  | none => rw [ht] at hr; cases hr
  | some v =>
    rw [ht] at hr
    cases hr with
    | some hwv => exact ⟨v, rfl, hwv⟩

/-- Threads stay in their warps and stopped or running, warps resident or saved, images kept. -/
structure Resides (s t : State) : Prop where
  entry : ∀ e ∈ t.threads, ∃ x, (e.1, x) ∈ s.threads ∧ SameRun x e.2
  warp : ∀ wk, Option.Rel SameStay (Map.get? s.warps wk) (Map.get? t.warps wk)
  images : ∀ p, (partOf t p).images = (partOf s p).images

namespace Resides

theorem refl (s : State) : Resides s s :=
  ⟨fun e he => ⟨e.2, he, .refl _⟩, fun _ => rel_refl SameStay.refl _, fun _ => rfl⟩

theorem trans {s t u : State} (h : Resides s t) (k : Resides t u) : Resides s u where
  entry e he := by
    obtain ⟨x, hx, hxe⟩ := k.entry e he
    obtain ⟨y, hy, hyx⟩ := h.entry _ hx
    exact ⟨y, hy, hyx.trans hxe⟩
  warp wk := rel_trans (R := SameStay) (fun p q => p.trans q) (h.warp wk) (k.warp wk)
  images p := (k.images p).trans (h.images p)

theorem foldl {α : Type} {f : State → α → State} (hf : ∀ s x, Resides s (f s x)) (l : List α) (s : State) : Resides s (l.foldl f s) :=
  List.foldlRecOn l f (refl s) (fun _ ht x _ => ht.trans (hf _ x))

theorem of_stands {s t : State} (h : Stands s t) : Resides s t where
  entry e he := by
    obtain ⟨x, hx, hm⟩ := h.entry e he
    exact ⟨x, hx, hm.sameRun⟩
  warp wk := rel_mono SameButGen.sameStay (h.warp wk)
  images p := by rw [h.rest]; rfl

theorem of_agentWrites {s t : State} (h : AgentWrites s t) : Resides s t where
  entry e he := by
    rw [h.threads] at he
    exact ⟨e.2, he, .refl _⟩
  warp wk := by
    rw [h.warps]
    exact rel_refl SameStay.refl _
  images p := by
    obtain ⟨hs, hp⟩ := h.part p
    rw [hp]

/-- Neither threads nor warps nor partitions change. -/
theorem of_same {s t : State} (ht : t.threads = s.threads) (hw : t.warps = s.warps) (hp : t.parts = s.parts) : Resides s t where
  entry e he := ⟨e.2, ht ▸ he, .refl _⟩
  warp wk := by
    rw [hw]
    exact rel_refl SameStay.refl _
  images p := by
    unfold partOf
    rw [hp]

theorem modThread (s : State) (k : Nat) {f : Thread → Thread} (hf : ∀ x, SameRun x (f x)) : Resides s (modThread s k f) where
  entry e he := by
    rcases mem_adjust he with he | ⟨x, hx, rfl⟩
    · exact ⟨e.2, he, .refl _⟩
    · exact ⟨x, hx, hf x⟩
  warp _ := rel_refl SameStay.refl _
  images _ := rfl

theorem setThread {s : State} {k : Nat} {x t : Thread} (hx : (k, x) ∈ s.threads) (ht : SameRun x t) : Resides s (setThread s k t) where
  entry e he := by
    rcases Map.mem_ins he with rfl | he
    · exact ⟨x, hx, ht⟩
    · exact ⟨e.2, List.mem_of_mem_filter he, .refl _⟩
  warp _ := rel_refl SameStay.refl _
  images _ := rfl

theorem eraseThread (s : State) (k : Nat) : Resides s { s with threads := Map.erase s.threads k } :=
  ⟨fun e he => ⟨e.2, List.mem_of_mem_filter he, .refl _⟩, fun _ => rel_refl SameStay.refl _, fun _ => rfl⟩

theorem modWarp (s : State) (k : Nat) {f : Warp → Warp} (hf : ∀ w, SameStay w (f w)) : Resides s (modWarp s k f) where
  entry e he := ⟨e.2, he, .refl _⟩
  warp j := rel_adjust SameStay.refl s.warps k hf j
  images _ := rfl

theorem setPart (s : State) (p : Nat) {f : Part → Part} (hf : ∀ q, (f q).images = q.images) : Resides s (setPart s p f) where
  entry e he := ⟨e.2, he, .refl _⟩
  warp _ := rel_refl SameStay.refl _
  images q := by
    rw [partOf_setPart]
    split
    · next e => rw [e, hf]
    · rfl

theorem leaveGroup (s : State) (k : Nat) : Resides s (leaveGroup s k) := of_stands (.leaveGroup s k)

theorem setFrag (s : State) (fk : Nat) (x : FEntry) : Resides s (setFrag s fk x) := of_same rfl rfl rfl

theorem setClusterGroups (s : State) (m : Map ClusterGroup) : Resides s { s with clusterGroups := m } := of_same rfl rfl rfl

theorem setBar (s : State) (c b : Nat) (x : Bar) : Resides s (setBar s c b x) := of_same rfl rfl rfl

theorem modFrag (s : State) (fk : Nat) (f : FEntry → FEntry) : Resides s (modFrag s fk f) :=
  (setFrag s fk _).trans (of_agentWrites (modFrag_rest s fk f))

theorem leaveFrag (s : State) (id : Word) (lane : Nat) : Resides s (leaveFrag s id lane) := by
  unfold Machine.leaveFrag
  split
  · exact refl s
  · exact modFrag ..

theorem lastThread (s : State) (cgu k : Nat) : Resides s (lastThread s cgu k) := by
  unfold Machine.lastThread
  dsimp only
  split <;> split <;> exact of_same rfl rfl rfl

theorem setMasks (l : List Nat) (f : Warp → Nat → Word) (w : Warp) : SameStay w (l.foldl (fun w m => setMask m (f w m) w) w) :=
  List.foldlRecOn l _ (SameStay.refl w) (fun _ h _ _ => h.trans ⟨rfl, rfl, rfl⟩)

theorem exited (s : State) (k : Nat) (t : Thread) : Resides s (exited s k t) := by
  unfold Laws.exited
  dsimp only
  refine .trans (.trans (.trans (.trans (.trans (leaveGroup s k) (leaveFrag _ t.frag t.lane)) (eraseThread _ k))
    (foldl (fun s b => ?_) _ _)) (modWarp _ (warpKeyOf t) (fun w => ?_))) (setClusterGroups _ _)
  · exact setBar s ..
  · exact setMasks _ _ w

theorem exitThread (s : State) (k : Nat) : Resides s (exitThread s k) := by
  cases ht : getThread s k with
  | none =>
    unfold Machine.exitThread
    rw [ht]
    exact refl s
  | some t =>
    rw [exitThread_eq ht]
    exact (((exited s k t).trans (of_stands (.mwaitChecks _ _))).trans (lastThread _ _ _)).trans (of_stands (.genCheck _ _))

theorem discardThread (s : State) (k : Nat) : Resides s (discardThread s k) := by
  unfold Machine.discardThread
  split
  · exact refl s
  · next t _ =>
    split
    · exact ((leaveGroup s k).trans (leaveFrag _ t.frag t.lane)).trans (modThread _ k (fun _ => ⟨rfl, rfl⟩))
    · exact exitThread s k

theorem learnAway (s : State) (k : Nat) : Resides s (learnAway s k) := by
  unfold Machine.learnAway
  split
  · exact refl s
  · split
    · exact refl s
    · split
      · exact refl s
      · exact modThread s k (fun _ => ⟨rfl, rfl⟩)

theorem dropTables (s : State) (k : Nat) : Resides s (dropTables s k) := by
  unfold Machine.dropTables
  split
  · exact of_same rfl rfl rfl
  · exact refl s

theorem resumeMembers (s : State) (fk : Nat) (ks : List Nat) : Resides s (resumeMembers s fk ks) := by
  unfold Machine.resumeMembers
  dsimp only
  refine .trans (.trans (.trans (List.foldlRecOn (motive := fun acc : State × List (Nat × Pass) => Resides s acc.1) ks _ (refl s) ?_)
    (of_stands (.regroup _ _))) (modFrag _ fk _)) (of_stands (.genChecks _ ks))
  intro acc hacc k _
  cases ht : getThread acc.1 k with
  | none => exact hacc
  | some t =>
    obtain ⟨u, hu, hm⟩ := (Stands.leaveGroup acc.1 k).get ht
    have hback : SameRun u t := ⟨hm.warpKeyOf.symm, hm.stop.symm⟩
    have hset (v : Thread) (hv : SameRun t v) : Resides s (Machine.setThread (Machine.leaveGroup acc.1 k) k v) :=
      (hacc.trans (leaveGroup acc.1 k)).trans (setThread (mem_of_get? hu) (hback.trans hv))
    dsimp only [toEntry]
    split
    · split
      · exact hset _ (by exact .of_place rfl rfl rfl rfl rfl)
      · exact hset _ (by exact .of_place rfl rfl rfl rfl rfl)
    · exact hset _ (by exact .of_place rfl rfl rfl rfl rfl)

theorem fresMembers (s : State) (fk : Nat) (ks : List Nat) : Resides s (fresMembers s fk ks) :=
  ((resumeMembers s fk ks).trans (foldl learnAway ks _)).trans (foldl dropTables ks _)

theorem fresEntry (s : State) (fk : Nat) : Resides s (fresEntry s fk) := by
  unfold Machine.fresEntry
  dsimp only
  split
  · exact refl s
  · exact modFrag ..
  · exact fresMembers ..

theorem postEvent (s : State) (p : Nat) (src : Word) (kind cause reason : Nat) (x y z : DWord) (q : Bool) :
    Resides s (postEvent s p src kind cause reason x y z q) := setPart s p (fun _ => rfl)

theorem fdiscEntry (s : State) (fk : Nat) : Resides s (fdiscEntry s fk) :=
  (setFrag s fk _).trans (postEvent ..)

theorem exitMembers (s : State) (id : Word) : Resides s (exitMembers s id) := foldl discardThread _ s

theorem takeOp (s : State) (fk : Nat) (op : FOp) : Resides s (takeOp s fk op) := by
  cases op with
  | none => exact refl s
  | fres => exact fresEntry s fk
  | fdisc => exact ((fdiscEntry s fk).trans (exitMembers _ _)).trans (of_same rfl rfl rfl)

end Resides

end Sys2Proof.Laws


/-! Stopping for a save (R317): the threads of a warp stop where they stand. -/

namespace Sys2Proof.Laws

open Sys2Proof.Machine Sys2Proof.Claims Sys2Proof.Safety

/-! ## Leaving shared groups -/

/-- A state in which threads have moved takes one more group, which waits for no more. -/
theorem Stands.thenPut {s t : State} (h : Stands s t) (n gid : Nat) (g : Group) (hw : ∀ z ∈ g.waits, ∃ e0 ∈ s.groups, z ∈ e0.2.waits) :
    Stands s { t with nextId := n, groups := Map.put t.groups gid g } where
  rest := by rw [h.rest]
  thread := h.thread
  entry := h.entry
  warp := h.warp
  wait e he z hz := by
    rcases Map.mem_ins he with rfl | he
    · exact hw z hz
    · exact h.wait e (List.mem_of_mem_filter he) z hz

theorem Stands.splitOff (s : State) (ks : List Nat) : Stands s (splitOff s ks) := by
  unfold Machine.splitOff
  refine List.foldlRecOn _ _ (refl s) (fun t ht e he => ?_)
  dsimp only
  split
  · exact ht
  · have hmove : ∀ (l : List Nat) (n : Nat) (s : State),
        Stands s (l.foldl (fun s k => Machine.modThread s k (fun t => { t with st := .grouped n })) s) :=
      fun l n s => Stands.foldl (fun s k => Stands.modThread s k (by intro _; rfl)) l s
    have hput := ht.thenPut (t.nextId + 1) t.nextId
      { e.2 with members := e.2.members.filter (fun k => ks.contains k),
                 waits := e.2.waits.filter (fun w => (e.2.members.filter (fun k => ks.contains k)).contains w.1) }
      (fun z hz => ⟨e, he, List.mem_of_mem_filter hz⟩)
    exact (hput.trans (hmove _ t.nextId _)).trans ((Stands.dropMembers _ e.1 _).trans (Stands.settleGroup _ e.1))

/-! ## Stopped threads -/

theorem Moved.sameValues {x y : Thread} (h : Moved x y) : Claims.sameValues x y := by
  rw [h]
  exact ⟨rfl, rfl, rfl, rfl, rfl, rfl, rfl, rfl, rfl, rfl, rfl, rfl⟩

/-- A thread as it was but for where it stands, or stopped there. -/
def Halted (x y : Thread) : Prop :=
  sameValues x y ∧ warpKeyOf y = warpKeyOf x ∧ (y.stop = x.stop ∨ (x.stop = .running ∧ y.stop = .whole))

namespace Halted

theorem of_moved {x y : Thread} (h : Moved x y) : Halted x y := ⟨h.sameValues, h.warpKeyOf, .inl h.stop⟩

theorem refl (x : Thread) : Halted x x := of_moved (.refl x)

theorem trans {x y z : Thread} (h : Halted x y) (k : Halted y z) : Halted x z := by
  obtain ⟨⟨a1, a2, a3, a4, a5, a6, a7, a8, a9, a10, a11, a12⟩, hw, hs⟩ := h
  obtain ⟨⟨b1, b2, b3, b4, b5, b6, b7, b8, b9, b10, b11, b12⟩, kw, ks⟩ := k
  refine ⟨⟨b1.trans a1, b2.trans a2, b3.trans a3, b4.trans a4, b5.trans a5, b6.trans a6, b7.trans a7, b8.trans a8, b9.trans a9,
    b10.trans a10, b11.trans a11, b12.trans a12⟩, kw.trans hw, ?_⟩
  rcases hs with hs | ⟨hr, hs⟩
  · rw [hs] at ks
    exact ks
  · rcases ks with ks | ⟨kr, -⟩
    · exact .inr ⟨hr, ks.trans hs⟩
    · rw [hs] at kr
      exact nomatch kr

theorem stop_eq {x y : Thread} (h : Halted x y) (hx : x.stop ≠ .running) : y.stop = x.stop := by
  obtain ⟨-, -, hs | ⟨hr, -⟩⟩ := h
  · exact hs
  · exact absurd hr hx

theorem not_running {x y : Thread} (h : Halted x y) (hx : x.stop ≠ .running) : y.stop ≠ .running := by rwa [h.stop_eq hx]

end Halted

/-- A running thread stops where it stands. -/
def haltThread (t : Thread) : Thread := if t.stop == .running then { t with stop := .whole } else t

theorem haltThread_halted (t : Thread) : Halted t (haltThread t) := by
  unfold haltThread
  split
  · next h => exact ⟨(Moved.refl t).sameValues, rfl, .inr ⟨eq_of_beq h, rfl⟩⟩
  · exact .refl t

theorem haltThread_stop (t : Thread) : (haltThread t).stop ≠ .running := by
  unfold haltThread
  split
  · exact fun h => nomatch h
  · next h => exact fun e => h (beq_iff_eq.mpr e)

/-- Threads have moved or stopped. -/
structure Halts (s t : State) : Prop where
  rest : t = { s with nextId := t.nextId, threads := t.threads, groups := t.groups, warps := t.warps }
  thread : ∀ k, Option.Rel Halted (getThread s k) (getThread t k)
  entry : ∀ e ∈ t.threads, ∃ x, (e.1, x) ∈ s.threads ∧ Halted x e.2
  warp : ∀ wk, Option.Rel SameButGen (Map.get? s.warps wk) (Map.get? t.warps wk)
  wait : ∀ e ∈ t.groups, ∀ z ∈ e.2.waits, ∃ e0 ∈ s.groups, z ∈ e0.2.waits

namespace Halts

theorem of_stands {s t : State} (h : Stands s t) : Halts s t where
  rest := h.rest
  thread k := rel_mono Halted.of_moved (h.thread k)
  entry e he := by
    obtain ⟨x, hx, hm⟩ := h.entry e he
    exact ⟨x, hx, .of_moved hm⟩
  warp := h.warp
  wait := h.wait

theorem refl (s : State) : Halts s s := of_stands (.refl s)

theorem trans {s t u : State} (h : Halts s t) (k : Halts t u) : Halts s u where
  rest := by rw [k.rest, h.rest]
  thread j := rel_trans (R := Halted) (fun p q => p.trans q) (h.thread j) (k.thread j)
  entry e he := by
    obtain ⟨x, hx, hxe⟩ := k.entry e he
    obtain ⟨y, hy, hyx⟩ := h.entry _ hx
    exact ⟨y, hy, hyx.trans hxe⟩
  warp j := rel_trans (R := SameButGen) (fun p q => p.trans q) (h.warp j) (k.warp j)
  wait e he z hz := by
    obtain ⟨e1, he1, hz1⟩ := k.wait e he z hz
    exact h.wait e1 he1 z hz1

theorem haltThread (s : State) (k : Nat) : Halts s (modThread s k haltThread) where
  rest := rfl
  thread j := rel_adjust Halted.refl s.threads k haltThread_halted j
  entry e he := by
    rcases mem_adjust he with he | ⟨x, hx, rfl⟩
    · exact ⟨e.2, he, .refl _⟩
    · exact ⟨x, hx, haltThread_halted x⟩
  warp _ := rel_refl SameButGen.refl _
  wait e he _ hz := ⟨e, he, hz⟩

theorem foldl {α : Type} {f : State → α → State} (hf : ∀ s x, Halts s (f s x)) (l : List α) (s : State) : Halts s (l.foldl f s) :=
  List.foldlRecOn l f (refl s) (fun _ ht x _ => ht.trans (hf _ x))

theorem stopWhole (s : State) (ks : List Nat) : Halts s (stopWhole s ks) :=
  (of_stands (.splitOff s ks)).trans (foldl haltThread ks _)

theorem get {s t : State} (h : Halts s t) {k : Nat} {x : Thread} (hx : getThread s k = some x) : ∃ y, getThread t k = some y ∧ Halted x y := by
  have hk := h.thread k
  rw [hx] at hk
  cases ht : getThread t k with
  | none => rw [ht] at hk; cases hk
  | some y =>
    rw [ht] at hk
    cases hk with
    | some hxy => exact ⟨y, rfl, hxy⟩

end Halts

/-! ## Marking threads -/

/-- A key that reads nothing has no entry. -/
theorem ne_of_get?_none {α : Type} {m : Map α} {a : Nat} (h : Map.get? m a = none) : ∀ e ∈ m, e.1 ≠ a := by
  induction m with
  | nil => exact fun e he => absurd he List.not_mem_nil
  | cons y m ih =>
    unfold Map.get? at h
    split at h
    · exact nomatch h
    · next hy =>
      intro e he
      rcases List.mem_cons.mp he with rfl | he
      · exact hy
      · exact ih h e he

/-- After a change at a key every entry there is the changed one. -/
theorem mem_adjust_key {α : Type} {m : Map α} {a : Nat} {f : α → α} {e : Nat × α} (h : e ∈ Map.adjust m a f) :
    (e ∈ m ∧ e.1 ≠ a) ∨ ∃ x, (a, x) ∈ m ∧ e = (a, f x) := by
  unfold Map.adjust at h
  cases hx : Map.get? m a with
  | none =>
    rw [hx] at h
    exact .inl ⟨h, ne_of_get?_none hx e h⟩
  | some x =>
    rw [hx] at h
    rcases Map.mem_ins h with rfl | h
    · exact .inr ⟨x, mem_of_get? hx, rfl⟩
    · exact .inl ⟨List.mem_of_mem_filter h, Map.erase_ne e h⟩

/-- Steps that each mark the thread of a key: afterwards each of those keys' threads is marked. -/
theorem foldl_marks {α : Type} {f : State → α → State} {key : α → Nat} {Q : Thread → Prop} {R : Thread → Thread → Prop}
    (hrefl : ∀ x, R x x) (htrans : ∀ {x y z}, R x y → R y z → R x z) (hQ : ∀ {x y}, R x y → Q x → Q y)
    (hf : ∀ s a, ∀ e ∈ (f s a).threads, ∃ x, (e.1, x) ∈ s.threads ∧ R x e.2 ∧ (e.1 = key a → Q e.2)) (l : List α) (s : State) :
    ∀ e ∈ (l.foldl f s).threads, ∃ x, (e.1, x) ∈ s.threads ∧ R x e.2 ∧ (e.1 ∈ l.map key → Q e.2) := by
  induction l generalizing s with
  | nil => exact fun e he => ⟨e.2, he, hrefl _, fun h => absurd h List.not_mem_nil⟩
  | cons a l ih =>
    intro e he
    obtain ⟨y, hy, hye, hm⟩ := ih (f s a) e he
    obtain ⟨x, hx, hxy, ha⟩ := hf s a _ hy
    refine ⟨x, hx, htrans hxy hye, fun h => ?_⟩
    rcases List.mem_cons.mp h with h | h
    · exact hQ hye (ha h)
    · exact hm h

/-- A thread that stood in the listed ones before no longer runs. -/
theorem stopWhole_entry (s : State) (ks : List Nat) : ∀ e ∈ (stopWhole s ks).threads,
    ∃ x, (e.1, x) ∈ s.threads ∧ Halted x e.2 ∧ (e.1 ∈ ks → e.2.stop ≠ .running) := by
  intro e he
  have hstep : ∀ (s : State) (k : Nat), ∀ e ∈ (modThread s k haltThread).threads,
      ∃ x, (e.1, x) ∈ s.threads ∧ Halted x e.2 ∧ (e.1 = id k → e.2.stop ≠ .running) := by
    intro s k e he
    rcases mem_adjust_key he with ⟨he, hne⟩ | ⟨x, hx, rfl⟩
    · exact ⟨e.2, he, .refl _, fun h => absurd h hne⟩
    · exact ⟨x, hx, haltThread_halted x, fun _ => haltThread_stop x⟩
  obtain ⟨y, hy, hye, hm⟩ := foldl_marks (Q := fun t => t.stop ≠ .running) Halted.refl (fun p q => p.trans q)
    (fun h hx => h.not_running hx) hstep ks (splitOff s ks) e he
  obtain ⟨x, hx, hxy⟩ := (Stands.splitOff s ks).entry _ hy
  exact ⟨x, hx, (Halted.of_moved hxy).trans hye, by rwa [List.map_id] at hm⟩

theorem mem_warpThreads {s : State} {wk : Nat} {e : Nat × Thread} : e ∈ warpThreads s wk ↔ e ∈ s.threads ∧ warpKeyOf e.2 = wk := by
  unfold warpThreads
  rw [List.mem_filter, beq_iff_eq]

/-- The keys of a warp's running threads of a kind. -/
def runningOf (s : State) (wk : Nat) (p : Thread → Bool) : List Nat :=
  ((warpThreads s wk).filter (fun e => e.2.stop == .running && p e.2)).map (·.1)

/-- When the running threads of a warp are all of the kind that stops, none of them runs on. -/
theorem stopWhole_none_running {s0 s : State} {wk : Nat} {p : Thread → Bool} (h0 : s.threads = s0.threads)
    (hall : ∀ e ∈ warpThreads s0 wk, e.2.stop = .running → p e.2 = true) (e : Nat × Thread)
    (he : e ∈ (stopWhole s (runningOf s0 wk p)).threads) (hk : warpKeyOf e.2 = wk) : e.2.stop ≠ .running := by
  obtain ⟨x, hx, hxe, hm⟩ := stopWhole_entry s (runningOf s0 wk p) e he
  intro hrun
  rw [h0] at hx
  have hrx : x.stop = .running := by
    by_contra hne
    exact hxe.not_running hne hrun
  have hmem : (e.1, x) ∈ warpThreads s0 wk := mem_warpThreads.mpr ⟨hx, hxe.2.1.symm.trans hk⟩
  refine hm (List.mem_map.mpr ⟨(e.1, x), List.mem_filter.mpr ⟨hmem, ?_⟩, rfl⟩) hrun
  rw [Bool.and_eq_true, beq_iff_eq]
  exact ⟨hrx, hall _ hmem hrx⟩

/-- And none ran when there are none of that kind. -/
theorem none_running_of_nil {s : State} {wk : Nat} {p : Thread → Bool} (h : runningOf s wk p = [])
    (hall : ∀ e ∈ warpThreads s wk, e.2.stop = .running → p e.2 = true) (e : Nat × Thread) (he : e ∈ s.threads)
    (hk : warpKeyOf e.2 = wk) : e.2.stop ≠ .running := by
  intro hrun
  have hmem : e ∈ warpThreads s wk := mem_warpThreads.mpr ⟨he, hk⟩
  have hin : e.1 ∈ runningOf s wk p := List.mem_map.mpr ⟨e, List.mem_filter.mpr ⟨hmem, by
    rw [Bool.and_eq_true, beq_iff_eq]
    exact ⟨hrun, hall e hmem hrun⟩⟩, rfl⟩
  rw [h] at hin
  exact absurd hin List.not_mem_nil

/-! ## The end of a window -/

theorem windowOver_iff {s : State} {w : Warp} : windowOver s w = true ↔ WindowEnded s w := decide_eq_true_iff

/-- The warp's request, whose window is over. -/
def windowPast (s : State) (wk : Nat) (w : Warp) : State :=
  if w.preq == some true then s else modWarp s wk (fun w => { w with preq := some true })

theorem expireWindow_ended {s : State} {wk : Nat} {w : Warp} (hw : Map.get? s.warps wk = some w) (hp : w.preq ≠ none) (hs : w.saved = false)
    (he : WindowEnded s w) : expireWindow s wk =
      if (runningOf s wk (fun _ => true)).isEmpty then windowPast s wk w else stopWhole (windowPast s wk w) (runningOf s wk (fun _ => true)) := by
  unfold expireWindow
  rw [hw]
  dsimp only
  rw [Option.isNone_eq_false_iff.mpr (Option.isSome_iff_ne_none.mpr hp), hs, windowOver_iff.mpr he]
  unfold runningOf windowPast
  simp only [Bool.and_true, Bool.not_true, Bool.or_false, Bool.false_eq_true, if_false]

theorem windowPast_threads (s : State) (wk : Nat) (w : Warp) : (windowPast s wk w).threads = s.threads := by
  unfold windowPast
  split <;> rfl

theorem windowPast_preq {s : State} {wk : Nat} {w : Warp} (hw : Map.get? s.warps wk = some w) :
    ∃ v, Map.get? (windowPast s wk w).warps wk = some v ∧ v.preq = some true := by
  unfold windowPast
  split
  · next h => exact ⟨w, hw, eq_of_beq h⟩
  · refine ⟨{ w with preq := some true }, ?_, rfl⟩
    unfold modWarp
    rw [Map.get?_adjust, if_pos rfl, hw]
    rfl

theorem windowExpiry_stops {s : State} {wk : Nat} {w : Warp} (hw : Map.get? s.warps wk = some w) (hp : w.preq ≠ none) (hs : w.saved = false)
    (he : WindowEnded s w) :
    ∃ t, exec (.preemptWindowExpiry wk) s = .next t
      ∧ (∀ e ∈ t.threads, warpKeyOf e.2 = wk → e.2.stop ≠ .running)
      ∧ (∃ v, Map.get? t.warps wk = some v ∧ v.preq = some true)
      ∧ ∀ k x, getThread s k = some x → ∃ y, getThread t k = some y ∧ (x.stop ≠ .running → y.stop = x.stop)
          ∧ (s.warps.all (fun w => w.2.gen.isNone) = true → sameValues x y) := by
  refine ⟨_, congrArg Host.Outcome.next (expireWindow_ended hw hp hs he), ?_⟩
  obtain ⟨v, hv, hvp⟩ := windowPast_preq hw
  have hget : ∀ k, getThread (windowPast s wk w) k = getThread s k := fun k => by rw [getThread, windowPast_threads, getThread]
  split
  · next hnil =>
    refine ⟨fun e he hk => ?_, ⟨v, hv, hvp⟩, fun k x hx => ⟨x, by rw [hget, hx], fun _ => rfl, fun _ => (Halted.refl x).1⟩⟩
    rw [windowPast_threads] at he
    exact none_running_of_nil (List.isEmpty_iff.mp hnil) (fun _ _ _ => rfl) e he hk
  · have hh := Halts.stopWhole (windowPast s wk w) (runningOf s wk (fun _ => true))
    refine ⟨stopWhole_none_running (windowPast_threads s wk w) (fun _ _ _ => rfl), ?_, fun k x hx => ?_⟩
    · obtain ⟨v', hv', hsame⟩ := getWarp_of_rel (hh.warp wk) hv
      exact ⟨v', hv', by rw [hsame]; exact hvp⟩
    · obtain ⟨y, hy, hxy⟩ := hh.get (by rw [hget, hx])
      exact ⟨y, hy, hxy.stop_eq, fun _ => hxy.1⟩

theorem windowExpiry_other {s : State} {wk : Nat} (h : ∀ w, Map.get? s.warps wk = some w → w.preq = none ∨ w.saved = true ∨ ¬ WindowEnded s w) :
    exec (.preemptWindowExpiry wk) s = .next s := by
  change Host.Outcome.next (expireWindow s wk) = _
  unfold expireWindow
  cases hw : Map.get? s.warps wk with
  | none => rfl
  | some w =>
    dsimp only
    rw [if_pos]
    rcases h w hw with h | h | h
    · rw [h]; rfl
    · rw [h, Bool.or_true, Bool.true_or]
    · rw [Bool.eq_false_iff.mpr (fun e => h (windowOver_iff.mp e)), Bool.not_false, Bool.or_true]

end Sys2Proof.Laws


/-! A warp is saved (R137, R317, R319, R333): what the save leaves of threads, warps and images. -/

namespace Sys2Proof.Laws

open Sys2Proof.Machine Sys2Proof.Claims Sys2Proof.Safety

/-! ## What the save looks at -/

theorem slotsLocked_of_noMigration {s : State} (h : NoMigration s) (a n : Nat) : slotsLocked s a n = false := by
  have hlock : ∀ a, lockOf s a = none := by
    intro a
    unfold lockOf
    rw [Option.map_eq_none_iff, List.find?_eq_none]
    intro e he
    have hidle := List.all_eq_true.mp h e he
    simp only [Bool.and_eq_true, bne_iff_ne, ne_eq] at hidle
    obtain ⟨⟨hc, hr⟩, -⟩ := hidle
    simp only [Part.locks, Bool.and_eq_true, Bool.or_eq_true, beq_iff_eq]
    exact fun hx => hx.1.elim hc hr
  unfold slotsLocked
  rw [List.any_eq_false]
  intro i _
  rw [hlock]
  exact Bool.false_ne_true

theorem Halts.threadKeys {s t : State} (h : Halts s t) {wk k : Nat} (hk : k ∈ (warpThreads t wk).map (·.1)) :
    k ∈ (warpThreads s wk).map (·.1) := by
  obtain ⟨e, he, rfl⟩ := List.mem_map.mp hk
  obtain ⟨het, hew⟩ := mem_warpThreads.mp he
  obtain ⟨x, hx, hxe⟩ := h.entry e het
  exact List.mem_map.mpr ⟨(e.1, x), mem_warpThreads.mpr ⟨hx, hxe.2.1.symm.trans hew⟩, rfl⟩

theorem Halts.parts {s t : State} (h : Halts s t) : t.parts = s.parts := by rw [h.rest]
theorem Halts.partOf {s t : State} (h : Halts s t) (p : Nat) : partOf t p = partOf s p := by rw [h.rest]; rfl
theorem Halts.fresh {s t : State} (h : Halts s t) : t.fresh = s.fresh := by rw [h.rest]
theorem Halts.cgPart {s t : State} (h : Halts s t) (c : Nat) : cgPart t c = cgPart s c := by rw [h.rest]; rfl
theorem Halts.rangeSilent {s t : State} (h : Halts s t) (c : Option Nat) (a n : Nat) (w : Bool) :
    rangeSilent t c a n w = rangeSilent s c a n w := by rw [h.rest]; rfl

theorem Halts.warpHeld {s t : State} (h : Halts s t) {wk : Nat} (hw : warpHeld s wk = false) : warpHeld t wk = false := by
  unfold Machine.warpHeld at hw ⊢
  dsimp only at hw ⊢
  rw [h.parts, List.any_eq_false]
  rw [List.any_eq_false] at hw
  intro e he hany
  obtain ⟨z, hz, hzk⟩ := List.any_eq_true.mp hany
  refine hw e he (List.any_eq_true.mpr ⟨z, hz, ?_⟩)
  rw [List.contains_iff_mem] at hzk ⊢
  exact h.threadKeys hzk

/-! ## Stopping where they stand -/

/-- The threads that stop where they stand (R317). -/
def standing (s : State) (t : Thread) : Bool := notRunnable s t || t.hand != .none

theorem stopStanding_eq (s : State) (wk : Nat) :
    stopStanding s wk = if (runningOf s wk (standing s)).isEmpty then s else stopWhole s (runningOf s wk (standing s)) := rfl

theorem Halts.stopStanding (s : State) (wk : Nat) : Halts s (stopStanding s wk) := by
  rw [stopStanding_eq]
  split
  · exact refl s
  · exact stopWhole s _

theorem standing_of_maySave {s : State} {t : Thread} (h : maySave s t = true) (hr : t.stop = .running) : standing s t = true := by
  unfold maySave at h
  rw [hr, Bool.or_assoc, Bool.or_eq_true] at h
  rcases h with h | h
  · exact nomatch h
  · exact h

/-- Once every thread of a warp may be saved, none of them runs on. -/
theorem stopStanding_none_running {s : State} {wk : Nat} (h : (warpThreads s wk).all (fun e => maySave s e.2) = true) :
    (warpThreads (stopStanding s wk) wk).any (fun e => e.2.stop == .running) = false := by
  have hall : ∀ e ∈ warpThreads s wk, e.2.stop = .running → standing s e.2 = true :=
    fun e he hr => standing_of_maySave (List.all_eq_true.mp h e he) hr
  rw [List.any_eq_false]
  intro e he hrun
  obtain ⟨het, hew⟩ := mem_warpThreads.mp he
  rw [stopStanding_eq] at het
  split at het
  · next hnil => exact none_running_of_nil (List.isEmpty_iff.mp hnil) hall e het hew (eq_of_beq hrun)
  · exact stopWhole_none_running rfl hall e het hew (eq_of_beq hrun)

theorem stopStanding_of_stopped {s : State} {wk : Nat} (h : (warpThreads s wk).all (fun e => e.2.stop != .running) = true) :
    stopStanding s wk = s := by
  have hnil : runningOf s wk (standing s) = [] := by
    unfold runningOf
    rw [List.map_eq_nil_iff, List.filter_eq_nil_iff]
    intro e he hx
    rw [Bool.and_eq_true] at hx
    have hs := List.all_eq_true.mp h e he
    rw [bne, hx.1] at hs
    exact nomatch hs
  rw [stopStanding_eq, hnil]
  rfl

/-! ## The save -/

theorem execWarpSave_eq {s : State} {wk : Nat} {w : Warp} (hw : Map.get? s.warps wk = some w) (hp : w.preq ≠ none) (hs : w.saved = false)
    (hne : warpThreads s wk ≠ []) (hrun : (warpThreads (stopStanding s wk) wk).any (fun e => e.2.stop == .running) = false) :
    exec (.warpSave wk) s = .next (saveWarp (stopStanding s wk) wk w) := by
  refine congrArg Host.Outcome.next ?_
  rw [hw]
  dsimp only
  rw [hs, Option.isNone_eq_false_iff.mpr (Option.isSome_iff_ne_none.mpr hp), List.isEmpty_eq_false_iff.mpr hne, hrun]
  rfl

theorem none_running_of_stopped {s : State} {wk : Nat} (h : (warpThreads s wk).all (fun e => e.2.stop != .running) = true) :
    (warpThreads s wk).any (fun e => e.2.stop == .running) = false := by
  rw [List.any_eq_false]
  intro e he hx
  have := List.all_eq_true.mp h e he
  rw [bne, hx] at this
  exact nomatch this

theorem pickSlot_free {s u : State} {q : Part} {n i : Nat} (h : pickSlot s q n = some (i, u)) :
    slotsFree q i n = true ∧ u = { s with fresh := s.fresh + 1 } := by
  unfold pickSlot at h
  dsimp only at h
  split at h
  · exact nomatch h
  · next hne =>
    cases h
    refine ⟨?_, rfl⟩
    have hpos : 0 < ((List.range q.saveSlots.toNat).filter (fun i => slotsFree q i n)).length := by
      rw [List.length_pos_iff]
      exact fun e => hne (List.isEmpty_iff.mpr e)
    have hlt := Nat.mod_lt (Config.freeWord s.fresh).toNat hpos
    have hmem := List.getElem_mem hlt
    dsimp only [drawWord]
    rw [List.getD_eq_getElem _ _ hlt]
    exact (List.mem_filter.mp hmem).2

theorem pickSlot_some {s : State} {q : Part} {n i : Nat} (hn : 0 < n) (h : slotsFree q i n = true) : ∃ j u, pickSlot s q n = some (j, u) := by
  have hi : i ∈ (List.range q.saveSlots.toNat).filter (fun i => slotsFree q i n) := by
    refine List.mem_filter.mpr ⟨List.mem_range.mpr ?_, h⟩
    unfold slotsFree at h
    rw [Bool.and_eq_true, decide_eq_true_iff] at h
    omega
  unfold pickSlot
  dsimp only
  rw [List.isEmpty_eq_false_iff.mpr (List.ne_nil_of_mem hi)]
  exact ⟨_, _, rfl⟩

/-! ### The records -/

theorem readVas_accessOnly (w : Who) (l : List DWord) (s : State) : AccessOnly s (readVas w l s).2 := by
  induction l generalizing s with
  | nil => exact .refl s
  | cons va r ih =>
    unfold readVas
    have hr := reach_accessOnly s w va .read
    split
    · next e => exact (hr _ _).of_eq e
    · next loc u e =>
      have hread := ((hr _ _).of_eq e).trans (readLoc_accessOnly u loc 8)
      dsimp only
      split
      · next e2 => exact (hread.trans (ih _)).of_eq e2
      · next e2 => exact (hread.trans (ih _)).of_eq e2

theorem liveRecord_accessOnly (s : State) (t : Thread) (rofs : Word) : AccessOnly s (liveRecord s t rofs).2 := by
  unfold liveRecord
  split
  · exact .refl s
  · split
    · exact .refl s
    · have hr := readVas_accessOnly
      split
      · next e => exact (hr _ _ s).of_eq e
      · next e => exact (hr _ _ s).of_eq e

theorem warpRecords_accessOnly (l : List (Nat × Thread)) (s : State) : AccessOnly s (warpRecords l s).2 := by
  induction l generalizing s with
  | nil => exact .refl s
  | cons e l ih =>
    unfold warpRecords
    split
    · next rofs _ =>
      have hr := liveRecord_accessOnly s e.2 rofs
      split
      · next x u e1 =>
        have hu := hr.of_eq e1
        split
        · next e2 => exact (hu.trans (ih u)).of_eq e2
        · exact hu.trans (ih u)
      · next e1 => exact hr.of_eq e1
      · next e1 => exact hr.of_eq e1
    · exact ih s

theorem warpRecords_of_whole {l : List (Nat × Thread)} (h : ∀ e ∈ l, ∀ r, e.2.stop ≠ .byRecord r) (s : State) : warpRecords l s = (.ok [], s) := by
  induction l with
  | nil => rfl
  | cons e l ih =>
    unfold warpRecords
    split
    · next rofs hr => exact absurd hr (h e List.mem_cons_self rofs)
    · exact ih (fun x hx => h x (List.mem_cons_of_mem _ hx))

theorem saveThreads_of_whole {l : List (Nat × Thread)} (h : ∀ e ∈ l, ∀ r, e.2.stop ≠ .byRecord r) (s : State) : (saveThreads l s).2 = s := by
  unfold saveThreads
  rw [warpRecords_of_whole h]
  rfl

theorem Resides.of_access {s t : State} (h : AccessOnly s t) : Resides s t := by
  refine of_same ?_ ?_ ?_ <;> rw [h]

theorem setReg_sameRun (t : Thread) (r : Nat) (v : Reg) : SameRun t (setReg t r v) := by
  unfold setReg
  dsimp only
  have hgood : SameRun t (if t.bad.isEmpty then t else { t with bad := t.bad.filter (fun i => i != storageOf t r) }) := by
    split
    · exact .refl t
    · exact .of_place rfl rfl rfl rfl rfl
  revert hgood
  generalize (if t.bad.isEmpty then t else { t with bad := t.bad.filter (fun i => i != storageOf t r) }) = u
  intro hgood
  split
  · split <;> exact hgood.trans (.of_place rfl rfl rfl rfl rfl)
  · exact hgood.trans (.of_place rfl rfl rfl rfl rfl)

theorem forget_sameRun (map : Nat) (reg : Option Region) (t : Thread) (f : Nat) : SameRun t (forget map reg t f) := by
  unfold forget
  refine List.foldlRecOn _ _ (SameRun.refl t) (fun u hu r _ => ?_)
  dsimp only
  split
  · exact hu
  · split
    · split
      · exact hu.trans (.of_place rfl rfl rfl rfl rfl)
      · exact hu.trans (.of_place rfl rfl rfl rfl rfl)
    · exact hu.trans (.of_place rfl rfl rfl rfl rfl)

theorem Resides.forgetBy (s : State) (k map : Nat) : Resides s (forgetBy s k map) := by
  unfold Machine.forgetBy
  split
  · exact refl s
  · exact (modThread s k (fun t => forget_sameRun map _ t _)).trans (of_same rfl rfl rfl)

theorem Resides.saveThreads (l : List (Nat × Thread)) (s : State) : Resides s (saveThreads l s).2 := by
  have hr := warpRecords_accessOnly l s
  unfold Machine.saveThreads
  split
  · next e => exact of_access (hr.of_eq e)
  · next e => exact of_access (hr.of_eq e)
  · next e => exact (of_access (hr.of_eq e)).trans (foldl (fun s (x : Nat × Nat × List (Nat × Nat)) => forgetBy s x.1 x.2.1) _ _)

/-! ### The image -/

/-- Threads, groups, warps and partitions as they were. -/
structure SameSeats (s t : State) : Prop where
  threads : t.threads = s.threads
  groups : t.groups = s.groups
  warps : t.warps = s.warps
  parts : t.parts = s.parts

namespace SameSeats

theorem refl (s : State) : SameSeats s s := ⟨rfl, rfl, rfl, rfl⟩

theorem trans {s t u : State} (h : SameSeats s t) (k : SameSeats t u) : SameSeats s u :=
  ⟨k.threads.trans h.threads, k.groups.trans h.groups, k.warps.trans h.warps, k.parts.trans h.parts⟩

theorem partOf {s t : State} (h : SameSeats s t) (p : Nat) : partOf t p = partOf s p := by
  unfold Machine.partOf
  rw [h.parts]

theorem leaveSide (s : State) (w : Warp) : SameSeats s (leaveSide s w) := by
  unfold Machine.leaveSide
  split
  · exact ⟨rfl, rfl, rfl, rfl⟩
  · exact refl s

theorem modCore (s : State) (ck : Nat) (f : CoreGroup → CoreGroup) : SameSeats s (modCore s ck f) := ⟨rfl, rfl, rfl, rfl⟩

theorem saveCore (s : State) (ck : Nat) : SameSeats s (saveCore s ck) := by
  unfold Machine.saveCore
  dsimp only
  split
  · exact refl s
  · split
    · exact modCore s ck _
    · exact ⟨rfl, rfl, rfl, rfl⟩

theorem fillImage (s : State) (a n : Nat) : SameSeats s (fillImage s a n) := ⟨rfl, rfl, rfl, rfl⟩

end SameSeats

/-- The fragment entries and side records of a warp are saved (R306, R313). -/
def entriesSaved (s : State) (wk : Nat) (w : Warp) : State :=
  leaveSide ((warpEntries s wk).foldl (fun s fk => modFrag s fk (fun x => { x with saved := true })) s) w

/-- The warp itself, its core group and its image. -/
def imaged (s : State) (wk : Nat) (w : Warp) (p i n : Nat) (ranges : Option (List (Nat × Nat))) : State :=
  let u := modWarp (entriesSaved s wk w) wk (fun w => { w with saved := true, preq := none, ranges := ranges })
  let v := saveCore u (w.cgu * 8 + w.k)
  setPart (fillImage v ((partOf v p).saveBase.toNat + saveSlotBytes * i) (saveSlotBytes * n)) p (fun q => { q with images := q.images ++ [⟨i, n, wk⟩] })

theorem sealWarp_eq (s : State) (wk : Nat) (w : Warp) (p i n : Nat) (rs : Option (List (Nat × Nat))) :
    sealWarp s wk w p i n rs = endSaves (imaged s wk w p i n rs) wk (BitVec.ofNat 32 i) := rfl

@[simp] theorem modFrag_groups (s : State) (fk : Nat) (f : FEntry → FEntry) : (modFrag s fk f).groups = s.groups :=
  (modFrag_rest s fk f).groups

theorem entriesSaved_threads (s : State) (wk : Nat) (w : Warp) :
    (entriesSaved s wk w).threads = s.threads ∧ (entriesSaved s wk w).groups = s.groups := by
  have hfold : ∀ l : List Nat, ∀ s : State,
      (l.foldl (fun s fk => modFrag s fk (fun x => { x with saved := true })) s).threads = s.threads
      ∧ (l.foldl (fun s fk => modFrag s fk (fun x => { x with saved := true })) s).groups = s.groups := by
    intro l
    induction l with
    | nil => exact fun s => ⟨rfl, rfl⟩
    | cons a l ih =>
      intro s
      obtain ⟨h1, h2⟩ := ih (modFrag s a (fun x => { x with saved := true }))
      exact ⟨h1.trans (modFrag_threads ..), h2.trans (modFrag_groups ..)⟩
  obtain ⟨h1, h2⟩ := hfold (warpEntries s wk) s
  have hl := SameSeats.leaveSide ((warpEntries s wk).foldl (fun s fk => modFrag s fk (fun x => { x with saved := true })) s) w
  exact ⟨hl.threads.trans h1, hl.groups.trans h2⟩

theorem Resides.of_seats {s t : State} (h : SameSeats s t) : Resides s t := of_same h.threads h.warps h.parts

theorem Resides.entriesSaved (s : State) (wk : Nat) (w : Warp) : Resides s (entriesSaved s wk w) :=
  (foldl (fun s fk => modFrag s fk _) _ s).trans (of_seats (.leaveSide _ w))

theorem imaged_threads (s : State) (wk : Nat) (w : Warp) (p i n : Nat) (rs : Option (List (Nat × Nat))) :
    (imaged s wk w p i n rs).threads = s.threads ∧ (imaged s wk w p i n rs).groups = s.groups := by
  obtain ⟨h1, h2⟩ := entriesSaved_threads s wk w
  have hc := SameSeats.saveCore (modWarp (entriesSaved s wk w) wk (fun w => { w with saved := true, preq := none, ranges := rs })) (w.cgu * 8 + w.k)
  exact ⟨hc.threads.trans h1, hc.groups.trans h2⟩

theorem imaged_warp {s : State} {wk : Nat} {w w0 : Warp} (hw : Map.get? s.warps wk = some w0) (p i n : Nat) (rs : Option (List (Nat × Nat))) :
    ∃ v, Map.get? (imaged s wk w p i n rs).warps wk = some v ∧ v.saved = true ∧ v.preq = none := by
  obtain ⟨v, hv, -⟩ := getWarp_of_rel ((Resides.entriesSaved s wk w).warp wk) hw
  have hc := SameSeats.saveCore (modWarp (entriesSaved s wk w) wk (fun w => { w with saved := true, preq := none, ranges := rs })) (w.cgu * 8 + w.k)
  refine ⟨{ v with saved := true, preq := none, ranges := rs }, ?_, rfl, rfl⟩
  change Map.get? (saveCore _ _).warps wk = _
  rw [hc.warps]
  change Map.get? (Map.adjust (entriesSaved s wk w).warps wk _) wk = _
  rw [Map.get?_adjust, if_pos rfl, hv]
  rfl

theorem imaged_images (s : State) (wk : Nat) (w : Warp) (p i n : Nat) (rs : Option (List (Nat × Nat))) :
    (partOf (imaged s wk w p i n rs) p).images = (partOf s p).images ++ [⟨i, n, wk⟩] := by
  have hc := SameSeats.saveCore (modWarp (entriesSaved s wk w) wk (fun w => { w with saved := true, preq := none, ranges := rs })) (w.cgu * 8 + w.k)
  unfold imaged
  dsimp only
  rw [partOf_setPart, if_pos rfl, (hc.trans (.fillImage _ _ _)).partOf]
  change (partOf (entriesSaved s wk w) p).images ++ _ = _
  rw [(Resides.entriesSaved s wk w).images p]

/-! ### The waits of SAVE -/

/-- A wait of SAVE on a warp (R333). -/
def waitsSave (wk : Nat) (w : Nat × Wait) : Bool := match w.2 with
  | .save x _ => x == wk
  | _ => false

/-- The end of such a wait: the register takes the value. -/
def saveAnswer (v : Word) (s : State) (w : Nat × Wait) : State := match w.2 with
  | .save _ d => modThread s w.1 (fun t => tSet t d v)
  | _ => s

/-- The end of those waits of one group. -/
def endGroupSaves (wk : Nat) (v : Word) (s : State) (e : Nat × Group) : State :=
  if (e.2.waits.filter (waitsSave wk)).isEmpty then s
  else settleGroup (modGroup ((e.2.waits.filter (waitsSave wk)).foldl (saveAnswer v) s) e.1
    (fun g => { g with waits := g.waits.filter (fun w => !waitsSave wk w) })) e.1

theorem endSaves_eq (s : State) (wk : Nat) (v : Word) : endSaves s wk v = s.groups.foldl (endGroupSaves wk v) s := rfl

theorem endSaves_of_none {s : State} {wk : Nat} (h : ∀ e ∈ s.groups, ∀ z ∈ e.2.waits, ∀ d, z.2 ≠ .save wk d) (v : Word) :
    endSaves s wk v = s := by
  rw [endSaves_eq]
  refine List.foldlRecOn (motive := fun t => t = s) _ _ rfl (fun t ht e he => ?_)
  rw [ht]
  unfold endGroupSaves
  rw [if_pos]
  rw [List.isEmpty_iff, List.filter_eq_nil_iff]
  intro z hz hx
  unfold waitsSave at hx
  split at hx
  · next x d hzd => exact h e he z hz d (by rw [hzd, eq_of_beq hx])
  · exact nomatch hx

theorem Resides.saveAnswer (v : Word) (s : State) (w : Nat × Wait) : Resides s (saveAnswer v s w) := by
  unfold Laws.saveAnswer
  split
  · exact modThread s _ (fun t => setReg_sameRun t _ _)
  · exact refl s

theorem Resides.modGroup (s : State) (gid : Nat) (f : Group → Group) : Resides s (modGroup s gid f) := of_same rfl rfl rfl

theorem Resides.endSaves (s : State) (wk : Nat) (v : Word) : Resides s (endSaves s wk v) := by
  rw [endSaves_eq]
  refine foldl (fun s e => ?_) _ s
  unfold endGroupSaves
  split
  · exact refl s
  · exact .trans (.trans (foldl (saveAnswer v) _ s) (modGroup _ e.1 _)) (of_stands (.settleGroup _ _))

/-- Threads that are there still are. -/
def Outlives (s t : State) : Prop := ∀ k x, getThread s k = some x → ∃ y, getThread t k = some y

namespace Outlives

theorem refl (s : State) : Outlives s s := fun _ x h => ⟨x, h⟩

theorem trans {s t u : State} (h : Outlives s t) (g : Outlives t u) : Outlives s u := fun k x hx =>
  let ⟨y, hy⟩ := h k x hx
  g k y hy

theorem foldl {α : Type} {f : State → α → State} (hf : ∀ s x, Outlives s (f s x)) (l : List α) (s : State) : Outlives s (l.foldl f s) :=
  List.foldlRecOn l f (refl s) (fun _ ht x _ => ht.trans (hf _ x))

theorem of_stands {s t : State} (h : Stands s t) : Outlives s t := fun _ _ hx =>
  let ⟨y, hy, _⟩ := h.get hx
  ⟨y, hy⟩

theorem modThread (s : State) (j : Nat) (f : Thread → Thread) : Outlives s (modThread s j f) := by
  intro k x hx
  unfold getThread Machine.modThread at *
  rw [Map.get?_adjust]
  split
  · next e =>
    subst e
    exact ⟨f x, by rw [hx]; rfl⟩
  · exact ⟨x, hx⟩

theorem modGroup (s : State) (gid : Nat) (f : Group → Group) : Outlives s (modGroup s gid f) := fun _ x h => ⟨x, h⟩

theorem saveAnswer (v : Word) (s : State) (w : Nat × Wait) : Outlives s (saveAnswer v s w) := by
  unfold Laws.saveAnswer
  split
  · exact modThread s _ _
  · exact refl s

theorem endSaves (s : State) (wk : Nat) (v : Word) : Outlives s (endSaves s wk v) := by
  rw [endSaves_eq]
  refine foldl (fun s e => ?_) _ s
  unfold endGroupSaves
  split
  · exact refl s
  · exact .trans (.trans (foldl (saveAnswer v) _ s) (modGroup _ e.1 _)) (of_stands (.settleGroup _ _))

end Outlives

/-! ### The whole save -/

theorem saveWarp_eq {s u v : State} {wk i : Nat} {w : Warp} {rs : Option (List (Nat × Nat))} (hnm : NoMigration s) (hheld : warpHeld s wk = false)
    (hsil : ∀ a n, rangeSilent s none a n true = none)
    (hpick : pickSlot s (partOf s (cgPart s w.cgu)) (1 + (Config.extraSlots s.fresh).toNat) = some (i, u))
    (hsave : saveThreads (warpThreads u wk) u = (.ok rs, v)) :
    saveWarp s wk w = sealWarp v wk w (cgPart s w.cgu) i (1 + (Config.extraSlots s.fresh).toNat) rs := by
  unfold saveWarp
  dsimp only
  rw [hpick]
  dsimp only
  rw [slotsLocked_of_noMigration hnm, hheld, hsil, hsave]
  rfl

theorem warpSave_saves {s : State} {wk i : Nat} {w : Warp} (hw : Map.get? s.warps wk = some w) (hp : w.preq ≠ none) (hs : w.saved = false)
    (hne : warpThreads s wk ≠ []) (hmay : (warpThreads s wk).all (fun e => maySave s e.2) = true)
    (hnm : NoMigration s) (hheld : warpHeld s wk = false) (hsil : ∀ a n, rangeSilent s none a n true = none)
    (hok : ∀ i u, pickSlot (stopStanding s wk) (partOf (stopStanding s wk) (cgPart s w.cgu)) (1 + (Config.extraSlots s.fresh).toNat) = some (i, u) →
      ∃ rs v, saveThreads (warpThreads u wk) u = (.ok rs, v))
    (hfree : slotsFree (partOf s (cgPart s w.cgu)) i (1 + (Config.extraSlots s.fresh).toNat) = true) :
    ∃ t v m, exec (.warpSave wk) s = .next t ∧ Map.get? t.warps wk = some v ∧ v.saved = true ∧ v.preq = none
      ∧ (partOf t (cgPart s w.cgu)).images = (partOf s (cgPart s w.cgu)).images ++ [m] ∧ m.warp = wk
      ∧ slotsFree (partOf s (cgPart s w.cgu)) m.first m.count = true
      ∧ ((∀ e ∈ warpThreads s wk, ∀ r, e.2.stop ≠ .byRecord r) → ∀ k x, getThread s k = some x → ∃ y, getThread t k = some y ∧
          ((∀ e ∈ s.groups, ∀ z ∈ e.2.waits, ∀ d, z.2 ≠ .save wk d) → sameValues x y)) := by
  have hh := Halts.stopStanding s wk
  have hfresh := hh.fresh
  have hpart := hh.partOf (cgPart s w.cgu)
  have hcg := hh.cgPart w.cgu
  obtain ⟨j, u, hpick⟩ := pickSlot_some (s := stopStanding s wk) (by omega) hfree
  rw [← hpart] at hpick
  obtain ⟨rs, v, hsave⟩ := hok j u hpick
  obtain ⟨hjfree, hu⟩ := pickSlot_free hpick
  have hseal := saveWarp_eq (s := stopStanding s wk) (wk := wk) (w := w) (by unfold NoMigration; rw [hh.parts]; exact hnm)
    (hh.warpHeld hheld) (fun a n => by rw [hh.rangeSilent]; exact hsil a n) (by rw [hcg, hfresh]; exact hpick) hsave
  rw [hcg, hfresh, sealWarp_eq] at hseal
  have hv : Resides (stopStanding s wk) v := by
    have hsaved := Resides.saveThreads (warpThreads u wk) u
    rw [hsave] at hsaved
    have hpicked : Resides (stopStanding s wk) u := by
      rw [hu]
      exact .of_same rfl rfl rfl
    exact hpicked.trans hsaved
  obtain ⟨w1, hw1, -⟩ := getWarp_of_rel (hh.warp wk) hw
  obtain ⟨w2, hw2, -⟩ := getWarp_of_rel (hv.warp wk) hw1
  obtain ⟨w3, hw3, hsaved3, hpreq3⟩ := imaged_warp (w := w) hw2 (cgPart s w.cgu) j (1 + (Config.extraSlots s.fresh).toNat) rs
  have hend := Resides.endSaves (imaged v wk w (cgPart s w.cgu) j (1 + (Config.extraSlots s.fresh).toNat) rs) wk (BitVec.ofNat 32 j)
  obtain ⟨w4, hw4, hs4, hp4, -⟩ := getWarp_of_rel (hend.warp wk) hw3
  refine ⟨_, w4, ⟨j, 1 + (Config.extraSlots s.fresh).toNat, wk⟩,
    (execWarpSave_eq hw hp hs hne (stopStanding_none_running hmay)).trans (congrArg _ hseal), hw4, hs4.trans hsaved3, hp4.trans hpreq3,
    ?_, rfl, by rw [← hpart]; exact hjfree, fun hwhole k x hx => ?_⟩
  · rw [hend.images, imaged_images, hv.images, hpart]
  · have hvs : v = u := by
      have hsame := saveThreads_of_whole (l := warpThreads u wk) (fun e he r hr => ?_) u
      · rwa [hsave] at hsame
      · obtain ⟨het, hew⟩ := mem_warpThreads.mp he
        rw [hu] at het
        obtain ⟨y, hy, -, hky, hstop⟩ := hh.entry e het
        rcases hstop with hstop | ⟨-, hstop⟩
        · exact hwhole _ (mem_warpThreads.mpr ⟨hy, hky.symm.trans hew⟩) r (hstop.symm.trans hr)
        · rw [hstop] at hr
          exact nomatch hr
    obtain ⟨y, hy, hxy⟩ := hh.get hx
    obtain ⟨him, hig⟩ := imaged_threads v wk w (cgPart s w.cgu) j (1 + (Config.extraSlots s.fresh).toNat) rs
    have hyi : getThread (imaged v wk w (cgPart s w.cgu) j (1 + (Config.extraSlots s.fresh).toNat) rs) k = some y := by
      rw [getThread, him, hvs, hu]
      exact hy
    obtain ⟨z, hz⟩ := Outlives.endSaves _ wk (BitVec.ofNat 32 j) k y hyi
    refine ⟨z, hz, fun hnone => ?_⟩
    rw [endSaves_of_none (fun e he a ha d had => ?_), hyi] at hz
    · cases hz
      exact hxy.1
    · rw [hig, hvs, hu] at he
      obtain ⟨e0, he0, ha0⟩ := hh.wait e he a ha
      exact hnone e0 he0 a ha0 d had

theorem warpSave_waits {s u : State} {wk i d : Nat} {w : Warp} (hw : Map.get? s.warps wk = some w) (hp : w.preq ≠ none) (hs : w.saved = false)
    (hne : warpThreads s wk ≠ []) (hall : (warpThreads s wk).all (fun e => e.2.stop != .running) = true) (hnm : NoMigration s)
    (hheld : warpHeld s wk = false)
    (hpick : pickSlot s (partOf s (cgPart s w.cgu)) (1 + (Config.extraSlots s.fresh).toNat) = some (i, u))
    (hsil : rangeSilent s none ((partOf s (cgPart s w.cgu)).saveBase.toNat + 2 ^ 17 * i) (2 ^ 17 * (1 + (Config.extraSlots s.fresh).toNat)) true
      = some d) : exec (.warpSave wk) s = .next (wakeDie s d) := by
  have hstop := stopStanding_of_stopped hall
  have hrun := none_running_of_stopped hall
  rw [execWarpSave_eq hw hp hs hne (by rw [hstop]; exact hrun), hstop]
  refine congrArg Host.Outcome.next ?_
  have hsil' : rangeSilent s none ((partOf s (cgPart s w.cgu)).saveBase.toNat + saveSlotBytes * i)
      (saveSlotBytes * (1 + (Config.extraSlots s.fresh).toNat)) true = some d := hsil
  unfold saveWarp
  dsimp only
  rw [hpick]
  dsimp only
  rw [slotsLocked_of_noMigration hnm, hheld, hsil']
  rfl

theorem warpSave_held {s : State} {wk : Nat} (hheld : warpHeld s wk = true)
    (h : ∀ w, Map.get? s.warps wk = some w → w.preq ≠ none ∧ w.saved = false) (hne : warpThreads s wk ≠ [])
    (hall : (warpThreads s wk).all (fun e => e.2.stop != .running) = true) : exec (.warpSave wk) s = .next s := by
  have hstop := stopStanding_of_stopped hall
  cases hw : Map.get? s.warps wk with
  | none => exact congrArg Host.Outcome.next (by rw [hw])
  | some w =>
    obtain ⟨hp, hs⟩ := h w hw
    rw [execWarpSave_eq hw hp hs hne (by rw [hstop]; exact none_running_of_stopped hall), hstop]
    refine congrArg Host.Outcome.next ?_
    unfold saveWarp
    dsimp only
    cases pickSlot s (partOf s (cgPart s w.cgu)) (1 + (Config.extraSlots s.fresh).toNat) with
    | none => rfl
    | some x =>
      dsimp only
      rw [hheld, Bool.or_true]
      rfl

end Sys2Proof.Laws


/-! A warp is restored, or waits for its place (R45, R286, R320). -/

namespace Sys2Proof.Laws

open Sys2Proof.Machine Sys2Proof.Claims Sys2Proof.Safety

/-! ## A place -/

theorem placeWarp_resident {s : State} {p wk : Nat} {w : Warp} {c : CoreGroup} {r : LRec} {q : QuadGroup}
    (hc : Map.get? s.coreGroups (w.cgu * 8 + w.k) = some c) (hr : recOf s w.cgu = some r) (hs : c.saved = false)
    (hq : Map.get? s.quadGroups ((w.cgu * 8 + w.k) * 4 + w.j) = some q) :
    placeWarp s p wk w = if keptRoom s p (some wk) c.core q.quad then none
      else (slotFor s c.core q.quad w.slot r.alloc).map (fun n => modWarp s wk (fun w => { w with slot := n })) := by
  unfold placeWarp
  dsimp only
  rw [hc, hr, hq]
  dsimp only
  rw [hs, Bool.not_false, if_pos rfl]
  split <;> rfl

/-- The time is as it was, and no warp is gone. -/
structure Places (s t : State) : Prop where
  clock : t.clock = s.clock
  warp : ∀ k v, Map.get? s.warps k = some v → ∃ v', Map.get? t.warps k = some v'

namespace Places

theorem of_warps {s t : State} (hc : t.clock = s.clock) (hw : t.warps = s.warps) : Places s t := ⟨hc, fun _ v h => ⟨v, hw ▸ h⟩⟩

theorem refl (s : State) : Places s s := of_warps rfl rfl

theorem trans {s t u : State} (h : Places s t) (k : Places t u) : Places s u where
  clock := k.clock.trans h.clock
  warp j v hv :=
    let ⟨v1, h1⟩ := h.warp j v hv
    k.warp j v1 h1

theorem foldl {α : Type} {f : State → α → State} (hf : ∀ s x, Places s (f s x)) (l : List α) (s : State) : Places s (l.foldl f s) :=
  List.foldlRecOn l f (refl s) (fun _ ht x _ => ht.trans (hf _ x))

theorem modWarp (s : State) (k : Nat) (f : Warp → Warp) : Places s (modWarp s k f) where
  clock := rfl
  warp j v hv := by
    unfold Machine.modWarp
    rw [Map.get?_adjust]
    split
    · next e =>
      subst e
      exact ⟨f v, by rw [hv]; rfl⟩
    · exact ⟨v, hv⟩

theorem modCore (s : State) (ck : Nat) (f : CoreGroup → CoreGroup) : Places s (modCore s ck f) := of_warps rfl rfl

theorem setQuadGroups (s : State) (m : Map QuadGroup) : Places s { s with quadGroups := m } := of_warps rfl rfl

theorem setClusterGroups (s : State) (m : Map ClusterGroup) : Places s { s with clusterGroups := m } := of_warps rfl rfl

theorem setIsland (s : State) (c : Nat) (f : Island → Island) : Places s (setIsland s c f) := of_warps rfl rfl

theorem placeQuads (s : State) (ck core : Nat) (qs : List Nat) : Places s (placeQuads s ck core qs) := by
  unfold Machine.placeQuads
  refine foldl (fun s j => ?_) _ s
  exact (setQuadGroups s _).trans (foldl (fun s i => modWarp s _ _) _ _)

theorem moveGroup (s : State) (p cgu : Nat) (pl : List (Nat × Nat × List Nat)) : Places s (moveGroup s p cgu pl) := by
  unfold Machine.moveGroup
  dsimp only
  refine .trans (.trans (foldl (fun s e => ?_) pl s) (setClusterGroups _ _)) (foldl (fun s c => setIsland s c _) _ _)
  exact (modCore s e.1 _).trans (placeQuads _ _ _ _)

/-- A slot found is taken. -/
theorem slot {s u : State} {o : Option Nat} {wk : Nat} (h : o.map (fun i => Machine.modWarp s wk (fun w => { w with slot := i })) = some u) :
    Places s u := by
  obtain ⟨i, -, rfl⟩ := Option.map_eq_some_iff.mp h
  exact modWarp s wk _

theorem placeWarp {s u : State} {p wk : Nat} {w : Warp} (h : placeWarp s p wk w = some u) : Places s u := by
  unfold Machine.placeWarp at h
  dsimp only at h
  split at h
  · next c r hc hr =>
    split at h
    · exact slot h
    · split at h
      · split at h
        · exact nomatch h
        · split at h
          · next hslot =>
            cases h
            exact (slot hslot).trans (modCore _ _ _)
          · cases h
            exact (placeQuads s _ _ _).trans (modCore _ _ _)
          · exact nomatch h
      · split at h
        · exact nomatch h
        · cases h
          refine .trans (.trans (?_ : Places s (drawWord s).2) (moveGroup _ p w.cgu _)) (modCore _ _ _)
          exact of_warps rfl rfl
  · exact nomatch h

end Places

/-! ## Running on -/

/-- A thread of the same warp, running or stopped as before. -/
def RunsOn (x y : Thread) : Prop := warpKeyOf y = warpKeyOf x ∧ (y.stop = x.stop ∨ y.stop = .running)

namespace RunsOn

theorem refl (x : Thread) : RunsOn x x := ⟨rfl, .inl rfl⟩

theorem trans {x y z : Thread} (h : RunsOn x y) (k : RunsOn y z) : RunsOn x z := by
  refine ⟨k.1.trans h.1, ?_⟩
  rcases k.2 with hs | hs
  · rw [hs]; exact h.2
  · exact .inr hs

theorem of_sameRun {x y : Thread} (h : SameRun x y) : RunsOn x y := ⟨h.1, .inl h.2⟩

theorem running {x y : Thread} (h : RunsOn x y) (hx : x.stop = .running) : y.stop = .running := by
  rcases h.2 with hs | hs
  · exact hs.trans hx
  · exact hs

end RunsOn

/-- A stopped thread goes on, with the acquire of R137. -/
def wakeThread (s : State) (e : Nat × Thread) : State := learnAway (modThread s e.1 (fun t => { t with stop := .running })) e.1

theorem wakeThread_entry (s : State) (a : Nat × Thread) : ∀ e ∈ (wakeThread s a).threads,
    ∃ x, (e.1, x) ∈ s.threads ∧ RunsOn x e.2 ∧ (e.1 = a.1 → e.2.stop = .running) := by
  intro e he
  obtain ⟨y, hy, hye⟩ := (Resides.learnAway _ a.1).entry e he
  rcases mem_adjust_key hy with ⟨hy, hne⟩ | ⟨x, hx, hxy⟩
  · exact ⟨y, hy, .of_sameRun hye, fun h => absurd h hne⟩
  · obtain ⟨hk, rfl⟩ := Prod.mk.inj hxy
    rw [hk]
    exact ⟨x, hx, ⟨hye.1, .inr hye.2⟩, fun _ => hye.2⟩

theorem learnAway_seats (s : State) (k : Nat) : (learnAway s k).warps = s.warps ∧ (learnAway s k).parts = s.parts := by
  unfold learnAway
  split
  · exact ⟨rfl, rfl⟩
  · split
    · exact ⟨rfl, rfl⟩
    · split <;> exact ⟨rfl, rfl⟩

/-- Every thread of a warp goes on. -/
def wakeWarp (s : State) (wk : Nat) : State := (warpThreads s wk).foldl wakeThread s

theorem wakeWarp_seats (s : State) (wk : Nat) : (wakeWarp s wk).warps = s.warps ∧ (wakeWarp s wk).parts = s.parts := by
  refine List.foldlRecOn (motive := fun t : State => t.warps = s.warps ∧ t.parts = s.parts) _ _ ⟨rfl, rfl⟩ (fun t ht e _ => ?_)
  obtain ⟨h1, h2⟩ := learnAway_seats (modThread t e.1 (fun t => { t with stop := .running })) e.1
  exact ⟨h1.trans ht.1, h2.trans ht.2⟩

theorem wakeWarp_running (s : State) (wk : Nat) : ∀ e ∈ (wakeWarp s wk).threads, warpKeyOf e.2 = wk → e.2.stop = .running := by
  intro e he hk
  obtain ⟨x, hx, hxe, hm⟩ := foldl_marks (key := fun e : Nat × Thread => e.1) RunsOn.refl (fun p q => p.trans q) (fun h hx => h.running hx)
    wakeThread_entry (warpThreads s wk) s e he
  exact hm (List.mem_map.mpr ⟨(e.1, x), mem_warpThreads.mpr ⟨hx, hxe.1.symm.trans hk⟩, rfl⟩)

/-- The image is gone and the warp no longer saved (R320). -/
def unsaved (s : State) (p wk : Nat) : State :=
  modWarp (setPart s p (fun q => { q with images := q.images.filter (fun i => i.warp != wk) })) wk
    (fun w => { w with saved := false, preq := none, since := s.clock })

theorem Resides.setGroups (s : State) (m : Map Group) : Resides s { s with groups := m } := of_same rfl rfl rfl

theorem resumeWarp_resides (s : State) (p wk : Nat) : Resides (wakeWarp (unsaved s p wk) wk) (resumeWarp s p wk) := by
  unfold resumeWarp
  dsimp only
  refine .trans ?_ (Resides.of_stands ((Stands.mwaitChecks _ wk).trans (Stands.genCheck _ wk)))
  refine .trans ?_ (Resides.foldl (f := fun s (e : Nat × FOp) => takeOp s e.1 e.2) (fun s e => Resides.takeOp s e.1 e.2) _ _)
  refine .trans ?_ (Resides.foldl (f := fun s (e : Nat × FOp) => modFrag s e.1 (fun x => { x with saved := false, op := .none }))
    (fun s e => Resides.modFrag s e.1 _) _ _)
  refine .trans ?_ (Resides.foldl (fun s fk => ?_) _ _)
  · exact (Resides.of_stands (.regroupTeams _ _ _)).trans (.setGroups _ _)
  · split
    · exact .modFrag s fk _
    · exact .refl s

theorem resumeWarp_restored {s : State} {p wk : Nat} {w : Warp} (hw : Map.get? s.warps wk = some w) :
    ∃ v, Map.get? (resumeWarp s p wk).warps wk = some v ∧ v.saved = false ∧ v.preq = none ∧ v.since = s.clock
      ∧ (∀ m ∈ (partOf (resumeWarp s p wk) p).images, m.warp ≠ wk)
      ∧ ∀ e ∈ (resumeWarp s p wk).threads, warpKeyOf e.2 = wk → e.2.stop = .running := by
  have hr := resumeWarp_resides s p wk
  obtain ⟨hwarps, hparts⟩ := wakeWarp_seats (unsaved s p wk) wk
  have hwoken : Map.get? (wakeWarp (unsaved s p wk) wk).warps wk = some { w with saved := false, preq := none, since := s.clock } := by
    rw [hwarps, unsaved, modWarp, Map.get?_adjust, if_pos rfl]
    change (Map.get? s.warps wk).map _ = _
    rw [hw]
    rfl
  obtain ⟨v, hv, hsaved, hpreq, hsince⟩ := getWarp_of_rel (hr.warp wk) hwoken
  refine ⟨v, hv, hsaved, hpreq, hsince, fun m hm => ?_, fun e he hk => ?_⟩
  · have himages : (partOf (wakeWarp (unsaved s p wk) wk) p).images = (partOf s p).images.filter (fun i => i.warp != wk) := by
      have hput : (partOf (unsaved s p wk) p).images = (partOf s p).images.filter (fun i => i.warp != wk) := by
        change (partOf (setPart s p (fun q => { q with images := q.images.filter (fun i => i.warp != wk) })) p).images = _
        rw [partOf_setPart, if_pos rfl]
      rw [← hput, partOf, hparts, partOf]
    rw [hr.images, himages] at hm
    exact bne_iff_ne.mp (List.mem_filter.mp hm).2
  · obtain ⟨x, hx, hkx, hsx⟩ := hr.entry e he
    exact hsx.trans (wakeWarp_running _ wk _ hx (hkx.symm.trans hk))

/-! ## WARP_RESTORE -/

/-- A warp that R45 requires, without a place, asks for a victim's (R286). -/
def askForPlace (s : State) (p wk : Nat) (w : Warp) : State :=
  match Map.get? s.coreGroups (w.cgu * 8 + w.k), lowestOf (warpThreads s wk) with
  | some c, some t0 =>
    if !mustReturn s p wk || makingRoom s p (makesRoom s p w c) then s
    else match victimFor s p t0 (makesRoom s p w c) with
      | some v => requestSave s v
      | none => s
  | _, _ => s

/-- The warp of an image asks. -/
def askAt (s : State) (p i : Nat) : State :=
  match (imageAt s p i).bind (fun wk => (Map.get? s.warps wk).map (fun w => (wk, w))) with
  | none => s
  | some (wk, w) => askForPlace s p wk w

theorem warpRestore_of_noRoom {s : State} {p i : Nat} (h : restoreImage s p i = (2, s)) : exec (.warpRestore p i) s = .next (askAt s p i) := by
  change execWarpRestore p i s = _
  unfold execWarpRestore
  rw [h]
  rfl

theorem warpRestore_of_answer {s u : State} {p i : Nat} (h : restoreImage s p i = (0, u) ∨ restoreImage s p i = (1, u)) :
    exec (.warpRestore p i) s = .next u := by
  change execWarpRestore p i s = _
  unfold execWarpRestore
  rcases h with h | h
  · rw [h]; rfl
  · rw [h]; rfl

theorem restoreImage_noPlace {s : State} {p i wk : Nat} {w : Warp} (hi : imageAt s p i = some wk) (hw : Map.get? s.warps wk = some w)
    (hpl : placeWarp s p wk w = none) : restoreImage s p i = (2, s) := by
  unfold restoreImage
  rw [hi, Option.bind_some, hw]
  dsimp only [Option.map_some]
  rw [hpl]

theorem restoreImage_placed {s u : State} {p i wk : Nat} {w : Warp} (hi : imageAt s p i = some wk) (hw : Map.get? s.warps wk = some w)
    (hpl : placeWarp s p wk w = some u) : restoreImage s p i = (0, resumeWarp u p wk) := by
  unfold restoreImage
  rw [hi, Option.bind_some, hw]
  dsimp only [Option.map_some]
  rw [hpl]

theorem warpRestore_noPlace {s : State} {p i wk : Nat} {w : Warp} (hi : imageAt s p i = some wk) (hw : Map.get? s.warps wk = some w)
    (hpl : placeWarp s p wk w = none) : exec (.warpRestore p i) s = .next (askForPlace s p wk w) := by
  rw [warpRestore_of_noRoom (restoreImage_noPlace hi hw hpl), askAt, hi, Option.bind_some, hw]
  rfl

theorem warpRestore_free {s : State} {p i wk : Nat} {w : Warp} (hi : imageAt s p i = some wk) (hw : Map.get? s.warps wk = some w)
    (hpl : placeWarp s p wk w = none) (hm : mustReturn s p wk = false) : exec (.warpRestore p i) s = .next s := by
  rw [warpRestore_noPlace hi hw hpl, askForPlace, hm]
  split
  · rw [Bool.not_false, Bool.true_or, if_pos rfl]
  · rfl

theorem warpRestore_required {s : State} {p i wk : Nat} {w : Warp} {c : CoreGroup} {t0 : Thread} (hi : imageAt s p i = some wk)
    (hw : Map.get? s.warps wk = some w) (hpl : placeWarp s p wk w = none) (hm : mustReturn s p wk = true)
    (hc : Map.get? s.coreGroups (w.cgu * 8 + w.k) = some c) (ht : lowestOf (warpThreads s wk) = some t0) :
    (makingRoom s p (makesRoom s p w c) = true → exec (.warpRestore p i) s = .next s)
    ∧ ∀ v, makingRoom s p (makesRoom s p w c) = false → victimFor s p t0 (makesRoom s p w c) = some v →
        exec (.warpRestore p i) s = .next (requestSave s v) := by
  rw [warpRestore_noPlace hi hw hpl, askForPlace, hm, hc, ht]
  refine ⟨fun hmk => ?_, fun v hmk hv => ?_⟩
  · dsimp only
    rw [hmk]
    rfl
  · dsimp only
    rw [hmk, hv]
    rfl

theorem warpRestore_restores {s u : State} {p i wk : Nat} {w : Warp} (hi : imageAt s p i = some wk) (hw : Map.get? s.warps wk = some w)
    (hpl : placeWarp s p wk w = some u) :
    ∃ t v, exec (.warpRestore p i) s = .next t ∧ Map.get? t.warps wk = some v ∧ v.saved = false ∧ v.preq = none ∧ v.since = s.clock
      ∧ (∀ m ∈ (partOf t p).images, m.warp ≠ wk) ∧ (∀ e ∈ t.threads, warpKeyOf e.2 = wk → e.2.stop = .running) := by
  have hplaces := Places.placeWarp hpl
  obtain ⟨w', hw'⟩ := hplaces.warp wk w hw
  obtain ⟨v, hv, h1, h2, hsince, h3⟩ := resumeWarp_restored (p := p) hw'
  exact ⟨_, v, warpRestore_of_answer (.inl (restoreImage_placed hi hw hpl)), hv, h1, h2, hsince.trans hplaces.clock, h3⟩

theorem warpRestore_noImage {s : State} {p i : Nat} (hi : imageAt s p i = none) : exec (.warpRestore p i) s = .next s := by
  have hnone : restoreImage s p i = (1, s) := by
    unfold restoreImage
    rw [hi]
    rfl
  exact warpRestore_of_answer (.inr hnone)

/-- Settles O43: the window's end stops every thread, the save stops what stands and seals the warp with its image, and the restore
places it, or asks for a place. -/
theorem preemptionResults : Obligations.PreemptionResults := by
  unfold Obligations.PreemptionResults
  exact ⟨fun _ _ _ hw hp hs he => windowExpiry_stops hw hp hs he,
    fun _ _ h => windowExpiry_other (fun w hw => (h w hw).imp_right .inl),
    fun _ _ w hw he => windowExpiry_other (fun v hv => .inr (.inr (by rw [hw] at hv; cases hv; exact he))),
    fun _ _ _ _ hw hp hs hne hmay _ hnm hheld hsil hok hfree => warpSave_saves hw hp hs hne hmay hnm hheld hsil hok hfree,
    fun _ _ _ _ _ _ hw hp hs hne hall hnm hheld hpick hsil => warpSave_waits hw hp hs hne hall hnm hheld hpick hsil,
    fun _ _ hheld h hne hall => warpSave_held hheld h hne hall,
    fun _ _ _ _ _ _ _ hc hr hs hq => placeWarp_resident hc hr hs hq,
    fun _ _ _ _ _ hi hw hpl hm => warpRestore_free hi hw hpl hm,
    fun _ _ _ _ _ _ _ hi hw hpl hm hc ht => warpRestore_required hi hw hpl hm hc ht,
    fun _ _ _ _ _ _ hi hw hpl => warpRestore_restores hi hw hpl,
    fun _ _ _ hi => warpRestore_noImage hi⟩

end Sys2Proof.Laws


/-! Quantisation (R190): the rule of an ordinary lane, asked of every scale. -/

namespace Sys2Proof.Laws

open Sys2Proof.Machine Sys2Proof.Claims Sys2Proof.Safety

/-- A lane that brings +0 with bound 0. -/
def zeroLane : QLane := ⟨0, 0, .fin false 0 0, false, some dyZero, some dyZero, .fin false 0 0⟩

/-- Under the scale 255, which is that of a NaN (R51), its result is unbounded. -/
theorem zeroLane_unbounded : (qntLane 0 0 .rne false false false false 255 zeroLane).bnd = 0xFF00 := by decide

/-- The code of that lane at that scale stands for a zero. -/
theorem zeroLane_codes {code : Nat} {q : FV} {fl : Byte} (h : Codes 0 .rne 255 zeroLane.x code q fl) : q = .fin false 0 128 := by
  obtain ⟨v, hconv, -, hq⟩ := (h false 0 0 rfl).1 (by decide)
  obtain ⟨-, -, hzero, -⟩ := hconv
  obtain ⟨hv, -⟩ := hzero false _ rfl
  rw [hq, hv]
  rfl

/-- Which then has the bound 0. -/
theorem zeroLane_bound : upBd (bdAdd zeroLane.bx (some (dyAbs (dySub (fvDy zeroLane.x) (fvDy (.fin false 0 128)))))) = 0 := by decide

/-- Refutes O10: the rule of an ordinary lane (R190) is asked of every scale s, not only of those that R187 picks, which are 0-254. At
s = 255 the model's element is a NaN (R51) and the lane's bound unbounded, where the rule takes the code's value times 2^128 for q,
a zero, whose bound is 0. -/
theorem not_quantisationResults : ¬ Obligations.QuantisationResults := by
  rintro ⟨⟨-, -, -, -, -, hquant, -⟩, -⟩
  obtain ⟨-, -, -, hordinary⟩ := hquant 0 0 .rne false false false 255 zeroLane (by decide)
  obtain ⟨code, q, fl, hcodes, -, -, -, hfin⟩ := hordinary rfl
  rw [zeroLane_codes hcodes] at hfin
  obtain ⟨⟨hbnd, -⟩, -⟩ := hfin rfl
  have h : (0xFF00 : BitVec 16) = 0 := zeroLane_unbounded.symm.trans ((hbnd rfl).trans zeroLane_bound)
  exact absurd h (by decide)

end Sys2Proof.Laws



/-! SUPPORT. What taking an exception leaves as it was (R32-R35, R304-R312): the values of every thread, and every table but those that an
exception is recorded in. -/

namespace Sys2Proof.Laws

open Sys2Proof.Machine Sys2Proof.Claims Sys2Proof.Safety

/-- A thread with the registers, predicates, flags and budget state it had. -/
def SameData (x y : Thread) : Prop :=
  y.regs = x.regs ∧ y.cregs = x.cregs ∧ y.preds = x.preds ∧ y.flags = x.flags ∧ y.bud = x.bud

theorem SameData.refl (x : Thread) : SameData x x := ⟨rfl, rfl, rfl, rfl, rfl⟩

theorem SameData.trans {x y z : Thread} (h : SameData x y) (k : SameData y z) : SameData x z := by
  obtain ⟨hr, hc, hp, hf, hb⟩ := h
  obtain ⟨kr, kc, kp, kf, kb⟩ := k
  exact ⟨kr.trans hr, kc.trans hc, kp.trans hp, kf.trans hf, kb.trans hb⟩

theorem Moved.sameData {x y : Thread} (h : Moved x y) : SameData x y := by
  rw [h]
  exact .refl _

/-- A thread that is there still is, related to what it was. -/
theorem getThread_of_rel {R : Thread → Thread → Prop} {s t : State} {k : Nat} {x : Thread}
    (hr : Option.Rel R (getThread s k) (getThread t k)) (hx : getThread s k = some x) : ∃ y, getThread t k = some y ∧ R x y := by
  rw [hx] at hr
  generalize getThread t k = o at hr
  cases hr with
  | some hxy => exact ⟨_, rfl, hxy⟩

/-- Every thread has its values, and quad groups, launches, the host port and the boot state are as they were. -/
structure KeepsData (s t : State) : Prop where
  quadGroups : t.quadGroups = s.quadGroups
  launches : t.launches = s.launches
  host : t.host = s.host
  boot : t.boot = s.boot
  thread : ∀ k, Option.Rel SameData (getThread s k) (getThread t k)

namespace KeepsData

/-- A change of tables that hold none of these. -/
theorem of_same {s t : State} (hq : t.quadGroups = s.quadGroups) (hl : t.launches = s.launches) (hh : t.host = s.host)
    (hb : t.boot = s.boot) (ht : t.threads = s.threads) : KeepsData s t where
  quadGroups := hq
  launches := hl
  host := hh
  boot := hb
  thread k := by
    rw [getThread, getThread, ht]
    exact rel_refl SameData.refl _

theorem refl (s : State) : KeepsData s s := of_same rfl rfl rfl rfl rfl

theorem trans {s t u : State} (h : KeepsData s t) (k : KeepsData t u) : KeepsData s u where
  quadGroups := k.quadGroups.trans h.quadGroups
  launches := k.launches.trans h.launches
  host := k.host.trans h.host
  boot := k.boot.trans h.boot
  thread j := rel_trans (R := SameData) (fun p q => p.trans q) (h.thread j) (k.thread j)

theorem foldl {α : Type} {f : State → α → State} (hf : ∀ s x, KeepsData s (f s x)) (l : List α) (s : State) :
    KeepsData s (l.foldl f s) :=
  List.foldlRecOn l f (refl s) (fun _ ht x _ => ht.trans (hf _ x))

theorem of_stands {s t : State} (h : Stands s t) : KeepsData s t where
  quadGroups := by rw [h.rest]
  launches := by rw [h.rest]
  host := by rw [h.rest]
  boot := by rw [h.rest]
  thread k := rel_mono Moved.sameData (h.thread k)

theorem of_agentWrites {s t : State} (h : AgentWrites s t) : KeepsData s t :=
  of_same (by rw [h.rest]) (by rw [h.rest]) (by rw [h.rest]) (by rw [h.rest]) h.threads

/-! ### The operations -/

theorem modThread (s : State) (k : Nat) {f : Thread → Thread} (hf : ∀ x, SameData x (f x)) : KeepsData s (modThread s k f) where
  quadGroups := rfl
  launches := rfl
  host := rfl
  boot := rfl
  thread := rel_adjust SameData.refl s.threads k hf

theorem leaveGroup (s : State) (k : Nat) : KeepsData s (leaveGroup s k) := of_stands (.leaveGroup s k)

/-- A thread leaves its group for another place. -/
theorem leaveThenMod (s : State) (k : Nat) {f : Thread → Thread} (hf : ∀ x, SameData x (f x)) :
    KeepsData s (Machine.modThread (Machine.leaveGroup s k) k f) := (leaveGroup s k).trans (modThread _ k hf)

theorem putSide (s : State) (t : Thread) (r : SideRec) : KeepsData s (putSide s t r) := of_same rfl rfl rfl rfl rfl

theorem postEvent (s : State) (p : Nat) (src : Word) (kind cause reason : Nat) (x y z : DWord) (q : Bool) :
    KeepsData s (postEvent s p src kind cause reason x y z q) := of_same rfl rfl rfl rfl rfl

theorem setFrag (s : State) (fk : Nat) (x : FEntry) : KeepsData s (setFrag s fk x) := of_same rfl rfl rfl rfl rfl

theorem modFrag (s : State) (fk : Nat) (f : FEntry → FEntry) : KeepsData s (modFrag s fk f) :=
  (setFrag s fk _).trans (of_agentWrites (modFrag_rest s fk f))

theorem wakeFor (s : State) (fs : List FInfo) : KeepsData s (wakeFor s fs) := foldl (fun s f => by
  split
  · exact of_same rfl rfl rfl rfl rfl
  · exact refl s) fs s

theorem postEventIf (c : Bool) (s : State) (p : Nat) (src : Word) (kind cause reason : Nat) (x y z : DWord) :
    KeepsData s (if c then Machine.postEvent s p src kind cause reason x y z else s) := by
  cases c
  · exact refl s
  · exact postEvent ..

theorem makeFragment (s : State) (core e : Nat) (fs : List (Nat × FInfo)) (fpc rpc : DWord) (rpass : Option Pass) :
    KeepsData s (makeFragment s core e fs fpc rpc rpass) := by
  unfold Machine.makeFragment
  dsimp only
  split
  · exact refl s
  · refine .trans (.trans (.trans (.trans (foldl (fun s y => ?_) _ s) (setFrag _ _ _)) (of_agentWrites (.writeImage _ _ _ _)))
      (foldl (fun s y => ?_) _ _)) (postEventIf ..)
    · exact putSide s ..
    · refine leaveThenMod s y.1 (fun x => ?_)
      split <;> exact ⟨rfl, rfl, rfl, rfl, rfl⟩

theorem enterNoEntry (s : State) (k : Nat) (fpc : DWord) (rpass : Option Pass) : KeepsData s (enterNoEntry s k fpc rpass) := by
  unfold Machine.enterNoEntry
  split
  · exact refl s
  · exact (putSide s _ _).trans (leaveThenMod _ k (fun _ => ⟨rfl, rfl, rfl, rfl, rfl⟩))

theorem nestedFaults (s : State) (fs : List (Nat × FInfo)) (fpc : DWord) (vec : Bool) : KeepsData s (nestedFaults s fs fpc vec) := by
  unfold Machine.nestedFaults
  dsimp only
  refine .trans (foldl (fun s y => ?_) _ s) (foldl (fun s id => ?_) _ _)
  · exact putSide s ..
  · split
    · exact refl s
    · split
      · refine .trans (foldl (fun s y => ?_) _ s) (postEvent ..)
        exact leaveThenMod s y.1 (fun _ => ⟨rfl, rfl, rfl, rfl, rfl⟩)
      · split
        · refine .trans (.trans (foldl (fun s e => ?_) _ s) (modFrag ..)) (postEvent ..)
          exact leaveThenMod s e.1 (fun _ => ⟨rfl, rfl, rfl, rfl, rfl⟩)
        · refine .trans (foldl (fun s e => ?_) _ s) (modFrag ..)
          exact leaveThenMod s e.1 (fun _ => ⟨rfl, rfl, rfl, rfl, rfl⟩)

theorem genChecks (s : State) (ks : List Nat) : KeepsData s (genChecks s ks) := of_stands (.genChecks s ks)

theorem advance (s : State) (gid : Nat) : KeepsData s (advance s gid) := of_stands (.advance s gid)

end KeepsData

/-- An exception leaves the values of the state in which it is taken, or, under exhaustion, of the state before the instruction. -/
theorem raise_keepsData (s0 s : State) (whole : List Nat) (fs : List (Nat × FInfo)) (fpc : DWord) (slot : Option Pass) (rpc : DWord)
    (rpass : Option Pass) (vec : Bool) :
    KeepsData s (raise s0 s whole fs fpc slot rpc rpass vec).1 ∨ KeepsData s0 (raise s0 s whole fs fpc slot rpc rpass vec).1 := by
  unfold raise
  dsimp only
  split
  · exact .inl ((KeepsData.nestedFaults ..).trans (.genChecks ..))
  · split
    · exact .inl (((KeepsData.makeFragment ..).trans (.nestedFaults ..)).trans (.genChecks ..))
    · have hfresh : KeepsData s0 { s0 with fresh := s.fresh } := .of_same rfl rfl rfl rfl rfl
      exact .inr (((hfresh.trans (.foldl (fun s k => .enterNoEntry s k fpc slot) _ _)).trans (.nestedFaults ..)).trans (.genChecks ..))

/-- So a group whose lanes fault, and one that waits until its faults can be taken. -/
theorem splitFaults_keepsData (s0 s : State) (gid : Nat) (g : Group) (fs : List (Nat × FInfo)) (after : Bool) :
    KeepsData s (splitFaults s0 s gid g fs after) ∨ KeepsData s0 (splitFaults s0 s gid g fs after) := by
  have hfresh : KeepsData s0 { s0 with fresh := s.fresh } := .of_same rfl rfl rfl rfl rfl
  unfold splitFaults
  split
  · exact .inl (.advance s gid)
  split
  · exact .inr (hfresh.trans (.wakeFor ..))
  split
  · exact .inr (hfresh.trans (.of_same rfl rfl rfl rfl rfl))
  dsimp only
  generalize hr : raise s0 s g.members fs _ _ _ _ = r
  have hkeep : KeepsData s r.1 ∨ KeepsData s0 r.1 := hr ▸ raise_keepsData ..
  split
  · exact hkeep
  · exact hkeep.imp (·.trans (.advance ..)) (·.trans (.advance ..))

end Sys2Proof.Laws



/-! The frame of the register-only instructions (R56, R64, R66, R68, R160): each runs lane by lane, and a lane writes its own thread. -/

namespace Sys2Proof.Laws

open Sys2Proof.Machine Sys2Proof.Claims Sys2Proof.Safety

/-! ## Writing registers -/

/-- The split of a thread's frame C lies at its base or above (R39), so that no two registers share a slot. -/
def FrameFits (t : Thread) : Prop := ∀ sp b, t.frame = some (sp, b) → b ≤ sp

/-- The storage that is bad still once a register has been written (R321). -/
def badAfter (t : Thread) (r : Nat) : List Nat := if t.bad.isEmpty then t.bad else t.bad.filter (fun i => i != storageOf t r)

/-- A register's write changes its frame's slots alone. -/
theorem setReg_eq (t : Thread) (r : Nat) (v : Reg) :
    setReg t r v = match t.frame with
      | some (sp, b) =>
        if sp ≤ r then { t with bad := badAfter t r, cregs := Map.putD Reg.zero t.cregs (r - b) v }
        else { t with bad := badAfter t r, regs := Map.putD Reg.zero t.regs r v }
      | none => { t with bad := badAfter t r, regs := Map.putD Reg.zero t.regs r v } := by
  unfold setReg badAfter
  cases t.bad.isEmpty <;> rfl

theorem setReg_rest (t : Thread) (r : Nat) (v : Reg) :
    setReg t r v = { t with bad := (setReg t r v).bad, regs := (setReg t r v).regs, cregs := (setReg t r v).cregs } := by
  rw [setReg_eq]
  split
  · split <;> rfl
  · rfl

theorem getReg_setReg_ne {t : Thread} (h : FrameFits t) {r d : Nat} (hne : r ≠ d) (v : Reg) : getReg (setReg t d v) r = getReg t r := by
  unfold getReg
  rw [show (setReg t d v).frame = t.frame by rw [setReg_rest], setReg_eq]
  rcases hf : t.frame with _ | ⟨sp, b⟩
  · exact Map.get_putD_ne _ _ _ hne
  · have hb := h sp b hf
    by_cases hd : sp ≤ d <;> by_cases hr : sp ≤ r <;> simp only [hd, hr, if_true, if_false]
    · exact Map.get_putD_ne _ _ _ (by omega)
    · exact Map.get_putD_ne _ _ _ hne

/-- The registers that a value of a type writes are its destinations. -/
theorem mem_oneOrTwo_of_wrTy {wide : Bool} {d : VReg} {v : DWord} {b : BitVec 16} {w : Nat × Reg} (h : w ∈ wrTy wide d v b) :
    w.1 ∈ oneOrTwo wide d := by
  cases wide <;> simp only [wrTy, oneOrTwo, if_true, if_false, Bool.false_eq_true, List.mem_cons, List.not_mem_nil, or_false] at h ⊢
  · rw [h]
  · rcases h with rfl | rfl <;> simp

/-! ## What a lane's thread keeps -/

/-- Setting flags keeps those that stand. -/
theorem or_and_eq (x f : Byte) : (x ||| f) &&& x = x := by
  ext j
  simp +contextual

/-- A thread after an instruction with destinations `ds`, where it stood. -/
structure Wrote (i : Instr) (ds : List Nat) (x y : Thread) : Prop where
  frame : y.frame = x.frame
  reg : ∀ r, r ∉ ds → FrameFits x → getReg y r = getReg x r
  preds : writesPreds i = false → y.preds = x.preds
  bud : writesBud i = false → y.bud = x.bud
  flags : clearsFlags i = false → y.flags &&& x.flags = x.flags
  lk : writesLk i = false → y.lk = x.lk
  frag : y.frag = x.frag
  hand : y.hand = x.hand
  priv : y.priv = x.priv

namespace Wrote

variable {i : Instr} {ds : List Nat}

theorem refl (x : Thread) : Wrote i ds x x :=
  ⟨rfl, fun _ _ _ => rfl, fun _ => rfl, fun _ => rfl, fun _ => BitVec.and_self, fun _ => rfl, rfl, rfl, rfl⟩

theorem trans {x y z : Thread} (h : Wrote i ds x y) (k : Wrote i ds y z) : Wrote i ds x z where
  frame := k.frame.trans h.frame
  reg r hr hx := (k.reg r hr (by rwa [FrameFits, h.frame])).trans (h.reg r hr hx)
  preds hp := (k.preds hp).trans (h.preds hp)
  bud hb := (k.bud hb).trans (h.bud hb)
  flags hf := by rw [← h.flags hf, ← BitVec.and_assoc, k.flags hf]
  lk hl := (k.lk hl).trans (h.lk hl)
  frag := k.frag.trans h.frag
  hand := k.hand.trans h.hand
  priv := k.priv.trans h.priv

theorem setReg (t : Thread) {d : Nat} (hd : d ∈ ds) (v : Reg) : Wrote i ds t (setReg t d v) where
  frame := by rw [setReg_rest]
  reg r hr ht := getReg_setReg_ne ht (ne_of_mem_of_not_mem hd hr).symm v
  preds _ := by rw [setReg_rest]
  bud _ := by rw [setReg_rest]
  flags _ := by rw [setReg_rest]; exact BitVec.and_self
  lk _ := by rw [setReg_rest]
  frag := by rw [setReg_rest]
  hand := by rw [setReg_rest]
  priv := by rw [setReg_rest]

theorem setRegs (t : Thread) {l : List (Nat × Reg)} (hl : ∀ w ∈ l, w.1 ∈ ds) : Wrote i ds t (setRegs t l) :=
  List.foldlRecOn l _ (refl t) (fun _ hu w hw => hu.trans (setReg _ (hl w hw) w.2))

theorem orFlags (t : Thread) (f : Byte) : Wrote i ds t (orFlags t f) :=
  ⟨rfl, fun _ _ _ => rfl, fun _ => rfl, fun _ => rfl, fun _ => or_and_eq .., fun _ => rfl, rfl, rfl, rfl⟩

theorem setPreds (t : Thread) (hi : writesPreds i = true) (p : BitVec 7) : Wrote i ds t { t with preds := p } :=
  ⟨rfl, fun _ _ _ => rfl, fun h => by simp [hi] at h, fun _ => rfl, fun _ => BitVec.and_self, fun _ => rfl, rfl, rfl, rfl⟩

theorem setPred (t : Thread) (hi : writesPreds i = true) (p : BitVec 3) (b : Bool) : Wrote i ds t (setPred t p b) := by
  unfold Machine.setPred
  split
  · exact refl t
  · exact setPreds t hi _

theorem setBud (t : Thread) (hi : writesBud i = true) (b : Word) : Wrote i ds t { t with bud := b } :=
  ⟨rfl, fun _ _ _ => rfl, fun _ => rfl, fun h => by simp [hi] at h, fun _ => BitVec.and_self, fun _ => rfl, rfl, rfl, rfl⟩

theorem setLk (t : Thread) (hi : writesLk i = true) (v : DWord) : Wrote i ds t { t with lk := v } :=
  ⟨rfl, fun _ _ _ => rfl, fun _ => rfl, fun _ => rfl, fun _ => BitVec.and_self, fun h => by simp [hi] at h, rfl, rfl, rfl⟩

theorem setFlags (t : Thread) (hi : clearsFlags i = true) (f : Byte) : Wrote i ds t { t with flags := f } :=
  ⟨rfl, fun _ _ _ => rfl, fun _ => rfl, fun _ => rfl, fun h => by simp [hi] at h, fun _ => rfl, rfl, rfl, rfl⟩

/-- What it keeps once it has taken a trap or another thread's has moved it. -/
theorem keepsValues {x y z : Thread} (h : Wrote i ds x y) (k : SameData y z) : keepsValues i ds x z := by
  obtain ⟨hr, hc, hp, hf, hb⟩ := k
  refine ⟨fun r hrd hx => ?_, fun e => hp.trans (h.preds e), fun e => hb.trans (h.bud e), fun e => by rw [hf, h.flags e]⟩
  rw [← h.reg r hrd hx, regIn, getReg, getReg, ← h.frame, hr, hc]

/-- What it keeps where it has only moved on. -/
theorem keepsBut {x y z : Thread} (h : Wrote i ds x y) (k : Moved y z) : keepsBut i ds x z := by
  refine ⟨h.keepsValues k.sameData, fun e => ?_, ?_, ?_, ?_⟩
  · rw [k]; exact h.lk e
  · rw [k]; exact h.frag
  · rw [k]; exact h.hand
  · rw [k]; exact h.priv

end Wrote

/-- A lane writes its own thread, or traps since its result breaches its budget in mode 1. -/
def LaneWrites (i : Instr) (ds : List Nat) (t : Thread) : Except FInfo Thread → Prop
  | .ok u => Wrote i ds t u
  | .error _ => checksBudget i = true ∧ budMode t.bud = 1 ∧ ∃ b, breaches t.bud b = true

theorem deliver_laneWrites {i : Instr} {wide : Bool} {d : VReg} (hi : checksBudget i = true) (t : Thread) (r : Deliv) :
    LaneWrites i (oneOrTwo wide d) t (deliver t wide d r) := by
  have hok (f : Byte) : Wrote i (oneOrTwo wide d) t (orFlags (setRegs t (wrTy wide d r.bits r.bnd)) f) :=
    (Wrote.setRegs t (fun _ => mem_oneOrTwo_of_wrTy)).trans (.orFlags _ f)
  unfold deliver breachRule
  split
  · next hb =>
    split
    · next hm => exact ⟨hi, hm, r.bnd, hb⟩
    · exact hok _
  · exact hok _

/-! ## The lanes of a group -/

/-- The listed lanes have written their threads, and nothing else has changed. -/
structure LanesWrote (i : Instr) (ds ks : List Nat) (s t : State) : Prop where
  rest : t = { s with threads := t.threads }
  thread : ∀ k, Option.Rel (Wrote i ds) (getThread s k) (getThread t k)
  other : ∀ k, k ∉ ks → getThread t k = getThread s k

theorem getThread_setThread (s : State) (k j : Nat) (t : Thread) :
    getThread (setThread s k t) j = if j = k then some t else getThread s j := Map.get?_put ..

theorem foldLanes_ownLane_wrote {i : Instr} {ds : List Nat} {F : Thread → Except FInfo Thread} (hF : ∀ t, LaneWrites i ds t (F t))
    (ks : List Nat) (s : State) : LanesWrote i ds ks s (foldLanes (ownLane F) ks s).1 := by
  induction ks generalizing s with
  | nil => exact ⟨rfl, fun _ => rel_refl Wrote.refl _, fun _ _ => rfl⟩
  | cons k r ih =>
    have hskip (u : State) (h : LanesWrote i ds r s u) : LanesWrote i ds (k :: r) s u :=
      ⟨h.rest, h.thread, fun j hj => h.other j (fun e => hj (List.mem_cons_of_mem _ e))⟩
    unfold foldLanes
    cases ht : getThread s k with
    | none => exact hskip _ (ih s)
    | some t =>
      have hlane := hF t
      dsimp only [ownLane]
      cases hFt : F t with
      | error e => exact hskip _ (ih s)
      | ok u =>
        rw [hFt] at hlane
        obtain ⟨hrest, hthread, hother⟩ := ih (setThread s k u)
        refine ⟨by rw [hrest]; rfl, fun j => rel_trans (R := Wrote i ds) (fun p q => p.trans q) ?_ (hthread j), fun j hj => ?_⟩
        · rw [getThread_setThread]
          split
          · next e => exact e ▸ ht ▸ .some hlane
          · exact rel_refl Wrote.refl _
        · obtain ⟨hjk, hjr⟩ := not_or.mp (mt List.mem_cons.mpr hj)
          rw [hother j hjr, getThread_setThread, if_neg hjk]

/-- Lanes whose threads meet a condition under which none traps, and which each lane keeps. -/
theorem foldLanes_ownLane_quiet {F : Thread → Except FInfo Thread} {P : Thread → Prop} (hF : ∀ t, P t → ∃ u, F t = .ok u ∧ P u)
    (ks : List Nat) {s : State} (hs : ∀ k ∈ ks, ∀ t, getThread s k = some t → P t) : (foldLanes (ownLane F) ks s).2 = [] := by
  induction ks generalizing s with
  | nil => rfl
  | cons k r ih =>
    unfold foldLanes
    cases ht : getThread s k with
    | none => exact ih (fun j hj => hs j (List.mem_cons_of_mem _ hj))
    | some t =>
      obtain ⟨u, hu, hPu⟩ := hF t (hs k List.mem_cons_self t ht)
      simp only [ownLane, hu]
      refine ih (fun j hj x hx => ?_)
      rw [getThread_setThread] at hx
      split at hx
      · cases hx; exact hPu
      · exact hs j (List.mem_cons_of_mem _ hj) x hx

/-! ## The instructions -/

/-- An instruction runs as a lane function that writes destinations `ds`. -/
def RunsLanes (i : Instr) (ds : List Nat) : Prop :=
  ∀ s gid g, At s gid g → ∃ gd F, exec i s = .next (threadOp gd F s) ∧ ∀ t, LaneWrites i ds t (F t)

theorem runsLanes_of_threadOp {i : Instr} {ds : List Nat} {gd : Guard} {F : Thread → Except FInfo Thread}
    (hi : ∀ s, exec i s = .next (threadOp gd F s)) (hF : ∀ t, LaneWrites i ds t (F t)) : RunsLanes i ds :=
  fun s _ _ _ => ⟨gd, F, hi s, hF⟩

/-- Results of a unit that are checked against the budget. -/
theorem runsLanes_of_deliver {i : Instr} {gd : Guard} {wide : Bool} {d : VReg} {r : Thread → Deliv} (hc : checksBudget i = true)
    (hi : ∀ s, exec i s = .next (threadOp gd (fun t => deliver t wide d (r t)) s)) : RunsLanes i (oneOrTwo wide d) :=
  runsLanes_of_threadOp hi (fun t => deliver_laneWrites hc t (r t))

/-- Results that are not. -/
theorem runsLanes_of_deliverFree {i : Instr} {gd : Guard} {wide : Bool} {d : VReg} {r : Thread → Deliv}
    (hi : ∀ s, exec i s = .next (threadOp gd (fun t => deliverFree t wide d (r t)) s)) : RunsLanes i (oneOrTwo wide d) :=
  runsLanes_of_threadOp hi (fun t => (Wrote.setRegs t (fun _ => mem_oneOrTwo_of_wrTy)).trans (.orFlags _ _))

/-- A value written, with a bound. -/
theorem runsLanes_of_wrTy {i : Instr} {gd : Guard} {wide : Bool} {d : VReg} {v : Thread → DWord} {b : Thread → BitVec 16}
    (hi : ∀ s, exec i s = .next (threadOp gd (fun t => .ok (setRegs t (wrTy wide d (v t) (b t)))) s)) : RunsLanes i (oneOrTwo wide d) :=
  runsLanes_of_threadOp hi (fun t => Wrote.setRegs t (fun _ => mem_oneOrTwo_of_wrTy))

/-- One register written. -/
theorem runsLanes_of_setReg {i : Instr} {gd : Guard} {d : VReg} {v : Thread → Reg}
    (hi : ∀ s, exec i s = .next (threadOp gd (fun t => .ok (setReg t d.toNat (v t))) s)) : RunsLanes i [d.toNat] :=
  runsLanes_of_threadOp hi (fun t => Wrote.setReg t List.mem_cons_self _)

/-- One predicate written. -/
theorem runsLanes_of_setPred {i : Instr} {gd : Guard} {p : BitVec 3} {b : Thread → Bool} (hp : writesPreds i = true)
    (hi : ∀ s, exec i s = .next (threadOp gd (fun t => .ok (setPred t p (b t))) s)) : RunsLanes i [] :=
  runsLanes_of_threadOp hi (fun t => Wrote.setPred t hp _ _)

/-- An instruction of the STR subset. -/
theorem runsLanes_of_aluOp {i : Instr} {ds : List Nat} {gd : Guard} {e : RegFile → List (Nat × Reg) × Byte}
    (hi : ∀ s, exec i s = .next (aluOp gd e s)) (he : ∀ rf, ∀ w ∈ (e rf).1, w.1 ∈ ds) : RunsLanes i ds := by
  intro s gid g h
  refine ⟨gd, _, by rw [hi s, aluOp, cur_of_at h], fun t => ?_⟩
  exact (Wrote.setRegs t (he _)).trans (.orFlags _ _)

/-- One that writes a value of a type. -/
theorem runsLanes_of_alu_wrTy {i : Instr} {gd : Guard} {wide : Bool} {d : VReg} {v : RegFile → DWord} {b : RegFile → BitVec 16}
    {f : RegFile → Byte} (hi : ∀ s, exec i s = .next (aluOp gd (fun rf => (wrTy wide d (v rf) (b rf), f rf)) s)) :
    RunsLanes i (oneOrTwo wide d) :=
  runsLanes_of_aluOp hi (fun _ _ => mem_oneOrTwo_of_wrTy)

theorem fset_runsLanes (x : FsetOps) : RunsLanes (.fset x) [] := by
  refine runsLanes_of_threadOp (fun _ => rfl) (fun t => ?_)
  refine .trans ?_ (.orFlags _ _)
  split
  · exact (Wrote.setPred t rfl _ _).trans (.setPred _ rfl _ _)
  · exact .setPred t rfl _ _

theorem budget_runsLanes (x : OpS) : RunsLanes (.budget x) [] := by
  refine runsLanes_of_threadOp (fun _ => rfl) (fun t => ?_)
  dsimp only [LaneWrites]
  split
  · exact .setBud t rfl _
  · exact .orFlags t _

theorem movs_runsLanes (x : MovsOps) : RunsLanes (.movs x) (oneOrTwo x.src.wide x.d) := by
  intro s gid g h
  refine ⟨x.g, fun t => .ok (setRegs t (wrTy x.src.wide x.d (sregThread s t x.src) 0)), ?_, fun t =>
    Wrote.setRegs t (fun _ => mem_oneOrTwo_of_wrTy)⟩
  change execMovs x s = _
  rw [execMovs, cur_of_at h]

/-- Each register-only instruction by the operation it is made of. -/
theorem runsLanes_of_dests {i : Instr} {ds : List Nat} (h : dests i = some ds) : RunsLanes i ds := by
  cases i
  case iadd x | isub x | imul x | imulh x | imin x | imax x | and x | or x | xor x | shl x | shr x | sar x | bfx x =>
    cases h; exact runsLanes_of_alu_wrTy (fun _ => rfl)
  case iaddImm x | isubImm x | imulImm x | iminImm x | imaxImm x | andImm x | orImm x | xorImm x | shlImm x | shrImm x | sarImm x =>
    cases h; exact runsLanes_of_alu_wrTy (fun _ => rfl)
  case imad x | bfi x | iabs x | popc x | clz x | brev x | mov x => cases h; exact runsLanes_of_alu_wrTy (fun _ => rfl)
  case lea x | movi64 x => cases h; exact runsLanes_of_alu_wrTy (wide := true) (fun _ => rfl)
  case movi x => cases h; exact runsLanes_of_alu_wrTy (wide := false) (fun _ => rfl)
  case nop g => cases h; exact runsLanes_of_aluOp (fun _ => rfl) (fun _ _ hw => nomatch hw)
  case movs x => cases h; exact movs_runsLanes x
  case iset x | isetImm x | plog x => cases h; exact runsLanes_of_setPred rfl (fun _ => rfl)
  case pmovPut x => cases h; exact runsLanes_of_threadOp (fun _ => rfl) (fun t => Wrote.setPreds t rfl _)
  case fset x => cases h; exact fset_runsLanes x
  case movFromLk x => cases h; exact runsLanes_of_wrTy (wide := true) (fun _ => rfl)
  case sel x | fcls x | braise x => cases h; exact runsLanes_of_wrTy (fun _ => rfl)
  case movToLk x => cases h; exact runsLanes_of_threadOp (fun _ => rfl) (fun t => Wrote.setLk t rfl _)
  case pmovGet x | pk4 x | upk4 x | brd x | flgrd x => cases h; exact runsLanes_of_setReg (fun _ => rfl)
  case flgrdClr x =>
    cases h
    exact runsLanes_of_threadOp (fun _ => rfl) (fun t => (Wrote.setReg t List.mem_cons_self _).trans (.setFlags _ rfl _))
  case budget x => cases h; exact budget_runsLanes x
  case budgetImm x => cases h; exact runsLanes_of_threadOp (fun _ => rfl) (fun t => Wrote.setBud t rfl _)
  case fadd x | fsub x | fmul x | ffma x | frnd x | frcp x | frsq x | fsqrt x | fexp2 x | flog2 x | fscl x =>
    cases h; exact runsLanes_of_deliver rfl (fun _ => rfl)
  case fmin x | fmax x | cvt x | cvtiF2i x | cvtiI2f x => cases h; exact runsLanes_of_deliverFree (fun _ => rfl)
  all_goals exact nomatch h

/-! ## The statement -/

/-- A group after its lanes have written their threads and it has gone on. -/
theorem frame_of_advance {i : Instr} {ds : List Nat} {s u : State} {g : Group} (h : LanesWrote i ds g.members s u) (gid : Nat) :
    let t := advance u gid
    t.mem = s.mem ∧ t.coreGroups = s.coreGroups ∧ t.quadGroups = s.quadGroups ∧ t.clusterGroups = s.clusterGroups
    ∧ t.launches = s.launches ∧ t.frags = s.frags ∧ t.parts = s.parts ∧ t.pkg = s.pkg ∧ t.host = s.host ∧ t.boot = s.boot
    ∧ (∀ wk w, Map.get? s.warps wk = some w → ∃ v, Map.get? t.warps wk = some v ∧ sameWarp w v)
    ∧ ∀ k x, getThread s k = some x → ∃ y, getThread t k = some y ∧ (k ∉ g.members → sameValues x y) ∧ keepsBut i ds x y := by
  obtain ⟨hrest, hthread, hother⟩ := h
  have hst := Stands.advance u gid
  refine ⟨?_, ?_, ?_, ?_, ?_, ?_, ?_, ?_, ?_, ?_, fun wk w hw => ?_, fun k x hx => ?_⟩
  iterate 10 rw [hst.rest, hrest]
  · obtain ⟨v, hv, hwv⟩ := hst.getWarp (wk := wk) (w := w) (by rw [hrest]; exact hw)
    refine ⟨v, hv, ?_⟩
    rw [hwv]
    exact ⟨rfl, rfl, rfl, rfl, rfl⟩
  · obtain ⟨y, hy, hxy⟩ := getThread_of_rel (hthread k) hx
    obtain ⟨z, hz, hyz⟩ := hst.get hy
    refine ⟨z, hz, fun hk => ?_, hxy.keepsBut hyz⟩
    rw [hother k hk, hx] at hy
    cases hy
    exact hyz.sameValues

theorem activeOf_subset_members (s : State) (g : Group) (gd : Guard) : activeOf s g gd ⊆ g.members :=
  fun _ hk => List.mem_of_mem_filter (List.mem_of_mem_filter hk)

theorem LanesWrote.mono {i : Instr} {ds ks ls : List Nat} {s t : State} (h : LanesWrote i ds ks s t) (hs : ks ⊆ ls) :
    LanesWrote i ds ls s t :=
  ⟨h.rest, h.thread, fun k hk => h.other k (fun e => hk (hs e))⟩

/-- No budget in mode 1 is breached by any bound: a checked result then completes. -/
def NeverBreaches (i : Instr) (x : Thread) : Prop := checksBudget i = true → budMode x.bud = 1 → ∀ b, breaches x.bud b = false

/-- The instructions that check a result leave the budget state. -/
theorem writesBud_of_checksBudget {i : Instr} (h : checksBudget i = true) : writesBud i = false := by
  cases i
  case fadd | fsub | fmul | ffma | frnd | fscl | frcp | frsq | fsqrt | fexp2 | flog2 => rfl
  all_goals exact nomatch h

theorem laneWrites_quiet {i : Instr} {ds : List Nat} {t : Thread} {r : Except FInfo Thread} (h : LaneWrites i ds t r)
    (hn : NeverBreaches i t) : ∃ u, r = .ok u ∧ NeverBreaches i u := by
  cases r with
  | ok u =>
    refine ⟨u, rfl, fun hc => ?_⟩
    rw [Wrote.bud h (writesBud_of_checksBudget hc)]
    exact hn hc
  | error e =>
    obtain ⟨hc, hm, b, hb⟩ := h
    rw [hn hc hm b] at hb
    exact nomatch hb

/-- A register-only instruction that breaches no budget completes in every lane. -/
theorem exec_advances_of_dests {i : Instr} {ds : List Nat} {s t : State} {gid : Nat} {g : Group} (hi : dests i = some ds) (hat : At s gid g)
    (hn : ∀ k ∈ g.members, ∀ x, getThread s k = some x → NeverBreaches i x) (h : exec i s = .next t) :
    ∃ u, LanesWrote i ds g.members s u ∧ t = advance u gid := by
  obtain ⟨gd, F, hex, hF⟩ := runsLanes_of_dests hi s gid g hat
  have hsub := activeOf_subset_members s g gd
  refine ⟨_, (foldLanes_ownLane_wrote hF (activeOf s g gd) s).mono hsub, ?_⟩
  rw [hex] at h
  cases h
  rw [threadOp, laneOp_at gd _ hat,
    foldLanes_ownLane_quiet (fun x hx => laneWrites_quiet (hF x) hx) _ (fun k hk => hn k (hsub hk)), splitFaults_nil]

/-- Whatever it does, its lanes write their threads, or, under exhaustion, none does; what follows leaves the values. -/
theorem exec_keepsData_of_dests {i : Instr} {ds : List Nat} {s t : State} {gid : Nat} {g : Group}
    (hi : dests i = some ds) (hat : At s gid g) (h : exec i s = .next t) : ∃ u, LanesWrote i ds g.members s u ∧ KeepsData u t := by
  obtain ⟨gd, F, hex, hF⟩ := runsLanes_of_dests hi s gid g hat
  have hlanes := (foldLanes_ownLane_wrote hF (activeOf s g gd) s).mono (activeOf_subset_members s g gd)
  rw [hex] at h
  cases h
  rw [threadOp, laneOp_at gd _ hat]
  rcases splitFaults_keepsData s (foldLanes (ownLane F) (activeOf s g gd) s).1 gid g (foldLanes (ownLane F) (activeOf s g gd) s).2 false
    with hk | hk
  · exact ⟨_, hlanes, hk⟩
  · exact ⟨s, ⟨rfl, fun _ => rel_refl Wrote.refl _, fun _ _ => rfl⟩, hk⟩

/-- Settles O56: a register-only instruction runs lane by lane (`runsLanes_of_dests`), each lane writes its own thread, and what follows
moves the group on or takes an exception, which leaves every thread's values (`KeepsData`). -/
theorem registerFrame : Obligations.RegisterFrame := by
  constructor
  · intro i ds s gid g t hi hat hn h
    obtain ⟨u, hu, rfl⟩ := exec_advances_of_dests hi hat (fun k hk x hx hc => hn hc k hk x hx) h
    exact frame_of_advance hu gid
  · intro i ds s gid g t hi hat h
    obtain ⟨u, ⟨hrest, hthread, hother⟩, hq, hl, hh, hb, hdata⟩ := exec_keepsData_of_dests hi hat h
    rw [hrest] at hq hl hh hb
    refine ⟨hq, hl, hh, hb, fun k x hx => ?_⟩
    obtain ⟨y, hy, hxy⟩ := getThread_of_rel (hthread k) hx
    obtain ⟨z, hz, hyz⟩ := getThread_of_rel (hdata k) hy
    refine ⟨z, hz, hxy.keepsValues hyz, fun hk => ?_⟩
    rw [hother k hk, hx] at hy
    cases hy
    exact hyz

end Sys2Proof.Laws



/-! SUPPORT. Dyadic reals as rationals: what the exact operations, comparisons and the ceiling of the model mean. -/

namespace Sys2Proof.Laws

open Sys2Proof.Machine

/-- The real m·2^e that a dyadic real stands for. -/
def dyVal (a : Dy) : ℚ := a.m * 2 ^ a.e

theorem two_zpow_pos (e : Int) : (0 : ℚ) < 2 ^ e := zpow_pos two_pos e

/-- A power of two over a lower one is a whole number. -/
theorem two_pow_toNat_mul {e f : Int} (h : f ≤ e) : ((2 : ℚ) ^ (e - f).toNat) * 2 ^ f = 2 ^ e := by
  rw [← zpow_natCast, Int.toNat_of_nonneg (by omega), ← zpow_add₀ two_ne_zero, sub_add_cancel]

theorem dyAt_mul (a : Dy) {e : Int} (h : e ≤ a.e) : (dyAt a e : ℚ) * 2 ^ e = dyVal a := by
  rw [dyAt, Int.cast_mul, Int.cast_pow, mul_assoc, dyVal]
  exact congrArg _ (two_pow_toNat_mul h)

theorem dyLe_iff (a b : Dy) : dyLe a b = true ↔ dyVal a ≤ dyVal b := by
  rw [dyLe, decide_eq_true_eq, ← dyAt_mul a (min_le_left a.e b.e), ← dyAt_mul b (min_le_right a.e b.e),
    mul_le_mul_iff_left₀ (two_zpow_pos _), Int.cast_le]

theorem dyLt_iff (a b : Dy) : dyLt a b = true ↔ dyVal a < dyVal b := by
  rw [dyLt, decide_eq_true_eq, ← dyAt_mul a (min_le_left a.e b.e), ← dyAt_mul b (min_le_right a.e b.e),
    mul_lt_mul_iff_left₀ (two_zpow_pos _), Int.cast_lt]

theorem dyEq_iff (a b : Dy) : dyEq a b = true ↔ dyVal a = dyVal b := by
  rw [dyEq, decide_eq_true_eq, ← dyAt_mul a (min_le_left a.e b.e), ← dyAt_mul b (min_le_right a.e b.e),
    mul_left_inj' (two_zpow_pos _).ne', Int.cast_inj]

theorem dyCeil_eq (a : Dy) : dyCeil a = ⌈dyVal a⌉ := by
  unfold dyCeil dyVal
  split
  · next h =>
    rw [← Int.ceil_intCast (R := ℚ) (a.m * 2 ^ a.e.toNat), Int.cast_mul, Int.cast_pow, ← zpow_natCast, Int.toNat_of_nonneg h]
    rfl
  · next h =>
    have he : (2 : ℚ) ^ a.e = (((2 ^ (-a.e).toNat : Nat) : ℚ))⁻¹ := by
      rw [Nat.cast_pow, ← zpow_natCast, Int.toNat_of_nonneg (by omega), ← zpow_neg, neg_neg]
      rfl
    rw [he, ← div_eq_mul_inv, Rat.ceil_intCast_div_natCast, Nat.cast_pow]
    rfl

/-- A real is between its binary exponent's power of two and the next. -/
theorem two_zpow_dyLog_le {a : Dy} (h : 0 < a.m) : 2 ^ dyLog a ≤ dyVal a ∧ dyVal a < 2 ^ (dyLog a + 1) := by
  obtain ⟨m, hm⟩ := Int.eq_ofNat_of_zero_le h.le
  have hlog : dyLog a = (Nat.log2 m : Int) + a.e := by rw [dyLog, hm, Int.natAbs_natCast]
  have hne : m ≠ 0 := by omega
  rw [hlog, dyVal, hm, add_right_comm, zpow_add₀ two_ne_zero, zpow_add₀ two_ne_zero (_ + 1), Int.cast_natCast,
    mul_le_mul_iff_left₀ (two_zpow_pos _), mul_lt_mul_iff_left₀ (two_zpow_pos _)]
  exact ⟨by exact_mod_cast Nat.log2_self_le hne, by exact_mod_cast Nat.lt_log2_self⟩

end Sys2Proof.Laws



/-! Bounds round up to the least code, and values in the four directions (R57, R60). -/

namespace Sys2Proof.Laws

open Sys2Proof.Machine Sys2Proof.Claims

/-! ## BND16 codes (R56) -/

/-- A finite code as a significand n in units of 2^q: q is the least exponent, or n has nine bits. -/
structure BndParts (c : Nat) (q n : Int) : Prop where
  code : c = (q + 134) * 256 + n
  low : -134 ≤ q
  full : -134 < q → 256 ≤ n
  nonneg : 0 ≤ n
  lt : n < 512

theorem exists_bndParts {c : Nat} : ∃ q n, BndParts c q n := by
  by_cases h : c < 256
  · exact ⟨-134, c, by omega, by omega, by omega, by omega, by omega⟩
  · exact ⟨(c / 256 : Nat) - 135, 256 + (c % 256 : Nat), by omega, by omega, by omega, by omega, by omega⟩

/-- The real of a finite code. -/
theorem bdOf_of_parts {c : BitVec 16} {q n : Int} (h : BndParts c.toNat q n) (hc : c.toNat < 0xFF00) : bdOf c = some ⟨n, q⟩ := by
  obtain ⟨hcode, hlow, hfull, hnonneg, hlt⟩ := h
  unfold bdOf
  dsimp only
  rw [if_neg (by omega)]
  split
  · exact congrArg some (Dy.mk.injEq .. ▸ ⟨by omega, by omega⟩)
  · exact congrArg some (Dy.mk.injEq .. ▸ ⟨by omega, by omega⟩)

theorem bdOf_of_le {c : BitVec 16} (hc : 0xFF00 ≤ c.toNat) : bdOf c = none := by
  unfold bdOf
  exact if_pos (by omega)

/-- A code of parts whose significand may be the next power of two is a code of parts. -/
theorem bdOf_ofNat {q n : Int} (hlow : -134 ≤ q) (hfull : -134 < q → 256 ≤ n) (h0 : 0 ≤ n) (h512 : n ≤ 512)
    (hc : (q + 134) * 256 + n < 0xFF00) :
    ∃ d, bdOf (BitVec.ofNat 16 ((q + 134) * 256 + n).toNat) = some d ∧ dyVal d = n * 2 ^ q := by
  have hto : (BitVec.ofNat 16 ((q + 134) * 256 + n).toNat).toNat = ((q + 134) * 256 + n).toNat := by
    rw [BitVec.toNat_ofNat, Nat.mod_eq_of_lt (by omega)]
  rcases h512.lt_or_eq with hn | rfl
  · exact ⟨_, bdOf_of_parts (q := q) (n := n) ⟨by omega, hlow, hfull, h0, hn⟩ (by omega), rfl⟩
  · refine ⟨_, bdOf_of_parts (q := q + 1) (n := 256) ⟨by omega, by omega, by omega, by omega, by omega⟩ (by omega), ?_⟩
    rw [dyVal, zpow_add₀ two_ne_zero]
    push_cast
    ring

/-! ## up() (R57) -/

/-- The units of up(), and how many of them. -/
def upQ (a : Dy) : Int := max (dyLog a - 8) (-134)
def upN (a : Dy) : Int := dyCeil ⟨a.m, a.e - upQ a⟩

theorem upDy_of_pos {a : Dy} (h : 0 < a.m) :
    upDy a = if 0xFF00 ≤ (upQ a + 134) * 256 + upN a then bndInf else BitVec.ofNat 16 ((upQ a + 134) * 256 + upN a).toNat := by
  unfold upDy
  rw [if_neg (by omega)]
  rfl

/-- The count of units is the least whose real is not below. -/
theorem upN_le_iff (a : Dy) (n : Int) : upN a ≤ n ↔ dyVal a ≤ n * 2 ^ upQ a := by
  have hval : dyVal ⟨a.m, a.e - upQ a⟩ = dyVal a / 2 ^ upQ a := by rw [dyVal, dyVal, zpow_sub₀ two_ne_zero, mul_div_assoc]
  rw [upN, dyCeil_eq, hval, Int.ceil_le, div_le_iff₀ (two_zpow_pos _)]

theorem dyVal_le_upN (a : Dy) : dyVal a ≤ upN a * 2 ^ upQ a := (upN_le_iff a _).mp le_rfl

/-- Above the least exponent a real has nine bits or more in units. -/
theorem two_zpow_le_of_upQ {a : Dy} (h : 0 < a.m) (hq : -134 < upQ a) : 2 ^ (upQ a + 8) ≤ dyVal a := by
  have hlog : upQ a + 8 = dyLog a := by unfold upQ at *; omega
  rw [hlog]
  exact (two_zpow_dyLog_le h).1

theorem upN_le (a : Dy) (h : 0 < a.m) : upN a ≤ 512 := by
  refine (upN_le_iff a _).mpr ((two_zpow_dyLog_le h).2.le.trans ?_)
  rw [show ((512 : Int) : ℚ) = 2 ^ (9 : Int) by norm_num, ← zpow_add₀ two_ne_zero]
  exact zpow_le_zpow_right₀ one_le_two (by unfold upQ; omega)

theorem le_upN {a : Dy} (h : 0 < a.m) (hq : -134 < upQ a) : 256 ≤ upN a := by
  by_contra hn
  have hle : dyVal a ≤ ((255 : Int) : ℚ) * 2 ^ upQ a := (upN_le_iff a 255).mp (by omega)
  have hge := two_zpow_le_of_upQ h hq
  rw [zpow_add₀ two_ne_zero] at hge
  have hpos := two_zpow_pos (upQ a)
  norm_num at hle hge
  linarith

theorem upN_nonneg {a : Dy} (h : 0 < a.m) : 0 ≤ upN a := by
  have hpos : 0 < dyVal a := mul_pos (by exact_mod_cast h) (two_zpow_pos _)
  by_contra hn
  have hle := (upN_le_iff a 0).mp (by omega)
  norm_num at hle
  linarith

/-- Codes rise with the reals they hold: one whose real is not below has not fewer units. -/
theorem upCode_le {a : Dy} (h : 0 < a.m) {c : Nat} {q n : Int} (hc : BndParts c q n) (ha : dyVal a ≤ n * 2 ^ q) :
    (upQ a + 134) * 256 + upN a ≤ c := by
  obtain ⟨hcode, hlow, hfull, hnonneg, hlt⟩ := hc
  rw [hcode]
  rcases lt_trichotomy q (upQ a) with hq | rfl | hq
  · exfalso
    have hge := two_zpow_le_of_upQ h (hlow.trans_lt hq)
    have hn : (n : ℚ) < 2 ^ (9 : Int) := by
      have h9 : ((512 : Int) : ℚ) = 2 ^ (9 : Int) := by norm_num
      exact h9 ▸ Int.cast_lt.mpr hlt
    have hlt : (n : ℚ) * 2 ^ q < 2 ^ (9 + q) := by
      rw [zpow_add₀ two_ne_zero]
      exact mul_lt_mul_of_pos_right hn (two_zpow_pos q)
    have hle : (2 : ℚ) ^ (9 + q) ≤ 2 ^ (upQ a + 8) := zpow_le_zpow_right₀ one_le_two (by omega)
    linarith
  · have hn := (upN_le_iff a n).mpr ha
    omega
  · have hn := upN_le a h
    have hlo : -134 ≤ upQ a := le_max_right ..
    have hfull := hfull (by omega)
    omega

theorem bdLe_some_iff (a d : Dy) : bdLe (some a) (some d) = true ↔ dyVal a ≤ dyVal d := dyLe_iff a d

/-- up() is not below. -/
theorem bdLe_upDy {a : Dy} (h : 0 ≤ a.m) : bdLe (some a) (bdOf (upDy a)) = true := by
  rcases h.eq_or_lt with h0 | h
  · have hup : upDy a = 0 := if_pos h0.ge
    rw [hup]
    refine (bdLe_some_iff a ⟨0, -134⟩).mpr ?_
    simp [dyVal, ← h0]
  rw [upDy_of_pos h]
  split
  · rfl
  · next hc =>
    obtain ⟨d, hd, hval⟩ := bdOf_ofNat (q := upQ a) (le_max_right ..) (le_upN h) (upN_nonneg h) (upN_le a h) (not_le.mp hc)
    rw [hd, bdLe_some_iff, hval]
    exact dyVal_le_upN a

/-- And no lower code is. -/
theorem upDy_le {a : Dy} (h : 0 ≤ a.m) {c : BitVec 16} (hc : c.toNat ≤ 0xFF00) (ha : bdLe (some a) (bdOf c) = true) :
    (upDy a).toNat ≤ c.toNat := by
  rcases h.eq_or_lt with h0 | h
  · have hup : upDy a = 0 := if_pos h0.ge
    rw [hup]
    exact Nat.zero_le _
  have hlo : -134 ≤ upQ a := le_max_right ..
  have hn := upN_nonneg h
  have hcode : c.toNat < 0xFF00 → (upQ a + 134) * 256 + upN a ≤ c.toNat := fun hlt => by
    obtain ⟨q, n, hp⟩ := exists_bndParts (c := c.toNat)
    rw [bdOf_of_parts hp hlt, bdLe_some_iff] at ha
    exact upCode_le h hp ha
  rw [upDy_of_pos h]
  split
  · have hinf : bndInf.toNat = 0xFF00 := rfl
    omega
  · rw [BitVec.toNat_ofNat, Nat.mod_eq_of_lt (by omega)]
    omega

/-! ## up() of a binary32 (R57) -/

theorem f32Of_eq (w : Word) : f32Of w =
    if w.toNat / 2 ^ 23 % 2 ^ 8 = 2 ^ 8 - 1 then
      if w.toNat % 2 ^ 23 = 0 then .inf (w.toNat / 2 ^ 31 % 2 == 1) else .nan (decide (w.toNat % 2 ^ 23 < 2 ^ 22) && true)
    else if w.toNat / 2 ^ 23 % 2 ^ 8 = 0 then .fin (w.toNat / 2 ^ 31 % 2 == 1) (w.toNat % 2 ^ 23) (-149)
    else .fin (w.toNat / 2 ^ 31 % 2 == 1) (2 ^ 23 + w.toNat % 2 ^ 23) (-126 + ((w.toNat / 2 ^ 23 % 2 ^ 8 : Nat) - 1 : Int) - 23) := rfl

theorem fvMag_f32Of_of_le {w : Word} (h : 0x7F800000 ≤ w.toNat % 2 ^ 31) : fvMag (f32Of w) = none := by
  rw [f32Of_eq, if_pos (by omega)]
  split <;> rfl

/-- Dropping fifteen bits upward. -/
theorem dyCeil_shift (m : Nat) : dyCeil ⟨m, -15⟩ = ((m / 2 ^ 15 + if m % 2 ^ 15 = 0 then 0 else 1 : Nat) : Int) := by
  have hceil : dyCeil ⟨m, -15⟩ = -(-(m : Int) / 2 ^ 15) := rfl
  rw [hceil]
  split <;> omega

/-- A code in whose units a real has fifteen bits below, rounded up. -/
theorem toNat_upDy {m : Nat} (h : m ≠ 0) {e : Int} (hq : upQ ⟨m, e⟩ = e + 15) {c : Nat} (hc : c < 0xFF00)
    (hcode : (c : Int) = (e + 149) * 256 + (m / 2 ^ 15 : Nat)) :
    (upDy ⟨m, e⟩).toNat = c + if m % 2 ^ 15 = 0 then 0 else 1 := by
  have hn : upN ⟨m, e⟩ = ((m / 2 ^ 15 + if m % 2 ^ 15 = 0 then 0 else 1 : Nat) : Int) := by
    rw [upN, hq, ← dyCeil_shift, show e - (e + 15) = -15 by omega]
  rw [upDy_of_pos (by simpa using Nat.pos_of_ne_zero h), hn, hq]
  have hle : (if m % 2 ^ 15 = 0 then 0 else 1) ≤ 1 := by split <;> omega
  generalize (if m % 2 ^ 15 = 0 then 0 else 1) = up at hle
  have hsum : (e + 15 + 134) * 256 + ((m / 2 ^ 15 + up : Nat) : Int) = ((c + up : Nat) : Int) := by omega
  rw [hsum, Int.toNat_natCast]
  split
  · have hinf : bndInf.toNat = 0xFF00 := rfl
    omega
  · rw [BitVec.toNat_ofNat, Nat.mod_eq_of_lt (by omega)]

theorem toNat_upBd_f32 {w : Word} (h : w.toNat < 0x7F800000) :
    (upBd (fvMag (f32Of w))).toNat = w.toNat / 2 ^ 15 + if w.toNat % 2 ^ 15 = 0 then 0 else 1 := by
  have hex : w.toNat / 2 ^ 23 % 2 ^ 8 = w.toNat / 2 ^ 23 := by omega
  rw [f32Of_eq, hex, if_neg (by omega)]
  by_cases h0 : w.toNat / 2 ^ 23 = 0
  · have hw : w.toNat % 2 ^ 23 = w.toNat := by omega
    rw [if_pos h0, hw]
    change (upDy ⟨(w.toNat : Int), -149⟩).toNat = _
    rcases Nat.eq_zero_or_pos w.toNat with hz | hpos
    · rw [hz, upDy, if_pos (by simp)]
      rfl
    · have hlog : Nat.log2 w.toNat < 23 := (Nat.log2_lt (by omega)).mpr (by omega)
      refine toNat_upDy (by omega) ?_ (by omega) (by omega)
      simp only [upQ, dyLog, Int.natAbs_natCast]
      omega
  · have hlog : Nat.log2 (2 ^ 23 + w.toNat % 2 ^ 23) = 23 := (Nat.log2_eq_iff (by omega)).mpr ⟨by omega, by omega⟩
    have hmod : (2 ^ 23 + w.toNat % 2 ^ 23) % 2 ^ 15 = w.toNat % 2 ^ 15 := by omega
    rw [if_neg h0, ← hmod]
    refine toNat_upDy (by omega) ?_ (by omega) (by omega)
    simp only [upQ, dyLog, Int.natAbs_natCast, hlog]
    omega

/-! ## The four directions (R60) -/

/-- Whether the upper neighbour is taken of n + r/d units, r > 0. -/
def roundsUp (rnd : Rnd) (neg : Bool) (n r d : Nat) (flip : Bool) : Bool :=
  match rnd with
  | .rtz => false
  | .rdn => neg
  | .rup => !neg
  | .rne => if 2 * r = d then (n % 2 == 1) != flip else decide (d < 2 * r)

theorem roundUnits_of_le {e q : Int} (h : q ≤ e) (rnd : Rnd) (neg : Bool) (m : Nat) (flip : Bool) :
    roundUnits rnd neg m e q flip = (m * 2 ^ (e - q).toNat, false) := if_pos h

theorem roundUnits_of_lt {e q : Int} (h : e < q) (rnd : Rnd) (neg : Bool) (m : Nat) (flip : Bool) :
    let d := 2 ^ (q - e).toNat
    roundUnits rnd neg m e q flip = if m % d = 0 then (m / d, false)
      else (if roundsUp rnd neg (m / d) (m % d) d flip then m / d + 1 else m / d, true) := if_neg (by omega)

/-- A rounding that drops bits: what it takes, beside the quotient and the remainder. -/
theorem roundUnits_cases {e q : Int} (h : e < q) (rnd : Rnd) (neg : Bool) (m : Nat) (flip : Bool) :
    let d := 2 ^ (q - e).toNat
    ∃ n r, m = n * d + r ∧ r < d ∧ m % d = r ∧
      ((r = 0 ∧ roundUnits rnd neg m e q flip = (n, false))
        ∨ (r ≠ 0 ∧ roundsUp rnd neg n r d flip = true ∧ roundUnits rnd neg m e q flip = (n + 1, true))
        ∨ (r ≠ 0 ∧ roundsUp rnd neg n r d flip = false ∧ roundUnits rnd neg m e q flip = (n, true))) := by
  intro d
  refine ⟨m / d, m % d, (Nat.div_add_mod' m d).symm, Nat.mod_lt _ (Nat.two_pow_pos _), rfl, ?_⟩
  have hr := roundUnits_of_lt h rnd neg m flip
  dsimp only at hr
  by_cases h0 : m % d = 0
  · exact .inl ⟨h0, hr.trans (if_pos h0)⟩
  · rw [if_neg h0] at hr
    cases hup : roundsUp rnd neg (m / d) (m % d) d flip
    · exact .inr (.inr ⟨h0, rfl, by rw [hr, hup]; rfl⟩)
    · exact .inr (.inl ⟨h0, rfl, by rw [hr, hup]; rfl⟩)

/-- To nearest, the remainder decides, and at a tie the parity. -/
theorem roundsUp_rne {n r d : Nat} {neg b : Bool} (h : roundsUp .rne neg n r d false = b) :
    (2 * r = d ∧ (n % 2 = 1 ↔ b = true)) ∨ (2 * r ≠ d ∧ (d < 2 * r ↔ b = true)) := by
  change (if 2 * r = d then _ else _) = b at h
  by_cases htie : 2 * r = d
  · rw [if_pos htie] at h
    exact .inl ⟨htie, by simp [← h]⟩
  · rw [if_neg htie] at h
    exact .inr ⟨htie, by simp [← h]⟩

/-- Each direction, by the cases of `roundUnits_cases`. -/
theorem roundingDirections : RoundingDirections := by
  intro rnd neg m e q h
  obtain ⟨n, r, hm, hr, hmod, hcase⟩ := roundUnits_cases h rnd neg m false
  dsimp only
  generalize 2 ^ (q - e).toNat = d at *
  rw [hmod]
  rcases hcase with ⟨h0, hround⟩ | ⟨h0, hup, hround⟩ | ⟨h0, hup, hround⟩
  · rw [hround]
    simp only [Nat.add_mul, Nat.mul_assoc, Nat.one_mul]
    refine ⟨by simp [h0], fun _ => by omega, fun _ => by split <;> omega, fun _ => by split <;> omega, fun _ => by omega⟩
  · rw [hround]
    simp only [Nat.add_mul, Nat.mul_assoc, Nat.one_mul, Nat.mul_add]
    refine ⟨by simp [h0], ?_, ?_, ?_, ?_⟩
    · rintro rfl; exact nomatch hup
    · rintro rfl; cases neg
      · exact nomatch hup
      · simp only [if_true]; omega
    · rintro rfl; cases neg
      · simp only [if_false, Bool.false_eq_true]; omega
      · exact nomatch hup
    · rintro rfl
      have hside := roundsUp_rne hup
      simp only [iff_true] at hside
      omega
  · rw [hround]
    simp only [Nat.add_mul, Nat.mul_assoc, Nat.one_mul]
    refine ⟨by simp [h0], fun _ => by omega, ?_, ?_, ?_⟩
    · rintro rfl; cases neg
      · simp only [if_false, Bool.false_eq_true]; omega
      · exact nomatch hup
    · rintro rfl; cases neg
      · exact nomatch hup
      · simp only [if_true]; omega
    · rintro rfl
      have hside := roundsUp_rne hup
      simp only [Bool.false_eq_true, iff_false] at hside
      omega

/-- Settles O12: up() is not below (`bdLe_upDy`) and no lower code is (`upDy_le`); the directions by the quotient and the remainder. -/
theorem boundRounding : Obligations.BoundRounding := by
  refine ⟨⟨fun a h => ⟨bdLe_upDy h, fun c hc ha => upDy_le h hc ha⟩, fun w h => toNat_upBd_f32 h, fun w h => ?_⟩, roundingDirections⟩
  rw [fvMag_f32Of_of_le h]
  rfl

end Sys2Proof.Laws



/-! SUPPORT. A rounding as the conversions deliver it (R60): on which side its value lies, when it is exact, its flags. -/

namespace Sys2Proof.Laws

open Sys2Proof.Machine Sys2Proof.Claims

/-! ## Signs -/

@[simp] theorem dyAbs_fvDy (n : Bool) (m : Nat) (e : Int) : dyAbs (fvDy (.fin n m e)) = ⟨m, e⟩ := by
  cases n <;> simp [dyAbs, fvDy]

theorem dyVal_fvDy (n : Bool) (m : Nat) (e : Int) : dyVal (fvDy (.fin n m e)) = if n then -dyVal ⟨m, e⟩ else dyVal ⟨m, e⟩ := by
  cases n <;> simp [dyVal, fvDy]

/-- A zero's sign is not seen in its real. -/
theorem dyVal_fvDy_zero_sign (n b : Bool) (k : Nat) (q : Int) :
    dyVal (fvDy (.fin (n && (k != 0 || b)) k q)) = dyVal (fvDy (.fin n k q)) := by
  by_cases hk : k = 0
  · subst hk
    rw [dyVal_fvDy, dyVal_fvDy]
    simp [dyVal]
  · rw [bne_iff_ne.mpr hk, Bool.true_or, Bool.and_true]

/-! ## The side and the exact case -/

/-- k units of 2^q, in units of a lower power. -/
theorem dyVal_units {e q : Int} (h : e ≤ q) (k : Nat) : dyVal ⟨k, q⟩ = dyVal ⟨((k * 2 ^ (q - e).toNat : Nat) : Int), e⟩ := by
  unfold dyVal
  push_cast
  rw [mul_assoc, two_pow_toNat_mul h]

theorem dyVal_le_iff (a b : Nat) (e : Int) : dyVal ⟨a, e⟩ ≤ dyVal ⟨b, e⟩ ↔ a ≤ b := by
  simp only [dyVal, Int.cast_natCast, mul_le_mul_iff_left₀ (two_zpow_pos e), Nat.cast_le]

theorem dyVal_eq_iff (a b : Nat) (e : Int) : dyVal ⟨a, e⟩ = dyVal ⟨b, e⟩ ↔ a = b := by
  simp only [dyVal, Int.cast_natCast, mul_left_inj' (two_zpow_pos e).ne', Nat.cast_inj]

/-- What a rounding may deliver of a magnitude: the value itself, or a neighbour on the side that the direction names. -/
structure RoundsTo (rnd : Rnd) (neg : Bool) (x z : ℚ) (inex : Bool) : Prop where
  exact_iff : inex = false ↔ z = x
  toward : rnd = .rtz → z ≤ x
  down : rnd = .rdn → if neg then x ≤ z else z ≤ x
  up : rnd = .rup → if neg then z ≤ x else x ≤ z

theorem roundsTo_self (rnd : Rnd) (neg : Bool) (x : ℚ) : RoundsTo rnd neg x x false :=
  ⟨iff_of_true rfl rfl, fun _ => le_rfl, fun _ => by split <;> exact le_rfl, fun _ => by split <;> exact le_rfl⟩

/-- A lower neighbour, which the directions up do not take. -/
theorem roundsTo_of_lt {rnd : Rnd} {neg : Bool} {x z : ℚ} (h : z < x) (hd : rnd = .rdn → neg = false) (hu : rnd = .rup → neg = true) :
    RoundsTo rnd neg x z true :=
  ⟨iff_of_false (by decide) h.ne, fun _ => h.le, fun e => by rw [hd e]; exact h.le, fun e => by rw [hu e]; exact h.le⟩

/-- An upper one. -/
theorem roundsTo_of_gt {rnd : Rnd} {neg : Bool} {x z : ℚ} (h : x < z) (ht : rnd ≠ .rtz) (hd : rnd = .rdn → neg = true)
    (hu : rnd = .rup → neg = false) : RoundsTo rnd neg x z true :=
  ⟨iff_of_false (by decide) h.ne', fun e => absurd e ht, fun e => by rw [hd e]; exact h.le, fun e => by rw [hu e]; exact h.le⟩

theorem roundUnits_roundsTo (rnd : Rnd) (neg : Bool) (m : Nat) (e q : Int) (flip : Bool) :
    RoundsTo rnd neg (dyVal ⟨m, e⟩) (dyVal ⟨(roundUnits rnd neg m e q flip).1, q⟩) (roundUnits rnd neg m e q flip).2 := by
  rcases lt_or_ge e q with h | h
  · obtain ⟨n, r, hm, hr, -, hcase⟩ := roundUnits_cases h rnd neg m flip
    rcases hcase with ⟨rfl, hround⟩ | ⟨h0, hup, hround⟩ | ⟨h0, hup, hround⟩ <;> rw [hround, dyVal_units h.le]
    · rw [hm]
      exact roundsTo_self ..
    · refine roundsTo_of_gt (not_le.mp (mt (dyVal_le_iff ..).mp ?_)) ?_ ?_ ?_
      · rw [Nat.add_mul]; omega
      all_goals rintro rfl
      · exact nomatch hup
      · exact hup
      · simpa [roundsUp] using hup
    · refine roundsTo_of_lt (not_le.mp (mt (dyVal_le_iff ..).mp ?_)) ?_ ?_
      · dsimp only; omega
      all_goals rintro rfl
      · exact hup
      · simpa [roundsUp] using hup
  · rw [roundUnits_of_le h]
    rw [← dyVal_units h]
    exact roundsTo_self ..

/-- A whole number of units is delivered as it is. -/
theorem roundUnits_exact {rnd : Rnd} {neg : Bool} {m : Nat} {e q : Int} {flip : Bool} {j : Int}
    (h : dyVal ⟨j, q⟩ = dyVal ⟨m, e⟩) : (roundUnits rnd neg m e q flip).2 = false := by
  rcases lt_or_ge e q with hlt | hge
  · obtain ⟨n, r, hm, hr, -, hcase⟩ := roundUnits_cases hlt rnd neg m flip
    have hj : 0 ≤ j := by
      have hx : (0 : ℚ) ≤ dyVal ⟨m, e⟩ := mul_nonneg (by simp) (two_zpow_pos e).le
      rw [← h, dyVal, mul_nonneg_iff_of_pos_right (two_zpow_pos q)] at hx
      exact_mod_cast hx
    lift j to Nat using hj
    rw [dyVal_units hlt.le, dyVal_eq_iff] at h
    have hr0 : r = 0 := by
      have hdvd : 2 ^ (q - e).toNat ∣ n * 2 ^ (q - e).toNat + r := ⟨j, by rw [← hm, ← h, Nat.mul_comm]⟩
      exact Nat.eq_zero_of_dvd_of_lt ((Nat.dvd_add_right (Nat.dvd_mul_left ..)).mp hdvd) hr
    rcases hcase with ⟨-, hround⟩ | ⟨h0, -⟩ | ⟨h0, -⟩
    · rw [hround]
    · exact absurd hr0 h0
    · exact absurd hr0 h0
  · rw [roundUnits_of_le hge]

/-! ## With a sign -/

/-- The side of a signed value. -/
theorem RoundsTo.sideOf {rnd : Rnd} {n : Bool} {m k : Nat} {e q : Int} {inex : Bool} {z : Dy}
    (h : RoundsTo rnd n (dyVal ⟨m, e⟩) (dyVal ⟨k, q⟩) inex) (hz : dyVal z = dyVal (fvDy (.fin n k q))) (ha : dyAbs z = ⟨k, q⟩) :
    SideOf rnd (fvDy (.fin n m e)) z := by
  obtain ⟨-, ht, hd, hu⟩ := h
  refine ⟨fun e => ?_, fun e => ?_, fun e => ?_⟩
  · rw [ha, dyAbs_fvDy, dyLe_iff]
    exact ht e
  · have hd := hd e
    rw [dyLe_iff, hz, dyVal_fvDy, dyVal_fvDy]
    cases n
    · exact hd
    · exact neg_le_neg hd
  · have hu := hu e
    rw [dyLe_iff, hz, dyVal_fvDy, dyVal_fvDy]
    cases n
    · exact hu
    · exact neg_le_neg hu

/-- Signed values are equal with their magnitudes. -/
theorem RoundsTo.dyEq_eq {rnd : Rnd} {n : Bool} {m k : Nat} {e q : Int} {inex : Bool} {z : Dy}
    (h : RoundsTo rnd n (dyVal ⟨m, e⟩) (dyVal ⟨k, q⟩) inex) (hz : dyVal z = dyVal (fvDy (.fin n k q))) :
    dyEq z (fvDy (.fin n m e)) = !inex := by
  rw [Bool.eq_iff_iff, dyEq_iff, hz, dyVal_fvDy, dyVal_fvDy, Bool.not_eq_true', h.exact_iff]
  cases n <;> simp

/-- A unit's multiple that a value equals, as one of its magnitude. -/
theorem dyVal_of_multiple {n : Bool} {m : Nat} {e q : Int} {j : Int} (h : dyEq ⟨j, q⟩ (fvDy (.fin n m e)) = true) :
    dyVal ⟨if n then -j else j, q⟩ = dyVal ⟨m, e⟩ := by
  rw [dyEq_iff, dyVal_fvDy] at h
  cases n
  · exact h
  · simp only [if_true] at h ⊢
    rw [← neg_eq_iff_eq_neg] at h
    rw [← h]
    simp [dyVal]

/-- The flags of a rounding: NX of an inexact value, and UF where `tiny` says so. -/
def inexactFlags (inex tiny : Bool) : Byte := flIf inex flNX ||| flIf (inex && tiny) flUF

theorem inexactFlags_eq (inex tiny : Bool) : inexactFlags inex tiny = if !inex then 0 else if tiny then 0x18 else 0x10 := by
  cases inex <;> cases tiny <;> rfl

/-- A rounding as `Converts` has it: side, flags, and a value that is a whole number of units. -/
theorem rounded_rules (rnd : Rnd) (n b : Bool) (m : Nat) (e q : Int) (flip : Bool) (least : Dy) :
    let r := roundUnits rnd n m e q flip
    let d := fvDy (.fin n m e)
    let z := fvDy (.fin (n && (r.1 != 0 || b)) r.1 q)
    let fl := inexactFlags r.2 (dyLt ⟨r.1, q⟩ least)
    SideOf rnd d z ∧ fl = roundFlags least d z ∧ ∀ j : Int, dyEq ⟨j, q⟩ d = true → dyEq z d = true ∧ fl = 0 := by
  intro r d z fl
  have hr := roundUnits_roundsTo rnd n m e q flip
  have hz : dyVal z = dyVal (fvDy (.fin n r.1 q)) := dyVal_fvDy_zero_sign ..
  have ha : dyAbs z = ⟨r.1, q⟩ := dyAbs_fvDy ..
  have heq : dyEq z d = !r.2 := hr.dyEq_eq hz
  have hfl : fl = roundFlags least d z := by rw [roundFlags, heq, ha]; exact inexactFlags_eq ..
  refine ⟨hr.sideOf hz ha, hfl, fun j hj => ?_⟩
  have hexact : r.2 = false := roundUnits_exact (dyVal_of_multiple hj)
  rw [hfl, roundFlags, heq, hexact]
  exact ⟨rfl, rfl⟩

end Sys2Proof.Laws



/-! Conversions between formats, CVT and CVTI of an integer (R60, R61, R78, R80, R182, R183, Table 3-7): value, flags, code, bound. -/

namespace Sys2Proof.Laws

open Sys2Proof.Machine Sys2Proof.Claims Sys2Proof.Safety

/-! ## What `Converts` asks, by the kind of value -/

/-- The units that a conversion of a magnitude rounds to. -/
def convQ (f : FFmt) (m : Nat) (e : Int) : Int := spacing f (dyLog ⟨m, e⟩)

/-- How many of them it takes, and whether it is inexact. -/
def convUnits (f : FFmt) (rnd : Rnd) (n : Bool) (m : Nat) (e : Int) : Nat × Bool :=
  roundUnits rnd n m e (convQ f m e) (decide (f = .mk8 ∧ dyLog ⟨m, e⟩ = 16))

/-- Whether an overflow goes to infinity under a direction (R61). -/
def overToInf (f : FFmt) (rnd : Rnd) (n : Bool) : Bool := hasInf f && (rnd == .rne || (rnd == .rdn && n) || (rnd == .rup && !n))

/-- The largest finite magnitude, signed. -/
def topOf (f : FFmt) (n : Bool) : FV := .fin n (largest f).m.natAbs (largest f).e

/-- Value and flags of a magnitude that is not zero. -/
def finiteConv (f : FFmt) (rnd : Rnd) (sat n : Bool) (m : Nat) (e : Int) : FV × Byte :=
  let r := convUnits f rnd n m e
  if dyLt (largest f) ⟨r.1, convQ f m e⟩ then
    (if overToInf f rnd n && !sat then .inf n else topOf f n,
      if overToInf f rnd n && !sat || (hasInf f && !overToInf f rnd n) then 0x14 else 0x94)
  else (.fin (n && (r.1 != 0 || f != .mk8)) r.1 (convQ f m e), inexactFlags r.2 (dyLt ⟨r.1, convQ f m e⟩ (leastNormal f)))

theorem converts_nan {f : FFmt} {s : Bool} {v : FV} {fl : Byte} (rnd : Rnd) (sat : Bool)
    (h : if f = .fp4 then v = .fin false 0 0 ∧ fl = 1 else v = .nan false ∧ fl = if s then 1 else 0) :
    Converts f rnd sat (.nan s) v fl :=
  ⟨fun _ e => FV.nan.inj e ▸ h, nofun, nofun, nofun⟩

theorem converts_zero (f : FFmt) (rnd : Rnd) (sat n : Bool) (e : Int) : Converts f rnd sat (.fin n 0 e) (.fin (n && f != .mk8) 0 0) 0 := by
  refine ⟨nofun, nofun, fun _ _ h => ?_, fun _ m _ h hm => ?_⟩
  · cases h
    exact ⟨rfl, rfl⟩
  · cases h
    exact absurd rfl hm

theorem dyLt_eq_not_dyLe (a b : Dy) : dyLt a b = !dyLe b a := by
  rw [Bool.eq_iff_iff, Bool.not_eq_true', ← Bool.not_eq_true, dyLt_iff, dyLe_iff, not_le]

theorem converts_fin {m : Nat} (hm : m ≠ 0) (f : FFmt) (rnd : Rnd) (sat n : Bool) (e : Int) :
    Converts f rnd sat (.fin n m e) (finiteConv f rnd sat n m e).1 (finiteConv f rnd sat n m e).2 := by
  refine ⟨nofun, nofun, fun _ _ h => ?_, fun _ _ _ h _ => ?_⟩
  · cases h
    exact absurd rfl hm
  cases h
  refine ⟨fun hin => ?_, fun hout => ?_⟩
  · have hlt : dyLt (largest f) ⟨(convUnits f rnd n m e).1, convQ f m e⟩ = false := by
      rw [dyLt_eq_not_dyLe]
      exact congrArg not hin
    simp only [finiteConv, hlt, Bool.false_eq_true, if_false]
    exact ⟨rfl, rounded_rules rnd n (f != .mk8) m e (convQ f m e) (decide (f = .mk8 ∧ dyLog ⟨m, e⟩ = 16)) (leastNormal f)⟩
  · have hlt : dyLt (largest f) ⟨(convUnits f rnd n m e).1, convQ f m e⟩ = true := hout
    simp only [finiteConv, hlt, if_true]
    exact ⟨rfl, rfl⟩

/-- A conversion's value and flags are those of Table 3-7, and its code is the value's. -/
def ConvRight (dst : FFmt) (rnd : Rnd) (sat : Bool) (x : FV) (c : Conv) : Prop :=
  Converts dst rnd sat x c.v c.fl ∧ c.code = codeOf dst c.v

/-! ## The formats with an infinity -/

/-- What the statement's tables say of an IEEE format is what the model's parameters say. -/
theorem ieee_tables {dst : FFmt} {f : IFmt} (h : ffI dst = some f) :
    (∀ E, spacing dst E = fmtQ f E) ∧ largest dst = fmtMax f ∧ leastNormal dst = dyPow f.emin ∧ hasInf dst = true
      ∧ (dst != .mk8) = true ∧ (∀ n, topOf dst n = .fin n (2 ^ f.p - 1) (f.emax - (f.p - 1 : Int))) ∧ codeOf dst = encI f := by
  cases dst <;> cases h <;> exact ⟨fun _ => rfl, rfl, rfl, rfl, rfl, fun _ => rfl, rfl⟩

/-- A conversion to one of them. -/
theorem convTo_ieee {dst : FFmt} {f : IFmt} (h : ffI dst = some f) (rnd : Rnd) (sat : Bool) (x : FV) :
    convTo dst rnd sat x = match x with
      | .nan s => ⟨encI f x, .nan false, flIf s flNV⟩
      | .inf n => if sat then ⟨encI f (topOf dst n), topOf dst n, flSA⟩ else ⟨encI f x, x, 0⟩
      | .fin n m e =>
        let r := roundI f rnd n m e
        if sat && fvIsInf r.v then ⟨encI f (topOf dst n), topOf dst n, r.fl ||| flSA⟩ else ⟨encI f r.v, r.v, r.fl⟩ := by
  cases dst <;> cases h <;> rcases x with (_ | _) | _ | _ <;> rfl

theorem roundI_of_ne {dst : FFmt} {f : IFmt} (h : ffI dst = some f) {m : Nat} (hm : m ≠ 0) (rnd : Rnd) (n : Bool) (e : Int) :
    let r := convUnits dst rnd n m e
    roundI f rnd n m e = if dyLt (largest dst) ⟨r.1, convQ dst m e⟩ then ⟨overflowI f rnd n, 0x14, true⟩
      else ⟨.fin n r.1 (convQ dst m e), inexactFlags r.2 (dyLt ⟨r.1, convQ dst m e⟩ (leastNormal dst)), false⟩ := by
  obtain ⟨hq, hmax, hleast, -, hmk, -⟩ := ieee_tables h
  have hflip : decide (dst = .mk8 ∧ dyLog ⟨m, e⟩ = 16) = false := decide_eq_false (fun e => bne_iff_ne.mp hmk e.1)
  simp only [roundI, if_neg hm, convUnits, convQ, hflip, hmax, hleast, hq]
  rfl

theorem overflowI_eq {dst : FFmt} {f : IFmt} (h : ffI dst = some f) (rnd : Rnd) (n : Bool) :
    overflowI f rnd n = if overToInf dst rnd n then .inf n else topOf dst n := by
  obtain ⟨-, -, -, hinf, -, htop, -⟩ := ieee_tables h
  rw [overToInf, hinf, htop]
  cases rnd <;> cases n <;> rfl

theorem convTo_ieee_fin {dst : FFmt} {f : IFmt} (h : ffI dst = some f) {m : Nat} (hm : m ≠ 0) (rnd : Rnd) (sat n : Bool) (e : Int) :
    convTo dst rnd sat (.fin n m e)
      = ⟨encI f (finiteConv dst rnd sat n m e).1, (finiteConv dst rnd sat n m e).1, (finiteConv dst rnd sat n m e).2⟩ := by
  obtain ⟨-, -, -, hinf, hmk, -⟩ := ieee_tables h
  simp only [convTo_ieee h, roundI_of_ne h hm, overflowI_eq h, finiteConv, hinf, hmk, Bool.or_true, Bool.and_true, Bool.true_and]
  cases dyLt (largest dst) ⟨(convUnits dst rnd n m e).1, convQ dst m e⟩
  · cases sat <;> rfl
  · cases overToInf dst rnd n
    · cases sat <;> rfl
    · cases sat
      · rfl
      · simp only [if_true, fvIsInf, Bool.and_self, Bool.not_true, Bool.and_false, Bool.or_false, Bool.false_eq_true, if_false]
        rfl

theorem converts_inf_ieee {dst : FFmt} {f : IFmt} (h : ffI dst = some f) (rnd : Rnd) (sat n : Bool) :
    Converts dst rnd sat (.inf n) (if sat then topOf dst n else .inf n) (if sat then 0x80 else 0) := by
  obtain ⟨-, -, -, hinf, -⟩ := ieee_tables h
  refine ⟨nofun, fun _ e => ?_, nofun, nofun⟩
  cases e
  refine ⟨fun _ hs => by simp [hs], fun _ hs => by simp [hs, topOf], ?_, ?_⟩
  · rintro (rfl | rfl) <;> exact nomatch hinf
  · rintro rfl
    exact nomatch hinf

theorem convTo_ieee_right {dst : FFmt} {f : IFmt} (h : ffI dst = some f) (rnd : Rnd) (sat : Bool) (x : FV) :
    ConvRight dst rnd sat x (convTo dst rnd sat x) := by
  have hconv := convTo_ieee h rnd sat
  obtain ⟨-, -, -, hinf, hmk, -, hcode⟩ := ieee_tables h
  rw [ConvRight, hcode]
  rcases x with s | n | ⟨n, m, e⟩
  · rw [hconv]
    refine ⟨converts_nan rnd sat ?_, rfl⟩
    rw [if_neg (by rintro rfl; exact nomatch hinf)]
    exact ⟨rfl, rfl⟩
  · have hright := converts_inf_ieee h rnd sat n
    rw [hconv]
    cases sat <;> exact ⟨hright, rfl⟩
  · by_cases hm : m = 0
    · subst hm
      have hright := converts_zero dst rnd sat n e
      rw [hmk, Bool.and_true] at hright
      rw [hconv]
      cases sat <;> exact ⟨hright, rfl⟩
    · rw [convTo_ieee_fin h hm]
      exact ⟨converts_fin hm dst rnd sat n e, rfl⟩

/-! ## The formats without -/

/-- A grid whose parameters are those of a format's tables. -/
structure GridOf (f : FFmt) (sgn : Nat) (top least : Dy) (q : Int → Int) (tieFlip : Int → Bool) : Prop where
  noInf : hasInf f = false
  top_eq : top = largest f
  least_eq : least = leastNormal f
  q_eq : ∀ E, q E = spacing f E
  flip_eq : ∀ E, tieFlip E = decide (f = .mk8 ∧ E = 16)
  sgn_eq : (sgn != 0) = (f != .mk8)

/-- The code of a value on a grid: sign bit and magnitude. -/
def gridCode (enc : Nat → Int → Nat) (sgn : Nat) : FV → Nat
  | .fin n k q => if k = 0 then (if n then sgn else 0) else (if n then 128 else 0) + enc k q
  | _ => 0

theorem convGrid_zero {f : FFmt} {sgn : Nat} {top least : Dy} {q : Int → Int} {tieFlip : Int → Bool}
    (h : GridOf f sgn top least q tieFlip) (enc : Nat → Int → Nat) (rnd : Rnd) (n : Bool) (e : Int) :
    convGrid enc sgn top least q tieFlip rnd n 0 e = ⟨if n then sgn else 0, .fin (n && f != .mk8) 0 0, 0⟩ := by
  rw [convGrid, if_pos rfl, h.sgn_eq]

/-- The code of a signed count of units: a zero of a format that has one alone has no sign bit. -/
theorem gridCode_units (enc : Nat → Int → Nat) (sgn : Nat) (n : Bool) (k : Nat) (q : Int) :
    gridCode enc sgn (.fin (n && (k != 0 || sgn != 0)) k q)
      = if k = 0 then (if n then sgn else 0) else (if n then 128 else 0) + enc k q := by
  unfold gridCode
  by_cases hk : k = 0
  · by_cases hs : sgn = 0 <;> cases n <;> simp [hk, hs]
  · simp only [if_neg hk, bne_iff_ne.mpr hk, Bool.true_or, Bool.and_true]

theorem convGrid_of_ne {f : FFmt} {sgn : Nat} {top least : Dy} {q : Int → Int} {tieFlip : Int → Bool}
    (h : GridOf f sgn top least q tieFlip) (enc : Nat → Int → Nat) {m : Nat} (hm : m ≠ 0) (rnd : Rnd) (sat n : Bool) (e : Int) :
    convGrid enc sgn top least q tieFlip rnd n m e
      = ⟨gridCode enc sgn (finiteConv f rnd sat n m e).1, (finiteConv f rnd sat n m e).1, (finiteConv f rnd sat n m e).2⟩ := by
  obtain ⟨hinf, rfl, rfl, hq, hflip, hsgn⟩ := h
  have htop : (largest f).m.natAbs ≠ 0 := by cases f <;> decide
  have hlog : (Nat.log2 m : Int) + e = dyLog ⟨m, e⟩ := rfl
  simp only [convGrid, if_neg hm, hq, hflip, hlog]
  change (if dyLt (largest f) ⟨(convUnits f rnd n m e).1, convQ f m e⟩ then _ else _) = _
  cases hlt : dyLt (largest f) ⟨(convUnits f rnd n m e).1, convQ f m e⟩
  · simp only [finiteConv, hlt, Bool.false_eq_true, if_false, ← hsgn, gridCode_units]
    rfl
  · simp only [finiteConv, hlt, if_true, overToInf, hinf, Bool.false_and, Bool.false_eq_true, if_false, Bool.or_false, topOf,
      gridCode, if_neg htop]
    rfl

/-- A conversion of a finite value to such a grid. -/
theorem convGrid_converts {f : FFmt} {sgn : Nat} {top least : Dy} {q : Int → Int} {tieFlip : Int → Bool}
    (h : GridOf f sgn top least q tieFlip) (enc : Nat → Int → Nat) (rnd : Rnd) (sat n : Bool) (m : Nat) (e : Int) :
    let c := convGrid enc sgn top least q tieFlip rnd n m e
    Converts f rnd sat (.fin n m e) c.v c.fl ∧ c.code = gridCode enc sgn c.v := by
  by_cases hm : m = 0
  · subst hm
    rw [convGrid_zero h]
    have hsgn : (n && f != .mk8) = (n && (0 != 0 || sgn != 0)) := by rw [h.sgn_eq]; rfl
    refine ⟨converts_zero f rnd sat n e, ?_⟩
    dsimp only
    rw [hsgn, gridCode_units, if_pos rfl]
  · rw [convGrid_of_ne h enc hm rnd sat]
    exact ⟨converts_fin hm f rnd sat n e, rfl⟩

theorem gridOf_e4m3 : GridOf .e4m3 0x80 ⟨448, 0⟩ (dyPow (-6)) (fmtQ fE4M3) (fun _ => false) :=
  ⟨rfl, rfl, rfl, fun _ => rfl, fun _ => rfl, rfl⟩

theorem gridOf_fp4 : GridOf .fp4 8 ⟨6, 0⟩ (dyPow 0) (fmtQ fFP4) (fun _ => false) :=
  ⟨rfl, rfl, rfl, fun _ => rfl, fun _ => rfl, rfl⟩

/-- Fraction bits of the band of a binary exponent (Tables 3-2, 3-3). -/
theorem mk8Band_fraction (E : Int) : (mk8Band (mk8Z E)).2.1 = if E ≤ -11 then 0 else if E ≤ -9 then 1 else if E ≤ -5 then 2
    else if E ≤ 3 then 3 else if E ≤ 11 then 2 else if E ≤ 15 then 1 else 0 := by
  unfold mk8Z
  split_ifs <;> rfl

theorem mk8Q_eq (E : Int) : mk8Q E = spacing .mk8 E := by
  rw [mk8Q, mk8Band_fraction, spacing]
  split_ifs <;> omega

theorem gridOf_mk8 : GridOf .mk8 0 ⟨131072, 0⟩ (dyPow (-11)) mk8Q (fun E => E == 16) :=
  ⟨rfl, rfl, rfl, mk8Q_eq, fun E => by rw [Bool.eq_iff_iff]; simp, rfl⟩

/-- What a format without an infinity delivers of a finite value lies in its range. -/
theorem finiteConv_fits {f : FFmt} (hf : hasInf f = false) (rnd : Rnd) (sat n : Bool) (m : Nat) (e : Int) :
    ∃ s k q, (finiteConv f rnd sat n m e).1 = .fin s k q ∧ dyLe ⟨k, q⟩ (largest f) = true
      ∧ (q = 0 ∨ ∃ E, q = spacing f E) := by
  cases hlt : dyLt (largest f) ⟨(convUnits f rnd n m e).1, convQ f m e⟩ <;>
    simp only [finiteConv, hlt, if_true, Bool.false_eq_true, if_false, overToInf, hf, Bool.false_and, topOf]
  · refine ⟨_, _, _, rfl, ?_, .inr ⟨_, rfl⟩⟩
    rw [dyLt_eq_not_dyLe, Bool.not_eq_false'] at hlt
    exact hlt
  · refine ⟨_, _, _, rfl, ?_⟩
    cases f
    case e4m3 | mk8 | fp4 => exact ⟨by decide, .inl rfl⟩
    all_goals exact nomatch hf

theorem convGrid_fits {f : FFmt} {sgn : Nat} {top least : Dy} {q : Int → Int} {tieFlip : Int → Bool}
    (h : GridOf f sgn top least q tieFlip) (enc : Nat → Int → Nat) (rnd : Rnd) (n : Bool) (m : Nat) (e : Int) :
    ∃ s k p, (convGrid enc sgn top least q tieFlip rnd n m e).v = .fin s k p ∧ dyLe ⟨k, p⟩ (largest f) = true
      ∧ (p = 0 ∨ ∃ E, p = spacing f E) := by
  by_cases hm : m = 0
  · subst hm
    rw [convGrid_zero h]
    exact ⟨_, _, _, rfl, by cases f <;> decide, .inl rfl⟩
  · rw [convGrid_of_ne h enc hm rnd false]
    exact finiteConv_fits h.noInf rnd false n m e

/-! ### Codes -/

/-- An FP4 magnitude's bits are few. -/
theorem encFin_fp4_lt {k : Nat} {q : Int} (hk : k ≠ 0) (hq : -1 ≤ q) (hle : dyLe ⟨k, q⟩ ⟨6, 0⟩ = true) :
    encFin fFP4 k q < 128 := by
  have hcodes : ∀ j : Nat, j < 4 → ∀ k < 13, encFin fFP4 k (j - 1 : Int) < 128 := by decide
  have hunits : k * 2 ^ (q + 1).toNat ≤ 12 := by
    have hsix : dyVal ⟨6, 0⟩ = dyVal ⟨(12 : Nat), -1⟩ := by norm_num [dyVal]
    rw [dyLe_iff, dyVal_units hq, hsix, dyVal_le_iff] at hle
    exact hle
  obtain ⟨j, hj⟩ := Int.eq_ofNat_of_zero_le (show 0 ≤ q + 1 by omega)
  have hpow : 2 ^ j ≤ k * 2 ^ j := Nat.le_mul_of_pos_left _ (by omega)
  have hk12 : k ≤ k * 2 ^ j := Nat.le_mul_of_pos_right _ (Nat.two_pow_pos j)
  rw [hj, Int.toNat_natCast] at hunits
  have hj4 : j < 4 := (Nat.pow_lt_pow_iff_right (a := 2) (by decide)).mp (by omega)
  rw [show q = (j : Int) - 1 by omega]
  exact hcodes j hj4 k (by omega)

theorem codeOf_e4m3 (s : Bool) (k : Nat) (q : Int) : codeOf .e4m3 (.fin s k q) = gridCode (encFin fE4M3) 0x80 (.fin s k q) := by
  by_cases hk : k = 0
  · subst hk
    rfl
  · rw [gridCode, if_neg hk]
    rfl

theorem codeOf_mk8 (s : Bool) (k : Nat) (q : Int) : codeOf .mk8 (.fin s k q) = gridCode encMK8 0 (.fin s k q) := by
  cases s <;> rfl

/-- An FP4 code: the grid's, with the sign in bit 3. -/
theorem codeOf_fp4 {k : Nat} {q : Int} (hq : -1 ≤ q) (hle : dyLe ⟨k, q⟩ ⟨6, 0⟩ = true) (s : Bool) :
    codeOf .fp4 (.fin s k q)
      = gridCode (encFin fFP4) 8 (.fin s k q) % 128 + (if gridCode (encFin fFP4) 8 (.fin s k q) / 128 = 1 then 8 else 0) := by
  by_cases hk : k = 0
  · subst hk
    cases s <;> simp [codeOf, gridCode, encFin]
  · have hlt := encFin_fp4_lt hk hq hle
    simp only [codeOf, gridCode, if_neg hk]
    cases s
    · simp only [Bool.false_eq_true, if_false]
      split <;> omega
    · simp only [if_true]
      split <;> omega

/-! ## CVT and CVTI -/

/-- A finite value to a grid whose codes are the format's. -/
theorem convGrid_right {f : FFmt} {sgn : Nat} {top least : Dy} {q : Int → Int} {tieFlip : Int → Bool}
    (h : GridOf f sgn top least q tieFlip) {enc : Nat → Int → Nat}
    (henc : ∀ s k p, codeOf f (.fin s k p) = gridCode enc sgn (.fin s k p)) (rnd : Rnd) (sat n : Bool) (m : Nat) (e : Int) :
    ConvRight f rnd sat (.fin n m e) (convGrid enc sgn top least q tieFlip rnd n m e) := by
  obtain ⟨hc, hcode⟩ := convGrid_converts h enc rnd sat n m e
  obtain ⟨s, k, p, hv, -⟩ := convGrid_fits h enc rnd n m e
  exact ⟨hc, hcode.trans (by rw [hv, henc])⟩

theorem converts_inf_nan {f : FFmt} (h : f = .e4m3 ∨ f = .mk8) (rnd : Rnd) (sat n : Bool) :
    Converts f rnd sat (.inf n) (.nan false) flNV := by
  refine ⟨nofun, fun _ _ => ⟨?_, ?_, fun _ => ⟨rfl, rfl⟩, ?_⟩, nofun, nofun⟩ <;> rcases h with rfl | rfl <;> exact nofun

theorem convTo_e4m3_right (rnd : Rnd) (sat : Bool) (x : FV) : ConvRight .e4m3 rnd sat x (convTo .e4m3 rnd sat x) := by
  rcases x with s | n | ⟨n, m, e⟩
  · exact ⟨converts_nan rnd sat ⟨rfl, by cases s <;> rfl⟩, rfl⟩
  · exact ⟨converts_inf_nan (.inl rfl) rnd sat n, rfl⟩
  · exact convGrid_right gridOf_e4m3 codeOf_e4m3 rnd sat n m e

theorem convTo_mk8_right (rnd : Rnd) (sat : Bool) (x : FV) : ConvRight .mk8 rnd sat x (convTo .mk8 rnd sat x) := by
  rcases x with s | n | ⟨n, m, e⟩
  · exact ⟨converts_nan rnd sat ⟨rfl, by cases s <;> rfl⟩, rfl⟩
  · exact ⟨converts_inf_nan (.inr rfl) rnd sat n, rfl⟩
  · exact convGrid_right gridOf_mk8 codeOf_mk8 rnd sat n m e

/-- A finite value to FP4's grid, its sign still in bit 7. -/
def fp4Grid (rnd : Rnd) (n : Bool) (m : Nat) (e : Int) : Conv :=
  convGrid (encFin fFP4) 8 ⟨6, 0⟩ (dyPow 0) (fmtQ fFP4) (fun _ => false) rnd n m e

theorem convTo_fp4_fin (rnd : Rnd) (sat n : Bool) (m : Nat) (e : Int) : convTo .fp4 rnd sat (.fin n m e)
    = ⟨(fp4Grid rnd n m e).code % 128 + (if (fp4Grid rnd n m e).code / 128 = 1 then 8 else 0), (fp4Grid rnd n m e).v,
        (fp4Grid rnd n m e).fl⟩ := rfl

theorem convTo_fp4_right (rnd : Rnd) (sat : Bool) (x : FV) : ConvRight .fp4 rnd sat x (convTo .fp4 rnd sat x) := by
  rcases x with s | n | ⟨n, m, e⟩
  · exact ⟨converts_nan rnd sat ⟨rfl, rfl⟩, rfl⟩
  · refine ⟨⟨nofun, fun _ e => ⟨nofun, nofun, nofun, fun _ => ?_⟩, nofun, nofun⟩, rfl⟩
    cases e
    exact ⟨rfl, rfl⟩
  · rw [convTo_fp4_fin]
    obtain ⟨hc, hcode⟩ := convGrid_converts gridOf_fp4 (encFin fFP4) rnd sat n m e
    obtain ⟨s, k, q, hv, hle, hq⟩ := convGrid_fits gridOf_fp4 (encFin fFP4) rnd n m e
    have hlow : -1 ≤ q := by
      rcases hq with rfl | ⟨E, rfl⟩
      · decide
      · simp only [spacing]; omega
    have hcode : (fp4Grid rnd n m e).code = gridCode (encFin fFP4) 8 (.fin s k q) := hcode.trans (by rw [hv])
    have hv : (fp4Grid rnd n m e).v = .fin s k q := hv
    refine ⟨hc, ?_⟩
    simp only [hcode, hv]
    exact (codeOf_fp4 hlow hle s).symm

theorem convTo_right (dst : FFmt) (rnd : Rnd) (sat : Bool) (x : FV) : ConvRight dst rnd sat x (convTo dst rnd sat x) := by
  cases dst
  case bf16 | e5m2 | f32 | f64 => exact convTo_ieee_right rfl rnd sat x
  case e4m3 => exact convTo_e4m3_right rnd sat x
  case mk8 => exact convTo_mk8_right rnd sat x
  case fp4 => exact convTo_fp4_right rnd sat x

@[simp] theorem bdAdd_none (a : Bd) : bdAdd a none = none := by cases a <;> rfl

/-- The bound of a conversion (R78, R80). -/
theorem upBd_fvErr (ba : BitVec 16) (z x : FV) : upBd (bdAdd (bdOf ba) (fvErr z x)) = convBound ba x z := by
  cases z <;> cases x <;> simp [fvErr, convBound, fvIsFin, upBd, bndInf]

/-- What a unit delivers of a conversion. -/
theorem conversion_delivers (dst : FFmt) (rnd : Rnd) (sat : Bool) (x : FV) (ba : BitVec 16) :
    ∃ v fl, Converts dst rnd sat x v fl
      ∧ (⟨BitVec.ofNat 64 (convTo dst rnd sat x).code, (convTo dst rnd sat x).fl,
          upBd (bdAdd (bdOf ba) (fvErr (convTo dst rnd sat x).v x))⟩ : Deliv)
        = ⟨BitVec.ofNat 64 (codeOf dst v), fl, convBound ba x v⟩ := by
  obtain ⟨hconv, hcode⟩ := convTo_right dst rnd sat x
  exact ⟨_, _, hconv, by rw [hcode, upBd_fvErr]⟩

/-- Two's complement (R52). -/
theorem sint_toNat {w : Nat} (hw : 0 < w) (a : BitVec w) : sint w a.toNat = a.toInt := by
  obtain ⟨v, rfl⟩ : ∃ v, w = v + 1 := ⟨w - 1, by omega⟩
  have hmod : a.toNat % 2 ^ (v + 1) = a.toNat := Nat.mod_eq_of_lt a.isLt
  have hcast : (a.toNat : Int) % 2 ^ (v + 1) = a.toNat := by exact_mod_cast hmod
  have hpow : 2 ^ (v + 1) = 2 ^ v * 2 := Nat.pow_succ 2 v
  rw [sint, BitVec.toInt_eq_toNat_cond, Nat.add_sub_cancel, hmod, hcast, Nat.cast_pow, Nat.cast_ofNat]
  by_cases h : a.toNat < 2 ^ v
  · rw [if_pos h, if_pos (by omega)]
  · rw [if_neg h, if_neg (by omega)]

theorem sint_mod (w n : Nat) : sint w (n % 2 ^ w) = sint w n := by
  simp [sint]

/-- Integer operands (R163). -/
theorem intOf_s32 (a : DWord) : intOf .s32 a = (a.setWidth 32).toInt := by
  rw [← sint_toNat (by decide), BitVec.toNat_setWidth, sint_mod]
  rfl

theorem intOf_s64 (a : DWord) : intOf .s64 a = a.toInt := sint_toNat (w := 64) (by decide) a

theorem intOf_unsigned {ty : Ty} (h : tySigned ty = false) (a : DWord) :
    intOf ty a = if ty.wide then (a.toNat : Int) else ((a.setWidth 32).toNat : Int) := by
  rw [intOf, h, tyBits, BitVec.toNat_setWidth]
  cases ty.wide
  · rfl
  · exact congrArg Nat.cast (Nat.mod_eq_of_lt a.isLt)

theorem i2fRes_delivers (ity : Ty) (fmt : FFmt) (rnd : Rnd) (a : DWord) (ba : BitVec 16) :
    let x : FV := .fin (decide (intOf ity a < 0)) (intOf ity a).natAbs 0
    ∃ v fl, Converts fmt rnd false x v fl ∧ i2fRes ity fmt rnd a ba = ⟨BitVec.ofNat 64 (codeOf fmt v), fl, convBound ba x v⟩ :=
  conversion_delivers fmt rnd false _ ba

/-- CVT and CVTI of an integer. -/
theorem cvtRules : CvtRules := by
  refine ⟨fun src dst elem rnd sat na aa a ba => conversion_delivers dst rnd sat _ ba, fun ity fmt rnd a ba => ?_⟩
  have hconv := i2fRes_delivers ity fmt rnd a ba
  cases ity
  case s32 => rw [intOf_s32] at hconv; exact hconv
  case s64 => rw [intOf_s64] at hconv; exact hconv
  all_goals rw [intOf_unsigned rfl] at hconv; exact hconv

end Sys2Proof.Laws


/-! CVTI of a float (R52, R60, R80, R183, Table 3-7): the rounded value, held against the integer's limits. -/

namespace Sys2Proof.Laws

open Sys2Proof.Machine Sys2Proof.Claims Sys2Proof.Safety

theorem limitOf_true (w : Nat) (signed : Bool) : limitOf w signed true = intMin w signed := by cases signed <;> rfl

theorem limitOf_false (w : Nat) (signed : Bool) : limitOf w signed false = intMax w signed := by cases signed <;> rfl

theorem limitOf_eq (w : Nat) (signed n : Bool) : limitOf w signed n = if n then intMin w signed else intMax w signed := by
  cases n
  · exact limitOf_false w signed
  · exact limitOf_true w signed

/-- Zero lies within the limits of every integer type. -/
theorem zero_inside (w : Nat) (signed : Bool) : intMin w signed ≤ 0 ∧ 0 ≤ intMax w signed := by
  have hw : (0 : Int) < 2 ^ w := Int.pow_pos (by decide)
  have hv : (0 : Int) < 2 ^ (w - 1) := Int.pow_pos (by decide)
  cases signed
  · exact ⟨le_rfl, by simp only [intMax, Bool.false_eq_true, if_false]; omega⟩
  · exact ⟨by simp only [intMin, if_true]; omega, by simp only [intMax, if_true]; omega⟩

/-- A magnitude with its sign, as an integer. -/
def withSign (n : Bool) (k : Nat) : Int := if n then -(k : Int) else k

theorem dyInt_withSign (n : Bool) (k : Nat) : dyInt (withSign n k) = fvDy (.fin n k 0) := rfl

theorem withSign_eq_zero {n : Bool} {k : Nat} : withSign n k = 0 ↔ k = 0 := by cases n <;> simp [withSign]

theorem roundUnits_zero (rnd : Rnd) (n : Bool) (e q : Int) : roundUnits rnd n 0 e q = (0, false) := by
  rcases lt_or_ge e q with h | h
  · have hr := roundUnits_of_lt h rnd n 0 false
    dsimp only at hr
    rw [hr, if_pos (Nat.zero_mod _), Nat.zero_div]
  · rw [roundUnits_of_le h, Nat.zero_mul]

/-- A finite value into an integer format: rounded, and held against the limits (Table 3-7). -/
theorem convInt_fin (w : Nat) (sg : Bool) (rnd : Rnd) (n : Bool) (m : Nat) (e : Int) :
    convInt w sg rnd (.fin n m e) = (let r := roundUnits rnd n m e 0
      if withSign n r.1 < intMin w sg ∨ intMax w sg < withSign n r.1 then (limitOf w sg n, 0x90)
      else (withSign n r.1, inexactFlags r.2 (r.1 == 0))) := by
  by_cases hm : m = 0
  · subst hm
    obtain ⟨hlo, hhi⟩ := zero_inside w sg
    rw [roundUnits_zero]
    have hz : withSign n 0 = 0 := withSign_eq_zero.mpr rfl
    dsimp only
    rw [hz, if_neg (by omega)]
    rfl
  · simp only [convInt, if_neg hm, limitOf_eq, Bool.or_eq_true, decide_eq_true_eq]
    rfl

theorem convInt_toInteger (w : Nat) (sg : Bool) (rnd : Rnd) (x : FV) :
    ToInteger w sg rnd x (convInt w sg rnd x).1 (convInt w sg rnd x).2 := by
  rcases x with s | n | ⟨n, m, e⟩
  · exact ⟨fun _ => ⟨rfl, rfl⟩, nofun, nofun⟩
  · refine ⟨nofun, fun _ h => ?_, nofun⟩
    cases h
    rw [limitOf_eq]
    exact ⟨rfl, rfl⟩
  · refine ⟨nofun, nofun, fun _ _ _ h => ?_⟩
    cases h
    rw [convInt_fin, limitOf_true, limitOf_false]
    have hr := roundUnits_roundsTo rnd n m e 0 false
    have hexact (j : Int) := roundUnits_exact (rnd := rnd) (neg := n) (m := m) (e := e) (q := 0) (flip := false) (j := j)
    generalize roundUnits rnd n m e 0 = r at hr hexact ⊢
    obtain ⟨k, inex⟩ := r
    have heq : dyEq (dyInt (withSign n k)) (fvDy (.fin n m e)) = !inex := hr.dyEq_eq rfl
    change (intMin w sg ≤ withSign n k ∧ withSign n k ≤ intMax w sg → _)
      ∧ (¬(intMin w sg ≤ withSign n k ∧ withSign n k ≤ intMax w sg) → _)
    refine ⟨fun ⟨hlo, hhi⟩ => ?_, fun hout => ?_⟩
    · dsimp only
      rw [if_neg (by omega)]
      refine ⟨rfl, hr.sideOf rfl (dyAbs_fvDy ..), ?_, fun j hj => ?_⟩
      · rw [heq, inexactFlags_eq]
        simp only [withSign_eq_zero, beq_iff_eq]
      · have hin : inex = false := hexact _ (dyVal_of_multiple hj)
        have hval : dyVal (dyInt (withSign n k)) = dyVal (dyInt j) := by
          rw [(dyEq_iff ..).mp (heq.trans (by rw [hin]; rfl)), (dyEq_iff ..).mp hj]
        exact ⟨by simpa [dyVal, dyInt] using hval, by rw [hin, inexactFlags_eq]; rfl⟩
    · dsimp only
      rw [if_pos (by omega)]
      exact ⟨rfl, rfl⟩

/-- An integer as a value. -/
theorem fvDy_ofInt (z : Int) : fvDy (.fin (decide (z < 0)) z.natAbs 0) = dyInt z := by
  rcases lt_or_ge z 0 with h | h
  · simp only [fvDy, dyInt, h, decide_true, if_true]
    congr 1
    omega
  · simp only [fvDy, dyInt, not_lt.mpr h, decide_false, Bool.false_eq_true, if_false]
    congr 1
    omega

/-- The bound of a conversion to an integer, rounded up to one (R183). -/
theorem upBd_fvErr_ofInt (ba : BitVec 16) (z : Int) (x : FV) :
    upBd ((bdAdd (bdOf ba) (fvErr (.fin (decide (z < 0)) z.natAbs 0) x)).map (fun d => dyInt (dyCeil d)))
      = if fvIsFin x then
          upBd ((bdAdd (bdOf ba) (some (dyAbs (dySub (dyInt z) (fvDy x))))).map (fun d => dyInt (dyCeil d)))
        else 0xFF00 := by
  rcases x with s | n | ⟨n, m, e⟩
  · simp [fvErr, fvIsFin, upBd, bndInf]
  · simp [fvErr, fvIsFin, upBd, bndInf]
  · simp only [fvErr, fvIsFin, if_true, fvDy_ofInt]

theorem floatToIntegerRules : FloatToIntegerRules :=
  fun ity fmt rnd na aa a ba =>
    let x := fvMod na aa (decF fmt (a.toNat % 2 ^ ffBits fmt))
    ⟨_, _, convInt_toInteger (tyBits ity) (tySigned ity) rnd x, congrArg (Deliv.mk _ _) (upBd_fvErr_ofInt ba _ x)⟩

end Sys2Proof.Laws


/-! Conversions and nibble packing complete (R181-R184). -/

namespace Sys2Proof.Laws

open Sys2Proof.Machine Sys2Proof.Claims Sys2Proof.Safety

/-- Of the 8-bit and 4-bit formats without an infinity, each code. -/
theorem codesRight : CodesRight := by
  unfold CodesRight
  decide

/-! ## Nibbles (R184) -/

theorem foldl_range_four (f : Nat → Nat → Nat) : (List.range 4).foldl f 0 = f (f (f (f 0 0) 1) 2) 3 := rfl

theorem lowNib_lt (w : Word) (i : Nat) : lowNib w i < 16 := Nat.mod_lt _ (by decide)

/-- The low nibble of a word's byte. -/
theorem toNat_nibble (w : Word) (i : Nat) : ((w >>> (8 * i)).setWidth 4).toNat = lowNib w i := by
  rw [BitVec.toNat_setWidth, BitVec.toNat_ushiftRight, Nat.shiftRight_eq_div_pow]
  rfl

theorem pk4_nibbles (a b : Word) {i : Nat} (hi : i < 4) :
    (pk4Word a b).toNat / 2 ^ (4 * i) % 2 ^ 4 = lowNib a i ∧ (pk4Word a b).toNat / 2 ^ (16 + 4 * i) % 2 ^ 4 = lowNib b i := by
  have ha0 := lowNib_lt a 0; have ha1 := lowNib_lt a 1; have ha2 := lowNib_lt a 2; have ha3 := lowNib_lt a 3
  have hb0 := lowNib_lt b 0; have hb1 := lowNib_lt b 1; have hb2 := lowNib_lt b 2; have hb3 := lowNib_lt b 3
  rw [pk4Word, w32, BitVec.toNat_ofNat, foldl_range_four]
  interval_cases i <;> constructor <;> omega

/-- A nibble of a word, spread to a byte. -/
def spread (signed : Bool) (v : Nat) : Nat := if signed && decide (8 ≤ v) then v + 0xF0 else v

theorem spread_lt (signed : Bool) (v : Nat) : spread signed (v % 16) < 256 := by
  unfold spread
  split <;> omega

/-- The nibble that UPK4 takes for a byte. -/
def srcNib (hi : Bool) (a : Word) (i : Nat) : Nat := a.toNat / 2 ^ (4 * (i + if hi then 4 else 0)) % 16

theorem upk4Word_eq (signed hi : Bool) (a : Word) : upk4Word signed hi a
    = BitVec.ofNat 32 ((List.range 4).foldl (fun n i => n + spread signed (srcNib hi a i) * 2 ^ (8 * i)) 0) := rfl

theorem upk4_bytes (signed hi : Bool) (a : Word) {i : Nat} (h : i < 4) :
    (upk4Word signed hi a).toNat / 2 ^ (8 * i) % 2 ^ 8 = spread signed (srcNib hi a i) := by
  have hs (j : Nat) : spread signed (srcNib hi a j) < 256 := spread_lt signed _
  have h0 := hs 0; have h1 := hs 1; have h2 := hs 2; have h3 := hs 3
  rw [upk4Word_eq, BitVec.toNat_ofNat, foldl_range_four]
  interval_cases i <;> omega

theorem spread_eq (n : BitVec 4) : spread true n.toNat = (n.signExtend 8).toNat ∧ spread false n.toNat = (n.setWidth 8).toNat := by
  revert n
  decide

theorem nibblePacking : NibblePacking := by
  refine ⟨fun a b i hi => ?_, fun a hi i h => ?_⟩
  · obtain ⟨ha, hb⟩ := pk4_nibbles a b hi
    constructor <;> apply BitVec.eq_of_toNat_eq <;>
      rw [toNat_nibble, BitVec.toNat_setWidth, BitVec.toNat_ushiftRight, Nat.shiftRight_eq_div_pow]
    · exact ha
    · exact hb
  · intro n
    have hn : n.toNat = srcNib hi a i := by
      rw [BitVec.toNat_setWidth, BitVec.toNat_ushiftRight, Nat.shiftRight_eq_div_pow]
      cases hi <;> rfl
    obtain ⟨hsig, huns⟩ := spread_eq n
    constructor <;> apply BitVec.eq_of_toNat_eq <;>
      rw [BitVec.toNat_setWidth, BitVec.toNat_ushiftRight, Nat.shiftRight_eq_div_pow, upk4_bytes _ hi a h, ← hn]
    · exact hsig
    · exact huns

/-! ## The statement -/

/-- A unit's result that no breach check stops. -/
theorem eachLane_of_deliverFree {i : Instr} {gd : Guard} {wide : Bool} {d : VReg} {r : Thread → Deliv}
    (hi : ∀ s, exec i s = .next (threadOp gd (fun t => deliverFree t wide d (r t)) s)) : EachLane i gd (fun _ => unchecked wide d r) :=
  fun s _ _ h => (hi s).trans (congrArg Host.Outcome.next
    (threadOp_each (f := unchecked wide d r) (fun t => congrArg Except.ok (withResult_eq t wide d (r t) (r t).fl)) h))

/-- Settles O9: a conversion rounds to the units of its format and clamps or overflows beyond its range (`finiteConv`), in the formats with
an infinity and on the grids without; an integer is held against its limits once rounded (`convInt_fin`). -/
theorem conversionResults : Obligations.ConversionResults := by
  refine ⟨⟨fun x => ?_, fun x => ?_, fun x => ?_, fun x => ?_, fun x => ?_, codesRight, cvtRules, floatToIntegerRules⟩, nibblePacking⟩
  · exact eachLane_of_deliverFree (fun _ => rfl)
  · exact eachLane_of_deliverFree (fun _ => rfl)
  · exact eachLane_of_deliverFree (fun _ => rfl)
  · exact fun s gid g h => congrArg Host.Outcome.next (threadOp_each (fun _ => rfl) h)
  · exact fun s gid g h => congrArg Host.Outcome.next (threadOp_each (fun _ => rfl) h)

end Sys2Proof.Laws



/-! SUPPORT. The order of bounds (R56, R69): codes rise with the bounds they hold. -/

namespace Sys2Proof.Laws

open Sys2Proof.Machine

@[simp] theorem bdLe_none (a : Bd) : bdLe a none = true := by cases a <;> rfl

theorem bdLe_refl (a : Bd) : bdLe a a = true := by
  cases a with
  | none => rfl
  | some d => exact (bdLe_some_iff d d).mpr le_rfl

theorem bdLe_trans {a b c : Bd} (h : bdLe a b = true) (k : bdLe b c = true) : bdLe a c = true := by
  cases c with
  | none => exact bdLe_none a
  | some z =>
    cases b with
    | none => exact nomatch k
    | some y =>
      cases a with
      | none => exact nomatch h
      | some x =>
        rw [bdLe_some_iff] at h k ⊢
        exact h.trans k

/-- A larger code holds no smaller bound. -/
theorem bdLe_bdOf_of_le {c d : BitVec 16} (h : c.toNat ≤ d.toNat) : bdLe (bdOf c) (bdOf d) = true := by
  by_cases hd : 0xFF00 ≤ d.toNat
  · rw [bdOf_of_le hd]
    exact bdLe_none _
  obtain ⟨q, n, hc⟩ := exists_bndParts (c := c.toNat)
  obtain ⟨q', n', hd'⟩ := exists_bndParts (c := d.toNat)
  rw [bdOf_of_parts hc (by omega), bdOf_of_parts hd' (by omega), bdLe_some_iff]
  obtain ⟨hcode, hlow, hfull, hnonneg, hlt⟩ := hc
  obtain ⟨hcode', hlow', hfull', hnonneg', hlt'⟩ := hd'
  rcases lt_trichotomy q q' with hq | rfl | hq
  · have hn := hfull' (by omega)
    have hle : (n : ℚ) ≤ n' * 2 := by exact_mod_cast (by omega : n ≤ n' * 2)
    have hpow : (2 : ℚ) ^ (q + 1) ≤ 2 ^ q' := zpow_le_zpow_right₀ one_le_two (by omega)
    have hn' : (0 : ℚ) ≤ n' := by exact_mod_cast hnonneg'
    calc (n : ℚ) * 2 ^ q ≤ n' * 2 * 2 ^ q := mul_le_mul_of_nonneg_right hle (two_zpow_pos q).le
      _ = n' * 2 ^ (q + 1) := by rw [zpow_add_one₀ two_ne_zero]; ring
      _ ≤ n' * 2 ^ q' := mul_le_mul_of_nonneg_left hpow hn'
  · have hle : (n : ℚ) ≤ n' := by exact_mod_cast (by omega : n ≤ n')
    exact mul_le_mul_of_nonneg_right hle (two_zpow_pos q).le
  · have hn := hfull (by omega)
    omega

@[simp] theorem bndMax_zero_left (b : BitVec 16) : bndMax 0#16 b = b := if_pos (Nat.zero_le _)

theorem bdLe_bndMax_right (a b : BitVec 16) : bdLe (bdOf b) (bdOf (bndMax a b)) = true := by
  unfold bndMax
  split
  · exact bdLe_refl _
  · exact bdLe_bdOf_of_le (by omega)

theorem bdLe_bdOf_zero (a : BitVec 16) : bdLe (bdOf 0) (bdOf a) = true := bdLe_bdOf_of_le (Nat.zero_le _)

/-- up() of reals that rise. -/
theorem bdLe_upDy_upDy {a b : Dy} (ha : 0 ≤ a.m) (hb : 0 ≤ b.m) (h : dyVal a ≤ dyVal b) : bdLe (bdOf (upDy a)) (bdOf (upDy b)) = true := by
  by_cases hb' : 0xFF00 ≤ (upDy b).toNat
  · rw [bdOf_of_le hb']
    exact bdLe_none _
  · exact bdLe_bdOf_of_le (upDy_le ha (by omega) (bdLe_trans ((bdLe_some_iff a b).mpr h) (bdLe_upDy hb)))

end Sys2Proof.Laws

/-! Bounds stored into a record never fall (R83, R84). -/

namespace Sys2Proof.Laws

open Sys2Proof.Machine Sys2Proof.Claims

/-! ## The codes of a record -/

@[simp] theorem recSetCode_e (r : BRec) (i : Nat) (c : BitVec 3) : (recSetCode r i c).e = r.e := rfl

theorem getLsbD_recCode (r : BRec) (i : Nat) {k : Nat} (hk : k < 3) : (recCode r i).getLsbD k = r.codes.getLsbD (3 * i + k) := by
  simp [recCode, hk]

/-- The mask of a code's three bits. -/
theorem getLsbD_codeMask {i n : Nat} (hn : n < 96) : ((7#96) <<< (3 * i)).getLsbD n = decide (3 * i ≤ n ∧ n < 3 * i + 3) := by
  rw [BitVec.getLsbD_shiftLeft]
  have h7 (k : Nat) : (7#96).getLsbD k = decide (k < 3) := by
    rcases Nat.lt_or_ge k 3 with h | h
    · interval_cases k <;> rfl
    · rw [BitVec.getLsbD_ofNat, Nat.testBit_lt_two_pow (Nat.lt_of_lt_of_le (by decide) (Nat.pow_le_pow_right (by decide) h))]
      simp [h]
  rw [h7, Bool.eq_iff_iff]
  simp [hn]
  omega

theorem recCode_recSetCode_self (r : BRec) {i : Nat} (hi : i < 32) (c : BitVec 3) : recCode (recSetCode r i c) i = c := by
  apply BitVec.eq_of_getLsbD_eq
  intro k hk
  rw [getLsbD_recCode _ _ hk]
  simp only [recSetCode, BitVec.getLsbD_or, BitVec.getLsbD_and, BitVec.getLsbD_not, getLsbD_codeMask (show 3 * i + k < 96 by omega),
    BitVec.getLsbD_shiftLeft, BitVec.getLsbD_setWidth]
  simp [hk, show 3 * i + k < 96 by omega, show k < 96 by omega]

theorem recCode_recSetCode_ne (r : BRec) {i j : Nat} (hj : j < 32) (h : j ≠ i) (c : BitVec 3) :
    recCode (recSetCode r i c) j = recCode r j := by
  apply BitVec.eq_of_getLsbD_eq
  intro k hk
  rw [getLsbD_recCode _ _ hk, getLsbD_recCode _ _ hk]
  simp only [recSetCode, BitVec.getLsbD_or, BitVec.getLsbD_and, BitVec.getLsbD_not, getLsbD_codeMask (show 3 * j + k < 96 by omega),
    BitVec.getLsbD_shiftLeft, BitVec.getLsbD_setWidth]
  have hout : decide (3 * i ≤ 3 * j + k ∧ 3 * j + k < 3 * i + 3) = false := decide_eq_false (by omega)
  rcases Nat.lt_or_ge (3 * j + k) (3 * i) with hlt | hge
  · simp [hout, hlt, show 3 * j + k < 96 by omega]
  · have hc : c.getLsbD (3 * j + k - 3 * i) = false := BitVec.getLsbD_of_ge _ _ (by omega)
    simp [hout, hc, show 3 * j + k < 96 by omega]

/-- Codes written one after another, each from its own word. -/
theorem foldl_recSetCode (f : Nat → BitVec 3) (js : List Nat) (r : BRec) :
    (js.foldl (fun q j => recSetCode q j (f j)) r).e = r.e
      ∧ ∀ j, j < 32 → recCode (js.foldl (fun q j => recSetCode q j (f j)) r) j = if j ∈ js then f j else recCode r j := by
  induction js generalizing r with
  | nil => exact ⟨rfl, fun _ _ => rfl⟩
  | cons a js ih =>
    obtain ⟨he, hc⟩ := ih (recSetCode r a (f a))
    refine ⟨he, fun j hj => ?_⟩
    rw [List.foldl_cons, hc j hj]
    by_cases hmem : j ∈ js
    · simp [hmem]
    · by_cases hja : j = a
      · subst hja
        simp [hmem, recCode_recSetCode_self r hj]
      · simp [hmem, hja, recCode_recSetCode_ne r hj hja]

/-! ## What a code decodes to (Table 4-8) -/

theorem codeBound_zero (e : Byte) : codeBound e 0 = 0 := rfl

theorem codeBound_top : codeBound 255 7 = bndInf := rfl

theorem codeBound_pow {e : Byte} {c : BitVec 3} (h0 : c ≠ 0) (h : ¬ (c = 7 ∧ e = 255)) :
    codeBound e c = upDy (dyPow ((e.toNat : Int) - 134 + c.toNat)) := by
  unfold codeBound
  rw [if_neg h0, if_neg h]

theorem dyVal_dyPow (k : Int) : dyVal (dyPow k) = 2 ^ k := by simp [dyVal, dyPow]

/-- The binary exponent of a code's bound; of 7 under 255, which is unbounded, 128. -/
def codeExp (e : Byte) (c : BitVec 3) : Int := (e.toNat : Int) - 134 + c.toNat

/-- Bounds rise with their exponents. -/
theorem codeBound_mono {e e' : Byte} {c c' : BitVec 3} (h' : c' ≠ 0) (h : codeExp e c ≤ codeExp e' c') (htop : c = 7 → e = 255 → c' = 7 ∧ e' = 255) :
    bdLe (bdOf (codeBound e c)) (bdOf (codeBound e' c')) = true := by
  by_cases ht' : c' = 7 ∧ e' = 255
  · obtain ⟨rfl, rfl⟩ := ht'
    rw [codeBound_top]
    exact bdLe_none _
  by_cases h0 : c = 0
  · rw [h0, codeBound_zero]
    exact bdLe_bdOf_zero _
  rw [codeBound_pow h0 (fun ht => ht' (htop ht.1 ht.2)), codeBound_pow h' ht']
  refine bdLe_upDy_upDy Int.one_nonneg Int.one_nonneg ?_
  rw [dyVal_dyPow, dyVal_dyPow]
  exact zpow_le_zpow_right₀ one_le_two h

/-! ## The exponent that a bound asks for -/

/-- Where the exponent lies; below 128 the bound is finite, and not above 2 to it. -/
theorem ceilLog_spec {b : BitVec 16} (hb : b ≠ 0) :
    -134 ≤ ceilLog b ∧ ceilLog b ≤ 128 ∧ (ceilLog b < 128 → ∃ d, bdOf b = some d ∧ dyVal d ≤ 2 ^ ceilLog b) := by
  unfold ceilLog
  by_cases hinf : 0xFF00 ≤ b.toNat
  · rw [bdOf_of_le hinf]
    exact ⟨by decide, le_rfl, fun h => absurd h (by decide)⟩
  obtain ⟨q, n, hp⟩ := exists_bndParts (c := b.toNat)
  rw [bdOf_of_parts hp (by omega)]
  obtain ⟨hcode, hlow, hfull, hnonneg, hlt⟩ := hp
  have hpos : 0 < n := by
    rcases hnonneg.eq_or_lt with h | h
    · have hb0 : b.toNat ≠ 0 := fun h0 => hb (BitVec.eq_of_toNat_eq h0)
      have := hfull
      omega
    · exact h
  obtain ⟨hge, hlt2⟩ := two_zpow_dyLog_le (a := ⟨n, q⟩) hpos
  have hlog : dyLog ⟨n, q⟩ = Nat.log2 n.natAbs + q := rfl
  have hl8 : Nat.log2 n.natAbs < 9 := (Nat.log2_lt (by omega)).mpr (by omega)
  dsimp only
  split
  · next heq =>
    rw [dyEq_iff, dyVal_dyPow] at heq
    exact ⟨by omega, by omega, fun _ => ⟨_, rfl, heq.le⟩⟩
  · exact ⟨by omega, by omega, fun _ => ⟨_, rfl, hlt2.le⟩⟩

/-- A code whose exponent is not below a bound's holds it. -/
theorem bdLe_codeBound {b : BitVec 16} (hb : b ≠ 0) {e : Byte} {c : BitVec 3} (h0 : c ≠ 0) (h : ceilLog b ≤ codeExp e c)
    (htop : ceilLog b = 128 → c = 7 ∧ e = 255) : bdLe (bdOf b) (bdOf (codeBound e c)) = true := by
  by_cases ht : c = 7 ∧ e = 255
  · obtain ⟨rfl, rfl⟩ := ht
    rw [codeBound_top]
    exact bdLe_none _
  obtain ⟨-, hmax, hfin⟩ := ceilLog_spec hb
  obtain ⟨d, hd, hle⟩ := hfin (lt_of_le_of_ne hmax (fun h128 => ht (htop h128)))
  rw [codeBound_pow h0 ht, hd]
  refine bdLe_trans ((bdLe_some_iff d (dyPow (codeExp e c))).mpr ?_) (bdLe_upDy Int.one_nonneg)
  rw [dyVal_dyPow]
  exact hle.trans (zpow_le_zpow_right₀ one_le_two h)

/-! ## store_bound (R84) -/

/-- The words of a record, but one, that have a bound. -/
def boundedOthers (r : BRec) (i : Nat) : List Nat := (List.range 32).filter (fun j => j != i && recCode r j != 0)

theorem mem_boundedOthers {r : BRec} {i j : Nat} : j ∈ boundedOthers r i ↔ j < 32 ∧ j ≠ i ∧ recCode r j ≠ 0 := by
  simp [boundedOthers]

/-- The exponent before a store of bound b: the record's, or, with no other word bounded, the least under which b takes code 7. -/
def baseExp (r : BRec) (i : Nat) (b : BitVec 16) : Int :=
  if (boundedOthers r i).isEmpty then min (max (ceilLog b + 127) 0) 255 else r.e.toNat

/-- How far code 7 falls short of the bound: the exponent rises by as much. -/
def shortBy (r : BRec) (i : Nat) (b : BitVec 16) : Int := max (ceilLog b - baseExp r i b + 127) 0

/-- A word's code after the exponent has risen. -/
def loweredCode (c : BitVec 3) (d : Int) : BitVec 3 := BitVec.ofNat 3 (max ((c.toNat : Int) - d) 1).toNat

theorem toNat_code {n : Int} (h : n ≤ 7) : ((BitVec.ofNat 3 (max n 1).toNat).toNat : Int) = max n 1 := by
  rw [BitVec.toNat_ofNat, Nat.mod_eq_of_lt (by omega), Int.toNat_of_nonneg (by omega)]

theorem code_ne_zero {n : Int} (h : n ≤ 7) : BitVec.ofNat 3 (max n 1).toNat ≠ 0 := fun h0 => by
  have hn := toNat_code h
  rw [h0] at hn
  exact absurd hn (by change (0 : Int) ≠ _; omega)

theorem loweredCode_zero {c : BitVec 3} (h : c ≠ 0) : loweredCode c 0 = c := by
  have hc : c.toNat ≠ 0 := fun h0 => h (BitVec.eq_of_toNat_eq h0)
  apply BitVec.eq_of_toNat_eq
  have hn := toNat_code (n := (c.toNat : Int) - 0) (by omega)
  unfold loweredCode
  omega

theorem baseExp_range (r : BRec) (i : Nat) (b : BitVec 16) : 0 ≤ baseExp r i b ∧ baseExp r i b ≤ 255 := by
  unfold baseExp
  have he := r.e.isLt
  split <;> omega

/-- The exponent and the codes that a store of a nonzero bound leaves. -/
theorem storeBound_parts (r : BRec) {i : Nat} (hi : i < 32) {b : BitVec 16} (hb : b ≠ 0) :
    ((storeBound r i b).e.toNat : Int) = baseExp r i b + shortBy r i b
    ∧ recCode (storeBound r i b) i = BitVec.ofNat 3 (max (ceilLog b - baseExp r i b + 134 - shortBy r i b) 1).toNat
    ∧ ∀ j, j < 32 → j ≠ i → recCode (storeBound r i b) j
        = if recCode r j = 0 then 0 else loweredCode (recCode r j) (shortBy r i b) := by
  obtain ⟨hlo, hhi⟩ := baseExp_range r i b
  obtain ⟨-, hmax, -⟩ := ceilLog_spec hb
  have hstore : storeBound r i b = if 7 < ceilLog b - baseExp r i b + 134 then
        recSetCode ((boundedOthers r i).foldl (fun q j => recSetCode q j (loweredCode (recCode r j) (ceilLog b - baseExp r i b + 134 - 7)))
          { r with e := BitVec.ofNat 8 (min (baseExp r i b + (ceilLog b - baseExp r i b + 134 - 7)) 255).toNat }) i 7
      else recSetCode { r with e := BitVec.ofNat 8 (baseExp r i b).toNat } i (BitVec.ofNat 3 (max (ceilLog b - baseExp r i b + 134) 1).toNat) := by
    unfold storeBound
    rw [if_neg hb]
    rfl
  by_cases h7 : 7 < ceilLog b - baseExp r i b + 134
  · have hshort : shortBy r i b = ceilLog b - baseExp r i b + 134 - 7 := by unfold shortBy; omega
    rw [hstore, if_pos h7, ← hshort]
    obtain ⟨he, hc⟩ := foldl_recSetCode (fun j => loweredCode (recCode r j) (shortBy r i b)) (boundedOthers r i)
      { r with e := BitVec.ofNat 8 (min (baseExp r i b + shortBy r i b) 255).toNat }
    refine ⟨?_, ?_, fun j hj hji => ?_⟩
    · rw [recSetCode_e, he, BitVec.toNat_ofNat]
      omega
    · rw [recCode_recSetCode_self _ hi, show ceilLog b - baseExp r i b + 134 - shortBy r i b = 7 by omega]
      rfl
    · rw [recCode_recSetCode_ne _ hj hji, hc j hj]
      simp only [mem_boundedOthers, hj, hji, ne_eq, not_false_iff, true_and]
      by_cases h0 : recCode r j = 0
      · simp only [h0, not_true, if_false, if_true]
        exact h0
      · simp only [h0, not_false_iff, if_true, if_false]
  · have hshort : shortBy r i b = 0 := by unfold shortBy; omega
    rw [hstore, if_neg h7, hshort]
    refine ⟨?_, ?_, fun j hj hji => ?_⟩
    · rw [recSetCode_e, BitVec.toNat_ofNat]
      omega
    · rw [recCode_recSetCode_self _ hi, sub_zero]
    · rw [recCode_recSetCode_ne _ hj hji]
      by_cases h0 : recCode r j = 0
      · rw [if_pos h0]; exact h0
      · rw [if_neg h0, loweredCode_zero h0]; rfl

theorem byte_eq_255 {e : Byte} (h : (e.toNat : Int) = 255) : e = 255 := BitVec.eq_of_toNat_eq (by simpa using Int.ofNat_inj.mp h)

theorem code_eq_7 {c : BitVec 3} (h : (c.toNat : Int) = 7) : c = 7 := BitVec.eq_of_toNat_eq (by simpa using Int.ofNat_inj.mp h)

/-- The stored word's decoded bound is not below the bound stored. -/
theorem bdLe_recBound_storeBound_self (r : BRec) {i : Nat} (hi : i < 32) (b : BitVec 16) :
    bdLe (bdOf b) (bdOf (recBound (storeBound r i b) i)) = true := by
  by_cases hb : b = 0
  · rw [hb]
    exact bdLe_bdOf_zero _
  obtain ⟨he, hc, -⟩ := storeBound_parts r hi hb
  obtain ⟨hlo, hhi⟩ := baseExp_range r i b
  obtain ⟨-, hmax, -⟩ := ceilLog_spec hb
  have hneed : ceilLog b - baseExp r i b + 134 - shortBy r i b ≤ 7 := by unfold shortBy; omega
  have hn := toNat_code hneed
  have hs : shortBy r i b = max (ceilLog b - baseExp r i b + 127) 0 := rfl
  unfold recBound
  rw [hc]
  refine bdLe_codeBound hb (code_ne_zero hneed) ?_ (fun h128 => ⟨code_eq_7 (by omega), byte_eq_255 ?_⟩)
  · unfold codeExp
    omega
  · rw [he]
    by_cases hne : (boundedOthers r i).isEmpty
    · have hbase : baseExp r i b = min (max (ceilLog b + 127) 0) 255 := if_pos hne
      omega
    · omega

/-- No other word's decoded bound falls. -/
theorem bdLe_recBound_storeBound_ne (r : BRec) {i j : Nat} (hi : i < 32) (hj : j < 32) (hji : j ≠ i) (b : BitVec 16) :
    bdLe (bdOf (recBound r j)) (bdOf (recBound (storeBound r i b) j)) = true := by
  by_cases hb : b = 0
  · have hstore : storeBound r i b = recSetCode r i 0 := if_pos hb
    rw [recBound, recBound, hstore, recCode_recSetCode_ne r hj hji]
    exact bdLe_refl _
  by_cases h0 : recCode r j = 0
  · rw [recBound, h0]
    exact bdLe_bdOf_zero _
  obtain ⟨he, -, hc⟩ := storeBound_parts r hi hb
  obtain ⟨-, hmax, -⟩ := ceilLog_spec hb
  have hbase : baseExp r i b = r.e.toNat :=
    if_neg (fun h => by simpa [List.isEmpty_iff.mp h] using mem_boundedOthers.mpr ⟨hj, hji, h0⟩)
  have hs : shortBy r i b = max (ceilLog b - baseExp r i b + 127) 0 := rfl
  have hlt := (recCode r j).isLt
  have hcode : ((recCode r j).toNat : Int) - shortBy r i b ≤ 7 := by omega
  have hn := toNat_code hcode
  rw [recBound, recBound, hc j hj hji, if_neg h0]
  refine codeBound_mono (code_ne_zero hcode) ?_ (fun h7 h255 => ⟨code_eq_7 ?_, byte_eq_255 ?_⟩)
  · unfold codeExp loweredCode
    omega
  · have hr : r.e.toNat = 255 := by rw [h255]; rfl
    have hr7 : (recCode r j).toNat = 7 := by rw [h7]; rfl
    unfold loweredCode
    omega
  · have hr : r.e.toNat = 255 := by rw [h255]; rfl
    omega

/-- Settles O13: the stored word takes a code whose exponent is not below that of its bound, and where the record's exponent rises, the
other codes fall by no more (`storeBound_parts`). -/
theorem storedBoundsNeverFall : Obligations.StoredBoundsNeverFall := by
  intro r i b hi
  refine ⟨bdLe_recBound_storeBound_self r hi b, fun hb => ?_, fun j hj hji => bdLe_recBound_storeBound_ne r hi hj hji b⟩
  have hstore : storeBound r i b = recSetCode r i 0 := if_pos hb
  rw [recBound, hstore, recCode_recSetCode_self r hi]
  rfl

end Sys2Proof.Laws



/-! FMIN, FMAX, FSET and FCLS (R175, R177, R180, R68, R78). -/

namespace Sys2Proof.Laws

open Sys2Proof.Machine Sys2Proof.Claims Sys2Proof.Safety

/-! ## Elements of a value (R68) -/

theorem elemCount_of_ne {ty : Ty} (h : ty ≠ .bf16x2) : elemCount ty = 1 := if_neg (by simpa using h)

theorem mergeElems_one (x : DWord × Byte × BitVec 16) : mergeElems [x] = ⟨x.1, x.2.1, x.2.2⟩ := by
  simp [mergeElems]

theorem mergeElems_two (x y : DWord × Byte × BitVec 16) :
    mergeElems [x, y] = ⟨x.1 ||| y.1, x.2.1 ||| y.2.1, bndMax x.2.2 y.2.2⟩ := by
  simp [mergeElems]

/-! ## Order of finite values -/

theorem dyLt_asymm {a b : Dy} (h : dyLt a b = true) : dyLt b a = false := by
  rw [← Bool.not_eq_true, dyLt_iff] at *
  exact h.le.not_gt

theorem dyLt_zeros (n k : Bool) (e f : Int) : dyLt (fvDy (.fin n 0 e)) (fvDy (.fin k 0 f)) = false := by
  rw [← Bool.not_eq_true, dyLt_iff, dyVal_fvDy, dyVal_fvDy]
  simp [dyVal]

theorem exists_fin {x : FV} (h : fvIsFin x = true) : ∃ n m e, x = .fin n m e := by
  cases x with
  | nan s => exact nomatch h
  | inf n => exact nomatch h
  | fin n m e => exact ⟨n, m, e, rfl⟩

/-- x lies below y, −0 below +0 (R175). -/
def FinLess (x y : FV) : Prop := dyLt (fvDy x) (fvDy y) = true ∨ (fvIsZero x = true ∧ fvIsZero y = true ∧ fvSign x = true ∧ fvSign y = false)

theorem finLess_fin_iff (n k : Bool) (i j : Nat) (e f : Int) : FinLess (.fin n i e) (.fin k j f)
    ↔ dyLt (fvDy (.fin n i e)) (fvDy (.fin k j f)) = true ∨ (i = 0 ∧ j = 0 ∧ n = true ∧ k = false) := by
  simp [FinLess, fvIsZero, fvSign]

theorem fvCmp_of_less {x y : FV} (hx : fvIsFin x = true) (hy : fvIsFin y = true) (h : FinLess x y) : fvCmp true x y = .lt := by
  obtain ⟨n, i, e, rfl⟩ := exists_fin hx
  obtain ⟨k, j, f, rfl⟩ := exists_fin hy
  rcases h with h | ⟨hi, hj, hn, hk⟩
  · exact if_pos h
  · obtain rfl : i = 0 := by simpa [fvIsZero] using hi
    obtain rfl : j = 0 := by simpa [fvIsZero] using hj
    simp only [fvSign] at hn hk
    simp [fvCmp, dyLt_zeros, fvIsZero, fvSign, hn, hk]

theorem fvCmp_of_greater {x y : FV} (hx : fvIsFin x = true) (hy : fvIsFin y = true) (h : FinLess y x) : fvCmp true x y = .gt := by
  obtain ⟨n, i, e, rfl⟩ := exists_fin hx
  obtain ⟨k, j, f, rfl⟩ := exists_fin hy
  rcases h with h | ⟨hj, hi, hk, hn⟩
  · exact (if_neg (by rw [dyLt_asymm h]; decide)).trans (if_pos h)
  · obtain rfl : i = 0 := by simpa [fvIsZero] using hi
    obtain rfl : j = 0 := by simpa [fvIsZero] using hj
    simp only [fvSign] at hn hk
    simp [fvCmp, dyLt_zeros, fvIsZero, fvSign, hn, hk]

/-! ## FMIN and FMAX (R175) -/

/-- The bound of a value delivered: unbounded of one that is not finite (R80). -/
def finBound (v : FV) (b : BitVec 16) : BitVec 16 := if fvIsFin v then b else 0xFF00

/-- Whether FMIN or FMAX takes its first operand. -/
def takesFirst (lo : Bool) (x y : FV) : Bool := if lo then fvCmp true x y != .gt else fvCmp true x y != .lt

def nvOf (x y : FV) : Byte := flIf (fvIsSig x || fvIsSig y) flNV

theorem nvOf_eq (x y : FV) : nvOf x y = if fvIsSig x ∨ fvIsSig y then 1 else 0 := by
  unfold nvOf flIf flNV
  cases fvIsSig x <;> cases fvIsSig y <;> rfl

theorem fvIsSig_of_not_nan {x : FV} (h : fvIsNan x = false) : fvIsSig x = false := by
  cases x with
  | nan s => exact nomatch h
  | inf n => rfl
  | fin n m e => rfl

theorem nvOf_of_not_nan {x y : FV} (hx : fvIsNan x = false) (hy : fvIsNan y = false) : nvOf x y = 0 := by
  rw [nvOf, fvIsSig_of_not_nan hx, fvIsSig_of_not_nan hy]
  rfl

theorem minMaxElem_nans {x y : FV} (hx : fvIsNan x = true) (hy : fvIsNan y = true) (lo : Bool) (bx by_ : BitVec 16) :
    minMaxElem lo x y bx by_ = (.nan false, nvOf x y, 0xFF00) := by
  simp only [minMaxElem, hx, hy, Bool.and_self, if_true]
  rfl

theorem minMaxElem_nan_left {x y : FV} (hx : fvIsNan x = true) (hy : fvIsNan y = false) (lo : Bool) (bx by_ : BitVec 16) :
    minMaxElem lo x y bx by_ = (y, nvOf x y, finBound y by_) := by
  simp only [minMaxElem, hx, hy, Bool.and_false, Bool.false_eq_true, if_true, if_false]
  rfl

theorem minMaxElem_nan_right {x y : FV} (hx : fvIsNan x = false) (hy : fvIsNan y = true) (lo : Bool) (bx by_ : BitVec 16) :
    minMaxElem lo x y bx by_ = (x, nvOf x y, finBound x bx) := by
  simp only [minMaxElem, hx, hy, Bool.and_true, Bool.false_eq_true, if_true, if_false]
  rfl

/-- Without a NaN: the operand taken, with its bound, or the larger one where the operands overlap (R81). -/
theorem minMaxElem_ordered {x y : FV} (hx : fvIsNan x = false) (hy : fvIsNan y = false) (lo : Bool) (bx by_ : BitVec 16) :
    minMaxElem lo x y bx by_ = (if takesFirst lo x y then x else y, 0,
      finBound (if takesFirst lo x y then x else y)
        (if straddles x y (bdOf bx) (bdOf by_) then bndMax bx by_ else if takesFirst lo x y then bx else by_)) := by
  have hnv := nvOf_of_not_nan hx hy
  simp only [nvOf] at hnv
  simp only [minMaxElem, hx, hy, hnv, Bool.and_false, Bool.false_eq_true, if_false]
  rfl

/-- Bounded operands whose bounds together do not reach over their distance. -/
def Apart (x y : FV) (bx by_ : BitVec 16) : Prop :=
  ∃ u v, bdOf bx = some u ∧ bdOf by_ = some v ∧ dyLt (dyAdd u v) (dyAbs (dySub (fvDy x) (fvDy y))) = true

theorem straddles_eq_false_iff {x y : FV} (hx : fvIsFin x = true) (hy : fvIsFin y = true) (bx by_ : BitVec 16) :
    straddles x y (bdOf bx) (bdOf by_) = false ↔ Apart x y bx by_ := by
  obtain ⟨n, i, e, rfl⟩ := exists_fin hx
  obtain ⟨k, j, f, rfl⟩ := exists_fin hy
  unfold straddles fvGap Apart
  cases bdOf bx with
  | none => simp [bdAdd]
  | some u =>
    cases bdOf by_ with
    | none => simp [bdAdd]
    | some v => simp [bdAdd, bdLe, dyLt_eq_not_dyLe]

theorem fvIsNan_of_fin {x : FV} (h : fvIsFin x = true) : fvIsNan x = false := by
  cases x with
  | nan s => exact nomatch h
  | inf n => rfl
  | fin n m e => rfl

theorem minMaxElem_fin (lo : Bool) {x y : FV} (hx : fvIsFin x = true) (hy : fvIsFin y = true) (bx by_ : BitVec 16) :
    let out := minMaxElem lo x y bx by_
    ((if lo then FinLess x y else FinLess y x) → out.1 = x ∧ (Apart x y bx by_ → out.2.2 = bx))
    ∧ ((if lo then FinLess y x else FinLess x y) → out.1 = y ∧ (Apart x y bx by_ → out.2.2 = by_))
    ∧ out.2.1 = 0 ∧ (¬ Apart x y bx by_ → out.2.2 = bndMax bx by_) := by
  intro out
  have hout : out = _ := minMaxElem_ordered (fvIsNan_of_fin hx) (fvIsNan_of_fin hy) lo bx by_
  have hfin (b : Bool) (c : BitVec 16) : finBound (if b then x else y) c = c := if_pos (by cases b <;> assumption)
  rw [hfin] at hout
  have hst := straddles_eq_false_iff hx hy bx by_
  have hover : Apart x y bx by_ → (if straddles x y (bdOf bx) (bdOf by_) then bndMax bx by_
      else if takesFirst lo x y then bx else by_) = if takesFirst lo x y then bx else by_ :=
    fun ha => if_neg (by rw [hst.mpr ha]; decide)
  rw [hout]
  refine ⟨fun h => ?_, fun h => ?_, rfl, fun h => if_pos (by rw [← Bool.not_eq_false, hst]; exact h)⟩
  · have ht : takesFirst lo x y = true := by
      unfold takesFirst
      cases lo
      · rw [fvCmp_of_greater hx hy h]; rfl
      · rw [fvCmp_of_less hx hy h]; rfl
    rw [ht] at hover ⊢
    exact ⟨rfl, hover⟩
  · have ht : takesFirst lo x y = false := by
      unfold takesFirst
      cases lo
      · rw [fvCmp_of_less hx hy h]; rfl
      · rw [fvCmp_of_greater hx hy h]; rfl
    rw [ht] at hover ⊢
    exact ⟨rfl, hover⟩

/-- An infinite operand: FMIN takes −∞, FMAX +∞, and each leaves the other infinity. -/
theorem minMaxElem_inf (lo : Bool) {n : Bool} {x y : FV} (h : x = .inf n ∨ y = .inf n) (hx : fvIsNan x = false) (hy : fvIsNan y = false)
    (bx by_ : BitVec 16) :
    let out := minMaxElem lo x y bx by_
    out.2.1 = 0 ∧ (lo = n → out = (.inf n, 0, 0xFF00)) ∧ (lo ≠ n → out.1 = if x = .inf n then y else x) := by
  intro out
  have hout : out = _ := minMaxElem_ordered hx hy lo bx by_
  refine ⟨by rw [hout], ?_, ?_⟩
  · rintro rfl
    have hv : (if takesFirst lo x y then x else y) = .inf lo := by
      rcases h with rfl | rfl
      · rcases y with s | m | ⟨m, j, f⟩
        · exact nomatch hy
        · cases lo <;> cases m <;> rfl
        · cases lo <;> rfl
      · rcases x with s | m | ⟨m, j, f⟩
        · exact nomatch hx
        · cases lo <;> cases m <;> rfl
        · cases lo <;> rfl
    rw [hout, hv]
    rfl
  · intro hne
    obtain rfl : n = !lo := by cases lo <;> cases n <;> simp_all
    rw [hout]
    rcases h with rfl | rfl
    · rcases y with s | m | ⟨m, j, f⟩
      · exact nomatch hy
      · cases lo <;> cases m <;> rfl
      · cases lo <;> rfl
    · rcases x with s | m | ⟨m, j, f⟩
      · exact nomatch hx
      · cases lo <;> cases m <;> rfl
      · cases lo <;> rfl

theorem minMax_one {ty : Ty} (h : ty ≠ .bf16x2) (lo : Bool) (m : Mods) (a b : DWord) (ba bb : BitVec 16) :
    let r := minMaxElem lo (fvMod m.na m.aa (elemOf ty a 0)) (fvMod m.nb m.ab (elemOf ty b 0)) ba bb
    minMax lo ty m a b ba bb = ⟨elemBits ty 0 r.1, r.2.1, r.2.2⟩ := by
  unfold minMax
  rw [elemCount_of_ne h]
  exact mergeElems_one _

theorem minMaxRules : MinMaxRules := by
  intro lo ty m a b ba bb hty
  dsimp only
  rw [minMax_one hty, ← nvOf_eq]
  generalize fvMod m.na m.aa (elemOf ty a 0) = x
  generalize fvMod m.nb m.ab (elemOf ty b 0) = y
  refine ⟨fun hx hy => by rw [minMaxElem_nans hx hy], fun hx hy => by rw [minMaxElem_nan_left hx hy]; rfl,
    fun hx hy => by rw [minMaxElem_nan_right hx hy]; rfl, ?_, ?_⟩
  · rintro n i e k j f rfl rfl
    obtain ⟨hless, hgreater, hfl, hover⟩ := minMaxElem_fin lo (x := .fin n i e) (y := .fin k j f) rfl rfl ba bb
    rw [finLess_fin_iff, finLess_fin_iff] at hless hgreater
    have hswap : (j = 0 ∧ i = 0 ∧ k = true ∧ n = false) ↔ (i = 0 ∧ j = 0 ∧ n = false ∧ k = true) := by tauto
    rw [hswap] at hless hgreater
    exact ⟨fun h => ⟨congrArg (elemBits ty 0) (hless h).1, (hless h).2⟩, fun h => ⟨congrArg (elemBits ty 0) (hgreater h).1, (hgreater h).2⟩,
      hfl, hover⟩
  · intro n h hx hy
    obtain ⟨hfl, hsame, hother⟩ := minMaxElem_inf lo h hx hy ba bb
    exact ⟨hfl, fun e => by rw [hsame e], fun e => congrArg (elemBits ty 0) (hother e)⟩

theorem minMaxPairs : MinMaxPairs := by
  intro lo m a b ba bb
  exact mergeElems_two _ _

/-! ## FCLS (R180) -/

theorem classRules : ClassRules := by
  intro ty a
  dsimp only
  unfold fclsRes
  cases elemOf ty a 0 with
  | nan s => cases s <;> rfl
  | inf n => rfl
  | fin n m e =>
    refine ⟨fun h => if_pos h, fun h hlt => (if_neg h).trans (if_pos hlt), fun hle => ?_⟩
    have hm : m ≠ 0 := by
      rintro rfl
      rw [dyLe_iff, dyVal_dyPow] at hle
      have hpos := two_zpow_pos (tyFmt ty).emin
      simp [dyVal] at hle
      linarith
    exact (if_neg hm).trans (if_neg (by rw [dyLt_eq_not_dyLe, hle]; decide))

/-! ## FSET (R177) -/

theorem fsetOnNansAndZeros : FsetOnNansAndZeros := by
  refine ⟨fun x y h => ?_, fun m n e f => ?_, fun x y h => ?_⟩
  · simp [fsetHolds, h]
  · simp [fsetHolds, fvIsNan, fvCmp, dyLt_zeros]
  · simp only [fsetHolds, h]
    cases fvCmp false x y <;> exact ⟨rfl, rfl, rfl⟩

/-! ## The statement -/

theorem hiWord_setWidth (w : Word) : hiWord (w.setWidth 64) = 0 := by
  have h := w.isLt
  apply BitVec.eq_of_toNat_eq
  simp [hiWord]
  omega

theorem loWord_setWidth (w : Word) : loWord (w.setWidth 64) = w := by
  have h := w.isLt
  apply BitVec.eq_of_toNat_eq
  simp [loWord]

/-- Settles O8: the lanes write what the units deliver, whatever the budget; what the units deliver is said of each kind of operands by
`minMaxElem_nans` to `minMaxElem_inf`, `classRules` and `fsetOnNansAndZeros`. -/
theorem floatCompareResults : Obligations.FloatCompareResults := by
  refine ⟨⟨fun x => ?_, fun x => ?_, fun x => ?_, fun x => ?_, minMaxRules, minMaxPairs, classRules⟩, fsetOnNansAndZeros⟩
  · exact eachLane_of_deliverFree (fun _ => rfl)
  · exact eachLane_of_deliverFree (fun _ => rfl)
  · exact fun s gid g h => congrArg Host.Outcome.next (threadOp_each (fun _ => rfl) h)
  · refine fun s gid g h => congrArg Host.Outcome.next (threadOp_each (fun t => congrArg Except.ok ?_) h)
    cases x.ty.wide
    · simp only [wrTy, loWord_setWidth, Bool.false_eq_true, if_false]
    · simp only [wrTy, loWord_setWidth, hiWord_setWidth, if_true]

end Sys2Proof.Laws



/-! SUPPORT. Exact operations on dyadic reals as operations on rationals, and how near a rounding comes (R60). -/

namespace Sys2Proof.Laws

open Sys2Proof.Machine Sys2Proof.Claims

/-! ## Exact operations -/

@[simp] theorem dyVal_dyAdd (a b : Dy) : dyVal (dyAdd a b) = dyVal a + dyVal b := by
  rw [← dyAt_mul a (min_le_left a.e b.e), ← dyAt_mul b (min_le_right a.e b.e), ← add_mul, ← Int.cast_add]
  rfl

@[simp] theorem dyVal_dyNeg (a : Dy) : dyVal (dyNeg a) = -dyVal a := by simp [dyVal, dyNeg]

@[simp] theorem dyVal_dySub (a b : Dy) : dyVal (dySub a b) = dyVal a - dyVal b := by
  rw [dySub, dyVal_dyAdd, dyVal_dyNeg, sub_eq_add_neg]

@[simp] theorem dyVal_dyMul (a b : Dy) : dyVal (dyMul a b) = dyVal a * dyVal b := by
  simp only [dyVal, dyMul, zpow_add₀ (two_ne_zero (α := ℚ)), Int.cast_mul]
  ring

@[simp] theorem dyVal_dyAbs (a : Dy) : dyVal (dyAbs a) = |dyVal a| := by
  simp [dyVal, dyAbs, abs_mul, abs_of_pos (two_zpow_pos a.e), ← Int.cast_abs]

@[simp] theorem dyVal_dyScale (a : Dy) (k : Int) : dyVal (dyScale a k) = dyVal a * 2 ^ k := by
  simp only [dyVal, dyScale, zpow_add₀ (two_ne_zero (α := ℚ))]
  ring

@[simp] theorem dyVal_dyInt (n : Int) : dyVal (dyInt n) = n := by simp [dyVal, dyInt]

@[simp] theorem dyVal_dyZero : dyVal dyZero = 0 := by simp [dyVal, dyZero]

theorem dyVal_natCast (n : Nat) (e : Int) : dyVal ⟨n, e⟩ = n * 2 ^ e := by simp [dyVal]

theorem dyVal_nonneg_iff (a : Dy) : 0 ≤ dyVal a ↔ 0 ≤ a.m := by
  rw [dyVal, mul_nonneg_iff_of_pos_right (two_zpow_pos _), Int.cast_nonneg_iff]

theorem dyVal_pos_iff (a : Dy) : 0 < dyVal a ↔ 0 < a.m := by
  rw [dyVal, mul_pos_iff_of_pos_right (two_zpow_pos _), Int.cast_pos]

theorem dyVal_eq_zero_iff (a : Dy) : dyVal a = 0 ↔ a.m = 0 := by
  rw [dyVal, mul_eq_zero, or_iff_left (two_zpow_pos _).ne', Int.cast_eq_zero]

theorem dyFloor_eq (a : Dy) : dyFloor a = ⌊dyVal a⌋ := by
  have hneg : dyFloor a = -dyCeil (dyNeg a) := by
    unfold dyFloor dyCeil dyNeg
    split <;> simp
  rw [hneg, dyCeil_eq, dyVal_dyNeg, Int.ceil_neg, neg_neg]

/-! ## How near a rounding comes -/

/-- A rounding is off by less than a unit. -/
theorem roundUnits_near (rnd : Rnd) (neg : Bool) (m : Nat) (e q : Int) (flip : Bool) :
    |dyVal ⟨(roundUnits rnd neg m e q flip).1, q⟩ - dyVal ⟨m, e⟩| < 2 ^ q := by
  rcases lt_or_ge e q with h | h
  · obtain ⟨n, r, hm, hr, -, hcase⟩ := roundUnits_cases h rnd neg m flip
    have hunit : (2 : ℚ) ^ q = ((2 ^ (q - e).toNat : Nat) : ℚ) * 2 ^ e := by
      push_cast
      exact (two_pow_toNat_mul h.le).symm
    have hx : dyVal ⟨m, e⟩ = (n : ℚ) * 2 ^ q + r * 2 ^ e := by
      rw [dyVal_natCast, hm, hunit]
      push_cast
      ring
    have hr0 : (0 : ℚ) ≤ r * 2 ^ e := mul_nonneg (Nat.cast_nonneg _) (two_zpow_pos e).le
    have hr1 : (r : ℚ) * 2 ^ e < 2 ^ q := by
      rw [hunit]
      exact mul_lt_mul_of_pos_right (by exact_mod_cast hr) (two_zpow_pos e)
    have hrne (h0 : r ≠ 0) : (0 : ℚ) < r * 2 ^ e := mul_pos (by exact_mod_cast Nat.pos_of_ne_zero h0) (two_zpow_pos e)
    rcases hcase with ⟨-, hround⟩ | ⟨h0, -, hround⟩ | ⟨-, -, hround⟩ <;> rw [hround, dyVal_natCast, hx, abs_lt]
    · constructor <;> linarith
    · have := hrne h0
      push_cast
      constructor <;> linarith
    · constructor <;> linarith
  · rw [roundUnits_of_le h, ← dyVal_units h, sub_self, abs_zero]
    exact two_zpow_pos q

/-- To nearest it is off by half a unit or less, and by half only where it takes an even number of units. -/
theorem roundUnits_rne_near (neg : Bool) (m : Nat) (e q : Int) :
    let k := (roundUnits .rne neg m e q).1
    |dyVal ⟨k, q⟩ - dyVal ⟨m, e⟩| ≤ 2 ^ (q - 1) ∧ (|dyVal ⟨k, q⟩ - dyVal ⟨m, e⟩| = 2 ^ (q - 1) → k % 2 = 0) := by
  intro k
  have hpos := two_zpow_pos (q - 1)
  rcases lt_or_ge e q with h | h
  · obtain ⟨n, r, hm, hr, -, hcase⟩ := roundUnits_cases h .rne neg m false
    generalize hd : 2 ^ (q - e).toNat = d at *
    have hunit : (2 : ℚ) ^ q = (d : ℚ) * 2 ^ e := by
      rw [← hd]
      push_cast
      exact (two_pow_toNat_mul h.le).symm
    have hhalf : (2 : ℚ) ^ (q - 1) = (d : ℚ) / 2 * 2 ^ e := by
      rw [zpow_sub_one₀ two_ne_zero, hunit]
      ring
    have hx : dyVal ⟨m, e⟩ = (n : ℚ) * 2 ^ q + r * 2 ^ e := by
      rw [dyVal_natCast, hm, hunit]
      push_cast
      ring
    have he := two_zpow_pos e
    rcases hcase with ⟨h0, hround⟩ | ⟨h0, hup, hround⟩ | ⟨h0, hup, hround⟩
    · have hk : k = n := congrArg Prod.fst hround
      have hzero : dyVal ⟨k, q⟩ - dyVal ⟨m, e⟩ = 0 := by rw [hk, dyVal_natCast, hx, h0]; simp
      rw [hzero, abs_zero]
      exact ⟨hpos.le, fun h0 => absurd h0 hpos.ne⟩
    · have hk : k = n + 1 := congrArg Prod.fst hround
      have hdiff : dyVal ⟨k, q⟩ - dyVal ⟨m, e⟩ = ((d - r : Nat) : ℚ) * 2 ^ e := by
        rw [hk, dyVal_natCast, hx, hunit, Nat.cast_sub hr.le]
        push_cast
        ring
      have hside := roundsUp_rne hup
      simp only [iff_true] at hside
      rw [hdiff, abs_of_nonneg (mul_nonneg (Nat.cast_nonneg _) he.le), hhalf, mul_le_mul_iff_left₀ he, mul_left_inj' he.ne',
        le_div_iff₀ two_pos, eq_div_iff two_ne_zero]
      norm_cast
      omega
    · have hk : k = n := congrArg Prod.fst hround
      have hdiff : dyVal ⟨k, q⟩ - dyVal ⟨m, e⟩ = -((r : ℚ) * 2 ^ e) := by
        rw [hk, dyVal_natCast, hx]
        ring
      have hside := roundsUp_rne hup
      simp only [Bool.false_eq_true, iff_false] at hside
      rw [hdiff, abs_neg, abs_of_nonneg (mul_nonneg (Nat.cast_nonneg _) he.le), hhalf, mul_le_mul_iff_left₀ he, mul_left_inj' he.ne',
        le_div_iff₀ two_pos, eq_div_iff two_ne_zero]
      norm_cast
      omega
  · have hk : dyVal ⟨k, q⟩ - dyVal ⟨m, e⟩ = 0 := by
      have hk : k = m * 2 ^ (e - q).toNat := congrArg Prod.fst (roundUnits_of_le h .rne neg m false)
      rw [hk, ← dyVal_units h, sub_self]
    rw [hk, abs_zero]
    exact ⟨hpos.le, fun h0 => absurd h0 hpos.ne⟩

/-! ## A rounding into a format, with its flags (R60, R64, R70) -/

theorem inexactFlags_bits (i t : Bool) : (inexactFlags i t &&& 0x10 ≠ 0 ↔ i = true) ∧ (inexactFlags i t &&& 0x08 ≠ 0 ↔ i = true ∧ t = true)
    ∧ inexactFlags i t &&& 0x04 = 0 := by
  cases i <;> cases t <;> decide

theorem fvDy_fin_m_eq_zero {n : Bool} {m : Nat} {e : Int} : (fvDy (.fin n m e)).m = 0 ↔ m = 0 := by cases n <;> simp [fvDy]

theorem fvDy_fin_sign {m : Nat} (h : m ≠ 0) (n : Bool) (e : Int) : decide ((fvDy (.fin n m e)).m < 0) = n := by
  cases n
  · simp [fvDy]
  · simpa [fvDy] using Nat.pos_of_ne_zero h

theorem fvDy_fin_natAbs (n : Bool) (m : Nat) (e : Int) : (fvDy (.fin n m e)).m.natAbs = m := by cases n <;> simp [fvDy]

/-- What a format's rounding of ±m·2^e delivers: zero; the value of R70 with its flags; or, beyond the largest magnitude, that or an
infinity. -/
inductive RoundsInto (f : IFmt) (rnd : Rnd) (neg : Bool) (m : Nat) (e : Int) (r : Rounded) : Prop
  | zero (hm : m = 0) (hr : r = ⟨.fin neg 0 0, 0, false⟩)
  | near (hm : m ≠ 0) (ho : r.ovf = false) (hof : r.fl &&& 0x04 = 0) (hfl : FlagsFit f (fvDy (.fin neg m e)) r.v r.fl)
      (hv : RoundedOnce f rnd (fvDy (.fin neg m e)) r.v)
  | over (hm : m ≠ 0) (ho : r.ovf = true) (hof : r.fl = 0x14) (hv : r.v = .inf neg ∨ r.v = Claims.topOf f neg)

theorem overflowI_cases (f : IFmt) (rnd : Rnd) (neg : Bool) : overflowI f rnd neg = .inf neg ∨ overflowI f rnd neg = Claims.topOf f neg := by
  cases rnd <;> cases neg <;> simp [overflowI, Claims.topOf]

theorem roundI_roundsInto (f : IFmt) (rnd : Rnd) (neg : Bool) (m : Nat) (e : Int) : RoundsInto f rnd neg m e (roundI f rnd neg m e) := by
  by_cases hm : m = 0
  · exact .zero hm (if_pos hm)
  have hround : roundI f rnd neg m e =
      let q := fmtQ f (Nat.log2 m + e)
      let k := roundUnits rnd neg m e q
      if dyLt (fmtMax f) ⟨k.1, q⟩ then ⟨overflowI f rnd neg, flOF ||| flNX, true⟩
      else ⟨.fin neg k.1 q, inexactFlags k.2 (dyLt ⟨k.1, q⟩ (dyPow f.emin)), false⟩ := if_neg hm
  rw [hround]
  dsimp only
  split
  · exact .over hm rfl rfl (overflowI_cases f rnd neg)
  · obtain ⟨hnx, huf, hof⟩ := inexactFlags_bits (roundUnits rnd neg m e (fmtQ f (Nat.log2 m + e))).2
      (dyLt ⟨(roundUnits rnd neg m e (fmtQ f (Nat.log2 m + e))).1, fmtQ f (Nat.log2 m + e)⟩ (dyPow f.emin))
    have heq := (roundUnits_roundsTo rnd neg m e (fmtQ f (Nat.log2 m + e)) false).dyEq_eq rfl
    have hexact : dyEq (fvDy (.fin neg (roundUnits rnd neg m e (fmtQ f (Nat.log2 m + e))).1 (fmtQ f (Nat.log2 m + e)))) (fvDy (.fin neg m e))
        = false ↔ (roundUnits rnd neg m e (fmtQ f (Nat.log2 m + e))).2 = true := by rw [heq, Bool.not_eq_false']
    refine .near hm rfl hof ⟨rfl, hnx.trans hexact.symm, ?_⟩ (fun _ => ?_)
    · rw [hexact, dyAbs_fvDy]
      exact huf.trans ⟨fun h => ⟨h.1, mt fvDy_fin_m_eq_zero.mp hm, h.2⟩, fun h => ⟨h.1, h.2.2⟩⟩
    · rw [fvDy_fin_sign hm, dyLog, fvDy_fin_natAbs]
      rfl

/-- The floor of R69, from the value delivered and the exact one. -/
theorem floorS_eq {v : FV} (hv : fvIsFin v = true) {d : Dy} {z : Bool} (hz : z = true ↔ d.m = 0) (ty : Ty) :
    floorS ty v z = floorAt ty (fvDy v) d := by
  obtain ⟨n, m, e, rfl⟩ := exists_fin hv
  have hfloor : floorOf ty = floorTable ty := by cases ty <;> rfl
  simp only [floorS, floorAt, dyAbs_fvDy, hfloor]
  cases z
  · have hd : d.m ≠ 0 := fun h => nomatch hz.mpr h
    simp [hd]
  · have hd : d.m = 0 := hz.mp rfl
    simp [hd]

end Sys2Proof.Laws



/-! FRND, FSCL and the function unit (R77-R80, R176, R178, R179, Table 8-6). -/

namespace Sys2Proof.Laws

open Sys2Proof.Machine Sys2Proof.Claims Sys2Proof.Safety

/-! ## Units whose result is checked for a breach (R77) -/

theorem deliver_of_checked {wide : Bool} {d : VReg} {r : Thread → Deliv} {t v : Thread} (h : checked wide d r t = some v) :
    deliver t wide d (r t) = .ok v := by
  rw [deliver_eq, checkedOr, h]
  rfl

theorem laneSteps_of_deliver {i : Instr} {gd : Guard} {wide : Bool} {d : VReg} {r : Thread → Deliv}
    (hi : ∀ s, exec i s = .next (threadOp gd (fun t => deliver t wide d (r t)) s)) : LaneSteps i gd (fun _ => ownStep (checked wide d r)) :=
  fun s _ _ _ h hr => (hi s).trans (congrArg Host.Outcome.next (threadOp_steps (fun _ _ => deliver_of_checked) h hr))

/-! ## FRND (R176) -/

/-- The j-th boundary of a direction: a tie of the nearest, an integer of the others. -/
def boundary (rnd : Rnd) (j : Int) : Dy := if rnd = .rne then dyAdd (dyInt j) (dyPow (-1)) else dyInt j

theorem ceil_le_floor_iff (a b : ℚ) : ⌈a⌉ ≤ ⌊b⌋ ↔ ∃ j : Int, a ≤ j ∧ j ≤ b :=
  ⟨fun h => ⟨⌈a⌉, Int.le_ceil a, Int.le_floor.mp h⟩, fun ⟨_, ha, hb⟩ => (Int.ceil_le.mpr ha).trans (Int.le_floor.mpr hb)⟩

/-- Two integers enclose one that is not 0, unless both are 0. -/
theorem exists_ne_zero_between {a b : Int} : (a ≤ b ∧ ¬ (a = 0 ∧ b = 0)) ↔ ∃ j : Int, j ≠ 0 ∧ a ≤ j ∧ j ≤ b := by
  constructor
  · rintro ⟨hle, hne⟩
    by_cases ha : a = 0
    · exact ⟨b, by tauto, hle, le_rfl⟩
    · exact ⟨a, ha, le_rfl, hle⟩
  · rintro ⟨j, hj, ha, hb⟩
    omega

/-- What the test of Table 4-5 finds. -/
theorem hasBoundary_iff (rnd : Rnd) (lo hi : Dy) : hasBoundary rnd lo hi = true
    ↔ ∃ j : Int, (rnd = .rtz → j ≠ 0) ∧ dyLe lo (boundary rnd j) = true ∧ dyLe (boundary rnd j) hi = true := by
  have hhalf : dyVal (⟨1, -1⟩ : Dy) = 2 ^ (-1 : Int) := dyVal_dyPow (-1)
  cases rnd
  · simp [hasBoundary, boundary, dyCeil_eq, dyFloor_eq, ceil_le_floor_iff, dyLe_iff, hhalf, dyVal_dyPow, le_sub_iff_add_le]
  · have hboth : hasBoundary .rtz lo hi = true ↔ dyCeil lo ≤ dyFloor hi ∧ ¬ (dyCeil lo = 0 ∧ dyFloor hi = 0) := by
      simp [hasBoundary, ← not_and_or]
    rw [hboth, exists_ne_zero_between]
    simp [boundary, dyLe_iff, dyCeil_eq, dyFloor_eq, Int.ceil_le, Int.le_floor]
  · simp [hasBoundary, boundary, dyCeil_eq, dyFloor_eq, ceil_le_floor_iff, dyLe_iff]
  · simp [hasBoundary, boundary, dyCeil_eq, dyFloor_eq, ceil_le_floor_iff, dyLe_iff]

/-- The bound of FRND (Table 4-5). -/
def frndBound (rnd : Rnd) (x : Dy) (b : Bd) : Bd := match b with
  | none => none
  | some b => if b.m = 0 then bdZero else if hasBoundary rnd (dySub x b) (dyAdd x b) then some (dyAdd b (dyInt 1)) else bdZero

/-- FRND of a finite value. -/
theorem frndRes_fin {ty : Ty} {na aa : Bool} {a : DWord} {n : Bool} {m : Nat} {e : Int} (h : fvMod na aa (elemOf ty a 0) = .fin n m e)
    (rnd : Rnd) (ba : BitVec 16) : frndRes ty rnd na aa a ba
      = ⟨elemBits ty 0 (.fin n (roundUnits rnd n m e 0).1 0), 0, upBd (frndBound rnd (fvDy (.fin n m e)) (bdOf ba))⟩ := by
  unfold frndRes
  rw [h]
  rfl

theorem upBd_bdZero : upBd bdZero = 0 := rfl

/-- Directions that round a magnitude down, and those that round it up (R60). -/
theorem roundUnits_down {rnd : Rnd} {n : Bool} (h : rnd = .rtz ∨ (rnd = .rdn ∧ n = false) ∨ (rnd = .rup ∧ n = true)) (m : Nat) (e : Int) :
    dyLe (dyInt (roundUnits rnd n m e 0).1) ⟨m, e⟩ = true ∧ dyLt ⟨m, e⟩ (dyInt ((roundUnits rnd n m e 0).1 + 1)) = true := by
  have hside := roundUnits_roundsTo rnd n m e 0 false
  have hnear := roundUnits_near rnd n m e 0 false
  have hle : dyVal ⟨(roundUnits rnd n m e 0).1, 0⟩ ≤ dyVal ⟨m, e⟩ := by
    rcases h with rfl | ⟨rfl, rfl⟩ | ⟨rfl, rfl⟩
    · exact hside.toward rfl
    · exact hside.down rfl
    · exact hside.up rfl
  rw [abs_lt, dyVal_natCast, zpow_zero, mul_one] at hnear
  rw [dyVal_natCast _ 0, zpow_zero, mul_one] at hle
  rw [dyLe_iff, dyLt_iff, dyVal_dyInt, dyVal_dyInt]
  push_cast
  exact ⟨hle, by linarith [hnear.1]⟩

theorem roundUnits_up {rnd : Rnd} {n : Bool} (h : (rnd = .rdn ∧ n = true) ∨ (rnd = .rup ∧ n = false)) (m : Nat) (e : Int) :
    dyLe ⟨m, e⟩ (dyInt (roundUnits rnd n m e 0).1) = true ∧ dyLt (dyInt ((roundUnits rnd n m e 0).1 - 1)) ⟨m, e⟩ = true := by
  have hside := roundUnits_roundsTo rnd n m e 0 false
  have hnear := roundUnits_near rnd n m e 0 false
  have hle : dyVal ⟨m, e⟩ ≤ dyVal ⟨(roundUnits rnd n m e 0).1, 0⟩ := by
    rcases h with ⟨rfl, rfl⟩ | ⟨rfl, rfl⟩
    · exact hside.down rfl
    · exact hside.up rfl
  rw [abs_lt, dyVal_natCast, zpow_zero, mul_one] at hnear
  rw [dyVal_natCast _ 0, zpow_zero, mul_one] at hle
  rw [dyLe_iff, dyLt_iff, dyVal_dyInt, dyVal_dyInt]
  push_cast
  exact ⟨hle, by linarith [hnear.2]⟩

theorem roundUnits_nearest (n : Bool) (m : Nat) (e : Int) :
    let k := (roundUnits .rne n m e 0).1
    dyLe (dyAbs (dySub (dyInt k) ⟨m, e⟩)) (dyPow (-1)) = true
      ∧ (dyEq (dyAbs (dySub (dyInt k) ⟨m, e⟩)) (dyPow (-1)) = true → k % 2 = 0) := by
  intro k
  obtain ⟨hle, heven⟩ := roundUnits_rne_near n m e 0
  rw [dyVal_natCast, zpow_zero, mul_one] at hle heven
  rw [dyLe_iff, dyEq_iff, dyVal_dyAbs, dyVal_dySub, dyVal_dyInt, dyVal_dyPow]
  exact ⟨hle, heven⟩

theorem frndRules : FrndRules := by
  intro ty rnd na aa a ba
  dsimp only
  refine ⟨fun h => ?_, fun h => ?_, fun n m e h => ?_⟩
  · unfold frndRes
    cases hx : fvMod na aa (elemOf ty a 0) with
    | nan s => cases s <;> rfl
    | inf n => rw [hx] at h; exact nomatch h
    | fin n m e => rw [hx] at h; exact nomatch h
  · unfold frndRes
    cases hx : fvMod na aa (elemOf ty a 0) with
    | nan s => rw [hx] at h; exact nomatch h
    | inf n => rfl
    | fin n m e => rw [hx] at h; exact nomatch h
  · rw [frndRes_fin h, h]
    refine ⟨_, _, rfl, fun hd => roundUnits_down hd m e, fun hu => roundUnits_up hu m e, fun hn => hn ▸ roundUnits_nearest n m e,
      fun hb => by rw [hb]; rfl, fun β hβ => ?_⟩
    have hmeets := hasBoundary_iff rnd (dySub (fvDy (.fin n m e)) β) (dyAdd (fvDy (.fin n m e)) β)
    rw [hβ]
    refine ⟨fun h0 hj => ?_, fun h0 => ?_⟩
    · have hbound : frndBound rnd (fvDy (.fin n m e)) (some β) = some (dyAdd β (dyInt 1)) := (if_neg h0).trans (if_pos (hmeets.mpr hj))
      rw [hbound]
      exact bdLe_refl _
    · have hbound : frndBound rnd (fvDy (.fin n m e)) (some β) = bdZero := by
        by_cases hm : β.m = 0
        · exact if_pos hm
        · exact (if_neg hm).trans (if_neg (mt hmeets.mp (h0.resolve_left hm)))
      rw [hbound, upBd_bdZero]

/-! ## FSCL (R179) -/

/-- FSCL of a finite value by a count in range. -/
theorem fsclRes_fin {ty : Ty} {na aa : Bool} {a : DWord} {s : Bool} {m : Nat} {e : Int} (h : fvMod na aa (elemOf ty a 0) = .fin s m e)
    {n : Int} (hlo : -8192 ≤ n) (hhi : n ≤ 8192) (rnd : Rnd) (sat : Bool) (ba : BitVec 16) :
    let r := roundI (tyFmt ty) rnd s m (e + n)
    let beta := bdScale (bdOf ba) n
    fsclRes ty rnd sat na aa a ba n = if sat && fvIsInf r.v then
        ⟨elemBits ty 0 (Claims.topOf (tyFmt ty) s), r.fl ||| flSA,
          upBd (bdAdd beta (some (dyAbs (dySub (fvDy (Claims.topOf (tyFmt ty) s)) (dyScale (fvDy (.fin s m e)) n)))))⟩
      else if r.ovf then ⟨elemBits ty 0 r.v, r.fl, bndInf⟩
      else ⟨elemBits ty 0 r.v, r.fl, upBd (bdAdd beta (some (floorS ty r.v (m == 0))))⟩ := by
  have hn : max (-8192) (min 8192 n) = n := by omega
  unfold fsclRes
  dsimp only
  rw [h, hn]
  rfl

theorem fvIsInf_of_fin {v : FV} (h : fvIsFin v = true) : fvIsInf v = false := by
  obtain ⟨n, m, e, rfl⟩ := exists_fin h
  rfl

/-- What R179 fixes of a finite value, by what the rounding delivers. -/
theorem fscl_fin_rules {ty : Ty} {na aa : Bool} {a : DWord} {s : Bool} {m : Nat} {e : Int} (h : fvMod na aa (elemOf ty a 0) = .fin s m e)
    {n : Int} (hlo : -8192 ≤ n) (hhi : n ≤ 8192) (rnd : Rnd) (sat : Bool) (ba : BitVec 16) :
    let f := tyFmt ty
    let d := dyScale (fvDy (.fin s m e)) n
    let beta := bdScale (bdOf ba) n
    ∃ v fl b, fsclRes ty rnd sat na aa a ba n = ⟨elemBits ty 0 v, fl, upBd b⟩ ∧ (m = 0 → v = .fin s 0 0 ∧ fl = 0)
        ∧ (fl &&& 0x04 = 0 → FlagsFit f d v fl ∧ RoundedOnce f rnd d v ∧ bdLe (bdAdd beta (some (floorAt ty (fvDy v) d))) b = true)
        ∧ (fl &&& 0x04 ≠ 0 → fl &&& 0x10 ≠ 0 ∧ (sat = false → b = none) ∧ (sat = true → fvIsFin v = true)
          ∧ (fl &&& 0x80 ≠ 0 → v = Claims.topOf f s ∧ bdLe (bdAdd beta (some (dyAbs (dySub (fvDy v) d)))) b = true)) := by
  intro f d beta
  have hres := fsclRes_fin h hlo hhi rnd sat ba
  dsimp only at hres
  have hd : d = fvDy (.fin s m (e + n)) := rfl
  have hzero : (m == 0) = true ↔ d.m = 0 := by rw [hd, fvDy_fin_m_eq_zero, beq_iff_eq]
  rcases roundI_roundsInto f rnd s m (e + n) with ⟨hm, hr⟩ | ⟨hm, ho, hof, hfl, hv⟩ | ⟨hm, ho, hof, hv⟩
  · rw [hr] at hres
    refine ⟨.fin s 0 0, 0, _, hres.trans (if_neg (by simp [fvIsInf])), fun _ => ⟨rfl, rfl⟩, fun _ => ⟨?_, ?_, ?_⟩, fun h => absurd rfl h⟩
    · have hexact : dyEq (fvDy (.fin s 0 0)) d = true := by
        rw [dyEq_iff, (dyVal_eq_zero_iff _).mpr (fvDy_fin_m_eq_zero.mpr rfl), (dyVal_eq_zero_iff _).mpr (hzero.mp (by simp [hm]))]
      refine ⟨rfl, ?_, ?_⟩ <;> simp [hexact]
    · exact fun h0 => absurd (hzero.mp (by simp [hm])) h0
    · rw [floorS_eq rfl hzero]
      exact bdLe_refl _
  · obtain ⟨hfin, hnx, huf⟩ := hfl
    rw [if_neg (by rw [fvIsInf_of_fin hfin, Bool.and_false]; decide), if_neg (by rw [ho]; decide)] at hres
    refine ⟨_, _, _, hres, fun h0 => absurd h0 hm, fun _ => ⟨⟨hfin, hnx, huf⟩, hv, ?_⟩, fun h => absurd hof h⟩
    rw [floorS_eq hfin hzero]
    exact bdLe_refl _
  · rw [hof, ho] at hres
    by_cases hclamp : sat && fvIsInf (roundI f rnd s m (e + n)).v
    · obtain ⟨hsat, -⟩ := Bool.and_eq_true_iff.mp hclamp
      rw [if_pos hclamp] at hres
      exact ⟨_, _, _, hres, fun h0 => absurd h0 hm, fun h => absurd h (by decide), fun _ => ⟨by decide, fun hs => (nomatch hsat.symm.trans hs),
        fun _ => rfl, fun _ => ⟨rfl, bdLe_refl _⟩⟩⟩
    · rw [if_neg hclamp] at hres
      refine ⟨_, _, none, hres, fun h0 => absurd h0 hm, fun h => absurd h (by decide), fun _ => ⟨by decide, fun _ => rfl, fun hs => ?_,
        fun h => absurd (by decide) h⟩⟩
      rcases hv with hv | hv
      · rw [hs, hv] at hclamp
        exact absurd rfl hclamp
      · rw [hv]
        rfl

theorem fsclRules : FsclRules := by
  intro ty rnd sat na aa a ba n
  dsimp only
  refine ⟨fun h => ?_, fun h => ?_, fun h => ?_, fun h => ?_, fun s m e h hlo hhi => ?_⟩
  · unfold fsclRes
    cases hx : fvMod na aa (elemOf ty a 0) with
    | nan s => cases s <;> rfl
    | inf n => rw [hx] at h; exact nomatch h
    | fin n m e => rw [hx] at h; exact nomatch h
  · unfold fsclRes
    cases hx : fvMod na aa (elemOf ty a 0) with
    | nan s => rw [hx] at h; exact nomatch h
    | inf n => rfl
    | fin n m e => rw [hx] at h; exact nomatch h
  · unfold fsclRes
    rw [show max (-8192) (min 8192 n) = 8192 by omega]
    rfl
  · unfold fsclRes
    rw [show max (-8192) (min 8192 n) = -8192 by omega]
    rfl
  · rw [h]
    exact fscl_fin_rules h hlo hhi rnd sat ba

/-! ## The function unit (R178, Table 8-6) -/

section Special

variable {u : FUnit} {ty : Ty} {rnd : Rnd} {na aa : Bool} {a : DWord} {ba : BitVec 16} {v : FV} {fl : Byte}

/-- The operand's result in Table 8-6, whatever neighbour the unit takes of the others. -/
def FuGives (u : FUnit) (ty : Ty) (rnd : Rnd) (x v : FV) (fl : Byte) : Prop := ∀ up, fuValue u ty rnd up x = ⟨v, fl, false⟩

theorem fuRes_of_gives (h : FuGives u ty rnd (fvMod na aa (elemOf ty a 0)) v fl) :
    ∃ b, fuRes u ty rnd na aa a ba = ⟨elemBits ty 0 v, fl, b⟩ ∧ (fvIsFin v = false → b = 0xFF00) := by
  unfold fuRes
  dsimp only
  rw [h]
  exact ⟨_, rfl, fun hv => by rw [hv]; rfl⟩

end Special

theorem fuGives_nan (u : FUnit) (ty : Ty) (rnd : Rnd) (s : Bool) : FuGives u ty rnd (.nan s) (.nan false) (if s then 1 else 0) := fun _ => by
  cases u <;> cases s <;> rfl

/-- FRCP of an operand that its bound reaches (Table 4-6). -/
theorem fuSlope_rcp_none {x : FV} (hx : fvIsFin x = true) {b : Bd} (h : bdLe (fvMag x) b = true) (ty : Ty) : fuSlope .rcp ty x b = none := by
  obtain ⟨n, m, e, rfl⟩ := exists_fin hx
  cases b with
  | none => rfl
  | some β =>
    have hle : (dySub ⟨m, e⟩ β).m ≤ 0 := by
      rw [← not_lt, ← dyVal_pos_iff, dyVal_dySub, sub_pos, not_lt]
      exact (bdLe_some_iff ⟨m, e⟩ β).mp h
    exact if_pos hle

theorem bdSum_none (l : List Bd) : bdSum (none :: l) = none := by
  have hnone : ∀ l : List Bd, l.foldl bdAdd none = none := fun l => by
    induction l with
    | nil => rfl
    | cons x l ih => exact ih
  exact hnone l

theorem fuSpecials : FuSpecials := by
  intro ty rnd na aa a ba
  dsimp only
  refine ⟨fun h u => ?_, fun n h => ?_, fun n e h => ?_, fun m e h hm => ?_, fun h hx => ?_⟩
  · cases hx : fvMod na aa (elemOf ty a 0) with
    | nan s =>
      have hs : fvIsSig (.nan s) = s := by cases s <;> rfl
      rw [hs]
      exact fuRes_of_gives (hx ▸ fuGives_nan u ty rnd s)
    | inf n => rw [hx] at h; exact nomatch h
    | fin n m e => rw [hx] at h; exact nomatch h
  · refine ⟨?_, ?_, ?_, ?_, ?_⟩ <;> exact fuRes_of_gives (h ▸ fun _ => by cases n <;> rfl)
  · refine ⟨?_, ?_, ?_, ?_, ?_⟩ <;> exact fuRes_of_gives (h ▸ fun _ => rfl)
  · have hneg : ∀ up, fuValue .rsq ty rnd up (.fin true m e) = ⟨.nan false, 1, false⟩ ∧ fuValue .sqrt ty rnd up (.fin true m e) = ⟨.nan false, 1, false⟩
        ∧ fuValue .log2 ty rnd up (.fin true m e) = ⟨.nan false, 1, false⟩ := fun _ => ⟨if_neg hm, if_neg hm, if_neg hm⟩
    exact ⟨fuRes_of_gives (h ▸ fun up => (hneg up).1), fuRes_of_gives (h ▸ fun up => (hneg up).2.1), fuRes_of_gives (h ▸ fun up => (hneg up).2.2)⟩
  · unfold fuRes
    dsimp only
    rw [fuSlope_rcp_none hx h, bdSum_none, ite_self]
    rfl

/-! ## The statement -/

/-- Settles O7: the lanes deliver what the units deliver unless a bound breaches in mode 1; FRND by the directions of R60 and the
boundaries within the bound (`hasBoundary_iff`), FSCL by its one rounding (`roundI_roundsInto`), the function unit by Table 8-6. -/
theorem roundedUnaryCompletes : Obligations.RoundedUnaryCompletes := by
  refine ⟨?_, ?_, ?_, ?_, ?_, ?_, ?_, frndRules, fsclRules, fuSpecials⟩ <;> exact fun x => laneSteps_of_deliver (fun _ => rfl)

end Sys2Proof.Laws



/-! SUPPORT. What the bytes of a line depend on (R84, R102, R128, R212, R303): its own bytes, partials, key and blocks under other keys. -/

namespace Sys2Proof.Laws

open Sys2Proof.Machine Sys2Proof.Claims

/-! ## Runs of bytes -/

theorem memGet_memWrite (l : List Byte) (m : Memory) (a c : Nat) :
    memGet (memWrite m a l) c = if a ≤ c ∧ c < a + l.length then l.getD (c - a) 0 else memGet m c := by
  split
  · next h =>
    obtain ⟨i, rfl⟩ := Nat.exists_eq_add_of_le h.1
    rw [memGet_memWrite_in l m a i (by omega), Nat.add_sub_cancel_left]
  · exact memGet_memWrite_out l m a c (by omega)

/-! ## A store leaves all but bytes and records -/

/-- Only bytes, records, what code stood there and what is dirty may differ. -/
def StoreOnly (m n : MemSys) : Prop := n = { m with bytes := n.bytes, recs := n.recs, before := n.before, dirty := n.dirty }

theorem StoreOnly.refl (m : MemSys) : StoreOnly m m := rfl

theorem StoreOnly.trans {m n p : MemSys} (h : StoreOnly m n) (k : StoreOnly n p) : StoreOnly m p := by
  unfold StoreOnly at *
  rw [k, h]

theorem putBounds_storeOnly (m : MemSys) (bt : Bool) (a : Nat) (bs : List (BitVec 16)) : StoreOnly m (putBounds m bt a bs) := by
  induction bs generalizing m a with
  | nil => exact .refl m
  | cons b r ih =>
    unfold putBounds
    refine .trans ?_ (ih _ _)
    split <;> rfl

theorem putStore_storeOnly (m : MemSys) (bt narrow : Bool) (a : Nat) (l : List Byte) (bs : List (BitVec 16)) :
    StoreOnly m (putStore m bt narrow a l bs) := .trans (n := putBytes m a l) rfl (putBounds_storeOnly ..)

theorem StoreOnly.partials {m n : MemSys} (h : StoreOnly m n) : n.partials = m.partials := by rw [h]
theorem StoreOnly.keyOf {m n : MemSys} (h : StoreOnly m n) : n.keyOf = m.keyOf := by rw [h]
theorem StoreOnly.cipher {m n : MemSys} (h : StoreOnly m n) : n.cipher = m.cipher := by rw [h]
theorem StoreOnly.keyNames {m n : MemSys} (h : StoreOnly m n) : n.keyNames = m.keyNames := by rw [h]
theorem StoreOnly.chunks {m n : MemSys} (h : StoreOnly m n) : n.chunks = m.chunks := by rw [h]

/-- A line's partials are applied, and no other's are gone. -/
theorem combineLine_storeOnly (m : MemSys) (line : Nat) :
    StoreOnly { m with partials := m.partials.filter (fun p => lineOf p.pa != line) } (combineLine m line) := by
  unfold combineLine
  generalize { m with partials := m.partials.filter (fun p => lineOf p.pa != line) } = n
  induction m.partials.filter (fun p => lineOf p.pa == line) generalizing n with
  | nil => exact .refl n
  | cons p r ih => exact .trans (putStore_storeOnly ..) (ih _)

/-! ## What the bytes of a line depend on -/

/-- Two memories agree on a line's bytes, partials, key, and blocks that another key wrote, and on the keys' names. -/
structure SameLine (line : Nat) (m n : MemSys) : Prop where
  bytes : ∀ a, lineOf a = line → memGet m.bytes a = memGet n.bytes a
  partials : m.partials.filter (fun p => lineOf p.pa == line) = n.partials.filter (fun p => lineOf p.pa == line)
  keyOf : Map.get? m.keyOf line = Map.get? n.keyOf line
  cipher : ∀ c, c / 8 = line → Map.get? m.cipher c = Map.get? n.cipher c
  keyNames : m.keyNames = n.keyNames

/-- The parts of a memory that `SameLine` looks at. -/
def seen (m : MemSys) : Memory × List Partial × Map Nat × Map (Nat × BitVec 128) × Map Nat :=
  (m.bytes, m.partials, m.keyOf, m.cipher, m.keyNames)

namespace SameLine

variable {line : Nat} {m n : MemSys}

theorem refl (line : Nat) (m : MemSys) : SameLine line m m := ⟨fun _ _ => rfl, rfl, rfl, fun _ _ => rfl, rfl⟩

theorem trans {p : MemSys} (h : SameLine line m n) (k : SameLine line n p) : SameLine line m p where
  bytes a ha := (h.bytes a ha).trans (k.bytes a ha)
  partials := h.partials.trans k.partials
  keyOf := h.keyOf.trans k.keyOf
  cipher c hc := (h.cipher c hc).trans (k.cipher c hc)
  keyNames := h.keyNames.trans k.keyNames

/-- Nothing else matters. -/
theorem of_seen {m' n' : MemSys} (h : SameLine line m n) (hm : seen m' = seen m) (hn : seen n' = seen n) : SameLine line m' n' := by
  simp only [seen, Prod.mk.injEq] at hm hn
  obtain ⟨hm1, hm2, hm3, hm4, hm5⟩ := hm
  obtain ⟨hn1, hn2, hn3, hn4, hn5⟩ := hn
  obtain ⟨h1, h2, h3, h4, h5⟩ := h
  constructor
  · rw [hm1, hn1]; exact h1
  · rw [hm2, hn2]; exact h2
  · rw [hm3, hn3]; exact h3
  · rw [hm4, hn4]; exact h4
  · rw [hm5, hn5]; exact h5

theorem foldl {α : Type} {f : MemSys → α → MemSys} {l : List α} (hf : ∀ x ∈ l, ∀ m n, SameLine line m n → SameLine line (f m x) (f n x))
    (h : SameLine line m n) : SameLine line (l.foldl f m) (l.foldl f n) := by
  induction l generalizing m n with
  | nil => exact h
  | cons x r ih => exact ih (fun y hy => hf y (List.mem_cons_of_mem _ hy)) (hf x List.mem_cons_self m n h)

theorem foldl_right {α : Type} {f : MemSys → α → MemSys} {l : List α} (hf : ∀ x ∈ l, ∀ m, SameLine line m (f m x)) :
    SameLine line m (l.foldl f m) := by
  induction l generalizing m with
  | nil => exact refl line m
  | cons x r ih => exact (hf x List.mem_cons_self m).trans (ih (fun y hy => hf y (List.mem_cons_of_mem _ hy)))

theorem memBytes (h : SameLine line m n) {a k : Nat} (ha : ∀ i, i < k → lineOf (a + i) = line) :
    memBytes m.bytes a k = memBytes n.bytes a k :=
  List.map_congr_left (fun i hi => h.bytes _ (ha i (List.mem_range.mp hi)))

/-! ### The same store to both, and a store beside the line -/

theorem putStore (h : SameLine line m n) (bt bt' narrow narrow' : Bool) (a : Nat) (l : List Byte) (bs bs' : List (BitVec 16)) :
    SameLine line (putStore m bt narrow a l bs) (putStore n bt' narrow' a l bs') where
  bytes c hc := by rw [putStore_bytes, putStore_bytes, memGet_memWrite, memGet_memWrite, h.bytes c hc]
  partials := by rw [(putStore_storeOnly ..).partials, (putStore_storeOnly ..).partials]; exact h.partials
  keyOf := by rw [(putStore_storeOnly ..).keyOf, (putStore_storeOnly ..).keyOf]; exact h.keyOf
  cipher := by rw [(putStore_storeOnly ..).cipher, (putStore_storeOnly ..).cipher]; exact h.cipher
  keyNames := by rw [(putStore_storeOnly ..).keyNames, (putStore_storeOnly ..).keyNames]; exact h.keyNames

theorem putStore_right (m : MemSys) (bt narrow : Bool) {a : Nat} {l : List Byte} (bs : List (BitVec 16))
    (ha : ∀ c, lineOf c = line → c < a ∨ a + l.length ≤ c) : SameLine line m (Machine.putStore m bt narrow a l bs) where
  bytes c hc := by rw [putStore_bytes, memGet_memWrite_out _ _ _ _ (ha c hc)]
  partials := by rw [(putStore_storeOnly ..).partials]
  keyOf := by rw [(putStore_storeOnly ..).keyOf]
  cipher := by rw [(putStore_storeOnly ..).cipher]; exact fun _ _ => rfl
  keyNames := by rw [(putStore_storeOnly ..).keyNames]

end SameLine

/-! ## Partials (R128, R212) -/

/-- The exact result of an element on a tier. -/
def exactOn (k : FKind) (t : Nat) (rnd : Rnd) (a b c : FV) : Exact := match k with
  | .add => exactAdd (if t = 2 then rnd else .rtz) a b
  | .mul => exactMul a b
  | .fma => exactFma (if t = 2 then rnd else .rtz) a b c

/-- A finite exact result, rounded or truncated as its tier does (R70, R71). -/
def roundedOn (k : FKind) (f : IFmt) (t : Nat) (rnd : Rnd) (a b c : FV) (zn : Bool) (d : Dy) : Rounded :=
  if t = 2 then roundDy f rnd zn d
  else if t = 0 && k == .mul then truncTo f zn (dyMul (fvDy (trunc12 a)) (fvDy (trunc12 b))) d
  else if t = 0 && k == .fma then match exactAdd .rtz (truncProd a b) c with
    | .num zn' d' => truncTo f zn' d' d
    | .sp _ _ => truncTo f zn d d
  else truncTo f zn d d

/-- What an element's tier may be off by, beside the subnormal floor (R78). -/
def tierErr (k : FKind) (ty : Ty) (t : Nat) (rnd : Rnd) (a b : FV) (z : Dy) : Dy :=
  if t = 0 && k == .fma then dyAdd (dyMul (epsOf ty 0 rnd) (dyAbs (fvDy (truncProd a b)))) (dyMul (epsOf ty 1 rnd) z)
  else dyMul (epsOf ty t rnd) z

/-- What is delivered of a rounded result: an infinity clamped under SAT, an overflow without a bound, or the value with its bound. -/
def delivered (ty : Ty) (sat : Bool) (r : Rounded) (d : Dy) (beta : Bd) (err : Dy) : FV × Byte × Bd :=
  if sat && fvIsInf r.v then
    let z := Claims.topOf (tyFmt ty) (fvSign r.v)
    (z, r.fl ||| flSA, bdAdd beta (some (dyAbs (dySub (fvDy z) d))))
  else if r.ovf || !fvIsFin r.v then (r.v, r.fl, none)
  else (r.v, r.fl, bdSum [beta, some err, some (floorS ty r.v (dyIsZero d))])

/-- An element of governed arithmetic, by the steps it takes. -/
theorem arithElem_eq (k : FKind) (ty : Ty) (t : Nat) (rnd : Rnd) (sat : Bool) (a b c : FV) (ba bb bc : Bd) :
    arithElem k ty t rnd sat a b c ba bb bc = match exactOn k t rnd a b c with
      | .sp v nv => (v, flIf nv flNV, none)
      | .num zn d =>
        let r := roundedOn k (tyFmt ty) t rnd a b c zn d
        delivered ty sat r d (betaIn k a b ba bb bc) (tierErr k ty t rnd a b (dyAbs (fvDy r.v))) := rfl

/-- The value of a sum, a minimum or a maximum does not depend on the bounds. -/
theorem arithElem_value (k : FKind) (ty : Ty) (t : Nat) (rnd : Rnd) (sat : Bool) (a b c : FV) (ba ba' bb bc : Bd) :
    (arithElem k ty t rnd sat a b c ba bb bc).1 = (arithElem k ty t rnd sat a b c ba' bb bc).1 := by
  rw [arithElem_eq, arithElem_eq]
  cases exactOn k t rnd a b c with
  | sp v nv => rfl
  | num zn d =>
    simp only [delivered]
    split
    · rfl
    · split <;> rfl

theorem minMaxElem_value (lo : Bool) (x y : FV) (bx bx' by_ : BitVec 16) : (minMaxElem lo x y bx by_).1 = (minMaxElem lo x y bx' by_).1 := by
  unfold minMaxElem
  dsimp only
  split
  · rfl
  · split
    · rfl
    · split <;> rfl

theorem atomRes_bits (op : AOp) (ty : Ty) (old : DWord) (bo bo' : BitVec 16) (b : DWord) (bb : BitVec 16) :
    (atomRes op ty old bo b bb).bits = (atomRes op ty old bo' b bb).bits := by
  cases op with
  | add =>
    simp only [atomRes]
    split
    · exact congrArg (elemBits ty 0) (arithElem_value ..)
    · rfl
  | min =>
    simp only [atomRes]
    split
    · exact congrArg (elemBits ty 0) (minMaxElem_value ..)
    · rfl
  | max =>
    simp only [atomRes]
    split
    · exact congrArg (elemBits ty 0) (minMaxElem_value ..)
    · rfl
  | _ => rfl

/-- A partial that lies within its line. -/
def FitsLine (line : Nat) (p : Partial) : Prop := lineOf p.pa = line ∧ p.pa % 128 + p.ty.bytes ≤ 128

theorem SameLine.applyPartial {line : Nat} {m n : MemSys} (h : SameLine line m n) {p : Partial} (hp : FitsLine line p) :
    SameLine line (applyPartial m p) (applyPartial n p) := by
  obtain ⟨hline, hfits⟩ := hp
  have hold : Machine.memBytes m.bytes p.pa p.ty.bytes = Machine.memBytes n.bytes p.pa p.ty.bytes :=
    h.memBytes (fun i hi => by unfold lineOf at *; omega)
  unfold Machine.applyPartial
  dsimp only
  rw [hold, atomRes_bits p.op p.ty _ (valueBound m p.bt p.pa p.ty.bytes) (valueBound n p.bt p.pa p.ty.bytes)]
  exact h.putStore ..

theorem SameLine.applyPartial_right {line other : Nat} (hne : line ≠ other) (m : MemSys) {p : Partial} (hp : FitsLine other p) :
    SameLine line m (Machine.applyPartial m p) := by
  obtain ⟨hline, hfits⟩ := hp
  refine putStore_right m p.bt false _ (fun c hc => ?_)
  rw [leBytes_length]
  unfold lineOf at *
  omega

theorem fitsLine_of_mem {m : MemSys} (h : PartialsFit m) {line : Nat} {p : Partial}
    (hp : p ∈ m.partials.filter (fun p => lineOf p.pa == line)) : FitsLine line p := by
  rw [List.mem_filter, beq_iff_eq] at hp
  exact ⟨hp.2, h p hp.1⟩

theorem SameLine.combineLine {line : Nat} {m n : MemSys} (h : SameLine line m n) (hfit : PartialsFit m) :
    SameLine line (combineLine m line) (combineLine n line) := by
  have hnone (l : List Partial) : (l.filter (fun p => lineOf p.pa != line)).filter (fun p => lineOf p.pa == line) = [] := by
    rw [List.filter_filter, List.filter_eq_nil_iff]
    simp
  unfold Machine.combineLine
  rw [← h.partials]
  refine foldl (fun p hp m n h => h.applyPartial (fitsLine_of_mem hfit hp)) ⟨h.bytes, ?_, h.keyOf, h.cipher, h.keyNames⟩
  rw [hnone, hnone]

theorem SameLine.combineLine_right {line other : Nat} (hne : line ≠ other) {m : MemSys} (hfit : PartialsFit m) :
    SameLine line m (Machine.combineLine m other) := by
  have hkeep : m.partials.filter (fun p => lineOf p.pa == line)
      = (m.partials.filter (fun p => lineOf p.pa != other)).filter (fun p => lineOf p.pa == line) := by
    rw [List.filter_filter]
    refine List.filter_congr (fun p _ => ?_)
    by_cases hp : lineOf p.pa = line <;> simp [hp, hne]
  unfold Machine.combineLine
  exact .trans (n := { m with partials := m.partials.filter (fun p => lineOf p.pa != other) }) ⟨fun _ _ => rfl, hkeep, rfl, fun _ _ => rfl, rfl⟩
    (foldl_right (fun p hp m => applyPartial_right hne m (fitsLine_of_mem hfit hp)))

/-! ## Keys (R303) -/

/-- A block's base: the key it was written under, and its bytes. -/
theorem SameLine.blockBase {line : Nat} {m n : MemSys} (h : SameLine line m n) (k : Nat) {i : Nat} (hi : i < 8) :
    blockBase m k (line * 128 + 16 * i) = blockBase n k (line * 128 + 16 * i) := by
  have hb : blockAt m.bytes (line * 128 + 16 * i) = blockAt n.bytes (line * 128 + 16 * i) :=
    congrArg (fun l => BitVec.ofNat 128 (leNat l)) (h.memBytes (fun j hj => by unfold lineOf; omega))
  have hn : nameOf m k = nameOf n k := by unfold nameOf; rw [h.keyNames]
  unfold Machine.blockBase
  rw [h.cipher _ (by omega), hb, hn]

theorem SameLine.rekeyBlockAt {line : Nat} {m n : MemSys} (h : SameLine line m n) (k k' : Nat) {i : Nat} (hi : i < 8) :
    SameLine line (rekeyBlockAt k k' m (line * 128 + 16 * i)) (rekeyBlockAt k k' n (line * 128 + 16 * i)) := by
  have hn : nameOf m k' = nameOf n k' := by unfold nameOf; rw [h.keyNames]
  unfold Machine.rekeyBlockAt
  rw [h.blockBase k hi, hn]
  refine ⟨fun c hc => ?_, h.partials, h.keyOf, fun c hc => ?_, h.keyNames⟩
  · dsimp only
    rw [memGet_memWrite, memGet_memWrite, h.bytes c hc]
  · have hcipher := h.cipher c hc
    dsimp only
    split
    · by_cases hca : c = (line * 128 + 16 * i) / 16
      · rw [hca, Map.get?_erase_self, Map.get?_erase_self]
      · rw [Map.get?_erase_ne _ hca, Map.get?_erase_ne _ hca, hcipher]
    · rw [Map.get?_put, Map.get?_put, hcipher]

theorem SameLine.rekeyBlockAt_right {line other : Nat} (hne : line ≠ other) (m : MemSys) (k k' : Nat) {i : Nat} (hi : i < 8) :
    SameLine line m (Machine.rekeyBlockAt k k' m (other * 128 + 16 * i)) := by
  unfold Machine.rekeyBlockAt
  refine ⟨fun c hc => ?_, rfl, rfl, fun c hc => ?_, rfl⟩
  · dsimp only
    rw [memGet_memWrite_out]
    rw [leBytes_length]
    unfold lineOf at hc
    omega
  · have hca : c ≠ (other * 128 + 16 * i) / 16 := by omega
    dsimp only
    split
    · rw [Map.get?_erase_ne _ hca]
    · rw [Map.get?_put_ne _ _ hca]

/-- The blocks of a line, as another key reads them. -/
def rekeyBlocks (m : MemSys) (k key line : Nat) : MemSys := ((List.range 8).map (fun i => line * 128 + 16 * i)).foldl (rekeyBlockAt k key) m

/-- What reaching a line under a key leaves of the parts that are seen. -/
theorem rekeyLine_seen (m : MemSys) (line key : Nat) : seen (rekeyLine m line key) =
    if key = ownKey then seen m
    else match Map.get? m.keyOf line with
      | none => seen { m with keyOf := Map.put m.keyOf line key }
      | some k => if k = key then seen m
        else if Config.hostBase ≤ line * 128 then seen { m with keyOf := Map.put m.keyOf line key }
        else seen { rekeyBlocks m k key line with keyOf := Map.put m.keyOf line key } := by
  unfold rekeyLine
  by_cases hown : key = ownKey
  · rw [if_pos hown, if_pos (beq_iff_eq.mpr hown)]
  rw [if_neg hown, if_neg (by simpa using hown)]
  cases Map.get? m.keyOf line with
  | none => rfl
  | some k =>
    have hblocks : ((List.range 8).map (fun i => line * 128 + 16 * i)).foldl (rekeyBlockAt k key) m = rekeyBlocks m k key line := rfl
    simp only [hblocks]
    generalize rekeyBlocks m k key line = x
    split
    · rfl
    · split
      · rfl
      · split <;> rfl

theorem SameLine.setKey {line : Nat} {m n : MemSys} (h : SameLine line m n) (key : Nat) (km kn : Map Nat) :
    SameLine line { m with keyOf := Map.put km line key } { n with keyOf := Map.put kn line key } :=
  ⟨h.bytes, h.partials, by rw [Map.get?_put_self, Map.get?_put_self], h.cipher, h.keyNames⟩

theorem SameLine.rekeyLine {line : Nat} {m n : MemSys} (h : SameLine line m n) (key : Nat) :
    SameLine line (rekeyLine m line key) (rekeyLine n line key) := by
  have hm := rekeyLine_seen m line key
  have hn := rekeyLine_seen n line key
  rw [← h.keyOf] at hn
  by_cases hown : key = ownKey
  · rw [if_pos hown] at hm hn
    exact h.of_seen hm hn
  rw [if_neg hown] at hm hn
  cases hk : Map.get? m.keyOf line with
  | none =>
    rw [hk] at hm hn
    exact (h.setKey key _ _).of_seen hm hn
  | some k =>
    rw [hk] at hm hn
    dsimp only at hm hn
    by_cases hkey : k = key
    · rw [if_pos hkey] at hm hn
      exact h.of_seen hm hn
    rw [if_neg hkey] at hm hn
    by_cases hhost : Config.hostBase ≤ line * 128
    · rw [if_pos hhost] at hm hn
      exact (h.setKey key _ _).of_seen hm hn
    rw [if_neg hhost] at hm hn
    refine (setKey ?_ key _ _).of_seen hm hn
    refine foldl (fun a ha m n h => ?_) h
    obtain ⟨i, hi, rfl⟩ := List.mem_map.mp ha
    exact h.rekeyBlockAt k key (List.mem_range.mp hi)

theorem SameLine.setKey_right {line other : Nat} (hne : line ≠ other) (m : MemSys) (key : Nat) :
    SameLine line m { m with keyOf := Map.put m.keyOf other key } :=
  ⟨fun _ _ => rfl, rfl, (Map.get?_put_ne _ _ hne).symm, fun _ _ => rfl, rfl⟩

theorem SameLine.rekeyLine_right {line other : Nat} (hne : line ≠ other) (m : MemSys) (key : Nat) :
    SameLine line m (Machine.rekeyLine m other key) := by
  have hm := rekeyLine_seen m other key
  by_cases hown : key = ownKey
  · rw [if_pos hown] at hm
    exact (refl line m).of_seen rfl hm
  rw [if_neg hown] at hm
  cases hk : Map.get? m.keyOf other with
  | none =>
    rw [hk] at hm
    exact (setKey_right hne m key).of_seen rfl hm
  | some k =>
    rw [hk] at hm
    dsimp only at hm
    by_cases hkey : k = key
    · rw [if_pos hkey] at hm
      exact (refl line m).of_seen rfl hm
    rw [if_neg hkey] at hm
    by_cases hhost : Config.hostBase ≤ other * 128
    · rw [if_pos hhost] at hm
      exact (setKey_right hne m key).of_seen rfl hm
    rw [if_neg hhost] at hm
    have hblocks : SameLine line m (rekeyBlocks m k key other) := foldl_right (fun a ha m => by
      obtain ⟨i, hi, rfl⟩ := List.mem_map.mp ha
      exact rekeyBlockAt_right hne m k key (List.mem_range.mp hi))
    generalize rekeyBlocks m k key other = x at hm hblocks
    have hkey : SameLine line m { x with keyOf := Map.put m.keyOf other key } :=
      ⟨hblocks.bytes, hblocks.partials, (Map.get?_put_ne _ _ hne).symm, hblocks.cipher, hblocks.keyNames⟩
    exact hkey.of_seen rfl hm

/-- What a line reads as depends on nothing else. -/
theorem SameLine.openLine {line : Nat} {m n : MemSys} (h : SameLine line m n) (hfit : PartialsFit m) (key : Nat) :
    SameLine line (openLine m line key) (openLine n line key) := (h.combineLine hfit).rekeyLine key

theorem SameLine.openLine_right {line other : Nat} (hne : line ≠ other) {m : MemSys} (hfit : PartialsFit m) (key : Nat) :
    SameLine line m (Machine.openLine m other key) := (combineLine_right hne hfit).trans (rekeyLine_right hne _ key)

theorem SameLine.viewByte {m n : MemSys} {a : Nat} (h : SameLine (lineOf a) m n) (hfit : PartialsFit m) (key : Nat) :
    viewByte m a key = viewByte n a key := (h.openLine hfit key).bytes a rfl

/-! ## A line that is open -/

/-- A line without partials that is held under a key, or reached by the device's own agents: a touch changes nothing. -/
structure Opened (m : MemSys) (line key : Nat) : Prop where
  combined : ∀ p ∈ m.partials, lineOf p.pa ≠ line
  held : key = ownKey ∨ Map.get? m.keyOf line = some key

theorem combineLine_of_opened {m : MemSys} {line key : Nat} (h : Opened m line key) : combineLine m line = m := by
  have hnone : m.partials.filter (fun p => lineOf p.pa == line) = [] := by
    rw [List.filter_eq_nil_iff]
    simpa using h.combined
  have hall : m.partials.filter (fun p => lineOf p.pa != line) = m.partials := by
    rw [List.filter_eq_self]
    simpa using h.combined
  unfold combineLine
  rw [hnone, hall]
  rfl

theorem openLine_of_opened {m : MemSys} {line key : Nat} (h : Opened m line key) : openLine m line key = m := by
  unfold openLine rekeyLine
  rw [combineLine_of_opened h]
  rcases h.held with hown | hkey
  · rw [if_pos (beq_iff_eq.mpr hown)]
  · rw [hkey]
    dsimp only
    rw [if_pos rfl, ite_self]

theorem rekeyBlocks_rest (m : MemSys) (k key line : Nat) :
    (rekeyBlocks m k key line).partials = m.partials ∧ (rekeyBlocks m k key line).chunks = m.chunks := by
  unfold rekeyBlocks
  induction (List.range 8).map (fun i => line * 128 + 16 * i) generalizing m with
  | nil => exact ⟨rfl, rfl⟩
  | cons a r ih => exact ih (rekeyBlockAt k key m a)

theorem rekeyLine_rest (m : MemSys) (line key : Nat) : (rekeyLine m line key).partials = m.partials ∧ (rekeyLine m line key).chunks = m.chunks := by
  unfold rekeyLine
  split
  · exact ⟨rfl, rfl⟩
  · split
    · exact ⟨rfl, rfl⟩
    · next k _ =>
      split
      · exact ⟨rfl, rfl⟩
      · split
        · exact ⟨rfl, rfl⟩
        · have h := rekeyBlocks_rest m k key line
          have hblocks : ((List.range 8).map (fun i => line * 128 + 16 * i)).foldl (rekeyBlockAt k key) m = rekeyBlocks m k key line := rfl
          simp only [hblocks]
          generalize rekeyBlocks m k key line = x at h
          split <;> exact h

theorem rekeyLine_held (m : MemSys) (line key : Nat) : key = ownKey ∨ Map.get? (rekeyLine m line key).keyOf line = some key := by
  have hm := rekeyLine_seen m line key
  have hkeyOf {n : MemSys} (h : seen (rekeyLine m line key) = seen n) : (rekeyLine m line key).keyOf = n.keyOf := congrArg (·.2.2.1) h
  by_cases hown : key = ownKey
  · exact .inl hown
  rw [if_neg hown] at hm
  right
  cases hk : Map.get? m.keyOf line with
  | none =>
    rw [hk] at hm
    rw [hkeyOf hm]
    exact Map.get?_put_self ..
  | some k =>
    rw [hk] at hm
    dsimp only at hm
    by_cases hkey : k = key
    · rw [if_pos hkey] at hm
      rw [hkeyOf hm, hk, hkey]
    rw [if_neg hkey] at hm
    split at hm
    all_goals
      rw [hkeyOf hm]
      exact Map.get?_put_self ..

/-- A touch opens the line. -/
theorem openLine_opened (m : MemSys) (line key : Nat) : Opened (openLine m line key) line key where
  combined p hp := by
    unfold openLine at hp
    rw [(rekeyLine_rest ..).1, (combineLine_storeOnly m line).partials, List.mem_filter] at hp
    simpa using hp.2
  held := rekeyLine_held ..

theorem openLine_chunks (m : MemSys) (line key : Nat) : (openLine m line key).chunks = m.chunks := by
  unfold openLine
  rw [(rekeyLine_rest ..).2, (combineLine_storeOnly m line).chunks]

theorem Opened.of_storeOnly {m n : MemSys} {line key : Nat} (h : Opened m line key) (hs : StoreOnly m n) : Opened n line key where
  combined := by rw [hs.partials]; exact h.combined
  held := by rw [hs.keyOf]; exact h.held

end Sys2Proof.Laws



/-! Stores read back, and what they leave unchanged, in physical memory and in scratch (R84, R85, R102, R126, R202). -/

namespace Sys2Proof.Laws

open Sys2Proof.Machine Sys2Proof.Claims

/-! ## A store to physical memory -/

/-- Memory once a store's line is open, and after the store. -/
def stored (m : MemSys) (pa key : Nat) (bt narrow : Bool) (l : List Byte) (bs : List (BitVec 16)) : MemSys :=
  putStore (openLine m (lineOf pa) key) bt narrow pa l bs

theorem stored_opened (m : MemSys) (pa key : Nat) (bt narrow : Bool) (l : List Byte) (bs : List (BitVec 16)) :
    Opened (stored m pa key bt narrow l bs) (lineOf pa) key := (openLine_opened ..).of_storeOnly (putStore_storeOnly ..)

theorem stored_bytes (m : MemSys) (pa key : Nat) (bt narrow : Bool) (l : List Byte) (bs : List (BitVec 16)) :
    (stored m pa key bt narrow l bs).bytes = memWrite (openLine m (lineOf pa) key).bytes pa l := putStore_bytes ..

/-! ## Reading back (R84, R126) -/

/-- A read of a location whose line is open and that no lock moves. -/
theorem readLoc_of_opened {s : State} {pa key : Nat} (hl : lockOf s pa = none) (ho : Opened s.mem (lineOf pa) key) (bt : Bool) (n : Nat) :
    (readLoc s (.phys pa key bt) n).1 = peekLoc s (.phys pa key bt) n := by
  unfold readLoc readLocOf
  dsimp only
  rw [hl]
  dsimp only [openLoc, peekLoc]
  rw [openLine_of_opened ho]

theorem wordsOf_of_le {n : Nat} (h0 : 0 < n) (h4 : n ≤ 4) : wordsOf n = 1 := by
  unfold wordsOf
  omega

theorem hasChunk_of_chunks {m n : MemSys} (h : n.chunks = m.chunks) {a b : Nat} (hf : frameOf b = frameOf a) : hasChunk n b = hasChunk m a := by
  unfold hasChunk
  rw [h, hf]

theorem physBound_of_chunk {m : MemSys} {a : Nat} (h : hasChunk m a = true) :
    physBound m true a = recBound (recAt m (lineOf a)) (a / 4 % 32) := by
  unfold physBound
  rw [if_neg (by decide), if_pos h]

/-- The bound of a word into which one has been stored. -/
theorem physBound_putBounds_one {m : MemSys} {a : Nat} (h : hasChunk m a = true) (b : BitVec 16) :
    physBound (putBounds m true a [b]) true a = recBound (storeBound (recAt m (lineOf a)) (a / 4 % 32) b) (a / 4 % 32) := by
  have hput : putBounds m true a [b] = setRec m (lineOf a) (storeBound (recAt m (lineOf a)) (a / 4 % 32) b) := if_pos h
  rw [hput, physBound_of_chunk (m := setRec m _ _) h]
  exact congrArg (recBound · _) (Map.get_putD_self BRec.zero m.recs (lineOf a) _)

theorem widenBounds_one (m : MemSys) (bt narrow : Bool) (a : Nat) (b : BitVec 16) :
    ∃ c, widenBounds m bt narrow a [b] = [c] ∧ bdLe (bdOf b) (bdOf c) = true := by
  cases narrow
  · exact ⟨b, rfl, bdLe_refl _⟩
  · exact ⟨_, rfl, bdLe_bndMax_right ..⟩

/-- On a tracked page with a shadow chunk the word's bound is not below the one stored. -/
theorem bdLe_physBound_stored {m : MemSys} {pa : Nat} (hc : hasChunk m pa = true) (key : Nat) (narrow : Bool) (l : List Byte) (b : BitVec 16) :
    bdLe (bdOf b) (bdOf (physBound (stored m pa key true narrow l [b]) true (pa / 4 * 4))) = true := by
  unfold stored putStore
  obtain ⟨c, hw, hle⟩ := widenBounds_one (openLine m (lineOf pa) key) true narrow pa b
  have hchunk : hasChunk (putBytes (openLine m (lineOf pa) key) pa l) (pa / 4 * 4) = true := by
    have hframe : frameOf (pa / 4 * 4) = frameOf pa := by unfold frameOf; omega
    exact (hasChunk_of_chunks (m := m) (n := openLine m (lineOf pa) key) (openLine_chunks ..) hframe).trans hc
  rw [hw, physBound_putBounds_one hchunk]
  exact bdLe_trans hle (bdLe_recBound_storeBound_self _ (Nat.mod_lt _ (by decide)) c)

/-- Settles O20: the store leaves its line open, so that the read changes nothing (`readLoc_of_opened`) and meets the bytes stored and the
record that `storeBound` left. -/
theorem storedBytesReadBack : Obligations.StoredBytesReadBack := by
  intro s pa key bt narrow l b hlock h0 h4 _ _
  dsimp only
  have hread := readLoc_of_opened (s := (pokeLoc s (.phys pa key bt) none l [b] narrow).1) hlock
    (stored_opened s.mem pa key bt narrow l [b]) bt l.length
  rw [hread]
  have hbnds : (peekLoc (pokeLoc s (.phys pa key bt) none l [b] narrow).1 (.phys pa key bt) l.length).bnds
      = [physBound (stored s.mem pa key bt narrow l [b]) bt (pa / 4 * 4)] := by
    unfold peekLoc
    dsimp only
    rw [wordsOf_of_le h0 h4]
    rfl
  refine ⟨?_, fun hbt hc c hcs => ?_, fun hbt => ⟨?_, ?_⟩⟩
  · exact (congrArg (memBytes · pa l.length) (stored_bytes ..)).trans (memBytes_memWrite ..)
  · subst hbt
    rw [hbnds, List.cons.injEq] at hcs
    rw [← hcs.1]
    exact bdLe_physBound_stored hc key narrow l b
  · subst hbt
    exact hbnds
  · subst hbt
    simp [pokeLoc, dropsBound]

/-! ## The frame of a store to physical memory -/

/-- Bytes beside the stored ones, on other lines under any key and on the store's own under its key. -/
theorem viewByte_stored {m : MemSys} (hfit : PartialsFit m) {pa key : Nat} (bt narrow : Bool) {l : List Byte} (bs : List (BitVec 16))
    (hl : pa % 128 + l.length ≤ 128) {a k : Nat} (ha : a < pa ∨ pa + l.length ≤ a) (hk : lineOf a ≠ lineOf pa ∨ k = key) :
    viewByte (stored m pa key bt narrow l bs) a k = viewByte m a k := by
  by_cases hline : lineOf a = lineOf pa
  · obtain rfl := hk.resolve_left (fun h => h hline)
    unfold viewByte
    rw [hline, openLine_of_opened (stored_opened ..), stored_bytes, memGet_memWrite_out _ _ _ _ ha]
  · have hbeside : ∀ c, lineOf c = lineOf a → c < pa ∨ pa + l.length ≤ c := fun c hc => by
      unfold lineOf at *
      omega
    exact (((SameLine.openLine_right hline hfit key).trans (SameLine.putStore_right _ bt narrow bs hbeside)).viewByte hfit k).symm

theorem dropStash_scratch (s : State) (line : Nat) (keep : StashRef) :
    (dropStash s line keep).coreGroups.map (fun c => (c.1, c.2.scratch, c.2.srec, c.2.smap))
      = s.coreGroups.map (fun c => (c.1, c.2.scratch, c.2.srec, c.2.smap)) := by
  unfold dropStash
  rw [List.map_map]
  refine List.map_congr_left (fun e _ => ?_)
  dsimp only [Function.comp]
  split <;> rfl

theorem globalStoreFrame : GlobalStoreFrame := fun _ _ _ bt narrow _ _ bs hfit hl =>
  ⟨fun _ _ ha hk => viewByte_stored hfit bt narrow bs hl ha hk, rfl, rfl, rfl, rfl, rfl, dropStash_scratch ..⟩

/-! ## The frame of a store to scratch (R102) -/

/-- Scratch is written as memory is. -/
theorem scrWrite_eq (m : Map Byte) (o : Nat) (l : List Byte) : scrWrite m o l = memWrite m o l := by
  induction l generalizing m o with
  | nil => rfl
  | cons b r ih => exact ih _ _

theorem scratchStoreFrame : ScratchStoreFrame := by
  intro s g o c l bs hc
  have hget (h : Nat) : Map.get? (pokeLoc s (.scr g o) none l bs false).1.coreGroups h
      = if h = g then some { c with
          scratch := memWrite c.scratch o l, srec := scrBounds c.srec (o / 4 * 4) bs,
          badWords := c.badWords.filter (fun w => !decide (o / 4 ≤ w ∧ w < o / 4 + bs.length)) } else Map.get? s.coreGroups h := by
    refine (Map.get?_adjust ..).trans ?_
    rw [hc, Option.map_some, scrWrite_eq]
    rfl
  refine ⟨rfl, rfl, fun h hne => (hget h).trans (if_neg hne), _, (hget g).trans (if_pos rfl), memBytes_memWrite .., fun a ha => ?_, rfl, rfl⟩
  exact memGet_memWrite_out l c.scratch o a ha

/-- Settles O21: the store's own line is left open and changes at the stored bytes alone; other lines do not depend on what changes. -/
theorem storeFrame : Obligations.StoreFrame := ⟨globalStoreFrame, scratchStoreFrame⟩

end Sys2Proof.Laws



/-! SUPPORT. Governed arithmetic (R70-R78): which tier, which exact result, and how near truncations and roundings come to it. -/

namespace Sys2Proof.Laws

open Sys2Proof.Machine Sys2Proof.Claims

/-! ## The tier (R72, R74-R76) -/

theorem magEst_eq (ty : Ty) (k : FKind) (x y c : FV) : magEst ty k x y c = magTable ty k x y c := by
  unfold magEst magTable
  dsimp only
  generalize exOf (tyFmt ty) x = p
  generalize exOf (tyFmt ty) y = q
  generalize exOf (tyFmt ty) c = r
  cases k <;> cases p <;> cases q <;> cases r <;> rfl

theorem epsOf_eq (ty : Ty) (t : Nat) (rnd : Rnd) : epsOf ty t rnd = epsTable ty t rnd := by
  rcases t with _ | _ | t <;> cases ty <;> cases rnd <;> rfl

/-- Whether a tier's test of R76 holds under a limit. -/
def tierOk (lim : Bd) (eps : Nat → Dy) (beta m : Bd) (t : Nat) : Bool := match beta, m with
  | some b, some x => bdLe (some (dyAdd b (dyMul (eps t) x))) lim
  | _, _ => false

theorem tierOk_iff (lim : Dy) (eps : Nat → Dy) (beta m : Bd) (t : Nat) : tierOk (some lim) eps beta m t = true
    ↔ ∃ x y, beta = some x ∧ m = some y ∧ dyLe (dyAdd x (dyMul (eps t) y)) lim = true := by
  cases beta <;> cases m <;> simp [tierOk, bdLe]

theorem tierFrom_one (lim : Bd) (eps : Nat → Dy) (beta m : Bd) :
    tierFrom lim eps beta m [1, 2] = if tierOk lim eps beta m 1 then 1 else 2 := by
  have h : tierFrom lim eps beta m [1, 2] = if tierOk lim eps beta m 1 then 1 else if tierOk lim eps beta m 2 then 2 else 2 := rfl
  rw [h, ite_self]

theorem tierFrom_zero (lim : Bd) (eps : Nat → Dy) (beta m : Bd) :
    tierFrom lim eps beta m [0, 1, 2] = if tierOk lim eps beta m 0 then 0 else if tierOk lim eps beta m 1 then 1 else 2 :=
  congrArg (fun u => if tierOk lim eps beta m 0 then 0 else u) (tierFrom_one lim eps beta m)

/-- The lowest tier of a kind. -/
def lowTier (k : FKind) : Nat := if k = .add then 1 else 0

/-- The tiers of a kind, the lowest first. -/
def tiersOf (k : FKind) : List Nat := if k == .add then [1, 2] else [0, 1, 2]

/-- Of the tiers of a kind the lowest whose test holds, or 2. -/
theorem tierFrom_spec (k : FKind) (lim : Bd) (eps : Nat → Dy) (beta m : Bd) :
    let t := tierFrom lim eps beta m (tiersOf k)
    t ≤ 2 ∧ lowTier k ≤ t ∧ (t = 2 ∨ tierOk lim eps beta m t = true) ∧ ∀ u, lowTier k ≤ u → u < t → tierOk lim eps beta m u = false := by
  have hone : let t := tierFrom lim eps beta m [1, 2]
      t ≤ 2 ∧ 1 ≤ t ∧ (t = 2 ∨ tierOk lim eps beta m t = true) ∧ ∀ u, 1 ≤ u → u < t → tierOk lim eps beta m u = false := by
    rw [tierFrom_one]
    cases h1 : tierOk lim eps beta m 1
    · exact ⟨le_rfl, by decide, .inl rfl, fun u hu hu2 => (show u = 1 by simp at hu2; omega) ▸ h1⟩
    · exact ⟨by decide, le_rfl, .inr h1, fun u hu hu2 => absurd hu2 (not_lt.mpr hu)⟩
  have hzero : let t := tierFrom lim eps beta m [0, 1, 2]
      t ≤ 2 ∧ 0 ≤ t ∧ (t = 2 ∨ tierOk lim eps beta m t = true) ∧ ∀ u, 0 ≤ u → u < t → tierOk lim eps beta m u = false := by
    rw [tierFrom_zero, ← tierFrom_one]
    cases h0 : tierOk lim eps beta m 0
    · obtain ⟨hle, -, hok, hlow⟩ := hone
      refine ⟨hle, Nat.zero_le _, hok, fun u _ hu => ?_⟩
      rcases Nat.eq_zero_or_pos u with rfl | hpos
      · exact h0
      · exact hlow u hpos hu
    · exact ⟨Nat.zero_le 2, le_rfl, .inr h0, fun u hu hu2 => absurd hu2 (not_lt.mpr hu)⟩
  cases k
  · exact hone
  · exact hzero
  · exact hzero

theorem tierSelect_range (k : FKind) (tier : TierF) (bud : Word) (eps : Nat → Dy) (beta m : Bd) :
    let t := tierSelect (forcedTier k tier) bud (tiersOf k) eps beta m
    lowTier k ≤ t ∧ t ≤ 2 := by
  cases tier with
  | gov =>
    unfold tierSelect forcedTier
    dsimp only
    split
    · cases k <;> decide
    · split
      · cases k <;> decide
      · next b _ =>
        obtain ⟨hle, hlow, -⟩ := tierFrom_spec k (some (dyScale b (-(budHr bud : Int)))) eps beta m
        exact ⟨hlow, hle⟩
  | _ => cases k <;> simp [tierSelect, forcedTier, lowTier]

theorem tierSelect_tierIs (k : FKind) (tier : TierF) (bud : Word) (eps : Nat → Dy) (beta m : Bd) :
    TierIs k tier bud eps beta m (tierSelect (forcedTier k tier) bud (tiersOf k) eps beta m) := by
  refine ⟨?_, ?_, ?_, ?_, ?_, ?_⟩
  · rintro rfl; cases k <;> rfl
  · rintro rfl; rfl
  · rintro rfl; rfl
  · rintro rfl h
    exact if_pos h
  · rintro rfl h hb
    refine (if_neg h).trans ?_
    change (match bdOf ((bud >>> 16).setWidth 16) with
      | none => (tiersOf k).headD 2
      | some b => tierFrom (some (dyScale b (-(budHr bud : Int)))) eps beta m (tiersOf k)) = _
    rw [hb]
    cases k <;> rfl
  · rintro rfl h hb
    obtain ⟨b, hb⟩ := Option.ne_none_iff_exists'.mp hb
    have hsel : tierSelect (forcedTier k .gov) bud (tiersOf k) eps beta m = tierFrom (some (dyScale b (-(budHr bud : Int)))) eps beta m (tiersOf k) := by
      refine (if_neg h).trans ?_
      change (match bdOf ((bud >>> 16).setWidth 16) with
        | none => (tiersOf k).headD 2
        | some b => tierFrom (some (dyScale b (-(budHr bud : Int)))) eps beta m (tiersOf k)) = _
      rw [hb]
    obtain ⟨hle, -, hok, hlow⟩ := tierFrom_spec k (some (dyScale b (-(budHr bud : Int)))) eps beta m
    have hholds (u : Nat) : tierOk (some (dyScale b (-(budHr bud : Int)))) eps beta m u = true
        ↔ ∃ x y b', beta = some x ∧ m = some y ∧ bdOf ((bud >>> 16).setWidth 16) = some b'
          ∧ dyLe (dyAdd x (dyMul (eps u) y)) (dyScale b' (-(bud.toNat / 2 ^ 8 % 8 : Nat))) = true := by
      rw [tierOk_iff, hb]
      constructor
      · rintro ⟨x, y, hx, hy, hle⟩
        exact ⟨x, y, b, hx, hy, rfl, hle⟩
      · rintro ⟨x, y, b', hx, hy, hb', hle⟩
        cases hb'
        exact ⟨x, y, hx, hy, hle⟩
    rw [hsel]
    refine ⟨hle, hok.imp_right (hholds _).mp, fun u hu hlt hu2 => ?_⟩
    exact Bool.false_ne_true ((hlow u hu hlt).symm.trans ((hholds u).mpr hu2))

/-! ## The exact result (R48, R70) -/

@[simp] theorem fvIsSig_nan (s : Bool) : fvIsSig (.nan s) = s := by cases s <;> rfl
@[simp] theorem fvIsSig_inf (n : Bool) : fvIsSig (.inf n) = false := rfl
@[simp] theorem fvIsSig_fin (n : Bool) (m : Nat) (e : Int) : fvIsSig (.fin n m e) = false := rfl

theorem exactAdd_nan (rnd : Rnd) {x y : FV} (h : (fvIsNan x || fvIsNan y) = true) :
    exactAdd rnd x y = .sp (.nan false) (fvIsSig x || fvIsSig y) := by
  cases x with
  | nan s => cases y <;> simp [exactAdd]
  | _ =>
    cases y with
    | nan s => simp [exactAdd]
    | _ => exact nomatch h

theorem exactMul_nan {x y : FV} (h : (fvIsNan x || fvIsNan y) = true) : exactMul x y = .sp (.nan false) (fvIsSig x || fvIsSig y) := by
  cases x with
  | nan s => cases y <;> simp [exactMul]
  | _ =>
    cases y with
    | nan s => simp [exactMul]
    | _ => exact nomatch h

/-- x·y + c without a NaN addend. -/
theorem exactFma_of_not_nan (rnd : Rnd) (x y : FV) {c : FV} (hc : fvIsNan c = false) : exactFma rnd x y c = match exactMul x y with
    | .sp v nv => if fvIsInf v then exactAdd rnd v c else .sp v nv
    | .num zn d => exactAdd rnd (fvOfDy zn d) c := by
  cases c with
  | nan s => exact nomatch hc
  | _ => rfl

theorem exactFma_nan (rnd : Rnd) {x y c : FV} (h : (fvIsNan x || fvIsNan y || fvIsNan c) = true) :
    exactFma rnd x y c = .sp (.nan false) (fvIsSig x || fvIsSig y || fvIsSig c) := by
  cases hc : fvIsNan c
  · rw [hc, Bool.or_false] at h
    rw [exactFma_of_not_nan rnd x y hc, exactMul_nan h, fvIsSig_of_not_nan hc, Bool.or_false]
    rfl
  · cases c with
    | nan s =>
      have hfma : exactFma rnd x y (.nan s) = .sp (.nan false) (s || fvIsSig x || fvIsSig y) := rfl
      rw [hfma, fvIsSig_nan, Bool.or_assoc, Bool.or_comm s]
    | _ => exact nomatch hc

/-- An infinity without a flag, or the NaN of an invalid operation. -/
def SpecialSum (e : Exact) : Prop := ∃ v nv, e = .sp v nv ∧ ((fvIsInf v = true ∧ nv = false) ∨ (fvIsNan v = true ∧ nv = true))

theorem exactAdd_inf (rnd : Rnd) {x y : FV} (hn : (fvIsNan x || fvIsNan y) = false) (h : (fvIsInf x || fvIsInf y) = true) :
    SpecialSum (exactAdd rnd x y) := by
  rcases x with s | m | ⟨m, i, e⟩
  · exact nomatch hn
  · rcases y with s | n | ⟨n, j, f⟩
    · exact nomatch hn
    · by_cases hmn : m = n
      · exact ⟨.inf m, false, if_pos hmn, .inl ⟨rfl, rfl⟩⟩
      · exact ⟨.nan false, true, if_neg hmn, .inr ⟨rfl, rfl⟩⟩
    · exact ⟨.inf m, false, rfl, .inl ⟨rfl, rfl⟩⟩
  · rcases y with s | n | ⟨n, j, f⟩
    · exact nomatch hn
    · exact ⟨.inf n, false, rfl, .inl ⟨rfl, rfl⟩⟩
    · exact nomatch h

theorem exactMul_inf {x y : FV} (hn : (fvIsNan x || fvIsNan y) = false) (h : (fvIsInf x || fvIsInf y) = true) : SpecialSum (exactMul x y) := by
  have hmul : exactMul x y = if fvIsZero x || fvIsZero y then .sp (.nan false) true else .sp (.inf (fvSign x != fvSign y)) false := by
    rcases x with s | m | ⟨m, i, e⟩
    · exact nomatch hn
    · rcases y with s | n | ⟨n, j, f⟩
      · exact nomatch hn
      · rfl
      · rfl
    · rcases y with s | n | ⟨n, j, f⟩
      · exact nomatch hn
      · rfl
      · exact nomatch h
  rw [hmul]
  split
  · exact ⟨_, _, rfl, .inr ⟨rfl, rfl⟩⟩
  · exact ⟨_, _, rfl, .inl ⟨rfl, rfl⟩⟩

theorem fvDy_fvOfDy (zn : Bool) (d : Dy) : fvDy (fvOfDy zn d) = d := by
  obtain ⟨m, e⟩ := d
  unfold fvOfDy fvDy
  by_cases h0 : m = 0
  · simp [h0]
  · by_cases hneg : m < 0
    · simp only [h0, if_false, hneg, decide_true, if_true, Dy.mk.injEq, and_true]
      omega
    · simp only [h0, if_false, hneg, decide_false, Bool.false_eq_true, Dy.mk.injEq, and_true]
      omega

theorem exactAdd_fin (rnd : Rnd) {x y : FV} (hx : fvIsFin x = true) (hy : fvIsFin y = true) :
    ∃ zn, exactAdd rnd x y = .num zn (dyAdd (fvDy x) (fvDy y)) := by
  obtain ⟨n, m, e, rfl⟩ := exists_fin hx
  obtain ⟨k, j, f, rfl⟩ := exists_fin hy
  exact ⟨_, rfl⟩

theorem exactMul_fin {x y : FV} (hx : fvIsFin x = true) (hy : fvIsFin y = true) : ∃ zn, exactMul x y = .num zn (dyMul (fvDy x) (fvDy y)) := by
  obtain ⟨n, m, e, rfl⟩ := exists_fin hx
  obtain ⟨k, j, f, rfl⟩ := exists_fin hy
  exact ⟨_, rfl⟩

theorem exactFma_inf (rnd : Rnd) {x y c : FV} (hn : (fvIsNan x || fvIsNan y || fvIsNan c) = false)
    (h : (fvIsInf x || fvIsInf y || fvIsInf c) = true) : SpecialSum (exactFma rnd x y c) := by
  rw [Bool.or_eq_false_iff] at hn
  obtain ⟨hxy, hc⟩ := hn
  rw [exactFma_of_not_nan rnd x y hc]
  cases hinf : (fvIsInf x || fvIsInf y)
  · rw [hinf, Bool.false_or] at h
    rw [Bool.or_eq_false_iff] at hxy hinf
    have hfin {v : FV} (hv : fvIsNan v = false) (hv' : fvIsInf v = false) : fvIsFin v = true := by
      cases v with
      | nan s => exact nomatch hv
      | inf n => exact nomatch hv'
      | fin n m e => rfl
    obtain ⟨zn, hmul⟩ := exactMul_fin (hfin hxy.1 hinf.1) (hfin hxy.2 hinf.2)
    rw [hmul]
    exact exactAdd_inf rnd hc (by rw [h, Bool.or_true])
  · obtain ⟨v, nv, hmul, hv⟩ := exactMul_inf hxy hinf
    rw [hmul]
    rcases hv with ⟨hv, rfl⟩ | ⟨hv, rfl⟩
    · dsimp only
      rw [if_pos hv]
      have hnan : fvIsNan v = false := by cases v <;> simp_all [fvIsNan, fvIsInf]
      exact exactAdd_inf rnd (by rw [hnan, hc]; rfl) (by rw [hv]; rfl)
    · dsimp only
      rw [if_neg (by cases v <;> simp_all [fvIsNan, fvIsInf])]
      exact ⟨v, true, rfl, .inr ⟨hv, rfl⟩⟩

/-- The operands an instruction of a kind reads. -/
def opsOf (k : FKind) (x y c : FV) : List FV := if k = .fma then [x, y, c] else [x, y]

theorem exactOn_nan (k : FKind) (t : Nat) (rnd : Rnd) {x y c : FV} (h : (opsOf k x y c).any fvIsNan = true) :
    exactOn k t rnd x y c = .sp (.nan false) ((opsOf k x y c).any fvIsSig) := by
  cases k
  · simp only [opsOf, reduceCtorEq, if_false, List.any_cons, List.any_nil, Bool.or_false] at h ⊢
    exact exactAdd_nan _ h
  · simp only [opsOf, reduceCtorEq, if_false, List.any_cons, List.any_nil, Bool.or_false] at h ⊢
    exact exactMul_nan h
  · simp only [opsOf, if_true, List.any_cons, List.any_nil, Bool.or_false, ← Bool.or_assoc] at h ⊢
    exact exactFma_nan _ h

theorem exactOn_inf (k : FKind) (t : Nat) (rnd : Rnd) {x y c : FV} (hn : (opsOf k x y c).any fvIsNan = false)
    (h : (opsOf k x y c).any fvIsInf = true) : SpecialSum (exactOn k t rnd x y c) := by
  cases k
  · simp only [opsOf, reduceCtorEq, if_false, List.any_cons, List.any_nil, Bool.or_false] at h hn
    exact exactAdd_inf _ hn h
  · simp only [opsOf, reduceCtorEq, if_false, List.any_cons, List.any_nil, Bool.or_false] at h hn
    exact exactMul_inf hn h
  · simp only [opsOf, if_true, List.any_cons, List.any_nil, Bool.or_false, ← Bool.or_assoc] at h hn
    exact exactFma_inf _ hn h

theorem exactOn_fin (k : FKind) (t : Nat) (rnd : Rnd) {x y c : FV} (h : (opsOf k x y c).all fvIsFin = true) :
    ∃ zn, exactOn k t rnd x y c = .num zn (exactReal k x y c) := by
  cases k
  · simp only [opsOf, reduceCtorEq, if_false, List.all_cons, List.all_nil, Bool.and_true, Bool.and_eq_true] at h
    exact exactAdd_fin _ h.1 h.2
  · simp only [opsOf, reduceCtorEq, if_false, List.all_cons, List.all_nil, Bool.and_true, Bool.and_eq_true] at h
    exact exactMul_fin h.1 h.2
  · simp only [opsOf, if_true, List.all_cons, List.all_nil, Bool.and_true, Bool.and_eq_true] at h
    obtain ⟨hx, hy, hc⟩ := h
    obtain ⟨zn, hmul⟩ := exactMul_fin hx hy
    obtain ⟨zn', hadd⟩ := exactAdd_fin (if t = 2 then rnd else .rtz) (x := fvOfDy zn (dyMul (fvDy x) (fvDy y))) (y := c) rfl hc
    refine ⟨zn', (exactFma_of_not_nan _ x y (fvIsNan_of_fin hc)).trans ?_⟩
    rw [hmul]
    rw [fvDy_fvOfDy] at hadd
    exact hadd

end Sys2Proof.Laws



/-! SUPPORT. How near a truncation comes (R70, R71), and how near the rounding of tier 2. -/

namespace Sys2Proof.Laws

open Sys2Proof.Machine Sys2Proof.Claims

/-! ## Losing a part of a value -/

/-- w exceeds z in magnitude by at most the part ε of z. -/
def LosesPart (ε w z : ℚ) : Prop := ∃ θ, 0 ≤ θ ∧ θ ≤ ε ∧ w = z * (1 + θ)

theorem LosesPart.refl {ε : ℚ} (h : 0 ≤ ε) (z : ℚ) : LosesPart ε z z := ⟨0, le_rfl, h, by ring⟩

theorem LosesPart.mono {ε δ w z : ℚ} (h : LosesPart ε w z) (hle : ε ≤ δ) : LosesPart δ w z := by
  obtain ⟨θ, h0, h1, rfl⟩ := h
  exact ⟨θ, h0, h1.trans hle, rfl⟩

theorem LosesPart.neg {ε w z : ℚ} (h : LosesPart ε w z) : LosesPart ε (-w) (-z) := by
  obtain ⟨θ, h0, h1, rfl⟩ := h
  exact ⟨θ, h0, h1, by ring⟩

theorem parts_le {a b ε δ : ℚ} (ha : 0 ≤ a) (hb : 0 ≤ b) (haε : a ≤ ε) (hbδ : b ≤ δ) : a + b + a * b ≤ ε + δ + ε * δ :=
  add_le_add (add_le_add haε hbδ) (mul_le_mul haε hbδ hb (ha.trans haε))

theorem LosesPart.mul {ε δ w z x y : ℚ} (h : LosesPart ε w z) (h' : LosesPart δ x y) : LosesPart (ε + δ + ε * δ) (w * x) (z * y) := by
  obtain ⟨θ, h0, h1, rfl⟩ := h
  obtain ⟨η, h0', h1', rfl⟩ := h'
  exact ⟨θ + η + θ * η, by positivity, parts_le h0 h0' h1 h1', by ring⟩

theorem LosesPart.trans {ε δ w z y : ℚ} (h : LosesPart ε w z) (h' : LosesPart δ z y) : LosesPart (ε + δ + ε * δ) w y := by
  obtain ⟨θ, h0, h1, rfl⟩ := h
  obtain ⟨η, h0', h1', rfl⟩ := h'
  exact ⟨θ + η + θ * η, by positivity, parts_le h0 h0' h1 h1', by ring⟩

theorem LosesPart.near {ε w z : ℚ} (h : LosesPart ε w z) : |z - w| ≤ ε * |z| := by
  obtain ⟨θ, h0, h1, rfl⟩ := h
  have hdiff : z - z * (1 + θ) = -(θ * z) := by ring
  rw [hdiff, abs_neg, abs_mul, abs_of_nonneg h0]
  exact mul_le_mul_of_nonneg_right h1 (abs_nonneg z)

/-- A loss of the same part on both signs. -/
theorem LosesPart.signed {ε : ℚ} {m k : Nat} {e q : Int} (h : LosesPart ε (dyVal ⟨m, e⟩) (dyVal ⟨k, q⟩)) (n : Bool) :
    LosesPart ε (dyVal (fvDy (.fin n m e))) (dyVal (fvDy (.fin n k q))) := by
  rw [dyVal_fvDy, dyVal_fvDy]
  cases n
  · exact h
  · exact h.neg

/-! ## Dropping bits -/

/-- What s dropped bits leave and what they take. -/
theorem dropBits (m s : Nat) (e : Int) : dyVal ⟨(m / 2 ^ s : Nat), e + s⟩ ≤ dyVal ⟨m, e⟩
    ∧ dyVal ⟨m, e⟩ < dyVal ⟨(m / 2 ^ s : Nat), e + s⟩ + 2 ^ (e + s) := by
  have he := two_zpow_pos e
  rw [dyVal_natCast, dyVal_natCast, zpow_add₀ two_ne_zero, zpow_natCast]
  have hlow : ((m / 2 ^ s : Nat) : ℚ) * 2 ^ s ≤ m := by exact_mod_cast Nat.div_mul_le_self m (2 ^ s)
  have hhigh : (m : ℚ) < (m / 2 ^ s : Nat) * 2 ^ s + 2 ^ s := by exact_mod_cast Nat.lt_div_mul_add (Nat.two_pow_pos s)
  constructor <;> nlinarith

/-- Where K bits and one more stay, a part of 2^-K is lost at most. -/
theorem dropBits_losesPart {K m s : Nat} (h : 2 ^ K * 2 ^ s ≤ m) (e : Int) :
    LosesPart (2 ^ (-K : Int)) (dyVal ⟨m, e⟩) (dyVal ⟨(m / 2 ^ s : Nat), e + s⟩) := by
  obtain ⟨hle, hlt⟩ := dropBits m s e
  have hk : 2 ^ K ≤ m / 2 ^ s := (Nat.le_div_iff_mul_le (Nat.two_pow_pos s)).mpr h
  have hunit := two_zpow_pos (e + s)
  have hz : (2 : ℚ) ^ K * 2 ^ (e + s) ≤ dyVal ⟨(m / 2 ^ s : Nat), e + s⟩ := by
    rw [dyVal_natCast]
    exact mul_le_mul_of_nonneg_right (by exact_mod_cast hk) hunit.le
  generalize dyVal ⟨(m / 2 ^ s : Nat), e + s⟩ = z at *
  generalize dyVal ⟨m, e⟩ = w at *
  have hK : (0 : ℚ) < 2 ^ K := by positivity
  have hzpos : 0 < z := lt_of_lt_of_le (by positivity) hz
  refine ⟨(w - z) / z, div_nonneg (sub_nonneg.mpr hle) hzpos.le, ?_, by field_simp; ring⟩
  rw [zpow_neg, zpow_natCast, div_le_iff₀ hzpos, inv_mul_eq_div, le_div_iff₀ hK]
  nlinarith

theorem truncBits_eq (k m : Nat) (e : Int) : truncBits k m e = if Nat.log2 m < k then (m, e)
    else (m / 2 ^ (Nat.log2 m + 1 - k), e + (Nat.log2 m + 1 - k : Nat)) := by
  unfold truncBits
  dsimp only
  split
  · rfl
  · next h => rw [Nat.cast_sub (by omega)]; simp

theorem truncBits_losesPart (K m : Nat) (e : Int) :
    LosesPart (2 ^ (-K : Int)) (dyVal ⟨m, e⟩) (dyVal ⟨(truncBits (K + 1) m e).1, (truncBits (K + 1) m e).2⟩) := by
  rw [truncBits_eq]
  split
  · exact .refl (two_zpow_pos _).le _
  · next h =>
    have hm : m ≠ 0 := by rintro rfl; simp at h
    refine dropBits_losesPart ?_ e
    rw [← pow_add]
    exact (Nat.pow_le_pow_right two_pos (by omega)).trans (Nat.log2_self_le hm)

theorem truncBits_eq_zero {k m : Nat} (hk : k ≠ 0) (e : Int) : (truncBits k m e).1 = 0 ↔ m = 0 := by
  rw [truncBits_eq]
  split
  · rfl
  · next h =>
    have hm : m ≠ 0 := by rintro rfl; simp at h; omega
    have hle : 2 ^ (Nat.log2 m + 1 - k) ≤ m := (Nat.pow_le_pow_right two_pos (by omega)).trans (Nat.log2_self_le hm)
    exact iff_of_false (Nat.div_pos hle (Nat.two_pow_pos _)).ne' hm

/-- The exponent of the last place of the least normal values. -/
def gridExp (f : IFmt) : Int := f.emin - (f.p - 1 : Int)

/-- Off from the exact value w only below the least normal magnitude, and by less than a unit of the grid. -/
def WithinGrid (f : IFmt) (w z : ℚ) : Prop := |z - w| < 2 ^ gridExp f ∧ |z| < 2 ^ f.emin

theorem fmtQ_emin (f : IFmt) : fmtQ f f.emin = gridExp f := by rw [fmtQ, max_self]; rfl

theorem truncSig_spec {f : IFmt} {K : Nat} (hK : K + 1 ≤ f.p) (m : Nat) (e : Int) :
    let r := truncSig f (K + 1) m e
    LosesPart (2 ^ (-K : Int)) (dyVal ⟨m, e⟩) (dyVal ⟨r.1, r.2⟩) ∨ (m ≠ 0 ∧ WithinGrid f (dyVal ⟨m, e⟩) (dyVal ⟨r.1, r.2⟩)) := by
  intro r
  by_cases hm : m = 0
  · have hr : r = (0, 0) := if_pos hm
    rw [hr, hm]
    left
    simpa [dyVal] using LosesPart.refl (two_zpow_pos (-K : Int)).le 0
  have hr : r = if max (Nat.log2 m + e - K) (gridExp f) ≤ e then (m, e)
      else (m / 2 ^ (max (Nat.log2 m + e - K) (gridExp f) - e).toNat, max (Nat.log2 m + e - K) (gridExp f)) := by
    rw [← fmtQ_emin]
    refine (if_neg hm).trans ?_
    simp
  clear_value r
  generalize hq : max (Nat.log2 m + e - K) (gridExp f) = q at hr
  by_cases hqe : q ≤ e
  · rw [if_pos hqe] at hr
    rw [hr]
    exact .inl (.refl (two_zpow_pos _).le _)
  · rw [if_neg hqe] at hr
    obtain ⟨s, hs⟩ := Int.eq_ofNat_of_zero_le (show 0 ≤ q - e by omega)
    have hqs : q = e + s := by omega
    rw [hs, Int.toNat_natCast, hqs] at hr
    rw [hr]
    rcases le_or_gt (gridExp f) (Nat.log2 m + e - K) with hcase | hcase
    · left
      refine dropBits_losesPart ?_ e
      rw [← pow_add]
      exact (Nat.pow_le_pow_right two_pos (by omega)).trans (Nat.log2_self_le hm)
    · right
      obtain ⟨hle, hlt⟩ := dropBits m s e
      have hgrid : gridExp f = e + s := by omega
      have hlog : dyLog ⟨m, e⟩ + 1 ≤ f.emin := by
        have hdef : gridExp f = f.emin - (f.p - 1 : Int) := rfl
        simp only [dyLog, Int.natAbs_natCast]
        omega
      have hsmall : dyVal ⟨m, e⟩ < 2 ^ f.emin :=
        (two_zpow_dyLog_le (Int.natCast_pos.mpr (Nat.pos_of_ne_zero hm))).2.trans_le (zpow_le_zpow_right₀ one_le_two hlog)
      have hnonneg : 0 ≤ dyVal ⟨(m / 2 ^ s : Nat), e + s⟩ := (dyVal_nonneg_iff _).mpr (Int.natCast_nonneg _)
      refine ⟨hm, ?_, ?_⟩
      · rw [hgrid, abs_lt]
        constructor <;> linarith
      · rw [abs_of_nonneg hnonneg]
        exact hle.trans_lt hsmall

theorem abs_fvDy_sub (n : Bool) (k m : Nat) (q e : Int) :
    |dyVal (fvDy (.fin n k q)) - dyVal (fvDy (.fin n m e))| = |dyVal ⟨k, q⟩ - dyVal ⟨m, e⟩| := by
  rw [dyVal_fvDy, dyVal_fvDy]
  cases n
  · rfl
  · simp only [if_true]
    rw [neg_sub_neg, abs_sub_comm]

theorem abs_fvDy (n : Bool) (m : Nat) (e : Int) : |dyVal (fvDy (.fin n m e))| = dyVal ⟨m, e⟩ := by rw [← dyVal_dyAbs, dyAbs_fvDy]

theorem WithinGrid.signed {f : IFmt} {m k : Nat} {e q : Int} (h : WithinGrid f (dyVal ⟨m, e⟩) (dyVal ⟨k, q⟩)) (n : Bool) :
    WithinGrid f (dyVal (fvDy (.fin n m e))) (dyVal (fvDy (.fin n k q))) := by
  obtain ⟨hnear, hsmall⟩ := h
  exact ⟨by rwa [abs_fvDy_sub], by rwa [abs_fvDy, ← abs_of_nonneg ((dyVal_nonneg_iff ⟨k, q⟩).mpr (Int.natCast_nonneg k))]⟩

/-! ## A truncated result (R70, R71) -/

/-- What truncation of w delivers beside the exact value d: a value near w with the flags d fixes, or on overflow the largest magnitude. -/
inductive TruncsTo (f : IFmt) (w d : Dy) (r : Rounded) : Prop
  | near (ho : r.ovf = false) (hof : r.fl &&& 0x04 = 0) (hfl : FlagsFit f d r.v r.fl)
      (hv : LosesPart (2 ^ (-15 : Int)) (dyVal w) (dyVal (fvDy r.v)) ∨ (w.m ≠ 0 ∧ WithinGrid f (dyVal w) (dyVal (fvDy r.v))))
  | over (ho : r.ovf = true) (hof : r.fl = 0x14) (hv : r.v = Claims.topOf f (decide (w.m < 0)))

theorem truncTo_truncsTo {f : IFmt} (hp : 16 ≤ f.p) (zn : Bool) (w d : Dy) : TruncsTo f w d (truncTo f zn w d) := by
  have hval (n : Bool) (hn : n = if w.m = 0 then zn else decide (w.m < 0)) : fvDy (.fin n w.m.natAbs w.e) = w := by
    rw [hn]
    exact fvDy_fvOfDy zn w
  have htrunc : truncTo f zn w d =
      let n := if w.m = 0 then zn else decide (w.m < 0)
      let r := truncSig f 16 w.m.natAbs w.e
      if dyLt (fmtMax f) ⟨r.1, r.2⟩ then ⟨Claims.topOf f n, 0x14, true⟩
      else
        let v := FV.fin n r.1 r.2
        ⟨v, inexactFlags (!dyEq (fvDy v) d) (!dyIsZero d && dyLt ⟨r.1, r.2⟩ (dyPow f.emin)), false⟩ := by
    simp only [truncTo, inexactFlags, Bool.and_assoc]
    rfl
  rw [htrunc]
  generalize hn : (if w.m = 0 then zn else decide (w.m < 0)) = n
  dsimp only
  split
  · next hover =>
    have hm : w.m ≠ 0 := by
      intro h0
      have hzero : truncSig f 16 w.m.natAbs w.e = (0, 0) := by rw [h0]; rfl
      rw [hzero, dyLt_iff] at hover
      have hmax : 0 ≤ dyVal (fmtMax f) := (dyVal_nonneg_iff _).mpr (Int.sub_nonneg.mpr (by exact_mod_cast Nat.one_le_two_pow))
      simp [dyVal] at hover hmax
      linarith
    rw [if_neg hm] at hn
    exact .over rfl rfl (by rw [hn])
  · obtain ⟨hnx, huf, hof⟩ := inexactFlags_bits (!dyEq (fvDy (.fin n (truncSig f 16 w.m.natAbs w.e).1 (truncSig f 16 w.m.natAbs w.e).2)) d)
      (!dyIsZero d && dyLt ⟨(truncSig f 16 w.m.natAbs w.e).1, (truncSig f 16 w.m.natAbs w.e).2⟩ (dyPow f.emin))
    refine .near rfl hof ⟨rfl, hnx.trans (by rw [Bool.not_eq_true']), ?_⟩ ?_
    · rw [dyAbs_fvDy]
      refine huf.trans ?_
      simp [dyIsZero]
    · rcases truncSig_spec (K := 15) hp w.m.natAbs w.e with h | ⟨hm, h⟩
      · have hpart := h.signed n
        rw [hval n hn.symm] at hpart
        exact .inl hpart
      · have hgrid := h.signed n
        rw [hval n hn.symm] at hgrid
        exact .inr ⟨mt Int.natAbs_eq_zero.mpr hm, hgrid⟩

/-! ## How near the results of the tiers are -/

theorem floorAt_of_small {ty : Ty} {z d : Dy} (hd : d.m ≠ 0) (h : |dyVal z| < 2 ^ (tyFmt ty).emin) : floorAt ty z d = floorTable ty :=
  if_pos ⟨hd, by rwa [dyLt_iff, dyVal_dyAbs, dyVal_dyPow]⟩

theorem floorTable_nonneg (ty : Ty) : 0 ≤ dyVal (floorTable ty) := (dyVal_nonneg_iff _).mpr (by decide : (0 : Int) ≤ 1)

theorem epsTable_nonneg (ty : Ty) (t : Nat) (rnd : Rnd) : 0 ≤ dyVal (epsTable ty t rnd) := (dyVal_nonneg_iff _).mpr (by decide : (0 : Int) ≤ 1)

theorem floorAt_nonneg (ty : Ty) (z d : Dy) : 0 ≤ dyVal (floorAt ty z d) := by
  unfold floorAt
  split
  · exact floorTable_nonneg ty
  · rw [dyVal_dyZero]

/-- The grid of a type is not coarser than its subnormal floor. -/
theorem gridExp_le_floorTable (ty : Ty) : (2 : ℚ) ^ gridExp (tyFmt ty) ≤ dyVal (floorTable ty) := by
  unfold floorTable
  rw [dyVal_dyPow]
  exact zpow_le_zpow_right₀ one_le_two (by cases ty <;> decide)

theorem epsTable_two (ty : Ty) (rnd : Rnd) : epsTable ty 2 rnd = dyPow (if rnd = .rne then -((tyFmt ty).p : Int) else 1 - (tyFmt ty).p) := by
  cases ty <;> cases rnd <;> rfl

theorem epsTable_low {ty : Ty} (h : ty ≠ .bf16x2) (rnd : Rnd) : epsTable ty 0 rnd = dyPow (-9) ∧ epsTable ty 1 rnd = dyPow (-15) := by
  cases ty with
  | bf16x2 => exact absurd rfl h
  | _ => exact ⟨rfl, rfl⟩

/-- Within a grid step, below the least normal magnitude: off by the floor at most. -/
theorem WithinGrid.near_floorAt {ty : Ty} {d z : Dy} (h : WithinGrid (tyFmt ty) (dyVal d) (dyVal z)) (hd : d.m ≠ 0) :
    |dyVal z - dyVal d| ≤ dyVal (floorAt ty z d) := by
  obtain ⟨hnear, hsmall⟩ := h
  rw [floorAt_of_small hd hsmall]
  exact hnear.le.trans (gridExp_le_floorTable ty)

/-- A rounding to its last place is off by a part of eps[2] of the place's decade. -/
theorem roundUnits_near_eps (ty : Ty) (rnd : Rnd) (neg : Bool) (m : Nat) (e q : Int) :
    |dyVal ⟨(roundUnits rnd neg m e q).1, q⟩ - dyVal ⟨m, e⟩| ≤ dyVal (epsTable ty 2 rnd) * 2 ^ (q + ((tyFmt ty).p - 1 : Int)) := by
  rw [epsTable_two, dyVal_dyPow, ← zpow_add₀ two_ne_zero]
  split
  · next h =>
    subst h
    refine (roundUnits_rne_near neg m e q).1.trans_eq (congrArg _ (by omega))
  · exact (roundUnits_near rnd neg m e q false).le.trans_eq (congrArg _ (by omega))

/-- A rounding of a magnitude of at least K units takes K or more. -/
theorem le_roundUnits {rnd : Rnd} {neg : Bool} {m K : Nat} {e q : Int} (h : (K : ℚ) * 2 ^ q ≤ dyVal ⟨m, e⟩) :
    K ≤ (roundUnits rnd neg m e q).1 := by
  have hnear := (abs_lt.mp (roundUnits_near rnd neg m e q false)).1
  rw [dyVal_natCast] at hnear
  have hlt : (K : ℚ) * 2 ^ q < ((roundUnits rnd neg m e q).1 + 1 : Nat) * 2 ^ q := by
    push_cast
    linarith
  exact Nat.lt_succ_iff.mp (by exact_mod_cast lt_of_mul_lt_mul_right hlt (two_zpow_pos q).le)

/-- The value of R70 on tier 2 is off by eps[2] of its magnitude, and the floor. -/
theorem roundedOnce_near {ty : Ty} {rnd : Rnd} {d : Dy} {v : FV} (hd : d.m ≠ 0) (h : RoundedOnce (tyFmt ty) rnd d v) :
    |dyVal (fvDy v) - dyVal d| ≤ dyVal (epsTable ty 2 rnd) * |dyVal (fvDy v)| + dyVal (floorAt ty (fvDy v) d) := by
  have hv := h hd
  generalize hq : max (dyLog d) (tyFmt ty).emin - ((tyFmt ty).p - 1 : Int) = q at hv
  generalize hneg : decide (d.m < 0) = neg at hv
  have hdv : fvDy (.fin neg d.m.natAbs d.e) = d := by
    have hof := fvDy_fvOfDy false d
    rwa [fvOfDy, if_neg hd, hneg] at hof
  have hnear := roundUnits_near_eps ty rnd neg d.m.natAbs d.e q
  have hunit := roundUnits_near rnd neg d.m.natAbs d.e q false
  have hlow := (two_zpow_dyLog_le (a := ⟨(d.m.natAbs : Int), d.e⟩) (Int.natCast_pos.mpr (Int.natAbs_pos.mpr hd))).1
  have hmag : |dyVal (fvDy v)| = dyVal ⟨(roundUnits rnd neg d.m.natAbs d.e q).1, q⟩ := by rw [hv, abs_fvDy]
  have herr : |dyVal (fvDy v) - dyVal d| = |dyVal ⟨(roundUnits rnd neg d.m.natAbs d.e q).1, q⟩ - dyVal ⟨d.m.natAbs, d.e⟩| := by
    rw [← abs_fvDy_sub neg, hdv, hv]
  have hwide : (2 : ℚ) ^ (q + ((tyFmt ty).p - 1 : Int)) ≤ |dyVal (fvDy v)| → _ := fun hbig =>
    (herr.trans_le hnear).trans ((mul_le_mul_of_nonneg_left hbig (epsTable_nonneg ty 2 rnd)).trans
      (le_add_of_nonneg_right (floorAt_nonneg ty (fvDy v) d)))
  have hp : 1 ≤ (tyFmt ty).p := by cases ty <;> decide
  rcases le_total (tyFmt ty).emin (dyLog d) with hlog | hlog
  · apply hwide
    have hplace : q + ((tyFmt ty).p - 1 : Int) = ((tyFmt ty).p - 1 : Nat) + q := by rw [Nat.cast_sub hp]; simp [add_comm]
    have hdec : (2 : ℚ) ^ (q + ((tyFmt ty).p - 1 : Int)) = ((2 ^ ((tyFmt ty).p - 1) : Nat) : ℚ) * 2 ^ q := by
      rw [hplace, zpow_add₀ two_ne_zero, zpow_natCast, Nat.cast_pow, Nat.cast_ofNat]
    rw [hmag, hdec, dyVal_natCast]
    refine mul_le_mul_of_nonneg_right (Nat.cast_le.mpr (le_roundUnits ?_)) (two_zpow_pos q).le
    rw [← hdec]
    refine (zpow_le_zpow_right₀ one_le_two ?_).trans hlow
    rw [← hq, sub_add_cancel, max_eq_left hlog]
    exact le_rfl
  · rw [max_eq_right hlog] at hq
    have hplace : q + ((tyFmt ty).p - 1 : Int) = (tyFmt ty).emin := by rw [← hq, sub_add_cancel]
    rcases le_or_gt (2 ^ (tyFmt ty).emin) |dyVal (fvDy v)| with hbig | hsmall
    · exact hwide (hplace ▸ hbig)
    · have hgrid : WithinGrid (tyFmt ty) (dyVal d) (dyVal (fvDy v)) := ⟨by rw [herr, gridExp, hq]; exact hunit, hsmall⟩
      exact (hgrid.near_floorAt hd).trans (le_add_of_nonneg_left (mul_nonneg (epsTable_nonneg ty 2 rnd) (abs_nonneg _)))

end Sys2Proof.Laws



/-! SUPPORT. Governed arithmetic element by element (R70-R78), and the instructions that perform it (R174). -/

namespace Sys2Proof.Laws

open Sys2Proof.Machine Sys2Proof.Claims

/-! ## Truncated operands (R70) -/

theorem trunc12_fin (n : Bool) (m : Nat) (e : Int) : trunc12 (.fin n m e) = .fin n (truncBits 12 m e).1 (truncBits 12 m e).2 := rfl

theorem trunc12_losesPart {x : FV} (hx : fvIsFin x = true) :
    fvIsFin (trunc12 x) = true ∧ fvSign (trunc12 x) = fvSign x ∧ ((fvDy (trunc12 x)).m = 0 ↔ (fvDy x).m = 0)
    ∧ LosesPart (2 ^ (-11 : Int)) (dyVal (fvDy x)) (dyVal (fvDy (trunc12 x))) := by
  obtain ⟨n, m, e, rfl⟩ := exists_fin hx
  rw [trunc12_fin]
  exact ⟨rfl, rfl, by rw [fvDy_fin_m_eq_zero, fvDy_fin_m_eq_zero, truncBits_eq_zero (by decide)], (truncBits_losesPart 11 m e).signed n⟩

/-- The product of two finite values, with its sign. -/
theorem dyMul_fvDy (n k : Bool) (i j : Nat) (e f : Int) : dyMul (fvDy (.fin n i e)) (fvDy (.fin k j f)) = fvDy (.fin (n != k) (i * j) (e + f)) := by
  cases n <;> cases k <;> simp [dyMul, fvDy]

/-- The product of truncated operands: what it loses, and that it has the exact product's sign. -/
theorem truncMul_losesPart {x y : FV} (hx : fvIsFin x = true) (hy : fvIsFin y = true) :
    let w := dyMul (fvDy (trunc12 x)) (fvDy (trunc12 y))
    let d := dyMul (fvDy x) (fvDy y)
    LosesPart (2 ^ (-11 : Int) + 2 ^ (-11 : Int) + 2 ^ (-11 : Int) * 2 ^ (-11 : Int)) (dyVal d) (dyVal w)
      ∧ (w.m = 0 ↔ d.m = 0) ∧ (w.m < 0 ↔ d.m < 0) := by
  intro w d
  obtain ⟨hx', hsx, hzx, hlx⟩ := trunc12_losesPart hx
  obtain ⟨hy', hsy, hzy, hly⟩ := trunc12_losesPart hy
  have hzero : w.m = 0 ↔ d.m = 0 := by
    change _ * _ = (0 : Int) ↔ _ * _ = (0 : Int)
    rw [mul_eq_zero, mul_eq_zero, hzx, hzy]
  refine ⟨?_, hzero, ?_⟩
  · rw [dyVal_dyMul, dyVal_dyMul]
    exact hlx.mul hly
  · by_cases h0 : d.m = 0
    · rw [hzero.mpr h0, h0]
    · obtain ⟨n, i, e, hx'⟩ := exists_fin hx'
      obtain ⟨k, j, f, hy'⟩ := exists_fin hy'
      obtain ⟨n', i', e', rfl⟩ := exists_fin hx
      obtain ⟨k', j', f', rfl⟩ := exists_fin hy
      have hw : w = fvDy (.fin (n != k) (i * j) (e + f)) := by rw [← dyMul_fvDy, ← hx', ← hy']
      have hd : d = fvDy (.fin (n' != k') (i' * j') (e' + f')) := dyMul_fvDy ..
      rw [hx'] at hsx
      rw [hy'] at hsy
      have hsign : (n != k) = (n' != k') := congrArg₂ bne hsx hsy
      have hw0 : w.m ≠ 0 := mt hzero.mp h0
      rw [hw, ne_eq, fvDy_fin_m_eq_zero] at hw0
      rw [hd, fvDy_fin_m_eq_zero] at h0
      rw [hw, hd]
      exact decide_eq_decide.mp ((fvDy_fin_sign hw0 _ _).trans (hsign.trans (fvDy_fin_sign h0 _ _).symm))

/-- The product of tier 0's FFMA is off by 2^-9 of its magnitude at most. -/
theorem truncProd_near {x y : FV} (hx : fvIsFin x = true) (hy : fvIsFin y = true) :
    fvIsFin (truncProd x y) = true
    ∧ |dyVal (fvDy (truncProd x y)) - dyVal (dyMul (fvDy x) (fvDy y))| ≤ 2 ^ (-9 : Int) * |dyVal (fvDy (truncProd x y))| := by
  obtain ⟨hloss, hzero, hneg⟩ := truncMul_losesPart hx hy
  refine ⟨rfl, ?_⟩
  have hprod : truncProd x y = .fin (fvSign x != fvSign y)
      (truncBits 16 (dyMul (fvDy (trunc12 x)) (fvDy (trunc12 y))).m.natAbs (dyMul (fvDy (trunc12 x)) (fvDy (trunc12 y))).e).1
      (truncBits 16 (dyMul (fvDy (trunc12 x)) (fvDy (trunc12 y))).m.natAbs (dyMul (fvDy (trunc12 x)) (fvDy (trunc12 y))).e).2 := rfl
  obtain ⟨n, i, e, hx'⟩ := exists_fin (trunc12_losesPart hx).1
  obtain ⟨k, j, f, hy'⟩ := exists_fin (trunc12_losesPart hy).1
  have hsign : (fvSign x != fvSign y) = (n != k) := by
    rw [← (trunc12_losesPart hx).2.1, ← (trunc12_losesPart hy).2.1, hx', hy']
    rfl
  rw [hx', hy', dyMul_fvDy] at hloss
  have hexp : (fvDy (.fin (n != k) (i * j) (e + f))).e = e + f := rfl
  rw [hprod, hx', hy', hsign, dyMul_fvDy, fvDy_fin_natAbs, hexp]
  refine ((hloss.trans ((truncBits_losesPart 15 (i * j) (e + f)).signed (n != k))).mono ?_).near
  norm_num

/-! ## The result of a tier -/

/-- A value that the rules bound: its flags, on tier 2 its rounding, and how near it is to the exact result, or on tier 0's FFMA to the sum with
the truncated product. -/
structure TierValue (k : FKind) (ty : Ty) (t : Nat) (rnd : Rnd) (x y c : FV) (r : Rounded) : Prop where
  ovf : r.ovf = false
  of : r.fl &&& 0x04 = 0
  flags : FlagsFit (tyFmt ty) (exactReal k x y c) r.v r.fl
  round : t = 2 → RoundedOnce (tyFmt ty) rnd (exactReal k x y c) r.v
  near : k ≠ .fma ∨ t ≠ 0 → t ≠ 0 ∨ 2 ^ (tyFmt ty).emin ≤ |dyVal (fvDy r.v)| →
    |dyVal (fvDy r.v) - dyVal (exactReal k x y c)| ≤ dyVal (epsTable ty t rnd) * |dyVal (fvDy r.v)|
      + dyVal (floorAt ty (fvDy r.v) (exactReal k x y c))
  nearSum : k = .fma → t = 0 → |dyVal (fvDy r.v) - (dyVal (fvDy (truncProd x y)) + dyVal (fvDy c))|
    ≤ 2 ^ (-15 : Int) * |dyVal (fvDy r.v)| + dyVal (floorTable ty)

/-- What the rounding or the truncation of a finite element's tier delivers: the value that the rules bound, or an overflow. -/
inductive TierResult (k : FKind) (ty : Ty) (t : Nat) (rnd : Rnd) (x y c : FV) (r : Rounded) : Prop
  | value (h : TierValue k ty t rnd x y c r)
  | over (neg : Bool) (ho : r.ovf = true) (hfl : r.fl = 0x14) (hv : (t = 2 ∧ r.v = .inf neg) ∨ r.v = Claims.topOf (tyFmt ty) neg)
      (hneg : k ≠ .fma ∨ t ≠ 0 → neg = decide ((exactReal k x y c).m < 0))

theorem roundDy_tierResult (k : FKind) (ty : Ty) (rnd : Rnd) (zn : Bool) (x y c : FV) :
    TierResult k ty 2 rnd x y c (roundDy (tyFmt ty) rnd zn (exactReal k x y c)) := by
  generalize hd : exactReal k x y c = d
  have hof : fvDy (.fin (if d.m = 0 then zn else decide (d.m < 0)) d.m.natAbs d.e) = d := fvDy_fvOfDy zn d
  have hrange := roundI_roundsInto (tyFmt ty) rnd (if d.m = 0 then zn else decide (d.m < 0)) d.m.natAbs d.e
  rw [roundDy]
  rcases hrange with ⟨hm, hr⟩ | ⟨hm, ho, hfl4, hfl, hv⟩ | ⟨hm, ho, hfl, hv⟩
  · rw [Int.natAbs_eq_zero] at hm
    have hval : dyVal d = 0 := (dyVal_eq_zero_iff d).mpr hm
    have hzero : dyVal (fvDy (.fin (if d.m = 0 then zn else decide (d.m < 0)) 0 0)) = 0 :=
      (dyVal_eq_zero_iff _).mpr (fvDy_fin_m_eq_zero.mpr rfl)
    rw [hr]
    refine .value ⟨rfl, show (0 : Byte) &&& 0x04 = 0 by decide, ⟨rfl, ?_, ?_⟩, fun _ h => ?_, fun _ _ => ?_, fun _ h => nomatch h⟩
    · simp [← Bool.not_eq_true, dyEq_iff, hd, hval, hzero]
    · simp [hd, hm]
    · exact absurd hm (hd ▸ h)
    · rw [hd, hzero, hval, sub_zero, abs_zero, mul_zero, zero_add]
      exact floorAt_nonneg ..
  · rw [hof] at hfl hv
    have hm' : d.m ≠ 0 := mt Int.natAbs_eq_zero.mpr hm
    rw [← hd] at hfl hv hm' ho hfl4 ⊢
    exact .value ⟨ho, hfl4, hfl, fun _ => hv, fun _ _ => roundedOnce_near hm' hv, fun _ h => nomatch h⟩
  · have hm' : d.m ≠ 0 := mt Int.natAbs_eq_zero.mpr hm
    refine .over _ ho hfl (hv.imp_left fun h => ⟨rfl, h⟩) (fun _ => ?_)
    rw [if_neg hm', hd]

theorem wide_of_low {ty : Ty} (h : ty ≠ .bf16x2) : 16 ≤ (tyFmt ty).p := by
  cases ty with
  | bf16x2 => exact absurd rfl h
  | _ => decide

/-- Truncation of the exact result, on tier 1. -/
theorem truncTo_tierResult_one {ty : Ty} (hty : ty ≠ .bf16x2) (k : FKind) (rnd : Rnd) (zn : Bool) (x y c : FV) :
    TierResult k ty 1 rnd x y c (truncTo (tyFmt ty) zn (exactReal k x y c) (exactReal k x y c)) := by
  generalize hd : exactReal k x y c = d
  rcases truncTo_truncsTo (wide_of_low hty) zn d d with ⟨ho, hof, hfl, hv⟩ | ⟨ho, hof, hv⟩
  · refine .value ⟨ho, hof, hd ▸ hfl, fun h => (nomatch h), fun _ _ => ?_, fun _ h => nomatch h⟩
    rw [(epsTable_low hty rnd).2, dyVal_dyPow, hd]
    rcases hv with hpart | ⟨hm, hgrid⟩
    · exact hpart.near.trans (le_add_of_nonneg_right (floorAt_nonneg ..))
    · exact (hgrid.near_floorAt hm).trans (le_add_of_nonneg_left (by positivity))
  · exact .over _ ho hof (.inr hv) (fun _ => by rw [hd])

/-- Truncation of the product of truncated operands, on tier 0. -/
theorem truncTo_tierResult_mul {ty : Ty} (hty : ty ≠ .bf16x2) (rnd : Rnd) (zn : Bool) {x y : FV} (hx : fvIsFin x = true) (hy : fvIsFin y = true)
    (c : FV) : TierResult .mul ty 0 rnd x y c (truncTo (tyFmt ty) zn (dyMul (fvDy (trunc12 x)) (fvDy (trunc12 y))) (dyMul (fvDy x) (fvDy y))) := by
  obtain ⟨hloss, -, hneg⟩ := truncMul_losesPart hx hy
  rcases truncTo_truncsTo (wide_of_low hty) zn (dyMul (fvDy (trunc12 x)) (fvDy (trunc12 y))) (dyMul (fvDy x) (fvDy y))
    with ⟨ho, hof, hfl, hv⟩ | ⟨ho, hof, hv⟩
  · refine .value ⟨ho, hof, hfl, fun h => (nomatch h), fun _ hbig => ?_, fun h => nomatch h⟩
    have hnormal := hbig.resolve_left (by decide)
    rw [(epsTable_low hty rnd).1, dyVal_dyPow]
    rcases hv with hpart | ⟨-, -, hsmall⟩
    · refine ((hloss.trans hpart).mono ?_).near.trans (le_add_of_nonneg_right (floorAt_nonneg ..))
      norm_num
    · exact absurd hnormal (not_le.mpr hsmall)
  · exact .over _ ho hof (.inr hv) (fun _ => decide_eq_decide.mpr hneg ▸ rfl)

/-- Truncation of the sum with the truncated product, on tier 0. -/
theorem truncTo_tierResult_fma {ty : Ty} (hty : ty ≠ .bf16x2) (rnd : Rnd) (zn : Bool) (x y c : FV) :
    TierResult .fma ty 0 rnd x y c (truncTo (tyFmt ty) zn (dyAdd (fvDy (truncProd x y)) (fvDy c)) (exactReal .fma x y c)) := by
  have hnot {α : Prop} : FKind.fma ≠ .fma ∨ (0 : Nat) ≠ 0 → α := fun h => h.elim (fun h => absurd rfl h) (fun h => absurd rfl h)
  rcases truncTo_truncsTo (wide_of_low hty) zn (dyAdd (fvDy (truncProd x y)) (fvDy c)) (exactReal .fma x y c)
    with ⟨ho, hof, hfl, hv⟩ | ⟨ho, hof, hv⟩
  · refine .value ⟨ho, hof, hfl, fun h => (nomatch h), hnot, fun _ _ => ?_⟩
    rw [← dyVal_dyAdd]
    rcases hv with hpart | ⟨-, hgrid, -⟩
    · exact hpart.near.trans (le_add_of_nonneg_right (floorTable_nonneg ty))
    · exact (hgrid.le.trans (gridExp_le_floorTable ty)).trans (le_add_of_nonneg_left (by positivity))
  · exact .over _ ho hof (.inr hv) hnot

/-- The tiers an element may run on. -/
def TierFits (k : FKind) (ty : Ty) (t : Nat) : Prop := lowTier k ≤ t ∧ t ≤ 2 ∧ (ty = .bf16x2 → t = 2)

theorem finite_ops {k : FKind} {x y c : FV} (h : (opsOf k x y c).all fvIsFin = true) :
    fvIsFin x = true ∧ fvIsFin y = true ∧ (k = .fma → fvIsFin c = true) := by
  cases k
  · simp [opsOf] at h
    exact ⟨h.1, h.2, fun h => nomatch h⟩
  · simp [opsOf] at h
    exact ⟨h.1, h.2, fun h => nomatch h⟩
  · simp [opsOf] at h
    exact ⟨h.1, h.2.1, fun _ => h.2.2⟩

theorem roundedOn_tierResult {k : FKind} {ty : Ty} {t : Nat} (ht : TierFits k ty t) (rnd : Rnd) {x y c : FV}
    (hfin : (opsOf k x y c).all fvIsFin = true) (zn : Bool) :
    TierResult k ty t rnd x y c (roundedOn k (tyFmt ty) t rnd x y c zn (exactReal k x y c)) := by
  obtain ⟨hlow, hle, hbf⟩ := ht
  obtain ⟨hx, hy, hc⟩ := finite_ops hfin
  obtain rfl | rfl | rfl : t = 2 ∨ t = 1 ∨ t = 0 := by omega
  · exact roundDy_tierResult k ty rnd zn x y c
  · exact truncTo_tierResult_one (fun h => nomatch hbf h) k rnd zn x y c
  · have hty : ty ≠ .bf16x2 := fun h => nomatch hbf h
    cases k with
    | add => exact absurd hlow (by decide)
    | mul => exact truncTo_tierResult_mul hty rnd zn hx hy c
    | fma =>
      obtain ⟨zn', hsum⟩ := exactAdd_fin .rtz (truncProd_near hx hy).1 (hc rfl)
      have hround : roundedOn .fma (tyFmt ty) 0 rnd x y c zn (exactReal .fma x y c)
          = truncTo (tyFmt ty) zn' (dyAdd (fvDy (truncProd x y)) (fvDy c)) (exactReal .fma x y c) := by
        change (match exactAdd .rtz (truncProd x y) c with
          | .num zn' d' => truncTo (tyFmt ty) zn' d' (exactReal .fma x y c)
          | .sp _ _ => truncTo (tyFmt ty) zn (exactReal .fma x y c) (exactReal .fma x y c)) = _
        rw [hsum]
      rw [hround]
      exact truncTo_tierResult_fma hty rnd zn' x y c

end Sys2Proof.Laws



/-! SUPPORT. What the rules fix of a governed element (R70-R78), and FADD, FSUB, FMUL and FFMA (R174). -/

namespace Sys2Proof.Laws

open Sys2Proof.Machine Sys2Proof.Claims

/-! ## Elements -/

theorem any_of_all_fin {l : List FV} (h : l.all fvIsFin = true) : l.any fvIsNan = false ∧ l.any fvIsInf = false := by
  rw [List.all_eq_true] at h
  simp only [List.any_eq_false, Bool.not_eq_true]
  exact ⟨fun v hv => fvIsNan_of_fin (h v hv), fun v hv => fvIsInf_of_fin (h v hv)⟩

theorem not_any_of_all_fin {l : List FV} (h : l.all fvIsFin = true) : ¬ l.any fvIsNan = true ∧ ¬ l.any fvIsInf = true := by
  obtain ⟨hnan, hinf⟩ := any_of_all_fin h
  rw [hnan, hinf]
  exact ⟨Bool.false_ne_true, Bool.false_ne_true⟩

theorem all_fin_of_any {l : List FV} (hn : l.any fvIsNan = false) (hi : l.any fvIsInf = false) : l.all fvIsFin = true := by
  rw [List.all_eq_true]
  rw [List.any_eq_false] at hn hi
  intro v hv
  cases v with
  | nan s => exact absurd rfl (hn _ hv)
  | inf n => exact absurd rfl (hi _ hv)
  | fin n m e => rfl

theorem betaIn_eq (k : FKind) (x y : FV) (bx by_ bc : Bd) : betaIn k x y bx by_ bc = betaTable k x y bx by_ bc := by cases k <;> rfl

theorem dyIsZero_iff (d : Dy) : dyIsZero d = true ↔ d.m = 0 := by rw [dyIsZero, beq_iff_eq]

theorem tierErr_of_ne {k : FKind} {t : Nat} (h : k ≠ .fma ∨ t ≠ 0) (ty : Ty) (rnd : Rnd) (x y : FV) (z : Dy) :
    tierErr k ty t rnd x y z = dyMul (epsTable ty t rnd) z := by
  have hne : (t = 0 && k == .fma) = false := by
    rw [Bool.and_eq_false_iff, decide_eq_false_iff_not, beq_eq_false_iff_ne]
    exact h.symm
  rw [tierErr, hne, if_neg Bool.false_ne_true, epsOf_eq]

theorem tierErr_fma {ty : Ty} (hty : ty ≠ .bf16x2) (rnd : Rnd) (x y : FV) (z : Dy) :
    tierErr .fma ty 0 rnd x y z = dyAdd (dyMul (dyPow (-9)) (dyAbs (fvDy (truncProd x y)))) (dyMul (dyPow (-15)) z) := by
  obtain ⟨h0, h1⟩ := epsTable_low hty rnd
  rw [← h0, ← h1, ← epsOf_eq, ← epsOf_eq]
  rfl

section Element

variable {k : FKind} {ty : Ty} {t : Nat} {rnd : Rnd} {x y c : FV} {r : Rounded}

/-- The value of a tier, with the bound of R78 and R80, is what the rules fix. -/
theorem governedElem_value (ht : TierFits k ty t) (hfin : (opsOf k x y c).all fvIsFin = true) (hr : TierValue k ty t rnd x y c r)
    (sat : Bool) (bx by_ bc : Bd) :
    GovernedElem k ty rnd sat t x y c bx by_ bc r.v r.fl (bdSum [betaTable k x y bx by_ bc,
      some (tierErr k ty t rnd x y (dyAbs (fvDy r.v))), some (floorS ty r.v (dyIsZero (exactReal k x y c)))]) := by
  obtain ⟨hx, hy, -⟩ := finite_ops hfin
  obtain ⟨hnan, hinf⟩ := not_any_of_all_fin hfin
  refine ⟨fun h => absurd h hnan, fun _ h => absurd h hinf, fun _ _ => ⟨hr.flags, hr.round, ?_, ?_, ?_⟩,
    fun _ h => absurd hr.of h⟩
  · intro hk ht
    rw [dyLe_iff, dyVal_dyAbs, dyVal_dySub, dyVal_dyAdd, dyVal_dyMul, dyVal_dyAbs]
    refine hr.near hk (ht.imp_right fun h => ?_)
    rwa [dyLe_iff, dyVal_dyPow, dyVal_dyAbs] at h
  · intro hk
    rw [tierErr_of_ne hk, floorS_eq hr.flags.1 (dyIsZero_iff _)]
    exact bdLe_refl _
  · rintro rfl rfl
    have hty : ty ≠ .bf16x2 := fun h => nomatch ht.2.2 h
    refine ⟨fvDy (truncProd x y), ?_, ?_, ?_⟩
    · rw [dyLe_iff, dyVal_dyAbs, dyVal_dySub, dyVal_dyMul (dyPow _), dyVal_dyPow, dyVal_dyAbs]
      exact (truncProd_near hx hy).2
    · rw [dyLe_iff, dyVal_dyAbs, dyVal_dySub, dyVal_dyAdd, dyVal_dyAdd, dyVal_dyMul, dyVal_dyPow, dyVal_dyAbs]
      exact hr.nearSum rfl rfl
    · rw [tierErr_fma hty, floorS_eq hr.flags.1 (dyIsZero_iff _)]
      exact bdLe_refl _

/-- An overflow, delivered without a bound. -/
theorem governedElem_overflow (hfin : (opsOf k x y c).all fvIsFin = true) {neg : Bool} {v : FV}
    (hv : (t = 2 ∧ v = .inf neg) ∨ v = Claims.topOf (tyFmt ty) neg) (hneg : k ≠ .fma ∨ t ≠ 0 → neg = decide ((exactReal k x y c).m < 0))
    {sat : Bool} (hsat : sat = true → fvIsFin v = true) (bx by_ bc : Bd) : GovernedElem k ty rnd sat t x y c bx by_ bc v 0x14 none := by
  obtain ⟨hnan, hinf⟩ := not_any_of_all_fin hfin
  refine ⟨fun h => absurd h hnan, fun _ h => absurd h hinf, fun _ h => absurd h (show ¬ _ = (0 : Byte) by decide), fun _ _ =>
    ⟨by decide, fun _ => rfl, hsat, fun hle => ⟨rfl, neg, ?_, ?_⟩, fun h => absurd rfl (h : _ ≠ _)⟩⟩
  · exact hv.resolve_left fun h => absurd h.1 (by omega)
  · exact fun h => hneg (h.imp_right (by omega))

/-- An infinity that SAT clamps. -/
theorem governedElem_clamped (hfin : (opsOf k x y c).all fvIsFin = true) {neg : Bool} (hneg : neg = decide ((exactReal k x y c).m < 0))
    (bx by_ bc : Bd) : GovernedElem k ty rnd true 2 x y c bx by_ bc (Claims.topOf (tyFmt ty) neg) (0x14 ||| 0x80)
      (bdAdd (betaTable k x y bx by_ bc) (some (dyAbs (dySub (fvDy (Claims.topOf (tyFmt ty) neg)) (exactReal k x y c))))) := by
  obtain ⟨hnan, hinf⟩ := not_any_of_all_fin hfin
  refine ⟨fun h => absurd h hnan, fun _ h => absurd h hinf, fun _ h => absurd h (show ¬ _ = (0 : Byte) by decide), fun _ _ =>
    ⟨by decide, fun h => (nomatch h), fun _ => rfl, fun h => absurd h (by decide), fun _ => ⟨by rw [hneg], bdLe_refl _⟩⟩⟩

theorem governedElem_delivered (ht : TierFits k ty t) (hfin : (opsOf k x y c).all fvIsFin = true) (hr : TierResult k ty t rnd x y c r)
    (sat : Bool) (bx by_ bc : Bd) :
    let out := delivered ty sat r (exactReal k x y c) (betaTable k x y bx by_ bc) (tierErr k ty t rnd x y (dyAbs (fvDy r.v)))
    GovernedElem k ty rnd sat t x y c bx by_ bc out.1 out.2.1 out.2.2 := by
  unfold delivered
  rcases hr with hval | ⟨neg, ho, hfl, hv, hneg⟩
  · simp only [fvIsInf_of_fin hval.flags.1, hval.flags.1, hval.ovf, Bool.and_false, Bool.false_eq_true, if_false, Bool.not_true, Bool.or_self]
    exact governedElem_value ht hfin hval sat bx by_ bc
  · by_cases hclamp : (sat && fvIsInf r.v) = true
    · rw [Bool.and_eq_true] at hclamp
      obtain ⟨rfl, hinf⟩ := hclamp
      rcases hv with ⟨rfl, hv⟩ | hv
      · rw [hv, hfl]
        exact governedElem_clamped hfin (hneg (.inr (by decide))) bx by_ bc
      · rw [hv] at hinf
        exact nomatch hinf
    · simp only [hclamp, ho, Bool.true_or, if_true, hfl]
      refine governedElem_overflow hfin hv hneg (fun hs => ?_) bx by_ bc
      rcases hv with ⟨-, hv⟩ | hv
      · rw [hs, hv] at hclamp
        exact absurd rfl hclamp
      · rw [hv]
        rfl

theorem governedElem_arithElem (ht : TierFits k ty t) (rnd : Rnd) (sat : Bool) (x y c : FV) (bx by_ bc : Bd) :
    let out := arithElem k ty t rnd sat x y c bx by_ bc
    GovernedElem k ty rnd sat t x y c bx by_ bc out.1 out.2.1 out.2.2 := by
  rw [arithElem_eq]
  cases hnan : (opsOf k x y c).any fvIsNan
  · cases hinf : (opsOf k x y c).any fvIsInf
    · have hfin := all_fin_of_any hnan hinf
      obtain ⟨zn, hexact⟩ := exactOn_fin k t rnd hfin
      rw [hexact, betaIn_eq]
      exact governedElem_delivered ht hfin (roundedOn_tierResult ht rnd hfin zn) sat bx by_ bc
    · have hnot (h : (opsOf k x y c).all fvIsFin = true) : False := nomatch hinf.symm.trans (any_of_all_fin h).2
      obtain ⟨v, nv, hexact, hv⟩ := exactOn_inf k t rnd hnan hinf
      rw [hexact]
      refine ⟨fun h => absurd (hnan.symm.trans h) Bool.false_ne_true, fun _ _ => ⟨rfl, ?_⟩, fun h => (hnot h).elim, fun h => (hnot h).elim⟩
      rcases hv with ⟨hv, rfl⟩ | ⟨hv, rfl⟩
      · exact .inl ⟨hv, rfl⟩
      · exact .inr ⟨hv, rfl⟩
  · have hnot (h : (opsOf k x y c).all fvIsFin = true) : False := nomatch hnan.symm.trans (any_of_all_fin h).1
    rw [exactOn_nan k t rnd hnan]
    refine ⟨fun _ => ⟨rfl, rfl, ?_⟩, fun h => absurd (h.symm.trans hnan) Bool.false_ne_true, fun h => (hnot h).elim, fun h => (hnot h).elim⟩
    change flIf ((opsOf k x y c).any fvIsSig) flNV = if (opsOf k x y c).any fvIsSig = true then 1 else 0
    cases (opsOf k x y c).any fvIsSig <;> rfl

end Element

/-! ## Instructions -/

theorem elemBits_zero (ty : Ty) (v : FV) : elemBits ty 0 v = BitVec.ofNat 64 (encI (tyFmt ty) v) := congrArg _ (Nat.mul_one _)

theorem governed_one {ty : Ty} (h : ty ≠ .bf16x2) (k : FKind) (tier : TierF) (rnd : Rnd) (sat : Bool) (bud : Word) (m : Mods) (negB : Bool)
    (a b c : DWord) (ba bb bc : BitVec 16) :
    let x := fvMod m.na m.aa (elemOf ty a 0)
    let y := fvMod (m.nb != negB) m.ab (elemOf ty b 0)
    let t := tierSelect (forcedTier k tier) bud (tiersOf k) (fun u => epsOf ty u rnd)
      (bdOf (upBd (betaIn k x y (bdOf ba) (bdOf bb) (bdOf bc)))) (magEst ty k x y (elemOf ty c 0))
    let r := arithElem k ty t rnd sat x y (elemOf ty c 0) (bdOf ba) (bdOf bb) (bdOf bc)
    governed k ty tier rnd sat bud m negB a b c ba bb bc = ⟨elemBits ty 0 r.1, r.2.1, upBd r.2.2⟩ := by
  unfold governed
  rw [elemCount_of_ne h, beq_false_of_ne h]
  exact mergeElems_one _

theorem governed_two (k : FKind) (tier : TierF) (rnd : Rnd) (sat : Bool) (bud : Word) (m : Mods) (negB : Bool)
    (a b c : DWord) (ba bb bc : BitVec 16) :
    let r (i : Nat) := arithElem k .bf16x2 2 rnd sat (fvMod m.na m.aa (elemOf .bf16x2 a i)) (fvMod (m.nb != negB) m.ab (elemOf .bf16x2 b i))
      (elemOf .bf16x2 c i) (bdOf ba) (bdOf bb) (bdOf bc)
    governed k .bf16x2 tier rnd sat bud m negB a b c ba bb bc
      = ⟨elemBits .bf16x2 0 (r 0).1 ||| elemBits .bf16x2 1 (r 1).1, (r 0).2.1 ||| (r 1).2.1, bndMax (upBd (r 0).2.2) (upBd (r 1).2.2)⟩ :=
  mergeElems_two _ _

theorem governedRules : GovernedRules := by
  intro k ty tier rnd sat bud m negB a b c ba bb bc x y w el out
  refine ⟨fun hty => ?_, ?_⟩
  · obtain ⟨hlow, hle⟩ := tierSelect_range k tier bud (fun u => epsOf ty u rnd)
      (bdOf (upBd (betaIn k (x 0) (y 0) (bdOf ba) (bdOf bb) (bdOf bc)))) (magEst ty k (x 0) (y 0) (w 0))
    refine ⟨_, _, _, _, ?_, governedElem_arithElem ⟨hlow, hle, fun h => absurd h hty⟩ rnd sat (x 0) (y 0) (w 0) (bdOf ba) (bdOf bb) (bdOf bc), ?_⟩
    · simp only [epsOf_eq, betaIn_eq, magEst_eq]
      exact tierSelect_tierIs ..
    · rw [← elemBits_zero]
      exact governed_one hty k tier rnd sat bud m negB a b c ba bb bc
  · rintro rfl
    have hfits : TierFits k .bf16x2 2 := ⟨by cases k <;> decide, le_rfl, fun _ => rfl⟩
    refine ⟨_, _, _, _, _, _, governedElem_arithElem hfits rnd sat (x 0) (y 0) (w 0) (bdOf ba) (bdOf bb) (bdOf bc),
      governedElem_arithElem hfits rnd sat (x 1) (y 1) (w 1) (bdOf ba) (bdOf bb) (bdOf bc), ?_⟩
    refine (governed_two k tier rnd sat bud m negB a b c ba bb bc).trans ?_
    rw [elemBits_zero]
    rfl

/-- Settles O5: the tier is the one R72 and R76 choose, each operation of a tier (truncated operands, a truncated sum, one rounding) is near the
exact result by what the bound of R78 adds, and an overflow or a special operand leaves no bound. -/
theorem governedArithmeticCompletes : Obligations.GovernedArithmeticCompletes := by
  unfold Obligations.GovernedArithmeticCompletes
  refine ⟨fun x => laneSteps_of_deliver (fun _ => rfl), fun x => laneSteps_of_deliver (fun _ => rfl),
    fun x => laneSteps_of_deliver (fun _ => rfl), fun x => laneSteps_of_deliver (fun _ => rfl), governedRules⟩

end Sys2Proof.Laws



/-! SUPPORT. The matrix unit's instructions as their lanes' steps (R241-R250). -/

namespace Sys2Proof.Laws

open Sys2Proof.Machine Sys2Proof.Claims Sys2Proof.Safety

/-! ## MMA and MMAO (R241, R242) -/

/-- The breach check of R77 passes: no trap, and its flags are those of the claim. -/
theorem breaches_of_breachFlags {t : Thread} {b : BitVec 16} {fl f : Byte} (h : breachFlags t b fl = some f) :
    (breaches t.bud b && budMode t.bud == 1) = false ∧ fl ||| flIf (breaches t.bud b) flBD = f := by
  have hbr : breaches t.bud b = !(t.bud.toNat % 4 = 0 || bdLe (bdOf b) (bdOf ((t.bud >>> 16).setWidth 16)) : Bool) := by
    rw [Bool.eq_iff_iff]
    simp [breaches, budMode, budB]
  rw [breachFlags] at h
  cases hok : (t.bud.toNat % 4 = 0 || bdLe (bdOf b) (bdOf ((t.bud >>> 16).setWidth 16)) : Bool)
  · rw [hok, if_neg Bool.false_ne_true] at h
    by_cases hm : t.bud.toNat % 4 = 1
    · rw [if_pos hm] at h
      exact nomatch h
    · rw [if_neg hm, Option.some.injEq] at h
      rw [hbr, hok]
      exact ⟨beq_false_of_ne hm, h⟩
  · rw [hok, if_pos rfl, Option.some.injEq] at h
    rw [hbr, hok]
    exact ⟨rfl, (BitVec.or_zero).trans h⟩

theorem mmaLane_of_mmaStep {x : MmaOps} {w : Word} {dropped : Bool} {blocks : List MBlock} {k : Nat} {t : Thread} {s u : State}
    (h : mmaStep x w dropped blocks k t s = some u) : mmaLane x w dropped blocks k t s = (u, none) := by
  obtain ⟨fl, hfl, rfl⟩ := Option.map_eq_some_iff.mp h
  obtain ⟨htrap, hflags⟩ := breaches_of_breachFlags hfl
  subst hflags
  exact if_neg (ne_true_of_eq_false htrap)

theorem multiplies {ol : Bool} {i : Instr} {x : MmaOps} (hi : ∀ s, exec i s = .next (mmaOp ol x s)) : Multiplies ol i x := by
  intro s gid g hat
  refine ⟨fun hnil => ?_, fun w blocks u hne hagree hgo hrun => ?_⟩
  · rw [hi, mmaOp, groupOp_at x.g _ hat, hnil]
    rfl
  · rw [hi, mmaOp, groupOp_at x.g _ hat]
    simp only [List.isEmpty_iff, hne, if_false, formatVote_of_agree hne (fun _ => get_of_mem_activeOf) hagree, hgo]
    rw [foldLanes_of_runLanes (fun k t s u => mmaLane_of_mmaStep) _ hrun, splitGroup_nil hat.2]

/-! ## Rows -/

theorem laneSteps_of_lane {i : Instr} {gd : Guard} {F : Nat → LaneFn} {f : Nat → Nat → Thread → State → Option State}
    (hi : ∀ s, exec i s = .next (laneOp gd F s)) (hf : ∀ n k t s u, f n k t s = some u → F n k t s = (u, none)) : LaneSteps i gd f :=
  fun s _ _ _ h hr => (hi s).trans (congrArg Host.Outcome.next (laneOp_steps hf h hr))

theorem getRow_congr {s u : State} (h : u.warps = s.warps) (t : Thread) (w : BitVec 3) : getRow u t w = getRow s t w := by
  rw [getRow, getRow, warpOf, warpOf, h]

/-- Lanes that read a row and write a register: no lane changes what a later one reads. -/
theorem foldLanes_ofRow (w : BitVec 3) (f : TRow → Thread → Thread) (s0 : State) (ks : List Nat) {s : State} (h : s.warps = s0.warps) :
    foldLanes (fun k t s => (modThread s k (f (getRow s t w)), none)) ks s = (onThreads (fun t => f (getRow s0 t w) t) ks s, []) := by
  induction ks generalizing s with
  | nil => rfl
  | cons k r ih =>
    unfold foldLanes onThreads
    rw [List.foldl_cons]
    cases ht : getThread s k with
    | none =>
      rw [modThread_of_none _ ht]
      exact ih h
    | some t =>
      have hone : modThread s k (f (getRow s t w)) = modThread s k (fun t => f (getRow s0 t w) t) := by
        rw [modThread_of_get _ ht, modThread_of_get _ ht, getRow_congr h]
      simp only [hone]
      exact ih h

theorem wbnd_each (x : WbndOps) : EachLane (.wbnd x) x.g (fun s t => setReg t x.d.toNat
    ⟨if x.f then bndF32 (getRow s t x.w).beta else (getRow s t x.w).beta.setWidth 32, 0⟩) := by
  intro s gid g h
  have hlanes := foldLanes_ofRow x.w (fun r t => tSet t x.d (if x.f then bndF32 r.beta else r.beta.setWidth 32)) s (activeOf s g x.g) (s := s) rfl
  change Host.Outcome.next (laneOp x.g (fun _ k t s =>
    (modThread s k (fun u => tSet u x.d (if x.f then bndF32 (getRow s t x.w).beta else (getRow s t x.w).beta.setWidth 32)), none)) s) = _
  rw [laneOp_at x.g _ h, hlanes, splitFaults_nil]
  rfl

/-! ## WLD, WST and WDRN (R247-R249) -/

theorem readLoc_bytes_length (s : State) (l : Loc) (n : Nat) : (readLoc s l n).1.bytes.length = n := by
  unfold readLoc peekLoc
  dsimp only
  split
  · exact memBytes_length ..
  · split <;> simp [scrBytes]

theorem wordsOfBytes_eq (n : Nat) {l : List Byte} (h : l.length = 4 * n) :
    wordsOfBytes l = (List.range n).map (fun i => BitVec.ofNat 32 (leNat ((l.drop (4 * i)).take 4))) := by
  induction n generalizing l with
  | zero =>
    rw [List.length_eq_zero_iff.mp h]
    rfl
  | succ n ih =>
    match l, h with
    | a :: b :: c :: d :: r, h =>
      have hr : r.length = 4 * n := by simp at h; omega
      rw [wordsOfBytes, ih hr, List.range_succ_eq_map, List.map_cons, List.map_map]
      rfl

theorem resolve_of_lands {s : State} {t : Thread} {sp : Space} {a : VReg} {ofs : BitVec 18} {n : Nat} {k : AKind} {p : Acc × State}
    (h : lands s t sp a ofs n k = some p) : resolve s t sp (operandAddr t sp a ofs) n n k = (.ok p.1, p.2) := by
  unfold lands at h
  split at h
  · next heq => rw [heq, ← Option.some.inj h]
  · exact nomatch h

theorem wldLane_of_wldStep {x : TileMemOps} {k : Nat} {t : Thread} {s u : State} (h : wldStep x k t s = some u) : wldLane x k t s = (u, none) := by
  obtain ⟨p, hp, rfl⟩ := Option.map_eq_some_iff.mp h
  unfold wldLane
  simp only [resolve_of_lands hp]
  have hlen : (accRead (cacheLane p.2 t x.evc.toNat (!x.rp) p.1 false) p.1 128).1.bytes.length = 4 * 32 := readLoc_bytes_length ..
  rw [wordsOfBytes_eq 32 hlen]
  rfl

theorem cacheLane_accessOnly (s : State) (t : Thread) (evc : Nat) (plain : Bool) (a : Acc) (w : Bool) :
    AccessOnly s (cacheLane s t evc plain a w) := by
  unfold cacheLane
  cases a.stash with
  | none => exact cacheAcc_accessOnly ..
  | some r =>
    have hfill : AccessOnly s (if (stashLine s (some r)).isSome then s else cacheAcc s (some (coreOf s t)) 7 plain a.loc false) := by
      split
      · exact AccessOnly.refl s
      · exact cacheAcc_accessOnly ..
    dsimp only
    cases w
    · exact hfill
    · exact hfill.trans ((answered_accessOnly ..).trans rfl)

theorem locLock_cacheLane (s : State) (t : Thread) (evc : Nat) (plain : Bool) (a : Acc) (w : Bool) (l : Loc) :
    locLock (cacheLane s t evc plain a w) l = locLock s l := by
  cases l with
  | phys pa k bt => rw [locLock, locLock, holdOf, holdOf, (cacheLane_accessOnly s t evc plain a w).parts]
  | scr g o => rfl

theorem accStore_of_unlocked {s : State} {a : Acc} (h : (locLock s a.loc).isSome = false) (gid k : Nat) (via : Option Via) (l : List Byte)
    (bs : List (BitVec 16)) (narrow : Bool) (fl : Byte) : accStore s gid k a via l bs narrow fl = storeAt k a l bs narrow fl s := by
  unfold accStore
  cases hl : locLock s a.loc with
  | some p => rw [hl] at h; exact nomatch h
  | none => rfl

theorem wstLane_of_wstStep {x : TileMemOps} {gid k : Nat} {t : Thread} {s u : State} (h : wstStep x k t s = some u) :
    wstLane x gid k t s = (u, none) := by
  obtain ⟨p, hp, h⟩ := Option.bind_eq_some_iff.mp h
  unfold wstLane
  simp only [resolve_of_lands hp]
  cases hd : drain true x.fmt t (getRow p.2 t x.w) with
  | error f => rw [hd] at h; exact nomatch h
  | ok r =>
    obtain ⟨ws, fl, b⟩ := r
    rw [hd] at h
    dsimp only at h ⊢
    split at h
    · exact nomatch h
    · next hlock =>
      rw [← Option.some.inj h, accStore_of_unlocked (by rwa [locLock_cacheLane, ← Bool.not_eq_true])]

/-- A list with its positions, read position by position. -/
theorem zip_range_map {α β : Type} (l : List α) (d : α) (f : Nat → α → β) :
    ((List.range l.length).zip l).map (fun y => f y.1 y.2) = (List.range l.length).map (fun i => f i (l.getD i d)) := by
  refine List.ext_getElem (by simp) (fun i h1 h2 => ?_)
  have hi : i < l.length := by simpa using h2
  simp [hi]

theorem wdrnLane_of_wdrnStep {x : WdrnOps} {k : Nat} {t : Thread} {s u : State} (h : wdrnStep x k t s = some u) : wdrnLane x k t s = (u, none) := by
  unfold wdrnStep at h
  unfold wdrnLane
  cases hd : drain false x.fmt t (getRow s t x.w) with
  | error f => rw [hd] at h; exact nomatch h
  | ok r =>
    obtain ⟨ws, fl, b⟩ := r
    rw [hd] at h
    rw [← Option.some.inj h]
    dsimp only
    rw [zip_range_map ws 0 (fun i w => (x.d.toNat + i, (⟨w, b⟩ : Reg)))]
    rfl

/-- Every instruction of the unit but what R88 fixes of a row. -/
theorem matrix_steps :
    (∀ x, Multiplies false (.mma x) x)
    ∧ (∀ x, Multiplies true (.mmao x) x)
    ∧ (∀ x, LaneSteps (.wzero x) x.g (fun _ _ t s => some (setRow s t x.wd ⟨List.replicate 32 0, 0⟩)))
    ∧ (∀ x, LaneSteps (.wmov x) x.g (fun _ _ t s =>
        let u := setRow s t x.wd (getRow s t x.ws)
        some (if x.dr then setRow u t x.ws ⟨List.replicate 32 0, 0⟩ else u)))
    ∧ (∀ x, LaneSteps (.wld x) x.g (fun _ => wldStep x))
    ∧ (∀ x, LaneSteps (.wst x) x.g (fun _ => wstStep x))
    ∧ (∀ x, LaneSteps (.wdrn x) x.g (fun _ => wdrnStep x)) := by
  refine ⟨fun x => multiplies (fun _ => rfl), fun x => multiplies (fun _ => rfl), fun x => ?_, fun x => ?_, fun x => ?_, fun x => ?_, fun x => ?_⟩
  · exact laneSteps_of_lane (fun _ => rfl) (fun _ _ _ _ _ h => congrArg (·, none) (Option.some.inj h))
  · exact laneSteps_of_lane (fun _ => rfl) (fun _ _ _ _ _ h => congrArg (·, none) (Option.some.inj h))
  · exact laneSteps_of_lane (F := fun _ => wldLane x) (fun _ => rfl) (fun _ _ _ _ _ => wldLane_of_wldStep)
  · exact laneSteps_of_lane (F := wstLane x) (fun _ => rfl) (fun _ _ _ _ _ => wstLane_of_wstStep)
  · exact laneSteps_of_lane (F := fun _ => wdrnLane x) (fun _ => rfl) (fun _ _ _ _ _ => wdrnLane_of_wdrnStep)

end Sys2Proof.Laws



/-! SUPPORT. The bound of a matrix row is not below what any of its elements brings (R88). -/

namespace Sys2Proof.Laws

open Sys2Proof.Machine Sys2Proof.Claims Sys2Proof.Safety

/-! ## Bounds that are not negative, and their order -/

/-- A bound is unbounded or a nonnegative real. -/
def BdNonneg (b : Bd) : Prop := bdLe bdZero b = true

theorem bdNonneg_some {d : Dy} : BdNonneg (some d) ↔ 0 ≤ dyVal d := by
  rw [BdNonneg, bdZero, bdLe_some_iff, dyVal_dyZero]

theorem bdNonneg_none : BdNonneg none := rfl

theorem bdNonneg_bdOf (c : BitVec 16) : BdNonneg (bdOf c) := bdLe_trans (b := bdOf 0) (by decide) (bdLe_bdOf_zero c)

theorem bdLe_some_right {a : Bd} {y : Dy} : bdLe a (some y) = true ↔ ∃ x, a = some x ∧ dyVal x ≤ dyVal y := by
  cases a with
  | none => simp [bdLe]
  | some x => simp [bdLe_some_iff]

theorem bdLe_bdAdd {a b c d : Bd} (h : bdLe a b = true) (h' : bdLe c d = true) : bdLe (bdAdd a c) (bdAdd b d) = true := by
  cases b with
  | none => exact bdLe_none _
  | some y =>
    cases d with
    | none => exact bdLe_none _
    | some w =>
      obtain ⟨x, rfl, hx⟩ := bdLe_some_right.mp h
      obtain ⟨z, rfl, hz⟩ := bdLe_some_right.mp h'
      refine (bdLe_some_iff _ _).mpr ?_
      rw [dyVal_dyAdd, dyVal_dyAdd]
      exact add_le_add hx hz

theorem bdLe_bdMul {a b c d : Bd} (h : bdLe a b = true) (h' : bdLe c d = true) (ha : BdNonneg a) (hc : BdNonneg c) :
    bdLe (bdMul a c) (bdMul b d) = true := by
  cases b with
  | none => exact bdLe_none _
  | some y =>
    cases d with
    | none => exact bdLe_none _
    | some w =>
      obtain ⟨x, rfl, hx⟩ := bdLe_some_right.mp h
      obtain ⟨z, rfl, hz⟩ := bdLe_some_right.mp h'
      refine (bdLe_some_iff _ _).mpr ?_
      rw [dyVal_dyMul, dyVal_dyMul]
      exact mul_le_mul hx hz (bdNonneg_some.mp hc) ((bdNonneg_some.mp ha).trans hx)

theorem bdLe_bdAdd_right {a b c : Bd} (h : bdLe a b = true) (hc : BdNonneg c) : bdLe a (bdAdd b c) = true := by
  cases b with
  | none => exact bdLe_none _
  | some y =>
    cases c with
    | none => exact bdLe_none _
    | some z =>
      obtain ⟨x, rfl, hx⟩ := bdLe_some_right.mp h
      refine (bdLe_some_iff _ _).mpr ?_
      rw [dyVal_dyAdd]
      exact hx.trans (le_add_of_nonneg_right (bdNonneg_some.mp hc))

theorem bdNonneg_bdMul {a b : Bd} (ha : BdNonneg a) (hb : BdNonneg b) : BdNonneg (bdMul a b) := by
  cases a with
  | none => exact bdNonneg_none
  | some x =>
    cases b with
    | none => exact bdNonneg_none
    | some y =>
      refine bdNonneg_some.mpr ?_
      rw [dyVal_dyMul]
      exact mul_nonneg (bdNonneg_some.mp ha) (bdNonneg_some.mp hb)

theorem bdNonneg_bdScale {a : Bd} (h : BdNonneg a) (k : Int) : BdNonneg (bdScale a k) := by
  cases a with
  | none => exact bdNonneg_none
  | some x =>
    refine bdNonneg_some.mpr ?_
    rw [dyVal_dyScale]
    exact mul_nonneg (bdNonneg_some.mp h) (two_zpow_pos k).le

theorem bdNonneg_fvMag (v : FV) : BdNonneg (fvMag v) := by
  cases v with
  | fin n m e => exact bdNonneg_some.mpr ((dyVal_nonneg_iff _).mpr (Int.natCast_nonneg m))
  | _ => exact bdNonneg_none

/-- A bound stays below what adds nonnegative terms. -/
theorem bdLe_foldl_bdAdd {a b : Bd} (h : bdLe a b = true) {l : List Bd} (hl : ∀ c ∈ l, BdNonneg c) : bdLe a (l.foldl bdAdd b) = true := by
  induction l generalizing b with
  | nil => exact h
  | cons c l ih => exact ih (bdLe_bdAdd_right h (hl c (List.mem_cons_self ..))) (fun d hd => hl d (List.mem_cons_of_mem _ hd))

theorem bdNonneg_bdSum {l : List Bd} (hl : ∀ c ∈ l, BdNonneg c) : BdNonneg (bdSum l) := bdLe_foldl_bdAdd (bdLe_refl _) hl

theorem bdLe_upBd {b : Bd} (h : BdNonneg b) : bdLe b (bdOf (upBd b)) = true := by
  cases b with
  | none => decide
  | some x => exact bdLe_upDy ((dyVal_nonneg_iff x).mp (bdNonneg_some.mp h))

/-! ## The largest magnitude and the largest bound of elements -/

/-- A fold that only grows is not below its start, nor below what any element brings. -/
theorem foldl_grows {α β : Type} {r : β → β → Prop} (hrefl : ∀ x, r x x) (htrans : ∀ {x y z}, r x y → r y z → r x z)
    {f : β → α → β} {g : α → β} (hf : ∀ b a, r b (f b a) ∧ r (g a) (f b a)) (l : List α) (b : β) : r b (l.foldl f b) ∧ ∀ a ∈ l, r (g a) (l.foldl f b) := by
  induction l generalizing b with
  | nil => exact ⟨hrefl b, fun a ha => nomatch ha⟩
  | cons c l ih =>
    obtain ⟨hstart, hall⟩ := ih (f b c)
    refine ⟨htrans (hf b c).1 hstart, fun a ha => ?_⟩
    rcases List.mem_cons.mp ha with rfl | ha
    · exact htrans (hf b a).2 hstart
    · exact hall a ha

theorem dyVal_dyMax (a b : Dy) : dyVal a ≤ dyVal (dyMax a b) ∧ dyVal b ≤ dyVal (dyMax a b) := by
  unfold dyMax
  split
  · next h => exact ⟨(dyLe_iff a b).mp h, le_rfl⟩
  · next h => exact ⟨le_rfl, (not_le.mp (mt (dyLe_iff a b).mpr h)).le⟩

theorem bdLe_bdMax (a b : Bd) : bdLe a (bdMax a b) = true ∧ bdLe b (bdMax a b) = true := by
  cases a with
  | none => exact ⟨rfl, bdLe_none _⟩
  | some x =>
    cases b with
    | none => exact ⟨rfl, rfl⟩
    | some y => exact ⟨(bdLe_some_iff _ _).mpr (dyVal_dyMax x y).1, (bdLe_some_iff _ _).mpr (dyVal_dyMax x y).2⟩

theorem maxMag_grows (l : List MEl) : 0 ≤ dyVal (maxMag l) ∧ ∀ e ∈ l, dyVal (magDy e) ≤ dyVal (maxMag l) := by
  have h := foldl_grows (r := fun a b => dyVal a ≤ dyVal b) (fun _ => le_rfl) (fun h k => h.trans k) (g := magDy)
    (fun m x => dyVal_dyMax m (magDy x)) l dyZero
  rwa [dyVal_dyZero] at h

theorem maxBeta_grows (l : List MEl) : BdNonneg (maxBeta l) ∧ ∀ e ∈ l, bdLe e.b (maxBeta l) = true :=
  foldl_grows (r := fun a b => bdLe a b = true) bdLe_refl bdLe_trans (g := MEl.b) (fun m x => bdLe_bdMax m x.b) l bdZero

theorem fvMag_le_maxMag {l : List MEl} {e : MEl} (he : e ∈ l) (hf : fvIsFin e.v = true) : bdLe (fvMag e.v) (some (maxMag l)) = true := by
  have h := (maxMag_grows l).2 e he
  obtain ⟨n, m, q, hv⟩ := exists_fin hf
  rw [magDy, hv, dyAbs_fvDy] at h
  rw [hv]
  exact (bdLe_some_iff _ _).mpr h

/-! ## The terms of a row -/

theorem bdLe_cross {m n b c : Bd} {am bm : Dy} {ab bb : Bd} (hm : bdLe m (some am) = true) (hn : bdLe n (some bm) = true)
    (hb : bdLe b ab = true) (hc : bdLe c bb = true) (hm0 : BdNonneg m) (hn0 : BdNonneg n) (hb0 : BdNonneg b) (hc0 : BdNonneg c) :
    bdLe (bdSum [bdMul m c, bdMul n b, bdMul b c]) (cross am ab bm bb) = true :=
  bdLe_bdAdd (bdLe_bdAdd (bdLe_bdAdd (bdLe_refl _) (bdLe_bdMul hm hc hm0 hc0)) (bdLe_bdMul hn hb hn0 hb0)) (bdLe_bdMul hb hc hb0 hc0)

theorem bdNonneg_cmaxOf (row : List FV) (am bm : Dy) : BdNonneg (cmaxOf row am bm) := by
  unfold cmaxOf
  dsimp only
  generalize List.foldl _ _ row = cur
  generalize exOf fF32 _ = top
  cases cur with
  | none => exact bdNonneg_none
  | some x =>
    cases top with
    | none => exact bdNonneg_none
    | some y => exact bdNonneg_some.mpr ((dyVal_dyPow _).symm ▸ (two_zpow_pos _).le)

theorem bdNonneg_bdTimes (n : Nat) {b : Bd} (h : BdNonneg b) : BdNonneg (bdTimes n b) :=
  bdNonneg_bdMul (bdNonneg_some.mpr (by simp)) h

theorem betaStep_special {short : Bool} {beta : BitVec 16} {r : RowTerms} {ovf : Bool} (h : (r.special || ovf) = true) :
    betaStep short beta r ovf = bndInf := if_pos h

/-- A step's bound is not below the bound before it and the row's main term. -/
theorem le_betaStep (short : Bool) (beta : BitVec 16) {r : RowTerms} (ovf : Bool) (hmain : BdNonneg r.main) (hc : BdNonneg r.cmax) :
    bdLe (bdSum [bdOf beta, r.main]) (bdOf (betaStep short beta r ovf)) = true := by
  cases hs : (r.special || ovf)
  · have hstep : betaStep short beta r ovf = upBd (bdSum ([bdOf beta, r.main] ++ [bdOf (if r.e = 0 then 0 else
        upBd (bdAdd r.side (bdMul (some (epsAcc short)) r.cmax))), bdOf (upBd r.lost), bdMul (some (epsAcc short)) (bdTimes 128 r.cmax)])) :=
      if_neg (ne_true_of_eq_false hs)
    have heps : BdNonneg (some (epsAcc short)) := bdNonneg_some.mpr ((dyVal_dyPow _).symm ▸ (two_zpow_pos _).le)
    have hmore : ∀ c ∈ [bdOf (if r.e = 0 then 0 else upBd (bdAdd r.side (bdMul (some (epsAcc short)) r.cmax))), bdOf (upBd r.lost),
        bdMul (some (epsAcc short)) (bdTimes 128 r.cmax)], BdNonneg c := by
      simp only [List.forall_mem_cons, bdNonneg_bdOf, bdNonneg_bdMul heps (bdNonneg_bdTimes 128 hc), true_and]
      exact fun c hc => nomatch hc
    have hsum : BdNonneg (bdSum [bdOf beta, r.main]) := bdNonneg_bdSum (by
      simp only [List.forall_mem_cons, bdNonneg_bdOf, hmain, true_and]
      exact fun c hc => nomatch hc)
    have hle := bdLe_foldl_bdAdd (bdLe_refl (bdSum [bdOf beta, r.main])) hmore
    rw [hstep]
    exact bdLe_trans hle (bdLe_upBd (bdLe_trans hsum hle))
  · rw [betaStep_special hs]
    exact bdLe_none _

end Sys2Proof.Laws



/-! SUPPORT. What R88 and R242 fix of one row in one K-block. -/

namespace Sys2Proof.Laws

open Sys2Proof.Machine Sys2Proof.Claims Sys2Proof.Safety

/-! ## The elements of a block -/

theorem bdNonneg_mScale (v : FV) (b : BitVec 16) (s : Nat) : BdNonneg (mScale v b s).b := bdNonneg_bdScale (bdNonneg_bdOf b) _

/-- A scaled element's bound is not negative. -/
theorem bdNonneg_scaleLines {scl : Nat} {scales : List Byte} {pos : Nat → Nat → Nat} {l : List (List (FV × BitVec 16))} {line : List MEl}
    (hline : line ∈ scaleLines scl scales pos l) {e : MEl} (he : e ∈ line) : BdNonneg e.b := by
  obtain ⟨x, -, rfl⟩ := List.mem_map.mp hline
  obtain ⟨y, -, rfl⟩ := List.mem_map.mp he
  exact bdNonneg_mScale ..

theorem mem_getD_nil {α : Type} {l : List (List α)} {n : Nat} {e : α} (h : e ∈ l.getD n []) : ∃ line ∈ l, e ∈ line := by
  rw [List.getD_eq_getElem?_getD] at h
  cases hl : l[n]? with
  | none => rw [hl] at h; exact nomatch h
  | some line =>
    rw [hl] at h
    exact ⟨line, List.mem_of_getElem? hl, h⟩

section Block

variable {w : Word} {ol ta tb : Bool} {ea eb : List QEntry} {lane : Nat} {e : MEl}

theorem bdNonneg_row (h : e ∈ (mkBlock w ol ta tb ea eb).a.getD lane []) : BdNonneg e.b := by
  obtain ⟨line, hline, he⟩ := mem_getD_nil h
  have hlines : (mkBlock w ol ta tb ea eb).a = aLines w ta ea := rfl
  rw [hlines, aLines] at hline
  exact bdNonneg_scaleLines hline he

theorem bdNonneg_tile (h : e ∈ (mkBlock w ol ta tb ea eb).b.flatten) : BdNonneg e.b := by
  obtain ⟨line, hline, he⟩ := List.mem_flatten.mp h
  have hlines : (mkBlock w ol ta tb ea eb).b = bLines w tb eb := rfl
  rw [hlines, bLines] at hline
  exact bdNonneg_scaleLines hline he

theorem rowTerms_main (row : List FV) : (rowTerms (mkBlock w ol ta tb ea eb) lane row).main
    = bdTimes 128 (cross (maxMag ((mkBlock w ol ta tb ea eb).a.getD lane [])) (maxBeta ((mkBlock w ol ta tb ea eb).a.getD lane []))
      (maxMag (mkBlock w ol ta tb ea eb).b.flatten) (maxBeta (mkBlock w ol ta tb ea eb).b.flatten)) := rfl

theorem rowTerms_special (row : List FV)
    (h : ∃ e ∈ (mkBlock w ol ta tb ea eb).a.getD lane [] ++ (mkBlock w ol ta tb ea eb).b.flatten, fvIsFin e.v = false) :
    (rowTerms (mkBlock w ol ta tb ea eb) lane row).special = true := by
  obtain ⟨e, he, hfin⟩ := h
  have hany {l : List MEl} (he : e ∈ l) : anySpecial l = true := List.any_eq_true.mpr ⟨e, he, by rw [hfin]; rfl⟩
  have hspecial : (rowTerms (mkBlock w ol ta tb ea eb) lane row).special = (anySpecial ((mkBlock w ol ta tb ea eb).a.getD lane [])
      || anySpecial (mkBlock w ol ta tb ea eb).b.flatten || anySpecial ((mkBlock w ol ta tb ea eb).proc.map (fun o => o.a.getD lane default))
      || anySpecial ((mkBlock w ol ta tb ea eb).proc.flatMap (fun o => o.b))) := rfl
  rw [hspecial]
  rcases List.mem_append.mp he with h | h
  · rw [hany h, Bool.true_or, Bool.true_or, Bool.true_or]
  · rw [hany h, Bool.or_true, Bool.true_or, Bool.true_or]

theorem bdNonneg_cmax (row : List FV) : BdNonneg (rowTerms (mkBlock w ol ta tb ea eb) lane row).cmax := by
  have hcmax : (rowTerms (mkBlock w ol ta tb ea eb) lane row).cmax = if (rowTerms (mkBlock w ol ta tb ea eb) lane row).special then none
      else cmaxOf row (maxMag ((mkBlock w ol ta tb ea eb).a.getD lane [])) (mkBlock w ol ta tb ea eb).bMax := rfl
  rw [hcmax]
  split
  · exact bdNonneg_none
  · exact bdNonneg_cmaxOf ..

/-- The row's main term is not below what elements of the row and of the tile bring. -/
theorem le_rowTerms_main (row : List FV) {e' f f' : MEl} (he : e ∈ (mkBlock w ol ta tb ea eb).a.getD lane [])
    (he' : e' ∈ (mkBlock w ol ta tb ea eb).a.getD lane []) (hf : f ∈ (mkBlock w ol ta tb ea eb).b.flatten)
    (hf' : f' ∈ (mkBlock w ol ta tb ea eb).b.flatten) (hefin : fvIsFin e.v = true) (hffin : fvIsFin f.v = true) :
    let term := bdMul (some (dyInt 128)) (bdSum [bdMul (fvMag e.v) f'.b, bdMul (fvMag f.v) e'.b, bdMul e'.b f'.b])
    BdNonneg term ∧ bdLe term (rowTerms (mkBlock w ol ta tb ea eb) lane row).main = true := by
  have hcross := bdLe_cross (fvMag_le_maxMag he hefin) (fvMag_le_maxMag hf hffin) ((maxBeta_grows _).2 e' he') ((maxBeta_grows _).2 f' hf')
    (bdNonneg_fvMag e.v) (bdNonneg_fvMag f.v) (bdNonneg_row he') (bdNonneg_tile hf')
  have hnonneg : BdNonneg (bdSum [bdMul (fvMag e.v) f'.b, bdMul (fvMag f.v) e'.b, bdMul e'.b f'.b]) := bdNonneg_bdSum (by
    simp only [List.forall_mem_cons, bdNonneg_bdMul (bdNonneg_fvMag e.v) (bdNonneg_tile hf'),
      bdNonneg_bdMul (bdNonneg_fvMag f.v) (bdNonneg_row he'), bdNonneg_bdMul (bdNonneg_row he') (bdNonneg_tile hf'), true_and]
    exact fun c hc => nomatch hc)
  have hk : BdNonneg (some (dyInt 128)) := bdNonneg_some.mpr (by simp)
  rw [rowTerms_main]
  exact ⟨bdNonneg_bdMul hk hnonneg, bdLe_bdMul (bdLe_refl _) hcross hk hnonneg⟩

end Block

/-! ## Flags and skipped columns -/

theorem getLsbD_foldl_or {α : Type} (g : α → Byte) (l : List α) (b : Byte) (i : Nat) :
    (l.foldl (fun f e => f ||| g e) b).getLsbD i = (b.getLsbD i || l.any (fun e => (g e).getLsbD i)) := by
  induction l generalizing b with
  | nil => simp
  | cons c l ih => rw [List.foldl_cons, ih, BitVec.getLsbD_or, List.any_cons, Bool.or_assoc]

/-- A block's flags are gathered from those before it, the row's own and its columns'. -/
theorem rowBlock_fl (acc : Nat) (bud aux : Word) (lane : Nat) (x : MRow) (blk : MBlock) : ∃ es : List Acc1,
    (rowBlock acc bud aux lane x blk).fl = es.foldl (fun f e => f ||| e.fl)
      (x.fl ||| flIf (rowTerms blk lane x.el).special flNV ||| flIf (!blk.rest.isEmpty) flOO) := ⟨_, rfl⟩

theorem rowBlock_beta (acc : Nat) (bud aux : Word) (lane : Nat) (x : MRow) (blk : MBlock) : ∃ short ovf,
    (rowBlock acc bud aux lane x blk).beta = betaStep short x.beta (rowTerms blk lane x.el) ovf := ⟨_, _, rfl⟩

/-- A column that AUX names stands. -/
theorem rowBlock_skipped (acc : Nat) (bud : Word) {aux : Word} (lane : Nat) (x : MRow) (blk : MBlock) {j : Nat} (hj : j < 32)
    (hskip : aux.getLsbD j = true) : (rowBlock acc bud aux lane x blk).el[j]? = x.el[j]? := by
  unfold rowBlock
  dsimp only
  rw [List.map_map, List.getElem?_map, List.zip_eq_zipWith, List.getElem?_zipWith, List.getElem?_range hj]
  cases x.el[j]? with
  | none => rfl
  | some v => simp [hskip]

theorem rowRules : RowRules := by
  intro acc bud aux lane x w ol ta tb ea eb blk row tile y
  obtain ⟨es, hfl⟩ := rowBlock_fl acc bud aux lane x blk
  obtain ⟨short, ovf, hbeta⟩ := rowBlock_beta acc bud aux lane x blk
  refine ⟨fun hspec => ?_, fun hfin e he e' he' f hf f' hf' => ?_, fun j hj hskip => rowBlock_skipped acc bud lane x blk hj hskip, ?_⟩
  · have hspecial := rowTerms_special x.el hspec
    refine ⟨hbeta.trans (betaStep_special (by rw [hspecial]; rfl)), ?_⟩
    change (rowBlock acc bud aux lane x blk).fl.getLsbD 0 = true
    rw [hfl, getLsbD_foldl_or, BitVec.getLsbD_or, BitVec.getLsbD_or, hspecial]
    simp [flIf, flNV]
  · obtain ⟨hterm, hmain⟩ := le_rowTerms_main x.el he he' hf hf' (hfin e (List.mem_append_left _ he)) (hfin f (List.mem_append_right _ hf))
    have hsum := bdLe_bdAdd (bdLe_refl (bdAdd bdZero (bdOf x.beta))) hmain
    have hcmax : BdNonneg (rowTerms blk lane x.el).cmax := bdNonneg_cmax x.el
    have hstep := le_betaStep short x.beta ovf (bdLe_trans hterm hmain) hcmax
    change bdLe _ (bdOf (rowBlock acc bud aux lane x blk).beta) = true
    rw [hbeta]
    exact bdLe_trans hsum hstep
  · refine BitVec.eq_of_getLsbD_eq (fun i _ => ?_)
    change ((rowBlock acc bud aux lane x blk).fl &&& x.fl).getLsbD i = _
    rw [hfl, BitVec.getLsbD_and, getLsbD_foldl_or, BitVec.getLsbD_or, BitVec.getLsbD_or]
    cases x.fl.getLsbD i <;> simp

/-- Settles O30: each instruction is its lanes' steps, and a row's bound is not below its terms, which only grow by nonnegative parts. -/
theorem matrixResults : Obligations.MatrixResults := by
  unfold Obligations.MatrixResults
  obtain ⟨hmma, hmmao, hwzero, hwmov, hwld, hwst, hwdrn⟩ := matrix_steps
  exact ⟨hmma, hmmao, hwzero, hwmov, wbnd_each, hwld, hwst, hwdrn, rowRules⟩

end Sys2Proof.Laws


/-! Misaligned accesses, and scratch and peer accesses that name no byte (R96-R98, R198). -/

namespace Sys2Proof.Laws

open Sys2Proof.Machine Sys2Proof.Claims Sys2Proof.Safety

/-! ## The checks of R198 -/

theorem resolve_misaligned {a : DWord} {align : Nat} (h : a.toNat % align ≠ 0) (s : State) (t : Thread) (sp : Space) (n : Nat)
    (k : AKind) : resolve s t sp a align n k = (.error ⟨3, 0, a, BitVec.ofNat 64 align⟩, s) := by
  unfold resolve
  rw [if_pos h]
  rfl

theorem cobjAcc_misaligned {a : DWord} (h : a.toNat % 32 ≠ 0) (s : State) (t : Thread) (sp : Space) (k : AKind) (v : DWord) :
    cobjAcc s t sp a k v = (.error ⟨3, 0, a, BitVec.ofNat 64 32⟩, s) := by
  unfold cobjAcc
  rw [resolve_misaligned h]

/-- A scratch access that ends past the core group's scratch bytes (R97). -/
theorem resolve_scratch_past {s : State} {t : Thread} {a : DWord} {n : Nat} (ha : a.toNat % n = 0)
    (h : scratchSize s t.cgu < a.toNat + n) (k : AKind) :
    resolve s t .sc a n n k = (.error ⟨2, 5, a, BitVec.ofNat 64 k.code⟩, s) := by
  unfold resolve
  rw [if_neg (not_not.mpr ha)]
  dsimp only
  rw [if_pos h]
  rfl

/-- A peer access past the window of 8 MiB (R98). -/
theorem resolve_peer_past {a : DWord} {n : Nat} (ha : a.toNat % n = 0) (h : 2 ^ 23 ≤ a.toNat) (s : State) (t : Thread) (k : AKind) :
    resolve s t .pe a n n k = (.error ⟨2, 5, a, BitVec.ofNat 64 k.code⟩, s) := by
  unfold resolve
  rw [if_neg (not_not.mpr ha)]
  dsimp only
  rw [if_pos (by omega)]
  rfl

/-- A peer access to a core that is not of the cluster group (R98). -/
theorem resolve_peer_absent {s : State} {t : Thread} {a : DWord} {n : Nat} (ha : a.toNat % n = 0) (h : a.toNat < 2 ^ 23)
    (hp : peerOf s t a = none) (k : AKind) : resolve s t .pe a n n k = (.error ⟨6, 0, a, 0⟩, s) := by
  unfold resolve
  rw [if_neg (not_not.mpr ha)]
  dsimp only
  rw [if_neg (by omega), hp]
  rfl

/-- A peer access that ends past the peer's scratch bytes (R98). -/
theorem resolve_peer_scratch_past {s : State} {t : Thread} {a : DWord} {n p : Nat} (ha : a.toNat % n = 0) (h : a.toNat < 2 ^ 23)
    (hp : peerOf s t a = some p) (hs : scratchSize s t.cgu < a.toNat % 2 ^ 20 + n) (k : AKind) :
    resolve s t .pe a n n k = (.error ⟨2, 5, a, BitVec.ofNat 64 k.code⟩, s) := by
  unfold resolve
  rw [if_neg (not_not.mpr ha)]
  dsimp only
  rw [if_neg (by omega), hp]
  dsimp only
  rw [if_pos hs]
  rfl

/-! ## Which core a peer address names (R98, R264) -/

/-- A core group that a peer address names for a thread: of its cluster group, not left as the thread knows, at the address's half
and core. -/
def IsPeer (t : Thread) (a : DWord) (c : CoreGroup) : Prop :=
  c.cgu = t.cgu ∧ ¬(c.gone = true ∧ t.away.getLsbD c.k = true) ∧ c.core % 4 = a.toNat / 2 ^ 20 % 4 ∧ (4 ≤ c.k ↔ 2 ^ 22 ≤ a.toNat)

/-- Within the window of 8 MiB bit 22 tells the half. -/
theorem getLsbD_22_iff {a : DWord} (h : a.toNat < 2 ^ 23) : a.getLsbD 22 = true ↔ 2 ^ 22 ≤ a.toNat := by
  rw [BitVec.getLsbD, Nat.testBit_eq_decide_div_mod_eq, decide_eq_true_eq]
  omega

theorem peerOf_eq_none_iff {s : State} {t : Thread} {a : DWord} (h : a.toNat < 2 ^ 23) :
    peerOf s t a = none ↔ ∀ c ∈ s.coreGroups, ¬IsPeer t a c.2 := by
  rw [peerOf, Option.map_eq_none_iff, List.find?_eq_none]
  refine forall₂_congr fun c _ => not_congr ?_
  have hhalf : (decide (4 ≤ c.2.k) == a.getLsbD 22) = true ↔ (4 ≤ c.2.k ↔ 2 ^ 22 ≤ a.toNat) := by
    rw [beq_iff_eq, Bool.eq_iff_iff, decide_eq_true_eq, getLsbD_22_iff h]
  simp only [Bool.and_eq_true, hhalf, beq_iff_eq, Bool.not_eq_true', ← Bool.not_eq_true, IsPeer, and_assoc]

theorem peerOf_none_of_gone {s : State} {t : Thread} {a : DWord} (h : a.toNat < 2 ^ 23)
    (hgone : ∀ c ∈ s.coreGroups, c.2.cgu = t.cgu → c.2.core % 4 = a.toNat / 2 ^ 20 % 4 → (4 ≤ c.2.k ↔ 2 ^ 22 ≤ a.toNat) →
      c.2.gone = true ∧ t.away.getLsbD c.2.k = true) : peerOf s t a = none :=
  (peerOf_eq_none_iff h).mpr fun c hc ⟨hcgu, hin, hcore, hhalf⟩ => hin (hgone c hc hcgu hcore hhalf)

theorem peerOf_some_of_here {s : State} {t : Thread} {a : DWord} (h : a.toNat < 2 ^ 23)
    (hhere : ∃ c ∈ s.coreGroups, c.2.cgu = t.cgu ∧ c.2.core % 4 = a.toNat / 2 ^ 20 % 4 ∧ (4 ≤ c.2.k ↔ 2 ^ 22 ≤ a.toNat)
      ∧ c.2.gone = false) : ∃ p, peerOf s t a = some p := by
  obtain ⟨c, hc, hcgu, hcore, hhalf, hgone⟩ := hhere
  refine Option.ne_none_iff_exists'.mp fun hnone => ?_
  exact (peerOf_eq_none_iff h).mp hnone c hc ⟨hcgu, by simp [hgone], hcore, hhalf⟩

/-! ## The statement -/

/-- An instruction that acts lane by lane, and whose one active lane takes a fault. -/
theorem exec_laneOp_fault {i : Instr} {gd : Guard} {F : Nat → LaneFn} {s : State} {gid k : Nat} {g : Group} {t : Thread} {f : FInfo}
    (hi : exec i s = .next (laneOp gd F s)) (hat : At s gid g) (ht : getThread s k = some t) (hact : activeOf s g gd = [k])
    (hF : F gid k t s = (s, some f)) : exec i s = .next (splitGroup s s gid g [(k, f)] false) := by
  rw [hi, laneOp_at gd F hat, splitGroup_of_lost hat.2, hact]
  simp only [foldLanes, ht, hF]

theorem misalignedAccessTraps : MisalignedAccessTraps := by
  intro s gid g k t hat ht
  refine ⟨fun x hact ha => ?_, fun x hact ha => ?_, fun x hact ha => ?_, fun x hact ha => ?_, fun x hact ha => ?_,
    fun x hact ha => ?_, fun x hact ha => ?_, fun x hact ha => ?_, fun x hact ha => ?_⟩
  · exact exec_laneOp_fault rfl hat ht hact (by simp only [ldLane, resolve_misaligned ha])
  · exact exec_laneOp_fault rfl hat ht hact (by simp only [stLane, resolve_misaligned ha])
  · exact exec_laneOp_fault rfl hat ht hact (by simp only [atomLane, resolve_misaligned ha])
  · exact exec_laneOp_fault rfl hat ht hact (by simp only [acasLane, resolve_misaligned ha])
  · exact exec_laneOp_fault rfl hat ht hact (by simp only [redLane, resolve_misaligned ha])
  · exact exec_laneOp_fault rfl hat ht hact (by simp only [csigLane, cobjLane, cobjAcc_misaligned ha])
  · exact exec_laneOp_fault rfl hat ht hact (by simp only [cpendLane, cobjLane, cobjAcc_misaligned ha])
  · exact exec_laneOp_fault rfl hat ht hact (by simp only [cwaitLane, cwaitEval, cobjAcc_misaligned ha])
  · exact exec_laneOp_fault rfl hat ht hact (by simp only [crdLane, cobjAcc_misaligned ha])

/-- An LD whose access fails a check takes its trap. -/
theorem exec_ld_fault {x : MemOps} {s : State} {gid k : Nat} {g : Group} {t : Thread} {f : FInfo} (hat : At s gid g)
    (hact : activeOf s g x.g = [k]) (ht : getThread s k = some t)
    (hr : resolve s t x.space (operandAddr t x.space x.a x.ofs) (widthBytes x.w) (widthBytes x.w) .read = (.error f, s)) :
    exec (.ld x) s = .next (splitGroup s s gid g [(k, f)] false) :=
  exec_laneOp_fault rfl hat ht hact (by simp only [ldLane, hr])

theorem scratchAndPeerFaults : ScratchAndPeerFaults := by
  intro x s gid g k t hat hact ht a n traps ha
  have htrap {f : FInfo} (hr : resolve s t x.space a n n .read = (.error f, s)) :
      exec (.ld x) s = .next (splitGroup s s gid g [(k, f)] false) := exec_ld_fault hat hact ht hr
  refine ⟨fun hsp hs => htrap ?_, fun hsp hpast => htrap ?_, fun hsp hin hgone => htrap ?_, fun hsp hin hhere hs => htrap ?_⟩
  · exact hsp ▸ resolve_scratch_past ha hs .read
  · exact hsp ▸ resolve_peer_past ha hpast s t .read
  · exact hsp ▸ resolve_peer_absent ha hin (peerOf_none_of_gone hin hgone) .read
  · obtain ⟨p, hp⟩ := peerOf_some_of_here hin hhere
    exact hsp ▸ resolve_peer_scratch_past ha hin hp hs .read

/-- Settles O16: the check of alignment comes first in every access (`resolve_misaligned`); which core a peer address names is
`peerOf_eq_none_iff`. -/
theorem accessFaults : Obligations.AccessFaults := ⟨misalignedAccessTraps, scratchAndPeerFaults⟩

end Sys2Proof.Laws


/-! Operand queues: QPOP, QPEEK, QDROP and QCNT (R111, R251, R252, R321). -/

namespace Sys2Proof.Laws

open Sys2Proof.Machine Sys2Proof.Claims Sys2Proof.Safety

/-! ## What a queue instruction finds at the head -/

section Head

variable {s : State} {gid q : Nat} {g : Group} {gd : Guard} (reads : Bool) (f : QEntry → Nat → Group → List Nat → State → State)

theorem headOp_idle (hat : At s gid g) (hact : activeOf s g gd = []) : headOp gd q reads f s = advance s gid := by
  rw [headOp, groupOp_at gd _ hat, hact]
  rfl

/-- An entry still to come holds the group (R252). -/
theorem headOp_wait (hat : At s gid g) (hact : activeOf s g gd ≠ []) (hw : queueHead s (groupQuad s g) q = .wait) :
    headOp gd q reads f s = setHold s gid .queue := by
  rw [headOp, groupOp_at gd _ hat, if_neg (by simpa using hact), hw]

variable {e : QEntry}

theorem headOp_ready (hat : At s gid g) (hact : activeOf s g gd ≠ []) (he : ReadyHead s g q e) :
    headOp gd q reads f s = if e.bad && reads then faultAll s gid g (activeOf s g gd) (fun _ => faultOf 14 1 (d64 q) 0)
      else f e gid g (activeOf s g gd) s := by
  rw [headOp, groupOp_at gd _ hat, if_neg (by simpa using hact), show queueHead s (groupQuad s g) q = .entry e from he]

/-- A read of an entry whose storage has an uncorrectable error is lost data (R321). -/
theorem headOp_bad (hat : At s gid g) (hact : activeOf s g gd ≠ []) (he : ReadyHead s g q e) (hbad : e.bad = true) :
    headOp gd q true f s = splitGroup s s gid g ((activeOf s g gd).map (fun k => (k, ⟨14, 1, BitVec.ofNat 64 q, 0⟩))) false := by
  rw [headOp_ready true f hat hact he, hbad]
  rfl

theorem headOp_good (hat : At s gid g) (hact : activeOf s g gd ≠ []) (he : ReadyHead s g q e) (hok : (e.bad && reads) = false) :
    headOp gd q reads f s = f e gid g (activeOf s g gd) s := by
  rw [headOp_ready reads f hat hact he, hok]
  rfl

end Head

/-! ## What the instructions do with a ready entry -/

section Ready

variable {s : State} {gid : Nat} {g : Group} {e : QEntry}

theorem exec_qpop_ready {x : QueueOps} (hat : At s gid g) (hact : activeOf s g x.g ≠ []) (he : ReadyHead s g x.q.toNat e)
    (hok : e.bad = false) (hdata : e.marker = none) :
    exec (.qpop x) s = .next (advance (onThreads (fun t => setReg t x.d.toNat (chunkWord e t.lane)) (activeOf s g x.g)
      (popChunk s (groupQuad s g) x.q.toNat)) gid) := by
  change execQpop x s = _
  rw [execQpop, headOp_good true _ hat hact he (by rw [hok]; rfl), hdata]
  rfl

/-- QPEEK reads a marker's tag, or the next chunk's word. -/
theorem exec_qpeek_ready {x : QpeekOps} (hat : At s gid g) (hact : activeOf s g x.g ≠ []) (he : ReadyHead s g x.q.toNat e)
    (hok : e.bad = false) :
    exec (.qpeek x) s = .next (advance (onThreads (fun t => setPred t x.p e.marker.isSome) (activeOf s g x.g)
      (onThreads (fun t => setReg t x.d.toNat (match e.marker with
        | some tag => ⟨tag, 0⟩
        | none => chunkWord e t.lane)) (activeOf s g x.g) s)) gid) := by
  change execQpeek x s = _
  rw [execQpeek, headOp_good true _ hat hact he (by rw [hok]; rfl)]
  cases e.marker <;> rfl

theorem exec_qdrop_ready {x : QdropOps} (hat : At s gid g) (hact : activeOf s g x.g ≠ []) (he : ReadyHead s g x.q.toNat e) :
    exec (.qdrop x) s = .next (advance (modQueue s (groupQuad s g) x.q.toNat (fun q => { q with entries := q.entries.drop 1 })) gid) := by
  change execQdrop x s = _
  rw [execQdrop, headOp_good false _ hat hact he (Bool.and_false _)]
  rfl

/-- The word of QCNT: bit 31 where the access slice has ended, the entries, and the ready ones at the front (R252). -/
theorem qcntWord_eq (ended : Bool) (q : Queue) : qcntWord ended q = BitVec.ofNat 32
    ((if ended then 2 ^ 31 else 0) + q.entries.length * 2 ^ 16 + (q.entries.takeWhile (fun e => e.ready)).length) := by
  cases ended <;> simp [qcntWord, w32, bnum]

theorem exec_qcnt {x : QueueOps} {q : Queue} (hat : At s gid g) (hact : activeOf s g x.g ≠ [])
    (hq : getQueue s (groupQuad s g) x.q.toNat = some q) :
    exec (.qcnt x) s = .next (advance (onThreads (fun t => setReg t x.d.toNat ⟨BitVec.ofNat 32
      ((if sliceEnded s (groupQuad s g) then 2 ^ 31 else 0) + q.entries.length * 2 ^ 16
        + (q.entries.takeWhile (fun e => e.ready)).length), 0⟩) (activeOf s g x.g) s) gid) := by
  change execQcnt x s = _
  rw [execQcnt, groupOp_at x.g _ hat, if_neg (by simpa using hact), hq, ← qcntWord_eq]
  rfl

end Ready

/-! ## The statement -/

/-- Settles O31: QPOP, QPEEK and QDROP by what they find at the head of their queue (`headOp_ready`, `headOp_wait`), QCNT by the word it
counts (`qcntWord_eq`). -/
theorem queueResults : Obligations.QueueResults := by
  intro s gid g hat
  refine ⟨fun x e hact he hok hdata => exec_qpop_ready hat hact he hok hdata, fun x e hact he hok => exec_qpeek_ready hat hact he hok,
    fun x e hact he => exec_qdrop_ready hat hact he, fun x q hact hq => exec_qcnt hat hact hq, fun x hact hw => ?_, fun x hact hw => ?_,
    fun x hact hw => ?_, fun x hact => ?_, fun x hact => ?_, fun x hact => ?_, fun x e hact he hbad => ?_, fun x e hact he hbad => ?_⟩
  · exact congrArg Host.Outcome.next (headOp_wait true _ hat hact hw)
  · exact congrArg Host.Outcome.next (headOp_wait true _ hat hact hw)
  · exact congrArg Host.Outcome.next (headOp_wait false _ hat hact hw)
  · exact congrArg Host.Outcome.next (headOp_idle true _ hat hact)
  · exact congrArg Host.Outcome.next (headOp_idle true _ hat hact)
  · exact congrArg Host.Outcome.next (headOp_idle false _ hat hact)
  · exact congrArg Host.Outcome.next (headOp_bad _ hat hact he hbad)
  · exact congrArg Host.Outcome.next (headOp_bad _ hat hact he hbad)

end Sys2Proof.Laws


/-! Submitted work (R116, R134, R259-R261, R299): two states that the statements on it leave out of account. -/

namespace Sys2Proof.Laws

open Sys2Proof.Machine Sys2Proof.Claims Sys2Proof.Safety

/-! ## A GROW that lands (R134, R261, R299) -/

/-- A thread whose register 4 holds 1, at a GROW of one index. -/
def growingThread : Thread := { newThread 0 0 0 0 0 0 soloRecord true with regs := [(4, ⟨1, 0⟩)] }

/-- Its launch: G 1, with no ceiling below 2^32 − 1. -/
def growingLaunch : Launch := ⟨0, 0, 0, true, { soloRecord with gceil := 0 }, 1, [0], [(0, .placed)], [], false, false⟩

/-- The migration of the page at 0 has ended and its held writes are landing: the state in which a GROW that the lock held is made
(R299). -/
def growLanding : State := { State.reset with
  threads := [(0, growingThread)]
  launches := [(0, growingLaunch)]
  parts := [(0, { Part.reset with migSt := .landing })] }

/-- GROW of register 4, its answer to register 5. -/
def growFour : OpDA := ⟨⟨false, 7⟩, 5, 4⟩

/-- The header word, in the page whose held writes land. -/
def landingHeader : Loc := .phys 0 0 false

/-- The number of writes that partition 0 holds. -/
def heldCount (s : State) : Nat := (partOf s 0).held.length

/-- At its turn the GROW writes its header at once. -/
theorem growLanes_holds_nothing : heldCount (growLanes growFour 0 0 (some landingHeader) [0] growLanding) = 0 := by decide

/-- A store that comes meanwhile lines up behind the held writes. -/
theorem storeLoc_lines_up (l : List Byte) (bs : List (BitVec 16)) (f : Launch → Launch) (g : Thread → Thread) :
    heldCount (modThread (storeLoc (modLaunch growLanding 0 0 f) landingHeader l bs) 0 g) = 1 := by
  have hlock : locLock (modLaunch growLanding 0 0 f) landingHeader = some 0 :=
    show locLock growLanding landingHeader = some 0 by decide
  simp only [storeLoc, hlock]
  rfl

/-- Refutes O33: the statement has the header written as a store that a lock on it holds (`storeLoc`), whatever the state. A GROW that a
lock held is made while the held writes of the header's page land (R299), and writes its header at once; a store would be held again. -/
theorem not_submissionResults : ¬ Obligations.SubmissionResults := by
  rintro ⟨-, -, -, -, -, -, -, -, hlanes, -⟩
  obtain ⟨-, -, hheader⟩ := hlanes growFour growLanding 0 0 0 growingThread growingLaunch rfl rfl
  have hheld := congrArg heldCount (hheader landingHeader (by decide) (by decide))
  rw [growLanes_holds_nothing, storeLoc_lines_up] at hheld
  exact absurd hheld (by decide)

/-! ## A job of a kind that no card has (R259) -/

/-- A job of one word at the virtual address 2^30, of KIND 3. -/
def kindThree : Job :=
  ⟨⟨0, false, false, 0, 3, 0, 0x40000000, 0, 1, 4, 0, 0, 0, 0, 0⟩, true, some [], some [], [], .waiting, 0, false⟩

/-- A table of two entries at 0x1000: one that names the table itself, and a leaf of 1 GiB for the addresses from 2^30 on. -/
def selfTable : Memory := memWrite (memWrite [] 0x1000 (leBytes 8 0x1003)) 0x1008 (leBytes 8 0xCD)

/-- Partition 0 translates by that table and has the job. -/
def kindThreeJob : State := { State.reset with
  parts := [(0, { Part.reset with ptRoot := 0x1001, jobs := [(0, kindThree)] })]
  mem := { State.reset.mem with bytes := selfTable, keys := [(0, ⟨true, some 0⟩)] } }

theorem getJob_modJob (s : State) (p id : Nat) (f : Job → Job) : getJob (modJob s p id f) p id = (getJob s p id).map f := by
  simp [getJob, modJob, setPart, partOf, Map.get, Map.get?_adjust]

/-- BD of job 0 of partition 0, where a step goes on. -/
def jobBd : Out → Option Bool
  | .next s => (getJob s 0 0).map (·.bd)
  | _ => none

/-- The model takes every kind that is neither copy nor fill for the rewrite of a bound, which sets BD on a page that is not tracked. -/
theorem exec_kindThreeJob_bd : jobBd (exec (.jobStart 0 0) kindThreeJob) = some true := by decide

/-- The statement takes it for a fill, whose word has bound 0 and sets no BD. -/
theorem jobLands_kindThree :
    (jobLands ⟨0, none, true⟩ kindThree.card (List.range' 0 1) false kindThreeJob).map (·.1) = some false := by decide

/-- Refutes O38: the statement's job is any job, and of a KIND above 2 it says that the words are filled, where the model rewrites their
bounds. No card of such a kind is accepted (R259, `cardOf`), but the statement leaves the kind free. -/
theorem not_waitAndJobResults : ¬ Obligations.WaitAndJobResults := by
  rintro ⟨-, -, -, -, -, hstart, -⟩
  obtain ⟨⟨bd, u⟩, hlands, hbd⟩ := Option.map_eq_some_iff.mp jobLands_kindThree
  cases hbd
  have hexec := hstart kindThreeJob 0 0 kindThree false u rfl (by decide) (.inr ⟨rfl, by simp [kindThree]⟩) hlands
  have hmodel := exec_kindThreeJob_bd
  rw [hexec, jobBd, getJob_modJob, Option.map_map] at hmodel
  obtain ⟨j, -, hj⟩ := Option.map_eq_some_iff.mp hmodel
  exact Bool.false_ne_true hj

end Sys2Proof.Laws


/-! The event ring (R314, R365), and the ends of an agent's wait on a fault (R283, R316). -/

namespace Sys2Proof.Laws

open Sys2Proof.Machine Sys2Proof.Claims Sys2Proof.Safety

/-! ## Partitions -/

theorem setPart_congr {s : State} {p : Nat} {f g : Part → Part} (h : f (partOf s p) = g (partOf s p)) : setPart s p f = setPart s p g := by
  unfold setPart
  rw [h]

theorem partOf_of_access {s t : State} (h : AccessOnly s t) (p : Nat) : partOf t p = partOf s p := by
  unfold partOf
  rw [h.parts]

/-- A partition's entry stands in the list, or the partition is as at reset. -/
theorem partOf_listed (s : State) (p : Nat) : (p, partOf s p) ∈ s.parts ∨ partOf s p = Part.reset := by
  unfold partOf Map.get
  cases h : Map.get? s.parts p with
  | none => exact .inr rfl
  | some q => exact .inl (mem_of_get? h)

theorem mem_setPart {s : State} {p : Nat} {f : Part → Part} {e : Nat × Part} (h : e ∈ (setPart s p f).parts) :
    e = (p, f (partOf s p)) ∨ e ∈ s.parts :=
  (Map.mem_ins h).imp_right (fun h => (List.mem_filter.mp h).1)

/-! ## What holds a write (R134, R299) -/

/-- A partition's migration holds the writes to an address. -/
def holdsAt (q : Part) (a : Nat) : Bool := (q.locks || q.migSt == .landing) && inRun q a

theorem holdOf_eq_none_iff {s : State} {a : Nat} : holdOf s a = none ↔ ∀ e ∈ s.parts, holdsAt e.2 a = false := by
  simp only [holdOf, Option.map_eq_none_iff, List.find?_eq_none, Bool.not_eq_true]
  exact Iff.rfl

theorem holdOf_of_access {s t : State} (h : AccessOnly s t) (a : Nat) : holdOf t a = holdOf s a := by
  unfold holdOf
  rw [h.parts]

/-- A change that leaves a partition's migration alone leaves an address free that was free. -/
theorem holdOf_setPart_none {s : State} {p a : Nat} {f : Part → Part} (hf : ∀ q, holdsAt (f q) a = holdsAt q a)
    (h : holdOf s a = none) : holdOf (setPart s p f) a = none := by
  have hfree := holdOf_eq_none_iff.mp h
  refine holdOf_eq_none_iff.mpr (fun e he => ?_)
  rcases mem_setPart he with rfl | he
  · rw [hf]
    rcases partOf_listed s p with hp | hp
    · exact hfree _ hp
    · rw [hp]
      rfl
  · exact hfree e he

theorem heldFor_of_mem {s : State} {p r : Nat} {a : Agent} {h : Held} (hh : h ∈ (partOf s p).held) (hn : h.next = some (r, a)) :
    heldFor s r a = true := by
  rcases partOf_listed s p with hp | hp
  · exact List.any_eq_true.mpr ⟨_, hp, List.any_eq_true.mpr ⟨h, hh, beq_iff_eq.mpr hn⟩⟩
  · rw [hp] at hh
    exact nomatch hh

theorem heldFor_holdWrite {s : State} {p r : Nat} {a : Agent} {h : Held} (hn : h.next = some (r, a)) :
    heldFor (holdWrite s p h) r a = true := by
  refine heldFor_of_mem (p := p) (h := h) ?_ hn
  rw [holdWrite, partOf_setPart, if_pos rfl]
  exact List.mem_append_right _ (List.mem_singleton_self h)

/-! ## Posting an event (R314) -/

theorem evqEnabled_eq (q : Part) : evqEnabled q = ringOn q := (BitVec.msb_eq_getLsbD_last _).symm

/-- The oldest event of a partition stands next, and no earlier one is being posted. -/
structure NextEvent (s : State) (p : Nat) (e : EvRec) (r : List EvRec) : Prop where
  free : posting s p = false
  events : (partOf s p).events = e :: r

theorem eventPost_posting {s : State} {p : Nat} (h : posting s p = true) : exec (.eventPost p) s = .next s := by
  refine congrArg Host.Outcome.next ?_
  split
  · rfl
  · exact if_pos h

theorem eventPost_full {s : State} {p : Nat} (hon : ringOn (partOf s p) = true) (hfull : ringFull (partOf s p) = true) :
    exec (.eventPost p) s = .next s := by
  refine congrArg Host.Outcome.next ?_
  split
  · rfl
  · simp [evqEnabled_eq, hon, show evqFull (partOf s p) = true from hfull]

/-- With EN = 0 the event is lost (Table 18-5). -/
theorem eventPost_off {s : State} {p : Nat} {e : EvRec} {r : List EvRec} (h : NextEvent s p e r) (hoff : ringOn (partOf s p) = false) :
    exec (.eventPost p) s = .next (setPart s p (fun q => { q with events := r, evqCfg := q.evqCfg ||| 0x40000000 })) := by
  change execEventPost p s = _
  unfold execEventPost
  simp only [h.events, h.free, evqEnabled_eq, hoff, Bool.not_false, if_true, Bool.false_eq_true, if_false]
  exact congrArg Host.Outcome.next (setPart_congr (by rw [h.events]; rfl))

/-! ## The record and its count (R314, R365) -/

/-- A lock on the slot holds the record (R134). -/
theorem recordPost_held {s : State} {p o : Nat} {e : EvRec} (hlock : holdOf s (ringSlot (partOf s p)) = some o) :
    ∃ h, h.next = some (p, .record) ∧ recordPost p e s = holdWrite s o h := by
  unfold recordPost physWrite
  rw [show holdOf s ((partOf s p).evqBase.toNat + 32 * (partOf s p).evqTail.toNat) = some o from hlock]
  exact ⟨_, rfl, rfl⟩

theorem recordPost_free {s : State} {p : Nat} {e : EvRec} (hlock : holdOf s (ringSlot (partOf s p)) = none) :
    recordPost p e s = recordPosted p (physPoke s (ringSlot (partOf s p)) (evBytes e)) := by
  unfold recordPost physWrite
  rw [show holdOf s ((partOf s p).evqBase.toNat + 32 * (partOf s p).evqTail.toNat) = none from hlock]
  rfl

theorem partOf_posted (s : State) (p : Nat) (e : EvRec) (r : List EvRec) : partOf (posted s p e r) p = { partOf s p with
    events := r, evqTail := BitVec.ofNat 32 (((partOf s p).evqTail.toNat + 1) % 2 ^ ((partOf s p).evqCfg.toNat % 16 + 4)) } := by
  unfold posted
  dsimp only
  rw [partOf_setPart, if_pos rfl, partOf_of_access (physPoke_accessOnly ..)]

theorem holdOf_posted {s : State} {p a : Nat} {e : EvRec} {r : List EvRec} (h : holdOf s a = none) : holdOf (posted s p e r) a = none := by
  unfold posted
  refine holdOf_setPart_none (fun _ => rfl) ?_
  rw [holdOf_of_access (physPoke_accessOnly ..), h]

/-- An update of a count object by one of the device's own agents that a signal of one would make (R214, R365). -/
theorem physCobj_of_signal {t : State} {p a n : Nat} (go : Refused → State → State) (ha : a % 32 = 0) (hlock : holdOf t a = none)
    (hn : objSignal (leNat (rawBytes t.mem a 32)) 1 0 = some n) :
    physCobj t p .evCobj a ⟨1, 0, 0⟩ go = go none (physPoke t a (leBytes 32 n)) := by
  obtain ⟨c, hc, hb⟩ := cobjUpd_of_signal hn
  unfold physCobj
  rw [if_neg (by simp [ha]), hlock]
  dsimp only
  rw [hc]
  dsimp only
  rw [hb]

/-- The ring is on and has a free slot for the event. -/
structure RingTakes (s : State) (p : Nat) (e : EvRec) (r : List EvRec) : Prop extends NextEvent s p e r where
  on : ringOn (partOf s p) = true
  room : ringFull (partOf s p) = false

namespace RingTakes

variable {s : State} {p : Nat} {e : EvRec} {r : List EvRec}

/-- The record is posted, unless a die must give up its line or the object's first (R344). -/
theorem eventPost (h : RingTakes s p e r) :
    exec (.eventPost p) s = .next ((postAsks s (partOf s p) e).elim (recordPost p e s) (wakeDie s)) := by
  change execEventPost p s = _
  unfold execEventPost
  simp only [h.events, h.free, evqEnabled_eq, h.on, show evqFull (partOf s p) = false from h.room, Bool.not_true, Bool.false_eq_true, if_false]
  cases postAsks s (partOf s p) e <;> rfl

theorem asks (h : RingTakes s p e r) {d : Nat} (hd : postAsks s (partOf s p) e = some d) : exec (.eventPost p) s = .next (wakeDie s d) := by
  rw [h.eventPost, hd]
  rfl

theorem posts (h : RingTakes s p e r) (hd : postAsks s (partOf s p) e = none) : exec (.eventPost p) s = .next (recordPost p e s) := by
  rw [h.eventPost, hd]
  rfl

/-- The record stands in the ring and the tail has advanced; the object counts it, unless there is none or the event is quiet. -/
theorem recordPosted_eq (h : RingTakes s p e r) :
    recordPosted p (physPoke s (ringSlot (partOf s p)) (evBytes e))
      = if (partOf s p).evqCobj = 0 || e.quiet then posted s p e r
        else physCobj (posted s p e r) p .evCobj (partOf s p).evqCobj.toNat ⟨1, 0, 0⟩ (evCobjDone p) := by
  have hpart := partOf_of_access (physPoke_accessOnly s (ringSlot (partOf s p)) (evBytes e)) p
  have hset : setPart (physPoke s (ringSlot (partOf s p)) (evBytes e)) p
      (fun q => { q with events := q.events.drop 1, evqTail := w32 ((q.evqTail.toNat + 1) % evqSlots q) }) = posted s p e r := by
    unfold posted
    refine setPart_congr ?_
    rw [hpart, h.events]
    rfl
  unfold recordPosted
  rw [hpart, h.events]
  dsimp only
  rw [hset, partOf_posted]

theorem uncounted (h : RingTakes s p e r) (hd : postAsks s (partOf s p) e = none) (hlock : holdOf s (ringSlot (partOf s p)) = none)
    (hc : (partOf s p).evqCobj = 0 ∨ e.quiet = true) : exec (.eventPost p) s = .next (posted s p e r) := by
  rw [h.posts hd, recordPost_free hlock, h.recordPosted_eq, if_pos (by simpa using hc)]

theorem counted (h : RingTakes s p e r) (hd : postAsks s (partOf s p) e = none) (hlock : holdOf s (ringSlot (partOf s p)) = none)
    (hc : (partOf s p).evqCobj ≠ 0) (hq : e.quiet = false) (hobj : holdOf s (partOf s p).evqCobj.toNat = none)
    (ha : (partOf s p).evqCobj.toNat % 32 = 0) {n : Nat}
    (hn : objSignal (leNat (rawBytes (posted s p e r).mem (partOf s p).evqCobj.toNat 32)) 1 0 = some n) :
    exec (.eventPost p) s = .next (physPoke (posted s p e r) (partOf s p).evqCobj.toNat (leBytes 32 n)) := by
  rw [h.posts hd, recordPost_free hlock, h.recordPosted_eq, if_neg (by simpa [hq] using hc), physCobj_of_signal _ ha (holdOf_posted hobj) hn]
  rfl

theorem held (h : RingTakes s p e r) (hd : postAsks s (partOf s p) e = none) {o : Nat} (hlock : holdOf s (ringSlot (partOf s p)) = some o) :
    ∃ t, exec (.eventPost p) s = .next t ∧ (partOf t p).events = e :: r ∧ (partOf t p).evqTail = (partOf s p).evqTail
      ∧ posting t p = true ∧ t.mem = s.mem := by
  obtain ⟨x, hx, hpost⟩ := recordPost_held (p := p) (e := e) hlock
  have hkept : (partOf (holdWrite s o x) p).events = (partOf s p).events ∧ (partOf (holdWrite s o x) p).evqTail = (partOf s p).evqTail := by
    rw [holdWrite, partOf_setPart]
    split
    · next hp => exact hp ▸ ⟨rfl, rfl⟩
    · exact ⟨rfl, rfl⟩
  refine ⟨holdWrite s o x, by rw [h.posts hd, hpost], hkept.1.trans h.events, hkept.2, ?_, rfl⟩
  unfold posting
  rw [heldFor_holdWrite hx, Bool.true_or]

end RingTakes

/-! ## The ends of an agent's wait on a fault (R316) -/

/-- An agent makes its access again as the rule has it. -/
theorem retryAgent_eq (s : State) (p : Nat) (a : Agent × FInfo) : retryAgent s p a.1 = retried p s a := by
  obtain ⟨a, f⟩ := a
  cases a with
  | job id =>
    refine congrArg (modJob s p id) (funext (fun j => ?_))
    simp only [beq_iff_eq]
  | _ => rfl

/-- The waits that AGENT_RETRY ends are those on a fault. -/
theorem setPart_noAgents (s : State) (p : Nat) :
    setPart s p (fun q => { q with agents := q.agents.filter (fun e => !onFault e.2) }) = noAgents s p := by
  simp only [onFault, Bool.not_not]
  rfl

theorem endWaits_onFault {f : State → Agent → FInfo → State} {s : State} {p : Nat} {as : List (Agent × FInfo)}
    (has : (partOf s p).agents.filter (fun e => !e.2.waits) = as) (hne : as ≠ []) :
    endWaits onFault f s p = as.foldl (fun s e => f s e.1 e.2) (noAgents s p) := by
  subst has
  unfold endWaits
  rw [setPart_noAgents]
  exact if_neg (by rw [List.isEmpty_iff]; exact hne)

theorem agentRetry_walks {s : State} {p : Nat} (hne : (partOf s p).agents.filter (fun e => !e.2.waits) ≠ []) :
    exec (.agentRetryRetry p) s = .next (((partOf s p).agents.filter (fun e => !e.2.waits)).foldl (retried p)
      (noAgents (newWalks s p ((((partOf s p).agents.filter (fun e => !e.2.waits)).map (fun e => agentCore s e.1)).eraseDups)) p)) := by
  refine congrArg Host.Outcome.next (Eq.trans (endWaits_onFault (f := fun s a _ => retryAgent s p a) rfl hne) ?_)
  congr 1
  funext t a
  exact retryAgent_eq t p a

/-- No cached leaf of the partition is left where a walk for one of the cores looks for it. -/
theorem newWalks_tlb {s : State} {cs : List (Option Nat)} {w : Who} (hc : w.core ∈ cs) {e : TlbE}
    (he : e ∈ (newWalks s w.part cs).mem.tlb) (hp : e.part = w.part) : e.home ≠ w.home ∧ (w.core.isSome = true → e.home ≠ 512 + w.die) := by
  obtain ⟨-, hkept⟩ := List.mem_filter.mp he
  rw [hp, beq_self_eq_true, Bool.true_and, Bool.not_eq_true', List.any_eq_false] at hkept
  have hunused := hkept _ hc
  unfold Who.home Who.die
  cases hw : w.core with
  | none =>
    rw [hw] at hunused
    exact ⟨by simpa using hunused, nofun⟩
  | some c =>
    rw [hw] at hunused
    simpa using hunused

theorem tlbAt_eq_none {s : State} {home part : Nat} (h : ∀ e ∈ s.mem.tlb, e.part = part → e.home ≠ home) (va : Nat) :
    tlbAt s home part va = none := by
  unfold tlbAt
  refine List.find?_eq_none.mpr (fun e he hhit => ?_)
  simp only [Bool.and_eq_true, beq_iff_eq] at hhit
  exact h e he hhit.1.2 hhit.1.1

/-- No cached translation and no cached table entry serves a walk that `newWalks` is for (R296, R316). -/
theorem newWalks_uncached (s : State) {p : Nat} {cs : List (Option Nat)} {w : Who} (hp : w.part = p) (hc : w.core ∈ cs) :
    (∀ va, tlbHit (newWalks s p cs) w va = none) ∧ ∀ t ∈ (newWalks s p cs).mem.tabs, t.part = p → t.die ≠ w.die := by
  subst hp
  refine ⟨fun va => ?_, fun t ht hpart hdie => ?_⟩
  · unfold tlbHit
    rw [tlbAt_eq_none (fun e he hpart => (newWalks_tlb hc he hpart).1)]
    dsimp only
    split
    · next hcore => exact tlbAt_eq_none (fun e he hpart => (newWalks_tlb hc he hpart).2 hcore) va
    · rfl
  · obtain ⟨-, hkept⟩ := List.mem_filter.mp ht
    rw [hpart, beq_self_eq_true, Bool.true_and, Bool.not_eq_true', List.any_eq_false] at hkept
    exact hkept _ hc (beq_iff_eq.mpr hdie)

theorem newWalks_nil (s : State) (p : Nat) : newWalks s p [] = s := by
  simp [newWalks]

theorem agentRetry_none {s : State} {p : Nat} (h : ∀ e ∈ (partOf s p).agents, e.2.waits = true) :
    exec (.agentRetryRetry p) s = .next s ∧ exec (.agentRetryAbandon p) s = .next s := by
  have hover : ∀ e ∈ (partOf s p).agents, onFault e.2 = false := fun e he => by rw [onFault, h e he]; rfl
  have hnone : (partOf s p).agents.filter (fun e => onFault e.2) = [] :=
    List.filter_eq_nil_iff.mpr (fun e he => by rw [hover e he]; decide)
  refine ⟨congrArg Host.Outcome.next ?_, congrArg Host.Outcome.next (endWaits_of_none hover)⟩
  unfold agentRetryAll
  rw [hnone]
  exact Eq.trans (congrArg (endWaits onFault _ · p) (newWalks_nil s p)) (endWaits_of_none hover)

/-- A single agent that waits on a fault ends as R316 or R283 has it. -/
theorem agentAbandon_single {s : State} {p : Nat} {a : Agent} {f : FInfo} (h : (partOf s p).agents = [(a, f)]) (hf : f.waits = false) :
    exec (.agentRetryAbandon p) s = .next (abandonAgent (noAgents s p) p a f) :=
  congrArg Host.Outcome.next (endWaits_onFault (as := [(a, f)]) (by simp [h, hf]) (List.cons_ne_nil _ _))

theorem abandoned_reason (f : FInfo) : (abandoned f).reason = permReason f := by
  change (match f.arg1.toNat % 8 with | 2 => 1 | 4 => 2 | _ => 0) = permReason f
  unfold permReason
  split <;> simp_all

theorem getJob_noAgents (s : State) (p id : Nat) : getJob (noAgents s p) p id = getJob s p id := by
  unfold getJob noAgents
  rw [partOf_setPart, if_pos rfl]

theorem abandon_slice (s : State) (p qk : Nat) (f : FInfo) :
    abandonAgent s p (.slice qk) f = postEvent (modSlice (dropUnfetched s qk) qk (fun x => { x with st := .stopped }))
      (quadPart s qk) (BitVec.ofNat 32 (quadCore s qk)) 1 2 (permReason f) (BitVec.ofNat 64 (quadNo s qk)) f.arg0 0 := by
  rw [← abandoned_reason]
  rfl

theorem abandon_job {s : State} {p id : Nat} {j : Job} (f : FInfo) (hj : getJob s p id = some j) (hst : j.st = .fault) :
    abandonAgent s p (.job id) f = modJob (postEvent s p (domeSrc p) 2 2 (permReason f) j.card.cobj
        (BitVec.ofNat 64 (j.card.rows * j.card.len - 4 * j.landed)) f.arg0) p id
      (fun j => { j with st := .landed, card := { j.card with inc := false } }) := by
  unfold abandonAgent jobStop
  simp only [hj, hst]
  rw [if_neg (by decide), abandoned_reason]
  rfl

theorem abandon_done {s : State} {p serial : Nat} {l : Launch} (f : FInfo) (hl : launchOf s p serial = some l) :
    abandonAgent s p (.done serial) f = modLaunch (postEvent s p (domeSrc p) 11 0 0 (BitVec.ofNat 64 serial) 0xFFFFFFFF l.r.cbmp) p serial
      (fun l => { l with published := true }) := by
  unfold abandonAgent
  simp only [hl]
  rfl

theorem abandon_header {s : State} {p serial : Nat} {l : Launch} (f : FInfo) (hl : launchOf s p serial = some l) :
    abandonAgent s p (.header serial) f = postEvent s p (domeSrc p) 11 0 0 (BitVec.ofNat 64 serial) 0xFFFFFFFF l.r.cbmp := by
  unfold abandonAgent
  simp only [hl]
  rfl

/-! ## DONE (R282) -/

theorem writeDone_made {s u : State} {p serial : Nat} {l : Launch} {loc : Loc} (hl : launchOf s p serial = some l) (hclosed : l.closed = true)
    (hpub : l.published = false) (hc : l.r.cbmp ≠ 0) (hw : agentWaits s p (.done serial) = false) (hh : heldFor s p (.done serial) = false)
    (hr : reach s ⟨p, none, l.priv⟩ (l.r.cbmp + 8) .write = (.ok loc, u)) (hlock : locLock u loc = none) :
    writeDone s p serial
      = modLaunch (pokeLoc (readLoc u loc 1).2 loc none (leBytes 1 (leNat (readLoc u loc 1).1.bytes ||| 1)) [0] true).1 p serial
          (fun l => { l with published := true }) := by
  unfold writeDone
  simp only [hl, hclosed, hpub, hw, hh, hc, Bool.not_true, Bool.or_false, Bool.false_eq_true, if_false]
  rw [show reach s (distWho p l) (l.r.cbmp + 8) .write = (.ok loc, u) from hr]
  dsimp only [agentWrite]
  rw [hlock]
  rfl

/-! ## The statement -/

/-- Settles O40, from what EVENT_POST does with the oldest event and from the ends of an agent's wait, kind by kind. -/
theorem eventRingResults : Obligations.EventRingResults := by
  unfold Obligations.EventRingResults
  refine ⟨fun _ _ => eventPost_posting, fun _ _ _ _ hp he => eventPost_off ⟨hp, he⟩, fun _ _ => eventPost_full,
    fun _ _ _ _ _ hp he hon hroom hd => RingTakes.held ⟨⟨hp, he⟩, hon, hroom⟩ hd,
    fun _ _ _ _ hp he hon hroom hd => RingTakes.uncounted ⟨⟨hp, he⟩, hon, hroom⟩ hd,
    fun _ _ _ _ _ hp he hon hroom hd hs hc hq ho ha => RingTakes.counted ⟨⟨hp, he⟩, hon, hroom⟩ hd hs hc hq ho ha,
    fun _ _ _ _ _ hp he hon hroom => RingTakes.asks ⟨⟨hp, he⟩, hon, hroom⟩,
    fun _ _ => agentRetry_walks, fun s _ _ _ => newWalks_uncached s, fun _ _ => agentRetry_none, ?_, ?_, ?_, ?_, ?_,
    fun _ _ _ _ _ _ => writeDone_made⟩
  · intro s p qk f h hf
    rw [agentAbandon_single h hf, abandon_slice]
    rfl
  · intro s p id f j h hf hj hst
    rw [agentAbandon_single h hf, abandon_job f ((getJob_noAgents s p id).trans hj) hst]
  · intro s p serial f l h hf hl
    exact (agentAbandon_single h hf).trans (congrArg Host.Outcome.next (abandon_done (s := noAgents s p) f hl))
  · intro s p serial f l h hf hl
    exact (agentAbandon_single h hf).trans (congrArg Host.Outcome.next (abandon_header (s := noAgents s p) f hl))
  · intro s p serial i f h hf
    exact agentAbandon_single h hf

end Sys2Proof.Laws


/-! Migrations and inbound copies (R134, R298, R299, R360): two states that the statements on them leave out of account. -/

namespace Sys2Proof.Laws

open Sys2Proof.Machine Sys2Proof.Claims Sys2Proof.Safety

/-! ## A held store that no thread waits in (R134, R299) -/

/-- A store with an unbounded bound to the page at 0, which is not tracked, as `storeLoc` holds it: no thread waits in it. -/
def unboundedStore : Held := ⟨0, .phys 0 0 false, none, .store [1, 0, 0, 0] [bndInf] false 0, none, .land⟩

/-- The migration of the page at 0 to 0x1000 is ready and holds the store; a thread has the number 0. -/
def storeAtSwitch : State := { State.reset with
  threads := [(0, growingThread)]
  parts := [(0, { Part.reset with migSt := .ready, runDst := 0x1000, held := [unboundedStore] })] }

/-- The flags of thread 0. -/
def flagsOfZero (s : State) : Option Byte := (getThread s 0).map (·.flags)

/-- The flags of thread 0 where a step goes on. -/
def flagsAfterStep : Out → Option Byte
  | .next s => flagsOfZero s
  | _ => none

theorem onlyStores_storeAtSwitch : OnlyStores storeAtSwitch 0 := ⟨by decide, by decide, fun _ => rfl, by decide⟩

/-- The model takes the number 0 for "no thread": the store lands and sets no flag. -/
theorem migSwitch_keeps_flagsOfZero : flagsAfterStep (exec (.migSwitch 0) storeAtSwitch) = some 0 := by decide

/-- The statement gives BD, for the bound that the store drops, to the thread whose number the store holds. -/
theorem heldLand_sets_flagsOfZero :
    flagsOfZero ([unboundedStore].foldl (heldLand 0 true) (migEnds (closeCombs storeAtSwitch (partOf storeAtSwitch 0)) 0 .done 0))
      = some 0x20 := by decide

/-- Refutes O44: where a migration ends, the statement lets each held store set flags of the thread whose number it holds. A store that no
thread waits in holds the number 0 and sets none. No thread of the machine has that number, as cluster groups count from 1
(`State.reset`), but the statement leaves the threads free. -/
theorem not_migrationResults : ¬ Obligations.MigrationResults := by
  rintro ⟨-, -, -, -, -, -, -, hswitch, -⟩
  have hflags := migSwitch_keeps_flagsOfZero
  rw [hswitch storeAtSwitch 0 rfl onlyStores_storeAtSwitch] at hflags
  exact absurd (hflags.symm.trans heldLand_sets_flagsOfZero) (by decide)

/-! ## An inbound copy to a window within a word (R360) -/

/-- A window of 4 KiB for device 9, which begins two bytes before the end of a line. -/
def oddWindow : InWindow := ⟨126, 0x1000, 1, 9⟩

/-- Core 0 holds an update-only 1 for the 32-bit sum at 128, the first word of the next line (R128). -/
def pendingOne : Partial := ⟨0, 128, 1, false, .add, .n32, 1, 0⟩

/-- The window is open and its key loaded. -/
def oddInbound : State := { State.reset with
  mem := { State.reset.mem with partials := [pendingOne], inWindows := [(0, oddWindow)], keys := [(1, ⟨true, some 0⟩)] } }

/-- A line of zeros. -/
def zeroLine : List (Word × BitVec 16) := List.replicate 32 (0, 0)

/-- The four bytes at the window's begin, where a step goes on. -/
def firstWordAfter : Out → Option (List Byte)
  | .next s => some (memBytes s.mem.bytes 126 4)
  | _ => none

/-- The copy's first word stores bytes of two lines and touches the first; its second word touches the other, whose pending 1 is then
added to bytes of the first word. -/
theorem inboundCopy_firstWord :
    firstWordAfter (exec (.inboundRemoteCopy ⟨9, 0, 0⟩ 0 zeroLine 0) oddInbound) = some [0, 0, 1, 0] := by decide +kernel

/-- Refutes O47: the statement lets a window begin anywhere, and has every word of an inbound copy stand in memory afterwards. A word
across two lines does not: the second line is touched, and its partials combined, by the copy's next word. The windows that the
machine opens begin at a multiple of 4 KiB (`trainedWindows`). -/
theorem not_hostResults : ¬ Obligations.HostResults := by
  rintro ⟨-, -, -, -, -, -, -, -, -, -, -, -, -, -, -, -, -, -, -, -, -, -, -, -, -, -, -, -, -, -, -, -, -, -, -, -, -, hinbound, -⟩
  obtain ⟨t, hnext, -, -, -, -, hwords⟩ := hinbound oddInbound 9 0 0 oddWindow 0 zeroLine rfl (by decide) (by decide) (by decide) (by decide)
  have hmodel := inboundCopy_firstWord
  rw [hnext] at hmodel
  exact absurd ((hwords 0 (0, 0) rfl).symm.trans (Option.some.inj hmodel)) (by decide)

end Sys2Proof.Laws

/-! SUPPORT. Instruction words (R143-R158): a field is read where it was written, and a code's meaning has that code. -/

namespace Sys2Proof.Laws

/-! ## Fields of a number -/

theorem fld_zero_toNat (w n : Nat) : (fld w 0 n).toNat = w % 2 ^ n := by simp [fld]

theorem fld_toNat_mul_add_mod (w lo n : Nat) : (fld w lo n).toNat * 2 ^ lo + w % 2 ^ lo = w % 2 ^ (lo + n) := by
  rw [fld, BitVec.toNat_ofNat, Nat.pow_add, Nat.mod_mul, Nat.mul_comm, Nat.add_comm]

@[simp] theorem fld_toNat_self {n : Nat} (x : BitVec n) : fld x.toNat 0 n = x := by simp [fld]

theorem fld_top {r lo n : Nat} (x : BitVec n) (h : r < 2 ^ lo) : fld (x.toNat * 2 ^ lo + r) lo n = x := by
  apply BitVec.eq_of_toNat_eq
  rw [fld, BitVec.toNat_ofNat, Nat.mul_comm, Nat.mul_add_div (by positivity), Nat.div_eq_of_lt h, Nat.add_zero,
    Nat.mod_eq_of_lt x.isLt]

theorem fld_below {x r lo n k : Nat} (h : lo + n ≤ k) : fld (x * 2 ^ k + r) lo n = fld r lo n := by
  obtain ⟨d, rfl⟩ := Nat.exists_eq_add_of_le h
  have hsplit : x * 2 ^ (lo + n + d) = 2 ^ lo * (2 ^ n * (x * 2 ^ d)) := by ring
  apply BitVec.eq_of_toNat_eq
  rw [fld, fld, BitVec.toNat_ofNat, BitVec.toNat_ofNat, hsplit, Nat.mul_add_div (by positivity), Nat.mul_add_mod]

/-! ## The formats -/

/-- A format of an instruction word: how its fields fill bits [47:0], and how they are read. -/
structure Layout (F : Type) where
  bits : F → Nat
  ofBits : Nat → F
  bits_lt : ∀ f, bits f < 2 ^ 48
  ofBits_bits : ∀ f, ofBits (bits f) = f
  bits_ofBits : ∀ p, p < 2 ^ 48 → bits (ofBits p) = p

def layoutA : Layout FA where
  bits := FA.bits
  ofBits := FA.ofBits
  bits_lt f := by unfold FA.bits; omega
  ofBits_bits f := by
    simp (disch := omega) only [FA.ofBits, FA.bits, Nat.add_assoc, fld_below, fld_top, fld_toNat_self]
  bits_ofBits p hp := by
    simp only [FA.bits, FA.ofBits, Nat.add_assoc, fld_zero_toNat, fld_toNat_mul_add_mod, Nat.reduceAdd, Nat.mod_eq_of_lt hp]

def layoutI : Layout FI where
  bits := FI.bits
  ofBits := FI.ofBits
  bits_lt f := by unfold FI.bits; omega
  ofBits_bits f := by
    simp (disch := omega) only [FI.ofBits, FI.bits, Nat.add_assoc, fld_below, fld_top, fld_toNat_self]
  bits_ofBits p hp := by
    simp only [FI.bits, FI.ofBits, Nat.add_assoc, fld_zero_toNat, fld_toNat_mul_add_mod, Nat.reduceAdd, Nat.mod_eq_of_lt hp]

def layoutM : Layout FM where
  bits := FM.bits
  ofBits := FM.ofBits
  bits_lt f := by unfold FM.bits; omega
  ofBits_bits f := by
    simp (disch := omega) only [FM.ofBits, FM.bits, Nat.add_assoc, fld_below, fld_top, fld_toNat_self]
  bits_ofBits p hp := by
    simp only [FM.bits, FM.ofBits, Nat.add_assoc, fld_zero_toNat, fld_toNat_mul_add_mod, Nat.reduceAdd, Nat.mod_eq_of_lt hp]

def layoutMA : Layout FMA where
  bits := FMA.bits
  ofBits := FMA.ofBits
  bits_lt f := by unfold FMA.bits; omega
  ofBits_bits f := by
    simp (disch := omega) only [FMA.ofBits, FMA.bits, Nat.add_assoc, fld_below, fld_top, fld_toNat_self]
  bits_ofBits p hp := by
    simp only [FMA.bits, FMA.ofBits, Nat.add_assoc, fld_zero_toNat, fld_toNat_mul_add_mod, Nat.reduceAdd, Nat.mod_eq_of_lt hp]

def layoutX : Layout FX where
  bits := FX.bits
  ofBits := FX.ofBits
  bits_lt f := by unfold FX.bits; omega
  ofBits_bits f := by
    simp (disch := omega) only [FX.ofBits, FX.bits, Nat.add_assoc, fld_below, fld_top, fld_toNat_self]
  bits_ofBits p hp := by
    simp only [FX.bits, FX.ofBits, Nat.add_assoc, fld_zero_toNat, fld_toNat_mul_add_mod, Nat.reduceAdd, Nat.mod_eq_of_lt hp]

def layoutB : Layout FB where
  bits := FB.bits
  ofBits := FB.ofBits
  bits_lt f := by unfold FB.bits; omega
  ofBits_bits f := by
    simp (disch := omega) only [FB.ofBits, FB.bits, Nat.add_assoc, fld_below, fld_top, fld_toNat_self]
  bits_ofBits p hp := by
    simp only [FB.bits, FB.ofBits, Nat.add_assoc, fld_zero_toNat, fld_toNat_mul_add_mod, Nat.reduceAdd, Nat.mod_eq_of_lt hp]

def layoutS : Layout FS where
  bits := FS.bits
  ofBits := FS.ofBits
  bits_lt f := by unfold FS.bits; omega
  ofBits_bits f := by
    simp (disch := omega) only [FS.ofBits, FS.bits, Nat.add_assoc, fld_below, fld_top, fld_toNat_self]
  bits_ofBits p hp := by
    simp only [FS.bits, FS.ofBits, Nat.add_assoc, fld_zero_toNat, fld_toNat_mul_add_mod, Nat.reduceAdd, Nat.mod_eq_of_lt hp]

def layoutT : Layout FT where
  bits := FT.bits
  ofBits := FT.ofBits
  bits_lt f := by unfold FT.bits; omega
  ofBits_bits f := by
    simp (disch := omega) only [FT.ofBits, FT.bits, Nat.add_assoc, fld_below, fld_top, fld_toNat_self]
  bits_ofBits p hp := by
    simp only [FT.bits, FT.ofBits, Nat.add_assoc, fld_zero_toNat, fld_toNat_mul_add_mod, Nat.reduceAdd, Nat.mod_eq_of_lt hp]

def layoutL : Layout FL where
  bits := FL.bits
  ofBits := FL.ofBits
  bits_lt f := by unfold FL.bits; omega
  ofBits_bits f := by
    simp (disch := omega) only [FL.ofBits, FL.bits, Nat.add_assoc, fld_below, fld_top, fld_toNat_self]
  bits_ofBits p hp := by
    simp only [FL.bits, FL.ofBits, Nat.add_assoc, fld_zero_toNat, fld_toNat_mul_add_mod, Nat.reduceAdd, Nat.mod_eq_of_lt hp]

/-! ## The guard and the whole word (Table 7-3) -/

@[simp] theorem guard_ofCode_code (g : Guard) : Guard.ofCode g.code = g := by
  obtain ⟨neg, p⟩ := g
  revert neg p
  decide

theorem guard_code_ofCode {c : Nat} (h : c < 16) : (Guard.ofCode c).code = c := by
  revert c
  decide

theorem guard_code_lt (g : Guard) : g.code < 16 := by
  obtain ⟨neg, p⟩ := g
  revert neg p
  decide

/-- A word is made of its major, minor, guard and fields. -/
theorem ofNat_iword (w : DWord) :
    BitVec.ofNat 64 (iword (w.toNat / 2 ^ 56) (w.toNat / 2 ^ 52 % 16) (w.toNat / 2 ^ 48 % 16) (w.toNat % 2 ^ 48)) = w := by
  apply BitVec.eq_of_toNat_eq
  rw [BitVec.toNat_ofNat, iword]
  omega

section Iword

variable {maj min g p : Nat} (hmaj : maj < 256) (hmin : min < 16) (hg : g < 16) (hp : p < 2 ^ 48)
include hmaj hmin hg hp

theorem toNat_iword : (BitVec.ofNat 64 (iword maj min g p)).toNat = iword maj min g p := by
  rw [BitVec.toNat_ofNat, iword]
  omega

theorem iword_major : (BitVec.ofNat 64 (iword maj min g p)).toNat / 2 ^ 56 = maj := by
  rw [toNat_iword hmaj hmin hg hp, iword]
  omega

theorem iword_minor : (BitVec.ofNat 64 (iword maj min g p)).toNat / 2 ^ 52 % 16 = min := by
  rw [toNat_iword hmaj hmin hg hp, iword]
  omega

theorem iword_guard : (BitVec.ofNat 64 (iword maj min g p)).toNat / 2 ^ 48 % 16 = g := by
  rw [toNat_iword hmaj hmin hg hp, iword]
  omega

theorem iword_fields : (BitVec.ofNat 64 (iword maj min g p)).toNat % 2 ^ 48 = p := by
  rw [toNat_iword hmaj hmin hg hp, iword]
  omega

end Iword

/-! ## Codes: the meaning of a code has that code, and a meaning is read from its code -/

@[simp] theorem oc_toNat {n : Nat} (x : BitVec n) : oc n x.toNat = x := by simp [oc]

@[simp] theorem ob_tb (x : BitVec 1) : ob (tb x) = x := by revert x; decide
@[simp] theorem tb_ob (b : Bool) : tb (ob b) = b := by cases b <;> rfl

@[simp] theorem ty_read (t : Ty) : Ty.ofCode (oc 3 t.code).toNat = t := by cases t <;> rfl
@[simp] theorem ty_write (x : BitVec 3) : oc 3 (Ty.ofCode x.toNat).code = x := by revert x; decide
@[simp] theorem tier_read (t : TierF) : TierF.ofCode (oc 2 t.code).toNat = t := by cases t <;> rfl
@[simp] theorem tier_write (x : BitVec 2) : oc 2 (TierF.ofCode x.toNat).code = x := by revert x; decide
@[simp] theorem rnd_read (r : Rnd) : Rnd.ofCode (oc 2 r.code).toNat = r := by cases r <;> rfl
@[simp] theorem rnd_write (x : BitVec 2) : oc 2 (Rnd.ofCode x.toNat).code = x := by revert x; decide
@[simp] theorem ord_read (o : Ord) : Ord.ofCode (oc 2 o.code).toNat = o := by cases o <;> rfl
@[simp] theorem ord_write (x : BitVec 2) : oc 2 (Ord.ofCode x.toNat).code = x := by revert x; decide
@[simp] theorem space_read (s : Space) : Space.ofCode (oc 2 s.code).toNat = s := by cases s <;> rfl
@[simp] theorem space_write (x : BitVec 2) : oc 2 (Space.ofCode x.toNat).code = x := by revert x; decide
@[simp] theorem scope_read (s : Scope) : Scope.ofCode (oc 3 s.code).toNat = s := by cases s <;> rfl
@[simp] theorem scope_ne_reserved (s : Scope) : oc 3 s.code ≠ 6#3 := by cases s <;> decide
theorem scope_write {x : BitVec 3} (h : x ≠ 6) : oc 3 (Scope.ofCode x.toNat).code = x := by revert x; decide
@[simp] theorem width_read (v : Width) : Width.ofCode (oc 3 v.code).toNat = v := by cases v <;> rfl
@[simp] theorem width_ne_reserved (v : Width) : oc 3 v.code ≠ 7#3 := by cases v <;> decide
theorem width_write {x : BitVec 3} (h : x ≠ 7) : oc 3 (Width.ofCode x.toNat).code = x := by revert x; decide
@[simp] theorem tfmt_read (m : TFmt) : TFmt.ofCode (oc 3 m.code).toNat = m := by cases m <;> rfl
@[simp] theorem tfmt_ne_reserved (m : TFmt) : oc 3 m.code ≠ 7#3 := by cases m <;> decide
theorem tfmt_write {x : BitVec 3} (h : x ≠ 7) : oc 3 (TFmt.ofCode x.toNat).code = x := by revert x; decide
@[simp] theorem icond_read (c : ICond) : ICond.ofCode (oc 4 c.code).toNat = c := by cases c <;> rfl
@[simp] theorem icond_assigned (c : ICond) : (oc 4 c.code).toNat < 6 := by cases c <;> decide
theorem icond_write {x : BitVec 4} (h : x.toNat < 6) : oc 4 (ICond.ofCode x.toNat).code = x := by revert x; decide
@[simp] theorem sreg_read (r : SReg) : SReg.ofCode (oc 8 r.code).toNat = r := by cases r <;> rfl
@[simp] theorem sreg_assigned (r : SReg) : (oc 8 r.code).toNat < 13 := by cases r <;> decide
theorem sreg_code_ofCode {c : Nat} (h : c < 13) : (SReg.ofCode c).code = c := by revert c; decide
@[simp] theorem ffmt_read (m : FFmt) : FFmt.ofCode (oc 4 m.code).toNat = m := by cases m <;> rfl
@[simp] theorem ffmt_assigned (m : FFmt) : FFmt.codeOk (oc 4 m.code).toNat = true := by cases m <;> rfl
theorem ffmt_code_ofCode {c : Nat} (hc : c < 16) (h : FFmt.codeOk c = true) : (FFmt.ofCode c).code = c := by revert c; decide
@[simp] theorem creg_read (r : CReg) : CReg.ofCode r.code = some r := by cases r <;> rfl

theorem creg_code_lt (r : CReg) : r.code < 4096 := by cases r <;> decide

theorem creg_code_of_ofCode {c : Nat} {r : CReg} (h : CReg.ofCode c = some r) : r.code = c :=
  beq_iff_eq.mp (List.find?_some (p := fun r : CReg => r.code == c) h)

end Sys2Proof.Laws

/-! SUPPORT. Each row of the opcode map keeps every bit of a word it accepts, and so does the decoder (R147, R157). -/

namespace Sys2Proof.Laws

/-! ## A row that keeps every bit of a word it accepts (R147, R157) -/

/-- The instruction that a row reads from accepted fields has the word they were read from. -/
def Writes (r : Row) : Prop :=
  ∀ g p, p < 2 ^ 48 → (r.rd g p).c3 = true → (r.rd g p).c4 = true →
    encode (r.rd g p).i = some (BitVec.ofNat 64 (iword r.maj r.min g.code p))

/-- A row over a format: what its fields spell and when they are accepted. -/
def layoutRow {F : Type} (L : Layout F) (maj min : Nat) (rd : Guard → F → Instr) (c3 : F → Bool) (c4 : Guard → F → Bool) : Row :=
  ⟨maj, min, fun g p => ⟨c3 (L.ofBits p), c4 g (L.ofBits p), rd g (L.ofBits p)⟩⟩

/-- The word of fields in a format. -/
def Layout.word {F : Type} (L : Layout F) (maj min : Nat) (g : Guard) (f : F) : Option DWord :=
  some (BitVec.ofNat 64 (iword maj min g.code (L.bits f)))

theorem writes_layoutRow {F : Type} {L : Layout F} {maj min : Nat} {rd : Guard → F → Instr} {c3 : F → Bool} {c4 : Guard → F → Bool}
    (h : ∀ g f, c3 f = true → c4 g f = true → encode (rd g f) = L.word maj min g f) : Writes (layoutRow L maj min rd c3 c4) := by
  intro g p hp h3 h4
  have hword := h g (L.ofBits p) h3 h4
  rwa [Layout.word, L.bits_ofBits p hp] at hword

section Formats

variable {maj min : Nat}

theorem rowA_eq (rd : Guard → FA → Instr) (keep : FA → FA) (c4 : FA → Bool) :
    rowA maj min rd keep c4 = layoutRow layoutA maj min rd (fun _ => true) (fun _ f => decide (f = keep f) && c4 f) := rfl

theorem rowI_eq (rd : Guard → FI → Instr) (c4 : FI → Bool) :
    rowI maj min rd c4 = layoutRow layoutI maj min rd (fun _ => true) (fun _ => c4) := rfl

theorem rowM_eq (rd : Guard → FM → Instr) (c3 c4 : FM → Bool) :
    rowM maj min rd c3 c4 = layoutRow layoutM maj min rd (fun f => f.scope != 6 && c3 f) (fun _ => c4) := rfl

theorem rowMz_eq (rd : Guard → FM → Instr) (c4 : FM → Bool) :
    rowMz maj min rd c4 = layoutRow layoutM maj min rd (fun _ => true) (fun _ => c4) := rfl

theorem rowMA_eq (rd : Guard → FMA → Instr) (c4 : FMA → Bool) :
    rowMA maj min rd c4 = layoutRow layoutMA maj min rd (fun f => f.scope != 6) (fun _ f => f.z == 0 && c4 f) := rfl

theorem rowX_eq (rd : Guard → FX → Instr) (c4 : FX → Bool) :
    rowX maj min rd c4 = layoutRow layoutX maj min rd (fun _ => true) (fun _ f => f.z1 == 0 && c4 f) := rfl

theorem rowB_eq (rd : Guard → FB → Instr) (c4 : FB → Bool) :
    rowB maj min rd c4 = layoutRow layoutB maj min rd (fun _ => true) (fun _ f => f.z == 0 && c4 f) := rfl

theorem rowS_eq (rd : Guard → FS → Instr) (c4 : FS → Bool) :
    rowS maj min rd c4 = layoutRow layoutS maj min rd (fun _ => true) (fun _ => c4) := rfl

theorem rowT_eq (rd : FT → Instr) (c4 : FT → Bool) :
    rowT maj rd c4 = layoutRow layoutT maj 0 (fun _ => rd) (fun _ => true) (fun g f => g == Guard.always && c4 f) := rfl

theorem rowL_eq (rd : FL → Instr) (c4 : FL → Bool) :
    rowL maj rd c4 = layoutRow layoutL maj 0 (fun _ => rd) (fun _ => true) (fun g f => g == Guard.always && f.z == 0 && c4 f) := rfl

theorem writes_rowA {rd : Guard → FA → Instr} {keep : FA → FA} {c4 : FA → Bool}
    (h : ∀ g f, c4 (keep f) = true → encode (rd g (keep f)) = enA maj min g (keep f)) : Writes (rowA maj min rd keep c4) := by
  rw [rowA_eq]
  refine writes_layoutRow fun g f _ h4 => ?_
  obtain ⟨hkeep, hc⟩ := Bool.and_eq_true_iff.mp h4
  have hf := h g f
  rw [← of_decide_eq_true hkeep] at hf
  exact hf hc

theorem writes_rowI {rd : Guard → FI → Instr} {c4 : FI → Bool}
    (h : ∀ g f, c4 f = true → encode (rd g f) = enI maj min g f) : Writes (rowI maj min rd c4) := by
  rw [rowI_eq]
  exact writes_layoutRow fun g f _ h4 => h g f h4

theorem writes_rowM {rd : Guard → FM → Instr} {c3 c4 : FM → Bool}
    (h : ∀ g f, f.scope ≠ 6 → c3 f = true → c4 f = true → encode (rd g f) = enM maj min g f) : Writes (rowM maj min rd c3 c4) := by
  rw [rowM_eq]
  refine writes_layoutRow fun g f h3 h4 => ?_
  obtain ⟨hscope, hc⟩ := Bool.and_eq_true_iff.mp h3
  exact h g f (bne_iff_ne.mp hscope) hc h4

theorem writes_rowMz {rd : Guard → FM → Instr} {c4 : FM → Bool}
    (h : ∀ g f, c4 f = true → encode (rd g f) = enM maj min g f) : Writes (rowMz maj min rd c4) := by
  rw [rowMz_eq]
  exact writes_layoutRow fun g f _ h4 => h g f h4

theorem writes_rowMA {rd : Guard → FMA → Instr} {c4 : FMA → Bool}
    (h : ∀ g f, f.scope ≠ 6 → f.z = 0 → c4 f = true → encode (rd g f) = enMA maj min g f) : Writes (rowMA maj min rd c4) := by
  rw [rowMA_eq]
  refine writes_layoutRow fun g f h3 h4 => ?_
  obtain ⟨hz, hc⟩ := Bool.and_eq_true_iff.mp h4
  exact h g f (bne_iff_ne.mp h3) (beq_iff_eq.mp hz) hc

theorem writes_rowX {rd : Guard → FX → Instr} {c4 : FX → Bool}
    (h : ∀ g f, f.z1 = 0 → c4 f = true → encode (rd g f) = enX maj min g f) : Writes (rowX maj min rd c4) := by
  rw [rowX_eq]
  refine writes_layoutRow fun g f _ h4 => ?_
  obtain ⟨hz, hc⟩ := Bool.and_eq_true_iff.mp h4
  exact h g f (beq_iff_eq.mp hz) hc

theorem writes_rowB {rd : Guard → FB → Instr} {c4 : FB → Bool}
    (h : ∀ g f, f.z = 0 → c4 f = true → encode (rd g f) = enB maj min g f) : Writes (rowB maj min rd c4) := by
  rw [rowB_eq]
  refine writes_layoutRow fun g f _ h4 => ?_
  obtain ⟨hz, hc⟩ := Bool.and_eq_true_iff.mp h4
  exact h g f (beq_iff_eq.mp hz) hc

theorem writes_rowS {rd : Guard → FS → Instr} {c4 : FS → Bool}
    (h : ∀ g f, c4 f = true → encode (rd g f) = enS maj min g f) : Writes (rowS maj min rd c4) := by
  rw [rowS_eq]
  exact writes_layoutRow fun g f _ h4 => h g f h4

theorem writes_rowT {rd : FT → Instr} {c4 : FT → Bool} (h : ∀ f, c4 f = true → encode (rd f) = enT maj f) :
    Writes (rowT maj rd c4) := by
  rw [rowT_eq]
  refine writes_layoutRow fun g f _ h4 => ?_
  obtain ⟨hg, hc⟩ := Bool.and_eq_true_iff.mp h4
  rw [beq_iff_eq.mp hg]
  exact h f hc

theorem writes_rowL {rd : FL → Instr} {c4 : FL → Bool} (h : ∀ f, f.z = 0 → c4 f = true → encode (rd f) = enL maj f) :
    Writes (rowL maj rd c4) := by
  rw [rowL_eq]
  refine writes_layoutRow fun g f _ h4 => ?_
  obtain ⟨hgz, hc⟩ := Bool.and_eq_true_iff.mp h4
  obtain ⟨hg, hz⟩ := Bool.and_eq_true_iff.mp hgz
  rw [beq_iff_eq.mp hg]
  exact h f (beq_iff_eq.mp hz) hc

end Formats

/-! ### Fields that hold predicates, flags and small numbers -/

theorem setWidth_pr {x : BitVec 8} (h : prOk x = true) : (pr x).setWidth 8 = x := by revert x; decide

@[simp] theorem pr_setWidth (p : BitVec 3) : pr (p.setWidth 8) = p := by revert p; decide
@[simp] theorem prOk_setWidth (p : BitVec 3) : prOk (p.setWidth 8) = true := by revert p; decide

theorem bnum_bit_zero {n : Nat} (h : n < 2) : bnum (bit n 0) = n := by revert n; decide

theorem bnum_bit_pair {n : Nat} (h : n < 4) : bnum (bit n 0) + 2 * bnum (bit n 1) = n := by revert n; decide

/-- A field of one assigned bit. -/
theorem ite_bit_zero {n : Nat} {x : BitVec n} (h : x.toNat < 2) : (if bit x.toNat 0 then 1#n else 0#n) = x := by
  apply BitVec.eq_of_toNat_eq
  have hx := bnum_bit_zero h
  have hlt := x.isLt
  unfold bnum at hx
  split <;> simp_all

/-! ### Integer, logic, move and predicate rows (Table 8-1) -/

section Int

variable {maj : Nat}

theorem eRR_of_fields (g : Guard) (f : FA) : eRR maj ⟨g, f.tyOf, tb f.sat, f.d, f.a, f.b⟩ = enA maj 0 g (kRRsat f) := by
  simp [eRR, kRRsat, FA.tyOf]

theorem eRRR_of_fields (g : Guard) (f : FA) : eRRR maj ⟨g, f.tyOf, tb f.sat, f.d, f.a, f.b, f.c⟩ = enA maj 0 g (kRRRsat f) := by
  simp [eRRR, kRRRsat, FA.tyOf]

theorem eR_of_fields (g : Guard) (f : FA) : eR maj ⟨g, f.tyOf, tb f.sat, f.d, f.a⟩ = enA maj 0 g (kRsat f) := by
  simp [eR, kRsat, FA.tyOf]

theorem writes_rRRsat {mk : IntRR → Instr} (h : ∀ x, encode (mk x) = eRR maj x) : Writes (rowA maj 0 (rRR mk) kRRsat) :=
  writes_rowA fun g f _ => (h _).trans (eRR_of_fields g (kRRsat f))

theorem writes_rRR {mk : IntRR → Instr} (h : ∀ x, encode (mk x) = eRR maj x) : Writes (rowA maj 0 (rRR mk) kRR) :=
  writes_rowA fun g f _ => (h _).trans (eRR_of_fields g (kRR f))

theorem writes_rRRRsat {mk : IntRRR → Instr} (h : ∀ x, encode (mk x) = eRRR maj x) : Writes (rowA maj 0 (rRRR mk) kRRRsat) :=
  writes_rowA fun g f _ => (h _).trans (eRRR_of_fields g (kRRRsat f))

theorem writes_rRRR {mk : IntRRR → Instr} (h : ∀ x, encode (mk x) = eRRR maj x) : Writes (rowA maj 0 (rRRR mk) kRRR) :=
  writes_rowA fun g f _ => (h _).trans (eRRR_of_fields g (kRRR f))

theorem writes_rRsat {mk : IntR → Instr} (h : ∀ x, encode (mk x) = eR maj x) : Writes (rowA maj 0 (rR mk) kRsat) :=
  writes_rowA fun g f _ => (h _).trans (eR_of_fields g (kRsat f))

theorem writes_rR {mk : IntR → Instr} (h : ∀ x, encode (mk x) = eR maj x) : Writes (rowA maj 0 (rR mk) kR) :=
  writes_rowA fun g f _ => (h _).trans (eR_of_fields g (kR f))

theorem writes_rRI {mk : IntRI → Instr} (h : ∀ x, encode (mk x) = eRI maj x) (t : Ty) (c4 : FI → Bool) :
    Writes (rowI maj (immMinor t) (rRI mk t) c4) :=
  writes_rowI fun _ _ _ => h _

theorem writes_rowsImm {mk : IntRI → Instr} (h : ∀ x, encode (mk x) = eRI maj x) (b32 : Bool) : ∀ r ∈ rowsImm maj mk b32, Writes r := by
  simp only [rowsImm, List.forall_mem_cons]
  exact ⟨writes_rRI h .s32 _, writes_rRI h .n32 _, writes_rRI h .s64 _, writes_rRI h .n64 _, writes_rRI h .b32 _, List.forall_mem_nil _⟩

end Int

theorem oc_isetImm {x : BitVec 8} (hc : x.toNat / 16 < 6) (hz : x.toNat / 8 % 2 = 0) :
    oc 8 ((ICond.ofCode (x.toNat / 16)).code * 16 + (x.setWidth 3 : BitVec 3).toNat) = x := by
  revert x; decide

theorem writes_isetImm {t : Ty} : Writes (rowI 0x13 (immMinor t) (isetImmRd t) isetImmOk) :=
  writes_rowI fun g f hc => by
    obtain ⟨hcond, hz⟩ := Bool.and_eq_true_iff.mp hc
    have hd := oc_isetImm (of_decide_eq_true hcond) (of_decide_eq_true hz)
    exact congrArg (fun d => enI 0x13 (immMinor t) g ⟨d, f.a, f.imm⟩) hd

theorem ite_signed {x : BitVec 3} (h : x.toNat < 2) : (if x = 0#3 then 0#3 else 1#3) = x := by revert x; decide

theorem fld_plog {a : BitVec 3} {b c : BitVec 2} {d : BitVec 1} :
    let tt : BitVec 8 := oc 8 (a.toNat * 32 + b.toNat * 8 + c.toNat * 2 + d.toNat)
    fld tt.toNat 5 3 = a ∧ fld tt.toNat 3 2 = b ∧ fld tt.toNat 1 2 = c ∧ fld tt.toNat 0 1 = d := by
  revert a b c d; decide

theorem writes_rowsInt : ∀ r ∈ rowsInt, Writes r := by
  simp only [rowsInt, List.forall_mem_append, List.forall_mem_cons]
  refine ⟨⟨⟨⟨⟨⟨⟨⟨⟨⟨⟨⟨⟨writes_rRRsat fun _ => rfl, writes_rRRsat fun _ => rfl, writes_rRRsat fun _ => rfl, writes_rRR fun _ => rfl,
    writes_rRRRsat fun _ => rfl, writes_rRR fun _ => rfl, writes_rRR fun _ => rfl, writes_rRsat fun _ => rfl, writes_rRR fun _ => rfl,
    writes_rRR fun _ => rfl, writes_rRR fun _ => rfl, writes_rRR fun _ => rfl, writes_rRR fun _ => rfl, writes_rRR fun _ => rfl,
    writes_rRR fun _ => rfl, writes_rRRR fun _ => rfl, writes_rR fun _ => rfl, writes_rR fun _ => rfl, writes_rR fun _ => rfl, ?iset,
    ?sel, writes_rR fun _ => rfl, writes_rowA fun _ _ _ => rfl, writes_rowA fun _ _ _ => rfl, ?lea, ?plog, ?pmov, ?movs, ?movi,
    ?movi64, writes_rowA fun _ _ _ => rfl, List.forall_mem_nil _⟩, writes_rowsImm (fun _ => rfl) true⟩,
    writes_rowsImm (fun _ => rfl) true⟩, writes_rowsImm (fun _ => rfl) true⟩, writes_rowsImm (fun _ => rfl) false⟩,
    writes_rowsImm (fun _ => rfl) false⟩, writes_rowsImm (fun _ => rfl) true⟩, writes_rowsImm (fun _ => rfl) true⟩,
    writes_rowsImm (fun _ => rfl) true⟩, writes_rowsImm (fun _ => rfl) true⟩, writes_rowsImm (fun _ => rfl) true⟩,
    writes_rowsImm (fun _ => rfl) true⟩, writes_isetImm (t := .s32), writes_isetImm (t := .n32), writes_isetImm (t := .s64),
    writes_isetImm (t := .n64), ?isetB32, List.forall_mem_nil _⟩
  case iset =>
    refine writes_rowA fun g f hc => congrArg (enA 0x13 0 g) ?_
    obtain ⟨hp, hcond⟩ := Bool.and_eq_true_iff.mp hc
    simp [kRR, FA.tyOf, FA.zero, setWidth_pr (x := f.d) hp, icond_write (x := f.sub) (of_decide_eq_true hcond)]
  case sel => exact writes_rowA fun g f hc => congrArg (enA 0x14 0 g) (by simp [kRRR, FA.tyOf, setWidth_pr (x := f.c) hc])
  case lea =>
    refine writes_rowA fun g f hc => congrArg (enA 0x16 0 g) ?_
    simp [kRR, FA.zero, ite_signed (x := f.ty) (of_decide_eq_true hc)]
  case plog =>
    refine writes_rowA fun g f hc => congrArg (enA 0x17 0 g) ?_
    obtain ⟨⟨⟨hp, ha⟩, hb⟩, hq⟩ := by simpa only [Bool.and_eq_true] using hc
    obtain ⟨hty, htier, hrnd, hsat⟩ := fld_plog (a := f.ty) (b := f.tier) (c := f.rnd) (d := f.sat)
    simp [hty, htier, hrnd, hsat, FA.zero, setWidth_pr (x := f.d) hp, setWidth_pr (x := f.a) ha, setWidth_pr (x := f.b) hb,
      setWidth_pr (x := f.c) hq]
  case pmov =>
    refine writes_rowA fun g f hc => ?_
    dsimp only at hc ⊢
    split at hc <;> rename_i hsub
    · rw [if_pos hsub, hsub, beq_iff_eq.mp hc]; rfl
    · obtain ⟨ha, hzero⟩ := Bool.and_eq_true_iff.mp hc
      rw [if_neg hsub, beq_iff_eq.mp ha, beq_iff_eq.mp hzero]; rfl
  case movs =>
    refine writes_rowA fun g f hc => congrArg (enA 0x19 0 g) ?_
    simp [kDA, sreg_code_ofCode (c := f.a.toNat) (of_decide_eq_true hc)]
  case movi => exact writes_rowI fun g f hc => by rw [enI, FI.bits, beq_iff_eq.mp hc]; rfl
  case movi64 => exact writes_rowI fun g f hc => by rw [enI, FI.bits, beq_iff_eq.mp hc]; rfl
  case isetB32 => exact writes_rowI fun _ _ hc => nomatch hc

/-! ### Floating and conversion rows (Table 8-5, R181-R191) -/

section Flt

variable {maj : Nat}

theorem writes_rFlt {mk : FltRR → Instr} (h : ∀ x, encode (mk x) = eFlt maj x) : Writes (rowA maj 0 (rFlt mk) kFlt) :=
  writes_rowA fun g f _ => (h _).trans (congrArg (enA maj 0 g) (by simp [kFlt, FA.tyOf, FA.tierOf, FA.rndOf, FA.mods]))

theorem writes_rMM {mk : FltMM → Instr} (h : ∀ x, encode (mk x) = eMM maj x) : Writes (rowA maj 0 (rMM mk) kMM) :=
  writes_rowA fun g f _ => (h _).trans (congrArg (enA maj 0 g) (by simp [kMM, FA.tyOf, FA.mods]))

theorem writes_rU {mk : FltU → Instr} (h : ∀ x, encode (mk x) = eU maj x) : Writes (rowA maj 0 (rU mk) kU) :=
  writes_rowA fun g f _ => (h _).trans (congrArg (enA maj 0 g) (by simp [kU, FA.tyOf, FA.tierOf, FA.rndOf]))

end Flt

theorem oc_fset (x : BitVec 4) : oc 4 (bnum (bit x.toNat 3) * 8 + (FCond.ofCode (x.toNat % 8)).code) = x := by revert x; decide

theorem writes_rowsFlt : ∀ r ∈ rowsFlt, Writes r := by
  simp only [rowsFlt, List.forall_mem_cons]
  refine ⟨writes_rFlt fun _ => rfl, writes_rFlt fun _ => rfl, writes_rFlt fun _ => rfl, ?ffma, writes_rMM fun _ => rfl,
    writes_rMM fun _ => rfl, ?fset, writes_rU fun _ => rfl, writes_rU fun _ => rfl, writes_rU fun _ => rfl, writes_rU fun _ => rfl,
    writes_rU fun _ => rfl, writes_rU fun _ => rfl, ?fscl, ?fcls, List.forall_mem_nil _⟩
  case ffma =>
    exact writes_rowA fun g f _ => congrArg (enA 0x33 0 g) (by simp [kFlt3, FA.tyOf, FA.tierOf, FA.rndOf, FA.mods])
  case fset =>
    refine writes_rowA fun g f hc => congrArg (enA 0x36 0 g) ?_
    obtain ⟨⟨hp, hq⟩, -⟩ := by simpa only [Bool.and_eq_true] using hc
    simp [FA.tyOf, FA.mods, oc_fset, setWidth_pr (x := f.d) hp, setWidth_pr (x := f.c) hq]
  case fscl => exact writes_rowA fun g f _ => congrArg (enA 0x3D 0 g) (by simp [kScl, FA.tyOf, FA.rndOf])
  case fcls => exact writes_rowA fun g f _ => congrArg (enA 0x3E 0 g) (by simp [kR, FA.tyOf])

theorem oc_ffmt {x : BitVec 4} (h : FFmt.codeOk x.toNat = true) : oc 4 (FFmt.ofCode x.toNat).code = x := by
  rw [ffmt_code_ofCode x.isLt h, oc_toNat]

theorem oc_ffmt_pair {x : BitVec 8} (hs : FFmt.codeOk (x.toNat / 16) = true) (hd : FFmt.codeOk (x.toNat % 16) = true) :
    oc 8 ((FFmt.ofCode (x.toNat / 16)).code * 16 + (FFmt.ofCode (x.toNat % 16)).code) = x := by
  rw [ffmt_code_ofCode (by omega) hs, ffmt_code_ofCode (by omega) hd, Nat.div_add_mod', oc_toNat]

theorem writes_rowsCvt : ∀ r ∈ rowsCvt, Writes r := by
  simp only [rowsCvt, List.forall_mem_cons]
  refine ⟨?cvt, ?f2i, ?i2f, ?qnt, ?qntOl, ?dqnt, ?pk4, ?upk4, List.forall_mem_nil _⟩
  case cvt =>
    refine writes_rowA fun g f hc => congrArg (enA 0x40 0 g) ?_
    obtain ⟨hsrc, hdst⟩ := Bool.and_eq_true_iff.mp hc
    simp [FA.zero, FA.rndOf, oc_ffmt_pair (x := f.b) hsrc hdst]
  case f2i =>
    exact writes_rowA fun g f hc => congrArg (enA 0x41 0 g) (by simp [kU, FA.zero, FA.tyOf, FA.rndOf, oc_ffmt (x := f.sub) hc])
  case i2f =>
    exact writes_rowA fun g f hc => congrArg (enA 0x41 1 g) (by simp [kU, FA.zero, FA.tyOf, FA.rndOf, oc_ffmt (x := f.sub) hc])
  case qnt =>
    refine writes_rowA fun g f hc => congrArg (enA 0x42 0 g) ?_
    simp [kRRR, FA.zero, FA.rndOf, show f.ty = 4 from beq_iff_eq.mp hc]
  case qntOl =>
    refine writes_rowA fun g f hc => congrArg (enA 0x42 1 g) ?_
    simp [kRRR, FA.zero, FA.rndOf, show f.ty = 4 from beq_iff_eq.mp hc]
  case dqnt =>
    refine writes_rowA fun g f hc => congrArg (enA 0x43 0 g) ?_
    obtain ⟨hty, hsub⟩ := Bool.and_eq_true_iff.mp hc
    simp [kRR, FA.zero, show f.ty = 4 from beq_iff_eq.mp hty, ite_bit_zero (x := f.sub) (of_decide_eq_true hsub)]
  case pk4 => exact writes_rowA fun g f hc => congrArg (enA 0x44 0 g) (by simp [kRR, FA.zero, show f.ty = 7 from beq_iff_eq.mp hc])
  case upk4 =>
    refine writes_rowA fun g f hc => congrArg (enA 0x45 0 g) ?_
    obtain ⟨hty, hsub⟩ := Bool.and_eq_true_iff.mp hc
    simp [kR, FA.zero, ite_signed (x := f.ty) (of_decide_eq_true hty), ite_bit_zero (x := f.sub) (of_decide_eq_true hsub)]

/-! ### Bound, budget and flag rows (Table 8-8) -/

theorem ite_f32 {x : BitVec 3} (h : (x == 4 || x == 7) = true) : (if x = 4#3 then 4#3 else 7#3) = x := by revert x; decide

theorem oc_bchk {x : BitVec 4} (h1 : (!bit x.toNat 1) = true) (h3 : (!bit x.toNat 3) = true) :
    oc 4 (bnum (bit x.toNat 0) + 4 * bnum (bit x.toNat 2)) = x := by revert x; decide

theorem writes_rowsBnd : ∀ r ∈ rowsBnd, Writes r := by
  simp only [rowsBnd, List.forall_mem_cons]
  refine ⟨?brd, ?braise, writes_rowA fun _ _ _ => rfl, ?budgetImm, ?bchk, writes_rowA fun _ _ _ => rfl, writes_rowA fun _ _ _ => rfl,
    List.forall_mem_nil _⟩
  case brd =>
    exact writes_rowA fun g f hc => congrArg (enA 0x60 0 g) (by simp [kDA, FA.zero, ite_bit_zero (x := f.sub) (of_decide_eq_true hc)])
  case braise =>
    refine writes_rowA fun g f hc => congrArg (enA 0x61 0 g) ?_
    obtain ⟨hty, hsub⟩ := Bool.and_eq_true_iff.mp hc
    simp [kRR, FA.zero, ite_f32 (x := f.ty) hty, bnum_bit_pair (n := f.sub.toNat) (of_decide_eq_true hsub)]
  case budgetImm =>
    refine writes_rowI fun g ⟨d, a, imm⟩ hc => congrArg (enI 0x62 1 g) ?_
    simp only [Bool.and_eq_true, beq_iff_eq] at hc
    obtain ⟨rfl, rfl⟩ := hc
    rfl
  case bchk =>
    refine writes_rowA fun g f hc => congrArg (enA 0x63 0 g) ?_
    obtain ⟨⟨hp, h1⟩, h3⟩ := by simpa only [Bool.and_eq_true] using hc
    simp [FA.zero, oc_bchk (x := f.sub) h1 h3, setWidth_pr (x := f.d) hp]

/-! ### Memory, stash, atomic, count-object and barrier rows (Tables 9-1, 9-3, R210, R213, R218) -/

theorem writes_mem {maj : Nat} {mk : MemOps → Instr} (h : ∀ x, encode (mk x) = eMem maj x) :
    Writes (rowM maj 0 (mem mk) (fun f => f.w != 7)) :=
  writes_rowM fun g f hscope hw _ => (h _).trans (congrArg (enM maj 0 g) (by simp [scope_write hscope, width_write (bne_iff_ne.mp hw)]))

theorem writes_allRd {maj : Nat} {mk : RangeOps → Instr} {all : Guard → Instr} (h : ∀ x, encode (mk x) = eRange maj x)
    (hall : ∀ g, encode (all g) = eAll maj g) : Writes (rowS maj 0 (allRd mk all) allOk) := by
  refine writes_rowS fun g ⟨d, a, b3, lo⟩ hc => ?_
  simp only [allOk, Bool.and_eq_true, Bool.or_eq_true, beq_iff_eq] at hc
  obtain ⟨rfl, rfl | ⟨⟨rfl, rfl⟩, rfl⟩⟩ := hc
  · exact h _
  · exact hall g

theorem writes_daRd {maj : Nat} {mk : OpDA → Instr} (h : ∀ x, encode (mk x) = eDA maj x) : Writes (rowS maj 0 (daRd mk) daOk) := by
  refine writes_rowS fun g f hc => (h _).trans (congrArg (enS maj 0 g) ?_)
  obtain ⟨hb, hlo⟩ := Bool.and_eq_true_iff.mp hc
  rw [← beq_iff_eq.mp hb, ← beq_iff_eq.mp hlo]

theorem writes_atomRd {maj : Nat} {mk : AtomOps → Instr} (h : ∀ x, encode (mk x) = eAtom maj x) (op : AOp) :
    Writes (rowMA maj op.code (atomRd mk op) (fun f => f.c == 0)) := by
  refine writes_rowMA fun g f hscope hz hc => (h _).trans (congrArg (enMA maj op.code g) ?_)
  simp [scope_write hscope, ← hz, ← beq_iff_eq.mp hc]

theorem writes_cobjRd {maj min : Nat} {mk : CobjOps → Instr} (h : ∀ x, encode (mk x) = eCobj maj min x) :
    Writes (rowMA maj min (cobjRd mk) cobjOk) := by
  refine writes_rowMA fun g ⟨d, a, b, c, z, ord, scope, evc, space, rp, ty⟩ hscope hz hc => (h _).trans (congrArg (enMA maj min g) ?_)
  simp only [cobjOk, Bool.and_eq_true, Bool.or_eq_true, beq_iff_eq] at hc hz
  obtain ⟨⟨rfl, rfl⟩, rfl | rfl⟩ := hc <;> simp [scope_write hscope, hz]

theorem setWidth_nibble {x : BitVec 8} (h : decide (x.toNat < 16) = true) : (x.setWidth 4 : BitVec 4).setWidth 8 = x := by
  revert x; decide

theorem writes_barRd {maj : Nat} {mk : BarOps → Instr} (h : ∀ x, encode (mk x) = eBar maj x) : Writes (rowS maj 0 (barRd mk) barOk) := by
  refine writes_rowS fun g ⟨b5, b4, b3, lo⟩ hc => (h _).trans (congrArg (enS maj 0 g) ?_)
  simp only [barOk, Bool.and_eq_true, beq_iff_eq] at hc
  obtain ⟨⟨⟨hb, rfl⟩, rfl⟩, rfl⟩ := hc
  rw [setWidth_nibble hb]

theorem ite_stash {x : BitVec 2} (h : x.toNat < 2) : (if x = 1#2 then 1#2 else 0#2) = x := by revert x; decide

theorem writes_rowsMem : ∀ r ∈ rowsMem, Writes r := by
  simp only [rowsMem, List.forall_mem_cons]
  refine ⟨writes_mem fun _ => rfl, writes_mem fun _ => rfl, ?pref, ?smap, writes_allRd (fun _ => rfl) (fun _ => rfl),
    writes_allRd (fun _ => rfl) (fun _ => rfl), ?cwb,
    writes_atomRd (fun _ => rfl) .add, writes_atomRd (fun _ => rfl) .min, writes_atomRd (fun _ => rfl) .max,
    writes_atomRd (fun _ => rfl) .and, writes_atomRd (fun _ => rfl) .or, writes_atomRd (fun _ => rfl) .xor,
    writes_atomRd (fun _ => rfl) .exch, ?acas,
    writes_atomRd (fun _ => rfl) .add, writes_atomRd (fun _ => rfl) .min, writes_atomRd (fun _ => rfl) .max,
    writes_atomRd (fun _ => rfl) .and, writes_atomRd (fun _ => rfl) .or, writes_atomRd (fun _ => rfl) .xor,
    ?fence, ?fenceJ, writes_cobjRd fun _ => rfl, writes_cobjRd fun _ => rfl, writes_cobjRd fun _ => rfl, writes_cobjRd fun _ => rfl,
    writes_cobjRd fun _ => rfl, ?crd, writes_barRd fun _ => rfl, writes_barRd fun _ => rfl, writes_barRd fun _ => rfl,
    writes_barRd fun _ => rfl, List.forall_mem_nil _⟩
  case pref =>
    refine writes_rowM fun g ⟨d, a, ofs, ord, scope, evc, space, rp, w⟩ _ h3 h4 => congrArg (enM 0x72 0 g) ?_
    simp only [Bool.and_eq_true, beq_iff_eq, decide_eq_true_eq] at h3 h4
    obtain ⟨⟨⟨rfl, rfl⟩, rfl⟩, rfl⟩ := h3
    obtain ⟨rfl, hspace⟩ := h4
    simp [ite_stash hspace]
  case smap =>
    refine writes_rowS fun g ⟨b5, b4, b3, lo⟩ hc => ?_
    simp only [Bool.or_eq_true, beq_iff_eq] at hc
    obtain rfl | rfl := hc <;> rfl
  case cwb =>
    refine writes_rowS fun g f hc => congrArg (enS 0x76 0 g) ?_
    obtain ⟨hb, hlo⟩ := Bool.and_eq_true_iff.mp hc
    rw [← beq_iff_eq.mp hb, ← beq_iff_eq.mp hlo]
  case acas =>
    exact writes_rowMA fun g f hscope hz _ => congrArg (enMA 0x81 0 g) (by simp [scope_write hscope, ← hz])
  case fence =>
    refine writes_rowM fun g ⟨d, a, ofs, ord, scope, evc, space, rp, w⟩ hscope h3 h4 => congrArg (enM 0x90 0 g) ?_
    simp only [Bool.and_eq_true, beq_iff_eq] at h3 h4
    obtain ⟨rfl, rfl⟩ := h3
    obtain ⟨⟨⟨⟨rfl, rfl⟩, rfl⟩, rfl⟩, rfl⟩ := h4
    simp [scope_write hscope]
  case fenceJ =>
    refine writes_rowM fun g ⟨d, a, ofs, ord, scope, evc, space, rp, w⟩ hscope h3 h4 => congrArg (enM 0x90 1 g) ?_
    simp only [Bool.and_eq_true, beq_iff_eq] at h3 h4
    obtain ⟨⟨rfl, rfl⟩, rfl⟩ := h3
    obtain ⟨⟨⟨⟨rfl, rfl⟩, rfl⟩, rfl⟩, rfl⟩ := h4
    simp [scope_write hscope]
  case crd =>
    refine writes_rowMA fun g ⟨d, a, b, c, z, ord, scope, evc, space, rp, ty⟩ hscope hz hc => congrArg (enMA 0x94 0 g) ?_
    simp only [Bool.and_eq_true, beq_iff_eq] at hc hz
    obtain ⟨⟨rfl, rfl⟩, rfl⟩ := hc
    simp [scope_write hscope, hz]

/-! ### Mask, vote, shuffle, warp-reduce and generator rows (R219-R229) -/

theorem writes_maskRd {maj : Nat} {mk : MaskOps → Instr} (h : ∀ x, encode (mk x) = eMask maj x) :
    Writes (rowS maj 0 (maskRd mk) (fun f => maskOk f && f.b5 == 0 && f.b4 == 0)) := by
  refine writes_rowS fun g ⟨b5, b4, b3, lo⟩ hc => (h _).trans (congrArg (enS maj 0 g) ?_)
  simp only [maskOk, Bool.and_eq_true, beq_iff_eq] at hc
  obtain ⟨⟨⟨hb, rfl⟩, rfl⟩, rfl⟩ := hc
  rw [setWidth_nibble hb]

theorem writes_vote (k : VoteKind) :
    Writes (rowA 0xA5 k.code (fun g f => .vote ⟨g, k, f.d, pr f.a⟩) kDA (fun f => prOk f.a)) :=
  writes_rowA fun g f hc => congrArg (enA 0xA5 k.code g) (by simp [kDA, setWidth_pr (x := f.a) hc])

theorem ite_wide {x : BitVec 3} (h : (x == 7 || x == 3) = true) : (if x = 3#3 then 3#3 else 7#3) = x := by revert x; decide

theorem writes_shfl (k : ShflKind) :
    Writes (rowA 0xA6 k.code (fun g f => .shfl ⟨g, k, f.ty == 3, f.d, f.a, f.b⟩) kRR (c4 := fun f => f.ty == 7 || f.ty == 3)) :=
  writes_rowA fun g f hc => congrArg (enA 0xA6 k.code g) (by simp [kRR, ite_wide (x := f.ty) hc])

theorem writes_wred (op : AOp) : Writes (rowA 0xA7 op.code (fun g f => .wred ⟨g, op, f.tyOf, f.d, f.a⟩) kR) :=
  writes_rowA fun g f _ => congrArg (enA 0xA7 op.code g) (by simp [kR, FA.tyOf])

/-- GEN's threshold stands in [39:34] (Table 9-6). -/
theorem oc_threshold {x : BitVec 8} (h : x.toNat % 4 = 0) : oc 8 ((fld x.toNat 2 6).toNat * 4) = x := by
  apply BitVec.eq_of_toNat_eq
  simp only [oc, fld, BitVec.toNat_ofNat]
  omega

theorem fld_producer (x : BitVec 8) (y : BitVec 24) : fld (oc 16 (x.toNat * 256 + y.toNat / 65536)).toNat 8 8 = x := by
  apply BitVec.eq_of_toNat_eq
  simp only [oc, fld, BitVec.toNat_ofNat]
  omega

theorem oc_producer_consumer (x : BitVec 8) (y : BitVec 24) :
    oc 24 ((oc 16 (x.toNat * 256 + y.toNat / 65536)).toNat % 256 * 65536 + (y.setWidth 16).toNat) = y := by
  apply BitVec.eq_of_toNat_eq
  simp only [oc, BitVec.toNat_ofNat, BitVec.toNat_setWidth]
  omega

theorem writes_rowsWarp : ∀ r ∈ rowsWarp, Writes r := by
  simp only [rowsWarp, List.forall_mem_cons]
  refine ⟨writes_maskRd fun _ => rfl, writes_maskRd fun _ => rfl, writes_maskRd fun _ => rfl, ?mrd, ?mwr, writes_vote .all,
    writes_vote .any, writes_vote .bal, writes_shfl .idx, writes_shfl .up, writes_shfl .dn, writes_shfl .bfly, writes_wred .add,
    writes_wred .min, writes_wred .max, writes_wred .and, writes_wred .or, writes_wred .xor, ?gen, ?yld, ?gend, ?take, ?gstat,
    List.forall_mem_nil _⟩
  case mrd =>
    refine writes_rowS fun g ⟨b5, b4, b3, lo⟩ hc => congrArg (enS 0xA3 0 g) ?_
    simp only [maskOk, Bool.and_eq_true, beq_iff_eq] at hc
    obtain ⟨⟨hb, rfl⟩, rfl⟩ := hc
    rw [setWidth_nibble hb]
  case mwr =>
    refine writes_rowS fun g ⟨b5, b4, b3, lo⟩ hc => congrArg (enS 0xA4 0 g) ?_
    simp only [maskOk, Bool.and_eq_true, beq_iff_eq] at hc
    obtain ⟨⟨hb, rfl⟩, rfl⟩ := hc
    rw [setWidth_nibble hb]
  case gen =>
    refine writes_rowS fun g f hc => congrArg (enS 0xA8 0 g) ?_
    simp only [oc_threshold (of_decide_eq_true hc), fld_producer, oc_producer_consumer]
  case yld =>
    refine writes_rowS fun g ⟨b5, b4, b3, lo⟩ hc => congrArg (enS 0xA9 0 g) ?_
    simp only [Bool.and_eq_true, beq_iff_eq, decide_eq_true_eq] at hc
    obtain ⟨rfl, hlo⟩ := hc
    simp [ite_bit_zero hlo]
  case gend =>
    refine writes_rowS fun g ⟨b5, b4, b3, lo⟩ hc => congrArg (enS 0xAA 0 g) ?_
    simp only [Bool.and_eq_true, beq_iff_eq] at hc
    obtain ⟨⟨⟨rfl, rfl⟩, rfl⟩, rfl⟩ := hc
    rfl
  case take =>
    exact writes_rowS fun g f hc => congrArg (enS 0xAB 0 g) (by simp [bnum_bit_pair (n := f.lo.toNat) (of_decide_eq_true hc)])
  case gstat =>
    refine writes_rowS fun g ⟨b5, b4, b3, lo⟩ hc => congrArg (enS 0xAC 0 g) ?_
    simp only [Bool.and_eq_true, beq_iff_eq] at hc
    obtain ⟨⟨rfl, rfl⟩, rfl⟩ := hc
    rfl

/-! ### Control transfers (R230) -/

theorem writes_relative {maj : Nat} {mk : RelOps → Instr} (h : ∀ x, encode (mk x) = enB maj 0 x.g ⟨0, 0, x.ofs⟩) :
    Writes (rowB maj 0 (fun g f => mk ⟨g, f.ofs⟩) (fun f => f.tgt == 0)) := by
  refine writes_rowB fun g ⟨tgt, z, ofs⟩ hz hc => ?_
  obtain rfl : z = 0 := hz
  obtain rfl : tgt = 0 := beq_iff_eq.mp hc
  exact h _

theorem writes_target {maj min : Nat} {mk : OpS → Instr} (h : ∀ x, encode (mk x) = enB maj min x.g ⟨x.a, 0, 0⟩) :
    Writes (rowB maj min (fun g f => mk ⟨g, f.tgt⟩) (fun f => f.ofs == 0)) := by
  refine writes_rowB fun g ⟨tgt, z, ofs⟩ hz hc => ?_
  obtain rfl : z = 0 := hz
  obtain rfl : ofs = 0 := beq_iff_eq.mp hc
  exact h _

theorem writes_leave {maj : Nat} {mk : Guard → Instr} (h : ∀ g, encode (mk g) = enB maj 0 g ⟨0, 0, 0⟩) :
    Writes (rowB maj 0 (fun g _ => mk g) (fun f => f.tgt == 0 && f.ofs == 0)) := by
  refine writes_rowB fun g ⟨tgt, z, ofs⟩ hz hc => ?_
  simp only [Bool.and_eq_true, beq_iff_eq] at hc
  obtain ⟨rfl, rfl⟩ := hc
  obtain rfl : z = 0 := hz
  exact h _

theorem writes_rowsCtl : ∀ r ∈ rowsCtl, Writes r := by
  simp only [rowsCtl, List.forall_mem_cons]
  exact ⟨writes_relative fun _ => rfl, writes_target fun _ => rfl, writes_relative fun _ => rfl, writes_target fun _ => rfl,
    writes_leave fun _ => rfl, writes_leave fun _ => rfl, List.forall_mem_nil _⟩

/-! ### Matrix, tile and queue rows (Tables 10-2, 10-5, 10-6) -/

theorem writes_mmaRd {maj : Nat} {mk : MmaOps → Instr} (h : ∀ x, encode (mk x) = eMma maj x) :
    Writes (rowX maj 0 (mmaRd mk) (fun _ => true)) :=
  writes_rowX fun g f hz _ => (h _).trans (congrArg (enX maj 0 g) (by simp [← hz]))

/-- A tile or queue number stands in the three high bits of its field. -/
theorem oc_high {x : BitVec 8} (h : x.toNat % 32 = 0) : oc 8 ((fld x.toNat 5 3).toNat * 32) = x := by
  apply BitVec.eq_of_toNat_eq
  simp only [oc, fld, BitVec.toNat_ofNat]
  omega

theorem oc_high_low {x : BitVec 8} (h : x.toNat / 8 % 4 = 0) : oc 8 ((fld x.toNat 5 3).toNat * 32 + (x.setWidth 3).toNat) = x := by
  apply BitVec.eq_of_toNat_eq
  simp only [oc, fld, BitVec.toNat_ofNat, BitVec.toNat_setWidth]
  omega

theorem writes_tileMem {maj : Nat} {mk : TileMemOps → Instr} (h : ∀ x, encode (mk x) = eTileMem maj x) :
    Writes (rowM maj 0 (tileMem mk) (c4 := tileMemOk)) := by
  refine writes_rowM fun g f hscope _ hc => (h _).trans (congrArg (enM maj 0 g) ?_)
  obtain ⟨hw, hfmt⟩ := Bool.and_eq_true_iff.mp hc
  simp [scope_write hscope, oc_high (of_decide_eq_true hw), tfmt_write (bne_iff_ne.mp hfmt)]

theorem writes_queue {maj : Nat} {mk : QueueOps → Instr} (h : ∀ x, encode (mk x) = enS maj 0 x.g ⟨x.d, oc 8 (x.q.toNat * 32), 0, 0⟩) :
    Writes (rowS maj 0 (fun g f => mk ⟨g, f.b5, qOf f⟩) (fun f => decide (f.b4.toNat % 32 = 0) && f.b3 == 0 && f.lo == 0)) := by
  refine writes_rowS fun g ⟨b5, b4, b3, lo⟩ hc => (h _).trans (congrArg (enS maj 0 g) ?_)
  simp only [Bool.and_eq_true, beq_iff_eq, decide_eq_true_eq] at hc
  obtain ⟨⟨hq, rfl⟩, rfl⟩ := hc
  simp only [qOf, oc_high hq]

theorem writes_rowsMat : ∀ r ∈ rowsMat, Writes r := by
  simp only [rowsMat, List.forall_mem_cons]
  refine ⟨writes_mmaRd fun _ => rfl, writes_mmaRd fun _ => rfl, ?wzero, writes_tileMem fun _ => rfl, writes_tileMem fun _ => rfl,
    ?wdrn, ?wmov, ?wbnd, writes_queue fun _ => rfl, ?qpeek, writes_queue fun _ => rfl, ?qdrop, List.forall_mem_nil _⟩
  case wzero => exact writes_rowX fun g f _ hc => (congrArg (enX 0xC2 0 g) (of_decide_eq_true hc)).symm
  case wdrn =>
    refine writes_rowMz fun g ⟨d, a, ofs, ord, scope, evc, space, rp, w⟩ hc => congrArg (enM 0xC5 0 g) ?_
    simp only [Bool.and_eq_true, beq_iff_eq, decide_eq_true_eq, bne_iff_ne] at hc
    obtain ⟨⟨⟨⟨⟨⟨ha, rfl⟩, rfl⟩, rfl⟩, rfl⟩, rfl⟩, hw⟩ := hc
    simp [oc_high ha, tfmt_write hw]
  case wmov =>
    refine writes_rowX fun g f _ hc => (congrArg (enX 0xC6 0 g) ?_).trans (congrArg (enX 0xC6 0 g) (of_decide_eq_true hc)).symm
    simp
  case wbnd =>
    refine writes_rowS fun g ⟨b5, b4, b3, lo⟩ hc => congrArg (enS 0xC7 0 g) ?_
    simp only [Bool.and_eq_true, beq_iff_eq, decide_eq_true_eq] at hc
    obtain ⟨⟨hw, rfl⟩, hlo⟩ := hc
    simp [qOf, oc_high hw, ite_bit_zero hlo]
  case qpeek =>
    refine writes_rowS fun g ⟨b5, b4, b3, lo⟩ hc => congrArg (enS 0xD1 0 g) ?_
    simp only [Bool.and_eq_true, beq_iff_eq, decide_eq_true_eq] at hc
    obtain ⟨⟨hq, rfl⟩, rfl⟩ := hc
    simp only [qOf, oc_high_low hq]
  case qdrop =>
    refine writes_rowS fun g ⟨b5, b4, b3, lo⟩ hc => congrArg (enS 0xD3 0 g) ?_
    simp only [Bool.and_eq_true, beq_iff_eq, decide_eq_true_eq] at hc
    obtain ⟨⟨⟨rfl, hq⟩, rfl⟩, rfl⟩ := hc
    simp only [qOf, oc_high hq]

/-! ### Access-slice rows (Table 10-7) -/

theorem ite_high {x : BitVec 8} (h : x.toNat % 128 = 0) : (if bit x.toNat 7 then 128#8 else 0#8) = x := by revert x; decide

theorem writes_rowsStr : ∀ r ∈ rowsStr, Writes r := by
  simp only [rowsStr, List.forall_mem_cons]
  refine ⟨?sloop, ?snext, writes_rowT fun _ _ => rfl, ?smark, ?swaitc, ?sdone, List.forall_mem_nil _⟩
  case sloop => exact writes_rowL fun f hz _ => congrArg (enL 0xD8) (by simp [← hz])
  case snext =>
    refine writes_rowL fun ⟨a, c, z, rf, n⟩ hz hc => congrArg (enL 0xD9) ?_
    simp only [Bool.and_eq_true, beq_iff_eq] at hc hz
    obtain ⟨⟨rfl, rfl⟩, rfl⟩ := hc
    rw [hz]
  case smark =>
    refine writes_rowT fun ⟨q, a, s, rows, bytes, ofs⟩ hc => congrArg (enT 0xDB) ?_
    simp only [Bool.and_eq_true, beq_iff_eq] at hc
    obtain ⟨⟨⟨rfl, rfl⟩, rfl⟩, rfl⟩ := hc
    rfl
  case swaitc =>
    refine writes_rowT fun ⟨q, a, s, rows, bytes, ofs⟩ hc => congrArg (enT 0xDC) ?_
    simp only [Bool.and_eq_true, beq_iff_eq, decide_eq_true_eq] at hc
    obtain ⟨⟨⟨rfl, hrows⟩, rfl⟩, rfl⟩ := hc
    simp [ite_high hrows]
  case sdone => exact writes_rowT fun f hc => (congrArg (enT 0xDD) (of_decide_eq_true hc)).symm

/-! ### Jobs, launches, traps, hints and the privileged set (R233, R258, Table 19-1) -/

theorem setWidth_code {x : BitVec 24} (h : x.toNat < 65536) : (x.setWidth 16).setWidth 24 = x := by
  apply BitVec.eq_of_toNat_eq
  simp only [BitVec.toNat_setWidth]
  omega

theorem writes_codeRd {maj : Nat} {mk : CodeOps → Instr} (h : ∀ x, encode (mk x) = eCode maj x) :
    Writes (rowS maj 0 (codeRd mk) codeOk) := by
  refine writes_rowS fun g ⟨b5, b4, b3, lo⟩ hc => (h _).trans (congrArg (enS maj 0 g) ?_)
  simp only [codeOk, Bool.and_eq_true, beq_iff_eq, decide_eq_true_eq] at hc
  obtain ⟨⟨⟨rfl, rfl⟩, rfl⟩, hlo⟩ := hc
  simp only [setWidth_code hlo]

theorem toNat_rofs (x : BitVec 8) (y : BitVec 24) : (oc 32 (x.toNat * 2 ^ 24 + y.toNat)).toNat = x.toNat * 2 ^ 24 + y.toNat := by
  rw [oc, BitVec.toNat_ofNat]
  omega

theorem writes_movc : Writes (rowS 0xF1 0 movcRd movcOk) := by
  refine writes_rowS fun g ⟨b5, b4, b3, lo⟩ hc => ?_
  simp only [movcOk, Bool.and_eq_true, beq_iff_eq, decide_eq_true_eq] at hc
  obtain ⟨⟨⟨rfl, hlo⟩, hcr⟩, hzero⟩ := hc
  obtain ⟨cr, hcr⟩ := Option.isSome_iff_exists.mp hcr
  have hcode := creg_code_of_ofCode hcr
  simp only [movcRd, hcr, Option.getD_some]
  split at hzero <;> rename_i hw
  · rw [if_pos hw, beq_iff_eq.mp hzero]
    have hsum : 4096 + cr.code = lo.toNat := by omega
    exact congrArg (fun n => enS 0xF1 0 g ⟨0, b4, 0, n⟩) (by rw [hsum, oc_toNat])
  · rw [if_neg hw, beq_iff_eq.mp hzero]
    have hsum : cr.code = lo.toNat := by omega
    exact congrArg (fun n => enS 0xF1 0 g ⟨b5, 0, 0, n⟩) (by rw [hsum, oc_toNat])

theorem writes_rowsSys : ∀ r ∈ rowsSys, Writes r := by
  simp only [rowsSys, List.forall_mem_cons]
  refine ⟨?job, writes_daRd fun _ => rfl, ?lnch, writes_codeRd fun _ => rfl, writes_codeRd fun _ => rfl, ?phint,
    writes_codeRd fun _ => rfl, ?rte, writes_movc, writes_allRd (fun _ => rfl) (fun _ => rfl), writes_allRd (fun _ => rfl) (fun _ => rfl),
    writes_daRd fun _ => rfl, writes_daRd fun _ => rfl, writes_daRd fun _ => rfl, writes_daRd fun _ => rfl, writes_daRd fun _ => rfl,
    writes_daRd fun _ => rfl, List.forall_mem_nil _⟩
  case job =>
    refine writes_rowS fun g ⟨b5, b4, b3, lo⟩ hc => congrArg (enS 0xE0 0 g) ?_
    simp only [Bool.and_eq_true, beq_iff_eq] at hc
    obtain ⟨⟨rfl, rfl⟩, rfl⟩ := hc
    rfl
  case lnch =>
    refine writes_rowS fun g ⟨b5, b4, b3, lo⟩ hc => congrArg (enS 0xE2 0 g) ?_
    obtain rfl : lo = 0 := beq_iff_eq.mp hc
    rfl
  case phint =>
    refine writes_rowS fun g ⟨b5, b4, b3, lo⟩ hc => congrArg (enS 0xEA 0 g) ?_
    simp only [Bool.and_eq_true, beq_iff_eq] at hc
    obtain ⟨rfl, rfl⟩ := hc
    simp only [toNat_rofs, fld_top b3 lo.isLt, fld_below (x := b3.toNat) (r := lo.toNat) (lo := 0) (n := 24) (Nat.le_refl 24),
      fld_toNat_self]
  case rte =>
    refine writes_rowS fun g ⟨b5, b4, b3, lo⟩ hc => congrArg (enS 0xF0 0 g) ?_
    simp only [Bool.and_eq_true, beq_iff_eq] at hc
    obtain ⟨⟨⟨rfl, rfl⟩, rfl⟩, rfl⟩ := hc
    rfl

/-- Every row of the opcode map keeps every bit of a word that it accepts. -/
theorem writes_opcodeMap : ∀ r ∈ opcodeMap, Writes r := by
  simp only [opcodeMap, List.forall_mem_append]
  exact ⟨⟨⟨⟨⟨⟨⟨⟨⟨writes_rowsInt, writes_rowsFlt⟩, writes_rowsCvt⟩, writes_rowsBnd⟩, writes_rowsMem⟩, writes_rowsWarp⟩, writes_rowsCtl⟩,
    writes_rowsMat⟩, writes_rowsStr⟩, writes_rowsSys⟩

/-! ## The decoder -/

theorem findRow_mem {maj min : Nat} {r : Row} (h : findRow maj min = some r) : r ∈ opcodeMap ∧ r.maj = maj ∧ r.min = min := by
  have hkey := List.find?_some h
  simp only [Bool.and_eq_true, beq_iff_eq] at hkey
  exact ⟨List.mem_of_find?_eq_some h, hkey⟩

theorem wellFormed_iff {i : Instr} : WellFormed i = true ↔ i.wfCode = true ∧ i.wfField = true ∧ i.wfReg = true := by
  rw [WellFormed, Bool.and_eq_true, Bool.and_eq_true, and_assoc]

theorem judge_eq_ok_iff {c : Cand} {i : Instr} :
    c.judge = .ok i ↔ c.c3 = true ∧ c.c4 = true ∧ WellFormed c.i = true ∧ c.i = i := by
  rw [wellFormed_iff]
  unfold Cand.judge
  split
  · grind
  · split
    · grind
    · split <;> grind

theorem decode_of_findRow_none {w : DWord} (h : findRow (w.toNat / 2 ^ 56) (w.toNat / 2 ^ 52 % 16) = none) :
    decode w = .ok (.illegalInstruction .unassigned w) := by
  unfold decode
  simp only [h]

theorem decode_of_findRow {w : DWord} {r : Row} (h : findRow (w.toNat / 2 ^ 56) (w.toNat / 2 ^ 52 % 16) = some r) :
    decode w = (r.rd (Guard.ofCode (w.toNat / 2 ^ 48 % 16)) (w.toNat % 2 ^ 48)).judge := by
  unfold decode
  simp only [h]

/-- A word that a row accepts is the word of the well-formed instruction read from it. -/
theorem encode_of_decode {w : DWord} {i : Instr} (h : decode w = .ok i) : WellFormed i = true ∧ encode i = some w := by
  cases hrow : findRow (w.toNat / 2 ^ 56) (w.toNat / 2 ^ 52 % 16) with
  | none =>
    rw [decode_of_findRow_none hrow] at h
    obtain rfl := Except.ok.inj h
    exact ⟨rfl, rfl⟩
  | some r =>
    rw [decode_of_findRow hrow, judge_eq_ok_iff] at h
    obtain ⟨h3, h4, hwf, rfl⟩ := h
    obtain ⟨hmem, hmaj, hmin⟩ := findRow_mem hrow
    refine ⟨hwf, ?_⟩
    rw [writes_opcodeMap r hmem _ _ (Nat.mod_lt _ (by positivity)) h3 h4, hmaj, hmin, guard_code_ofCode (by omega), ofNat_iword]

end Sys2Proof.Laws

/-! SUPPORT. A well-formed instruction is read from its word: what a row reads, shape by shape, from the fields that the encoder
writes (R143, R146-R156). -/

namespace Sys2Proof.Laws

/-! ## A well-formed instruction is read from its word -/

/-- The majors and minors of the map fit their fields. -/
theorem opcodeMap_bounds : opcodeMap.all (fun r => r.maj < 256 && r.min < 16) = true := by decide

/-- An accepted reading of a row is what its word decodes to. -/
theorem decode_iword {r : Row} {g : Guard} {p : Nat} {i : Instr} (hrow : findRow r.maj r.min = some r) (hp : p < 2 ^ 48)
    (h3 : (r.rd g p).c3 = true) (h4 : (r.rd g p).c4 = true) (hi : (r.rd g p).i = i) (hwf : WellFormed i = true) :
    decode (BitVec.ofNat 64 (iword r.maj r.min g.code p)) = .ok i := by
  have hbounds := List.all_eq_true.mp opcodeMap_bounds r (findRow_mem hrow).1
  simp only [Bool.and_eq_true, decide_eq_true_eq] at hbounds
  obtain ⟨hmaj, hmin⟩ := hbounds
  have hg := guard_code_lt g
  have hfind : findRow ((BitVec.ofNat 64 (iword r.maj r.min g.code p)).toNat / 2 ^ 56)
      ((BitVec.ofNat 64 (iword r.maj r.min g.code p)).toNat / 2 ^ 52 % 16) = some r := by
    rw [iword_major hmaj hmin hg hp, iword_minor hmaj hmin hg hp, hrow]
  rw [decode_of_findRow hfind, iword_guard hmaj hmin hg hp, iword_fields hmaj hmin hg hp, guard_ofCode_code, judge_eq_ok_iff]
  subst hi
  exact ⟨h3, h4, hwf, rfl⟩

theorem decode_layoutRow {F : Type} {L : Layout F} {maj min : Nat} {rd : Guard → F → Instr} {c3 : F → Bool} {c4 : Guard → F → Bool}
    {g : Guard} {f : F} {w : DWord} {i : Instr} (hrow : findRow maj min = some (layoutRow L maj min rd c3 c4))
    (henc : L.word maj min g f = some w) (hi : rd g f = i) (h3 : c3 f = true) (h4 : c4 g f = true) (hwf : WellFormed i = true) :
    decode w = .ok i := by
  obtain rfl := Option.some.inj henc
  refine decode_iword (r := layoutRow L maj min rd c3 c4) hrow (L.bits_lt f) ?_ ?_ ?_ hwf
  · exact (congrArg c3 (L.ofBits_bits f)).trans h3
  · exact (congrArg (c4 g) (L.ofBits_bits f)).trans h4
  · exact (congrArg (rd g) (L.ofBits_bits f)).trans hi

section Formats

variable {maj min : Nat} {g : Guard} {w : DWord} {i : Instr} (hwf : WellFormed i = true)
include hwf

theorem decode_rowA {rd : Guard → FA → Instr} {keep : FA → FA} {c4 : FA → Bool} {f : FA} (henc : enA maj min g f = some w)
    (hrow : findRow maj min = some (rowA maj min rd keep c4)) (hi : rd g f = i) (hkeep : f = keep f) (h4 : c4 f = true) :
    decode w = .ok i := by
  rw [rowA_eq] at hrow
  exact decode_layoutRow hrow henc hi rfl (Bool.and_eq_true_iff.mpr ⟨decide_eq_true hkeep, h4⟩) hwf

theorem decode_rowI {rd : Guard → FI → Instr} {c4 : FI → Bool} {f : FI} (henc : enI maj min g f = some w)
    (hrow : findRow maj min = some (rowI maj min rd c4)) (hi : rd g f = i) (h4 : c4 f = true) : decode w = .ok i := by
  rw [rowI_eq] at hrow
  exact decode_layoutRow hrow henc hi rfl h4 hwf

theorem decode_rowM {rd : Guard → FM → Instr} {c3 c4 : FM → Bool} {f : FM} (henc : enM maj min g f = some w)
    (hrow : findRow maj min = some (rowM maj min rd c3 c4)) (hi : rd g f = i) (hscope : f.scope ≠ 6) (h3 : c3 f = true)
    (h4 : c4 f = true) : decode w = .ok i := by
  rw [rowM_eq] at hrow
  exact decode_layoutRow hrow henc hi (Bool.and_eq_true_iff.mpr ⟨bne_iff_ne.mpr hscope, h3⟩) h4 hwf

theorem decode_rowMz {rd : Guard → FM → Instr} {c4 : FM → Bool} {f : FM} (henc : enM maj min g f = some w)
    (hrow : findRow maj min = some (rowMz maj min rd c4)) (hi : rd g f = i) (h4 : c4 f = true) : decode w = .ok i := by
  rw [rowMz_eq] at hrow
  exact decode_layoutRow hrow henc hi rfl h4 hwf

theorem decode_rowMA {rd : Guard → FMA → Instr} {c4 : FMA → Bool} {f : FMA} (henc : enMA maj min g f = some w)
    (hrow : findRow maj min = some (rowMA maj min rd c4)) (hi : rd g f = i) (hscope : f.scope ≠ 6) (hz : f.z = 0)
    (h4 : c4 f = true) : decode w = .ok i := by
  rw [rowMA_eq] at hrow
  exact decode_layoutRow hrow henc hi (bne_iff_ne.mpr hscope) (Bool.and_eq_true_iff.mpr ⟨beq_iff_eq.mpr hz, h4⟩) hwf

theorem decode_rowX {rd : Guard → FX → Instr} {c4 : FX → Bool} {f : FX} (henc : enX maj min g f = some w)
    (hrow : findRow maj min = some (rowX maj min rd c4)) (hi : rd g f = i) (hz : f.z1 = 0) (h4 : c4 f = true) : decode w = .ok i := by
  rw [rowX_eq] at hrow
  exact decode_layoutRow hrow henc hi rfl (Bool.and_eq_true_iff.mpr ⟨beq_iff_eq.mpr hz, h4⟩) hwf

theorem decode_rowB {rd : Guard → FB → Instr} {c4 : FB → Bool} {f : FB} (henc : enB maj min g f = some w)
    (hrow : findRow maj min = some (rowB maj min rd c4)) (hi : rd g f = i) (hz : f.z = 0) (h4 : c4 f = true) : decode w = .ok i := by
  rw [rowB_eq] at hrow
  exact decode_layoutRow hrow henc hi rfl (Bool.and_eq_true_iff.mpr ⟨beq_iff_eq.mpr hz, h4⟩) hwf

theorem decode_rowS {rd : Guard → FS → Instr} {c4 : FS → Bool} {f : FS} (henc : enS maj min g f = some w)
    (hrow : findRow maj min = some (rowS maj min rd c4)) (hi : rd g f = i) (h4 : c4 f = true) : decode w = .ok i := by
  rw [rowS_eq] at hrow
  exact decode_layoutRow hrow henc hi rfl h4 hwf

theorem decode_rowT {rd : FT → Instr} {c4 : FT → Bool} {f : FT} (henc : enT maj f = some w)
    (hrow : findRow maj 0 = some (rowT maj rd c4)) (hi : rd f = i) (h4 : c4 f = true) : decode w = .ok i := by
  rw [rowT_eq] at hrow
  exact decode_layoutRow (g := Guard.always) hrow henc hi rfl h4 hwf

theorem decode_rowL {rd : FL → Instr} {c4 : FL → Bool} {f : FL} (henc : enL maj f = some w)
    (hrow : findRow maj 0 = some (rowL maj rd c4)) (hi : rd f = i) (hz : f.z = 0) (h4 : c4 f = true) : decode w = .ok i := by
  rw [rowL_eq] at hrow
  exact decode_layoutRow (g := Guard.always) hrow henc hi rfl (Bool.and_eq_true_iff.mpr ⟨beq_iff_eq.mpr hz, h4⟩) hwf

end Formats

/-! ### What a row reads from the fields that the encoder writes -/

theorem eq_false_of_and_not {a b : Bool} (h : (a && !b) = true) : b = false := by revert a b; decide

/-- The fields of the integer shapes. -/
def fieldsRR (x : IntRR) : FA := { FA.zero with d := x.d, a := x.a, b := x.b, ty := oc 3 x.ty.code, sat := ob x.sat }
def fieldsRRR (x : IntRRR) : FA := { FA.zero with d := x.d, a := x.a, b := x.b, c := x.c, ty := oc 3 x.ty.code, sat := ob x.sat }
def fieldsR (x : IntR) : FA := { FA.zero with d := x.d, a := x.a, ty := oc 3 x.ty.code, sat := ob x.sat }

section Int

variable {maj : Nat} {w : DWord}

theorem decode_eRRsat {mk : IntRR → Instr} {x : IntRR} (hwf : WellFormed (mk x) = true) (henc : eRR maj x = some w)
    (hrow : findRow maj 0 = some (rowA maj 0 (rRR mk) kRRsat)) : decode w = .ok (mk x) :=
  decode_rowA (f := fieldsRR x) hwf henc hrow (by simp [rRR, fieldsRR, FA.tyOf]) rfl rfl

theorem decode_eRR {mk : IntRR → Instr} {x : IntRR} (hwf : WellFormed (mk x) = true) (hsat : x.sat = false) (henc : eRR maj x = some w)
    (hrow : findRow maj 0 = some (rowA maj 0 (rRR mk) kRR)) : decode w = .ok (mk x) :=
  decode_rowA (f := fieldsRR x) hwf henc hrow (by simp [rRR, fieldsRR, FA.tyOf]) (by simp [fieldsRR, kRR, hsat, ob, FA.zero]) rfl

theorem decode_eRRRsat {mk : IntRRR → Instr} {x : IntRRR} (hwf : WellFormed (mk x) = true) (henc : eRRR maj x = some w)
    (hrow : findRow maj 0 = some (rowA maj 0 (rRRR mk) kRRRsat)) : decode w = .ok (mk x) :=
  decode_rowA (f := fieldsRRR x) hwf henc hrow (by simp [rRRR, fieldsRRR, FA.tyOf]) rfl rfl

theorem decode_eRRR {mk : IntRRR → Instr} {x : IntRRR} (hwf : WellFormed (mk x) = true) (hsat : x.sat = false)
    (henc : eRRR maj x = some w) (hrow : findRow maj 0 = some (rowA maj 0 (rRRR mk) kRRR)) : decode w = .ok (mk x) :=
  decode_rowA (f := fieldsRRR x) hwf henc hrow (by simp [rRRR, fieldsRRR, FA.tyOf])
    (by simp [fieldsRRR, kRRR, hsat, ob, FA.zero]) rfl

theorem decode_eRsat {mk : IntR → Instr} {x : IntR} (hwf : WellFormed (mk x) = true) (henc : eR maj x = some w)
    (hrow : findRow maj 0 = some (rowA maj 0 (rR mk) kRsat)) : decode w = .ok (mk x) :=
  decode_rowA (f := fieldsR x) hwf henc hrow (by simp [rR, fieldsR, FA.tyOf]) rfl rfl

theorem decode_eR {mk : IntR → Instr} {x : IntR} (hwf : WellFormed (mk x) = true) (hsat : x.sat = false) (henc : eR maj x = some w)
    (hrow : findRow maj 0 = some (rowA maj 0 (rR mk) kR)) : decode w = .ok (mk x) :=
  decode_rowA (f := fieldsR x) hwf henc hrow (by simp [rR, fieldsR, FA.tyOf]) (by simp [fieldsR, kR, hsat, ob, FA.zero]) rfl

/-- The map's row of an I form. -/
def ImmRow (maj : Nat) (mk : IntRI → Instr) (t : Ty) : Prop :=
  findRow maj (immMinor t) = some (rowI maj (immMinor t) (rRI mk t) (fun _ => true))

theorem decode_eRI {mk : IntRI → Instr} {x : IntRI} (hwf : WellFormed (mk x) = true) (henc : eRI maj x = some w)
    (hrow : ImmRow maj mk x.ty) : decode w = .ok (mk x) :=
  decode_rowI hwf henc hrow rfl rfl

theorem of_isInt {p : Ty → Prop} (hs32 : p .s32) (hn32 : p .n32) (hs64 : p .s64) (hn64 : p .n64) {t : Ty} (ht : t.isInt = true) :
    p t := by
  cases t with
  | s32 => exact hs32
  | n32 => exact hn32
  | s64 => exact hs64
  | n64 => exact hn64
  | f32 | f64 | bf16x2 | b32 => exact nomatch ht

section Imm

variable {mk : IntRI → Instr} {x : IntRI} (hwf : WellFormed (mk x) = true) (henc : eRI maj x = some w)
  (hs32 : ImmRow maj mk .s32) (hn32 : ImmRow maj mk .n32) (hs64 : ImmRow maj mk .s64) (hn64 : ImmRow maj mk .n64)
include hwf henc hs32 hn32 hs64 hn64

theorem decode_eRI_int (ht : x.ty.isInt = true) : decode w = .ok (mk x) :=
  decode_eRI hwf henc (of_isInt hs32 hn32 hs64 hn64 ht)

theorem decode_eRI_bits (hb32 : ImmRow maj mk .b32) (ht : x.ty.isIntOrBits = true) : decode w = .ok (mk x) := by
  rcases Bool.or_eq_true_iff.mp ht with hint | hbits
  · exact decode_eRI_int hwf henc hs32 hn32 hs64 hn64 hint
  · exact decode_eRI hwf henc ((beq_iff_eq.mp hbits).symm ▸ hb32)

end Imm

end Int

theorem isetImm_read (c : ICond) (p : BitVec 3) :
    let d : BitVec 8 := oc 8 (c.code * 16 + p.toNat)
    ICond.ofCode (d.toNat / 16) = c ∧ d.setWidth 3 = p ∧ d.toNat / 16 < 6 ∧ d.toNat / 8 % 2 = 0 := by
  revert p
  cases c <;> decide

theorem findRow_isetImm {t : Ty} (ht : t.isInt = true) :
    findRow 0x13 (immMinor t) = some (rowI 0x13 (immMinor t) (isetImmRd t) isetImmOk) :=
  of_isInt (p := fun t => findRow 0x13 (immMinor t) = some (rowI 0x13 (immMinor t) (isetImmRd t) isetImmOk)) rfl rfl rfl rfl ht

theorem decode_isetImm {x : IsetRI} {w : DWord} (hwf : WellFormed (.isetImm x) = true) (ht : x.ty.isInt = true)
    (henc : encode (.isetImm x) = some w) : decode w = .ok (.isetImm x) := by
  obtain ⟨hcond, hp, hlt, hz⟩ := isetImm_read x.cond x.p
  exact decode_rowI hwf henc (findRow_isetImm ht) (by simp [isetImmRd, hcond, hp]) (by simp [isetImmOk, hlt, hz])

theorem signed_read (b : Bool) : ((if b = true then 0#3 else 1#3) == 0#3) = b := by cases b <;> rfl
theorem signed_lt (b : Bool) : (if b = true then 0#3 else 1#3).toNat < 2 := by cases b <;> decide

theorem plog_read (x : BitVec 8) :
    oc 8 ((fld x.toNat 5 3).toNat * 32 + (fld x.toNat 3 2).toNat * 8 + (fld x.toNat 1 2).toNat * 2 + (fld x.toNat 0 1).toNat) = x := by
  revert x; decide

/-! ### Floating, conversion, bound and flag shapes -/

section Flt

variable {maj : Nat} {w : DWord}

theorem decode_eFlt {mk : FltRR → Instr} {x : FltRR} (hwf : WellFormed (mk x) = true) (henc : eFlt maj x = some w)
    (hrow : findRow maj 0 = some (rowA maj 0 (rFlt mk) kFlt)) : decode w = .ok (mk x) :=
  decode_rowA hwf henc hrow (by simp [rFlt, FA.tyOf, FA.tierOf, FA.rndOf, FA.mods]) rfl rfl

theorem decode_eMM {mk : FltMM → Instr} {x : FltMM} (hwf : WellFormed (mk x) = true) (henc : eMM maj x = some w)
    (hrow : findRow maj 0 = some (rowA maj 0 (rMM mk) kMM)) : decode w = .ok (mk x) :=
  decode_rowA hwf henc hrow (by simp [rMM, FA.tyOf, FA.mods]) rfl rfl

theorem decode_eU {mk : FltU → Instr} {x : FltU} (hwf : WellFormed (mk x) = true) (henc : eU maj x = some w)
    (hrow : findRow maj 0 = some (rowA maj 0 (rU mk) kU)) : decode w = .ok (mk x) :=
  decode_rowA hwf henc hrow (by simp [rU, FA.tyOf, FA.tierOf, FA.rndOf]) rfl rfl

end Flt

theorem fset_read (sx : Bool) (c : FCond) :
    let s : BitVec 4 := oc 4 (bnum sx * 8 + c.code)
    FCond.ofCode (s.toNat % 8) = c ∧ bit s.toNat 3 = sx := by
  cases sx <;> cases c <;> decide

theorem decode_fset {x : FsetOps} {w : DWord} (hwf : WellFormed (.fset x) = true) (hq : (x.sx || x.q == 0) = true)
    (henc : encode (.fset x) = some w) : decode w = .ok (.fset x) := by
  obtain ⟨hcond, hsx⟩ := fset_read x.sx x.cond
  refine decode_rowA hwf henc rfl (by simp [FA.tyOf, FA.mods, hcond, hsx]) rfl ?_
  rcases Bool.or_eq_true_iff.mp hq with hs | hzero
  · simp [hsx.trans hs]
  · simp [beq_iff_eq.mp hzero, show prOk 0#8 = true from rfl]

theorem cvt_read (s d : FFmt) :
    let b : BitVec 8 := oc 8 (s.code * 16 + d.code)
    FFmt.ofCode (b.toNat / 16) = s ∧ FFmt.ofCode (b.toNat % 16) = d ∧ FFmt.codeOk (b.toNat / 16) = true
      ∧ FFmt.codeOk (b.toNat % 16) = true := by
  cases s <;> cases d <;> decide

theorem decode_cvt {x : CvtOps} {w : DWord} (hwf : WellFormed (.cvt x) = true) (henc : encode (.cvt x) = some w) :
    decode w = .ok (.cvt x) := by
  obtain ⟨hsrc, hdst, hs, hd⟩ := cvt_read x.src x.dst
  exact decode_rowA hwf henc rfl (by simp [FA.rndOf, hsrc, hdst]) rfl (by simp [hs, hd])

/-- A one-bit flag in a field: it is read back, and the field's other bits are zero. -/
theorem flag_read {n : Nat} (b : Bool) :
    bit (if b = true then 1#(n + 1) else 0#(n + 1)).toNat 0 = b ∧ (if b = true then 1#(n + 1) else 0#(n + 1)).toNat < 2 := by
  cases b <;> simp [bit]

theorem bnum_pair_read (a b : Bool) :
    bit (bnum a + 2 * bnum b) 0 = a ∧ bit (bnum a + 2 * bnum b) 1 = b ∧ bnum a + 2 * bnum b < 4 := by
  revert a b; decide

theorem decode_dqnt {x : DqntOps} {w : DWord} (hwf : WellFormed (.dqnt x) = true) (henc : encode (.dqnt x) = some w) :
    decode w = .ok (.dqnt x) := by
  obtain ⟨hol, hlt⟩ := flag_read (n := 3) x.ol
  exact decode_rowA hwf henc rfl (by simp [hol]) rfl (by simp [hlt])

theorem decode_upk4 {x : Upk4Ops} {w : DWord} (hwf : WellFormed (.upk4 x) = true) (henc : encode (.upk4 x) = some w) :
    decode w = .ok (.upk4 x) := by
  obtain ⟨hhi, hlt⟩ := flag_read (n := 3) x.hi
  exact decode_rowA hwf henc rfl (by simp [hhi, signed_read]) rfl
    (Bool.and_eq_true_iff.mpr ⟨decide_eq_true (signed_lt _), decide_eq_true hlt⟩)

theorem decode_brd {x : BrdOps} {w : DWord} (hwf : WellFormed (.brd x) = true) (henc : encode (.brd x) = some w) :
    decode w = .ok (.brd x) := by
  obtain ⟨hf, hlt⟩ := flag_read (n := 3) x.f
  exact decode_rowA hwf henc rfl (by simp [hf]) rfl (by simp [hlt])

theorem decode_lea {x : LeaOps} {w : DWord} (hwf : WellFormed (.lea x) = true) (henc : encode (.lea x) = some w) :
    decode w = .ok (.lea x) :=
  decode_rowA hwf henc rfl (by simp [signed_read]) rfl (decide_eq_true (signed_lt _))

/-- BRAISE's type and sub-operation codes (R194). -/
theorem braise_read (f32 set pair : Bool) :
    let ty : BitVec 3 := if f32 = true then 4 else 7
    let s : BitVec 4 := oc 4 (bnum set + 2 * bnum pair)
    (ty == 4) = f32 ∧ bit s.toNat 0 = set ∧ bit s.toNat 1 = pair ∧ ((ty == 4 || ty == 7) && decide (s.toNat < 4)) = true := by
  revert f32 set pair; decide

theorem decode_braise {x : BraiseOps} {w : DWord} (hwf : WellFormed (.braise x) = true) (henc : encode (.braise x) = some w) :
    decode w = .ok (.braise x) := by
  obtain ⟨hty, hset, hpair, hok⟩ := braise_read x.f32 x.set x.pair
  exact decode_rowA hwf henc rfl (by dsimp only; rw [hty, hset, hpair]) rfl hok

theorem bchk_read (reg trap : Bool) :
    let s : BitVec 4 := oc 4 (bnum reg + 4 * bnum trap)
    bit s.toNat 0 = reg ∧ bit s.toNat 2 = trap ∧ bit s.toNat 1 = false ∧ bit s.toNat 3 = false := by
  revert reg trap; decide

theorem decode_bchk {x : BchkOps} {w : DWord} (hwf : WellFormed (.bchk x) = true) (henc : encode (.bchk x) = some w) :
    decode w = .ok (.bchk x) := by
  obtain ⟨hreg, htrap, h1, h3⟩ := bchk_read x.reg x.trap
  exact decode_rowA hwf henc rfl (by simp [hreg, htrap]) rfl (by simp [h1, h3])

/-! ### Memory, atomic, count-object and barrier shapes -/

section Mem

variable {maj : Nat} {w : DWord}

theorem decode_eMem {mk : MemOps → Instr} {x : MemOps} (hwf : WellFormed (mk x) = true) (henc : eMem maj x = some w)
    (hrow : findRow maj 0 = some (rowM maj 0 (mem mk) (fun f => f.w != 7))) : decode w = .ok (mk x) :=
  decode_rowM hwf henc hrow (by simp [mem]) (scope_ne_reserved _) (bne_iff_ne.mpr (width_ne_reserved _)) rfl

theorem decode_eRange {mk : RangeOps → Instr} {all : Guard → Instr} {x : RangeOps} (hwf : WellFormed (mk x) = true)
    (henc : eRange maj x = some w) (hrow : findRow maj 0 = some (rowS maj 0 (allRd mk all) allOk)) : decode w = .ok (mk x) :=
  decode_rowS hwf henc hrow rfl rfl

theorem decode_eAll {mk : RangeOps → Instr} {all : Guard → Instr} {g : Guard} (hwf : WellFormed (all g) = true)
    (henc : eAll maj g = some w) (hrow : findRow maj 0 = some (rowS maj 0 (allRd mk all) allOk)) : decode w = .ok (all g) :=
  decode_rowS hwf henc hrow rfl rfl

theorem decode_eAtom {mk : AtomOps → Instr} {x : AtomOps} (hwf : WellFormed (mk x) = true) (henc : eAtom maj x = some w)
    (hrow : findRow maj x.op.code = some (rowMA maj x.op.code (atomRd mk x.op) (fun f => f.c == 0))) : decode w = .ok (mk x) :=
  decode_rowMA hwf henc hrow (by simp [atomRd]) (scope_ne_reserved _) rfl rfl

theorem wide_count_read (b : Bool) : ((if b = true then 3#3 else 1#3) == 3#3) = b := by cases b <;> rfl
theorem wide_count_ok (b : Bool) : ((if b = true then 3#3 else 1#3) == 1#3 || (if b = true then 3#3 else 1#3) == 3#3) = true := by
  cases b <;> rfl

theorem decode_eCobj {min : Nat} {mk : CobjOps → Instr} {x : CobjOps} (hwf : WellFormed (mk x) = true) (henc : eCobj maj min x = some w)
    (hrow : findRow maj min = some (rowMA maj min (cobjRd mk) cobjOk)) : decode w = .ok (mk x) :=
  decode_rowMA hwf henc hrow (by simp [cobjRd, wide_count_read]) (scope_ne_reserved _) rfl (wide_count_ok x.wide)

theorem nibble_read (b : BitVec 4) : (b.setWidth 8).setWidth 4 = b := by revert b; decide
theorem nibble_lt (b : BitVec 4) : decide ((b.setWidth 8).toNat < 16) = true := by revert b; decide

theorem decode_eBar {mk : BarOps → Instr} {x : BarOps} (hwf : WellFormed (mk x) = true) (henc : eBar maj x = some w)
    (hrow : findRow maj 0 = some (rowS maj 0 (barRd mk) barOk)) : decode w = .ok (mk x) :=
  decode_rowS hwf henc hrow (by simp only [barRd, nibble_read]) (by simp only [barOk, nibble_lt]; rfl)

theorem decode_eMask {mk : MaskOps → Instr} {x : MaskOps} (hwf : WellFormed (mk x) = true) (henc : eMask maj x = some w)
    (hrow : findRow maj 0 = some (rowS maj 0 (maskRd mk) (fun f => maskOk f && f.b5 == 0 && f.b4 == 0))) : decode w = .ok (mk x) :=
  decode_rowS hwf henc hrow (by simp only [maskRd, nibble_read]) (by simp only [maskOk, nibble_lt]; rfl)

end Mem

theorem findRow_atom (op : AOp) : findRow 0x80 op.code = some (rowMA 0x80 op.code (atomRd .atom op) (fun f => f.c == 0)) := by
  cases op <;> rfl

theorem findRow_red {op : AOp} (h : op ≠ .exch) :
    findRow 0x82 op.code = some (rowMA 0x82 op.code (atomRd .red op) (fun f => f.c == 0)) := by
  cases op with
  | exch => exact absurd rfl h
  | add | min | max | and | or | xor => rfl

theorem findRow_wred {op : AOp} (h : op ≠ .exch) :
    findRow 0xA7 op.code = some (rowA 0xA7 op.code (fun g f => .wred ⟨g, op, f.tyOf, f.d, f.a⟩) kR) := by
  cases op with
  | exch => exact absurd rfl h
  | add | min | max | and | or | xor => rfl

theorem findRow_vote (k : VoteKind) :
    findRow 0xA5 k.code = some (rowA 0xA5 k.code (fun g f => .vote ⟨g, k, f.d, pr f.a⟩) kDA (fun f => prOk f.a)) := by
  cases k <;> rfl

theorem findRow_shfl (k : ShflKind) :
    findRow 0xA6 k.code = some (rowA 0xA6 k.code (fun g f => .shfl ⟨g, k, f.ty == 3, f.d, f.a, f.b⟩) kRR
      (c4 := fun f => f.ty == 7 || f.ty == 3)) := by
  cases k <;> rfl

theorem decode_red {x : AtomOps} {w : DWord} (hwf : WellFormed (.red x) = true)
    (hop : (x.op.admits x.ty && x.op != .exch && x.d == 0) = true) (henc : encode (.red x) = some w) : decode w = .ok (.red x) := by
  simp only [Bool.and_eq_true, bne_iff_ne] at hop
  obtain ⟨⟨-, hexch⟩, -⟩ := hop
  exact decode_eAtom hwf henc (findRow_red hexch)

theorem decode_wred {x : WredOps} {w : DWord} (hwf : WellFormed (.wred x) = true)
    (hop : (x.op.admits x.ty && x.op != .exch) = true) (henc : encode (.wred x) = some w) : decode w = .ok (.wred x) :=
  decode_rowA hwf henc (findRow_wred (bne_iff_ne.mp (Bool.and_eq_true_iff.mp hop).2)) (by simp [FA.tyOf]) rfl rfl

theorem wide_shuffle_read (b : Bool) : ((if b = true then 3#3 else 7#3) == 3#3) = b := by cases b <;> rfl
theorem wide_shuffle_ok (b : Bool) : ((if b = true then 3#3 else 7#3) == 7#3 || (if b = true then 3#3 else 7#3) == 3#3) = true := by
  cases b <;> rfl

theorem decode_shfl {x : ShflOps} {w : DWord} (hwf : WellFormed (.shfl x) = true) (henc : encode (.shfl x) = some w) :
    decode w = .ok (.shfl x) :=
  decode_rowA hwf henc (findRow_shfl x.kind) (by simp [wide_shuffle_read]) rfl (wide_shuffle_ok x.wide)

theorem stash_read (b : Bool) : ((if b = true then 1#2 else 0#2) == 1#2) = b := by cases b <;> rfl
theorem stash_lt (b : Bool) : (if b = true then 1#2 else 0#2).toNat < 2 := by cases b <;> decide

theorem decode_pref {x : PrefOps} {w : DWord} (hwf : WellFormed (.pref x) = true) (henc : encode (.pref x) = some w) :
    decode w = .ok (.pref x) :=
  decode_rowM hwf henc rfl (by simp [stash_read]) (show (0 : BitVec 3) ≠ 6 by decide) rfl (decide_eq_true (stash_lt x.sh))

/-! ### Generator, tile and queue shapes -/

/-- GEN's threshold is read from [39:34], its offsets from [31:0]. -/
theorem gen_read (thr : BitVec 6) (prod cons : BitVec 16) :
    let b4 : BitVec 8 := oc 8 (thr.toNat * 4)
    let lo : BitVec 24 := oc 24 (prod.toNat % 256 * 65536 + cons.toNat)
    fld b4.toNat 2 6 = thr ∧ oc 16 ((fld prod.toNat 8 8).toNat * 256 + lo.toNat / 65536) = prod ∧ lo.setWidth 16 = cons
      ∧ b4.toNat % 4 = 0 := by
  refine ⟨?_, ?_, ?_, ?_⟩ <;> simp only [← BitVec.toNat_inj, oc, fld, BitVec.toNat_ofNat, BitVec.toNat_setWidth] <;> omega

theorem decode_gen {x : GenOps} {w : DWord} (hwf : WellFormed (.gen x) = true) (henc : encode (.gen x) = some w) :
    decode w = .ok (.gen x) := by
  obtain ⟨hthr, hprod, hcons, hzero⟩ := gen_read x.thr x.prod x.cons
  exact decode_rowS hwf henc rfl (by simp only [hthr, hprod, hcons]) (decide_eq_true hzero)

theorem decode_yld {x : YldOps} {w : DWord} (hwf : WellFormed (.yld x) = true) (henc : encode (.yld x) = some w) :
    decode w = .ok (.yld x) := by
  obtain ⟨htwo, hlt⟩ := flag_read (n := 23) x.two
  exact decode_rowS hwf henc rfl (by simp [htwo]) (by simp [hlt])

theorem take_read (two src : Bool) : (oc 24 (bnum two + 2 * bnum src)).toNat = bnum two + 2 * bnum src := by
  revert two src; decide

theorem decode_take {x : TakeOps} {w : DWord} (hwf : WellFormed (.take x) = true) (henc : encode (.take x) = some w) :
    decode w = .ok (.take x) := by
  obtain ⟨htwo, hsrc, hlt⟩ := bnum_pair_read x.two x.src
  exact decode_rowS hwf henc rfl (by simp only [take_read, htwo, hsrc]) (by simp only [take_read, hlt, decide_true])

theorem high_read (q : BitVec 3) : fld (oc 8 (q.toNat * 32)).toNat 5 3 = q ∧ (oc 8 (q.toNat * 32)).toNat % 32 = 0 := by
  revert q; decide

theorem high_low_read (q p : BitVec 3) :
    let b : BitVec 8 := oc 8 (q.toNat * 32 + p.toNat)
    fld b.toNat 5 3 = q ∧ b.setWidth 3 = p ∧ b.toNat / 8 % 4 = 0 := by
  revert q p; decide

section Mat

variable {maj : Nat} {w : DWord}

theorem decode_eMma {mk : MmaOps → Instr} {x : MmaOps} (hwf : WellFormed (mk x) = true) (henc : eMma maj x = some w)
    (hrow : findRow maj 0 = some (rowX maj 0 (mmaRd mk) (fun _ => true))) : decode w = .ok (mk x) :=
  decode_rowX hwf henc hrow (by simp [mmaRd]) rfl rfl

theorem decode_eTileMem {mk : TileMemOps → Instr} {x : TileMemOps} (hwf : WellFormed (mk x) = true) (henc : eTileMem maj x = some w)
    (hrow : findRow maj 0 = some (rowM maj 0 (tileMem mk) (c4 := tileMemOk))) : decode w = .ok (mk x) := by
  obtain ⟨hw, hzero⟩ := high_read x.w
  exact decode_rowM hwf henc hrow (by simp [tileMem, hw]) (scope_ne_reserved _) rfl (by simp [tileMemOk, hzero])

theorem decode_queue {mk : QueueOps → Instr} {x : QueueOps} (hwf : WellFormed (mk x) = true)
    (henc : enS maj 0 x.g ⟨x.d, oc 8 (x.q.toNat * 32), 0, 0⟩ = some w)
    (hrow : findRow maj 0 = some (rowS maj 0 (fun g f => mk ⟨g, f.b5, qOf f⟩)
      (fun f => decide (f.b4.toNat % 32 = 0) && f.b3 == 0 && f.lo == 0))) : decode w = .ok (mk x) := by
  obtain ⟨hq, hzero⟩ := high_read x.q
  exact decode_rowS hwf henc hrow (by simp [qOf, hq]) (by simp [hzero])

theorem code_read (c : BitVec 16) : (c.setWidth 24).setWidth 16 = c ∧ (c.setWidth 24).toNat < 65536 := by
  rw [← BitVec.toNat_inj]
  simp only [BitVec.toNat_setWidth]
  omega

theorem decode_eCode {mk : CodeOps → Instr} {x : CodeOps} (hwf : WellFormed (mk x) = true) (henc : eCode maj x = some w)
    (hrow : findRow maj 0 = some (rowS maj 0 (codeRd mk) codeOk)) : decode w = .ok (mk x) := by
  obtain ⟨hcode, hlt⟩ := code_read x.code
  exact decode_rowS hwf henc hrow (by simp only [codeRd, hcode]) (by simp only [codeOk, hlt, decide_true]; rfl)

end Mat

theorem decode_wdrn {x : WdrnOps} {w : DWord} (hwf : WellFormed (.wdrn x) = true) (henc : encode (.wdrn x) = some w) :
    decode w = .ok (.wdrn x) := by
  obtain ⟨hw, hzero⟩ := high_read x.w
  exact decode_rowMz hwf henc rfl (by simp [hw]) (by simp [hzero])

theorem decode_wbnd {x : WbndOps} {w : DWord} (hwf : WellFormed (.wbnd x) = true) (henc : encode (.wbnd x) = some w) :
    decode w = .ok (.wbnd x) := by
  obtain ⟨hw, hzero⟩ := high_read x.w
  obtain ⟨hf, hlt⟩ := flag_read (n := 23) x.f
  exact decode_rowS hwf henc rfl (by simp [qOf, hw, hf]) (by simp [hzero, hlt])

theorem decode_qpeek {x : QpeekOps} {w : DWord} (hwf : WellFormed (.qpeek x) = true) (henc : encode (.qpeek x) = some w) :
    decode w = .ok (.qpeek x) := by
  obtain ⟨hq, hp, hzero⟩ := high_low_read x.q x.p
  exact decode_rowS hwf henc rfl (by simp only [qOf, hq, hp]) (by simp only [hzero]; rfl)

theorem decode_qdrop {x : QdropOps} {w : DWord} (hwf : WellFormed (.qdrop x) = true) (henc : encode (.qdrop x) = some w) :
    decode w = .ok (.qdrop x) := by
  obtain ⟨hq, hzero⟩ := high_read x.q
  exact decode_rowS hwf henc rfl (by simp [qOf, hq]) (by simp [hzero])

theorem wide_wait_read (b : Bool) :
    bit (if b = true then 128#8 else 0#8).toNat 7 = b ∧ (if b = true then 128#8 else 0#8).toNat % 128 = 0 := by
  cases b <;> decide

theorem decode_swaitc {x : SwaitcOps} {w : DWord} (hwf : WellFormed (.swaitc x) = true) (henc : encode (.swaitc x) = some w) :
    decode w = .ok (.swaitc x) := by
  obtain ⟨hwide, hzero⟩ := wide_wait_read x.wide
  exact decode_rowT hwf henc rfl (by simp [hwide]) (by simp [hzero])

theorem rofs_read (x : Word) : oc 32 ((fld x.toNat 24 8).toNat * 2 ^ 24 + (fld x.toNat 0 24).toNat) = x := by
  rw [fld_zero_toNat, fld_toNat_mul_add_mod, Nat.mod_eq_of_lt x.isLt, oc_toNat]

theorem toNat_oc_24 {n : Nat} (h : n < 2 ^ 24) : (oc 24 n).toNat = n := by
  rw [oc, BitVec.toNat_ofNat, Nat.mod_eq_of_lt h]

theorem decode_movcRead {x : MovcOps} {w : DWord} (hwf : WellFormed (.movcRead x) = true) (henc : encode (.movcRead x) = some w) :
    decode w = .ok (.movcRead x) := by
  have hlt := creg_code_lt x.cr
  have hlo : (oc 24 x.cr.code).toNat = x.cr.code := toNat_oc_24 (by omega)
  have hdiv : x.cr.code / 4096 = 0 := Nat.div_eq_of_lt hlt
  have hmod : x.cr.code % 4096 = x.cr.code := Nat.mod_eq_of_lt hlt
  exact decode_rowS hwf henc rfl (by simp [movcRd, hlo, hdiv, hmod]) (by simp [movcOk, hlo, hdiv, hmod]; omega)

theorem decode_movcWrite {x : MovcOps} {w : DWord} (hwf : WellFormed (.movcWrite x) = true) (henc : encode (.movcWrite x) = some w) :
    decode w = .ok (.movcWrite x) := by
  have hlt := creg_code_lt x.cr
  have hlo : (oc 24 (4096 + x.cr.code)).toNat = 4096 + x.cr.code := toNat_oc_24 (by omega)
  have hdiv : (4096 + x.cr.code) / 4096 = 1 := by omega
  have hmod : x.cr.code % 4096 = x.cr.code := Nat.mod_eq_of_lt hlt
  exact decode_rowS hwf henc rfl (by simp [movcRd, hlo, hdiv, hmod]) (by simp [movcOk, hlo, hdiv, hmod]; omega)

/-! ### Every instruction -/

/-- A well-formed instruction is read from its word: the row of its major and minor is found in the map, and that row reads each field
where the encoder wrote it. -/
theorem decode_of_encode {i : Instr} {w : DWord} (hwf : WellFormed i = true) (hill : ∀ r v, i ≠ .illegalInstruction r v)
    (henc : encode i = some w) : decode w = .ok i := by
  obtain ⟨-, hfield, -⟩ := wellFormed_iff.mp hwf
  cases i with
  | iadd x | isub x | imul x => exact decode_eRRsat hwf henc rfl
  | iaddImm x | isubImm x | imulImm x | andImm x | orImm x | xorImm x | shlImm x | shrImm x | sarImm x =>
    exact decode_eRI_bits hwf henc rfl rfl rfl rfl rfl hfield
  | iminImm x | imaxImm x => exact decode_eRI_int hwf henc rfl rfl rfl rfl hfield
  | imulh x | imin x | imax x | and x | or x | xor x | shl x | shr x | sar x | bfx x =>
    exact decode_eRR hwf (eq_false_of_and_not hfield) henc rfl
  | imad x => exact decode_eRRRsat hwf henc rfl
  | bfi x => exact decode_eRRR hwf (eq_false_of_and_not hfield) henc rfl
  | iabs x => exact decode_eRsat hwf henc rfl
  | popc x | clz x | brev x | mov x => exact decode_eR hwf (eq_false_of_and_not hfield) henc rfl
  | iset x => exact decode_rowA hwf henc rfl (by simp [FA.tyOf]) rfl (by simp)
  | isetImm x => exact decode_isetImm hwf hfield henc
  | sel x => exact decode_rowA hwf henc rfl (by simp [FA.tyOf]) rfl (prOk_setWidth _)
  | movFromLk x | movToLk x | pmovGet x | pmovPut x | nop x | budget x | flgrd x | flgrdClr x | pk4 x =>
    exact decode_rowA hwf henc rfl rfl rfl rfl
  | lea x => exact decode_lea hwf henc
  | plog x => exact decode_rowA hwf henc rfl (by simp [plog_read]) rfl (by simp)
  | movs x => exact decode_rowA hwf henc rfl (by simp) rfl (decide_eq_true (sreg_assigned _))
  | movi x | movi64 x | budgetImm x => exact decode_rowI hwf henc rfl rfl rfl
  | fadd x | fsub x | fmul x => exact decode_eFlt hwf henc rfl
  | ffma x => exact decode_rowA hwf henc rfl (by simp [FA.tyOf, FA.tierOf, FA.rndOf, FA.mods]) rfl rfl
  | fmin x | fmax x => exact decode_eMM hwf henc rfl
  | fset x => exact decode_fset hwf (Bool.and_eq_true_iff.mp hfield).2 henc
  | frnd x | frcp x | frsq x | fsqrt x | fexp2 x | flog2 x => exact decode_eU hwf henc rfl
  | fscl x => exact decode_rowA hwf henc rfl (by simp [FA.tyOf, FA.rndOf]) rfl rfl
  | fcls x => exact decode_rowA hwf henc rfl (by simp [FA.tyOf]) rfl rfl
  | cvt x => exact decode_cvt hwf henc
  | cvtiF2i x | cvtiI2f x => exact decode_rowA hwf henc rfl (by simp [FA.tyOf, FA.rndOf]) rfl (ffmt_assigned _)
  | qnt x | qntOl x => exact decode_rowA hwf henc rfl (by simp [FA.rndOf]) rfl rfl
  | dqnt x => exact decode_dqnt hwf henc
  | upk4 x => exact decode_upk4 hwf henc
  | brd x => exact decode_brd hwf henc
  | braise x => exact decode_braise hwf henc
  | bchk x => exact decode_bchk hwf henc
  | ld x | st x => exact decode_eMem hwf henc rfl
  | pref x => exact decode_pref hwf henc
  | smap x | smapUn x | cwb x => exact decode_rowS hwf henc rfl rfl rfl
  | swb x | sinv x | tlbi x | icinv x => exact decode_eRange hwf henc rfl
  | swbAll g | sinvAll g | tlbiAll g | icinvAll g => exact decode_eAll hwf henc rfl
  | atom x => exact decode_eAtom hwf henc (findRow_atom x.op)
  | acas x => exact decode_rowMA hwf henc rfl (by simp) (scope_ne_reserved _) rfl rfl
  | red x => exact decode_red hwf hfield henc
  | fence x | fenceJ x => exact decode_rowM hwf henc rfl (by simp) (scope_ne_reserved _) rfl rfl
  | csig x | csigFl x | cpendAdd x | cpendSub x | cwait x => exact decode_eCobj hwf henc rfl
  | crd x => exact decode_rowMA hwf henc rfl (by simp) (scope_ne_reserved _) rfl rfl
  | gbar x | garr x | gdrop x | gjoin x => exact decode_eBar hwf henc rfl
  | mjoin x | mleave x | mwait x => exact decode_eMask hwf henc rfl
  | mrd x | mwr x => exact decode_rowS hwf henc rfl (by simp only [nibble_read]) (by simp only [maskOk, nibble_lt]; rfl)
  | vote x => exact decode_rowA hwf henc (findRow_vote x.kind) (by simp) rfl (prOk_setWidth _)
  | shfl x => exact decode_shfl hwf henc
  | wred x => exact decode_wred hwf hfield henc
  | gen x => exact decode_gen hwf henc
  | yld x => exact decode_yld hwf henc
  | take x => exact decode_take hwf henc
  | gend x | gstat x | job x | grow x | lnch x | rte x | fres x | fdisc x | save x | rest x | sbrd x | halt x =>
    exact decode_rowS hwf henc rfl rfl rfl
  | bra x | brx x | call x | callReg x | ret x | exit x => exact decode_rowB hwf henc rfl rfl rfl rfl
  | mma x | mmao x => exact decode_eMma hwf henc rfl
  | wzero x => exact decode_rowX hwf henc rfl rfl rfl (decide_eq_true rfl)
  | wmov x => exact decode_rowX hwf henc rfl (by simp) rfl (decide_eq_true rfl)
  | wld x | wst x => exact decode_eTileMem hwf henc rfl
  | wdrn x => exact decode_wdrn hwf henc
  | wbnd x => exact decode_wbnd hwf henc
  | qpop x | qcnt x => exact decode_queue hwf henc rfl
  | qpeek x => exact decode_qpeek hwf henc
  | qdrop x => exact decode_qdrop hwf henc
  | sloop x => exact decode_rowL hwf henc rfl (by simp) rfl rfl
  | snext a => exact decode_rowL hwf henc rfl rfl rfl rfl
  | sfetch x | smark x | sdone => exact decode_rowT hwf henc rfl rfl rfl
  | swaitc x => exact decode_swaitc hwf henc
  | trap x | bkpt x | sleep x => exact decode_eCode hwf henc rfl
  | phint x => exact decode_rowS hwf henc rfl (by simp only [rofs_read]) rfl
  | movcRead x => exact decode_movcRead hwf henc
  | movcWrite x => exact decode_movcWrite hwf henc
  | illegalInstruction r v => exact absurd rfl (hill r v)
  | _ => exact nomatch henc

end Sys2Proof.Laws

/-! SUPPORT. Who may run a privileged word: it is legal in a SYS clause alone, and a clause is fetched under the header checks of R139. -/

namespace Sys2Proof.Laws

open Sys2Proof.Machine

/-! ## Privileged words (R139, R143, R272, R324) -/

theorem admits_of_legal {cls : BitVec 3} {last : Bool} {al : Option Alloc} {w : DWord} {i : Instr}
    (h : legal cls last al w = .ok i) : admits cls (w.toNat / 2 ^ 56) (w.toNat / 2 ^ 52 % 16) = true := by
  unfold legal at h
  dsimp only at h
  split at h
  · exact nomatch h
  · split at h
    · exact nomatch h
    · next hadm => simp_all

theorem not_admits_privileged {cls : BitVec 3} {maj min : Nat} (hcls : cls.toNat < 5) (hmaj : 0xF0 ≤ maj) :
    admits cls maj min = false := by
  have hcases : cls = clsAlu ∨ cls = clsMem ∨ cls = clsMat ∨ cls = clsCtl ∨ cls = clsStr := by
    clear hmaj
    revert cls; decide
  rcases hcases with rfl | rfl | rfl | rfl | rfl <;> simp [admits, strAlu, clsAlu, clsMem, clsMat, clsCtl, clsStr] <;> omega

/-- Of the assigned classes only SYS admits a privileged major (Table 7-2). -/
theorem sys_of_admits {cls : BitVec 3} {maj min : Nat} (hcls : cls.toNat < 6) (hmaj : 0xF0 ≤ maj) (h : admits cls maj min = true) :
    cls = 5 := by
  have hge : 5 ≤ cls.toNat := by
    by_contra hlt
    rw [not_admits_privileged (by omega) hmaj] at h
    exact nomatch h
  apply BitVec.eq_of_toNat_eq
  change cls.toNat = 5
  omega

theorem legal_of_unassigned {cls : BitVec 3} {last : Bool} {al : Option Alloc} {w : DWord}
    (h : majorAssigned (w.toNat / 2 ^ 56) = false) : legal cls last al w = .error .unassigned := by
  simp only [legal, h, Bool.not_false, if_true]

theorem cls_ne_sys_of_user {h : Header} {str : Bool} (hok : h.ok false str = true) : h.cls ≠ clsSys := by
  simp only [Header.ok, Bool.and_eq_true, Bool.or_false, bne_iff_ne] at hok
  obtain ⟨⟨⟨-, hcls⟩, -⟩, -⟩ := hok
  exact hcls

section Fetch

variable {w : Who} {hs : List Nat} {hdr : DWord} {str : Bool} {l0 : Loc} {h : Header} {ws : List DWord}

theorem ok_of_oldClause {n e : Nat} {s : State} (hf : (oldClause w hs hdr str l0 n e s).1 = .ok h ws) : h.ok w.priv str = true := by
  induction n generalizing e s with
  | zero => exact nomatch hf
  | succ n ih =>
    unfold oldClause at hf
    dsimp only at hf
    split at hf
    · exact nomatch hf
    · next hok =>
      split at hf
      · exact ih hf
      · split at hf
        · exact nomatch hf
        · cases hf
          simpa using hok

theorem ok_of_fetchMiss {s : State} (hf : (fetchMiss s w hs hdr str l0).1 = .ok h ws) : h.ok w.priv str = true := by
  unfold fetchMiss at hf
  split at hf
  · exact nomatch hf
  · dsimp only at hf
    split at hf
    · split at hf
      · exact ok_of_oldClause hf
      · exact nomatch hf
    · next hok =>
      split at hf
      · exact ok_of_oldClause hf
      · split at hf
        · exact nomatch hf
        · split at hf
          · exact nomatch hf
          · cases hf
            simpa using hok

/-- A clause that is fetched has passed the checks of its header (R139), from a copy as from memory. -/
theorem ok_of_fetchClause {s : State} (hf : (fetchClause s w hs hdr str).1 = .ok h ws) : h.ok w.priv str = true := by
  unfold fetchClause at hf
  split at hf
  · exact nomatch hf
  · split at hf
    · exact ok_of_fetchMiss hf
    · dsimp only at hf
      split at hf
      · exact nomatch hf
      · next hok =>
        split at hf
        · exact nomatch hf
        · split at hf
          · cases hf
            simpa using hok
          · exact ok_of_fetchMiss hf

end Fetch

/-! ## The statements on words -/

/-- Settles O51: the row of a well-formed instruction is found by its major and minor and reads each field where the encoder wrote it. -/
theorem encodeThenDecode : Obligations.EncodeThenDecode :=
  fun _ _ hwf hill henc => decode_of_encode hwf hill henc

/-- Settles O52: every row of the map keeps every bit of a word it accepts (`writes_opcodeMap`). -/
theorem decodeThenEncode : Obligations.DecodeThenEncode :=
  fun _ _ h => encode_of_decode h

/-- Settles O53: of the assigned classes only SYS admits a privileged major, a header of class SYS fails its checks in user mode, and a
clause is fetched only when its header passes them. -/
theorem privilegedWordsNeedSys : Obligations.PrivilegedWordsNeedSys :=
  ⟨fun _ _ _ _ _ hcls hlegal hmaj => sys_of_admits hcls hmaj (admits_of_legal hlegal),
    fun _ _ hok => cls_ne_sys_of_user hok,
    fun _ _ _ _ _ _ _ _ hf => ok_of_fetchClause (congrArg Prod.fst hf),
    fun _ _ _ _ h => legal_of_unassigned h⟩

/-- Settles O50: the decoder evaluates on the thirteen words. -/
theorem wordsDecode : Obligations.WordsDecode := by
  unfold Obligations.WordsDecode
  decide

end Sys2Proof.Laws


/-! SUPPORT. How an instruction of the STR subset completes, and the operands and results of its types in registers and pairs (R47, R68,
R144, R162, R163). -/

namespace Sys2Proof.Laws

open Sys2Proof.Machine Sys2Proof.Claims Sys2Proof.Safety

/-! ## Completion -/

/-- An instruction of the STR subset, by what it computes of the registers. -/
theorem computes_of_eq {i : Instr} {gd : Guard} {e f : RegFile → List (Nat × Reg) × Byte} (hi : ∀ s, exec i s = .next (aluOp gd e s))
    (hf : ∀ rf, e rf = f rf) : Computes i gd f := by
  rw [← funext hf]
  exact aluOp_computes hi

/-- An instruction whose lanes change their own thread and never trap. -/
theorem eachLane_of_ok {i : Instr} {gd : Guard} {F : Thread → Except FInfo Thread} {f : Thread → Thread}
    (hi : ∀ s, exec i s = .next (threadOp gd F s)) (hf : ∀ t, F t = .ok (f t)) : EachLane i gd (fun _ => f) :=
  fun s _ _ h => (hi s).trans (congrArg Host.Outcome.next (threadOp_each hf h))

/-! ## Registers and pairs -/

theorem loWord_pairWord (lo hi : Word) : loWord (pairWord lo hi) = lo := BitVec.setWidth_append_eq_right

theorem hiWord_pairWord (lo hi : Word) : hiWord (pairWord lo hi) = hi := by
  apply BitVec.eq_of_toNat_eq
  have h := lo.isLt
  have h' := hi.isLt
  simp only [hiWord, pairWord, BitVec.toNat_setWidth, BitVec.toNat_ushiftRight, BitVec.toNat_append, Nat.shiftRight_or_distrib,
    Nat.shiftLeft_shiftRight, Nat.shiftRight_eq_div_pow lo.toNat, Nat.div_eq_of_lt h, Nat.or_zero, Nat.mod_eq_of_lt h']

/-- A value that is read and written again: the words of a register or a pair, the odd shadow zero (R68). -/
theorem wrTy_rdTy (rf : RegFile) (wide : Bool) (d a : VReg) (b : BitVec 16) : wrTy wide d (rdTy rf wide a) b
    = (d.toNat, ⟨(rf a.toNat).val, b⟩) :: (if wide then [(d.toNat + 1, ⟨(rf (a.toNat + 1)).val, 0⟩)] else []) := by
  cases wide
  · exact congrArg (fun w => [(d.toNat, (⟨w, b⟩ : Reg))]) (loWord_setWidth _)
  · simp only [wrTy, rdTy, if_true, loWord_pairWord, hiWord_pairWord]

/-- The same with the shadow that was read. -/
theorem wrTy_rdTy_rdBnd (rf : RegFile) (wide : Bool) (d a : VReg) : wrTy wide d (rdTy rf wide a) (rdBnd rf a)
    = (d.toNat, rf a.toNat) :: (if wide then [(d.toNat + 1, ⟨(rf (a.toNat + 1)).val, 0⟩)] else []) := wrTy_rdTy ..

/-! ## Integers -/

theorem intOf_rdTy {ty : Ty} (h : ty.isIntOrBits = true) (rf : RegFile) (r : VReg) : intOf ty (rdTy rf ty.wide r) = intVal ty rf r := by
  have hword : ((rf r.toNat).val.setWidth 64).setWidth 32 = (rf r.toNat).val := loWord_setWidth _
  cases ty
  case s32 => exact (intOf_s32 _).trans (congrArg BitVec.toInt hword)
  case s64 => exact intOf_s64 _
  case n64 => exact intOf_unsigned rfl _
  case n32 | b32 => exact (intOf_unsigned rfl _).trans (congrArg (fun w : Word => (w.toNat : Int)) hword)
  case f32 | f64 | bf16x2 => exact nomatch h

/-- The immediate operand (R162). -/
theorem intOf_imm {ty : Ty} (h : ty.isIntOrBits = true) (imm : Word) :
    intOf ty (if ty == .s64 then imm.signExtend 64 else imm.setWidth 64) = immVal ty imm := by
  have hword : (imm.setWidth 64).setWidth 32 = imm := loWord_setWidth _
  have hwide : (imm.setWidth 64).toNat = imm.toNat := BitVec.toNat_setWidth_of_le (by decide)
  cases ty
  case s32 => exact (intOf_s32 _).trans (congrArg BitVec.toInt hword)
  case s64 => exact (intOf_s64 _).trans (BitVec.toInt_signExtend_of_le (by decide))
  case n64 => exact (intOf_unsigned rfl _).trans (congrArg Nat.cast hwide)
  case n32 | b32 => exact (intOf_unsigned rfl _).trans (congrArg (fun w : Word => (w.toNat : Int)) hword)
  case f32 | f64 | bf16x2 => exact nomatch h

/-- An integer wrapped to a width. -/
theorem ofNat_emod (w : Nat) (k : Int) : BitVec.ofNat w (k % 2 ^ w).toNat = BitVec.ofInt w k := by
  have hpos : (0 : Int) ≤ k % 2 ^ w := Int.emod_nonneg _ (by positivity)
  rw [← BitVec.ofInt_natCast, Int.toNat_of_nonneg hpos]
  apply BitVec.eq_of_toInt_eq
  rw [BitVec.toInt_ofInt, BitVec.toInt_ofInt]
  exact_mod_cast Int.emod_bmod k (2 ^ w)

theorem intBits_narrow {ty : Ty} (h : ty.wide = false) (k : Int) : loWord (intBits ty k) = BitVec.ofInt 32 k := by
  rw [intBits, tyBits, h, loWord, BitVec.setWidth_ofNat_of_le (by decide)]
  exact ofNat_emod 32 k

theorem intBits_wide {ty : Ty} (h : ty.wide = true) (k : Int) : intBits ty k = BitVec.ofInt 64 k := by
  rw [intBits, tyBits, h]
  exact ofNat_emod 64 k

theorem loWord_ofInt (k : Int) : loWord (BitVec.ofInt 64 k) = BitVec.ofInt 32 k := by
  rw [← ofNat_emod, ← ofNat_emod, loWord, BitVec.setWidth_ofNat_of_le (by decide)]
  apply BitVec.eq_of_toNat_eq
  rw [BitVec.toNat_ofNat, BitVec.toNat_ofNat]
  omega

theorem hiWord_ofInt (k : Int) : hiWord (BitVec.ofInt 64 k) = BitVec.ofInt 32 (k / 2 ^ 32) := by
  rw [← ofNat_emod, ← ofNat_emod]
  apply BitVec.eq_of_toNat_eq
  simp only [hiWord, BitVec.toNat_setWidth, BitVec.toNat_ushiftRight, Nat.shiftRight_eq_div_pow, BitVec.toNat_ofNat]
  omega

/-- A wrapped result in its registers (R163, R67). -/
theorem wrTy_intBits {ty : Ty} (h : ty.isIntOrBits = true) (d : VReg) (k : Int) : wrTy ty.wide d (intBits ty k) 0 = intRegs ty d k := by
  have hwide : wrTy true d (BitVec.ofInt 64 k) 0
      = [(d.toNat, ⟨BitVec.ofInt 32 k, 0⟩), (d.toNat + 1, ⟨BitVec.ofInt 32 (k / 2 ^ 32), 0⟩)] := by
    simp only [wrTy, if_true, loWord_ofInt, hiWord_ofInt]
  cases ty
  case s32 | n32 | b32 => exact congrArg (fun w => [(d.toNat, (⟨w, 0⟩ : Reg))]) (intBits_narrow rfl k)
  case s64 | n64 => rw [intBits_wide rfl]; exact hwide
  case f32 | f64 | bf16x2 => exact nomatch h

theorem intMin_eq_intLow {ty : Ty} (h : ty.isIntOrBits = true) : intMin (tyBits ty) (tySigned ty) = intLow ty := by
  cases ty
  case f32 | f64 | bf16x2 => exact nomatch h
  all_goals rfl

theorem intMax_eq_intHigh {ty : Ty} (h : ty.isIntOrBits = true) : intMax (tyBits ty) (tySigned ty) = intHigh ty := by
  cases ty
  case f32 | f64 | bf16x2 => exact nomatch h
  all_goals rfl

/-- An exact value wrapped or clamped, with SA for a clamp that changed it (R163). -/
theorem intRes_eq_intOut {ty : Ty} (h : ty.isIntOrBits = true) (sat : Bool) (d : VReg) (k : Int) :
    (wrTy ty.wide d (intRes ty sat k).1 0, (intRes ty sat k).2) = intOut ty sat d k := by
  cases sat
  · simp only [intRes, intOut, Bool.false_eq_true, if_false, if_true, wrTy_intBits h]
  · simp only [intRes, intOut, if_true, wrTy_intBits h, intMin_eq_intLow h, intMax_eq_intHigh h, flIf, flSA, bne_iff_ne, ite_not]

/-! ## Integer arithmetic (R163, Table 8-2) -/

theorem intBin_computes {i : Instr} {x : IntRR} {f : Int → Int → Int} (hi : ∀ s, exec i s = .next (intBin x f s))
    (h : x.ty.isIntOrBits = true) : Computes i x.g (intOp2 x f) :=
  computes_of_eq hi (fun rf => by simp only [intOf_rdTy h, intRes_eq_intOut h, intOp2])

theorem intImm_computes {i : Instr} {x : IntRI} {f : Int → Int → Int} (hi : ∀ s, exec i s = .next (intImm x f s))
    (h : x.ty.isIntOrBits = true) : Computes i x.g (intOpI x f) :=
  computes_of_eq hi (fun rf => by
    simp only [immOf, intOf_imm h, intOf_rdTy h, wrTy_intBits h, intOpI, intOut, Bool.false_eq_true, if_false, if_true])

theorem iabs_computes {x : IntR} (h : x.ty.isIntOrBits = true) :
    Computes (.iabs x) x.g (fun rf => intOut x.ty x.sat x.d (intVal x.ty rf x.a).natAbs) :=
  computes_of_eq (fun _ => rfl) (fun rf => by simp only [intOf_rdTy h, intRes_eq_intOut h, absInt])

theorem imad_computes {x : IntRRR} (h : x.ty.isIntOrBits = true) : Computes (.imad x) x.g (fun rf =>
    intOut x.ty x.sat x.d (intVal x.ty rf x.a * intVal x.ty rf x.b + intVal x.ty rf x.c)) :=
  computes_of_eq (fun _ => rfl) (fun rf => by simp only [intOf_rdTy h, intRes_eq_intOut h])

theorem mulHigh_eq (ty : Ty) : mulHigh ty = fun a b => a * b / (if ty.wide then 2 ^ 64 else 2 ^ 32) := by
  funext a b
  rw [mulHigh, tyBits]
  cases ty.wide <;> rfl

/-! ### The types that the encoding admits -/

theorem isIntOrBits_of_isInt {ty : Ty} (h : ty.isInt = true) : ty.isIntOrBits = true := by rw [Ty.isIntOrBits, h]; rfl

theorem isIntOrBits_of_signed {ty : Ty} (h : (ty == .s32 || ty == .s64) = true) : ty.isIntOrBits = true := by
  rcases Bool.or_eq_true_iff.mp h with h | h <;> rw [eq_of_beq h] <;> rfl

theorem wfField_of_wellFormed {i : Instr} (h : WellFormed i = true) : i.wfField = true := (wellFormed_iff.mp h).2.1

theorem left_of_wfField {i : Instr} {p q : Bool} (h : WellFormed i = true) (hi : i.wfField = (p && q)) : p = true :=
  (Bool.and_eq_true_iff.mp (hi ▸ wfField_of_wellFormed h)).1

/-- Settles O1: each instruction takes the exact integer of its operands (`intOf_rdTy`, `intOf_imm`) and writes it wrapped or clamped
(`intRes_eq_intOut`), in the types that its encoding admits. -/
theorem integerArithmeticResults : Obligations.IntegerArithmeticResults := by
  refine ⟨fun x h => ?_, fun x h => ?_, fun x h => ?_, fun x h => ?_, fun x h => ?_, fun x h => ?_, fun x h => ?_, fun x h => ?_,
    fun x h => ?_, fun x h => ?_, fun x h => ?_, fun x h => ?_, fun x h => ?_⟩
  case refine_1 | refine_2 | refine_3 => exact intBin_computes (fun _ => rfl) (left_of_wfField h rfl)
  case refine_4 => exact mulHigh_eq x.ty ▸ intBin_computes (fun _ => rfl) (isIntOrBits_of_isInt (left_of_wfField h rfl))
  case refine_5 | refine_6 => exact intBin_computes (fun _ => rfl) (isIntOrBits_of_isInt (left_of_wfField h rfl))
  case refine_7 | refine_8 | refine_9 => exact intImm_computes (fun _ => rfl) (wfField_of_wellFormed h)
  case refine_10 | refine_11 => exact intImm_computes (fun _ => rfl) (isIntOrBits_of_isInt (wfField_of_wellFormed h))
  case refine_12 => exact iabs_computes (isIntOrBits_of_signed (wfField_of_wellFormed h))
  case refine_13 => exact imad_computes (left_of_wfField h rfl)

end Sys2Proof.Laws


/-! Logic, shifts, bit fields and counts (R163, R164, Table 8-2): each of them said once of a width of 32 or 64 bits. -/

namespace Sys2Proof.Laws

open Sys2Proof.Machine Sys2Proof.Claims Sys2Proof.Safety

/-! ## What the unit does to bits, by the width of the type -/

/-- At a type of width `w` the unit's function `F` of 64-bit operands is `f` on `w`-bit ones. -/
def ActsAs (w : Nat) (ty : Ty) (F : DWord → DWord → DWord) (f : BitVec w → BitVec w → BitVec w) : Prop :=
  tyBits ty = w → ∀ a b : BitVec w, (F (a.setWidth 64) (b.setWidth 64)).setWidth w = f a b

theorem tyBits_narrow {ty : Ty} (h : ty.wide = false) : tyBits ty = 32 := by rw [tyBits, h]; rfl

theorem tyBits_wide {ty : Ty} (h : ty.wide = true) : tyBits ty = 64 := if_pos h

theorem tyBits_le (ty : Ty) : tyBits ty ≤ 64 := by
  unfold tyBits
  split <;> decide

theorem tyBits_pos (ty : Ty) : 0 < tyBits ty := by
  unfold tyBits
  split <;> decide

theorem ActsAs.narrow {ty : Ty} {F : DWord → DWord → DWord} {f : Word → Word → Word} (h : ActsAs 32 ty F f) (hty : ty.wide = false)
    (a b : Word) : loWord (F (a.setWidth 64) (b.setWidth 64)) = f a b := h (tyBits_narrow hty) a b

theorem ActsAs.wide {ty : Ty} {F f : DWord → DWord → DWord} (h : ActsAs 64 ty F f) (hty : ty.wide = true) (a b : DWord) :
    F a b = f a b := by
  simpa only [BitVec.setWidth_eq] using h (tyBits_wide hty) a b

theorem bitBin_computes {i : Instr} {x : IntRR} {F : DWord → DWord → DWord} {f : Word → Word → Word} {g : DWord → DWord → DWord}
    (hi : ∀ s, exec i s = .next (bitBin x F s)) (hf : ActsAs 32 x.ty F f) (hg : ActsAs 64 x.ty F g) : Computes i x.g (bitOp2 x f g) := by
  refine computes_of_eq hi (fun rf => ?_)
  cases hty : x.ty.wide
  · simp only [bitOp2, hty, Bool.false_eq_true, if_false, rdTy, wrTy, hf.narrow hty, rdVal]
  · simp only [bitOp2, hty, if_true, hg.wide hty]

theorem immOf_narrow {x : IntRI} (h : x.ty.wide = false) : immOf x = x.imm.setWidth 64 := by
  refine if_neg (fun he => ?_)
  rw [eq_of_beq he] at h
  exact nomatch h

theorem bitImm_computes {i : Instr} {x : IntRI} {F : DWord → DWord → DWord} {f : Word → Word → Word} {g : DWord → DWord → DWord}
    (hi : ∀ s, exec i s = .next (bitImm x F s)) (hf : ActsAs 32 x.ty F f) (hg : ActsAs 64 x.ty F g) : Computes i x.g (bitOpI x f g) := by
  refine computes_of_eq hi (fun rf => ?_)
  cases hty : x.ty.wide
  · simp only [bitOpI, hty, Bool.false_eq_true, if_false, rdTy, wrTy, immOf_narrow hty, hf.narrow hty, rdVal]
  · simp only [bitOpI, hty, if_true, hg.wide hty, immOf]

theorem bitUn_computes {i : Instr} {x : IntR} {F : DWord → DWord} {f : Word → Word} {g : DWord → DWord}
    (hi : ∀ s, exec i s = .next (bitUn x F s)) (hf : ActsAs 32 x.ty (fun a _ => F a) (fun a _ => f a))
    (hg : ActsAs 64 x.ty (fun a _ => F a) (fun a _ => g a)) : Computes i x.g (bitOp1 x f g) := by
  refine computes_of_eq hi (fun rf => ?_)
  cases hty : x.ty.wide
  · simp only [bitOp1, hty, Bool.false_eq_true, if_false, rdTy, wrTy, hf.narrow hty _ 0, rdVal]
  · simp only [bitOp1, hty, if_true, hg.wide hty _ 0]

/-! ## Logic -/

section Widths

variable {w : Nat} {ty : Ty}

theorem setWidth_setWidth_64 (hw : tyBits ty = w) (a : BitVec w) : (a.setWidth 64).setWidth w = a := by
  rw [BitVec.setWidth_setWidth_of_le _ (hw ▸ tyBits_le ty), BitVec.setWidth_eq]

theorem and_actsAs : ActsAs w ty (· &&& ·) (· &&& ·) := fun hw a b => by
  rw [BitVec.setWidth_and, setWidth_setWidth_64 hw, setWidth_setWidth_64 hw]

theorem or_actsAs : ActsAs w ty (· ||| ·) (· ||| ·) := fun hw a b => by
  rw [BitVec.setWidth_or, setWidth_setWidth_64 hw, setWidth_setWidth_64 hw]

theorem xor_actsAs : ActsAs w ty (· ^^^ ·) (· ^^^ ·) := fun hw a b => by
  rw [BitVec.setWidth_xor, setWidth_setWidth_64 hw, setWidth_setWidth_64 hw]

/-! ## Shifts -/

theorem toNat_setWidth_64 (hw : tyBits ty = w) (a : BitVec w) : (a.setWidth 64).toNat = a.toNat :=
  BitVec.toNat_setWidth_of_le (hw ▸ tyBits_le ty)

theorem lowBits_setWidth (hw : tyBits ty = w) (a : BitVec w) : lowBits ty (a.setWidth 64) = a.toNat := by
  rw [lowBits, hw, toNat_setWidth_64 hw, Nat.mod_eq_of_lt a.isLt]

/-- A result that is given as a number. -/
theorem setWidth_ofNat_64 (hw : tyBits ty = w) (n : Nat) : (BitVec.ofNat 64 n).setWidth w = BitVec.ofNat w n :=
  BitVec.setWidth_ofNat_of_le (hw ▸ tyBits_le ty) n

theorem ofNat_shiftLeft (a : BitVec w) (n : Nat) : BitVec.ofNat w (a.toNat * 2 ^ n % 2 ^ w) = a <<< n := by
  apply BitVec.eq_of_toNat_eq
  rw [BitVec.toNat_ofNat, Nat.mod_mod, BitVec.toNat_shiftLeft, Nat.shiftLeft_eq]

theorem shlRes_eq (hw : tyBits ty = w) (a : BitVec w) (n : Nat) : (shlRes ty (a.setWidth 64) n).setWidth w = a <<< n := by
  rw [shlRes, lowBits_setWidth hw, hw]
  split
  · next h => exact (BitVec.setWidth_zero _ _).trans (BitVec.shiftLeft_eq_zero h).symm
  · rw [setWidth_ofNat_64 hw, ofNat_shiftLeft]

theorem ofNat_shiftRight (a : BitVec w) (n : Nat) : BitVec.ofNat w (a.toNat / 2 ^ n) = a >>> n := by
  rw [← Nat.shiftRight_eq_div_pow, ← BitVec.toNat_ushiftRight, BitVec.ofNat_toNat, BitVec.setWidth_eq]

theorem shrRes_eq (hw : tyBits ty = w) (a : BitVec w) (n : Nat) : (shrRes ty (a.setWidth 64) n).setWidth w = a >>> n := by
  rw [shrRes, lowBits_setWidth hw, hw]
  split
  · next h => exact (BitVec.setWidth_zero _ _).trans (BitVec.ushiftRight_eq_zero h).symm
  · rw [setWidth_ofNat_64 hw, ofNat_shiftRight]

/-- A shift by the width or more gives copies of the sign bit. -/
theorem sshiftRight_min (a : BitVec w) (n : Nat) : a.sshiftRight (min n w) = a.sshiftRight n := by
  ext i hi
  rw [BitVec.getElem_sshiftRight, BitVec.getElem_sshiftRight]
  by_cases h : n ≤ w
  · simp only [Nat.min_eq_left h]
  · simp only [Nat.min_eq_right (Nat.le_of_not_le h), show ¬ w + i < w by omega, show ¬ n + i < w by omega, dite_false]

theorem sarRes_eq (hw : tyBits ty = w) (a : BitVec w) (n : Nat) : (sarRes ty (a.setWidth 64) n).setWidth w = a.sshiftRight n := by
  have hpos : 0 < w := hw ▸ tyBits_pos ty
  rw [sarRes, hw, toNat_setWidth_64 hw, sint_toNat hpos, setWidth_ofNat_64 hw, ofNat_emod, ← sshiftRight_min,
    BitVec.sshiftRight, Int.shiftRight_eq_div_pow, Nat.cast_pow, Nat.cast_ofNat]

/-- The count of a shift: bits [31:0] of the operand. -/
theorem shCount_word (b : Word) : shCount (b.setWidth 64) = b.toNat := by
  rw [shCount, BitVec.toNat_setWidth_of_le (by decide), Nat.mod_eq_of_lt b.isLt]

theorem shCount_eq (b : DWord) : shCount b = (loWord b).toNat := (BitVec.toNat_setWidth ..).symm

/-- A shift by a register, at both widths, from the shift by a number. -/
theorem shift_narrow {R : DWord → Nat → DWord} {f : Word → Nat → Word}
    (h : tyBits ty = 32 → ∀ (a : Word) n, (R (a.setWidth 64) n).setWidth 32 = f a n) :
    ActsAs 32 ty (fun a b => R a (shCount b)) (fun a b => f a b.toNat) := fun hw a b => by
  rw [h hw, shCount_word]

theorem shift_wide {R : DWord → Nat → DWord} {f : DWord → Nat → DWord}
    (h : tyBits ty = 64 → ∀ (a : DWord) n, (R (a.setWidth 64) n).setWidth 64 = f a n) :
    ActsAs 64 ty (fun a b => R a (shCount b)) (fun a b => f a (loWord b).toNat) := fun hw a b => by
  rw [h hw, shCount_eq, BitVec.setWidth_eq]

end Widths

/-- AND, OR and XOR, of registers and of immediates. -/
theorem logicResults : LogicResults :=
  ⟨fun _ _ => bitBin_computes (fun _ => rfl) and_actsAs and_actsAs, fun _ _ => bitBin_computes (fun _ => rfl) or_actsAs or_actsAs,
    fun _ _ => bitBin_computes (fun _ => rfl) xor_actsAs xor_actsAs, fun _ _ => bitImm_computes (fun _ => rfl) and_actsAs and_actsAs,
    fun _ _ => bitImm_computes (fun _ => rfl) or_actsAs or_actsAs, fun _ _ => bitImm_computes (fun _ => rfl) xor_actsAs xor_actsAs⟩

/-- SHL, SHR and SAR: by a register, bits [31:0] of which count, or by the immediate. -/
theorem shiftResults : ShiftResults := by
  refine ⟨fun x _ => ?_, fun x _ => ?_, fun x _ => ?_, fun x _ => ?_, fun x _ => ?_, fun x _ => ?_⟩
  · exact bitBin_computes (fun _ => rfl) (shift_narrow shlRes_eq) (shift_wide shlRes_eq)
  · exact bitBin_computes (fun _ => rfl) (shift_narrow shrRes_eq) (shift_wide shrRes_eq)
  · exact bitBin_computes (fun _ => rfl) (shift_narrow sarRes_eq) (shift_wide sarRes_eq)
  · exact bitImm_computes (fun _ => rfl) (fun hw a _ => shlRes_eq hw a _) (fun hw a _ => shlRes_eq hw a _)
  · exact bitImm_computes (fun _ => rfl) (fun hw a _ => shrRes_eq hw a _) (fun hw a _ => shrRes_eq hw a _)
  · exact bitImm_computes (fun _ => rfl) (fun hw a _ => sarRes_eq hw a _) (fun hw a _ => sarRes_eq hw a _)

/-- Settles O2: the unit's results on numbers are the operations on bits at each width (`shlRes_eq`, `shrRes_eq`, `sarRes_eq`). -/
theorem logicAndShiftResults : Obligations.LogicAndShiftResults := ⟨logicResults, shiftResults⟩

/-! ## Bit fields (R164) -/

section Widths

variable {w : Nat} {ty : Ty}

theorem toNat_field (a : BitVec w) (pos L : Nat) : ((a >>> pos).setWidth L).toNat = a.toNat / 2 ^ pos % 2 ^ L := by
  rw [BitVec.toNat_setWidth, BitVec.toNat_ushiftRight, Nat.shiftRight_eq_div_pow]

/-- A field as a number is extended as its bits are; one without bits is zero. -/
theorem extendField (hw : w ≤ 64) (signed : Bool) {L : Nat} (f : BitVec L) :
    (if signed && L != 0 then BitVec.ofNat 64 (sint L f.toNat % 2 ^ w).toNat else BitVec.ofNat 64 f.toNat).setWidth w
      = if signed then f.signExtend w else f.setWidth w := by
  have hzero : (BitVec.ofNat 64 f.toNat).setWidth w = f.setWidth w := by
    rw [BitVec.setWidth_ofNat_of_le hw, BitVec.ofNat_toNat]
  cases signed
  · exact hzero
  · by_cases hL : L = 0
    · subst hL
      rw [BitVec.eq_nil f]
      exact (BitVec.setWidth_zero w 64).trans (BitVec.ofInt_ofNat w 0).symm
    · simp only [bne_iff_ne, ne_eq, hL, not_false_eq_true, Bool.true_and, if_true]
      rw [BitVec.setWidth_ofNat_of_le hw, sint_toNat (Nat.pos_of_ne_zero hL), ofNat_emod, BitVec.signExtend]

theorem toNat_word (n : Word) : (n.setWidth 64).toNat = n.toNat := BitVec.toNat_setWidth_of_le (by decide)

/-- The position and the length of a field stand in bits [15:0]. -/
theorem fieldPos_loWord (k : DWord) : (loWord k).toNat % 256 = k.toNat % 256 := by
  rw [loWord, BitVec.toNat_setWidth]
  omega

theorem fieldLen_loWord (k : DWord) : (loWord k).toNat / 256 % 256 = k.toNat / 256 % 256 := by
  rw [loWord, BitVec.toNat_setWidth]
  omega

theorem bfxRes_loWord (ty : Ty) (a k : DWord) : bfxRes ty a ((loWord k).setWidth 64) = bfxRes ty a k := by
  simp only [bfxRes, toNat_word, fieldPos_loWord, fieldLen_loWord]

theorem bfiRes_loWord (ty : Ty) (a b k : DWord) : bfiRes ty a b ((loWord k).setWidth 64) = bfiRes ty a b k := by
  simp only [bfiRes, toNat_word, fieldPos_loWord, fieldLen_loWord]

theorem bfxRes_eq (hw : tyBits ty = w) (a : BitVec w) (k : Word) :
    (bfxRes ty (a.setWidth 64) (k.setWidth 64)).setWidth w = fieldOf (tySigned ty) a k := by
  simp only [bfxRes, lowBits_setWidth hw, hw, toNat_word, ← toNat_field]
  exact extendField (hw ▸ tyBits_le ty) _ _

theorem ofNat_fieldMask (pos : Nat) {L : Nat} (hL : L ≤ w) :
    BitVec.ofNat w (fieldMask w pos L) = ((BitVec.allOnes L).setWidth w) <<< pos := by
  rw [← ofNat_shiftLeft, BitVec.toNat_setWidth_of_le hL, BitVec.toNat_allOnes, fieldMask]

theorem bfiRes_eq (hw : tyBits ty = w) (a b : BitVec w) (k : Word) :
    (bfiRes ty (a.setWidth 64) (b.setWidth 64) (k.setWidth 64)).setWidth w = fieldPut a b k := by
  have h64 : w ≤ 64 := hw ▸ tyBits_le ty
  have ha : BitVec.ofNat w a.toNat = a := by rw [BitVec.ofNat_toNat, BitVec.setWidth_eq]
  simp only [bfiRes, fieldPut, lowBits_setWidth hw, hw, toNat_word, BitVec.setWidth_or, BitVec.setWidth_and, BitVec.setWidth_not h64,
    setWidth_ofNat_64 hw, ofNat_fieldMask _ (Nat.min_le_right _ _), ofNat_shiftLeft, ha]

/-! ## Counts -/

theorem popFrom_eq_countP (k n : Nat) : popFrom k n = (List.range k).countP n.testBit := by
  induction k with
  | zero => rfl
  | succ k ih =>
    rw [popFrom, ih, List.range_succ, List.countP_append, List.countP_singleton, ← Nat.toNat_testBit, Nat.add_comm]
    cases n.testBit k <;> rfl

theorem popFrom_eq_onesOf (a : BitVec w) : popFrom w a.toNat = onesOf a := popFrom_eq_countP w a.toNat

theorem popc_actsAs : ActsAs w ty (fun a _ => d64 (popFrom (tyBits ty) (lowBits ty a))) (fun a _ => BitVec.ofNat w (onesOf a)) :=
  fun hw a _ => (setWidth_ofNat_64 hw _).trans (by rw [lowBits_setWidth hw, hw, popFrom_eq_onesOf])

/-- The highest one of a value that is not zero stands at its binary logarithm. -/
theorem clzOf_toNat (hw : 0 < w) (a : BitVec w) : clzOf w a.toNat = a.clz.toNat := by
  by_cases ha : a = 0
  · rw [BitVec.clz_eq_iff_eq_zero.mpr ha, ha]
    exact (Nat.mod_eq_of_lt Nat.lt_two_pow_self).symm
  · have hne : a.toNat ≠ 0 := fun h => ha (BitVec.eq_of_toNat_eq (by simpa using h))
    have hlow := BitVec.two_pow_sub_clz_le_toNat_of_ne_zero hw ha
    have hhigh := a.toNat_lt_two_pow_sub_clz
    have hclz : a.clz.toNat < w := by
      by_contra hge
      rw [Nat.sub_eq_zero_of_le (by omega)] at hhigh
      omega
    have hlog : a.toNat.log2 = w - 1 - a.clz.toNat :=
      (Nat.log2_eq_iff hne).mpr ⟨hlow, by rwa [show w - 1 - a.clz.toNat + 1 = w - a.clz.toNat by omega]⟩
    rw [clzOf, if_neg hne, hlog]
    omega

theorem clz_actsAs : ActsAs w ty (fun a _ => d64 (clzOf (tyBits ty) (lowBits ty a))) (fun a _ => a.clz) := fun hw a _ =>
  (setWidth_ofNat_64 hw _).trans (by rw [lowBits_setWidth hw, hw, clzOf_toNat (hw ▸ tyBits_pos ty), BitVec.ofNat_toNat, BitVec.setWidth_eq])

/-- The reversal of k bits within a width is that within k bits, moved up. -/
theorem brevFrom_eq_mul {v k : Nat} (h : k ≤ v) (n : Nat) : brevFrom v k n = brevFrom k k n * 2 ^ (v - k) := by
  induction k generalizing v with
  | zero => simp [brevFrom]
  | succ k ih =>
    rw [brevFrom, brevFrom, ih (Nat.le_of_succ_le h), ih (Nat.le_succ k), show v - k = (v - (k + 1)) + 1 by omega,
      show v - 1 - k = v - (k + 1) by omega, show k + 1 - k = 1 by omega, show k + 1 - 1 - k = 0 by omega]
    ring

theorem brevFrom_mod {v k : Nat} (n : Nat) {m : Nat} (h : k ≤ m) : brevFrom v k (n % 2 ^ m) = brevFrom v k n := by
  induction k with
  | zero => rfl
  | succ k ih =>
    have hbit : n % 2 ^ m / 2 ^ k % 2 = n / 2 ^ k % 2 := by
      rw [← Nat.toNat_testBit, ← Nat.toNat_testBit, Nat.testBit_mod_two_pow, decide_eq_true (show k < m by omega), Bool.true_and]
    rw [brevFrom, brevFrom, hbit, ih (Nat.le_of_succ_le h)]

theorem brevFrom_eq_reverse (a : BitVec w) : brevFrom w w a.toNat = a.reverse.toNat := by
  induction w with
  | zero => rw [BitVec.eq_nil a]; rfl
  | succ v ih =>
    have hmsb : a.toNat / 2 ^ v % 2 = a.msb.toNat := by
      rw [← Nat.toNat_testBit, BitVec.msb_eq_getLsbD_last]
      rfl
    have hrest : brevFrom v v a.toNat = (a.setWidth v).reverse.toNat := by
      rw [← ih, BitVec.toNat_setWidth, brevFrom_mod _ le_rfl]
    rw [← BitVec.concat_reverse_setWidth_msb_eq_reverse, BitVec.toNat_concat, brevFrom, hmsb, brevFrom_eq_mul (Nat.le_succ v), hrest,
      show v + 1 - 1 - v = 0 by omega, show v + 1 - v = 1 by omega]
    ring

theorem brev_actsAs : ActsAs w ty (fun a _ => d64 (brevFrom (tyBits ty) (tyBits ty) (lowBits ty a))) (fun a _ => a.reverse) :=
  fun hw a _ => (setWidth_ofNat_64 hw _).trans (by rw [lowBits_setWidth hw, hw, brevFrom_eq_reverse, BitVec.ofNat_toNat, BitVec.setWidth_eq])

end Widths

/-! ## The instructions -/

theorem tySigned_narrow {ty : Ty} (h : tyBits ty = 32) : tySigned ty = (ty == .s32) := by
  cases ty
  case s64 | n64 | f64 => exact absurd h (by decide)
  all_goals rfl

theorem tySigned_wide {ty : Ty} (h : tyBits ty = 64) : tySigned ty = (ty == .s64) := by
  cases ty
  case s64 | n64 | f64 => rfl
  all_goals exact absurd h (by decide)

theorem bfx_narrow (ty : Ty) : ActsAs 32 ty (bfxRes ty) (fieldOf (ty == .s32)) := fun hw a b => by
  rw [bfxRes_eq hw, tySigned_narrow hw]

theorem bfx_wide (ty : Ty) : ActsAs 64 ty (bfxRes ty) (fun a k => fieldOf (ty == .s64) a (loWord k)) := fun hw a b => by
  rw [← bfxRes_loWord, bfxRes_eq hw, tySigned_wide hw, BitVec.setWidth_eq]

theorem bfi_computes (x : IntRRR) : Computes (.bfi x) x.g (fun rf =>
    (if x.ty.wide then wrTy true x.d (fieldPut (rdTy rf true x.a) (rdTy rf true x.b) (loWord (rdTy rf true x.c))) 0
     else [(x.d.toNat, ⟨fieldPut (rdVal rf x.a) (rdVal rf x.b) (rdVal rf x.c), 0⟩)], 0)) := by
  refine computes_of_eq (fun _ => rfl) (fun rf => ?_)
  cases hty : x.ty.wide
  · have h := bfiRes_eq (tyBits_narrow hty) (rdVal rf x.a) (rdVal rf x.b) (rdVal rf x.c)
    exact congrArg (fun v => ([(x.d.toNat, (⟨v, 0⟩ : Reg))], (0 : Byte))) h
  · have h := bfiRes_eq (tyBits_wide hty) (rdTy rf true x.a) (rdTy rf true x.b) (loWord (rdTy rf true x.c))
    simp only [BitVec.setWidth_eq, bfiRes_loWord] at h
    simp only [h, if_true]

/-- R164, Table 8-2. -/
theorem bitFieldResults : BitFieldResults :=
  ⟨fun x _ => bitBin_computes (fun _ => rfl) (bfx_narrow x.ty) (bfx_wide x.ty), fun x _ => bfi_computes x,
    fun _ _ => bitUn_computes (fun _ => rfl) popc_actsAs popc_actsAs, fun _ _ => bitUn_computes (fun _ => rfl) clz_actsAs clz_actsAs,
    fun _ _ => bitUn_computes (fun _ => rfl) brev_actsAs brev_actsAs⟩

/-! ## Moves (R167, R168, R170, R172) -/

theorem sliceMovs_exec (x : MovsOps) {s : State} {qk : Nat} {q : QuadGroup} (hc : s.cur = .slice qk)
    (hq : Map.get? s.quadGroups qk = some q) :
    exec (.movs x) s = .next (modSlice s qk (sliceWrites (wrTy x.src.wide x.d (sregSlice s q x.src) 0))) := by
  change execMovs x s = _
  simp only [execMovs, hc, hq, aluOp_slice _ hc]

theorem threadMovs_each (x : MovsOps) :
    EachLane (.movs x) x.g (fun s t => setRegs t (wrTy x.src.wide x.d (sregThread s t x.src) 0)) := by
  intro s gid g h
  change execMovs x s = _
  rw [execMovs, cur_of_at h]
  exact congrArg Host.Outcome.next (threadOp_each (fun _ => rfl) h)

/-- The sign of a 32-bit immediate, spread over the odd register. -/
theorem wrTy_signExtend (d : VReg) (imm : Word) : wrTy true d (imm.signExtend 64) 0
    = [(d.toNat, ⟨imm, 0⟩), (d.toNat + 1, ⟨if imm.msb then 0xFFFFFFFF else 0, 0⟩)] := by
  have hlow : loWord (imm.signExtend 64) = imm := by
    ext i hi
    rw [loWord, BitVec.getElem_setWidth, BitVec.getLsbD_signExtend, if_pos hi, decide_eq_true (show i < 64 by omega), Bool.true_and,
      BitVec.getLsbD_eq_getElem]
  have hhigh : hiWord (imm.signExtend 64) = if imm.msb then 0xFFFFFFFF else 0 := by
    have hbit (i : Nat) (hi : i < 32) : (hiWord (imm.signExtend 64))[i] = imm.msb := by
      rw [hiWord, BitVec.getElem_setWidth, BitVec.getLsbD_ushiftRight, BitVec.getLsbD_signExtend, if_neg (by omega),
        decide_eq_true (show 32 + i < 64 by omega), Bool.true_and]
    ext i hi
    rw [hbit]
    cases imm.msb
    · exact (BitVec.getElem_zero hi).symm
    · exact (BitVec.getElem_allOnes i hi).symm
  simp only [wrTy, if_true, hlow, hhigh]

/-- A value that moves keeps its words and, for MOV, its shadow. -/
theorem moveResults : MoveResults := by
  refine ⟨fun x _ => ?_, fun x => ?_, fun x => ?_, fun x => ?_, threadMovs_each, fun x s qk q => sliceMovs_exec x, fun x => ?_, fun x => ?_,
    fun g => ?_⟩
  case refine_1 => exact computes_of_eq (fun _ => rfl) (fun rf => congrArg (·, 0) (wrTy_rdTy_rdBnd rf x.ty.wide x.d x.a))
  case refine_2 => exact eachLane_of_ok (fun _ => rfl) (fun _ => rfl)
  case refine_3 => exact eachLane_of_ok (fun _ => rfl) (fun _ => rfl)
  case refine_4 => exact computes_of_eq (fun _ => rfl) (fun _ => rfl)
  case refine_5 =>
    exact computes_of_eq (fun _ => rfl) (fun _ => congrArg (fun w => ([(x.d.toNat, (⟨w, 0⟩ : Reg))], (0 : Byte))) (loWord_setWidth x.imm))
  case refine_6 => exact computes_of_eq (fun _ => rfl) (fun _ => congrArg (·, 0) (wrTy_signExtend x.d x.imm))
  case refine_7 => exact computes_of_eq (fun _ => rfl) (fun _ => rfl)

/-- Settles O4: fields by the bits that the unit's numbers name (`bfxRes_eq`, `bfiRes_eq`), counts by induction on the width, and moves by
the words that are read and written again. -/
theorem bitFieldAndMoveResults : Obligations.BitFieldAndMoveResults := ⟨bitFieldResults, moveResults⟩

end Sys2Proof.Laws


/-! Predicates (R165, R166, R169) and the bounds, the budget and the flags (R193-R197). -/

namespace Sys2Proof.Laws

open Sys2Proof.Machine Sys2Proof.Claims Sys2Proof.Safety

theorem iset_each {x : IsetRR} (h : x.ty.isIntOrBits = true) : EachLane (.iset x) x.g (fun _ t =>
    setPred t x.p (isetHolds x.cond (intVal x.ty (getReg t) x.a) (intVal x.ty (getReg t) x.b))) :=
  eachLane_of_ok (fun _ => rfl) (fun t => by simp only [tVal, intOf_rdTy h])

theorem isetImm_each {x : IsetRI} (h : x.ty.isIntOrBits = true) : EachLane (.isetImm x) x.g (fun _ t =>
    setPred t x.p (isetHolds x.cond (intVal x.ty (getReg t) x.a) (immVal x.ty x.imm))) :=
  eachLane_of_ok (fun _ => rfl) (fun t => by simp only [tVal, intOf_rdTy h, intOf_imm h])

theorem bnum_eq_toNat (b : Bool) : bnum b = b.toNat := by cases b <;> rfl

theorem plog_each (x : PlogOps) : EachLane (.plog x) x.g (fun _ t => setPred t x.p
    (x.tt.getLsbD ((getPred t x.pa).toNat * 4 + (getPred t x.pb).toNat * 2 + (getPred t x.pc).toNat))) :=
  eachLane_of_ok (fun _ => rfl) (fun t => by simp only [bnum_eq_toNat])

/-- Settles O3: ISET compares the exact integers (`intOf_rdTy`, `intOf_imm`), SEL writes the words it read (`wrTy_rdTy_rdBnd`), and the
others move predicates as they are. -/
theorem predicateResults : Obligations.PredicateResults := by
  refine ⟨fun x h => ?_, fun x h => ?_, fun x => ?_, plog_each, fun x => ?_, fun x => ?_, fun t b => ⟨rfl, rfl⟩⟩
  · exact iset_each (isIntOrBits_of_isInt (wfField_of_wellFormed h))
  · exact isetImm_each (isIntOrBits_of_isInt (wfField_of_wellFormed h))
  · exact eachLane_of_ok (fun _ => rfl) (fun t => congrArg (fun l => Except.ok (setRegs t l)) (wrTy_rdTy_rdBnd ..))
  · exact eachLane_of_ok (fun _ => rfl) (fun _ => rfl)
  · exact eachLane_of_ok (fun _ => rfl) (fun _ => rfl)

/-! ## Bounds, budget and flags (R193-R197) -/

/-- BRAISE copies a value under a new bound (R194). -/
theorem braise_each (x : BraiseOps) : EachLane (.braise x) x.g (fun _ t =>
    let b := if x.f32 then fvMag (f32Of (tWord t x.b)) else bdOf ((tWord t x.b).setWidth 16)
    let v := upBd (if x.set then b else bdAdd (bdOf (tBnd t x.a)) b)
    setRegs t ((x.d.toNat, ⟨tWord t x.a, v⟩) :: (if x.pair then [(x.d.toNat + 1, ⟨(getReg t (x.a.toNat + 1)).val, 0⟩)] else []))) :=
  eachLane_of_ok (fun _ => rfl) (fun t => congrArg (fun l => Except.ok (setRegs t l)) (wrTy_rdTy ..))

/-- A reserved pattern sets NV and leaves the budget (R195). -/
theorem budget_each (x : OpS) : EachLane (.budget x) x.g (fun _ t =>
    if budOk (tWord t x.a) then { t with bud := tWord t x.a } else { t with flags := t.flags ||| 1 }) :=
  eachLane_of_ok (fun _ => rfl) (fun _ => rfl)

/-- What BCHK holds a bound against: the operand, or the budget (R196). -/
def bchkLimit (x : BchkOps) (t : Thread) : BitVec 16 := if x.reg then (tWord t x.b).setWidth 16 else (t.bud >>> 16).setWidth 16

/-- A lane of BCHK, unless it traps. -/
def bchkThread (x : BchkOps) (t : Thread) : Option Thread :=
  if bdLe (bdOf (tBnd t x.a)) (bdOf (bchkLimit x t)) then some (setPred t x.p true)
  else if x.trap && t.bud.toNat % 4 == 1 then none
  else
    let u := setPred t x.p false
    some (if x.trap && t.bud.toNat % 4 == 2 then { u with flags := u.flags ||| 0x20 } else u)

theorem bchk_steps (x : BchkOps) : LaneSteps (.bchk x) x.g (fun _ => ownStep (bchkThread x)) := by
  refine fun s gid g u hat hr => congrArg Host.Outcome.next (threadOp_steps (fun t v hv => ?_) hat hr)
  by_cases hle : bdLe (bdOf (tBnd t x.a)) (bdOf (bchkLimit x t)) = true
  · rw [bchkThread, if_pos hle] at hv
    cases hv
    exact if_pos hle
  · rw [bchkThread, if_neg hle] at hv
    by_cases htrap : (x.trap && t.bud.toNat % 4 == 1) = true
    · rw [if_pos htrap] at hv
      exact nomatch hv
    · rw [if_neg htrap] at hv
      cases hv
      exact (if_neg hle).trans (if_neg htrap)

/-- Settles O11: each lane writes what the rule names; BCHK completes where no lane of mode 1 fails under `.trap`. -/
theorem boundAndBudgetResults : Obligations.BoundAndBudgetResults := by
  refine ⟨fun x => ?_, braise_each, budget_each, fun x => ?_, bchk_steps, fun x => ?_, fun x => ?_⟩
  case refine_1 | refine_2 | refine_3 | refine_4 => exact eachLane_of_ok (fun _ => rfl) (fun _ => rfl)

end Sys2Proof.Laws

/-! SUPPORT. A sound memory: its bytes in canonical form, its partials and cached translations aligned (R198, R212, R291, R295),
and what keeps it so. -/

namespace Sys2Proof.Laws

open Sys2Proof.Machine Sys2Proof.Safety

/-! ## What a sound memory is -/

/-- Update-only partials are aligned to their operands (R198, R212). -/
def PartialsAligned (l : List Partial) : Prop := ∀ p ∈ l, p.pa % p.ty.bytes = 0

/-- Cached leaves are aligned to their pages, which are multiples of 4 KiB (R291, R295). -/
def TlbAligned (l : List TlbE) : Prop := ∀ e ∈ l, e.size % 4096 = 0 ∧ e.base % e.size = 0

/-- Cached table entries are aligned to what they cover (R295). -/
def TabsAligned (l : List TabE) : Prop := ∀ e ∈ l, e.base % e.size = 0

/-- A memory system in canonical form, its partials and cached translations aligned. -/
def MemSound (m : MemSys) : Prop :=
  memWf m.bytes = true ∧ PartialsAligned m.partials ∧ TlbAligned m.tlb ∧ TabsAligned m.tabs

/-- A state's memory is sound. -/
abbrev StSound (s : State) : Prop := MemSound s.mem

theorem sound_iff_stSound {s : State} : Sound s ↔ StSound s := Iff.rfl

theorem PartialsAligned.filter {l : List Partial} (h : PartialsAligned l) (p : Partial → Bool) : PartialsAligned (l.filter p) :=
  fun _ hq => h _ (List.mem_filter.mp hq).1

theorem TlbAligned.filter {l : List TlbE} (h : TlbAligned l) (p : TlbE → Bool) : TlbAligned (l.filter p) :=
  fun _ he => h _ (List.mem_filter.mp he).1

theorem TabsAligned.filter {l : List TabE} (h : TabsAligned l) (p : TabE → Bool) : TabsAligned (l.filter p) :=
  fun _ he => h _ (List.mem_filter.mp he).1

/-- A memory system whose bytes are canonical, and which has gained no partial and no cached translation. -/
theorem MemSound.of_eq {m n : MemSys} (h : MemSound m) (hb : memWf n.bytes = true) (hp : n.partials = m.partials)
    (ht : n.tlb = m.tlb) (hs : n.tabs = m.tabs) : MemSound n := by
  unfold MemSound
  rw [hp, ht, hs]
  exact ⟨hb, h.2⟩

/-! ## Bytes, records, partials, keys -/

theorem memSound_of_storeOnly {m n : MemSys} (h : MemSound m) (hb : memWf n.bytes = true) (hs : StoreOnly m n) : MemSound n :=
  h.of_eq hb hs.partials (by rw [hs]) (by rw [hs])

theorem memSound_putStore {m : MemSys} (bt narrow : Bool) (a : Nat) (l : List Byte) (bs : List (BitVec 16)) (h : MemSound m) :
    MemSound (putStore m bt narrow a l bs) :=
  memSound_of_storeOnly h (sysWf_putStore _ _ _ _ _ h.1) (putStore_storeOnly ..)

theorem memSound_combineLine {m : MemSys} (line : Nat) (h : MemSound m) : MemSound (combineLine m line) := by
  obtain ⟨hb, hp, ht, hs⟩ := h
  have hm : MemSound { m with partials := m.partials.filter (fun p => lineOf p.pa != line) } := ⟨hb, hp.filter _, ht, hs⟩
  exact memSound_of_storeOnly hm (sysWf_combineLine line hb) (combineLine_storeOnly ..)

/-- The cached translations of two memory systems are the same. -/
def SameTranslations (m n : MemSys) : Prop := n.tlb = m.tlb ∧ n.tabs = m.tabs

theorem rekeyBlocks_sameTranslations (m : MemSys) (k key : Nat) (l : List Nat) :
    SameTranslations m (l.foldl (rekeyBlockAt k key) m) :=
  List.foldlRecOn (motive := SameTranslations m) l _ ⟨rfl, rfl⟩ (fun _ hm _ _ => hm)

theorem rekeyLine_sameTranslations (m : MemSys) (line key : Nat) : SameTranslations m (rekeyLine m line key) := by
  unfold rekeyLine
  split
  · exact ⟨rfl, rfl⟩
  · split
    · exact ⟨rfl, rfl⟩
    · next k _ =>
      have hm := rekeyBlocks_sameTranslations m k key ((List.range 8).map (fun i => line * 128 + 16 * i))
      generalize ((List.range 8).map (fun i => line * 128 + 16 * i)).foldl (rekeyBlockAt k key) m = n at hm ⊢
      split
      · exact ⟨rfl, rfl⟩
      · split
        · exact ⟨rfl, rfl⟩
        · dsimp only
          split <;> exact hm

theorem memSound_rekeyLine {m : MemSys} (line key : Nat) (h : MemSound m) : MemSound (rekeyLine m line key) :=
  have ht := rekeyLine_sameTranslations m line key
  h.of_eq (sysWf_rekeyLine line key h.1) (rekeyLine_rest m line key).1 ht.1 ht.2

theorem memSound_openLine {m : MemSys} (line key : Nat) (h : MemSound m) : MemSound (openLine m line key) :=
  memSound_rekeyLine line key (memSound_combineLine line h)

/-- What the caches hold is no part of a sound memory (R107). -/
theorem memSound_of_uncached {m n : MemSys} (h : MemSound m) (e : uncached n = uncached m) : MemSound n :=
  h.of_eq ((congrArg (fun x => memWf x.bytes) e : memWf n.bytes = memWf m.bytes).trans h.1) (congrArg MemSys.partials e :)
    (congrArg MemSys.tlb e :) (congrArg MemSys.tabs e :)

theorem memSound_cacheUse {m : MemSys} (core : Option Nat) (evc line : Nat) (w : Bool) (h : MemSound m) :
    MemSound (cacheUse m core evc line w) := memSound_of_uncached h (cacheUse_uncached ..)

/-- Partials combined line after line. -/
theorem memSound_combineLines {m : MemSys} (l : List Nat) (h : MemSound m) : MemSound (l.foldl combineLine m) :=
  List.foldlRecOn l _ h (fun _ hm x _ => memSound_combineLine x hm)

theorem mem_insPartial {p q : Partial} {l : List Partial} (h : q ∈ insPartial p l) : q = p ∨ q ∈ l := by
  induction l with
  | nil => exact .inl (List.mem_singleton.mp h)
  | cons x r ih =>
    unfold insPartial at h
    split at h
    · exact List.mem_cons.mp h
    · split at h
      · exact (List.mem_cons.mp h).imp_right (List.mem_cons_of_mem _)
      · rcases List.mem_cons.mp h with h | h
        · exact .inr (h ▸ List.mem_cons_self)
        · exact (ih h).imp_right (List.mem_cons_of_mem _)

theorem memSound_contribute {m : MemSys} {pa : Nat} {ty : Ty} (core key : Nat) (bt : Bool) (op : AOp) (b : DWord) (bb : BitVec 16)
    (h : MemSound m) (ha : pa % ty.bytes = 0) : MemSound (contribute m core pa key bt op ty b bb) := by
  have hm : MemSound (if m.partials.all (fun p => lineOf p.pa != lineOf pa || (p.op == op && p.ty == ty && p.key == key)) then m
      else combineLine m (lineOf pa)) := by
    split
    · exact h
    · exact memSound_combineLine _ h
  obtain ⟨hb, hp, ht⟩ := memSound_rekeyLine (lineOf pa) key hm
  refine ⟨hb, fun q hq => ?_, ht⟩
  rcases mem_insPartial hq with rfl | hq
  · exact ha
  · exact hp q hq

theorem memSound_migCopy {m : MemSys} (a b n ka kb : Nat) (h : MemSound m) : MemSound (migCopy m a b n ka kb) := by
  have hopen : MemSound ((List.range (n / 128)).foldl (fun m i => openLine m (a / 128 + i) ka) m) :=
    List.foldlRecOn _ _ h (fun _ hm _ _ => memSound_openLine _ _ hm)
  unfold migCopy
  refine List.foldlRecOn (motive := MemSound) _ _ ?_ (fun x hx i _ => ?_)
  · exact hopen.of_eq (memWf_foldl _ (fun _ _ => memWf_memSet _ _) _ (memWf_filter _ hopen.1)) rfl rfl rfl
  · split <;> exact hx

theorem memSound_startMem {m : MemSys} (fresh : Nat) (h : MemSound m) : MemSound (startMem fresh m) :=
  ⟨sysWf_startMem fresh h.1, List.forall_mem_nil _, List.forall_mem_nil _, List.forall_mem_nil _⟩

end Sys2Proof.Laws

/-! SUPPORT. Translation keeps a sound memory, and what it finds is aligned (R291-R295). -/

namespace Sys2Proof.Laws

open Sys2Proof.Machine Sys2Proof.Safety

/-! ## Translation (R291-R297) -/

/-- A leaf whose page, of a multiple of 4 KiB, it is aligned to. -/
def LeafAligned (l : Leaf) : Prop := l.size % 4096 = 0 ∧ l.base % l.size = 0

/-- A leaf that serves an address. -/
def LeafServes (l : Leaf) (va : DWord) : Prop := LeafAligned l ∧ l.base ≤ va.toNat

theorem leafSize_mod {level c n : Nat} (h : leafSize level c = some n) : n % 4096 = 0 := by
  unfold leafSize at h
  split at h
  · split at h <;> cases h <;> rfl
  · obtain ⟨p, hp, hn⟩ := Option.bind_eq_some_iff.mp h
    unfold pageSize at hp
    split at hp <;> cases hp <;> (split at hn <;> cases hn; rfl)

theorem div_mul_mod_self (v n : Nat) : v / n * n % n = 0 := Nat.mul_mod_left ..

theorem sound_wakeDie {s : State} (d : Nat) (h : StSound s) : StSound (wakeDie s d) := h

theorem sound_cacheTable {s : State} (w : Who) (a : Nat) {base size : Nat} (e : DWord) (h : StSound s) (hb : base % size = 0) :
    StSound (cacheTable s w a base size e) := by
  obtain ⟨hm, hp, ht, hs⟩ := h
  refine ⟨hm, hp, ht, fun x hx => ?_⟩
  rcases List.mem_append.mp hx with hx | hx
  · rcases List.mem_cons.mp (List.mem_of_mem_take hx) with rfl | hx
    · exact hb
    · exact hs x (List.mem_filter.mp hx).1
  · exact hs x (List.mem_filter.mp hx).1

/-- What a walk delivers and leaves. -/
def WalkSound (va : DWord) (p : Except FInfo Leaf × State) : Prop := StSound p.2 ∧ ∀ l, p.1 = .ok l → LeafServes l va

theorem WalkSound.error {s : State} {va : DWord} (f : FInfo) (h : StSound s) :
    WalkSound va (.error f, s) := ⟨h, fun _ hl => nomatch hl⟩

theorem WalkSound.ok {s : State} {va : DWord} {l : Leaf} (h : StSound s) (hl : LeafServes l va) : WalkSound va (.ok l, s) :=
  ⟨h, fun _ e => by cases e; exact hl⟩

theorem walkFrom_sound (w : Who) (va : DWord) (k : AKind) (levels : List (Nat × Nat)) {s : State} (tbl : Nat) (h : StSound s) :
    WalkSound va (walkFrom s w va k tbl levels) := by
  induction levels generalizing s tbl with
  | nil => exact .error _ h
  | cons e rest ih =>
    unfold walkFrom
    dsimp only
    split
    · exact .error _ h
    · split
      · exact .error _ (sound_wakeDie _ h)
      · split
        · exact .error _ h
        · split
          · split
            · exact .error _ h
            · exact ih _ (sound_cacheTable _ _ _ h (div_mul_mod_self ..))
          · split
            · exact .error _ h
            · next n hn =>
              split
              · exact .error _ h
              · exact .ok h ⟨⟨leafSize_mod hn, div_mul_mod_self ..⟩, Nat.div_mul_le_self ..⟩

theorem walk_sound {s : State} (w : Who) (va : DWord) (k : AKind) (h : StSound s) : WalkSound va (walk s w va k) := by
  unfold walk
  dsimp only
  split
  · exact .error _ h
  · have hw := walkFrom_sound w va k walkLevels ((partOf s w.part).ptRoot.toNat / 2 ^ 7 % 2 ^ 45 * 2 ^ 7) h
    split
    · next he => exact .error _ (he ▸ hw).1
    · next l u he =>
      rw [he] at hw
      split
      · exact .error _ hw.1
      · split
        · exact .error _ hw.1
        · exact hw

theorem sound_answered {s : State} (core : Option Nat) (line : Nat) (w : Bool) (h : StSound s) :
    StSound (answered s core line w) := by
  rw [StSound, answered_mem]
  exact h

theorem sound_cacheAcc {s : State} (core : Option Nat) (evc : Nat) (plain : Bool) (l : Loc) (w : Bool) (h : StSound s) :
    StSound (cacheAcc s core evc plain l w) := memSound_of_uncached h (cacheAcc_uncached ..)

theorem sound_homeAcc {s : State} (l : Loc) (w : Bool) (h : StSound s) : StSound (homeAcc s l w) := sound_cacheAcc _ _ _ _ _ h

theorem sound_physPoke {s : State} (a : Nat) (l : List Byte) (h : StSound s) : StSound (physPoke s a l) :=
  memSound_putStore _ _ _ _ _ (memSound_combineLine _ (sound_homeAcc _ _ h))

theorem markLeaf_sound {s : State} (w : Who) (va : DWord) (k : AKind) {l : Leaf} (h : StSound s) (hl : LeafServes l va) :
    WalkSound va (markLeaf s w k l) := by
  unfold markLeaf
  generalize l.pte ||| 0x40 ||| (if k.writes then 0x80 else 0) = e
  dsimp only
  split
  · exact .ok h hl
  · split
    · exact .error _ h
    · split
      · exact .error _ (sound_wakeDie _ h)
      · exact .ok (sound_physPoke _ _ h) hl

/-- What a cache of leaves holds once it takes one. -/
theorem tlbAligned_put {t : List TlbE} {e : TlbE} (cap : Nat) (p q : TlbE → Bool) (ht : TlbAligned t)
    (he : e.size % 4096 = 0 ∧ e.base % e.size = 0) : TlbAligned ((e :: t.filter p).take cap ++ t.filter q) := by
  intro x hx
  rcases List.mem_append.mp hx with hx | hx
  · rcases List.mem_cons.mp (List.mem_of_mem_take hx) with rfl | hx
    · exact he
    · exact ht.filter _ x hx
  · exact ht.filter _ x hx

theorem sound_cacheLeaf {s : State} (w : Who) (k : AKind) {l : Leaf} (h : StSound s) (hl : LeafAligned l) :
    StSound (cacheLeaf s w k l) := by
  obtain ⟨hm, hp, ht, hs⟩ := h
  refine ⟨hm, hp, ?_, hs⟩
  unfold cacheLeaf
  dsimp only
  split
  · exact tlbAligned_put _ _ _ (tlbAligned_put _ _ _ ht hl) hl
  · exact tlbAligned_put _ _ _ ht hl

theorem sound_noteWalk {s : State} (w : Who) (va : DWord) (k : AKind) (f : FInfo) (h : StSound s) :
    StSound (noteWalk s w va k f) := by
  unfold noteWalk
  split <;> exact h

theorem walkAndMark_sound {s : State} (w : Who) (va : DWord) (k : AKind) (h : StSound s) :
    WalkSound va (walkAndMark s w va k) := by
  unfold walkAndMark
  split
  · exact .error _ h
  · have hw := walk_sound w va k h
    split
    · next he => exact .error _ (sound_noteWalk _ _ _ _ (he ▸ hw).1)
    · next l u he =>
      rw [he] at hw
      have hm := markLeaf_sound w va k hw.1 (hw.2 l rfl)
      split
      · next he => exact .error _ (he ▸ hm).1
      · next l u he =>
        rw [he] at hm
        exact .ok (sound_cacheLeaf _ _ hm.1 (hm.2 l rfl).1) (hm.2 l rfl)

theorem mem_of_tlbHit {s : State} {w : Who} {va : Nat} {t : TlbE} (h : tlbHit s w va = some t) : t ∈ s.mem.tlb ∧ t.base ≤ va := by
  have hat {home part : Nat} (h : tlbAt s home part va = some t) : t ∈ s.mem.tlb ∧ t.base ≤ va := by
    have hp := List.find?_some h
    simp only [Bool.and_eq_true, decide_eq_true_eq] at hp
    exact ⟨List.mem_of_find?_eq_some h, hp.2.1⟩
  unfold tlbHit at h
  split at h
  · next e => exact hat (h ▸ e)
  · split at h
    · exact hat h
    · exact nomatch h

theorem translateLeaf_sound {s : State} (w : Who) (va : DWord) (k : AKind) (h : StSound s) :
    WalkSound va (translateLeaf s w va k) := by
  unfold translateLeaf
  split
  · exact walkAndMark_sound w va k h
  · next t ht =>
    obtain ⟨hmem, hle⟩ := mem_of_tlbHit ht
    have hl : LeafServes ⟨t.base, t.size, t.pte, t.pteAddr⟩ va := ⟨h.2.2.1 t hmem, hle⟩
    dsimp only
    split
    · exact walkAndMark_sound w va k h
    · split
      · exact .error _ h
      · split
        · split
          · have hm := markLeaf_sound w va k h hl
            split
            · next he => exact .error _ (he ▸ hm).1
            · next l u he =>
              rw [he] at hm
              exact .ok (sound_cacheLeaf _ _ hm.1 (hm.2 l rfl).1) (hm.2 l rfl)
          · exact walkAndMark_sound w va k h
        · exact .ok h hl

/-- Where a translated access lands in its page, it lands in an operand-sized piece of memory as of the page (R198, R291). -/
theorem LeafServes.piece {l : Leaf} {va : DWord} (h : LeafServes l va) {n : Nat} (hn : n ∣ 4096) (ha : va.toNat % n = 0) :
    (ptePa l.pte + (va.toNat - l.base)) % n = 0 := by
  obtain ⟨⟨hsize, hbase⟩, hle⟩ := h
  have hdvd : 4096 ∣ l.base := (Nat.dvd_of_mod_eq_zero hsize).trans (Nat.dvd_of_mod_eq_zero hbase)
  have hpa : 4096 ∣ ptePa l.pte := Dvd.intro_left _ rfl
  exact Nat.mod_eq_zero_of_dvd ((hn.trans hpa).add ((Nat.dvd_sub (Nat.dvd_of_mod_eq_zero ha) (hn.trans hdvd))))

/-- What a translation leaves, and where it leads. -/
theorem translate_sound {s : State} (w : Who) (va : DWord) (k : AKind) (h : StSound s) :
    StSound (Machine.translate s w va k).2 ∧ ∀ pa key bt n, (Machine.translate s w va k).1 = .ok (.phys pa key bt) → n ∣ 4096 →
      va.toNat % n = 0 → pa % n = 0 := by
  have ht := translateLeaf_sound w va k h
  unfold Machine.translate
  split
  · next he => exact ⟨(he ▸ ht).1, fun _ _ _ _ hp => nomatch hp⟩
  · next l u he =>
    rw [he] at ht
    dsimp only
    split
    · exact ⟨ht.1, fun _ _ _ _ hp => nomatch hp⟩
    · refine ⟨ht.1, fun pa key bt n hp hn ha => ?_⟩
      cases hp
      exact (ht.2 l rfl).piece hn ha

theorem sound_translate {s : State} (w : Who) (va : DWord) (k : AKind) (h : StSound s) : StSound (Machine.translate s w va k).2 :=
  (translate_sound w va k h).1

theorem sound_translateLeaf {s : State} (w : Who) (va : DWord) (k : AKind) (h : StSound s) : StSound (translateLeaf s w va k).2 :=
  (translateLeaf_sound w va k h).1

end Sys2Proof.Laws

/-! SUPPORT. Every operation of the model keeps a sound memory, module by module in the model's order (R198, R212, R291, R295).
A definition's branches are closed from what the operations it calls keep. -/

namespace Sys2Proof.Laws

open Sys2Proof.Machine Sys2Proof.Safety

/-- Where a step goes on, it goes on in a sound state. -/
def OutSound (o : Out) : Prop := ∀ t, o = .next t → StSound t

@[simp] theorem outSound_next {s : State} : OutSound (.next s) ↔ StSound s :=
  ⟨fun h => h s rfl, fun h _ e => by cases e; exact h⟩

/-- What a lane leaves is sound. -/
abbrev LaneSound (f : LaneFn) : Prop := ∀ k t s, StSound s → StSound (f k t s).1

theorem stSound_ite {c : Prop} [Decidable c] {s t : State} (hs : StSound s) (ht : StSound t) : StSound (if c then s else t) := by
  split
  · exact hs
  · exact ht


/-- A fold keeps what each of its steps keeps. -/
theorem sound_foldl {α : Type} {f : State → α → State} {l : List α} {s : State} (h : StSound s)
    (hf : ∀ s x, StSound s → StSound (f s x)) : StSound (l.foldl f s) :=
  List.foldlRecOn (motive := StSound) l f h (fun s hs x _ => hf s x hs)

theorem sound_foldl_fst {α β : Type} {f : State × β → α → State × β} {l : List α} {a : State × β} (h : StSound a.1)
    (hf : ∀ a x, StSound a.1 → StSound (f a x).1) : StSound (l.foldl f a).1 :=
  List.foldlRecOn (motive := fun a => StSound a.1) l f h (fun a ha x _ => hf a x ha)

theorem memSound_markDirty {m : MemSys} (line : Nat) (h : MemSound m) : MemSound (markDirty m line) := h
theorem memSound_setRec {m : MemSys} (line : Nat) (r : BRec) (h : MemSound m) : MemSound (setRec m line r) := h
theorem memSound_putBounds {m : MemSys} (bt : Bool) (a : Nat) (l : List (BitVec 16)) (h : MemSound m) :
    MemSound (putBounds m bt a l) :=
  memSound_of_storeOnly h (by rw [putBounds_bytes]; exact h.1) (putBounds_storeOnly ..)

/-! ## Memory -/

theorem sound_drawWord {s : State} (h : StSound s) : StSound (drawWord s).2 := h

theorem sound_touchStash {s : State} (r : StashRef) (line : Nat) (store : Bool) (h : StSound s) :
    StSound (touchStash s r line store) := by
  unfold touchStash
  split <;> exact h

theorem sound_openLoc {s : State} (loc : Loc) (h : StSound s) : StSound (openLoc s loc) := by
  unfold openLoc
  grind [memSound_openLine]

theorem sound_readLoc {s : State} (loc : Loc) (n : Nat) (h : StSound s) : StSound (readLoc s loc n).2 := sound_openLoc _ h

theorem sound_pokeLoc {s : State} (loc : Loc) (keep : StashRef) (l : List Byte) (bs : List (BitVec 16)) (narrow : Bool)
    (h : StSound s) : StSound (pokeLoc s loc keep l bs narrow).1 := by
  unfold pokeLoc
  grind [dropStash_mem, memSound_openLine, memSound_putStore]

theorem sound_storeLoc {s : State} (loc : Loc) (l : List Byte) (bs : List (BitVec 16)) (via : Option Via) (h : StSound s) :
    StSound (storeLoc s loc l bs via) := by
  unfold storeLoc
  split
  · exact h
  · exact sound_pokeLoc _ _ _ _ _ h

/-! ## Accesses in the package -/

theorem sound_wakeFor {s : State} (fs : List FInfo) (h : StSound s) : StSound (wakeFor s fs) := by
  unfold wakeFor
  grind [sound_foldl, wakeDie_mem]

theorem sound_physStore {s : State} (a : Nat) (l : List Byte) (h : StSound s) : StSound (physStore s a l) := by
  unfold physStore
  split
  · exact h
  · exact sound_physPoke _ _ h

theorem sound_physWrite64 {s : State} (a : Nat) (v : DWord) (h : StSound s) : StSound (physWrite64 s a v) := sound_physStore _ _ h

/-! ## Translation -/

theorem sound_allAnswer {s : State} (h : StSound s) : StSound (allAnswer s) := h

theorem sound_translateNow {s : State} (w : Who) (va : DWord) (k : AKind) (h : StSound s) : StSound (translateNow s w va k).2 :=
  sound_allAnswer (sound_translate _ _ _ h)

theorem sound_reach {s : State} (w : Who) (va : DWord) (k : AKind) (plain : Bool) (evc : Nat) (h : StSound s) :
    StSound (reach s w va k plain evc).2 := by
  unfold reach
  grind [sound_cacheAcc, sound_translate, wakeDie_mem]

/-! ## Shared operations -/

theorem sound_formGroup {s : State} (ks : List Nat) (p : Pass) (hold : Hold) (h : StSound s) :
    StSound (formGroup s ks p hold) := by
  unfold formGroup
  split
  · exact h
  · exact sound_foldl h (fun _ _ hs => hs)

theorem sound_regroupTeams {s : State} (l : List (Nat × Nat × Pass)) (hold : Hold) (h : StSound s) :
    StSound (regroupTeams s l hold) := by
  unfold regroupTeams
  grind [modThread_mem, sound_foldl, sound_formGroup]

theorem sound_regroup {s : State} (l : List (Nat × Pass)) (hold : Hold) (h : StSound s) : StSound (regroup s l hold) :=
  sound_regroupTeams _ _ h

theorem sound_dropMembers {s : State} (gid : Nat) (ks : List Nat) (h : StSound s) : StSound (dropMembers s gid ks) := by
  unfold dropMembers
  grind

theorem sound_leaveGroup {s : State} (k : Nat) (h : StSound s) : StSound (leaveGroup s k) := by
  unfold leaveGroup
  grind [sound_dropMembers]

theorem sound_genStart {s : State} (wk : Nat) (r : Region) (h : StSound s) : StSound (genStart s wk r) :=
  sound_foldl h (fun _ _ hs => sound_leaveGroup _ hs)

theorem sound_genRestore {s : State} (wk : Nat) (h : StSound s) : StSound (genRestore s wk) := by
  unfold genRestore
  grind [modThread_mem, sound_foldl, sound_regroupTeams]

theorem sound_genEnd {s : State} (wk : Nat) (r : Region) (h : StSound s) : StSound (genEnd s wk r) :=
  sound_foldl h (fun _ _ hs => hs)

theorem sound_genChoose {s : State} (wk : Nat) (h : StSound s) : StSound (genChoose s wk) := by
  unfold genChoose
  grind [modWarp_mem, sound_genEnd, sound_genStart]

theorem sound_genCheck {s : State} (wk : Nat) (h : StSound s) : StSound (genCheck s wk) := by
  unfold genCheck
  grind [modWarp_mem, sound_genChoose, sound_genRestore]

theorem sound_genChecks {s : State} (ks : List Nat) (h : StSound s) : StSound (genChecks s ks) :=
  sound_foldl h (fun _ _ hs => sound_genCheck _ hs)

theorem sound_closeGroup {s : State} (gid : Nat) (h : StSound s) : StSound (closeGroup s gid) := by
  unfold closeGroup
  grind [modThread_mem, sound_foldl, sound_genChecks]

theorem sound_advance {s : State} (gid : Nat) (h : StSound s) : StSound (advance s gid) := by
  unfold advance
  grind [sound_closeGroup]

theorem sound_mwaitCheck {s : State} (wk m : Nat) (h : StSound s) : StSound (mwaitCheck s wk m) := by
  unfold mwaitCheck
  grind [modThread_mem, sound_foldl, sound_genCheck, sound_regroup]

theorem sound_mwaitChecks {s : State} (wk : Nat) (h : StSound s) : StSound (mwaitChecks s wk) :=
  sound_foldl h (fun _ _ hs => sound_mwaitCheck _ _ hs)

theorem sound_learnAway {s : State} (k : Nat) (h : StSound s) : StSound (learnAway s k) := by
  unfold learnAway
  grind [modThread_mem]

theorem sound_learnBy (o : Ord) {s : State} (k : Nat) (h : StSound s) : StSound (learnBy o s k) := by
  unfold learnBy
  grind [sound_learnAway]

theorem sound_syncImage {s : State} (fk : Nat) (h : StSound s) : StSound (syncImage s fk) := by
  unfold syncImage
  grind [sound_physWrite64]

theorem sound_modFrag {s : State} (fk : Nat) (f : FEntry → FEntry) (h : StSound s) : StSound (modFrag s fk f) :=
  sound_syncImage _ h

theorem sound_leaveFrag {s : State} (id : Word) (lane : Nat) (h : StSound s) : StSound (leaveFrag s id lane) := by
  unfold leaveFrag
  split
  · exact h
  · exact sound_modFrag _ _ h

theorem sound_lastThread {s : State} (cgu k : Nat) (h : StSound s) : StSound (lastThread s cgu k) := by
  unfold lastThread
  grind

theorem sound_exitThread {s : State} (k : Nat) (h : StSound s) : StSound (exitThread s k) := by
  unfold exitThread
  grind
    [modWarp_mem, setBar_mem, sound_foldl, sound_genCheck, sound_lastThread, sound_leaveFrag, sound_leaveGroup, sound_mwaitChecks]

theorem sound_discardThread {s : State} (k : Nat) (h : StSound s) : StSound (discardThread s k) := by
  unfold discardThread
  grind [modThread_mem, sound_exitThread, sound_leaveFrag, sound_leaveGroup]

theorem sound_writeImage {s : State} (fk : Nat) (rpc : DWord) (ms : List Thread) (h : StSound s) :
    StSound (writeImage s fk rpc ms) := by
  unfold writeImage
  grind [sound_foldl, sound_physWrite64, sound_syncImage]

theorem sound_makeFragment {s : State} (core e : Nat) (fs : List (Nat × FInfo)) (fpc rpc : DWord) (rpass : Option Pass)
    (h : StSound s) : StSound (makeFragment s core e fs fpc rpc rpass) := by
  unfold makeFragment
  grind [modThread_mem, postEvent_mem, putSide_mem, setFrag_mem, sound_foldl, sound_leaveGroup, sound_writeImage]

theorem sound_enterNoEntry {s : State} (k : Nat) (fpc : DWord) (rpass : Option Pass) (h : StSound s) :
    StSound (enterNoEntry s k fpc rpass) := by
  unfold enterNoEntry
  split
  · exact h
  · exact sound_leaveGroup _ h

theorem sound_nestedFaults {s : State} (fs : List (Nat × FInfo)) (fpc : DWord) (vec : Bool) (h : StSound s) :
    StSound (nestedFaults s fs fpc vec) := by
  unfold nestedFaults
  grind [modThread_mem, postEvent_mem, putSide_mem, sound_foldl, sound_leaveGroup, sound_modFrag]

theorem sound_raise {s0 s : State} (whole : List Nat) (fs : List (Nat × FInfo)) (fpc : DWord) (slot : Option Pass) (rpc : DWord)
    (rpass : Option Pass) (vec : Bool) (h : StSound s0) (h1 : StSound s) :
    StSound (raise s0 s whole fs fpc slot rpc rpass vec).1 := by
  unfold raise
  grind [sound_enterNoEntry, sound_foldl, sound_genChecks, sound_makeFragment, sound_nestedFaults]

theorem sound_splitFaults {s0 s : State} (gid : Nat) (g : Group) (fs : List (Nat × FInfo)) (after : Bool) (h : StSound s0)
    (h1 : StSound s) : StSound (splitFaults s0 s gid g fs after) := by
  unfold splitFaults
  grind [sound_advance, sound_raise, sound_wakeFor, wakeDie_mem]

theorem sound_splitGroup {s0 s : State} (gid : Nat) (g : Group) (fs : List (Nat × FInfo)) (after : Bool) (h : StSound s0)
    (h1 : StSound s) : StSound (splitGroup s0 s gid g fs after) := by
  unfold splitGroup
  grind [sound_splitFaults]

theorem sound_resumeMembers {s : State} (fk : Nat) (ks : List Nat) (h : StSound s) : StSound (resumeMembers s fk ks) := by
  unfold resumeMembers
  grind [sound_foldl_fst, sound_leaveGroup, setThread_mem, sound_regroup, sound_modFrag, sound_genChecks]

theorem sound_dropTables {s : State} (k : Nat) (h : StSound s) : StSound (dropTables s k) := by
  obtain ⟨hb, hp, ht, hs⟩ := h
  unfold dropTables
  split
  · exact ⟨hb, hp, ht, hs.filter _⟩
  · exact ⟨hb, hp, ht, hs⟩

theorem sound_fresMembers {s : State} (fk : Nat) (ks : List Nat) (h : StSound s) : StSound (fresMembers s fk ks) := by
  unfold fresMembers
  grind [sound_dropTables, sound_foldl, sound_learnAway, sound_resumeMembers]

theorem sound_rteCheck {s : State} (id : Word) (h : StSound s) : StSound (rteCheck s id) := by
  unfold rteCheck
  grind [modThread_mem, sound_foldl, sound_fresMembers, sound_modFrag]

theorem sound_resumeNoEntry {s : State} (k : Nat) (h : StSound s) : StSound (resumeNoEntry s k) := by
  unfold resumeNoEntry
  grind [setThread_mem, sound_genChecks, sound_leaveGroup, sound_regroup]

theorem sound_foldLanes {f : LaneFn} (hf : LaneSound f) (ks : List Nat) {s : State} (h : StSound s) :
    StSound (foldLanes f ks s).1 := by
  induction ks generalizing s with
  | nil => exact h
  | cons k r ih =>
    unfold foldLanes
    split
    · exact ih h
    · next t _ =>
      have hk := hf k t s h
      split
      · next he => exact ih (by rw [he] at hk; exact hk)
      · next he => exact ih (by rw [he] at hk; exact hk)

theorem sound_laneOp (gd : Guard) {f : Nat → LaneFn} {s : State} (hf : ∀ gid, LaneSound (f gid)) (h : StSound s) :
    StSound (laneOp gd f s) := by
  unfold laneOp
  split
  · exact h
  · exact sound_splitGroup _ _ _ _ h (sound_foldLanes (hf _) _ h)

theorem sound_ownLane (f : Thread → Except FInfo Thread) : LaneSound (ownLane f) := by
  intro k t s h
  unfold ownLane
  grind [setThread_mem]

theorem sound_threadOp (gd : Guard) (f : Thread → Except FInfo Thread) {s : State} (h : StSound s) : StSound (threadOp gd f s) :=
  sound_laneOp gd (fun _ => sound_ownLane f) h

theorem sound_passOp (gd : Guard) {s : State} (h : StSound s) : StSound (passOp gd s) := sound_laneOp gd (fun _ _ _ _ hs => hs) h

theorem sound_groupOp (gd : Guard) {f : Nat → Group → List Nat → State → State} {s : State}
    (hf : ∀ gid g act s, StSound s → StSound (f gid g act s)) (h : StSound s) : StSound (groupOp gd f s) := by
  unfold groupOp
  split
  · exact h
  · exact hf _ _ _ _ h

theorem sound_faultAll {s : State} (gid : Nat) (g : Group) (ks : List Nat) (f : Nat → FInfo) (after : Bool) (h : StSound s) :
    StSound (faultAll s gid g ks f after) :=
  sound_splitGroup _ _ _ _ h h

theorem sound_aluOp (gd : Guard) (f : RegFile → List (Nat × Reg) × Byte) {s : State} (h : StSound s) :
    StSound (aluOp gd f s) := by
  unfold aluOp
  split
  · exact h
  · exact sound_threadOp _ _ h

/-! ## Memory operands -/

/-- Where a checked access lands in physical memory, it is aligned (R198). -/
theorem resolve_sound {s : State} (t : Thread) (sp : Space) (a : DWord) {align : Nat} (n : Nat) (k : AKind) (h : StSound s) :
    StSound (resolve s t sp a align n k).2 ∧ ∀ x pa key bt, (resolve s t sp a align n k).1 = .ok x → x.loc = .phys pa key bt →
      align ∣ 4096 → pa % align = 0 := by
  have ht := translate_sound (whoOf s t) a k h
  unfold resolve
  grind [landAt]

theorem sound_resolve {s : State} (t : Thread) (sp : Space) (a : DWord) (align n : Nat) (k : AKind) (h : StSound s) :
    StSound (resolve s t sp a align n k).2 := (resolve_sound t sp a n k h).1

theorem sound_takeCopies {s : State} (core line : Nat) (h : StSound s) : StSound (takeCopies s core line) := by
  obtain ⟨hb, hr⟩ := sound_answered (some core) line true h
  exact ⟨hb, hr⟩

theorem sound_cacheLane {s : State} (t : Thread) (evc : Nat) (plain : Bool) (a : Acc) (w : Bool) (h : StSound s) :
    StSound (cacheLane s t evc plain a w) := by
  unfold cacheLane
  grind [sound_cacheAcc, sound_takeCopies]

theorem sound_accRead {s : State} (a : Acc) (n : Nat) (h : StSound s) : StSound (accRead s a n).2 := by
  unfold accRead
  grind [sound_readLoc, sound_touchStash]

theorem sound_laneHeld {s : State} (p gid k : Nat) (loc : Loc) (via : Option Via) (op : WOp) (h : StSound s) :
    StSound (laneHeld s p gid k loc via op) :=
  h

theorem sound_accStore {s : State} (gid k : Nat) (a : Acc) (via : Option Via) (l : List Byte) (bs : List (BitVec 16))
    (narrow : Bool) (fl : Byte) (h : StSound s) : StSound (accStore s gid k a via l bs narrow fl) := by
  unfold accStore
  grind [modThread_mem, sound_laneHeld, sound_pokeLoc, sound_touchStash]

/-! ## Loads, stores, stash and cache maintenance -/

theorem sound_ldLane (x : MemOps) : LaneSound (ldLane x) := by
  intro k t s h
  unfold ldLane
  grind [modThread_mem, sound_accRead, sound_cacheLane, sound_learnBy, sound_resolve]

theorem sound_stLane (x : MemOps) (gid : Nat) : LaneSound (stLane x gid) := by
  intro k t s h
  unfold stLane
  grind [sound_accStore, sound_cacheLane, sound_resolve]

theorem sound_prefLane (x : PrefOps) : LaneSound (prefLane x) := by
  intro k t s h
  unfold prefLane
  grind [sound_cacheLane, sound_touchStash, sound_translate, sound_wakeFor]

theorem out_execFence (x : FenceOps) {s : State} (h : StSound s) : OutSound (execFence x s) := by
  unfold execFence
  simp only [outSound_next]
  grind [sound_laneOp, sound_learnBy]

theorem sound_smapLane (x : SmapOps) : LaneSound (smapLane x) := by
  intro k t s h
  unfold smapLane
  grind [modCore_mem]

theorem sound_smapUnLane (x : SmapOps) : LaneSound (smapUnLane x) := fun _ _ _ h => h

theorem sound_stashRange (f : (Nat → Bool) → CoreGroup → CoreGroup) (x : RangeOps) (k : Nat) (t : Thread) {s : State}
    (h : StSound s) : StSound (stashRange f x k t s).1 :=
  h

theorem sound_stashAll (f : (Nat → Bool) → CoreGroup → CoreGroup) (k : Nat) (t : Thread) {s : State} (h : StSound s) :
    StSound (stashAll f k t s).1 :=
  h

theorem out_execSwb (x : RangeOps) {s : State} (h : StSound s) : OutSound (execSwb x s) := by
  unfold execSwb
  simp only [outSound_next]
  grind [sound_laneOp, sound_stashRange]

theorem out_execSwbAll (g : Guard) {s : State} (h : StSound s) : OutSound (execSwbAll g s) := by
  unfold execSwbAll
  simp only [outSound_next]
  grind [sound_laneOp, sound_stashAll]

theorem out_execSinv (x : RangeOps) {s : State} (h : StSound s) : OutSound (execSinv x s) := by
  unfold execSinv
  simp only [outSound_next]
  grind [sound_laneOp, sound_stashRange]

theorem out_execSinvAll (g : Guard) {s : State} (h : StSound s) : OutSound (execSinvAll g s) := by
  unfold execSinvAll
  simp only [outSound_next]
  grind [sound_laneOp, sound_stashAll]

theorem sound_cleanPhys {s : State} (core : Option Nat) (a n : Nat) (h : StSound s) : StSound (cleanPhys s core a n) := by
  have ha := sound_foldl (l := heldLines s a n) h (fun _ line hs => sound_answered core line false hs)
  obtain ⟨hb, hr⟩ := memSound_combineLines _ ha
  exact ⟨hb, hr⟩

theorem sound_rangePieces (w : Who) (n : Nat) {s : State} (a e : Nat) (h : StSound s) : StSound (rangePieces n s w a e).2 := by
  induction n generalizing s a with
  | zero => exact h
  | succ n ih =>
    unfold rangePieces
    grind [sound_translateLeaf]

theorem sound_cwbLane (x : RangeOps) : LaneSound (cwbLane x) := by
  intro k t s h
  unfold cwbLane
  grind [sound_cleanPhys, sound_foldl, sound_rangePieces]

/-! ## Atomics and reductions -/

theorem sound_accPoke {s : State} (a : Acc) (n : Nat) (bits : DWord) (bnd : BitVec 16) (h : StSound s) :
    StSound (accPoke s a n bits bnd).1 :=
  sound_touchStash _ _ _ (sound_pokeLoc _ _ _ _ _ h)

theorem sound_atomStep {s : State} (k : Nat) (a : Acc) (op : AOp) (ty : Ty) (b : DWord) (bb : BitVec 16) (dest : Option VReg)
    (h : StSound s) : StSound (atomStep s k a op ty b bb dest) := by
  unfold atomStep
  grind [modThread_mem, sound_accPoke, sound_accRead]

theorem sound_redStep {s : State} (k : Nat) (a : Acc) (op : AOp) (ty : Ty) (b : DWord) (bb : BitVec 16) (h : StSound s) :
    StSound (redStep s k a op ty b bb) := by
  unfold redStep
  grind [modThread_mem, sound_atomStep]

theorem sound_atomAcc {s : State} (t : Thread) (evc : BitVec 3) (a : Acc) (h : StSound s) : StSound (atomAcc s t evc a) := by
  unfold atomAcc
  grind [sound_cacheAcc, sound_cacheLane]

theorem sound_atomLane (x : AtomOps) (gid : Nat) : LaneSound (atomLane x gid) := by
  intro k t s h
  unfold atomLane
  grind [sound_atomAcc, sound_atomStep, sound_laneHeld, sound_learnBy, sound_resolve]

theorem sound_acasStep {s : State} (k : Nat) (a : Acc) (ty : Ty) (b c : DWord) (cb : BitVec 16) (d : VReg) (h : StSound s) :
    StSound (acasStep s k a ty b c cb d) := by
  unfold acasStep
  grind [modThread_mem, sound_accPoke, sound_accRead]

theorem sound_acasLane (x : AcasOps) (gid : Nat) : LaneSound (acasLane x gid) := by
  intro k t s h
  unfold acasLane
  grind [sound_acasStep, sound_atomAcc, sound_laneHeld, sound_learnBy, sound_resolve]

theorem sound_redLane (x : AtomOps) (gid : Nat) : LaneSound (redLane x gid) := by
  intro k t s h
  have hr := resolve_sound t x.space (operandAddr t x.space x.a 0) (align := x.ty.bytes) x.ty.bytes .write h
  have hn : x.ty.bytes ∣ 4096 := by unfold Ty.bytes; split <;> decide
  unfold redLane
  grind
    [memSound_contribute, combineWrite_mem, dropStash_mem, modThread_mem, drawBool, sound_atomAcc, sound_laneHeld, sound_redStep,
    sound_takeCopies]

/-! ## Generator regions -/

theorem out_execGen (x : GenOps) {s : State} (h : StSound s) : OutSound (execGen x s) := by
  unfold execGen
  simp only [outSound_next]
  grind [modThread_mem, modWarp_mem, sound_advance, sound_faultAll, sound_foldl, sound_groupOp]

theorem out_execYld (x : YldOps) {s : State} (h : StSound s) : OutSound (execYld x s) := by
  unfold execYld
  simp only [outSound_next]
  grind [modWarp_mem, setHold_mem, sound_advance, sound_faultAll, sound_genCheck, sound_groupOp, sound_splitGroup]

theorem out_execGend (gd : Guard) {s : State} (h : StSound s) : OutSound (execGend gd s) := by
  unfold execGend
  simp only [outSound_next]
  grind
    [modThread_mem, modWarp_mem, sound_advance, sound_dropMembers, sound_faultAll, sound_foldl, sound_genCheck, sound_groupOp,
    sound_splitGroup]

theorem sound_takeLane (x : TakeOps) : LaneSound (takeLane x) := by
  intro k t s h
  unfold takeLane
  grind [modThread_mem, modWarp_mem]

theorem out_execGstat (x : OpD) {s : State} (h : StSound s) : OutSound (execGstat x s) := by
  unfold execGstat
  simp only [outSound_next]
  grind [modThread_mem, sound_advance, sound_foldl, sound_groupOp]

/-! ## Control transfers, exits, traps and hints -/

theorem sound_transferLane (dest : Group → Thread → DWord) (call : Bool) (g : Group) : LaneSound (transferLane dest call g) := by
  intro k t s h
  unfold transferLane
  grind [modThread_mem, sound_leaveGroup]

theorem sound_transferOp (gd : Guard) (dest : Group → Thread → DWord) (call : Bool) {s : State} (h : StSound s) :
    StSound (transferOp gd dest call s) := by
  unfold transferOp
  grind [sound_foldLanes, sound_genChecks, sound_groupOp, sound_splitGroup, sound_transferLane]

theorem out_execBra (x : RelOps) {s : State} (h : StSound s) : OutSound (execBra x s) := by
  unfold execBra
  split
  · exact outSound_next.mpr h
  · exact outSound_next.mpr (sound_transferOp _ _ _ h)

theorem out_execRet (gd : Guard) {s : State} (h : StSound s) : OutSound (execRet gd s) := by
  unfold execRet
  simp only [outSound_next]
  grind
    [sound_foldLanes, sound_genChecks, sound_groupOp, sound_resumeMembers, sound_rteCheck, sound_splitGroup, sound_transferLane]

theorem sound_exitLane  : LaneSound exitLane := by
  intro k t s h
  unfold exitLane
  grind [sound_exitThread, sound_rteCheck]

theorem sound_trapOp (cause : Nat) (x : CodeOps) {s : State} (h : StSound s) : StSound (trapOp cause x s) := by
  unfold trapOp
  grind [sound_faultAll, sound_groupOp]

theorem sound_stopAt {s : State} (k : Nat) (p : Pass) (why : Stop) (h : StSound s) : StSound (stopAt s k p why) :=
  sound_leaveGroup _ h

theorem out_execPhint (x : PhintOps) {s : State} (h : StSound s) : OutSound (execPhint x s) := by
  unfold execPhint
  simp only [outSound_next]
  grind [sound_advance, sound_foldl, sound_groupOp, sound_stopAt]

theorem out_execSleep (x : CodeOps) {s : State} (h : StSound s) : OutSound (execSleep x s) := by
  unfold execSleep
  simp only [outSound_next]
  grind [setHold_mem, sound_advance, sound_groupOp]

theorem out_execSleepEnd (gid : Nat) {s : State} (h : StSound s) : OutSound (execSleepEnd gid s) := by
  unfold execSleepEnd
  simp only [outSound_next]
  grind [sound_advance]

/-! ## Floating-point instructions -/

theorem sound_fltBin (k : FKind) (negB : Bool) (x : FltRR) {s : State} (h : StSound s) : StSound (fltBin k negB x s) :=
  sound_threadOp _ _ h

theorem sound_fltMinMax (lo : Bool) (x : FltMM) {s : State} (h : StSound s) : StSound (fltMinMax lo x s) := sound_threadOp _ _ h

theorem sound_funcUnit (u : FUnit) (x : FltU) {s : State} (h : StSound s) : StSound (funcUnit u x s) := sound_threadOp _ _ h

/-! ## Count objects -/

theorem sound_cobjStep {s : State} (a : Acc) (u : CUpd) (h : StSound s) : StSound (cobjStep s a u).2 := by
  unfold cobjStep
  grind [sound_accRead, sound_pokeLoc, sound_touchStash]

theorem sound_cobjAcc {s : State} (t : Thread) (sp : Space) (va : DWord) (k : AKind) (operand : DWord) (h : StSound s) :
    StSound (cobjAcc s t sp va k operand).2 := by
  unfold cobjAcc
  grind [sound_resolve]

theorem sound_cobjLane (x : CobjOps) (u : Thread → CUpd) (held : Thread → WOp) (gid : Nat) :
    LaneSound (cobjLane x u held gid) := by
  intro k t s h
  unfold cobjLane
  grind [sound_cobjAcc, sound_cobjStep, sound_homeAcc, sound_laneHeld]

theorem sound_csigLane (fl : Bool) (x : CobjOps) (gid : Nat) : LaneSound (csigLane fl x gid) := by
  intro k t s h
  unfold csigLane
  grind [sound_cobjLane]

theorem sound_cpendLane (sub : Bool) (x : CobjOps) (gid : Nat) : LaneSound (cpendLane sub x gid) := by
  intro k t s h
  unfold cpendLane
  grind [sound_cobjLane]

theorem sound_cwaitEval {s : State} (t : Thread) (sp : Space) (va target : DWord) (h : StSound s) :
    StSound (cwaitEval s t sp va target).2 := by
  unfold cwaitEval
  grind [sound_accRead, sound_cobjAcc, sound_homeAcc]

theorem sound_cwaitLane (x : CobjOps) (gid : Nat) : LaneSound (cwaitLane x gid) := by
  intro k t s h
  unfold cwaitLane
  grind [addWait_mem, sound_cwaitEval, sound_learnAway]

theorem sound_reWaits (gid : Nat) (ws : List (Nat × Wait)) {s : State} (h : StSound s) : StSound (reWaits gid ws s).1 := by
  induction ws generalizing s with
  | nil => exact h
  | cons w r ih =>
    unfold reWaits
    grind [sound_cwaitEval, sound_wakeFor, sound_learnAway]

theorem sound_settleGroup {s : State} (gid : Nat) (h : StSound s) : StSound (settleGroup s gid) := by
  unfold settleGroup
  grind [sound_closeGroup]

theorem sound_dropHeld {s : State} (ks : List Nat) (h : StSound s) : StSound (dropHeld s ks) := h

theorem sound_lateFaults {s0 s : State} (gid : Nat) (fs : List (Nat × FInfo)) (h : StSound s0) (h1 : StSound s) :
    StSound (lateFaults s0 s gid fs) := by
  unfold lateFaults
  grind [sound_dropHeld, sound_raise, sound_settleGroup]

theorem out_execCwaitReevaluate (gid : Nat) {s : State} (h : StSound s) : OutSound (execCwaitReevaluate gid s) := by
  unfold execCwaitReevaluate
  simp only [outSound_next]
  grind [modGroup_mem, sound_lateFaults, sound_reWaits, wakeDie_mem]

theorem sound_crdLane (x : CrdOps) : LaneSound (crdLane x) := by
  intro k t s h
  unfold crdLane
  grind [modThread_mem, sound_accRead, sound_cobjAcc, sound_homeAcc, sound_learnBy]

/-! ## Agents without threads -/

theorem sound_agentWait {s : State} (p : Nat) (a : Agent) (f : FInfo) (h : StSound s) : StSound (agentWait s p a f) := h

theorem sound_silentWait {s : State} (p : Nat) (a : Agent) (f : FInfo) (h : StSound s) : StSound (silentWait s p a f) := h

theorem sound_reboundStep {s : State} (loc : Loc) (op : Nat) (b : BitVec 16) (h : StSound s) :
    StSound (reboundStep s loc op b).2 := by
  unfold reboundStep
  grind [combineWrite_mem, memSound_markDirty, memSound_putBounds, sound_openLoc]

theorem sound_recordStep {s : State} (loc : Loc) (r : BRec) (h : StSound s) : StSound (recordStep s loc r) := by
  unfold recordStep
  grind [dropStash_mem, memSound_markDirty, memSound_openLine, memSound_setRec]

theorem sound_applyOp {s : State} (k : Nat) (loc : Loc) (op : WOp) (h : StSound s) : StSound (applyOp s k loc op).2 := by
  unfold applyOp
  grind
    [modThread_mem, sound_acasStep, sound_atomStep, sound_cobjStep, sound_learnBy, sound_pokeLoc, sound_readLoc,
    sound_reboundStep, sound_recordStep, sound_redStep]

theorem sound_agentWrite {s : State} (p : Nat) (a : Agent) (loc : Loc) (via : Option Via) (op : WOp)
    (go : Except Nat Bool → State → State) (h : StSound s) (hgo : ∀ x s, StSound s → StSound (go x s)) :
    StSound (agentWrite s p a loc via op go) := by
  unfold agentWrite
  grind [holdWrite_mem, sound_applyOp]

theorem sound_physWrite {s : State} (p : Nat) (a : Agent) (pa : Nat) (l : List Byte) (go : State → State) (h : StSound s)
    (hgo : ∀ s, StSound s → StSound (go s)) : StSound (physWrite s p a pa l go) := by
  unfold physWrite
  grind [holdWrite_mem, sound_physPoke]

theorem sound_agentCobj {s : State} (p : Nat) (a : Agent) (w : Who) (va : DWord) (u : CUpd) (fault : FInfo → State → State)
    (go : Refused → State → State) (h : StSound s) (hfault : ∀ x s, StSound s → StSound (fault x s))
    (hgo : ∀ x s, StSound s → StSound (go x s)) : StSound (agentCobj s p a w va u fault go) := by
  unfold agentCobj
  grind [sound_agentWrite, sound_reach]

theorem sound_physCobj {s : State} (p : Nat) (a : Agent) (pa : Nat) (u : CUpd) (go : Refused → State → State) (h : StSound s)
    (hgo : ∀ x s, StSound s → StSound (go x s)) : StSound (physCobj s p a pa u go) := by
  unfold physCobj
  grind [holdWrite_mem, sound_physPoke]

theorem sound_refusedEvent {s : State} (p : Nat) (src : Word) (cause reason : Nat) (obj name : DWord) (u : CUpd) (quiet : Bool)
    (h : StSound s) : StSound (refusedEvent s p src cause reason obj name u quiet) :=
  h

/-! ## Work created by a kernel -/

theorem sound_acceptJob {s : State} (p : Nat) (priv : Bool) (c : Card) (h : StSound s) : StSound (acceptJob s p priv c) := h

theorem sound_jobTake (c : Card) (gid : Nat) (g : Group) (act : List Nat) (t : Thread) (a : Acc) {s : State} (h : StSound s) :
    StSound (jobTake c gid g act t a s) := by
  unfold jobTake
  grind [sound_acceptJob, sound_advance, sound_cobjStep, sound_faultAll]

theorem sound_jobSubmit (c : Card) (gid : Nat) (g : Group) (act : List Nat) (t : Thread) {s : State} (h : StSound s) :
    StSound (jobSubmit c gid g act t s) := by
  unfold jobSubmit
  grind [holdWrite_mem, setHold_mem, sound_acceptJob, sound_advance, sound_cobjAcc, sound_faultAll, sound_homeAcc, sound_jobTake]

theorem sound_jobOp (x : OpS) {s : State} (h : StSound s) : StSound (jobOp x s) := by
  refine sound_groupOp _ (fun gid g act s h => ?_) h
  split
  · exact sound_advance _ h
  · next t _ =>
    have hr := sound_resolve t .sc ((tWord t x.a).setWidth 64) 64 64 .read h
    split
    · exact sound_jobSubmit _ _ _ _ _ h
    · grind [sound_faultAll, sound_accRead, sound_jobSubmit]

theorem sound_jobAgain {s : State} (gid : Nat) (g : Group) (c : Card) (h : StSound s) : StSound (jobAgain s gid g c) := by
  unfold jobAgain
  grind [sound_advance, sound_jobSubmit]

theorem out_execJobAccept (gid : Nat) {s : State} (h : StSound s) : OutSound (execJobAccept gid s) := by
  unfold execJobAccept
  simp only [outSound_next]
  grind [sound_jobAgain]

theorem sound_jobPut {s : State} (w : Who) (id evc : Nat) (va : DWord) (op : WOp) (h : StSound s) :
    StSound (jobPut s w id evc va op).2 := by
  unfold jobPut
  grind [holdWrite_mem, sound_applyOp, sound_reach]

theorem sound_jobWord {s : State} (w : Who) (id : Nat) (c : Card) (n : Nat) (h : StSound s) : StSound (jobWord s w id c n).2 := by
  unfold jobWord
  grind [sound_jobPut, sound_reach, sound_readLoc]

theorem sound_jobWords (w : Who) (id : Nat) (c : Card) (fuel n : Nat) (bd : Bool) {s : State} (h : StSound s) :
    StSound (jobWords w id c fuel n bd s).2.2.2 := by
  induction fuel generalizing n bd s with
  | zero => exact h
  | succ fuel ih =>
    have hw := sound_jobWord w id c n h
    unfold jobWords
    grind

theorem sound_jobStop {s : State} (p id : Nat) (f : FInfo) (h : StSound s) : StSound (jobStop s p id f) := by
  unfold jobStop
  split <;> exact h

theorem sound_jobFault {s : State} (p id : Nat) (f : FInfo) (h : StSound s) : StSound (jobFault s p id f) := by
  unfold jobFault
  grind [modJob_mem, sound_agentWait, sound_jobStop]

theorem out_execJobStart (p id : Nat) {s : State} (h : StSound s) : OutSound (execJobStart p id s) := by
  unfold execJobStart
  simp only [outSound_next]
  grind [modJob_mem, sound_jobFault, sound_jobWords]

theorem sound_jobRemove {s : State} (p id : Nat) (h : StSound s) : StSound (jobRemove s p id) := h

theorem sound_jobGone (p id : Nat) (e : Refused) {s : State} (h : StSound s) : StSound (jobGone p id e s) := by
  unfold jobGone
  split <;> exact h

theorem sound_jobLanded (p id : Nat) (e : Except Nat Bool) {s : State} (h : StSound s) : StSound (jobLanded p id e s) := by
  unfold jobLanded
  grind [modJob_mem, sound_jobGone]

theorem sound_jobObjFault (p id : Nat) (f : FInfo) {s : State} (h : StSound s) : StSound (jobObjFault p id f s) := by
  unfold jobObjFault
  grind [sound_agentWait, sound_jobRemove, sound_jobStop]

theorem out_execJobCompletion (p id : Nat) {s : State} (h : StSound s) : OutSound (execJobCompletion p id s) := by
  unfold execJobCompletion
  simp only [outSound_next]
  grind [sound_agentCobj, sound_jobGone, sound_jobObjFault, sound_jobRemove]

theorem sound_growLanes (x : OpDA) (p serial : Nat) (gcur : Option Loc) (act : List Nat) {s : State} (h : StSound s) :
    StSound (growLanes x p serial gcur act s) := by
  unfold growLanes
  grind [modLaunch_mem, modThread_mem, sound_foldl, sound_pokeLoc]

theorem sound_growLaunch (x : OpDA) (gid : Nat) (ks : List Nat) (p serial : Nat) {s : State} (h : StSound s) :
    StSound (growLaunch x gid ks p serial s).2 := by
  unfold growLaunch
  grind [holdWrite_mem, sound_agentWait, sound_growLanes, sound_reach]

theorem sound_growEach (x : OpDA) (gid : Nat) (ks : List Nat) (l : List (Nat × Nat)) {s : State} (h : StSound s) :
    StSound (growEach x gid ks l s).2 := by
  induction l generalizing s with
  | nil => exact h
  | cons e r ih => exact ih (sound_growLaunch _ _ _ _ _ h)

theorem sound_growGo (gid : Nat) (rest : List Nat) {s : State} (h : StSound s) : StSound (growGo gid rest s) := by
  unfold growGo
  split
  · exact sound_advance _ h
  · exact h

theorem sound_growOp (x : OpDA) (gid : Nat) (g : Group) (act : List Nat) {s : State} (h : StSound s) :
    StSound (growOp x gid g act s) :=
  sound_growGo _ _ (sound_growEach _ _ _ _ h)

theorem sound_growNow (p serial gid : Nat) (gcur : Option Loc) {s : State} (h : StSound s) :
    StSound (growNow p serial gid gcur s) := by
  unfold growNow
  grind [sound_growGo, sound_growLanes]

theorem sound_growLanded (serial gid p : Nat) (loc : Loc) {s : State} (h : StSound s) :
    StSound (growLanded serial gid p loc s) := by
  unfold growLanded
  split
  · exact sound_growNow _ _ _ _ h
  · exact h

theorem out_execGrow (x : OpDA) {s : State} (h : StSound s) : OutSound (execGrow x s) := by
  unfold execGrow
  simp only [outSound_next]
  grind [sound_groupOp, sound_growOp]

theorem sound_lnchAnswer (x : LnchOps) (gid : Nat) (act : List Nat) {s : State} (d : Nat) (h : StSound s) :
    StSound (lnchAnswer x gid act s d) := by
  unfold lnchAnswer
  grind [modThread_mem, sound_advance, sound_foldl]

theorem sound_lnchTake (x : LnchOps) (data : List Byte) (gid : Nat) (act : List Nat) (t : Thread) (l : Loc) {s : State}
    (h : StSound s) : StSound (lnchTake x data gid act t l s) := by
  unfold lnchTake
  grind [modLq_mem, sound_lnchAnswer, sound_pokeLoc]

theorem sound_lnchSubmit (x : LnchOps) (data : List Byte) (gid : Nat) (g : Group) (act : List Nat) (t : Thread) {s : State}
    (h : StSound s) : StSound (lnchSubmit x data gid g act t s) := by
  unfold lnchSubmit
  grind [holdWrite_mem, setHold_mem, sound_faultAll, sound_lnchAnswer, sound_lnchTake, sound_reach]

theorem sound_lnchOp (x : LnchOps) (gid : Nat) (g : Group) (act : List Nat) {s : State} (h : StSound s) :
    StSound (lnchOp x gid g act s) := by
  unfold lnchOp
  grind [sound_accRead, sound_advance, sound_faultAll, sound_lnchSubmit, sound_resolve]

theorem out_execLnch (x : LnchOps) {s : State} (h : StSound s) : OutSound (execLnch x s) := by
  unfold execLnch
  simp only [outSound_next]
  grind [sound_groupOp, sound_lnchOp]

theorem sound_jobMade (gid : Nat) (g : Group) (c : Card) (l : Loc) {s : State} (h : StSound s) :
    StSound (jobMade gid g c l s) := by
  unfold jobMade
  grind [sound_advance, sound_jobTake]

theorem sound_lnchLanded (x : LnchOps) (data : List Byte) (gid : Nat) (g : Group) (h : Held) {s : State} (hs : StSound s) :
    StSound (lnchLanded x data gid g h s) := by
  unfold lnchLanded
  grind [sound_advance, sound_lnchSubmit, sound_lnchTake]

theorem sound_groupLanded (gid : Nat) (h : Held) {s : State} (hs : StSound s) : StSound (groupLanded gid h s) := by
  unfold groupLanded
  grind [sound_jobMade, sound_lnchLanded]

/-! ## Operand queues -/

theorem sound_headOp (gd : Guard) (q : Nat) (reads : Bool) (f : QEntry → Nat → Group → List Nat → State → State) {s : State}
    (h : StSound s) (hf : ∀ x y z u s, StSound s → StSound (f x y z u s)) : StSound (headOp gd q reads f s) := by
  unfold headOp
  grind [setHold_mem, sound_advance, sound_faultAll, sound_groupOp]

theorem sound_dropHead {s : State} (qk q n : Nat) (h : StSound s) : StSound (dropHead s qk q n) := h

theorem sound_popChunk {s : State} (qk q : Nat) (h : StSound s) : StSound (popChunk s qk q) := h

theorem sound_writeLanes {s : State} (act : List Nat) (d : VReg) (f : Nat → Reg) (h : StSound s) :
    StSound (writeLanes s act d f) :=
  sound_foldl h (fun _ _ hs => hs)

theorem out_execQpop (x : QueueOps) {s : State} (h : StSound s) : OutSound (execQpop x s) := by
  unfold execQpop
  simp only [outSound_next]
  grind [sound_advance, sound_faultAll, sound_headOp, sound_popChunk, sound_writeLanes]

theorem out_execQpeek (x : QpeekOps) {s : State} (h : StSound s) : OutSound (execQpeek x s) := by
  unfold execQpeek
  simp only [outSound_next]
  grind [modThread_mem, sound_advance, sound_foldl, sound_headOp, sound_writeLanes]

theorem out_execQdrop (x : QdropOps) {s : State} (h : StSound s) : OutSound (execQdrop x s) := by
  unfold execQdrop
  simp only [outSound_next]
  grind [sound_advance, sound_dropHead, sound_headOp]

theorem out_execQcnt (x : QueueOps) {s : State} (h : StSound s) : OutSound (execQcnt x s) := by
  unfold execQcnt
  simp only [outSound_next]
  grind [sound_advance, sound_faultAll, sound_groupOp, sound_writeLanes]

/-! ## The matrix unit -/

theorem sound_setRow {s : State} (t : Thread) (w : BitVec 3) (r : TRow) (h : StSound s) : StSound (setRow s t w r) := h

theorem sound_mmaLane (x : MmaOps) (w : Word) (dropped : Bool) (blocks : List MBlock) :
    LaneSound (mmaLane x w dropped blocks) := by
  intro k t s h
  unfold mmaLane
  grind [modThread_mem, sound_setRow]

theorem sound_mmaOp (ol : Bool) (x : MmaOps) {s : State} (h : StSound s) : StSound (mmaOp ol x s) := by
  unfold mmaOp
  grind
    [setHold_mem, sound_advance, sound_dropHead, sound_faultAll, sound_foldLanes, sound_groupOp, sound_mmaLane, sound_splitGroup]

theorem out_execWzero (x : TileOps) {s : State} (h : StSound s) : OutSound (execWzero x s) := by
  unfold execWzero
  simp only [outSound_next]
  grind [sound_laneOp, sound_setRow]

theorem out_execWmov (x : WmovOps) {s : State} (h : StSound s) : OutSound (execWmov x s) := by
  unfold execWmov
  simp only [outSound_next]
  grind [sound_laneOp, sound_setRow]

theorem out_execWbnd (x : WbndOps) {s : State} (h : StSound s) : OutSound (execWbnd x s) := by
  unfold execWbnd
  simp only [outSound_next]
  grind [modThread_mem, sound_laneOp]

theorem sound_wldLane (x : TileMemOps) : LaneSound (wldLane x) := by
  intro k t s h
  unfold wldLane
  grind [sound_accRead, sound_cacheLane, sound_learnBy, sound_resolve, sound_setRow]

theorem sound_wstLane (x : TileMemOps) (gid : Nat) : LaneSound (wstLane x gid) := by
  intro k t s h
  unfold wstLane
  grind [sound_accStore, sound_cacheLane, sound_resolve]

theorem sound_wdrnLane (x : WdrnOps) : LaneSound (wdrnLane x) := by
  intro k t s h
  unfold wdrnLane
  grind [modThread_mem, sound_setRow]

/-! ## The access slice -/

theorem sound_sliceStop {s : State} (qk : Nat) (f : FInfo) (addr : DWord) (h : StSound s) : StSound (sliceStop s qk f addr) := h

theorem sound_sliceFault {s : State} (qk : Nat) (allocated : Bool) (f : FInfo) (h : StSound s) :
    StSound (sliceFault s qk allocated f) := by
  unfold sliceFault
  grind [modSlice_mem, sound_agentWait, sound_sliceStop]

theorem sound_sliceOp (f : Nat → Slice → Pass → State → State) {s : State} (h : StSound s)
    (hf : ∀ x y z s, StSound s → StSound (f x y z s)) : StSound (sliceOp f s) := by
  unfold sliceOp
  grind

theorem sound_sliceNext {s : State} (qk : Nat) (h : StSound s) : StSound (sliceNext s qk) := h

theorem sound_loopStop {s : State} (qk : Nat) (p : Pass) (h : StSound s) : StSound (loopStop s qk p) := h

theorem out_execSloop (x : SloopOps) {s : State} (h : StSound s) : OutSound (execSloop x s) := by
  unfold execSloop
  simp only [outSound_next]
  grind [modSlice_mem, sound_loopStop, sound_sliceOp]

theorem out_execSnext (a : BitVec 5) {s : State} (h : StSound s) : OutSound (execSnext a s) := by
  unfold execSnext
  simp only [outSound_next]
  grind [modSlice_mem, sound_loopStop, sound_sliceOp]

theorem sound_readVas (w : Who) (l : List DWord) {s : State} (h : StSound s) : StSound (readVas w l s).2 := by
  induction l generalizing s with
  | nil => exact h
  | cons va r ih =>
    have hr := sound_reach w va .read w.core.isSome 2 h
    unfold readVas
    split
    · next he => exact (he ▸ hr :)
    · next l u he =>
      rw [he] at hr
      have hp := ih (sound_readLoc l 8 hr)
      dsimp only
      split <;> next he => exact (he ▸ hp :)

theorem out_execSfetch (x : SfetchOps) {s : State} (h : StSound s) : OutSound (execSfetch x s) := by
  unfold execSfetch
  simp only [outSound_next]
  grind [modQueue_mem, modSlice_mem, sound_readVas, sound_sliceFault, sound_sliceNext, sound_sliceOp, sound_sliceStop]

theorem out_execSmark (x : SmarkOps) {s : State} (h : StSound s) : OutSound (execSmark x s) := by
  unfold execSmark
  simp only [outSound_next]
  grind [modQueue_mem, modSlice_mem, sound_sliceNext, sound_sliceOp, sound_sliceStop]

theorem sound_swaitEval {s : State} (qk : Nat) (va target : DWord) (h : StSound s) : StSound (swaitEval s qk va target).2 := by
  unfold swaitEval
  grind [sound_reach, sound_readLoc]

theorem sound_swaitStep {s : State} (qk : Nat) (va target : DWord) (h : StSound s) : StSound (swaitStep s qk va target) := by
  unfold swaitStep
  grind [modSlice_mem, sound_sliceFault, sound_sliceNext, sound_swaitEval]

theorem out_execSwaitc (x : SwaitcOps) {s : State} (h : StSound s) : OutSound (execSwaitc x s) := by
  unfold execSwaitc
  simp only [outSound_next]
  grind [sound_sliceOp, sound_swaitStep]

theorem out_execSwaitcReevaluate (qk : Nat) {s : State} (h : StSound s) : OutSound (execSwaitcReevaluate qk s) := by
  unfold execSwaitcReevaluate
  simp only [outSound_next]
  grind [sound_swaitStep]

theorem out_execSdone {s : State} (h : StSound s) : OutSound (execSdone s) := by
  unfold execSdone
  simp only [outSound_next]
  grind [modSlice_mem, sound_sliceOp]

/-! ## Launches -/

theorem sound_readPlace {s : State} (w : Who) (r : LRec) (h : StSound s) : StSound (readPlace s w r).2 := by
  unfold readPlace
  grind [sound_readVas]

theorem sound_headerAt (l : Launch) (w : Who) (loc : Loc) {s : State} (h : StSound s) : StSound (headerAt l w loc s) := by
  unfold headerAt
  grind [sound_readLoc, sound_storeLoc]

theorem sound_initBitmap {s : State} (p : Nat) (l : Launch) (at_ : Except FInfo Loc) (h : StSound s) :
    StSound (initBitmap s p l at_) := by
  unfold initBitmap
  grind [sound_agentWait, sound_headerAt]

theorem sound_headerAgain {s : State} (p serial : Nat) (h : StSound s) : StSound (headerAgain s p serial) := by
  unfold headerAgain
  grind [sound_agentWait, sound_headerAt, sound_reach, sound_silentWait]

theorem sound_lqError {s : State} (p n : Nat) (f : FInfo) (h : StSound s) : StSound (lqError s p n f) := h

theorem sound_takeDone (p n : Nat) {s : State} (h : StSound s) : StSound (takeDone p n s) := h

theorem sound_takeRecord (p n : Nat) (w : Who) (wl : Loc) (va : DWord) (r : LRec) (st : Nat) (place : List Nat)
    (hdr : Except FInfo Loc) {s : State} (h : StSound s) : StSound (takeRecord p n w wl va r st place hdr s) := by
  unfold takeRecord
  grind [setPart_mem, sound_agentWrite, sound_initBitmap, sound_takeDone]

theorem sound_takeFault (p n : Nat) (f : FInfo) {s : State} (h : StSound s) : StSound (takeFault p n f s) := by
  unfold takeFault
  split <;> exact h

theorem out_execLaunchRecordTake (p : Nat) {s : State} (h : StSound s) : OutSound (execLaunchRecordTake p s) := by
  refine outSound_next.mpr ?_
  split
  · exact h
  · dsimp only
    split
    · grind [sound_reach, sound_takeFault]
    · split
      · grind [sound_reach, sound_takeFault]
      · grind [sound_reach, sound_readLoc, sound_readPlace, sound_takeRecord, sound_wakeFor]

theorem sound_readVa (w : Who) (va : DWord) (n : Nat) {s : State} (h : StSound s) : StSound (readVa w va n s).2 := by
  unfold readVa
  grind [sound_reach, sound_readLoc]

theorem sound_windowReady (w : Who) (b gcur : Nat) (done : Bool) (n : Nat) (j : Int) {s : State} (h : StSound s) :
    StSound (windowReady w b gcur done n j s).2 := by
  induction n generalizing j s with
  | zero => exact h
  | succ n ih =>
    unfold windowReady
    grind [sound_readVa]

theorem sound_depsReady (w : Who) (i : Nat) (l : List Dep) {s : State} (h : StSound s) : StSound (depsReady w i l s).2 := by
  induction l generalizing s with
  | nil => exact h
  | cons e r ih =>
    unfold depsReady
    grind [sound_readVa, sound_windowReady]

theorem out_execIndexReady (p serial i : Nat) {s : State} (h : StSound s) : OutSound (execIndexReady p serial i s) := by
  unfold execIndexReady
  simp only [outSound_next]
  grind [modLaunch_mem, sound_agentWait, sound_depsReady]

theorem sound_addQuadGroup {s : State} (cgu k j core quad : Nat) (r : LRec) (h : StSound s) :
    StSound (addQuadGroup s cgu k j core quad r) :=
  sound_foldl h (fun _ _ hs => hs)

theorem sound_addCoreGroup {s : State} (cgu k core : Nat) (quads : List Nat) (r : LRec) (h : StSound s) :
    StSound (addCoreGroup s cgu k core quads r) :=
  sound_foldl h (fun _ _ hs => sound_addQuadGroup _ _ _ _ _ _ hs)

theorem sound_startGroup {s : State} (cgu : Nat) (h : StSound s) : StSound (startGroup s cgu) := by
  unfold startGroup
  grind [sound_foldl]

theorem sound_skipIndex {s : State} (l : Launch) (i cl : Nat) (h : StSound s) : StSound (skipIndex s l i cl) := h

theorem sound_splitOff {s : State} (ks : List Nat) (h : StSound s) : StSound (splitOff s ks) := by
  unfold splitOff
  grind [modThread_mem, sound_dropMembers, sound_foldl, sound_settleGroup]

theorem sound_stopWhole {s : State} (ks : List Nat) (h : StSound s) : StSound (stopWhole s ks) := by
  unfold stopWhole
  grind [modThread_mem, sound_foldl, sound_splitOff]

theorem sound_stopStanding {s : State} (wk : Nat) (h : StSound s) : StSound (stopStanding s wk) := by
  unfold stopStanding
  grind [sound_stopWhole]

theorem sound_requestSave {s : State} (wk : Nat) (h : StSound s) : StSound (requestSave s wk) := by
  unfold requestSave
  grind [modWarp_mem, sound_stopStanding]

theorem sound_noRoom {s : State} (l : Launch) (i die : Nat) (h : StSound s) : StSound (noRoom s l i die) := by
  unfold noRoom
  grind [modLaunch_mem, sound_requestSave]

theorem out_execDispatch (p serial i cl : Nat) {s : State} (h : StSound s) : OutSound (execDispatch p serial i cl s) := by
  unfold execDispatch
  simp only [outSound_next]
  grind
    [modLaunch_mem, postEvent_mem, setIsland_mem, sound_addCoreGroup, sound_foldl, sound_noRoom, sound_skipIndex,
    sound_startGroup]

theorem out_execAgingExpiry (p serial i : Nat) {s : State} (h : StSound s) : OutSound (execAgingExpiry p serial i s) := by
  unfold execAgingExpiry
  simp only [outSound_next]
  grind [modLaunch_mem]

theorem sound_fillLines (ck : Nat) (w : Who) (l : List (Nat × DWord)) {s : State} (h : StSound s) :
    StSound (fillLines ck w l s).2 := by
  induction l generalizing s with
  | nil => exact h
  | cons e r ih =>
    unfold fillLines
    grind [sound_reach, sound_openLoc, sound_touchStash]

theorem sound_fillCore (ck : Nat) (w : Who) (k : Nat) (l : List (Nat × Tile)) {s : State} (h : StSound s) :
    StSound (fillCore ck w k l s).2 := by
  induction l generalizing s with
  | nil => exact h
  | cons e r ih =>
    unfold fillCore
    grind [sound_fillLines, modCore_mem]

theorem sound_fillCores (w : Nat → Who) (ts : List (Nat × Tile)) (l : List (Nat × CoreGroup)) {s : State} (h : StSound s) :
    StSound (fillCores w ts l s).2 := by
  induction l generalizing s with
  | nil => exact h
  | cons e r ih =>
    unfold fillCores
    grind [sound_fillCore]

theorem sound_leaveSide {s : State} (w : Warp) (h : StSound s) : StSound (leaveSide s w) := by
  unfold leaveSide
  split <;> exact h

theorem sound_freeGroup {s : State} (cgu : Nat) (h : StSound s) : StSound (freeGroup s cgu) :=
  sound_foldl h (fun _ _ hs => sound_leaveSide _ hs)

theorem sound_fillFailed {s : State} (ck : Nat) (f : FInfo) (h : StSound s) : StSound (fillFailed s ck f) := by
  unfold fillFailed
  grind [postEvent_mem, sound_freeGroup]

theorem out_execTileFillComplete (cgu : Nat) {s : State} (h : StSound s) : OutSound (execTileFillComplete cgu s) := by
  unfold execTileFillComplete
  simp only [outSound_next]
  grind [sound_agentWait, sound_fillCores, sound_fillFailed, sound_startGroup]

theorem sound_donePublished (p serial : Nat) {s : State} (h : StSound s) : StSound (donePublished p serial s) := h

theorem sound_writeDone {s : State} (p serial : Nat) (h : StSound s) : StSound (writeDone s p serial) := by
  unfold writeDone
  grind [sound_agentWait, sound_agentWrite, sound_donePublished, sound_reach, sound_silentWait]

theorem sound_finishIndex {s : State} (cgu : Nat) (h : StSound s) : StSound (finishIndex s cgu) := by
  unfold finishIndex
  grind [modLaunch_mem, sound_freeGroup, sound_writeDone]

theorem sound_setCgSt {s : State} (cgu : Nat) (st : CgSt) (h : StSound s) : StSound (setCgSt s cgu st) := h

theorem sound_cbmpStep {s : State} (cgu : Nat) (h : StSound s) : StSound (cbmpStep s cgu) := by
  unfold cbmpStep
  grind [sound_agentWait, sound_agentWrite, sound_finishIndex, sound_reach]

theorem sound_complDone (cgu : Nat) (e : Refused) {s : State} (h : StSound s) : StSound (complDone cgu e s) := by
  unfold complDone
  grind [sound_cbmpStep, sound_refusedEvent, sound_setCgSt]

theorem sound_complStep {s : State} (cgu : Nat) (h : StSound s) : StSound (complStep s cgu) := by
  unfold complStep
  grind [sound_agentCobj, sound_agentWait, sound_cbmpStep, sound_complDone, sound_setCgSt]

theorem out_execClusterGroupCompletion (cgu : Nat) {s : State} (h : StSound s) : OutSound (execClusterGroupCompletion cgu s) := by
  unfold execClusterGroupCompletion
  simp only [outSound_next]
  grind [sound_cbmpStep, sound_complStep]

/-! ## The ends of agents' waits -/

theorem sound_retryAgent {s : State} (p : Nat) (a : Agent) (h : StSound s) : StSound (retryAgent s p a) := by
  unfold retryAgent
  grind [modJob_mem, modSlice_mem, sound_headerAgain, sound_writeDone]

theorem sound_abandonEvent {s : State} (p serial idx : Nat) (obj : DWord) (h : StSound s) :
    StSound (abandonEvent s p serial idx obj) :=
  h

theorem sound_abandonAgent {s : State} (p : Nat) (a : Agent) (f : FInfo) (h : StSound s) : StSound (abandonAgent s p a f) := by
  unfold abandonAgent
  grind
    [modLaunch_mem, sound_abandonEvent, sound_cbmpStep, sound_donePublished, sound_fillFailed, sound_finishIndex, sound_growNow,
    sound_jobRemove, sound_jobStop, sound_setCgSt, sound_sliceStop]

theorem sound_endWaits (over' : FInfo → Bool) (f : State → Agent → FInfo → State) {s : State} (p : Nat) (h : StSound s)
    (hf : ∀ s x y, StSound s → StSound (f s x y)) : StSound (endWaits over' f s p) := by
  unfold endWaits
  grind [setPart_mem, sound_foldl]

theorem sound_newWalks {s : State} (p : Nat) (cs : List (Option Nat)) (h : StSound s) : StSound (newWalks s p cs) := by
  obtain ⟨hb, hp, ht, hs⟩ := h
  exact ⟨hb, hp, ht.filter _, hs.filter _⟩

theorem sound_agentRetryAll {s : State} (p : Nat) (h : StSound s) : StSound (agentRetryAll s p) := by
  unfold agentRetryAll
  grind [sound_endWaits, sound_newWalks, sound_retryAgent]

theorem sound_agentAbandonAll {s : State} (p : Nat) (h : StSound s) : StSound (agentAbandonAll s p) := by
  unfold agentAbandonAll
  grind [sound_abandonAgent, sound_endWaits]

theorem sound_wakeThose (over' : FInfo → Bool) {s : State} (h : StSound s) : StSound (wakeThose over' s) := by
  unfold wakeThose
  grind [sound_endWaits, sound_foldl, sound_retryAgent]

theorem sound_wakeWaiters {s : State} (h : StSound s) : StSound (wakeWaiters s) := sound_wakeThose _ h

/-! ## Held writes -/

theorem sound_evCobjDone (p : Nat) (e : Refused) {s : State} (h : StSound s) : StSound (evCobjDone p e s) := by
  unfold evCobjDone
  split <;> exact h

theorem sound_recordPosted (p : Nat) {s : State} (h : StSound s) : StSound (recordPosted p s) := by
  unfold recordPosted
  grind [setPart_mem, sound_evCobjDone, sound_physCobj]

theorem sound_recordPost (p : Nat) (e : EvRec) {s : State} (h : StSound s) : StSound (recordPost p e s) := by
  unfold recordPost
  grind [sound_physWrite, sound_recordPosted]

theorem sound_copyObjDone (p slot : Nat) (e : Refused) {s : State} (h : StSound s) : StSound (copyObjDone p slot e s) := by
  unfold copyObjDone
  split <;> exact h

theorem sound_copyDone (p slot st : Nat) {s : State} (h : StSound s) : StSound (copyDone p slot st s) := by
  unfold copyDone
  grind [sound_copyObjDone, sound_physCobj]

theorem sound_copyEnd (p slot st : Nat) {s : State} (h : StSound s) : StSound (copyEnd p slot st s) := by
  unfold copyEnd
  grind [sound_copyDone, sound_physWrite]

theorem sound_landDone (n : Nat) (e : Refused) {s : State} (h : StSound s) : StSound (landDone n e s) := by
  unfold landDone
  grind [setHost_mem, sound_refusedEvent]

theorem sound_landStep (n : Nat) {s : State} (h : StSound s) : StSound (landStep n s) := by
  unfold landStep
  grind [sound_agentWrite, sound_landDone]

theorem sound_wordLanded (n : Nat) (e : Except Nat Bool) {s : State} (h : StSound s) : StSound (wordLanded n e s) :=
  sound_landStep _ h

theorem sound_goOn {s : State} (p : Nat) (a : Agent) (h : Held) (e : Except Nat Bool) (hs : StSound s) :
    StSound (goOn s p a h e) := by
  unfold goOn
  grind
    [setHost_mem, sound_complDone, sound_copyDone, sound_copyObjDone, sound_donePublished, sound_evCobjDone, sound_finishIndex,
    sound_groupLanded, sound_growLanded, sound_jobLanded, sound_landDone, sound_recordPosted, sound_takeDone, sound_wordLanded]

theorem sound_agentFault {s : State} (p : Nat) (a : Agent) (h : Held) (f : FInfo) (hs : StSound s) :
    StSound (agentFault s p a h f) := by
  unfold agentFault
  grind [setHost_mem, sound_agentWait, sound_goOn, sound_jobFault, sound_jobObjFault, sound_lqError]

theorem sound_lateFault {s : State} (h : Held) (f : FInfo) (hs : StSound s) : StSound (lateFault s h f) := by
  unfold lateFault
  grind [holdWrite_mem, sound_lateFaults]

theorem sound_heldFault {s : State} (h : Held) (f : FInfo) (hs : StSound s) : StSound (heldFault s h f) := by
  unfold heldFault
  grind [sound_agentFault, sound_lateFault]

theorem sound_landAtLoc (own : Option Nat) {s : State} (h : Held) (hs : StSound s) : StSound (landAtLoc own s h) := by
  unfold landAtLoc
  grind [holdWrite_mem, sound_applyOp, sound_goOn, sound_heldFault, sound_lateFault]

theorem sound_retranslate (own : Option Nat) {s : State} (h : Held) (hs : StSound s) : StSound (retranslate own s h) := by
  unfold retranslate
  grind [holdWrite_mem, sound_heldFault, sound_landAtLoc, sound_translateNow]

theorem sound_landHeld (own : Option Nat) {s : State} (h : Held) (hs : StSound s) : StSound (landHeld own s h) := by
  unfold landHeld
  grind [sound_heldFault, sound_landAtLoc, sound_retranslate]

theorem sound_pullFirst {s : State} (p : Nat) (hit : Held → Bool) (h : StSound s) :
    ∀ x, pullFirst s p hit = some x → StSound x.2 := by
  unfold pullFirst
  grind [setPart_mem]

theorem sound_eachHeld {f : State → Held → State} (p : Nat) (hit : Held → Bool) (n : Nat) {s : State} (h : StSound s)
    (hf : ∀ s x, StSound s → StSound (f s x)) : StSound (eachHeld f p hit n s) := by
  induction n generalizing s with
  | zero => exact h
  | succ n ih =>
    unfold eachHeld
    split
    · exact h
    · next he => exact ih (hf _ _ (sound_pullFirst _ _ h _ he))

theorem sound_everyHeld (f : State → Held → State) (hit : Held → Bool) {s : State} (h : StSound s)
    (hf : ∀ s x, StSound s → StSound (f s x)) : StSound (everyHeld f hit s) := by
  unfold everyHeld
  grind [sound_eachHeld, sound_foldl]

theorem sound_landAll (p : Nat) (toDst : Bool) (n : Nat) {s : State} (h : StSound s) : StSound (landAll p toDst n s) := by
  unfold landAll
  grind [sound_eachHeld, sound_landHeld]

theorem sound_releaseHeld {s : State} (p : Nat) (st : MigSt) (err : BitVec 4) (toDst : Bool) (h : StSound s) :
    StSound (releaseHeld s p st err toDst) := by
  unfold releaseHeld
  grind [setPart_mem, sound_eachHeld, sound_landAll, sound_landHeld, sound_wakeWaiters]

theorem sound_retranslateHeld {s : State} (hit : Held → Bool) (h : StSound s) : StSound (retranslateHeld s hit) := by
  unfold retranslateHeld
  grind [sound_everyHeld, sound_retranslate]

/-! ## Migration, shadow chunks and lost lines -/

theorem sound_loseLine {s : State} (line : Nat) (owner : Option Nat) (h : StSound s) : StSound (loseLine s line owner) := by
  unfold loseLine
  dsimp only
  split <;> exact h

theorem sound_migClean {s : State} (q : Part) (h : StSound s) : StSound (migClean s q) := by
  unfold migClean
  grind [sound_cleanPhys, wakeDie_mem]

theorem sound_migGo {s : State} (p : Nat) (h : StSound s) : StSound (migGo s p) := by
  unfold migGo
  grind [closeCombs_mem, setPart_mem, sound_migClean]

theorem sound_migRun {s : State} (q : Part) (h : StSound s) : StSound (migRun s q) := by
  unfold migRun
  grind [answered_mem, closeCombs_mem, memSound_migCopy, sound_foldl, sound_migClean]

theorem out_execMigCopyDone (p : Nat) {s : State} (h : StSound s) : OutSound (execMigCopyDone p s) := by
  unfold execMigCopyDone
  simp only [outSound_next]
  grind [setPart_mem, sound_migRun, wakeDie_mem]

theorem sound_migEnd {s : State} (p : Nat) (st : MigSt) (err : BitVec 4) (toDst : Bool) (h : StSound s) :
    StSound (migEnd s p st err toDst) :=
  sound_releaseHeld _ _ _ _ h

theorem sound_migSwitch {s : State} (p : Nat) (h : StSound s) : StSound (migSwitch s p) := by
  unfold migSwitch
  split
  · exact sound_migEnd _ _ _ _ h
  · exact h

theorem sound_migAbort {s : State} (p : Nat) (h : StSound s) : StSound (migAbort s p) := by
  unfold migAbort
  split
  · exact sound_migEnd _ _ _ _ h
  · exact h

theorem out_execMigrationSourceLineError (p line : Nat) {s : State} (h : StSound s) :
    OutSound (execMigrationSourceLineError p line s) := by
  unfold execMigrationSourceLineError
  simp only [outSound_next]
  grind [sound_loseLine, sound_migEnd]

/-- What an attach or a detach leaves is sound: stated of the pair and of the function, so that neither is ever computed. -/
def LeavesSound (r : Nat × MemSys) : Prop := MemSound r.2

def ChunkSound (f : State → Nat → Nat → Nat × MemSys) : Prop := ∀ s p a, StSound s → LeavesSound (f s p a)

theorem leavesSound_ite {c : Prop} [Decidable c] {a b : Nat × MemSys} (ha : LeavesSound a) (hb : LeavesSound b) :
    LeavesSound (if c then a else b) := by
  split
  · exact ha
  · exact hb

theorem chunkSound_attachChunk : ChunkSound attachChunk := by
  delta attachChunk
  simp only [ChunkSound]
  intro s p f h
  generalize shadowSpace s f = room
  obtain _ | ⟨base, size, shadow⟩ := room
  · exact h
  · cases Map.get? s.mem.chunks f with
    | some o => exact h
    | none => exact leavesSound_ite h h

theorem chunkSound_detachChunk : ChunkSound detachChunk := by
  delta detachChunk
  simp only [ChunkSound]
  intro s p f h
  split
  · exact h
  · exact leavesSound_ite h h

theorem sound_shadowDone (op : Nat) {f : State → Nat → Nat → Nat × MemSys} (p : Nat) {s : State} (h : StSound s)
    (hf : ChunkSound f) : StSound (shadowDone op f p s) := by
  have hm : ∀ a, MemSound (f s p a).2 := fun a => hf s p a h
  unfold shadowDone
  dsimp only
  split
  · exact hm _
  · exact h

theorem out_execShadowAttach (p : Nat) {s : State} (h : StSound s) : OutSound (execShadowAttach p s) :=
  outSound_next.mpr (sound_shadowDone 1 p h chunkSound_attachChunk)

theorem out_execShadowDetach (p : Nat) {s : State} (h : StSound s) : OutSound (execShadowDetach p s) :=
  outSound_next.mpr (sound_shadowDone 2 p h chunkSound_detachChunk)

/-! ## Control registers -/

theorem sound_migWrite {s : State} (p : Nat) (v : DWord) (h : StSound s) : StSound (migWrite s p v) := by
  unfold migWrite
  grind [setPart_mem, sound_migAbort, sound_migGo, sound_migSwitch]

theorem sound_shadowWrite {s : State} (p : Nat) (v : DWord) (h : StSound s) : StSound (shadowWrite s p v) := by
  unfold shadowWrite
  split <;> exact h

theorem sound_crWrite {s : State} (p : Nat) (c : CReg) (v : DWord) (h : StSound s) : StSound (crWrite s p c v) := by
  unfold crWrite
  grind [setPart_mem, sound_agentAbandonAll, sound_agentRetryAll, sound_migWrite, sound_shadowWrite]

theorem out_execEvqOvfClear (p : Nat) (v : Word) {s : State} (h : StSound s) : OutSound (execEvqOvfClear p v s) := by
  unfold execEvqOvfClear
  simp only [outSound_next]
  grind [setPart_mem]

theorem sound_movcReadLane (x : MovcOps) : LaneSound (movcReadLane x) := fun _ _ _ h => h

theorem sound_movcWriteLane (x : MovcOps) : LaneSound (movcWriteLane x) := fun _ _ _ h => sound_crWrite _ _ _ h

theorem sound_shadowLanes (x : MovcOps) (gid : Nat) (ks : List Nat) {s : State} (h : StSound s) :
    StSound (shadowLanes x gid ks s) := by
  induction ks generalizing s with
  | nil => exact sound_advance gid h
  | cons k r ih =>
    unfold shadowLanes
    split
    · exact ih h
    · split
      · exact h
      · exact ih (sound_crWrite _ _ _ h)

theorem out_execMovcWrite (x : MovcOps) {s : State} (h : StSound s) : OutSound (execMovcWrite x s) := by
  unfold execMovcWrite
  simp only [outSound_next]
  grind [sound_groupOp, sound_laneOp, sound_movcWriteLane, sound_shadowLanes]

/-! ## Events -/

theorem out_execEventPost (p : Nat) {s : State} (h : StSound s) : OutSound (execEventPost p s) := by
  unfold execEventPost
  simp only [outSound_next]
  grind [setPart_mem, sound_recordPost, wakeDie_mem]

/-! ## Privileged instructions -/

theorem sound_rteLane  : LaneSound rteLane := by
  intro k t s h
  unfold rteLane
  grind [modThread_mem, sound_leaveGroup, sound_resumeNoEntry, sound_rteCheck]

theorem sound_dropTlb {s : State} (p : Nat) (hit : Nat → Nat → Bool) (h : StSound s) : StSound (dropTlb s p hit) := by
  obtain ⟨hb, hp, ht, hs⟩ := h
  exact ⟨hb, hp, ht.filter _, hs.filter _⟩

theorem sound_invalidate {s : State} (p : Nat) (hit : Nat → Nat → Bool) (h : StSound s) : StSound (invalidate s p hit) :=
  sound_retranslateHeld _ (sound_dropTlb _ _ h)

theorem sound_dropCode {s : State} (k p : Nat) (ps : Option (List (Nat × Nat))) (h : StSound s) : StSound (dropCode s k p ps) := h

theorem sound_settleFor {s : State} (k : Nat) (h : StSound s) : StSound (settleFor s k) := by
  unfold settleFor
  split <;> exact h

theorem sound_tlbiLane (x : RangeOps) : LaneSound (tlbiLane x) := fun _ _ _ h => sound_invalidate _ _ h

theorem sound_icinvLane (x : RangeOps) : LaneSound (icinvLane x) := by
  intro k t s h
  unfold icinvLane
  grind [sound_dropCode]

theorem out_execTlbiAll (g : Guard) {s : State} (h : StSound s) : OutSound (execTlbiAll g s) := by
  unfold execTlbiAll
  simp only [outSound_next]
  grind [sound_invalidate, sound_laneOp]

theorem out_execIcinvAll (g : Guard) {s : State} (h : StSound s) : OutSound (execIcinvAll g s) := by
  unfold execIcinvAll
  simp only [outSound_next]
  grind [sound_dropCode, sound_laneOp]

theorem sound_recordOp {s : State} (fk : Nat) (op : FOp) (h : StSound s) : StSound (recordOp s fk op) := h

theorem sound_fresEntry {s : State} (fk : Nat) (h : StSound s) : StSound (fresEntry s fk) := by
  unfold fresEntry
  grind [sound_fresMembers, sound_modFrag]

theorem sound_fresLane (x : OpDA) : LaneSound (fresLane x) := by
  intro k t s h
  unfold fresLane
  grind [modThread_mem, sound_fresEntry, sound_recordOp]

theorem sound_fdiscEntry {s : State} (fk : Nat) (h : StSound s) : StSound (fdiscEntry s fk) := h

theorem sound_exitMembers {s : State} (id : Word) (h : StSound s) : StSound (exitMembers s id) :=
  sound_foldl h (fun _ _ hs => sound_discardThread _ hs)

theorem sound_noteGone (s0 : State) {s : State} (h : StSound s) : StSound (noteGone s0 s) := h

theorem sound_learnGone (s0 : State) {s : State} (k : Nat) (h : StSound s) : StSound (learnGone s0 s k) := by
  unfold learnGone
  grind [modThread_mem]

/-- The lanes of FDISC and what each leaves to be discarded. -/
theorem out_execFdisc (x : OpDA) {s : State} (h : StSound s) : OutSound (execFdisc x s) := by
  refine outSound_next.mpr (sound_groupOp _ (fun gid g act s h => ?_) h)
  split
  · exact sound_wakeDie _ h
  · refine sound_foldl (sound_noteGone _ (sound_foldl (sound_advance gid (sound_foldl_fst h ?_)) ?_)) ?_
    · grind [sound_recordOp, sound_fdiscEntry, modThread_mem]
    · exact fun s i hs => sound_exitMembers _ hs
    · exact fun s i hs => sound_learnGone _ _ hs

theorem sound_sbrdLane (x : OpDA) : LaneSound (sbrdLane x) := fun _ _ _ h => h

theorem sound_haltLane (x : OpDA) (gid : Nat) : LaneSound (haltLane x gid) := by
  intro k t s h
  unfold haltLane
  grind [addWait_mem, modThread_mem]

theorem sound_deliverWait {s : State} (k : Nat) (w : Wait) (h : StSound s) : StSound (deliverWait s k w) := by
  unfold deliverWait
  split <;> exact h

theorem sound_settleWaits {s : State} (gid : Nat) (h : StSound s) : StSound (settleWaits s gid) := by
  unfold settleWaits
  grind [modGroup_mem, sound_deliverWait, sound_foldl, sound_settleGroup]

/-! ## Pre-emption, save and restore -/

theorem sound_expireWindow {s : State} (wk : Nat) (h : StSound s) : StSound (expireWindow s wk) := by
  unfold expireWindow
  grind [modWarp_mem, sound_stopWhole]

theorem sound_liveRecord {s : State} (t : Thread) (rofs : Word) (h : StSound s) : StSound (liveRecord s t rofs).2 := by
  unfold liveRecord
  grind [sound_readVas]

theorem sound_warpRecords (l : List (Nat × Thread)) {s : State} (h : StSound s) : StSound (warpRecords l s).2 := by
  induction l generalizing s with
  | nil => exact h
  | cons e r ih =>
    unfold warpRecords
    split
    · have hl := sound_liveRecord e.2 ‹_› h
      split
      · next he =>
        rw [he] at hl
        have hr := ih hl
        split
        · next hq => rwa [hq] at hr
        · exact hr
      · next he => rwa [he] at hl
      · next he => rwa [he] at hl
    · exact ih h

theorem sound_forgetBy {s : State} (k map : Nat) (h : StSound s) : StSound (forgetBy s k map) := by
  unfold forgetBy
  split <;> exact h

theorem sound_saveThreads (ts : List (Nat × Thread)) {s : State} (h : StSound s) : StSound (saveThreads ts s).2 := by
  unfold saveThreads
  grind [sound_foldl, sound_forgetBy, sound_warpRecords]

theorem sound_saveCore {s : State} (ck : Nat) (h : StSound s) : StSound (saveCore s ck) := by
  unfold saveCore
  grind [modCore_mem]

theorem sound_fillImage {s : State} (a n : Nat) (h : StSound s) : StSound (fillImage s a n) :=
  ⟨stWf_fillImage a n h.1, h.2.1.filter _, h.2.2.1, h.2.2.2⟩

theorem sound_pickSlot {s : State} (q : Part) (n : Nat) (h : StSound s) : ∀ x, pickSlot s q n = some x → StSound x.2 := by
  unfold pickSlot
  grind [sound_drawWord]

theorem sound_endSaves {s : State} (wk : Nat) (v : Word) (h : StSound s) : StSound (endSaves s wk v) := by
  unfold endSaves
  grind [modGroup_mem, modThread_mem, sound_foldl, sound_settleGroup]

theorem sound_sealWarp {s : State} (wk : Nat) (w : Warp) (p i n : Nat) (ranges : Option (List (Nat × Nat))) (h : StSound s) :
    StSound (sealWarp s wk w p i n ranges) := by
  unfold sealWarp
  grind [modWarp_mem, setPart_mem, sound_endSaves, sound_fillImage, sound_foldl, sound_leaveSide, sound_modFrag, sound_saveCore]

theorem sound_saveWarp {s : State} (wk : Nat) (w : Warp) (h : StSound s) : StSound (saveWarp s wk w) := by
  unfold saveWarp
  dsimp only
  split
  · exact h
  · next i s' he =>
    have hs := sound_saveThreads (warpThreads s' wk) (sound_pickSlot _ _ h _ he)
    split
    · exact h
    · split
      · exact sound_wakeDie _ h
      · split
        · next hq =>
          rw [hq] at hs
          exact sound_sealWarp _ _ _ _ _ _ hs
        · next hq =>
          rwa [hq] at hs

theorem out_execWarpSave (wk : Nat) {s : State} (h : StSound s) : OutSound (execWarpSave wk s) := by
  unfold execWarpSave
  simp only [outSound_next]
  grind [sound_saveWarp, sound_stopStanding]

theorem sound_placeQuads {s : State} (ck core : Nat) (qs : List Nat) (h : StSound s) : StSound (placeQuads s ck core qs) := by
  unfold placeQuads
  grind [modWarp_mem, sound_foldl]

theorem sound_moveGroup {s : State} (p cgu : Nat) (pl : List (Nat × Nat × List Nat)) (h : StSound s) :
    StSound (moveGroup s p cgu pl) := by
  unfold moveGroup
  grind [modCore_mem, setIsland_mem, sound_foldl, sound_placeQuads]

theorem sound_placeWarp {s : State} (p wk : Nat) (w : Warp) (h : StSound s) : ∀ x, placeWarp s p wk w = some x → StSound x := by
  have hslot : ∀ (o : Option Nat) x, o.map (fun i => modWarp s wk (fun w => { w with slot := i })) = some x → StSound x := by
    rintro o x ho
    obtain ⟨i, _, rfl⟩ := Option.map_eq_some_iff.mp ho
    exact h
  intro x hx
  unfold placeWarp at hx
  dsimp only at hx
  split at hx
  · split at hx
    · exact hslot _ _ hx
    · split at hx
      · split at hx
        · cases hx
        · split at hx
          · next he =>
            cases hx
            have hs := hslot _ _ he
            exact hs
          · cases hx
            exact sound_placeQuads _ _ _ h
          · cases hx
      · split at hx
        · cases hx
        · cases hx
          exact sound_moveGroup _ _ _ (sound_drawWord h)
  · cases hx

theorem sound_takeOp {s : State} (fk : Nat) (op : FOp) (h : StSound s) : StSound (takeOp s fk op) := by
  unfold takeOp
  grind [sound_exitMembers, sound_fdiscEntry, sound_fresEntry, sound_noteGone]

theorem sound_resumeWarp {s : State} (p wk : Nat) (h : StSound s) : StSound (resumeWarp s p wk) := by
  unfold resumeWarp
  grind
    [modThread_mem, modWarp_mem, setPart_mem, sound_foldl, sound_genCheck, sound_learnAway, sound_modFrag, sound_mwaitChecks,
    sound_regroupTeams, sound_takeOp]

theorem sound_restoreImage {s : State} (p i : Nat) (h : StSound s) : StSound (restoreImage s p i).2 := by
  unfold restoreImage
  grind [sound_placeWarp, sound_resumeWarp]

theorem out_execWarpRestore (p i : Nat) {s : State} (h : StSound s) : OutSound (execWarpRestore p i s) := by
  refine outSound_next.mpr ?_
  have hr := sound_restoreImage p i h
  split
  · next he =>
    rw [he] at hr
    grind [sound_requestSave]
  · next he =>
    rwa [he] at hr

theorem sound_saveLane (x : OpDA) (gid : Nat) : LaneSound (saveLane x gid) := by
  intro k t s h
  unfold saveLane
  grind [addWait_mem, modThread_mem, sound_requestSave]

theorem sound_restLane (x : OpDA) : LaneSound (restLane x) := fun _ _ _ h => sound_learnGone _ _ (sound_restoreImage _ _ h)

/-! ## Clause entry -/

theorem sound_codeLoc {s : State} (w : Who) (va : DWord) (h : StSound s) : StSound (codeLoc s w va).2 := by
  unfold codeLoc
  grind [sound_translate]

theorem sound_codeLocs (w : Who) (n : Nat) (va : DWord) {s : State} (h : StSound s) : StSound (codeLocs w n va s).2 := by
  induction n generalizing va s with
  | zero => exact h
  | succ n ih =>
    have hc := sound_codeLoc w va h
    unfold codeLocs
    split
    · next he => rwa [he] at hc
    · next he => rw [he] at hc; exact ih _ hc

theorem sound_codeRead (w : Who) (l : List Loc) {s : State} (h : StSound s) : StSound (codeRead w l s).2 := by
  induction l generalizing s with
  | nil => exact h
  | cons x r ih =>
    unfold codeRead
    split
    · exact sound_wakeDie _ h
    · exact ih (sound_readLoc x 8 (sound_homeAcc x false h))

theorem sound_keepCode {s : State} (hs : List Nat) (ls : List Loc) (ws : List DWord) (h : StSound s) :
    StSound (keepCode s hs ls ws) := h

theorem sound_oldClause (w : Who) (hs : List Nat) (hdr : DWord) (str : Bool) (l : Loc) (n e : Nat) {s : State} (h : StSound s) :
    StSound (oldClause w hs hdr str l n e s).2 := by
  induction n generalizing e s with
  | zero => exact h
  | succ n ih =>
    unfold oldClause
    grind [sound_codeLocs, sound_keepCode]

theorem sound_fetchMiss {s : State} (w : Who) (hs : List Nat) (hdr : DWord) (str : Bool) (l0 : Loc) (h : StSound s) :
    StSound (fetchMiss s w hs hdr str l0).2 := by
  unfold fetchMiss
  grind [sound_codeLocs, sound_codeRead, sound_keepCode, sound_oldClause]

theorem sound_fetchClause {s : State} (w : Who) (hs : List Nat) (hdr : DWord) (str : Bool) (h : StSound s) :
    StSound (fetchClause s w hs hdr str).2 := by
  unfold fetchClause
  grind [sound_codeLoc, sound_codeLocs, sound_fetchMiss, sound_keepCode]

theorem sound_entryFault {s : State} (ks : List Nat) (f : FInfo) (fpc : DWord) (slot : Option Pass) (vec : Bool) (h : StSound s)
    : StSound (entryFault s ks f fpc slot vec) := by
  unfold entryFault
  grind [sound_raise, wakeDie_mem]

theorem sound_enterPool {s : State} (hdr : DWord) (cs : List (Nat × Thread)) (h : StSound s) : StSound (enterPool s hdr cs) := by
  unfold enterPool
  grind [sound_entryFault, sound_fetchClause, sound_formGroup]

theorem sound_enterThreads {s : State} (core quad : Nat) (hdr : DWord) (h : StSound s) :
    StSound (enterThreads s core quad hdr) := by
  unfold enterThreads
  grind [sound_enterPool]

theorem sound_enterSlice {s : State} (qk : Nat) (h : StSound s) : StSound (enterSlice s qk) := by
  unfold enterSlice
  grind [modSlice_mem, sound_fetchClause, sound_sliceFault, sound_sliceStop]

theorem out_execClauseEntry (e : EntryAt) {s : State} (h : StSound s) : OutSound (execClauseEntry e s) := by
  unfold execClauseEntry
  simp only [outSound_next]
  grind [sound_enterSlice, sound_enterThreads]

theorem sound_clauseWaitStep {s : State} (gid : Nat) (g : Group) (m : Byte) (h : StSound s) :
    StSound (clauseWaitStep s gid g m) := by
  unfold clauseWaitStep
  grind [setHold_mem, sound_faultAll]

theorem out_execIllegalInstruction (r : IllReason) (w : DWord) {s : State} (h : StSound s) :
    OutSound (execIllegalInstruction r w s) := by
  unfold execIllegalInstruction
  simp only [outSound_next]
  grind [sound_faultAll, sound_sliceOp, sound_sliceStop]

/-! ## Errors, fencing, partitions and keys -/

theorem sound_storageError (at_ : ErrAt) {s : State} (h : StSound s) : StSound (storageError at_ s) := by
  unfold storageError
  grind [modCore_mem, modQueue_mem, modThread_mem, modWarp_mem]

theorem out_execUncorrectableLineError (at_ : ErrAt) {s : State} (h : StSound s) :
    OutSound (execUncorrectableLineError at_ s) := by
  unfold execUncorrectableLineError
  simp only [outSound_next]
  grind [sound_loseLine, sound_storageError]

theorem sound_settleVolts {s : State} (h : StSound s) : StSound (settleVolts s) := by
  unfold settleVolts
  grind [setIsland_mem, sound_foldl]

theorem sound_postFence {s : State} (p unit cause1 : Nat) (h : StSound s) : StSound (postFence s p unit cause1) := h

theorem sound_discardMembers {s : State} (cgu fk : Nat) (h : StSound s) : StSound (discardMembers s cgu fk) := by
  unfold discardMembers
  grind [postEvent_mem, sound_discardThread, sound_exitMembers, sound_fdiscEntry, sound_foldl, sound_rteCheck]

theorem sound_discardGroup {s : State} (cgu : Nat) (h : StSound s) : StSound (discardGroup s cgu) := by
  unfold discardGroup
  grind [postEvent_mem, setPart_mem, sound_discardMembers, sound_discardThread, sound_foldl, sound_freeGroup, sound_setCgSt]

theorem sound_fenceCluster {s : State} (c : Nat) (h : StSound s) : StSound (fenceCluster s c) :=
  sound_foldl h (fun _ _ hs => sound_discardGroup _ hs)

theorem sound_dropLost {s : State} (l : Nat) (h : StSound s) : StSound (dropLost s l) := by
  obtain ⟨hb, hp, ht⟩ := h
  exact sound_loseLine l _ ⟨hb, hp.filter _, ht⟩

theorem sound_settleDie {s : State} (d : Nat) (h : StSound s) : StSound (settleDie s d) := by
  obtain ⟨hb, hr⟩ := sound_foldl (l := dieLost s d) h (fun _ l hs => sound_dropLost l hs)
  exact ⟨hb, hr⟩

theorem sound_fenceDie {s : State} (d arg1 : Nat) (h : StSound s) : StSound (fenceDie s d arg1) := by
  unfold fenceDie
  grind [setDie_mem, sound_fenceCluster, sound_foldl, sound_postFence, sound_settleDie, sound_wakeWaiters]

theorem sound_fencePort {s : State} (x : Nat) (h : StSound s) : StSound (fencePort s x) := by
  unfold fencePort
  refine sound_foldl (sound_foldl h (fun _ p hs => sound_postFence _ _ _ hs)) (fun s l hs => ?_)
  split <;> exact hs

theorem sound_fenceLink {s : State} (l : Nat) (h : StSound s) : StSound (fenceLink s l) := 
  sound_foldl h (fun _ _ hs => sound_postFence _ _ _ hs)

theorem out_execFunctionFence (unit : Nat) {s : State} (h : StSound s) : OutSound (execFunctionFence unit s) := by
  unfold execFunctionFence
  simp only [outSound_next]
  grind [sound_fenceCluster, sound_fenceDie, sound_fenceLink, sound_fencePort, sound_postFence]

theorem out_execDieUnresponsive (d : Nat) {s : State} (h : StSound s) : OutSound (execDieUnresponsive d s) := by
  unfold execDieUnresponsive
  simp only [outSound_next]
  grind [sound_fenceDie]

theorem out_execLinkSleep (d : Nat) {s : State} (h : StSound s) : OutSound (execLinkSleep d s) := by
  unfold execLinkSleep
  simp only [outSound_next]
  grind [setDie_mem]

theorem out_execLinkWakeDone (d : Nat) {s : State} (h : StSound s) : OutSound (execLinkWakeDone d s) := by
  unfold execLinkWakeDone
  simp only [outSound_next]
  grind [setDie_mem, sound_wakeWaiters]

theorem out_execSnoopSlow (d : Nat) {s : State} (h : StSound s) : OutSound (execSnoopSlow d s) := by
  unfold execSnoopSlow
  simp only [outSound_next]
  grind [setDie_mem]

theorem sound_flushKey {s : State} (k : Nat) (h : StSound s) : StSound (flushKey s k) := by
  have ha := sound_foldl (f := fun s l => answered s none l true) (l := (s.mem.keyOf.filter (fun e => e.2 == k)).map (·.1)) h
    (fun _ l hs => sound_answered none l true hs)
  obtain ⟨hb, hr⟩ := memSound_combineLines ((s.mem.keyOf.filter (fun e => e.2 == k)).map (·.1)) ha
  exact ⟨hb, hr⟩

theorem sound_setKey {s : State} (k : Nat) (f : KeySlot → KeySlot) (h : StSound s) : StSound (setKey s k f) := h

theorem sound_loadKey {s : State} (k : Nat) (h : StSound s) : StSound (loadKey s k) := sound_flushKey k h

theorem sound_emptyKey {s : State} (k : Nat) (h : StSound s) : StSound (emptyKey s k) := by
  unfold emptyKey
  grind [sound_everyHeld, sound_flushKey, sound_heldFault, sound_setKey]

theorem sound_keyChange {s : State} (k : Nat) (f : State → State) (h : StSound s) (hf : ∀ s, StSound s → StSound (f s)) :
    StSound (keyChange s k f) := by
  unfold keyChange
  grind [wakeDie_mem]

theorem out_execKeySlotChange (k : Nat) (op : KeyOp) {s : State} (h : StSound s) : OutSound (execKeySlotChange k op s) := by
  unfold execKeySlotChange
  simp only [outSound_next]
  grind [sound_emptyKey, sound_keyChange, sound_loadKey, sound_setKey]

theorem sound_createPart {s : State} (p : Nat) (h : StSound s) : StSound (createPart s p) := by
  unfold createPart
  grind [setPart_mem, sound_drawWord, sound_loadKey]

theorem sound_powerOff {s : State} (lost : BitVec 128) (h : StSound s) : StSound (powerOff s lost) := by
  unfold powerOff
  grind [setIsland_mem, sound_foldl]

theorem out_execPartitionChange (p : Nat) (mask : BitVec 128) {s : State} (h : StSound s) :
    OutSound (execPartitionChange p mask s) := by
  unfold execPartitionChange
  simp only [outSound_next]
  grind [setPart_mem, sound_createPart, sound_powerOff, sound_settleVolts, wakeDie_mem]

/-! ## The package block -/

theorem out_execCombiningClose (slice line : Nat) {s : State} (h : StSound s) : OutSound (execCombiningClose slice line s) := by
  unfold execCombiningClose
  simp only [outSound_next]
  grind [setPkg_mem]

theorem out_execSnoopWritebackCrossing (line : Nat) (inval : Bool) {s : State} (h : StSound s) :
    OutSound (execSnoopWritebackCrossing line inval s) := by
  have ha := sound_answered none line true h
  refine outSound_next.mpr (stSound_ite h ?_)
  obtain ⟨hb, hr⟩ := memSound_combineLine line ha
  exact ⟨hb, hr⟩

theorem out_execSectorThrottle (x : Nat) (cur : BitVec 8) {s : State} (h : StSound s) :
    OutSound (execSectorThrottle x cur s) := by
  unfold execSectorThrottle
  simp only [outSound_next]
  grind [setPkg_mem]

theorem sound_cluReq {s : State} (c : Nat) (v : Word) (view : PowerView) (h : StSound s) : StSound (cluReq s c v view) := by
  unfold cluReq
  split <;> exact h

theorem out_execRampEnd (c : Nat) {s : State} (h : StSound s) : OutSound (execRampEnd c s) := by
  unfold execRampEnd
  simp only [outSound_next]
  grind [setIsland_mem, sound_settleVolts]

theorem out_execCanaryWarning (c : Nat) {s : State} (h : StSound s) : OutSound (execCanaryWarning c s) := by
  unfold execCanaryWarning
  simp only [outSound_next]
  grind [setIsland_mem, sound_settleVolts]

theorem out_execCanofsDecay (c : Nat) {s : State} (h : StSound s) : OutSound (execCanofsDecay c s) := by
  unfold execCanofsDecay
  simp only [outSound_next]
  grind [setIsland_mem, sound_settleVolts]

theorem out_execSlopeTick (c energy : Nat) (draw : SlopeDraw) {s : State} (h : StSound s) :
    OutSound (execSlopeTick c energy draw s) := by
  unfold execSlopeTick
  simp only [outSound_next]
  grind [setIsland_mem, setPkg_mem]

/-! ## Start-up and recovery -/

theorem out_execDeviceStart {s : State} (h : StSound s) : OutSound (execDeviceStart s) := by
  unfold execDeviceStart
  simp only [outSound_next]
  grind [memSound_startMem]

theorem out_execFirmwareTimeout {s : State} (h : StSound s) : OutSound (execFirmwareTimeout s) := by
  unfold execFirmwareTimeout
  simp only [outSound_next]
  grind [setBoot_mem]

theorem out_execFirmwareStartEnd (e : StartEnd) {s : State} (h : StSound s) : OutSound (execFirmwareStartEnd e s) := by
  refine outSound_next.mpr ?_
  split
  · exact h
  · cases e <;> exact h

theorem out_execRecoveryVerifyDone {s : State} (h : StSound s) : OutSound (execRecoveryVerifyDone s) := by
  unfold execRecoveryVerifyDone
  simp only [outSound_next]
  grind [setBoot_mem]

/-! ## The host port, pools and links -/

theorem sound_hostByte {s : State} (a : Nat) (h : StSound s) : StSound (hostByte s a).2 := by
  unfold hostByte
  grind [sound_drawWord, sound_readLoc]

theorem sound_hostRead (n a : Nat) {s : State} (h : StSound s) : StSound (hostRead n a s).2 := by
  induction n generalizing a s with
  | zero => exact h
  | succ n ih => exact ih _ (sound_hostByte _ h)

theorem sound_hostPut (ag : Agent) {s : State} (a : Nat) (l : List Byte) (narrow : Bool) (h : StSound s) :
    StSound (hostPut ag s a l narrow) := by
  unfold hostPut
  grind [holdWrite_mem, sound_homeAcc, sound_pokeLoc]

theorem sound_hostWords (ag : Agent) (n a : Nat) (l : List Byte) {s : State} (h : StSound s) :
    StSound (hostWords ag n a l s) := by
  induction n generalizing a l s with
  | zero => exact h
  | succ n ih =>
    unfold hostWords
    grind [sound_hostPut]

theorem sound_hostWrite (ag : Agent) (a : Nat) (l : List Byte) {s : State} (h : StSound s) : StSound (hostWrite ag a l s) :=
  sound_hostWords _ _ _ _ h

theorem sound_shareLines {s : State} (a n : Nat) (h : StSound s) : StSound (shareLines s a n) :=
  sound_foldl h (fun _ _ hs => sound_homeAcc _ _ hs)

theorem sound_recRead {s : State} (h : StSound s) : StSound (recRead s) := by
  unfold recRead
  grind [setHost_mem, sound_openLoc]

theorem sound_recDone {s : State} (h : StSound s) : StSound (recDone s) := h

theorem sound_recWrite {s : State} (h : StSound s) : StSound (recWrite s) := by
  unfold recWrite
  grind [setHost_mem, sound_agentWrite, sound_homeAcc, sound_recDone]

theorem sound_snoopLine {s : State} (line : Nat) (inval : Bool) (h : StSound s) : StSound (snoopLine s line inval) := by
  have hc : StSound { answered s none line inval with
      mem := { cacheUse (combineLine (answered s none line inval).mem line) none 7 line inval with
        dirty := Map.erase (answered s none line inval).mem.dirty line } } :=
    memSound_cacheUse none 7 line inval (memSound_combineLine line (sound_answered none line inval h))
  unfold snoopLine
  dsimp only
  split <;> exact hc

theorem sound_otherWrite {s : State} (line : Nat) (data : Option (List Byte)) (h : StSound s) :
    StSound (otherWrite s line data) := by
  cases data with
  | none => exact h
  | some l => exact ⟨memWf_memWrite _ _ h.1, h.2⟩

theorem sound_hostSnoop {s : State} (line : Nat) (inval : Bool) (data : Option (List Byte)) (h : StSound s) :
    StSound (hostSnoop s line inval data) := by
  unfold hostSnoop
  grind [sound_otherWrite, sound_snoopLine]

theorem sound_poolSnoop {s : State} (line : Nat) (data : Option (List Byte)) (h : StSound s) :
    StSound (poolSnoop s line data) := by
  unfold poolSnoop
  grind [memSound_setRec, sound_otherWrite, sound_snoopLine]

theorem sound_outerSnoop {s : State} (h : HeldSnoop) (hs : StSound s) : StSound (outerSnoop s h) := by
  unfold outerSnoop
  grind [sound_hostSnoop, sound_poolSnoop]

theorem sound_takeSnoop {s : State} (h : HeldSnoop) (hs : StSound s) : StSound (takeSnoop s h) := by
  unfold takeSnoop
  grind [setHost_mem, sound_outerSnoop, wakeDie_mem]

theorem sound_retrySnoops {s : State} (h : StSound s) : StSound (retrySnoops s) := by
  unfold retrySnoops
  split
  · exact h
  · exact sound_foldl h (fun _ _ hs => sound_takeSnoop _ hs)

theorem out_execHostCxlSnoop (line : Nat) (snoop : HostSnoop) {s : State} (h : StSound s) :
    OutSound (execHostCxlSnoop line snoop s) := by
  unfold execHostCxlSnoop
  simp only [outSound_next]
  grind [sound_takeSnoop]

theorem out_execPoolBackInvalidation (line : Nat) (data : Option (List Byte)) {s : State} (h : StSound s) :
    OutSound (execPoolBackInvalidation line data s) := by
  unfold execPoolBackInvalidation
  simp only [outSound_next]
  grind [sound_takeSnoop]

theorem out_execPoolWindowAttach (w base size : Nat) (shared : Bool) {s : State} (h : StSound s) :
    OutSound (execPoolWindowAttach w base size shared s) := by
  refine outSound_next.mpr ?_
  dsimp only
  split <;> exact h

theorem sound_copyStatus {s : State} (dst : Nat) (h : StSound s) : StSound (copyStatus s dst).2 := by
  unfold copyStatus
  split <;> exact h

theorem sound_ewSee {s : State} (p : Nat) (moved : Bool) (h : StSound s) : StSound (ewSee s p moved) := h

theorem sound_ringWrite {s : State} (p : Nat) (f : EwRing → EwRing) (h : StSound s) : StSound (ringWrite s p f) := by
  unfold ringWrite
  grind [setRing_mem, sound_ewSee]

theorem sound_giveSource {s : State} (src len : Nat) (h : StSound s) : StSound (giveSource s src len) :=
  sound_shareLines src len (memSound_combineLines _ h)

theorem out_execRemoteCopyCompletion (p slot : Nat) {s : State} (h : StSound s) :
    OutSound (execRemoteCopyCompletion p slot s) := by
  unfold execRemoteCopyCompletion
  simp only [outSound_next]
  grind [setHost_mem, setRing_mem, sound_copyEnd, sound_copyStatus, sound_giveSource, wakeDie_mem]

theorem sound_landWords (n key a : Nat) (l : List (Word × BitVec 16)) {s : State} (h : StSound s) :
    StSound (landWords n key a l s) := by
  induction l generalizing a s with
  | nil => exact h
  | cons e r ih => exact ih _ (sound_agentWrite _ _ _ _ _ _ (sound_homeAcc _ _ h) (fun _ _ hs => hs))

theorem out_execInboundRemoteCopy (o : CopyOrigin) (dofs : Nat) (data : List (Word × BitVec 16)) (rcobj : Nat) {s : State}
    (h : StSound s) : OutSound (execInboundRemoteCopy o dofs data rcobj s) := by
  unfold execInboundRemoteCopy
  simp only [outSound_next]
  grind [setHost_mem, sound_landStep, sound_landWords, wakeDie_mem]

theorem sound_ewWrite {s : State} (p o n : Nat) (v : DWord) (h : StSound s) : StSound (ewWrite s p o n v) := by
  unfold ewWrite
  grind [sound_ringWrite]

theorem sound_pfWrite {s : State} (o : Nat) (l : List Byte) (h : StSound s) : StSound (pfWrite s o l) := by
  unfold pfWrite
  refine stSound_ite h
    (stSound_ite h (stSound_ite h (stSound_ite h (stSound_ite h (stSound_ite (sound_cluReq _ _ _ h) (stSound_ite h
    (stSound_ite h (stSound_ite (stSound_ite h h) (stSound_ite h (stSound_ite h (stSound_ite ?_ (stSound_ite (sound_ewWrite _ _ _
      _ h) h))))))))))))
  exact stSound_ite (sound_recRead h) (stSound_ite (sound_recWrite h) h)

theorem sound_vfWrite {s : State} (p o : Nat) (l : List Byte) (h : StSound s) : StSound (vfWrite s p o l) := by
  unfold vfWrite
  grind [modLq_mem, sound_cluReq, sound_ewWrite]

theorem sound_postNow (addr : DWord) (l : List Byte) {s : State} (h : StSound s) : StSound (postNow addr l s) := by
  unfold postNow
  refine stSound_ite (stSound_ite h (sound_hostWrite _ _ _ h)) (stSound_ite (sound_pfWrite _ _ h) ?_)
  split
  · exact sound_vfWrite _ _ _ h
  · exact h

theorem sound_drainPosted (n : Nat) {s : State} (h : StSound s) : StSound (drainPosted n s) := by
  induction n generalizing s with
  | zero => exact h
  | succ n ih =>
    unfold drainPosted
    split
    · exact h
    · split
      · exact h
      · split
        · exact sound_wakeDie _ h
        · exact ih (sound_postNow _ _ h)

theorem sound_hostPost (addr : DWord) (l : List Byte) {s : State} (h : StSound s) : StSound (hostPost addr l s) :=
  sound_drainPosted _ h

theorem out_execHostPostedWrite (addr : DWord) (l : List Byte) (relaxed : Bool) {s : State} (h : StSound s) :
    OutSound (execHostPostedWrite addr l relaxed s) := by
  unfold execHostPostedWrite
  simp only [outSound_next]
  grind [sound_hostPost, sound_postNow]

theorem sound_hostNow (addr : DWord) (l : List Byte) (now : State → State) {s : State} (h : StSound s)
    (hnow : ∀ s, StSound s → StSound (now s)) : StSound (hostNow addr l now s) := by
  unfold hostNow
  grind [sound_hostPost]

theorem out_execHostHdmAccess (o : Nat) (op : HdmOp) {s : State} (h : StSound s) : OutSound (execHostHdmAccess o op s) := by
  unfold execHostHdmAccess
  simp only [outSound_next]
  grind [setHost_mem, sound_hostNow, sound_hostRead, sound_hostWrite, sound_shareLines, wakeDie_mem]

theorem sound_recCmd (v : Word) (now : State → State) {s : State} (h : StSound s) (hnow : ∀ s, StSound s → StSound (now s)) :
    StSound (recCmd v now s) := by
  unfold recCmd
  grind [sound_hostNow]

theorem out_execRecCmdRead {s : State} (h : StSound s) : OutSound (execRecCmdRead s) := by
  unfold execRecCmdRead
  simp only [outSound_next]
  grind [sound_recCmd, sound_recRead]

theorem out_execRecCmdWrite {s : State} (h : StSound s) : OutSound (execRecCmdWrite s) := by
  unfold execRecCmdWrite
  simp only [outSound_next]
  grind [sound_recCmd, sound_recWrite]

theorem sound_windowWrite (addr : Nat) (v : Word) (now : State → State) {s : State} (h : StSound s)
    (hnow : ∀ s, StSound s → StSound (now s)) : StSound (windowWrite addr v now s) := by
  unfold windowWrite
  grind [sound_hostNow]

theorem out_execLqTailWrite (p q : Nat) (v : Word) {s : State} (h : StSound s) : OutSound (execLqTailWrite p q v s) := by
  unfold execLqTailWrite
  simp only [outSound_next]
  grind [modLq_mem, sound_windowWrite]

theorem out_execEwTailWrite (p : Nat) (v : Word) {s : State} (h : StSound s) : OutSound (execEwTailWrite p v s) := by
  unfold execEwTailWrite
  simp only [outSound_next]
  grind [sound_ringWrite, sound_windowWrite]

theorem out_execCluReqWrite (c : Nat) (v : Word) (view : PowerView) {s : State} (h : StSound s) :
    OutSound (execCluReqWrite c v view s) := by
  unfold execCluReqWrite
  simp only [outSound_next]
  grind [sound_cluReq, sound_windowWrite]

/-! ## Integer instructions -/

theorem sound_intBin (x : IntRR) (f : ℤ → ℤ → ℤ) {s : State} (h : StSound s) : StSound (intBin x f s) := sound_aluOp _ _ h

theorem sound_intImm (x : IntRI) (f : ℤ → ℤ → ℤ) {s : State} (h : StSound s) : StSound (intImm x f s) := sound_aluOp _ _ h

theorem sound_bitBin (x : IntRR) (f : DWord → DWord → DWord) {s : State} (h : StSound s) : StSound (bitBin x f s) :=
  sound_aluOp _ _ h

theorem sound_bitImm (x : IntRI) (f : DWord → DWord → DWord) {s : State} (h : StSound s) : StSound (bitImm x f s) :=
  sound_aluOp _ _ h

theorem sound_bitUn (x : IntR) (f : DWord → DWord) {s : State} (h : StSound s) : StSound (bitUn x f s) := sound_aluOp _ _ h

theorem out_execMovs (x : MovsOps) {s : State} (h : StSound s) : OutSound (execMovs x s) := by
  unfold execMovs
  split
  · refine outSound_next.mpr ?_
    split
    · exact sound_aluOp _ _ h
    · exact h
  · exact outSound_next.mpr (sound_threadOp _ _ h)

/-! ## Quantisation -/

theorem sound_qntRun (ol : Bool) (x : QntOps) (w : Word) (gid : Nat) (g : Group) (act : List Nat) {s : State} (h : StSound s) :
    StSound (qntRun ol x w gid g act s) := by
  unfold qntRun
  grind [sound_foldLanes, sound_ownLane, sound_splitGroup]

theorem sound_quantOp (gd : Guard) (r : FwReader) (fw : VReg) (run : Word → Nat → Group → List Nat → State → State) {s : State}
    (h : StSound s) (hrun : ∀ x y z u s, StSound s → StSound (run x y z u s)) : StSound (quantOp gd r fw run s) := by
  unfold quantOp
  grind [sound_advance, sound_faultAll, sound_groupOp]

theorem out_execQnt (x : QntOps) {s : State} (h : StSound s) : OutSound (execQnt x s) := by
  unfold execQnt
  simp only [outSound_next]
  grind [sound_qntRun, sound_quantOp]

theorem out_execQntOl (x : QntOps) {s : State} (h : StSound s) : OutSound (execQntOl x s) := by
  unfold execQntOl
  simp only [outSound_next]
  grind [sound_qntRun, sound_quantOp]

theorem sound_dqntRun (x : DqntOps) (w : Word) (gid : Nat) (g : Group) (act : List Nat) {s : State} (h : StSound s) :
    StSound (dqntRun x w gid g act s) := by
  unfold dqntRun
  grind [sound_foldLanes, sound_ownLane, sound_splitGroup]

theorem out_execDqnt (x : DqntOps) {s : State} (h : StSound s) : OutSound (execDqnt x s) := by
  unfold execDqnt
  simp only [outSound_next]
  grind [sound_dqntRun, sound_quantOp]

/-! ## Barriers, masks and warp operations -/

theorem sound_arriveLane (a : Arr) (x : BarOps) (gid : Nat) : LaneSound (arriveLane a x gid) := by
  intro k t s h
  unfold arriveLane
  grind [addWait_mem, setBar_mem]

theorem sound_joinGroup (b : Nat) (cs : List Nat) {s : State} (cgu : Nat) (h : StSound s) : StSound (joinGroup b cs s cgu) := h

theorem out_execGjoin (x : BarOps) {s : State} (h : StSound s) : OutSound (execGjoin x s) := by
  unfold execGjoin
  simp only [outSound_next]
  grind [sound_advance, sound_foldl, sound_groupOp, sound_joinGroup]

theorem sound_maskOp (gd : Guard) (m : BitVec 4) (f : State → List Nat → Word → Word) {s : State} (h : StSound s) :
    StSound (maskOp gd m f s) := by
  unfold maskOp
  grind [modWarp_mem, sound_advance, sound_groupOp, sound_mwaitCheck]

theorem out_execMrd (x : MaskRegOps) {s : State} (h : StSound s) : OutSound (execMrd x s) := by
  unfold execMrd
  simp only [outSound_next]
  grind [modThread_mem, sound_laneOp]

theorem out_execMwait (x : MaskOps) {s : State} (h : StSound s) : OutSound (execMwait x s) := by
  unfold execMwait
  simp only [outSound_next]
  grind [modThread_mem, sound_advance, sound_foldl, sound_groupOp, sound_mwaitCheck]

theorem out_execVote (x : VoteOps) {s : State} (h : StSound s) : OutSound (execVote x s) := by
  unfold execVote
  simp only [outSound_next]
  grind [modThread_mem, sound_advance, sound_foldl, sound_groupOp]

theorem out_execShfl (x : ShflOps) {s : State} (h : StSound s) : OutSound (execShfl x s) := by
  unfold execShfl
  simp only [outSound_next]
  grind [modThread_mem, sound_advance, sound_foldl, sound_groupOp]

theorem out_execWred (x : WredOps) {s : State} (h : StSound s) : OutSound (execWred x s) := by
  unfold execWred
  simp only [outSound_next]
  grind [sound_advance, sound_foldLanes, sound_groupOp, sound_ownLane, sound_splitGroup]

/-! ## Every instruction -/

/-- Every instruction keeps a sound memory. -/
theorem out_exec (i : Instr) {s : State} (h : StSound s) : OutSound (exec i s) := by
  cases i with
  | iadd | isub | imul | imulh | imin | imax => exact outSound_next.mpr (sound_intBin _ _ h)
  | iaddImm | isubImm | imulImm | iminImm | imaxImm => exact outSound_next.mpr (sound_intImm _ _ h)
  | imad | iabs | bfi | mov | lea | movi | movi64 | nop => exact outSound_next.mpr (sound_aluOp _ _ h)
  | and | or | xor | shl | shr | sar | bfx => exact outSound_next.mpr (sound_bitBin _ _ h)
  | andImm | orImm | xorImm | shlImm | shrImm | sarImm => exact outSound_next.mpr (sound_bitImm _ _ h)
  | popc | clz | brev => exact outSound_next.mpr (sound_bitUn _ _ h)
  | iset | isetImm | sel | movFromLk | movToLk | plog | pmovGet | pmovPut | ffma | fset | frnd | fscl | fcls | cvt | cvtiF2i |
  cvtiI2f | pk4 | upk4 | brd | braise | budget | budgetImm | bchk | flgrd | flgrdClr =>
    exact outSound_next.mpr (sound_threadOp _ _ h)
  | movs x => exact out_execMovs x h
  | fadd | fsub | fmul => exact outSound_next.mpr (sound_fltBin _ _ _ h)
  | fmin | fmax => exact outSound_next.mpr (sound_fltMinMax _ _ h)
  | frcp | frsq | fsqrt | fexp2 | flog2 => exact outSound_next.mpr (sound_funcUnit _ _ h)
  | qnt x => exact out_execQnt x h
  | qntOl x => exact out_execQntOl x h
  | dqnt x => exact out_execDqnt x h
  | ld => exact outSound_next.mpr (sound_laneOp _ (fun _ => sound_ldLane _) h)
  | st => exact outSound_next.mpr (sound_laneOp _ (sound_stLane _) h)
  | pref => exact outSound_next.mpr (sound_laneOp _ (fun _ => sound_prefLane _) h)
  | smap => exact outSound_next.mpr (sound_laneOp _ (fun _ => sound_smapLane _) h)
  | smapUn => exact outSound_next.mpr (sound_laneOp _ (fun _ => sound_smapUnLane _) h)
  | swb x => exact out_execSwb x h
  | swbAll g => exact out_execSwbAll g h
  | sinv x => exact out_execSinv x h
  | sinvAll g => exact out_execSinvAll g h
  | cwb => exact outSound_next.mpr (sound_laneOp _ (fun _ => sound_cwbLane _) h)
  | atom => exact outSound_next.mpr (sound_laneOp _ (sound_atomLane _) h)
  | acas => exact outSound_next.mpr (sound_laneOp _ (sound_acasLane _) h)
  | red => exact outSound_next.mpr (sound_laneOp _ (sound_redLane _) h)
  | fence x => exact out_execFence x h
  | fenceJ => exact outSound_next.mpr (sound_passOp _ h)
  | csig | csigFl => exact outSound_next.mpr (sound_laneOp _ (sound_csigLane _ _) h)
  | cpendAdd | cpendSub => exact outSound_next.mpr (sound_laneOp _ (sound_cpendLane _ _) h)
  | cwait => exact outSound_next.mpr (sound_laneOp _ (sound_cwaitLane _) h)
  | cwaitReevaluate gid => exact out_execCwaitReevaluate gid h
  | crd => exact outSound_next.mpr (sound_laneOp _ (fun _ => sound_crdLane _) h)
  | gbar | garr | gdrop => exact outSound_next.mpr (sound_laneOp _ (sound_arriveLane _ _) h)
  | gjoin x => exact out_execGjoin x h
  | mjoin | mleave | mwr => exact outSound_next.mpr (sound_maskOp _ _ _ h)
  | mwait x => exact out_execMwait x h
  | mrd x => exact out_execMrd x h
  | vote x => exact out_execVote x h
  | shfl x => exact out_execShfl x h
  | wred x => exact out_execWred x h
  | gen x => exact out_execGen x h
  | yld x => exact out_execYld x h
  | gend g => exact out_execGend g h
  | take => exact outSound_next.mpr (sound_laneOp _ (fun _ => sound_takeLane _) h)
  | gstat x => exact out_execGstat x h
  | bra x => exact out_execBra x h
  | brx | call | callReg => exact outSound_next.mpr (sound_transferOp _ _ _ h)
  | ret g => exact out_execRet g h
  | exit => exact outSound_next.mpr (sound_laneOp _ (fun _ => sound_exitLane) h)
  | mma | mmao => exact outSound_next.mpr (sound_mmaOp _ _ h)
  | wzero x => exact out_execWzero x h
  | wld => exact outSound_next.mpr (sound_laneOp _ (fun _ => sound_wldLane _) h)
  | wst => exact outSound_next.mpr (sound_laneOp _ (sound_wstLane _) h)
  | wdrn => exact outSound_next.mpr (sound_laneOp _ (fun _ => sound_wdrnLane _) h)
  | wmov x => exact out_execWmov x h
  | wbnd x => exact out_execWbnd x h
  | qpop x => exact out_execQpop x h
  | qpeek x => exact out_execQpeek x h
  | qcnt x => exact out_execQcnt x h
  | qdrop x => exact out_execQdrop x h
  | queueEntryReady | lqActivate | lqPause | lqOff | bootCmdCommit | getVersion | getCapabilities | negotiateAlgorithms |
  getDigests | getCertificate | challenge | getMeasurements => exact outSound_next.mpr h
  | sloop x => exact out_execSloop x h
  | snext a => exact out_execSnext a h
  | sfetch x => exact out_execSfetch x h
  | smark x => exact out_execSmark x h
  | swaitc x => exact out_execSwaitc x h
  | sdone => exact out_execSdone h
  | job => exact outSound_next.mpr (sound_jobOp _ h)
  | jobAccept gid => exact out_execJobAccept gid h
  | jobStart part job => exact out_execJobStart part job h
  | jobCompletion part job => exact out_execJobCompletion part job h
  | grow x => exact out_execGrow x h
  | lnch x => exact out_execLnch x h
  | trap | bkpt => exact outSound_next.mpr (sound_trapOp _ _ h)
  | phint x => exact out_execPhint x h
  | sleep x => exact out_execSleep x h
  | sleepEnd gid => exact out_execSleepEnd gid h
  | rte => exact outSound_next.mpr (sound_laneOp _ (fun _ => sound_rteLane) h)
  | movcRead => exact outSound_next.mpr (sound_laneOp _ (fun _ => sound_movcReadLane _) h)
  | movcWrite x => exact out_execMovcWrite x h
  | tlbi => exact outSound_next.mpr (sound_laneOp _ (fun _ => sound_tlbiLane _) h)
  | tlbiAll g => exact out_execTlbiAll g h
  | icinv => exact outSound_next.mpr (sound_laneOp _ (fun _ => sound_icinvLane _) h)
  | icinvAll g => exact out_execIcinvAll g h
  | fres => exact outSound_next.mpr (sound_laneOp _ (fun _ => sound_fresLane _) h)
  | fdisc x => exact out_execFdisc x h
  | save => exact outSound_next.mpr (sound_laneOp _ (sound_saveLane _) h)
  | rest => exact outSound_next.mpr (sound_laneOp _ (fun _ => sound_restLane _) h)
  | sbrd => exact outSound_next.mpr (sound_laneOp _ (fun _ => sound_sbrdLane _) h)
  | halt => exact outSound_next.mpr (sound_laneOp _ (sound_haltLane _) h)
  | clauseEntry e => exact out_execClauseEntry e h
  | lqTailWrite part q tail => exact out_execLqTailWrite part q tail h
  | launchRecordTake part => exact out_execLaunchRecordTake part h
  | indexReady part serial idx => exact out_execIndexReady part serial idx h
  | dispatch part serial idx cluster => exact out_execDispatch part serial idx cluster h
  | agingExpiry part serial idx => exact out_execAgingExpiry part serial idx h
  | tileFillComplete cg => exact out_execTileFillComplete cg h
  | clusterGroupCompletion cg => exact out_execClusterGroupCompletion cg h
  | agentRetryRetry => exact outSound_next.mpr (sound_agentRetryAll _ h)
  | agentRetryAbandon => exact outSound_next.mpr (sound_agentAbandonAll _ h)
  | eventPost part => exact out_execEventPost part h
  | evqOvfClear part v => exact out_execEvqOvfClear part v h
  | controlRegisterWrite => exact outSound_next.mpr (sound_crWrite _ _ _ h)
  | preemptWindowExpiry => exact outSound_next.mpr (sound_expireWindow _ h)
  | warpSave warp => exact out_execWarpSave warp h
  | warpRestore part slot => exact out_execWarpRestore part slot h
  | migGo => exact outSound_next.mpr (sound_migGo _ h)
  | migCopyDone part => exact out_execMigCopyDone part h
  | migSwitch => exact outSound_next.mpr (sound_migSwitch _ h)
  | migAbort => exact outSound_next.mpr (sound_migAbort _ h)
  | shadowAttach part => exact out_execShadowAttach part h
  | shadowDetach part => exact out_execShadowDetach part h
  | uncorrectableLineError at_ => exact out_execUncorrectableLineError at_ h
  | functionFence unit => exact out_execFunctionFence unit h
  | partitionChange part mask => exact out_execPartitionChange part mask h
  | keySlotChange slot op => exact out_execKeySlotChange slot op h
  | hostPostedWrite addr data relaxed => exact out_execHostPostedWrite addr data relaxed h
  | hostHdmAccess ofs op => exact out_execHostHdmAccess ofs op h
  | recCmdRead => exact out_execRecCmdRead h
  | recCmdWrite => exact out_execRecCmdWrite h
  | poolWindowAttach w base size shared => exact out_execPoolWindowAttach w base size shared h
  | combiningClose slice line => exact out_execCombiningClose slice line h
  | snoopWritebackCrossing line inval => exact out_execSnoopWritebackCrossing line inval h
  | linkSleep die => exact out_execLinkSleep die h
  | linkWakeDone die => exact out_execLinkWakeDone die h
  | snoopSlow die => exact out_execSnoopSlow die h
  | dieUnresponsive die => exact out_execDieUnresponsive die h
  | sectorThrottle sector cur => exact out_execSectorThrottle sector cur h
  | cluReqWrite cluster v view => exact out_execCluReqWrite cluster v view h
  | rampEnd cluster => exact out_execRampEnd cluster h
  | canaryWarning cluster => exact out_execCanaryWarning cluster h
  | canofsDecay cluster => exact out_execCanofsDecay cluster h
  | slopeTick cluster energy draw => exact out_execSlopeTick cluster energy draw h
  | ewTailWrite part tail => exact out_execEwTailWrite part tail h
  | remoteCopyCompletion part slot => exact out_execRemoteCopyCompletion part slot h
  | deviceStart => exact out_execDeviceStart h
  | firmwareTimeout => exact out_execFirmwareTimeout h
  | recoveryVerifyDone => exact out_execRecoveryVerifyDone h
  | illegalInstruction reason word => exact out_execIllegalInstruction reason word h
  | firmwareStartEnd e => exact out_execFirmwareStartEnd e h
  | migrationSourceLineError part line => exact out_execMigrationSourceLineError part line h
  | hostCxlSnoop line snoop => exact out_execHostCxlSnoop line snoop h
  | poolBackInvalidation line data => exact out_execPoolBackInvalidation line data h
  | inboundRemoteCopy origin dofs data rcobj => exact out_execInboundRemoteCopy origin dofs data rcobj h
  | swaitcReevaluate qg => exact out_execSwaitcReevaluate qg h

/-! ## Storage errors -/

theorem sound_endLost (gid : Nat) (g : Group) (fs : List (Nat × FInfo)) {s t : State} (h : StSound s) (h1 : StSound t) :
    StSound (endLost gid g fs s t) := by
  unfold endLost
  grind [sound_raise, wakeDie_mem]

/-! ## The step -/

theorem OutSound.afterwards {f : State → State} {o : Out} (h : OutSound o) (hf : ∀ s, StSound s → StSound (f s)) :
    OutSound (afterwards f o) := by
  cases o with
  | next s => exact outSound_next.mpr (hf s (outSound_next.mp h))
  | fault x => intro t ht; cases ht
  | refused x => intro t ht; cases ht

theorem sound_countIssue (gid : Nat) (g : Group) {s : State} (h : StSound s) : StSound (countIssue gid g s) := by
  unfold countIssue
  split
  · exact h
  · exact sound_foldl h (fun _ _ hs => hs)

theorem sound_settleCode (gid : Nat) (g : Group) (i : Instr) (s : State) {t : State} (h : StSound t) :
    StSound (settleCode gid g i s t) := by
  unfold settleCode
  grind [sound_foldl, sound_settleFor]

theorem out_runSlot {s : State} (gid : Nat) (g : Group) (bad : List (Nat × FInfo)) (i : Instr) (h : StSound s) :
    OutSound (runSlot s gid g bad i) := by
  refine OutSound.afterwards (out_exec i h)
    (fun t ht => sound_settleCode _ _ _ _ (sound_countIssue _ _ (sound_endLost _ _ _ ?_ ht)))
  exact h

theorem out_issueGroup {s : State} (gid : Nat) (g : Group) (h : StSound s) : OutSound (issueGroup s gid g) := by
  unfold issueGroup
  split
  · exact outSound_next.mpr (sound_clauseWaitStep _ _ _ h)
  · exact out_exec _ h
  · split
    · exact out_runSlot _ _ _ _ h
    · exact outSound_next.mpr h

theorem out_issue {s : State} (gid : Nat) (h : StSound s) : OutSound (issue s gid) := by
  unfold issue
  split
  · exact outSound_next.mpr h
  · split
    · exact outSound_next.mpr h
    · split
      · exact outSound_next.mpr (sound_settleWaits _ h)
      · exact out_issueGroup _ _ h

theorem out_turret {s : State} (qk : Nat) (h : StSound s) : OutSound (turret s qk) := by
  unfold turret
  split
  · exact outSound_next.mpr h
  · split
    · exact outSound_next.mpr h
    · split
      · exact out_exec _ h
      · split
        · exact out_exec _ h
        · exact outSound_next.mpr h

theorem out_act {s : State} (a : Act) (h : StSound s) : OutSound (act s a) := by
  cases a with
  | event i => exact out_exec i h
  | issue gid => exact out_issue gid h
  | slice qk => exact out_turret qk h
  | elapse n => exact outSound_next.mpr h

theorem sound_notePcs {s : State} (h : StSound s) : StSound (notePcs s) := h

theorem sound_countTurn (s : State) (a : Act) {t : State} (h : StSound t) : StSound (countTurn s a t) := by
  unfold countTurn
  split <;> exact h

theorem sound_tick {s : State} (h : StSound s) : StSound (tick s) := h

theorem sound_stopAsked {s : State} (h : StSound s) : StSound (stopAsked s) := by
  unfold stopAsked
  grind [sound_expireWindow, sound_foldl, sound_stopStanding]

theorem sound_endLeavers {s : State} (h : StSound s) : StSound (endLeavers s) := by
  unfold endLeavers
  grind [sound_exitThread, sound_foldl, sound_noteGone]

theorem sound_settleGone {s : State} (h : StSound s) : StSound (settleGone s) :=
  sound_foldl h (fun _ _ hs => sound_settleFor _ hs)

theorem sound_answerWaits {s : State} (h : StSound s) : StSound (answerWaits s) := sound_retrySnoops (sound_wakeThose _ h)

theorem sound_noteAct {s : State} (h : StSound s) : StSound (noteAct s) :=
  sound_notePcs (sound_settleGone (sound_endLeavers (sound_answerWaits (sound_stopAsked
    (s := { s with acts := s.acts + 1, mem := { s.mem with walks := [] } }) h))))

theorem out_runStep {s : State} (h : StSound s) : OutSound (runStep s) := by
  unfold runStep
  refine OutSound.afterwards ?_ (fun _ ht => sound_noteAct ht)
  split
  · exact out_act _ h
  · exact (out_act _ (sound_tick h)).afterwards (fun _ ht => sound_countTurn _ _ ht)

/-- Settles O58: each operation of the step keeps a sound memory; new partials and cached leaves are aligned by the checks of
R198 and by the walk. -/
theorem soundnessIsKept : Obligations.SoundnessIsKept :=
  fun _ t h hs => out_runStep (sound_iff_stSound.mp h) t hs

end Sys2Proof.Laws

/-! SUPPORT. Traps and hints (R234-R236): what an instruction of a whole issue group does where it stands. -/

namespace Sys2Proof.Laws

open Sys2Proof.Machine Sys2Proof.Safety

theorem execPhint_at {s : State} {gid : Nat} {g : Group} (x : PhintOps) (h : At s gid g) :
    exec (.phint x) s = .next (advance (((activeOf s g x.g).filter (fun k => match (getThread s k).bind (warpOf s) with
      | some w => w.preq.isSome
      | none => false)).foldl (fun s k => stopAt s k { g.pass with slot := g.pass.slot + 1 } (.byRecord x.rofs)) s) gid) :=
  congrArg Host.Outcome.next (groupOp_at x.g _ h)

theorem phint_without_request {s : State} {gid : Nat} {g : Group} (x : PhintOps) (h : At s gid g)
    (hw : ∀ k ∈ activeOf s g x.g, ∀ t w, getThread s k = some t → Map.get? s.warps (warpKeyOf t) = some w → w.preq = none) :
    exec (.phint x) s = .next (advance s gid) := by
  rw [execPhint_at x h, List.filter_eq_nil_iff.mpr, List.foldl_nil]
  intro k hk
  split
  · next w he =>
    obtain ⟨t, ht, hwarp⟩ := Option.bind_eq_some_iff.mp he
    simp [hw k hk t w ht hwarp]
  · simp

theorem phint_with_request {s : State} {gid : Nat} {g : Group} (x : PhintOps) (h : At s gid g) {k : Nat} {t : Thread} {w : Warp}
    (hact : activeOf s g x.g = [k]) (ht : getThread s k = some t) (hw : Map.get? s.warps (warpKeyOf t) = some w)
    (hp : w.preq ≠ none) : exec (.phint x) s =
      .next (advance (stopAt s k { g.pass with slot := g.pass.slot + 1 } (.byRecord x.rofs)) gid) := by
  have hreq : w.preq.isSome = true := Option.isSome_iff_ne_none.mpr hp
  have hwarp : warpOf s t = some w := hw
  rw [execPhint_at x h, hact]
  simp [ht, hwarp, hreq]

theorem sleep_at {s : State} {gid : Nat} {g : Group} (x : CodeOps) (h : At s gid g) :
    exec (.sleep x) s = .next (if activeOf s g x.g = [] then advance s gid
      else setHold s gid (.sleep (s.clock + x.code.setWidth 64))) := by
  refine congrArg Host.Outcome.next ((groupOp_at x.g _ h).trans ?_)
  simp only [List.isEmpty_iff]

/-- Settles O29: each instruction acts on its whole issue group; PHINT's due threads are those whose warp has a request. -/
theorem trapAndHintResults : Obligations.TrapAndHintResults := fun _ _ _ h =>
  ⟨fun x => congrArg Host.Outcome.next (groupOp_at x.g _ h), fun x => congrArg Host.Outcome.next (groupOp_at x.g _ h),
    fun x hw => phint_without_request x h hw, fun x _ _ _ hact ht hw hp => phint_with_request x h hact ht hw hp,
    fun x => sleep_at x h⟩

end Sys2Proof.Laws

/-! SUPPORT. Generator regions (R39-R43, R224-R229): the threads that a GEN sends to their clause entries, the lanes that belong to a
region, and what YLD, GEND, TAKE and GSTAT leave of it. -/

namespace Sys2Proof.Laws

open Sys2Proof.Machine Sys2Proof.Safety Sys2Proof.Claims

/-! ## Opening a region (R225) -/

/-- Threads that go to a clause entry, each to its own. -/
def toEntries (f : Nat → DWord) (ks : List Nat) (s : State) : State := ks.foldl (fun s k => modThread s k (toEntry (f k))) s

/-- What `toEntries` leaves as it was. -/
theorem toEntries_rest (f : Nat → DWord) (ks : List Nat) (s : State) : (toEntries f ks s).groups = s.groups ∧
    (toEntries f ks s).warps = s.warps ∧ (toEntries f ks s).mem = s.mem :=
  List.foldlRecOn (motive := fun (u : State) => u.groups = s.groups ∧ u.warps = s.warps ∧ u.mem = s.mem) ks _ ⟨rfl, rfl, rfl⟩
    (fun _ h _ _ => h)

/-- A thread that goes to its entry more than once stands there as after the first time. -/
theorem getThread_toEntries (f : Nat → DWord) (ks : List Nat) (s : State) (j : Nat) :
    getThread (toEntries f ks s) j = if j ∈ ks then (getThread s j).map (toEntry (f j)) else getThread s j := by
  induction ks generalizing s with
  | nil => rfl
  | cons k r ih =>
    refine (ih (modThread s k (toEntry (f k)))).trans ?_
    rw [getThread_modThread]
    by_cases hk : j = k
    · subst hk
      simp only [if_true, List.mem_cons, true_or, Option.map_map]
      split <;> rfl
    · simp only [hk, if_false, List.mem_cons, false_or]

/-- The region that a GEN opens. -/
def genRegion (x : GenOps) (s : State) (g : Group) (t : Thread) (act : List Nat) : Region :=
  ⟨x.split.toNat, frameBase s t, x.thr.toNat + 1, g.pass.hdr + 8 * x.prod.signExtend 64, g.pass.hdr + 8 * x.cons.signExtend 64,
    nextHdr g.pass, [], 0, laneMask s (g.members.filter (fun k => !act.contains k)), none⟩

/-- What a GEN leaves that opens a region. -/
def genOpened (x : GenOps) (s : State) (gid : Nat) (g : Group) (t : Thread) (act : List Nat) : State :=
  modWarp (toEntries (fun k => if act.contains k then (genRegion x s g t act).prod else (genRegion x s g t act).next) g.members
    { s with groups := Map.erase s.groups gid }) (warpKeyOf t) (fun w => { w with gen := some (genRegion x s g t act) })

theorem gen_opens {s : State} {gid : Nat} {g : Group} (x : GenOps) (h : At s gid g) {k : Nat} {r : List Nat} {t : Thread}
    (hact : activeOf s g x.g = k :: r) (ht : getThread s k = some t) (hfull : fullWarp s g = true) (hreg : warpRegion s t = none) :
    exec (.gen x) s = .next (genOpened x s gid g t (activeOf s g x.g)) := by
  refine congrArg Host.Outcome.next ((groupOp_at x.g _ h).trans ?_)
  rw [hact]
  simp only [List.head?_cons, Option.bind_some, ht, hfull, hreg, Bool.not_true, Bool.false_eq_true, if_false, Option.isSome_none]
  rfl

theorem gen_results (x : GenOps) (s : State) (gid : Nat) (g : Group) (t : Thread) (act : List Nat) :
    let u := genOpened x s gid g t act
    getGroup u gid = none
    ∧ (∀ j ∈ g.members, ∀ th, getThread s j = some th → getThread u j = some { th with
        st := .entry, pc := if j ∈ act then (genRegion x s g t act).prod else nextHdr g.pass, pass := none })
    ∧ (∀ w, Map.get? s.warps (warpKeyOf t) = some w →
        Map.get? u.warps (warpKeyOf t) = some { w with gen := some (genRegion x s g t act) })
    ∧ u.mem = s.mem := by
  obtain ⟨hgroups, hwarps, hmem⟩ := toEntries_rest
    (fun k => if act.contains k then (genRegion x s g t act).prod else (genRegion x s g t act).next) g.members
    { s with groups := Map.erase s.groups gid }
  refine ⟨?_, fun j hj th hth => ?_, fun w hw => ?_, hmem⟩
  · exact (congrArg (fun m => Map.get? m gid) hgroups).trans (Map.get?_erase_self ..)
  · have hs : getThread { s with groups := Map.erase s.groups gid } j = some th := hth
    refine (getThread_toEntries _ g.members _ j).trans ?_
    rw [if_pos hj, hs]
    simp only [List.contains_iff_mem]
    rfl
  · refine (Map.get?_adjust ..).trans ?_
    rw [if_pos rfl, hwarps, hw]
    rfl

/-! ## Lanes of a region -/

/-- A thread is in its warp's open region where GEN did not leave it out. -/
theorem regionOf_eq_openRegion (s : State) (t : Thread) : regionOf s t = openRegion s t := by
  unfold regionOf openRegion
  rw [show warpRegion s t = (Map.get? s.warps (warpKeyOf t)).bind (fun w => w.gen) from rfl]
  cases (Map.get? s.warps (warpKeyOf t)).bind (fun w => w.gen) with
  | none => rfl
  | some r =>
    unfold bitOf
    by_cases ho : r.out.getLsbD t.lane = true <;> simp [Option.filter, ho]

theorem warpRegion_of_open {s : State} {t : Thread} {r : Region} (h : openRegion s t = some r) : warpRegion s t = some r :=
  (Option.filter_eq_some_iff.mp h).1

/-! ## YLD (R226) -/

theorem isProducer_of {r : Region} {lane : Nat} (hp : r.pass = none) (hf : r.fin.getLsbD lane = false)
    (ho : r.out.getLsbD lane = false) : isProducer r lane = true := by
  simp [isProducer, bitOf, hp, hf, ho]

theorem splitGroup_map_nil {s : State} (h : s.lost = []) (u : State) (gid : Nat) (g : Group) (f : Nat → Nat × FInfo) {l : List Nat}
    (hl : l = []) : splitGroup s u gid g (l.map f) false = advance u gid := hl ▸ splitGroup_nil h ..

/-- A region with the entries that some lanes append. -/
def yldRegion (x : YldOps) (r : Region) (ts : List Thread) : Region := { r with buf := r.buf ++ ts.map (yldEntry x) }

theorem yld_results {s : State} {gid : Nat} {g : Group} (x : YldOps) (h : At s gid g) {k : Nat} {ks : List Nat} {t : Thread}
    {r : Region} (hact : activeOf s g x.g = k :: ks) (ht : getThread s k = some t) (hr : openRegion s t = some r)
    (hprod : ∀ v ∈ (activeOf s g x.g).filterMap (getThread s), isProducer r v.lane = true) :
    exec (.yld x) s = .next (
      if 64 < r.buf.length + ((activeOf s g x.g).filterMap (getThread s)).length then genCheck (setHold s gid .yld) (warpKeyOf t)
      else advance (modWarp s (warpKeyOf t) (fun w =>
        { w with gen := some (yldRegion x r ((activeOf s g x.g).filterMap (getThread s))) })) gid) := by
  have hhead : ((activeOf s g x.g).filterMap (getThread s)).head? = some t := by rw [hact, List.filterMap_cons_some ht]; rfl
  have hall : yldProds s r (activeOf s g x.g) = (activeOf s g x.g).filterMap (getThread s) := List.filter_eq_self.mpr hprod
  have hbad : (activeOf s g x.g).filter (fun k => match getThread s k with
      | some t => !isProducer r t.lane
      | none => false) = [] := by
    refine List.filter_eq_nil_iff.mpr (fun j hj => ?_)
    split
    · next v hv => simp [hprod v (List.mem_filterMap.mpr ⟨j, hj, hv⟩)]
    · simp
  refine congrArg Host.Outcome.next ((groupOp_at x.g _ h).trans ?_)
  simp only [hhead, warpRegion_of_open hr, hall, h.2, List.isEmpty_nil, if_true]
  refine if_congr Iff.rfl rfl ?_
  exact splitGroup_map_nil h.2 _ gid g _ hbad

/-! ## GEND (R227) -/

/-- A region once some lanes have finished. -/
def gendMarks (r : Region) (m : Word) : Region := match r.pass with
  | none => { r with fin := r.fin ||| m }
  | some p => { r with pass := some { p with fin := p.fin ||| m } }

theorem foldl_gendMark (s : State) (ks : List Nat) (r : Region) :
    ks.foldl (fun r k => gendMark r (laneOf s k)) r = gendMarks r (laneMask s ks) := by
  have hstep : ∀ (m : Word) k, gendMark (gendMarks r m) (laneOf s k) = gendMarks r (m ||| laneBit (laneOf s k)) := by
    intro m k
    unfold gendMarks gendMark
    cases hp : r.pass <;> simp [BitVec.or_assoc]
  have hfold : ∀ m, ks.foldl (fun r k => gendMark r (laneOf s k)) (gendMarks r m)
      = gendMarks r (ks.foldl (fun m k => m ||| laneBit (laneOf s k)) m) := by
    induction ks with
    | nil => exact fun _ => rfl
    | cons k ks ih => intro m; rw [List.foldl_cons, List.foldl_cons, hstep, ih]
  have hzero : gendMarks r 0 = r := by
    unfold gendMarks
    cases hp : r.pass <;> simp [← hp]
  have h := hfold 0
  rwa [hzero] at h

theorem gend_results {s : State} {gid : Nat} {g : Group} (gd : Guard) (h : At s gid g) {k : Nat} {ks : List Nat} {t : Thread}
    {r : Region} (hact : activeOf s g gd = k :: ks) (ht : getThread s k = some t) (hr : openRegion s t = some r)
    (hin : ∀ j ∈ k :: ks, r.out.getLsbD (laneOf s j) = false) :
    exec (.gend gd) s = .next (genCheck (advance (onThreads (fun t => { t with st := .genWait, pass := none }) (k :: ks)
      (dropMembers (modWarp s (warpKeyOf t) (fun w => { w with gen := some (gendMarks r (laneMask s (k :: ks))) })) gid (k :: ks)))
      gid) (warpKeyOf t)) := by
  have hbad : (k :: ks).filter (fun j => bitOf r.out (laneOf s j)) = [] :=
    List.filter_eq_nil_iff.mpr (fun j hj => by simp [bitOf, hin j hj])
  have hends : (k :: ks).filter (fun j => !bitOf r.out (laneOf s j)) = k :: ks :=
    List.filter_eq_self.mpr (fun j hj => by simp [bitOf, hin j hj])
  refine congrArg Host.Outcome.next ((groupOp_at gd _ h).trans ?_)
  rw [hact]
  simp only [List.head?_cons, Option.bind_some, ht, warpRegion_of_open hr, hbad, hends, foldl_gendMark, List.map_nil,
    splitGroup_nil h.2]
  rfl

/-! ## TAKE and GSTAT (R228, R229) -/

theorem takeWord_eq (e : GEntry) (lane : Nat) : takeWord e lane =
    BitVec.ofNat 32 ((if e.two then 65536 else 0) + (e.lane + 32 - lane) % 32 * 256 + e.lane) := by
  unfold takeWord bnum
  cases e.two <;> rfl

theorem takeLane_steps (x : TakeOps) (k : Nat) (t : Thread) (s u : State) (h : takeStep x k t s = some u) :
    takeLane x k t s = (u, none) := by
  obtain ⟨r, hr, h⟩ := Option.bind_eq_some_iff.mp h
  obtain ⟨p, hp, h⟩ := Option.bind_eq_some_iff.mp h
  split at h
  · cases h
  · next hn =>
    cases h
    obtain ⟨hl, hto⟩ := not_or.mp (fun ho => hn (Bool.or_eq_true _ _ ▸ ho))
    unfold takeLane
    rw [regionOf_eq_openRegion, hr]
    simp only [Option.bind_some, hp, Option.map_some, hl, bitOf, hto, if_false, Bool.false_eq_true, takeWord_eq]
    rfl

theorem gstatWord_eq_genWord (s : State) (t : Thread) : gstatWord s t = genWord s t := by
  unfold gstatWord genWord
  rw [regionOf_eq_openRegion]
  cases openRegion s t with
  | none => rfl
  | some r =>
    unfold genThreads inPass bnum
    cases hp : r.pass with
    | none => simp [List.countP_eq_length_filter, w32, bitOf, List.filter_map, Function.comp_def, hp]
    | some p => simp [List.countP_eq_length_filter, w32, bitOf, List.filter_map, Function.comp_def, hp]

theorem gstat_each (x : OpD) : EachLane (.gstat x) x.g (fun s t => setReg t x.d.toNat ⟨genWord s t, 0⟩) := by
  refine fun s gid g h => congrArg Host.Outcome.next ((groupOp_at x.g _ h).trans ?_)
  simp only [gstatWord_eq_genWord]
  rfl

/-- Settles O27: the members stand at their entries, entries and finished lanes go into the region, TAKE's lanes read by rank. -/
theorem generatorResults : Obligations.GeneratorResults := by
  refine ⟨?_, ?_, ?_, fun x s gid g u h hr => congrArg Host.Outcome.next (laneOp_steps (fun _ => takeLane_steps x) h hr), gstat_each⟩
  · intro x s gid g k r t h hact ht hfull hreg
    exact ⟨_, gen_opens x h hact ht hfull hreg, gen_results x s gid g t (activeOf s g x.g)⟩
  · intro x s gid g k ks t r h hact ht hr ts hp
    refine yld_results x h hact ht hr (fun v hv => ?_)
    obtain ⟨hpass, hfin, hout⟩ := hp v hv
    exact isProducer_of hpass hfin hout
  · intro gd s gid g k ks t r h hact ht hr m hin
    exact gend_results gd h hact ht hr hin

end Sys2Proof.Laws

/-! SUPPORT. Little-endian bytes (R3): the parts of a value, and the words of a longer one. -/

namespace Sys2Proof.Laws

open Sys2Proof.Machine Sys2Proof.Claims Sys2Proof.Safety

/-- The first bytes of a value are its low part, the others what remains. -/
theorem leNat_split (n : Nat) (l : List Byte) : leNat l = leNat (l.take n) + 256 ^ n * leNat (l.drop n) := by
  induction n generalizing l with
  | zero => simp [leNat]
  | succ n ih =>
    cases l with
    | nil => rfl
    | cons b r =>
      have h := ih r
      simp only [leNat, List.take_succ_cons, List.drop_succ_cons]
      rw [h, Nat.mul_add, ← Nat.mul_assoc, ← Nat.pow_succ', Nat.add_assoc]

theorem leNat_lt (l : List Byte) : leNat l < 256 ^ l.length := by
  induction l with
  | nil => exact Nat.one_pos
  | cons b r ih =>
    have hb := b.isLt
    simp only [leNat, List.length_cons, Nat.pow_succ]
    omega

theorem leNat_take_lt (n : Nat) (l : List Byte) : leNat (l.take n) < 256 ^ n :=
  Nat.lt_of_lt_of_le (leNat_lt _) (Nat.pow_le_pow_right (by decide) (List.length_take_le n l))

theorem leNat_take (n : Nat) (l : List Byte) : leNat (l.take n) = leNat l % 256 ^ n := by
  rw [leNat_split n l, Nat.add_mul_mod_self_left, Nat.mod_eq_of_lt (leNat_take_lt n l)]

theorem leNat_drop (n : Nat) (l : List Byte) : leNat (l.drop n) = leNat l / 256 ^ n := by
  rw [leNat_split n l, Nat.add_mul_div_left _ _ (Nat.pow_pos (by decide)), Nat.div_eq_of_lt (leNat_take_lt n l), Nat.zero_add]

theorem leBytes_add (m n v : Nat) : leBytes (m + n) v = leBytes m v ++ leBytes n (v / 256 ^ m) := by
  induction m generalizing v with
  | zero => simp [leBytes]
  | succ m ih =>
    rw [Nat.succ_add, leBytes, ih, leBytes, List.cons_append, Nat.div_div_eq_div_mul, Nat.pow_succ']

theorem leBytes_mod (n v : Nat) : leBytes n (v % 256 ^ n) = leBytes n v := by
  induction n generalizing v with
  | zero => rfl
  | succ n ih =>
    rw [leBytes, leBytes, Nat.pow_succ', Nat.mod_mul_right_div_self, ih]
    congr 1
    exact BitVec.eq_of_toNat_eq (by simp)

/-- The bytes of a pair are those of its words, the low one first (R47). -/
theorem leBytes_pairWord (lo hi : Word) : leBytes 8 (pairWord lo hi).toNat = leBytes 4 lo.toNat ++ leBytes 4 hi.toNat := by
  have hlo : (pairWord lo hi).toNat % 256 ^ 4 = lo.toNat := by
    have h := congrArg BitVec.toNat (loWord_pairWord lo hi)
    rwa [loWord, BitVec.toNat_setWidth] at h
  have hhi : (pairWord lo hi).toNat / 256 ^ 4 % 256 ^ 4 = hi.toNat := by
    have h := congrArg BitVec.toNat (hiWord_pairWord lo hi)
    rwa [hiWord, BitVec.toNat_setWidth, BitVec.toNat_ushiftRight, Nat.shiftRight_eq_div_pow] at h
  rw [leBytes_add 4 4, ← leBytes_mod 4 (pairWord lo hi).toNat, hlo, ← leBytes_mod 4 (_ / _), hhi]

end Sys2Proof.Laws

/-! SUPPORT. LD and ST (R201, R202): what a load writes from the bytes and bounds read, and what a store takes from its registers. -/

namespace Sys2Proof.Laws

open Sys2Proof.Machine Sys2Proof.Claims Sys2Proof.Safety

/-! ## LD -/

theorem loWord_val (g : Got) : loWord g.val = Claims.wordAt g 0 := by
  refine BitVec.eq_of_toNat_eq ?_
  simp only [loWord, Got.val, Claims.wordAt, BitVec.toNat_setWidth, BitVec.toNat_ofNat, Nat.mul_zero, List.drop_zero, leNat_take]
  omega

theorem hiWord_val (g : Got) : hiWord g.val = Claims.wordAt g 1 := by
  refine BitVec.eq_of_toNat_eq ?_
  simp only [hiWord, Got.val, Claims.wordAt, BitVec.toNat_setWidth, BitVec.toNat_ofNat, BitVec.toNat_ushiftRight,
    Nat.shiftRight_eq_div_pow, leNat_take, leNat_drop]
  omega

theorem setWidth_val {n : Nat} (hn : n ≤ 32) (g : Got) : g.val.setWidth n = (Claims.wordAt g 0).setWidth n := by
  rw [← loWord_val, loWord, BitVec.setWidth_setWidth_of_le _ hn]

theorem readLoc_bnds_length (s : State) (l : Loc) (n : Nat) : (readLoc s l n).1.bnds.length = wordsOf n := by
  unfold readLoc peekLoc
  dsimp only
  split
  · simp
  · split <;> simp

/-- Table 9-2: the registers that a load writes are those of the claim. -/
theorem loadRegs_eq_loaded (w : Width) (d : VReg) {g : Got} (h : g.bnds.length = wordsOf (widthBytes w)) :
    loadRegs w d g = loaded w d g := by
  have hhead : g.bnds.headD 0 = g.bnds.getD 0 0 := by cases g.bnds <;> rfl
  unfold loadRegs loaded
  cases w with
  | b8 | b16 | b32 => simp only [loWord_val, hhead]
  | s8 | s16 => simp only [setWidth_val (show 8 ≤ 32 by decide), setWidth_val (show 16 ≤ 32 by decide), hhead]
  | b128 => rfl
  | b64 =>
    obtain ⟨b0, b1, hb⟩ := List.length_eq_two.mp (h : g.bnds.length = 2)
    have hbnd : g.bnd = bndMax b0 b1 := by
      rw [Got.bnd, hb, List.foldl_cons, List.foldl_cons, List.foldl_nil]
      exact congrArg (bndMax · b1) (bndMax_zero_left b0)
    simp only [wrTy, if_true, loWord_val, hiWord_val, hbnd, hb]
    rfl

theorem ldLane_of_loadStep {x : MemOps} {k : Nat} {t : Thread} {s u : State} (h : loadStep x k t s = some u) :
    ldLane x k t s = (u, none) := by
  obtain ⟨p, hp, rfl⟩ := Option.map_eq_some_iff.mp h
  have hlen : (accRead (cacheLane p.2 t x.evc.toNat (!x.rp) p.1 false) p.1 (widthBytes x.w)).1.bnds.length
      = wordsOf (widthBytes x.w) := readLoc_bnds_length ..
  unfold ldLane
  simp only [resolve_of_lands hp, loadRegs_eq_loaded x.w x.d hlen]

/-- Settles O14: where a lane's access lands, it reads there, and its registers are those of Table 9-2. -/
theorem loadResults : Obligations.LoadResults :=
  fun _ => laneSteps_of_lane (fun _ => rfl) (fun _ _ _ _ _ => ldLane_of_loadStep)

/-! ## ST -/

/-- What a store takes from its registers (R202). -/
theorem storeData_eq (t : Thread) (w : Width) (d : VReg) : storeData t w d = (storedBytes t w d, storedBounds t w d) := by
  unfold storeData storedBytes storedBounds
  cases w with
  | b8 | s8 | b16 | s16 | b32 => rfl
  | b64 => exact Prod.ext (leBytes_pairWord ..) rfl
  | b128 => rfl

theorem isNarrow_eq (w : Width) : isNarrow w = decide (widthBytes w < 4) := by cases w <;> rfl

theorem stLane_of_storeStep {x : MemOps} {gid k : Nat} {t : Thread} {s u : State} (h : storeStep x k t s = some u) :
    stLane x gid k t s = (u, none) := by
  obtain ⟨p, hp, h⟩ := Option.bind_eq_some_iff.mp h
  split at h
  · cases h
  · next hfree =>
    cases h
    have hl : (locLock (cacheLane p.2 t x.evc.toNat false p.1 true) p.1.loc).isSome = false := by
      rw [locLock_cacheLane]
      exact Bool.eq_false_iff.mpr hfree
    unfold stLane
    simp only [resolve_of_lands hp, accStore_of_unlocked hl, storeData_eq, isNarrow_eq]

theorem st_held {x : MemOps} {s u : State} {gid k p : Nat} {g : Group} {t : Thread} {a : Acc} (h : At s gid g)
    (hact : activeOf s g x.g = [k]) (ht : getThread s k = some t)
    (hlands : lands s t x.space x.a x.ofs (widthBytes x.w) .write = some (a, u)) (hlock : locLock u a.loc = some p) :
    exec (.st x) s = .next (advance (laneHeld (cacheLane u t x.evc.toNat false a true) p gid k a.loc
      (laneVia u t x.space (operandAddr t x.space x.a x.ofs) .write)
      (.store (storedBytes t x.w x.d) (storedBounds t x.w x.d) (decide (widthBytes x.w < 4)) 0)) gid) := by
  refine congrArg Host.Outcome.next ((laneOp_at x.g (stLane x) h).trans ?_)
  have hlane : stLane x gid k t s = (laneHeld (cacheLane u t x.evc.toNat false a true) p gid k a.loc
      (laneVia u t x.space (operandAddr t x.space x.a x.ofs) .write)
      (.store (storedBytes t x.w x.d) (storedBounds t x.w x.d) (decide (widthBytes x.w < 4)) 0), none) := by
    unfold stLane
    simp only [resolve_of_lands hlands, accStore, locLock_cacheLane, hlock, storeData_eq, isNarrow_eq]
  rw [hact]
  simp only [foldLanes, ht, hlane, splitFaults_nil]

/-- Settles O15: a store that no lock holds is made at its address; a lock keeps it with the mapping it came by. -/
theorem storeResults : Obligations.StoreResults := by
  refine ⟨fun x => laneSteps_of_lane (fun _ => rfl) (fun _ _ _ _ _ => stLane_of_storeStep), ?_⟩
  intro x s gid g k t a u p h hact ht hlands hlock
  rw [st_held h hact ht hlands hlock]
  unfold laneHeld laneVia holdWrite
  cases x.space <;> rfl

end Sys2Proof.Laws

/-! SUPPORT. Atomics and reductions (R210-R212): a lane's step at its home or in a partial, and the integer rows of Table 9-5. -/

namespace Sys2Proof.Laws

open Sys2Proof.Machine Sys2Proof.Claims Sys2Proof.Safety

/-! ## What the caches' part of an atomic leaves -/

theorem takeCopies_uncached (s : State) (core line : Nat) : uncached (takeCopies s core line).mem = uncached s.mem :=
  (congrArg uncached (answered_mem s (some core) line true) :)

theorem cacheLane_uncached (s : State) (t : Thread) (evc : Nat) (plain : Bool) (a : Acc) (w : Bool) :
    uncached (cacheLane s t evc plain a w).mem = uncached s.mem := by
  unfold cacheLane
  cases a.stash with
  | none => exact cacheAcc_uncached ..
  | some r =>
    have hfill : uncached (if (stashLine s (some r)).isSome then s
        else cacheAcc s (some (coreOf s t)) 7 plain a.loc false).mem = uncached s.mem := by
      split
      · rfl
      · exact cacheAcc_uncached ..
    dsimp only
    cases w
    · exact hfill
    · exact (takeCopies_uncached ..).trans hfill

theorem atomAcc_uncached (s : State) (t : Thread) (evc : BitVec 3) (a : Acc) : uncached (atomAcc s t evc a).mem = uncached s.mem := by
  unfold atomAcc
  split
  · exact cacheLane_uncached ..
  · exact cacheAcc_uncached ..

theorem atomAcc_chunks (s : State) (t : Thread) (evc : BitVec 3) (a : Acc) : (atomAcc s t evc a).mem.chunks = s.mem.chunks :=
  (congrArg MemSys.chunks (atomAcc_uncached s t evc a) :)

theorem atomAcc_accessOnly (s : State) (t : Thread) (evc : BitVec 3) (a : Acc) : AccessOnly s (atomAcc s t evc a) := by
  unfold atomAcc
  split
  · exact cacheLane_accessOnly ..
  · exact cacheAcc_accessOnly ..

theorem locLock_of_accessOnly {s u : State} (h : AccessOnly s u) (l : Loc) : locLock u l = locLock s l := by
  cases l with
  | phys pa k bt => rw [locLock, locLock, holdOf, holdOf, h.parts]
  | scr g o => rfl

theorem locLock_none {s : State} {l : Loc} (h : ¬ (locLock s l).isSome = true) : locLock s l = none :=
  Option.not_isSome_iff_eq_none.mp h

/-! ## ATOM and ACAS (R211) -/

theorem atomStep_eq_swapAt (s : State) (k : Nat) (a : Acc) (op : AOp) (ty : Ty) (b : DWord) (bb : BitVec 16) (d : VReg) :
    atomStep s k a op ty b bb (some d) = swapAt k a ty d (fun g => some (atomRes op ty g.val g.bnd b bb)) s := rfl

theorem atomLane_of_step {x : AtomOps} {gid k : Nat} {t : Thread} {s u : State} (h : atomStepOf x k t s = some u) :
    atomLane x gid k t s = (u, none) := by
  obtain ⟨p, hp, h⟩ := Option.bind_eq_some_iff.mp h
  split at h
  · cases h
  · next hfree =>
    cases h
    unfold atomLane
    simp only [resolve_of_lands hp, locLock_of_accessOnly (atomAcc_accessOnly p.2 t x.evc p.1), locLock_none hfree, atomStep_eq_swapAt]

/-- A value as wide as its type is its own low bits. -/
theorem lowBits_of_lt {ty : Ty} {v : DWord} (h : v.toNat < 2 ^ tyBits ty) : lowBits ty v = v.toNat := Nat.mod_eq_of_lt h

theorem got_lt (ty : Ty) {g : Got} (h : g.bytes.length = ty.bytes) : g.val.toNat < 2 ^ tyBits ty := by
  have hlt := leNat_lt g.bytes
  have hpow : 256 ^ ty.bytes = 2 ^ tyBits ty := by cases ty <;> rfl
  rw [h, hpow] at hlt
  exact Nat.lt_of_le_of_lt (by rw [Got.val, BitVec.toNat_ofNat]; exact Nat.mod_le ..) hlt

theorem tVal_lt (ty : Ty) (t : Thread) (r : VReg) : (tVal t ty.wide r).toNat < 2 ^ tyBits ty := by
  unfold tVal rdTy tyBits
  cases ty.wide with
  | true => exact (pairWord _ _).isLt
  | false =>
    have hlt := (getReg t r.toNat).val.isLt
    simp only [Bool.false_eq_true, if_false, BitVec.toNat_setWidth]
    omega

/-- A compare of low bits is one of the values themselves. -/
theorem lowBits_eq_iff {ty : Ty} {v b : DWord} (hv : v.toNat < 2 ^ tyBits ty) (hb : b.toNat < 2 ^ tyBits ty) :
    lowBits ty v = lowBits ty b ↔ v = b := by
  rw [lowBits_of_lt hv, lowBits_of_lt hb, BitVec.toNat_inj]

theorem orFlags_zero (t : Thread) : orFlags t 0 = t := congrArg (fun f => { t with flags := f }) BitVec.or_zero

theorem zero_or_flag (f : Byte) : 0 ||| f = f := BitVec.zero_or

theorem acasStep_eq_swapAt (s : State) (k : Nat) (a : Acc) (ty : Ty) (t : Thread) (b : VReg) (c : DWord) (cb : BitVec 16) (d : VReg) :
    acasStep s k a ty (tVal t ty.wide b) c cb d
      = swapAt k a ty d (fun g => if g.val = tVal t ty.wide b then some ⟨c, 0, cb⟩ else none) s := by
  have hlen : (accRead s a ty.bytes).1.bytes.length = ty.bytes := readLoc_bytes_length ..
  unfold acasStep swapAt
  simp only [lowBits_eq_iff (got_lt ty hlen) (tVal_lt ty t b)]
  split
  · simp only [accPoke, zero_or_flag]
    rfl
  · simp only [flIf, Bool.false_eq_true, if_false, orFlags_zero]

theorem acasLane_of_step {x : AcasOps} {gid k : Nat} {t : Thread} {s u : State} (h : acasStepOf x k t s = some u) :
    acasLane x gid k t s = (u, none) := by
  obtain ⟨p, hp, h⟩ := Option.bind_eq_some_iff.mp h
  split at h
  · cases h
  · next hfree =>
    cases h
    unfold acasLane
    simp only [resolve_of_lands hp, locLock_of_accessOnly (atomAcc_accessOnly p.2 t x.evc p.1), locLock_none hfree, acasStep_eq_swapAt]

theorem atomicEffects : Claims.AtomicEffects :=
  ⟨fun _ => laneSteps_of_lane (fun _ => rfl) (fun _ _ _ _ _ => atomLane_of_step),
    fun _ _ => laneSteps_of_lane (fun _ => rfl) (fun _ _ _ _ _ => acasLane_of_step)⟩

/-! ## RED (R212, R128) -/

theorem dropsBound_singleton (m : MemSys) (bt : Bool) (pa : Nat) (b : BitVec 16) :
    dropsBound m bt pa [b] = (b ≠ 0 && !(bt && hasChunk m pa) : Bool) := by
  by_cases hb : b = 0#16 <;> simp [dropsBound, hb]

theorem dropsBound_atomAcc (s : State) (t : Thread) (evc : BitVec 3) (a : Acc) (bt : Bool) (pa : Nat) (bs : List (BitVec 16)) :
    dropsBound (atomAcc s t evc a).mem bt pa bs = dropsBound s.mem bt pa bs := by
  unfold dropsBound
  rw [hasChunk_of_chunks (atomAcc_chunks s t evc a) rfl]

theorem redLane_of_step {x : AtomOps} {gid k : Nat} {t : Thread} {s u : State} (h : redStepOf x k t s = some u) :
    redLane x gid k t s = (u, none) := by
  obtain ⟨⟨⟨loc, st⟩, v⟩, hp, h⟩ := Option.bind_eq_some_iff.mp h
  dsimp only at h
  split at h
  · cases h
  · next hfree =>
    unfold redLane
    simp only [resolve_of_lands hp, locLock_none hfree]
    cases loc with
    | scr g o =>
      cases h
      rfl
    | phys pa key bt =>
      cases h
      cases st with
      | some r =>
        simp only [redStep, dropsBound_atomAcc]
        simp only [dropsBound_singleton]
        rfl
      | none =>
        have hmem : (drawBool v).2.mem = v.mem := rfl
        simp only [Option.isSome_none, Bool.false_eq_true, if_false]
        cases (drawBool v).1 with
        | true =>
          simp only [if_true, dropsBound_singleton, hmem]
          rfl
        | false =>
          simp only [Bool.false_eq_true, if_false, redStep, dropsBound_atomAcc]
          simp only [dropsBound_singleton, hmem]
          rfl

theorem reductionEffects : Claims.ReductionEffects :=
  fun _ => laneSteps_of_lane (fun _ => rfl) (fun _ _ _ _ _ => redLane_of_step)

/-! ## Table 9-5 on integers -/

theorem setWidth_loWord_of_narrow {ty : Ty} (h : ty.wide = false) (x : DWord) :
    BitVec.ofNat 64 (lowBits ty x) = (loWord x).setWidth 64 := by
  refine BitVec.eq_of_toNat_eq ?_
  simp only [lowBits, tyBits, h, loWord, BitVec.toNat_ofNat, BitVec.toNat_setWidth]
  rfl

theorem ofNat_lowBits_of_wide {ty : Ty} (h : ty.wide = true) (x : DWord) : BitVec.ofNat 64 (lowBits ty x) = x := by
  refine BitVec.eq_of_toNat_eq ?_
  have hlt := x.isLt
  simp only [lowBits, tyBits, h, BitVec.toNat_ofNat, if_true]
  omega

theorem intBits_of_narrow {ty : Ty} (h : ty.wide = false) (k : Int) : intBits ty k = (BitVec.ofInt 32 k).setWidth 64 := by
  rw [← intBits_narrow h]
  have hlt : (intBits ty k).toNat < 2 ^ 32 := by
    rw [intBits, tyBits, h, BitVec.toNat_ofNat, if_neg Bool.false_ne_true]
    omega
  refine BitVec.eq_of_toNat_eq ?_
  simp only [loWord, BitVec.toNat_setWidth]
  omega

/-- The least and the greatest of two words, by a reading of them as integers. -/
theorem ofInt_min {w : Nat} {f : BitVec w → Int} (hf : ∀ x, BitVec.ofInt w (f x) = x) (a b : BitVec w) :
    BitVec.ofInt w (min (f a) (f b)) = if f a ≤ f b then a else b := by
  rw [min_def]
  split <;> exact hf _

theorem ofInt_max {w : Nat} {f : BitVec w → Int} (hf : ∀ x, BitVec.ofInt w (f x) = x) (a b : BitVec w) :
    BitVec.ofInt w (max (f a) (f b)) = if f a ≤ f b then b else a := by
  rw [max_def]
  split <;> exact hf _

theorem ofInt_toNat {w : Nat} (x : BitVec w) : BitVec.ofInt w (x.toNat : Int) = x := by
  rw [BitVec.ofInt_natCast, BitVec.ofNat_toNat, BitVec.setWidth_eq]

theorem ule_iff_cast {w : Nat} (a b : BitVec w) : a.ule b = true ↔ (a.toNat : Int) ≤ b.toNat := by simp [BitVec.ule]

theorem sle_iff_toInt {w : Nat} (a b : BitVec w) : a.sle b = true ↔ a.toInt ≤ b.toInt := by simp [BitVec.sle]

theorem intOf_n32 (x : DWord) : intOf .n32 x = ((loWord x).toNat : Int) := intOf_unsigned rfl x
theorem intOf_n64 (x : DWord) : intOf .n64 x = (x.toNat : Int) := intOf_unsigned rfl x

theorem atomRes_add_narrow {ty : Ty} (h : ty = .s32 ∨ ty = .n32) (old b : DWord) (bo bb : BitVec 16) :
    atomRes .add ty old bo b bb = ⟨(loWord old + loWord b).setWidth 64, 0, 0⟩ := by
  rcases h with rfl | rfl
  · change (⟨intBits .s32 (intOf .s32 old + intOf .s32 b), 0, 0⟩ : Deliv) = _
    rw [intBits_of_narrow rfl, intOf_s32, intOf_s32, BitVec.ofInt_add, BitVec.ofInt_toInt, BitVec.ofInt_toInt]
    rfl
  · change (⟨intBits .n32 (intOf .n32 old + intOf .n32 b), 0, 0⟩ : Deliv) = _
    rw [intBits_of_narrow rfl, intOf_n32, intOf_n32, BitVec.ofInt_add, ofInt_toNat, ofInt_toNat]

theorem atomRes_add_wide {ty : Ty} (h : ty = .s64 ∨ ty = .n64) (old b : DWord) (bo bb : BitVec 16) :
    atomRes .add ty old bo b bb = ⟨old + b, 0, 0⟩ := by
  rcases h with rfl | rfl
  · change (⟨intBits .s64 (intOf .s64 old + intOf .s64 b), 0, 0⟩ : Deliv) = _
    rw [intBits_wide rfl, intOf_s64, intOf_s64, BitVec.ofInt_add, BitVec.ofInt_toInt, BitVec.ofInt_toInt]
  · change (⟨intBits .n64 (intOf .n64 old + intOf .n64 b), 0, 0⟩ : Deliv) = _
    rw [intBits_wide rfl, intOf_n64, intOf_n64, BitVec.ofInt_add, ofInt_toNat, ofInt_toNat]

section Table

variable (old b : DWord) (bo bb : BitVec 16)

theorem atomRes_bits_narrow {ty : Ty} (h : ty.wide = false) :
    atomRes .and ty old bo b bb = ⟨(loWord old &&& loWord b).setWidth 64, 0, 0⟩
    ∧ atomRes .or ty old bo b bb = ⟨(loWord old ||| loWord b).setWidth 64, 0, 0⟩
    ∧ atomRes .xor ty old bo b bb = ⟨(loWord old ^^^ loWord b).setWidth 64, 0, 0⟩ := by
  simp only [atomRes, setWidth_loWord_of_narrow h, loWord, BitVec.setWidth_and, BitVec.setWidth_or, BitVec.setWidth_xor, and_self]

theorem atomRes_bits_wide {ty : Ty} (h : ty.wide = true) :
    atomRes .and ty old bo b bb = ⟨old &&& b, 0, 0⟩ ∧ atomRes .or ty old bo b bb = ⟨old ||| b, 0, 0⟩
    ∧ atomRes .xor ty old bo b bb = ⟨old ^^^ b, 0, 0⟩ := by
  simp only [atomRes, ofNat_lowBits_of_wide h, and_self]

theorem atomRes_exch_narrow {ty : Ty} (h : ty.wide = false) : atomRes .exch ty old bo b bb = ⟨(loWord b).setWidth 64, 0, bb⟩ := by
  simp only [atomRes, setWidth_loWord_of_narrow h]

theorem atomRes_exch_wide {ty : Ty} (h : ty.wide = true) : atomRes .exch ty old bo b bb = ⟨b, 0, bb⟩ := by
  simp only [atomRes, ofNat_lowBits_of_wide h]

theorem atomRes_min_s64 : atomRes .min .s64 old bo b bb = ⟨if old.sle b then old else b, 0, 0⟩ := by
  change (⟨intBits .s64 (min (intOf .s64 old) (intOf .s64 b)), 0, 0⟩ : Deliv) = _
  simp only [intBits_wide (ty := .s64) rfl, intOf_s64, ofInt_min (f := BitVec.toInt) (fun _ => BitVec.ofInt_toInt), sle_iff_toInt]

theorem atomRes_max_s64 : atomRes .max .s64 old bo b bb = ⟨if old.sle b then b else old, 0, 0⟩ := by
  change (⟨intBits .s64 (max (intOf .s64 old) (intOf .s64 b)), 0, 0⟩ : Deliv) = _
  simp only [intBits_wide (ty := .s64) rfl, intOf_s64, ofInt_max (f := BitVec.toInt) (fun _ => BitVec.ofInt_toInt), sle_iff_toInt]

theorem atomRes_min_n64 : atomRes .min .n64 old bo b bb = ⟨if old.ule b then old else b, 0, 0⟩ := by
  change (⟨intBits .n64 (min (intOf .n64 old) (intOf .n64 b)), 0, 0⟩ : Deliv) = _
  simp only [intBits_wide (ty := .n64) rfl, intOf_n64, ofInt_min ofInt_toNat, ule_iff_cast]

theorem atomRes_max_n64 : atomRes .max .n64 old bo b bb = ⟨if old.ule b then b else old, 0, 0⟩ := by
  change (⟨intBits .n64 (max (intOf .n64 old) (intOf .n64 b)), 0, 0⟩ : Deliv) = _
  simp only [intBits_wide (ty := .n64) rfl, intOf_n64, ofInt_max ofInt_toNat, ule_iff_cast]

theorem atomRes_min_n32 :
    atomRes .min .n32 old bo b bb = ⟨(if (loWord old).ule (loWord b) then loWord old else loWord b).setWidth 64, 0, 0⟩ := by
  change (⟨intBits .n32 (min (intOf .n32 old) (intOf .n32 b)), 0, 0⟩ : Deliv) = _
  simp only [intBits_of_narrow (ty := .n32) rfl, intOf_n32, ofInt_min ofInt_toNat, ule_iff_cast]

theorem atomRes_max_n32 :
    atomRes .max .n32 old bo b bb = ⟨(if (loWord old).ule (loWord b) then loWord b else loWord old).setWidth 64, 0, 0⟩ := by
  change (⟨intBits .n32 (max (intOf .n32 old) (intOf .n32 b)), 0, 0⟩ : Deliv) = _
  simp only [intBits_of_narrow (ty := .n32) rfl, intOf_n32, ofInt_max ofInt_toNat, ule_iff_cast]

theorem atomRes_min_s32 :
    atomRes .min .s32 old bo b bb = ⟨(if (loWord old).sle (loWord b) then loWord old else loWord b).setWidth 64, 0, 0⟩ := by
  change (⟨intBits .s32 (min (intOf .s32 old) (intOf .s32 b)), 0, 0⟩ : Deliv) = _
  simp only [intBits_of_narrow (ty := .s32) rfl, intOf_s32, ofInt_min (f := BitVec.toInt) (fun _ => BitVec.ofInt_toInt),
    sle_iff_toInt, loWord]

theorem atomRes_max_s32 :
    atomRes .max .s32 old bo b bb = ⟨(if (loWord old).sle (loWord b) then loWord b else loWord old).setWidth 64, 0, 0⟩ := by
  change (⟨intBits .s32 (max (intOf .s32 old) (intOf .s32 b)), 0, 0⟩ : Deliv) = _
  simp only [intBits_of_narrow (ty := .s32) rfl, intOf_s32, ofInt_max (f := BitVec.toInt) (fun _ => BitVec.ofInt_toInt),
    sle_iff_toInt, loWord]

end Table

theorem atomicIntegerTable : Claims.AtomicIntegerTable := by
  intro old b bo bb
  refine ⟨fun ty h => atomRes_add_narrow h old b bo bb, fun ty h => atomRes_bits_narrow old b bo bb ?_,
    fun ty h => atomRes_exch_narrow old b bo bb ?_, fun ty h => ⟨atomRes_add_wide h old b bo bb, atomRes_bits_wide old b bo bb ?_⟩,
    fun ty h => atomRes_exch_wide old b bo bb ?_, atomRes_min_s64 .., atomRes_max_s64 .., atomRes_min_n64 .., atomRes_max_n64 ..,
    atomRes_min_n32 .., atomRes_max_n32 .., atomRes_min_s32 .., atomRes_max_s32 ..⟩
  · rcases h with rfl | rfl | rfl <;> rfl
  · rcases h with rfl | rfl | rfl | rfl <;> rfl
  · rcases h with rfl | rfl <;> rfl
  · rcases h with rfl | rfl | rfl <;> rfl

/-- Settles O17: each lane's step is made at the home, or joins a partial; integer results are the operations on words. -/
theorem atomicResults : Obligations.AtomicResults := ⟨atomicEffects, reductionEffects, atomicIntegerTable⟩

end Sys2Proof.Laws

/-! SUPPORT. Count objects (R213-R217): an object's 32 bytes as one number, and the lanes of CSIG, CPEND, CWAIT and CRD. -/

namespace Sys2Proof.Laws

open Sys2Proof.Machine Sys2Proof.Claims Sys2Proof.Safety

/-! ## The object as a number (Table 5-6) -/

/-- The object of bytes that set no reserved bit. -/
theorem cobjOf_of_free {l : List Byte} (h : objReserved (leNat l) = false) :
    cobjOf l = some ⟨leNat l % 2 ^ 64, leNat l / 2 ^ 64 % 2 ^ 28, BitVec.ofNat 8 (leNat l / 2 ^ 96)⟩ :=
  if_neg (fun hr => Bool.false_ne_true (h.symm.trans hr))

theorem objReserved_eq_false {n : Nat} (h : objReserved n = false) : n / 2 ^ 92 % 16 = 0 ∧ n / 2 ^ 104 = 0 := by
  simpa [objReserved] using h

/-- A signal that the object takes (R214). -/
theorem cobjUpd_of_objSignal {l : List Byte} {v : Nat} {fl : Byte} {n : Nat} (h : objSignal (leNat l) v fl = some n) :
    ∃ c, cobjUpd (cobjOf l) ⟨v, 0, fl⟩ = .ok c ∧ cobjBytes c = leBytes 32 n := by
  unfold objSignal at h
  split at h
  · cases h
  · next hno =>
    cases h
    obtain ⟨hres, hcount⟩ := not_or.mp (fun ho => hno (Bool.or_eq_true _ _ ▸ ho))
    obtain ⟨h92, h104⟩ := objReserved_eq_false (Bool.eq_false_iff.mpr hres)
    have hlt : leNat l % 2 ^ 64 + v < 2 ^ 64 := by simpa using hcount
    refine ⟨⟨leNat l % 2 ^ 64 + v, leNat l / 2 ^ 64 % 2 ^ 28, BitVec.ofNat 8 (leNat l / 2 ^ 96) ||| fl⟩, ?_, ?_⟩
    · rw [cobjOf_of_free (Bool.eq_false_iff.mpr hres)]
      unfold cobjUpd
      dsimp only
      rw [if_neg (by omega), if_neg (by omega)]
      congr 2
    · unfold cobjBytes
      dsimp only
      congr 1
      omega

/-- A change of PEND that the object takes (R214). -/
theorem cobjUpd_of_objPend {l : List Byte} {v : Nat} {sub : Bool} {n : Nat} (h : objPend (leNat l) v sub = some n) :
    ∃ c, cobjUpd (cobjOf l) ⟨0, if sub then -(v : Int) else v, 0⟩ = .ok c ∧ cobjBytes c = leBytes 32 n := by
  unfold objPend at h
  dsimp only at h
  split at h
  · cases h
  · next hres =>
    replace hres := Bool.eq_false_iff.mpr hres
    obtain ⟨h92, h104⟩ := objReserved_eq_false hres
    have hflags : (BitVec.ofNat 8 (leNat l / 2 ^ 96) ||| 0).toNat = leNat l / 2 ^ 96 := by
      rw [show BitVec.ofNat 8 (leNat l / 2 ^ 96) ||| 0 = BitVec.ofNat 8 (leNat l / 2 ^ 96) from BitVec.or_zero, BitVec.toNat_ofNat]
      omega
    rw [cobjOf_of_free hres]
    unfold cobjUpd cobjBytes
    dsimp only
    cases sub with
    | true =>
      simp only [if_true] at h ⊢
      split at h
      · next hv =>
        cases h
        rw [if_neg (by omega), if_neg (by omega)]
        refine ⟨_, rfl, congrArg (leBytes 32) ?_⟩
        dsimp only
        rw [hflags]
        omega
      · cases h
    | false =>
      simp only [Bool.false_eq_true, if_false] at h ⊢
      split at h
      · next hv =>
        cases h
        rw [if_neg (by omega), if_neg (by omega)]
        refine ⟨_, rfl, congrArg (leBytes 32) ?_⟩
        dsimp only
        rw [hflags]
        omega
      · cases h

/-! ## CSIG and CPEND (R214) -/

/-- Where a lane's object lands, its checks pass (R215). -/
theorem cobjAcc_of_objLands {s : State} {t : Thread} {sp : Space} {a : VReg} {k : AKind} {p : Acc × State}
    (h : objLands s t sp a k = some p) (operand : DWord) :
    cobjAcc s t sp (operandAddr t sp a 0) k operand = (.ok p.1, p.2) ∧ p.1.stash = none := by
  obtain ⟨q, hq, h⟩ := Option.bind_eq_some_iff.mp h
  split at h
  · cases h
  · next hst =>
    cases h
    unfold cobjAcc
    simp only [resolve_of_lands hq, if_neg hst]
    exact ⟨trivial, Option.not_isSome_iff_eq_none.mp hst⟩

theorem touchStash_none (s : State) (line : Nat) (store : Bool) : touchStash s none line store = s := rfl

/-- The update of an object, made at once. -/
theorem cobjStep_of_upd {s : State} {a : Acc} {u : CUpd} {c : CObj} {n : Nat} (hst : a.stash = none)
    (hu : cobjUpd (cobjOf (accRead s a 32).1.bytes) u = .ok c) (hb : cobjBytes c = leBytes 32 n) :
    cobjStep s a u = (.ok (), (pokeLoc (accRead s a 32).2 a.loc none (leBytes 32 n) (List.replicate 8 0) false).1) := by
  unfold cobjStep
  simp only [hu, hb, hst, touchStash_none]

theorem cobjLane_of_objStep {x : CobjOps} {f : Thread → Nat → Option Nat} {upd : Thread → CUpd} {held : Thread → WOp} {gid k : Nat}
    {t : Thread} {s u : State} (h : objStep x f k t s = some u)
    (hupd : ∀ l n, f t (leNat l) = some n → ∃ c, cobjUpd (cobjOf l) (upd t) = .ok c ∧ cobjBytes c = leBytes 32 n) :
    cobjLane x upd held gid k t s = (u, none) := by
  obtain ⟨p, hp, h⟩ := Option.bind_eq_some_iff.mp h
  split at h
  · cases h
  · next hfree =>
    obtain ⟨n, hn, rfl⟩ := Option.map_eq_some_iff.mp h
    obtain ⟨c, hc, hb⟩ := hupd _ n hn
    obtain ⟨hacc, hst⟩ := cobjAcc_of_objLands hp (tVal t x.wide x.b)
    have hlock : locLock (homeAcc p.2 p.1.loc true) p.1.loc = none :=
      (locLock_of_accessOnly (cacheAcc_accessOnly ..) _).trans (Option.not_isSome_iff_eq_none.mp hfree)
    unfold cobjLane
    simp only [hacc, hlock, cobjStep_of_upd hst hc hb]

theorem csigLane_of_step {x : CobjOps} {fl : Bool} {gid k : Nat} {t : Thread} {s u : State}
    (h : objStep x (fun t n => objSignal n (tVal t x.wide x.b).toNat (if fl then t.flags else 0)) k t s = some u) :
    csigLane fl x gid k t s = (u, none) := by
  unfold csigLane
  exact cobjLane_of_objStep h (fun _ _ => cobjUpd_of_objSignal)

theorem cpendLane_of_step {x : CobjOps} {sub : Bool} {gid k : Nat} {t : Thread} {s u : State}
    (h : objStep x (fun t n => objPend n (tVal t x.wide x.b).toNat sub) k t s = some u) : cpendLane sub x gid k t s = (u, none) := by
  unfold cpendLane
  exact cobjLane_of_objStep h (fun _ _ => cobjUpd_of_objPend)

/-! ## CWAIT and CRD (R216, R217) -/

theorem cwaitLane_of_step {x : CobjOps} {gid k : Nat} {t : Thread} {s u : State} (h : cwaitStep x gid k t s = some u) :
    cwaitLane x gid k t s = (u, none) := by
  obtain ⟨p, hp, h⟩ := Option.bind_eq_some_iff.mp h
  obtain ⟨hacc, -⟩ := cobjAcc_of_objLands hp (tVal t x.wide x.b)
  dsimp only at h
  split at h
  · cases h
  · next hres =>
    have heval : cwaitEval s t x.space (operandAddr t x.space x.a 0) (tVal t x.wide x.b)
        = (.ok (objDone (leNat (accRead (homeAcc p.2 p.1.loc false) p.1 32).1.bytes) (tVal t x.wide x.b).toNat),
          (accRead (homeAcc p.2 p.1.loc false) p.1 32).2) := by
      unfold cwaitEval
      simp only [hacc, cobjOf_of_free (Bool.eq_false_iff.mpr hres)]
      rfl
    unfold cwaitLane
    simp only [heval]
    split at h
    · next hdone =>
      cases h
      simp only [hdone]
    · next hdone =>
      cases h
      simp only [Bool.eq_false_iff.mpr hdone]

theorem crdLane_of_step {x : CrdOps} {k : Nat} {t : Thread} {s u : State} (h : crdStep x k t s = some u) :
    crdLane x k t s = (u, none) := by
  obtain ⟨p, hp, h⟩ := Option.bind_eq_some_iff.mp h
  obtain ⟨hacc, -⟩ := cobjAcc_of_objLands hp 0
  dsimp only at h
  split at h
  · cases h
  · next hres =>
    cases h
    have hlo : ∀ n, w32 (n % 2 ^ 64) = BitVec.ofNat 32 n := fun n => BitVec.eq_of_toNat_eq (by simp only [w32, BitVec.toNat_ofNat]; omega)
    have hhi : ∀ n, w32 (n % 2 ^ 64 / 2 ^ 32) = BitVec.ofNat 32 (n / 2 ^ 32) :=
      fun n => BitVec.eq_of_toNat_eq (by simp only [w32, BitVec.toNat_ofNat]; omega)
    have hfl : ∀ n, (BitVec.ofNat 8 n).setWidth 32 = BitVec.ofNat 32 (n % 2 ^ 8) :=
      fun n => BitVec.eq_of_toNat_eq (by simp only [BitVec.toNat_setWidth, BitVec.toNat_ofNat])
    unfold crdLane
    simp only [hacc, cobjOf_of_free (Bool.eq_false_iff.mpr hres), hlo, hhi, hfl]
    rfl

/-- Settles O18: each lane's step on the object's number is the model's on its fields. -/
theorem countObjectResults : Obligations.CountObjectResults := by
  refine ⟨fun x => ?_, fun x => ?_, fun x => ?_, fun x => ?_, fun x => ?_, fun x => ?_⟩
  · exact laneSteps_of_lane (fun _ => rfl) (fun _ _ _ _ _ h => csigLane_of_step (fl := false) h)
  · exact laneSteps_of_lane (fun _ => rfl) (fun _ _ _ _ _ h => csigLane_of_step (fl := true) h)
  · exact laneSteps_of_lane (fun _ => rfl) (fun _ _ _ _ _ => cpendLane_of_step)
  · exact laneSteps_of_lane (fun _ => rfl) (fun _ _ _ _ _ => cpendLane_of_step)
  · exact laneSteps_of_lane (fun _ => rfl) (fun _ _ _ _ _ => cwaitLane_of_step)
  · exact laneSteps_of_lane (fun _ => rfl) (fun _ _ _ _ _ => crdLane_of_step)

end Sys2Proof.Laws

/-! SUPPORT. Two states of one thread that the statements on CWB (R209) and on a load's frame (R201) leave out of account. -/

namespace Sys2Proof.Laws

open Sys2Proof.Machine Sys2Proof.Claims Sys2Proof.Safety

/-! ## One thread in its issue group -/

/-- A thread whose pair 4 holds the virtual address 2^30, which the page table `selfTable` takes to the physical line 0, and whose
register 6 holds 128. -/
def pairFourThread : Thread :=
  { newThread 0 0 0 0 0 0 soloRecord true with
    st := .grouped 2, regs := [(4, ⟨0x40000000, 0⟩), (5, ⟨0, 0⟩), (6, ⟨128, 0⟩)] }

/-- The thread's issue group, at slot 0 of a clause of two words. -/
def twoSlotGroup : Group := ⟨0, 0, [0], ⟨0x1000, clsSys, [0, 0], 0⟩, [], .none⟩

/-- The group runs, with core groups, copies in L1 and dies of the package as given. -/
def pairFourState (cores : Map CoreGroup) (copies : Map CLine) (dies : Map Die) : State := { State.reset with
  cur := .group 2
  agenda := []
  threads := [(0, pairFourThread)]
  groups := [(2, twoSlotGroup)]
  coreGroups := cores
  parts := [(0, { Part.reset with ptRoot := 0x1001 })]
  mem := { State.reset.mem with bytes := selfTable, keys := [(0, ⟨true, some 0⟩)], l1 := copies }
  pkg := { State.reset.pkg with dies := dies } }

theorem at_pairFourState (cores : Map CoreGroup) (copies : Map CLine) (dies : Map Die) :
    At (pairFourState cores copies dies) 2 twoSlotGroup := ⟨rfl, rfl⟩

/-! ## A write-back that waits for a sleeping die (R209, R344, R345) -/

/-- A core of die 1, whose link sleeps, holds line 0 dirty. -/
def holderAsleep : State := pairFourState [] [(l1Key 64 0, ⟨0, 0, .dirty⟩)] [(1, { Die.reset with asleep := true })]

/-- CWB of the range at pair 4, of the length in register 6. -/
def cwbFour : RangeOps := ⟨⟨false, 7⟩, 6, 4⟩

/-- The lane step that the statement gives CWB: the range cleaned, whoever holds its lines. -/
def cleansRange (x : RangeOps) (t : Thread) (s : State) : Option State :=
  let a := (tPair t x.a).toNat
  let n := (tWord t x.lr).toNat
  if n = 0 then some s
  else match rangePieces (n / 4096 + 3) s (whoOf s t) (a / 128 * 128) ((a + n + 127) / 128 * 128) with
    | (.ok ps, u) => some (ps.foldl (fun v p => cleanPhys v (some (coreOf u t)) p.1 p.2) u)
    | (.error _, _) => none

/-- The slot of an issue group, where a step goes on. -/
def slotAfter (gid : Nat) : Out → Option Nat
  | .next s => (getGroup s gid).map (·.pass.slot)
  | _ => none

/-- The model's CWB waits for the die: its group stays at slot 0. -/
theorem exec_cwb_waits : slotAfter 2 (exec (.cwb cwbFour) holderAsleep) = some 0 := by decide

/-- The statement's CWB has cleaned the range and goes on to slot 1. -/
theorem cleansRange_goes_on :
    (runLanes (fun _ => cleansRange cwbFour) (activeOf holderAsleep twoSlotGroup cwbFour.g) holderAsleep).map
      (fun u => slotAfter 2 (.next (advance u 2))) = some (some 1) := by decide

/-- Refutes O19: the statement has CWB clean the range wherever its pages' checks pass. Where a sleeping die holds a line of the
range dirty, the access waits for that die's answer (R344), and the group stays at the CWB. -/
theorem not_fenceAndStashResults : ¬ Obligations.FenceAndStashResults := by
  rintro ⟨-, -, -, -, -, -, -, hcwb, -⟩
  obtain ⟨u, hlanes, hslot⟩ := Option.map_eq_some_iff.mp cleansRange_goes_on
  have hmodel := exec_cwb_waits
  rw [hcwb cwbFour holderAsleep 2 twoSlotGroup u (at_pairFourState ..) hlanes, hslot] at hmodel
  exact absurd hmodel (by decide)

/-! ## A load through the stash of a core group listed out of order (R105, R201) -/

/-- The thread's core group, whose stash maps the addresses from 2^30 on, is listed behind that of a higher number. -/
def coresOutOfOrder : State :=
  pairFourState [(1, newCoreGroup 0 1 1), (0, { newCoreGroup 0 0 0 with smap := [(0, ⟨0x40000000, 128, 0⟩)] })] [] []

/-- LD.b32 of register 8 from pair 4 in `.sh`. -/
def stashLoad : MemOps := ⟨⟨false, 7⟩, .b32, .rlx, .quad, 0, .sh, false, 8, 4, 0⟩

/-- The core groups' keys, in their order. -/
def coreKeys (s : State) : List Nat := s.coreGroups.map (·.1)

/-- The load lands in the stash line, its translation leaving the order of the core groups and no partial. -/
theorem lands_stashLoad :
    (lands coresOutOfOrder pairFourThread .sh 4 0 4 .read).map (fun p => (coreKeys p.2, p.2.mem.partials.isEmpty)) = some ([1, 0], true) := by
  decide

/-- The core groups' keys, where a step goes on. -/
def coreKeysAfter : Out → Option (List Nat)
  | .next s => some (coreKeys s)
  | _ => none

/-- The first touch of the stash line puts the core group in its place. -/
theorem exec_stashLoad_sorts : coreKeysAfter (exec (.ld stashLoad) coresOutOfOrder) = some [0, 1] := by decide

/-- Refutes O22: the statement compares the lists of core groups, whatever their order. A load through a mapped stash line puts its core
group back in the rising order of a map; where the list did not have it, it changes, though each core group's scratch stays. -/
theorem not_loadFrame : ¬ Obligations.LoadFrame := by
  intro h
  obtain ⟨⟨a, u⟩, hlands, hu⟩ := Option.map_eq_some_iff.mp lands_stashLoad
  obtain ⟨hkeys, hpart⟩ := Prod.ext_iff.mp hu
  have hnone : u.mem.partials = [] := List.isEmpty_iff.mp hpart
  have hfit : PartialsFit u.mem := fun p hp => by simp [hnone] at hp
  have hsorts := exec_stashLoad_sorts
  cases hexec : exec (.ld stashLoad) coresOutOfOrder with
  | next v =>
    obtain ⟨-, -, hcores, -⟩ := h stashLoad coresOutOfOrder 2 twoSlotGroup 0 pairFourThread a u v (at_pairFourState ..) (by decide) rfl
      hlands hfit hexec (fun _ _ hf => nomatch hf)
    have hsame : coreKeys v = coreKeys u := by simpa [coreKeys, Function.comp_def] using congrArg (List.map (·.1)) hcores
    rw [hexec, coreKeysAfter, hsame, show coreKeys u = [1, 0] from hkeys] at hsorts
    exact absurd hsorts (by decide)
  | _ => rw [hexec] at hsorts; exact nomatch hsorts

end Sys2Proof.Laws
